-- ==== Sys2Proof/Word.lean ====
section
/-! DEFINITION. The word types of the machine and their plainest arithmetic
(spec/00_scope.md R8: a half is 16 bits, a word 32 bits, a quad 64 bits). -/

namespace Sys2Proof

/-- A byte. -/
abbrev Byte := BitVec 8
/-- A 64-bit pattern: what an x register holds (R145). -/
abbrev Quad := BitVec 64
/-- A vector value of 1,024 bits (R190). -/
abbrev Vec := BitVec 1024
/-- The number of an x register. -/
abbrev Reg := BitVec 5
/-- One 16-bit parcel of a text (R41). -/
abbrev Parcel := BitVec 16

/-- The quad that holds the integer `n` modulo 2⁶⁴ (R145, wrap). -/
abbrev quad (n : Int) : Quad := BitVec.ofInt 64 n

/-- The quad that holds the natural number `n` modulo 2⁶⁴. -/
abbrev quadN (n : Nat) : Quad := BitVec.ofNat 64 n

end Sys2Proof
end

