-- ==== Sys2Proof/Syntax.lean ====
section
/-! DEFINITION. The instructions of the Tchiquel TQ8 as syntax: one constructor for each row of
the opcode table. A row that a word encodes carries the fields of that word (R41-R67); a row that is
an event of the device carries what says where the event falls, as the schedule chooses it. -/

namespace Sys2Proof

/-- The four engines of a task context (R24). -/
inductive Eng where
  | x | l | c | s
  deriving DecidableEq, Repr, Inhabited

/-- A rounding mode (R87); its code is the RM field of R56. -/
inductive Rm where
  | rne | rtz | rdn | rup | rna
  deriving DecidableEq, Repr, Inhabited

/-- An ordering scope (R57, R126). -/
inductive Scope where
  | core | cluster | bed | device | system
  deriving DecidableEq, Repr, Inhabited

/-- The rounding and saturation prefix (R56); `rm = none` is RM 111, the mode in `ctl.round`. -/
structure RndPfx where
  ftz : Bool
  sat : Bool
  rm  : Option Rm
  deriving DecidableEq, Repr, Inhabited

/-- The ordering prefix (R57). -/
structure OrdPfx where
  scope : Scope
  rel   : Bool
  acq   : Bool
  deriving DecidableEq, Repr, Inhabited

/-- The guard prefix (R60). -/
structure Guard where
  pred  : BitVec 3
  sense : Bool
  deriving DecidableEq, Repr, Inhabited

/-- The prefixes that stand before an instruction, at most one of each kind (R55). `rext` holds
EXC, EXB, EXA, EXD from the highest bits down (R58), `imm` the EXT field (R59). -/
structure Pfx where
  rnd   : Option RndPfx := none
  ord   : Option OrdPfx := none
  rext  : Option (BitVec 8) := none
  imm   : Option (BitVec 11) := none
  guard : Option Guard := none
  deriving DecidableEq, Repr, Inhabited

/-- What modifies an instruction: its prefixes and its TK field (R49). -/
structure Mods where
  pfx : Pfx := {}
  tk  : BitVec 4 := 0
  deriving DecidableEq, Repr, Inhabited

/-- A vector operand in a source field (R53): a register, a stream, an `fd` queue. -/
inductive VSrc where
  | v (n : BitVec 6) | z (n : BitVec 4) | fd (n : BitVec 2)
  deriving DecidableEq, Repr, Inhabited

/-- A vector operand in a destination field (R53): a register, a stream, a `dn` or `bk` queue. -/
inductive VDst where
  | v (n : BitVec 6) | z (n : BitVec 4) | dn (n : BitVec 2) | bk (n : BitVec 1)
  deriving DecidableEq, Repr, Inhabited

/-- The index field of a vector load: an x register or a `bk` queue (R171, R266). -/
inductive XOrBk where
  | x (n : Reg) | bk (n : BitVec 1)
  deriving DecidableEq, Repr, Inhabited

/-- A condition of `cmp` and `cmpi` (R154), in the order of its codes. -/
inductive Cond where
  | eq | ne | lt | ge | le | gt | ltu | geu | leu | gtu | bs | bz
  deriving DecidableEq, Repr, Inhabited

/-- The format of a scalar load (R169), in the order of its codes. -/
inductive LdFmt where
  | i8s | i8n | i16s | i16n | i32s | i32n | i64s
  deriving DecidableEq, Repr, Inhabited

/-- An access or element width of 8, 16, 32 or 64 bits, in the order of its codes. -/
inductive Width where
  | w8 | w16 | w32 | w64
  deriving DecidableEq, Repr, Inhabited

/-- The size of an atomic (R178): code 01 a word, 10 a quad. -/
inductive ASize where
  | word | quad
  deriving DecidableEq, Repr, Inhabited

/-- An integer element type (R194). -/
inductive IntEt where
  | i8s | i16s | i32s | i64s
  deriving DecidableEq, Repr, Inhabited

/-- A floating element type (R196). -/
inductive FltEt where
  | fp16 | bf16 | fp32 | a56
  deriving DecidableEq, Repr, Inhabited

/-- A floating element type other than A56 (R198, R199). -/
inductive FltEt3 where
  | fp16 | bf16 | fp32
  deriving DecidableEq, Repr, Inhabited

/-- The element type of a compact floating form (R65), in the order of its codes. -/
inductive CFlt where
  | fp32 | bf16 | fp16
  deriving DecidableEq, Repr, Inhabited

/-- The condition of `vcmp` (R194), in the order of its codes. -/
inductive VCond where
  | eq | ne | lt | le | gt | ge
  deriving DecidableEq, Repr, Inhabited

/-- The condition of `vfcmp` (R196), in the order of its codes. -/
inductive FCond where
  | eq | ne | lt | le | gt | ge | un
  deriving DecidableEq, Repr, Inhabited

/-- The MODE of a matrix tile (R240, R241), in the order of its codes. -/
inductive TMode where
  | float | wrap | sat
  deriving DecidableEq, Repr, Inhabited

/-- A special register (R161). -/
inductive Spr where
  | ctlWindow | ctlSplit | ctlRound | ctlPoison | ctlPrio | ctlAsid | statTask | statStall | tagmap | slotPlan
  deriving DecidableEq, Repr, Inhabited

/-- The selector of `sqext` (R276). -/
inductive Sel3 where
  | k0 | k1 | k2
  deriving DecidableEq, Repr, Inhabited

/-- The units that one group of a launch binds, each list in the order of its role indices (R33). -/
structure GroupBind where
  core   : List Nat := []
  lane   : List Nat := []
  column : List Nat := []
  slice  : List Nat := []
  bed    : List Nat := []
  matrix : List Nat := []
  deriving DecidableEq, Repr, Inhabited

/-- A proposed assignment of a launch: its groups' units and all the cores it takes (R34, R314). -/
structure Binding where
  groups : List GroupBind := []
  cores  : List Nat := []
  deriving DecidableEq, Repr, Inhabited

/-- An operand of a Malig record (R373). -/
inductive MaligOperand where
  | x (n : Nat) | v (n : Nat) | p (n : Nat) | code (n : Nat)
  | imm (z : Int)
  | label (n : Nat)
  | symbol (n : Nat)
  deriving DecidableEq, Repr, Inhabited

/-- A record of a Malig section (R373). A block's count is a number, or names a virtual x register. -/
inductive MaligRec where
  | blockOpen (mask count : Nat)
  | blockOpenReg (mask : Nat) (reg : MaligOperand)
  | blockEnd
  | label (n : Nat)
  | yieldPoint (save restore : Nat)
  | prefixParcel (kind payload : Nat)
  | stageEntry (stage label : Nat)
  | instr (space major selector : Nat) (ops : List MaligOperand)
  deriving DecidableEq, Repr, Inhabited

/-- What a maintenance slot is used for (R234): the patrol scrub, the write-back of a line that was corrected, or a sample
of telemetry (R306, R307). -/
inductive Scrub where
  | patrol
  | writeBack (line : Nat)
  | sample
  deriving DecidableEq, Repr, Inhabited

/-- A unit that acknowledges a pre-emption (R345). -/
inductive StopUnit where
  | lane (n : Nat) | matrix (n : Nat) | transfer (n : Nat)
  deriving DecidableEq, Repr, Inhabited

/-- A unit whose firmware image is replaced (R376, R380). -/
inductive FwUnit where
  | security | service (n : Nat) | columns (n : Nat) | linkPort (n : Nat) | partition (p : Nat)
  deriving DecidableEq, Repr, Inhabited

/-- A firmware image: its bytes, the key it carries for the next stage, and its signature (R376). -/
structure Image where
  bytes : List Byte
  key   : List Byte
  sig   : List Byte
  deriving DecidableEq, Repr, Inhabited

/-- The defaults a partition record holds for host launches (R15, R378). -/
structure LaunchDefaults where
  cores : Nat := 0
  lanes : Nat := 0
  sram : Nat := 0
  vways : Nat := 0
  lslots : Nat := 0
  plse : Nat := 0
  vlines : Nat := 0
  prio : Nat := 0
  fdom : Nat := 0
  deriving DecidableEq, Repr, Inhabited

/-- The payload of a configuration record (R378). -/
inductive ConfigBody where
  | device (ring4 : Bool) (ports : List Bool) (key : List Byte)
  | partition (limit low crit : Nat) (fdom : List (BitVec 16)) (signed : Bool) (tenant : Nat)
      (salt : BitVec 256) (cores : BitVec 96) (defaults : LaunchDefaults)
  deriving DecidableEq, Repr, Inhabited

/-- A configuration record as it is submitted: version, payload and signature. -/
structure ConfigRecord where
  version : BitVec 64
  body    : ConfigBody
  sig     : List Byte
  deriving DecidableEq, Repr, Inhabited

/-- One step of the device: an instruction of a text, a block header, or an event of the opcode table. -/
inductive Instr where
  /-- An engine reaches a block header with an immediate repeat count, checks it, and skips the block or runs its body REP+1 times (R43, R44). -/
  | blockHeader (rep : BitVec 7) (body : BitVec 12) (mask : BitVec 4)
  /-- An engine reaches a block header whose repeat count is read once from its own x register, checks it, and skips the block or runs it that many times (R43, R44). -/
  | blockHeaderReg (r : Reg) (body : BitVec 12) (mask : BitVec 4)
  /-- 16-bit register move xd := xa (R64, R150). -/
  | mov16 (d : Reg) (a : Reg)
  /-- 16-bit add of a signed IMM5 to xd (R64, R150). -/
  | addi16 (d : Reg) (k : BitVec 5)
  /-- 16-bit load of a sign-extended IMM5 constant into xd (R64, R151). -/
  | li16 (d : Reg) (k : BitVec 5)
  /-- 16-bit xd := xd + xa (R64, R150). -/
  | add16 (d : Reg) (a : Reg)
  /-- 16-bit xd := xd - xa (R64, R150). -/
  | sub16 (d : Reg) (a : Reg)
  /-- 16-bit xd := xd AND xa (R64, R150). -/
  | and16 (d : Reg) (a : Reg)
  /-- 16-bit xd := xd OR xa (R64, R150). -/
  | or16 (d : Reg) (a : Reg)
  /-- 16-bit xd := xd XOR xa (R64, R150). -/
  | xor16 (d : Reg) (a : Reg)
  /-- 16-bit left shift of xd by an unsigned IMM5 (R64, R150). -/
  | shli16 (d : Reg) (k : BitVec 5)
  /-- 16-bit logical right shift of xd by an unsigned IMM5 (R64, R150). -/
  | shri16 (d : Reg) (k : BitVec 5)
  /-- 16-bit arithmetic right shift of xd by an unsigned IMM5 (R64, R150). -/
  | srai16 (d : Reg) (k : BitVec 5)
  /-- xd := xa + xb, wrapped, or clamped with SAT (R148). -/
  | add (m : Mods) (d : Reg) (a : Reg) (b : Reg)
  /-- xd := xa - xb, wrapped, or clamped with SAT (R148). -/
  | sub (m : Mods) (d : Reg) (a : Reg) (b : Reg)
  /-- Signed product of xa and xb, low 64 bits, or clamped with SAT (R148). -/
  | mul (m : Mods) (d : Reg) (a : Reg) (b : Reg)
  /-- High 64 bits of the signed product of xa and xb (R148). -/
  | mulh (m : Mods) (d : Reg) (a : Reg) (b : Reg)
  /-- High 64 bits of the unsigned product of xa and xb (R148). -/
  | mulhU (m : Mods) (d : Reg) (a : Reg) (b : Reg)
  /-- Signed division truncating toward zero; never traps (R148). -/
  | div (m : Mods) (d : Reg) (a : Reg) (b : Reg)
  /-- Unsigned division; a zero divisor gives all-ones (R148). -/
  | divU (m : Mods) (d : Reg) (a : Reg) (b : Reg)
  /-- Signed remainder with the sign of the dividend (R148). -/
  | rem (m : Mods) (d : Reg) (a : Reg) (b : Reg)
  /-- Unsigned remainder; a zero divisor gives the dividend (R148). -/
  | remU (m : Mods) (d : Reg) (a : Reg) (b : Reg)
  /-- xd := xa AND xb (R148). -/
  | and (m : Mods) (d : Reg) (a : Reg) (b : Reg)
  /-- xd := xa OR xb (R148). -/
  | or (m : Mods) (d : Reg) (a : Reg) (b : Reg)
  /-- xd := xa XOR xb (R148). -/
  | xor (m : Mods) (d : Reg) (a : Reg) (b : Reg)
  /-- xd := xa AND NOT xb (R148). -/
  | andn (m : Mods) (d : Reg) (a : Reg) (b : Reg)
  /-- Left shift by u(xb); 0 when the amount is 64 or more (R148). -/
  | shl (m : Mods) (d : Reg) (a : Reg) (b : Reg)
  /-- Logical right shift by u(xb); 0 when the amount is 64 or more (R148). -/
  | shr (m : Mods) (d : Reg) (a : Reg) (b : Reg)
  /-- Arithmetic right shift by u(xb), filling with the sign when the amount is 64 or more (R148). -/
  | sra (m : Mods) (d : Reg) (a : Reg) (b : Reg)
  /-- Rotate xa left by u(xb) mod 64 bits (R148). -/
  | rot (m : Mods) (d : Reg) (a : Reg) (b : Reg)
  /-- Signed minimum of xa and xb (R148). -/
  | min (m : Mods) (d : Reg) (a : Reg) (b : Reg)
  /-- Unsigned minimum of xa and xb (R148). -/
  | minU (m : Mods) (d : Reg) (a : Reg) (b : Reg)
  /-- Signed maximum of xa and xb (R148). -/
  | max (m : Mods) (d : Reg) (a : Reg) (b : Reg)
  /-- Unsigned maximum of xa and xb (R148). -/
  | maxU (m : Mods) (d : Reg) (a : Reg) (b : Reg)
  /-- Count of leading zero bits of xa (R149). -/
  | clz (m : Mods) (d : Reg) (a : Reg)
  /-- Count of trailing zero bits of xa (R149). -/
  | ctz (m : Mods) (d : Reg) (a : Reg)
  /-- Count of set bits of xa (R149). -/
  | popc (m : Mods) (d : Reg) (a : Reg)
  /-- Sign-extend byte 0 of xa (R149). -/
  | sextB (m : Mods) (d : Reg) (a : Reg)
  /-- Sign-extend the low half of xa (R149). -/
  | sextH (m : Mods) (d : Reg) (a : Reg)
  /-- Sign-extend the low word of xa (R149). -/
  | sextW (m : Mods) (d : Reg) (a : Reg)
  /-- Zero-extend byte 0 of xa (R149). -/
  | zextB (m : Mods) (d : Reg) (a : Reg)
  /-- Zero-extend the low half of xa (R149). -/
  | zextH (m : Mods) (d : Reg) (a : Reg)
  /-- Zero-extend the low word of xa (R149). -/
  | zextW (m : Mods) (d : Reg) (a : Reg)
  /-- 32-bit register move xd := xa (R149). -/
  | mov (m : Mods) (d : Reg) (a : Reg)
  /-- xd := xa + signed IMM10, extensible to 21 bits (R150). -/
  | addi (m : Mods) (d : Reg) (a : Reg) (k : BitVec 10)
  /-- xd := xa AND sign-extended immediate (R150). -/
  | andi (m : Mods) (d : Reg) (a : Reg) (k : BitVec 10)
  /-- xd := xa OR sign-extended immediate (R150). -/
  | ori (m : Mods) (d : Reg) (a : Reg) (k : BitVec 10)
  /-- xd := xa XOR sign-extended immediate (R150). -/
  | xori (m : Mods) (d : Reg) (a : Reg) (k : BitVec 10)
  /-- Left shift of xa by an immediate amount 0-63 (R150). -/
  | shli (m : Mods) (d : Reg) (a : Reg) (k : BitVec 6)
  /-- Logical right shift of xa by an immediate amount 0-63 (R150). -/
  | shri (m : Mods) (d : Reg) (a : Reg) (k : BitVec 6)
  /-- Arithmetic right shift of xa by an immediate amount 0-63 (R150). -/
  | srai (m : Mods) (d : Reg) (a : Reg) (k : BitVec 6)
  /-- 32-bit load of a sign-extended IMM15 constant, extensible to 26 bits (R151). -/
  | li (m : Mods) (d : Reg) (k : BitVec 15)
  /-- Writes a sign-extended immediate into the high word of xd, keeping the low word (R151). -/
  | lih (m : Mods) (d : Reg) (k : BitVec 15)
  /-- 64-bit load of a sign-extended 32-bit constant into xd (R151). -/
  | li64 (m : Mods) (d : Reg) (k : BitVec 32)
  /-- xd := xa x xb + xc with one wrap or clamp (R152). -/
  | madd (m : Mods) (d : Reg) (a : Reg) (b : Reg) (c : Reg)
  /-- xd := xa or xb according to a predicate and sense (R152). -/
  | sel (m : Mods) (d : Reg) (a : Reg) (b : Reg) (s : BitVec 1) (p : BitVec 3)
  /-- Extracts a bit field of xa, zero-extended (R153). -/
  | bext (m : Mods) (d : Reg) (a : Reg) (n : BitVec 4) (p : BitVec 6)
  /-- Extracts a bit field of xa, sign-extended; OP 01 supplied by an extension prefix (R153). -/
  | bextS (m : Mods) (d : Reg) (a : Reg) (n : BitVec 4) (p : BitVec 6)
  /-- Inserts the low bits of xa into a field of xd; OP 10 supplied by an extension prefix (R153). -/
  | bins (m : Mods) (d : Reg) (a : Reg) (n : BitVec 4) (p : BitVec 6)
  /-- xd := xa + xb shifted left by an immediate amount (R152). -/
  | lea (m : Mods) (d : Reg) (a : Reg) (b : Reg) (s : BitVec 5)
  /-- Sets a predicate when a condition on xa and xb holds (R154). -/
  | cmp (m : Mods) (c : Cond) (p : BitVec 3) (a : Reg) (b : Reg)
  /-- Sets a predicate when a condition on xa and a signed immediate holds (R154). -/
  | cmpi (m : Mods) (c : Cond) (p : BitVec 3) (a : Reg) (k : BitVec 8)
  /-- Predicate AND (R155). -/
  | pand (m : Mods) (d : BitVec 3) (a : BitVec 3) (b : BitVec 3)
  /-- Predicate OR (R155). -/
  | por (m : Mods) (d : BitVec 3) (a : BitVec 3) (b : BitVec 3)
  /-- Predicate XOR (R155). -/
  | pxor (m : Mods) (d : BitVec 3) (a : BitVec 3) (b : BitVec 3)
  /-- Predicate NOT (R155). -/
  | pnot (m : Mods) (d : BitVec 3) (a : BitVec 3)
  /-- Unconditional branch to a block header, abandoning the remaining instances of the current block (R156). -/
  | bra (o : BitVec 20)
  /-- Branch to a block header when a predicate equals NOT SENSE (R156). -/
  | bc (p : BitVec 3) (s : BitVec 1) (o : BitVec 16)
  /-- Writes the next header's offset to x31 and branches (R156). -/
  | call (o : BitVec 20)
  /-- Pops one outcome from the engine's bq and branches on it (R156). -/
  | bq (s : BitVec 1) (o : BitVec 16)
  /-- Branch to the parcel offset held in xa (R156). -/
  | bx (a : Reg)
  /-- X pushes a predicate outcome into the bq of each named engine in one clock (R157). -/
  | bcast (p : BitVec 3) (e : BitVec 3) (i : BitVec 1)
  /-- X pushes xa into the xq of each named engine in one clock (R159). -/
  | xsend (m : Mods) (e : BitVec 3) (a : Reg)
  /-- Pops the oldest xq entry into xd (R159). -/
  | xrecv (m : Mods) (d : Reg)
  /-- Reads a special register into xd (R161). -/
  | mfs (m : Mods) (d : Reg) (n : BitVec 9)
  /-- Writes xa to a special register that has no row of its own, field by field under its access codes (R161). -/
  | mts (m : Mods) (a : Reg) (n : BitVec 9)
  /-- Returns feature word n (R163). -/
  | feat (m : Mods) (d : Reg) (n : BitVec 5)
  /-- Returns the main-clock count since package reset (R164). -/
  | clock (m : Mods) (d : Reg)
  /-- Returns the core's role index, group index or a role count of its group (R165). -/
  | roleid (m : Mods) (d : Reg) (n : BitVec 3)
  /-- Scalar load from the core's scratchpad (R169, R170). -/
  | ldl (m : Mods) (d : Reg) (a : Reg) (f : LdFmt) (o : BitVec 5)
  /-- Scalar load from a group peer's scratchpad through its routing slice (R169, R170). -/
  | ldp (m : Mods) (d : Reg) (a : Reg) (f : LdFmt) (o : BitVec 5)
  /-- Scalar load from global memory through the L1 and L2, merging the task's version (R169, R170). -/
  | ldg (m : Mods) (d : Reg) (a : Reg) (f : LdFmt) (o : BitVec 5)
  /-- Scalar store to the scratchpad, entering the forwarding table (R169, R170). -/
  | stl (m : Mods) (d : Reg) (a : Reg) (w : Width) (o : BitVec 5)
  /-- Scalar store to a peer scratchpad, held in the task's version (R169, R170). -/
  | stp (m : Mods) (d : Reg) (a : Reg) (w : Width) (o : BitVec 5)
  /-- Scalar store to global memory, held in the task's version (R169, R170). -/
  | stg (m : Mods) (d : Reg) (a : Reg) (w : Width) (o : BitVec 5)
  /-- Prefetches a global line into the L1 and its home slice; never faults (R175). -/
  | pfg (m : Mods) (a : Reg) (k : BitVec 10)
  /-- Removes one line from the core's L1 (R175). -/
  | l1inv (m : Mods) (a : Reg) (k : BitVec 10)
  /-- Removes every non-private line from the core's L1 (R175). -/
  | l1invAll (m : Mods)
  /-- Enters both memory queues and orders the task's later loads and stores after earlier ones (R176). -/
  | mark (m : Mods)
  /-- A mark that also acts as acquire and release at its scope (R176, R177). -/
  | fence (m : Mods)
  /-- Stalls until the engine queues named by its mask have completed their earlier commands and accesses (R176). -/
  | qfence (m : Mods) (a : Reg) (k : BitVec 6)
  /-- Pushes a token toward a neighbour once every earlier instruction of the engine has performed (R186). -/
  | tkpush (n : BitVec 1)
  /-- Takes the neighbour's oldest token (R186). -/
  | tkpop (n : BitVec 1)
  /-- Sets a barrier's EXPECT and clears its arrivals and error bits at its home slice (R188). -/
  | barinit (m : Mods) (a : Reg) (b : Reg)
  /-- Arrives on a barrier, possibly in error, completing the phase when arrivals reach EXPECT (R188, R189). -/
  | bararr (m : Mods) (d : Reg) (a : Reg) (b : Reg)
  /-- Waits until a barrier's PHASE differs from the given phase (R188, R189). -/
  | barwait (m : Mods) (d : Reg) (a : Reg) (b : Reg)
  /-- Vector load from the scratchpad into an fd queue (R171, R172, R266). -/
  | vldl (m : Mods) (q : BitVec 2) (a : Reg) (b : XOrBk) (nb : BitVec 3) (k : BitVec 16)
  /-- Vector load from a peer scratchpad into an fd queue (R171, R172, R266). -/
  | vldp (m : Mods) (q : BitVec 2) (a : Reg) (b : XOrBk) (nb : BitVec 3) (k : BitVec 16)
  /-- Vector load from global memory into an fd queue (R171, R172, R266). -/
  | vldg (m : Mods) (q : BitVec 2) (a : Reg) (b : XOrBk) (nb : BitVec 3) (k : BitVec 16)
  /-- Vector store from a dn queue to the scratchpad (R171, R172). -/
  | vstl (m : Mods) (q : BitVec 2) (a : Reg) (b : Reg) (nb : BitVec 3) (k : BitVec 16)
  /-- Vector store from a dn queue to a peer scratchpad (R171, R172). -/
  | vstp (m : Mods) (q : BitVec 2) (a : Reg) (b : Reg) (nb : BitVec 3) (k : BitVec 16)
  /-- Vector store from a dn queue to global memory, in the version (R171, R172). -/
  | vstg (m : Mods) (q : BitVec 2) (a : Reg) (b : Reg) (nb : BitVec 3) (k : BitVec 16)
  /-- Gathers scratchpad elements through an index list into an fd queue (R173, R174). -/
  | vgl (m : Mods) (q : BitVec 2) (a : Reg) (b : Reg) (e : Width) (n : BitVec 7)
  /-- Gathers global elements through an index list into an fd queue (R173, R174). -/
  | vgg (m : Mods) (q : BitVec 2) (a : Reg) (b : Reg) (e : Width) (n : BitVec 7)
  /-- Scatters elements of a dn entry to the scratchpad through an index list (R173, R174). -/
  | vsl (m : Mods) (q : BitVec 2) (a : Reg) (b : Reg) (e : Width) (n : BitVec 7)
  /-- Scatters elements of a dn entry to global memory through an index list (R173, R174). -/
  | vsg (m : Mods) (q : BitVec 2) (a : Reg) (b : Reg) (e : Width) (n : BitVec 7)
  /-- Atomic add at the home slice, returning the old value (R178, R179). -/
  | aadd (m : Mods) (d : Reg) (a : Reg) (b : Reg) (w : ASize) (k : BitVec 16)
  /-- Atomic AND (R178, R179). -/
  | aand (m : Mods) (d : Reg) (a : Reg) (b : Reg) (w : ASize) (k : BitVec 16)
  /-- Atomic OR (R178, R179). -/
  | aor (m : Mods) (d : Reg) (a : Reg) (b : Reg) (w : ASize) (k : BitVec 16)
  /-- Atomic XOR (R178, R179). -/
  | axor (m : Mods) (d : Reg) (a : Reg) (b : Reg) (w : ASize) (k : BitVec 16)
  /-- Atomic minimum, signed or unsigned (R178, R179). -/
  | amin (m : Mods) (d : Reg) (a : Reg) (b : Reg) (u : BitVec 1) (w : ASize) (k : BitVec 16)
  /-- Atomic maximum, signed or unsigned (R178, R179). -/
  | amax (m : Mods) (d : Reg) (a : Reg) (b : Reg) (u : BitVec 1) (w : ASize) (k : BitVec 16)
  /-- Atomic swap (R178, R179). -/
  | aswp (m : Mods) (d : Reg) (a : Reg) (b : Reg) (w : ASize) (k : BitVec 16)
  /-- Atomic compare-and-swap (R178, R179). -/
  | acas (m : Mods) (d : Reg) (a : Reg) (b : Reg) (c : Reg) (w : ASize) (k : BitVec 16)
  /-- Atomic floating add rounded RNE at the home slice (R178, R179). -/
  | afadd (m : Mods) (d : Reg) (a : Reg) (b : Reg) (w : ASize) (k : BitVec 16)
  /-- Atomic bounded increment wrapping to zero (R178, R179). -/
  | abinc (m : Mods) (d : Reg) (a : Reg) (b : Reg) (w : ASize) (k : BitVec 16)
  /-- Opens a single-line region by requesting the line from its home slice (R181, R182). -/
  | alrb (m : Mods) (a : Reg) (k : BitVec 16)
  /-- Reads from the region buffer with earlier region writes merged (R181, R182). -/
  | alrl (m : Mods) (d : Reg) (a : Reg) (z : BitVec 1) (w : Width) (o : BitVec 7)
  /-- Writes and marks bytes in the region buffer (R181, R182). -/
  | alrs (m : Mods) (a : Reg) (b : Reg) (w : Width) (o : BitVec 7)
  /-- Closes the region; the slice writes the marked bytes as one event if the hold held, returning 1 or 0 (R181, R182). -/
  | alrc (m : Mods) (d : Reg)
  /-- Compact integer vector add (R65, R208). -/
  | vaddC (m : Mods) (d : Reg) (a : Reg) (b : Reg) (e : BitVec 2)
  /-- Compact integer vector subtract (R65, R208). -/
  | vsubC (m : Mods) (d : Reg) (a : Reg) (b : Reg) (e : BitVec 2)
  /-- Compact integer vector multiply (R65, R208). -/
  | vmulC (m : Mods) (d : Reg) (a : Reg) (b : Reg) (e : BitVec 2)
  /-- Compact vector AND (R65, R208). -/
  | vandC (m : Mods) (d : Reg) (a : Reg) (b : Reg) (e : BitVec 2)
  /-- Compact vector OR (R65, R208). -/
  | vorC (m : Mods) (d : Reg) (a : Reg) (b : Reg) (e : BitVec 2)
  /-- Compact vector XOR (R65, R208). -/
  | vxorC (m : Mods) (d : Reg) (a : Reg) (b : Reg) (e : BitVec 2)
  /-- Compact integer vector minimum (R65, R208). -/
  | vminC (m : Mods) (d : Reg) (a : Reg) (b : Reg) (e : BitVec 2)
  /-- Compact integer vector maximum (R65, R208). -/
  | vmaxC (m : Mods) (d : Reg) (a : Reg) (b : Reg) (e : BitVec 2)
  /-- Compact floating vector add (R65, R208). -/
  | vfaddC (m : Mods) (d : Reg) (a : Reg) (b : Reg) (e : CFlt)
  /-- Compact floating vector subtract (R65, R208). -/
  | vfsubC (m : Mods) (d : Reg) (a : Reg) (b : Reg) (e : CFlt)
  /-- Compact floating vector multiply (R65, R208). -/
  | vfmulC (m : Mods) (d : Reg) (a : Reg) (b : Reg) (e : CFlt)
  /-- Compact floating vector minimum (R65, R208). -/
  | vfminC (m : Mods) (d : Reg) (a : Reg) (b : Reg) (e : CFlt)
  /-- Compact floating vector maximum (R65, R208). -/
  | vfmaxC (m : Mods) (d : Reg) (a : Reg) (b : Reg) (e : CFlt)
  /-- Integer vector add, wrapping or saturating (R194, R195). -/
  | vadd (m : Mods) (d : VDst) (a : VSrc) (b : VSrc) (u : BitVec 1) (et : IntEt)
  /-- Integer vector subtract (R194, R195). -/
  | vsub (m : Mods) (d : VDst) (a : VSrc) (b : VSrc) (u : BitVec 1) (et : IntEt)
  /-- Integer vector multiply (R194, R195). -/
  | vmul (m : Mods) (d : VDst) (a : VSrc) (b : VSrc) (u : BitVec 1) (et : IntEt)
  /-- High half of the integer vector product (R194, R195). -/
  | vmulh (m : Mods) (d : VDst) (a : VSrc) (b : VSrc) (u : BitVec 1) (et : IntEt)
  /-- Integer vector multiply-add with one wrap or clamp (R194, R195). -/
  | vmadd (m : Mods) (d : VDst) (a : VSrc) (b : VSrc) (c : VSrc) (u : BitVec 1) (et : IntEt)
  /-- Integer vector minimum (R194, R195). -/
  | vmin (m : Mods) (d : VDst) (a : VSrc) (b : VSrc) (u : BitVec 1) (et : IntEt)
  /-- Integer vector maximum (R194, R195). -/
  | vmax (m : Mods) (d : VDst) (a : VSrc) (b : VSrc) (u : BitVec 1) (et : IntEt)
  /-- Vector bitwise AND (R194, R195). -/
  | vand (m : Mods) (d : VDst) (a : VSrc) (b : VSrc) (u : BitVec 1) (et : IntEt)
  /-- Vector bitwise OR (R194, R195). -/
  | vor (m : Mods) (d : VDst) (a : VSrc) (b : VSrc) (u : BitVec 1) (et : IntEt)
  /-- Vector bitwise XOR (R194, R195). -/
  | vxor (m : Mods) (d : VDst) (a : VSrc) (b : VSrc) (u : BitVec 1) (et : IntEt)
  /-- Element-wise left shift (R194, R195). -/
  | vshl (m : Mods) (d : VDst) (a : VSrc) (b : VSrc) (u : BitVec 1) (et : IntEt)
  /-- Element-wise logical right shift (R194, R195). -/
  | vshr (m : Mods) (d : VDst) (a : VSrc) (b : VSrc) (u : BitVec 1) (et : IntEt)
  /-- Element-wise arithmetic right shift (R194, R195). -/
  | vsra (m : Mods) (d : VDst) (a : VSrc) (b : VSrc) (u : BitVec 1) (et : IntEt)
  /-- Element-wise absolute value (R194, R195). -/
  | vabs (m : Mods) (d : VDst) (a : VSrc) (u : BitVec 1) (et : IntEt)
  /-- Element-wise negation (R194, R195). -/
  | vneg (m : Mods) (d : VDst) (a : VSrc) (u : BitVec 1) (et : IntEt)
  /-- Element-wise integer compare, optionally ORed into a predicate (R194, R195). -/
  | vcmp (m : Mods) (d : VDst) (a : VSrc) (b : VSrc) (pe : BitVec 1) (pd : BitVec 3) (c : VCond) (u : BitVec 1) (et : IntEt)
  /-- Element-wise select by a mask vector (R194, R195). -/
  | vsel (m : Mods) (d : VDst) (a : VSrc) (b : VSrc) (c : VSrc) (u : BitVec 1) (et : IntEt)
  /-- Element-wise population count (R194, R195). -/
  | vpopc (m : Mods) (d : VDst) (a : VSrc) (u : BitVec 1) (et : IntEt)
  /-- Floating vector add, rounded once (R196, R197). -/
  | vfadd (m : Mods) (d : VDst) (a : VSrc) (b : VSrc) (et : FltEt)
  /-- Floating vector subtract (R196, R197). -/
  | vfsub (m : Mods) (d : VDst) (a : VSrc) (b : VSrc) (et : FltEt)
  /-- Floating vector multiply (R196, R197). -/
  | vfmul (m : Mods) (d : VDst) (a : VSrc) (b : VSrc) (et : FltEt)
  /-- Fused floating vector multiply-add with one rounding (R196, R197). -/
  | vfma (m : Mods) (d : VDst) (a : VSrc) (b : VSrc) (c : VSrc) (et : FltEt)
  /-- Floating vector minimum preferring numbers over NaN (R196, R197). -/
  | vfmin (m : Mods) (d : VDst) (a : VSrc) (b : VSrc) (et : FltEt)
  /-- Floating vector maximum preferring numbers over NaN (R196, R197). -/
  | vfmax (m : Mods) (d : VDst) (a : VSrc) (b : VSrc) (et : FltEt)
  /-- Element-wise floating compare (R196, R197). -/
  | vfcmp (m : Mods) (d : VDst) (a : VSrc) (b : VSrc) (pe : BitVec 1) (pd : BitVec 3) (c : FCond) (et : FltEt)
  /-- Element-wise reciprocal, correctly rounded (R198). -/
  | vfrcp (m : Mods) (d : VDst) (a : VSrc) (et : FltEt3)
  /-- Element-wise reciprocal square root (R198). -/
  | vfrsq (m : Mods) (d : VDst) (a : VSrc) (et : FltEt3)
  /-- Element-wise base-2 exponential (R198). -/
  | vfexp2 (m : Mods) (d : VDst) (a : VSrc) (et : FltEt3)
  /-- Element-wise base-2 logarithm (R198). -/
  | vflog2 (m : Mods) (d : VDst) (a : VSrc) (et : FltEt3)
  /-- Element-wise hyperbolic tangent (R198). -/
  | vftanh (m : Mods) (d : VDst) (a : VSrc) (et : FltEt3)
  /-- Converts elements between formats, widening or narrowing by PART (R199, R200). -/
  | vcvt (m : Mods) (d : VDst) (a : VSrc) (k : BitVec 4) (sf : BitVec 6) (tf : BitVec 6)
  /-- Quantises 32 elements into one block record with a computed or given scale (R199, R201). -/
  | vqnt (m : Mods) (d : VDst) (a : VSrc) (b : VSrc) (k : BitVec 1) (scm : BitVec 1) (sf : FltEt3) (tf : BitVec 6)
  /-- Dequantises a block record into floating elements (R199, R202). -/
  | vdqnt (m : Mods) (d : VDst) (a : VSrc) (k : BitVec 1) (sf : BitVec 6) (tf : FltEt3)
  /-- Packs a scale and byte codes into a block record (R199, R203). -/
  | vpack (m : Mods) (d : VDst) (a : VSrc) (f : BitVec 6)
  /-- Unpacks a block record into a scale and byte codes (R199, R203). -/
  | vunpk (m : Mods) (d : VDst) (a : VSrc) (f : BitVec 6)
  /-- Integer tree sum of all elements into 64 bits (R204). -/
  | vradd (m : Mods) (d : VDst) (a : VSrc) (u : BitVec 1) (et : IntEt)
  /-- Integer maximum of all elements (R204). -/
  | vrmax (m : Mods) (d : VDst) (a : VSrc) (u : BitVec 1) (et : IntEt)
  /-- Floating tree sum of all elements (R204). -/
  | vfradd (m : Mods) (d : VDst) (a : VSrc) (et : FltEt)
  /-- Floating maximum of all elements (R204). -/
  | vfrmax (m : Mods) (d : VDst) (a : VSrc) (et : FltEt)
  /-- Permutes elements of two vectors by an index vector (R205). -/
  | vperm (m : Mods) (d : VDst) (a : VSrc) (b : VSrc) (c : VSrc) (w : Width)
  /-- Rotates elements by an immediate (R205). -/
  | vrot (m : Mods) (d : VDst) (a : VSrc) (k : BitVec 8) (w : Width)
  /-- Broadcasts one element to all elements (R205). -/
  | vbcast (m : Mods) (d : VDst) (a : VSrc) (k : BitVec 8) (w : Width)
  /-- Extracts one element into an x register (R205). -/
  | vext (m : Mods) (d : Reg) (a : VSrc) (k : BitVec 8) (s : BitVec 1) (w : Width)
  /-- Inserts an x register into one element (R205). -/
  | vins (m : Mods) (d : VDst) (a : VSrc) (b : Reg) (k : BitVec 8) (w : Width)
  /-- Compresses selected elements to the front (R205). -/
  | vcomp (m : Mods) (d : VDst) (a : VSrc) (b : VSrc) (w : Width)
  /-- Expands consecutive elements into selected positions (R205). -/
  | vexpd (m : Mods) (d : VDst) (a : VSrc) (b : VSrc) (w : Width)
  /-- Merges two partial attention triples (R206). -/
  | vmrg3 (m : Mods) (d : VDst) (a : VSrc) (b : VSrc) (c : VSrc) (s : BitVec 1)
  /-- Moves a whole 1,024-bit vector (R207). -/
  | vmov (m : Mods) (d : VDst) (a : VSrc)
  /-- Loads an immediate, or an immediate ramp, into every element (R207). -/
  | vli (m : Mods) (d : VDst) (r : BitVec 1) (w : Width) (k : BitVec 16)
  /-- Copies an x register into every element (R207). -/
  | vsplat (m : Mods) (d : VDst) (a : Reg) (w : Width)
  /-- Binds a stream register for reading or writing from a scratchpad descriptor (R212, R213). -/
  | sbind (m : Mods) (z : BitVec 4) (a : Reg) (k : BitVec 16)
  /-- Sets the conversion chain of a stream before any unit moves (R212, R213). -/
  | sbop (m : Mods) (z : BitVec 4) (a : Reg)
  /-- Unbinds a stream at once with NOW, or waits until all units are taken or stored (R212, R213). -/
  | sunbind (m : Mods) (z : BitVec 4) (now : BitVec 1)
  /-- Skips the next units of a stream (R212, R213). -/
  | sadv (m : Mods) (z : BitVec 4) (a : Reg)
  /-- Returns a stream's state, flags and remaining units (R212, R213, R216). -/
  | sstat (m : Mods) (d : Reg) (z : BitVec 4)
  /-- C queues a configuration word to the target lanes (R225, R226). -/
  | lcfg (m : Mods) (a : Reg) (b : Reg)
  /-- Reads the status word of one lane without queueing (R225, R227). -/
  | lstat (m : Mods) (d : Reg) (a : Reg)
  /-- Enters the target lane queues and stalls C until every earlier macro there completes (R225, R232). -/
  | lfence (m : Mods) (a : Reg)
  /-- Enters every target lane queue as a barrier among those lanes (R225, R232). -/
  | lsync (m : Mods) (a : Reg)
  /-- C queues a weight-stream binding to the target lanes after issue checks (R225, R228). -/
  | lwst (m : Mods) (a : Reg) (b : Reg) (c : Reg) (f : BitVec 6)
  /-- C reads an activation tile from scratchpad and multicasts it to the target lanes (R225, R229). -/
  | lact (m : Mods) (a : Reg) (b : Reg) (c : Reg) (f : BitVec 6)
  /-- C queues a multiply of weight rows into accumulator columns (R225, R230). -/
  | lmac (m : Mods) (a : Reg) (b : Reg) (z : BitVec 1)
  /-- C queues a clear of the target lanes' accumulators (R225, R231). -/
  | laccz (m : Mods) (a : Reg)
  /-- C queues a readout of one lane's accumulator cells to scratchpad (R225, R231). -/
  | laccr (m : Mods) (a : Reg) (b : Reg) (c : Reg) (f : FltEt)
  /-- C queues a reduction of the target lanes' cells to scratchpad or to the ring (R225, R231). -/
  | lred (m : Mods) (a : Reg) (b : Reg) (c : Reg) (clr : BitVec 1) (ring : BitVec 1) (f : FltEt)
  /-- C queues a layout-register load with optional tag stamp (R241, R244). -/
  | mlay (m : Mods) (a : Reg) (b : Reg) (l : BitVec 3) (ws : BitVec 4) (we : BitVec 1) (ss : BitVec 4) (se : BitVec 1)
  /-- C queues an unfold-register load (R241, R244). -/
  | munf (m : Mods) (a : Reg) (b : Reg) (id : BitVec 1) (ws : BitVec 4) (we : BitVec 1) (ss : BitVec 4) (se : BitVec 1)
  /-- C queues a copy of global rows into swizzled scratchpad (R241, R244). -/
  | mld (m : Mods) (a : Reg) (b : Reg) (c : Reg) (l : BitVec 3) (ws : BitVec 4) (we : BitVec 1) (ss : BitVec 4) (se : BitVec 1)
  /-- C queues an M x 128 product into a tile (R241, R245). -/
  | mmul (m : Mods) (a : Reg) (b : Reg) (u : BitVec 1) (t : BitVec 2) (ws : BitVec 4) (we : BitVec 1) (ss : BitVec 4) (se : BitVec 1)
  /-- C queues a drain of tile rows to scratchpad or global memory (R241, R246). -/
  | mdrn (m : Mods) (a : Reg) (b : Reg) (g : BitVec 1) (t : BitVec 2) (ws : BitVec 4) (we : BitVec 1) (ss : BitVec 4) (se : BitVec 1)
  /-- C queues a clear of a tile with a mode (R241, R246). -/
  | mzero (m : Mods) (mode : TMode) (t : BitVec 2) (ws : BitVec 4) (we : BitVec 1) (ss : BitVec 4) (se : BitVec 1)
  /-- Adds n to a matrix semaphore, saturating (R242). -/
  | msemSig (m : Mods) (s : BitVec 4) (n : BitVec 12)
  /-- Stalls C until a semaphore reaches n, then subtracts n (R242). -/
  | msemWait (m : Mods) (s : BitVec 4) (n : BitVec 12)
  /-- Reads a matrix semaphore (R242). -/
  | msemRd (m : Mods) (d : Reg) (s : BitVec 4)
  /-- Reads the matrix status word and clears LAYC, FMTC and POISC (R242). -/
  | msemSt (m : Mods) (d : Reg)
  /-- Queues a strided, padded, converting copy (R251 to R258). -/
  | xcopy (m : Mods) (a : Reg) (b : Reg) (ren : BitVec 1) (ten : BitVec 1) (tag : BitVec 6)
  /-- Queues a copy whose dimension-1 source comes from an index list (R251 to R258). -/
  | xgath (m : Mods) (a : Reg) (b : Reg) (ren : BitVec 1) (ten : BitVec 1) (tag : BitVec 6)
  /-- Queues a copy whose dimension-1 destination comes from an index list (R251 to R258). -/
  | xscat (m : Mods) (a : Reg) (b : Reg) (ren : BitVec 1) (ten : BitVec 1) (tag : BitVec 6)
  /-- Queues a scatter that adds into destinations in index-list order (R251 to R258). -/
  | xscadd (m : Mods) (a : Reg) (b : Reg) (ren : BitVec 1) (ten : BitVec 1) (tag : BitVec 6)
  /-- Queues a fill of every destination position with a pattern element (R251 to R258). -/
  | xfill (m : Mods) (a : Reg) (b : Reg) (ren : BitVec 1) (ten : BitVec 1) (tag : BitVec 6)
  /-- Queues a copy over the bed ring to another bed, optionally adding (R251 to R258). -/
  | xring (m : Mods) (a : Reg) (b : Reg) (ren : BitVec 1) (ten : BitVec 1) (tag : BitVec 6)
  /-- Queues a column-reduce of indexed embedding rows (R251, R259). -/
  | creq (m : Mods) (a : Reg) (b : Reg) (ren : BitVec 1) (ten : BitVec 1) (tag : BitVec 6)
  /-- Creates a live sequence control block and side block (R272, R273). -/
  | sqnew (m : Mods) (d : Reg) (a : Reg) (b : Reg) (bl : BitVec 5)
  /-- Reserves n slots, copying shared tails and growing extents as needed (R278). -/
  | sqres (m : Mods) (d : Reg) (a : Reg) (b : Reg)
  /-- Reserves a tentative group of slots (R288). -/
  | sqrest (m : Mods) (d : Reg) (a : Reg) (b : Reg)
  /-- Commits a range of owned reserved slots as a release, advancing LEN past closed holes (R279). -/
  | sqcmt (m : Mods) (d : Reg) (a : Reg) (b : Reg) (c : Reg)
  /-- Commits the first k tentative slots (R288). -/
  | sqacc (m : Mods) (d : Reg) (a : Reg) (b : Reg)
  /-- Withdraws the remaining tentative slots and trims extents (R288). -/
  | sqwd (m : Mods) (d : Reg) (a : Reg)
  /-- Ends a sequence, returning blocks and its side block (R287). -/
  | sqfree (m : Mods) (d : Reg) (a : Reg)
  /-- Creates a graft sharing the parent's committed prefix (R285). -/
  | sqfork (m : Mods) (d : Reg) (a : Reg) (b : Reg)
  /-- Returns LEN with acquire (R284). -/
  | sqlen (m : Mods) (d : Reg) (a : Reg)
  /-- Waits until LEN reaches a length or a timeout passes (R284). -/
  | sqwait (m : Mods) (d : Reg) (a : Reg) (b : Reg) (c : Reg)
  /-- Raises a sequence's pin count (R287). -/
  | sqpin (m : Mods) (d : Reg) (a : Reg)
  /-- Lowers a sequence's pin count (R287). -/
  | squnpin (m : Mods) (d : Reg) (a : Reg)
  /-- Returns an extent, a block reference count or a page share count (R276). -/
  | sqext (m : Mods) (d : Reg) (a : Reg) (b : Reg) (k : Sel3)
  /-- Reads one channel of a slot after acquiring LEN, with a status quad (R272, R283). -/
  | ldq (m : Mods) (d : Reg) (a : Reg) (b : Reg) (c : Reg) (ch : BitVec 14)
  /-- Reads 64 channels of a slot into an fd queue after acquiring LEN (R272, R283). -/
  | vldq (m : Mods) (q : BitVec 2) (a : Reg) (b : Reg) (c : Reg) (ch : BitVec 14)
  /-- Fills one channel of an owned slot in the version (R272, R279). -/
  | stq (m : Mods) (d : Reg) (a : Reg) (b : Reg) (ch : BitVec 14)
  /-- Fills 64 channels of an owned slot from a dn entry (R272, R279). -/
  | vstq (m : Mods) (q : BitVec 2) (a : Reg) (b : Reg) (ch : BitVec 14)
  /-- Reads an attention descriptor and query and starts attention over a slot range (R272, R289). -/
  | sqattn (m : Mods) (a : Reg) (b : Reg) (ten : BitVec 1) (tag : BitVec 6)
  /-- Computes a salted SHA-256 chain hash of 16 tokens (R293). -/
  | pfxh (m : Mods) (d : Reg) (a : Reg) (b : Reg)
  /-- Finds and pins the deepest matching prefix-table entry (R293). -/
  | pfxl (m : Mods) (d : Reg) (a : Reg) (b : Reg)
  /-- Returns the handle of a prefix-table entry (R293). -/
  | pfxlH (m : Mods) (d : Reg) (a : Reg)
  /-- Returns the depth and base of a prefix-table entry (R293). -/
  | pfxlS (m : Mods) (d : Reg) (a : Reg)
  /-- Inserts a prefix-table entry, replacing an unpinned least-recent one if full (R294). -/
  | pfxi (m : Mods) (d : Reg) (a : Reg) (b : Reg) (c : Reg)
  /-- Empties an unpinned prefix-table entry (R294). -/
  | pfxd (m : Mods) (d : Reg) (a : Reg)
  /-- Lowers a prefix-table entry's pin count (R294). -/
  | pfxdU (m : Mods) (d : Reg) (a : Reg)
  /-- Traps the task with WATCH, SOFT set and INFO := k (R341, R342). -/
  | trap (m : Mods) (k : BitVec 15)
  /-- Traps with WATCH and CHK set when u(xa) >= u(xb) (R341, R342). -/
  | chk (m : Mods) (a : Reg) (b : Reg)
  /-- Waits until any masked tagmap bit is set or a timeout passes (R184). -/
  | twany (m : Mods) (d : Reg) (a : Reg) (b : Reg)
  /-- Waits until all masked tagmap bits are set or a timeout passes (R184). -/
  | twall (m : Mods) (d : Reg) (a : Reg) (b : Reg)
  /-- Takes and clears the lowest set masked tag, or returns 64 (R184). -/
  | tffr (m : Mods) (d : Reg) (a : Reg)
  /-- Clears the tagmap bits set in xa (R184). -/
  | tclr (m : Mods) (a : Reg)
  /-- Ends the issuing task's region with STATUS ABORTED (R343). -/
  | tabort (m : Mods)
  /-- Returns TASKID, ATTEMPT, the region's FAULTS or its unanswered traps (R344). -/
  | tstat (m : Mods) (d : Reg) (k : BitVec 2)
  /-- Claims an unanswered trap for RERUN, DROP or ABORT, acted on at the task's commit (R344). -/
  | tret (m : Mods) (d : Reg) (a : Reg) (b : Reg)
  /-- Privileged removal of TLB and miss-table entries of one page of an ASID (R341, R344). -/
  | tlbinvPg (a : Reg) (b : Reg)
  /-- Privileged removal of every TLB entry of an ASID (R341, R344). -/
  | tlbinvAs (a : Reg)
  /-- Privileged write of PART and ASID into the context's ctl.asid (R341, R344). -/
  | asset (a : Reg)
  /-- Asks for a child region, entering it in the launch queue or pending store, or returns BUSY (R316, R317). -/
  | launch (m : Mods) (d : Reg) (a : Reg) (b : Reg)
  /-- Waits on a child; returns and reaps it if complete, otherwise gives up the context through its yield entry (R316, R319). -/
  | lwait (m : Mods) (d : Reg) (a : Reg)
  /-- Tests a child, reaping it if complete, or returns NOTYET (R316, R319). -/
  | lpoll (m : Mods) (d : Reg) (a : Reg)
  /-- Returns a resolved or live quantity of the own region or a child (R316, R320). -/
  | rcbq (m : Mods) (d : Reg) (a : Reg) (k : BitVec 5)
  /-- Takes the oldest published item of the task's own stage queue without waiting (R316, R322). -/
  | spop (m : Mods) (d : Reg)
  /-- Reserves an entry of a stage queue for an item published at the task's commit (R316, R321). -/
  | spush (m : Mods) (d : Reg) (a : Reg) (b : Reg)
  /-- Reserves a place on a work list for an item published at commit (R316, R327). -/
  | wlapp (m : Mods) (d : Reg) (a : Reg) (b : Reg)
  /-- Takes the oldest published item of a work list (R316, R327). -/
  | wltake (m : Mods) (d : Reg) (a : Reg)
  /-- Waits until the region would be quiescent apart from the calling and other quies-waiting tasks (R316, R328). -/
  | quies (m : Mods) (d : Reg) (a : Reg)
  /-- 16-bit no-operation (R64). -/
  | nop16
  /-- Branch to the parcel offset held in x31 (R156). -/
  | ret
  /-- 32-bit no-operation (R158). -/
  | nop
  /-- Stops the task with a WATCH trap marked as a halt (R158). -/
  | halt
  /-- An engine reaches tend and waits; the last engine ends the task or traps with QFAULT on a non-empty queue (R341, R23). -/
  | tend
  /-- No effect unless a pre-emption request stands, when the engine stops there (R341, R342). -/
  | yield
  /-- Privileged removal of every TLB entry of the issuing partition (R341, R344). -/
  | tlbinvAll
  /-- Event: A write to ctl.split checks the allotment, holds L/P/G issue on the core and waits for outstanding accesses to drain (R106). -/
  | ctlSplitWrite
  /-- Event: Once accesses have drained, the L1 is invalidated, SPAD takes the new value and issue resumes (R106). -/
  | ctlSplitApply
  /-- Event: A write to slot.plan records ROLE and LSLOTS for the addressed column roles, to take effect at each column's next frame boundary (R235). -/
  | slotPlanWrite
  /-- Event: The condition of a waiting qfence comes to hold and the task's later accesses and commands are released (R141). -/
  | qfenceReturn
  /-- Event: A waiting twany or twall finds its tag condition met and returns the masked tags with acquire (R184). -/
  | tagWaitReturn
  /-- Event: A twany or twall timeout count expires and the wait returns (R184). -/
  | tagWaitTimeout
  /-- Event: A waiting barwait sees the phase advance and returns the error and missed-phase bits with acquire (R188). -/
  | barwaitReturn
  /-- Event: A waiting quies finds the region quiescent and returns 1 (R328). -/
  | quiesReturn
  /-- Event: A quies timeout count expires and it returns TIMEOUT (R328). -/
  | quiesTimeout
  /-- Event: A waiting sunbind finds every unit read or stored and unbinds the stream (R219). -/
  | sunbindComplete
  /-- Event: L fetches the next unit of a read stream into its buffer through the chain, marking it on a fault (R214). -/
  | streamFetch
  /-- Event: S stores the next written unit of a write stream through its store queue (R215). -/
  | streamStore
  /-- Event: The slice grants the held line and the committed snapshot reaches X's region buffer, starting the 64-clock hold (R182). -/
  | alrGrant
  /-- Event: The 64-clock hold counted on X lapses and X sends a release to the slice (R182). -/
  | alrHoldExpiry
  /-- Event: A lane executes lcfg and sets its RSYNC and POL (R226). -/
  | lcfgApply
  /-- Event: Every target lane has reached the lfence with earlier macros complete, and C resumes (R232). -/
  | lfenceReturn
  /-- Event: The last target lane reaches the lsync (and deferred retraining ends), and all lanes proceed (R232). -/
  | lsyncRelease
  /-- Event: At a group lsync the scheduler switches a moved column role's and lane role's trellis entries together (R36). -/
  | trellisSwitch
  /-- Event: A lane executes lwst, checking and translating its window pages and binding its weight stream (R228). -/
  | lwstBind
  /-- Event: A lane executes lact and replaces its lane buffer with the tile (R229). -/
  | lactLoad
  /-- Event: A lane streams and accumulates one 64-row piece of an lmac in ascending K (R230). -/
  | lmacPiece
  /-- Event: A lane sets every accumulator cell to +0 and clears poison bits (R231). -/
  | lacczClear
  /-- Event: A lane converts and writes its accumulator cells to the issuing core's scratchpad (R231). -/
  | laccrReadout
  /-- Event: A bed's lanes reduce cells through the tree in role order and deliver to scratchpad or the ring engine (R231). -/
  | lredReduce
  /-- Event: Ring engines fold the beds' partials in bed-role order and write the result and footer (R355). -/
  | ringFold
  /-- Event: The matrix engine loads a layout register and stamps region tags (R244). -/
  | mlayExecute
  /-- Event: The matrix engine loads its unfold register (R244). -/
  | munfExecute
  /-- Event: The matrix engine copies rows into the layout, stamping tags, stopping at row boundaries for pre-emption (R244). -/
  | mldExecute
  /-- Event: The matrix engine checks tags and formats, then accumulates the product into the tile (R245). -/
  | mmulExecute
  /-- Event: The matrix engine converts and writes tile rows, optionally clearing them (R246). -/
  | mdrnExecute
  /-- Event: The matrix engine zeroes a tile, sets its MODE and clears Q (R246). -/
  | mzeroExecute
  /-- Event: A waiting msem.wait finds its count and returns with acquire (R242). -/
  | msemWaitReturn
  /-- Event: The transfer engine moves one 64 KiB chunk of a command, rotating among queues (R250). -/
  | transferChunk
  /-- Event: The column controller sums the indexed rows into FP32 and writes the result (R260). -/
  | creqExecute
  /-- Event: A command completes: record, tag and barrier arrival in order, or a fault that discards later commands (R261). -/
  | transferCompletion
  /-- Event: The engine finds room in the record ring and writes the 32-byte record, advancing HEAD (R263). -/
  | completionRecordWrite
  /-- Event: A record has waited 100 us on a full ring; it is dropped, the tag set, an error arrival made and the task traps with QFAULT (R264). -/
  | ringWaitTimeout
  /-- Event: A remote target acknowledges a system-scope write, which then counts as performed (R364). -/
  | systemWriteAck
  /-- Event: A NAK or retry exhaustion ends a system-scope command with FAULT and puts the queue pair in error (R364). -/
  | remoteNak
  /-- Event: The RDMA READ response data for a system-scope source side arrives from the remote target and lets the transfer chunk's writes proceed (R364). -/
  | systemReadResponse
  /-- Event: LEN reaches the awaited length and sqwait returns it with acquire (R284). -/
  | sqwaitReturn
  /-- Event: An sqwait timeout count expires and it returns TIMEOUT (R284). -/
  | sqwaitTimeout
  /-- Event: LEN advances: scales freeze, slots quantise, window ring and void bits update before the new length is visible (R280). -/
  | lenAdvance
  /-- Event: Slices compute per-page triples, the reply network folds them in page order and the result and tag are written (R290). -/
  | sqattnExecute
  /-- Event: The scheduler gives the oldest item of a stage queue to a free context and initialises its engines (R21). -/
  | taskStart
  /-- Event: After commands complete, the version commits slice by slice and pushed items are published (R129). -/
  | taskCommit
  /-- Event: All four engines stalled for 64 consecutive clocks traps the context with QFAULT on X (R32). -/
  | deadlockDetect
  /-- Event: A trapped task is stopped, its commands stopped or cancelled, its version dropped and a trap record written (R334). -/
  | trapDelivery
  /-- Event: A trap record waiting at the scheduler is published once the handler queue has room (R339). -/
  | trapRecordPublish
  /-- Event: The scheduler reads and resolves an RCB, binds the gang and admits the region, or refuses it (R312). -/
  | regionAdmission
  /-- Event: Each 50 us of waiting raises a launch's effective priority by one level (R315). -/
  | launchPriorityRise
  /-- Event: Every 2 us the balancer assigns idle cores and moves a donor core between stages (R323). -/
  | balancerRun
  /-- Event: A moved core joins its new stage once its running tasks have ended (R20). -/
  | coreJoinStage
  /-- Event: A freed partition core is granted to the waiting region of highest effective priority (R324). -/
  | coreGrant
  /-- Event: Each 50 us of waiting for a core raises a region's effective priority by one level (R324). -/
  | coreWaitPriorityRise
  /-- Event: The termination detector reports a region quiescent (R37). -/
  | quiescenceReport
  /-- Event: The completion record is written, the signal incremented, COMPLETE sent and reservations and cores returned (R329). -/
  | regionCompletion
  /-- Event: Every task and child is discarded, queues emptied, commands stopped, and the region completes ABORTED (R343). -/
  | regionAbort
  /-- Event: An lwait on an incomplete child gives up its context once all engines are stopped, saving to its G-space area (R319). -/
  | lwaitYield
  /-- Event: A child completes and the waiting task resumes on a free context and reaps it (R319). -/
  | lwaitResume
  /-- Event: Host LAUNCH queues a region for admission, or is answered BUSY or BADARG (R311). -/
  | launchMessage
  /-- Event: Host ABORT ends a region as by tabort (R311). -/
  | abortMessage
  /-- Event: Host SPACE returns the partition's 32-byte space report (R311). -/
  | spaceMessage
  /-- Event: Host BALLOON adds granules to the balloon list (R311). -/
  | balloonMessage
  /-- Event: A walker takes a miss-table entry, walks the radix table and fills the TLBs or faults every merged request (R122). -/
  | pageWalk
  /-- Event: The L2 writes back a granule, recompressing and repacking it and charging chunks between FREE, HELD and RSV (R302). -/
  | l2Writeback
  /-- Event: The rake gathers chunks for waiting reservations from free chunks, device pool, recompaction and balloons (R303). -/
  | rakeReclaim
  /-- Event: A reservation unmet 50 us after reaching the rake faults its write with SPACE (R304). -/
  | spaceTimeout
  /-- Event: The rake reclaims a ballooned granule, zeroing its line codes and freeing its chunks (R305). -/
  | balloonReclaim
  /-- Event: A granule's copy completes and its map entry switches home once the old slice holds nothing pending (R111). -/
  | granuleMigrate
  /-- Event: The rake drains a degraded column, migrating granules and copying windows to a spare (R308). -/
  | columnDrain
  /-- Event: With no spare, the degraded column is retired and the bed's capacity falls (R309). -/
  | columnRetire
  /-- Event: A retiring migration unreserved within 50 us leaves the granule in place and raises SPC (R310). -/
  | migrationTimeout
  /-- Event: A held granule's migration is tried again when the partition's headroom rises above LOW (R310). -/
  | migrationRetry
  /-- Event: A column's 512-clock frame begins; plan writes, caps and retraining starts take effect (R234). -/
  | frameBoundary
  /-- Event: A 16-clock slot moves one DRAM row for a lane stream or general access (R234). -/
  | streamingSlot
  /-- Event: Slot 30 refreshes the next bank in rotation (R234). -/
  | refreshSlot
  /-- Event: Slot 31 runs patrol scrub, ECC write-back and telemetry sampling (R234). -/
  | maintenanceSlot
  /-- Event: A column's 8 ms retraining interval expires, starting or deferring retraining (R236). -/
  | retrainingDue
  /-- Event: Deferral ends 40 us past due and retraining starts at the next frame (R236). -/
  | retrainingForce
  /-- Event: Eight frames of retraining end; rows move again, or a failed layer is erased (R236). -/
  | retrainingEnd
  /-- Event: An idle bank with no bound stream enters retention sleep (R237). -/
  | bankSleep
  /-- Event: An access wakes a sleeping bank and the request is replayed (R237). -/
  | bankWake
  /-- Event: Every 10 us the bed cap controller lowers or restores a column cap or the bed clock (R384). -/
  | powerSample
  /-- Event: The firmware asks every unit of a partition to stop at its boundary (R345). -/
  | preemptionRequest
  /-- Event: All four engines of a context count as stopped and the context halts at X's yield (R347). -/
  | contextHalt
  /-- Event: A lane, matrix engine or transfer engine reaches its boundary and acknowledges (R345). -/
  | unitStopAck
  /-- Event: Every unit has acknowledged and the partition is reported stopped (R346). -/
  | collectorReport
  /-- Event: Live state is exchanged with shadow storage (R351). -/
  | partitionSwap
  /-- Event: Restore blocks run, queues and state refill, RESUMED is set and engines continue (R348). -/
  | contextRestore
  /-- Event: An inbound RDMA WRITE is checked against the region table and performed line by line (R362). -/
  | rdmaWriteInbound
  /-- Event: An inbound RDMA READ returns committed lines or a NAK (R362). -/
  | rdmaReadInbound
  /-- Event: A congestion notification packet lowers its queue pair's sending rate (R360). -/
  | congestionNotification
  /-- Event: An unsupported Ethernet frame is dropped and counted (R359). -/
  | frameDrop
  /-- Event: A ring flit fails its CRC and is replayed (R352). -/
  | flitReplay
  /-- Event: One Ethernet port is retrained live for up to 5 ms (R381). -/
  | portRetrain
  /-- Event: At reset the ROM checks and measures each firmware image in order, falling to recovery on double failure (R376). -/
  | boot
  /-- Event: A nonce request is answered with M, the log and record digests, signed by the identity key (R377). -/
  | attestationRequest
  /-- Event: A signed configuration record is verified and accepted or refused (R378). -/
  | configRecordSubmit
  /-- Event: A new image is written to the inactive slot and checked (R380). -/
  | firmwareImageLoad
  /-- Event: A unit switches to the new image at its quiet point after M is extended and the key re-derived (R380). -/
  | firmwareSlotSwitch
  /-- Event: A failed self-test within 1 s switches the unit back to the old slot (R380). -/
  | firmwareSwitchBack
  /-- Event: A fatal error stops every partition, writes event 13 and dumps recent records to flash (R383). -/
  | fatalError
  /-- Event: A received 802.1Qbb priority flow control frame pauses or resumes sending on one of the port's eight priorities (R359). -/
  | priorityFlowControlFrame
  /-- Event: A UCIe link performs lane repair or runtime recalibration live when one of its lanes degrades (R365). -/
  | ucieLaneRepair
  /-- Event: An Idust translation of a Malig section finishes, its entry enters the tenant cache, and every admission waiting on that key proceeds with the result (R375). -/
  | idustTranslationDone
  deriving DecidableEq, Repr

/-- The instructions of engine X with a plain format A word, for which the decoder keeps the fields apart from
the instruction (Lean compiles no constructor with fields beyond the 245th). -/
inductive Sys where
  | twany | twall | tffr | tclr | tabort | tstat | tret | tlbinvPg | tlbinvAs | asset | launch | lwait | lpoll | rcbq | spop | spush | wlapp | wltake | quies
  deriving DecidableEq, Repr

/-- What the decoder reads from a word: an instruction, or a plain format A word of engine X by its fields. -/
inductive Dec where
  | i (v : Instr)
  | sys (k : Sys) (m : Mods) (d a b : Reg)
  deriving DecidableEq, Repr

/-- The instruction that a decoded word is. -/
noncomputable def Dec.instr : Dec → Instr
  | .i v => v
  | .sys .twany m d a b => .twany m d a b
  | .sys .twall m d a b => .twall m d a b
  | .sys .tffr m d a _ => .tffr m d a
  | .sys .tclr m _ a _ => .tclr m a
  | .sys .tabort m _ _ _ => .tabort m
  | .sys .tstat m d a _ => .tstat m d (a.setWidth 2)
  | .sys .tret m d a b => .tret m d a b
  | .sys .tlbinvPg _ _ a b => .tlbinvPg a b
  | .sys .tlbinvAs _ _ a _ => .tlbinvAs a
  | .sys .asset _ _ a _ => .asset a
  | .sys .launch m d a b => .launch m d a b
  | .sys .lwait m d a _ => .lwait m d a
  | .sys .lpoll m d a _ => .lpoll m d a
  | .sys .rcbq m d a b => .rcbq m d a b
  | .sys .spop m d _ _ => .spop m d
  | .sys .spush m d a b => .spush m d a b
  | .sys .wlapp m d a b => .wlapp m d a b
  | .sys .wltake m d a _ => .wltake m d a
  | .sys .quies m d a _ => .quies m d a

end Sys2Proof
end

