-- ==== Sys2Proof/Config.lean ====
section
/-! DEFINITION. What an implementation fixes, and the free values: opaque constants without a body, of
which nothing can be proved but that they exist. Each is named in the assumption log. -/

namespace Sys2Proof.Config

/-- The bytes of a device part that the manual calls `any value` (R106): byte `a` of the draw `n`. -/
opaque freeByte (n a : Nat) : Byte

/-- A quad to which the manual gives no value, at the draw `n`. -/
opaque freeQuad (n : Nat) : Quad

/-- A vector to which the manual gives no value, at the draw `n`. -/
opaque freeVec (n : Nat) : Vec

/-- The column and the raw mark that the partition firmware chooses for a granule of device memory
that it maps by a policy of its own (R111, R299): bed, bound column, raw. -/
opaque granulePlace (granule : Nat) : Nat × Nat × Bool

/-- Whether a signature over a message verifies under a key: SLH-DSA-SHA2-256s (R376, R378), a
standard that the manual names and does not restate. -/
opaque signatureOk (key msg sig : List Byte) : Bool

/-- The bytes of a configuration record that its signature and its digest cover: its type, its version and its payload (R378), of
which the manual gives no layout. -/
opaque recordBytes (version : BitVec 64) (body : ConfigBody) : List Byte

/-- The identity key derived from the device secret and the measurement register (R377). -/
opaque identityKey (m : BitVec 256) : List Byte

/-- The signature of a message under the identity key derived from the measurement register (R377). -/
opaque identitySign (m : BitVec 256) (msg : List Byte) : List Byte

/-- The key digest held in the boot ROM (R376). -/
opaque romKey : List Byte

/-- The image that a slot of a unit holds at manufacture (R376). -/
opaque factoryImage (stage : Nat) (slotB : Bool) : Image

/-- The text and the entry and yield table that a version of Idust makes of the records of a Malig section, its symbols
replaced, under the feature words (R374); none where it refuses the translation. -/
opaque idust (version : BitVec 32) (malig : List MaligRec) (f : List (BitVec 32)) : Option (List Byte × List Byte)

/-- How many operands the Malig record of an instruction has (R373): the manual has them follow in assembly order and does
not say which parts of a statement are operands, nor how a form is selected that neither FN, MINOR nor DST tells apart; none where no
instruction is. -/
opaque maligOperands (space major selector : Nat) : Option Nat

/-- The 32-bit version of the translator that a service core's image holds (R375). -/
opaque idustVersion (i : Image) : BitVec 32

/-- The chunks that a partition's translation cache may hold (R375): the manual names the budget and gives no number. -/
opaque idustBudget (part : Nat) : Nat

/-- The signer keys by their key id (R372). -/
opaque signerKey (id : Quad) : Option (List Byte)

/-- The role counts that an entry of a group table holds, in the order core, lane, column, slice, bed, matrix (R368): the
manual gives the entry's size and not its map. -/
opaque groupCounts (entry : Quad) : List Nat

/-- The set of an L2 slice that holds a line, by line number (R109): the manual gives the number of sets and
not the bits that select one. -/
opaque l2Set (line : Nat) : Nat

/-- The line that the patrol of a column, by its key, reads at a place of its pass (R307): the manual says that a pass reads
every line, and not in which order. -/
opaque patrolLine (col place : Nat) : Nat

/-- Which of what a parcel of text has held since its task began an engine of the task fetches, the newest last, where the text
was written `n` times meanwhile and the engine has issued `at_` instructions (R47): the manual has it chosen for each parcel and
each engine, and lets one fetch give the old parcel and a later one the new. -/
opaque textPick (taskid eng pa n at_ : Nat) : Nat

/-- The bank of its column, of 72, that holds a DRAM row, by the number of its 1 KiB in device-physical space (R234,
R237): the manual gives the number of banks and not the bits that select one. -/
opaque rowBank (row : Nat) : Nat

end Sys2Proof.Config
end

