-- ==== Sys2Proof/Machine/Formats.lean ====
section
/-! DEFINITION. The number formats and their codes (spec/05_number_formats.md R75-R80, R82, R190). -/

namespace Sys2Proof.Machine

/-- A number format (R75). `b8 p uns fin` is the binary8 format of precision `p`, 1 to 7: `uns` the
unsigned ones, `fin` the finite ones. -/
inductive Fmt where
  | i4s | i4n | i8s | i8n | i16s | i32s | i64s
  | h4s | h4n | h6s | h8s | h8n
  | fp16 | bf16 | fp32 | a56
  | b8 (p : Nat) (uns fin : Bool)
  deriving DecidableEq, Repr, Inhabited

/-- The format that a 6-bit format code names; none for a reserved code (R75). -/
def fmtOfCode (c : BitVec 6) : Option Fmt :=
  let n := c.toNat
  if n = 0x00 then some .i4s else if n = 0x01 then some .i4n
  else if n = 0x02 then some .i8s else if n = 0x03 then some .i8n
  else if n = 0x04 then some .i16s else if n = 0x06 then some .i32s else if n = 0x08 then some .i64s
  else if n = 0x0A then some .h4s else if n = 0x0B then some .h4n else if n = 0x0C then some .h6s
  else if n = 0x0E then some .h8s else if n = 0x0F then some .h8n
  else if n = 0x10 then some .fp16 else if n = 0x11 then some .bf16 else if n = 0x12 then some .fp32
  else if n = 0x13 then some .a56
  else if n ≥ 0x24 then some (.b8 (n / 4 % 8) (n / 2 % 2 == 1) (n % 2 == 1))
  else none

/-- The width of one code of a format, in bits (R79, R80, R190). -/
def fmtWidth : Fmt → Nat
  | .i4s | .i4n | .h4s | .h4n => 4
  | .h6s => 6
  | .i8s | .i8n | .h8s | .h8n | .b8 .. => 8
  | .i16s | .fp16 | .bf16 => 16
  | .i32s | .fp32 => 32
  | .i64s | .a56 => 64

/-- The formats that a block record can hold (R82). -/
def fmtIsRecord : Fmt → Bool
  | .h4s | .h4n | .i4s | .i4n | .h6s | .h8s | .h8n | .i8s | .i8n | .b8 .. => true
  | _ => false

/-- The formats of the vector elements of R190: every one but `h6s`. -/
def fmtIsVector : Fmt → Bool
  | .h6s => false
  | _ => true

/-- The floating formats (R75). -/
def fmtIsFloat : Fmt → Bool
  | .fp16 | .bf16 | .fp32 | .a56 | .b8 .. => true
  | _ => false

/-- The half-step formats (R75). -/
def fmtIsHalf : Fmt → Bool
  | .h4s | .h4n | .h6s | .h8s | .h8n => true
  | _ => false

/-- The element formats of `lwst`, `lact` and the matrix operands (R225): records of 17 or 33 bytes. -/
def fmtIsLane : Fmt → Bool
  | .i4s | .i4n | .i8s | .i8n | .h4s | .h4n | .h8s | .h8n | .b8 .. => true
  | _ => false

/-- The bytes of one block record of a format (R82). -/
def recordSize (f : Fmt) : Nat := 1 + 4 * fmtWidth f

/-- The format an integer element type names (R194). -/
def intEtFmt : IntEt → Fmt
  | .i8s => .i8s | .i16s => .i16s | .i32s => .i32s | .i64s => .i64s

/-- The format a floating element type names (R196). -/
def fltEtFmt : FltEt → Fmt
  | .fp16 => .fp16 | .bf16 => .bf16 | .fp32 => .fp32 | .a56 => .a56

/-- The format a floating element type of R198 names. -/
def fltEt3Fmt : FltEt3 → Fmt
  | .fp16 => .fp16 | .bf16 => .bf16 | .fp32 => .fp32

/-- The bytes of an access or element width. -/
def widthBytes : Width → Nat
  | .w8 => 1 | .w16 => 2 | .w32 => 4 | .w64 => 8

end Sys2Proof.Machine
end

