-- ==== Sys2Proof/Machine/Forms.lean ====
section
/-! DEFINITION. What each instruction's form admits: its length, its engines, the prefixes it accepts,
and the limits of its fields that an engine checks when it decodes it (R49, R53, R60-R67). -/

namespace Sys2Proof.Machine

/-- Which rounding and saturation prefix a form accepts (R146, R192). -/
inductive RndAccept where
  | no | satOnly | full
  deriving DecidableEq, Repr

/-- Which ordering prefix a form accepts (R167, R177, R189). -/
inductive OrdAccept where
  | no | any | both | needRel | needAcq
  deriving DecidableEq, Repr

/-- The prefix kinds that a form accepts (R62). -/
structure Accepts where
  rnd   : RndAccept := .no
  ord   : OrdAccept := .no
  rext  : Bool := false
  imm   : Bool := false
  guard : Bool := false
  deriving DecidableEq, Repr

/-- Which engines may execute a form (R63): any, any but naming a predicate, or the listed ones. -/
inductive EngClass where
  | common
  | commonXC
  | only (x l c s : Bool)
  deriving DecidableEq, Repr

/-- The prefixes and the TK field of an instruction; none for the forms that carry neither. -/
def instrMods : Instr → Mods
  | .add m _ _ _ => m
  | .sub m _ _ _ => m
  | .mul m _ _ _ => m
  | .mulh m _ _ _ => m
  | .mulhU m _ _ _ => m
  | .div m _ _ _ => m
  | .divU m _ _ _ => m
  | .rem m _ _ _ => m
  | .remU m _ _ _ => m
  | .and m _ _ _ => m
  | .or m _ _ _ => m
  | .xor m _ _ _ => m
  | .andn m _ _ _ => m
  | .shl m _ _ _ => m
  | .shr m _ _ _ => m
  | .sra m _ _ _ => m
  | .rot m _ _ _ => m
  | .min m _ _ _ => m
  | .minU m _ _ _ => m
  | .max m _ _ _ => m
  | .maxU m _ _ _ => m
  | .clz m _ _ => m
  | .ctz m _ _ => m
  | .popc m _ _ => m
  | .sextB m _ _ => m
  | .sextH m _ _ => m
  | .sextW m _ _ => m
  | .zextB m _ _ => m
  | .zextH m _ _ => m
  | .zextW m _ _ => m
  | .mov m _ _ => m
  | .addi m _ _ _ => m
  | .andi m _ _ _ => m
  | .ori m _ _ _ => m
  | .xori m _ _ _ => m
  | .shli m _ _ _ => m
  | .shri m _ _ _ => m
  | .srai m _ _ _ => m
  | .li m _ _ => m
  | .lih m _ _ => m
  | .li64 m _ _ => m
  | .madd m _ _ _ _ => m
  | .sel m _ _ _ _ _ => m
  | .bext m _ _ _ _ => m
  | .bextS m _ _ _ _ => m
  | .bins m _ _ _ _ => m
  | .lea m _ _ _ _ => m
  | .cmp m _ _ _ _ => m
  | .cmpi m _ _ _ _ => m
  | .pand m _ _ _ => m
  | .por m _ _ _ => m
  | .pxor m _ _ _ => m
  | .pnot m _ _ => m
  | .xsend m _ _ => m
  | .xrecv m _ => m
  | .mfs m _ _ => m
  | .mts m _ _ => m
  | .feat m _ _ => m
  | .clock m _ => m
  | .roleid m _ _ => m
  | .ldl m _ _ _ _ => m
  | .ldp m _ _ _ _ => m
  | .ldg m _ _ _ _ => m
  | .stl m _ _ _ _ => m
  | .stp m _ _ _ _ => m
  | .stg m _ _ _ _ => m
  | .pfg m _ _ => m
  | .l1inv m _ _ => m
  | .l1invAll m => m
  | .mark m => m
  | .fence m => m
  | .qfence m _ _ => m
  | .twany m _ _ _ => m
  | .twall m _ _ _ => m
  | .tffr m _ _ => m
  | .tclr m _ => m
  | .barinit m _ _ => m
  | .bararr m _ _ _ => m
  | .barwait m _ _ _ => m
  | .vldl m _ _ _ _ _ => m
  | .vldp m _ _ _ _ _ => m
  | .vldg m _ _ _ _ _ => m
  | .vstl m _ _ _ _ _ => m
  | .vstp m _ _ _ _ _ => m
  | .vstg m _ _ _ _ _ => m
  | .vgl m _ _ _ _ _ => m
  | .vgg m _ _ _ _ _ => m
  | .vsl m _ _ _ _ _ => m
  | .vsg m _ _ _ _ _ => m
  | .aadd m _ _ _ _ _ => m
  | .aand m _ _ _ _ _ => m
  | .aor m _ _ _ _ _ => m
  | .axor m _ _ _ _ _ => m
  | .amin m _ _ _ _ _ _ => m
  | .amax m _ _ _ _ _ _ => m
  | .aswp m _ _ _ _ _ => m
  | .acas m _ _ _ _ _ _ => m
  | .afadd m _ _ _ _ _ => m
  | .abinc m _ _ _ _ _ => m
  | .alrb m _ _ => m
  | .alrl m _ _ _ _ _ => m
  | .alrs m _ _ _ _ => m
  | .alrc m _ => m
  | .vaddC m _ _ _ _ => m
  | .vsubC m _ _ _ _ => m
  | .vmulC m _ _ _ _ => m
  | .vandC m _ _ _ _ => m
  | .vorC m _ _ _ _ => m
  | .vxorC m _ _ _ _ => m
  | .vminC m _ _ _ _ => m
  | .vmaxC m _ _ _ _ => m
  | .vfaddC m _ _ _ _ => m
  | .vfsubC m _ _ _ _ => m
  | .vfmulC m _ _ _ _ => m
  | .vfminC m _ _ _ _ => m
  | .vfmaxC m _ _ _ _ => m
  | .vadd m _ _ _ _ _ => m
  | .vsub m _ _ _ _ _ => m
  | .vmul m _ _ _ _ _ => m
  | .vmulh m _ _ _ _ _ => m
  | .vmadd m _ _ _ _ _ _ => m
  | .vmin m _ _ _ _ _ => m
  | .vmax m _ _ _ _ _ => m
  | .vand m _ _ _ _ _ => m
  | .vor m _ _ _ _ _ => m
  | .vxor m _ _ _ _ _ => m
  | .vshl m _ _ _ _ _ => m
  | .vshr m _ _ _ _ _ => m
  | .vsra m _ _ _ _ _ => m
  | .vabs m _ _ _ _ => m
  | .vneg m _ _ _ _ => m
  | .vcmp m _ _ _ _ _ _ _ _ => m
  | .vsel m _ _ _ _ _ _ => m
  | .vpopc m _ _ _ _ => m
  | .vfadd m _ _ _ _ => m
  | .vfsub m _ _ _ _ => m
  | .vfmul m _ _ _ _ => m
  | .vfma m _ _ _ _ _ => m
  | .vfmin m _ _ _ _ => m
  | .vfmax m _ _ _ _ => m
  | .vfcmp m _ _ _ _ _ _ _ => m
  | .vfrcp m _ _ _ => m
  | .vfrsq m _ _ _ => m
  | .vfexp2 m _ _ _ => m
  | .vflog2 m _ _ _ => m
  | .vftanh m _ _ _ => m
  | .vcvt m _ _ _ _ _ => m
  | .vqnt m _ _ _ _ _ _ _ => m
  | .vdqnt m _ _ _ _ _ => m
  | .vpack m _ _ _ => m
  | .vunpk m _ _ _ => m
  | .vradd m _ _ _ _ => m
  | .vrmax m _ _ _ _ => m
  | .vfradd m _ _ _ => m
  | .vfrmax m _ _ _ => m
  | .vperm m _ _ _ _ _ => m
  | .vrot m _ _ _ _ => m
  | .vbcast m _ _ _ _ => m
  | .vext m _ _ _ _ _ => m
  | .vins m _ _ _ _ _ => m
  | .vcomp m _ _ _ _ => m
  | .vexpd m _ _ _ _ => m
  | .vmrg3 m _ _ _ _ _ => m
  | .vmov m _ _ => m
  | .vli m _ _ _ _ => m
  | .vsplat m _ _ _ => m
  | .sbind m _ _ _ => m
  | .sbop m _ _ => m
  | .sunbind m _ _ => m
  | .sadv m _ _ => m
  | .sstat m _ _ => m
  | .lcfg m _ _ => m
  | .lstat m _ _ => m
  | .lfence m _ => m
  | .lsync m _ => m
  | .lwst m _ _ _ _ => m
  | .lact m _ _ _ _ => m
  | .lmac m _ _ _ => m
  | .laccz m _ => m
  | .laccr m _ _ _ _ => m
  | .lred m _ _ _ _ _ _ => m
  | .mlay m _ _ _ _ _ _ _ => m
  | .munf m _ _ _ _ _ _ _ => m
  | .mld m _ _ _ _ _ _ _ _ => m
  | .mmul m _ _ _ _ _ _ _ _ => m
  | .mdrn m _ _ _ _ _ _ _ _ => m
  | .mzero m _ _ _ _ _ _ => m
  | .msemSig m _ _ => m
  | .msemWait m _ _ => m
  | .msemRd m _ _ => m
  | .msemSt m _ => m
  | .xcopy m _ _ _ _ _ => m
  | .xgath m _ _ _ _ _ => m
  | .xscat m _ _ _ _ _ => m
  | .xscadd m _ _ _ _ _ => m
  | .xfill m _ _ _ _ _ => m
  | .xring m _ _ _ _ _ => m
  | .creq m _ _ _ _ _ => m
  | .sqnew m _ _ _ _ => m
  | .sqres m _ _ _ => m
  | .sqrest m _ _ _ => m
  | .sqcmt m _ _ _ _ => m
  | .sqacc m _ _ _ => m
  | .sqwd m _ _ => m
  | .sqfree m _ _ => m
  | .sqfork m _ _ _ => m
  | .sqlen m _ _ => m
  | .sqwait m _ _ _ _ => m
  | .sqpin m _ _ => m
  | .squnpin m _ _ => m
  | .sqext m _ _ _ _ => m
  | .ldq m _ _ _ _ _ => m
  | .vldq m _ _ _ _ _ => m
  | .stq m _ _ _ _ => m
  | .vstq m _ _ _ _ => m
  | .sqattn m _ _ _ _ => m
  | .pfxh m _ _ _ => m
  | .pfxl m _ _ _ => m
  | .pfxlH m _ _ => m
  | .pfxlS m _ _ => m
  | .pfxi m _ _ _ _ => m
  | .pfxd m _ _ => m
  | .pfxdU m _ _ => m
  | .trap m _ => m
  | .chk m _ _ => m
  | .tabort m => m
  | .tstat m _ _ => m
  | .tret m _ _ _ => m
  | .launch m _ _ _ => m
  | .lwait m _ _ => m
  | .lpoll m _ _ => m
  | .rcbq m _ _ _ => m
  | .spop m _ => m
  | .spush m _ _ _ => m
  | .wlapp m _ _ _ => m
  | .wltake m _ _ => m
  | .quies m _ _ => m
  | _ => {}

/-- The prefix kinds each form accepts (R146, R167, R192, R223, R251, R272, R316, R341). -/
def instrAccepts : Instr → Accepts
  | .add .. | .sub .. | .mul .. | .madd .. | .vadd .. | .vsub ..
  | .vmul .. | .vmadd .. | .vabs .. | .vneg .. | .vradd .. => { rnd := .satOnly, guard := true }
  | .mulh .. | .mulhU .. | .div .. | .divU .. | .rem .. | .remU ..
  | .and .. | .or .. | .xor .. | .andn .. | .shl .. | .shr ..
  | .sra .. | .rot .. | .min .. | .minU .. | .max .. | .maxU ..
  | .clz .. | .ctz .. | .popc .. | .sextB .. | .sextH .. | .sextW ..
  | .zextB .. | .zextH .. | .zextW .. | .mov .. | .shli .. | .shri ..
  | .srai .. | .sel .. | .lea .. | .cmp .. | .pand .. | .por ..
  | .pxor .. | .pnot .. | .xsend .. | .xrecv .. | .mfs .. | .mts ..
  | .feat .. | .clock .. | .roleid .. | .mark .. | .qfence .. | .twany ..
  | .twall .. | .tffr .. | .tclr .. | .barinit .. | .alrl .. | .alrs ..
  | .vmulh .. | .vmin .. | .vmax .. | .vand .. | .vor .. | .vxor ..
  | .vshl .. | .vshr .. | .vsra .. | .vcmp .. | .vsel .. | .vpopc ..
  | .vpack .. | .vunpk .. | .vrmax .. | .vperm .. | .vrot .. | .vbcast ..
  | .vext .. | .vins .. | .vcomp .. | .vexpd .. | .vmrg3 .. | .vmov ..
  | .vsplat .. | .lcfg .. | .lstat .. | .lfence .. | .lsync .. | .lwst ..
  | .lact .. | .lmac .. | .laccz .. | .laccr .. | .lred .. | .mlay ..
  | .munf .. | .mld .. | .mmul .. | .mzero .. | .msemSig .. | .msemWait ..
  | .msemRd .. | .msemSt .. | .sqnew .. | .sqres .. | .sqrest .. | .sqcmt ..
  | .sqacc .. | .sqwd .. | .sqfree .. | .sqfork .. | .sqlen .. | .sqwait ..
  | .sqpin .. | .squnpin .. | .sqext .. | .sqattn .. | .pfxh .. | .pfxl ..
  | .pfxlH .. | .pfxlS .. | .pfxi .. | .pfxd .. | .pfxdU .. | .trap ..
  | .chk .. | .tabort .. | .tstat .. | .tret .. | .launch .. | .lwait ..
  | .lpoll .. | .rcbq .. | .spop .. | .spush .. | .wlapp .. | .wltake ..
  | .quies .. => { guard := true }
  | .addi .. => { rnd := .satOnly, imm := true, guard := true }
  | .andi .. | .ori .. | .xori .. | .li .. | .lih .. | .bext ..
  | .bextS .. | .bins .. | .cmpi .. | .vli .. => { imm := true, guard := true }
  | .ldl .. | .ldp .. | .ldg .. | .stl .. | .stp .. | .stg ..
  | .vldl .. | .vldp .. | .vldg .. | .vstl .. | .vstp .. | .vstg .. => { ord := .any, imm := true }
  | .pfg .. | .l1inv .. | .sbind .. => { imm := true }
  | .fence .. => { ord := .both, guard := true }
  | .bararr .. => { ord := .needRel, guard := true }
  | .barwait .. => { ord := .needAcq, guard := true }
  | .vgl .. | .vgg .. | .vsl .. | .vsg .. => { ord := .any }
  | .aadd .. | .aand .. | .aor .. | .axor .. | .amin .. | .amax ..
  | .aswp .. | .acas .. | .afadd .. | .abinc .. | .alrb .. => { ord := .any, imm := true, guard := true }
  | .alrc .. => { ord := .any, guard := true }
  | .vaddC .. | .vsubC .. | .vmulC .. | .vandC .. | .vorC .. | .vxorC ..
  | .vminC .. | .vmaxC .. => { rnd := .satOnly, rext := true, guard := true }
  | .vfaddC .. | .vfsubC .. | .vfmulC .. | .vfminC .. | .vfmaxC .. => { rnd := .full, rext := true, guard := true }
  | .vfadd .. | .vfsub .. | .vfmul .. | .vfma .. | .vfmin .. | .vfmax ..
  | .vfcmp .. | .vfrcp .. | .vfrsq .. | .vfexp2 .. | .vflog2 .. | .vftanh ..
  | .vcvt .. | .vqnt .. | .vdqnt .. | .vfradd .. | .vfrmax .. | .mdrn .. => { rnd := .full, guard := true }
  | _ => {}

/-- The forms whose TK field must be zero on every engine (R49, R186, R341). -/
def instrTkZero : Instr → Bool
  | .xsend .. | .twany .. | .twall .. | .tffr .. | .tclr .. | .barinit .. | .bararr .. | .barwait ..
  | .aadd .. | .aand .. | .aor .. | .axor .. | .amin .. | .amax .. | .aswp .. | .acas ..
  | .afadd .. | .abinc .. | .alrb .. | .alrl .. | .alrs .. | .alrc .. | .sqnew .. | .sqres ..
  | .sqrest .. | .sqcmt .. | .sqacc .. | .sqwd .. | .sqfree .. | .sqfork .. | .sqlen .. | .sqwait ..
  | .sqpin .. | .squnpin .. | .sqext .. | .sqattn .. | .pfxh .. | .pfxl .. | .pfxlH .. | .pfxlS ..
  | .pfxi .. | .pfxd .. | .pfxdU .. | .trap .. | .chk .. | .tabort .. | .tstat .. | .tret ..
  | .launch .. | .lwait .. | .lpoll .. | .rcbq .. | .spop .. | .spush .. | .wlapp .. | .wltake ..
  | .quies .. => true
  | _ => false

/-- The engine class of each form (R63, R65, R66). -/
def instrEngines : Instr → EngClass
  | .sel .. | .cmp .. | .cmpi .. | .pand .. | .por .. | .pxor .. | .pnot .. | .bc .. => .commonXC
  | .bq .. | .xrecv .. | .tkpush .. | .tkpop .. => .only false true true true
  | .bcast .. | .halt | .xsend .. | .twany .. | .twall .. | .tffr .. | .tclr .. | .barinit ..
  | .bararr .. | .barwait .. | .aadd .. | .aand .. | .aor .. | .axor .. | .amin .. | .amax ..
  | .aswp .. | .acas .. | .afadd .. | .abinc .. | .alrb .. | .alrl .. | .alrs .. | .alrc ..
  | .sqnew .. | .sqres .. | .sqrest .. | .sqcmt .. | .sqacc .. | .sqwd .. | .sqfree .. | .sqfork ..
  | .sqlen .. | .sqwait .. | .sqpin .. | .squnpin .. | .sqext .. | .sqattn .. | .pfxh .. | .pfxl ..
  | .pfxlH .. | .pfxlS .. | .pfxi .. | .pfxd .. | .pfxdU .. | .tabort .. | .tstat .. | .tret ..
  | .tlbinvPg .. | .tlbinvAs .. | .tlbinvAll | .asset .. | .launch .. | .lwait .. | .lpoll .. | .rcbq ..
  | .spop .. | .spush .. | .wlapp .. | .wltake .. | .quies .. => .only true false false false
  | .ldl .. | .ldp .. | .ldg .. | .pfg .. | .l1inv .. | .l1invAll .. | .vldl .. | .vldp ..
  | .vldg .. | .vgl .. | .vgg .. | .ldq .. | .vldq .. => .only false true false false
  | .stl .. | .stp .. | .stg .. | .vstl .. | .vstp .. | .vstg .. | .vsl .. | .vsg ..
  | .stq .. | .vstq .. => .only false false false true
  | .mark .. | .fence .. | .qfence .. => .only true true false true
  | .vaddC .. | .vsubC .. | .vmulC .. | .vandC .. | .vorC .. | .vxorC .. | .vminC .. | .vmaxC ..
  | .vfaddC .. | .vfsubC .. | .vfmulC .. | .vfminC .. | .vfmaxC .. | .vadd .. | .vsub .. | .vmul ..
  | .vmulh .. | .vmadd .. | .vmin .. | .vmax .. | .vand .. | .vor .. | .vxor .. | .vshl ..
  | .vshr .. | .vsra .. | .vabs .. | .vneg .. | .vcmp .. | .vsel .. | .vpopc .. | .vfadd ..
  | .vfsub .. | .vfmul .. | .vfma .. | .vfmin .. | .vfmax .. | .vfcmp .. | .vfrcp .. | .vfrsq ..
  | .vfexp2 .. | .vflog2 .. | .vftanh .. | .vcvt .. | .vqnt .. | .vdqnt .. | .vpack .. | .vunpk ..
  | .vradd .. | .vrmax .. | .vfradd .. | .vfrmax .. | .vperm .. | .vrot .. | .vbcast .. | .vext ..
  | .vins .. | .vcomp .. | .vexpd .. | .vmrg3 .. | .vmov .. | .vli .. | .vsplat .. | .lcfg ..
  | .lstat .. | .lfence .. | .lsync .. | .lwst .. | .lact .. | .lmac .. | .laccz .. | .laccr ..
  | .lred .. | .mlay .. | .munf .. | .mld .. | .mmul .. | .mdrn .. | .mzero .. | .msemSig ..
  | .msemWait .. | .msemRd .. | .msemSt .. => .only false false true false
  | .sbind .. | .sbop .. | .sunbind .. | .sadv .. | .sstat .. | .xcopy .. | .xgath .. | .xscat ..
  | .xscadd .. | .xfill .. | .xring .. | .creq .. => .only false true false true
  | _ => .common

/-- The control instructions: the 16-bit `nop` and every instruction of majors 17-23 (R61). -/
def instrIsControl : Instr → Bool
  | .nop16 | .bra .. | .bc .. | .call .. | .bq .. | .bx .. | .ret | .bcast .. | .nop | .halt => true
  | _ => false

/-- The rows of the table that are events of the device and that no word encodes. -/
def instrIsEvent : Instr → Bool
  | .ctlSplitWrite | .ctlSplitApply | .slotPlanWrite | .qfenceReturn | .tagWaitReturn | .tagWaitTimeout
  | .barwaitReturn | .quiesReturn | .quiesTimeout | .sunbindComplete | .streamFetch | .streamStore
  | .alrGrant | .alrHoldExpiry | .lcfgApply | .lfenceReturn | .lsyncRelease | .trellisSwitch
  | .lwstBind | .lactLoad | .lmacPiece | .lacczClear | .laccrReadout | .lredReduce
  | .ringFold | .mlayExecute | .munfExecute | .mldExecute | .mmulExecute | .mdrnExecute
  | .mzeroExecute | .msemWaitReturn | .transferChunk | .creqExecute | .transferCompletion | .completionRecordWrite
  | .ringWaitTimeout | .systemWriteAck | .remoteNak | .systemReadResponse | .sqwaitReturn | .sqwaitTimeout
  | .lenAdvance | .sqattnExecute | .taskStart | .taskCommit | .deadlockDetect | .trapDelivery
  | .trapRecordPublish | .regionAdmission | .launchPriorityRise | .balancerRun | .coreJoinStage | .coreGrant
  | .coreWaitPriorityRise | .quiescenceReport | .regionCompletion | .regionAbort | .lwaitYield | .lwaitResume
  | .launchMessage | .abortMessage | .spaceMessage | .balloonMessage | .pageWalk | .l2Writeback
  | .rakeReclaim | .spaceTimeout | .balloonReclaim | .granuleMigrate | .columnDrain | .columnRetire
  | .migrationTimeout | .migrationRetry | .frameBoundary | .streamingSlot | .refreshSlot | .maintenanceSlot
  | .retrainingDue | .retrainingForce | .retrainingEnd | .bankSleep | .bankWake | .powerSample
  | .preemptionRequest | .contextHalt | .unitStopAck | .collectorReport | .partitionSwap | .contextRestore
  | .rdmaWriteInbound | .rdmaReadInbound | .congestionNotification | .frameDrop | .flitReplay | .portRetrain
  | .boot | .attestationRequest | .configRecordSubmit | .firmwareImageLoad | .firmwareSlotSwitch | .firmwareSwitchBack
  | .fatalError | .priorityFlowControlFrame | .ucieLaneRepair | .idustTranslationDone => true
  | _ => false

/-- The operand that a compact vector form's source field names with its extension bits (R53, R58). -/
def vsrcOfCode (c : Nat) : Option VSrc :=
  if c < 64 then some (.v (BitVec.ofNat 6 c))
  else if c < 80 then some (.z (BitVec.ofNat 4 (c - 64)))
  else if c < 84 then some (.fd (BitVec.ofNat 2 (c - 80)))
  else none

/-- The operand that a destination code names (R53). -/
def vdstOfCode (c : Nat) : Option VDst :=
  if c < 64 then some (.v (BitVec.ofNat 6 c))
  else if c < 80 then some (.z (BitVec.ofNat 4 (c - 64)))
  else if 84 ≤ c ∧ c < 88 then some (.dn (BitVec.ofNat 2 (c - 84)))
  else if 88 ≤ c ∧ c < 90 then some (.bk (BitVec.ofNat 1 (c - 88)))
  else none

/-- The 7-bit code of a source operand (R53). -/
def vsrcCode : VSrc → Nat
  | .v n => n.toNat
  | .z n => 64 + n.toNat
  | .fd n => 80 + n.toNat

/-- The 7-bit code of a destination operand (R53). -/
def vdstCode : VDst → Nat
  | .v n => n.toNat
  | .z n => 64 + n.toNat
  | .dn n => 84 + n.toNat
  | .bk n => 88 + n.toNat

/-- The index field of a vector load (R171, R266). -/
def xOrBkOfCode (c : Nat) : Option XOrBk :=
  if c < 32 then some (.x (BitVec.ofNat 5 c))
  else if 88 ≤ c ∧ c < 90 then some (.bk (BitVec.ofNat 1 (c - 88)))
  else none

/-- The code of the index field of a vector load (R171, R266). -/
def xOrBkCode : XOrBk → Nat
  | .x n => n.toNat
  | .bk n => 88 + n.toNat

/-- The 7-bit code of a compact form's field: the two extension bits above the field (R58). -/
def compactCode (m : Mods) (sh : Nat) (f : Reg) : Nat :=
  (m.pfx.rext.getD 0).toNat / 2 ^ sh % 4 * 32 + f.toNat

/-- The destination of a compact vector form (R58, R208). -/
def compactDst (m : Mods) (d : Reg) : Option VDst := vdstOfCode (compactCode m 0 d)
/-- The first source of a compact vector form (R58, R208). -/
def compactA (m : Mods) (a : Reg) : Option VSrc := vsrcOfCode (compactCode m 2 a)
/-- The second source of a compact vector form (R58, R208). -/
def compactB (m : Mods) (b : Reg) : Option VSrc := vsrcOfCode (compactCode m 4 b)

/-- The fields of a compact vector form name operands, and EXC, which no form uses, is zero (R58). -/
def compactOk (m : Mods) (d a b : Reg) : Bool :=
  (compactDst m d).isSome && (compactA m a).isSome && (compactB m b).isSome &&
  (m.pfx.rext.getD 0).toNat / 64 == 0

/-- The vector operands that an instruction names as sources (R53, R58). -/
def instrSrcs : Instr → List VSrc
  | .vaddC m _ a b .. | .vsubC m _ a b .. | .vmulC m _ a b .. | .vandC m _ a b .. | .vorC m _ a b ..
  | .vxorC m _ a b .. | .vminC m _ a b .. | .vmaxC m _ a b .. | .vfaddC m _ a b .. | .vfsubC m _ a b ..
  | .vfmulC m _ a b .. | .vfminC m _ a b .. | .vfmaxC m _ a b .. => [compactA m a, compactB m b].filterMap id
  | .vadd _ _ a b .. | .vsub _ _ a b .. | .vmul _ _ a b .. | .vmulh _ _ a b .. | .vmin _ _ a b ..
  | .vmax _ _ a b .. | .vand _ _ a b .. | .vor _ _ a b .. | .vxor _ _ a b .. | .vshl _ _ a b ..
  | .vshr _ _ a b .. | .vsra _ _ a b .. => [a, b]
  | .vmadd _ _ a b c .. | .vsel _ _ a b c .. => [a, b, c]
  | .vabs _ _ a .. | .vneg _ _ a .. | .vpopc _ _ a .. | .vradd _ _ a .. | .vrmax _ _ a .. | .vrot _ _ a ..
  | .vbcast _ _ a .. => [a]
  | .vcmp _ _ a b .. => [a, b]
  | .vfadd _ _ a b .. | .vfsub _ _ a b .. | .vfmul _ _ a b .. | .vfmin _ _ a b .. | .vfmax _ _ a b ..
  | .vcomp _ _ a b .. | .vexpd _ _ a b .. => [a, b]
  | .vfma _ _ a b c .. | .vperm _ _ a b c .. | .vmrg3 _ _ a b c .. => [a, b, c]
  | .vfcmp _ _ a b .. | .vqnt _ _ a b .. => [a, b]
  | .vfrcp _ _ a .. | .vfrsq _ _ a .. | .vfexp2 _ _ a .. | .vflog2 _ _ a .. | .vftanh _ _ a ..
  | .vpack _ _ a .. | .vunpk _ _ a .. | .vfradd _ _ a .. | .vfrmax _ _ a .. => [a]
  | .vcvt _ _ a .. | .vdqnt _ _ a .. | .vext _ _ a .. | .vins _ _ a .. => [a]
  | .vmov _ _ a => [a]
  | _ => []

/-- The vector operand that an instruction names as its destination (R53, R58). -/
def instrDst : Instr → Option VDst
  | .vaddC m d .. | .vsubC m d .. | .vmulC m d .. | .vandC m d .. | .vorC m d .. | .vxorC m d ..
  | .vminC m d .. | .vmaxC m d .. | .vfaddC m d .. | .vfsubC m d .. | .vfmulC m d .. | .vfminC m d ..
  | .vfmaxC m d .. => compactDst m d
  | .vadd _ d .. | .vsub _ d .. | .vmul _ d .. | .vmulh _ d .. | .vmin _ d .. | .vmax _ d .. | .vand _ d ..
  | .vor _ d .. | .vxor _ d .. | .vshl _ d .. | .vshr _ d .. | .vsra _ d .. | .vfma _ d .. | .vcvt _ d ..
  | .vdqnt _ d .. | .vperm _ d .. | .vins _ d .. | .vmrg3 _ d .. => some d
  | .vmadd _ d .. | .vsel _ d .. => some d
  | .vabs _ d .. | .vneg _ d .. | .vpopc _ d .. | .vfadd _ d .. | .vfsub _ d .. | .vfmul _ d .. | .vfmin _ d ..
  | .vfmax _ d .. | .vradd _ d .. | .vrmax _ d .. | .vrot _ d .. | .vbcast _ d .. | .vcomp _ d ..
  | .vexpd _ d .. | .vli _ d .. => some d
  | .vcmp _ d .. => some d
  | .vfcmp _ d .. | .vqnt _ d .. => some d
  | .vfrcp _ d .. | .vfrsq _ d .. | .vfexp2 _ d .. | .vflog2 _ d .. | .vftanh _ d .. | .vpack _ d ..
  | .vunpk _ d .. | .vfradd _ d .. | .vfrmax _ d .. | .vsplat _ d .. => some d
  | .vmov _ d .. => some d
  | _ => none

/-- The field control k of `bext`, `bext.s` and `bins` above its low ten bits (R153). -/
def bfExt (m : Mods) : Nat := (m.pfx.imm.getD 0).toNat

/-- The length minus one that a bit-field instruction names (R153). -/
def bfLen (m : Mods) (n : BitVec 4) : Nat := bfExt m % 4 * 16 + n.toNat

/-- A bit-field instruction of OP `op` whose field lies in the register (R153). -/
def bfOk (m : Mods) (op : Nat) (n : BitVec 4) (p : BitVec 6) : Bool :=
  bfExt m / 4 == op && decide (p.toNat + bfLen m n + 1 ≤ 64)

/-- A format code is one of the formats that `ok` admits. -/
def fmtIs (c : BitVec 6) (ok : Fmt → Bool) : Bool :=
  match fmtOfCode c with
  | some f => ok f
  | none => false

/-- The numbers of the special registers (R161). -/
def sprNumbers : List Nat := [1, 2, 3, 4, 5, 6, 16, 17, 18, 32]

/-- The limits of the fields that a description states for a form and that do not depend on the
engine: a breach is ILLOP (R67 and the chapters' field tables). -/
def valueOk : Instr → Bool
  | .bext m _ _ n p => bfOk m 0 n p
  | .bextS m _ _ n p => bfOk m 1 n p
  | .bins m _ _ n p => bfOk m 2 n p
  | .vgl _ _ _ _ e k | .vgg _ _ _ _ e k | .vsl _ _ _ _ e k | .vsg _ _ _ _ e k =>
    decide ((k.toNat + 1) * widthBytes e ≤ 128)
  | .vcvt _ _ _ k sf tf =>
    match fmtOfCode sf, fmtOfCode tf with
    | some f, some g => fmtIsVector f && fmtIsVector g &&
        decide (k.toNat < max (fmtWidth f) (fmtWidth g) / min (fmtWidth f) (fmtWidth g))
    | _, _ => false
  | .vqnt _ _ _ b k scm sf tf =>
    fmtIs tf fmtIsRecord && (scm == 1#1 || b == .v 0#6) && (k == 0#1 || sf != .fp32)
  | .vdqnt _ _ _ k sf tf => fmtIs sf fmtIsRecord && (k == 0#1 || tf != .fp32)
  | .vpack _ _ _ f | .vunpk _ _ _ f => fmtIs f fmtIsRecord
  | .vbcast _ _ _ k w | .vext _ _ _ k _ w => decide (k.toNat < 128 / widthBytes w)
  | .vins _ _ _ _ k w => decide (k.toNat < 128 / widthBytes w)
  | .lwst _ _ _ _ f | .lact _ _ _ _ f => fmtIs f fmtIsLane
  | .lred _ _ b _ _ ring _ => ring == 0#1 || b == 0#5
  | .munf _ _ b id .. => id == 0#1 || b == 0#5
  | .rcbq _ _ _ k => decide (k.toNat < 14)
  | .bcast _ e _ | .xsend _ e _ => e != 0
  | .mfs _ _ n | .mts _ _ n => sprNumbers.contains n.toNat
  | .vaddC m d a b _ | .vsubC m d a b _ | .vmulC m d a b _ | .vandC m d a b _ | .vorC m d a b _
  | .vxorC m d a b _ | .vminC m d a b _ | .vmaxC m d a b _ => compactOk m d a b
  | .vfaddC m d a b _ | .vfsubC m d a b _ | .vfmulC m d a b _ | .vfminC m d a b _
  | .vfmaxC m d a b _ => compactOk m d a b
  | _ => true

/-- A rounding prefix that a form accepts (R146, R192). -/
def rndOk : RndAccept → Option RndPfx → Bool
  | _, none => true
  | .no, some _ => false
  | .satOnly, some r => !r.ftz && r.rm.isNone
  | .full, some _ => true

/-- An ordering prefix that a form accepts; one of its two bits is set (R57, R167, R177, R189). -/
def ordOk : OrdAccept → Option OrdPfx → Bool
  | _, none => true
  | .no, some _ => false
  | .any, some o => o.acq || o.rel
  | .both, some o => o.acq && o.rel
  | .needRel, some o => o.rel
  | .needAcq, some o => o.acq

/-- The prefixes of an instruction are ones its form accepts, with legal fields (R62). -/
def pfxOk (a : Accepts) (p : Pfx) : Bool :=
  rndOk a.rnd p.rnd && ordOk a.ord p.ord && (a.rext || p.rext.isNone) &&
  (a.imm || p.imm.isNone) && (a.guard || p.guard.isNone)

end Sys2Proof.Machine
end

