-- ==== Sys2Proof/WellFormed.lean ====
section
/-! DEFINITION. When an instruction is well-formed: the device decodes its words without a fault that
depends on the words alone (R62, R67). What depends on the engine that executes it is checked at issue. -/

namespace Sys2Proof

open Sys2Proof.Machine

/-- The checks of a decoded instruction, one by one; each names what is wrong with the term. -/
inductive FormError where
  | prefixes    -- a prefix its form does not accept (R62)
  | token       -- a TK field that must be zero (R49)
  | value       -- a field outside the limits of its form (R67)
  | event       -- an event of the device, which no word encodes
  deriving DecidableEq, Repr

/-- The first check that an instruction fails; none for a well-formed one. -/
def formError (i : Instr) : Option FormError :=
  if instrIsEvent i then some .event
  else if !pfxOk (instrAccepts i) (instrMods i).pfx then some .prefixes
  else if instrTkZero i && (instrMods i).tk != 0 then some .token
  else if !valueOk i then some .value
  else none

/-- An instruction that some words encode and every check of its words admits. -/
def wellFormed (i : Instr) : Bool := (formError i).isNone

end Sys2Proof
end

