-- ==== Sys2Proof/Decode.lean ====
section
/-! DEFINITION. The decoder of a text's parcels, by the encoding tables of spec/03_encoding.md and of the
chapters, and after it the encoder. A table row lists its fields from the highest bit down. -/

namespace Sys2Proof

open Sys2Proof.Machine

/-- A field of an encoding row: constant bits, or a field that the instruction carries. -/
inductive Atom where
  | k (w v : Nat)
  | f (w : Nat)
  deriving DecidableEq, Repr

/-- The unit length that the LEN field selects (R41). -/
inductive Len where
  | b16 | b32 | b64
  deriving DecidableEq, Repr

/-- One row of the encoding tables: length, major opcode, the bits above TK (or above MAJ in the 16-bit
format) from the highest down, whether TK must be zero, and the instruction its fields give. -/
structure Row where
  len    : Len
  maj    : Nat
  atoms  : List Atom
  tkZero : Bool
  build  : Mods → List Nat → Option Dec

/-- The value of field `i`, counted from the highest field of the word. -/
def arg (v : List Nat) (i : Nat) : Nat := v.getD i 0

/-- The value of field `i` as a pattern of `w` bits. -/
def bv (w : Nat) (v : List Nat) (i : Nat) : BitVec w := BitVec.ofNat w (arg v i)

/-- The width of a field. -/
def atomWidth : Atom → Nat
  | .k w _ => w
  | .f w => w

/-- The number of bits of a row's fields. -/
def atomsWidth : List Atom → Nat
  | [] => 0
  | a :: r => atomWidth a + atomsWidth r

/-- The values of the fields in the low bits of `n`, the highest field first; none where a constant
differs. -/
def splitAtoms : List Atom → Nat → Option (List Nat)
  | [], _ => some []
  | .k w v :: r, n =>
    if n / 2 ^ atomsWidth r % 2 ^ w = v then splitAtoms r n else none
  | .f w :: r, n =>
    match splitAtoms r n with
    | some l => some (n / 2 ^ atomsWidth r % 2 ^ w :: l)
    | none => none

/-- The bits of fields with the given values. -/
def joinAtoms : List Atom → List Nat → Nat
  | [], _ => 0
  | .k _ v :: r, l => v * 2 ^ atomsWidth r + joinAtoms r l
  | .f _ :: r, x :: l => x * 2 ^ atomsWidth r + joinAtoms r l
  | .f _ :: _, [] => 0


/-- The code of a `Cond` (R154). -/
def condCode : Cond → Nat
  | .eq => 0 | .ne => 1 | .lt => 2 | .ge => 3 | .le => 4 | .gt => 5 | .ltu => 6 | .geu => 7 | .leu => 8 | .gtu => 9 | .bs => 10 | .bz => 11

/-- The `Cond` that a code names; none for a reserved code (R154). -/
def condOfCode : Nat → Option Cond
  | 0 => some .eq | 1 => some .ne | 2 => some .lt | 3 => some .ge | 4 => some .le | 5 => some .gt | 6 => some .ltu | 7 => some .geu | 8 => some .leu | 9 => some .gtu | 10 => some .bs | 11 => some .bz | _ => none

/-- The code of a `LdFmt` (R169). -/
def ldFmtCode : LdFmt → Nat
  | .i8s => 0 | .i8n => 1 | .i16s => 2 | .i16n => 3 | .i32s => 4 | .i32n => 5 | .i64s => 6

/-- The `LdFmt` that a code names; none for a reserved code (R169). -/
def ldFmtOfCode : Nat → Option LdFmt
  | 0 => some .i8s | 1 => some .i8n | 2 => some .i16s | 3 => some .i16n | 4 => some .i32s | 5 => some .i32n | 6 => some .i64s | _ => none

/-- The code of a `Width` (R169, R205). -/
def widthCode : Width → Nat
  | .w8 => 0 | .w16 => 1 | .w32 => 2 | .w64 => 3

/-- The `Width` that a code names; none for a reserved code (R169, R205). -/
def widthOfCode : Nat → Option Width
  | 0 => some .w8 | 1 => some .w16 | 2 => some .w32 | 3 => some .w64 | _ => none

/-- The code of a `ASize` (R178). -/
def aSizeCode : ASize → Nat
  | .word => 1 | .quad => 2

/-- The `ASize` that a code names; none for a reserved code (R178). -/
def aSizeOfCode : Nat → Option ASize
  | 1 => some .word | 2 => some .quad | _ => none

/-- The code of a `IntEt` (R194). -/
def intEtCode : IntEt → Nat
  | .i8s => 2 | .i16s => 4 | .i32s => 6 | .i64s => 8

/-- The `IntEt` that a code names; none for a reserved code (R194). -/
def intEtOfCode : Nat → Option IntEt
  | 2 => some .i8s | 4 => some .i16s | 6 => some .i32s | 8 => some .i64s | _ => none

/-- The code of a `FltEt` (R196). -/
def fltEtCode : FltEt → Nat
  | .fp16 => 16 | .bf16 => 17 | .fp32 => 18 | .a56 => 19

/-- The `FltEt` that a code names; none for a reserved code (R196). -/
def fltEtOfCode : Nat → Option FltEt
  | 16 => some .fp16 | 17 => some .bf16 | 18 => some .fp32 | 19 => some .a56 | _ => none

/-- The code of a `FltEt3` (R198). -/
def fltEt3Code : FltEt3 → Nat
  | .fp16 => 16 | .bf16 => 17 | .fp32 => 18

/-- The `FltEt3` that a code names; none for a reserved code (R198). -/
def fltEt3OfCode : Nat → Option FltEt3
  | 16 => some .fp16 | 17 => some .bf16 | 18 => some .fp32 | _ => none

/-- The code of a `CFlt` (R208). -/
def cFltCode : CFlt → Nat
  | .fp32 => 0 | .bf16 => 1 | .fp16 => 2

/-- The `CFlt` that a code names; none for a reserved code (R208). -/
def cFltOfCode : Nat → Option CFlt
  | 0 => some .fp32 | 1 => some .bf16 | 2 => some .fp16 | _ => none

/-- The code of a `VCond` (R194). -/
def vCondCode : VCond → Nat
  | .eq => 0 | .ne => 1 | .lt => 2 | .le => 3 | .gt => 4 | .ge => 5

/-- The `VCond` that a code names; none for a reserved code (R194). -/
def vCondOfCode : Nat → Option VCond
  | 0 => some .eq | 1 => some .ne | 2 => some .lt | 3 => some .le | 4 => some .gt | 5 => some .ge | _ => none

/-- The code of a `FCond` (R196). -/
def fCondCode : FCond → Nat
  | .eq => 0 | .ne => 1 | .lt => 2 | .le => 3 | .gt => 4 | .ge => 5 | .un => 6

/-- The `FCond` that a code names; none for a reserved code (R196). -/
def fCondOfCode : Nat → Option FCond
  | 0 => some .eq | 1 => some .ne | 2 => some .lt | 3 => some .le | 4 => some .gt | 5 => some .ge | 6 => some .un | _ => none

/-- The code of a `TMode` (R241). -/
def tModeCode : TMode → Nat
  | .float => 0 | .wrap => 1 | .sat => 2

/-- The `TMode` that a code names; none for a reserved code (R241). -/
def tModeOfCode : Nat → Option TMode
  | 0 => some .float | 1 => some .wrap | 2 => some .sat | _ => none

/-- The code of a `Spr` (R161). -/
def sprCode : Spr → Nat
  | .ctlWindow => 1 | .ctlSplit => 2 | .ctlRound => 3 | .ctlPoison => 4 | .ctlPrio => 5 | .ctlAsid => 6 | .statTask => 16 | .statStall => 17 | .tagmap => 18 | .slotPlan => 32

/-- The `Spr` that a code names; none for a reserved code (R161). -/
def sprOfCode : Nat → Option Spr
  | 1 => some .ctlWindow | 2 => some .ctlSplit | 3 => some .ctlRound | 4 => some .ctlPoison | 5 => some .ctlPrio | 6 => some .ctlAsid | 16 => some .statTask | 17 => some .statStall | 18 => some .tagmap | 32 => some .slotPlan | _ => none

/-- The code of a `Sel3` (R272). -/
def sel3Code : Sel3 → Nat
  | .k0 => 0 | .k1 => 1 | .k2 => 2

/-- The `Sel3` that a code names; none for a reserved code (R272). -/
def sel3OfCode : Nat → Option Sel3
  | 0 => some .k0 | 1 => some .k1 | 2 => some .k2 | _ => none

/-- R64. -/
def rowNop16 : Row where
  len := .b16
  maj := 0
  atoms := [.k 10 0]
  tkZero := false
  build := fun _ _ => some (.i (.nop16))

/-- R64, R150. -/
def rowMov16 : Row where
  len := .b16
  maj := 1
  atoms := [.f 5, .f 5]
  tkZero := false
  build := fun _ v => some (.i (.mov16 (bv 5 v 0) (bv 5 v 1)))

/-- R64, R150. -/
def rowAddi16 : Row where
  len := .b16
  maj := 2
  atoms := [.f 5, .f 5]
  tkZero := false
  build := fun _ v => some (.i (.addi16 (bv 5 v 0) (bv 5 v 1)))

/-- R64, R151. -/
def rowLi16 : Row where
  len := .b16
  maj := 3
  atoms := [.f 5, .f 5]
  tkZero := false
  build := fun _ v => some (.i (.li16 (bv 5 v 0) (bv 5 v 1)))

/-- R64, R150. -/
def rowAdd16 : Row where
  len := .b16
  maj := 4
  atoms := [.f 5, .f 5]
  tkZero := false
  build := fun _ v => some (.i (.add16 (bv 5 v 0) (bv 5 v 1)))

/-- R64, R150. -/
def rowSub16 : Row where
  len := .b16
  maj := 5
  atoms := [.f 5, .f 5]
  tkZero := false
  build := fun _ v => some (.i (.sub16 (bv 5 v 0) (bv 5 v 1)))

/-- R64, R150. -/
def rowAnd16 : Row where
  len := .b16
  maj := 6
  atoms := [.f 5, .f 5]
  tkZero := false
  build := fun _ v => some (.i (.and16 (bv 5 v 0) (bv 5 v 1)))

/-- R64, R150. -/
def rowOr16 : Row where
  len := .b16
  maj := 7
  atoms := [.f 5, .f 5]
  tkZero := false
  build := fun _ v => some (.i (.or16 (bv 5 v 0) (bv 5 v 1)))

/-- R64, R150. -/
def rowXor16 : Row where
  len := .b16
  maj := 8
  atoms := [.f 5, .f 5]
  tkZero := false
  build := fun _ v => some (.i (.xor16 (bv 5 v 0) (bv 5 v 1)))

/-- R64, R150. -/
def rowShli16 : Row where
  len := .b16
  maj := 9
  atoms := [.f 5, .f 5]
  tkZero := false
  build := fun _ v => some (.i (.shli16 (bv 5 v 0) (bv 5 v 1)))

/-- R64, R150. -/
def rowShri16 : Row where
  len := .b16
  maj := 10
  atoms := [.f 5, .f 5]
  tkZero := false
  build := fun _ v => some (.i (.shri16 (bv 5 v 0) (bv 5 v 1)))

/-- R64, R150. -/
def rowSrai16 : Row where
  len := .b16
  maj := 11
  atoms := [.f 5, .f 5]
  tkZero := false
  build := fun _ v => some (.i (.srai16 (bv 5 v 0) (bv 5 v 1)))

/-- R148. -/
def rowAdd : Row where
  len := .b32
  maj := 1
  atoms := [.f 5, .f 5, .f 5, .k 5 0]
  tkZero := false
  build := fun m v => some (.i (.add m (bv 5 v 0) (bv 5 v 1) (bv 5 v 2)))

/-- R148. -/
def rowSub : Row where
  len := .b32
  maj := 1
  atoms := [.f 5, .f 5, .f 5, .k 5 1]
  tkZero := false
  build := fun m v => some (.i (.sub m (bv 5 v 0) (bv 5 v 1) (bv 5 v 2)))

/-- R148. -/
def rowMul : Row where
  len := .b32
  maj := 1
  atoms := [.f 5, .f 5, .f 5, .k 5 2]
  tkZero := false
  build := fun m v => some (.i (.mul m (bv 5 v 0) (bv 5 v 1) (bv 5 v 2)))

/-- R148. -/
def rowMulh : Row where
  len := .b32
  maj := 1
  atoms := [.f 5, .f 5, .f 5, .k 5 3]
  tkZero := false
  build := fun m v => some (.i (.mulh m (bv 5 v 0) (bv 5 v 1) (bv 5 v 2)))

/-- R148. -/
def rowMulhU : Row where
  len := .b32
  maj := 1
  atoms := [.f 5, .f 5, .f 5, .k 5 4]
  tkZero := false
  build := fun m v => some (.i (.mulhU m (bv 5 v 0) (bv 5 v 1) (bv 5 v 2)))

/-- R148. -/
def rowDiv : Row where
  len := .b32
  maj := 1
  atoms := [.f 5, .f 5, .f 5, .k 5 5]
  tkZero := false
  build := fun m v => some (.i (.div m (bv 5 v 0) (bv 5 v 1) (bv 5 v 2)))

/-- R148. -/
def rowDivU : Row where
  len := .b32
  maj := 1
  atoms := [.f 5, .f 5, .f 5, .k 5 6]
  tkZero := false
  build := fun m v => some (.i (.divU m (bv 5 v 0) (bv 5 v 1) (bv 5 v 2)))

/-- R148. -/
def rowRem : Row where
  len := .b32
  maj := 1
  atoms := [.f 5, .f 5, .f 5, .k 5 7]
  tkZero := false
  build := fun m v => some (.i (.rem m (bv 5 v 0) (bv 5 v 1) (bv 5 v 2)))

/-- R148. -/
def rowRemU : Row where
  len := .b32
  maj := 1
  atoms := [.f 5, .f 5, .f 5, .k 5 8]
  tkZero := false
  build := fun m v => some (.i (.remU m (bv 5 v 0) (bv 5 v 1) (bv 5 v 2)))

/-- R148. -/
def rowAnd : Row where
  len := .b32
  maj := 1
  atoms := [.f 5, .f 5, .f 5, .k 5 9]
  tkZero := false
  build := fun m v => some (.i (.and m (bv 5 v 0) (bv 5 v 1) (bv 5 v 2)))

/-- R148. -/
def rowOr : Row where
  len := .b32
  maj := 1
  atoms := [.f 5, .f 5, .f 5, .k 5 10]
  tkZero := false
  build := fun m v => some (.i (.or m (bv 5 v 0) (bv 5 v 1) (bv 5 v 2)))

/-- R148. -/
def rowXor : Row where
  len := .b32
  maj := 1
  atoms := [.f 5, .f 5, .f 5, .k 5 11]
  tkZero := false
  build := fun m v => some (.i (.xor m (bv 5 v 0) (bv 5 v 1) (bv 5 v 2)))

/-- R148. -/
def rowAndn : Row where
  len := .b32
  maj := 1
  atoms := [.f 5, .f 5, .f 5, .k 5 12]
  tkZero := false
  build := fun m v => some (.i (.andn m (bv 5 v 0) (bv 5 v 1) (bv 5 v 2)))

/-- R148. -/
def rowShl : Row where
  len := .b32
  maj := 1
  atoms := [.f 5, .f 5, .f 5, .k 5 13]
  tkZero := false
  build := fun m v => some (.i (.shl m (bv 5 v 0) (bv 5 v 1) (bv 5 v 2)))

/-- R148. -/
def rowShr : Row where
  len := .b32
  maj := 1
  atoms := [.f 5, .f 5, .f 5, .k 5 14]
  tkZero := false
  build := fun m v => some (.i (.shr m (bv 5 v 0) (bv 5 v 1) (bv 5 v 2)))

/-- R148. -/
def rowSra : Row where
  len := .b32
  maj := 1
  atoms := [.f 5, .f 5, .f 5, .k 5 15]
  tkZero := false
  build := fun m v => some (.i (.sra m (bv 5 v 0) (bv 5 v 1) (bv 5 v 2)))

/-- R148. -/
def rowRot : Row where
  len := .b32
  maj := 1
  atoms := [.f 5, .f 5, .f 5, .k 5 16]
  tkZero := false
  build := fun m v => some (.i (.rot m (bv 5 v 0) (bv 5 v 1) (bv 5 v 2)))

/-- R148. -/
def rowMin : Row where
  len := .b32
  maj := 1
  atoms := [.f 5, .f 5, .f 5, .k 5 17]
  tkZero := false
  build := fun m v => some (.i (.min m (bv 5 v 0) (bv 5 v 1) (bv 5 v 2)))

/-- R148. -/
def rowMinU : Row where
  len := .b32
  maj := 1
  atoms := [.f 5, .f 5, .f 5, .k 5 18]
  tkZero := false
  build := fun m v => some (.i (.minU m (bv 5 v 0) (bv 5 v 1) (bv 5 v 2)))

/-- R148. -/
def rowMax : Row where
  len := .b32
  maj := 1
  atoms := [.f 5, .f 5, .f 5, .k 5 19]
  tkZero := false
  build := fun m v => some (.i (.max m (bv 5 v 0) (bv 5 v 1) (bv 5 v 2)))

/-- R148. -/
def rowMaxU : Row where
  len := .b32
  maj := 1
  atoms := [.f 5, .f 5, .f 5, .k 5 20]
  tkZero := false
  build := fun m v => some (.i (.maxU m (bv 5 v 0) (bv 5 v 1) (bv 5 v 2)))

/-- R149. -/
def rowClz : Row where
  len := .b32
  maj := 2
  atoms := [.f 5, .f 5, .k 5 0, .k 5 0]
  tkZero := false
  build := fun m v => some (.i (.clz m (bv 5 v 0) (bv 5 v 1)))

/-- R149. -/
def rowCtz : Row where
  len := .b32
  maj := 2
  atoms := [.f 5, .f 5, .k 5 0, .k 5 1]
  tkZero := false
  build := fun m v => some (.i (.ctz m (bv 5 v 0) (bv 5 v 1)))

/-- R149. -/
def rowPopc : Row where
  len := .b32
  maj := 2
  atoms := [.f 5, .f 5, .k 5 0, .k 5 2]
  tkZero := false
  build := fun m v => some (.i (.popc m (bv 5 v 0) (bv 5 v 1)))

/-- R149. -/
def rowSextB : Row where
  len := .b32
  maj := 2
  atoms := [.f 5, .f 5, .k 5 0, .k 5 3]
  tkZero := false
  build := fun m v => some (.i (.sextB m (bv 5 v 0) (bv 5 v 1)))

/-- R149. -/
def rowSextH : Row where
  len := .b32
  maj := 2
  atoms := [.f 5, .f 5, .k 5 0, .k 5 4]
  tkZero := false
  build := fun m v => some (.i (.sextH m (bv 5 v 0) (bv 5 v 1)))

/-- R149. -/
def rowSextW : Row where
  len := .b32
  maj := 2
  atoms := [.f 5, .f 5, .k 5 0, .k 5 5]
  tkZero := false
  build := fun m v => some (.i (.sextW m (bv 5 v 0) (bv 5 v 1)))

/-- R149. -/
def rowZextB : Row where
  len := .b32
  maj := 2
  atoms := [.f 5, .f 5, .k 5 0, .k 5 6]
  tkZero := false
  build := fun m v => some (.i (.zextB m (bv 5 v 0) (bv 5 v 1)))

/-- R149. -/
def rowZextH : Row where
  len := .b32
  maj := 2
  atoms := [.f 5, .f 5, .k 5 0, .k 5 7]
  tkZero := false
  build := fun m v => some (.i (.zextH m (bv 5 v 0) (bv 5 v 1)))

/-- R149. -/
def rowZextW : Row where
  len := .b32
  maj := 2
  atoms := [.f 5, .f 5, .k 5 0, .k 5 8]
  tkZero := false
  build := fun m v => some (.i (.zextW m (bv 5 v 0) (bv 5 v 1)))

/-- R149. -/
def rowMov : Row where
  len := .b32
  maj := 2
  atoms := [.f 5, .f 5, .k 5 0, .k 5 9]
  tkZero := false
  build := fun m v => some (.i (.mov m (bv 5 v 0) (bv 5 v 1)))

/-- R150. -/
def rowAddi : Row where
  len := .b32
  maj := 3
  atoms := [.f 5, .f 5, .f 10]
  tkZero := false
  build := fun m v => some (.i (.addi m (bv 5 v 0) (bv 5 v 1) (bv 10 v 2)))

/-- R150. -/
def rowAndi : Row where
  len := .b32
  maj := 4
  atoms := [.f 5, .f 5, .f 10]
  tkZero := false
  build := fun m v => some (.i (.andi m (bv 5 v 0) (bv 5 v 1) (bv 10 v 2)))

/-- R150. -/
def rowOri : Row where
  len := .b32
  maj := 5
  atoms := [.f 5, .f 5, .f 10]
  tkZero := false
  build := fun m v => some (.i (.ori m (bv 5 v 0) (bv 5 v 1) (bv 10 v 2)))

/-- R150. -/
def rowXori : Row where
  len := .b32
  maj := 6
  atoms := [.f 5, .f 5, .f 10]
  tkZero := false
  build := fun m v => some (.i (.xori m (bv 5 v 0) (bv 5 v 1) (bv 10 v 2)))

/-- R150. -/
def rowShli : Row where
  len := .b32
  maj := 7
  atoms := [.f 5, .f 5, .k 2 0, .k 2 0, .f 6]
  tkZero := false
  build := fun m v => some (.i (.shli m (bv 5 v 0) (bv 5 v 1) (bv 6 v 2)))

/-- R150. -/
def rowShri : Row where
  len := .b32
  maj := 7
  atoms := [.f 5, .f 5, .k 2 0, .k 2 1, .f 6]
  tkZero := false
  build := fun m v => some (.i (.shri m (bv 5 v 0) (bv 5 v 1) (bv 6 v 2)))

/-- R150. -/
def rowSrai : Row where
  len := .b32
  maj := 7
  atoms := [.f 5, .f 5, .k 2 0, .k 2 2, .f 6]
  tkZero := false
  build := fun m v => some (.i (.srai m (bv 5 v 0) (bv 5 v 1) (bv 6 v 2)))

/-- R151. -/
def rowLi : Row where
  len := .b32
  maj := 8
  atoms := [.f 5, .f 15]
  tkZero := false
  build := fun m v => some (.i (.li m (bv 5 v 0) (bv 15 v 1)))

/-- R151. -/
def rowLih : Row where
  len := .b32
  maj := 9
  atoms := [.f 5, .f 15]
  tkZero := false
  build := fun m v => some (.i (.lih m (bv 5 v 0) (bv 15 v 1)))

/-- R151. -/
def rowLi64 : Row where
  len := .b64
  maj := 25
  atoms := [.k 2 0, .f 5, .k 7 0, .f 32, .k 6 0]
  tkZero := false
  build := fun m v => some (.i (.li64 m (bv 5 v 0) (bv 32 v 1)))

/-- R152. -/
def rowMadd : Row where
  len := .b32
  maj := 10
  atoms := [.f 5, .f 5, .f 5, .f 5]
  tkZero := false
  build := fun m v => some (.i (.madd m (bv 5 v 0) (bv 5 v 1) (bv 5 v 2) (bv 5 v 3)))

/-- R152. -/
def rowSel : Row where
  len := .b32
  maj := 11
  atoms := [.f 5, .f 5, .f 5, .k 1 0, .f 1, .f 3]
  tkZero := false
  build := fun m v => some (.i (.sel m (bv 5 v 0) (bv 5 v 1) (bv 5 v 2) (bv 1 v 3) (bv 3 v 4)))

/-- R153. -/
def rowBitField : Row where
  len := .b32
  maj := 12
  atoms := [.f 5, .f 5, .f 4, .f 6]
  tkZero := false
  build := fun m v => match bfExt m / 4 with
      | 0 => some (.i (.bext m (bv 5 v 0) (bv 5 v 1) (bv 4 v 2) (bv 6 v 3)))
      | 1 => some (.i (.bextS m (bv 5 v 0) (bv 5 v 1) (bv 4 v 2) (bv 6 v 3)))
      | 2 => some (.i (.bins m (bv 5 v 0) (bv 5 v 1) (bv 4 v 2) (bv 6 v 3)))
      | _ => none

/-- R152. -/
def rowLea : Row where
  len := .b32
  maj := 13
  atoms := [.f 5, .f 5, .f 5, .f 5]
  tkZero := false
  build := fun m v => some (.i (.lea m (bv 5 v 0) (bv 5 v 1) (bv 5 v 2) (bv 5 v 3)))

/-- R154. -/
def rowCmp : Row where
  len := .b32
  maj := 14
  atoms := [.f 4, .f 3, .f 5, .f 5, .k 3 0]
  tkZero := false
  build := fun m v => (condOfCode (arg v 0)).bind fun c => some (.i (.cmp m c (bv 3 v 1) (bv 5 v 2) (bv 5 v 3)))

/-- R154. -/
def rowCmpi : Row where
  len := .b32
  maj := 15
  atoms := [.f 4, .f 3, .f 5, .f 8]
  tkZero := false
  build := fun m v => (condOfCode (arg v 0)).bind fun c => some (.i (.cmpi m c (bv 3 v 1) (bv 5 v 2) (bv 8 v 3)))

/-- R155. -/
def rowPand : Row where
  len := .b32
  maj := 16
  atoms := [.k 2 0, .f 3, .k 2 0, .f 3, .k 2 0, .f 3, .k 5 0]
  tkZero := false
  build := fun m v => some (.i (.pand m (bv 3 v 0) (bv 3 v 1) (bv 3 v 2)))

/-- R155. -/
def rowPor : Row where
  len := .b32
  maj := 16
  atoms := [.k 2 0, .f 3, .k 2 0, .f 3, .k 2 0, .f 3, .k 5 1]
  tkZero := false
  build := fun m v => some (.i (.por m (bv 3 v 0) (bv 3 v 1) (bv 3 v 2)))

/-- R155. -/
def rowPxor : Row where
  len := .b32
  maj := 16
  atoms := [.k 2 0, .f 3, .k 2 0, .f 3, .k 2 0, .f 3, .k 5 2]
  tkZero := false
  build := fun m v => some (.i (.pxor m (bv 3 v 0) (bv 3 v 1) (bv 3 v 2)))

/-- R155. -/
def rowPnot : Row where
  len := .b32
  maj := 16
  atoms := [.k 2 0, .f 3, .k 2 0, .f 3, .k 5 0, .k 5 3]
  tkZero := false
  build := fun m v => some (.i (.pnot m (bv 3 v 0) (bv 3 v 1)))

/-- R156. -/
def rowBra : Row where
  len := .b32
  maj := 17
  atoms := [.f 20]
  tkZero := true
  build := fun _ v => some (.i (.bra (bv 20 v 0)))

/-- R156. -/
def rowBc : Row where
  len := .b32
  maj := 18
  atoms := [.f 3, .f 1, .f 16]
  tkZero := true
  build := fun _ v => some (.i (.bc (bv 3 v 0) (bv 1 v 1) (bv 16 v 2)))

/-- R156. -/
def rowCall : Row where
  len := .b32
  maj := 19
  atoms := [.f 20]
  tkZero := true
  build := fun _ v => some (.i (.call (bv 20 v 0)))

/-- R156. -/
def rowBq : Row where
  len := .b32
  maj := 20
  atoms := [.k 3 0, .f 1, .f 16]
  tkZero := true
  build := fun _ v => some (.i (.bq (bv 1 v 0) (bv 16 v 1)))

/-- R156. -/
def rowBx : Row where
  len := .b32
  maj := 21
  atoms := [.k 5 0, .f 5, .k 5 0, .k 5 0]
  tkZero := true
  build := fun _ v => some (.i (.bx (bv 5 v 0)))

/-- R156. -/
def rowRet : Row where
  len := .b32
  maj := 21
  atoms := [.k 5 0, .k 5 0, .k 5 0, .k 5 1]
  tkZero := true
  build := fun _ _ => some (.i (.ret))

/-- R157. -/
def rowBcast : Row where
  len := .b32
  maj := 22
  atoms := [.k 2 0, .f 3, .k 2 0, .f 3, .k 4 0, .f 1, .k 5 0]
  tkZero := true
  build := fun _ v => some (.i (.bcast (bv 3 v 0) (bv 3 v 1) (bv 1 v 2)))

/-- R158. -/
def rowNop : Row where
  len := .b32
  maj := 23
  atoms := [.k 5 0, .k 5 0, .k 5 0, .k 5 0]
  tkZero := true
  build := fun _ _ => some (.i (.nop))

/-- R158. -/
def rowHalt : Row where
  len := .b32
  maj := 23
  atoms := [.k 5 0, .k 5 0, .k 5 0, .k 5 1]
  tkZero := true
  build := fun _ _ => some (.i (.halt))

/-- R159. -/
def rowXsend : Row where
  len := .b32
  maj := 24
  atoms := [.k 2 0, .f 3, .f 5, .k 5 0, .k 5 0]
  tkZero := true
  build := fun m v => some (.i (.xsend m (bv 3 v 0) (bv 5 v 1)))

/-- R159. -/
def rowXrecv : Row where
  len := .b32
  maj := 24
  atoms := [.f 5, .k 5 0, .k 5 0, .k 5 1]
  tkZero := false
  build := fun m v => some (.i (.xrecv m (bv 5 v 0)))

/-- R161. -/
def rowMfs : Row where
  len := .b32
  maj := 25
  atoms := [.f 5, .k 5 0, .k 1 0, .f 9]
  tkZero := false
  build := fun m v => some (.i (.mfs m (bv 5 v 0) (bv 9 v 1)))

/-- R161. -/
def rowMts : Row where
  len := .b32
  maj := 25
  atoms := [.k 5 0, .f 5, .k 1 1, .f 9]
  tkZero := false
  build := fun m v => some (.i (.mts m (bv 5 v 0) (bv 9 v 1)))

/-- R163. -/
def rowFeat : Row where
  len := .b32
  maj := 26
  atoms := [.f 5, .f 5, .k 5 0, .k 5 0]
  tkZero := false
  build := fun m v => some (.i (.feat m (bv 5 v 0) (bv 5 v 1)))

/-- R164. -/
def rowClock : Row where
  len := .b32
  maj := 26
  atoms := [.f 5, .k 5 0, .k 5 0, .k 5 1]
  tkZero := false
  build := fun m v => some (.i (.clock m (bv 5 v 0)))

/-- R165. -/
def rowRoleid : Row where
  len := .b32
  maj := 26
  atoms := [.f 5, .k 2 0, .f 3, .k 5 0, .k 5 2]
  tkZero := false
  build := fun m v => some (.i (.roleid m (bv 5 v 0) (bv 3 v 1)))

/-- R169, R170. -/
def rowLdl : Row where
  len := .b32
  maj := 27
  atoms := [.f 5, .f 5, .f 3, .k 2 0, .f 5]
  tkZero := false
  build := fun m v => (ldFmtOfCode (arg v 2)).bind fun f => some (.i (.ldl m (bv 5 v 0) (bv 5 v 1) f (bv 5 v 3)))

/-- R169, R170. -/
def rowLdp : Row where
  len := .b32
  maj := 27
  atoms := [.f 5, .f 5, .f 3, .k 2 1, .f 5]
  tkZero := false
  build := fun m v => (ldFmtOfCode (arg v 2)).bind fun f => some (.i (.ldp m (bv 5 v 0) (bv 5 v 1) f (bv 5 v 3)))

/-- R169, R170. -/
def rowLdg : Row where
  len := .b32
  maj := 27
  atoms := [.f 5, .f 5, .f 3, .k 2 2, .f 5]
  tkZero := false
  build := fun m v => (ldFmtOfCode (arg v 2)).bind fun f => some (.i (.ldg m (bv 5 v 0) (bv 5 v 1) f (bv 5 v 3)))

/-- R169, R170. -/
def rowStl : Row where
  len := .b32
  maj := 28
  atoms := [.f 5, .f 5, .k 1 0, .f 2, .k 2 0, .f 5]
  tkZero := false
  build := fun m v => (widthOfCode (arg v 2)).bind fun w => some (.i (.stl m (bv 5 v 0) (bv 5 v 1) w (bv 5 v 3)))

/-- R169, R170. -/
def rowStp : Row where
  len := .b32
  maj := 28
  atoms := [.f 5, .f 5, .k 1 0, .f 2, .k 2 1, .f 5]
  tkZero := false
  build := fun m v => (widthOfCode (arg v 2)).bind fun w => some (.i (.stp m (bv 5 v 0) (bv 5 v 1) w (bv 5 v 3)))

/-- R169, R170. -/
def rowStg : Row where
  len := .b32
  maj := 28
  atoms := [.f 5, .f 5, .k 1 0, .f 2, .k 2 2, .f 5]
  tkZero := false
  build := fun m v => (widthOfCode (arg v 2)).bind fun w => some (.i (.stg m (bv 5 v 0) (bv 5 v 1) w (bv 5 v 3)))

/-- R175. -/
def rowPfg : Row where
  len := .b32
  maj := 29
  atoms := [.k 5 0, .f 5, .f 10]
  tkZero := false
  build := fun m v => some (.i (.pfg m (bv 5 v 0) (bv 10 v 1)))

/-- R175. -/
def rowL1inv : Row where
  len := .b32
  maj := 29
  atoms := [.k 5 1, .f 5, .f 10]
  tkZero := false
  build := fun m v => some (.i (.l1inv m (bv 5 v 0) (bv 10 v 1)))

/-- R175. -/
def rowL1invAll : Row where
  len := .b32
  maj := 29
  atoms := [.k 5 2, .k 5 0, .k 10 0]
  tkZero := false
  build := fun m _ => some (.i (.l1invAll m))

/-- R176. -/
def rowMark : Row where
  len := .b32
  maj := 30
  atoms := [.k 5 0, .k 5 0, .k 10 0]
  tkZero := false
  build := fun m _ => some (.i (.mark m))

/-- R176, R177. -/
def rowFence : Row where
  len := .b32
  maj := 30
  atoms := [.k 5 1, .k 5 0, .k 10 0]
  tkZero := false
  build := fun m _ => some (.i (.fence m))

/-- R176. -/
def rowQfence : Row where
  len := .b32
  maj := 30
  atoms := [.k 5 2, .f 5, .k 4 0, .f 6]
  tkZero := false
  build := fun m v => some (.i (.qfence m (bv 5 v 0) (bv 6 v 1)))

/-- R184. -/
def rowTwany : Row where
  len := .b32
  maj := 31
  atoms := [.f 5, .f 5, .f 5, .k 5 0]
  tkZero := true
  build := fun m v => some (.sys .twany m (bv 5 v 0) (bv 5 v 1) (bv 5 v 2))

/-- R184. -/
def rowTwall : Row where
  len := .b32
  maj := 31
  atoms := [.f 5, .f 5, .f 5, .k 5 1]
  tkZero := true
  build := fun m v => some (.sys .twall m (bv 5 v 0) (bv 5 v 1) (bv 5 v 2))

/-- R184. -/
def rowTffr : Row where
  len := .b32
  maj := 31
  atoms := [.f 5, .f 5, .k 5 0, .k 5 2]
  tkZero := true
  build := fun m v => some (.sys .tffr m (bv 5 v 0) (bv 5 v 1) (0))

/-- R184. -/
def rowTclr : Row where
  len := .b32
  maj := 31
  atoms := [.k 5 0, .f 5, .k 5 0, .k 5 3]
  tkZero := true
  build := fun m v => some (.sys .tclr m (0) (bv 5 v 0) (0))

/-- R186. -/
def rowTkpush : Row where
  len := .b32
  maj := 32
  atoms := [.k 5 0, .k 5 0, .k 4 0, .f 1, .k 5 0]
  tkZero := true
  build := fun _ v => some (.i (.tkpush (bv 1 v 0)))

/-- R186. -/
def rowTkpop : Row where
  len := .b32
  maj := 32
  atoms := [.k 5 0, .k 5 0, .k 4 0, .f 1, .k 5 1]
  tkZero := true
  build := fun _ v => some (.i (.tkpop (bv 1 v 0)))

/-- R188. -/
def rowBarinit : Row where
  len := .b32
  maj := 33
  atoms := [.k 5 0, .f 5, .f 5, .k 5 0]
  tkZero := true
  build := fun m v => some (.i (.barinit m (bv 5 v 0) (bv 5 v 1)))

/-- R188, R189. -/
def rowBararr : Row where
  len := .b32
  maj := 33
  atoms := [.f 5, .f 5, .f 5, .k 5 1]
  tkZero := true
  build := fun m v => some (.i (.bararr m (bv 5 v 0) (bv 5 v 1) (bv 5 v 2)))

/-- R188, R189. -/
def rowBarwait : Row where
  len := .b32
  maj := 33
  atoms := [.f 5, .f 5, .f 5, .k 5 2]
  tkZero := true
  build := fun m v => some (.i (.barwait m (bv 5 v 0) (bv 5 v 1) (bv 5 v 2)))

/-- R171, R172, R266. -/
def rowVldl : Row where
  len := .b64
  maj := 10
  atoms := [.k 5 20, .f 2, .k 2 0, .f 5, .f 7, .k 7 0, .k 2 0, .f 3, .k 1 0, .k 2 0, .f 16]
  tkZero := false
  build := fun m v => (xOrBkOfCode (arg v 2)).bind fun b => some (.i (.vldl m (bv 2 v 0) (bv 5 v 1) b (bv 3 v 3) (bv 16 v 4)))

/-- R171, R172, R266. -/
def rowVldp : Row where
  len := .b64
  maj := 10
  atoms := [.k 5 20, .f 2, .k 2 0, .f 5, .f 7, .k 7 0, .k 2 0, .f 3, .k 1 0, .k 2 1, .f 16]
  tkZero := false
  build := fun m v => (xOrBkOfCode (arg v 2)).bind fun b => some (.i (.vldp m (bv 2 v 0) (bv 5 v 1) b (bv 3 v 3) (bv 16 v 4)))

/-- R171, R172, R266. -/
def rowVldg : Row where
  len := .b64
  maj := 10
  atoms := [.k 5 20, .f 2, .k 2 0, .f 5, .f 7, .k 7 0, .k 2 0, .f 3, .k 1 0, .k 2 2, .f 16]
  tkZero := false
  build := fun m v => (xOrBkOfCode (arg v 2)).bind fun b => some (.i (.vldg m (bv 2 v 0) (bv 5 v 1) b (bv 3 v 3) (bv 16 v 4)))

/-- R171, R172. -/
def rowVstl : Row where
  len := .b64
  maj := 11
  atoms := [.k 5 21, .f 2, .k 2 0, .f 5, .k 2 0, .f 5, .k 7 0, .k 2 0, .f 3, .k 1 0, .k 2 0, .f 16]
  tkZero := false
  build := fun m v => some (.i (.vstl m (bv 2 v 0) (bv 5 v 1) (bv 5 v 2) (bv 3 v 3) (bv 16 v 4)))

/-- R171, R172. -/
def rowVstp : Row where
  len := .b64
  maj := 11
  atoms := [.k 5 21, .f 2, .k 2 0, .f 5, .k 2 0, .f 5, .k 7 0, .k 2 0, .f 3, .k 1 0, .k 2 1, .f 16]
  tkZero := false
  build := fun m v => some (.i (.vstp m (bv 2 v 0) (bv 5 v 1) (bv 5 v 2) (bv 3 v 3) (bv 16 v 4)))

/-- R171, R172. -/
def rowVstg : Row where
  len := .b64
  maj := 11
  atoms := [.k 5 21, .f 2, .k 2 0, .f 5, .k 2 0, .f 5, .k 7 0, .k 2 0, .f 3, .k 1 0, .k 2 2, .f 16]
  tkZero := false
  build := fun m v => some (.i (.vstg m (bv 2 v 0) (bv 5 v 1) (bv 5 v 2) (bv 3 v 3) (bv 16 v 4)))

/-- R173, R174. -/
def rowVgl : Row where
  len := .b64
  maj := 12
  atoms := [.k 5 20, .f 2, .k 2 0, .f 5, .k 2 0, .f 5, .k 7 0, .k 4 0, .f 2, .k 2 0, .k 9 0, .f 7]
  tkZero := false
  build := fun m v => (widthOfCode (arg v 3)).bind fun e => some (.i (.vgl m (bv 2 v 0) (bv 5 v 1) (bv 5 v 2) e (bv 7 v 4)))

/-- R173, R174. -/
def rowVgg : Row where
  len := .b64
  maj := 12
  atoms := [.k 5 20, .f 2, .k 2 0, .f 5, .k 2 0, .f 5, .k 7 0, .k 4 0, .f 2, .k 2 1, .k 9 0, .f 7]
  tkZero := false
  build := fun m v => (widthOfCode (arg v 3)).bind fun e => some (.i (.vgg m (bv 2 v 0) (bv 5 v 1) (bv 5 v 2) e (bv 7 v 4)))

/-- R173, R174. -/
def rowVsl : Row where
  len := .b64
  maj := 12
  atoms := [.k 5 21, .f 2, .k 2 0, .f 5, .k 2 0, .f 5, .k 7 0, .k 4 0, .f 2, .k 2 2, .k 9 0, .f 7]
  tkZero := false
  build := fun m v => (widthOfCode (arg v 3)).bind fun e => some (.i (.vsl m (bv 2 v 0) (bv 5 v 1) (bv 5 v 2) e (bv 7 v 4)))

/-- R173, R174. -/
def rowVsg : Row where
  len := .b64
  maj := 12
  atoms := [.k 5 21, .f 2, .k 2 0, .f 5, .k 2 0, .f 5, .k 7 0, .k 4 0, .f 2, .k 2 3, .k 9 0, .f 7]
  tkZero := false
  build := fun m v => (widthOfCode (arg v 3)).bind fun e => some (.i (.vsg m (bv 2 v 0) (bv 5 v 1) (bv 5 v 2) e (bv 7 v 4)))

/-- R178, R179. -/
def rowAadd : Row where
  len := .b64
  maj := 13
  atoms := [.k 2 0, .f 5, .k 2 0, .f 5, .k 2 0, .f 5, .k 7 0, .k 1 0, .k 1 0, .f 2, .k 4 0, .f 16]
  tkZero := true
  build := fun m v => (aSizeOfCode (arg v 3)).bind fun w => some (.i (.aadd m (bv 5 v 0) (bv 5 v 1) (bv 5 v 2) w (bv 16 v 4)))

/-- R178, R179. -/
def rowAand : Row where
  len := .b64
  maj := 13
  atoms := [.k 2 0, .f 5, .k 2 0, .f 5, .k 2 0, .f 5, .k 7 0, .k 1 0, .k 1 0, .f 2, .k 4 1, .f 16]
  tkZero := true
  build := fun m v => (aSizeOfCode (arg v 3)).bind fun w => some (.i (.aand m (bv 5 v 0) (bv 5 v 1) (bv 5 v 2) w (bv 16 v 4)))

/-- R178, R179. -/
def rowAor : Row where
  len := .b64
  maj := 13
  atoms := [.k 2 0, .f 5, .k 2 0, .f 5, .k 2 0, .f 5, .k 7 0, .k 1 0, .k 1 0, .f 2, .k 4 2, .f 16]
  tkZero := true
  build := fun m v => (aSizeOfCode (arg v 3)).bind fun w => some (.i (.aor m (bv 5 v 0) (bv 5 v 1) (bv 5 v 2) w (bv 16 v 4)))

/-- R178, R179. -/
def rowAxor : Row where
  len := .b64
  maj := 13
  atoms := [.k 2 0, .f 5, .k 2 0, .f 5, .k 2 0, .f 5, .k 7 0, .k 1 0, .k 1 0, .f 2, .k 4 3, .f 16]
  tkZero := true
  build := fun m v => (aSizeOfCode (arg v 3)).bind fun w => some (.i (.axor m (bv 5 v 0) (bv 5 v 1) (bv 5 v 2) w (bv 16 v 4)))

/-- R178, R179. -/
def rowAmin : Row where
  len := .b64
  maj := 13
  atoms := [.k 2 0, .f 5, .k 2 0, .f 5, .k 2 0, .f 5, .k 7 0, .k 1 0, .f 1, .f 2, .k 4 4, .f 16]
  tkZero := true
  build := fun m v => (aSizeOfCode (arg v 4)).bind fun w => some (.i (.amin m (bv 5 v 0) (bv 5 v 1) (bv 5 v 2) (bv 1 v 3) w (bv 16 v 5)))

/-- R178, R179. -/
def rowAmax : Row where
  len := .b64
  maj := 13
  atoms := [.k 2 0, .f 5, .k 2 0, .f 5, .k 2 0, .f 5, .k 7 0, .k 1 0, .f 1, .f 2, .k 4 5, .f 16]
  tkZero := true
  build := fun m v => (aSizeOfCode (arg v 4)).bind fun w => some (.i (.amax m (bv 5 v 0) (bv 5 v 1) (bv 5 v 2) (bv 1 v 3) w (bv 16 v 5)))

/-- R178, R179. -/
def rowAswp : Row where
  len := .b64
  maj := 13
  atoms := [.k 2 0, .f 5, .k 2 0, .f 5, .k 2 0, .f 5, .k 7 0, .k 1 0, .k 1 0, .f 2, .k 4 6, .f 16]
  tkZero := true
  build := fun m v => (aSizeOfCode (arg v 3)).bind fun w => some (.i (.aswp m (bv 5 v 0) (bv 5 v 1) (bv 5 v 2) w (bv 16 v 4)))

/-- R178, R179. -/
def rowAcas : Row where
  len := .b64
  maj := 13
  atoms := [.k 2 0, .f 5, .k 2 0, .f 5, .k 2 0, .f 5, .k 2 0, .f 5, .k 1 0, .k 1 0, .f 2, .k 4 7, .f 16]
  tkZero := true
  build := fun m v => (aSizeOfCode (arg v 4)).bind fun w => some (.i (.acas m (bv 5 v 0) (bv 5 v 1) (bv 5 v 2) (bv 5 v 3) w (bv 16 v 5)))

/-- R178, R179. -/
def rowAfadd : Row where
  len := .b64
  maj := 13
  atoms := [.k 2 0, .f 5, .k 2 0, .f 5, .k 2 0, .f 5, .k 7 0, .k 1 0, .k 1 0, .f 2, .k 4 8, .f 16]
  tkZero := true
  build := fun m v => (aSizeOfCode (arg v 3)).bind fun w => some (.i (.afadd m (bv 5 v 0) (bv 5 v 1) (bv 5 v 2) w (bv 16 v 4)))

/-- R178, R179. -/
def rowAbinc : Row where
  len := .b64
  maj := 13
  atoms := [.k 2 0, .f 5, .k 2 0, .f 5, .k 2 0, .f 5, .k 7 0, .k 1 0, .k 1 0, .f 2, .k 4 9, .f 16]
  tkZero := true
  build := fun m v => (aSizeOfCode (arg v 3)).bind fun w => some (.i (.abinc m (bv 5 v 0) (bv 5 v 1) (bv 5 v 2) w (bv 16 v 4)))

/-- R181, R182. -/
def rowAlrb : Row where
  len := .b64
  maj := 14
  atoms := [.k 7 0, .k 2 0, .f 5, .k 7 0, .k 7 0, .k 6 0, .k 2 0, .f 16]
  tkZero := true
  build := fun m v => some (.i (.alrb m (bv 5 v 0) (bv 16 v 1)))

/-- R181, R182. -/
def rowAlrl : Row where
  len := .b64
  maj := 14
  atoms := [.k 2 0, .f 5, .k 2 0, .f 5, .k 7 0, .k 7 0, .k 3 0, .f 1, .f 2, .k 2 1, .k 9 0, .f 7]
  tkZero := true
  build := fun m v => (widthOfCode (arg v 3)).bind fun w => some (.i (.alrl m (bv 5 v 0) (bv 5 v 1) (bv 1 v 2) w (bv 7 v 4)))

/-- R181, R182. -/
def rowAlrs : Row where
  len := .b64
  maj := 14
  atoms := [.k 7 0, .k 2 0, .f 5, .k 2 0, .f 5, .k 7 0, .k 3 0, .k 1 0, .f 2, .k 2 2, .k 9 0, .f 7]
  tkZero := true
  build := fun m v => (widthOfCode (arg v 2)).bind fun w => some (.i (.alrs m (bv 5 v 0) (bv 5 v 1) w (bv 7 v 3)))

/-- R181, R182. -/
def rowAlrc : Row where
  len := .b64
  maj := 14
  atoms := [.k 2 0, .f 5, .k 7 0, .k 7 0, .k 7 0, .k 6 0, .k 2 3, .k 16 0]
  tkZero := true
  build := fun m v => some (.i (.alrc m (bv 5 v 0)))

/-- R65, R208. -/
def rowVaddC : Row where
  len := .b32
  maj := 39
  atoms := [.f 5, .f 5, .f 5, .k 3 0, .f 2]
  tkZero := false
  build := fun m v => some (.i (.vaddC m (bv 5 v 0) (bv 5 v 1) (bv 5 v 2) (bv 2 v 3)))

/-- R65, R208. -/
def rowVsubC : Row where
  len := .b32
  maj := 39
  atoms := [.f 5, .f 5, .f 5, .k 3 1, .f 2]
  tkZero := false
  build := fun m v => some (.i (.vsubC m (bv 5 v 0) (bv 5 v 1) (bv 5 v 2) (bv 2 v 3)))

/-- R65, R208. -/
def rowVmulC : Row where
  len := .b32
  maj := 39
  atoms := [.f 5, .f 5, .f 5, .k 3 2, .f 2]
  tkZero := false
  build := fun m v => some (.i (.vmulC m (bv 5 v 0) (bv 5 v 1) (bv 5 v 2) (bv 2 v 3)))

/-- R65, R208. -/
def rowVandC : Row where
  len := .b32
  maj := 39
  atoms := [.f 5, .f 5, .f 5, .k 3 3, .f 2]
  tkZero := false
  build := fun m v => some (.i (.vandC m (bv 5 v 0) (bv 5 v 1) (bv 5 v 2) (bv 2 v 3)))

/-- R65, R208. -/
def rowVorC : Row where
  len := .b32
  maj := 39
  atoms := [.f 5, .f 5, .f 5, .k 3 4, .f 2]
  tkZero := false
  build := fun m v => some (.i (.vorC m (bv 5 v 0) (bv 5 v 1) (bv 5 v 2) (bv 2 v 3)))

/-- R65, R208. -/
def rowVxorC : Row where
  len := .b32
  maj := 39
  atoms := [.f 5, .f 5, .f 5, .k 3 5, .f 2]
  tkZero := false
  build := fun m v => some (.i (.vxorC m (bv 5 v 0) (bv 5 v 1) (bv 5 v 2) (bv 2 v 3)))

/-- R65, R208. -/
def rowVminC : Row where
  len := .b32
  maj := 39
  atoms := [.f 5, .f 5, .f 5, .k 3 6, .f 2]
  tkZero := false
  build := fun m v => some (.i (.vminC m (bv 5 v 0) (bv 5 v 1) (bv 5 v 2) (bv 2 v 3)))

/-- R65, R208. -/
def rowVmaxC : Row where
  len := .b32
  maj := 39
  atoms := [.f 5, .f 5, .f 5, .k 3 7, .f 2]
  tkZero := false
  build := fun m v => some (.i (.vmaxC m (bv 5 v 0) (bv 5 v 1) (bv 5 v 2) (bv 2 v 3)))

/-- R65, R208. -/
def rowVfaddC : Row where
  len := .b32
  maj := 40
  atoms := [.f 5, .f 5, .f 5, .k 3 0, .f 2]
  tkZero := false
  build := fun m v => (cFltOfCode (arg v 3)).bind fun e => some (.i (.vfaddC m (bv 5 v 0) (bv 5 v 1) (bv 5 v 2) e))

/-- R65, R208. -/
def rowVfsubC : Row where
  len := .b32
  maj := 40
  atoms := [.f 5, .f 5, .f 5, .k 3 1, .f 2]
  tkZero := false
  build := fun m v => (cFltOfCode (arg v 3)).bind fun e => some (.i (.vfsubC m (bv 5 v 0) (bv 5 v 1) (bv 5 v 2) e))

/-- R65, R208. -/
def rowVfmulC : Row where
  len := .b32
  maj := 40
  atoms := [.f 5, .f 5, .f 5, .k 3 2, .f 2]
  tkZero := false
  build := fun m v => (cFltOfCode (arg v 3)).bind fun e => some (.i (.vfmulC m (bv 5 v 0) (bv 5 v 1) (bv 5 v 2) e))

/-- R65, R208. -/
def rowVfminC : Row where
  len := .b32
  maj := 40
  atoms := [.f 5, .f 5, .f 5, .k 3 3, .f 2]
  tkZero := false
  build := fun m v => (cFltOfCode (arg v 3)).bind fun e => some (.i (.vfminC m (bv 5 v 0) (bv 5 v 1) (bv 5 v 2) e))

/-- R65, R208. -/
def rowVfmaxC : Row where
  len := .b32
  maj := 40
  atoms := [.f 5, .f 5, .f 5, .k 3 4, .f 2]
  tkZero := false
  build := fun m v => (cFltOfCode (arg v 3)).bind fun e => some (.i (.vfmaxC m (bv 5 v 0) (bv 5 v 1) (bv 5 v 2) e))

/-- R194, R195. -/
def rowVadd : Row where
  len := .b64
  maj := 1
  atoms := [.f 7, .f 7, .f 7, .k 7 0, .k 3 0, .k 5 0, .k 9 0, .f 1, .f 6]
  tkZero := false
  build := fun m v => (vdstOfCode (arg v 0)).bind fun d => (vsrcOfCode (arg v 1)).bind fun a => (vsrcOfCode (arg v 2)).bind fun b => (intEtOfCode (arg v 4)).bind fun et => some (.i (.vadd m d a b (bv 1 v 3) et))

/-- R194, R195. -/
def rowVsub : Row where
  len := .b64
  maj := 1
  atoms := [.f 7, .f 7, .f 7, .k 7 0, .k 3 0, .k 5 1, .k 9 0, .f 1, .f 6]
  tkZero := false
  build := fun m v => (vdstOfCode (arg v 0)).bind fun d => (vsrcOfCode (arg v 1)).bind fun a => (vsrcOfCode (arg v 2)).bind fun b => (intEtOfCode (arg v 4)).bind fun et => some (.i (.vsub m d a b (bv 1 v 3) et))

/-- R194, R195. -/
def rowVmul : Row where
  len := .b64
  maj := 1
  atoms := [.f 7, .f 7, .f 7, .k 7 0, .k 3 0, .k 5 2, .k 9 0, .f 1, .f 6]
  tkZero := false
  build := fun m v => (vdstOfCode (arg v 0)).bind fun d => (vsrcOfCode (arg v 1)).bind fun a => (vsrcOfCode (arg v 2)).bind fun b => (intEtOfCode (arg v 4)).bind fun et => some (.i (.vmul m d a b (bv 1 v 3) et))

/-- R194, R195. -/
def rowVmulh : Row where
  len := .b64
  maj := 1
  atoms := [.f 7, .f 7, .f 7, .k 7 0, .k 3 0, .k 5 3, .k 9 0, .f 1, .f 6]
  tkZero := false
  build := fun m v => (vdstOfCode (arg v 0)).bind fun d => (vsrcOfCode (arg v 1)).bind fun a => (vsrcOfCode (arg v 2)).bind fun b => (intEtOfCode (arg v 4)).bind fun et => some (.i (.vmulh m d a b (bv 1 v 3) et))

/-- R194, R195. -/
def rowVmadd : Row where
  len := .b64
  maj := 1
  atoms := [.f 7, .f 7, .f 7, .f 7, .k 3 0, .k 5 4, .k 9 0, .f 1, .f 6]
  tkZero := false
  build := fun m v => (vdstOfCode (arg v 0)).bind fun d => (vsrcOfCode (arg v 1)).bind fun a => (vsrcOfCode (arg v 2)).bind fun b => (vsrcOfCode (arg v 3)).bind fun c => (intEtOfCode (arg v 5)).bind fun et => some (.i (.vmadd m d a b c (bv 1 v 4) et))

/-- R194, R195. -/
def rowVmin : Row where
  len := .b64
  maj := 1
  atoms := [.f 7, .f 7, .f 7, .k 7 0, .k 3 0, .k 5 5, .k 9 0, .f 1, .f 6]
  tkZero := false
  build := fun m v => (vdstOfCode (arg v 0)).bind fun d => (vsrcOfCode (arg v 1)).bind fun a => (vsrcOfCode (arg v 2)).bind fun b => (intEtOfCode (arg v 4)).bind fun et => some (.i (.vmin m d a b (bv 1 v 3) et))

/-- R194, R195. -/
def rowVmax : Row where
  len := .b64
  maj := 1
  atoms := [.f 7, .f 7, .f 7, .k 7 0, .k 3 0, .k 5 6, .k 9 0, .f 1, .f 6]
  tkZero := false
  build := fun m v => (vdstOfCode (arg v 0)).bind fun d => (vsrcOfCode (arg v 1)).bind fun a => (vsrcOfCode (arg v 2)).bind fun b => (intEtOfCode (arg v 4)).bind fun et => some (.i (.vmax m d a b (bv 1 v 3) et))

/-- R194, R195. -/
def rowVand : Row where
  len := .b64
  maj := 1
  atoms := [.f 7, .f 7, .f 7, .k 7 0, .k 3 0, .k 5 7, .k 9 0, .f 1, .f 6]
  tkZero := false
  build := fun m v => (vdstOfCode (arg v 0)).bind fun d => (vsrcOfCode (arg v 1)).bind fun a => (vsrcOfCode (arg v 2)).bind fun b => (intEtOfCode (arg v 4)).bind fun et => some (.i (.vand m d a b (bv 1 v 3) et))

/-- R194, R195. -/
def rowVor : Row where
  len := .b64
  maj := 1
  atoms := [.f 7, .f 7, .f 7, .k 7 0, .k 3 0, .k 5 8, .k 9 0, .f 1, .f 6]
  tkZero := false
  build := fun m v => (vdstOfCode (arg v 0)).bind fun d => (vsrcOfCode (arg v 1)).bind fun a => (vsrcOfCode (arg v 2)).bind fun b => (intEtOfCode (arg v 4)).bind fun et => some (.i (.vor m d a b (bv 1 v 3) et))

/-- R194, R195. -/
def rowVxor : Row where
  len := .b64
  maj := 1
  atoms := [.f 7, .f 7, .f 7, .k 7 0, .k 3 0, .k 5 9, .k 9 0, .f 1, .f 6]
  tkZero := false
  build := fun m v => (vdstOfCode (arg v 0)).bind fun d => (vsrcOfCode (arg v 1)).bind fun a => (vsrcOfCode (arg v 2)).bind fun b => (intEtOfCode (arg v 4)).bind fun et => some (.i (.vxor m d a b (bv 1 v 3) et))

/-- R194, R195. -/
def rowVshl : Row where
  len := .b64
  maj := 1
  atoms := [.f 7, .f 7, .f 7, .k 7 0, .k 3 0, .k 5 10, .k 9 0, .f 1, .f 6]
  tkZero := false
  build := fun m v => (vdstOfCode (arg v 0)).bind fun d => (vsrcOfCode (arg v 1)).bind fun a => (vsrcOfCode (arg v 2)).bind fun b => (intEtOfCode (arg v 4)).bind fun et => some (.i (.vshl m d a b (bv 1 v 3) et))

/-- R194, R195. -/
def rowVshr : Row where
  len := .b64
  maj := 1
  atoms := [.f 7, .f 7, .f 7, .k 7 0, .k 3 0, .k 5 11, .k 9 0, .f 1, .f 6]
  tkZero := false
  build := fun m v => (vdstOfCode (arg v 0)).bind fun d => (vsrcOfCode (arg v 1)).bind fun a => (vsrcOfCode (arg v 2)).bind fun b => (intEtOfCode (arg v 4)).bind fun et => some (.i (.vshr m d a b (bv 1 v 3) et))

/-- R194, R195. -/
def rowVsra : Row where
  len := .b64
  maj := 1
  atoms := [.f 7, .f 7, .f 7, .k 7 0, .k 3 0, .k 5 12, .k 9 0, .f 1, .f 6]
  tkZero := false
  build := fun m v => (vdstOfCode (arg v 0)).bind fun d => (vsrcOfCode (arg v 1)).bind fun a => (vsrcOfCode (arg v 2)).bind fun b => (intEtOfCode (arg v 4)).bind fun et => some (.i (.vsra m d a b (bv 1 v 3) et))

/-- R194, R195. -/
def rowVabs : Row where
  len := .b64
  maj := 1
  atoms := [.f 7, .f 7, .k 7 0, .k 7 0, .k 3 0, .k 5 13, .k 9 0, .f 1, .f 6]
  tkZero := false
  build := fun m v => (vdstOfCode (arg v 0)).bind fun d => (vsrcOfCode (arg v 1)).bind fun a => (intEtOfCode (arg v 3)).bind fun et => some (.i (.vabs m d a (bv 1 v 2) et))

/-- R194, R195. -/
def rowVneg : Row where
  len := .b64
  maj := 1
  atoms := [.f 7, .f 7, .k 7 0, .k 7 0, .k 3 0, .k 5 14, .k 9 0, .f 1, .f 6]
  tkZero := false
  build := fun m v => (vdstOfCode (arg v 0)).bind fun d => (vsrcOfCode (arg v 1)).bind fun a => (intEtOfCode (arg v 3)).bind fun et => some (.i (.vneg m d a (bv 1 v 2) et))

/-- R194, R195. -/
def rowVcmp : Row where
  len := .b64
  maj := 1
  atoms := [.f 7, .f 7, .f 7, .k 7 0, .k 3 0, .k 5 15, .k 2 0, .f 1, .f 3, .f 3, .f 1, .f 6]
  tkZero := false
  build := fun m v => (vdstOfCode (arg v 0)).bind fun d => (vsrcOfCode (arg v 1)).bind fun a => (vsrcOfCode (arg v 2)).bind fun b => (vCondOfCode (arg v 5)).bind fun c => (intEtOfCode (arg v 7)).bind fun et => some (.i (.vcmp m d a b (bv 1 v 3) (bv 3 v 4) c (bv 1 v 6) et))

/-- R194, R195. -/
def rowVsel : Row where
  len := .b64
  maj := 1
  atoms := [.f 7, .f 7, .f 7, .f 7, .k 3 0, .k 5 16, .k 9 0, .f 1, .f 6]
  tkZero := false
  build := fun m v => (vdstOfCode (arg v 0)).bind fun d => (vsrcOfCode (arg v 1)).bind fun a => (vsrcOfCode (arg v 2)).bind fun b => (vsrcOfCode (arg v 3)).bind fun c => (intEtOfCode (arg v 5)).bind fun et => some (.i (.vsel m d a b c (bv 1 v 4) et))

/-- R194, R195. -/
def rowVpopc : Row where
  len := .b64
  maj := 1
  atoms := [.f 7, .f 7, .k 7 0, .k 7 0, .k 3 0, .k 5 17, .k 9 0, .f 1, .f 6]
  tkZero := false
  build := fun m v => (vdstOfCode (arg v 0)).bind fun d => (vsrcOfCode (arg v 1)).bind fun a => (intEtOfCode (arg v 3)).bind fun et => some (.i (.vpopc m d a (bv 1 v 2) et))

/-- R196, R197. -/
def rowVfadd : Row where
  len := .b64
  maj := 2
  atoms := [.f 7, .f 7, .f 7, .k 7 0, .k 4 0, .k 4 0, .k 10 0, .f 6]
  tkZero := false
  build := fun m v => (vdstOfCode (arg v 0)).bind fun d => (vsrcOfCode (arg v 1)).bind fun a => (vsrcOfCode (arg v 2)).bind fun b => (fltEtOfCode (arg v 3)).bind fun et => some (.i (.vfadd m d a b et))

/-- R196, R197. -/
def rowVfsub : Row where
  len := .b64
  maj := 2
  atoms := [.f 7, .f 7, .f 7, .k 7 0, .k 4 0, .k 4 1, .k 10 0, .f 6]
  tkZero := false
  build := fun m v => (vdstOfCode (arg v 0)).bind fun d => (vsrcOfCode (arg v 1)).bind fun a => (vsrcOfCode (arg v 2)).bind fun b => (fltEtOfCode (arg v 3)).bind fun et => some (.i (.vfsub m d a b et))

/-- R196, R197. -/
def rowVfmul : Row where
  len := .b64
  maj := 2
  atoms := [.f 7, .f 7, .f 7, .k 7 0, .k 4 0, .k 4 2, .k 10 0, .f 6]
  tkZero := false
  build := fun m v => (vdstOfCode (arg v 0)).bind fun d => (vsrcOfCode (arg v 1)).bind fun a => (vsrcOfCode (arg v 2)).bind fun b => (fltEtOfCode (arg v 3)).bind fun et => some (.i (.vfmul m d a b et))

/-- R196, R197. -/
def rowVfma : Row where
  len := .b64
  maj := 2
  atoms := [.f 7, .f 7, .f 7, .f 7, .k 4 0, .k 4 3, .k 10 0, .f 6]
  tkZero := false
  build := fun m v => (vdstOfCode (arg v 0)).bind fun d => (vsrcOfCode (arg v 1)).bind fun a => (vsrcOfCode (arg v 2)).bind fun b => (vsrcOfCode (arg v 3)).bind fun c => (fltEtOfCode (arg v 4)).bind fun et => some (.i (.vfma m d a b c et))

/-- R196, R197. -/
def rowVfmin : Row where
  len := .b64
  maj := 2
  atoms := [.f 7, .f 7, .f 7, .k 7 0, .k 4 0, .k 4 4, .k 10 0, .f 6]
  tkZero := false
  build := fun m v => (vdstOfCode (arg v 0)).bind fun d => (vsrcOfCode (arg v 1)).bind fun a => (vsrcOfCode (arg v 2)).bind fun b => (fltEtOfCode (arg v 3)).bind fun et => some (.i (.vfmin m d a b et))

/-- R196, R197. -/
def rowVfmax : Row where
  len := .b64
  maj := 2
  atoms := [.f 7, .f 7, .f 7, .k 7 0, .k 4 0, .k 4 5, .k 10 0, .f 6]
  tkZero := false
  build := fun m v => (vdstOfCode (arg v 0)).bind fun d => (vsrcOfCode (arg v 1)).bind fun a => (vsrcOfCode (arg v 2)).bind fun b => (fltEtOfCode (arg v 3)).bind fun et => some (.i (.vfmax m d a b et))

/-- R196, R197. -/
def rowVfcmp : Row where
  len := .b64
  maj := 2
  atoms := [.f 7, .f 7, .f 7, .k 7 0, .k 4 0, .k 4 6, .k 2 0, .f 1, .f 3, .f 3, .k 1 0, .f 6]
  tkZero := false
  build := fun m v => (vdstOfCode (arg v 0)).bind fun d => (vsrcOfCode (arg v 1)).bind fun a => (vsrcOfCode (arg v 2)).bind fun b => (fCondOfCode (arg v 5)).bind fun c => (fltEtOfCode (arg v 6)).bind fun et => some (.i (.vfcmp m d a b (bv 1 v 3) (bv 3 v 4) c et))

/-- R198. -/
def rowVfrcp : Row where
  len := .b64
  maj := 3
  atoms := [.f 7, .f 7, .k 7 0, .k 7 0, .k 5 0, .k 3 0, .k 10 0, .f 6]
  tkZero := false
  build := fun m v => (vdstOfCode (arg v 0)).bind fun d => (vsrcOfCode (arg v 1)).bind fun a => (fltEt3OfCode (arg v 2)).bind fun et => some (.i (.vfrcp m d a et))

/-- R198. -/
def rowVfrsq : Row where
  len := .b64
  maj := 3
  atoms := [.f 7, .f 7, .k 7 0, .k 7 0, .k 5 0, .k 3 1, .k 10 0, .f 6]
  tkZero := false
  build := fun m v => (vdstOfCode (arg v 0)).bind fun d => (vsrcOfCode (arg v 1)).bind fun a => (fltEt3OfCode (arg v 2)).bind fun et => some (.i (.vfrsq m d a et))

/-- R198. -/
def rowVfexp2 : Row where
  len := .b64
  maj := 3
  atoms := [.f 7, .f 7, .k 7 0, .k 7 0, .k 5 0, .k 3 2, .k 10 0, .f 6]
  tkZero := false
  build := fun m v => (vdstOfCode (arg v 0)).bind fun d => (vsrcOfCode (arg v 1)).bind fun a => (fltEt3OfCode (arg v 2)).bind fun et => some (.i (.vfexp2 m d a et))

/-- R198. -/
def rowVflog2 : Row where
  len := .b64
  maj := 3
  atoms := [.f 7, .f 7, .k 7 0, .k 7 0, .k 5 0, .k 3 3, .k 10 0, .f 6]
  tkZero := false
  build := fun m v => (vdstOfCode (arg v 0)).bind fun d => (vsrcOfCode (arg v 1)).bind fun a => (fltEt3OfCode (arg v 2)).bind fun et => some (.i (.vflog2 m d a et))

/-- R198. -/
def rowVftanh : Row where
  len := .b64
  maj := 3
  atoms := [.f 7, .f 7, .k 7 0, .k 7 0, .k 5 0, .k 3 4, .k 10 0, .f 6]
  tkZero := false
  build := fun m v => (vdstOfCode (arg v 0)).bind fun d => (vsrcOfCode (arg v 1)).bind fun a => (fltEt3OfCode (arg v 2)).bind fun et => some (.i (.vftanh m d a et))

/-- R199, R200. -/
def rowVcvt : Row where
  len := .b64
  maj := 4
  atoms := [.f 7, .f 7, .k 7 0, .k 7 0, .k 5 0, .k 3 0, .f 4, .f 6, .f 6]
  tkZero := false
  build := fun m v => (vdstOfCode (arg v 0)).bind fun d => (vsrcOfCode (arg v 1)).bind fun a => some (.i (.vcvt m d a (bv 4 v 2) (bv 6 v 3) (bv 6 v 4)))

/-- R199, R201. -/
def rowVqnt : Row where
  len := .b64
  maj := 4
  atoms := [.f 7, .f 7, .f 7, .k 7 0, .k 5 0, .k 3 1, .k 2 0, .f 1, .f 1, .f 6, .f 6]
  tkZero := false
  build := fun m v => (vdstOfCode (arg v 0)).bind fun d => (vsrcOfCode (arg v 1)).bind fun a => (vsrcOfCode (arg v 2)).bind fun b => (fltEt3OfCode (arg v 5)).bind fun sf => some (.i (.vqnt m d a b (bv 1 v 3) (bv 1 v 4) sf (bv 6 v 6)))

/-- R199, R202. -/
def rowVdqnt : Row where
  len := .b64
  maj := 4
  atoms := [.f 7, .f 7, .k 7 0, .k 7 0, .k 5 0, .k 3 2, .k 3 0, .f 1, .f 6, .f 6]
  tkZero := false
  build := fun m v => (vdstOfCode (arg v 0)).bind fun d => (vsrcOfCode (arg v 1)).bind fun a => (fltEt3OfCode (arg v 4)).bind fun tf => some (.i (.vdqnt m d a (bv 1 v 2) (bv 6 v 3) tf))

/-- R199, R203. -/
def rowVpack : Row where
  len := .b64
  maj := 4
  atoms := [.f 7, .f 7, .k 7 0, .k 7 0, .k 5 0, .k 3 3, .k 10 0, .f 6]
  tkZero := false
  build := fun m v => (vdstOfCode (arg v 0)).bind fun d => (vsrcOfCode (arg v 1)).bind fun a => some (.i (.vpack m d a (bv 6 v 2)))

/-- R199, R203. -/
def rowVunpk : Row where
  len := .b64
  maj := 4
  atoms := [.f 7, .f 7, .k 7 0, .k 7 0, .k 5 0, .k 3 4, .k 10 0, .f 6]
  tkZero := false
  build := fun m v => (vdstOfCode (arg v 0)).bind fun d => (vsrcOfCode (arg v 1)).bind fun a => some (.i (.vunpk m d a (bv 6 v 2)))

/-- R204. -/
def rowVradd : Row where
  len := .b64
  maj := 5
  atoms := [.f 7, .f 7, .k 7 0, .k 7 0, .k 6 0, .k 2 0, .k 9 0, .f 1, .f 6]
  tkZero := false
  build := fun m v => (vdstOfCode (arg v 0)).bind fun d => (vsrcOfCode (arg v 1)).bind fun a => (intEtOfCode (arg v 3)).bind fun et => some (.i (.vradd m d a (bv 1 v 2) et))

/-- R204. -/
def rowVrmax : Row where
  len := .b64
  maj := 5
  atoms := [.f 7, .f 7, .k 7 0, .k 7 0, .k 6 0, .k 2 1, .k 9 0, .f 1, .f 6]
  tkZero := false
  build := fun m v => (vdstOfCode (arg v 0)).bind fun d => (vsrcOfCode (arg v 1)).bind fun a => (intEtOfCode (arg v 3)).bind fun et => some (.i (.vrmax m d a (bv 1 v 2) et))

/-- R204. -/
def rowVfradd : Row where
  len := .b64
  maj := 5
  atoms := [.f 7, .f 7, .k 7 0, .k 7 0, .k 6 0, .k 2 2, .k 10 0, .f 6]
  tkZero := false
  build := fun m v => (vdstOfCode (arg v 0)).bind fun d => (vsrcOfCode (arg v 1)).bind fun a => (fltEtOfCode (arg v 2)).bind fun et => some (.i (.vfradd m d a et))

/-- R204. -/
def rowVfrmax : Row where
  len := .b64
  maj := 5
  atoms := [.f 7, .f 7, .k 7 0, .k 7 0, .k 6 0, .k 2 3, .k 10 0, .f 6]
  tkZero := false
  build := fun m v => (vdstOfCode (arg v 0)).bind fun d => (vsrcOfCode (arg v 1)).bind fun a => (fltEtOfCode (arg v 2)).bind fun et => some (.i (.vfrmax m d a et))

/-- R205. -/
def rowVperm : Row where
  len := .b64
  maj := 6
  atoms := [.f 7, .f 7, .f 7, .f 7, .k 5 0, .k 3 0, .k 14 0, .f 2]
  tkZero := false
  build := fun m v => (vdstOfCode (arg v 0)).bind fun d => (vsrcOfCode (arg v 1)).bind fun a => (vsrcOfCode (arg v 2)).bind fun b => (vsrcOfCode (arg v 3)).bind fun c => (widthOfCode (arg v 4)).bind fun w => some (.i (.vperm m d a b c w))

/-- R205. -/
def rowVrot : Row where
  len := .b64
  maj := 6
  atoms := [.f 7, .f 7, .k 7 0, .k 7 0, .k 5 0, .k 3 1, .f 8, .k 6 0, .f 2]
  tkZero := false
  build := fun m v => (vdstOfCode (arg v 0)).bind fun d => (vsrcOfCode (arg v 1)).bind fun a => (widthOfCode (arg v 3)).bind fun w => some (.i (.vrot m d a (bv 8 v 2) w))

/-- R205. -/
def rowVbcast : Row where
  len := .b64
  maj := 6
  atoms := [.f 7, .f 7, .k 7 0, .k 7 0, .k 5 0, .k 3 2, .f 8, .k 6 0, .f 2]
  tkZero := false
  build := fun m v => (vdstOfCode (arg v 0)).bind fun d => (vsrcOfCode (arg v 1)).bind fun a => (widthOfCode (arg v 3)).bind fun w => some (.i (.vbcast m d a (bv 8 v 2) w))

/-- R205. -/
def rowVext : Row where
  len := .b64
  maj := 6
  atoms := [.k 2 0, .f 5, .f 7, .k 7 0, .k 7 0, .k 5 0, .k 3 3, .f 8, .k 5 0, .f 1, .f 2]
  tkZero := false
  build := fun m v => (vsrcOfCode (arg v 1)).bind fun a => (widthOfCode (arg v 4)).bind fun w => some (.i (.vext m (bv 5 v 0) a (bv 8 v 2) (bv 1 v 3) w))

/-- R205. -/
def rowVins : Row where
  len := .b64
  maj := 6
  atoms := [.f 7, .f 7, .k 2 0, .f 5, .k 7 0, .k 5 0, .k 3 4, .f 8, .k 6 0, .f 2]
  tkZero := false
  build := fun m v => (vdstOfCode (arg v 0)).bind fun d => (vsrcOfCode (arg v 1)).bind fun a => (widthOfCode (arg v 4)).bind fun w => some (.i (.vins m d a (bv 5 v 2) (bv 8 v 3) w))

/-- R205. -/
def rowVcomp : Row where
  len := .b64
  maj := 6
  atoms := [.f 7, .f 7, .f 7, .k 7 0, .k 5 0, .k 3 5, .k 14 0, .f 2]
  tkZero := false
  build := fun m v => (vdstOfCode (arg v 0)).bind fun d => (vsrcOfCode (arg v 1)).bind fun a => (vsrcOfCode (arg v 2)).bind fun b => (widthOfCode (arg v 3)).bind fun w => some (.i (.vcomp m d a b w))

/-- R205. -/
def rowVexpd : Row where
  len := .b64
  maj := 6
  atoms := [.f 7, .f 7, .f 7, .k 7 0, .k 5 0, .k 3 6, .k 14 0, .f 2]
  tkZero := false
  build := fun m v => (vdstOfCode (arg v 0)).bind fun d => (vsrcOfCode (arg v 1)).bind fun a => (vsrcOfCode (arg v 2)).bind fun b => (widthOfCode (arg v 3)).bind fun w => some (.i (.vexpd m d a b w))

/-- R206. -/
def rowVmrg3 : Row where
  len := .b64
  maj := 7
  atoms := [.f 7, .f 7, .f 7, .f 7, .k 8 0, .k 15 0, .f 1]
  tkZero := false
  build := fun m v => (vdstOfCode (arg v 0)).bind fun d => (vsrcOfCode (arg v 1)).bind fun a => (vsrcOfCode (arg v 2)).bind fun b => (vsrcOfCode (arg v 3)).bind fun c => some (.i (.vmrg3 m d a b c (bv 1 v 4)))

/-- R207. -/
def rowVmov : Row where
  len := .b64
  maj := 8
  atoms := [.f 7, .f 7, .k 7 0, .k 7 0, .k 8 0, .k 16 0]
  tkZero := false
  build := fun m v => (vdstOfCode (arg v 0)).bind fun d => (vsrcOfCode (arg v 1)).bind fun a => some (.i (.vmov m d a))

/-- R207. -/
def rowVli : Row where
  len := .b64
  maj := 8
  atoms := [.f 7, .k 7 0, .k 7 0, .k 7 0, .k 3 0, .f 1, .f 2, .k 2 1, .f 16]
  tkZero := false
  build := fun m v => (vdstOfCode (arg v 0)).bind fun d => (widthOfCode (arg v 2)).bind fun w => some (.i (.vli m d (bv 1 v 1) w (bv 16 v 3)))

/-- R207. -/
def rowVsplat : Row where
  len := .b64
  maj := 8
  atoms := [.f 7, .k 2 0, .f 5, .k 7 0, .k 7 0, .k 4 0, .f 2, .k 2 2, .k 16 0]
  tkZero := false
  build := fun m v => (vdstOfCode (arg v 0)).bind fun d => (widthOfCode (arg v 2)).bind fun w => some (.i (.vsplat m d (bv 5 v 1) w))

/-- R212, R213. -/
def rowSbind : Row where
  len := .b64
  maj := 9
  atoms := [.k 3 4, .f 4, .k 2 0, .f 5, .k 7 0, .k 7 0, .k 5 0, .k 3 0, .f 16]
  tkZero := false
  build := fun m v => some (.i (.sbind m (bv 4 v 0) (bv 5 v 1) (bv 16 v 2)))

/-- R212, R213. -/
def rowSbop : Row where
  len := .b64
  maj := 9
  atoms := [.k 3 4, .f 4, .k 2 0, .f 5, .k 7 0, .k 7 0, .k 5 0, .k 3 1, .k 16 0]
  tkZero := false
  build := fun m v => some (.i (.sbop m (bv 4 v 0) (bv 5 v 1)))

/-- R212, R213. -/
def rowSunbind : Row where
  len := .b64
  maj := 9
  atoms := [.k 3 4, .f 4, .k 7 0, .k 7 0, .k 7 0, .k 4 0, .f 1, .k 3 2, .k 16 0]
  tkZero := false
  build := fun m v => some (.i (.sunbind m (bv 4 v 0) (bv 1 v 1)))

/-- R212, R213. -/
def rowSadv : Row where
  len := .b64
  maj := 9
  atoms := [.k 3 4, .f 4, .k 2 0, .f 5, .k 7 0, .k 7 0, .k 5 0, .k 3 3, .k 16 0]
  tkZero := false
  build := fun m v => some (.i (.sadv m (bv 4 v 0) (bv 5 v 1)))

/-- R212, R213, R216. -/
def rowSstat : Row where
  len := .b64
  maj := 9
  atoms := [.k 2 0, .f 5, .k 3 4, .f 4, .k 7 0, .k 7 0, .k 5 0, .k 3 4, .k 16 0]
  tkZero := false
  build := fun m v => some (.i (.sstat m (bv 5 v 0) (bv 4 v 1)))

/-- R225, R226. -/
def rowLcfg : Row where
  len := .b64
  maj := 15
  atoms := [.k 7 0, .k 2 0, .f 5, .k 2 0, .f 5, .k 7 0, .k 6 0, .k 2 0, .k 16 0]
  tkZero := false
  build := fun m v => some (.i (.lcfg m (bv 5 v 0) (bv 5 v 1)))

/-- R225, R227. -/
def rowLstat : Row where
  len := .b64
  maj := 15
  atoms := [.k 2 0, .f 5, .k 2 0, .f 5, .k 7 0, .k 7 0, .k 6 0, .k 2 1, .k 16 0]
  tkZero := false
  build := fun m v => some (.i (.lstat m (bv 5 v 0) (bv 5 v 1)))

/-- R225, R232. -/
def rowLfence : Row where
  len := .b64
  maj := 15
  atoms := [.k 7 0, .k 2 0, .f 5, .k 7 0, .k 7 0, .k 6 0, .k 2 2, .k 16 0]
  tkZero := false
  build := fun m v => some (.i (.lfence m (bv 5 v 0)))

/-- R225, R232. -/
def rowLsync : Row where
  len := .b64
  maj := 15
  atoms := [.k 7 0, .k 2 0, .f 5, .k 7 0, .k 7 0, .k 6 0, .k 2 3, .k 16 0]
  tkZero := false
  build := fun m v => some (.i (.lsync m (bv 5 v 0)))

/-- R225, R228. -/
def rowLwst : Row where
  len := .b64
  maj := 16
  atoms := [.k 7 0, .k 2 0, .f 5, .k 2 0, .f 5, .k 2 0, .f 5, .k 5 0, .k 3 0, .k 10 0, .f 6]
  tkZero := false
  build := fun m v => some (.i (.lwst m (bv 5 v 0) (bv 5 v 1) (bv 5 v 2) (bv 6 v 3)))

/-- R225, R229. -/
def rowLact : Row where
  len := .b64
  maj := 16
  atoms := [.k 7 0, .k 2 0, .f 5, .k 2 0, .f 5, .k 2 0, .f 5, .k 5 0, .k 3 1, .k 10 0, .f 6]
  tkZero := false
  build := fun m v => some (.i (.lact m (bv 5 v 0) (bv 5 v 1) (bv 5 v 2) (bv 6 v 3)))

/-- R225, R230. -/
def rowLmac : Row where
  len := .b64
  maj := 16
  atoms := [.k 7 0, .k 2 0, .f 5, .k 2 0, .f 5, .k 7 0, .k 5 0, .k 3 2, .k 9 0, .f 1, .k 6 0]
  tkZero := false
  build := fun m v => some (.i (.lmac m (bv 5 v 0) (bv 5 v 1) (bv 1 v 2)))

/-- R225, R231. -/
def rowLaccz : Row where
  len := .b64
  maj := 16
  atoms := [.k 7 0, .k 2 0, .f 5, .k 7 0, .k 7 0, .k 5 0, .k 3 3, .k 16 0]
  tkZero := false
  build := fun m v => some (.i (.laccz m (bv 5 v 0)))

/-- R225, R231. -/
def rowLaccr : Row where
  len := .b64
  maj := 16
  atoms := [.k 7 0, .k 2 0, .f 5, .k 2 0, .f 5, .k 2 0, .f 5, .k 5 0, .k 3 4, .k 10 0, .f 6]
  tkZero := false
  build := fun m v => (fltEtOfCode (arg v 3)).bind fun f => some (.i (.laccr m (bv 5 v 0) (bv 5 v 1) (bv 5 v 2) f))

/-- R225, R231. -/
def rowLred : Row where
  len := .b64
  maj := 16
  atoms := [.k 7 0, .k 2 0, .f 5, .k 2 0, .f 5, .k 2 0, .f 5, .k 5 0, .k 3 5, .k 8 0, .f 1, .f 1, .f 6]
  tkZero := false
  build := fun m v => (fltEtOfCode (arg v 5)).bind fun f => some (.i (.lred m (bv 5 v 0) (bv 5 v 1) (bv 5 v 2) (bv 1 v 3) (bv 1 v 4) f))

/-- R241, R244. -/
def rowMlay : Row where
  len := .b64
  maj := 17
  atoms := [.k 7 0, .k 2 0, .f 5, .k 2 0, .f 5, .k 7 0, .f 3, .k 2 0, .k 3 0, .f 4, .f 1, .f 4, .f 1, .k 6 0]
  tkZero := false
  build := fun m v => some (.i (.mlay m (bv 5 v 0) (bv 5 v 1) (bv 3 v 2) (bv 4 v 3) (bv 1 v 4) (bv 4 v 5) (bv 1 v 6)))

/-- R241, R244. -/
def rowMunf : Row where
  len := .b64
  maj := 17
  atoms := [.k 7 0, .k 2 0, .f 5, .k 2 0, .f 5, .k 7 0, .k 4 0, .f 1, .k 3 1, .f 4, .f 1, .f 4, .f 1, .k 6 0]
  tkZero := false
  build := fun m v => some (.i (.munf m (bv 5 v 0) (bv 5 v 1) (bv 1 v 2) (bv 4 v 3) (bv 1 v 4) (bv 4 v 5) (bv 1 v 6)))

/-- R241, R244. -/
def rowMld : Row where
  len := .b64
  maj := 17
  atoms := [.k 7 0, .k 2 0, .f 5, .k 2 0, .f 5, .k 2 0, .f 5, .f 3, .k 2 0, .k 3 2, .f 4, .f 1, .f 4, .f 1, .k 6 0]
  tkZero := false
  build := fun m v => some (.i (.mld m (bv 5 v 0) (bv 5 v 1) (bv 5 v 2) (bv 3 v 3) (bv 4 v 4) (bv 1 v 5) (bv 4 v 6) (bv 1 v 7)))

/-- R241, R245. -/
def rowMmul : Row where
  len := .b64
  maj := 17
  atoms := [.k 7 0, .k 2 0, .f 5, .k 2 0, .f 5, .k 7 0, .k 2 0, .f 1, .f 2, .k 3 3, .f 4, .f 1, .f 4, .f 1, .k 6 0]
  tkZero := false
  build := fun m v => some (.i (.mmul m (bv 5 v 0) (bv 5 v 1) (bv 1 v 2) (bv 2 v 3) (bv 4 v 4) (bv 1 v 5) (bv 4 v 6) (bv 1 v 7)))

/-- R241, R246. -/
def rowMdrn : Row where
  len := .b64
  maj := 17
  atoms := [.k 7 0, .k 2 0, .f 5, .k 2 0, .f 5, .k 7 0, .k 2 0, .f 1, .f 2, .k 3 4, .f 4, .f 1, .f 4, .f 1, .k 6 0]
  tkZero := false
  build := fun m v => some (.i (.mdrn m (bv 5 v 0) (bv 5 v 1) (bv 1 v 2) (bv 2 v 3) (bv 4 v 4) (bv 1 v 5) (bv 4 v 6) (bv 1 v 7)))

/-- R241, R246. -/
def rowMzero : Row where
  len := .b64
  maj := 17
  atoms := [.k 7 0, .k 7 0, .k 7 0, .k 7 0, .k 1 0, .f 2, .f 2, .k 3 5, .f 4, .f 1, .f 4, .f 1, .k 6 0]
  tkZero := false
  build := fun m v => (tModeOfCode (arg v 0)).bind fun mode => some (.i (.mzero m mode (bv 2 v 1) (bv 4 v 2) (bv 1 v 3) (bv 4 v 4) (bv 1 v 5)))

/-- R242. -/
def rowMsemSig : Row where
  len := .b64
  maj := 17
  atoms := [.k 7 0, .k 7 0, .k 7 0, .k 7 0, .k 3 0, .k 2 0, .k 3 6, .f 4, .f 12]
  tkZero := false
  build := fun m v => some (.i (.msemSig m (bv 4 v 0) (bv 12 v 1)))

/-- R242. -/
def rowMsemWait : Row where
  len := .b64
  maj := 17
  atoms := [.k 7 0, .k 7 0, .k 7 0, .k 7 0, .k 3 0, .k 2 1, .k 3 6, .f 4, .f 12]
  tkZero := false
  build := fun m v => some (.i (.msemWait m (bv 4 v 0) (bv 12 v 1)))

/-- R242. -/
def rowMsemRd : Row where
  len := .b64
  maj := 17
  atoms := [.k 2 0, .f 5, .k 7 0, .k 7 0, .k 7 0, .k 3 0, .k 2 2, .k 3 6, .f 4, .k 12 0]
  tkZero := false
  build := fun m v => some (.i (.msemRd m (bv 5 v 0) (bv 4 v 1)))

/-- R242. -/
def rowMsemSt : Row where
  len := .b64
  maj := 17
  atoms := [.k 2 0, .f 5, .k 7 0, .k 7 0, .k 7 0, .k 3 0, .k 2 3, .k 3 6, .k 16 0]
  tkZero := false
  build := fun m v => some (.i (.msemSt m (bv 5 v 0)))

/-- R251 to R258. -/
def rowXcopy : Row where
  len := .b64
  maj := 18
  atoms := [.k 7 0, .k 2 0, .f 5, .k 2 0, .f 5, .k 7 0, .k 5 0, .k 3 0, .k 8 0, .f 1, .f 1, .f 6]
  tkZero := false
  build := fun m v => some (.i (.xcopy m (bv 5 v 0) (bv 5 v 1) (bv 1 v 2) (bv 1 v 3) (bv 6 v 4)))

/-- R251 to R258. -/
def rowXgath : Row where
  len := .b64
  maj := 18
  atoms := [.k 7 0, .k 2 0, .f 5, .k 2 0, .f 5, .k 7 0, .k 5 0, .k 3 1, .k 8 0, .f 1, .f 1, .f 6]
  tkZero := false
  build := fun m v => some (.i (.xgath m (bv 5 v 0) (bv 5 v 1) (bv 1 v 2) (bv 1 v 3) (bv 6 v 4)))

/-- R251 to R258. -/
def rowXscat : Row where
  len := .b64
  maj := 18
  atoms := [.k 7 0, .k 2 0, .f 5, .k 2 0, .f 5, .k 7 0, .k 5 0, .k 3 2, .k 8 0, .f 1, .f 1, .f 6]
  tkZero := false
  build := fun m v => some (.i (.xscat m (bv 5 v 0) (bv 5 v 1) (bv 1 v 2) (bv 1 v 3) (bv 6 v 4)))

/-- R251 to R258. -/
def rowXscadd : Row where
  len := .b64
  maj := 18
  atoms := [.k 7 0, .k 2 0, .f 5, .k 2 0, .f 5, .k 7 0, .k 5 0, .k 3 3, .k 8 0, .f 1, .f 1, .f 6]
  tkZero := false
  build := fun m v => some (.i (.xscadd m (bv 5 v 0) (bv 5 v 1) (bv 1 v 2) (bv 1 v 3) (bv 6 v 4)))

/-- R251 to R258. -/
def rowXfill : Row where
  len := .b64
  maj := 18
  atoms := [.k 7 0, .k 2 0, .f 5, .k 2 0, .f 5, .k 7 0, .k 5 0, .k 3 4, .k 8 0, .f 1, .f 1, .f 6]
  tkZero := false
  build := fun m v => some (.i (.xfill m (bv 5 v 0) (bv 5 v 1) (bv 1 v 2) (bv 1 v 3) (bv 6 v 4)))

/-- R251 to R258. -/
def rowXring : Row where
  len := .b64
  maj := 18
  atoms := [.k 7 0, .k 2 0, .f 5, .k 2 0, .f 5, .k 7 0, .k 5 0, .k 3 5, .k 8 0, .f 1, .f 1, .f 6]
  tkZero := false
  build := fun m v => some (.i (.xring m (bv 5 v 0) (bv 5 v 1) (bv 1 v 2) (bv 1 v 3) (bv 6 v 4)))

/-- R251, R259. -/
def rowCreq : Row where
  len := .b64
  maj := 19
  atoms := [.k 7 0, .k 2 0, .f 5, .k 2 0, .f 5, .k 7 0, .k 8 0, .k 8 0, .f 1, .f 1, .f 6]
  tkZero := false
  build := fun m v => some (.i (.creq m (bv 5 v 0) (bv 5 v 1) (bv 1 v 2) (bv 1 v 3) (bv 6 v 4)))

/-- R272, R273. -/
def rowSqnew : Row where
  len := .b64
  maj := 20
  atoms := [.k 2 0, .f 5, .k 2 0, .f 5, .k 2 0, .f 5, .k 7 0, .k 5 0, .k 3 0, .k 11 0, .f 5]
  tkZero := true
  build := fun m v => some (.i (.sqnew m (bv 5 v 0) (bv 5 v 1) (bv 5 v 2) (bv 5 v 3)))

/-- R278. -/
def rowSqres : Row where
  len := .b64
  maj := 20
  atoms := [.k 2 0, .f 5, .k 2 0, .f 5, .k 2 0, .f 5, .k 7 0, .k 5 0, .k 3 1, .k 16 0]
  tkZero := true
  build := fun m v => some (.i (.sqres m (bv 5 v 0) (bv 5 v 1) (bv 5 v 2)))

/-- R288. -/
def rowSqrest : Row where
  len := .b64
  maj := 20
  atoms := [.k 2 0, .f 5, .k 2 0, .f 5, .k 2 0, .f 5, .k 7 0, .k 5 0, .k 3 2, .k 16 0]
  tkZero := true
  build := fun m v => some (.i (.sqrest m (bv 5 v 0) (bv 5 v 1) (bv 5 v 2)))

/-- R279. -/
def rowSqcmt : Row where
  len := .b64
  maj := 20
  atoms := [.k 2 0, .f 5, .k 2 0, .f 5, .k 2 0, .f 5, .k 2 0, .f 5, .k 5 0, .k 3 3, .k 16 0]
  tkZero := true
  build := fun m v => some (.i (.sqcmt m (bv 5 v 0) (bv 5 v 1) (bv 5 v 2) (bv 5 v 3)))

/-- R288. -/
def rowSqacc : Row where
  len := .b64
  maj := 20
  atoms := [.k 2 0, .f 5, .k 2 0, .f 5, .k 2 0, .f 5, .k 7 0, .k 5 0, .k 3 4, .k 16 0]
  tkZero := true
  build := fun m v => some (.i (.sqacc m (bv 5 v 0) (bv 5 v 1) (bv 5 v 2)))

/-- R288. -/
def rowSqwd : Row where
  len := .b64
  maj := 20
  atoms := [.k 2 0, .f 5, .k 2 0, .f 5, .k 7 0, .k 7 0, .k 5 0, .k 3 5, .k 16 0]
  tkZero := true
  build := fun m v => some (.i (.sqwd m (bv 5 v 0) (bv 5 v 1)))

/-- R287. -/
def rowSqfree : Row where
  len := .b64
  maj := 20
  atoms := [.k 2 0, .f 5, .k 2 0, .f 5, .k 7 0, .k 7 0, .k 5 0, .k 3 6, .k 16 0]
  tkZero := true
  build := fun m v => some (.i (.sqfree m (bv 5 v 0) (bv 5 v 1)))

/-- R285. -/
def rowSqfork : Row where
  len := .b64
  maj := 20
  atoms := [.k 2 0, .f 5, .k 2 0, .f 5, .k 2 0, .f 5, .k 7 0, .k 5 0, .k 3 7, .k 16 0]
  tkZero := true
  build := fun m v => some (.i (.sqfork m (bv 5 v 0) (bv 5 v 1) (bv 5 v 2)))

/-- R284. -/
def rowSqlen : Row where
  len := .b64
  maj := 21
  atoms := [.k 2 0, .f 5, .k 2 0, .f 5, .k 7 0, .k 7 0, .k 5 0, .k 3 0, .k 16 0]
  tkZero := true
  build := fun m v => some (.i (.sqlen m (bv 5 v 0) (bv 5 v 1)))

/-- R284. -/
def rowSqwait : Row where
  len := .b64
  maj := 21
  atoms := [.k 2 0, .f 5, .k 2 0, .f 5, .k 2 0, .f 5, .k 2 0, .f 5, .k 5 0, .k 3 1, .k 16 0]
  tkZero := true
  build := fun m v => some (.i (.sqwait m (bv 5 v 0) (bv 5 v 1) (bv 5 v 2) (bv 5 v 3)))

/-- R287. -/
def rowSqpin : Row where
  len := .b64
  maj := 21
  atoms := [.k 2 0, .f 5, .k 2 0, .f 5, .k 7 0, .k 7 0, .k 5 0, .k 3 2, .k 16 0]
  tkZero := true
  build := fun m v => some (.i (.sqpin m (bv 5 v 0) (bv 5 v 1)))

/-- R287. -/
def rowSqunpin : Row where
  len := .b64
  maj := 21
  atoms := [.k 2 0, .f 5, .k 2 0, .f 5, .k 7 0, .k 7 0, .k 5 0, .k 3 3, .k 16 0]
  tkZero := true
  build := fun m v => some (.i (.squnpin m (bv 5 v 0) (bv 5 v 1)))

/-- R276. -/
def rowSqext : Row where
  len := .b64
  maj := 21
  atoms := [.k 2 0, .f 5, .k 2 0, .f 5, .k 2 0, .f 5, .k 7 0, .k 5 0, .k 3 4, .k 14 0, .f 2]
  tkZero := true
  build := fun m v => (sel3OfCode (arg v 3)).bind fun k => some (.i (.sqext m (bv 5 v 0) (bv 5 v 1) (bv 5 v 2) k))

/-- R272, R283. -/
def rowLdq : Row where
  len := .b64
  maj := 22
  atoms := [.k 2 0, .f 5, .k 2 0, .f 5, .k 2 0, .f 5, .k 2 0, .f 5, .k 6 0, .k 2 0, .k 2 0, .f 14]
  tkZero := false
  build := fun m v => some (.i (.ldq m (bv 5 v 0) (bv 5 v 1) (bv 5 v 2) (bv 5 v 3) (bv 14 v 4)))

/-- R272, R283. -/
def rowVldq : Row where
  len := .b64
  maj := 22
  atoms := [.k 5 20, .f 2, .k 2 0, .f 5, .k 2 0, .f 5, .k 2 0, .f 5, .k 6 0, .k 2 1, .k 2 0, .f 14]
  tkZero := false
  build := fun m v => some (.i (.vldq m (bv 2 v 0) (bv 5 v 1) (bv 5 v 2) (bv 5 v 3) (bv 14 v 4)))

/-- R272, R279. -/
def rowStq : Row where
  len := .b64
  maj := 22
  atoms := [.k 2 0, .f 5, .k 2 0, .f 5, .k 2 0, .f 5, .k 7 0, .k 6 0, .k 2 2, .k 2 0, .f 14]
  tkZero := false
  build := fun m v => some (.i (.stq m (bv 5 v 0) (bv 5 v 1) (bv 5 v 2) (bv 14 v 3)))

/-- R272, R279. -/
def rowVstq : Row where
  len := .b64
  maj := 22
  atoms := [.k 5 21, .f 2, .k 2 0, .f 5, .k 2 0, .f 5, .k 7 0, .k 6 0, .k 2 3, .k 2 0, .f 14]
  tkZero := false
  build := fun m v => some (.i (.vstq m (bv 2 v 0) (bv 5 v 1) (bv 5 v 2) (bv 14 v 3)))

/-- R272, R289. -/
def rowSqattn : Row where
  len := .b64
  maj := 23
  atoms := [.k 7 0, .k 2 0, .f 5, .k 2 0, .f 5, .k 7 0, .k 8 0, .k 9 0, .f 1, .f 6]
  tkZero := true
  build := fun m v => some (.i (.sqattn m (bv 5 v 0) (bv 5 v 1) (bv 1 v 2) (bv 6 v 3)))

/-- R293. -/
def rowPfxh : Row where
  len := .b64
  maj := 24
  atoms := [.k 2 0, .f 5, .k 2 0, .f 5, .k 2 0, .f 5, .k 7 0, .k 3 0, .k 2 0, .k 3 0, .k 16 0]
  tkZero := true
  build := fun m v => some (.i (.pfxh m (bv 5 v 0) (bv 5 v 1) (bv 5 v 2)))

/-- R293. -/
def rowPfxl : Row where
  len := .b64
  maj := 24
  atoms := [.k 2 0, .f 5, .k 2 0, .f 5, .k 2 0, .f 5, .k 7 0, .k 3 0, .k 2 0, .k 3 1, .k 16 0]
  tkZero := true
  build := fun m v => some (.i (.pfxl m (bv 5 v 0) (bv 5 v 1) (bv 5 v 2)))

/-- R293. -/
def rowPfxlH : Row where
  len := .b64
  maj := 24
  atoms := [.k 2 0, .f 5, .k 2 0, .f 5, .k 7 0, .k 7 0, .k 3 0, .k 2 1, .k 3 1, .k 16 0]
  tkZero := true
  build := fun m v => some (.i (.pfxlH m (bv 5 v 0) (bv 5 v 1)))

/-- R293. -/
def rowPfxlS : Row where
  len := .b64
  maj := 24
  atoms := [.k 2 0, .f 5, .k 2 0, .f 5, .k 7 0, .k 7 0, .k 3 0, .k 2 2, .k 3 1, .k 16 0]
  tkZero := true
  build := fun m v => some (.i (.pfxlS m (bv 5 v 0) (bv 5 v 1)))

/-- R294. -/
def rowPfxi : Row where
  len := .b64
  maj := 24
  atoms := [.k 2 0, .f 5, .k 2 0, .f 5, .k 2 0, .f 5, .k 2 0, .f 5, .k 3 0, .k 2 0, .k 3 2, .k 16 0]
  tkZero := true
  build := fun m v => some (.i (.pfxi m (bv 5 v 0) (bv 5 v 1) (bv 5 v 2) (bv 5 v 3)))

/-- R294. -/
def rowPfxd : Row where
  len := .b64
  maj := 24
  atoms := [.k 2 0, .f 5, .k 2 0, .f 5, .k 7 0, .k 7 0, .k 3 0, .k 2 0, .k 3 3, .k 16 0]
  tkZero := true
  build := fun m v => some (.i (.pfxd m (bv 5 v 0) (bv 5 v 1)))

/-- R294. -/
def rowPfxdU : Row where
  len := .b64
  maj := 24
  atoms := [.k 2 0, .f 5, .k 2 0, .f 5, .k 7 0, .k 7 0, .k 3 0, .k 2 1, .k 3 3, .k 16 0]
  tkZero := true
  build := fun m v => some (.i (.pfxdU m (bv 5 v 0) (bv 5 v 1)))

/-- R341, R23. -/
def rowTend : Row where
  len := .b32
  maj := 34
  atoms := [.k 5 0, .k 5 0, .k 5 0, .k 5 0]
  tkZero := true
  build := fun _ _ => some (.i (.tend))

/-- R341, R342. -/
def rowYield : Row where
  len := .b32
  maj := 34
  atoms := [.k 5 0, .k 5 0, .k 5 0, .k 5 1]
  tkZero := true
  build := fun _ _ => some (.i (.yield))

/-- R341, R342. -/
def rowTrap : Row where
  len := .b32
  maj := 34
  atoms := [.f 15, .k 5 2]
  tkZero := true
  build := fun m v => some (.i (.trap m (bv 15 v 0)))

/-- R341, R342. -/
def rowChk : Row where
  len := .b32
  maj := 34
  atoms := [.k 5 0, .f 5, .f 5, .k 5 3]
  tkZero := true
  build := fun m v => some (.i (.chk m (bv 5 v 0) (bv 5 v 1)))

/-- R343. -/
def rowTabort : Row where
  len := .b32
  maj := 34
  atoms := [.k 5 0, .k 5 0, .k 5 0, .k 5 4]
  tkZero := true
  build := fun m _ => some (.sys .tabort m (0) (0) (0))

/-- R344. -/
def rowTstat : Row where
  len := .b32
  maj := 34
  atoms := [.f 5, .k 3 0, .f 2, .k 5 0, .k 5 5]
  tkZero := true
  build := fun m v => some (.sys .tstat m (bv 5 v 0) (BitVec.ofNat 5 (arg v 1 % 4)) (0))

/-- R344. -/
def rowTret : Row where
  len := .b32
  maj := 34
  atoms := [.f 5, .f 5, .f 5, .k 5 6]
  tkZero := true
  build := fun m v => some (.sys .tret m (bv 5 v 0) (bv 5 v 1) (bv 5 v 2))

/-- R341, R344. -/
def rowTlbinvPg : Row where
  len := .b32
  maj := 35
  atoms := [.k 5 0, .f 5, .f 5, .k 5 0]
  tkZero := true
  build := fun m v => some (.sys .tlbinvPg m (0) (bv 5 v 0) (bv 5 v 1))

/-- R341, R344. -/
def rowTlbinvAs : Row where
  len := .b32
  maj := 35
  atoms := [.k 5 1, .f 5, .k 5 0, .k 5 0]
  tkZero := true
  build := fun m v => some (.sys .tlbinvAs m (0) (bv 5 v 0) (0))

/-- R341, R344. -/
def rowTlbinvAll : Row where
  len := .b32
  maj := 35
  atoms := [.k 5 2, .k 5 0, .k 5 0, .k 5 0]
  tkZero := true
  build := fun _ _ => some (.i (.tlbinvAll))

/-- R341, R344. -/
def rowAsset : Row where
  len := .b32
  maj := 35
  atoms := [.k 5 0, .f 5, .k 5 0, .k 5 1]
  tkZero := true
  build := fun m v => some (.sys .asset m (0) (bv 5 v 0) (0))

/-- R316, R317. -/
def rowLaunch : Row where
  len := .b32
  maj := 36
  atoms := [.f 5, .f 5, .f 5, .k 5 0]
  tkZero := true
  build := fun m v => some (.sys .launch m (bv 5 v 0) (bv 5 v 1) (bv 5 v 2))

/-- R316, R319. -/
def rowLwait : Row where
  len := .b32
  maj := 36
  atoms := [.f 5, .f 5, .k 5 0, .k 5 1]
  tkZero := true
  build := fun m v => some (.sys .lwait m (bv 5 v 0) (bv 5 v 1) (0))

/-- R316, R319. -/
def rowLpoll : Row where
  len := .b32
  maj := 36
  atoms := [.f 5, .f 5, .k 5 0, .k 5 2]
  tkZero := true
  build := fun m v => some (.sys .lpoll m (bv 5 v 0) (bv 5 v 1) (0))

/-- R316, R320. -/
def rowRcbq : Row where
  len := .b32
  maj := 36
  atoms := [.f 5, .f 5, .f 5, .k 5 3]
  tkZero := true
  build := fun m v => some (.sys .rcbq m (bv 5 v 0) (bv 5 v 1) (bv 5 v 2))

/-- R316, R322. -/
def rowSpop : Row where
  len := .b32
  maj := 37
  atoms := [.f 5, .k 5 0, .k 5 0, .k 5 0]
  tkZero := true
  build := fun m v => some (.sys .spop m (bv 5 v 0) (0) (0))

/-- R316, R321. -/
def rowSpush : Row where
  len := .b32
  maj := 37
  atoms := [.f 5, .f 5, .f 5, .k 5 1]
  tkZero := true
  build := fun m v => some (.sys .spush m (bv 5 v 0) (bv 5 v 1) (bv 5 v 2))

/-- R316, R327. -/
def rowWlapp : Row where
  len := .b32
  maj := 38
  atoms := [.f 5, .f 5, .f 5, .k 5 0]
  tkZero := true
  build := fun m v => some (.sys .wlapp m (bv 5 v 0) (bv 5 v 1) (bv 5 v 2))

/-- R316, R327. -/
def rowWltake : Row where
  len := .b32
  maj := 38
  atoms := [.f 5, .f 5, .k 5 0, .k 5 1]
  tkZero := true
  build := fun m v => some (.sys .wltake m (bv 5 v 0) (bv 5 v 1) (0))

/-- R316, R328. -/
def rowQuies : Row where
  len := .b32
  maj := 38
  atoms := [.f 5, .f 5, .k 5 0, .k 5 2]
  tkZero := true
  build := fun m v => some (.sys .quies m (bv 5 v 0) (bv 5 v 1) (0))

/-- The 16-bit opcode map (R64). -/
def rows16 : List Row :=
  [rowNop16, rowMov16, rowAddi16, rowLi16, rowAdd16, rowSub16]
  ++ [rowAnd16, rowOr16, rowXor16, rowShli16, rowShri16, rowSrai16]

/-- The 32-bit opcode map (R65). -/
def rows32 : List Row :=
  [rowAdd, rowSub, rowMul, rowMulh, rowMulhU, rowDiv]
  ++ [rowDivU, rowRem, rowRemU, rowAnd, rowOr, rowXor]
  ++ [rowAndn, rowShl, rowShr, rowSra, rowRot, rowMin]
  ++ [rowMinU, rowMax, rowMaxU, rowClz, rowCtz, rowPopc]
  ++ [rowSextB, rowSextH, rowSextW, rowZextB, rowZextH, rowZextW]
  ++ [rowMov, rowAddi, rowAndi, rowOri, rowXori, rowShli]
  ++ [rowShri, rowSrai, rowLi, rowLih, rowMadd, rowSel]
  ++ [rowBitField, rowLea, rowCmp, rowCmpi, rowPand, rowPor]
  ++ [rowPxor, rowPnot, rowBra, rowBc, rowCall, rowBq]
  ++ [rowBx, rowRet, rowBcast, rowNop, rowHalt, rowXsend]
  ++ [rowXrecv, rowMfs, rowMts, rowFeat, rowClock, rowRoleid]
  ++ [rowLdl, rowLdp, rowLdg, rowStl, rowStp, rowStg]
  ++ [rowPfg, rowL1inv, rowL1invAll, rowMark, rowFence, rowQfence]
  ++ [rowTwany, rowTwall, rowTffr, rowTclr, rowTkpush, rowTkpop]
  ++ [rowBarinit, rowBararr, rowBarwait, rowVaddC, rowVsubC, rowVmulC]
  ++ [rowVandC, rowVorC, rowVxorC, rowVminC, rowVmaxC, rowVfaddC]
  ++ [rowVfsubC, rowVfmulC, rowVfminC, rowVfmaxC, rowTend, rowYield]
  ++ [rowTrap, rowChk, rowTabort, rowTstat, rowTret, rowTlbinvPg]
  ++ [rowTlbinvAs, rowTlbinvAll, rowAsset, rowLaunch, rowLwait, rowLpoll]
  ++ [rowRcbq, rowSpop, rowSpush, rowWlapp, rowWltake, rowQuies]

/-- The 64-bit opcode map (R66). -/
def rows64 : List Row :=
  [rowLi64, rowVldl, rowVldp, rowVldg, rowVstl, rowVstp]
  ++ [rowVstg, rowVgl, rowVgg, rowVsl, rowVsg, rowAadd]
  ++ [rowAand, rowAor, rowAxor, rowAmin, rowAmax, rowAswp]
  ++ [rowAcas, rowAfadd, rowAbinc, rowAlrb, rowAlrl, rowAlrs]
  ++ [rowAlrc, rowVadd, rowVsub, rowVmul, rowVmulh, rowVmadd]
  ++ [rowVmin, rowVmax, rowVand, rowVor, rowVxor, rowVshl]
  ++ [rowVshr, rowVsra, rowVabs, rowVneg, rowVcmp, rowVsel]
  ++ [rowVpopc, rowVfadd, rowVfsub, rowVfmul, rowVfma, rowVfmin]
  ++ [rowVfmax, rowVfcmp, rowVfrcp, rowVfrsq, rowVfexp2, rowVflog2]
  ++ [rowVftanh, rowVcvt, rowVqnt, rowVdqnt, rowVpack, rowVunpk]
  ++ [rowVradd, rowVrmax, rowVfradd, rowVfrmax, rowVperm, rowVrot]
  ++ [rowVbcast, rowVext, rowVins, rowVcomp, rowVexpd, rowVmrg3]
  ++ [rowVmov, rowVli, rowVsplat, rowSbind, rowSbop, rowSunbind]
  ++ [rowSadv, rowSstat, rowLcfg, rowLstat, rowLfence, rowLsync]
  ++ [rowLwst, rowLact, rowLmac, rowLaccz, rowLaccr, rowLred]
  ++ [rowMlay, rowMunf, rowMld, rowMmul, rowMdrn, rowMzero]
  ++ [rowMsemSig, rowMsemWait, rowMsemRd, rowMsemSt, rowXcopy, rowXgath]
  ++ [rowXscat, rowXscadd, rowXfill, rowXring, rowCreq, rowSqnew]
  ++ [rowSqres, rowSqrest, rowSqcmt, rowSqacc, rowSqwd, rowSqfree]
  ++ [rowSqfork, rowSqlen, rowSqwait, rowSqpin, rowSqunpin, rowSqext]
  ++ [rowLdq, rowVldq, rowStq, rowVstq, rowSqattn, rowPfxh]
  ++ [rowPfxl, rowPfxlH, rowPfxlS, rowPfxi, rowPfxd, rowPfxdU]

/-- Why the decoder refuses a run of parcels. -/
inductive DecodeError where
  | orphanPrefix      -- a prefix with no instruction after it, or before a control instruction (R61)
  | truncated         -- fewer parcels than the instruction has (R45)
  | tooManyPrefixes   -- four or more prefixes (R55)
  | repeatedPrefix    -- two prefixes of one kind (R55)
  | reservedPrefix    -- a prefix of kind 101, 110 or 111 (R55)
  | prefixField       -- a reserved bit or value of a prefix (R56-R60, R62)
  | unassigned        -- no row of the opcode map, or a reserved field that is not zero (R64-R67)
  | prefixRefused     -- a prefix kind that the instruction does not accept (R62)
  | field             -- a field outside its limits (R67), or a TK field that must be zero (R49)
  deriving DecidableEq, Repr

/-- The LEN field of a first parcel (R41). -/
def parcelLen (p : Parcel) : Nat := p.toNat % 4

/-- The kind of a prefix parcel (R55). -/
def prefixKind (p : Parcel) : Nat := p.toNat / 4 % 8

/-- Parcels as one number, the first parcel lowest (R42). -/
def joinParcels : List Parcel → Nat
  | [] => 0
  | p :: r => p.toNat + 65536 * joinParcels r

/-- The `n` parcels of a word (R42). -/
def splitParcels : Nat → Nat → List Parcel
  | 0, _ => []
  | n + 1, w => BitVec.ofNat 16 w :: splitParcels n (w / 65536)

/-- The rounding mode of an RM code; 111 is the mode in `ctl.round` (R56). -/
def rmOfCode : Nat → Option (Option Rm)
  | 0 => some (some .rne) | 1 => some (some .rtz) | 2 => some (some .rdn) | 3 => some (some .rup)
  | 4 => some (some .rna) | 7 => some none | _ => none

/-- The RM code of a rounding mode (R56). -/
def rmCode : Option Rm → Nat
  | some .rne => 0 | some .rtz => 1 | some .rdn => 2 | some .rup => 3 | some .rna => 4 | none => 7

/-- The scope of a SCOPE code (R57). -/
def scopeOfCode : Nat → Option Scope
  | 0 => some .core | 1 => some .cluster | 2 => some .bed | 3 => some .device | 4 => some .system
  | _ => none

/-- The SCOPE code of a scope (R57). -/
def scopeCode : Scope → Nat
  | .core => 0 | .cluster => 1 | .bed => 2 | .device => 3 | .system => 4

/-- A prefix parcel added to those already read (R55-R60). -/
def addPrefix (a : Pfx) (p : Parcel) : Except DecodeError Pfx :=
  let n := p.toNat
  match prefixKind p with
  | 0 =>
    if a.rnd.isSome then .error .repeatedPrefix
    else if n / 1024 = 0 then
      match rmOfCode (n / 32 % 8) with
      | some r => .ok { a with rnd := some { ftz := n.testBit 9, sat := n.testBit 8, rm := r } }
      | none => .error .prefixField
    else .error .prefixField
  | 1 =>
    if a.ord.isSome then .error .repeatedPrefix
    else if n / 1024 = 0 then
      match scopeOfCode (n / 128 % 8) with
      | some s => .ok { a with ord := some { scope := s, rel := n.testBit 6, acq := n.testBit 5 } }
      | none => .error .prefixField
    else .error .prefixField
  | 2 =>
    if a.rext.isSome then .error .repeatedPrefix
    else if n / 8192 = 0 then .ok { a with rext := some (BitVec.ofNat 8 (n / 32)) }
    else .error .prefixField
  | 3 =>
    if a.imm.isSome then .error .repeatedPrefix
    else .ok { a with imm := some (BitVec.ofNat 11 (n / 32)) }
  | 4 =>
    if a.guard.isSome then .error .repeatedPrefix
    else if n / 512 = 0 then
      .ok { a with guard := some { pred := BitVec.ofNat 3 (n / 32), sense := n.testBit 8 } }
    else .error .prefixField
  | _ => .error .reservedPrefix

/-- The prefixes of a run of prefix parcels. -/
def addPrefixes (a : Pfx) : List Parcel → Except DecodeError Pfx
  | [] => .ok a
  | p :: r =>
    match addPrefix a p with
    | .ok b => addPrefixes b r
    | .error e => .error e

/-- The prefix parcels at the front of a list, and the rest. -/
def spanPrefixes : List Parcel → List Parcel × List Parcel
  | [] => ([], [])
  | p :: r =>
    if parcelLen p = 3 then ((spanPrefixes r).1.cons p, (spanPrefixes r).2) else ([], p :: r)

/-- The kinds of a run of prefixes are at most three, assigned and each different (R55). -/
def prefixKindsOk (ps : List Parcel) : Except DecodeError Unit :=
  if ps.length > 3 then .error .tooManyPrefixes
  else if ps.any (fun p => decide (5 ≤ prefixKind p)) then .error .reservedPrefix
  else if (ps.map prefixKind).Nodup then .ok ()
  else .error .repeatedPrefix

/-- The word of a block header (R43). -/
def headerOfWord (w : Nat) : Option Instr :=
  if w / 4 % 64 = 0 then
    if w.testBit 31 then
      if w / 2 ^ 29 % 4 = 0 then
        some (.blockHeaderReg (BitVec.ofNat 5 (w / 2 ^ 24)) (BitVec.ofNat 12 (w / 4096))
          (BitVec.ofNat 4 (w / 256)))
      else none
    else some (.blockHeader (BitVec.ofNat 7 (w / 2 ^ 24)) (BitVec.ofNat 12 (w / 4096))
      (BitVec.ofNat 4 (w / 256)))
  else none

/-- A control instruction by its length and major opcode (R61). -/
def isControlWord (len : Len) (w : Nat) : Bool :=
  match len with
  | .b16 => w / 4 % 16 == 0
  | .b32 => decide (17 ≤ w / 4 % 64 ∧ w / 4 % 64 ≤ 23)
  | .b64 => false

/-- The bits of a word above its TK field, or above MAJ in the 16-bit format (R50-R52). -/
def wordBody (len : Len) (w : Nat) : Nat :=
  match len with
  | .b16 => w / 64
  | _ => w / 4096

/-- The major opcode of a word (R50-R52). -/
def wordMaj (len : Len) (w : Nat) : Nat :=
  match len with
  | .b16 => w / 4 % 16
  | _ => w / 4 % 64

/-- The TK field of a word (R49). -/
def wordTk (len : Len) (w : Nat) : Nat :=
  match len with
  | .b16 => 0
  | _ => w / 256 % 16

/-- The rows of a length. -/
def rowsOf : Len → List Row
  | .b16 => rows16
  | .b32 => rows32
  | .b64 => rows64

/-- The first row of a list that a word matches, with its field values. -/
def findRow (len : Len) (w : Nat) : List Row → Option (Row × List Nat)
  | [] => none
  | r :: rs =>
    if r.maj = wordMaj len w ∧ (r.tkZero = true → wordTk len w = 0) then
      match splitAtoms r.atoms (wordBody len w) with
      | some v => some (r, v)
      | none => findRow len w rs
    else findRow len w rs

/-- The length that a LEN field selects, in parcels; 0 for a prefix (R41). -/
def lenParcels (l : Nat) : Nat :=
  match l with
  | 0 => 1
  | 1 => 2
  | 2 => 4
  | _ => 0

/-- The unit length of a LEN field that is not a prefix (R41). -/
def lenOf (l : Nat) : Len :=
  match l with
  | 0 => .b16
  | 1 => .b32
  | _ => .b64

/-- The prefixes and the TK field of a decoded word; none where its form carries neither. -/
def decMods : Dec → Mods
  | .i v => instrMods v
  | .sys .tlbinvPg .. | .sys .tlbinvAs .. | .sys .asset .. => {}
  | .sys _ m .. => m

/-- The first check of its fields that a decoded word fails: `formError` of its instruction. -/
def decError : Dec → Option FormError
  | .i v => formError v
  | .sys .tlbinvPg .. | .sys .tlbinvAs .. | .sys .asset .. => none
  | .sys k m _ _ b =>
    if !pfxOk { guard := true } m.pfx then some .prefixes
    else if m.tk != 0 then some .token
    else if k == .rcbq && decide (14 ≤ b.toNat) then some .value
    else none

/-- What a word is with the prefixes that stand before it, in the order of the checks of R68: the rows, the
values of the prefixes, and then what its form admits. -/
def decodeWord (pre : List Parcel) (len : Len) (w : Nat) : Except DecodeError Dec :=
  if isControlWord len w ∧ pre ≠ [] then .error .orphanPrefix
  else
    match prefixKindsOk pre with
    | .error e => .error e
    | .ok () =>
      match findRow len w (rowsOf len) with
      | none => .error .unassigned
      | some (r, v) =>
        match addPrefixes {} pre with
        | .error e => .error e
        | .ok p =>
          match r.build { pfx := p, tk := BitVec.ofNat 4 (wordTk len w) } v with
          | none => .error .unassigned
          | some i =>
            if (decMods i).pfx ≠ p then .error .prefixRefused
            else
              match decError i with
              | none => .ok i
              | some .prefixes => .error .prefixRefused
              | some _ => .error .field

/-- What stands at the front of the parcels of a body, and how many parcels it takes with its prefixes
(R41, R55). The parcels end where the body ends. -/
def decodeDec (ps : List Parcel) : Except DecodeError (Dec × Nat) :=
  let (pre, rest) := spanPrefixes ps
  match rest with
  | [] => .error .orphanPrefix
  | p :: _ =>
    let n := lenParcels (parcelLen p)
    if rest.length < n then
      if isControlWord (lenOf (parcelLen p)) p.toNat ∧ pre ≠ [] then .error .orphanPrefix
      else .error .truncated
    else
      match decodeWord pre (lenOf (parcelLen p)) (joinParcels (rest.take n)) with
      | .ok i => .ok (i, pre.length + n)
      | .error e => .error e

/-- The instruction at the front of the parcels of a body, and how many parcels it takes. -/
noncomputable def decode (ps : List Parcel) : Except DecodeError (Instr × Nat) :=
  match decodeDec ps with
  | .ok (d, n) => .ok (d.instr, n)
  | .error e => .error e

/-- The row, the modifiers and the field values that encode an instruction; none for an event and for
a block header, which the header word encodes. -/
def fieldsOf : Instr → Option (Row × Mods × List Nat)
  | .nop16 => some (rowNop16, {}, [])
  | .mov16 d a => some (rowMov16, {}, [d.toNat, a.toNat])
  | .addi16 d k => some (rowAddi16, {}, [d.toNat, k.toNat])
  | .li16 d k => some (rowLi16, {}, [d.toNat, k.toNat])
  | .add16 d a => some (rowAdd16, {}, [d.toNat, a.toNat])
  | .sub16 d a => some (rowSub16, {}, [d.toNat, a.toNat])
  | .and16 d a => some (rowAnd16, {}, [d.toNat, a.toNat])
  | .or16 d a => some (rowOr16, {}, [d.toNat, a.toNat])
  | .xor16 d a => some (rowXor16, {}, [d.toNat, a.toNat])
  | .shli16 d k => some (rowShli16, {}, [d.toNat, k.toNat])
  | .shri16 d k => some (rowShri16, {}, [d.toNat, k.toNat])
  | .srai16 d k => some (rowSrai16, {}, [d.toNat, k.toNat])
  | .add m d a b => some (rowAdd, m, [d.toNat, a.toNat, b.toNat])
  | .sub m d a b => some (rowSub, m, [d.toNat, a.toNat, b.toNat])
  | .mul m d a b => some (rowMul, m, [d.toNat, a.toNat, b.toNat])
  | .mulh m d a b => some (rowMulh, m, [d.toNat, a.toNat, b.toNat])
  | .mulhU m d a b => some (rowMulhU, m, [d.toNat, a.toNat, b.toNat])
  | .div m d a b => some (rowDiv, m, [d.toNat, a.toNat, b.toNat])
  | .divU m d a b => some (rowDivU, m, [d.toNat, a.toNat, b.toNat])
  | .rem m d a b => some (rowRem, m, [d.toNat, a.toNat, b.toNat])
  | .remU m d a b => some (rowRemU, m, [d.toNat, a.toNat, b.toNat])
  | .and m d a b => some (rowAnd, m, [d.toNat, a.toNat, b.toNat])
  | .or m d a b => some (rowOr, m, [d.toNat, a.toNat, b.toNat])
  | .xor m d a b => some (rowXor, m, [d.toNat, a.toNat, b.toNat])
  | .andn m d a b => some (rowAndn, m, [d.toNat, a.toNat, b.toNat])
  | .shl m d a b => some (rowShl, m, [d.toNat, a.toNat, b.toNat])
  | .shr m d a b => some (rowShr, m, [d.toNat, a.toNat, b.toNat])
  | .sra m d a b => some (rowSra, m, [d.toNat, a.toNat, b.toNat])
  | .rot m d a b => some (rowRot, m, [d.toNat, a.toNat, b.toNat])
  | .min m d a b => some (rowMin, m, [d.toNat, a.toNat, b.toNat])
  | .minU m d a b => some (rowMinU, m, [d.toNat, a.toNat, b.toNat])
  | .max m d a b => some (rowMax, m, [d.toNat, a.toNat, b.toNat])
  | .maxU m d a b => some (rowMaxU, m, [d.toNat, a.toNat, b.toNat])
  | .clz m d a => some (rowClz, m, [d.toNat, a.toNat])
  | .ctz m d a => some (rowCtz, m, [d.toNat, a.toNat])
  | .popc m d a => some (rowPopc, m, [d.toNat, a.toNat])
  | .sextB m d a => some (rowSextB, m, [d.toNat, a.toNat])
  | .sextH m d a => some (rowSextH, m, [d.toNat, a.toNat])
  | .sextW m d a => some (rowSextW, m, [d.toNat, a.toNat])
  | .zextB m d a => some (rowZextB, m, [d.toNat, a.toNat])
  | .zextH m d a => some (rowZextH, m, [d.toNat, a.toNat])
  | .zextW m d a => some (rowZextW, m, [d.toNat, a.toNat])
  | .mov m d a => some (rowMov, m, [d.toNat, a.toNat])
  | .addi m d a k => some (rowAddi, m, [d.toNat, a.toNat, k.toNat])
  | .andi m d a k => some (rowAndi, m, [d.toNat, a.toNat, k.toNat])
  | .ori m d a k => some (rowOri, m, [d.toNat, a.toNat, k.toNat])
  | .xori m d a k => some (rowXori, m, [d.toNat, a.toNat, k.toNat])
  | .shli m d a k => some (rowShli, m, [d.toNat, a.toNat, k.toNat])
  | .shri m d a k => some (rowShri, m, [d.toNat, a.toNat, k.toNat])
  | .srai m d a k => some (rowSrai, m, [d.toNat, a.toNat, k.toNat])
  | .li m d k => some (rowLi, m, [d.toNat, k.toNat])
  | .lih m d k => some (rowLih, m, [d.toNat, k.toNat])
  | .li64 m d k => some (rowLi64, m, [d.toNat, k.toNat])
  | .madd m d a b c => some (rowMadd, m, [d.toNat, a.toNat, b.toNat, c.toNat])
  | .sel m d a b s p => some (rowSel, m, [d.toNat, a.toNat, b.toNat, s.toNat, p.toNat])
  | .bext m d a n p => some (rowBitField, m, [d.toNat, a.toNat, n.toNat, p.toNat])
  | .bextS m d a n p => some (rowBitField, m, [d.toNat, a.toNat, n.toNat, p.toNat])
  | .bins m d a n p => some (rowBitField, m, [d.toNat, a.toNat, n.toNat, p.toNat])
  | .lea m d a b s => some (rowLea, m, [d.toNat, a.toNat, b.toNat, s.toNat])
  | .cmp m c p a b => some (rowCmp, m, [condCode c, p.toNat, a.toNat, b.toNat])
  | .cmpi m c p a k => some (rowCmpi, m, [condCode c, p.toNat, a.toNat, k.toNat])
  | .pand m d a b => some (rowPand, m, [d.toNat, a.toNat, b.toNat])
  | .por m d a b => some (rowPor, m, [d.toNat, a.toNat, b.toNat])
  | .pxor m d a b => some (rowPxor, m, [d.toNat, a.toNat, b.toNat])
  | .pnot m d a => some (rowPnot, m, [d.toNat, a.toNat])
  | .bra o => some (rowBra, {}, [o.toNat])
  | .bc p s o => some (rowBc, {}, [p.toNat, s.toNat, o.toNat])
  | .call o => some (rowCall, {}, [o.toNat])
  | .bq s o => some (rowBq, {}, [s.toNat, o.toNat])
  | .bx a => some (rowBx, {}, [a.toNat])
  | .ret => some (rowRet, {}, [])
  | .bcast p e i => some (rowBcast, {}, [p.toNat, e.toNat, i.toNat])
  | .nop => some (rowNop, {}, [])
  | .halt => some (rowHalt, {}, [])
  | .xsend m e a => some (rowXsend, m, [e.toNat, a.toNat])
  | .xrecv m d => some (rowXrecv, m, [d.toNat])
  | .mfs m d n => some (rowMfs, m, [d.toNat, n.toNat])
  | .mts m a n => some (rowMts, m, [a.toNat, n.toNat])
  | .feat m d n => some (rowFeat, m, [d.toNat, n.toNat])
  | .clock m d => some (rowClock, m, [d.toNat])
  | .roleid m d n => some (rowRoleid, m, [d.toNat, n.toNat])
  | .ldl m d a f o => some (rowLdl, m, [d.toNat, a.toNat, ldFmtCode f, o.toNat])
  | .ldp m d a f o => some (rowLdp, m, [d.toNat, a.toNat, ldFmtCode f, o.toNat])
  | .ldg m d a f o => some (rowLdg, m, [d.toNat, a.toNat, ldFmtCode f, o.toNat])
  | .stl m d a w o => some (rowStl, m, [d.toNat, a.toNat, widthCode w, o.toNat])
  | .stp m d a w o => some (rowStp, m, [d.toNat, a.toNat, widthCode w, o.toNat])
  | .stg m d a w o => some (rowStg, m, [d.toNat, a.toNat, widthCode w, o.toNat])
  | .pfg m a k => some (rowPfg, m, [a.toNat, k.toNat])
  | .l1inv m a k => some (rowL1inv, m, [a.toNat, k.toNat])
  | .l1invAll m => some (rowL1invAll, m, [])
  | .mark m => some (rowMark, m, [])
  | .fence m => some (rowFence, m, [])
  | .qfence m a k => some (rowQfence, m, [a.toNat, k.toNat])
  | .twany m d a b => some (rowTwany, m, [d.toNat, a.toNat, b.toNat])
  | .twall m d a b => some (rowTwall, m, [d.toNat, a.toNat, b.toNat])
  | .tffr m d a => some (rowTffr, m, [d.toNat, a.toNat])
  | .tclr m a => some (rowTclr, m, [a.toNat])
  | .tkpush n => some (rowTkpush, {}, [n.toNat])
  | .tkpop n => some (rowTkpop, {}, [n.toNat])
  | .barinit m a b => some (rowBarinit, m, [a.toNat, b.toNat])
  | .bararr m d a b => some (rowBararr, m, [d.toNat, a.toNat, b.toNat])
  | .barwait m d a b => some (rowBarwait, m, [d.toNat, a.toNat, b.toNat])
  | .vldl m q a b nb k => some (rowVldl, m, [q.toNat, a.toNat, xOrBkCode b, nb.toNat, k.toNat])
  | .vldp m q a b nb k => some (rowVldp, m, [q.toNat, a.toNat, xOrBkCode b, nb.toNat, k.toNat])
  | .vldg m q a b nb k => some (rowVldg, m, [q.toNat, a.toNat, xOrBkCode b, nb.toNat, k.toNat])
  | .vstl m q a b nb k => some (rowVstl, m, [q.toNat, a.toNat, b.toNat, nb.toNat, k.toNat])
  | .vstp m q a b nb k => some (rowVstp, m, [q.toNat, a.toNat, b.toNat, nb.toNat, k.toNat])
  | .vstg m q a b nb k => some (rowVstg, m, [q.toNat, a.toNat, b.toNat, nb.toNat, k.toNat])
  | .vgl m q a b e n => some (rowVgl, m, [q.toNat, a.toNat, b.toNat, widthCode e, n.toNat])
  | .vgg m q a b e n => some (rowVgg, m, [q.toNat, a.toNat, b.toNat, widthCode e, n.toNat])
  | .vsl m q a b e n => some (rowVsl, m, [q.toNat, a.toNat, b.toNat, widthCode e, n.toNat])
  | .vsg m q a b e n => some (rowVsg, m, [q.toNat, a.toNat, b.toNat, widthCode e, n.toNat])
  | .aadd m d a b w k => some (rowAadd, m, [d.toNat, a.toNat, b.toNat, aSizeCode w, k.toNat])
  | .aand m d a b w k => some (rowAand, m, [d.toNat, a.toNat, b.toNat, aSizeCode w, k.toNat])
  | .aor m d a b w k => some (rowAor, m, [d.toNat, a.toNat, b.toNat, aSizeCode w, k.toNat])
  | .axor m d a b w k => some (rowAxor, m, [d.toNat, a.toNat, b.toNat, aSizeCode w, k.toNat])
  | .amin m d a b u w k => some (rowAmin, m, [d.toNat, a.toNat, b.toNat, u.toNat, aSizeCode w, k.toNat])
  | .amax m d a b u w k => some (rowAmax, m, [d.toNat, a.toNat, b.toNat, u.toNat, aSizeCode w, k.toNat])
  | .aswp m d a b w k => some (rowAswp, m, [d.toNat, a.toNat, b.toNat, aSizeCode w, k.toNat])
  | .acas m d a b c w k => some (rowAcas, m, [d.toNat, a.toNat, b.toNat, c.toNat, aSizeCode w, k.toNat])
  | .afadd m d a b w k => some (rowAfadd, m, [d.toNat, a.toNat, b.toNat, aSizeCode w, k.toNat])
  | .abinc m d a b w k => some (rowAbinc, m, [d.toNat, a.toNat, b.toNat, aSizeCode w, k.toNat])
  | .alrb m a k => some (rowAlrb, m, [a.toNat, k.toNat])
  | .alrl m d a z w o => some (rowAlrl, m, [d.toNat, a.toNat, z.toNat, widthCode w, o.toNat])
  | .alrs m a b w o => some (rowAlrs, m, [a.toNat, b.toNat, widthCode w, o.toNat])
  | .alrc m d => some (rowAlrc, m, [d.toNat])
  | .vaddC m d a b e => some (rowVaddC, m, [d.toNat, a.toNat, b.toNat, e.toNat])
  | .vsubC m d a b e => some (rowVsubC, m, [d.toNat, a.toNat, b.toNat, e.toNat])
  | .vmulC m d a b e => some (rowVmulC, m, [d.toNat, a.toNat, b.toNat, e.toNat])
  | .vandC m d a b e => some (rowVandC, m, [d.toNat, a.toNat, b.toNat, e.toNat])
  | .vorC m d a b e => some (rowVorC, m, [d.toNat, a.toNat, b.toNat, e.toNat])
  | .vxorC m d a b e => some (rowVxorC, m, [d.toNat, a.toNat, b.toNat, e.toNat])
  | .vminC m d a b e => some (rowVminC, m, [d.toNat, a.toNat, b.toNat, e.toNat])
  | .vmaxC m d a b e => some (rowVmaxC, m, [d.toNat, a.toNat, b.toNat, e.toNat])
  | .vfaddC m d a b e => some (rowVfaddC, m, [d.toNat, a.toNat, b.toNat, cFltCode e])
  | .vfsubC m d a b e => some (rowVfsubC, m, [d.toNat, a.toNat, b.toNat, cFltCode e])
  | .vfmulC m d a b e => some (rowVfmulC, m, [d.toNat, a.toNat, b.toNat, cFltCode e])
  | .vfminC m d a b e => some (rowVfminC, m, [d.toNat, a.toNat, b.toNat, cFltCode e])
  | .vfmaxC m d a b e => some (rowVfmaxC, m, [d.toNat, a.toNat, b.toNat, cFltCode e])
  | .vadd m d a b u et => some (rowVadd, m, [vdstCode d, vsrcCode a, vsrcCode b, u.toNat, intEtCode et])
  | .vsub m d a b u et => some (rowVsub, m, [vdstCode d, vsrcCode a, vsrcCode b, u.toNat, intEtCode et])
  | .vmul m d a b u et => some (rowVmul, m, [vdstCode d, vsrcCode a, vsrcCode b, u.toNat, intEtCode et])
  | .vmulh m d a b u et => some (rowVmulh, m, [vdstCode d, vsrcCode a, vsrcCode b, u.toNat, intEtCode et])
  | .vmadd m d a b c u et => some (rowVmadd, m, [vdstCode d, vsrcCode a, vsrcCode b, vsrcCode c, u.toNat, intEtCode et])
  | .vmin m d a b u et => some (rowVmin, m, [vdstCode d, vsrcCode a, vsrcCode b, u.toNat, intEtCode et])
  | .vmax m d a b u et => some (rowVmax, m, [vdstCode d, vsrcCode a, vsrcCode b, u.toNat, intEtCode et])
  | .vand m d a b u et => some (rowVand, m, [vdstCode d, vsrcCode a, vsrcCode b, u.toNat, intEtCode et])
  | .vor m d a b u et => some (rowVor, m, [vdstCode d, vsrcCode a, vsrcCode b, u.toNat, intEtCode et])
  | .vxor m d a b u et => some (rowVxor, m, [vdstCode d, vsrcCode a, vsrcCode b, u.toNat, intEtCode et])
  | .vshl m d a b u et => some (rowVshl, m, [vdstCode d, vsrcCode a, vsrcCode b, u.toNat, intEtCode et])
  | .vshr m d a b u et => some (rowVshr, m, [vdstCode d, vsrcCode a, vsrcCode b, u.toNat, intEtCode et])
  | .vsra m d a b u et => some (rowVsra, m, [vdstCode d, vsrcCode a, vsrcCode b, u.toNat, intEtCode et])
  | .vabs m d a u et => some (rowVabs, m, [vdstCode d, vsrcCode a, u.toNat, intEtCode et])
  | .vneg m d a u et => some (rowVneg, m, [vdstCode d, vsrcCode a, u.toNat, intEtCode et])
  | .vcmp m d a b pe pd c u et => some (rowVcmp, m, [vdstCode d, vsrcCode a, vsrcCode b, pe.toNat, pd.toNat, vCondCode c, u.toNat, intEtCode et])
  | .vsel m d a b c u et => some (rowVsel, m, [vdstCode d, vsrcCode a, vsrcCode b, vsrcCode c, u.toNat, intEtCode et])
  | .vpopc m d a u et => some (rowVpopc, m, [vdstCode d, vsrcCode a, u.toNat, intEtCode et])
  | .vfadd m d a b et => some (rowVfadd, m, [vdstCode d, vsrcCode a, vsrcCode b, fltEtCode et])
  | .vfsub m d a b et => some (rowVfsub, m, [vdstCode d, vsrcCode a, vsrcCode b, fltEtCode et])
  | .vfmul m d a b et => some (rowVfmul, m, [vdstCode d, vsrcCode a, vsrcCode b, fltEtCode et])
  | .vfma m d a b c et => some (rowVfma, m, [vdstCode d, vsrcCode a, vsrcCode b, vsrcCode c, fltEtCode et])
  | .vfmin m d a b et => some (rowVfmin, m, [vdstCode d, vsrcCode a, vsrcCode b, fltEtCode et])
  | .vfmax m d a b et => some (rowVfmax, m, [vdstCode d, vsrcCode a, vsrcCode b, fltEtCode et])
  | .vfcmp m d a b pe pd c et => some (rowVfcmp, m, [vdstCode d, vsrcCode a, vsrcCode b, pe.toNat, pd.toNat, fCondCode c, fltEtCode et])
  | .vfrcp m d a et => some (rowVfrcp, m, [vdstCode d, vsrcCode a, fltEt3Code et])
  | .vfrsq m d a et => some (rowVfrsq, m, [vdstCode d, vsrcCode a, fltEt3Code et])
  | .vfexp2 m d a et => some (rowVfexp2, m, [vdstCode d, vsrcCode a, fltEt3Code et])
  | .vflog2 m d a et => some (rowVflog2, m, [vdstCode d, vsrcCode a, fltEt3Code et])
  | .vftanh m d a et => some (rowVftanh, m, [vdstCode d, vsrcCode a, fltEt3Code et])
  | .vcvt m d a k sf tf => some (rowVcvt, m, [vdstCode d, vsrcCode a, k.toNat, sf.toNat, tf.toNat])
  | .vqnt m d a b k scm sf tf => some (rowVqnt, m, [vdstCode d, vsrcCode a, vsrcCode b, k.toNat, scm.toNat, fltEt3Code sf, tf.toNat])
  | .vdqnt m d a k sf tf => some (rowVdqnt, m, [vdstCode d, vsrcCode a, k.toNat, sf.toNat, fltEt3Code tf])
  | .vpack m d a f => some (rowVpack, m, [vdstCode d, vsrcCode a, f.toNat])
  | .vunpk m d a f => some (rowVunpk, m, [vdstCode d, vsrcCode a, f.toNat])
  | .vradd m d a u et => some (rowVradd, m, [vdstCode d, vsrcCode a, u.toNat, intEtCode et])
  | .vrmax m d a u et => some (rowVrmax, m, [vdstCode d, vsrcCode a, u.toNat, intEtCode et])
  | .vfradd m d a et => some (rowVfradd, m, [vdstCode d, vsrcCode a, fltEtCode et])
  | .vfrmax m d a et => some (rowVfrmax, m, [vdstCode d, vsrcCode a, fltEtCode et])
  | .vperm m d a b c w => some (rowVperm, m, [vdstCode d, vsrcCode a, vsrcCode b, vsrcCode c, widthCode w])
  | .vrot m d a k w => some (rowVrot, m, [vdstCode d, vsrcCode a, k.toNat, widthCode w])
  | .vbcast m d a k w => some (rowVbcast, m, [vdstCode d, vsrcCode a, k.toNat, widthCode w])
  | .vext m d a k s w => some (rowVext, m, [d.toNat, vsrcCode a, k.toNat, s.toNat, widthCode w])
  | .vins m d a b k w => some (rowVins, m, [vdstCode d, vsrcCode a, b.toNat, k.toNat, widthCode w])
  | .vcomp m d a b w => some (rowVcomp, m, [vdstCode d, vsrcCode a, vsrcCode b, widthCode w])
  | .vexpd m d a b w => some (rowVexpd, m, [vdstCode d, vsrcCode a, vsrcCode b, widthCode w])
  | .vmrg3 m d a b c s => some (rowVmrg3, m, [vdstCode d, vsrcCode a, vsrcCode b, vsrcCode c, s.toNat])
  | .vmov m d a => some (rowVmov, m, [vdstCode d, vsrcCode a])
  | .vli m d r w k => some (rowVli, m, [vdstCode d, r.toNat, widthCode w, k.toNat])
  | .vsplat m d a w => some (rowVsplat, m, [vdstCode d, a.toNat, widthCode w])
  | .sbind m z a k => some (rowSbind, m, [z.toNat, a.toNat, k.toNat])
  | .sbop m z a => some (rowSbop, m, [z.toNat, a.toNat])
  | .sunbind m z now => some (rowSunbind, m, [z.toNat, now.toNat])
  | .sadv m z a => some (rowSadv, m, [z.toNat, a.toNat])
  | .sstat m d z => some (rowSstat, m, [d.toNat, z.toNat])
  | .lcfg m a b => some (rowLcfg, m, [a.toNat, b.toNat])
  | .lstat m d a => some (rowLstat, m, [d.toNat, a.toNat])
  | .lfence m a => some (rowLfence, m, [a.toNat])
  | .lsync m a => some (rowLsync, m, [a.toNat])
  | .lwst m a b c f => some (rowLwst, m, [a.toNat, b.toNat, c.toNat, f.toNat])
  | .lact m a b c f => some (rowLact, m, [a.toNat, b.toNat, c.toNat, f.toNat])
  | .lmac m a b z => some (rowLmac, m, [a.toNat, b.toNat, z.toNat])
  | .laccz m a => some (rowLaccz, m, [a.toNat])
  | .laccr m a b c f => some (rowLaccr, m, [a.toNat, b.toNat, c.toNat, fltEtCode f])
  | .lred m a b c clr ring f => some (rowLred, m, [a.toNat, b.toNat, c.toNat, clr.toNat, ring.toNat, fltEtCode f])
  | .mlay m a b l ws we ss se => some (rowMlay, m, [a.toNat, b.toNat, l.toNat, ws.toNat, we.toNat, ss.toNat, se.toNat])
  | .munf m a b id ws we ss se => some (rowMunf, m, [a.toNat, b.toNat, id.toNat, ws.toNat, we.toNat, ss.toNat, se.toNat])
  | .mld m a b c l ws we ss se => some (rowMld, m, [a.toNat, b.toNat, c.toNat, l.toNat, ws.toNat, we.toNat, ss.toNat, se.toNat])
  | .mmul m a b u t ws we ss se => some (rowMmul, m, [a.toNat, b.toNat, u.toNat, t.toNat, ws.toNat, we.toNat, ss.toNat, se.toNat])
  | .mdrn m a b g t ws we ss se => some (rowMdrn, m, [a.toNat, b.toNat, g.toNat, t.toNat, ws.toNat, we.toNat, ss.toNat, se.toNat])
  | .mzero m mode t ws we ss se => some (rowMzero, m, [tModeCode mode, t.toNat, ws.toNat, we.toNat, ss.toNat, se.toNat])
  | .msemSig m s n => some (rowMsemSig, m, [s.toNat, n.toNat])
  | .msemWait m s n => some (rowMsemWait, m, [s.toNat, n.toNat])
  | .msemRd m d s => some (rowMsemRd, m, [d.toNat, s.toNat])
  | .msemSt m d => some (rowMsemSt, m, [d.toNat])
  | .xcopy m a b ren ten tag => some (rowXcopy, m, [a.toNat, b.toNat, ren.toNat, ten.toNat, tag.toNat])
  | .xgath m a b ren ten tag => some (rowXgath, m, [a.toNat, b.toNat, ren.toNat, ten.toNat, tag.toNat])
  | .xscat m a b ren ten tag => some (rowXscat, m, [a.toNat, b.toNat, ren.toNat, ten.toNat, tag.toNat])
  | .xscadd m a b ren ten tag => some (rowXscadd, m, [a.toNat, b.toNat, ren.toNat, ten.toNat, tag.toNat])
  | .xfill m a b ren ten tag => some (rowXfill, m, [a.toNat, b.toNat, ren.toNat, ten.toNat, tag.toNat])
  | .xring m a b ren ten tag => some (rowXring, m, [a.toNat, b.toNat, ren.toNat, ten.toNat, tag.toNat])
  | .creq m a b ren ten tag => some (rowCreq, m, [a.toNat, b.toNat, ren.toNat, ten.toNat, tag.toNat])
  | .sqnew m d a b bl => some (rowSqnew, m, [d.toNat, a.toNat, b.toNat, bl.toNat])
  | .sqres m d a b => some (rowSqres, m, [d.toNat, a.toNat, b.toNat])
  | .sqrest m d a b => some (rowSqrest, m, [d.toNat, a.toNat, b.toNat])
  | .sqcmt m d a b c => some (rowSqcmt, m, [d.toNat, a.toNat, b.toNat, c.toNat])
  | .sqacc m d a b => some (rowSqacc, m, [d.toNat, a.toNat, b.toNat])
  | .sqwd m d a => some (rowSqwd, m, [d.toNat, a.toNat])
  | .sqfree m d a => some (rowSqfree, m, [d.toNat, a.toNat])
  | .sqfork m d a b => some (rowSqfork, m, [d.toNat, a.toNat, b.toNat])
  | .sqlen m d a => some (rowSqlen, m, [d.toNat, a.toNat])
  | .sqwait m d a b c => some (rowSqwait, m, [d.toNat, a.toNat, b.toNat, c.toNat])
  | .sqpin m d a => some (rowSqpin, m, [d.toNat, a.toNat])
  | .squnpin m d a => some (rowSqunpin, m, [d.toNat, a.toNat])
  | .sqext m d a b k => some (rowSqext, m, [d.toNat, a.toNat, b.toNat, sel3Code k])
  | .ldq m d a b c ch => some (rowLdq, m, [d.toNat, a.toNat, b.toNat, c.toNat, ch.toNat])
  | .vldq m q a b c ch => some (rowVldq, m, [q.toNat, a.toNat, b.toNat, c.toNat, ch.toNat])
  | .stq m d a b ch => some (rowStq, m, [d.toNat, a.toNat, b.toNat, ch.toNat])
  | .vstq m q a b ch => some (rowVstq, m, [q.toNat, a.toNat, b.toNat, ch.toNat])
  | .sqattn m a b ten tag => some (rowSqattn, m, [a.toNat, b.toNat, ten.toNat, tag.toNat])
  | .pfxh m d a b => some (rowPfxh, m, [d.toNat, a.toNat, b.toNat])
  | .pfxl m d a b => some (rowPfxl, m, [d.toNat, a.toNat, b.toNat])
  | .pfxlH m d a => some (rowPfxlH, m, [d.toNat, a.toNat])
  | .pfxlS m d a => some (rowPfxlS, m, [d.toNat, a.toNat])
  | .pfxi m d a b c => some (rowPfxi, m, [d.toNat, a.toNat, b.toNat, c.toNat])
  | .pfxd m d a => some (rowPfxd, m, [d.toNat, a.toNat])
  | .pfxdU m d a => some (rowPfxdU, m, [d.toNat, a.toNat])
  | .tend => some (rowTend, {}, [])
  | .yield => some (rowYield, {}, [])
  | .trap m k => some (rowTrap, m, [k.toNat])
  | .chk m a b => some (rowChk, m, [a.toNat, b.toNat])
  | .tabort m => some (rowTabort, m, [])
  | .tstat m d k => some (rowTstat, m, [d.toNat, k.toNat])
  | .tret m d a b => some (rowTret, m, [d.toNat, a.toNat, b.toNat])
  | .tlbinvPg a b => some (rowTlbinvPg, {}, [a.toNat, b.toNat])
  | .tlbinvAs a => some (rowTlbinvAs, {}, [a.toNat])
  | .tlbinvAll => some (rowTlbinvAll, {}, [])
  | .asset a => some (rowAsset, {}, [a.toNat])
  | .launch m d a b => some (rowLaunch, m, [d.toNat, a.toNat, b.toNat])
  | .lwait m d a => some (rowLwait, m, [d.toNat, a.toNat])
  | .lpoll m d a => some (rowLpoll, m, [d.toNat, a.toNat])
  | .rcbq m d a k => some (rowRcbq, m, [d.toNat, a.toNat, k.toNat])
  | .spop m d => some (rowSpop, m, [d.toNat])
  | .spush m d a b => some (rowSpush, m, [d.toNat, a.toNat, b.toNat])
  | .wlapp m d a b => some (rowWlapp, m, [d.toNat, a.toNat, b.toNat])
  | .wltake m d a => some (rowWltake, m, [d.toNat, a.toNat])
  | .quies m d a => some (rowQuies, m, [d.toNat, a.toNat])
  | _ => none

/-- The word of a row with the given TK field and field values (R50-R52). -/
def wordOf (r : Row) (tk : BitVec 4) (v : List Nat) : Nat :=
  match r.len with
  | .b16 => joinAtoms r.atoms v * 64 + r.maj * 4
  | .b32 => joinAtoms r.atoms v * 4096 + tk.toNat * 256 + r.maj * 4 + 1
  | .b64 => joinAtoms r.atoms v * 4096 + tk.toNat * 256 + r.maj * 4 + 2

/-- The parcels of a length (R41). -/
def parcelsOf : Len → Nat
  | .b16 => 1
  | .b32 => 2
  | .b64 => 4

/-- The prefix parcels of an instruction in ascending order of their kinds (R56-R60, R70). -/
def encodePfx (p : Pfx) : List Parcel :=
  (match p.rnd with
    | some r => [BitVec.ofNat 16 (r.ftz.toNat * 512 + r.sat.toNat * 256 + rmCode r.rm * 32 + 3)]
    | none => []) ++
  (match p.ord with
    | some o => [BitVec.ofNat 16 (scopeCode o.scope * 128 + o.rel.toNat * 64 + o.acq.toNat * 32 + 7)]
    | none => []) ++
  (match p.rext with
    | some r => [BitVec.ofNat 16 (r.toNat * 32 + 11)]
    | none => []) ++
  (match p.imm with
    | some k => [BitVec.ofNat 16 (k.toNat * 32 + 15)]
    | none => []) ++
  (match p.guard with
    | some g => [BitVec.ofNat 16 (g.sense.toNat * 256 + g.pred.toNat * 32 + 19)]
    | none => [])

/-- The parcels of an instruction: its prefixes in ascending order, then its word. The empty list for an
event of the device. -/
def encode (i : Instr) : List Parcel :=
  match i with
  | .blockHeader rep body mask =>
    splitParcels 2 (rep.toNat * 2 ^ 24 + body.toNat * 4096 + mask.toNat * 256 + 1)
  | .blockHeaderReg r body mask =>
    splitParcels 2 (2 ^ 31 + r.toNat * 2 ^ 24 + body.toNat * 4096 + mask.toNat * 256 + 1)
  | _ =>
    match fieldsOf i with
    | some (r, m, v) => encodePfx m.pfx ++ splitParcels (parcelsOf r.len) (wordOf r m.tk v)
    | none => []

/-- The block header that two parcels form (R43). -/
def decodeHeader (ps : List Parcel) : Option Instr :=
  match ps with
  | p :: q :: _ => if parcelLen p = 1 then headerOfWord (joinParcels [p, q]) else none
  | _ => none

/-- The instruction or the block header at the front of a list of parcels. -/
def decodeAnyDec (ps : List Parcel) : Option Dec :=
  match decodeHeader ps with
  | some i => some (.i i)
  | none =>
    match decodeDec ps with
    | .ok (d, _) => some d
    | .error _ => none

/-- The parcels that a table row's word of `nbits` bits stands for: its bits from the lowest parcel up, and
zeros above them up to the length that LEN selects. A prefix stands first where the row needs one. -/
def tableParcels (nbits w : Nat) : List Parcel :=
  splitParcels (max 7 ((nbits + 15) / 16)) w

/-- What the decoder reads from a row's word, numbered as the opcode table numbers it. -/
def decodeTableDec (nbits w : Nat) : Option Dec := decodeAnyDec (tableParcels nbits w)

/-- The instruction that the decoder reads from a row's word, numbered as the opcode table numbers it. -/
noncomputable def decodeTableWord (nbits w : Nat) : Option Instr :=
  (decodeTableDec nbits w).map Dec.instr

end Sys2Proof
end

