-- ==== Sys2Proof/Machine/Memory.lean ====
section
/-! DEFINITION. Tables keyed by a number, and byte stores in one canonical form. -/

namespace Sys2Proof.Machine

/-- A table from numbers to values, its keys rising; a key that it does not list has a default value. -/
abbrev Tab (α : Type) := List (Nat × α)

/-- The value at a key. -/
def tget {α : Type} (d : α) : Tab α → Nat → α
  | [], _ => d
  | (j, v) :: r, k => if j = k then v else tget d r k

/-- The value at a key, if it is listed. -/
def tfind {α : Type} : Tab α → Nat → Option α
  | [], _ => none
  | (j, v) :: r, k => if j = k then some v else tfind r k

/-- The table with a value at a key. -/
def tput {α : Type} : Tab α → Nat → α → Tab α
  | [], k, v => [(k, v)]
  | (j, w) :: r, k, v =>
    if k < j then (k, v) :: (j, w) :: r else if k = j then (k, v) :: r else (j, w) :: tput r k v

/-- The table without a key. -/
def tdel {α : Type} (t : Tab α) (k : Nat) : Tab α := t.filter fun p => p.1 != k

/-- The table with the value at a key changed. -/
def tmod {α : Type} (d : α) (t : Tab α) (k : Nat) (f : α → α) : Tab α := tput t k (f (tget d t k))

/-- A store of bytes by address. Addresses rise strictly, and no byte is listed that is zero: an
address that is not listed reads as zero. -/
abbrev Mem := List Host.Cell

/-- The byte at an address. -/
def memGet (m : Mem) (a : Nat) : Byte := tget 0 m a

/-- The store with a byte at an address. -/
def memPut (m : Mem) (a : Nat) (b : Byte) : Mem := if b = 0 then tdel m a else tput m a b

/-- The bytes from an address on. -/
def memRead (m : Mem) (a : Nat) : Nat → List Byte
  | 0 => []
  | n + 1 => memGet m a :: memRead m (a + 1) n

/-- The store with bytes from an address on. -/
def memWrite (m : Mem) (a : Nat) : List Byte → Mem
  | [] => m
  | b :: r => memWrite (memPut m a b) (a + 1) r

/-- Every address of a list lies above `a`, and they rise strictly; no byte is zero. -/
def memWfFrom (a : Nat) : Mem → Bool
  | [] => true
  | (k, b) :: r => decide (a ≤ k) && b != 0 && memWfFrom (k + 1) r

/-- The canonical form of a byte store. -/
def Memory.wf (m : Mem) : Bool := memWfFrom 0 m

/-- The number that bytes hold, the first byte lowest (R8). -/
def leNat : List Byte → Nat
  | [] => 0
  | b :: r => b.toNat + 256 * leNat r

/-- The `n` low bytes of a number, the lowest first (R8). -/
def leBytes : Nat → Nat → List Byte
  | 0, _ => []
  | n + 1, v => BitVec.ofNat 8 v :: leBytes n (v / 256)

/-- The quad at an address of a byte store. -/
def memQuad (m : Mem) (a : Nat) : Nat := leNat (memRead m a 8)

/-- Bits `hi` to `lo` of a number (R8). -/
def bits (v hi lo : Nat) : Nat := v / 2 ^ lo % 2 ^ (hi + 1 - lo)

/-- A number read as a two's-complement pattern of `w` bits. -/
def signed (w v : Nat) : Int := if v % 2 ^ w < 2 ^ (w - 1) then (v % 2 ^ w : Nat) else (v % 2 ^ w : Nat) - (2 ^ w : Nat)

/-- A list without its first element that satisfies `p`. -/
def eraseFirst {α : Type} (p : α → Bool) : List α → List α
  | [] => []
  | a :: r => if p a then r else a :: eraseFirst p r

/-- The elements of a list before the first that satisfies `p`. -/
def takeUntil {α : Type} (p : α → Bool) : List α → List α
  | [] => []
  | a :: r => if p a then [] else a :: takeUntil p r

/-- The places of the elements that satisfy `p`. -/
def idxs {α : Type} (p : α → Bool) (l : List α) : List Nat := go 0 l
where
  /-- The places counted from `i`. -/
  go (i : Nat) : List α → List Nat
  | [] => []
  | a :: r => if p a then i :: go (i + 1) r else go (i + 1) r

/-- The one of a list of candidates that a choice names; none for an empty list. -/
def choose {α : Type} (l : List α) (n : Nat) : Option α :=
  match l with
  | [] => none
  | a :: _ => some (l.getD (n % l.length) a)

end Sys2Proof.Machine
end

