-- ==== Sys2Proof/Machine/State.lean ====
section
/-! DEFINITION. The state of the machine as plain data: every piece of state that the manual gives it, the
schedule's agenda, and the state right after reset. INVENTORY.md lists each field with its rule. -/

namespace Sys2Proof.Machine

/-- Why the machine stops with a fault. -/
inductive Fault where
  /-- No rule of the manual stops the machine: raised by nothing. Safe. -/
  | stopped
  deriving DecidableEq, Repr

/-- Why the model gives an instruction no meaning. -/
inductive Refusal where
  /-- An instruction that the model does not give a meaning yet; raised by the arms of `exec`. Safe. -/
  | notModelled (mnemonic : String)
  deriving DecidableEq, Repr

/-- A fault code of R331. -/
inductive Code where
  | illop | pfx | align | xlate | prot | poison | space | vcap | qfault | budget | watch
  | savefault | saveover
  deriving DecidableEq, Repr

/-- What an engine is stalled on (R27, R30, R31, R32, R38). -/
inductive Stall where
  | queue | token | window | fwd        -- counted by the deadlock test (R32, R136)
  | memq | tlb | result | order | hold | stream | unit | space | arb
  deriving DecidableEq, Repr

/-- A work-list item (R327). -/
abbrev Word56 := BitVec 56

/-! ## Accesses and their queues -/

/-- Where the bytes of an access lie: a scratchpad, a peer's scratchpad through its routing slice, or
device memory by device-physical address (R113, R127). -/
inductive Place where
  | spad (core : Nat)
  | peer (core : Nat)
  | mem
  deriving DecidableEq, Repr

/-- One part of an access: bytes that perform as one event (R127). `off` is its first byte in the
access, `va` its address in the space of the instruction; `elem` says that it is an element of a gather or a scatter, which is an
access of its own (R132, R174). -/
structure Part where
  place : Place
  addr  : Nat
  len   : Nat
  off   : Nat
  va    : Nat := 0
  done  : Bool := false
  elem  : Bool := false
  deriving DecidableEq, Repr

/-- A place in program order: a visit of a header and the parcel offset in the text (R131). -/
structure Pos where
  head  : Nat := 0
  visit : Nat := 0
  off   : Nat := 0
  deriving DecidableEq, Repr

/-- The operations of R178. -/
inductive AOp where
  | add | and | or | xor | min | max | minU | maxU | swp | cas | faddF | faddA | binc
  deriving DecidableEq, Repr

/-- An operation at a home slice, with its operands as read at issue (R137). A sequence is named by the
device-physical address of its control block. -/
inductive SliceOp where
  | atomic (op : AOp) (bytes : Nat) (d : Reg) (b c : Quad)
  | alrb (va : Nat) (gone : Bool)     -- `gone`: the region was abandoned before the grant (R183)
  | alrc (d : Reg) (marks : List (Nat × Byte))
  | barinit (b : Quad)
  | bararr (d : Reg) (err : Bool)
  | barwait (d : Reg) (phase : Nat)
  | sqnew (d : Reg) (h : Nat) (fmt : Quad) (b : Nat)
  | sqres (d : Reg) (h : Nat) (n : Quad)
  | sqrest (d : Reg) (h : Nat) (n : Quad)
  | sqcmt (d : Reg) (h : Nat) (first count : Quad)
  | sqacc (d : Reg) (h : Nat) (k : Quad)
  | sqwd (d : Reg) (h : Nat)
  | sqfree (d : Reg) (h : Nat)
  | sqfork (d : Reg) (h : Nat) (g : Nat) (va : Nat)
  | sqlen (d : Reg) (h : Nat)
  | sqwait (d : Reg) (h : Nat) (len : Quad) (limit : Quad) (since : Nat)
  | sqpin (d : Reg) (h : Nat)
  | squnpin (d : Reg) (h : Nat)
  | sqext (d : Reg) (h : Nat) (sel : Nat) (b : Quad)
  | sqattn (h : Nat) (desc : List Byte) (query : List Byte) (ten : Bool) (tag : Nat)
  deriving DecidableEq, Repr

/-- An operation of a sequence unit. -/
def SliceOp.isSeq : SliceOp → Bool
  | .atomic .. | .alrb .. | .alrc .. | .barinit .. | .bararr .. | .barwait .. => false
  | _ => true

/-- One dimension of a copy descriptor (R254). -/
structure Dim where
  sstr : Int
  dstr : Int
  cnt  : Nat
  win  : Nat
  off  : Int
  samp : Nat
  deriving DecidableEq, Repr

/-- The transfer commands of majors 18 and 19 (R251). -/
inductive XKind where
  | copy | gath | scat | scadd | fill | ring | creq
  deriving DecidableEq, Repr

/-- The spaces of a transfer side (R253). -/
inductive XSpace where
  | l | p | g | sys
  deriving DecidableEq, Repr

/-- A transfer or column-reduce command in a memory queue: its descriptor as read at issue and its
progress (R249-R265): `barVa` is the address of its barrier as the task gave it, and `cend` the element at which the
chunk in hand ends (R250). -/
structure Xfer where
  kind   : XKind
  sspc   : XSpace := .l
  dspc   : XSpace := .l
  sbase  : Nat := 0
  dbase  : Nat := 0
  ringcb : Nat := 0
  idx    : Nat := 0
  key    : Nat := 0
  sf     : Fmt := .i8n
  tf     : Fmt := .i8n
  evm    : Nat := 0
  rm     : Rm := .rne
  sat    : Bool := false
  ftz    : Bool := false
  drole  : Nat := 0
  radd   : Bool := false
  dims   : List Dim := []
  -- creq
  nrows  : Nat := 0
  rstr   : Nat := 0
  dim    : Nat := 0
  rows   : List Nat := []
  col    : Nat := 0
  -- the command word
  ren    : Bool := false
  ten    : Bool := false
  tag    : Nat := 0
  bar    : Option Nat := none
  barVa  : Nat := 0
  seq    : Nat := 0
  pol    : Bool := false
  -- progress
  next   : Nat := 0
  cend   : Option Nat := none
  bytes  : Nat := 0
  first  : Option Nat := none
  ridx   : Option (Nat × Nat) := none
  poisc  : Nat := 0
  evt    : Nat := 0
  conv   : Bool := false
  range  : Bool := false
  pois   : Bool := false
  fault  : Option Code := none
  faddr  : Nat := 0
  mem0   : List Host.Cell := []
  moved  : Bool := false
  wire   : List Byte := []
  acked  : Bool := true
  wait   : Option Nat := none
  wrote  : Bool := false
  drop   : Bool := false
  zeros  : List Nat := []
  err    : Bool := false
  asked  : Nat := 0
  around : Bool := false
  deriving DecidableEq, Repr

/-- What an access of the two memory queues does (R132). -/
inductive AccKind where
  | load (bytes : Nat) (sext : Bool) (d : Reg)
  | vload (q : Nat)
  | store
  | mark
  | fence
  | qfence (mask : Nat)
  | op (o : SliceOp)
  | qload (d st : Reg) (h slot ch : Nat) (vec : Option Nat)
  | qfill (h slot ch : Nat)
  | xfer (x : Xfer)
  deriving DecidableEq, Repr

/-- An access in the load queue, the store queue or both, in issue order (R132). `lo` and `hi` are the
tokens it pushes when it has performed (R31). `stale` says that an earlier change of translation has come after its issue,
so that it translates again (R344). -/
structure Access where
  id    : Nat
  eng   : Eng
  inL   : Bool
  inS   : Bool
  pos   : Pos
  kind  : AccKind
  ord   : Option OrdPfx := none
  parts : List Part := []
  data  : List Byte := []
  lo    : Bool := false
  hi    : Bool := false
  stale : Bool := false
  deriving DecidableEq, Repr

/-- An entry of the forwarding table, or one element of a scatter's entry: `off` is its place in the access; once it has
performed, `under` is what a load before it finds in place of its bytes (R136). -/
structure FwdEnt where
  id    : Nat
  off   : Nat
  pos   : Pos
  addr  : Nat
  data  : List Byte
  done  : Bool
  under : List Byte := []
  deriving DecidableEq, Repr

/-- An entry of an architectural queue of vectors; `pend` names the load that has yet to fill it. -/
structure VecEnt where
  pend : Option Nat := none
  val  : Vec := 0
  deriving DecidableEq, Repr

/-- A token, or a place reserved for one (R31): which end pushes it and whether it is there. -/
structure Tok where
  upper : Bool
  id    : Nat
  ready : Bool
  deriving DecidableEq, Repr

/-! ## Engines and contexts -/

/-- The block that an engine is in: header, header after it, instances still to begin after the
current one, whether the current instance has begun, and the mask (R43, R44). -/
structure Blk where
  head  : Nat
  next  : Nat
  left  : Nat
  begun : Bool
  mask  : BitVec 4
  deriving DecidableEq, Repr

/-- What an engine waits for after it has issued an instruction that does not end at once. -/
inductive Wait where
  | no
  | tend
  | yield
  | access (id : Nat)
  | tags (all : Bool) (d : Reg) (mask limit : Quad) (since : Nat)
  | quies (d : Reg) (limit : Quad) (since : Nat)
  | lwait (d : Reg) (child : Nat)
  | sunbind (z : Nat) (pos : Pos)
  | split (spad : Nat)
  | plan (word : Quad) (since : Nat)
  | lfence (lanes : List Nat) (id : Nat)
  | msem (k n : Nat)
  deriving DecidableEq, Repr

/-- One engine of a context (R24); `issues` counts the instructions that it has issued. -/
structure Engine where
  x      : Tab Quad := []
  p      : BitVec 8 := 0
  pc     : Nat := 0
  blk    : Option Blk := none
  visits : List Nat := []
  insts  : Tab Nat := []
  wait   : Wait := .no
  wlen   : Nat := 0
  wid    : Nat := 0
  issues : Nat := 0
  stall  : Option Stall := none
  queue  : Nat := 0
  memq   : Nat := 0
  window : Nat := 0
  arb    : Nat := 0
  deriving DecidableEq, Repr

/-- The bytes a task has written: device memory by device-physical address, and peer scratchpads by
core (R22, R128); its fills of sequence slots by SCB, slot and channel (R279); and the lines of device memory,
and by core the words of peer scratchpads, that one access has written whole (R108, R125). -/
structure Version where
  mem   : List (Nat × Byte) := []
  peer  : Tab (List (Nat × Byte)) := []
  fills : List (Nat × Nat × Nat × BitVec 16) := []
  full  : List Nat := []
  pfull : List (Nat × Nat) := []
  deriving DecidableEq, Repr

/-- A unit of a stream: its index, its vector, the fault that marks it (R214), and of a written unit where C wrote it. -/
structure ZUnit where
  u    : Nat
  val  : Vec := 0
  mark : Option (Code × Nat) := none
  pos  : Pos := {}
  deriving DecidableEq, Repr

/-- A skip that `sadv` has asked for and C has not reached (R213, R217). -/
structure Skip where
  pos : Pos
  n   : Nat
  deriving DecidableEq, Repr

/-- A stream register (R209): what its descriptor gives, its chain, the next unit to fetch, the units taken,
written or skipped, its flags, its buffer, the skips to come, how many instructions the engine that bound it has issued
until it issues what lets the first fetch begin (R219), whether a unit has been fetched or written, and the line parts of the unit
in hand that have been fetched, with their bytes, or stored, each by its place in the unit (R127). -/
structure Stream where
  bound  : Bool := false
  write  : Bool := false
  base   : Nat := 0
  cnt    : List Nat := []
  step   : List Int := []
  scbase : Nat := 0
  scstep : Int := 0
  fmt    : Fmt := .i8s
  global : Bool := false
  record : Bool := false
  scsep  : Bool := false
  nb     : Nat := 0
  rm     : Rm := .rne
  sat    : Bool := false
  ftz    : Bool := false
  chain  : List (BitVec 16) := []
  cursor : Nat := 0
  done   : Nat := 0
  ovr    : Bool := false
  pois   : Bool := false
  buf    : List ZUnit := []
  skips  : List Skip := []
  gate   : Nat := 0
  moved  : Bool := false
  got    : List (Nat × List Byte) := []
  pos    : Pos := {}
  deriving DecidableEq, Repr

/-- The region buffer of X (R181, R182): the line it opened, the snapshot, the bytes marked, and the
clock at which the hold began. -/
structure Alr where
  line  : Nat
  va    : Nat
  snap  : List Byte
  marks : List (Nat × Byte)
  since : Nat
  hold  : Bool
  deriving DecidableEq, Repr

/-- A trap of a task from its clock to its delivery (R333, R340). -/
structure Trap where
  code  : Code
  eng   : Eng
  pc    : Nat
  addr  : Nat
  info  : Nat
  clock : Nat
  halt  : Bool := false
  soft  : Bool := false
  chk   : Bool := false
  defer : Bool := false
  qent  : Bool := false
  save  : Bool := false
  deriving DecidableEq, Repr

/-- The life of a task context. -/
inductive CtxSt where
  | idle
  | run
  | commit (slices : List Nat)     -- all four engines at `tend`; the slices not yet committed (R129)
  | trapped                        -- until the trap is delivered (R334)
  | saving (lwait : Bool)          -- running its save blocks (R348)
  | saved                          -- in shadow storage, or in its area after an `lwait`
  | restoring (lwait : Bool)
  deriving DecidableEq, Repr

/-- An item of a stage queue that a task holds: the storage slot and its runs so far (R21, R337). -/
structure ItemRef where
  slot    : Nat
  attempt : Nat
  deriving DecidableEq, Repr

/-- A claim made by `tret` (R344). -/
structure Claim where
  trapid : Nat
  action : Nat
  deriving DecidableEq, Repr

/-- An item that a task has pushed: its stage, the slot of the stage's storage that is reserved for it, and its bytes
(R321). -/
structure Push where
  stage : Nat
  slot  : Nat
  data  : List Byte
  deriving DecidableEq, Repr

/-- A task context of a control core (R24, R103). -/
structure Ctx where
  st      : CtxSt := .idle
  engs    : Tab Engine := []
  -- the task
  regid   : Nat := 0
  stage   : Nat := 0
  taskid  : Nat := 0
  item    : ItemRef := { slot := 0, attempt := 0 }
  -- lines of its text that were written while it runs, and what they held, oldest first (R47)
  olds    : List (Nat × List Byte) := []
  itemVa  : Nat := 0
  priv    : Bool := false
  part    : Nat := 0
  asid    : Nat := 0
  regp    : Nat := 0
  prio    : Nat := 0
  window  : Nat := 16
  round   : BitVec 3 := 0
  pol     : Bool := false
  poisc   : Nat := 0
  pois    : Bool := false
  resumed : Bool := false
  preq    : Bool := false
  svf     : Nat := 0
  planRole : Nat := 0
  -- registers of C, queues and tokens
  v       : Tab Vec := []
  fd      : Tab (List VecEnt) := []
  dn      : Tab (List VecEnt) := []
  bk      : Tab (List Quad) := []
  xq      : Tab (List Quad) := []
  bq      : Tab (List Bool) := []
  tokLC   : List Tok := []
  tokCS   : List Tok := []
  z       : Tab Stream := []
  -- memory queues
  mq      : List Access := []
  nextId  : Nat := 1
  fwd     : List FwdEnt := []
  ver     : Version := {}
  alr     : Option Alr := none
  seqL    : Nat := 0
  seqS    : Nat := 0
  rings   : Nat := 0
  -- items and lists
  pops    : List ItemRef := []
  pushes  : List Push := []
  apps    : List (Nat × Word56) := []
  takes   : List (Nat × Word56) := []
  claims  : List Claim := []
  attn    : Nat := 0
  -- trap and deadlock
  trap    : Option Trap := none
  dead    : Nat := 0
  -- save and restore
  saveAt  : Nat := 0
  saveVs  : Nat := 0
  saveNv  : Nat := 0
  saveRes : Nat := 0
  saveBad : Nat := 0
  slots   : List Vec := []
  deriving DecidableEq, Repr

/-! ## Cores and translation -/

/-- An SRAM array: the bytes written, and the spans of bytes that hold any value with the draw that
they are taken from (R106). -/
structure Sram where
  cells : Mem := []
  havoc : List (Nat × Nat × Nat) := []
  deriving DecidableEq, Repr

/-- A line of an L1 (R107): its device-physical address, its bytes, the context to which it is private (R130), and
those of its 16 words of 8 bytes that are uncorrectable (R108). -/
structure L1Line where
  line : Nat
  data : List Byte
  priv : Option Nat := none
  bad  : List Nat := []
  deriving DecidableEq, Repr

/-- A translation: partition, ASID, virtual page and its size in bytes, device-physical page,
permissions (R118, R121). -/
structure TlbEnt where
  part : Nat
  asid : Nat
  va   : Nat
  size : Nat
  pa   : Nat
  w    : Bool
  x    : Bool
  deriving DecidableEq, Repr

/-- A request that a miss merges: its context and task, its engine, where the engine stands, and the address (R122);
and whether a command or a stream of the engine made it, which looks again by itself. -/
structure MissReq where
  ctx    : Nat
  taskid : Nat
  eng    : Eng
  pc     : Nat
  va     : Nat
  unit   : Bool := false
  deriving DecidableEq, Repr

/-- An entry of a die's miss table with the requests that wait for it (R122). -/
structure Miss where
  part : Nat
  asid : Nat
  page : Nat
  reqs : List MissReq
  deriving DecidableEq, Repr

/-- A control core (R24, R104): `tagSet` holds the tags set in a clock, `turn` the engines that have been served in a
clock by their place in the order of contexts and engines, the newest first (R24, R162, R185), and `lost` those that have lost
one to another context (R326). -/
structure Core where
  sram   : Sram := {}
  spad   : Nat := 0
  allot  : Nat := 0
  l1     : List L1Line := []
  tlb    : List TlbEnt := []
  tagmap : Quad := 0
  tagSet : Nat × Quad := (0, 0)
  turn   : Option (Nat × List Nat) := none
  lost   : Nat × List Nat := (0, [])
  poison : List Nat := []
  serve  : Option (Nat × Nat) := none      -- region and stage
  join   : Option (Nat × Nat) := none      -- region and stage it is to serve
  split  : List (Nat × Eng × Nat) := []    -- writes of `ctl.split` in order: context, engine, size
  splitting : Bool := false
  ltags  : Tab Nat := []
  deriving DecidableEq, Repr

/-- A task that gave up its context in an `lwait` (R319, R349). -/
structure SavedTask where
  ctx   : Ctx
  child : Nat
  core  : Nat
  done  : Bool := false
  deriving DecidableEq, Repr

/-- A shadow image of a core that a pre-emption swapped out (R351). -/
structure Shadow where
  core  : Core
  ctxs  : List (Nat × Ctx)
  saves : List (Nat × SavedTask)
  deriving DecidableEq, Repr

/-- A line held for a single-line region, and the context that holds it (R182). -/
structure Held where
  line : Nat
  ctx  : Nat
  deriving DecidableEq, Repr

/-! ## Lanes, columns and matrix engines -/

/-- The weight-stream binding of a lane (R228): its column, the address of its window, its geometry, and the
device-physical granules of the window's 8 KiB pages that it reads. -/
structure LaneBind where
  col  : Nat
  va   : Nat
  part : Nat
  asid : Nat
  off  : Nat
  fmt  : Fmt
  nrow : Nat
  rstr : Nat
  nrec : Nat
  pages : List Nat := []
  deriving DecidableEq, Repr

/-- The tile of a lane buffer (R229): its tokens' records one after another. -/
structure Tile where
  t    : Nat
  krec : Nat
  fmt  : Fmt
  data : List Byte
  deriving DecidableEq, Repr

/-- A read word of `laccr` and `lred` (R353). -/
structure ReadWord where
  rdst : Nat
  c0   : Nat
  nc   : Nat
  nt   : Nat
  deriving DecidableEq, Repr

/-- A macro as a lane queue holds it, operands as read at issue (R223, R225). -/
inductive Macro where
  | cfg (rsync pol : Bool)
  | fence (id : Nat)
  | sync (id : Nat) (lanes : List Nat)
  | wst (b : LaneBind) (role : Nat)
  | act (t : Tile)
  | mac (c0 n frow : Nat) (z : Bool)
  | accz
  | accr (w : ReadWord) (fmt : Fmt) (dest : Nat)
  | red (id : Nat) (lanes : List Nat) (w : ReadWord) (fmt : Fmt) (dest : Nat) (ring clr : Bool) (seq : Nat)
      (beds : List Nat)
  deriving DecidableEq, Repr

/-- An entry of an engine queue: the context and the task that pushed it, and the number of its instruction. -/
structure LaneEnt where
  ctx    : Nat
  taskid : Nat
  pos    : Pos
  cmd    : Macro
  id     : Nat := 0
  deriving DecidableEq, Repr

/-- A physical lane (R3, R226-R230): `flight` holds the macros that have issued and have yet to enter its queue, each
context's in issue order (R221). -/
structure Lane where
  q      : List LaneEnt := []
  flight : List LaneEnt := []
  rsync  : Bool := false
  pol    : Bool := false
  bind   : Option LaneBind := none
  tile   : Option Tile := none
  acc    : Tab (BitVec 56) := []
  pois   : List Nat := []
  poisc  : Nat := 0
  done   : Nat := 0
  row    : Nat := 0
  deriving DecidableEq, Repr

/-- A reduction or a readout in progress: what each lane has handed to it (R231), and for the ring the beds that take part, each
as 8 × its role + the bed, in role order (R354, R355). -/
structure Reduce where
  ctx    : Nat
  taskid : Nat
  pos    : Pos
  id     : Nat
  lanes  : List Nat
  got    : List (Nat × List (BitVec 56 × Bool) × Bool)   -- lane, its cells, whether it was discarded
  ords   : List (Nat × Nat) := []                        -- lane, its place among the deliveries that the lane has handed over
  w      : ReadWord
  fmt    : Fmt
  dest   : Nat
  ring   : Bool
  seq    : Nat
  beds   : List Nat
  deriving DecidableEq, Repr

/-- A layout word (R243). -/
structure Layout where
  span : Nat := 0
  rstr : Nat := 16
  base : Nat := 0
  deriving DecidableEq, Repr

/-- The unfold register (R244). -/
structure Unfold where
  w : Nat
  h : Nat
  ow : Nat
  crec : Nat
  pw : Nat
  ph : Nat
  dw : Nat
  dh : Nat
  sw : Nat
  sh : Nat
  kw : Nat
  kh : Nat
  deriving DecidableEq, Repr

/-- A matrix command (R241), operands as read at issue. -/
inductive MCmd where
  | lay (k : Nat) (l : Layout) (stamp : Option (Nat × Nat))
  | unf (u : Option Unfold)
  | ld (k : Nat) (va stride : Nat) (nr rowd nb : Nat)
  | mul (t : Nat) (unf : Bool) (m row0 : Nat) (fa : Fmt) (rawa : Bool) (la : Nat)
      (krec kfirst : Nat) (fb : Fmt) (rawb : Bool) (lb : Nat)
  | drn (t : Nat) (g : Bool) (dest dstr m0 m : Nat) (fd : Option Fmt) (clr : Bool) (rm : Rm) (sat ftz : Bool)
  | zero (t : Nat) (mode : TMode)
  deriving DecidableEq, Repr

/-- An entry of a matrix command queue. -/
structure MatEnt where
  ctx    : Nat
  taskid : Nat
  pos    : Pos
  pol    : Bool
  part   : Nat
  asid   : Nat
  wsem   : Option Nat
  ssem   : Option Nat
  cmd    : MCmd
  begun  : Bool := false
  row    : Nat := 0
  deriving DecidableEq, Repr

/-- A matrix tile (R240): cells by row and column, MODE, and the unit Q as a power of two. -/
structure MTile where
  cells : Tab (BitVec 56) := []
  mode  : TMode := .float
  q     : Option Int := none
  deriving DecidableEq, Repr

/-- The matrix engine of a hub cluster (R240, R247). -/
structure Matrix where
  tiles  : Tab MTile := []
  layout : Tab Layout := []
  unfold : Option Unfold := none
  sems   : Tab Nat := []
  layc   : Nat := 0
  fmtc   : Nat := 0
  poisc  : Nat := 0
  done   : Nat := 0
  q      : List MatEnt := []
  stopped : Bool := false
  deriving DecidableEq, Repr

/-- A physical column (R3, R234-R238, R306-R310): its plan and cap, with those that its next frame boundary brings;
the frame that it is in, the next slot of it, the lane slots and the general slots used and the rows moved for its lane's
`lmac`; its retraining; its banks asleep, those of them that an access is waking, the bank to refresh; its layers, the lines
that needed correction in each in the patrol's pass, those that a read had to correct, each with the layers, until a
maintenance slot counts them and writes them back, and the place of the patrol; its drain. -/
structure Column where
  lslots   : Nat := 24
  plan     : Option Nat := none
  capk     : Nat := 30
  capNext  : Option Nat := none
  frame    : Nat := 0
  slot     : Nat := 0
  laneUsed : Nat := 0
  genUsed  : Nat := 0
  rows     : Nat := 0
  due      : Nat := 32000000
  owed     : Option Nat := none
  force    : Bool := false
  retr     : Bool := false
  retrEnd  : Nat := 0
  sleep    : List Nat := []
  waking   : List Nat := []
  refresh  : Nat := 0
  erased   : Option Nat := none
  lost     : Bool := false
  corr     : Tab (List Nat) := []
  fixes    : List (Nat × List Nat) := []
  patrol   : Nat := 0
  drain    : Bool := false
  target   : Option Nat := none
  place    : Option Nat := none
  retired  : Bool := false
  deriving DecidableEq, Repr

/-- What a deferred fault comes from (R106, R224, R261, R291). -/
inductive DUnit where
  | lane (n : Nat) | mat (n : Nat) | xl | xs | attn (tag : Option Nat)
  deriving DecidableEq, Repr

/-- A deferred fault of a task. -/
structure Deferred where
  ctx    : Nat
  taskid : Nat
  unit   : DUnit
  code   : Code
  addr   : Nat
  info   : Nat
  tag    : Option Nat := none
  deriving DecidableEq, Repr

/-! ## Sequences -/

/-- An extent of a sequence: pages BASE + j × STRIDE of a block of a bed's pool (R275). -/
structure Extent where
  base  : Nat
  npg   : Nat
  bed   : Nat
  block : Nat
  deriving DecidableEq, Repr

/-- The state of a slot that is reserved, tentative or committed (R277). -/
inductive SlotSt where
  | reserved | tentative | committed | voided
  deriving DecidableEq, Repr

/-- A slot between its reservation and its publication: index, state, and the task that owns it. -/
structure SlotRec where
  i     : Nat
  st    : SlotSt
  owner : Nat
  deriving DecidableEq, Repr

/-- A sequence (R269, R270, R275). The stage and the window ring hold BF16 channels by slot; `gone` holds the
slots that a task has withdrawn while it runs: first, count, task (R279). -/
structure Seq where
  live   : Bool := false
  va     : Nat := 0
  part   : Nat := 0
  asid   : Nat := 0
  len    : Nat := 0
  cur    : Nat := 0
  tbase  : Nat := 0
  tcnt   : Nat := 0
  tact   : Bool := false
  towner : Nat := 0
  pin    : Nat := 0
  w      : Nat := 0
  fmt    : BitVec 6 := 0
  slg    : Nat := 0
  b      : Nat := 0
  ext    : List Extent := []
  frozen : Bool := false
  side   : Nat := 0
  sideBlock : Nat := 0
  parent : Nat := 0
  forkl  : Nat := 0
  bed    : Nat := 0
  scales : List (BitVec 32) := []
  stage  : Tab (List (BitVec 16)) := []
  ring   : Tab (List (BitVec 16)) := []
  slots  : List SlotRec := []
  gone   : List (Nat × Nat × Nat) := []
  attn   : Nat := 0
  deriving DecidableEq, Repr

/-- The buddy allocator of a bed's pool in one partition (R274): free blocks by order, blocks in use
with their order and reference count, share counts and void masks by page. -/
structure Pool where
  first  : Nat := 0
  pages  : Nat := 0
  stride : Nat := 1
  free   : List (Nat × Nat) := []
  used   : List (Nat × Nat × Nat) := []
  share  : Tab Nat := []
  voids  : Tab (List Nat) := []
  deriving DecidableEq, Repr

/-- An attention in flight (R289-R291). -/
structure Attn where
  ctx    : Nat
  taskid : Nat
  core   : Nat
  scb    : Nat
  desc   : List Byte
  query  : List Byte
  ten    : Bool
  tag    : Nat
  pol    : Bool
  len    : Nat
  live   : Bool
  status : Nat
  pos    : Pos
  deriving DecidableEq, Repr

/-- An entry of a prefix table (R292). -/
structure PfxEnt where
  hash   : Quad
  depth  : Nat
  handle : Nat
  scb    : Nat
  base   : Nat
  pins   : Nat
  deriving DecidableEq, Repr

/-! ## Compressed memory -/

/-- An entry of the compression page map, with the worst-case accounting of its granule (R299, R301). -/
structure Granule where
  bed      : Nat
  col      : Nat
  raw      : Bool
  part     : Nat := 0
  nch      : Nat := 0
  chunks   : List Nat := []
  codes    : List Nat := []
  pin      : Bool := false
  reserved : List Nat := []
  balloon  : Bool := false
  copying  : Option (Nat × Bool) := none
  tried    : Option Nat := none
  deriving DecidableEq, Repr

/-- A write that waits for headroom: who writes, the granule, its line, when it arrived (R303), and the address that a
SPACE of the write names (R304, R340). -/
structure SpaceWait where
  ctx     : Option (Nat × Eng)
  id      : Nat
  granule : Nat
  line    : Nat
  slice   : Nat
  since   : Nat
  va      : Nat := 0
  deriving DecidableEq, Repr

/-- An error arrival of a command that has left its queue, on a barrier whose line it could not reach yet (R189, R264):
its number, the partition, and the address of the barrier. -/
structure Arrival where
  id   : Nat
  part : Nat
  pa   : Nat
  deriving DecidableEq, Repr

/-! ## Regions -/

/-- The fields of a region control block (R14). -/
structure Rcb where
  sigaddr : Nat := 0
  craddr  : Nat := 0
  stagetbl : Nat := 0
  code    : Nat := 0
  plstore : Nat := 0
  trellis : Nat := 0
  cores   : Nat := 0
  lanes   : Nat := 0
  sram    : Nat := 0
  vways   : Nat := 0
  lslots  : Nat := 0
  plse    : Nat := 0
  vlines  : Nat := 0
  prio    : Nat := 0
  fdom    : Nat := 0
  inherit : Nat := 0
  deriving DecidableEq, Repr

/-- A stage descriptor (R18). -/
structure Stage where
  qbase   : Nat := 0
  entry   : Nat := 0
  depth   : Nat := 0
  outmask : Nat := 0
  item    : Nat := 0
  min     : Nat := 0
  max     : Nat := 0
  low     : Nat := 0
  high    : Nat := 0
  win     : Nat := 0
  deriving DecidableEq, Repr

/-- The state of an entry of a stage queue (R21, R334). -/
inductive ItemSt where
  | published
  | running (ctx : Nat)
  | held (trapid : Nat)
  deriving DecidableEq, Repr

/-- An entry of a stage queue: its storage slot, ATTEMPT, and state. -/
structure QItem where
  slot    : Nat
  attempt : Nat
  st      : ItemSt
  deriving DecidableEq, Repr

/-- A binding request of a group (R313). -/
structure GroupReq where
  wbase   : Nat := 0
  ncore   : Nat := 0
  nlane   : Nat := 0
  ncol    : Nat := 0
  nslice  : Nat := 0
  nbed    : Nat := 0
  nmat    : Nat := 0
  bedmask : Nat := 0
  coreloc : Nat := 0
  lbed    : Bool := false
  deriving DecidableEq, Repr

/-- A section of a code object (R368). -/
structure Sect where
  kind : Nat
  kern : Nat
  var  : Nat
  off  : Nat
  len  : Nat
  feat : Nat
  deriving DecidableEq, Repr

/-- The text that a launch runs: a native section with its table, or a Malig section to translate (R371). -/
inductive TextSel where
  | native (t : Sect) (table : List Byte)
  | malig (bs : List Byte)
  deriving DecidableEq, Repr

/-- What the scheduler has read for a launch before its launch waits to be admitted (R14, R312). -/
structure Plan where
  raw    : Nat                 -- the control block as memory held it
  rcb    : Rcb
  stages : List Stage
  groups : List GroupReq
  base   : Nat
  text   : TextSel
  dataVa : Nat
  header : List Byte
  sects  : List Sect
  table  : List Byte           -- the group table of the code object
  held   : List TlbEnt
  deriving DecidableEq, Repr

/-- A launch that has been asked for (R311, R317): its entry of the pending store, and what the scheduler has read for it. -/
structure Launch where
  regid  : Nat
  rcb    : Nat
  seed   : Nat
  part   : Nat
  asid   : Nat
  parent : Option Nat
  tag    : Nat
  priv   : Bool
  since  : Nat
  rise   : Nat := 0
  riseAt : Nat := 0
  top    : Option Nat := none
  entry  : Nat := 0
  plan   : Option Plan := none
  deriving DecidableEq, Repr

/-- A trap that has not been answered (R339, R344). -/
structure Unanswered where
  trapid : Nat
  record : List Byte
  queued : Bool
  claim  : Option Nat := none
  deriving DecidableEq, Repr

/-- A yield-table entry (R369). -/
structure YieldEnt where
  ypc     : Nat
  save    : Nat
  restore : Nat
  nv      : Nat
  deriving DecidableEq, Repr

/-- A child of a region that has completed and has not been reaped (R319). -/
structure ChildEnd where
  regid  : Nat
  status : Nat
  faults : Nat
  deriving DecidableEq, Repr

/-- A region from its admission to its completion (R14-R21, R312-R330). -/
structure Region where
  regid    : Nat := 0
  live     : Bool := false
  parent   : Option Nat := none
  part     : Nat := 0
  asid     : Nat := 0
  priv     : Bool := false
  hostTag  : Option Nat := none
  tplVa    : Nat := 0
  rcb      : Rcb := {}
  -- the entry of the fault domain table, as it stood at admission (R338, R379)
  domain   : BitVec 16 := 0xF300
  -- the salt of its partition's prefix table, as it stood at admission (R293, R379)
  salt     : BitVec 256 := 0
  -- the unallotted part of each budget that the region has of its own, by its bit of INHERIT (R16)
  pools    : Tab Nat := []
  cores    : List Nat := []
  groups   : List GroupReq := []
  trellis  : List GroupBind := []
  stages   : List Stage := []
  queues   : Tab (List QItem) := []
  reserved : Tab Nat := []
  lists    : Tab (List Word56) := []
  listRes  : Tab Nat := []
  launchq  : List Launch := []
  pending  : List Launch := []
  plHead   : Nat := 0
  children : List Nat := []
  ends     : List ChildEnd := []
  saved    : List SavedTask := []
  traps    : List Unanswered := []
  textVa   : Nat := 0
  textLen  : Nat := 0
  dataVa   : Nat := 0
  textBytes : Option (List Byte) := none
  yields   : List YieldEnt := []
  held     : List TlbEnt := []
  lastBal  : Nat := 0
  empty    : List Nat := []
  coreWait : Option (Nat × Nat) := none
  quiet    : Bool := false
  aborting : Bool := false
  -- counts of the completion record (R330)
  tstart   : Nat := 0
  tend     : Nat := 0
  tasks    : Nat := 0
  vdisc    : Nat := 0
  faults   : Nat := 0
  fcode    : Nat := 0
  feng     : Nat := 0
  child    : Nat := 0
  lbusy    : Nat := 0
  trapSeq  : Nat := 0
  deriving DecidableEq, Repr

/-! ## Partitions, host and service -/

/-- A partition record in force (R378). -/
structure PartRec where
  version  : Nat := 0
  limit    : Nat := 0
  low      : Nat := 0
  crit     : Nat := 0
  fdom     : List (BitVec 16) := []
  signed   : Bool := false
  tenant   : Nat := 0
  salt     : BitVec 256 := 0
  cores    : BitVec 96 := 0
  defaults : LaunchDefaults := {}
  digest   : BitVec 256 := 0
  deriving DecidableEq, Repr

/-- A registered region or an outbound target (R361, R363). -/
structure Window where
  base : Nat := 0
  len  : Nat := 0
  rkey : Nat := 0
  asid : Nat := 0
  qp   : Nat := 0
  w    : Bool := false
  r    : Bool := false
  deriving DecidableEq, Repr

/-- An entry of the Idust cache (R375): its key, what the translation gave, the clock of its last use, and the chunks
that it occupies. -/
structure IdustEnt where
  tenant : Nat
  digest : List Byte
  feat   : List (BitVec 32)
  version : BitVec 32
  used   : Nat := 0
  chunks : Nat := 0
  result : Option (List Byte × List Byte)
  ready  : Bool
  since  : Nat
  malig  : List Byte
  deriving DecidableEq, Repr

/-- The pre-emption of a partition (R345, R346). -/
structure Preempt where
  since   : Nat
  acks    : List StopUnit
  stopped : Bool
  deriving DecidableEq, Repr

/-- A partition. -/
structure Partition where
  record   : Option PartRec := none
  free     : Nat := 0
  rsv      : Nat := 0
  held     : Nat := 0
  limit    : Nat := 0
  spc      : Nat := 0
  lowArm   : Bool := true
  critArm  : Bool := true
  above    : Bool := true
  rises    : Nat := 0
  balloon  : List Nat := []
  waits    : List SpaceWait := []
  launches : List Launch := []
  prefixes : Tab PfxEnt := []
  recency  : List Nat := []
  salt     : BitVec 256 := 0
  inbound  : Tab Window := []
  outbound : Tab Window := []
  idust    : List IdustEnt := []
  verified : List (List Byte) := []
  preempt  : Option Preempt := none
  shadow   : List (Nat × Shadow) := []
  shLanes  : List (Nat × Lane) := []
  shMats   : List (Nat × Matrix) := []
  swapped  : Bool := false
  deriving DecidableEq, Repr

/-- A queue pair (R360, R364): its error state, the line parts of an inbound write that have yet to perform, and how
often a congestion notification has lowered its sending rate. -/
structure Qp where
  error : Bool := false
  pend  : List (Nat × List Byte) := []
  rate  : Nat := 0
  retries : Nat := 0
  deriving DecidableEq, Repr

/-- An Ethernet port (R359, R381): the frames that it dropped, its paused priorities, the clock until which it is
retrained. -/
structure Port where
  dropped : Nat := 0
  paused  : List Nat := []
  retrain : Nat := 0
  deriving DecidableEq, Repr

/-- A link inside the package (R352, R365). -/
structure Link where
  replays : Nat := 0
  repairs : Nat := 0
  deriving DecidableEq, Repr

/-- The images of a unit (R376, R380): the two slots, which one runs, the clock of a switch whose self-test may still
fail, whether a checked new image waits in the slot that does not run, and of the column controllers, which share one image, the
columns that have yet to follow a switch. -/
structure FwSlot where
  a      : Option Image := none
  b      : Option Image := none
  runB   : Bool := false
  trial  : Option Nat := none
  loaded : Bool := false
  behind : List Nat := []
  deriving DecidableEq, Repr

/-- A device record (R378): its version, the ring mode, the port modes, the operator key, and the digest of the record. -/
structure DevRec where
  version : Nat
  ring4   : Bool
  ports   : List Bool
  key     : List Byte
  digest  : BitVec 256
  deriving DecidableEq, Repr

/-- A bed's binding of columns, by the place that each has in the clusters (R3, R111), and its power control (R384): the
cap in milliwatts, the next sample, the clock since which power has been low, the columns whose caps were lowered,
newest first, and whether the bed runs at 3 GHz. -/
structure Bed where
  bound  : List Nat := List.range 64
  cap    : Nat := 100000
  sample : Nat := 40000
  below  : Option Nat := none
  lower  : List Nat := []
  slow   : Bool := false
  deriving DecidableEq, Repr

/-- An event record of a black box (R382). -/
structure BoxRec where
  clock : BitVec 64
  code  : BitVec 8
  die   : BitVec 4
  part  : BitVec 4
  unit  : BitVec 16
  dev   : Bool
  addr  : BitVec 64
  data  : BitVec 64
  deriving DecidableEq, Repr

/-- A message that the device sends: a reply, a notification, or data on the wire. -/
inductive Msg where
  | reply (part : Nat) (status : Nat) (value : Nat)
  | report (part status : Nat) (bytes : List Byte)
  | lowmark (part : Nat)
  | critmark (part : Nat)
  | complete (part regid tag status : Nat)
  | attest (part : Nat) (bytes : List Byte) (key sig : List Byte)
  | rdma (part qp : Nat) (rkey va : Nat) (data : List Byte)
  | rread (part qp : Nat) (rkey va len : Nat)
  | ack (qp : Nat) (data : List Byte)
  | nak (qp : Nat) (operational : Bool)
  | nakInvalid (qp : Nat)
  | qpError (part qp : Nat)
  | retired (bed : Nat)
  | saveFailed (part core ctx : Nat)
  | box (part die : Nat) (dump : Option Nat) (bytes : List Byte)
  deriving DecidableEq, Repr

/-! ## The schedule -/

/-- Where an event of the device falls, as the schedule chooses it. Each event's meaning says which of
these fields it reads. -/
structure EvArgs where
  core   : Nat := 0
  ctx    : Nat := 0
  eng    : Eng := .x
  a      : Nat := 0
  b      : Nat := 0
  c      : Nat := 0
  d      : Nat := 0
  flag   : Bool := false
  bytes  : List Byte := []
  bind   : Binding := {}
  scrub  : Scrub := .patrol
  stop   : StopUnit := .lane 0
  opt    : Option Nat := none
  nonce  : BitVec 256 := 0
  record : Option ConfigRecord := none
  unit   : FwUnit := .security
  image  : Option Image := none
  deriving DecidableEq, Repr

/-- What the partition firmware does to the state of a partition by means that the manual leaves to it
(R111, R115, R118, R120, R274, R299, R331, R361, R363). -/
inductive FwAct where
  | write (pa : Nat) (bytes : List Byte)
  | root (part asid pa : Nat)
  | map (granule part bed col : Nat) (raw pin : Bool)
  | unmap (granule : Nat)
  | pin (granule : Nat) (on : Bool)
  | pool (part bed first pages stride : Nat)
  | inbound (part i : Nat) (w : Window)
  | outbound (part i : Nat) (w : Window)
  | chunks (bed n : Nat)
  | own (part bed n : Nat)
  | cap (bed mw : Nat)
  | launch (l : Launch)
  | watch (core ctx : Nat) (eng : Eng) (addr : Nat)
  deriving DecidableEq, Repr

/-- What happens in one step. -/
inductive Action where
  | engine (core ctx : Nat) (eng : Eng) (hold : Bool)
  | perform (core ctx id part : Nat)
  | arb (core ctx : Nat) (eng : Eng)
  | event (i : Instr) (a : EvArgs)
  | badWord (core word : Nat)
  | badLine (line layer byte : Nat)
  | linkFail (bed col layer : Nat)
  | evictL1 (core line : Nat)
  | laneEnter (lane core ctx : Nat)
  | arrive (id : Nat)
  | badRequest (qp : Nat)
  | readBox (part die : Nat) (dump : Option Nat)
  | firmware (f : FwAct)
  deriving DecidableEq, Repr, Inhabited

/-- One entry of the agenda: what happens, the clocks that pass before it, and the choice that it makes
among the outcomes that the manual permits. -/
structure Slot where
  act     : Action
  elapsed : Nat := 1
  pick    : Nat := 0
  deriving DecidableEq, Repr, Inhabited

/-- What the step in progress works on. -/
structure Issue where
  core : Nat := 0
  ctx  : Nat := 0
  eng  : Eng := .x
  hold : Bool := false
  len  : Nat := 0
  pick : Nat := 0
  ev   : EvArgs := {}
  deriving DecidableEq, Repr

/-- The machine. -/
structure State where
  -- the model's own fields
  agenda : List Slot := []
  draws  : Nat := 0
  cur    : Issue := {}
  -- time and memory
  clock  : Nat := 0
  mem    : Mem := []
  poison : List Nat := []
  errs   : Tab (List (Nat × Nat)) := []    -- the bytes of stored lines in error: layer, and byte of its symbol (R306)
  l2     : List Nat := []      -- the lines of device memory that the L2 caches (R109)
  dirty  : List Nat := []      -- those of them to be written back (R302)
  grans  : Tab Granule := []
  roots  : Tab Nat := []
  ctlb   : Tab (List TlbEnt) := []
  dtlb   : Tab (List TlbEnt) := []
  miss   : Tab (List Miss) := []
  held   : List Held := []
  alrq   : List Held := []
  -- units
  cores  : Tab Core := []
  ctxs   : Tab Ctx := []
  saves  : Tab SavedTask := []
  lanes  : Tab Lane := []
  cols   : Tab Column := []
  mats   : Tab Matrix := []
  beds   : Tab Bed := []
  reds   : List Reduce := []
  defers : List Deferred := []
  arrivals : List Arrival := []
  xturn  : Tab Nat := []       -- by transfer engine, the queue that it served last (R250)
  -- sequences
  seqs   : Tab Seq := []
  pools  : Tab Pool := []
  attns  : List Attn := []
  -- regions
  regions  : Tab Region := []
  nextReg  : Nat := 1
  nextTask : Nat := 1
  parts    : Tab Partition := []
  devPool  : Tab Nat := []
  -- host and service
  qps    : Tab Qp := []
  ports  : Tab Port := []
  links  : Tab Link := []
  out    : List Msg := []
  booted : Bool := false
  recovery : Bool := false
  measure : BitVec 256 := 0
  mlog   : List (Nat × BitVec 256) := []
  images : Tab FwSlot := []
  devRec : Option DevRec := none
  devNow : Option DevRec := none
  firstRec : Option (BitVec 256) := none
  box    : Tab (List BoxRec) := []
  dumps  : List (Tab (List BoxRec)) := []
  fatal  : Option (Nat × Nat) := none
  deriving DecidableEq, Repr

/-- The machine right after reset: every field as the manual gives it for reset, and where it gives none
as the assumption log says (rows 1, 3, 4). -/
def State.reset : State := {}

end Sys2Proof.Machine

namespace Sys2Proof.Config

/-- What happens in a step of which the agenda of the state says nothing: the schedule of the engines, of the accesses
and of the device's events, of which the manual fixes bounds and orders alone. -/
opaque nextSlot (n : Nat) : Sys2Proof.Machine.Slot

end Sys2Proof.Config
end

