-- ==== Sys2Proof/Machine/Ops.lean ====
section
/-! DEFINITION. The named operations over the state: contexts, engines, registers, queues, tokens, the walk
of the text, taking a trap, and the events that a black box records. -/

namespace Sys2Proof.Machine

/-! ## Contexts and engines -/

/-- The index of an engine (R43, R44). -/
def engIdx : Eng → Nat
  | .x => 0 | .l => 1 | .c => 2 | .s => 3

/-- The engines in the order X, L, C, S (R333). -/
def allEngs : List Eng := [.x, .l, .c, .s]

/-- The key of a context: four to a core (R24). -/
def ctxKey (core ctx : Nat) : Nat := 4 * core + ctx

/-- A context of the machine. -/
def State.ctx (s : State) (k : Nat) : Ctx := tget {} s.ctxs k
/-- The machine with a context replaced. -/
def State.setCtx (s : State) (k : Nat) (c : Ctx) : State := { s with ctxs := tput s.ctxs k c }
/-- The machine with a context changed. -/
def State.modCtx (s : State) (k : Nat) (f : Ctx → Ctx) : State := s.setCtx k (f (s.ctx k))
/-- A core of the machine. -/
def State.core (s : State) (k : Nat) : Core := tget {} s.cores k
/-- The machine with a core replaced. -/
def State.setCore (s : State) (k : Nat) (c : Core) : State := { s with cores := tput s.cores k c }
/-- The machine with a core changed. -/
def State.modCore (s : State) (k : Nat) (f : Core → Core) : State := s.setCore k (f (s.core k))
/-- A region by its REGID. -/
def State.region (s : State) (r : Nat) : Region := tget {} s.regions r
/-- The machine with a region changed. -/
def State.modRegion (s : State) (r : Nat) (f : Region → Region) : State :=
  { s with regions := tput s.regions r (f (s.region r)) }
/-- A partition. -/
def State.partn (s : State) (p : Nat) : Partition := tget {} s.parts p
/-- The machine with a partition changed. -/
def State.modPart (s : State) (p : Nat) (f : Partition → Partition) : State :=
  { s with parts := tput s.parts p (f (s.partn p)) }
/-- An engine of a context. -/
def Ctx.eng (c : Ctx) (e : Eng) : Engine := tget {} c.engs (engIdx e)
/-- A context with an engine replaced. -/
def Ctx.setEng (c : Ctx) (e : Eng) (v : Engine) : Ctx := { c with engs := tput c.engs (engIdx e) v }
/-- A context with an engine changed. -/
def Ctx.modEng (c : Ctx) (e : Eng) (f : Engine → Engine) : Ctx := c.setEng e (f (c.eng e))
/-- The key of the context in execution. -/
def State.me (s : State) : Nat := ctxKey s.cur.core s.cur.ctx
/-- The context in execution. -/
def State.cc (s : State) : Ctx := s.ctx s.me
/-- The engine in execution. -/
def State.ce (s : State) : Engine := s.cc.eng s.cur.eng
/-- The machine with the context in execution changed. -/
def State.modMe (s : State) (f : Ctx → Ctx) : State := s.modCtx s.me f
/-- The machine with the engine in execution changed. -/
def State.modCe (s : State) (f : Engine → Engine) : State := s.modMe fun c => c.modEng s.cur.eng f
/-- The region of the task in execution. -/
def State.cr (s : State) : Region := s.region s.cc.regid
/-- A message that the device sends. -/
def State.send (s : State) (m : Msg) : State := { s with out := s.out ++ [m] }

/-- A fresh number for a free value, and the machine after it is drawn. -/
def State.draw (s : State) : Nat × State := (s.draws, { s with draws := s.draws + 1 })

/-! ## Registers -/

/-- The value of an x register of an engine: `x0` reads zero (R145). -/
def Engine.rx (e : Engine) (r : Reg) : Quad := if r = 0 then 0 else tget 0 e.x r.toNat
/-- The engine with an x register written; a write to `x0` is discarded (R53, R145). -/
def Engine.wx (e : Engine) (r : Reg) (v : Quad) : Engine :=
  if r = 0 then e else { e with x := tput e.x r.toNat v }
/-- The value of an x register of the engine in execution. -/
def State.rx (s : State) (r : Reg) : Quad := s.ce.rx r
/-- The machine with an x register of the engine in execution written. -/
def State.wx (s : State) (r : Reg) (v : Quad) : State := s.modCe fun e => e.wx r v
/-- A predicate of the engine in execution (R24). -/
def State.rp (s : State) (n : BitVec 3) : Bool := s.ce.p.getLsbD n.toNat
/-- The machine with a predicate of the engine in execution written. -/
def State.wp (s : State) (n : BitVec 3) (b : Bool) : State :=
  s.modCe fun e => { e with p := if b then e.p ||| (1#8 <<< n.toNat) else e.p &&& ~~~(1#8 <<< n.toNat) }
/-- A v register of the context in execution. -/
def State.rv (s : State) (n : BitVec 6) : Vec := tget 0 s.cc.v n.toNat
/-- The machine with a v register of the context in execution written. -/
def State.wv (s : State) (n : BitVec 6) (v : Vec) : State :=
  s.modMe fun c => { c with v := tput c.v n.toNat v }

/-- The result quad of R271: STATUS in bits 63:56, VALUE in bits 55:0. -/
def resultQuad (status value : Nat) : Quad := quadN (status * 2 ^ 56 + value % 2 ^ 56)

/-! ## Queues between engines -/

/-- A queue at the end where an instruction names it (R29). -/
inductive QEnd where
  | fd (n : Nat) | dn (n : Nat) | bk (n : Nat) | xq (e : Eng) | bq (e : Eng)
  deriving DecidableEq, Repr

/-- The entries of each queue (R29). -/
def queueDepth : QEnd → Nat
  | .fd _ | .dn _ => 16
  | .bk _ | .xq _ => 8
  | .bq _ => 16

/-- The entries a queue holds, places taken by loads in flight included. -/
def Ctx.queueLen (c : Ctx) : QEnd → Nat
  | .fd n => (tget [] c.fd n).length
  | .dn n => (tget [] c.dn n).length
  | .bk n => (tget [] c.bk n).length
  | .xq e => (tget [] c.xq (engIdx e)).length
  | .bq e => (tget [] c.bq (engIdx e)).length

/-- The oldest entry of the queue is there to be popped. -/
def Ctx.queueReady (c : Ctx) : QEnd → Bool
  | .fd n => match tget [] c.fd n with | [] => false | h :: _ => h.pend.isNone
  | .dn n => match tget [] c.dn n with | [] => false | h :: _ => h.pend.isNone
  | q => decide (0 < c.queueLen q)

/-- The queue has room for one entry (R30). -/
def Ctx.queueRoom (c : Ctx) (q : QEnd) : Bool := decide (c.queueLen q < queueDepth q)

/-- The context with the oldest entry of a queue dropped. -/
def Ctx.popQueue (c : Ctx) : QEnd → Ctx
  | .fd n => { c with fd := tput c.fd n (tget [] c.fd n).tail }
  | .dn n => { c with dn := tput c.dn n (tget [] c.dn n).tail }
  | .bk n => { c with bk := tput c.bk n (tget [] c.bk n).tail }
  | .xq e => { c with xq := tput c.xq (engIdx e) (tget [] c.xq (engIdx e)).tail }
  | .bq e => { c with bq := tput c.bq (engIdx e) (tget [] c.bq (engIdx e)).tail }

/-- The oldest vector of an `fd` queue. -/
def Ctx.peekFd (c : Ctx) (n : Nat) : Vec := ((tget [] c.fd n).headD {}).val
/-- The oldest vector of a `dn` queue. -/
def Ctx.peekDn (c : Ctx) (n : Nat) : Vec := ((tget [] c.dn n).headD {}).val
/-- The oldest entry of a `bk` queue. -/
def Ctx.peekBk (c : Ctx) (n : Nat) : Quad := (tget [] c.bk n).headD 0
/-- The oldest entry of an `xq` queue. -/
def Ctx.peekXq (c : Ctx) (e : Eng) : Quad := (tget [] c.xq (engIdx e)).headD 0
/-- The oldest outcome of a `bq` queue. -/
def Ctx.peekBq (c : Ctx) (e : Eng) : Bool := (tget [] c.bq (engIdx e)).headD false

/-- A place at the end of an `fd` queue for the load `id` (R30). -/
def Ctx.reserveFd (c : Ctx) (n id : Nat) : Ctx :=
  { c with fd := tput c.fd n (tget [] c.fd n ++ [{ pend := some id }]) }
/-- The place of a load in an `fd` queue filled. -/
def Ctx.fillFd (c : Ctx) (n id : Nat) (v : Vec) : Ctx :=
  { c with fd := tput c.fd n ((tget [] c.fd n).map fun e => if e.pend = some id then { val := v } else e) }
/-- A vector pushed into a `dn` queue. -/
def Ctx.pushDn (c : Ctx) (n : Nat) (v : Vec) : Ctx :=
  { c with dn := tput c.dn n (tget [] c.dn n ++ [{ val := v }]) }
/-- An entry pushed into a `bk` queue. -/
def Ctx.pushBk (c : Ctx) (n : Nat) (v : Quad) : Ctx := { c with bk := tput c.bk n (tget [] c.bk n ++ [v]) }
/-- An entry pushed into an `xq` queue. -/
def Ctx.pushXq (c : Ctx) (e : Eng) (v : Quad) : Ctx :=
  { c with xq := tput c.xq (engIdx e) (tget [] c.xq (engIdx e) ++ [v]) }
/-- An outcome pushed into a `bq` queue. -/
def Ctx.pushBq (c : Ctx) (e : Eng) (b : Bool) : Ctx :=
  { c with bq := tput c.bq (engIdx e) (tget [] c.bq (engIdx e) ++ [b]) }

/-- The zero entry that a guarded-off instruction pushes (R60). -/
def Ctx.pushZero (c : Ctx) : QEnd → Ctx
  | .fd n => { c with fd := tput c.fd n (tget [] c.fd n ++ [{}]) }
  | .dn n => c.pushDn n 0
  | .bk n => c.pushBk n 0
  | .xq e => c.pushXq e 0
  | .bq e => c.pushBq e false

/-- Every architectural queue and token FIFO of the context is empty (R23). -/
def Ctx.queuesEmpty (c : Ctx) : Bool :=
  c.fd.all (fun p => p.2.isEmpty) && c.dn.all (fun p => p.2.isEmpty) && c.bk.all (fun p => p.2.isEmpty) &&
  c.xq.all (fun p => p.2.isEmpty) && c.bq.all (fun p => p.2.isEmpty) && c.tokLC.isEmpty && c.tokCS.isEmpty

/-! ## Tokens -/

/-- The token FIFO between an engine and its lower or upper neighbour; X has none (R31, R49). -/
def Ctx.fifo (c : Ctx) (e : Eng) (upper : Bool) : List Tok :=
  match e, upper with
  | .l, true | .c, false => c.tokLC
  | .c, true | .s, false => c.tokCS
  | _, _ => []

/-- The context with a token FIFO replaced. -/
def Ctx.setFifo (c : Ctx) (e : Eng) (upper : Bool) (t : List Tok) : Ctx :=
  match e, upper with
  | .l, true | .c, false => { c with tokLC := t }
  | .c, true | .s, false => { c with tokCS := t }
  | _, _ => c

/-- The tokens that have entered a FIFO: those before the first place still waiting for its token (R31). -/
def enteredToks (t : List Tok) : List Tok := takeUntil (fun x => !x.ready) t

/-- A token that the other end pushed is there to be taken. An engine that looks up takes the tokens of its
upper neighbour. -/
def Ctx.tokThere (c : Ctx) (e : Eng) (upper : Bool) : Bool :=
  (enteredToks (c.fifo e upper)).any fun t => t.upper == upper

/-- The context with the oldest token of the other end taken. -/
def Ctx.tokTake (c : Ctx) (e : Eng) (upper : Bool) : Ctx :=
  c.setFifo e upper (eraseFirst (fun t => t.upper == upper && t.ready) (c.fifo e upper))

/-- The FIFO has a place left (R31). -/
def Ctx.tokRoom (c : Ctx) (e : Eng) (upper : Bool) : Bool := decide ((c.fifo e upper).length < 8)

/-- The context with a place reserved for a token that the engine pushes toward a neighbour. -/
def Ctx.tokReserve (c : Ctx) (e : Eng) (upper : Bool) (id : Nat) : Ctx :=
  c.setFifo e upper (c.fifo e upper ++ [{ upper := !upper, id := id, ready := false }])

/-- The context with the reserved tokens of an instruction in their places. -/
def Ctx.tokFill (c : Ctx) (id : Nat) : Ctx :=
  let f := fun (t : Tok) => if t.id = id then { t with ready := true } else t
  { c with tokLC := c.tokLC.map f, tokCS := c.tokCS.map f }

/-- A lane macro of a context that has issued has yet to enter the queue of one of its lanes (R221). -/
def State.macroFlying (s : State) (k id : Nat) : Bool :=
  s.lanes.any fun l => l.2.flight.any fun e => e.ctx == k && e.id == id

/-- A tag of a core set (R185, R262). -/
def State.setTag (s : State) (core tag : Nat) : State :=
  s.modCore core fun c =>
    { c with tagmap := c.tagmap ||| (1#64 <<< tag)
             tagSet := (s.clock, (if c.tagSet.1 = s.clock then c.tagSet.2 else 0) ||| (1#64 <<< tag)) }

/-- Tags of a core cleared; one that a completion has set in the same clock stays set (R185). -/
def State.clearTags (s : State) (core : Nat) (v : Quad) : State :=
  s.modCore core fun c =>
    { c with tagmap := c.tagmap &&& ~~~(v &&& ~~~(if c.tagSet.1 = s.clock then c.tagSet.2 else 0)) }

/-- The ring mode in force is RING4 (R352, R378). -/
def State.ring4 (s : State) : Bool := match s.devNow with | some d => d.ring4 | none => false

/-! ## Events for the black box -/

/-- The die of a core: its bed, or the hub as 8 (R2, R337). -/
def dieOfCore (core : Nat) : Nat := if core < 64 then core / 8 else 8

/-- An event recorded in the black box of a die: a ring of 8,192 records, of which a new one overwrites the oldest (R382). -/
def State.record (s : State) (die code part unit : Nat) (dev : Bool) (addr data : Nat) : State :=
  let r : BoxRec := { clock := BitVec.ofNat 64 s.clock, code := BitVec.ofNat 8 code, die := BitVec.ofNat 4 die,
                      part := BitVec.ofNat 4 part, unit := BitVec.ofNat 16 unit, dev := dev, addr := BitVec.ofNat 64 addr,
                      data := BitVec.ofNat 64 data }
  let old := tget [] s.box die
  { s with box := tput s.box die ((if old.length < 8192 then old else old.tail) ++ [r]) }

/-- The 32 bytes of an event record (R382). -/
def BoxRec.bytes (r : BoxRec) : List Byte :=
  leBytes 32 (r.clock.toNat * 2 ^ 192 + r.code.toNat * 2 ^ 184 + r.die.toNat * 2 ^ 180 + r.part.toNat * 2 ^ 176 +
    r.unit.toNat * 2 ^ 160 + r.dev.toNat * 2 ^ 159 + r.addr.toNat * 2 ^ 64 + r.data.toNat)

/-! ## Traps -/

/-- The number of a fault code (R331). -/
def codeNum : Code → Nat
  | .illop => 1 | .pfx => 2 | .align => 3 | .xlate => 4 | .prot => 5 | .poison => 6 | .space => 7
  | .vcap => 8 | .qfault => 9 | .budget => 10 | .watch => 11 | .savefault => 12 | .saveover => 13

/-- The code is retried without a handler (R331). -/
def codeRetried : Code → Bool
  | .illop | .pfx | .align | .watch => false
  | _ => true

/-- A fault raised on a task: the first one traps it, and of the faults of one clock the one on the first
engine in the order X, L, C, S (R333). Nothing happens to a context that runs no task. -/
def State.raise (s : State) (k : Nat) (t : Trap) : State :=
  let c := s.ctx k
  match c.st with
  | .idle | .commit _ | .saved => s
  | _ =>
    match c.trap with
    | some o =>
      if o.clock = t.clock ∧ engIdx t.eng < engIdx o.eng then s.setCtx k { c with trap := some t } else s
    | none => s.setCtx k { c with st := .trapped, trap := some t }

/-- A trap raised now on an engine of a context at a parcel offset. -/
def State.raiseAt (s : State) (k : Nat) (e : Eng) (pc : Nat) (code : Code) (addr info : Nat := 0) : State :=
  s.raise k { code := code, eng := e, pc := pc, addr := addr, info := info, clock := s.clock }

/-- A trap of the instruction in execution: the parcel offset is that of its first prefix (R55). -/
def State.trapHere (s : State) (code : Code) (addr info : Nat := 0) : State :=
  s.raiseAt s.me s.cur.eng s.ce.pc code addr info

/-! ## Stalls -/

/-- The engines of a context look again at what they wait for: the notes of their stalls are cleared. -/
def Ctx.wake (c : Ctx) : Ctx :=
  { c with engs := c.engs.map fun p => (p.1, { p.2 with stall := none }), dead := 0 }

/-- The engine in execution is stalled: no state of the task changes but the note (R30). -/
def State.stallHere (s : State) (w : Stall) : State := s.modCe fun e => { e with stall := some w }

/-- Stalls that the deadlock test counts (R32, R136). -/
def stallDeadly : Stall → Bool
  | .queue | .token | .window | .fwd => true
  | _ => false

/-- The units of a stream (R210). -/
def Stream.total (z : Stream) : Nat := z.cnt.foldl (· * ·) 1

/-- The engine that bound a stream has not yet issued, after its `sbind`, an instruction that lets L fetch, nor left
the block of the `sbind` (R219). -/
def Ctx.gateClosed (c : Ctx) (z : Stream) : Bool :=
  let g := c.eng .l
  match g.blk with
  | some b => b.head == z.pos.head && g.visits.count b.head == z.pos.visit && g.issues == z.gate
  | none => false

/-- A fetch or a unit store of a bound stream is to come without the engines of the task: room in the buffer and
units left, or a unit to store (R191). -/
def Ctx.streamMoves (c : Ctx) (z : Stream) : Bool :=
  z.bound &&
  (if z.write then z.buf != []
   else decide (z.cursor < z.total ∧ z.buf.length < 8) && !c.gateClosed z)

/-- A counter of `stat.stall` after more clocks (R326). -/
def satAdd16 (n d : Nat) : Nat := min 65535 (n + d)

/-- An engine's stall counters after clocks in which it was stalled (R326). -/
def Engine.count (e : Engine) (d : Nat) : Engine :=
  match e.stall with
  | some .queue | some .token | some .stream | some .unit => { e with queue := satAdd16 e.queue d }
  | some .memq | some .fwd => { e with memq := satAdd16 e.memq d }
  | some .window => { e with window := satAdd16 e.window d }
  | some .arb => { e with arb := satAdd16 e.arb d }
  | _ => e

/-! ## The walk of the text -/

/-- Engines tagged by a mask (R43). -/
def maskHas (m : BitVec 4) (e : Eng) : Bool := m.getLsbD (engIdx e)

/-- The mask tags two or more engines. -/
def maskMulti (m : BitVec 4) : Bool := decide (1 < (allEngs.filter (maskHas m)).length)

/-- The instances of a block that an engine has begun (R25). -/
def Engine.begun (e : Engine) (h : Nat) : Nat := tget 0 e.insts h

/-- The slip window lets an engine begin its next instance of a block (R27). -/
def Ctx.windowOpen (c : Ctx) (e : Eng) (h : Nat) (mask : BitVec 4) : Bool :=
  allEngs.all fun f =>
    f == e || !maskHas mask f || (c.eng f).wait == .tend ||
    decide ((c.eng e).begun h + 1 ≤ (c.eng f).begun h + c.window)

/-- The context with an engine that begins the next instance of its block, or waits for the window (R27,
R44). -/
def Ctx.beginInstance (c : Ctx) (e : Eng) (b : Blk) : Ctx :=
  if c.windowOpen e b.head b.mask then
    (c.modEng e fun g =>
      { g with insts := tput g.insts b.head (g.begun b.head + 1), pc := b.head + 2,
               blk := some { b with begun := true } }).wake
  else
    c.modEng e fun g => { g with pc := b.head, blk := some { b with begun := false } }

/-- The context with an engine past `len` parcels: the next instruction of the body, the next instance of
the block, or the header after it (R44). -/
def Ctx.advance (c : Ctx) (e : Eng) (len : Nat) : Ctx :=
  let g := c.eng e
  match g.blk with
  | none => c.setEng e { g with pc := g.pc + len }
  | some b =>
    if g.pc + len < b.next then c.setEng e { g with pc := g.pc + len }
    else if b.left = 0 then c.setEng e { g with pc := b.next, blk := none }
    else c.beginInstance e { b with left := b.left - 1 }

/-- The context with an engine that leaves its block for a target header (R48, R156). -/
def Ctx.jump (c : Ctx) (e : Eng) (t : Nat) : Ctx := c.modEng e fun g => { g with pc := t, blk := none }

/-- The place of the instruction in execution in program order (R131). -/
def State.pos (s : State) : Pos :=
  match s.ce.blk with
  | some b => { head := b.head, visit := s.ce.visits.count b.head, off := s.ce.pc }
  | none => { head := s.ce.pc, visit := 0, off := s.ce.pc }

end Sys2Proof.Machine
end

