-- ==== Sys2Proof/Machine/Geometry.lean ====
section
/-! DEFINITION. Where the slots of a sequence lie: pages, extents, the side block (spec/21_sequences.md R270, R275); and
where the items of a stage queue lie (spec/01_execution_model.md R18, spec/25_scheduling.md R312). -/

namespace Sys2Proof.Machine

/-- The bytes of a slot, which are also its channels (R270). -/
def Seq.size (q : Seq) : Nat := 64 * 2 ^ q.slg

/-- The slots of a page, for slots of at most 8 KiB (R270). -/
def Seq.perPage (q : Seq) : Nat := 8192 / q.size

/-- The sequence pages that the slots below `n` take (R270). -/
def Seq.pagesFor (q : Seq) (n : Nat) : Nat :=
  if q.slg = 8 then 2 * n else (n + q.perPage - 1) / q.perPage

/-- The sequence page of a slot's first byte (R270). -/
def Seq.pageOf (q : Seq) (i : Nat) : Nat := if q.slg = 8 then 2 * i else i / q.perPage

/-- The place of a slot in its page. -/
def Seq.inPage (q : Seq) (i : Nat) : Nat := if q.slg = 8 then 0 else i % q.perPage

/-- The key of a bed's pool in a partition. -/
def poolKey (part bed : Nat) : Nat := 8 * part + bed
/-- The pool of a bed in a partition. -/
def State.pool (s : State) (part bed : Nat) : Pool := tget {} s.pools (poolKey part bed)
/-- The machine with a pool replaced. -/
def State.setPool (s : State) (part bed : Nat) (p : Pool) : State := { s with pools := tput s.pools (poolKey part bed) p }

/-- The pool page of an extent's page `j` (R275). -/
def State.extPage (s : State) (q : Seq) (e : Extent) (j : Nat) : Nat := e.base + j * (s.pool q.part e.bed).stride

/-- The bed and the pool page that an extent list gives for a sequence page (R275). -/
def State.seqPage (s : State) (q : Seq) : List Extent → Nat → Option (Nat × Nat)
  | [], _ => none
  | e :: r, j => if j < e.npg then some (e.bed, s.extPage q e j) else s.seqPage q r (j - e.npg)

/-- The sequence pages that an extent list covers. -/
def extPages (l : List Extent) : Nat := (l.map (·.npg)).sum

/-- The device-physical address of byte `c` of a slot in the main array (R270). -/
def State.slotAddr (s : State) (q : Seq) (i c : Nat) : Nat :=
  match s.seqPage q q.ext (q.pageOf i + (q.inPage i * q.size + c) / 8192) with
  | some p => 8192 * p.2 + (q.inPage i * q.size + c) % 8192
  | none => 0

/-- The device-physical address of byte `x` of the side block (R270, R275). -/
def State.sideAddr (s : State) (q : Seq) (x : Nat) : Nat :=
  q.side / 8192 * 8192 + x / 8192 * (s.pool q.part q.bed).stride * 8192 + x % 8192

/-- The address of channel `c` of the stage entry of a slot (R270). -/
def State.stageAddr (s : State) (q : Seq) (i c : Nat) : Nat :=
  s.sideAddr q (512 + 4 * q.size + i % 256 * (2 * q.size) + 2 * c)

/-- The address of channel `c` of the window entry of a slot (R270). -/
def State.ringAddr (s : State) (q : Seq) (i c : Nat) : Nat :=
  s.sideAddr q (512 + 516 * q.size + i % q.w * (2 * q.size) + 2 * c)

/-- The address of the scale of channel `c` in the side block (R270). -/
def State.scaleAddr (s : State) (q : Seq) (c : Nat) : Nat := s.sideAddr q (512 + 4 * c)

/-- The lines of the scales of a sequence. -/
def State.scaleLines (s : State) (q : Seq) : List Nat := (List.range (q.size / 32)).map fun j => s.scaleAddr q (32 * j) / 128
/-- The lines of a slot's stage entry. -/
def State.stageLines (s : State) (q : Seq) (i : Nat) : List Nat := (List.range (q.size / 64)).map fun j => s.stageAddr q i (64 * j) / 128
/-- The lines of a slot's window entry. -/
def State.ringLines (s : State) (q : Seq) (i : Nat) : List Nat := (List.range (q.size / 64)).map fun j => s.ringAddr q i (64 * j) / 128

/-- The bytes of a side block (R270). -/
def sideBytes (size w : Nat) : Nat := 512 + 516 * size + 2 * w * size

/-! ## The storage of stage queues -/

/-- A stage descriptor of a region; one with DEPTH 0 declares no stage (R18). -/
def Region.stage (r : Region) (n : Nat) : Stage := r.stages.getD n {}
/-- The bytes of an item of a stage (R18). -/
def Stage.itemBytes (t : Stage) : Nat := 16 * (t.item + 1)
/-- The address of a slot of a stage's storage. -/
def Region.slotVa (r : Region) (n slot : Nat) : Nat := (r.stage n).qbase + slot * (r.stage n).itemBytes

/-- The device-physical address that the scheduler holds for an address of a region from its admission (R312). -/
def Region.heldPa (r : Region) (va : Nat) : Option Nat :=
  (r.held.find? fun t => decide (t.va ≤ va ∧ va < t.va + t.size)).map fun t => t.pa + (va - t.va)

/-- The lines of device memory that a pushed item is to be written to (R321). -/
def Region.pushLines (r : Region) (p : Push) : List Nat :=
  ((List.range ((r.stage p.stage).itemBytes / 16)).filterMap fun i =>
    (r.heldPa (r.slotVa p.stage p.slot + 16 * i)).map (· / 128)).eraseDups

/-! ## Sequences -/

/-- The sequence whose control block lies at a device-physical address; one that is not live has no fields. -/
def State.seq (s : State) (pa : Nat) : Seq := tget {} s.seqs pa

end Sys2Proof.Machine
end

