-- ==== Sys2Proof/Machine/Layers.lean ====
section
/-! DEFINITION. The page map's places, and the code that protects each line across the layers of its column
(spec/07_memory.md R111, spec/23_compressed_memory.md R299, R306, R307). -/

namespace Sys2Proof.Machine

/-- A bed's state. -/
def State.bed (s : State) (b : Nat) : Bed := tget {} s.beds b
/-- A physical column: 68 to a bed (R3). -/
def State.col (s : State) (c : Nat) : Column := tget {} s.cols c
/-- The machine with a column changed. -/
def State.modCol (s : State) (c : Nat) (f : Column → Column) : State :=
  { s with cols := tput s.cols c (f (s.col c)) }
/-- The key of a physical column of a bed. -/
def colKey (bed col : Nat) : Nat := 68 * bed + col

/-- The bound columns of a bed that launches may bind: those not retired (R3, R309). -/
def State.openCols (s : State) (b : Nat) : List Nat := (s.bed b).bound.filter fun c => !(s.col (colKey b c)).retired

/-- The place of a value in a list. -/
def indexIn (l : List Nat) (v : Nat) : Nat := l.idxOf v

/-- The number of a line at a place of a column where no granule lies: beyond the lines of device memory (R307). -/
def idleLine (c place : Nat) : Nat := 2 ^ 34 + 2 ^ 23 * c + place

/-- A granule that is raw whatever the firmware would have it: one of a sequence pool (R274), or the root node of a page
table (R299). -/
def State.mustBeRaw (s : State) (g : Nat) : Bool :=
  (s.pools.any fun p => decide (p.2.first ≤ g ∧ g < p.2.first + p.2.pages)) || s.roots.any fun r => r.2 / 8192 == g

/-- The map entry of a granule: as the firmware has placed it, or by its own policy for a granule of which
the model has no record (R111, R299). -/
def State.granule (s : State) (g : Nat) : Granule :=
  match tfind s.grans g with
  | some e => e
  | none =>
    let p := Config.granulePlace g
    let bed := p.1 % 8
    { bed := bed, col := (s.bed bed).bound.getD (p.2.1 % 64) 0, raw := p.2.2 || s.mustBeRaw g }

/-- The machine with the map entry of a granule replaced. -/
def State.setGranule (s : State) (g : Nat) (e : Granule) : State := { s with grans := tput s.grans g e }

/-- The granule of a device-physical address (R111). -/
def granOf (pa : Nat) : Nat := pa / 8192

/-! ## Protection across layers -/

/-- An event record about a column. Whose work met the event is what the choice `pick` says: nobody's, or a partition's
(R382). -/
def State.colEvent (s : State) (c code data : Nat) (addr : Nat := 0) : State :=
  let n := s.cur.pick % 17
  s.record (c / 68) code (n - 1) (c % 68) (n == 0) addr data

/-- A layer marked erased for its column, which is then degraded and to be drained; a second one makes the column lost
(R307). -/
def State.eraseLayer (s : State) (c layer : Nat) : State :=
  let x := s.col c
  match x.erased with
  | none => (s.modCol c fun y => { y with erased := some layer, drain := true }).colEvent c 3 layer
  | some l =>
    if l = layer ∨ x.lost then s else (s.modCol c fun y => { y with lost := true }).colEvent c 4 layer

/-- A line marked poisoned (R306). -/
def State.poisonLine (s : State) (line : Nat) : State :=
  if s.poison.contains line then s else { s with poison := s.poison ++ [line] }

/-- The column that holds a line (R111). -/
def State.columnOf (s : State) (line : Nat) : Nat :=
  if 2 ^ 34 ≤ line then (line - 2 ^ 34) / 2 ^ 23
  else
    let g := s.granule (line / 64)
    colKey g.bed g.col

/-- An access to a line: a sleeping bank of its column begins to wake, and the request is replayed (R237). -/
def State.touchBank (s : State) (line : Nat) : State :=
  if s.cols.all fun c => c.2.sleep.isEmpty then s
  else
    let b := Config.rowBank (line / 8) % 72
    let x := s.col (s.columnOf line)
    if x.sleep.contains b && !x.waking.contains b then
      s.modCol (s.columnOf line) fun y => { y with waking := b :: y.waking }
    else s

/-- A line is held by a column (R111). -/
def State.lineIn (s : State) (c line : Nat) : Bool := s.columnOf line == c

/-- The bytes of a stored line that are in error: the layer of each, and its place in the layer's symbol, which is the
codeword that it belongs to (R306). -/
def State.errsOf (s : State) (line : Nat) : List (Nat × Nat) := tget [] s.errs line

/-- The layers that a stored line has errors in. -/
def State.errLayers (s : State) (line : Nat) : List Nat := ((s.errsOf line).map (·.1)).eraseDups

/-- Eight codewords decode: with no erased layer of the column each has at most one symbol in error; with an erased one
no other layer has an error (R306). -/
def decodesWith (erased : Option Nat) (errs : List (Nat × Nat)) : Bool :=
  match erased with
  | none => (List.range 8).all fun k => decide (((errs.filter fun e => e.2 == k).map (·.1)).eraseDups.length ≤ 1)
  | some l => errs.all fun e => e.1 == l

/-- A stored line decodes in its column (R306). -/
def State.decodes (s : State) (line : Nat) : Bool :=
  match s.errsOf line with
  | [] => true
  | es => decodesWith (s.col (s.columnOf line)).erased es

/-- A line is poisoned (R125): marked so, or its column is lost, or it is not in the L2 and the stored line does not
decode (R306, R307). -/
def State.linePoisoned (s : State) (line : Nat) : Bool :=
  s.poison.contains line || (s.col (s.columnOf line)).lost || (!s.l2.contains line && !s.decodes line)

/-- A line of a column that needed correction in a layer, counted: beyond 32 such lines in a pass of the patrol the column is
drained, and beyond 64 the layer is erased (R307, R381). Where a layer is erased already, only its own symbols are
corrected (R306). -/
def State.countFix (s : State) (c line layer : Nat) : State :=
  let ls := tget [] (s.col c).corr layer
  let ls' := if ls.contains line then ls else line :: ls
  if (s.col c).erased.isSome then s
  else
    let t := s.modCol c fun x => { x with corr := tput x.corr layer ls', drain := x.drain || decide (32 < ls'.length) }
    if 64 < ls'.length then t.eraseLayer c layer else t

/-- The layers of a line that a read had to correct, kept for a maintenance slot (R306, R381). -/
def addFix (l : List (Nat × List Nat)) (line : Nat) (layers : List Nat) : List (Nat × List Nat) :=
  if l.any (·.1 == line) then l.map fun f => if f.1 = line then (line, (f.2 ++ layers).eraseDups) else f
  else l ++ [(line, layers)]

/-- A line read from its column (R306): corrected, with its count and its write-back in a maintenance slot to come (R381), or
poisoned. -/
def State.readStored (s0 : State) (line : Nat) : State :=
  let s := s0.touchBank line
  match s.errsOf line with
  | [] => s
  | _ =>
    let c := s.columnOf line
    if (s.col c).lost then s
    else if s.decodes line then
      (s.errLayers line).foldl (fun t l => t.colEvent c 2 l (128 * line))
        (s.modCol c fun x => { x with fixes := addFix x.fixes line (s.errLayers line) })
    else s.poisonLine line

/-- The symbols of a line written anew, with no error (R306). -/
def State.rewritten (s0 : State) (line : Nat) : State :=
  let s := s0.touchBank line
  match s.errsOf line with
  | [] => s
  | _ => { s with errs := tdel s.errs line }

/-- A byte of a stored line in error (R306). -/
def State.symbolError (s : State) (line layer byte : Nat) : State :=
  if layer < 18 ∧ byte < 8 ∧ !(s.errsOf line).contains (layer, byte) then
    { s with errs := tput s.errs line (s.errsOf line ++ [(layer, byte)]) }
  else s

end Sys2Proof.Machine
end

