-- ==== Sys2Proof/Machine/Walk.lean ====
section
/-! DEFINITION. The page tables and the walk (spec/07_memory.md R117-R120), and the text that a running task fetches while it is
rewritten (spec/03_encoding.md R47). -/

namespace Sys2Proof.Machine

/-- A page-table entry (R118). -/
structure Pte where
  pa   : Nat
  x    : Bool
  w    : Bool
  sz   : Bool
  leaf : Bool
  v    : Bool
  deriving DecidableEq, Repr

/-- The fields of a page-table entry (R118). -/
def pteOf (q : Nat) : Pte :=
  { pa := bits q 39 13 * 8192, x := q.testBit 4, w := q.testBit 3, sz := q.testBit 2,
    leaf := q.testBit 1, v := q.testBit 0 }

/-- The page size of a leaf: base size of the level, times 32 with SZ (R119). -/
def leafSize (level : Nat) (sz : Bool) : Nat :=
  (if level = 4 then 8192 else 8192 * 1024) * (if sz then 32 else 1)

/-- The index of a level in a virtual address (R117). -/
def vaIndex (level va : Nat) : Nat := va / 2 ^ (13 + 10 * (4 - level)) % 1024

/-- The address of the entry by which a node of a level translates an address: its own, or where that is a leaf with SZ any one
of the 32 of its span, the one that `pick` names (R119). -/
def entryAt (m : Mem) (level va pick node : Nat) : Nat :=
  let a := node + 8 * vaIndex level va
  let e := pteOf (memQuad m a)
  if e.v && e.leaf && e.sz && decide (3 ≤ level) then node + 8 * (vaIndex level va / 32 * 32 + pick % 32) else a

/-- A walk from a node of a level: a translation, or XLATE (R119). -/
def walkFrom (m : Mem) (part asid va pick : Nat) : Nat → Nat → Nat → Option TlbEnt
  | 0, _, _ => none
  | fuel + 1, level, node =>
    let e := pteOf (memQuad m (entryAt m level va pick node))
    if !e.v then none
    else if e.leaf then
      if level ≤ 2 then none
      else
        let size := leafSize level e.sz
        some { part := part, asid := asid, va := va / size * size, size := size,
               pa := e.pa / size * size, w := e.w, x := e.x }
    else if level = 4 then none
    else walkFrom m part asid va pick fuel (level + 1) e.pa

/-- A page-table walk of an address space (R117-R120): none is XLATE. -/
def State.walk (s : State) (part asid va pick : Nat) : Option TlbEnt :=
  match tfind s.roots (4096 * part + asid) with
  | some root => walkFrom s.mem part asid va pick 4 1 root
  | none => none

/-- The lines of the page table that a walk reads, from a node of a level on (R117): of an entry of a span also the line of the
entry that translates (R119). -/
def walkLines (m : Mem) (va pick : Nat) : Nat → Nat → Nat → List Nat
  | 0, _, _ => []
  | fuel + 1, level, node =>
    let a := entryAt m level va pick node
    let e := pteOf (memQuad m a)
    ([(node + 8 * vaIndex level va) / 128, a / 128].eraseDups) ++
      (if e.v && !e.leaf && decide (level < 4) then walkLines m va pick fuel (level + 1) e.pa else [])

/-- The lines of the page tables that the walk of an address reads through the L2 (R112). -/
def State.walkReads (s : State) (part asid va pick : Nat) : List Nat :=
  match tfind s.roots (4096 * part + asid) with
  | some root => walkLines s.mem va pick 4 1 root
  | none => []

/-- The entries of a node that hold anything (R117). -/
def nodeEntries (m : Mem) (node : Nat) : List Nat :=
  ((m.filter fun c => c.1 / 8192 == node / 8192).map fun c => c.1 % 8192 / 8).eraseDups

/-- The granules of the nodes of a page table, from a node of a level on (R117). -/
def nodesFrom (m : Mem) : Nat → Nat → Nat → List Nat
  | 0, _, _ => []
  | fuel + 1, level, node =>
    node / 8192 :: (if level < 4 then
      (nodeEntries m node).flatMap fun i =>
        let e := pteOf (memQuad m (node + 8 * i))
        if e.v && !e.leaf then nodesFrom m fuel (level + 1) e.pa else []
      else [])

/-- Every node of every page table lies in a raw granule (R299). -/
def State.tablesRaw (s : State) : Bool := s.roots.all fun r => (nodesFrom s.mem 4 1 r.2).all fun g => (s.granule g).raw

/-- The granules that the pages from `lo` up to `hi` are mapped to, from a node of a level at a virtual base on (R117-R119). -/
def mappedGranules (m : Mem) (lo hi : Nat) : Nat → Nat → Nat → Nat → List Nat
  | 0, _, _, _ => []
  | fuel + 1, level, node, base =>
    let span := 2 ^ (13 + 10 * (4 - level))
    (nodeEntries m node).flatMap fun i =>
      let va := base + i * span
      let e := pteOf (memQuad m (node + 8 * i))
      if hi ≤ va ∨ va + span ≤ lo ∨ !e.v then []
      else if e.leaf then
        if level ≤ 2 then []
        else (List.range (span / 8192)).map fun j => (e.pa / leafSize level e.sz * leafSize level e.sz + va % leafSize level e.sz) / 8192 + j
      else if level = 4 then [] else mappedGranules m lo hi fuel (level + 1) e.pa va

/-- Every page that is mapped in the window of a column role of a region lies in the column bound to the role (R115). -/
def State.windowsHold (s : State) (r : Region) : Bool :=
  (List.range r.trellis.length).all fun n =>
    ((r.trellis.getD n {}).column.zipIdx).all fun c =>
      match tfind s.roots (4096 * r.part + r.asid) with
      | some root =>
        let lo := (r.groups.getD n {}).wbase + c.2 * 2 ^ 30
        (mappedGranules s.mem lo (lo + 2 ^ 30) 4 1 root 0).all fun g => s.columnOf (64 * g) == c.1
      | none => true

/-! ## Text that is rewritten -/

/-- The text of a running task of a context holds a line of device memory (R47). -/
def State.textHolds (s : State) (c : Ctx) (line : Nat) : Bool :=
  let r := s.region c.regid
  c.st != .idle && r.textBytes.isNone && decide (0 < r.textLen) &&
    (List.range ((r.textVa % 8192 + r.textLen + 8191) / 8192)).any fun i =>
      match s.walk c.part c.asid (r.textVa / 8192 * 8192 + 8192 * i) 0 with
      | some t => (t.pa + (r.textVa / 8192 * 8192 + 8192 * i - t.va)) / 8192 == line / 64
      | none => false

/-- A line about to be written: a task that runs from it may go on with what it held (R47). -/
def State.keepText (s : State) (line : Nat) : State :=
  { s with ctxs := s.ctxs.map fun p =>
      if s.textHolds p.2 line then (p.1, { p.2 with olds := p.2.olds ++ [(line, memRead s.mem (128 * line) 128)] }) else p }

/-- What a parcel of a task's text at a device-physical address reads as for an engine: what is there, or what was there before
a write of it in the task's time, as it is chosen for this parcel, this engine and this fetch (R47). -/
def Ctx.textAt (c : Ctx) (e : Eng) (pa : Nat) (now : List Byte) : List Byte :=
  match (c.olds.filter fun o => o.1 == pa / 128).map fun o => (o.2.drop (pa % 128)).take 2 with
  | [] => now
  | l => (l ++ [now]).getD (Config.textPick c.taskid (engIdx e) pa l.length (c.eng e).issues % (l.length + 1)) now

end Sys2Proof.Machine
end

