-- ==== Sys2Proof/Machine/Compress.lean ====
section
/-! DEFINITION. Granules, their home, the encodings of a line, and the accounting of headroom
(spec/23_compressed_memory.md R298-R304, spec/07_memory.md R111). -/

namespace Sys2Proof.Machine

/-- The place of a column among the 64 of its bed that make the clusters: a column whose place a spare has taken keeps it
for the lines that it still holds (R111). -/
def State.placeOf (s : State) (bed col : Nat) : Nat :=
  match (s.col (colKey bed col)).place with
  | some p => p
  | none => indexIn (s.bed bed).bound col

/-- The home slice of a device-physical address: the slice of the bed cluster that owns the column of its
granule, eight bound columns to a cluster (R111). -/
def State.home (s : State) (pa : Nat) : Nat :=
  let g := s.granule (granOf pa)
  8 * g.bed + s.placeOf g.bed g.col / 8

/-- The routing slice of a core (R114). -/
def routeOf (core : Nat) : Nat := if core < 64 then core else 2 * (core - 64)

/-- The quads of a line (R298). -/
def lineQuads (b : List Byte) : List Nat := (List.range 16).map fun i => leNat ((b.drop (8 * i)).take 8)

/-- The signed differences of a line's quads from its first (R298). -/
def lineDeltas (b : List Byte) : List Int :=
  let q := lineQuads b
  q.map fun v => signed 64 (v + 2 ^ 64 - q.headD 0)

/-- Every difference fits `w` bits (R298). -/
def deltasFit (w : Nat) (d : List Int) : Bool :=
  d.all fun v => decide (-(2 ^ (w - 1) : Int) ≤ v ∧ v < (2 ^ (w - 1) : Int))

/-- The code of the encoding that the column controller chooses for a line: the fewest sectors, and of a
tie the first in the table (R298). -/
def lineCode (b : List Byte) : Nat :=
  if b.all (· == 0) then 0
  else
    let d := lineDeltas b
    if d.all (· == 0) then 1 else if deltasFit 8 d then 2 else if deltasFit 16 d then 3
    else if deltasFit 32 d then 4 else 5

/-- The sectors of an encoding (R298). -/
def codeSectors : Nat → Nat
  | 0 => 0 | 1 => 1 | 2 => 1 | 3 => 2 | 4 => 3 | _ => 4

/-- The committed bytes of a line. -/
def State.lineBytes (s : State) (line : Nat) : List Byte := memRead s.mem (128 * line) 128

/-- The size in sectors that a line of a granule has as it is stored (R298): by the code the map holds, or of
its committed bytes where the granule has not been written back since it was mapped. -/
def State.lineSize (s : State) (e : Granule) (g l : Nat) : Nat :=
  match e.codes with
  | [] => codeSectors (lineCode (s.lineBytes (64 * g + l)))
  | c => codeSectors (c.getD l 0)

/-- The worst-case size of a granule with reserved lines (R301). -/
def State.worst (s : State) (e : Granule) (g : Nat) (res : List Nat) : Nat :=
  (List.range 64).foldl (fun a l => a + (if res.contains l then 4 else s.lineSize e g l)) 0

/-- Sectors in chunks, rounded up (R298). -/
def chunksOf (n : Nat) : Nat := (n + 15) / 16

/-- The chunks that a granule holds in reserve (R301). -/
def State.reserve (s : State) (e : Granule) (g : Nat) (res : List Nat) : Nat :=
  if res = [] then 0 else chunksOf (s.worst e g res) - e.nch

/-- What a first write to a line needs: nothing, a number of chunks that the partition has free, or more than
it has (R301, R303). -/
inductive Headroom where
  | none | grant (n : Nat) | short (n : Nat)
  deriving DecidableEq, Repr

/-- A waiting reservation is that of a line (R303). -/
def SpaceWait.isFor (w : SpaceWait) (g l : Nat) : Bool := w.granule == g && w.line == l

/-- The number under which the migration of a granule waits for chunks (R309, R310). -/
def migrateWaitId (g : Nat) : Nat := 2 ^ 49 + g

/-- A wait belongs to a migration. -/
def SpaceWait.migrates (w : SpaceWait) : Bool := w.ctx.isNone && w.id == migrateWaitId w.granule

/-- The number under which a translation that has ended waits for chunks (R303, R375): by the digest of its key's section. -/
def textWaitId (digest : List Byte) : Nat := 2 ^ 52 + leNat digest

/-- A wait belongs to a translation: its chunks stand in `va`. -/
def SpaceWait.forText (w : SpaceWait) : Bool := decide (2 ^ 52 ≤ w.id)

/-- A partition without the waits of the migrations of some granules (R310). -/
def Partition.endMigrations (p : Partition) (q : Nat → Bool) : Partition :=
  { p with waits := p.waits.filter fun w => !(w.migrates && q w.granule) }

/-- No reservation of another line has waited longer (R303). -/
def Partition.firstWait (p : Partition) (g l : Nat) : Bool :=
  match p.waits with
  | [] => true
  | w :: _ => w.isFor g l

/-- The headroom that a write to a line needs (R301): one that finds enough reserves at once, and one whose reservation waits
has it in the order of arrival (R303). -/
def State.headroom (s : State) (part pa : Nat) : Headroom :=
  let g := granOf pa
  let l := pa / 128 % 64
  let e := s.granule g
  if e.raw || e.reserved.contains l then .none
  else
    let need := s.reserve e g (l :: e.reserved) - s.reserve e g e.reserved
    let p := s.partn part
    if need = 0 then .grant 0
    else if p.free - p.rsv < need || (p.waits.any (·.isFor g l) && !p.firstWait g l) then .short need
    else .grant need

/-- The partition that a granule's space is charged to: its own, or that of the first writer where the
firmware mapped it by a policy of its own. -/
def State.payer (s : State) (pa part : Nat) : Nat :=
  match tfind s.grans (granOf pa) with
  | some e => e.part
  | none => part

/-- The headroom marks after a change of a partition's counters: one notification for each mark, armed again
when the headroom rises above it (R300). -/
def State.marks (s : State) (part : Nat) : State :=
  let p := s.partn part
  match p.record with
  | none => s
  | some r =>
    let h := p.free - p.rsv
    let s1 := if p.lowArm && decide (h < r.low) then s.send (.lowmark part) else s
    let s2 := if p.critArm && decide (h < r.crit) then s1.send (.critmark part) else s1
    s2.modPart part fun p =>
      { p with lowArm := if h < r.low then false else if r.low < h then true else p.lowArm,
               critArm := if h < r.crit then false else if r.crit < h then true else p.critArm,
               above := decide (r.low < h), rises := if r.low < h ∧ !p.above then p.rises + 1 else p.rises }

/-- The machine with a granule off the balloon list of its partition (R305). -/
def State.unlist (s : State) (pay g : Nat) (e : Granule) : State :=
  if e.balloon then s.modPart pay fun p => { p with balloon := p.balloon.filter (· != g) } else s

/-- The machine with a line reserved for a write, if there is headroom; none where the write must wait
(R301, R303). A write takes its granule off the balloon list (R305). -/
def State.reserveLine (s : State) (part pa : Nat) : Option State :=
  let pay := s.payer pa part
  let g := granOf pa
  let e0 := s.granule g
  match s.headroom pay pa with
  | .short _ => none
  | .none =>
    if e0.raw then some s else some ((s.unlist pay g e0).setGranule g { e0 with balloon := false })
  | .grant n =>
    let l := pa / 128 % 64
    let s1 := s.unlist pay g e0
    let s2 := s1.setGranule g { e0 with reserved := l :: e0.reserved, part := pay, balloon := false }
    some ((s2.modPart pay fun p => { p with rsv := p.rsv + n }).marks pay)

/-- A wait comes before another: by arrival, and in one network cycle of two clocks by slice (R9, R303). -/
def waitBefore (w v : SpaceWait) : Bool :=
  decide (w.since / 2 < v.since / 2 ∨ (w.since / 2 = v.since / 2 ∧ w.slice < v.slice))

/-- A write to a line that waits for headroom, entered at the rake once (R303); its granule leaves the balloon list (R305). -/
def State.waitSpace (s : State) (part pa : Nat) (who : Option (Nat × Eng)) (id : Nat) (va : Nat := pa) : State :=
  let pay := s.payer pa part
  let g := granOf pa
  let e := s.granule g
  if (s.partn pay).waits.any fun w => w.ctx == who && w.id == id && w.isFor g (pa / 128 % 64) then s
  else (if e.balloon then (s.unlist pay g e).setGranule g { e with balloon := false } else s).modPart pay fun p =>
    let w : SpaceWait := { ctx := who, id := id, granule := granOf pa, line := pa / 128 % 64, slice := s.home pa, since := s.clock,
                           va := va }
    { p with waits := takeUntil (waitBefore w) p.waits ++ w :: p.waits.drop (takeUntil (waitBefore w) p.waits).length }

/-- The wait of a writer for a line removed. -/
def State.dropWait (s : State) (part pa : Nat) (who : Option (Nat × Eng)) (id : Nat) : State :=
  s.modPart (s.payer pa part) fun p =>
    { p with waits := p.waits.filter fun w => !(w.ctx == who && w.id == id && w.isFor (granOf pa) (pa / 128 % 64)) }

/-- The tasks that hold versions at the slices: those of the contexts, those that gave up theirs in an `lwait`, and those in
shadow storage (R319, R351). -/
def State.versionCtxs (s : State) : List Ctx :=
  s.ctxs.map (·.2) ++ (s.regions.flatMap fun r => r.2.saved.map (·.ctx)) ++
    s.parts.flatMap fun p => p.2.shadow.flatMap fun h => h.2.ctxs.map (·.2)

/-- A line of the control block of a sequence with slots reserved, or committed above its length: the advance past them
writes it (R280, R282). -/
def Seq.unsettled (q : Seq) (pa line : Nat) : Bool :=
  q.live && q.slots != [] && (line == pa / 128 || line == pa / 128 + 1)

/-- A version holds a line (R302): its bytes, or a pushed item that is to be written there (R321). A line that the end of a
task's sequence operations writes stays reserved too, so that no commit waits for space (DEDUCED, log 109). -/
def State.versionHolds (s : State) (line : Nat) : Bool :=
  (s.versionCtxs.any fun c => (c.ver.mem.any fun p => p.1 / 128 == line) ||
    c.pushes.any fun p => ((tget {} s.regions c.regid).pushLines p).contains line) ||
  s.seqs.any fun q => q.2.unsettled q.1 line

/-- A granule that the map lists has its entry changed, and the chunks that its change gains, gives back or no longer
reserves are charged to its partition (R302). -/
def State.rebook (s : State) (g : Nat) (e e' : Granule) : State :=
  let s1 := s.setGranule g e'
  ((s1.modPart e.part fun p =>
    { p with free := p.free + e.nch - e'.nch, held := p.held + e'.nch - e.nch,
             rsv := p.rsv + s1.reserve e' g e'.reserved - s.reserve e g e.reserved }).marks e.part)

/-- The chunks of a column: 1 GiB in chunks of 512 bytes (R298, R299). -/
def columnChunks : Nat := 2 ^ 21

/-- Chunk numbers of a column that no granule but one holds (R299). -/
def State.chunkNumbers (s : State) (bed col g n : Nat) : List Nat :=
  let used := s.grans.flatMap fun p => if p.2.bed = bed ∧ p.2.col = col ∧ p.1 ≠ g then p.2.chunks else []
  ((List.range (min columnChunks (used.length + n))).filter fun i => !used.contains i).take n

/-- The lines of a granule that the L2 has to write back (R302). -/
def State.dirtyIn (s : State) (g : Nat) : List Nat := s.dirty.filter fun l => l / 64 == g

/-- The codes of a granule's lines once its dirty lines are recompressed (R298). -/
def State.codesOf (s : State) (e : Granule) (g : Nat) : List Nat :=
  (List.range 64).map fun l =>
    if e.codes == [] || s.dirty.contains (64 * g + l) then lineCode (s.lineBytes (64 * g + l)) else e.codes.getD l 0

/-- A granule written back: its lines are stored anew, and it is recompressed, repacked, and charged (R298, R299, R302, R306). -/
def State.writeBack (s : State) (g : Nat) : State :=
  let t := (s.dirtyIn g).foldl State.rewritten s
  let u : State := { t with dirty := t.dirty.filter fun l => l / 64 != g }
  match tfind s.grans g with
  | none => u
  | some e =>
    if e.raw then u
    else
      let codes := s.codesOf e g
      let n := chunksOf ((codes.map codeSectors).sum)
      u.rebook g e { e with codes := codes, nch := n, chunks := s.chunkNumbers e.bed e.col g n,
                            reserved := e.reserved.filter fun l => s.versionHolds (64 * g + l) }

/-- The reservations of a granule that no version and no line to be written back needs any more are dropped (R302). -/
def State.dropReserved (s : State) (g : Nat) : State :=
  match tfind s.grans g with
  | none => s
  | some e =>
    let keep := e.reserved.filter fun l => s.dirty.contains (64 * g + l) || s.versionHolds (64 * g + l)
    if keep = e.reserved then s else s.rebook g e { e with reserved := keep }

/-- The same of every granule: of a write that has ended in a fault a line may stay reserved that it never came to write (R302). -/
def State.settleReserved (s : State) : State :=
  ((s.grans.filter fun p => p.2.reserved != []).map (·.1)).foldl State.dropReserved s

/-! ## The L2 -/

/-- The lines that a version holds: device memory by line, peer scratchpads by core and line, and 64
channels of fills each (R14, R279, R332). -/
def Version.lines (v : Version) : List (Nat × Nat × Nat) :=
  let m : List (Nat × Nat × Nat) := v.mem.map fun p => (0, 0, p.1 / 128)
  let q : List (Nat × Nat × Nat) := v.peer.flatMap fun q => q.2.map fun p => (1, q.1, p.1 / 128)
  let f : List (Nat × Nat × Nat) := v.fills.map fun f => (2 + f.1, f.2.1, f.2.2.1 / 64)
  (m ++ q ++ f).eraseDups

/-- The lines of device memory that a version holds. -/
def Version.memLines (v : Version) : List Nat := (v.mem.map fun p => p.1 / 128).eraseDups

/-- The address whose home slice a fill of a slot performs at: the slot's, or the control block's where no page holds
the slot (R127, R279). -/
def State.fillAddr (s : State) (h i ch : Nat) : Nat :=
  let q := s.seq h
  if q.live && (s.seqPage q q.ext (q.pageOf i)).isSome then s.slotAddr q i (min ch (q.size - 1)) else h

/-- The number that selects the set of a line of a peer's scratchpad: beyond the lines of device memory, whose addresses
have 40 bits (R110, R118). -/
def peerLine (core line : Nat) : Nat := 2 ^ 33 + 2 ^ 16 * core + line

/-- The slice and the set whose ways hold a line of a version (R109, R110): of device memory at its home, of a peer's
scratchpad at its routing slice, of a fill at the home of the slot. -/
def State.wayOf (s : State) (l : Nat × Nat × Nat) : Nat × Nat :=
  if l.1 = 0 then (s.home (128 * l.2.2), Config.l2Set l.2.2 % 4096)
  else if l.1 = 1 then (routeOf l.2.1, Config.l2Set (peerLine l.2.1 l.2.2) % 4096)
  else
    let a := s.fillAddr (l.1 - 2) l.2.1 (64 * l.2.2)
    (s.home a, Config.l2Set (a / 128) % 4096)

/-- The ways of a set that hold version lines, each by the region of its task (R110). -/
def State.setLines (s : State) (w : Nat × Nat) : List Nat :=
  s.versionCtxs.flatMap fun c => (c.ver.lines.filter fun l => s.wayOf l == w).map fun _ => c.regid

/-- The version lines of the package. -/
def State.verLines (s : State) : Nat := (s.versionCtxs.map fun c => c.ver.lines.length).sum

/-- The lines that the L2 caches in a set (R109). -/
def State.cachedIn (s : State) (w : Nat × Nat) : List Nat := s.l2.filter fun l => s.wayOf (0, 0, l) == w

/-- A line leaves the L2, written back first where it is dirty (R109, R302). -/
def State.l2Evict (s : State) (line : Nat) : State :=
  let t := if s.dirty.contains line then s.writeBack (line / 64) else s
  { t with l2 := t.l2.filter (· != line) }

/-- Room in a set for one more line: where its 16 ways are full, a cached line leaves, which the choice names (R109). -/
def State.l2Room (s : State) (w : Nat × Nat) : State :=
  if s.l2.length + s.verLines < 16 then s
  else if (s.cachedIn w).length + (s.setLines w).length < 16 then s
  else match choose (s.cachedIn w) s.cur.pick with
    | some l => s.l2Evict l
    | none => s

/-- A line of device memory brought into its home slice, unless version lines hold every way of its set (R109). -/
def State.l2Fill (s0 : State) (line : Nat) : State :=
  if s0.l2.contains line then s0
  else
    let s := s0.readStored line
    let w := s.wayOf (0, 0, line)
    if 16 ≤ s.verLines && decide (16 ≤ (s.setLines w).length) then s
    else
      let t := s.l2Room w
      { t with l2 := t.l2 ++ [line] }

/-- A granule that a write of committed data reaches leaves the balloon list of its partition (R305), and one that is being copied
is to be copied again (R308). -/
def State.granuleWritten (s : State) (g : Nat) : State :=
  match tfind s.grans g with
  | none => s
  | some e => (s.unlist e.part g e).setGranule g { e with balloon := false, copying := e.copying.map fun c => (c.1, true) }

/-- A committed write brings its line into the L2 as one to be written back (R109, R302); where its set has no way for it, it
is written back at once. -/
def State.markDirty (s0 : State) (line : Nat) : State :=
  let s1 := ((s0.keepText line).l2Fill line).granuleWritten (line / 64)
  let s : State := if s1.dirty.contains line then s1 else { s1 with dirty := line :: s1.dirty }
  if s.l2.contains line then s else s.writeBack (line / 64)

end Sys2Proof.Machine
end

