-- ==== Sys2Proof/Machine/Space.lean ====
section
/-! DEFINITION. The address spaces: translation, scratchpads, task versions, the L1, and poison
(spec/07_memory.md R104-R125, spec/09_consistency.md R126-R130). -/

namespace Sys2Proof.Machine

/-! ## Roles -/

/-- The groups of a region in which a core holds a core role, with the core's role index, in order. -/
def coreGroups (r : Region) (core : Nat) : List (Nat × Nat) :=
  (List.range r.trellis.length).filterMap fun g =>
    let b := r.trellis.getD g {}
    if b.core.contains core then some (g, indexIn b.core core) else none

/-- The group and role of the core in execution: the group of lowest index (R165). -/
def State.myGroup (s : State) : Option (Nat × Nat) := (coreGroups s.cr s.cur.core).head?

/-! ## Translation -/

/-- What a translation gives. -/
inductive Xlat where
  | ok (pa : Nat) (w x : Bool)
  | miss
  | fault (c : Code)
  deriving DecidableEq, Repr

/-- What the checks of an address give: the parts of the access, a fault, or a page that no TLB holds (R166). -/
inductive Reach where
  | ok (l : List Part)
  | fault (c : Code) (addr : Nat)
  | miss (va : Nat)
  deriving DecidableEq, Repr

/-- The index of the cluster of a core: its own TLB level (R121). -/
def clusterOf (core : Nat) : Nat := core

/-- An entry covers an address (R121). -/
def tlbCovers (part asid va : Nat) (t : TlbEnt) : Bool :=
  t.part == part && t.asid == asid && decide (t.va ≤ va ∧ va < t.va + t.size)

/-- The first entry that covers an address, through the core, cluster and die TLBs (R121). A hit fills no TLB above the one that
holds the entry (DESIGN CHOICE, log 112). -/
def State.tlbFind (s : State) (core part asid va : Nat) : Option TlbEnt :=
  (((s.core core).tlb ++ tget [] s.ctlb (clusterOf core) ++ tget [] s.dtlb (dieOfCore core)).find?
    (tlbCovers part asid va))

/-- The translation of an address by a core's TLBs, and its permission (R113, R119, R121). -/
def State.translate (s : State) (core part asid va : Nat) (write : Bool) : Xlat :=
  if va ≥ 2 ^ 53 then .fault .xlate
  else
    match s.tlbFind core part asid va with
    | none => .miss
    | some t => if write && !t.w then .fault .prot else .ok (t.pa + (va - t.va)) t.w t.x

/-- The translation that a walk gives at once, for what does not look in the TLBs. -/
def State.translateNow (s : State) (part asid va : Nat) (write : Bool) : Xlat :=
  if va ≥ 2 ^ 53 then .fault .xlate
  else
    match s.walk part asid va s.cur.pick with
    | none => .fault .xlate
    | some t => if write && !t.w then .fault .prot else .ok (t.pa + (va - t.va)) t.w t.x

/-- The permission of a translation for a fetch of text (R119). -/
def State.translateFetch (s : State) (core part asid va : Nat) : Xlat :=
  match s.translate core part asid va false with
  | .ok pa w x => if x then .ok pa w x else .fault .prot
  | r => r

/-- A request entered in the miss table of its context's die, merged with an entry of the same page; none while the
table holds 4,096 entries (R122). -/
def State.enterReq (s : State) (part asid : Nat) (me : MissReq) : State :=
  let die := dieOfCore (me.ctx / 4)
  let t := tget [] s.miss die
  let page := me.va / 8192
  if t.any fun m => m.part == part && m.asid == asid && m.page == page then
    { s with miss := tput s.miss die (t.map fun m =>
        if m.part = part ∧ m.asid = asid ∧ m.page = page ∧ !m.reqs.contains me then
          { m with reqs := m.reqs ++ [me] } else m) }
  else if t.length < 4096 then
    { s with miss := tput s.miss die (t ++ [{ part := part, asid := asid, page := page, reqs := [me] }]) }
  else s

/-- A miss of an engine of a context (R122). -/
def State.enterMiss (s : State) (k : Nat) (e : Eng) (va : Nat) : State :=
  let c := s.ctx k
  s.enterReq c.part c.asid { ctx := k, taskid := c.taskid, eng := e, pc := (c.eng e).pc, va := va }

/-- A miss of a command or of a stream of a context, which looks again by itself (R122). -/
def State.enterUnitMiss (s : State) (k part asid va : Nat) : State :=
  s.enterReq part asid { ctx := k, taskid := (s.ctx k).taskid, eng := .x, pc := 0, va := va, unit := true }

/-- The translation of an address for a command or a stream of a context, by the TLBs of its core's path (R121). A miss
whose walk would fault is that fault (R122); any other waits for the walk. -/
def State.unitXlat (s : State) (k part asid va : Nat) (write : Bool) : Xlat :=
  match s.translate (k / 4) part asid va write with
  | .miss =>
    (match s.translateNow part asid va false with
     | .fault c => .fault c
     | _ => .miss)
  | x => x

/-! ## Scratchpads -/

/-- The byte of an SRAM: bytes of a part that changed sides hold any value (R106). -/
def Sram.get (r : Sram) (a : Nat) : Byte :=
  match r.havoc.find? fun h => decide (h.1 ≤ a ∧ a < h.1 + h.2.1) with
  | some h => Config.freeByte h.2.2 a
  | none => memGet r.cells a

/-- The spans of any value, less one address. -/
def cutSpan (a : Nat) : List (Nat × Nat × Nat) → List (Nat × Nat × Nat)
  | [] => []
  | (b, n, d) :: r =>
    if b ≤ a ∧ a < b + n then
      (if b < a then [(b, a - b, d)] else []) ++ (if a + 1 < b + n then [(a + 1, b + n - (a + 1), d)] else [])
        ++ cutSpan a r
    else (b, n, d) :: cutSpan a r

/-- An SRAM with a byte written. -/
def Sram.put (r : Sram) (a : Nat) (b : Byte) : Sram := { cells := memPut r.cells a b, havoc := cutSpan a r.havoc }

/-- The units of 64 KiB of a core's SRAM: 16 on a bed core, 128 on a hub core (R104). -/
def sramUnits (core : Nat) : Nat := if core < 64 then 16 else 128

/-- The bytes of a core's scratchpad (R104). -/
def State.spadSize (s : State) (core : Nat) : Nat := (s.core core).spad * 65536

/-- The bytes lie in a core's scratchpad. -/
def State.spadHas (s : State) (core a n : Nat) : Bool := decide (a + n ≤ s.spadSize core)

/-- The bytes of a core's scratchpad. -/
def State.spadRead (s : State) (core a n : Nat) : List Byte :=
  (List.range n).map fun i => (s.core core).sram.get (a + i)

/-- Bytes put into an SRAM one after another. -/
def Sram.putAll (r : Sram) (a : Nat) : List Byte → Sram
  | [] => r
  | b :: l => (r.put a b).putAll (a + 1) l

/-- The uncorrectable words that a write of bytes leaves: a word written whole is good again (R108, R125). -/
def clearWords (ws : List Nat) (a n : Nat) : List Nat :=
  ws.filter fun w => !decide (a ≤ 8 * w ∧ 8 * w + 8 ≤ a + n)

/-- The bytes in an SRAM that a write merges with: an uncorrectable word that is written in part reads as
zeros (R108, R125). -/
def State.zeroWords (s : State) (core a n : Nat) : State :=
  let c := s.core core
  let ws := c.poison.filter fun w => decide (8 * w < a + n ∧ a < 8 * w + 8)
  s.setCore core { c with sram := ws.foldl (fun r w => r.putAll (8 * w) (List.replicate 8 0)) c.sram }

/-- An entry of a forwarding table whose store has performed, after another write of a byte: a load before the store finds it
(R136). -/
def FwdEnt.cover (f : FwdEnt) (p : Nat × Byte) : FwdEnt :=
  if f.done ∧ f.addr ≤ p.1 ∧ p.1 < f.addr + f.under.length then { f with under := f.under.set (p.1 - f.addr) p.2 } else f

/-- The forwarding tables of a core's contexts, but for one, after a write of its scratchpad (R136, R140). -/
def State.coverFwd (s : State) (skip : Option Nat) (core : Nat) (l : List (Nat × Byte)) : State :=
  if s.ctxs.all fun c => c.1 / 4 != core || c.2.fwd.isEmpty then s
  else { s with ctxs := s.ctxs.map fun c =>
           if c.1 / 4 = core ∧ skip ≠ some c.1 then (c.1, { c.2 with fwd := c.2.fwd.map fun f => l.foldl FwdEnt.cover f }) else c }

/-- The machine with bytes put into a core's scratchpad. -/
def State.spadPut (s : State) (core a : Nat) (bs : List Byte) : State :=
  (s.zeroWords core a bs.length).modCore core fun c =>
    { c with sram := c.sram.putAll a bs, poison := clearWords c.poison a bs.length }

/-- The machine with bytes written into a core's scratchpad, by what has no entry in a forwarding table. -/
def State.spadWrite (s : State) (core a : Nat) (bs : List Byte) : State :=
  (s.spadPut core a bs).coverFwd none core (bs.zipIdx.map fun b => (a + b.2, b.1))

/-- The machine with bytes written at places of a core's scratchpad in one write: of an uncorrectable word that it covers
in part the rest reads as zeros, and one that it covers whole is good again (R108, R125). -/
def State.spadScatter (s : State) (core : Nat) (l : List (Nat × Byte)) : State :=
  (s.coverFwd none core l).modCore core fun c =>
    let r := (c.poison.filter fun w => l.any fun p => p.1 / 8 == w).foldl
      (fun r w => r.putAll (8 * w) (List.replicate 8 0)) c.sram
    { c with sram := l.foldl (fun r p => r.put p.1 p.2) r
             poison := c.poison.filter fun w => !(List.range 8).all fun i => l.any fun p => p.1 == 8 * w + i }

/-- A machine after a write that has to wait: of what the write did, only its requests to the rake and for a translation
stay (R122, R303). -/
def State.waited (s t : State) : State := { s with parts := t.parts, grans := t.grans, out := t.out, miss := t.miss }

/-! ## Versions -/

/-- The region whose own budget a region draws on for the field of an INHERIT bit: itself where it overrides the field or
has no parent, else its parent's (R15, R16). -/
def State.poolOwner (s : State) (bit : Nat) : Nat → Nat → Nat
  | 0, r => r
  | f + 1, r =>
    let g := s.region r
    match g.parent with
    | some p => if g.rcb.inherit.testBit bit then s.poolOwner bit f p else r
    | none => r

/-- The owner of a budget for a region, through a chain of any depth. -/
def State.ownerOf (s : State) (bit r : Nat) : Nat := s.poolOwner bit (s.regions.length + 1) r

/-- The INHERIT bit of VWAYS (R15). -/
def bitVways : Nat := 6

/-- The version ways that a region keeps for itself and for those that share its budget (R16). -/
def Region.ways (r : Region) : Nat := tget 0 r.pools bitVways

/-- The version ways that the running regions reserve in each set (R110, R314). -/
def State.reservedWays (s : State) : Nat :=
  ((s.regions.filter fun r => r.2.live).map fun r => r.2.ways).sum

/-- A set has a way for one more version line of a region (R110). -/
def State.wayFree (s : State) (regid : Nat) (l : Nat × Nat × Nat) : Bool :=
  if s.verLines + s.reservedWays < 16 then true
  else
    let own := s.ownerOf bitVways regid
    let used := (s.setLines (s.wayOf l)).map fun r => s.ownerOf bitVways r
    let unused := ((s.regions.filter fun r => r.2.live && r.1 != own).map fun r => r.2.ways - used.count r.1).sum
    decide (used.count own < (s.region own).ways) || decide (unused + 1 + used.length ≤ 16)

/-- A line of a version of a task lies within its budget: it is there, or VLINES and the ways of its set have room
(R110, R332). -/
def State.verAllowed (s : State) (k : Nat) (l : Nat × Nat × Nat) : Bool :=
  let c := s.ctx k
  c.ver.lines.contains l || (decide (c.ver.lines.length < (s.region c.regid).rcb.vlines) && s.wayFree c.regid l)

/-- A write of a task to device memory needs no line beyond its budget (R110, R332). -/
def State.lineAllowed (s : State) (k pa : Nat) : Bool := s.verAllowed k (0, 0, pa / 128)

/-- The same for a line of a peer scratchpad. -/
def State.peerAllowed (s : State) (k core a : Nat) : Bool := s.verAllowed k (1, core, a / 128)

/-- A line of a version takes a way of its set, which the cache gives up where none is left (R109, R110). -/
def State.takeWay (s : State) (k : Nat) (l : Nat × Nat × Nat) : State :=
  if (s.ctx k).ver.lines.contains l || decide (s.l2.length + s.verLines < 16) then s else s.l2Room (s.wayOf l)

/-- Bytes written over a list of bytes by address. -/
def overlay (l : List (Nat × Byte)) (a : Nat) : List Byte → List (Nat × Byte)
  | [] => l
  | b :: r => overlay (tput l a b) (a + 1) r

/-- The bytes at an address with those of a version over them (R128). -/
def overlaid (l : List (Nat × Byte)) (a : Nat) (bs : List Byte) : List Byte :=
  (List.range bs.length).map fun i =>
    match tfind l (a + i) with
    | some b => b
    | none => bs.getD i 0

/-! ## The L1 -/

/-- The copy of a line in a core's L1 that a context sees: its private copy, or the shared one (R107, R130). -/
def l1Find (l : List L1Line) (ctx line : Nat) : Option L1Line :=
  match l.find? fun c => c.line == line && c.priv == some ctx with
  | some c => some c
  | none => l.find? fun c => c.line == line && c.priv.isNone

/-- The lines that a core's L1 has room for (R104, R107). -/
def State.l1Lines (s : State) (core : Nat) : Nat := (sramUnits core - (s.core core).spad) * 512

/-- A line filled into a core's L1; where it is full, the oldest copy that is private to no task leaves
(R107). -/
def State.l1Fill (s : State) (core line : Nat) (data : List Byte) : State :=
  let c := s.core core
  let n := s.l1Lines core
  let l1 := if c.l1.length < n then c.l1 else eraseFirst (fun e => e.priv.isNone) c.l1
  if l1.length < n then s.setCore core { c with l1 := l1 ++ [{ line := line, data := data }] } else s

/-- Every copy of a line removed from a core's L1 (R144). -/
def State.l1Drop (s : State) (core line : Nat) : State :=
  s.modCore core fun c => { c with l1 := c.l1.filter fun e => e.line != line }

/-- Every line of a core's L1 removed (R126). -/
def State.l1DropAll (s : State) (core : Nat) : State := s.modCore core fun c => { c with l1 := [] }

/-- The copies of a line that a replacement may take: those that are private to no task (R107). -/
def State.l1Replace (s : State) (core line : Nat) : State :=
  s.modCore core fun c => { c with l1 := c.l1.filter fun e => !(e.line == line && e.priv.isNone) }

/-- The copies of lines that `p` names removed from the L1 of a context's core, but for those private to its task
(R175). -/
def State.l1Inv (s : State) (k : Nat) (p : Nat → Bool) : State :=
  s.modCore (k / 4) fun c => { c with l1 := c.l1.filter fun e => !p e.line || e.priv == some k }

/-- The private copies of a context dropped, at its commit or discard (R130). -/
def State.l1DropPriv (s : State) (k : Nat) : State :=
  s.modCore (k / 4) fun c => { c with l1 := c.l1.filter fun e => e.priv != some k }

/-- Bytes written into a copy of a line. -/
def lineWrite (data : List Byte) (off : Nat) (bs : List Byte) : List Byte :=
  data.take off ++ bs ++ data.drop (off + bs.length)

/-- The bytes of a copy of a line, an uncorrectable word of it as zeros (R108, R125). -/
def L1Line.bytes (e : L1Line) : List Byte :=
  (List.range 128).map fun i => if e.bad.contains (i / 8) then 0 else e.data.getD i 0

/-- A copy of a line with bytes written into it: a word written whole is good again, one written in part merges into
zeros and stays bad (R108, R125). -/
def L1Line.write (e : L1Line) (off : Nat) (bs : List Byte) : L1Line :=
  { e with data := lineWrite (if e.bad = [] then e.data else e.bytes) off bs, bad := clearWords e.bad off bs.length }

/-- A store of a context in the copy of its line: the copy becomes private to the task (R107, R130). -/
def State.l1Store (s : State) (k pa : Nat) (bs : List Byte) : State :=
  s.modCore (k / 4) fun c =>
    { c with l1 := c.l1.map fun e =>
        if e.line = pa / 128 ∧ (e.priv = some k ∨ (e.priv = none ∧
            !c.l1.any fun f => f.line == pa / 128 && f.priv == some k)) then
          { e.write (pa % 128) bs with priv := some k } else e }

/-- The uncorrectable words of the L1 copy that a context reads, among bytes of one line (R108). -/
def State.l1Bad (s : State) (k pa n : Nat) : List Nat :=
  match l1Find (s.core (k / 4)).l1 k (pa / 128) with
  | some e => e.bad.filter fun w => decide (8 * w < pa % 128 + n ∧ pa % 128 < 8 * w + 8)
  | none => []

/-- An uncorrectable error in a word of a core's SRAM: of its scratchpad, or of the line of the L1 that stands there
(R104, R108). -/
def State.badWord (s : State) (core w : Nat) : State :=
  let n := 8192 * (s.core core).spad
  s.modCore core fun c =>
    if w < n then { c with poison := if c.poison.contains w then c.poison else w :: c.poison }
    else
      { c with l1 := c.l1.zipIdx.map fun p =>
          if p.2 = (w - n) / 16 ∧ !p.1.bad.contains (w % 16) then { p.1 with bad := w % 16 :: p.1.bad } else p.1 }

/-! ## Poison -/

/-- The record of one delivery of poisoned data (R125, R382). -/
def State.poisonEvent (s : State) (part pa : Nat) (trapped : Bool) : State :=
  let g := s.granule (granOf pa)
  s.record g.bed 1 part g.col false pa (if trapped then 1 else 0)

/-- The record of an uncorrectable word of a core's scratchpad (R108, R125, R382). It has neither a column nor a device-physical
or virtual address: UNIT is any value and ADDR is 0 (DESIGN CHOICE, log 132). -/
def State.wordEvent (s : State) (part core : Nat) (trapped : Bool) : State :=
  let (d, t) := s.draw
  t.record (dieOfCore core) 1 part (Config.freeQuad d).toNat false 0 (if trapped then 1 else 0)

/-- Poisoned lines delivered as zeros to a task: its count and its flag (R125, R337). -/
def Ctx.poisoned (c : Ctx) (n : Nat) : Ctx :=
  if n = 0 then c else { c with poisc := satAdd16 c.poisc n, pois := true }

/-- The uncorrectable words among bytes of a core's scratchpad (R108). -/
def State.badWords (s : State) (core a n : Nat) : List Nat :=
  (s.core core).poison.filter fun w => decide (8 * w < a + n ∧ a < 8 * w + 8)

/-- Bytes of a scratchpad with the bytes of uncorrectable words as zeros (R108, R125). -/
def State.spadClean (s : State) (core a n : Nat) : List Byte :=
  let bad := s.badWords core a n
  (List.range n).map fun i => if bad.contains ((a + i) / 8) then 0 else (s.core core).sram.get (a + i)

/-! ## Reads and writes of device memory -/

/-- The committed bytes of one line part, zeros where the line is poisoned (R125, R128). -/
def State.committed (s : State) (pa n : Nat) : List Byte :=
  if s.linePoisoned (pa / 128) then List.replicate n 0 else memRead s.mem pa n

/-- Committed bytes written within one line: a write of the whole line clears its poison, any other merges
into zeros and leaves it (R125). -/
def State.commitBytes (s : State) (pa : Nat) (bs : List Byte) : State :=
  let line := pa / 128
  let s1 := s.markDirty line
  if s1.linePoisoned line then
    if bs.length = 128 then { s1 with mem := memWrite s1.mem pa bs, poison := s1.poison.filter (· != line) }
    else { s1 with mem := memWrite (memWrite s1.mem (128 * line) (List.replicate 128 0)) pa bs }
  else { s1 with mem := memWrite s1.mem pa bs }

/-- The value that a load of a context reads from device memory, within one line: from the L1 where it holds
the line, else the committed line, with the task's version over it (R107, R128). -/
def State.gRead (s : State) (k pa n : Nat) (l1 : Bool) : List Byte :=
  let base :=
    match (if l1 then l1Find (s.core (k / 4)).l1 k (pa / 128) else none) with
    | some e => ((if e.bad = [] then e.data else e.bytes).drop (pa % 128)).take n
    | none => s.committed pa n
  overlaid (s.ctx k).ver.mem pa base

/-- Bytes within one line written into a task's version of device memory, a way taken for a new line (R22, R110, R128).
A write of all 128 bytes of the line is one that clears poison (R125). -/
def State.verWrite (s : State) (k pa : Nat) (bs : List Byte) : State :=
  (s.takeWay k (0, 0, pa / 128)).modCtx k fun c =>
    { c with ver := { c.ver with
        mem := overlay c.ver.mem pa bs
        full := if bs.length = 128 ∧ !c.ver.full.contains (pa / 128) then pa / 128 :: c.ver.full else c.ver.full } }

/-- The bytes of a peer's scratchpad that a task sees: its version over them (R114). -/
def State.peerRead (s : State) (k core a n : Nat) : List Byte :=
  overlaid (tget [] (s.ctx k).ver.peer core) a (s.spadClean core a n)

/-- The 8-byte words that lie whole among bytes. -/
def wholeWords (a n : Nat) : List Nat :=
  ((List.range (n / 8 + 1)).map fun i => (a + 7) / 8 + i).filter fun w => decide (8 * w + 8 ≤ a + n)

/-- Bytes within one line written into a task's version of a peer's scratchpad (R22, R110, R114). -/
def State.peerWrite (s : State) (k core a : Nat) (bs : List Byte) : State :=
  (s.takeWay k (1, core, a / 128)).modCtx k fun c =>
    { c with ver := { c.ver with
        peer := tput c.ver.peer core (overlay (tget [] c.ver.peer core) a bs)
        pfull := ((wholeWords a bs.length).filter fun w => !c.ver.pfull.contains (core, w)).map (fun w => (core, w)) ++
          c.ver.pfull } }

/-- The bytes of an access cut at line boundaries: address, offset in the access, length (R127). -/
def lineParts (a n : Nat) : List (Nat × Nat × Nat) :=
  go (n / 128 + 2) a 0 n
where
  /-- The parts from an offset on. -/
  go : Nat → Nat → Nat → Nat → List (Nat × Nat × Nat)
  | 0, _, _, _ => []
  | _, _, _, 0 => []
  | f + 1, a, o, n =>
    let m := min n (128 - a % 128)
    (a, o, m) :: go f (a + m) (o + m) (n - m)

end Sys2Proof.Machine
end

