-- ==== Sys2Proof/Machine/Order.lean ====
section
/-! DEFINITION. Fetching text, program order across engines, and when an access may perform
(spec/03_encoding.md R41-R48, spec/09_consistency.md R131-R143). -/

namespace Sys2Proof.Machine

/-! ## Text -/

/-- What a fetch of text gives. -/
inductive Fetch (α : Type) where
  | ok (v : α)
  | beyond                       -- at or past the end of the text section (R42)
  | miss (va : Nat)
  | fault (c : Code) (va : Nat)
  deriving DecidableEq, Repr

/-- The parcel at an offset of a task's text, as an engine fetches it (R41, R42, R47). `now` translates by a walk, without the TLBs. -/
def State.parcel (s : State) (k : Nat) (e : Eng) (now : Bool) (off : Nat) : Fetch Parcel :=
  let c := s.ctx k
  let r := s.region c.regid
  if r.textLen < 2 * off + 2 then .beyond
  else
    match r.textBytes with
    | some bs => .ok (BitVec.ofNat 16 (leNat ((bs.drop (2 * off)).take 2)))
    | none =>
      let va := r.textVa + 2 * off
      let t := if now then s.translateNow c.part c.asid va false else s.translateFetch (k / 4) c.part c.asid va
      match t with
      | .ok pa _ _ => .ok (BitVec.ofNat 16 (leNat (c.textAt e pa (s.committed pa 2))))
      | .miss => .miss va
      | .fault f => .fault f va

/-- The parcels of a run. -/
def State.parcels (s : State) (k : Nat) (e : Eng) (now : Bool) (off : Nat) : Nat → Fetch (List Parcel)
  | 0 => .ok []
  | n + 1 =>
    match s.parcel k e now off with
    | .ok p =>
      (match s.parcels k e now (off + 1) n with
       | .ok r => .ok (p :: r)
       | e => e)
    | .beyond => .beyond
    | .miss v => .miss v
    | .fault c v => .fault c v

/-- The parcels of the instruction at an offset, with its prefixes, out of `n` that are left of the body. -/
def State.fetchInstr (s : State) (k : Nat) (e : Eng) (now : Bool) (off : Nat) : Nat → Fetch (List Parcel)
  | 0 => .ok []
  | n + 1 =>
    match s.parcel k e now off with
    | .ok p =>
      if parcelLen p = 3 then
        (match s.fetchInstr k e now (off + 1) n with
         | .ok r => .ok (p :: r)
         | e => e)
      else s.parcels k e now off (min (n + 1) (lenParcels (parcelLen p)))
    | .beyond => .beyond
    | .miss v => .miss v
    | .fault c v => .fault c v

/-- The instructions of a body from one offset to another, as far as they decode. -/
def State.bodyInstrs (s : State) (k : Nat) (e : Eng) : Nat → Nat → Nat → List (Nat × Dec)
  | 0, _, _ => []
  | f + 1, off, stop =>
    if stop ≤ off then []
    else
      match s.fetchInstr k e true off (stop - off) with
      | .ok ps =>
        (match decodeDec ps with
         | .ok (d, n) => (off, d) :: (if n = 0 then [] else s.bodyInstrs k e f (off + n) stop)
         | .error _ => [])
      | _ => []

/-- The header word at an offset: header after the block, mask, and the instruction (R43). -/
def State.headerAt (s : State) (k : Nat) (e : Eng) (now : Bool) (h : Nat) : Fetch (Option Instr) :=
  match s.parcels k e now h 2 with
  | .ok ps => .ok (decodeHeader ps)
  | .beyond => .beyond
  | .miss v => .miss v
  | .fault c v => .fault c v

/-- The body length and the mask of a block header. -/
def headerFields : Instr → Option (BitVec 12 × BitVec 4)
  | .blockHeader _ b m => some (b, m)
  | .blockHeaderReg _ b m => some (b, m)
  | _ => none

/-- The checks of a header that every engine makes (R45): a header with a body, a mask, and its body inside
the text. -/
def State.headerOk (s : State) (k h : Nat) (i : Option Instr) : Bool :=
  match i with
  | some j =>
    (match headerFields j with
     | some (b, m) => b != 0 && m != 0 &&
         decide (2 * (h + 2 + b.toNat) ≤ (s.region (s.ctx k).regid).textLen)
     | none => false)
  | none => false

/-! ## What orders -/

/-- An access of the load or the store queue (R132). -/
def instrAccesses : Instr → Bool
  | .ldl .. | .ldp .. | .ldg .. | .stl .. | .stp .. | .stg .. | .vldl .. | .vldp .. | .vldg ..
  | .vstl .. | .vstp .. | .vstg .. | .vgl .. | .vgg .. | .vsl .. | .vsg ..
  | .ldq .. | .vldq .. | .stq .. | .vstq .. => true
  | _ => false

/-- An operation of X at a home slice, which places a marker (R137). -/
def instrMarks : Instr → Bool
  | .aadd .. | .aand .. | .aor .. | .axor .. | .amin .. | .amax .. | .aswp .. | .acas .. | .afadd .. | .abinc ..
  | .alrb .. | .alrc .. | .barinit .. | .bararr .. | .barwait ..
  | .sqnew .. | .sqres .. | .sqrest .. | .sqcmt .. | .sqacc .. | .sqwd .. | .sqfree .. | .sqfork ..
  | .sqlen .. | .sqwait .. | .sqpin .. | .squnpin .. | .sqext .. | .sqattn .. => true
  | _ => false

/-- An instruction that later accesses wait for until it has issued and its condition holds (R131, R143). -/
def instrOrders (i : Instr) : Bool :=
  instrMarks i ||
  (match (instrMods i).pfx.ord with | some o => o.acq | none => false) ||
  (match i with
   | .mark .. | .fence .. | .qfence .. | .ldq .. | .vldq .. | .tlbinvAll => true
   | _ => false)

/-- The same of a decoded word: waits on tags and on a child acquire (R143), and later accesses wait
for the instructions on translations (R344). -/
def decOrders : Dec → Bool
  | .i v => instrOrders v
  | .sys .twany .. | .sys .twall .. | .sys .tffr .. | .sys .lwait .. => true
  | .sys .tlbinvPg .. | .sys .tlbinvAs .. | .sys .asset .. => true
  | .sys .. => false

/-- A decoded word before which a stream's `sbind` waits to have it issued and met: `mark` and `fence`, and the instructions on
translations (R218, R344). -/
def decBinds : Dec → Bool
  | .i v => (match v with | .mark .. | .fence .. | .tlbinvAll => true | _ => false)
  | .sys .tlbinvPg .. | .sys .tlbinvAs .. | .sys .asset .. => true
  | .sys .. => false

/-- An operation of X that acquires (R143). -/
def instrAcquires : Instr → Bool
  | .barwait .. | .sqlen .. | .sqwait .. | .sqfork .. | .sqattn .. => true
  | _ => false

/-- A decoded word that a later transfer command waits for until it has issued and its condition holds: what orders later
accesses, but for the markers that only order the lines of one slice (R131, R137). -/
def decGates : Dec → Bool
  | .i v =>
    (match (instrMods v).pfx.ord with | some o => o.acq | none => false) ||
    (if instrMarks v then instrAcquires v else instrOrders v)
  | d => decOrders d

/-- A decoded word that every later access waits for, be it one made at issue: an acquire, a `fence`, a `qfence` (R138, R139, R141,
R143). -/
def decAcquires : Dec → Bool
  | .i v =>
    (match (instrMods v).pfx.ord with | some o => o.acq | none => false) || (instrMarks v && instrAcquires v) ||
    (match v with | .fence .. | .qfence .. | .ldq .. | .vldq .. => true | _ => false)
  | .sys .twany .. | .sys .twall .. | .sys .tffr .. | .sys .lwait .. => true
  | .sys .. => false

/-- A decoded word is an access, a column-reduce command, whose rows are read as loads (R142), or an operation with a
marker. -/
def decAccesses : Dec → Bool
  | .i (.creq ..) => true
  | .i v => instrAccesses v || instrMarks v
  | .sys .. => false

/-- A lane macro-instruction (R222). -/
def instrLane : Instr → Bool
  | .lcfg .. | .lfence .. | .lsync .. | .lwst .. | .lact .. | .lmac .. | .laccz .. | .laccr .. | .lred .. => true
  | _ => false

/-- A matrix command (R240). -/
def instrMatrix : Instr → Bool
  | .mlay .. | .munf .. | .mld .. | .mmul .. | .mdrn .. | .mzero .. => true
  | _ => false

/-- A transfer or column-reduce command. -/
def instrXfer : Instr → Bool
  | .xcopy .. | .xgath .. | .xscat .. | .xscadd .. | .xfill .. | .xring .. | .creq .. => true
  | _ => false

/-- A word of C that writes a stream. -/
def instrStreams (v : Instr) : Bool := match instrDst v with | some (.z _) => true | _ => false

/-- A word of engine `f` that a `qfence` with a mask waits for (R141): of the store queue also the writes of C to streams
(R218). -/
def decFenced (mask : Nat) (f : Eng) : Dec → Bool
  | .i v =>
    (mask.testBit 1 && f == .c && instrStreams v) ||
    (mask.testBit 0 && f == .l && instrAccesses v) || (mask.testBit 1 && f == .s && instrAccesses v) ||
    (mask.testBit 2 && f == .l && instrXfer v) || (mask.testBit 3 && f == .s && instrXfer v) ||
    (mask.testBit 4 && instrLane v) || (mask.testBit 5 && instrMatrix v)
  | .sys .. => false

/-! ## Program order -/

/-- The place of a visit in an engine's walk; none where the engine has not made it (R131). -/
def Engine.visitPlace (e : Engine) (p : Pos) : Option Nat :=
  (idxs (· == p.head) e.visits.reverse)[p.visit - 1]?

/-- In the walk of an engine that has reached `b`, the place `a` of another engine comes before it (R131). -/
def Engine.precedes (e : Engine) (a b : Pos) : Bool :=
  match e.visitPlace a, e.visitPlace b with
  | some i, some j => decide (i < j) || (i == j && decide (a.off < b.off))
  | _, _ => false

/-- An access comes before another of the same task in program order. -/
def Ctx.before (c : Ctx) (a b : Access) : Bool :=
  if a.eng = b.eng then decide (a.id < b.id) else (c.eng b.eng).precedes a.pos b.pos

/-- The visits of an engine, each with its number among those of its header, oldest first. -/
def visitsOf (vs : List Nat) : List (Nat × Nat) :=
  (List.range vs.length).map fun i => (vs.getD i 0, (vs.take (i + 1)).count (vs.getD i 0))

/-- The parcels of a `sunbind` that has issued and waits: its engine stands at it still (R213). -/
def Engine.unbindLen (e : Engine) : Nat := match e.wait with | .sunbind .. => e.wlen | _ => 0

/-- What engine `f` has yet to issue that comes before the place `p` of engine `e` in program order: the rest
of its block, and the blocks that `e` has visited before `p` and `f` has not reached (R131). -/
def State.unissued (s : State) (k : Nat) (e f : Eng) (p : Pos) : List Dec :=
  let c := s.ctx k
  let ge := c.eng e
  let gf := c.eng f
  if gf.wait == .tend then []
  else
    let vs := ge.visits.reverse
    let here := (ge.visitPlace p).getD vs.length
    let last : Option Nat :=
      match gf.visits with
      | [] => none
      | h :: _ => ge.visitPlace { head := h, visit := gf.visits.count h, off := 0 }
    let ahead := gf.visits != [] && last.isNone
    if ahead then []
    else
      let from_ := match last with | some i => i + 1 | none => 0
      let blocks := ((vs.take here).drop from_).flatMap fun h =>
        match s.headerAt k f true h with
        | .ok (some i) =>
          (match headerFields i with
           | some (b, m) => if maskHas m f then s.bodyInstrs k f 4096 (h + 2) (h + 2 + b.toNat) else []
           | none => [])
        | _ => []
      let rest :=
        match gf.blk, last with
        | some b, some i =>
          if i < here then
            s.bodyInstrs k f 4096 (if b.left = 0 then gf.pc + gf.unbindLen else b.head + 2) b.next
          else []
        | _, _ => []
      (rest ++ blocks).map (·.2)

/-- Every other engine has issued what satisfies `q` and comes before a place. -/
def State.issuedBefore (s : State) (k : Nat) (e : Eng) (p : Pos) (q : Dec → Bool) : Bool :=
  allEngs.all fun f => f == e || !(s.unissued k e f p).any q

/-! ## Commands -/

/-- The bytes of an element of a format. -/
def elemBytes (f : Fmt) : Nat := fmtWidth f / 8

/-- The elements of a command (R255). -/
def Xfer.total (x : Xfer) : Nat := (x.dims.map (·.cnt)).foldl (· * ·) 1

/-- Every write of the command has been made, or it makes no more (R260, R261). -/
def Xfer.finished (x : Xfer) : Bool :=
  x.drop || x.fault.isSome ||
  (if x.kind = .creq then x.moved && decide ((lineParts x.dbase (x.dim * elemBytes x.tf)).length ≤ x.next)
   else decide (x.total ≤ x.next))

/-! ## Targets -/

/-- The target of a part (R127). -/
inductive Target where
  | spad (core : Nat)
  | route (slice : Nat)
  | slice (n : Nat)
  deriving DecidableEq, Repr

/-- The target of a part of an access (R127). -/
def State.target (s : State) (p : Part) : Target :=
  match p.place with
  | .spad c => .spad c
  | .peer c => .route (routeOf c)
  | .mem => .slice (s.home p.addr)

/-- The home slice of a target: of a line of device memory (R137). -/
def targetSlice : Target → Option Nat
  | .slice n => some n
  | _ => none

/-- The home slice of a column's lines (R111). -/
def State.colSlice (s : State) (col : Nat) : Nat := 8 * (col / 68) + s.placeOf (col / 68) (col % 68) / 8

/-- The targets of the parts that have not performed; of a `creq` the slice of its column until its rows are read
(R142). -/
def State.openTargets (s : State) (a : Access) : List Target :=
  match a.kind with
  | .xfer x => if x.kind = .creq ∧ !x.moved then [.slice (s.colSlice x.col)] else []
  | _ => (a.parts.filter fun p => !p.done).map s.target

/-- The operation of an access acquires (R138, R143). -/
def opAcquires : SliceOp → Bool
  | .barwait .. | .sqlen .. | .sqwait .. | .sqfork .. | .sqattn .. => true
  | _ => false

/-- The operation of an access releases (R138, R143). -/
def opReleases : SliceOp → Bool
  | .bararr .. | .sqcmt .. | .sqacc .. => true
  | _ => false

/-- An access acquires: every later one performs after it (R138, R139, R143). -/
def Access.acquires (a : Access) : Bool :=
  (match a.ord with | some o => o.acq | none => false) ||
  (match a.kind with | .op o => opAcquires o | .qload .. => true | .fence => true | _ => false)

/-- An access releases: it performs after every earlier one (R138, R139, R143). -/
def Access.releases (a : Access) : Bool :=
  (match a.ord with | some o => o.rel | none => false) ||
  (match a.kind with | .op o => opReleases o | .fence => true | _ => false)

/-- The scope of an access: that of its prefix, or the device (R139, R143). -/
def Access.scope (a : Access) : Scope := match a.ord with | some o => o.scope | none => .device

/-- A marker of X (R137). -/
def Access.isOp (a : Access) : Bool := match a.kind with | .op _ => true | _ => false
/-- A transfer command (R140). -/
def Access.isXfer (a : Access) : Bool := match a.kind with | .xfer _ => true | _ => false
/-- A `mark` or a `fence`. -/
def Access.isMark (a : Access) : Bool := match a.kind with | .mark | .fence => true | _ => false
/-- A `mark`, `fence` or `qfence`. -/
def Access.isFence (a : Access) : Bool :=
  match a.kind with | .mark | .fence | .qfence _ => true | _ => false

/-- The condition of a `qfence` mask over an earlier access (R141). LDQ and STQ wait for no operation of X, though the markers of
an atomic or a single-line region stand in both queues (R177; DESIGN CHOICE, log 114). -/
def qfenceCovers (mask : Nat) (b : Access) : Bool :=
  match b.kind with
  | .xfer _ => (mask.testBit 2 && b.eng == .l) || (mask.testBit 3 && b.eng == .s)
  | .op _ => false
  | .mark | .fence | .qfence _ => false
  | _ => (mask.testBit 0 && b.inL) || (mask.testBit 1 && b.inS)

/-- A transfer command that is no `creq`: of the other instructions only those that order every later access hold it back
(R131, R135, R138, R140). -/
def Access.isCopy (a : Access) : Bool := match a.kind with | .xfer x => x.kind != .creq | _ => false

/-- An earlier access holds back a later one of the two queues that has a part for the target `t` (R132-R139). -/
def State.ordersAccess (s : State) (b a : Access) (t : Option Target) : Bool :=
  match a.kind with
  | .mark => !b.isOp
  | .fence => true
  | _ =>
    b.acquires || a.releases ||
    (match t with
     | none => false
     | some tt =>
       if b.isOp || a.isOp then
         (match targetSlice tt with
          | some n => (s.openTargets b).any fun u => targetSlice u == some n
          | none => false)
       else
         ((b.inL && a.inL) || (b.inS && a.inS)) && (s.openTargets b).contains tt)

/-- An earlier access or command holds back a later one that has a part for the target `t` (R132-R142). -/
def State.holdsBack (s : State) (b a : Access) (t : Option Target) : Bool :=
  match b.kind with
  | .qfence m => m % 64 != 0
  | .mark => !a.isOp
  | .fence => true
  | .xfer x =>
    (match a.kind with
     | .xfer _ => b.eng == a.eng || (x.kind == .creq && !x.moved && !a.isCopy && s.ordersAccess b a t)
     | .qfence m => qfenceCovers m b
     | _ => x.kind == .creq && !x.moved && s.ordersAccess b a t)
  | _ =>
    match a.kind with
    | .qfence m => qfenceCovers m b
    | _ => if a.isCopy then b.acquires else s.ordersAccess b a t

/-- What an access that releases waits for until it has issued: every access before it, and at system scope the transfer
commands (R126, R131). -/
def Access.awaits (a : Access) (d : Dec) : Bool :=
  decOrders d || decAccesses d ||
  (a.releases && a.scope == .system && (match d with | .i v => instrXfer v | .sys .. => false))

/-- What other engines must have issued before an access may perform (R131). -/
def State.othersIssued (s : State) (k : Nat) (a : Access) : Bool :=
  match a.kind with
  | .xfer x => s.issuedBefore k a.eng a.pos fun d =>
      if x.kind == .creq then decOrders d else decGates d
  | .mark | .fence => s.issuedBefore k a.eng a.pos a.awaits
  | .qfence m => allEngs.all fun f => f == a.eng || !(s.unissued k a.eng f a.pos).any (decFenced m f)
  | .op _ => s.issuedBefore k a.eng a.pos a.awaits
  | _ =>
    if a.releases then s.issuedBefore k a.eng a.pos a.awaits
    else s.issuedBefore k a.eng a.pos decOrders

/-- A `qfence` that precedes a command of C in program order holds it back: it has not issued, or its condition does not
hold yet (R131, R141). -/
def State.fencedOff (s : State) (k : Nat) (p : Pos) : Bool :=
  let c := s.ctx k
  (c.mq.any fun b => match b.kind with | .qfence m => m % 64 != 0 && (c.eng .c).precedes b.pos p | _ => false) ||
  !s.issuedBefore k .c p fun d => match d with | .i (.qfence ..) => true | _ => false

/-- The core whose scratchpad a part reaches. -/
def partCore : Part → Option Nat
  | { place := .spad c, .. } => some c
  | { place := .peer c, .. } => some c
  | _ => none

/-- A unit store of a stream of a context waits for headroom at a slice: later accesses of the store queue wait behind it
there (R132, R303). -/
def State.streamWaitsAt (s : State) (k slice : Nat) : Bool :=
  s.parts.any fun p => p.2.waits.any fun w =>
    w.ctx == some (k, .s) && decide (2 ^ 40 ≤ w.id ∧ w.id < 2 ^ 41) && w.slice == slice

/-- A request to open a single-line region. -/
def Access.opens (a : Access) : Bool := match a.kind with | .op (.alrb ..) => true | _ => false

/-- Nothing of its task orders an access after something that has not happened, as far as a part of it for the target `t`
goes (R131-R142). -/
def State.inOrder (s : State) (k : Nat) (a : Access) (t : Option Target) : Bool :=
  let c := s.ctx k
  c.mq.all (fun b => b.id == a.id || !c.before b a || !s.holdsBack b a t) && s.othersIssued k a

/-- An access will perform without the engines of its task: what other engines must issue before it they have issued, and
whatever holds it back will perform so too (R32, R106). -/
def State.willPerform (s : State) (k : Nat) : Nat → Access → Bool
  | 0, _ => false
  | n + 1, a =>
    let c := s.ctx k
    let free (t : Option Target) : Bool :=
      c.mq.all fun b => b.id == a.id || !c.before b a || !s.holdsBack b a t || s.willPerform k n b
    s.othersIssued k a && (if a.isXfer || a.parts.all (·.done) then free none else a.parts.any fun p => !p.done && free (some (s.target p)))

/-- The same, of an access of a context's queues. -/
def State.comes (s : State) (k : Nat) (a : Access) : Bool := s.willPerform k ((s.ctx k).mq.length + 1) a

/-- Nothing orders a part of an access after something that has not happened: it may perform (R131-R141). A part that
reaches the scratchpad of another core waits while its `ctl.split` changes (R106), and a line that another context
holds for a single-line region waits for its release (R182); the request for one waits at the slice. -/
def State.mayPerform (s : State) (k : Nat) (a : Access) (p : Option Part) : Bool :=
  let t := match a.kind with
    | .xfer x => if x.kind = .creq then some (.slice (s.colSlice x.col)) else none
    | _ => p.map s.target
  s.inOrder k a t &&
  (match p with
   | none => true
   | some q =>
     (match partCore q with | some n => n == k / 4 || !(s.core n).splitting | none => true) &&
     (match q.place with
      | .mem => (a.opens || s.held.all fun h => h.line != q.addr / 128 || h.ctx == k) &&
          !(a.inS && s.streamWaitsAt k (s.home q.addr))
      | _ => true))

end Sys2Proof.Machine
end

