-- ==== Sys2Proof/Machine/Numerics.lean ====
section
/-! DEFINITION. Number formats and arithmetic: exact extended reals, one rounding, and the conversions
(spec/05_number_formats.md R75-R102). Values are exact rationals until the one place where they are rounded. -/

namespace Sys2Proof.Machine

/-- An extended real with signed zeros and NaN: a finite one is `num / den` with its sign apart. -/
inductive XR where
  | nan
  | inf (neg : Bool)
  | fin (neg : Bool) (num den : Nat)
  deriving DecidableEq, Repr

/-- Zero of a sign. -/
def XR.zero (neg : Bool) : XR := .fin neg 0 1

/-- The value is a zero. -/
def XR.isZero : XR → Bool
  | .fin _ n _ => n == 0
  | _ => false

/-- The value is NaN. -/
def XR.isNan : XR → Bool
  | .nan => true
  | _ => false

/-- The value is infinite. -/
def XR.isInf : XR → Bool
  | .inf _ => true
  | _ => false

/-- The sign of a value. -/
def XR.neg? : XR → Bool
  | .fin s _ _ => s
  | .inf s => s
  | .nan => false

/-- The integer `n` over `d`. -/
def XR.ofInt (n : Int) (d : Nat := 1) : XR := .fin (decide (n < 0)) n.natAbs d

/-- The value times a power of two. -/
def XR.scale2 : XR → Int → XR
  | .fin s n d, k => if 0 ≤ k then .fin s (n * 2 ^ k.toNat) d else .fin s n (d * 2 ^ (-k).toNat)
  | x, _ => x

/-- The negation of a value. -/
def XR.negate : XR → XR
  | .nan => .nan
  | .inf s => .inf (!s)
  | .fin s n d => .fin (!s) n d

/-- The magnitude of a value. -/
def XR.abs : XR → XR
  | .nan => .nan
  | .inf _ => .inf false
  | .fin _ n d => .fin false n d

/-- Two fractions over one denominator. -/
def commonDen (n d m e : Nat) : Nat × Nat × Nat :=
  if d = e then (n, m, d)
  else if e % d = 0 then (n * (e / d), m, e)
  else if d % e = 0 then (n, m * (d / e), d)
  else (n * e, m * d, d * e)

/-- The exact sum by IEEE 754: ∞ − ∞ is NaN, and an exact zero sum of unlike signs is −0 under RDN and +0
otherwise (R87, R91). -/
def XR.add (rm : Rm) : XR → XR → XR
  | .nan, _ => .nan
  | _, .nan => .nan
  | .inf s, .inf t => if s = t then .inf s else .nan
  | .inf s, .fin .. => .inf s
  | .fin .., .inf t => .inf t
  | .fin s n d, .fin t m e =>
    let (a, b, q) := commonDen n d m e
    if s = t then .fin s (a + b) q
    else if a = b then .fin (rm == .rdn) 0 1
    else if b < a then .fin s (a - b) q
    else .fin t (b - a) q

/-- The exact product by IEEE 754: 0 × ∞ is NaN (R91). -/
def XR.mul : XR → XR → XR
  | .nan, _ => .nan
  | _, .nan => .nan
  | .inf s, .inf t => .inf (s != t)
  | .inf s, .fin t m _ => if m = 0 then .nan else .inf (s != t)
  | .fin s n _, .inf t => if n = 0 then .nan else .inf (s != t)
  | .fin s n d, .fin t m e => .fin (s != t) (n * m) (d * e)

/-- The exact quotient by IEEE 754: 0 / 0 and ∞ / ∞ are NaN, and a non-zero value over zero is infinite
(R91). -/
def XR.div : XR → XR → XR
  | .nan, _ => .nan
  | _, .nan => .nan
  | .inf _, .inf _ => .nan
  | .inf s, .fin t _ _ => .inf (s != t)
  | .fin s _ _, .inf t => .fin (s != t) 0 1
  | .fin s n d, .fin t m e =>
    if m = 0 then (if n = 0 then .nan else .inf (s != t)) else .fin (s != t) (n * e) (d * m)

/-- The order of two values that are not NaN, zeros of both signs being equal. -/
def XR.lt : XR → XR → Bool
  | .nan, _ => false
  | _, .nan => false
  | .inf s, .inf t => s && !t
  | .inf s, .fin .. => s
  | .fin .., .inf t => !t
  | .fin s n d, .fin t m e =>
    let a : Int := (if s then -1 else 1) * (n * e : Nat)
    let b : Int := (if t then -1 else 1) * (m * d : Nat)
    decide (a < b)

/-- Equality of two values that are not NaN, zeros of both signs being equal. -/
def XR.eqv (a b : XR) : Bool := !a.isNan && !b.isNan && !a.lt b && !b.lt a

/-! ## Floating formats -/

/-- What a floating format is: precision, exponent of the smallest normal, magnitude code of the largest
finite value, place of the sign bit, infinities, signedness, and the code of its NaN (R76-R78, R84, R85). -/
structure FltSpec where
  p    : Nat
  emin : Int
  maxc : Nat
  sign : Nat
  inf  : Bool
  uns  : Bool
  nan  : Nat
  ieee : Bool
  deriving DecidableEq, Repr

/-- The floating formats (R76-R78, R84, R85); none for an integer or half-step format. -/
def fltSpec : Fmt → Option FltSpec
  | .fp16 => some { p := 11, emin := -14, maxc := 0x7BFF, sign := 15, inf := true, uns := false, nan := 0x7E00, ieee := true }
  | .bf16 => some { p := 8, emin := -126, maxc := 0x7F7F, sign := 15, inf := true, uns := false, nan := 0x7FC0, ieee := true }
  | .fp32 => some { p := 24, emin := -126, maxc := 0x7F7FFFFF, sign := 31, inf := true, uns := false, nan := 0x7FC00000, ieee := true }
  | .a56 => some { p := 45, emin := -1022, maxc := 0x7FF * 2 ^ 44 - 1, sign := 55, inf := true, uns := false, nan := 0x7FF80000000000, ieee := true }
  | .b8 p uns fin =>
    some { p := p, emin := 1 - (2 ^ ((if uns then 8 else 7) - p) : Nat),
           maxc := if uns then (if fin then 0xFE else 0xFD) else (if fin then 0x7F else 0x7E),
           sign := 7, inf := !fin, uns := uns, nan := if uns then 0xFF else 0x80, ieee := false }
  | _ => none

/-- The value of a code of a floating format (R76, R84, R85); with `ftz` a subnormal reads as zero of its
sign, which in the binary8 family is 0x00 (R77, R90). -/
def fltValue (sp : FltSpec) (ftz : Bool) (code : Nat) : XR :=
  let mag := if sp.uns then code % 256 else code % 2 ^ sp.sign
  let neg := !sp.uns && code.testBit sp.sign
  if (!sp.ieee && code == sp.nan) || (sp.ieee && decide (sp.maxc + 1 < mag)) then .nan
  else if sp.inf && mag == sp.maxc + 1 then .inf neg
  else
    let e := mag / 2 ^ (sp.p - 1)
    let f := mag % 2 ^ (sp.p - 1)
    if e = 0 then if ftz then .zero (neg && sp.ieee) else (XR.fin neg f 1).scale2 (sp.emin - (sp.p - 1 : Nat))
    else (XR.fin neg (2 ^ (sp.p - 1) + f) 1).scale2 (sp.emin + (e : Int) - 1 - (sp.p - 1 : Nat))

/-- ⌊log2 (n / d)⌋ for a positive fraction. -/
def log2Floor (n d : Nat) : Int :=
  let k : Int := (Nat.log2 n : Int) - (Nat.log2 d : Int)
  let ge (k : Int) : Bool := if 0 ≤ k then decide (d * 2 ^ k.toNat ≤ n) else decide (d ≤ n * 2 ^ (-k).toNat)
  if ge k then (if ge (k + 1) then k + 1 else k) else k - 1

/-- Which neighbour a rounding takes above the lower one: the remainder `r` of a step `t`, the parity of the
lower candidate's code, and the sign of the value (R87). -/
def roundUp (rm : Rm) (neg : Bool) (r t : Nat) (odd : Bool) : Bool :=
  if r = 0 then false
  else
    match rm with
    | .rne => decide (t < 2 * r) || (decide (2 * r = t) && odd)
    | .rna => decide (t ≤ 2 * r)
    | .rtz => false
    | .rdn => neg
    | .rup => !neg

/-- The magnitude code to which a positive fraction rounds on the grid of a format, extended without limit
above its largest finite value (R87), and whether the result is exact. -/
def roundMag (sp : FltSpec) (rm : Rm) (neg : Bool) (n d : Nat) : Nat :=
  if n = 0 then 0
  else
    let e := max (log2Floor n d) sp.emin
    let q := e - (sp.p - 1 : Nat)
    let (a, b) := if 0 ≤ q then (n, d * 2 ^ q.toNat) else (n * 2 ^ (-q).toNat, d)
    let m := a / b
    let base := (e - sp.emin).toNat * 2 ^ (sp.p - 1)
    let c := base + m
    if roundUp rm neg (a % b) b (c % 2 == 1) then c + 1 else c

/-- The code of a signed magnitude; binary8 has no negative zero (R77). -/
def signCode (sp : FltSpec) (neg : Bool) (mag : Nat) : Nat :=
  if neg && (sp.ieee || mag != 0) then mag + 2 ^ sp.sign else mag

/-- The events of a conversion (R94): NAN, INF, OVF, SUB. -/
structure Events where
  nan : Bool := false
  inf : Bool := false
  ovf : Bool := false
  sub : Bool := false
  deriving DecidableEq, Repr

/-- The event mask of R94. -/
def Events.mask (e : Events) : Nat := e.nan.toNat + 2 * e.inf.toNat + 4 * e.ovf.toNat + 8 * e.sub.toNat

/-- A value rounded once into a floating format, with overflow, infinities, NaN and flushing (R87, R89-R91),
and the events it raises (R94). A negative source of an unsigned format whose rounded magnitude is subnormal raises no SUB
(DESIGN CHOICE, log 136). -/
def fltRound (sp : FltSpec) (rm : Rm) (sat ftz : Bool) (x : XR) : Nat × Events :=
  match x with
  | .nan => (sp.nan, { nan := true })
  | .inf s =>
    if sp.uns && s then (if sat then (0, { inf := true }) else (sp.nan, { inf := true, nan := true }))
    else if sat then (signCode sp s sp.maxc, { inf := true })
    else if sp.inf then (signCode sp s (sp.maxc + 1), { inf := true })
    else (sp.nan, { inf := true, nan := true })
  | .fin s n d =>
    let c := roundMag sp rm s n d
    let subn := decide (0 < c ∧ c < 2 ^ (sp.p - 1))
    let c' := if ftz && subn then 0 else c
    let sub := subn || (decide (0 < n) && c' == 0)
    if sp.uns && s && c != 0 then
      (if sat then (0, { ovf := decide (sp.maxc < c) }) else (sp.nan, { nan := true, ovf := decide (sp.maxc < c) }))
    else if c' ≤ sp.maxc then (signCode sp s c', { sub := sub })
    else if sat then (signCode sp s sp.maxc, { ovf := true })
    else
      let toMax := match rm with
        | .rne | .rna => false
        | .rtz => true
        | .rdn => !s
        | .rup => s
      if toMax then (signCode sp s sp.maxc, { ovf := true })
      else if sp.inf then (signCode sp s (sp.maxc + 1), { ovf := true })
      else (sp.nan, { ovf := true, nan := true })

/-! ## Integers and half-step formats -/

/-- What an integer or half-step format is: width, whether its codes are two's complement, whether it has
the half-step grid, and the integer part of the value of code 0 (R79, R80). -/
structure IntSpec where
  w    : Nat
  sgn  : Bool
  half : Bool
  low  : Int
  deriving DecidableEq, Repr

/-- The integer and half-step formats (R79, R80); none for a floating format. -/
def intSpec : Fmt → Option IntSpec
  | .i4s => some { w := 4, sgn := true, half := false, low := -8 }
  | .i4n => some { w := 4, sgn := false, half := false, low := 0 }
  | .i8s => some { w := 8, sgn := true, half := false, low := -128 }
  | .i8n => some { w := 8, sgn := false, half := false, low := 0 }
  | .i16s => some { w := 16, sgn := true, half := false, low := -32768 }
  | .i32s => some { w := 32, sgn := true, half := false, low := -2147483648 }
  | .i64s => some { w := 64, sgn := true, half := false, low := -9223372036854775808 }
  | .h4s => some { w := 4, sgn := false, half := true, low := -8 }
  | .h4n => some { w := 4, sgn := false, half := true, low := 0 }
  | .h6s => some { w := 6, sgn := false, half := true, low := -32 }
  | .h8s => some { w := 8, sgn := false, half := true, low := -128 }
  | .h8n => some { w := 8, sgn := false, half := true, low := 0 }
  | _ => none

/-- The value of a code of an integer or half-step format (R79, R80). -/
def intValue (sp : IntSpec) (code : Nat) : XR :=
  let c := code % 2 ^ sp.w
  if sp.half then XR.ofInt (2 * (sp.low + c) + 1) 2
  else if sp.sgn then XR.ofInt (signed sp.w c)
  else XR.ofInt c

/-- The grid index to which a fraction rounds: the integer k of the value k, or of the value k + ½ on the
half-step grid (R87). -/
def roundGrid (half : Bool) (rm : Rm) (neg : Bool) (n d : Nat) : Int :=
  -- t = the value less the half step, over 2d
  let v : Int := (if neg then -1 else 1) * (2 * n : Nat)
  let t : Int := if half then v - d else v
  let den : Int := 2 * d
  let lo := t / den
  let r := t % den
  if r = 0 then lo
  else
    let nearLo := decide (2 * r < den)
    let tie := decide (2 * r = den)
    match rm with
    | .rdn => lo
    | .rup => lo + 1
    | .rne => if tie then (if lo % 2 = 0 then lo else lo + 1) else if nearLo then lo else lo + 1
    | .rna => if tie then (if v < 0 then lo else lo + 1) else if nearLo then lo else lo + 1
    | .rtz => if half && lo == -1 then (if v < 0 then lo else lo + 1) else if v < 0 then lo + 1 else lo

/-- A value rounded into an integer or half-step format, with the extremes of R93, and the events it raises
(R94). On the grid of `h4n` and `h8n` a value below 0.5 that rounds down is out of range, an exact zero under RDN too: R87's
words on ±0.5 are of signed grids (DEDUCED, log 98). -/
def intRound (sp : IntSpec) (rm : Rm) (sat : Bool) (x : XR) : Nat × Events :=
  let hi : Int := sp.low + 2 ^ sp.w - 1
  let code (k : Int) : Nat := if sp.half then (k - sp.low).toNat else (k % (2 ^ sp.w : Int)).toNat
  match x with
  | .nan => (if sp.half then (-sp.low).toNat else 0, { nan := true })
  | .inf s => (code (if s then sp.low else hi), { inf := true })
  | .fin s n d =>
    let k := roundGrid sp.half rm s n d
    if sp.low ≤ k ∧ k ≤ hi then
      (code k, { sub := decide (0 < n) && !sp.half && k == 0 })
    else if sp.half || sat then (code (if k < sp.low then sp.low else hi), { ovf := true })
    else (code k, { ovf := true })

/-! ## All formats -/

/-- The value of a code of any format; with `ftz` a subnormal floating operand reads as zero (R90). -/
def fmtValue (f : Fmt) (ftz : Bool) (code : Nat) : XR :=
  match fltSpec f with
  | some sp => fltValue sp ftz code
  | none =>
    match intSpec f with
    | some sp => intValue sp code
    | none => .nan

/-- A value rounded once into a format, and the events it raises (R87, R89-R94). -/
def fmtRoundEv (f : Fmt) (rm : Rm) (sat ftz : Bool) (x : XR) : Nat × Events :=
  match fltSpec f with
  | some sp => fltRound sp rm sat ftz x
  | none =>
    match intSpec f with
    | some sp => intRound sp rm sat x
    | none => (0, {})

/-- A value rounded once into a format (R87, R89-R93). -/
def fmtRound (f : Fmt) (rm : Rm) (sat ftz : Bool) (x : XR) : Nat := (fmtRoundEv f rm sat ftz x).1

/-- The conversions into a floating format that R92 lists as exact. -/
def exactConv (sf tf : Fmt) : Bool :=
  match tf with
  | .fp32 => (match sf with
    | .b8 .. | .fp16 | .bf16 | .i4s | .i4n | .i8s | .i8n | .i16s | .h4s | .h4n | .h6s | .h8s | .h8n => true | _ => false)
  | .a56 => (match sf with
    | .b8 .. | .fp16 | .bf16 | .fp32 | .i4s | .i4n | .i8s | .i8n | .i16s | .i32s | .h4s | .h4n | .h6s | .h8s | .h8n => true
    | _ => false)
  | .fp16 => (match sf with | .i4s | .i4n | .i8s | .i8n | .h4s | .h4n | .h6s | .h8s | .h8n => true | _ => false)
  | .bf16 => (match sf with | .b8 .. | .i4s | .i4n | .i8s | .i8n | .h4s | .h4n | .h6s | .h8s => true | _ => false)
  | _ => false

/-- The event of a non-zero source that FTZ reads as zero, where the result is zero (R90, R94). -/
def flushedSub (x y : XR) (r : XR) (e : Events) : Events :=
  if !x.isZero && y.isZero && r.isZero then { e with sub := true } else e

/-- A code of one format converted into another (R92, R93), with its events (R94): an exact conversion neither rounds nor
flushes, and SAT acts on an infinity alone, as on every infinite result (R89; log 97). -/
def convertEv (sf tf : Fmt) (rm : Rm) (sat ftz : Bool) (code : Nat) : Nat × Events :=
  let x := fmtValue sf false code
  if exactConv sf tf then fmtRoundEv tf .rne sat false x
  else
    let y := fmtValue sf ftz code
    let r := fmtRoundEv tf rm sat ftz y
    (r.1, flushedSub x y (fmtValue tf false r.1) r.2)

/-- A code of one format converted into another (R92, R93). -/
def convert (sf tf : Fmt) (rm : Rm) (sat ftz : Bool) (code : Nat) : Nat := (convertEv sf tf rm sat ftz code).1

/-- An A56 value rounded RNE, neither saturating nor flushing (R88). -/
def a56Round (x : XR) : BitVec 56 := BitVec.ofNat 56 (fmtRound .a56 .rne false false x)
/-- The value of an A56 code (R85). -/
def a56Value (c : BitVec 56) : XR := fmtValue .a56 false c.toNat
/-- A sum in A56 with one RNE rounding (R95, R98, R99). -/
def a56Add (a : BitVec 56) (b : XR) : BitVec 56 := a56Round ((a56Value a).add .rne b)

/-- FP32, rounded RNE. -/
def f32Round (x : XR) : Nat := fmtRound .fp32 .rne false false x
/-- The value of an FP32 code. -/
def f32Value (c : Nat) : XR := fmtValue .fp32 false c
/-- The value of a BF16 code. -/
def bf16Value (c : Nat) : XR := fmtValue .bf16 false c

/-! ## Block records -/

/-- The element codes of a record of a format, after its scale byte (R82). -/
def recordCodes (f : Fmt) (bs : List Byte) : List Nat :=
  let v := leNat bs
  (List.range 32).map fun i => v / 2 ^ (fmtWidth f * i) % 2 ^ fmtWidth f

/-- The value of a scale byte, b8p5uf (R82). -/
def scaleValue (b : Byte) : XR := fmtValue (.b8 5 true true) false b.toNat

/-- The bytes of a record from its scale and its element codes (R82). -/
def recordBytes (f : Fmt) (scale : Byte) (codes : List Nat) : List Byte :=
  let v := (List.range 32).foldl (fun a i => a + (codes.getD i 0) % 2 ^ fmtWidth f * 2 ^ (fmtWidth f * i)) 0
  scale :: leBytes (4 * fmtWidth f) v

/-- The exact sum of a list of values, the first first (R95). -/
def xsum : List XR → XR
  | [] => .zero false
  | x :: r => r.foldl (XR.add .rne) x

/-- The exact sum of the products of two blocks of elements times their scales: the block value of R95. -/
def blockValue (a b : List XR) (sa sb : XR) : XR :=
  (xsum ((a.zip b).map fun p => p.1.mul p.2)).mul (sa.mul sb)

/-- The tree of R98: adjacent pairs combine level by level until one value remains. -/
def treePairs {α : Type} (f : α → α → α) : List α → List α
  | a :: b :: r => f a b :: treePairs f r
  | l => l

/-- The value that the tree leaves, for a list of at most 2 ^ `fuel` values (R98). -/
def treeFold {α : Type} (f : α → α → α) : Nat → List α → List α
  | 0, l => l
  | n + 1, l => treeFold f n (treePairs f l)

/-- The reduction tree over a list (R98). -/
def reduceTree {α : Type} (f : α → α → α) (d : α) (l : List α) : α := (treeFold f 10 l).headD d

/-! ## Transcendental functions (R198) -/

/-- The fractional bits of the fixed-point values below. -/
def fxBits : Nat := 640

/-- The sum of a power series in fixed point: term `k` from the one before, at most `n` terms. -/
def fxSeries (next : Nat → Nat → Nat) : Nat → Nat → Nat → Nat → Nat
  | 0, _, _, acc => acc
  | n + 1, k, t, acc => if t = 0 then acc else fxSeries next n (k + 1) (next k t) (acc + t)

/-- ln 2 in fixed point: twice the sum of (1/3)^(2k+1) / (2k+1). -/
def fxLn2 : Nat :=
  2 * (List.range 420).foldl (fun a k => a + 2 ^ fxBits / ((2 * k + 1) * 3 ^ (2 * k + 1))) 0

/-- e^f in fixed point for 0 ≤ f < 1. -/
def fxExp (f : Nat) : Nat :=
  fxSeries (fun k t => t * f / 2 ^ fxBits / (k + 1)) 400 0 (2 ^ fxBits) 0

/-- A value known to lie strictly above `n` over 2^fxBits and below the next step: the middle of the two,
which rounds as it does, since no rounding boundary lies between them. -/
def fxMid (n : Nat) : XR := .fin false (2 * n + 1) (2 ^ (fxBits + 1))

/-- 2^x for a finite fraction that is no integer, by its integer part and its fraction in fixed point. -/
def exp2Fixed (ip : Int) (frac : Nat) : XR := (fxMid (fxExp (frac * fxLn2 / 2 ^ fxBits))).scale2 ip

/-- 2^x, exact for an integer; far outside the range of every format the exponent is limited, where it rounds
alike (R198). -/
def xExp2 : XR → XR
  | .nan => .nan
  | .inf s => if s then .zero false else .inf false
  | .fin s n d =>
    let v : Int := if s then -(n : Int) else n
    let ip := v / (d : Int)
    let r := (v % (d : Int)).toNat
    if 4000 < ip then (XR.fin false 1 1).scale2 4000
    else if ip < -4000 then (XR.fin false 1 1).scale2 (-4000)
    else if r = 0 then (XR.fin false 1 1).scale2 ip
    else exp2Fixed ip (r * 2 ^ fxBits / d)

/-- The bits of log2 of a fixed-point value in [1, 2), one by one. -/
def log2Bits : Nat → Nat → Nat → Nat
  | 0, _, acc => acc
  | k + 1, m, acc =>
    let q := m * m / 2 ^ fxBits
    if 2 ^ (fxBits + 1) ≤ q then log2Bits k (q / 2) (2 * acc + 1) else log2Bits k q (2 * acc)

/-- log2 x, exact for a power of two (R198). -/
def xLog2 : XR → XR
  | .nan => .nan
  | .inf s => if s then .nan else .inf false
  | .fin s n d =>
    if n = 0 then .inf true
    else if s then .nan
    else
      let e := log2Floor n d
      let (a, b) := if 0 ≤ e then (n, d * 2 ^ e.toNat) else (n * 2 ^ (-e).toNat, d)
      if a = b then XR.ofInt e
      else
        let f := log2Bits 256 (a * 2 ^ fxBits / b) 0
        XR.ofInt (e * 2 ^ 257 + 2 * f + 1) (2 ^ 257)

/-- 1/√x: the floor of the root at high precision, and the middle above it where the root is not exact
(R198). -/
def xRsqrt : XR → XR
  | .nan => .nan
  | .inf s => if s then .nan else .zero false
  | .fin s n d =>
    if n = 0 then .inf s
    else if s then .nan
    else
      -- 1/√(n/d) = √(d/n)
      let q := d * 2 ^ (2 * fxBits) / n
      let r := Nat.sqrt q
      if r * r * n = d * 2 ^ (2 * fxBits) then .fin false r (2 ^ fxBits) else fxMid r

/-- 1/x (R198). -/
def xRecip (x : XR) : XR := XR.div (.fin false 1 1) x

/-- tanh x: for a small x it lies next to x towards zero, and for a large one next to ±1 (R198). -/
def xTanh : XR → XR
  | .nan => .nan
  | .inf s => .fin s 1 1
  | .fin s n d =>
    if n = 0 then .zero s
    else if n * 2 ^ 60 < d then .fin s (n * (2 ^ 100 - 1)) (d * 2 ^ 100)
    else if 100 * d < n then .fin s (2 ^ 200 - 1) (2 ^ 200)
    else
      -- e^(2x) = 2^(2x / ln 2)
      let y := 2 * n * 2 ^ (2 * fxBits) / (d * fxLn2)
      let ip := y / 2 ^ fxBits
      let f := fxExp (y % 2 ^ fxBits * fxLn2 / 2 ^ fxBits)
      let e := f * 2 ^ ip
      let one := 2 ^ fxBits
      .fin s (e - one) (e + one)

/-- The largest finite positive value of a format as a target of quantisation (R201). -/
def qmax (f : Fmt) : XR :=
  match fltSpec f with
  | some sp => fltValue sp false sp.maxc
  | none =>
    match intSpec f with
    | some sp => intValue sp (if sp.sgn then 2 ^ (sp.w - 1) - 1 else 2 ^ sp.w - 1)
    | none => .nan

/-! ## Maxima, quotients and the merge of attention triples -/

/-- One value lies below another, −0 below +0 (R197). -/
def XR.below (a b : XR) : Bool := a.lt b || (a.isZero && b.isZero && a.neg? && !b.neg?)

/-- The larger of two values; of a NaN and another value, the other (R197). -/
def XR.larger (a b : XR) : XR :=
  if a.isNan then b else if b.isNan then a else if a.below b then b else a

/-- The smaller of two values; of a NaN and another value, the other (R197). -/
def XR.smaller (a b : XR) : XR :=
  if a.isNan then b else if b.isNan then a else if b.below a then b else a

/-- The quotient of a quantisation: 0 over a zero scale is 0 (R201). -/
def quantQuot (x s : XR) : XR := if x.isZero && s.isZero then x else x.div s

/-- 2^x in FP32, rounded RNE (R198). -/
def f32Exp2 (c : Nat) : Nat := f32Round (xExp2 (f32Value c))

/-- The canonical NaN of FP32 (R84). -/
def f32Nan : Nat := 0x7FC00000

/-- The weight of a triple whose maximum is `x` in a merge to the maximum `m` (R206). -/
def mergeWeight (m x : Nat) : XR :=
  if (f32Value x).eqv (f32Value m) then XR.ofInt 1
  else if f32Value x = .inf true then .zero false
  else f32Value (f32Exp2 (f32Round ((f32Value x).add .rne (f32Value m).negate)))

/-- A weighted sum of two FP32 values with one rounding (R206). -/
def mergeSum (fa fb : XR) (a b : Nat) : Nat :=
  f32Round (((f32Value a).mul fa).add .rne ((f32Value b).mul fb))

/-- A partial attention result: maximum, sum and outputs as FP32 codes. -/
structure Triple where
  m : Nat
  s : Nat
  o : List Nat
  deriving DecidableEq, Repr

/-- Two triples merged (R206). -/
def mergeTriples (a b : Triple) : Triple :=
  if (f32Value a.m).isNan || (f32Value b.m).isNan then
    { m := f32Nan, s := f32Nan, o := a.o.map fun _ => f32Nan }
  else
    let m := f32Round ((f32Value a.m).larger (f32Value b.m))
    let fa := mergeWeight m a.m
    let fb := mergeWeight m b.m
    { m := m, s := mergeSum fa fb a.s b.s, o := (a.o.zip b.o).map fun p => mergeSum fa fb p.1 p.2 }

end Sys2Proof.Machine
end

