-- ==== Sys2Proof/Machine/SliceOps.lean ====
section
/-! DEFINITION. What the operations of X do at a home slice: atomics, single-line regions and barriers
(spec/13_memory_instructions.md R179, R182, R183, R188, spec/07_memory.md R125). -/

namespace Sys2Proof.Machine

/-- What an operation at its slice comes to: performed with a result, waiting, or a trap raised. -/
inductive OpRes where
  | done (s : State) (v : Quad)
  | wait (s : State)
  | trap (s : State)
  deriving DecidableEq, Repr

/-- A line of device memory delivered by its slice to an access of a context: under POL = 1 a poisoned line traps instead,
under POL = 0 it counts (R125). -/
def State.deliver (s : State) (k : Nat) (e : Eng) (off va pa : Nat) : State × Bool :=
  let t := s.l2Fill (pa / 128)
  if t.linePoisoned (pa / 128) then
    let c := t.ctx k
    if c.pol then ((t.poisonEvent c.part pa true).raiseAt k e off .poison va, false)
    else ((t.poisonEvent c.part pa false).modCtx k (fun c => c.poisoned 1), true)
  else (t, true)

/-- Bytes of a live control block lie among `n` bytes at an address (R268). -/
def State.hitsScb (s : State) (pa n : Nat) : Bool :=
  s.seqs.any fun q => q.2.live && decide (q.1 < pa + n ∧ pa < q.1 + 256)

/-- Marked bytes written into a committed line as one event (R128, R182); where one access has written all 128 of them
the poison of the line is cleared, and else they merge into zeros (R125). -/
def State.commitMasked (s : State) (line : Nat) (whole : Bool) (marks : List (Nat × Byte)) : State :=
  if marks = [] then s
  else
    let bs := overlaid marks 0 (s.committed (128 * line) 128)
    let t := s.markDirty line
    { t with
      mem := memWrite t.mem (128 * line) bs
      poison := if whole then t.poison.filter (· != line) else t.poison }

/-- The value an atomic writes, of `w` bits (R179). -/
def atomicNew (op : AOp) (w old b c : Nat) : Nat :=
  let m := 2 ^ w
  match op with
  | .add => (old + b) % m
  | .and => old &&& b
  | .or => old ||| b
  | .xor => old ^^^ b
  | .min => if signed w b < signed w old then b else old
  | .max => if signed w old < signed w b then b else old
  | .minU => if b < old then b else old
  | .maxU => if old < b then b else old
  | .swp => b
  | .cas => if old = c then b else old
  | .faddF => f32Round ((f32Value old).add .rne (f32Value b))
  | .faddA => (a56Add (BitVec.ofNat 56 old) (a56Value (BitVec.ofNat 56 b))).toNat
  | .binc => if b ≤ old then 0 else old + 1

/-- An atomic at its slice: it reads and writes the committed line and removes it from the issuing core's L1
(R179, R180, R144). A write to a clean line of a compressible page needs headroom first (R303), and one into a live
control block traps (R268). -/
def State.opAtomic (s : State) (k id off va pa : Nat) (op : AOp) (bytes : Nat) (b c : Quad) : OpRes :=
  let (s1, go) := s.deliver k .x off va pa
  if !go then .trap s1
  else
    let w := 8 * bytes
    let old := leNat (s1.committed pa bytes)
    let new := atomicNew op w old (b.toNat % 2 ^ w) (c.toNat % 2 ^ w)
    if op = .cas ∧ new = old then .done (s1.l1Drop (k / 4) (pa / 128)) (quadN old)
    else if s1.hitsScb pa bytes then .trap (s1.raiseAt k .x off .prot va)
    else
      let part := (s.ctx k).part
      match s1.reserveLine part pa with
      | none => .wait (s.waitSpace part pa (some (k, .x)) id)
      | some s2 =>
        .done (((s2.dropWait part pa (some (k, .x)) id).commitBytes pa (leBytes bytes new)).l1Drop (k / 4) (pa / 128))
          (quadN old)

/-! ## Single-line regions -/

/-- Every hold and every request of a context at the slices dropped, as its task leaves it. -/
def State.dropHolds (s : State) (k : Nat) : State :=
  { s with held := s.held.filter (fun h => h.ctx != k), alrq := s.alrq.filter (fun h => h.ctx != k) }

/-- The hold of a context on one line released. -/
def State.dropHeld (s : State) (k line : Nat) : State :=
  { s with held := s.held.filter (fun h => !(h.line == line && h.ctx == k)) }

/-- The open region of a context closed on X, and its line released (R182, R183). The line of an earlier region whose
closing message is on its way stays held until the message arrives. -/
def State.releaseLine (s : State) (k : Nat) : State :=
  match (s.ctx k).alr with
  | some r => (s.dropHeld k r.line).modCtx k fun c => { c with alr := none }
  | none => s

/-- A request for a line whose region is abandoned before its grant: the line is released as it is granted. -/
def Access.forsake (a : Access) : Access :=
  match a.kind with
  | .op (.alrb va _) => { a with kind := .op (.alrb va true) }
  | _ => a

/-- The open region of a context, or the one that it has asked for, abandoned; nothing is written (R183). -/
def State.abandonRegion (s : State) (k : Nat) : State :=
  (s.releaseLine k).modCtx k fun c => { c with mq := c.mq.map Access.forsake }

/-- An access of the holder's own to the held line ends the hold (R183). -/
def State.endHold (s : State) (k line : Nat) : State :=
  if s.held.any fun h => h.line == line && h.ctx == k then
    (s.dropHeld k line).modCtx k fun c =>
      { c with alr := c.alr.map fun r => if r.line = line then { r with hold := false } else r }
  else s

/-- The slice grants its line to a request, once no other region holds it and no earlier request waits for it,
and the committed snapshot reaches the region buffer (R182); of a region abandoned since, the line is released at once
(R183). -/
def State.opAlrb (s : State) (k off va pa : Nat) (gone : Bool) : OpRes :=
  let line := pa / 128
  let first := match s.alrq.find? fun h => h.line == line with | some h => h.ctx == k | none => true
  if (s.held.any fun h => h.line == line && h.ctx != k) || !first then
    .wait (if s.alrq.any fun h => h.line == line && h.ctx == k then s
           else { s with alrq := s.alrq ++ [{ line := line, ctx := k }] })
  else
    let (s1, go) := s.deliver k .x off va (128 * line)
    if !go then .trap s1
    else
      let snap := s1.committed (128 * line) 128
      let s2 := ({ s1 with alrq := s1.alrq.filter (fun h => !(h.line == line && h.ctx == k)) } : State).l1Drop (k / 4) line
      if gone then .done s2 0
      else
        .done (({ s2 with held := s2.held ++ [{ line := line, ctx := k }] } : State).modCtx k fun c =>
          { c with alr := some { line := line, va := va / 128 * 128, snap := snap, marks := [], since := s.clock,
                                 hold := true } }) 0

/-- The closing message of a region at the slice: it writes the marked bytes where the slice still holds the
line for the context, and answers 1 or 0 (R182); a region that writes a live control block traps (R268). -/
def State.opAlrc (s : State) (k id off va pa : Nat) (marks : List (Nat × Byte)) : OpRes :=
  let line := pa / 128
  if s.held.any fun h => h.line == line && h.ctx == k then
    let rel (t : State) : State := (t.dropHeld k line).l1Drop (k / 4) line
    if marks = [] then .done (rel s) 1
    else if s.hitsScb (128 * line) 128 then .trap (s.raiseAt k .x off .prot va)
    else
      let part := (s.ctx k).part
      match s.reserveLine part pa with
      | none => .wait (s.waitSpace part pa (some (k, .x)) id)
      | some s2 => .done (rel ((s2.dropWait part pa (some (k, .x)) id).commitMasked line ((List.range 128).all fun i => (tfind marks i).isSome) marks)) 1
  else .done (s.l1Drop (k / 4) line) 0

/-! ## Barriers -/

/-- A barrier record (R187). -/
structure BarRec where
  arrived : Nat
  expect  : Nat
  err     : Bool
  errcur  : Bool
  rest    : Nat
  phase   : Nat
  deriving DecidableEq, Repr

/-- The record that 16 bytes hold (R187). -/
def barOf (v : Nat) : BarRec :=
  { arrived := bits v 31 0, expect := bits v 63 32, err := v.testBit 64, errcur := v.testBit 65,
    rest := bits v 95 66, phase := bits v 127 96 }

/-- The 16 bytes of a barrier record (R187). -/
def BarRec.bytes (b : BarRec) : List Byte :=
  leBytes 16 (b.arrived % 2 ^ 32 + b.expect % 2 ^ 32 * 2 ^ 32 + b.err.toNat * 2 ^ 64 + b.errcur.toNat * 2 ^ 65 +
    b.rest * 2 ^ 66 + b.phase % 2 ^ 32 * 2 ^ 96)

/-- `barinit` (R188). -/
def BarRec.init (b : BarRec) (v : Quad) : BarRec :=
  { b with expect := max 1 (v.toNat % 2 ^ 32), arrived := 0, errcur := false, err := false }

/-- An arrival (R188). -/
def BarRec.arrive (b : BarRec) (e : Bool) : BarRec :=
  let cur := b.errcur || e
  let n := b.arrived + 1
  if b.expect ≤ n then { b with err := cur, errcur := false, arrived := 0, phase := (b.phase + 1) % 2 ^ 32 }
  else { b with errcur := cur, arrived := n }

/-- What a `barwait` returns when the phase has left `p` (R188). -/
def BarRec.answer (b : BarRec) (p : Nat) : Quad :=
  quadN (b.err.toNat + 2 * (decide (1 < (b.phase + 2 ^ 32 - p % 2 ^ 32) % 2 ^ 32)).toNat)

/-- The barrier record at an address. -/
def State.bar (s : State) (pa : Nat) : BarRec := barOf (leNat (s.committed pa 16))

/-- An arrival on a barrier as its slice performs it, the headroom of its line being there; a live control block is left as
it is (R268). -/
def State.barArrive (s : State) (pa : Nat) (e : Bool) : State :=
  if s.hitsScb pa 16 then s else s.commitBytes pa ((s.bar pa).arrive e).bytes

/-- A barrier operation that writes its record: poison, a live control block and headroom as for an atomic
(R180, R268). Like an atomic it removes the copies that the L1 of its core holds of the line (DESIGN CHOICE, log 138). -/
def State.opBarWrite (s : State) (k id off va pa : Nat) (f : BarRec → BarRec) (v : BarRec → Quad) : OpRes :=
  let (s1, go) := s.deliver k .x off va pa
  if !go then .trap s1
  else if s1.hitsScb pa 16 then .trap (s1.raiseAt k .x off .prot va)
  else
    let part := (s.ctx k).part
    match s1.reserveLine part pa with
    | none => .wait (s.waitSpace part pa (some (k, .x)) id)
    | some s2 =>
      .done (((s2.dropWait part pa (some (k, .x)) id).commitBytes pa (f (s1.bar pa)).bytes).l1Drop (k / 4) (pa / 128))
        (v (s1.bar pa))

/-- `barwait` at its slice: it waits until the phase has left the number it gives (R188). A poisoned line is read too: under
POL = 1 it traps, and under POL = 0 it counts once the wait ends (R125). -/
def State.opBarwait (s : State) (k off va pa phase : Nat) : OpRes :=
  let (s1, go) := s.deliver k .x off va pa
  if !go then .trap s1
  else if (s1.bar pa).phase = phase % 2 ^ 32 then .wait s
  else .done (s1.l1Drop (k / 4) (pa / 128)) ((s1.bar pa).answer phase)

end Sys2Proof.Machine
end

