-- ==== Sys2Proof/Machine/SeqUnit.lean ====
section
/-! DEFINITION. The sequence units: control blocks, the pool, extents, reservations, commits, the advance of
the length, grafts, and attention (spec/21_sequences.md R268-R291, R295, R296). -/

namespace Sys2Proof.Machine

/-! ## The pool -/

/-- The smallest order of block that holds `n` pages. -/
def orderFor (n : Nat) : Nat := if n ≤ 1 then 0 else Nat.log2 (n - 1) + 1

/-- The blocks of a block split down to an order: the block itself, and the free halves. -/
def splitBlock (stride page : Nat) : Nat → Nat → List (Nat × Nat)
  | 0, _ => []
  | n + 1, k => (page + 2 ^ (k + n) * stride, k + n) :: splitBlock stride page n k

/-- A block of an order taken from a bed's pool: of the smallest free blocks that hold it, one that `pick`
names. None where no free block holds it (R274). -/
def State.poolAlloc (s : State) (part bed order : Nat) : Option (State × Nat) :=
  let p := s.pool part bed
  let fit := p.free.filter fun b => decide (order ≤ b.2)
  match (fit.map (·.2)).min? with
  | none => none
  | some k =>
    match choose (fit.filter fun b => b.2 == k) s.cur.pick with
    | none => none
    | some b =>
      some (s.setPool part bed
        { p with free := (p.free.filter (· != b)) ++ splitBlock p.stride b.1 (k - order) order,
                 used := p.used ++ [(b.1, order, 0)] }, b.1)

/-- Free blocks with one more, joined with its buddy as far as buddies are free (R274). -/
def poolJoin (p : Pool) : Nat → Nat → Nat → List (Nat × Nat) → List (Nat × Nat)
  | 0, page, k, f => f ++ [(page, k)]
  | n + 1, page, k, f =>
    let r := (page - p.first) % p.stride
    let x := (page - p.first) / p.stride
    let buddy := if x / 2 ^ k % 2 = 0 then x + 2 ^ k else x - 2 ^ k
    let bp := p.first + buddy * p.stride + r
    if k < 20 ∧ f.contains (bp, k) then poolJoin p n (min page bp) (k + 1) (f.filter (· != (bp, k)))
    else f ++ [(page, k)]

/-- A page lies in a block. -/
def inBlock (p : Pool) (page order x : Nat) : Bool :=
  decide (page ≤ x ∧ (x - page) % p.stride = 0 ∧ (x - page) / p.stride < 2 ^ order)

/-- A reference count of a block changed; a block whose count reaches zero returns to its pool (R287, R295). -/
def State.blockRef (s : State) (part bed page : Nat) (up : Bool) : State :=
  let p := s.pool part bed
  match p.used.find? fun b => b.1 == page with
  | none => s
  | some (_, k, n) =>
    let n' := if up then n + 1 else n - 1
    if n' = 0 then
      s.setPool part bed
        { p with used := p.used.filter (fun b => b.1 != page), free := poolJoin p 20 page k p.free,
                 share := p.share.filter (fun x => !inBlock p page k x.1),
                 voids := p.voids.filter (fun x => !inBlock p page k x.1) }
    else s.setPool part bed { p with used := p.used.map fun b => if b.1 = page then (page, k, n') else b }

/-- The blocks that the extents touch. -/
def extBlocks (l : List Extent) : List (Nat × Nat) := (l.map fun e => (e.bed, e.block)).eraseDups

/-- The references of a sequence brought from one extent list to another (R275, R295). -/
def State.reref (s : State) (part : Nat) (old new : List Extent) : State :=
  let o := extBlocks old
  let n := extBlocks new
  let s1 := (n.filter fun b => !o.contains b).foldl (fun t b => t.blockRef part b.1 b.2 true) s
  (o.filter fun b => !n.contains b).foldl (fun t b => t.blockRef part b.1 b.2 false) s1

/-- The share count of a pool page (R274): a page in use has one holder unless a fork shares it. -/
def State.share (s : State) (part bed page : Nat) : Nat := tget 1 (s.pool part bed).share page
/-- The machine with a share count replaced. -/
def State.setShare (s : State) (part bed page n : Nat) : State :=
  let p := s.pool part bed
  s.setPool part bed { p with share := tput p.share page n }
/-- The void slots of a pool page. -/
def State.voids (s : State) (part bed page : Nat) : List Nat := tget [] (s.pool part bed).voids page
/-- The machine with a page's void mask replaced. -/
def State.setVoids (s : State) (part bed page : Nat) (l : List Nat) : State :=
  let p := s.pool part bed
  s.setPool part bed { p with voids := tput p.voids page l }

/-- The void bit of a slot (R280). -/
def State.slotVoid (s : State) (q : Seq) (i : Nat) : Bool :=
  match s.seqPage q q.ext (q.pageOf i) with
  | some p => (s.voids q.part p.1 p.2).contains (q.inPage i)
  | none => false

/-- The void bit of a slot written. -/
def State.setVoid (s : State) (q : Seq) (i : Nat) (b : Bool) : State :=
  match s.seqPage q q.ext (q.pageOf i) with
  | some p =>
    let l := (s.voids q.part p.1 p.2).filter (· != q.inPage i)
    s.setVoids q.part p.1 p.2 (if b then q.inPage i :: l else l)
  | none => s

/-! ## The control block -/

/-- The 256 bytes of a control block (R269). -/
def Seq.scb (q : Seq) : List Byte :=
  leBytes 256 ((if q.live then 1 else 0) * 2 ^ 2040 + q.len * 2 ^ 2000 + q.cur * 2 ^ 1960 + q.tbase * 2 ^ 1920 +
    q.tcnt * 2 ^ 1913 + q.tact.toNat * 2 ^ 1912 + q.pin * 2 ^ 1896 + q.w * 2 ^ 1885 + q.fmt.toNat * 2 ^ 1879 +
    q.slg * 2 ^ 1875 + q.b * 2 ^ 1870 + q.ext.length * 2 ^ 1864 + q.frozen.toNat * 2 ^ 1863 + q.side * 2 ^ 1792 +
    q.parent * 2 ^ 1728 + q.forkl * 2 ^ 1688 + q.bed * 2 ^ 1685)

/-- The machine with a sequence replaced in what no byte of its control block holds. -/
def State.putSeq (s : State) (pa : Nat) (q : Seq) : State :=
  { s with seqs := if q.live then tput s.seqs pa q else tdel s.seqs pa }

/-- The machine with a sequence replaced, and its control block in memory with it (R268). -/
def State.setSeq (s : State) (pa : Nat) (q : Seq) : State :=
  let t := ((s.markDirty (pa / 128)).markDirty (pa / 128 + 1)).putSeq pa q
  { t with mem := memWrite t.mem pa q.scb }

/-- A control block written whole, as a sequence is made: its two lines are good again (R125, R268). -/
def State.makeSeq (s : State) (pa : Nat) (q : Seq) : State :=
  let t := s.setSeq pa q
  { t with poison := t.poison.filter fun l => l != pa / 128 && l != pa / 128 + 1 }

/-- Headroom for both lines of a control block, of an operation that may have waited for it; else the machine in which the line
that lacks it waits (R303). -/
def State.reserveScb (s : State) (k id part pa va : Nat) : Except State State :=
  match s.reserveLine part pa with
  | none => .error (s.waitSpace part pa (some (k, .x)) id va)
  | some s1 =>
    let s2 := s1.dropWait part pa (some (k, .x)) id
    match s2.reserveLine part (pa + 128) with
    | none => .error (s2.waitSpace part (pa + 128) (some (k, .x)) id va)
    | some s3 => .ok (s3.dropWait part (pa + 128) (some (k, .x)) id)

/-- The waits of an operation for the lines of a control block removed. -/
def State.dropScb (s : State) (k id part pa : Nat) : State :=
  (s.dropWait part pa (some (k, .x)) id).dropWait part (pa + 128) (some (k, .x)) id

/-- The lines of a control block leave the L1 of the core whose task operates on it (R144). -/
def State.l1DropScb (s : State) (k pa : Nat) : State := (s.l1Drop (k / 4) (pa / 128)).l1Drop (k / 4) (pa / 128 + 1)

/-- Lines that a sequence unit writes whole: good again (R125). -/
def State.freshLines (s : State) (l : List Nat) : State :=
  let t := l.foldl State.markDirty s
  { t with poison := t.poison.filter fun x => !l.contains x }

/-- Lines that a sequence unit writes whole as copies of others, the new line first: poisoned where the line copied is (R125). -/
def State.copyLines (s : State) (l : List (Nat × Nat)) : State :=
  let bad := (l.filter fun p => s.linePoisoned p.2).map (·.1)
  let t := s.freshLines (l.map (·.1))
  { t with poison := t.poison ++ bad }

/-! ## Advance of the length -/

/-- The slot format. -/
def Seq.format (q : Seq) : Fmt := if q.fmt = 0x30 then .b8 4 false false else .h8s

/-- The BF16 channels of a slot's stage entry; a channel never filled holds +0 (R279). -/
def Seq.staged (q : Seq) (i : Nat) : List (BitVec 16) := tget (List.replicate q.size 0) q.stage i

/-- The stage entry of a slot as the sequence unit reads it: the channels of a poisoned line are zeros (R125). -/
def State.stagedRead (s : State) (q : Seq) (i : Nat) : List (BitVec 16) :=
  (q.staged i).zipIdx.map fun p => if s.linePoisoned (s.stageAddr q i p.2 / 128) then 0 else p.1

/-- The scale of a channel from the values of slots 0 to 15 (R281). -/
def freezeScale (f : Fmt) (vals : List (BitVec 16)) : BitVec 32 :=
  let m := vals.foldl (fun (a : XR) v =>
    let x := (bf16Value v.toNat).abs
    if x.isNan || x.isInf then a else if a.lt x then x else a) (.zero false)
  BitVec.ofNat 32 (fmtRound .fp32 .rup false false (m.div (qmax f)))

/-- The code to which a channel quantises (R281). -/
def quantCode (f : Fmt) (scale : BitVec 32) (v : BitVec 16) : Byte :=
  BitVec.ofNat 8 (fmtRound f .rne true false (quantQuot (bf16Value v.toNat) (f32Value scale.toNat)))

/-- The scales frozen from slots 0 to 15, the void ones left out (R280, R281). -/
def State.freeze (s : State) (q : Seq) (isVoid : Nat → Bool) : Seq :=
  let vals := ((List.range 16).filter fun i => !isVoid i).map (s.stagedRead q)
  { q with frozen := true, scales := (List.range q.size).map fun c => freezeScale q.format (vals.map fun l => l.getD c 0) }

/-- The bytes of a slot written into the main array, line by line. -/
def State.slotWrite (s : State) (q : Seq) (i : Nat) (bs : List Byte) : State :=
  (lineParts 0 (min q.size 8192)).foldl (fun t p => t.commitBytes (t.slotAddr q i p.1) ((bs.drop p.2.1).take p.2.2))
    (if q.size ≤ 8192 then s
     else (lineParts 0 8192).foldl (fun t p =>
       t.commitBytes (t.slotAddr q i (8192 + p.1)) ((bs.drop (8192 + p.2.1)).take p.2.2)) s)

/-- A slot quantised into the main array; a void slot is code 0 in every channel (R280, R281). -/
def State.quantiseSlot (s : State) (q : Seq) (i : Nat) (isVoid : Bool) : State :=
  let bs := if isVoid then List.replicate q.size 0
            else ((s.stagedRead q i).zip q.scales).map fun p => quantCode q.format p.2 p.1
  s.slotWrite q i bs

/-- The smallest slot index at or above `n` that is not committed, among at most `fuel` slots (R279). -/
def Seq.committedTo (q : Seq) : Nat → Nat → Nat
  | 0, n => n
  | f + 1, n =>
    match q.slots.find? fun r => r.i == n with
    | some r => if r.st == .committed || r.st == .voided then q.committedTo f (n + 1) else n
    | none => n

/-- The length of a sequence advanced past its committed slots, with the steps of R280 before it is visible. -/
def State.advanceLen (s : State) (pa : Nat) : State :=
  let q := s.seq pa
  let b := q.committedTo q.slots.length q.len
  if b = q.len then s
  else
    let isVoid (i : Nat) : Bool :=
      match q.slots.find? fun r => r.i == i with
      | some r => r.st == .voided
      | none => s.slotVoid q i
    let freezes := !q.frozen && decide (16 ≤ b)
    let q1 := if freezes then s.freeze q isVoid else q
    let from_ := if q.frozen then q.len else 0
    let s1 := if q1.frozen then
        ((List.range b).filter fun i => decide (from_ ≤ i)).foldl (fun t i => t.quantiseSlot q1 i (isVoid i))
          (if freezes then s.freshLines (s.scaleLines q) else s)
      else s
    let rung := if q.w = 0 then [] else (List.range b).filter fun i => decide (max q.len (b - q.w) ≤ i)
    let ring := rung.foldl (fun t i => tput t (i % q.w) (q.staged i)) q.ring
    let s2 := ((List.range b).filter fun i => decide (q.len ≤ i)).foldl (fun t i => t.setVoid q1 i (isVoid i)) s1
    (s2.copyLines (rung.flatMap fun i => (s.ringLines q i).zip (s.stageLines q i))).setSeq pa
      { q1 with len := b, ring := ring,
                stage := if q1.frozen then q.stage.filter (fun p => decide (b ≤ p.1)) else q.stage,
                slots := q.slots.filter fun r => decide (b ≤ r.i) }

/-- The advance of a length that no attention in flight defers (R280). -/
def State.tryAdvance (s : State) (pa : Nat) : State := if (s.seq pa).attn = 0 then s.advanceLen pa else s

/-! ## Reservations -/

/-- A page of an extent replaced: the extent splits into up to three (R286). -/
def replacePage (stride : Nat) (new : Extent) : List Extent → Nat → List Extent
  | [], _ => []
  | e :: r, j =>
    if j < e.npg then
      (if 0 < j then [{ e with npg := j }] else []) ++ [new] ++
      (if j + 1 < e.npg then [{ e with base := e.base + (j + 1) * stride, npg := e.npg - j - 1 }] else []) ++ r
    else e :: replacePage stride new r (j - e.npg)

/-- An append into a shared page: the page copied into a block of the appender's bed (R286, R295). The error
is the status. -/
def State.copyTail (s : State) (q : Seq) (j : Nat) : Except Nat (State × Seq) :=
  match s.seqPage q q.ext j with
  | none => .ok (s, q)
  | some (bed, page) =>
    if s.share q.part bed page ≤ 1 then .ok (s, q)
    else
      match s.poolAlloc q.part q.bed 0 with
      | none => .error 6
      | some (s1, new) =>
        let ext := replacePage (s.pool q.part bed).stride { base := new, npg := 1, bed := q.bed, block := new } q.ext j
        if 32 < ext.length then .error 3
        else
          let live := (s.voids q.part bed page).filter fun i => decide (j * q.perPage + i < q.len)
          let t := s1.copyLines ((List.range 64).map fun l => (64 * new + l, 64 * page + l))
          let s2 := { t with mem := memWrite t.mem (8192 * new) (memRead t.mem (8192 * page) 8192) }
          let s3 := (s2.setVoids q.part q.bed new live).setShare q.part bed page (s.share q.part bed page - 1)
          let s4 := s3.setShare q.part q.bed new 1
          .ok (s4.reref q.part q.ext ext, { q with ext := ext })

/-- The shared pages that a reservation covers, copied one after another (R278). -/
def State.copyTails (s : State) (q : Seq) : List Nat → Except Nat (State × Seq)
  | [] => .ok (s, q)
  | j :: r =>
    match s.copyTail q j with
    | .ok (s1, q1) => s1.copyTails q1 r
    | .error e => .error e

/-- Extents added until the list covers `n` pages (R275). The error is the status. -/
def State.growExtents (s : State) (q : Seq) (n : Nat) : Nat → Except Nat (State × Seq)
  | 0 => .ok (s, q)
  | f + 1 =>
    if n ≤ extPages q.ext then .ok (s, q)
    else if 32 ≤ q.ext.length then .error 3
    else
      let k := min (q.b + q.ext.length) 20
      match s.poolAlloc q.part q.bed k with
      | none => .error 6
      | some (s1, page) =>
        let ext := q.ext ++ [{ base := page, npg := 2 ^ k, bed := q.bed, block := page }]
        (s1.reref q.part q.ext ext).growExtents { q with ext := ext } n f

/-- The sequence pages that hold the slots from `a` to `b`. -/
def Seq.pagesOf (q : Seq) (a b : Nat) : List Nat :=
  (List.range (q.pagesFor b)).filter fun j => decide (q.pageOf a ≤ j)

/-- The shared procedure of `sqres` and `sqrest` (R278, R288): a status, or the machine and the sequence with
`n` more slots of a state. -/
def State.reserveSlots (s : State) (pa n limit owner : Nat) (st : SlotSt) : Except Nat (State × Seq) :=
  let q := s.seq pa
  if n = 0 ∨ limit < n then .error 8
  else if q.tact then .error 2
  else
    let q0 := if q.frozen then q.len else 0
    if 256 < q.cur + n - q0 then .error 2
    else
      match s.copyTails q (q.pagesOf q.cur (q.cur + n)) with
      | .error e => .error e
      | .ok (s1, q1) =>
        match s1.growExtents q1 (q.pagesFor (q.cur + n)) 33 with
        | .error e => .error e
        | .ok (s2, q2) =>
          .ok (s2, { q2 with cur := q.cur + n,
                             slots := q2.slots ++ (List.range n).map fun i => { i := q.cur + i, st := st, owner := owner } })

/-- Fills of a task moved into the stage entries of the slots it commits (R279). -/
def Seq.stageFills (q : Seq) (fills : List (Nat × Nat × BitVec 16)) : Seq :=
  fills.foldl (fun t f => { t with stage := tput t.stage f.1 ((t.staged f.1).set f.2.1 f.2.2) }) q

/-- Slots of a sequence committed by the context `k`, or void; their fills leave its version for stage entries that are written
whole (R279). -/
def State.commitSlots (s : State) (k pa first n : Nat) (st : SlotSt) : State :=
  let q := s.seq pa
  let hit (i : Nat) : Bool := decide (first ≤ i ∧ i < first + n)
  let mine := if st == .voided then [] else ((s.ctx k).ver.fills.filter fun f => f.1 == pa && hit f.2.1).map (·.2)
  let q1 := (if st == .voided then { q with stage := q.stage.filter (fun p => !hit p.1) } else q).stageFills mine
  let s0 := if st == .voided then s else s.freshLines (((List.range n).map (first + ·)).flatMap (s.stageLines q))
  let s1 := s0.setSeq pa { q1 with slots := q1.slots.map fun r => if hit r.i then { r with st := st } else r }
  (s1.modCtx k fun c =>
    { c with ver := { c.ver with fills := c.ver.fills.filter fun f => !(f.1 == pa && hit f.2.1) } }).tryAdvance pa

/-- The tentative group withdrawn: its fills dropped, its slots free, the extents beyond them removed (R288). -/
def State.withdraw (s : State) (k pa : Nat) : State :=
  let q := s.seq pa
  let keep := q.pagesFor q.tbase
  let rec trim (l : List Extent) (have_ : Nat) : List Extent :=
    match l with
    | [] => []
    | e :: r => if keep ≤ have_ then [] else e :: trim r (have_ + e.npg)
  let ext := trim q.ext 0
  let s1 := s.reref q.part q.ext ext
  (s1.setSeq pa
    { q with ext := ext, cur := q.tbase, tact := false, tcnt := 0,
             slots := q.slots.filter (fun r => decide (r.i < q.tbase)),
             stage := q.stage.filter (fun p => decide (p.1 < q.tbase)),
             gone := q.gone ++ [(q.tbase, q.tcnt, q.towner)] }).modCtx k fun c =>
    { c with ver := { c.ver with fills := c.ver.fills.filter fun f => !(f.1 == pa && decide (q.tbase ≤ f.2.1)) } }

/-- The reservations of a task settled at its end: what it reserved and did not commit is committed void, and
its tentative group is withdrawn (R282). -/
def State.settle (s : State) (k taskid : Nat) : State :=
  s.seqs.foldl (fun t p =>
    let q := t.seq p.1
    if !q.live || !((q.slots.any fun r => r.owner == taskid) || (q.gone.any fun g => g.2.2 == taskid)) then t
    else
      let t1 := if q.tact && q.towner == taskid then t.withdraw k p.1 else t
      let q1 := t1.seq p.1
      let slots := q1.slots.map fun r =>
        if r.owner = taskid ∧ r.st = .reserved then { r with st := SlotSt.voided } else r
      (t1.setSeq p.1 { q1 with slots := slots, gone := q1.gone.filter (fun g => g.2.2 != taskid) }).tryAdvance p.1) s

/-! ## The operations of majors 20 and 21 -/

/-- An answer of a sequence operation (R271). -/
def seqDone (s : State) (status value : Nat) : OpRes := .done s (resultQuad status value)

/-- `sqnew` (R273). -/
def State.opSqnew (s : State) (k id pa va : Nat) (w : Quad) (b : Nat) : OpRes :=
  let win := bits w.toNat 26 16
  let fmt := bits w.toNat 15 10
  let slg := bits w.toNat 3 0
  let u := s.l1DropScb k pa
  let c := s.ctx k
  let bed := s.home pa / 8
  if win % 16 ≠ 0 ∨ 1024 < win ∨ (fmt ≠ 0x30 ∧ fmt ≠ 0x0E) ∨ 8 < slg ∨ (slg = 8 ∧ b = 0) ∨ 16 < b ∨ (s.seq pa).live then
    seqDone (u.dropScb k id c.part pa) 8 0
  else
    match u.poolAlloc c.part bed (orderFor ((sideBytes (64 * 2 ^ slg) win + 8191) / 8192)) with
    | none => seqDone (u.dropScb k id c.part pa) 6 0
    | some (s1, page) =>
      match s1.reserveScb k id c.part pa va with
      | .error w => .wait (s.waited w)
      | .ok s2 =>
        seqDone ((s2.blockRef c.part bed page true).makeSeq pa
          { live := true, va := va, part := c.part, asid := c.asid, w := win, fmt := BitVec.ofNat 6 fmt,
            slg := slg, b := b, side := 8192 * page, sideBlock := page, bed := bed }) 0 0

/-- An operation on a live sequence: DEAD where it is not live. One that changes the control block takes the headroom of its
lines first, once its status is known to be OK; any other changes nothing (R271, R303). -/
def State.onSeq (s : State) (k id pa : Nat) (f : State → Seq → OpRes) : OpRes :=
  let u := s.l1DropScb k pa
  let q := s.seq pa
  let part := (s.ctx k).part
  if !q.live then seqDone (u.dropScb k id part pa) 7 0
  else
    match f u q with
    | .done _ v =>
      if v.toNat / 2 ^ 56 ≠ 0 then .done (u.dropScb k id part pa) v
      else
        (match u.reserveScb k id part pa q.va with
         | .error w => .wait (s.waited w)
         | .ok t => f t q)
    | r => r

/-- `sqres` (R278). -/
def State.opSqres (s : State) (k id pa : Nat) (n : Quad) : OpRes :=
  s.onSeq k id pa fun t q =>
    match t.reserveSlots pa n.toNat 256 (t.ctx k).taskid .reserved with
    | .error e => seqDone t e 0
    | .ok (t1, q1) => seqDone (t1.setSeq pa q1) 0 q.cur

/-- `sqrest` (R288). -/
def State.opSqrest (s : State) (k id pa : Nat) (n : Quad) : OpRes :=
  s.onSeq k id pa fun t q =>
    match t.reserveSlots pa n.toNat 64 (t.ctx k).taskid .tentative with
    | .error e => seqDone t e 0
    | .ok (t1, q1) =>
      seqDone (t1.setSeq pa { q1 with tbase := q.cur, tcnt := n.toNat, tact := true, towner := (t.ctx k).taskid }) 0 q.cur

/-- `sqcmt` (R279). -/
def State.opSqcmt (s : State) (k id pa : Nat) (first count : Quad) : OpRes :=
  s.onSeq k id pa fun t q =>
    let n := count.toNat
    let ok := decide (1 ≤ n ∧ n ≤ 256) && (List.range n).all fun i =>
      q.slots.any fun r => r.i == first.toNat + i && r.st == .reserved && r.owner == (t.ctx k).taskid
    if !ok then seqDone t 8 0
    else
      let t1 := t.commitSlots k pa first.toNat n .committed
      seqDone t1 0 (t1.seq pa).len

/-- `sqacc` (R288). -/
def State.opSqacc (s : State) (k id pa : Nat) (n : Quad) : OpRes :=
  s.onSeq k id pa fun t q =>
    if !q.tact || q.towner != (t.ctx k).taskid || decide (q.tcnt < n.toNat) then seqDone t 8 0
    else
      let t1 := t.setSeq pa { q with tbase := q.tbase + n.toNat, tcnt := q.tcnt - n.toNat, tact := q.tcnt != n.toNat }
      let t2 := t1.commitSlots k pa q.tbase n.toNat .committed
      seqDone t2 0 (t2.seq pa).len

/-- `sqwd` (R288). -/
def State.opSqwd (s : State) (k id pa : Nat) : OpRes :=
  s.onSeq k id pa fun t q =>
    if !q.tact || q.towner != (t.ctx k).taskid then seqDone t 8 0 else seqDone (t.withdraw k pa) 0 q.tcnt

/-- The tail page that a sequence holds with others: its share count falls as the sequence ends (R287). -/
def State.dropShares (s : State) (q : Seq) : State :=
  let own := q.pageOf q.forkl
  ((List.range (extPages q.ext)).filter fun j => decide (own ≤ j ∧ j < q.pagesFor q.cur)).foldl (fun t j =>
    match t.seqPage q q.ext j with
    | some (bed, page) => if t.share q.part bed page ≤ 1 then t else t.setShare q.part bed page (t.share q.part bed page - 1)
    | none => t) s

/-- `sqfree` (R287). -/
def State.opSqfree (s : State) (k id pa : Nat) : OpRes :=
  s.onSeq k id pa fun t q =>
    if 0 < q.pin ∨ q.len < q.cur ∨ q.tact ∨ 0 < q.attn then seqDone t 2 0
    else
      let t1 := ((t.dropShares q).reref q.part q.ext []).blockRef q.part q.bed q.sideBlock false
      seqDone (t1.setSeq pa { q with live := false }) 0 q.len

/-- A sequence with one pin more: its pages may not be migrated any more (R287, R294, R308, R310). -/
def State.pinSeq (s : State) (pa : Nat) : State :=
  let q := s.seq pa
  let holds (g : Nat) : Bool := q.ext.any fun e => (List.range e.npg).any fun j => s.extPage q e j == g
  (s.setSeq pa { q with pin := q.pin + 1 }).modPart q.part fun p =>
    if p.waits.any SpaceWait.migrates then p.endMigrations holds else p

/-- `sqpin` and `squnpin` (R287). -/
def State.opSqpin (s : State) (k id pa : Nat) (up : Bool) : OpRes :=
  s.onSeq k id pa fun t q =>
    if up then
      (if q.pin = 65535 then seqDone t 2 0 else seqDone (t.pinSeq pa) 0 (q.pin + 1))
    else if q.pin = 0 then seqDone t 8 0 else seqDone (t.setSeq pa { q with pin := q.pin - 1 }) 0 (q.pin - 1)

/-- The extents of a sequence clipped to `n` pages (R285). -/
def clipExtents : List Extent → Nat → List Extent
  | [], _ => []
  | e :: r, n => if n = 0 then [] else { e with npg := min e.npg n } :: clipExtents r (n - min e.npg n)

/-- `sqfork` (R285): `pa` is the parent's control block and `g` the graft's. -/
def State.opSqfork (s : State) (k id pa g va parentVa : Nat) : OpRes :=
  let u := (s.l1DropScb k pa).l1DropScb k g
  let c := s.ctx k
  let q := s.seq pa
  let bed := s.home g / 8
  let freed := u.dropScb k id c.part g
  if !q.live then seqDone freed 7 0
  else if (s.seq g).live then seqDone freed 8 0
  else
    match u.poolAlloc c.part bed (orderFor ((sideBytes q.size q.w + 8191) / 8192)) with
    | none => seqDone freed 6 0
    | some (s1, page) =>
      match s1.reserveScb k id c.part g va with
      | .error w => .wait (s.waited w)
      | .ok s2 =>
        let n := q.len
        let ext := clipExtents q.ext (q.pagesFor n)
        let s3 := (s2.blockRef c.part bed page true).reref q.part [] ext
        let s4 := if q.slg < 8 ∧ n % q.perPage ≠ 0 then
            (match s3.seqPage q q.ext (q.pageOf (n - 1)) with
             | some (b, p) => s3.setShare q.part b p (s3.share q.part b p + 1)
             | none => s3)
          else s3
        let q' : Seq :=
          { live := true, va := va, part := c.part, asid := c.asid, len := n, cur := n, w := q.w, fmt := q.fmt,
            slg := q.slg, b := q.b, ext := ext, frozen := q.frozen, side := 8192 * page, sideBlock := page,
            parent := parentVa, forkl := n, bed := bed, scales := q.scales, ring := q.ring,
            stage := if q.frozen then [] else q.stage.filter fun p => decide (p.1 < n) }
        let rung := if q.w = 0 then [] else (List.range n).filter fun i => decide (n - q.w ≤ i)
        let staged := if q.frozen then [] else List.range n
        let s5 := s4.copyLines ((rung.flatMap fun i => (s4.ringLines q' i).zip (s4.ringLines q i)) ++
          (staged.flatMap fun i => (s4.stageLines q' i).zip (s4.stageLines q i)) ++
          if q.frozen then (s4.scaleLines q').zip (s4.scaleLines q) else [])
        seqDone (s5.makeSeq g q') 0 n

/-- `sqlen` (R284). -/
def State.opSqlen (s : State) (k pa : Nat) : OpRes :=
  seqDone (s.l1DropScb k pa) (if (s.seq pa).live then 0 else 7) (if (s.seq pa).live then (s.seq pa).len else 0)

/-- `sqwait` (R284): it waits until the length reaches the one it names. -/
def State.opSqwait (s : State) (k pa : Nat) (n : Quad) : OpRes :=
  if !(s.seq pa).live then seqDone (s.l1DropScb k pa) 7 0
  else if n.toNat ≤ (s.seq pa).len then seqDone (s.l1DropScb k pa) 0 (s.seq pa).len
  else .wait s

/-- The block of a pool that an extent of a sequence lies in: its reference count. -/
def State.blockRefs (s : State) (part bed page : Nat) : Nat :=
  match (s.pool part bed).used.find? fun b => b.1 == page with
  | some b => b.2.2
  | none => 0

/-- `sqext` (R276). -/
def State.opSqext (s : State) (k pa sel : Nat) (b : Quad) : OpRes :=
  let q := s.seq pa
  let n := b.toNat
  let v : Nat :=
    if !q.live then 0
    else if sel = 2 then
      match s.seqPage q q.ext (q.pageOf n) with
      | some p => s.share q.part p.1 p.2
      | none => 0
    else
      match q.ext[n]? with
      | none => 0
      | some e =>
        let refs := s.blockRefs q.part e.bed e.block
        if sel = 0 then
          e.base % 2 ^ 27 * 2 ^ 37 + e.npg * 2 ^ 16 + (s.pool q.part e.bed).stride % 256 * 2 ^ 8 + (decide (1 < refs)).toNat
        else refs
  .done (s.l1DropScb k pa) (quadN v)

/-! ## Slots read and filled -/

/-- Where a published slot is read from: its window entry, its stage entry, or the main array (R283). -/
inductive SlotSrc where
  | ring | stage | array
  deriving DecidableEq, Repr

/-- The source of a slot below the length (R283). -/
def Seq.source (q : Seq) (i : Nat) : SlotSrc :=
  if q.len ≤ i + q.w then .ring else if !q.frozen then .stage else .array

/-- The address of a channel of a slot at its source. -/
def State.chanAddr (s : State) (q : Seq) (i c : Nat) : Nat :=
  match q.source i with
  | .ring => s.ringAddr q i c
  | .stage => s.stageAddr q i c
  | .array => s.slotAddr q i c

/-- The lines that a channel of a slot is read from: the one at its source, and for the main array that of its scale. -/
def State.lineOfChan (s : State) (q : Seq) (i c : Nat) : List Nat :=
  (s.chanAddr q i c / 128) :: (if q.source i == .array then [s.scaleAddr q c / 128] else [])

/-- The lines that channels of a slot are read from. -/
def State.chanLines (s : State) (q : Seq) (i c n : Nat) : List Nat :=
  ((List.range n).flatMap fun j => s.lineOfChan q i (c + j)).eraseDups

/-- The exact value of a channel of a slot (R283, R290). -/
def State.chanValue (s : State) (q : Seq) (i c : Nat) : XR :=
  if (s.lineOfChan q i c).any s.linePoisoned then .zero false
  else
    match q.source i with
    | .ring => bf16Value ((tget [] q.ring (i % q.w)).getD c 0).toNat
    | .stage => bf16Value ((q.staged i).getD c 0).toNat
    | .array =>
      (f32Value ((q.scales.getD c 0).toNat)).mul (fmtValue q.format false (memGet s.mem (s.slotAddr q i c)).toNat)

/-- The BF16 bits of a channel of a slot (R283). -/
def State.chanBits (s : State) (q : Seq) (i c : Nat) : BitVec 16 :=
  if (s.lineOfChan q i c).any s.linePoisoned then 0
  else
    match q.source i with
    | .ring => (tget [] q.ring (i % q.w)).getD c 0
    | .stage => (q.staged i).getD c 0
    | .array => BitVec.ofNat 16 (fmtRound .bf16 .rne false false (s.chanValue q i c))

/-- What a fill of a slot comes to: dropped, refused with PROT, or landing (R279). -/
inductive FillRes where
  | drop | prot | ok
  deriving DecidableEq, Repr

/-- The judgement of a fill by a task (R279). -/
def State.fillOk (s : State) (pa i ch taskid : Nat) : FillRes :=
  let q := s.seq pa
  if !q.live || decide (q.size ≤ ch) then .prot
  else if q.slots.any fun r => r.i == i && (r.st == .reserved || r.st == .tentative) && r.owner == taskid then .ok
  else if q.gone.any fun g => decide (g.1 ≤ i ∧ i < g.1 + g.2.1) && g.2.2 == taskid then .drop
  else .prot

/-! ## Attention -/

/-- An attention descriptor (R289). -/
structure AttnDesc where
  lo    : Nat
  hi    : Nat
  qaddr : Nat
  dest  : Nat
  scl   : Nat
  koff  : Nat
  voff  : Nat
  d     : Nat
  deriving DecidableEq, Repr

/-- The fields of 64 descriptor bytes (R289). -/
def attnDesc (bs : List Byte) : AttnDesc :=
  let v := leNat bs
  { lo := bits v 511 472, hi := bits v 471 432, qaddr := bits v 431 400, dest := bits v 399 368,
    scl := bits v 367 336, koff := bits v 335 322, voff := bits v 321 308, d := bits v 307 300 + 1 }

/-- A run of channels crosses channel 8,192 (R290). -/
def runCrosses (off d : Nat) : Bool := decide (off < 8192 ∧ 8192 < off + d)

/-- The status that an attention has before any slice computes: 0 where they do (R290). -/
def attnStatus (q : Seq) (a : AttnDesc) : Nat :=
  if !q.live then 7
  else if q.size < a.koff + a.d ∨ q.size < a.voff + a.d ∨ runCrosses a.koff a.d ∨ runCrosses a.voff a.d then 8
  else if q.len < a.hi then 1
  else if a.hi ≤ a.lo then 4
  else 0

/-- The triple of one page over its unmasked slots (R290). -/
def State.pageTriple (s : State) (q : Seq) (a : AttnDesc) (query : List Nat) (slots : List Nat) : Triple :=
  let qs := query.map f32Value
  let ts := slots.map fun i =>
    (i, f32Round ((xsum ((List.range a.d).map fun c => (qs.getD c (.zero false)).mul (s.chanValue q i (a.koff + c)))).mul
      (f32Value a.scl)))
  let m :=
    if ts.any fun t => (f32Value t.2).isNan then f32Nan
    else f32Round (ts.foldl (fun x t => x.larger (f32Value t.2)) (.inf true))
  let init : Nat × List Nat := (0, List.replicate a.d 0)
  let r := ts.foldl (fun (acc : Nat × List Nat) t =>
    let p := f32Exp2 (f32Round ((f32Value t.2).add .rne (f32Value m).negate))
    (f32Round ((f32Value acc.1).add .rne (f32Value p)),
     (List.range a.d).map fun j =>
       f32Round ((f32Value (acc.2.getD j 0)).add .rne ((f32Value p).mul (s.chanValue q t.1 (a.voff + j)))))) init
  { m := m, s := r.1, o := r.2 }

/-- The slots of a range. -/
def AttnDesc.range (a : AttnDesc) : List Nat := (List.range (a.hi - a.lo)).map (a.lo + ·)

/-- The unmasked slots of a range in ascending order (R290). -/
def State.attnSlots (s : State) (q : Seq) (a : AttnDesc) : List Nat :=
  a.range.filter fun i => !s.slotVoid q i

/-- The triples of the pages of a range folded in page order (R100, R290). -/
def State.attnFold (s : State) (q : Seq) (a : AttnDesc) (query : List Nat) : Triple :=
  let key (i : Nat) : Nat := if q.slg = 8 then i else i / q.perPage
  let first := key a.lo
  let n := key (a.hi - 1) + 1 - first
  let slots := s.attnSlots q a
  let t := (List.range n).map fun j => s.pageTriple q a query (slots.filter fun i => key i == first + j)
  match t with
  | [] => { m := 0xFF800000, s := 0, o := List.replicate a.d 0 }
  | x :: r => r.foldl mergeTriples x

/-- The poisoned lines that an attention reads, those of its void slots among them (R291, R296). -/
def State.attnPoison (s : State) (q : Seq) (a : AttnDesc) : List Nat :=
  ((a.range.flatMap fun i => s.chanLines q i a.koff a.d ++ s.chanLines q i a.voff a.d).eraseDups).filter
    s.linePoisoned

/-- A result's header (R289). -/
def attnHeader (m s status count : Nat) : List Byte := leBytes 4 m ++ leBytes 4 s ++ leBytes 4 status ++ leBytes 4 count

/-- The bytes of an attention's result (R289-R291, R296): a header alone, or a header and the outputs. -/
def State.attnResult (s : State) (q : Seq) (a : AttnDesc) (query : List Nat) (status : Nat) (trapPoison : Bool) : List Byte :=
  let zeros := List.replicate (4 * a.d) (0 : Byte)
  if status = 4 then attnHeader 0xFF800000 0 4 0 ++ zeros
  else if status ≠ 0 then attnHeader 0 0 status 0
  else if trapPoison then attnHeader 0 0 11 0
  else if s.attnSlots q a = [] then attnHeader 0xFF800000 0 4 0 ++ zeros
  else
    let t := s.attnFold q a query
    attnHeader t.m t.s 0 (s.attnSlots q a).length ++ t.o.flatMap fun c => leBytes 4 c

end Sys2Proof.Machine
end

