-- ==== Sys2Proof/Machine/Perform.lean ====
section
/-! DEFINITION. Accesses performing at their targets: loads, stores, operations at slices, slot accesses, and the
ordering instructions (spec/07_memory.md R106-R125, spec/09_consistency.md R127-R143). -/

namespace Sys2Proof.Machine

/-- An access of a context by its number. -/
def Ctx.access (c : Ctx) (id : Nat) : Option Access := c.mq.find? fun a => a.id == id

/-- The context with an access changed. -/
def Ctx.modAccess (c : Ctx) (id : Nat) (f : Access → Access) : Ctx :=
  { c with mq := c.mq.map fun a => if a.id = id then f a else a }

/-- An x register of an engine of a context written. -/
def State.writeReg (s : State) (k : Nat) (e : Eng) (d : Reg) (v : Quad) : State :=
  s.modCtx k fun c => c.modEng e fun g => g.wx d v

/-- The context with an engine's wait over: it goes on after the instruction that waited, whose tokens are
pushed (R31). -/
def Ctx.endWait (c : Ctx) (e : Eng) : Ctx :=
  let g := c.eng e
  (((c.setEng e { g with wait := .no, wlen := 0, wid := 0 }).tokFill g.wid).advance e g.wlen).wake

/-- The context with the wait of an engine for an access over. -/
def Ctx.endAccessWait (c : Ctx) (e : Eng) (id : Nat) : Ctx :=
  match (c.eng e).wait with
  | .access n => if n = id then c.endWait e else c
  | _ => c

/-- An access that has performed leaves its queues; its tokens enter their FIFOs (R31). -/
def State.finishAccess (s : State) (k id : Nat) (e : Eng) : State :=
  s.modCtx k fun c =>
    ((({ c with mq := c.mq.filter fun a => a.id != id }).tokFill id).wake).endAccessWait e id

/-- What an acquire does to the core's L1 (R126, R138): at cluster scope and wider every line goes. -/
def State.acquireAt (s : State) (k : Nat) (sc : Scope) : State :=
  if sc = .core then s else s.l1DropAll (k / 4)

/-- An access that acquires does so as it performs. -/
def State.acquireOf (s : State) (k : Nat) (a : Access) : State := if a.acquires then s.acquireAt k a.scope else s

/-- Every earlier system-scope write of the task has been acknowledged, as a release at system scope asks
(R126). -/
def Ctx.systemAcked (c : Ctx) (a : Access) : Bool :=
  !a.releases || a.scope != .system ||
  c.mq.all fun b => match b.kind with | .xfer x => x.dspc != .sys || (x.finished && x.acked) || !c.before b a | _ => true

/-- Uncorrectable words of a scratchpad delivered to a context under its policy, 8 bytes at a time (R108,
R125). -/
def State.deliverWords (s : State) (k core : Nat) (e : Eng) (off va a n : Nat) : State × Bool :=
  let bad := s.badWords core a n
  let c := s.ctx k
  if bad = [] then (s, true)
  else if c.pol then ((s.wordEvent c.part core true).raiseAt k e off .poison va, false)
  else ((bad.foldl (fun t _ => t.wordEvent c.part core false) s).modCtx k (fun c => c.poisoned bad.length), true)

/-- The byte that an entry of the forwarding table holds at an address. -/
def FwdEnt.byte (f : FwdEnt) (a : Nat) : Option Byte := if f.addr ≤ a then f.data[a - f.addr]? else none

/-- The byte that an L-space read of engine `e` at a place sees where the scratchpad holds `b` (R136): that of the last store of
the table that precedes it, while that store has not performed; else, where a store after the read has performed over it, what
the first such store has covered. -/
def Ctx.forwardByte (c : Ctx) (e : Eng) (p : Pos) (a : Nat) (b : Byte) : Byte :=
  let before (f : FwdEnt) : Bool := (c.eng e).precedes f.pos p
  let hits := c.fwd.filter fun f => (f.byte a).isSome
  let seen := match hits.find? fun f => f.done && !before f with
    | some f => f.under.getD (a - f.addr) b
    | none => b
  match (hits.filter before).getLast? with
  | some f => if f.done then seen else (f.byte a).getD b
  | none => seen

/-- Bytes of a scratchpad as an L-space read of engine `e` at a place sees them (R136). -/
def State.forwarded (s : State) (k : Nat) (e : Eng) (p : Pos) (a : Nat) (bs : List Byte) : List Byte :=
  if (s.ctx k).fwd = [] then bs
  else (List.range bs.length).map fun i => (s.ctx k).forwardByte e p (a + i) (bs.getD i 0)

/-- The parts of an access that are still to perform translated again, after a change that precedes it, on the path of its core
(R121, R344). -/
def State.reParts (s : State) (k : Nat) (write : Bool) : List Part → Reach
  | [] => .ok []
  | p :: r =>
    let x := if p.place != .mem || p.done then Xlat.ok p.addr true true
      else s.unitXlat k (s.ctx k).part (s.ctx k).asid p.va write
    match x with
    | .fault f => .fault f p.va
    | .miss => .miss p.va
    | .ok pa _ _ =>
      match s.reParts k write r with
      | .ok l => .ok ({ p with addr := pa } :: l)
      | e => e

/-- The access is one that its kind translates as a write (R119). -/
def Access.isWrite (a : Access) : Bool :=
  match a.kind with
  | .store => true
  | .op (.barwait ..) => false
  | .op _ => true
  | _ => false

/-- An access that issued before a change of translation that precedes it, translated again; a miss waits for its walk (R122,
R344). Slot accesses keep the sequence that their handle named. -/
def State.retranslate (s : State) (k : Nat) (a : Access) : State :=
  let fresh (l : List Part) : State := s.modCtx k fun c => c.modAccess a.id fun b => { b with parts := l, stale := false }
  match a.kind with
  | .load .. | .vload _ | .store | .op (.atomic ..) | .op (.alrb ..) | .op (.barinit _) | .op (.bararr ..) | .op (.barwait ..) =>
    (match s.reParts k a.isWrite a.parts with
     | .ok l => fresh l
     | .miss va => s.enterUnitMiss k (s.ctx k).part (s.ctx k).asid va
     | .fault f va => s.raiseAt k a.eng a.pos.off f va)
  | _ => fresh a.parts

/-- The uncorrectable words of the L1 copy that a load part reads, delivered under the context's policy (R108). -/
def State.deliverL1 (s : State) (k : Nat) (a : Access) (p : Part) : State × Bool :=
  let bad := s.l1Bad k p.addr p.len
  let c := s.ctx k
  if bad = [] then (s, true)
  else if c.pol then ((s.poisonEvent c.part p.addr true).raiseAt k a.eng a.pos.off .poison p.va, false)
  else ((bad.foldl (fun t w => t.poisonEvent c.part (128 * (p.addr / 128) + 8 * w) false) s).modCtx k
    (fun c => c.poisoned bad.length), true)

/-- The bytes that a load part reads, or the trap of its delivery: from the L1 where it holds the line, else from the home
slice; a line that the task itself has written whole has no poison for it (R107, R108, R125). -/
def State.readPart (s : State) (k : Nat) (a : Access) (p : Part) : State × Option (List Byte) :=
  match p.place with
  | .spad c =>
    if !s.spadHas c p.addr p.len then (s.raiseAt k a.eng a.pos.off .prot p.va, none)
    else
      let (s1, go) := s.deliverWords k c a.eng a.pos.off p.va p.addr p.len
      (s1, if go then some (s.forwarded k a.eng a.pos p.addr (s.spadClean c p.addr p.len)) else none)
  | .peer c =>
    if !s.spadHas c p.addr p.len then (s.raiseAt k a.eng a.pos.off .prot p.va, none)
    else
      let (s1, go) := s.deliverWords k c a.eng a.pos.off p.va p.addr p.len
      (s1, if go then some (s.peerRead k c p.addr p.len) else none)
  | .mem =>
    let s0 := (s.endHold k (p.addr / 128))
    let line := p.addr / 128
    let hit := (l1Find (s0.core (k / 4)).l1 k line).isSome
    let (s1, go) := if hit then s0.deliverL1 k a p
      else if (s.ctx k).ver.full.contains line then (s0.l2Fill line, true)
      else s0.deliver k a.eng a.pos.off p.va p.addr
    if !go then (s1, none)
    else
      let bs := s1.gRead k p.addr p.len true
      let s2 := if hit || s1.linePoisoned line then s1 else s1.l1Fill (k / 4) line (s1.committed (128 * line) 128)
      (s2, some bs)

/-- The value that a scalar load writes: its bytes extended (R170). -/
def extend (sext : Bool) (bytes v : Nat) : Quad := if sext then quad (signed (8 * bytes) v) else quadN v

/-- The vector whose low bytes are given; the bytes above are zero (R172). -/
def vecOf (bs : List Byte) : Vec := BitVec.ofNat 1024 (leNat bs)

/-- A load whose every part has performed: its register or its queue entry is written. -/
def State.deliverLoad (s : State) (k : Nat) (a : Access) : State :=
  match a.kind with
  | .load n sext d => (s.writeReg k a.eng d (extend sext n (leNat a.data))).finishAccess k a.id a.eng
  | .vload q => (s.modCtx k fun c => c.fillFd q a.id (vecOf a.data)).finishAccess k a.id a.eng
  | _ => s.finishAccess k a.id a.eng

/-- The parts of an access with one marked as performed. -/
def markDone (l : List Part) (i : Nat) : List Part :=
  l.zipIdx.map fun p => if p.2 = i then { p.1 with done := true } else p.1

/-- A part of a load performs. -/
def State.loadPart (s : State) (k : Nat) (a : Access) (i : Nat) (p : Part) : State :=
  let (s1, r) := (s.acquireOf k a).readPart k a p
  match r with
  | none => s1
  | some bs =>
    let a' := { a with data := lineWrite a.data p.off bs, parts := markDone a.parts i }
    if a'.parts.all (·.done) then s1.deliverLoad k a' else s1.modCtx k fun c => c.modAccess a.id fun _ => a'

/-- A part of an entry of the forwarding table has performed, over the bytes `under`. -/
def Ctx.fwdDone (c : Ctx) (id off : Nat) (under : List Byte) : Ctx :=
  { c with fwd := c.fwd.map fun f => if f.id = id ∧ f.off = off then { f with done := true, under := under } else f }

/-- A store of S performs in a scratchpad; one of a stream has no entry in the forwarding table (R136, R218). -/
def State.spadStore (s : State) (k core : Nat) (a : Access) (p : Part) (bs : List Byte) : State :=
  if 2 ^ 40 ≤ a.id then s.spadWrite core p.addr bs
  else ((s.spadPut core p.addr bs).coverFwd (some k) core (bs.zipIdx.map fun b => (p.addr + b.2, b.1))).modCtx k fun c =>
    c.fwdDone a.id p.off (s.spadClean core p.addr bs.length)

/-- A part of a store performs; none where it waits for headroom (R303). -/
def State.writePart (s : State) (k : Nat) (a : Access) (p : Part) (bs : List Byte) : State × Bool :=
  match p.place with
  | .spad c =>
    if !s.spadHas c p.addr p.len then (s.raiseAt k a.eng a.pos.off .prot p.va, false)
    else (s.spadStore k c a p bs, true)
  | .peer c =>
    if !s.spadHas c p.addr p.len then (s.raiseAt k a.eng a.pos.off .prot p.va, false)
    else if !s.peerAllowed k c p.addr then (s.raiseAt k a.eng a.pos.off .vcap p.va, false)
    else (s.peerWrite k c p.addr bs, true)
  | .mem =>
    let part := (s.ctx k).part
    if s.hitsScb p.addr p.len then (s.raiseAt k a.eng a.pos.off .prot p.va, false)
    else if !s.lineAllowed k p.addr then (s.raiseAt k a.eng a.pos.off .vcap p.va, false)
    else
      match s.reserveLine part p.addr with
      | none => (s.waitSpace part p.addr (some (k, a.eng)) a.id p.va, false)
      | some s1 =>
        (((s1.dropWait part p.addr (some (k, a.eng)) a.id).endHold k (p.addr / 128)).verWrite k p.addr bs, true)

/-- A store of the store queue in the copy of its line, where the L1 holds one (R107); a stream write goes past the L1. -/
def State.storeL1 (s : State) (k : Nat) (p : Part) (bs : List Byte) : State :=
  match p.place with
  | .mem => s.l1Store k p.addr bs
  | _ => s

/-- A part of a store performs. -/
def State.storePart (s : State) (k : Nat) (a : Access) (i : Nat) (p : Part) : State :=
  let bs := (a.data.drop p.off).take p.len
  let (s0, ok) := s.writePart k a p bs
  if !ok then s0
  else
    let s1 := (s0.acquireOf k a).storeL1 k p bs
    let a' := { a with parts := markDone a.parts i }
    if a'.parts.all (·.done) then s1.finishAccess k a.id a.eng else s1.modCtx k fun c => c.modAccess a.id fun _ => a'

/-- The register that an operation writes. -/
def opDest : SliceOp → Option Reg
  | .atomic _ _ d .. | .alrc d _ | .bararr d _ | .barwait d _ | .sqnew d .. | .sqres d .. | .sqrest d ..
  | .sqcmt d .. | .sqacc d .. | .sqwd d .. | .sqfree d .. | .sqfork d .. | .sqlen d .. | .sqwait d ..
  | .sqpin d .. | .squnpin d .. | .sqext d .. => some d
  | .alrb .. | .barinit _ | .sqattn .. => none

/-- A `sqattn` that reaches the sequence unit: the length is read, and the attention is in flight until its
slices have taken their reads (R290, R291). -/
def State.opSqattn (s : State) (k h : Nat) (off : Pos) (desc query : List Byte) (ten : Bool) (tag : Nat) : OpRes :=
  let c := s.ctx k
  let q := s.seq h
  let status := attnStatus q (attnDesc desc)
  let live := decide (status = 0)
  let e : Attn := { ctx := k, taskid := c.taskid, core := k / 4, scb := h, desc := desc, query := query, ten := ten,
                    tag := tag, pol := c.pol, len := q.len, live := live,
                    status := status, pos := off }
  let s0 := s.l1DropScb k h
  let s1 : State := { s0 with attns := s0.attns ++ [e] }
  .done (if live then s1.putSeq h { q with attn := q.attn + 1 } else s1) 0

/-- An operation at its home slice. -/
def State.opAt (s : State) (k : Nat) (a : Access) (p : Part) (o : SliceOp) : OpRes :=
  let off := a.pos.off
  match o with
  | .atomic op n _ b c => s.opAtomic k a.id off p.va p.addr op n b c
  | .alrb va gone => s.opAlrb k off va p.addr gone
  | .alrc _ marks => s.opAlrc k a.id off p.va p.addr marks
  | .barinit b => s.opBarWrite k a.id off p.va p.addr (fun r => r.init b) (fun _ => 0)
  | .bararr _ e => s.opBarWrite k a.id off p.va p.addr (fun r => r.arrive e) (fun r => quadN r.phase)
  | .barwait _ ph => s.opBarwait k off p.va p.addr ph
  | .sqnew _ h w b => s.opSqnew k a.id h p.va w b
  | .sqres _ h n => s.opSqres k a.id h n
  | .sqrest _ h n => s.opSqrest k a.id h n
  | .sqcmt _ h i n => s.opSqcmt k a.id h i n
  | .sqacc _ h n => s.opSqacc k a.id h n
  | .sqwd _ h => s.opSqwd k a.id h
  | .sqfree _ h => s.opSqfree k a.id h
  | .sqfork _ h g va => s.opSqfork k a.id h g va (s.seq h).va
  | .sqlen _ h => s.opSqlen k h
  | .sqwait _ h n _ _ => s.opSqwait k h n
  | .sqpin _ h => s.opSqpin k a.id h true
  | .squnpin _ h => s.opSqpin k a.id h false
  | .sqext _ h sel b => s.opSqext k h sel b
  | .sqattn h d q t g => s.opSqattn k h a.pos d q t g

/-- The operation is a closing message, which does not end the hold it closes. -/
def opCloses : SliceOp → Bool
  | .alrc .. => true
  | _ => false

/-- An operation performs at its slice: its result is written and it leaves the queues. -/
def State.performOp (s : State) (k : Nat) (a : Access) (p : Part) (o : SliceOp) : State :=
  let s0 := if opCloses o then s else s.endHold k (p.addr / 128)
  match s0.opAt k a p o with
  | .trap t => t
  | .wait t => t
  | .done t v =>
    let t1 := match opDest o with | some d => t.writeReg k a.eng d v | none => t
    (t1.acquireOf k a).finishAccess k a.id a.eng

/-- `ldq` and `vldq` perform: the length is read with acquire, and then the slot (R283). -/
def State.performQload (s : State) (k : Nat) (a : Access) (p : Part) (d st : Reg) (h i ch : Nat) (vec : Option Nat) : State :=
  let q := s.seq h
  let n := if vec.isSome then 64 else 1
  let s0 := (s.endHold k (p.addr / 128)).acquireAt k .device
  let finish (t : State) (status : Nat) (vals : List (BitVec 16)) : State :=
    let bs := vals.flatMap fun v => leBytes 2 v.toNat
    let t1 := match vec with
      | some f => t.modCtx k fun c => c.fillFd f a.id (vecOf bs)
      | none => t.writeReg k a.eng d (quadN (leNat bs))
    (t1.writeReg k a.eng st (resultQuad status q.len)).finishAccess k a.id a.eng
  let zeros := List.replicate n (0 : BitVec 16)
  if !q.live then finish s0 7 zeros
  else if q.len ≤ i then finish s0 1 zeros
  else if s.slotVoid q i then finish s0 9 zeros
  else if q.size ≤ ch then s0.raiseAt k a.eng a.pos.off .prot p.va
  else
    let m := min n (q.size - ch)
    let lines := s.chanLines q i ch m
    let bad := lines.filter s.linePoisoned
    let c := s.ctx k
    let s2 := lines.foldl State.l2Fill s0
    if bad ≠ [] ∧ c.pol then (s2.poisonEvent c.part (128 * bad.headD 0) true).raiseAt k a.eng a.pos.off .poison p.va
    else
      let s1 := (bad.foldl (fun t l => t.poisonEvent c.part (128 * l) false) s2).modCtx k fun c => c.poisoned bad.length
      finish s1 0 ((List.range m).map fun j => s.chanBits q i (ch + j))

/-- Fills put into the version of a task, line after line; none where one of them has no place within the budget (R110,
R279, R332). -/
def State.takeFills (s : State) (k : Nat) : List (Nat × Nat × Nat × BitVec 16) → Option State
  | [] => some s
  | f :: r =>
    let l := (2 + f.1, f.2.1, f.2.2.1 / 64)
    if s.verAllowed k l then
      ((s.takeWay k l).modCtx k fun c => { c with ver := { c.ver with fills := c.ver.fills ++ [f] } }).takeFills k r
    else none

/-- `stq` and `vstq` perform: the fill enters the task's version (R279). -/
def State.performQfill (s : State) (k : Nat) (a : Access) (p : Part) (h i ch : Nat) : State :=
  let c := s.ctx k
  match s.fillOk h i ch c.taskid with
  | .prot => s.raiseAt k a.eng a.pos.off .prot p.va
  | .drop => s.finishAccess k a.id a.eng
  | .ok =>
    let n := min (a.data.length / 2) ((s.seq h).size - ch)
    let new := (List.range n).map fun j => (h, i, ch + j, BitVec.ofNat 16 (leNat ((a.data.drop (2 * j)).take 2)))
    match s.takeFills k new with
    | none => s.raiseAt k a.eng a.pos.off .vcap p.va
    | some t => (t.endHold k (p.addr / 128)).finishAccess k a.id a.eng

/-- A deferred fault of the task of a context, from a unit that `p` names (R224, R261, R291). -/
def State.deferred (s : State) (k : Nat) (p : DUnit → Bool) : Option Deferred :=
  s.defers.find? fun d => d.ctx == k && d.taskid == (s.ctx k).taskid && p d.unit

/-- A deferred fault of a command whose tag a wait of a task returns (R261, R291). -/
def State.tagDeferred (s : State) (k : Nat) (v : Quad) : Option Deferred :=
  s.defers.find? fun d => d.ctx == k && d.taskid == (s.ctx k).taskid &&
    (match d.tag with | some g => v.getLsbD g | none => false)

/-- The engine that reports the deferred faults of a unit (R224, R261, R291). -/
def unitEngine : DUnit → Eng
  | .lane _ | .mat _ => .c
  | .xl => .l
  | .xs => .s
  | .attn _ => .x

/-- A deferred fault makes its task trap (R224, R333). -/
def State.raiseDeferred (s : State) (k : Nat) (d : Deferred) : State :=
  let e := unitEngine d.unit
  s.raise k { code := d.code, eng := e, pc := ((s.ctx k).eng e).pc, addr := d.addr, info := d.info, clock := s.clock,
              defer := true }

/-- The units whose deferred faults a `qfence` of a mask meets (R224, R261). -/
def fenceUnits (mask : Nat) : DUnit → Bool
  | .lane _ => mask.testBit 4
  | .mat _ => mask.testBit 5
  | .xl => mask.testBit 2
  | .xs => mask.testBit 3
  | .attn _ => false

/-- Lane macros, reductions and matrix commands of a context that precede a `qfence` have completed (R141). -/
def State.engineQueuesDone (s : State) (k : Nat) (a : Access) (mask : Nat) : Bool :=
  let c := s.ctx k
  let earlier (q : Pos) : Bool := (c.eng a.eng).precedes q a.pos
  (!mask.testBit 4 ||
    (s.lanes.all (fun l => (l.2.q ++ l.2.flight).all fun e => e.ctx != k || e.taskid != c.taskid || !earlier e.pos) &&
     s.reds.all fun r => r.ctx != k || r.taskid != c.taskid || !earlier r.pos)) &&
  (!mask.testBit 5 || s.mats.all fun m => m.2.q.all fun e => e.ctx != k || e.taskid != c.taskid || !earlier e.pos)

/-- A unit of a write stream that C wrote before the place `p` of engine `e` has yet to be stored. -/
def Ctx.unitsLeft (c : Ctx) (e : Eng) (p : Pos) : Bool :=
  c.z.any fun z => z.2.write && z.2.buf.any fun u => (c.eng e).precedes u.pos p

/-- The units of write streams that C wrote before a `qfence` of the store queue have been stored (R141, R218). -/
def State.unitsStored (s : State) (k : Nat) (a : Access) (mask : Nat) : Bool :=
  !mask.testBit 1 || !(s.ctx k).unitsLeft a.eng a.pos

/-- The elements that come before part `i` and that it has to follow have performed: those of a gather that have its target, each
element being an access of its own (R132), and all of those of a scatter (R174). The line parts of one access are not
ordered. -/
def State.elementsBefore (s : State) (a : Access) (i : Nat) (p : Part) : Bool :=
  !p.elem || (a.parts.take i).all fun q => q.done || (a.eng == .l && s.target q != s.target p)

/-- An access performs, as far as its part `i` goes, where nothing holds it back. -/
def State.tryPerform (s : State) (k id i : Nat) : State :=
  let c := s.ctx k
  match c.access id with
  | none => s
  | some a =>
    if c.st = .idle ∨ !c.systemAcked a then s
    else if a.stale then (if s.mayPerform k a none then s.retranslate k a else s)
    else
      match a.kind with
      | .mark => if s.mayPerform k a none then s.finishAccess k id a.eng else s
      | .fence => if s.mayPerform k a none then (s.acquireAt k a.scope).finishAccess k id a.eng else s
      | .qfence m =>
        (match s.deferred k (fenceUnits m) with
         | some d => s.raiseDeferred k d
         | none => if s.mayPerform k a none && s.engineQueuesDone k a m && s.unitsStored k a m then s.finishAccess k id a.eng else s)
      | .xfer _ => s
      | kind =>
        match a.parts[i]? with
        | none => if a.parts.isEmpty && s.mayPerform k a none then s.deliverLoad k a else s
        | some p =>
          if p.done || !s.elementsBefore a i p || !s.mayPerform k a (some p) then s
          else
            match kind with
            | .load .. | .vload _ => s.loadPart k a i p
            | .store => s.storePart k a i p
            | .op o => s.performOp k a p o
            | .qload d st h slot ch vec => s.performQload k a p d st h slot ch vec
            | .qfill h slot ch => s.performQfill k a p h slot ch
            | _ => s

/-- An access performs as far as it may, part after part. -/
def State.performAll (s : State) (k id : Nat) : State :=
  match (s.ctx k).access id with
  | none => s
  | some a => (List.range (max 1 a.parts.length)).foldl (fun t i => t.tryPerform k id i) (if a.stale then s.tryPerform k id 0 else s)

end Sys2Proof.Machine
end

