-- ==== Sys2Proof/Machine/Issue.lean ====
section
/-! DEFINITION. The issue of an instruction of a text: its legality on the engine, what stalls it, its guard, its
tokens and queues, and the walk past it (spec/03_encoding.md R49, R60-R63, spec/01_execution_model.md R29-R31). -/

namespace Sys2Proof.Machine

/-- What the common part of issue needs to know of an instruction: its prefixes and TK field, the engines that may
execute it, the queues it pops and pushes, and the x registers whose pending results it waits for. -/
structure Form where
  mods : Mods := {}
  cls  : EngClass := .common
  srcs : List QEnd := []
  dsts : List QEnd := []
  regs : List Reg := []

/-- What the own effect of an instruction comes to. -/
inductive Res where
  | ok (s : State)                              -- it has performed
  | later (s : State)                           -- it has entered an access, and performs with it
  | jump (t : Nat) (s : State)                  -- it takes a branch to a parcel offset
  | stall (w : Stall) (s : State)
  | trap (c : Code) (addr info : Nat) (s : State)
  | wait (w : Wait) (s : State)                 -- the engine waits; an event ends the wait
  | stay (s : State)                            -- the engine has gone on by itself

/-! ## Legality -/

/-- An engine may execute an instruction of a class (R63). -/
def classOk (c : EngClass) (e : Eng) : Bool :=
  match c with
  | .common => true
  | .commonXC => e == .x || e == .c
  | .only x l c s => match e with | .x => x | .l => l | .c => c | .s => s

/-- A class of common instructions, the only ones that may stand in a block of several engines (R63). -/
def classCommon : EngClass → Bool
  | .common | .commonXC => true
  | .only .. => false

/-- Engine X alone. -/
def onX : EngClass := .only true false false false
/-- Engine C alone. -/
def onC : EngClass := .only false false true false
/-- Engines L and S. -/
def onLS : EngClass := .only false true false true
/-- Engines X, L and S. -/
def onXLS : EngClass := .only true true false true

/-- A TK field on an engine (R49): bits PSHHI, PSHLO, POPHI, POPLO from the highest down. -/
def tkOk (tk : BitVec 4) (e : Eng) (multi : Bool) : Bool :=
  tk == 0 ||
  (!multi &&
    match e with
    | .x => false
    | .l => !tk.getLsbD 2 && !tk.getLsbD 0
    | .c => true
    | .s => !tk.getLsbD 3 && !tk.getLsbD 1)

/-- The instruction stands in a block that is tagged for several engines. -/
def State.multi (s : State) : Bool :=
  match s.ce.blk with
  | some b => maskMulti b.mask
  | none => false

/-- The engine in execution may execute the instruction where it stands (R49, R60, R63). -/
def State.legal (s : State) (f : Form) : Bool :=
  classOk f.cls s.cur.eng && (!s.multi || classCommon f.cls) && tkOk f.mods.tk s.cur.eng s.multi &&
  (f.mods.pfx.guard.isNone || s.cur.eng == .x || s.cur.eng == .c)

/-! ## Stalls -/

/-- A result that an access of the engine in execution has still to write (R147). -/
def Access.writes (a : Access) (r : Reg) : Bool :=
  match a.kind with
  | .load _ _ d => a.parts.length != 0 && d == r
  | .op o => opDest o == some r
  | .qload d st _ _ _ vec => st == r || (vec.isNone && d == r)
  | _ => false

/-- A result that the instruction reads or writes over is not yet available (R147). -/
def State.resultPending (s : State) (l : List Reg) : Bool :=
  l.any fun r => r != 0 && s.cc.mq.any fun a => a.eng == s.cur.eng && a.writes r

/-- A pop-before token is missing, or the FIFO has no place for a push-after token (R31). The token that the instruction itself pops
still counts among the 8 (DESIGN CHOICE, log 135). -/
def State.tokensBlocked (s : State) (tk : BitVec 4) : Bool :=
  let c := s.cc
  let e := s.cur.eng
  (tk.getLsbD 0 && !c.tokThere e false) || (tk.getLsbD 1 && !c.tokThere e true) ||
  (tk.getLsbD 2 && !c.tokRoom e false) || (tk.getLsbD 3 && !c.tokRoom e true)

/-- A source queue is empty or a destination queue is full (R30). -/
def State.queuesBlocked (s : State) (f : Form) : Bool :=
  f.srcs.any (fun q => !s.cc.queueReady q) || f.dsts.any (fun q => !s.cc.queueRoom q)

/-- What the instruction waits for before it issues; none where nothing keeps it back. -/
def State.blocked (s : State) (f : Form) : Option Stall :=
  if s.resultPending f.regs then some .result
  else if s.tokensBlocked f.mods.tk then some .token
  else if s.queuesBlocked f then some .queue
  else none

/-! ## Retirement -/

/-- The guard leaves the instruction out (R60). -/
def State.guardOff (s : State) (m : Mods) : Bool :=
  match m.pfx.guard with
  | some g => s.rp g.pred == g.sense
  | none => false

/-- The context with the tokens of an instruction taken, and the places of those it pushes reserved (R31). -/
def Ctx.takeTokens (c : Ctx) (e : Eng) (tk : BitVec 4) (id : Nat) : Ctx :=
  let c1 := if tk.getLsbD 0 then c.tokTake e false else c
  let c2 := if tk.getLsbD 1 then c1.tokTake e true else c1
  let c3 := if tk.getLsbD 2 then c2.tokReserve e false id else c2
  if tk.getLsbD 3 then c3.tokReserve e true id else c3

/-- The context past the issue of an instruction: its source queues popped, its tokens taken and reserved under its
number, and the number spent. -/
def Ctx.issued (c : Ctx) (e : Eng) (f : Form) : Ctx :=
  let c1 := f.srcs.foldl Ctx.popQueue c
  let c2 := c1.takeTokens e f.mods.tk c1.nextId
  { c2 with nextId := c2.nextId + 1 }.modEng e fun g => { g with issues := g.issues + 1 }

/-- The machine past an instruction that has performed: its tokens are in their FIFOs and the engine goes on. -/
def State.retire (s : State) (f : Form) : State :=
  let id := s.cc.nextId
  s.modMe fun c => ((((c.issued s.cur.eng f).tokFill id).advance s.cur.eng s.cur.len).wake)

/-- The machine past an instruction that has entered an access, which performs at once where the schedule does not
hold it and nothing else does. -/
def State.retireLater (s : State) (f : Form) : State :=
  let id := s.cc.nextId
  let s1 := s.modMe fun c => (((c.issued s.cur.eng f).advance s.cur.eng s.cur.len).wake)
  if s.cur.hold then s1 else s1.performAll s1.me id

/-- The machine with an instruction issued that makes its engine wait. An `lfence` has performed, for its tokens, when it has
entered its queues (R31, R223). -/
def State.retireWait (s : State) (f : Form) (w : Wait) : State :=
  let id := s.cc.nextId
  let s1 := s.modMe fun c =>
    ((c.issued s.cur.eng f).modEng s.cur.eng fun g => { g with wait := w, wlen := s.cur.len, wid := id }).wake
  match w with
  | .access n => if s.cur.hold then s1 else s1.performAll s1.me n
  | .lfence _ n => if s1.macroFlying s1.me n then s1 else s1.modMe fun c => c.tokFill n
  | _ => s1

/-- A guarded-off instruction: its queues and tokens keep their balance, and it does nothing else (R60). -/
def State.skipGuarded (s : State) (f : Form) : State :=
  (s.modMe fun c => f.dsts.foldl Ctx.pushZero c).retire f

/-- The machine after the own effect of an instruction. -/
def State.settleRes (s : State) (f : Form) : Res → State
  | .ok t => t.retire f
  | .later t => t.retireLater f
  | .jump d t => t.modMe fun c => ((c.issued t.cur.eng f).jump t.cur.eng d).wake
  | .stall w t => t.stallHere w
  | .trap c a n t => t.trapHere c a n
  | .wait w t => t.retireWait f w
  | .stay t => t

/-- An instruction of a text at issue (R30, R31, R49, R60, R63, R68). -/
def issue (f : Form) (s : State) (body : State → Res) : Host.Outcome State Fault Refusal :=
  .next (
    if !s.legal f then s.trapHere .illop
    else
      match s.blocked f with
      | some w => s.stallHere w
      | none => if s.guardOff f.mods then s.skipGuarded f else s.settleRes f (body s))

end Sys2Proof.Machine
end

