-- ==== Sys2Proof/Machine/Flags.lean ====
section
/-! DEFINITION. Conditions, the modes that a rounding prefix and `ctl.round` give, clamping, and the words of the
status registers (spec/11_control_instructions.md R145, R154, spec/03_encoding.md R56, spec/05_number_formats.md R88,
spec/27_traps.md R337, spec/25_scheduling.md R326). -/

namespace Sys2Proof.Machine

/-- The condition of `cmp` and `cmpi` on two patterns (R154). -/
def condHolds (c : Cond) (a b : Quad) : Bool :=
  match c with
  | .eq => a == b
  | .ne => a != b
  | .lt => decide (a.toInt < b.toInt)
  | .ge => decide (b.toInt ≤ a.toInt)
  | .le => decide (a.toInt ≤ b.toInt)
  | .gt => decide (b.toInt < a.toInt)
  | .ltu => decide (a.toNat < b.toNat)
  | .geu => decide (b.toNat ≤ a.toNat)
  | .leu => decide (a.toNat ≤ b.toNat)
  | .gtu => decide (b.toNat < a.toNat)
  | .bs => (a &&& b) != 0
  | .bz => (a &&& b) == 0

/-- The mode that `ctl.round` holds (R88). -/
def rmOfRound (r : BitVec 3) : Rm :=
  match r.toNat with
  | 1 => .rtz | 2 => .rdn | 3 => .rup | 4 => .rna | _ => .rne

/-- What a write of `ctl.round` stores: a reserved mode stores 000 (R88). -/
def roundStored (v : Quad) : BitVec 3 := if v.toNat % 8 ≤ 4 then BitVec.ofNat 3 v.toNat else 0

/-- The rounding mode of an instruction: its prefix, or `ctl.round` (R56, R88). -/
def State.rm (s : State) (m : Mods) : Rm :=
  match m.pfx.rnd with
  | some r => r.rm.getD (rmOfRound s.cc.round)
  | none => rmOfRound s.cc.round

/-- The prefix saturates (R56). -/
def satOf (m : Mods) : Bool := match m.pfx.rnd with | some r => r.sat | none => false
/-- The prefix flushes subnormals (R56). -/
def ftzOf (m : Mods) : Bool := match m.pfx.rnd with | some r => r.ftz | none => false

/-- An integer limited to −2⁶³ … 2⁶³ − 1 (R145). -/
def clamp64 (r : Int) : Int := max (-(2 ^ 63 : Nat)) (min ((2 ^ 63 - 1 : Nat) : Int) r)

/-- The pattern of an exact result: wrapped, or clamped with SAT (R145, R146). -/
def narrow (m : Mods) (r : Int) : Quad := if satOf m then quad (clamp64 r) else quad r

/-- The word of `stat.task` of a context (R337). -/
def State.statTask (s : State) (k : Nat) : Quad :=
  let c := s.ctx k
  quadN (min 65535 c.poisc * 2 ^ 48 + c.pois.toNat * 2 ^ 47 + c.priv.toNat * 2 ^ 46 + c.resumed.toNat * 2 ^ 45 +
    c.preq.toNat * 2 ^ 44 + c.svf % 4 * 2 ^ 42 + min 255 c.item.attempt * 2 ^ 32 + k / 4 % 128 * 4 + k % 4)

/-- The word of `stat.stall` of an engine (R326). -/
def Engine.statStall (e : Engine) : Quad :=
  quadN (e.queue % 2 ^ 16 * 2 ^ 48 + e.memq % 2 ^ 16 * 2 ^ 32 + e.window % 2 ^ 16 * 2 ^ 16 + e.arb % 2 ^ 16)

end Sys2Proof.Machine
end

