-- ==== Sys2Proof/Machine/VecOps.lean ====
section
/-! DEFINITION. What vector operations compute on vector values (spec/15_vector_stream_instructions.md R190,
R194-R207). -/

namespace Sys2Proof.Machine

/-- The elements of a vector at width `w` (R190). -/
def vElems (w : Nat) (v : Vec) : List Nat := (List.range (1024 / w)).map fun i => v.toNat / 2 ^ (w * i) % 2 ^ w

/-- The vector whose elements at width `w` are given; those not given are zero (R190). -/
def vOf (w : Nat) (l : List Nat) : Vec := BitVec.ofNat 1024 (l.foldr (fun e a => e % 2 ^ w + 2 ^ w * a) 0)

/-- The bytes of a vector, byte 0 first (R190). -/
def vBytes (v : Vec) : List Byte := leBytes 128 v.toNat

/-- A vector from the elements of one other. -/
def vMap1 (w : Nat) (f : Nat → Nat) (a : Vec) : Vec := vOf w ((vElems w a).map f)
/-- A vector from the elements of two others. -/
def vMap2 (w : Nat) (f : Nat → Nat → Nat) (a b : Vec) : Vec :=
  vOf w (((vElems w a).zip (vElems w b)).map fun p => f p.1 p.2)
/-- A vector from the elements of three others. -/
def vMap3 (w : Nat) (f : Nat → Nat → Nat → Nat) (a b c : Vec) : Vec :=
  vOf w (((vElems w a).zip ((vElems w b).zip (vElems w c))).map fun p => f p.1 p.2.1 p.2.2)

/-! ## Integers -/

/-- An element read as signed, or as unsigned (R195). -/
def elemInt (w : Nat) (u : Bool) (e : Nat) : Int := if u then (e % 2 ^ w : Nat) else signed w e

/-- A result at width `w`: wrapped, or clamped to the range that U selects (R195). -/
def intResult (w : Nat) (u sat : Bool) (r : Int) : Nat :=
  let lo : Int := if u then 0 else -(2 ^ (w - 1) : Nat)
  let hi : Int := if u then (2 ^ w - 1 : Nat) else (2 ^ (w - 1) - 1 : Nat)
  let v := if sat then max lo (min hi r) else r
  (v % (2 ^ w : Nat)).toNat

/-- All-ones at width `w`, or zero. -/
def ones (w : Nat) (b : Bool) : Nat := if b then 2 ^ w - 1 else 0

/-- A left shift at width `w`; 0 for an amount of the width or more (R148, R195). -/
def elemShl (w e n : Nat) : Nat := if w ≤ n then 0 else e * 2 ^ n % 2 ^ w
/-- A logical right shift at width `w` (R148, R195). -/
def elemShr (w e n : Nat) : Nat := if w ≤ n then 0 else e / 2 ^ n
/-- An arithmetic right shift at width `w`, filling with the sign (R148, R195). -/
def elemSra (w e n : Nat) : Nat := intResult w false false (signed w e / (2 ^ min n w : Nat))

/-- The number of set bits below bit `w`. -/
def popCount (w e : Nat) : Nat := ((List.range w).filter fun i => e.testBit i).length

/-- The condition of `vcmp` on two integers (R194). -/
def vcondHolds (c : VCond) (a b : Int) : Bool :=
  match c with
  | .eq => decide (a = b) | .ne => decide (a ≠ b) | .lt => decide (a < b)
  | .le => decide (a ≤ b) | .gt => decide (b < a) | .ge => decide (b ≤ a)

/-! ## Floating point -/

/-- The elements of a floating operation: values in, one rounding out (R197). -/
def fElem (f : Fmt) (rm : Rm) (sat ftz : Bool) (g : XR → XR) (a : Nat) : Nat :=
  fmtRound f rm sat ftz (g (fmtValue f ftz a))

/-- The vector of a floating operation on one operand. -/
def fMap1 (f : Fmt) (rm : Rm) (sat ftz : Bool) (g : XR → XR) (a : Vec) : Vec :=
  vMap1 (fmtWidth f) (fElem f rm sat ftz g) a
/-- The vector of a floating operation on two operands (R197). -/
def fMap2 (f : Fmt) (rm : Rm) (sat ftz : Bool) (g : XR → XR → XR) (a b : Vec) : Vec :=
  vMap2 (fmtWidth f) (fun x y => fmtRound f rm sat ftz (g (fmtValue f ftz x) (fmtValue f ftz y))) a b
/-- The vector of a floating operation on three operands (R197). -/
def fMap3 (f : Fmt) (rm : Rm) (sat ftz : Bool) (g : XR → XR → XR → XR) (a b c : Vec) : Vec :=
  vMap3 (fmtWidth f) (fun x y z => fmtRound f rm sat ftz (g (fmtValue f ftz x) (fmtValue f ftz y) (fmtValue f ftz z))) a b c

/-- The condition of `vfcmp` on two values (R197). -/
def fcondHolds (c : FCond) (a b : XR) : Bool :=
  match c with
  | .eq => a.eqv b
  | .ne => !a.eqv b
  | .lt => a.lt b
  | .le => a.lt b || a.eqv b
  | .gt => b.lt a
  | .ge => b.lt a || a.eqv b
  | .un => a.isNan || b.isNan

/-! ## Conversion, quantisation and records -/

/-- `vcvt` (R200). -/
def vecCvt (sf tf : Fmt) (part : Nat) (rm : Rm) (sat ftz : Bool) (a : Vec) : Vec :=
  let ws := fmtWidth sf
  let wt := fmtWidth tf
  let n := 1024 / max ws wt
  let src := vElems ws a
  let conv := fun e => convert sf tf rm sat ftz e
  if ws < wt then vOf wt (((src.drop (n * part)).take n).map conv)
  else if wt < ws then vOf wt (List.replicate (n * part) 0 ++ src.map conv)
  else vOf wt (src.map conv)

/-- The scale byte that `vqnt` computes from its source values (R201). -/
def quantScale (tf : Fmt) (xs : List XR) : Byte :=
  let m := xs.foldl (fun (a : XR) x => let y := x.abs; if y.isNan || y.isInf then a else if a.lt y then y else a)
    (.zero false)
  if m.isZero then 0 else BitVec.ofNat 8 (fmtRound (.b8 5 true true) .rup true false (m.div (qmax tf)))

/-- The 32 source elements of a quantisation (R201). -/
def part32 (f : Fmt) (part : Nat) (a : Vec) : List Nat := ((vElems (fmtWidth f) a).drop (32 * part)).take 32

/-- `vqnt`; `scale` is the scale byte of vb, if SCM names one (R201). -/
def vecQnt (sf tf : Fmt) (part : Nat) (scale : Option Byte) (rm : Rm) (sat ftz : Bool) (a : Vec) : Vec :=
  let xs := (part32 sf part a).map (fmtValue sf ftz)
  let sc := scale.getD (quantScale tf xs)
  let s := scaleValue sc
  vecOfBytes (recordBytes tf sc (xs.map fun x => fmtRound tf rm sat ftz (quantQuot x s)))
where
  /-- The vector whose low bytes are given. -/
  vecOfBytes (bs : List Byte) : Vec := BitVec.ofNat 1024 (leNat bs)

/-- `vdqnt`; with FTZ a subnormal scale reads as zero, as a subnormal element does (R90, R202). -/
def vecDqnt (sf tf : Fmt) (part : Nat) (rm : Rm) (sat ftz : Bool) (a : Vec) : Vec :=
  let bs := vBytes a
  let s := fmtValue (.b8 5 true true) ftz (bs.headD 0).toNat
  let codes := recordCodes sf (bs.drop 1)
  let vals := codes.map fun c => fmtRound tf rm sat ftz (s.mul (fmtValue sf ftz c))
  vOf (fmtWidth tf) (List.replicate (32 * part) 0 ++ vals)

/-- `vunpk` (R203). -/
def vecUnpk (f : Fmt) (a : Vec) : Vec :=
  let bs := vBytes a
  vOf 8 ((bs.headD 0).toNat :: recordCodes f (bs.drop 1))

/-- `vpack` (R203). -/
def vecPack (f : Fmt) (a : Vec) : Vec :=
  let bs := vBytes a
  BitVec.ofNat 1024 (leNat (recordBytes f (bs.headD 0) ((bs.drop 1).take 32 |>.map (·.toNat))))

/-! ## Reductions -/

/-- `vradd` (R204). -/
def vecRadd (w : Nat) (u sat : Bool) (a : Vec) : Vec :=
  let add (x y : Int) : Int := elemInt 64 u (intResult 64 u sat (x + y))
  BitVec.ofNat 1024 (intResult 64 u false (reduceTree add 0 ((vElems w a).map (elemInt w u))))

/-- `vrmax` (R204). -/
def vecRmax (w : Nat) (u : Bool) (a : Vec) : Vec :=
  BitVec.ofNat 1024 (intResult w u false (reduceTree max 0 ((vElems w a).map (elemInt w u))))

/-- `vfradd` (R101, R204). -/
def vecFradd (f : Fmt) (rm : Rm) (sat ftz : Bool) (a : Vec) : Vec :=
  let add (x y : Nat) : Nat := fmtRound f rm sat ftz ((fmtValue f ftz x).add rm (fmtValue f ftz y))
  BitVec.ofNat 1024 (reduceTree add 0 (vElems (fmtWidth f) a) % 2 ^ fmtWidth f)

/-- `vfrmax` (R204). -/
def vecFrmax (f : Fmt) (ftz : Bool) (a : Vec) : Vec :=
  let top (x y : Nat) : Nat := fmtRound f .rne false false ((fmtValue f ftz x).larger (fmtValue f ftz y))
  BitVec.ofNat 1024 (reduceTree top 0 (vElems (fmtWidth f) a) % 2 ^ fmtWidth f)

/-! ## Permutations, the merge and moves -/

/-- `vperm` (R205). -/
def vecPerm (w : Nat) (a b c : Vec) : Vec :=
  let n := 1024 / w
  let t := vElems w a ++ vElems w b
  vOf w ((vElems w c).map fun j => if j < 2 * n then t.getD j 0 else 0)

/-- `vrot` (R205). -/
def vecRot (w k : Nat) (a : Vec) : Vec :=
  let n := 1024 / w
  let l := vElems w a
  vOf w ((List.range n).map fun i => l.getD ((i + k) % n) 0)

/-- `vbcast` (R205). -/
def vecBcast (w k : Nat) (a : Vec) : Vec := vOf w (List.replicate (1024 / w) ((vElems w a).getD k 0))

/-- `vins` (R205). -/
def vecIns (w k : Nat) (a : Vec) (x : Quad) : Vec := vOf w ((vElems w a).set k (x.toNat % 2 ^ w))

/-- `vcomp` (R205). -/
def vecComp (w : Nat) (a b : Vec) : Vec :=
  vOf w ((((vElems w a).zip (vElems w b)).filter fun p => p.2 != 0).map (·.1))

/-- `vexpd` (R205). -/
def vecExpd (w : Nat) (a b : Vec) : Vec :=
  vOf w (go (vElems w a) (vElems w b))
where
  /-- The elements in turn: the next of the sources where the selector is not zero. -/
  go : List Nat → List Nat → List Nat
  | _, [] => []
  | src, j :: r => if j = 0 then 0 :: go src r else src.headD 0 :: go src.tail r

/-- `vmrg3` (R206). -/
def vecMrg3 (sel : Bool) (a b c : Vec) : Vec :=
  let k := vElems 32 c
  let t := mergeTriples { m := k.getD 0 0, s := k.getD 1 0, o := vElems 32 a }
                        { m := k.getD 2 0, s := k.getD 3 0, o := vElems 32 b }
  if sel then vOf 32 (if (f32Value (k.getD 0 0)).isNan || (f32Value (k.getD 2 0)).isNan
                      then [f32Nan, f32Nan] else [t.m, t.s])
  else vOf 32 t.o

/-- `vli` (R207). -/
def vecLi (w : Nat) (ramp : Bool) (k : Int) : Vec :=
  vOf w ((List.range (1024 / w)).map fun (i : Nat) => ((k + (if ramp then (i : Int) else 0)) % (2 ^ w : Nat)).toNat)

/-- `vsplat` (R207). -/
def vecSplat (w : Nat) (x : Quad) : Vec := vOf w (List.replicate (1024 / w) (x.toNat % 2 ^ w))

end Sys2Proof.Machine
end

