-- ==== Sys2Proof/Machine/Stream.lean ====
section
/-! DEFINITION. Streams: their descriptors, the units that L fetches and S stores, and what C takes and passes
(spec/15_vector_stream_instructions.md R209-R219). -/

namespace Sys2Proof.Machine

/-! ## Reads of the scratchpad at issue -/

/-- An L-space store of S (R136). -/
def decLocalStore : Dec → Bool
  | .i (.stl ..) | .i (.vstl ..) | .i (.vsl ..) => true
  | _ => false

/-- The store of an access is one of S to the core's own scratchpad that has not performed. -/
def Access.localPending (a : Access) : Bool :=
  a.eng == .s && a.kind == .store && a.parts.any fun p => !p.done && (match p.place with | .spad _ => true | _ => false)

/-- The L-space stores of S that precede the instruction in execution have performed; a read of L finds those that have
not in the forwarding table (R136, R174). -/
def State.localStored (s : State) : Bool :=
  s.cur.eng == .l || s.cc.mq.all fun a => !a.localPending || !(s.cur.eng == .s || s.ce.precedes a.pos s.pos)

/-- An earlier acquire, `fence` or `qfence`, of whichever engine, has issued and been met: what the instruction in execution reads at
issue is read after it (R131, R138, R139, R141, R143). -/
def State.acquired (s : State) : Bool :=
  s.issuedBefore s.me s.cur.eng s.pos decAcquires && s.cc.mq.all fun b =>
    !(b.acquires || (match b.kind with | .qfence m => m % 64 != 0 | _ => false)) ||
    !(b.eng == s.cur.eng || s.ce.precedes b.pos s.pos)

/-- Bytes of the core's own scratchpad read at issue: after the L-space stores of S that precede, which a read of L finds in the
forwarding table and any other in the scratchpad (R136, R174, R229, R289, R293, R297). What stalls or traps instead is the left
answer. -/
def State.readLocal (s : State) (a n : Nat) : Except Res (State × List Byte) :=
  let core := s.cur.core
  let e := s.cur.eng
  if (s.core core).splitting then .error (.stall .hold s)
  else if !s.issuedBefore s.me e s.pos decLocalStore || !s.localStored || !s.acquired then .error (.stall .order s)
  else if !s.spadHas core a n then .error (.trap .prot a 0 s)
  else
    let (s1, go) := s.deliverWords s.me core e s.ce.pc a a n
    if !go then .error (.stay s1)
    else
      let bs := s1.spadClean core a n
      .ok (s1, if e = .l then s1.forwarded s1.me e s1.pos a bs else bs)

/-! ## Descriptors and units -/

/-- The stream that a descriptor binds; none for a reserved or a zero field that is not permitted (R209, R213). With
MODE = 0 the field FMT is not looked at, whatever format code it holds (R75, R209; DESIGN CHOICE, log 111). -/
def streamOf (v : Nat) (ctlRound : Rm) : Option Stream :=
  let cnt := [bits v 447 432, bits v 383 368, bits v 319 304]
  let spc := bits v 49 48
  let record := v.testBit 47
  let rm : Option Rm := match bits v 42 40 with
    | 0 => some .rne | 1 => some .rtz | 2 => some .rdn | 3 => some .rup | 4 => some .rna | 7 => some ctlRound | _ => none
  let fmt := fmtOfCode (BitVec.ofNat 6 (bits v 55 50))
  if bits v 159 56 ≠ 0 ∨ bits v 37 0 ≠ 0 ∨ (spc ≠ 0 ∧ spc ≠ 2) ∨ cnt.any (· == 0) then none
  else
    match rm, (if record then fmt else some .i8s) with
    | some r, some f =>
      if record && !fmtIsRecord f then none
      else some { bound := true, base := bits v 511 448, cnt := cnt,
                  step := [signed 48 (bits v 431 384), signed 48 (bits v 367 320), signed 48 (bits v 303 256)],
                  scbase := bits v 255 192, scstep := signed 32 (bits v 191 160), fmt := f, global := spc == 2,
                  record := record, scsep := record && v.testBit 46, nb := bits v 45 43, rm := r,
                  sat := v.testBit 39, ftz := v.testBit 38 }
    | _, _ => none

/-- An address wrapped to 64 bits. -/
def wrap64 (v : Int) : Nat := (v % (2 ^ 64 : Nat)).toNat

/-- The address of a unit (R210). -/
def Stream.addr (z : Stream) (u : Nat) : Nat :=
  let c0 := z.cnt.getD 0 1
  let c1 := z.cnt.getD 1 1
  wrap64 (z.base + (u % c0 : Nat) * z.step.getD 0 0 + (u / c0 % c1 : Nat) * z.step.getD 1 0 +
    (u / c0 / c1 : Nat) * z.step.getD 2 0)

/-- The address of a unit's scale byte (R210). -/
def Stream.scaleAddr (z : Stream) (u : Nat) : Nat := wrap64 (z.scbase + u * z.scstep)

/-- The bytes of a unit at its address (R209). -/
def Stream.size (z : Stream) : Nat :=
  if z.record then recordSize z.fmt - z.scsep.toNat else 16 * (z.nb + 1)

/-- The pieces of memory of a unit: address and length, a separate scale byte first (R210). -/
def Stream.pieces (z : Stream) (u : Nat) : List (Nat × Nat) :=
  (if z.scsep then [(z.scaleAddr u, 1)] else []) ++ [(z.addr u, z.size)]

/-! ## Chains -/

/-- A step of a chain is valid (R211). -/
def chainStepOk (w : BitVec 16) : Bool :=
  let n := w.toNat
  let f := fmtOfCode (BitVec.ofNat 6 (n / 64))
  let g := fmtOfCode (BitVec.ofNat 6 n)
  let isSrc (x : Fmt) : Bool := x == .fp32 || x == .bf16 || x == .fp16
  match n / 4096, f, g with
  | 1, some a, some b => fmtIsVector a && fmtIsVector b
  | 2, some a, some b => isSrc a && fmtIsRecord b
  | 3, some a, some b => fmtIsRecord a && isSrc b
  | 4, _, some b | 5, _, some b => n / 64 % 64 == 0 && fmtIsRecord b
  | _, _, _ => false

/-- The steps of a chain quad; none for an invalid one: a zero step ends it, and every step after it is zero
(R211). -/
def chainOf (q : Quad) : Option (List (BitVec 16)) :=
  let l := (List.range 4).map fun j => BitVec.ofNat 16 (q.toNat / 2 ^ (16 * j))
  let head := takeUntil (· == 0#16) l
  if head.all chainStepOk && (l.drop head.length).all (· == 0#16) then some head else none

/-- A vector through one step of a chain (R211). -/
def chainStep (rm : Rm) (sat ftz : Bool) (v : Vec) (w : BitVec 16) : Vec :=
  let n := w.toNat
  let f := (fmtOfCode (BitVec.ofNat 6 (n / 64))).getD .i8s
  let g := (fmtOfCode (BitVec.ofNat 6 n)).getD .i8s
  match n / 4096 with
  | 1 => vecCvt f g 0 rm sat ftz v
  | 2 => vecQnt f g 0 none rm sat ftz v
  | 3 => vecDqnt f g 0 rm sat ftz v
  | 4 => vecPack g v
  | 5 => vecUnpk g v
  | _ => v

/-- A vector through the chain of a stream (R211). -/
def Stream.through (z : Stream) (v : Vec) : Vec := z.chain.foldl (chainStep z.rm z.sat z.ftz) v

/-! ## Skips -/

/-- A `sadv` on a stream, or a `sunbind` of it with NOW. -/
def decSkips (z : Nat) : Dec → Bool
  | .i (.sadv _ n ..) => n.toNat == z
  | .i (.sunbind _ n now) => n.toNat == z && now == 1#1
  | _ => false

/-- A word that begins or ends the binding of a stream. -/
def decRebinds (z : Nat) : Dec → Bool
  | .i (.sbind _ n ..) | .i (.sunbind _ n ..) => n.toNat == z
  | _ => false

/-- A word of C that names a stream. -/
def decNames (z : Nat) : Dec → Bool
  | .i v => (instrSrcs v).any (fun o => match o with | .z n => n.toNat == z | _ => false) ||
      (match instrDst v with | some (.z n) => n.toNat == z | _ => false)
  | .sys .. => false

/-- The next units skipped: the sequence, the fetch cursor and the buffer move past them (R213). -/
def Stream.skip (z : Stream) (n : Nat) : Stream :=
  let d := min z.total (z.done + n)
  { z with done := d, cursor := if z.write then z.cursor else max z.cursor d,
           buf := if z.write then z.buf else z.buf.filter fun b => decide (d ≤ b.u)
           got := if !z.write && decide (z.cursor < d) then [] else z.got }

/-- The skips that precede a place of C in program order, applied (R217). -/
def Ctx.skipsBefore (c : Ctx) (p : Pos) (z : Stream) : Stream :=
  let early (k : Skip) : Bool := (c.eng .c).precedes k.pos p
  { (z.skips.filter early).foldl (fun t k => t.skip k.n) z with skips := z.skips.filter fun k => !early k }

/-- The skips that no access of C to the stream precedes any more, applied in order (R217). -/
def State.settleSkips (s : State) (k n : Nat) : State :=
  s.modCtx k fun c =>
    let z := tget {} c.z n
    let e : Eng := if z.write then .s else .l
    let due := takeUntil (fun (sk : Skip) => (s.unissued k e .c sk.pos).any (decNames n)) z.skips
    { c with z := tput c.z n { due.foldl (fun t sk => t.skip sk.n) z with skips := z.skips.drop due.length } }

/-! ## The streams of a context -/

/-- A stream of the context in execution. -/
def State.stream (s : State) (n : Nat) : Stream := tget {} s.cc.z n
/-- The machine with a stream of the context in execution replaced. -/
def State.setStream (s : State) (n : Nat) (z : Stream) : State := s.modMe fun c => { c with z := tput c.z n z }

/-! ## The memory of a unit -/

/-- The parts of memory of a G-space piece, translated on the path of the context's core (R121). -/
def State.pieceParts (s : State) (k : Nat) (write : Bool) : List (Nat × Nat × Nat) → Reach
  | [] => .ok []
  | (a, o, n) :: r =>
    let va := a % 2 ^ 64
    match s.unitXlat k (s.ctx k).part (s.ctx k).asid va write with
    | .fault f => .fault f va
    | .miss => .miss va
    | .ok pa _ _ =>
      match s.pieceParts k write r with
      | .ok ps => .ok ({ place := .mem, addr := pa, len := n, off := o, va := va } :: ps)
      | e => e

/-- The parts of a piece in the space of a stream (R209). -/
def State.streamParts (s : State) (k : Nat) (z : Stream) (write : Bool) (a n : Nat) : Reach :=
  if z.global then s.pieceParts k write (lineParts a n)
  else if !s.spadHas (k / 4) a n then .fault .prot a
  else .ok ((lineParts a n).map fun p => { place := .spad (k / 4), addr := p.1, len := p.2.2, off := p.2.1, va := p.1 })

/-- The parts of every piece of a unit, each with its piece's place among the unit's bytes. -/
def State.unitParts (s : State) (k : Nat) (z : Stream) (write : Bool) : Nat → List (Nat × Nat) → Reach
  | _, [] => .ok []
  | o, (a, n) :: r =>
    match s.streamParts k z write a n with
    | .ok l =>
      (match s.unitParts k z write (o + n) r with
       | .ok m => .ok (l.map (fun p => { p with off := p.off + o }) ++ m)
       | e => e)
    | e => e

/-! ## What C takes and passes -/

/-- No `mark`, `fence` or instruction on translations before the `sbind` of a read stream, and none of the last before that of a write
stream, keeps its units back: each has issued, and been met or will be (R131, R218, R344). `done` says what has been met. -/
def State.streamBegun (s : State) (k : Nat) (z : Stream) (done : Access → Bool) : Bool :=
  let e : Eng := if z.write then .s else .l
  s.issuedBefore k e z.pos (fun d => decBinds d && (!z.write || (match d with | .i (.mark ..) | .i (.fence ..) => false | _ => true))) &&
  (z.write || (s.ctx k).mq.all fun a => !a.isMark || !((s.ctx k).eng .l).precedes a.pos z.pos || done a)

/-- An access of a queue has a part still to perform at the target of one of a unit's parts (R132). -/
def State.meetsPart (s : State) (load : Bool) (a : Access) (ps : List Part) : Bool :=
  (if load then a.inL else a.inS) && ps.any fun p => (s.openTargets a).contains (s.target p)

/-- A fetch or a unit store of a stream is to come without the engines of the task (R191, R213). -/
def State.streamComes (s : State) (k : Nat) (z : Stream) : Bool :=
  (s.ctx k).streamMoves z && s.streamBegun k z (s.comes k) &&
  (match s.unitParts k z z.write 0 (z.pieces (match z.write, z.buf with | true, b :: _ => b.u | _, _ => z.cursor)) with
   | .ok ps => (s.ctx k).mq.all fun a => !s.meetsPart (!z.write) a ps || s.comes k a
   | _ => true)

/-- An engine counts as stalled for the deadlock test: on such a stall, at `tend`, after a `yield`, or in a
`sunbind` of a stream of which nothing is in flight (R32, R213, R347). -/
def State.deadly (s : State) (k : Nat) (e : Eng) : Bool :=
  let c := s.ctx k
  let g := c.eng e
  match g.wait with
  | .tend | .yield => true
  | .no => match g.stall with | some w => stallDeadly w | none => false
  | .sunbind z _ => !s.streamComes k (tget {} c.z z)
  | _ => false

/-- All four engines of a context count as stalled, and not all of them at `tend` (R23, R32). -/
def State.allDeadly (s : State) (k : Nat) : Bool :=
  allEngs.all (s.deadly k) && !allEngs.all (fun e => ((s.ctx k).eng e).wait == .tend)

/-- A context after clocks have passed, all its engines counting as stalled for R32 or not. -/
def Ctx.tick (c : Ctx) (d : Nat) (deadly : Bool) : Ctx :=
  match c.st with
  | .run | .saving _ | .restoring _ =>
    { c with engs := c.engs.map fun p => (p.1, p.2.count d), dead := if deadly then c.dead + d else 0 }
  | _ => c

/-- The machine after clocks have passed. -/
def State.tick (s : State) (d : Nat) : State :=
  { s with clock := s.clock + d, ctxs := s.ctxs.map fun p => (p.1, p.2.tick d (s.allDeadly p.1)) }

/-- A stall of C on a stream; it counts for the deadlock test while nothing of the stream is in flight (R191). -/
def State.streamStall (s : State) (n : Nat) : Res :=
  .stall (if s.streamComes s.me (s.stream n) then .stream else .queue) s

/-- A `sunbind` of a stream that precedes the instruction of C in execution has issued and waits. -/
def State.unbinding (s : State) (n : Nat) : Bool :=
  [Eng.l, .s].any fun e => match (s.cc.eng e).wait with | .sunbind m p => m == n && s.ce.precedes p s.pos | _ => false

/-- What L and S have yet to issue on a stream that precedes the instruction of C in execution, up to the first word that begins or
ends a binding, and whether there is such a word. -/
def State.streamAhead (s : State) (n : Nat) : List Dec × Bool :=
  let l := [Eng.l, .s].map fun f => (takeUntil (decRebinds n) (s.unissued s.me .c f s.pos), (s.unissued s.me .c f s.pos).find? (decRebinds n))
  (l.flatMap fun p => p.1 ++ p.2.toList, l.any fun p => p.2.isSome)

/-- The binding that C meets has ended for it once its units are spent: a `sunbind` that precedes waits or has yet to issue
(R217). -/
def State.rebinding (s : State) (n : Nat) : Bool := s.unbinding n || (s.streamAhead n).2

/-- The stream as C meets it: it is bound, the skips that precede have issued and are applied (R217). A `sunbind` that waits or has
yet to issue still lets C take and write the units that are left; one with NOW does not (DEDUCED, log 38). -/
def State.meetStream (s : State) (n : Nat) : Except Res Stream :=
  if !(s.stream n).bound then .error (s.streamStall n)
  else if !s.unbinding n && (s.streamAhead n).1.any (decSkips n) then .error (s.streamStall n)
  else .ok (s.cc.skipsBefore s.pos (s.stream n))

/-- A read stream from which C may take a vector: its next unit, or none once every unit has been taken (R214). -/
def State.openRead (s : State) (n : Nat) : Except Res (Stream × Option ZUnit) :=
  match s.meetStream n with
  | .error r => .error r
  | .ok z =>
    if z.write then .error (if s.rebinding n then s.streamStall n else .trap .qfault 0 0 s)
    else if z.total ≤ z.done then (if s.rebinding n then .error (s.streamStall n) else .ok (z, none))
    else
      match z.buf with
      | [] => .error (s.streamStall n)
      | b :: _ => .ok (z, some b)

/-- C takes the next vector of a read stream (R214). -/
def State.takeStream (s : State) (n : Nat) : Except Res (State × Vec) :=
  match s.openRead n with
  | .error r => .error r
  | .ok (z, none) => .ok (s.setStream n { z with ovr := true }, 0)
  | .ok (z, some b) =>
    match b.mark with
    | some (f, a) =>
      .error (.stay (s.raise s.me { code := f, eng := .c, pc := s.ce.pc, addr := a, info := b.u, clock := s.clock,
                                    qent := true }))
    | none => .ok (s.setStream n { z with buf := z.buf.tail, done := z.done + 1 }, b.val)

/-- A write stream to which C may pass a result (R215). -/
def State.openWrite (s : State) (n : Nat) : Except Res Stream :=
  match s.meetStream n with
  | .error r => .error r
  | .ok z =>
    if !z.write then .error (if s.rebinding n then s.streamStall n else .trap .qfault 0 0 s)
    else if z.total ≤ z.done then (if s.rebinding n then .error (s.streamStall n) else .ok z)
    else if 8 ≤ z.buf.length then .error (s.streamStall n)
    else .ok z

/-- C passes a result to a write stream (R215). -/
def State.passStream (s : State) (n : Nat) (v : Vec) : Except Res State :=
  match s.openWrite n with
  | .error r => .error r
  | .ok z =>
    if z.total ≤ z.done then .ok (s.setStream n { z with ovr := true })
    else .ok (s.setStream n { z with buf := z.buf ++ [{ u := z.done, val := v, pos := s.pos }], done := z.done + 1, moved := true })

/-! ## Stream instructions -/

/-- One part of a unit fetched: its bytes, how many poisoned lines or words they came from, or the mark of its unit
(R125, R214). -/
def State.fetchPart (s : State) (k : Nat) (p : Part) : State × Except (Code × Nat) (List Byte × Nat) :=
  let c := s.ctx k
  match p.place with
  | .mem =>
    let s0 := (s.endHold k (p.addr / 128)).l2Fill (p.addr / 128)
    if s0.linePoisoned (p.addr / 128) && !c.ver.full.contains (p.addr / 128) then
      if c.pol then (s0.poisonEvent c.part p.addr true, .error (.poison, p.va))
      else (s0.poisonEvent c.part p.addr false, .ok (s0.gRead k p.addr p.len false, 1))
    else (s0, .ok (s0.gRead k p.addr p.len false, 0))
  | _ =>
    let bad := s.badWords (k / 4) p.addr p.len
    if bad ≠ [] && c.pol then (s.wordEvent c.part (k / 4) true, .error (.poison, p.va))
    else (bad.foldl (fun t _ => t.wordEvent c.part (k / 4) false) s,
          .ok (s.spadClean (k / 4) p.addr p.len, bad.length))

/-- No earlier access of a queue of the context has still to perform at the target of a part (R132). -/
def State.queueClear (s : State) (k : Nat) (load : Bool) (ps : List Part) : Bool :=
  let c := s.ctx k
  decide ((c.mq.filter fun a => if load then a.inL else a.inS).length < 32) &&
  ps.all fun p =>
    (match p.place with
     | .mem => s.held.all fun h => h.line != p.addr / 128 || h.ctx == k
     | _ => !(s.core (k / 4)).splitting) &&
    c.mq.all fun a => !(if load then a.inL else a.inS) || !(s.openTargets a).contains (s.target p)

/-- The parts of the unit in hand that have not been fetched or stored yet (R127). -/
def Stream.left (z : Stream) (ps : List Part) : List Part := ps.filter fun p => !z.got.any (·.1 == p.off)

/-- The bytes of a unit from those of its parts, in the order of the parts. -/
def gotBytes (got : List (Nat × List Byte)) (ps : List Part) : List Byte := ps.flatMap fun p => (tfind got p.off).getD []

/-- A line part of the unit in hand fetched; with the last one the unit has come: its vector after the chain. A fault or poison marks
the unit (R127, R210, R211, R214). -/
def State.fetchUnit (s : State) (k n pick : Nat) : State :=
  let z := tget {} (s.ctx k).z n
  let put (t : State) (bad : Nat) (w : Stream) : State :=
    t.modCtx k fun c => { (c.poisoned bad).wake with z := tput c.z n { w with moved := true, pois := w.pois || decide (0 < bad) } }
  let arrive (b : ZUnit) : Stream := { z with buf := z.buf ++ [b], cursor := z.cursor + 1, got := [] }
  match s.unitParts k z false 0 (z.pieces z.cursor) with
  | .fault f va => put s 0 (arrive { u := z.cursor, mark := some (f, va) })
  | .miss va => s.enterUnitMiss k (s.ctx k).part (s.ctx k).asid va
  | .ok ps =>
    match choose ((z.left ps).filter fun p => s.queueClear k true [p]) pick with
    | none => s
    | some p =>
      match s.fetchPart k p with
      | (s1, .error e) => put s1 0 (arrive { u := z.cursor, mark := some e })
      | (s1, .ok (bs, bad)) =>
        let got := z.got ++ [(p.off, bs)]
        if (z.left ps).length ≤ 1 then put s1 bad (arrive { u := z.cursor, val := z.through (vecOf (gotBytes got ps)) })
        else put s1 bad { z with got := got }

/-- A context in which units of streams move. -/
def Ctx.moving (c : Ctx) : Bool :=
  match c.st with
  | .run | .saving _ | .restoring _ => true
  | _ => false

/-- L may fetch a part of the next unit of a stream (R214, R218, R219). -/
def State.canFetch (s : State) (k n : Nat) : Bool :=
  let c := s.ctx k
  let z := tget {} c.z n
  c.moving && !z.write && c.streamMoves z && s.streamBegun k z (fun _ => false) &&
  (match s.unitParts k z false 0 (z.pieces z.cursor) with
   | .ok ps => (z.left ps).any fun p => s.queueClear k true [p]
   | _ => true)

/-- The number under which the unit stores of a stream wait for headroom. -/
def streamWaitId (n : Nat) : Nat := 2 ^ 40 + n

/-- No unit of another stream that C wrote before the oldest unit of this one waits for headroom at the slice of a part (R132,
R303). -/
def State.streamsClear (s : State) (k n : Nat) (p : Part) : Bool :=
  let c := s.ctx k
  let first (m : Nat) : Pos := (((tget {} c.z m).buf.map (·.pos)).headD {})
  p.place != .mem || s.parts.all fun q => q.2.waits.all fun w =>
    w.ctx != some (k, .s) || w.id == streamWaitId n || decide (w.id < 2 ^ 40 ∨ 2 ^ 41 ≤ w.id) || w.slice != s.home p.addr ||
    !(c.eng .c).precedes (first (w.id - 2 ^ 40)) (first n)

/-- A part of a unit of a stream may be stored (R132, R303). -/
def State.partStores (s : State) (k n : Nat) (p : Part) : Bool := s.queueClear k false [p] && s.streamsClear k n p

/-- A line part of the oldest written unit of a stream stored by S; with the last one the unit has left (R127, R211, R215). -/
def State.storeUnit (s : State) (k n pick : Nat) : State :=
  let z := tget {} (s.ctx k).z n
  match z.buf with
  | [] => s
  | b :: r =>
    let a : Access := { id := streamWaitId n, eng := .s, inL := false, inS := true, pos := z.pos, kind := .store }
    match s.unitParts k z true 0 (z.pieces b.u) with
    | .fault f va => s.raiseAt k .s z.pos.off f va
    | .miss va => s.enterUnitMiss k (s.ctx k).part (s.ctx k).asid va
    | .ok ps =>
      match choose ((z.left ps).filter (s.partStores k n)) pick with
      | none => s
      | some p =>
        match s.writePart k a p (((vBytes (z.through b.val)).drop p.off).take p.len) with
        | (s1, false) => s1
        | (s1, true) =>
          let w : Stream := if (z.left ps).length ≤ 1 then { z with buf := r, got := [] } else { z with got := z.got ++ [(p.off, [])] }
          s1.modCtx k fun c => { c.wake with z := tput c.z n w }

/-- S may store a part of the oldest written unit of a stream (R132, R215). -/
def State.canStore (s : State) (k n : Nat) : Bool :=
  let c := s.ctx k
  let z := tget {} c.z n
  c.moving && z.bound && z.write && s.streamBegun k z (fun _ => false) &&
  (match z.buf with
   | [] => false
   | b :: _ =>
     match s.unitParts k z true 0 (z.pieces b.u) with
     | .ok ps => (z.left ps).any (s.partStores k n)
     | _ => true)

/-- A stream that a waiting `sunbind` may unbind: every unit is taken, or written and stored, and C has performed
every access that precedes (R213, R219). -/
def State.canUnbind (s : State) (k n : Nat) (e : Eng) (p : Pos) : Bool :=
  let z := tget {} ((s.settleSkips k n).ctx k).z n
  decide (z.total ≤ z.done) && z.buf == [] && !(s.unissued k e .c p).any (decNames n)

/-- A stream unbound. -/
def Ctx.unbind (c : Ctx) (n : Nat) : Ctx := { c with z := tdel c.z n }.wake

/-- The word of `sstat` (R216). -/
def Stream.word (z : Stream) : Quad :=
  quadN ((if !z.bound then 0 else if z.write then 2 else 1) * 2 ^ 62 + z.ovr.toNat * 2 ^ 61 + z.pois.toNat * 2 ^ 60 +
    (z.total - z.done) % 2 ^ 48 * (if z.bound then 1 else 0))

/-- The stream is bound by the engine in execution (R213). -/
def State.ownStream (s : State) (n : Nat) : Bool := (s.stream n).bound && (s.stream n).write == (s.cur.eng == .s)

end Sys2Proof.Machine
end

