-- ==== Sys2Proof/Machine/Operands.lean ====
section
/-! DEFINITION. Operand forms: immediates and their extension, x registers, vector operands, the memory operands of
every space, and the special registers (spec/03_encoding.md R53, R54, R59, spec/13_memory_instructions.md R166,
R169, R171, spec/15_vector_stream_instructions.md R191, spec/07_memory.md R113, R114). -/

namespace Sys2Proof.Machine

/-! ## Immediates -/

/-- A field of `w` bits with its immediate extension above it (R54). -/
def immField (w : Nat) (k : Nat) (m : Mods) : Nat := k % 2 ^ w + (m.pfx.imm.getD 0).toNat * 2 ^ w

/-- A signed immediate of `w` bits, or of `w` + 11 with its extension (R54). -/
def immS (w : Nat) (k : Nat) (m : Mods) : Int :=
  if m.pfx.imm.isSome then signed (w + 11) (immField w k m) else signed w k

/-- A two's-complement field as a pattern (R54). -/
def sextQuad (w k : Nat) : Quad := quad (signed w k)

/-! ## Scalar instructions -/

/-- An instruction that writes an x register of its engine with a value of its sources. -/
def aluOp (m : Mods) (d : Reg) (srcs : List Reg) (s : State) (f : State → Quad) : Host.Outcome State Fault Refusal :=
  issue { mods := m, regs := d :: srcs } s fun t => .ok (t.wx d (f t))

/-! ## Vector operands -/

/-- The queue that a vector source pops (R191). -/
def srcQueue : VSrc → List QEnd
  | .fd n => [.fd n.toNat]
  | _ => []

/-- The queue that a vector destination pushes (R191). -/
def dstQueue : VDst → List QEnd
  | .dn n => [.dn n.toNat]
  | .bk n => [.bk n.toNat]
  | _ => []

/-- The values of vector sources in order; a queue or a stream named more than once gives one vector (R191). The
queues themselves are popped as the instruction retires. -/
def State.takeSrcs (s : State) (got : List (Nat × Vec)) : List VSrc → Except Res (State × List Vec)
  | [] => .ok (s, [])
  | .v n :: r =>
    match s.takeSrcs got r with
    | .ok (t, l) => .ok (t, s.rv n :: l)
    | .error e => .error e
  | .fd n :: r =>
    match s.takeSrcs got r with
    | .ok (t, l) => .ok (t, s.cc.peekFd n.toNat :: l)
    | .error e => .error e
  | .z n :: r =>
    match got.find? fun p => p.1 == n.toNat with
    | some p =>
      (match s.takeSrcs got r with
       | .ok (t, l) => .ok (t, p.2 :: l)
       | .error e => .error e)
    | none =>
      match s.takeStream n.toNat with
      | .error e => .error e
      | .ok (t, v) =>
        match t.takeSrcs ((n.toNat, v) :: got) r with
        | .ok (t', l) => .ok (t', v :: l)
        | .error e => .error e

/-- Every stream that a vector instruction reads has its next vector, and the stream that it writes takes one; the first that does
not stalls the instruction, or traps (R191, R214, R215). -/
def State.operandsOpen (s : State) (d : Option VDst) : List VSrc → Except Res Unit
  | .z n :: r =>
    (match s.openRead n.toNat with
     | .error e => .error e
     | .ok _ => s.operandsOpen d r)
  | _ :: r => s.operandsOpen d r
  | [] =>
    match d with
    | some (.z n) => (match s.openWrite n.toNat with | .error e => .error e | .ok _ => .ok ())
    | _ => .ok ()

/-- A result passed to a vector destination (R191): a register, a stream, a whole `dn` entry, or bits 63:0 to a `bk`
queue. -/
def State.putDst (s : State) (d : VDst) (v : Vec) : Except Res State :=
  match d with
  | .v n => .ok (s.wv n v)
  | .z n => s.passStream n.toNat v
  | .dn n => .ok (s.modMe fun c => c.pushDn n.toNat v)
  | .bk n => .ok (s.modMe fun c => c.pushBk n.toNat (v.setWidth 64))

/-- The form of a vector instruction on C (R53, R191). -/
def vecForm (m : Mods) (d : Option VDst) (srcs : List VSrc) (regs : List Reg) : Form :=
  { mods := m, cls := .only false false true false, srcs := (srcs.flatMap srcQueue).eraseDups,
    dsts := match d with | some q => dstQueue q | none => [], regs := regs }

/-- The vectors of the sources taken for an instruction, once every operand can be served (R30, R191). -/
def State.withSrcs (t : State) (d : Option VDst) (srcs : List VSrc) (f : State → List Vec → Res) : Res :=
  match t.operandsOpen d srcs with
  | .error r => r
  | .ok _ =>
    match t.takeSrcs [] srcs with
    | .error r => r
    | .ok (t1, l) => f t1 l

/-- A vector instruction: once every operand can be served, its sources taken and its result passed on, nothing of either where
one of them traps (R30, R191). -/
def vecOp (m : Mods) (d : VDst) (srcs : List VSrc) (regs : List Reg) (s : State) (f : State → List Vec → Vec) :
    Host.Outcome State Fault Refusal :=
  issue (vecForm m (some d) srcs regs) s fun t =>
    t.withSrcs (some d) srcs fun t1 l =>
      match t1.putDst d (f t1 l) with
      | .error (.stall w _) => .stall w t
      | .error r => r
      | .ok t2 => .ok t2

/-! ## Memory operands -/

/-- The spaces of a load or a store (R113). -/
inductive Space where
  | l | p | g
  deriving DecidableEq, Repr

/-- The core that a role of the executing core's group is bound to (R33, R114). -/
def State.peerCore (s : State) (role : Nat) : Option Nat :=
  match s.myGroup with
  | some (g, _) => ((s.cr.trellis.getD g {}).core)[role]?
  | none => none

/-- The parts of a G-space access, each translated by the TLBs (R113, R119, R121). -/
def State.reachG (s : State) (write : Bool) (a : Nat) : List (Nat × Nat × Nat) → Reach
  | [] => .ok []
  | (va, o, n) :: r =>
    let va := va % 2 ^ 64
    match s.translate s.cur.core s.cc.part s.cc.asid va write with
    | .fault c => .fault c va
    | .miss => .miss va
    | .ok pa _ _ =>
      match s.reachG write a r with
      | .ok l => .ok ({ place := .mem, addr := pa, len := n, off := o, va := va } :: l)
      | e => e

/-- The parts of an access of `n` bytes at an address of a space, after the space checks and translation of R166. The scratchpad of
a peer that changes its size is checked with the new size, as the access performs (R106). -/
def State.reach (s : State) (sp : Space) (write : Bool) (a n : Nat) : Reach :=
  match sp with
  | .l =>
    if s.spadHas s.cur.core a n then
      .ok ((lineParts a n).map fun p => { place := .spad s.cur.core, addr := p.1, len := p.2.2, off := p.2.1, va := a + p.2.1 })
    else .fault .prot a
  | .p =>
    let role := bits a 42 32
    let off := bits a 22 0
    match s.peerCore role with
    | none => .fault .prot a
    | some c =>
      if bits a 63 43 ≠ 0 ∨ bits a 31 23 ≠ 0 then .fault .prot a
      else if !(s.core c).splitting && !s.spadHas c off n then .fault .prot a
      else .ok ((lineParts off n).map fun p => { place := .peer c, addr := p.1, len := p.2.2, off := p.2.1, va := a + p.2.1 })
  | .g => if 2 ^ 53 ≤ a then .fault .xlate a else s.reachG write a (lineParts a n)

/-- The order of the checks of an access: alignment, the space, translation (R166). -/
def State.checked (s : State) (sp : Space) (write : Bool) (align a n : Nat) : Reach :=
  if a % align ≠ 0 then .fault .align a else s.reach sp write a n

/-- An access whose page no TLB holds stalls its engine while the die walks (R122). -/
def State.missStall (s : State) (va : Nat) : Res := .stall .tlb (s.enterMiss s.me s.cur.eng va)

/-- The places that instructions hold in a memory queue (R168). -/
def Ctx.queueCount (c : Ctx) (load : Bool) : Nat := (c.mq.filter fun a => if load then a.inL else a.inS).length

/-- A place of each queue that an access needs is free (R168). -/
def Ctx.roomFor (c : Ctx) (inL inS : Bool) : Bool :=
  (!inL || decide (c.queueCount true < 32)) && (!inS || decide (c.queueCount false < 32))

/-- An access entered in its queues under the number that its instruction issues with. -/
def State.enter (s : State) (a : Access) : State :=
  s.modMe fun c => { c with mq := c.mq ++ [{ a with id := c.nextId }] }

/-- The access that an instruction of the engine in execution enters. -/
def State.access (s : State) (m : Mods) (inL inS : Bool) (kind : AccKind) (parts : List Part) (data : List Byte) : Access :=
  { id := s.cc.nextId, eng := s.cur.eng, inL := inL, inS := inS, pos := s.pos, kind := kind, ord := m.pfx.ord,
    parts := parts, data := data }

/-- The address of a register base, a register index and a byte offset (R166). -/
def effAddr (a b : Quad) (o : Int) : Nat := (a + b + quad o).toNat

end Sys2Proof.Machine
end

