-- ==== Sys2Proof/Machine/Save.lean ====
section
/-! DEFINITION. The parts of a save and a restore that instructions meet: resume states, vector slots, and a save that
fails (spec/27_traps.md R347-R350). -/

namespace Sys2Proof.Machine

/-- The engines of a context that wait after a `yield` go on (R342, R347). -/
def Ctx.endYields (c : Ctx) : Ctx :=
  allEngs.foldl (fun d e => if (d.eng e).wait = .yield then d.endWait e else d) c

/-- The entries that the queues of a context hold: Q of R348. -/
def Ctx.queueEntries (c : Ctx) : Nat :=
  ((c.fd.map fun p => p.2.length) ++ (c.dn.map fun p => p.2.length) ++ (c.bk.map fun p => p.2.length) ++
    c.xq.map fun p => p.2.length).sum

/-- The bound streams of a context: B of R348. -/
def Ctx.boundStreams (c : Ctx) : Nat := (c.z.filter fun p => p.2.bound).length

/-- A live context with its engines, queues, streams and special registers as a snapshot holds them (R348). What is not
of the context's own stays as it is: its task, its version, and its commands. -/
def Ctx.resumeFrom (l v : Ctx) : Ctx :=
  { l with st := .run, engs := v.engs, fd := v.fd, dn := v.dn, bk := v.bk, xq := v.xq, bq := v.bq, tokLC := v.tokLC,
           tokCS := v.tokCS, z := v.z, window := v.window, round := v.round, pol := v.pol, prio := v.prio,
           planRole := v.planRole, dead := 0, slots := [] }.wake

/-- A context that resumes in place: its snapshot stands, its v registers too (R350). -/
def State.resumeInPlace (s : State) (k : Nat) : State :=
  match tfind s.saves k with
  | some v => { s.modCtx k (fun l => { l.resumeFrom v.ctx with v := v.ctx.v }) with saves := tdel s.saves k }
  | none => s.modCtx k fun l => if l.preq then l else l.endYields

/-- A context belongs to a partition's pre-emption. -/
def State.inPart (s : State) (part k : Nat) : Bool :=
  (s.ctx k).st != .idle && (s.region (s.ctx k).regid).part == part

/-- A context that a pre-emption has stopped, or was about to (R347, R348): its task runs, or its save for the pre-emption is
going on or done. A trap that is being delivered, a commit, the save of an `lwait` and a restore go on as they are. -/
def Ctx.haltedBy (c : Ctx) : Bool :=
  match c.st with
  | .run | .saving false | .saved => true
  | _ => false

/-- The pre-emption of a partition abandoned: every halted context resumes at its stop point, and every unit where it
stopped (R350). -/
def State.abandonPreempt (s : State) (part : Nat) : State :=
  let mine := (s.ctxs.map (·.1)).filter (s.inPart part)
  let ks := mine.filter fun k => (s.ctx k).haltedBy
  let s1 := mine.foldl (fun t k => t.modCtx k fun c => { c with preq := false }) s
  (ks.foldl State.resumeInPlace s1).modPart part fun p => { p with preempt := none }

/-- A save that fails: SVF is set, the failure is recorded, and the context resumes in place. In a pre-emption the whole
partition resumes and the firmware is told; an `lwait` keeps its context (R350). -/
def State.failSave (s : State) (k svf : Nat) (lwait : Bool) : State :=
  let part := (s.region (s.ctx k).regid).part
  let die := dieOfCore (k / 4)
  let s1 := s.record die 7 part (k / 4) false 0 svf
  let s2 := (s1.resumeInPlace k).modCtx k fun c => { c with svf := svf, saveBad := if lwait then 1 else c.saveBad }
  if lwait then s2 else (s2.abandonPreempt part).send (.saveFailed part (k / 4) (k % 4))

/-- Bytes written to committed memory outside every version, by a walk of a context's address space (R348); or, with what has
been written before it, a page that does not translate (true), or a wait for a walk or for headroom. -/
def State.areaWrite (s : State) (k : Nat) (bs : List Byte) : List (Nat × Nat × Nat) → Except (State × Bool) State
  | [] => .ok s
  | (a, o, n) :: r =>
    let c := s.ctx k
    match s.unitXlat k c.part c.asid (a % 2 ^ 64) true with
    | .miss => .error (s.enterUnitMiss k c.part c.asid (a % 2 ^ 64), false)
    | .ok pa _ _ =>
      (match s.reserveLine c.part pa with
       | none => .error (s.waitSpace c.part pa (some (k, .x)) (2 ^ 41), false)
       | some t => ((t.dropWait c.part pa (some (k, .x)) (2 ^ 41)).commitBytes pa ((bs.drop o).take n)).areaWrite k bs r)
    | _ => .error (s, true)

/-- Bytes of a G-space save area, read on the path of a context's core by the address space of its task: a page that does not
translate, or a wait for a walk (R121, R122, R350). -/
def State.areaRead (s : State) (k part asid : Nat) : List (Nat × Nat × Nat) → Except (Option State) (State × List Byte)
  | [] => .ok (s, [])
  | (a, _, n) :: r =>
    match s.unitXlat k part asid (a % 2 ^ 64) false with
    | .miss => .error (some (s.enterUnitMiss k part asid (a % 2 ^ 64)))
    | .ok pa _ _ =>
      (match (s.l2Fill (pa / 128)).areaRead k part asid r with
       | .ok (t, bs) => .ok (t, s.committed pa n ++ bs)
       | e => e)
    | _ => .error none

/-- The n-th `vstg` of a save sequence writes the n-th vector slot, whatever its address operand; one beyond NV writes
nothing and fails the save (R348). -/
def State.saveSlot (s : State) (v : Vec) (lwait : Bool) : Res :=
  let c := s.cc
  let n := c.slots.length
  let keep (t : State) : State := t.modMe fun d => { d with slots := d.slots ++ [v] }
  if c.saveNv ≤ n then .stay (s.failSave s.me 2 lwait)
  else if !lwait then .ok (keep s)
  else
    match s.areaWrite s.me (vBytes v) (lineParts (c.saveAt + 128 * n) 128) with
    | .ok t => .ok (keep t)
    | .error (t, false) => .stall .space t
    | .error (t, true) => .stay (t.failSave s.me 1 lwait)

/-- A vector pushed into an `fd` queue. -/
def Ctx.pushFd (c : Ctx) (n : Nat) (v : Vec) : Ctx := { c with fd := tput c.fd n (tget [] c.fd n ++ [{ val := v }]) }

/-- The n-th `vldg` of a restore sequence reads the n-th vector slot (R348); one beyond NV reads any value. A page fault
on a G-space area traps with SAVEFAULT (R350). -/
def State.restoreSlot (s : State) (q : Nat) (lwait : Bool) : Res :=
  let c := s.cc
  let n := c.saveVs
  let put (t : State) (v : Vec) : Res := .ok (t.modMe fun d => { d.pushFd q v with saveVs := n + 1 })
  if c.saveNv ≤ n then
    let (d, t) := s.draw
    put t (Config.freeVec d)
  else if !lwait then put s (c.slots.getD n 0)
  else
    match s.areaRead s.me c.part c.asid (lineParts (c.saveAt + 128 * n) 128) with
    | .ok (t, bs) => put t (vecOf bs)
    | .error (some t) => .stall .tlb t
    | .error none =>
      .stay (s.raise s.me { code := .savefault, eng := .l, pc := s.ce.pc, addr := c.saveAt + 128 * n, info := 0,
                            clock := s.clock, save := true })

end Sys2Proof.Machine
end

