-- ==== Sys2Proof/Machine/LoadStore.lean ====
section
/-! DEFINITION. Loads and stores, gathers and scatters, prefetch and invalidation, the ordering instructions,
transfer tags, tokens and barriers (spec/13_memory_instructions.md R166-R177, R184-R189). -/

namespace Sys2Proof.Machine

/-- L executes it, and no other engine. -/
def onL : EngClass := .only false true false false
/-- S executes it, and no other engine. -/
def onS : EngClass := .only false false false true
/-- An access begins: where it reaches L, P or G space, no engine of the core begins it while `ctl.split` changes (R106);
it needs its places in the queues (R168), and its address is checked (R166). -/
def State.begin (s : State) (inL inS : Bool) (r : Reach) (go : List Part → Res) (held : Bool := true) : Res :=
  if held && (s.core s.cur.core).splitting then .stall .hold s
  else if !s.cc.roomFor inL inS then .stall .memq s
  else
    match r with
    | .fault c a => .trap c a 0 s
    | .miss va => s.missStall va
    | .ok ps => go ps

/-! ## Loads -/

/-- A load of L that has its parts. One from L space waits until S has issued its earlier L-space stores (R136). -/
def State.startLoad (s : State) (m : Mods) (sp : Space) (r : Reach) (kind : AccKind) (n : Nat) : Res :=
  if sp = .l ∧ !s.issuedBefore s.me s.cur.eng s.pos decLocalStore then .stall .order s
  else s.begin true false r fun ps => .later (s.enter (s.access m true false kind ps (List.replicate n 0)))

/-- The bytes that a load format reads (R169). -/
def ldBytes : LdFmt → Nat
  | .i8s | .i8n => 1
  | .i16s | .i16n => 2
  | .i32s | .i32n => 4
  | .i64s => 8

/-- The load format extends the sign (R169). -/
def ldSigned : LdFmt → Bool
  | .i8s | .i16s | .i32s | .i64s => true
  | .i8n | .i16n | .i32n => false

/-- A scalar load (R169, R170). -/
def scalarLoad (m : Mods) (sp : Space) (d a : Reg) (f : LdFmt) (o : BitVec 5) (s : State) : Host.Outcome State Fault Refusal :=
  issue { mods := m, cls := onL, regs := [d, a] } s fun t =>
    let n := ldBytes f
    let va := effAddr (t.rx a) 0 (immS 5 o.toNat m * n)
    t.startLoad m sp (t.checked sp false n va n) (.load n (ldSigned f) d) n

/-- `ldl` (R170). -/
def execLdl (m : Mods) (d a : Reg) (f : LdFmt) (o : BitVec 5) (s : State) : Host.Outcome State Fault Refusal :=
  scalarLoad m .l d a f o s

/-- `ldp` (R170). -/
def execLdp (m : Mods) (d a : Reg) (f : LdFmt) (o : BitVec 5) (s : State) : Host.Outcome State Fault Refusal :=
  scalarLoad m .p d a f o s

/-- `ldg` (R170). -/
def execLdg (m : Mods) (d a : Reg) (f : LdFmt) (o : BitVec 5) (s : State) : Host.Outcome State Fault Refusal :=
  scalarLoad m .g d a f o s

/-- The queue that the index field of a vector load pops, the register that it reads, and its value (R171, R266). -/
def indexQueue : XOrBk → List QEnd
  | .x _ => []
  | .bk n => [.bk n.toNat]

/-- The register that the index field of a vector load names. -/
def indexRegs : XOrBk → List Reg
  | .x n => [n]
  | .bk _ => []

/-- The value of the index field of a vector load. -/
def State.indexValue (s : State) : XOrBk → Quad
  | .x n => s.rx n
  | .bk n => s.cc.peekBk n.toNat

/-- A vector load: its entry of the `fd` queue is reserved at issue (R171, R172). -/
def vectorLoad (m : Mods) (sp : Space) (q : BitVec 2) (a : Reg) (b : XOrBk) (nb : BitVec 3) (k : BitVec 16) (s : State) :
    Host.Outcome State Fault Refusal :=
  issue { mods := m, cls := onL, srcs := indexQueue b, dsts := [.fd q.toNat], regs := a :: indexRegs b } s fun t =>
    let n := 16 * (nb.toNat + 1)
    let va := effAddr (t.rx a) (t.indexValue b) (immS 16 k.toNat m)
    match t.startLoad m sp (t.checked sp false 1 va n) (.vload q.toNat) n with
    | .later u => .later (u.modMe fun c => c.reserveFd q.toNat c.nextId)
    | r => r

/-- `vldl` (R172). -/
def execVldl (m : Mods) (q : BitVec 2) (a : Reg) (b : XOrBk) (nb : BitVec 3) (k : BitVec 16) (s : State) :
    Host.Outcome State Fault Refusal := vectorLoad m .l q a b nb k s

/-- `vldp` (R172). -/
def execVldp (m : Mods) (q : BitVec 2) (a : Reg) (b : XOrBk) (nb : BitVec 3) (k : BitVec 16) (s : State) :
    Host.Outcome State Fault Refusal := vectorLoad m .p q a b nb k s

/-- `vldg` (R172); in a restore sequence it reads the next vector slot (R348). -/
def execVldg (m : Mods) (q : BitVec 2) (a : Reg) (b : XOrBk) (nb : BitVec 3) (k : BitVec 16) (s : State) :
    Host.Outcome State Fault Refusal :=
  match s.cc.st with
  | .restoring lwait =>
    issue { mods := m, cls := onL, srcs := indexQueue b, dsts := [.fd q.toNat], regs := a :: indexRegs b } s fun t =>
      t.restoreSlot q.toNat lwait
  | _ => vectorLoad m .g q a b nb k s

/-! ## Stores -/

/-- L has passed the visit of a place (R136). -/
def Ctx.passedByL (c : Ctx) (p : Pos) : Bool :=
  let g := c.eng .l
  g.wait == .tend || (match g.visitPlace p with | some i => decide (i + 1 < g.visits.length) | none => false)

/-- The forwarding table holds an entry: its store has not performed, or L has not passed its visit (R136). -/
def Ctx.fwdLive (c : Ctx) (f : FwdEnt) : Bool := !(c.passedByL f.pos && c.fwd.all fun g => g.id != f.id || g.done)

/-- A load of L space that has not performed, and that an entry of the forwarding table precedes (R136). -/
def Ctx.fwdWanted (c : Ctx) (f : FwdEnt) : Bool :=
  c.mq.any fun a => a.eng == .l && (c.eng .l).precedes f.pos a.pos &&
    a.parts.any fun p => !p.done && (match p.place with | .spad _ => true | _ => false)

/-- The forwarding table without the entries that have performed, that L has passed, and of which no load that follows
has still to perform (R136). -/
def Ctx.pruneFwd (c : Ctx) : Ctx := { c with fwd := c.fwd.filter fun f => c.fwdLive f || c.fwdWanted f }

/-- The stores that the forwarding table holds (R136). -/
def Ctx.fwdHeld (c : Ctx) : Nat := ((c.fwd.filter c.fwdLive).map (·.id)).eraseDups.length

/-- An L-space store entered in the forwarding table. Unless it releases it is not held back: it writes the
scratchpad at once (R136, R170). -/
def State.forward (s : State) (a : Access) : State :=
  let new := a.parts.map fun p => { id := a.id, off := p.off, pos := a.pos, addr := p.addr,
                                    data := (a.data.drop p.off).take p.len, done := false : FwdEnt }
  let s1 := s.modMe fun c => { c with fwd := c.fwd ++ new }
  if a.releases then s1 else { s1 with cur := { s1.cur with hold := false } }

/-- A store of S that has its parts and its data. -/
def State.startStore (s : State) (m : Mods) (sp : Space) (r : Reach) (data : List Byte) : Res :=
  if sp = .l ∧ 16 ≤ s.cc.pruneFwd.fwdHeld then .stall .fwd s
  else s.begin false true r fun ps =>
    let a := s.access m false true .store ps data
    .later (if sp = .l then ((s.modMe Ctx.pruneFwd).forward a).enter a else s.enter a)

/-- A scalar store (R169, R170). -/
def scalarStore (m : Mods) (sp : Space) (d a : Reg) (w : Width) (o : BitVec 5) (s : State) : Host.Outcome State Fault Refusal :=
  issue { mods := m, cls := onS, regs := [d, a] } s fun t =>
    let n := widthBytes w
    let va := effAddr (t.rx a) 0 (immS 5 o.toNat m * n)
    t.startStore m sp (t.checked sp true n va n) (leBytes n (t.rx d).toNat)

/-- `stl` (R170). -/
def execStl (m : Mods) (d a : Reg) (w : Width) (o : BitVec 5) (s : State) : Host.Outcome State Fault Refusal :=
  scalarStore m .l d a w o s

/-- `stp` (R170). -/
def execStp (m : Mods) (d a : Reg) (w : Width) (o : BitVec 5) (s : State) : Host.Outcome State Fault Refusal :=
  scalarStore m .p d a w o s

/-- `stg` (R170). -/
def execStg (m : Mods) (d a : Reg) (w : Width) (o : BitVec 5) (s : State) : Host.Outcome State Fault Refusal :=
  scalarStore m .g d a w o s

/-- A vector store pops its entry of the `dn` queue at issue (R171, R172). -/
def vectorStore (m : Mods) (sp : Space) (q : BitVec 2) (a b : Reg) (nb : BitVec 3) (k : BitVec 16) (s : State) :
    Host.Outcome State Fault Refusal :=
  issue { mods := m, cls := onS, srcs := [.dn q.toNat], regs := [a, b] } s fun t =>
    let n := 16 * (nb.toNat + 1)
    let va := effAddr (t.rx a) (t.rx b) (immS 16 k.toNat m)
    t.startStore m sp (t.checked sp true 1 va n) ((vBytes (t.cc.peekDn q.toNat)).take n)

/-- `vstl` (R172). -/
def execVstl (m : Mods) (q : BitVec 2) (a b : Reg) (nb : BitVec 3) (k : BitVec 16) (s : State) :
    Host.Outcome State Fault Refusal := vectorStore m .l q a b nb k s

/-- `vstp` (R172). -/
def execVstp (m : Mods) (q : BitVec 2) (a b : Reg) (nb : BitVec 3) (k : BitVec 16) (s : State) :
    Host.Outcome State Fault Refusal := vectorStore m .p q a b nb k s

/-- `vstg` (R172); in a save sequence it writes the next vector slot (R348). -/
def execVstg (m : Mods) (q : BitVec 2) (a b : Reg) (nb : BitVec 3) (k : BitVec 16) (s : State) :
    Host.Outcome State Fault Refusal :=
  match s.cc.st with
  | .saving lwait =>
    issue { mods := m, cls := onS, srcs := [.dn q.toNat], regs := [a, b] } s fun t =>
      t.saveSlot (t.cc.peekDn q.toNat) lwait
  | _ => vectorStore m .g q a b nb k s

/-! ## Gathers and scatters -/

/-- The elements of an index list: number and index, the skipped ones left out (R174). -/
def listElements (bs : List Byte) (m : Nat) : List (Nat × Nat) :=
  ((List.range m).map fun i => (i, leNat ((bs.drop (4 * i)).take 4))).filter fun p => p.2 != 0xFFFFFFFF

/-- The parts of the elements of a gather or scatter, every one checked in turn (R174). -/
def State.reachList (s : State) (sp : Space) (write : Bool) (a : Quad) (e : Nat) : List (Nat × Nat) → Reach
  | [] => .ok []
  | (i, x) :: r =>
    match s.checked sp write e (effAddr a 0 (x * e : Nat)) e with
    | .ok l =>
      (match s.reachList sp write a e r with
       | .ok m => .ok (l.map (fun p => { p with off := p.off + i * e, elem := true }) ++ m)
       | f => f)
    | f => f

/-- The index list of a gather or scatter, read at issue (R173, R174). -/
def State.indexList (s : State) (b : Reg) (m : Nat) : Except Res (State × List (Nat × Nat)) :=
  let a := (s.rx b).toNat
  if a % 4 ≠ 0 then .error (.trap .align a 0 s)
  else
    match s.readLocal a (4 * m) with
    | .ok (t, bs) => .ok (t, listElements bs m)
    | .error r => .error r

/-- A gather (R173, R174). -/
def gather (m : Mods) (sp : Space) (q : BitVec 2) (a b : Reg) (e : Width) (n : BitVec 7) (s : State) :
    Host.Outcome State Fault Refusal :=
  issue { mods := m, cls := onL, dsts := [.fd q.toNat], regs := [a, b] } s fun t =>
    let w := widthBytes e
    if !t.cc.roomFor true false then .stall .memq t
    else
      match t.indexList b (n.toNat + 1) with
      | .error r => r
      | .ok (u, l) =>
        match u.startLoad m sp (u.reachList sp false (u.rx a) w l) (.vload q.toNat) ((n.toNat + 1) * w) with
        | .later v => .later (v.modMe fun c => c.reserveFd q.toNat c.nextId)
        | .stall c v => .stall c { t with miss := v.miss }
        | r => r

/-- `vgl` (R174). -/
def execVgl (m : Mods) (q : BitVec 2) (a b : Reg) (e : Width) (n : BitVec 7) (s : State) : Host.Outcome State Fault Refusal :=
  gather m .l q a b e n s

/-- `vgg` (R174). -/
def execVgg (m : Mods) (q : BitVec 2) (a b : Reg) (e : Width) (n : BitVec 7) (s : State) : Host.Outcome State Fault Refusal :=
  gather m .g q a b e n s

/-- A scatter (R173, R174). -/
def scatter (m : Mods) (sp : Space) (q : BitVec 2) (a b : Reg) (e : Width) (n : BitVec 7) (s : State) :
    Host.Outcome State Fault Refusal :=
  issue { mods := m, cls := onS, srcs := [.dn q.toNat], regs := [a, b] } s fun t =>
    let w := widthBytes e
    if !t.cc.roomFor false true then .stall .memq t
    else
      match t.indexList b (n.toNat + 1) with
      | .error r => r
      | .ok (u, l) =>
        match u.startStore m sp (u.reachList sp true (u.rx a) w l) ((vBytes (u.cc.peekDn q.toNat)).take ((n.toNat + 1) * w)) with
        | .stall c v => .stall c { t with miss := v.miss }
        | r => r

/-- `vsl` (R174). -/
def execVsl (m : Mods) (q : BitVec 2) (a b : Reg) (e : Width) (n : BitVec 7) (s : State) : Host.Outcome State Fault Refusal :=
  scatter m .l q a b e n s

/-- `vsg` (R174). -/
def execVsg (m : Mods) (q : BitVec 2) (a b : Reg) (e : Width) (n : BitVec 7) (s : State) : Host.Outcome State Fault Refusal :=
  scatter m .g q a b e n s

/-! ## Prefetch and invalidation -/

/-- A line brought into the home slice and, if it may be, into the core's L1 (R175). -/
def State.prefetch (s : State) (line : Nat) : State :=
  let t := (s.endHold s.me line).l2Fill line
  if (l1Find (t.core t.cur.core).l1 t.me line).isSome || t.linePoisoned line then t
  else t.l1Fill t.cur.core line (t.committed (128 * line) 128)

/-- A load of the context from device memory is still to perform on a line that `p` names: it would fill it again. -/
def State.fillPending (s : State) (p : Nat → Bool) : Bool :=
  s.cc.mq.any fun a => a.eng == .l && a.parts.any fun q => !q.done && q.place == .mem && p (q.addr / 128)

/-- An operation of major 29 on the line at an address: it raises no fault, and an address that would fault is dropped
(R175). -/
def lineOp (m : Mods) (a : Reg) (k : BitVec 10) (s : State) (f : State → Nat → Res) : Host.Outcome State Fault Refusal :=
  issue { mods := m, cls := onL, regs := [a] } s fun t =>
    if (t.core t.cur.core).splitting then .stall .hold t
    else if !t.cc.roomFor true false then .stall .memq t
    else
      let va := effAddr (t.rx a) 0 (immS 10 k.toNat m)
      match t.unitXlat t.me t.cc.part t.cc.asid va false with
      | .ok pa _ _ => f t (pa / 128)
      | .miss => .stall .tlb (t.enterUnitMiss t.me t.cc.part t.cc.asid va)
      | .fault _ => .ok t

/-- The copies of the lines that `p` names leave the core's L1, after the loads before that would fill them (R175). -/
def State.invalidate (s : State) (p : Nat → Bool) : Res :=
  if s.fillPending p then .stall .order s else .ok (s.l1Inv s.me p)

/-- `pfg` (R175); it waits while another context holds the line for a region (R182). -/
def execPfg (m : Mods) (a : Reg) (k : BitVec 10) (s : State) : Host.Outcome State Fault Refusal :=
  lineOp m a k s fun t line =>
    if t.held.any (fun h => h.line == line && h.ctx != t.me) then .stall .hold t else .ok (t.prefetch line)

/-- `l1inv` (R175). -/
def execL1inv (m : Mods) (a : Reg) (k : BitVec 10) (s : State) : Host.Outcome State Fault Refusal :=
  lineOp m a k s fun t line => t.invalidate (· == line)

/-- `l1inv.all` (R175). -/
def execL1invAll (m : Mods) (s : State) : Host.Outcome State Fault Refusal :=
  issue { mods := m, cls := onL } s fun t => t.invalidate fun _ => true

/-! ## Ordering -/

/-- `mark` (R135, R176). -/
def execMark (m : Mods) (s : State) : Host.Outcome State Fault Refusal :=
  issue { mods := m, cls := onXLS } s fun t =>
    if !t.cc.roomFor true true then .stall .memq t else .later (t.enter (t.access m true true .mark [] []))

/-- `fence` (R139, R176, R177). -/
def execFence (m : Mods) (s : State) : Host.Outcome State Fault Refusal :=
  issue { mods := m, cls := onXLS } s fun t =>
    if !t.cc.roomFor true true then .stall .memq t else .later (t.enter (t.access m true true .fence [] []))

/-- The mask of a `qfence` (R176). -/
def qfenceMask (a : Quad) (k : BitVec 6) : Nat := (a.toNat ||| k.toNat) % 64

/-- `qfence`: its engine waits until the condition of its mask holds (R141, R176). -/
def execQfence (m : Mods) (a : Reg) (k : BitVec 6) (s : State) : Host.Outcome State Fault Refusal :=
  issue { mods := m, cls := onXLS, regs := [a] } s fun t =>
    match t.deferred t.me (fenceUnits (qfenceMask (t.rx a) k)) with
    | some d => .stay (t.raiseDeferred t.me d)
    | none =>
      if !t.cc.roomFor true true then .stall .memq t
      else .wait (.access t.cc.nextId) (t.enter (t.access m true true (.qfence (qfenceMask (t.rx a) k)) [] []))

/-- The access that an engine waits for performs, if it is one that `p` names. -/
def State.returnOf (s : State) (k : Nat) (e : Eng) (p : AccKind → Bool) : State :=
  match ((s.ctx k).eng e).wait with
  | .access id =>
    (match (s.ctx k).access id with
     | some a => if p a.kind then s.performAll k id else s
     | none => s)
  | _ => s

/-- Event: the condition of a waiting `qfence` comes to hold (R141). -/
def execQfenceReturn (s : State) : Host.Outcome State Fault Refusal :=
  let v := s.cur.ev
  .next (s.returnOf (ctxKey v.core v.ctx) v.eng fun k => match k with | .qfence _ => true | _ => false)

/-! ## Transfer tags -/

/-- The condition of a wait on tags (R184). -/
def tagsMet (all : Bool) (tags mask : Quad) : Bool := if all then tags &&& mask == mask else tags &&& mask != 0

/-- A wait on tags that returns a value: one that shows a set tag acquires (R143, R184). -/
def State.tagAcquire (s : State) (k : Nat) (v : Quad) : State := if v = 0 then s else s.acquireAt k .device

/-- `twany` and `twall` (R184): a mask of 0 returns 0 at once. -/
def tagWait (m : Mods) (all : Bool) (d a b : Reg) (s : State) : Host.Outcome State Fault Refusal :=
  issue { mods := m, cls := onX, regs := [d, a, b] } s fun t =>
    let tags := (t.core t.cur.core).tagmap
    let mask := t.rx a
    if mask = 0 || tagsMet all tags mask then
      (match t.tagDeferred t.me (tags &&& mask) with
       | some e => .stay (t.raiseDeferred t.me e)
       | none => .ok ((t.tagAcquire t.me (tags &&& mask)).wx d (tags &&& mask)))
    else .wait (.tags all d mask (t.rx b) t.clock) t

/-- `twany` (R184). -/
def execTwany (m : Mods) (d a b : Reg) (s : State) : Host.Outcome State Fault Refusal := tagWait m false d a b s

/-- `twall` (R184). -/
def execTwall (m : Mods) (d a b : Reg) (s : State) : Host.Outcome State Fault Refusal := tagWait m true d a b s

/-- The wait of X on tags ends with the tags of its mask that are set. -/
def State.endTags (s : State) (k : Nat) (d : Reg) (mask : Quad) : State :=
  let v := (s.core (k / 4)).tagmap &&& mask
  match s.tagDeferred k v with
  | some e => s.raiseDeferred k e
  | none => (((s.tagAcquire k v).writeReg k .x d v)).modCtx k fun c => c.endWait .x

/-- Event: a waiting `twany` or `twall` finds its condition met (R184). -/
def execTagWaitReturn (s : State) : Host.Outcome State Fault Refusal :=
  let k := ctxKey s.cur.ev.core s.cur.ev.ctx
  .next (match ((s.ctx k).eng .x).wait with
    | .tags all d mask _ _ => if tagsMet all (s.core (k / 4)).tagmap mask then s.endTags k d mask else s
    | _ => s)

/-- Event: the timeout of a `twany` or `twall` expires (R184). -/
def execTagWaitTimeout (s : State) : Host.Outcome State Fault Refusal :=
  let k := ctxKey s.cur.ev.core s.cur.ev.ctx
  .next (match ((s.ctx k).eng .x).wait with
    | .tags _ d mask limit since =>
      if limit = 0 ∨ s.clock < since + limit.toNat then s else s.endTags k d mask
    | _ => s)

/-- The lowest set bit of a pattern; 64 where none is set (R184). -/
def lowestBit (v : Quad) : Nat := ((List.range 64).find? fun i => v.getLsbD i).getD 64

/-- `tffr` (R184). -/
def execTffr (m : Mods) (d a : Reg) (s : State) : Host.Outcome State Fault Refusal :=
  issue { mods := m, cls := onX, regs := [d, a] } s fun t =>
    let v := (t.core t.cur.core).tagmap &&& t.rx a
    let i := lowestBit v
    if v = 0 then .ok (t.wx d 64)
    else
      match t.tagDeferred t.me (1#64 <<< i) with
      | some e => .stay (t.raiseDeferred t.me e)
      | none => .ok (((t.tagAcquire t.me v).clearTags t.cur.core (1#64 <<< i)).wx d (quadN i))

/-- `tclr` (R184). -/
def execTclr (m : Mods) (a : Reg) (s : State) : Host.Outcome State Fault Refusal :=
  issue { mods := m, cls := onX, regs := [a] } s fun t =>
    .ok (t.clearTags t.cur.core (t.rx a))

/-! ## Tokens -/

/-- The neighbour that a token instruction names is one that its engine has (R186). -/
def neighbourOk (e : Eng) (upper : Bool) : Bool :=
  match e with
  | .l => upper
  | .s => !upper
  | .c => true
  | .x => false

/-- Every earlier access of the engine has performed; a command has when it has entered its queue (R31, R186). -/
def State.ownPerformed (s : State) : Bool :=
  s.cc.mq.all (fun a => a.eng != s.cur.eng || a.isXfer) &&
  (s.cur.eng != .c || s.lanes.all fun l => l.2.flight.all fun e => e.ctx != s.me)

/-- `tkpush` (R186). -/
def execTkpush (n : BitVec 1) (s : State) : Host.Outcome State Fault Refusal :=
  issue { cls := .only false true true true } s fun t =>
    let up := n == 1#1
    let e := t.cur.eng
    if !neighbourOk e up then .trap .illop 0 0 t
    else if !t.ownPerformed then .stall .memq t
    else if !t.cc.tokRoom e up then .stall .token t
    else .ok (t.modMe fun c => c.tokReserve e up c.nextId)

/-- `tkpop` (R186). -/
def execTkpop (n : BitVec 1) (s : State) : Host.Outcome State Fault Refusal :=
  issue { cls := .only false true true true } s fun t =>
    let up := n == 1#1
    let e := t.cur.eng
    if !neighbourOk e up then .trap .illop 0 0 t
    else if !t.cc.tokThere e up then .stall .token t
    else .ok (t.modMe fun c => c.tokTake e up)

/-! ## Operations of X at a home slice -/

/-- An operation at a home slice begins: its marker enters both queues (R137, R166, R168). -/
def State.startOp (s : State) (m : Mods) (o : SliceOp) (r : Reach) (go : State → Res) : Res :=
  s.begin true true r (fun ps => go (s.enter (s.access m true true (.op o) ps []))) !o.isSeq

/-! ## Barriers -/

/-- The check of a barrier record's address (R188). -/
def State.barReach (s : State) (write : Bool) (a : Reg) : Reach := s.checked .g write 16 (s.rx a).toNat 16

/-- `barinit` (R188). -/
def execBarinit (m : Mods) (a b : Reg) (s : State) : Host.Outcome State Fault Refusal :=
  issue { mods := m, cls := onX, regs := [a, b] } s fun t =>
    t.startOp m (.barinit (t.rx b)) (t.barReach true a) .later

/-- `bararr` (R188, R189). -/
def execBararr (m : Mods) (d a b : Reg) (s : State) : Host.Outcome State Fault Refusal :=
  issue { mods := m, cls := onX, regs := [d, a, b] } s fun t =>
    t.startOp m (.bararr d ((t.rx b).getLsbD 0)) (t.barReach true a) .later

/-- `barwait` (R188, R189). -/
def execBarwait (m : Mods) (d a b : Reg) (s : State) : Host.Outcome State Fault Refusal :=
  issue { mods := m, cls := onX, regs := [d, a, b] } s fun t =>
    t.startOp m (.barwait d ((t.rx b).toNat % 2 ^ 32)) (t.barReach false a) fun u => .wait (.access t.cc.nextId) u

/-- Event: a waiting `barwait` sees that the phase has advanced (R188). -/
def execBarwaitReturn (s : State) : Host.Outcome State Fault Refusal :=
  let v := s.cur.ev
  .next (s.returnOf (ctxKey v.core v.ctx) .x fun k => match k with | .op (.barwait ..) => true | _ => false)

end Sys2Proof.Machine
end

