-- ==== Sys2Proof/Machine/Atomic.lean ====
section
/-! DEFINITION. Atomics and single-line regions (spec/13_memory_instructions.md R178-R183). -/

namespace Sys2Proof.Machine

/-- The bytes of an atomic (R178). -/
def aBytes : ASize → Nat
  | .word => 4
  | .quad => 8

/-- An atomic (R178, R180): `c` is the compare register, `x0` for the operations that have none. -/
def atomic (m : Mods) (op : AOp) (d a b c : Reg) (w : ASize) (k : BitVec 16) (s : State) : Host.Outcome State Fault Refusal :=
  issue { mods := m, cls := onX, regs := [d, a, b, c] } s fun t =>
    let n := aBytes w
    let va := effAddr (t.rx a) 0 (immS 16 k.toNat m)
    t.startOp m (.atomic op n d (t.rx b) (t.rx c)) (t.checked .g true n va n) .later

/-- `aadd` (R179). -/
def execAadd (m : Mods) (d a b : Reg) (w : ASize) (k : BitVec 16) (s : State) : Host.Outcome State Fault Refusal :=
  atomic m .add d a b 0 w k s

/-- `aand` (R179). -/
def execAand (m : Mods) (d a b : Reg) (w : ASize) (k : BitVec 16) (s : State) : Host.Outcome State Fault Refusal :=
  atomic m .and d a b 0 w k s

/-- `aor` (R179). -/
def execAor (m : Mods) (d a b : Reg) (w : ASize) (k : BitVec 16) (s : State) : Host.Outcome State Fault Refusal :=
  atomic m .or d a b 0 w k s

/-- `axor` (R179). -/
def execAxor (m : Mods) (d a b : Reg) (w : ASize) (k : BitVec 16) (s : State) : Host.Outcome State Fault Refusal :=
  atomic m .xor d a b 0 w k s

/-- `amin`: U = 1 compares unsigned (R178, R179). -/
def execAmin (m : Mods) (d a b : Reg) (u : BitVec 1) (w : ASize) (k : BitVec 16) (s : State) :
    Host.Outcome State Fault Refusal := atomic m (if u = 1 then .minU else .min) d a b 0 w k s

/-- `amax`: U = 1 compares unsigned (R178, R179). -/
def execAmax (m : Mods) (d a b : Reg) (u : BitVec 1) (w : ASize) (k : BitVec 16) (s : State) :
    Host.Outcome State Fault Refusal := atomic m (if u = 1 then .maxU else .max) d a b 0 w k s

/-- `aswp` (R179). -/
def execAswp (m : Mods) (d a b : Reg) (w : ASize) (k : BitVec 16) (s : State) : Host.Outcome State Fault Refusal :=
  atomic m .swp d a b 0 w k s

/-- `acas` (R179). -/
def execAcas (m : Mods) (d a b c : Reg) (w : ASize) (k : BitVec 16) (s : State) : Host.Outcome State Fault Refusal :=
  atomic m .cas d a b c w k s

/-- `afadd`: FP32 in a word, A56 in a quad (R178, R179). -/
def execAfadd (m : Mods) (d a b : Reg) (w : ASize) (k : BitVec 16) (s : State) : Host.Outcome State Fault Refusal :=
  atomic m (match w with | .word => .faddF | .quad => .faddA) d a b 0 w k s

/-- `abinc` (R179). -/
def execAbinc (m : Mods) (d a b : Reg) (w : ASize) (k : BitVec 16) (s : State) : Host.Outcome State Fault Refusal :=
  atomic m .binc d a b 0 w k s

/-! ## Single-line regions -/

/-- The snapshot of an `alrb` is on its way to X. -/
def Ctx.alrPending (c : Ctx) : Bool :=
  c.mq.any fun a => match a.kind with | .op (.alrb ..) => true | _ => false

/-- `alrb`: an open region is abandoned (R182, R183). -/
def execAlrb (m : Mods) (a : Reg) (k : BitVec 16) (s : State) : Host.Outcome State Fault Refusal :=
  issue { mods := m, cls := onX, regs := [a] } s fun t =>
    if t.cc.alrPending then .stall .result t
    else
      let va := effAddr (t.rx a) 0 (immS 16 k.toNat m)
      match t.startOp m (.alrb va false) (t.checked .g true 1 va 1) .later with
      | .later u => .later (u.releaseLine u.me)
      | r => r

/-- Event: the slice grants the line of an `alrb` and its snapshot reaches the region buffer (R182). -/
def execAlrGrant (s : State) : Host.Outcome State Fault Refusal :=
  let k := ctxKey s.cur.ev.core s.cur.ev.ctx
  .next (match (s.ctx k).mq.find? fun a => match a.kind with | .op (.alrb ..) => true | _ => false with
    | some a => s.performAll k a.id
    | none => s)

/-- An offset into the open line (R181). -/
def alrOffset (a : Quad) (o : BitVec 7) : Nat := effAddr a 0 (o.toNat : Int)

/-- An instruction on the region buffer: it waits for the snapshot, and its offset is checked (R181). -/
def State.inRegion (s : State) (a : Reg) (o : BitVec 7) (n : Nat) (go : Nat → Res) : Res :=
  let x := alrOffset (s.rx a) o
  if s.cc.alrPending then .stall .result s
  else if 128 ≤ x ∨ x % n ≠ 0 then .trap .align x 0 s
  else go x

/-- The bytes of the region buffer: the snapshot with the marked bytes over it (R182). -/
def Alr.bytes (r : Alr) (o n : Nat) : List Byte := overlaid r.marks o ((r.snap.drop o).take n)

/-- `alrl` (R182, R183). -/
def execAlrl (m : Mods) (d a : Reg) (z : BitVec 1) (w : Width) (o : BitVec 7) (s : State) : Host.Outcome State Fault Refusal :=
  issue { mods := m, cls := onX, regs := [d, a] } s fun t =>
    t.inRegion a o (widthBytes w) fun x =>
      match t.cc.alr with
      | some r => .ok (t.wx d (extend (z == 0#1) (widthBytes w) (leNat (r.bytes x (widthBytes w)))))
      | none => .ok (t.wx d 0)

/-- `alrs` (R182, R183). -/
def execAlrs (m : Mods) (a b : Reg) (w : Width) (o : BitVec 7) (s : State) : Host.Outcome State Fault Refusal :=
  issue { mods := m, cls := onX, regs := [a, b] } s fun t =>
    t.inRegion a o (widthBytes w) fun x =>
      .ok (t.modMe fun c =>
        { c with alr := c.alr.map fun r =>
            { r with marks := overlay r.marks x (leBytes (widthBytes w) (t.rx b).toNat) } })

/-- The hold of a region is in force on X (R182). -/
def Alr.inForce (r : Alr) (clock : Nat) : Bool := r.hold && decide (clock < r.since + 64)

/-- `alrc`: the closing message goes to the slice; where the hold has ended on X the line is released first (R182,
R183). -/
def execAlrc (m : Mods) (d : Reg) (s : State) : Host.Outcome State Fault Refusal :=
  issue { mods := m, cls := onX, regs := [d] } s fun t =>
    if t.cc.alrPending then .stall .result t
    else
      match t.cc.alr with
      | none => .ok (t.wx d 0)
      | some r =>
        let part : Part := { place := .mem, addr := 128 * r.line, len := 128, off := 0, va := r.va }
        match t.startOp m (.alrc d r.marks) (.ok [part]) .later with
        | .later u =>
          let v := u.modMe fun c => { c with alr := none }
          .later (if r.inForce t.clock then v else v.dropHeld v.me r.line)
        | x => x

/-- Event: the hold of a region lapses after 64 clocks, and X sends a release (R182). -/
def execAlrHoldExpiry (s : State) : Host.Outcome State Fault Refusal :=
  let k := ctxKey s.cur.ev.core s.cur.ev.ctx
  .next (match (s.ctx k).alr with
    | some r =>
      if r.hold && decide (r.since + 64 ≤ s.clock) then
        (s.dropHeld k r.line).modCtx k fun c => { c with alr := some { r with hold := false } }
      else s
    | none => s)

end Sys2Proof.Machine
end

