-- ==== Sys2Proof/Machine/Units.lean ====
section
/-! DEFINITION. Reads and writes of the engines outside a context: matrix engines, transfer engines, column
controllers and sequence units (spec/07_memory.md R106, R119, R125, spec/17_lanes_matrix.md R224, R244, R246,
spec/19_transfer.md R256, R261). -/

namespace Sys2Proof.Machine

/-- A unit has stopped for a pre-emption of a partition (R345). -/
def State.unitStopped (s : State) (part : Nat) (u : StopUnit) : Bool :=
  match (s.partn part).preempt with
  | some p => p.acks.contains u
  | none => false

/-- A deferred fault recorded: a wait of C on the unit ends in the trap (R224). -/
def State.addDefer (s : State) (d : Deferred) : State :=
  let s1 : State := { s with defers := s.defers ++ [d] }
  let waits := match ((s.ctx d.ctx).eng .c).wait, d.unit with
    | .lfence ls _, .lane n => ls.contains n
    | .msem .., .mat _ => true
    | _, _ => false
  if waits && (s.ctx d.ctx).taskid == d.taskid then s1.raiseDeferred d.ctx d else s1

/-- What a read of a unit gives: the machine after it, its bytes and the addresses of the poisoned lines among them; a
fault; or a wait for a line that another context holds or for a page walk (R122, R182). -/
inductive UnitRead where
  | ok (s : State) (bs : List Byte) (bad : List Nat)
  | fault (c : Code) (va : Nat)
  | wait (s : State)

/-- The commands of a matrix engine that has begun one for a partition are at a boundary at which it may stop: one that is
long stops at a row, 4 µs after the request (R345, R385). -/
def MCmd.rowStops : MCmd → Bool
  | .ld .. => true
  | .drn _ g .. => g
  | _ => false

/-- A line is held for a single-line region of another context (R182). -/
def State.lineHeld (s : State) (k pa : Nat) : Bool := s.held.any fun h => h.line == pa / 128 && h.ctx != k

/-- Bytes of G space as a command of a context reads them: its version over the committed lines, poisoned lines as
zeros (R125, R128, R244, R256). It ends a hold of its own context on a line that it reads (R183). -/
def State.unitRead (s : State) (k part asid : Nat) : List (Nat × Nat × Nat) → UnitRead
  | [] => .ok s [] []
  | (a, _, n) :: r =>
    let va := a % 2 ^ 64
    match s.unitXlat k part asid va false with
    | .fault c => .fault c va
    | .miss => .wait (s.enterUnitMiss k part asid va)
    | .ok pa _ _ =>
      if s.lineHeld k pa then .wait s
      else
        match ((s.endHold k (pa / 128)).l2Fill (pa / 128)).unitRead k part asid r with
        | .ok t bs bad => .ok t (s.gRead k pa n false ++ bs) (if s.linePoisoned (pa / 128) && !(s.ctx k).ver.full.contains (pa / 128) then pa :: bad else bad)
        | e => e

/-- What a write of a unit gives: the machine with it, a fault that stops it, or a wait for a held line, for headroom or
for a page walk. -/
inductive UnitWrite where
  | ok (s : State)
  | fault (c : Code) (va : Nat)
  | wait (s : State)

/-- Bytes of G space written into the version of a context by one of its commands, line part after line part (R22,
R246, R256). `id` names the wait for headroom (R303). -/
def State.unitWrite (s : State) (k part asid : Nat) (e : Eng) (id : Nat) (bs : List Byte) :
    List (Nat × Nat × Nat) → UnitWrite
  | [] => .ok s
  | (a, o, n) :: r =>
    let va := a % 2 ^ 64
    match s.unitXlat k part asid va true with
    | .fault c => .fault c va
    | .miss => .wait (s.enterUnitMiss k part asid va)
    | .ok pa _ _ =>
      if s.hitsScb pa n then .fault .prot va
      else if s.lineHeld k pa then .wait s
      else if !s.lineAllowed k pa then .fault .vcap va
      else
        match s.reserveLine part pa with
        | none => .wait (s.waitSpace part pa (some (k, e)) id va)
        | some s1 =>
          (((s1.dropWait part pa (some (k, e)) id).endHold k (pa / 128)).verWrite k pa ((bs.drop o).take n)).unitWrite
            k part asid e id bs r

/-- The record of each poisoned line that a unit delivered (R125). -/
def State.poisonEvents (s : State) (part : Nat) (trapped : Bool) (bad : List Nat) : State :=
  bad.foldl (fun t pa => t.poisonEvent part pa trapped) s

end Sys2Proof.Machine
end

