-- ==== Sys2Proof/Machine/Lanes.lean ====
section
/-! DEFINITION. The lane macro-instructions of C and the events in which lanes execute them
(spec/17_lanes_matrix.md R220-R233, spec/29_rings_host.md R353-R356). -/

namespace Sys2Proof.Machine

/-- A lane of the device: each physical column carries its own, and shares its number (R3). -/
def State.lane (s : State) (n : Nat) : Lane := tget {} s.lanes n
/-- The machine with a lane replaced. -/
def State.setLane (s : State) (n : Nat) (l : Lane) : State := { s with lanes := tput s.lanes n l }

/-- The group and the target lanes, each as role and lane, that a target word names; none for a word that breaks a
rule of R220. -/
def State.targets (s : State) (w : Quad) : Option (Nat × List (Nat × Nat)) :=
  let g := bits w.toNat 29 26
  let n := bits w.toNat 25 16
  let first := bits w.toNat 9 0
  let b := s.cr.trellis.getD g {}
  if !b.core.contains s.cur.core || n == 0 || decide (b.lane.length < first + n) then none
  else some (g, ((List.range n).map fun i => (first + i, b.lane.getD (first + i) 0)))

/-- Leading `lfence` entries of a queue are reached, and leave it (R232). -/
def Lane.settle (l : Lane) : Lane :=
  let n := (takeUntil (fun (e : LaneEnt) => match e.cmd with | .fence _ => false | _ => true) l.q).length
  { l with q := l.q.drop n, done := (l.done + n) % 2 ^ 25 }

/-- An entry at the end of a lane's queue. -/
def Lane.enter (l : Lane) (e : LaneEnt) : Lane := ({ l with q := l.q ++ [e] } : Lane).settle

/-- A macro on its way to the queues of its targets (R221): it enters a queue at once where the schedule does not hold it
and no macro of its context is on its way there before it. -/
def State.pushMacro (s : State) (ls : List (Nat × Nat)) (mk : Nat → Macro) : State :=
  ls.foldl (fun t p =>
    let l := t.lane p.2
    let e : LaneEnt := { ctx := s.me, taskid := s.cc.taskid, pos := s.pos, cmd := mk p.1, id := s.cc.nextId }
    t.setLane p.2 (if s.cur.hold || l.flight.any (·.ctx == s.me) then { l with flight := l.flight ++ [e] } else l.enter e)) s

/-- The oldest macro of a context on its way to a lane enters the lane's queue; once it has entered the queues of all its
lanes it has performed (R31, R221, R223). -/
def State.laneEnter (s : State) (n k : Nat) : State :=
  let l := s.lane n
  match l.flight.find? fun e => e.ctx == k with
  | none => s
  | some e =>
    let t := s.setLane n (({ l with flight := eraseFirst (fun f => f.ctx == k) l.flight } : Lane).enter e)
    if t.macroFlying k e.id then t else t.modCtx k fun c => (c.tokFill e.id).wake

/-- A macro has performed where it has entered every queue, and performs later where it is on its way (R223). -/
def State.pushed (s : State) : Res := if s.macroFlying s.me s.cc.nextId then .later s else .ok s

/-- A lane macro at issue (R220, R221, R223, R224): what `f` gives is entered, and `fin` goes on from there. -/
def laneMacro (m : Mods) (a : Reg) (regs : List Reg) (s : State)
    (f : State → Nat → List (Nat × Nat) → Except Res (State × (Nat → Macro)))
    (fin : State → List Nat → Res := fun t _ => t.pushed) : Host.Outcome State Fault Refusal :=
  issue { mods := m, cls := onC, regs := a :: regs } s fun t =>
    match t.targets (t.rx a) with
    | none => .trap .prot 0 0 t
    | some (g, ls) =>
      match t.deferred t.me (fun u => match u with | .lane n => ls.any (·.2 == n) | _ => false) with
      | some d => .stay (t.raiseDeferred t.me d)
      | none =>
        match f t g ls with
        | .error r => r
        | .ok (u, mk) =>
          if ls.all fun p => decide ((t.lane p.2).q.length + (t.lane p.2).flight.length < 64) then fin (u.pushMacro ls mk) (ls.map (·.2))
          else .stall .unit t

/-! ## Configuration and status -/

/-- `lcfg` (R226). -/
def execLcfg (m : Mods) (a b : Reg) (s : State) : Host.Outcome State Fault Refusal :=
  laneMacro m a [b] s fun t _ _ => .ok (t, fun _ => .cfg ((t.rx b).getLsbD 1) ((t.rx b).getLsbD 0))

/-- The lane slots per frame of a plan under a cap (R238). -/
def laneSlots (c : Column) : Nat := if c.capk = 30 then c.lslots else (c.lslots * c.capk + 29) / 30
/-- The general slots per frame of a plan under a cap (R238). -/
def generalSlots (c : Column) : Nat := c.capk - laneSlots c

/-- A lane defers the retraining of its column (R236). -/
def Lane.defers (l : Lane) : Bool := l.rsync && l.bind.isSome

/-- The status word of a lane (R227). -/
def State.laneWord (s : State) (n : Nat) : Quad :=
  let l := s.lane n
  let c := s.col n
  let syncw := match l.q with | { cmd := .sync .., .. } :: _ => true | _ => false
  let pend := c.owed.isSome && l.defers && !c.force
  quadN (c.retr.toNat * 2 ^ 63 + pend.toNat * 2 ^ 62 + syncw.toNat * 2 ^ 61 + c.capk % 32 * 2 ^ 56 +
    l.rsync.toNat * 2 ^ 55 + l.pol.toNat * 2 ^ 54 + laneSlots c % 256 * 2 ^ 40 + min 255 l.poisc * 2 ^ 32 +
    l.q.length % 128 * 2 ^ 25 + l.done % 2 ^ 25)

/-- `lstat` (R227). -/
def execLstat (m : Mods) (d a : Reg) (s : State) : Host.Outcome State Fault Refusal :=
  issue { mods := m, cls := onC, regs := [d, a] } s fun t =>
    match t.targets (t.rx a) with
    | some (_, [p]) =>
      (match t.deferred t.me (fun u => u == .lane p.2) with
       | some e => .stay (t.raiseDeferred t.me e)
       | none => .ok (t.wx d (t.laneWord p.2)))
    | _ => .trap .prot 0 0 t

/-! ## Fences and barriers -/

/-- `lfence` (R232). -/
def execLfence (m : Mods) (a : Reg) (s : State) : Host.Outcome State Fault Refusal :=
  laneMacro m a [] s (fun t _ _ => .ok (t, fun _ => .fence t.cc.nextId)) fun t ls => .wait (.lfence ls t.cc.nextId) t

/-- `lsync` (R232). -/
def execLsync (m : Mods) (a : Reg) (s : State) : Host.Outcome State Fault Refusal :=
  laneMacro m a [] s fun t _ ls => .ok (t, fun _ => .sync t.cc.nextId (ls.map (·.2)))

/-! ## Streams, tiles and multiplies -/

/-- `lwst` (R228). -/
def execLwst (m : Mods) (a b c : Reg) (f : BitVec 6) (s : State) : Host.Outcome State Fault Refusal :=
  laneMacro m a [b, c] s fun t g _ =>
    let w := (t.rx c).toNat
    let off := (t.rx b).toNat
    let fmt := (fmtOfCode f).getD .i8s
    let nrow := bits w 63 48
    let rstr := bits w 47 16
    let nrec := bits w 11 0
    let size := recordSize fmt
    if nrec = 0 ∨ nrow = 0 ∨ rstr < nrec * size then .error (.trap .qfault 0 0 t)
    else if 2 ^ 30 < off + (nrow - 1) * rstr + nrec * size then .error (.trap .prot off 0 t)
    else
      let base := (t.cr.groups.getD g {}).wbase
      let cols := (t.cr.trellis.getD g {}).column
      .ok (t, fun role => .wst { col := cols.getD role 0, va := base + role * 2 ^ 30, part := t.cc.part, asid := t.cc.asid,
                                 off := off, fmt := fmt, nrow := nrow, rstr := rstr, nrec := nrec } role)

/-- The tokens of a tile read from the scratchpad one after another (R229). -/
def State.readTile (s : State) (a stride n : Nat) : Nat → Except Res (State × List Byte)
  | 0 => .ok (s, [])
  | t + 1 =>
    match s.readLocal a n with
    | .error r => .error r
    | .ok (s1, b) =>
      match s1.readTile (a + stride) stride n t with
      | .error r => .error r
      | .ok (s2, bs) => .ok (s2, b ++ bs)

/-- `lact` (R229). -/
def execLact (m : Mods) (a b c : Reg) (f : BitVec 6) (s : State) : Host.Outcome State Fault Refusal :=
  laneMacro m a [b, c] s fun t _ _ =>
    let w := (t.rx c).toNat
    let at_ := (t.rx b).toNat
    let fmt := (fmtOfCode f).getD .i8s
    let tstr := bits w 63 32
    let krec := bits w 27 16
    let n := bits w 4 0
    let size := recordSize fmt
    if n = 0 ∨ 16 < n ∨ krec = 0 ∨ 65536 < n * krec * size then .error (.trap .qfault 0 0 t)
    else if !(List.range n).all fun i => t.spadHas t.cur.core (at_ + i * tstr) (krec * size) then .error (.trap .prot at_ 0 t)
    else
      match t.readTile at_ tstr (krec * size) n with
      | .error (.stall x _) => .error (.stall x t)
      | .error r => .error r
      | .ok (u, bs) => .ok (u, fun _ => .act { t := n, krec := krec, fmt := fmt, data := bs })

/-- `lmac` (R230). -/
def execLmac (m : Mods) (a b : Reg) (z : BitVec 1) (s : State) : Host.Outcome State Fault Refusal :=
  laneMacro m a [b] s fun t _ _ =>
    let w := (t.rx b).toNat
    let c0 := bits w 39 32
    let n := bits w 31 16
    if n = 0 ∨ 256 < n ∨ 256 < c0 + n then .error (.trap .qfault 0 0 t)
    else .ok (t, fun _ => .mac c0 n (bits w 15 0) (z == 1#1))

/-- `laccz` (R231). -/
def execLaccz (m : Mods) (a : Reg) (s : State) : Host.Outcome State Fault Refusal :=
  laneMacro m a [] s fun t _ _ => .ok (t, fun _ => .accz)

/-! ## Readout -/

/-- The read word (R353). -/
def readWordOf (w : Nat) : ReadWord :=
  { rdst := bits w 63 32, c0 := bits w 23 16, nc := bits w 15 8 + 1, nt := bits w 4 0 }

/-- The bytes of a value of a destination format: A56 takes 8 (R85). -/
def outBytes (f : Fmt) : Nat := fmtWidth f / 8

/-- A read word within its limits (R231). -/
def ReadWord.ok (w : ReadWord) : Bool := decide (w.c0 + w.nc ≤ 256 ∧ 1 ≤ w.nt ∧ w.nt ≤ 16)

/-- `laccr` (R231). -/
def execLaccr (m : Mods) (a b c : Reg) (f : FltEt) (s : State) : Host.Outcome State Fault Refusal :=
  laneMacro m a [b, c] s fun t _ ls =>
    let w := readWordOf (t.rx c).toNat
    let dest := (t.rx b).toNat
    let fmt := fltEtFmt f
    if ls.length ≠ 1 then .error (.trap .prot 0 0 t)
    else if !w.ok then .error (.trap .qfault 0 0 t)
    else if !t.spadHas t.cur.core dest (w.nt * w.nc * outBytes fmt) then .error (.trap .prot dest 0 t)
    else .ok (t, fun _ => .accr w fmt dest)

/-- The beds of target lanes with their roles in a group, each as 8 × role + bed, in role order; none where a lane's
bed has no role (R354). -/
def bedRoles (g : GroupBind) (ls : List Nat) : Option (List Nat) :=
  if ls.all fun n => g.bed.contains (n / 68) then
    some (((List.range g.bed.length).filter fun r => ls.any fun n => n / 68 == g.bed.getD r 8).map fun r =>
      8 * r + g.bed.getD r 8)
  else none

/-- `lred` (R231, R354). -/
def execLred (m : Mods) (a b c : Reg) (clr ring : BitVec 1) (f : FltEt) (s : State) : Host.Outcome State Fault Refusal :=
  laneMacro m a [b, c] s fun t g ls =>
    let w := readWordOf (t.rx c).toNat
    let fmt := fltEtFmt f
    let lanes := ls.map (·.2)
    let id := t.cc.nextId
    if !w.ok then .error (.trap .qfault 0 0 t)
    else if ring = 1 then
      if f ≠ .a56 then .error (.trap .qfault 0 0 t)
      else
        match bedRoles (t.cr.trellis.getD g {}) lanes with
        | none => .error (.trap .prot 0 0 t)
        | some beds =>
          if w.rdst % 16 ≠ 0 then .error (.trap .qfault w.rdst 0 t)
          else if !t.spadHas t.cur.core w.rdst (8 * w.nt * w.nc + 16) then .error (.trap .prot w.rdst 0 t)
          else .ok (t.modMe (fun x => { x with rings := x.rings + 1 }),
                    fun _ => .red id lanes w .a56 w.rdst true (clr == 1#1) t.cc.rings beds)
    else
      let dest := (t.rx b).toNat
      if 64 ≤ t.cur.core ∨ lanes.any (fun n => n / 68 != t.cur.core / 8) then .error (.trap .prot 0 0 t)
      else if !t.spadHas t.cur.core dest (w.nt * w.nc * outBytes fmt) then .error (.trap .prot dest 0 t)
      else .ok (t, fun _ => .red id lanes w fmt dest false (clr == 1#1) 0 [])

/-! ## Lanes at work -/

/-- The entry that a lane may execute now: its head, of a task that is there and behind no `qfence`, while the lane has
not stopped for a pre-emption (R141, R221, R345). -/
def State.laneHead (s : State) (n : Nat) : Option LaneEnt :=
  match (s.lane n).q with
  | [] => none
  | e :: _ =>
    let c := s.ctx e.ctx
    if c.st = .idle ∨ c.taskid ≠ e.taskid ∨ s.unitStopped c.part (.lane n) ∨ s.fencedOff e.ctx e.pos then none else some e

/-- A lane past the head of its queue, one macro completed (R227). -/
def Lane.pop (l : Lane) : Lane :=
  ({ l with q := l.q.tail, done := (l.done + 1) % 2 ^ 25, row := 0 } : Lane).settle

/-- The place of the next delivery that a lane hands over, among those that are still to be made (R140). -/
def State.nextOrd (s : State) (n : Nat) : Nat :=
  s.reds.foldl (fun a r => r.ords.foldl (fun b p => if p.1 = n then max b (p.2 + 1) else b) a) 0

/-- What a lane hands to a reduction (R231); a discarded entry hands nothing. -/
def State.handRed (s : State) (n : Nat) (e : LaneEnt) (cells : List (BitVec 56 × Bool)) (gone : Bool) : State :=
  match e.cmd with
  | .red id lanes w fmt dest ring _ seq beds =>
    let same (r : Reduce) : Bool := r.ctx == e.ctx && r.taskid == e.taskid && r.id == id
    if s.reds.any same then
      { s with reds := s.reds.map fun r => if same r then { r with got := r.got ++ [(n, cells, gone)], ords := r.ords ++ [(n, s.nextOrd n)] } else r }
    else
      { s with reds := s.reds ++ [{ ctx := e.ctx, taskid := e.taskid, pos := e.pos, id := id, lanes := lanes,
                                    got := [(n, cells, gone)], ords := [(n, s.nextOrd n)], w := w, fmt := fmt, dest := dest, ring := ring,
                                    seq := seq, beds := beds }] }
  | _ => s

/-- Every target lane has handed its cells to a reduction, or had its entry discarded. -/
def Reduce.full (r : Reduce) : Bool := r.lanes.all fun n => r.got.any fun g => g.1 == n

/-- Every entry of a task in a lane's queue discarded, and those on their way to it (R224, R334): they count as completed for
`lfence` and `qfence` alone. One that was on its way has performed with the last lane that it entered or was discarded at (R31,
R223). -/
def State.discardLane (s : State) (n ctx task : Nat) : State :=
  let l := s.lane n
  let mine (e : LaneEnt) : Bool := e.ctx == ctx && e.taskid == task
  let s0 := match l.q with | e :: _ => if mine e then s.modCol n fun v => { v with rows := 0 } else s | [] => s
  let s1 := ((l.q ++ l.flight).filter mine).foldl (fun t e => t.handRed n e [] true) s0
  let s2 := s1.setLane n ({ l with q := l.q.filter (fun e => !mine e), flight := l.flight.filter (fun e => !mine e),
                                   row := (match l.q with | e :: _ => if mine e then 0 else l.row | [] => 0) } : Lane).settle
  (l.flight.filter mine).foldl (fun t e => if t.macroFlying ctx e.id then t else t.modCtx ctx fun c => (c.tokFill e.id).wake) s2

/-- The bytes of cells in a destination format: RNE, no saturation, no flush (R231). -/
def cellBytes (f : Fmt) (l : List (BitVec 56 × Bool)) : List Byte :=
  l.flatMap fun c => leBytes (outBytes f) (convert .a56 f .rne false false c.1.toNat)

/-- Bytes that a lane delivers to the scratchpad of a context's core, and the count of the macro where a value is
poisoned (R231). -/
def State.deliverCells (s : State) (k a : Nat) (bs : List Byte) (bad : Bool) : State :=
  (s.spadWrite (k / 4) a bs).modCtx k fun c => c.poisoned bad.toNat

/-- The cells that the tree of R98 leaves over lanes in role order; none where a lane's entry was discarded. -/
def Reduce.tree (r : Reduce) (lanes : List Nat) : Option (List (BitVec 56 × Bool)) :=
  let got := lanes.map fun n => (r.got.find? fun g => g.1 == n).getD (n, [], true)
  if got.any (·.2.2) then none
  else
    some ((List.range (r.w.nt * r.w.nc)).map fun i =>
      let col := got.map fun g => g.2.1.getD i (0, false)
      (reduceTree (fun a b => a56Add a (a56Value b)) 0 (col.map (·.1)), col.any (·.2)))

/-- A lane has handed one delivery over before another: it comes first in the lane's queue (R140). -/
def Reduce.ahead (q r : Reduce) : Bool := q.ords.any fun a => r.ords.any fun b => a.1 == b.1 && decide (a.2 < b.2)

/-- A chain of deliveries, each ahead of the next at some lane, leads from one to another. -/
def State.redLeads (s : State) : Nat → Reduce → Reduce → Bool
  | 0, _, _ => false
  | n + 1, q, r => q.ahead r || s.reds.any fun t => q.ahead t && s.redLeads n t r

/-- A delivery that is to come first has not been made: those of one lane are made in the order of its queue, whichever tasks gave
them (R140). Where lanes have them in orders that contradict one another, as R221 permits, none of them waits (DESIGN CHOICE,
log 101). -/
def State.redBehind (s : State) (r : Reduce) : Bool :=
  s.reds.any fun q => q.ahead r && !s.redLeads s.reds.length r q

/-- The machine without a reduction, which its lanes have completed (R227). -/
def State.redDone (s : State) (r : Reduce) : State :=
  let t : State := { s with reds := s.reds.filter fun q => !(q.ctx == r.ctx && q.taskid == r.taskid && q.id == r.id) }
  (r.got.filter fun g => !g.2.2).foldl (fun u g => u.setLane g.1 { u.lane g.1 with done := ((u.lane g.1).done + 1) % 2 ^ 25 }) t

/-- A result that lies beyond the scratchpad as its delivery reaches it: the lanes record PROT and discard the later entries
of the task (R106, R224). -/
def State.redFault (s : State) (r : Reduce) : State :=
  r.lanes.foldl (fun t n => (t.discardLane n r.ctx r.taskid).addDefer
    { ctx := r.ctx, taskid := r.taskid, unit := .lane n, code := .prot, addr := r.dest, info := 0 }) s

/-- A reduction to scratchpad or a readout delivered (R231); one with a discarded entry delivers nothing. -/
def State.deliverRed (s : State) (r : Reduce) : State :=
  let s1 := s.redDone r
  match r.tree r.lanes with
  | none => s1
  | some cells =>
    let bs := cellBytes r.fmt cells
    if s.spadHas (r.ctx / 4) r.dest bs.length then s1.deliverCells r.ctx r.dest bs (cells.any (·.2))
    else ({ s with reds := s1.reds } : State).redFault r

/-- The deliveries that can be made now, made in their order: to scratchpad, from every lane, and while no `ctl.split` of
the core changes (R106, R140, R231). -/
def State.settleReds (s : State) : Nat → State
  | 0 => s
  | n + 1 =>
    match s.reds.find? fun r => !r.ring && r.full && !s.redBehind r && !(s.core (r.ctx / 4)).splitting with
    | some r => (s.deliverRed r).settleReds n
    | none => s

/-- The deliveries that can be made now, made. -/
def State.deliverReady (s : State) : State := s.settleReds s.reds.length

/-- A fault that a lane records: the entry goes no further, the later entries of its task are discarded, and an
`lfence` that waits for the lane ends in the trap (R224). -/
def State.deferLane (s : State) (n : Nat) (e : LaneEnt) (code : Code) (addr : Nat) : State :=
  let d : Deferred := { ctx := e.ctx, taskid := e.taskid, unit := .lane n, code := code, addr := addr, info := 0 }
  ((s.discardLane n e.ctx e.taskid).addDefer d).deliverReady

/-- Event: a lane executes `lcfg` (R226). -/
def execLcfgApply (s : State) : Host.Outcome State Fault Refusal :=
  let n := s.cur.ev.a
  .next (match s.laneHead n with
    | some { cmd := .cfg rsync pol, .. } => s.setLane n ({ s.lane n with rsync := rsync, pol := pol } : Lane).pop
    | _ => s)

/-- Event: every target lane has reached an `lfence`, and what C issued to them before has completed, their deliveries
among it (R232). -/
def execLfenceReturn (s : State) : Host.Outcome State Fault Refusal :=
  let k := ctxKey s.cur.ev.core s.cur.ev.ctx
  let task := (s.ctx k).taskid
  .next (match ((s.ctx k).eng .c).wait with
    | .lfence ls id =>
      let reached (n : Nat) : Bool := ((s.lane n).q ++ (s.lane n).flight).all fun e =>
        !(e.ctx == k && e.taskid == task && (match e.cmd with | .fence i => i == id | _ => false))
      let reduced : Bool := s.reds.all fun r =>
        !(r.ctx == k && r.taskid == task && decide (r.id < id) && r.lanes.any ls.contains)
      if ls.all reached && reduced then s.modCtx k fun c => c.endWait .c else s
    | _ => s)

/-- The barrier that a lane stands at. -/
def State.syncHead (s : State) (n : Nat) : Option (Nat × Nat × Nat × List Nat) :=
  match s.laneHead n with
  | some { ctx := c, taskid := t, cmd := .sync id lanes, .. } => some (c, t, id, lanes)
  | _ => none

/-- An entry of a lane's queue is the barrier `id` of a task. -/
def isSync (c t id : Nat) (e : LaneEnt) : Bool :=
  e.ctx == c && e.taskid == t && (match e.cmd with | .sync i _ => i == id | _ => false)

/-- A target lane lets its `lsync` go: it stands at the barrier or has discarded it, and a retraining deferred to the
barrier has ended (R232, R236). -/
def State.syncReady (s : State) (c t id n : Nat) : Bool :=
  let l := s.lane n
  let col := s.col n
  (match l.q with
   | [] => !l.flight.any (isSync c t id)
   | e :: r => isSync c t id e || !(r ++ l.flight).any (isSync c t id)) &&
  !(l.defers && (col.retr || col.owed.isSome))

/-- Event: the last target lane reaches an `lsync`, and all of them go on (R232). -/
def execLsyncRelease (s : State) : Host.Outcome State Fault Refusal :=
  .next (match s.syncHead s.cur.ev.a with
    | some (c, t, id, lanes) =>
      if lanes.all (s.syncReady c t id) then
        lanes.foldl (fun u n =>
          match (u.lane n).q with
          | e :: _ => if isSync c t id e then u.setLane n (u.lane n).pop else u
          | [] => u) s
      else s
    | none => s)

/-- The page that translates an address for a lane, by the TLBs of the core that issued its macro (R121); a walk that
fails is XLATE, and any other miss waits for its walk (R122). -/
def State.windowPage (s : State) (k : Nat) (b : LaneBind) (va : Nat) : Option TlbEnt ⊕ Code :=
  if 2 ^ 53 ≤ va then .inr .xlate
  else
    match s.tlbFind (k / 4) b.part b.asid va with
    | some t => .inl (some t)
    | none => if (s.walk b.part b.asid va s.cur.pick).isSome then .inl none else .inr .xlate

/-- Every granule of a page is raw and lies in the column (R116). -/
def State.pageInColumn (s : State) (col : Nat) (t : TlbEnt) : Bool :=
  (List.range (t.size / 8192)).all fun i =>
    let g := s.granule (granOf t.pa + i)
    g.raw && colKey g.bed g.col == col

/-- What the pages of a window range come to: the granules that hold the range, a fault and its page, or a page whose
translation is not there yet. -/
inductive WinPages where
  | ok (l : List Nat)
  | fault (c : Code) (va : Nat)
  | miss (va : Nat)
  deriving DecidableEq, Repr

/-- The granules of `n` 8 KiB steps of a window range, every granule of each page that they lie in raw and in the column
(R116, R228). -/
def State.windowPages (s : State) (k : Nat) (b : LaneBind) (va n : Nat) : Nat → WinPages
  | 0 => .ok []
  | f + 1 =>
    if n = 0 then .ok []
    else
      match s.windowPage k b va with
      | .inr c => .fault c va
      | .inl none => .miss va
      | .inl (some t) =>
        let m := max 1 (min n ((t.va + t.size - va) / 8192))
        if !s.pageInColumn b.col t then .fault .prot va
        else
          match s.windowPages k b (va + 8192 * m) (n - m) f with
          | .ok l => .ok ((List.range m).map (fun i => (t.pa + (va - t.va)) / 8192 * 8192 + 8192 * i) ++ l)
          | r => r

/-- The DRAM rows of 1 KiB that hold bytes of a row of a bound window (R239). -/
def LaneBind.dramRows (b : LaneBind) (r : Nat) : List Nat :=
  let o := b.va + b.off + r * b.rstr
  (List.range ((o + b.nrec * recordSize b.fmt - 1) / 1024 + 1 - o / 1024)).map (o / 1024 + ·)

/-- The banks that hold rows of a bound stream (R237). -/
def LaneBind.banks (b : LaneBind) : List Nat :=
  (((List.range b.nrow).flatMap b.dramRows).map fun x =>
    Config.rowBank (b.pages.getD (x / 8 - (b.va + b.off) / 8192) 0 / 1024 + x % 8) % 72).eraseDups

/-- Event: a lane executes `lwst` (R228); banks of the stream that sleep wake (R237). -/
def execLwstBind (s : State) : Host.Outcome State Fault Refusal :=
  let n := s.cur.ev.a
  .next (match s.laneHead n with
    | some e =>
      (match e.cmd with
       | .wst b _ =>
         let first := (b.va + b.off) / 8192
         let last := (b.va + b.off + (b.nrow - 1) * b.rstr + b.nrec * recordSize b.fmt - 1) / 8192
         (match s.windowPages e.ctx b (8192 * first) (last + 1 - first) (last + 1 - first) with
          | .fault c va => s.deferLane n e c va
          | .miss va => s.enterUnitMiss e.ctx b.part b.asid va
          | .ok l =>
            let b' : LaneBind := { b with pages := l }
            (s.modCol n fun v => { v with sleep := v.sleep.filter fun x => !b'.banks.contains x,
                                          waking := v.waking.filter fun x => !b'.banks.contains x }).setLane n
              ({ s.lane n with bind := some b' } : Lane).pop)
       | _ => s)
    | none => s)

/-- Event: a lane executes `lact` (R229). -/
def execLactLoad (s : State) : Host.Outcome State Fault Refusal :=
  let n := s.cur.ev.a
  .next (match s.laneHead n with
    | some { cmd := .act t, .. } => s.setLane n ({ s.lane n with tile := some t } : Lane).pop
    | _ => s)

/-- The device-physical address of a byte of a bound window (R228). -/
def LaneBind.pa (b : LaneBind) (o : Nat) : Nat :=
  b.pages.getD ((b.va + o) / 8192 - (b.va + b.off) / 8192) 0 + (b.va + o) % 8192

/-- Bytes of a bound window as committed, zeros where a line is poisoned (R230, R233): as they stand when the piece
that reads them executes (DESIGN CHOICE, log 140). -/
def State.weight (s : State) (b : LaneBind) (o n : Nat) : List Byte :=
  (lineParts o n).flatMap fun p => s.committed (b.pa p.1) p.2.2

/-- The poisoned lines under bytes of a bound window, each by an address in it. -/
def State.weightBad (s : State) (b : LaneBind) (o n : Nat) : List Nat :=
  ((lineParts o n).map fun p => b.pa p.1).filter fun a => s.linePoisoned (a / 128)

/-- The elements and the scale of a record (R82, R83). -/
def recordValues (f : Fmt) (bs : List Byte) : List XR × XR :=
  ((recordCodes f (bs.drop 1)).map (fmtValue f false), scaleValue (bs.headD 0))

/-- The place of a cell in the accumulator of a lane. -/
def cellIdx (t j : Nat) : Nat := 256 * t + j

/-- A lane after one row of an `lmac` into column `j` (R95, R230). -/
def State.lmacRow (s : State) (l : Lane) (b : LaneBind) (tile : Tile) (j r : Nat) (z : Bool) : Lane :=
  let size := recordSize b.fmt
  let tsize := recordSize tile.fmt
  let l0 : Lane := if z then
      { l with acc := (List.range 16).foldl (fun a t => tput a (cellIdx t j) 0) l.acc,
               pois := l.pois.filter fun c => c % 256 != j }
    else l
  (List.range b.nrec).foldl (fun l1 i =>
    let o := b.off + r * b.rstr + i * size
    let w := recordValues b.fmt (s.weight b o size)
    let bad := s.weightBad b o size != []
    (List.range tile.t).foldl (fun (l2 : Lane) t =>
      let x := recordValues tile.fmt ((tile.data.drop ((t * tile.krec + i) * tsize)).take tsize)
      let c := cellIdx t j
      { l2 with acc := tput l2.acc c (a56Add (tget 0 l2.acc c) (blockValue w.1 x.1 w.2 x.2)),
                pois := if bad && !l2.pois.contains c then c :: l2.pois else l2.pois }) l1) l0

/-- The lines under bytes of a bound window, which its column reads (R228, R306). -/
def LaneBind.lines (b : LaneBind) (o n : Nat) : List Nat := (lineParts o n).map fun p => b.pa p.1 / 128

/-- Rows of an `lmac` one after another, each read from the column, up to one that meets poison under POL = 1 (R230, R306). The
lines already counted are `seen`. -/
def State.lmacRows (s0 : State) (part : Nat) (l : Lane) (b : LaneBind) (tile : Tile) (j r : Nat) (z : Bool) (seen : List Nat) :
    Nat → State × Lane × Option Nat
  | 0 => (s0, l, none)
  | n + 1 =>
    let s := (b.lines (b.off + r * b.rstr) (b.nrec * recordSize b.fmt)).foldl State.readStored s0
    let bad := s.weightBad b (b.off + r * b.rstr) (b.nrec * recordSize b.fmt)
    if bad ≠ [] ∧ l.pol then (s.poisonEvent part (bad.headD 0) true, l, some (b.va + b.off + r * b.rstr))
    else
      let new := (bad.filter fun a => !seen.contains (a / 128))
      let s1 := new.foldl (fun t a => t.poisonEvent part a false) s
      let l1 := s1.lmacRow { l with poisc := l.poisc + new.length, row := l.row + 1 } b tile j r z
      s1.lmacRows part l1 b tile (j + 1) (r + 1) z (seen ++ new.map (· / 128)) n

/-- The DRAM rows that the `n` rows of an `lmac` after its first `done` need beyond those already moved (R239). -/
def LaneBind.newRows (b : LaneBind) (frow done n : Nat) : List Nat :=
  let old := (List.range done).flatMap fun r => b.dramRows (frow + r)
  ((List.range n).flatMap fun r => b.dramRows (frow + done + r)).eraseDups.filter fun x => !old.contains x

/-- The DRAM rows that the `lmac` at the head of a lane's queue has yet to be given by its column (R234, R239). -/
def State.rowsWanted (s : State) (n : Nat) : Nat :=
  match s.laneHead n, (s.lane n).bind with
  | some { cmd := .mac _ cnt frow _, .. }, some b =>
    let l := s.lane n
    (b.newRows frow l.row (cnt - l.row)).length - (s.col n).rows
  | _, _ => 0

/-- Event: a lane streams and accumulates one piece of 64 rows of an `lmac`, once its column has moved their DRAM rows
(R230, R234, R239). -/
def execLmacPiece (s : State) : Host.Outcome State Fault Refusal :=
  let n := s.cur.ev.a
  .next (match s.laneHead n with
    | some e =>
      (match e.cmd with
       | .mac c0 cnt frow z =>
         let l := s.lane n
         (match l.bind, l.tile with
          | some b, some t =>
            if t.krec ≠ b.nrec then s.deferLane n e .qfault 0
            else if b.nrow < frow + cnt then s.deferLane n e .prot 0
            else
              let need := (b.newRows frow l.row (min 64 (cnt - l.row))).length
              if (s.col n).rows < need then s
              else
                let u := s.modCol n fun v => { v with rows := v.rows - need }
                (match u.lmacRows b.part l b t (c0 + l.row) (frow + l.row) z [] (min 64 (cnt - l.row)) with
                 | (s1, l1, some a) => (s1.setLane n l1).deferLane n e .poison a
                 | (s1, l1, none) => s1.setLane n (if cnt ≤ l1.row then l1.pop else l1))
          | _, _ => s.deferLane n e .qfault 0)
       | _ => s)
    | none => s)

/-- Event: a lane clears its accumulator (R231). -/
def execLacczClear (s : State) : Host.Outcome State Fault Refusal :=
  let n := s.cur.ev.a
  .next (match s.laneHead n with
    | some { cmd := .accz, .. } => s.setLane n ({ s.lane n with acc := [], pois := [] } : Lane).pop
    | _ => s)

/-- The cells that a read word names, with their poison bits, token by token (R231). -/
def Lane.cells (l : Lane) (w : ReadWord) : List (BitVec 56 × Bool) :=
  (List.range w.nt).flatMap fun t => (List.range w.nc).map fun i =>
    let c := cellIdx t (w.c0 + i)
    (tget 0 l.acc c, l.pois.contains c)

/-- A lane past a readout or a reduction, which completes as its delivery is made. -/
def Lane.hand (l : Lane) : Lane := ({ l with q := l.q.tail, row := 0 } : Lane).settle

/-- Event: a lane reads out its accumulator to the issuing core's scratchpad (R231), behind the deliveries of the task over
the lane that are still to come (R140). An access that arrives while a `ctl.split` changes waits, and is then checked
against the new size (R106). -/
def execLaccrReadout (s : State) : Host.Outcome State Fault Refusal :=
  let n := s.cur.ev.a
  .next (match s.laneHead n with
    | some e =>
      (match e.cmd with
       | .accr w f dest =>
         let l := s.lane n
         let cells := l.cells w
         let bs := cellBytes f cells
         if (s.core (e.ctx / 4)).splitting then s
         else if !s.spadHas (e.ctx / 4) dest bs.length then s.deferLane n e .prot dest
         else
           let r : Reduce := { ctx := e.ctx, taskid := e.taskid, pos := e.pos, id := e.id, lanes := [n], got := [(n, cells, false)],
                               ords := [(n, s.nextOrd n)], w := w, fmt := f, dest := dest, ring := false, seq := 0, beds := [] }
           (({ s with reds := s.reds ++ [r] } : State).setLane n l.hand).deliverReady
       | _ => s)
    | none => s)

/-- The lane's cells of a reduction cleared after they are read (R231). -/
def Lane.clearCells (l : Lane) (w : ReadWord) : Lane :=
  let cs := (List.range w.nt).flatMap fun t => (List.range w.nc).map fun i => cellIdx t (w.c0 + i)
  { l with acc := cs.foldl (fun a c => tput a c 0) l.acc, pois := l.pois.filter fun c => !cs.contains c }

/-- Event: a lane hands its cells to an `lred`; the last one of a reduction to scratchpad delivers it (R231), unless a
delivery over one of the lanes is still to come before it (R140). -/
def execLredReduce (s : State) : Host.Outcome State Fault Refusal :=
  let n := s.cur.ev.a
  .next (match s.laneHead n with
    | some e =>
      (match e.cmd with
       | .red _ _ w _ _ _ clr _ _ =>
         let l := s.lane n
         ((s.handRed n e (l.cells w) false).setLane n (if clr then (l.clearCells w).hand else l.hand)).deliverReady
       | _ => s)
    | none => s)

/-- The partial of a bed in a ring reduction: +0 with every poison bit set where an entry was discarded (R355). -/
def Reduce.bedPart (r : Reduce) (bed : Nat) : List (BitVec 56 × Bool) :=
  (r.tree (r.lanes.filter fun n => n / 68 == bed)).getD (List.replicate (r.w.nt * r.w.nc) (0, true))

/-- The fold of the beds' partials in role order (R99, R355). -/
def foldPartials : List (List (BitVec 56 × Bool)) → List (BitVec 56 × Bool)
  | [] => []
  | p :: r => r.foldl (fun a b => (a.zip b).map fun x => (a56Add x.1.1 (a56Value x.2.1), x.1.2 || x.2.2)) p

/-- A mask of bits. -/
def bitMask (l : List Nat) : Nat := l.foldl (fun a i => a ||| 2 ^ i) 0

/-- The result footer (R356). -/
def Reduce.footer (r : Reduce) (cells : List (BitVec 56 × Bool)) : List Byte :=
  let bad := idxs (·.2) cells
  let gone := r.beds.filter fun b => (r.tree (r.lanes.filter fun n => n / 68 == b % 8)).isNone
  leBytes 16 (bad.length % 2 ^ 32 * 2 ^ 96 + (bad.head?.getD (2 ^ 32 - 1)) % 2 ^ 32 * 2 ^ 64 +
    bitMask (r.beds.map (· / 8)) * 2 ^ 56 + bitMask (gone.map (· / 8)) * 2 ^ 48 + r.seq % 2 ^ 32)

/-- A ring reduction folded, and its result and footer written (R355). -/
def State.foldRing (s : State) (r : Reduce) : State :=
  let s1 := s.redDone r
  let cells := foldPartials (r.beds.map fun b => r.bedPart (b % 8))
  let bs := cellBytes .a56 cells ++ r.footer cells
  if s.spadHas (r.ctx / 4) r.dest bs.length then s1.deliverCells r.ctx r.dest bs (cells.any (·.2))
  else ({ s with reds := s1.reds } : State).redFault r

/-- Event: the ring engines fold the partials of a reduction and write its result and footer (R355). -/
def execRingFold (s : State) : Host.Outcome State Fault Refusal :=
  let v := s.cur.ev
  .next (match s.reds.find? fun r => r.ring && r.taskid == v.a && r.seq == v.b with
    | some r => if !r.full || s.redBehind r || (s.core (r.ctx / 4)).splitting then s else (s.foldRing r).deliverReady
    | none => s)

end Sys2Proof.Machine
end

