-- ==== Sys2Proof/Machine/Control.lean ====
section
/-! DEFINITION. The walk of blocks, branches, the transfers of scalars between engines, special registers and
identity (spec/03_encoding.md R43-R48, spec/11_control_instructions.md R156-R165, spec/07_memory.md R104-R106,
spec/17_lanes_matrix.md R235). -/

namespace Sys2Proof.Machine

/-! ## Block headers -/

/-- The machine with the engine in execution at its next instance of a block, or stalled on the slip window
(R27, R44). -/
def State.tryInstance (s : State) (b : Blk) : State :=
  let s1 := s.modMe fun c => c.beginInstance s.cur.eng b
  if s.cc.windowOpen s.cur.eng b.head b.mask then s1 else s1.stallHere .window

/-- A header word is none that an engine may pass: no body, no mask, or a body that ends beyond the text (R45). -/
def State.headerBad (s : State) (body : BitVec 12) (mask : BitVec 4) : Bool :=
  body == 0 || mask == 0 || decide (s.cr.textLen < 2 * (s.ce.pc + 2 + body.toNat))

/-- An engine at a block header: its checks, its visit, and the first instance of the block or the header after
it (R25, R44, R45). `n` is the repeat count that the engine reads. -/
def State.enterBlock (s : State) (body : BitVec 12) (mask : BitVec 4) (n : Nat) : State :=
  let h := s.ce.pc
  let next := h + 2 + body.toNat
  if s.headerBad body mask then s.trapHere .illop
  else
    let s1 := s.modCe fun e => { e with visits := h :: e.visits, stall := none }
    if !maskHas mask s.cur.eng || n == 0 then (s1.modMe fun c => (c.jump s.cur.eng next).wake)
    else s1.tryInstance { head := h, next := next, left := n - 1, begun := false, mask := mask }

/-- A block header whose repeat count is immediate (R43, R44). -/
def execBlockHeader (rep : BitVec 7) (body : BitVec 12) (mask : BitVec 4) (s : State) : Host.Outcome State Fault Refusal :=
  .next (s.enterBlock body mask (rep.toNat + 1))

/-- A block header whose repeat count each engine reads from its own register (R43, R44). -/
def execBlockHeaderReg (r : Reg) (body : BitVec 12) (mask : BitVec 4) (s : State) : Host.Outcome State Fault Refusal :=
  .next (if !s.headerBad body mask && maskHas mask s.cur.eng && s.resultPending [r] then s.stallHere .result
         else s.enterBlock body mask (s.rx r).toNat)

/-! ## Branches -/

/-- The check of a branch target: two parcels inside the text that form a block header (R48). -/
def State.checkTarget (s : State) (t : Int) : Except Res Nat :=
  if t < 0 ∨ (s.cr.textLen : Int) < 2 * (t + 2) then .error (.trap .illop 0 0 s)
  else
    match s.parcels s.me s.cur.eng false t.toNat 2 with
    | .ok (p :: _) => if p.toNat % 4 = 1 ∧ p.toNat / 4 % 64 = 0 then .ok t.toNat else .error (.trap .illop 0 0 s)
    | .miss va => .error (s.missStall va)
    | .fault c va => .error (.trap c va 0 s)
    | _ => .error (.trap .illop 0 0 s)

/-- A taken branch (R156). -/
def State.branchTo (s : State) (t : Int) : Res :=
  match s.checkTarget t with
  | .ok n => .jump n s
  | .error r => r

/-- A branch by a signed offset in parcels, counted from its first parcel (R48, R54). -/
def State.branchBy (s : State) (w : Nat) (o : Nat) : Res := s.branchTo ((s.ce.pc : Int) + signed w o)

/-- `bra` (R156). -/
def execBra (o : BitVec 20) (s : State) : Host.Outcome State Fault Refusal :=
  issue {} s fun t => t.branchBy 20 o.toNat

/-- `bc` (R156). -/
def execBc (p : BitVec 3) (n : BitVec 1) (o : BitVec 16) (s : State) : Host.Outcome State Fault Refusal :=
  issue { cls := .commonXC } s fun t => if t.rp p == (n == 0#1) then t.branchBy 16 o.toNat else .ok t

/-- `call`: the link is the header after the block (R156). -/
def execCall (o : BitVec 20) (s : State) : Host.Outcome State Fault Refusal :=
  issue { regs := [31] } s fun t =>
    let link := match t.ce.blk with | some b => b.next | none => t.ce.pc
    match t.branchBy 20 o.toNat with
    | .jump d u => .jump d (u.wx 31 (quadN link))
    | r => r

/-- `bq`: it pops one outcome whether or not it branches (R156). -/
def execBq (n : BitVec 1) (o : BitVec 16) (s : State) : Host.Outcome State Fault Refusal :=
  issue { cls := .only false true true true, srcs := [.bq s.cur.eng] } s fun t =>
    if t.cc.peekBq t.cur.eng == (n == 0#1) then t.branchBy 16 o.toNat else .ok t

/-- `bx` (R156). -/
def execBx (a : Reg) (s : State) : Host.Outcome State Fault Refusal :=
  issue { regs := [a] } s fun t => t.branchTo (t.rx a).toNat

/-- `ret` (R156). -/
def execRet (s : State) : Host.Outcome State Fault Refusal :=
  issue { regs := [31] } s fun t => t.branchTo (t.rx 31).toNat

/-! ## Outcomes and scalars between engines -/

/-- The engines that a mask names: bit 0 L, bit 1 C, bit 2 S (R157, R159). -/
def sendMask (e : BitVec 3) : List Eng :=
  (if e.getLsbD 0 then [.l] else []) ++ (if e.getLsbD 1 then [.c] else []) ++ (if e.getLsbD 2 then [.s] else [])

/-- `bcast` (R157). -/
def execBcast (p : BitVec 3) (e : BitVec 3) (i : BitVec 1) (s : State) : Host.Outcome State Fault Refusal :=
  issue { cls := .only true false false false, dsts := (sendMask e).map .bq } s fun t =>
    if e = 0 then .trap .illop 0 0 t
    else .ok (t.modMe fun c => (sendMask e).foldl (fun c f => c.pushBq f (t.rp p != (i == 1#1))) c)

/-- `xsend` (R159). -/
def execXsend (m : Mods) (e : BitVec 3) (a : Reg) (s : State) : Host.Outcome State Fault Refusal :=
  issue { mods := m, cls := .only true false false false, dsts := (sendMask e).map .xq, regs := [a] } s fun t =>
    if e = 0 then .trap .illop 0 0 t
    else .ok (t.modMe fun c => (sendMask e).foldl (fun c f => c.pushXq f (t.rx a)) c)

/-- `xrecv` (R159). -/
def execXrecv (m : Mods) (d : Reg) (s : State) : Host.Outcome State Fault Refusal :=
  issue { mods := m, cls := .only false true true true, srcs := [.xq s.cur.eng], regs := [d] } s fun t =>
    .ok (t.wx d (t.cc.peekXq t.cur.eng))

/-! ## Nothing, and the halt -/

/-- The 16-bit `nop` (R64). -/
def execNop16 (s : State) : Host.Outcome State Fault Refusal := issue {} s fun t => .ok t

/-- `nop` (R158). -/
def execNop (s : State) : Host.Outcome State Fault Refusal := issue {} s .ok

/-- `halt`: the task stops with WATCH, its record marked as a halt (R158). -/
def execHalt (s : State) : Host.Outcome State Fault Refusal :=
  issue { cls := .only true false false false } s fun t =>
    .stay (t.raise t.me { code := .watch, eng := t.cur.eng, pc := t.ce.pc, addr := 0, info := 0, clock := t.clock, halt := true })

/-! ## Special registers -/

/-- The physical columns of the column roles of the executing core's group of lowest index (R235). -/
def State.planColumns (s : State) : List Nat :=
  match s.myGroup with
  | some (g, _) => (s.cr.trellis.getD g {}).column
  | none => []

/-- The word of `slot.plan` (R235). -/
def State.slotPlan (s : State) : Quad :=
  let cols := s.planColumns
  if cols = [] then 0
  else
    let r := s.cc.planRole
    let c := if r = 2047 then cols.headD 0 else cols.getD r 0
    quadN (r * 2 ^ 16 + (s.col c).lslots)

/-- The word of a special register, its reserved bits zero (R161). -/
def State.readSpr (s : State) (r : Spr) : Quad :=
  match r with
  | .ctlWindow => quadN s.cc.window
  | .ctlSplit => quadN (s.core s.cur.core).spad
  | .ctlRound => s.cc.round.setWidth 64
  | .ctlPoison => quadN s.cc.pol.toNat
  | .ctlPrio => quadN (s.cc.regp * 16 + s.cc.prio)
  | .ctlAsid => quadN (s.cc.part * 2 ^ 16 + s.cc.asid)
  | .statTask => s.statTask s.me
  | .statStall => s.ce.statStall
  | .tagmap => (s.core s.cur.core).tagmap
  | .slotPlan => s.slotPlan

/-- What a write of `ctl.window` stores (R28). -/
def windowStored (v : Quad) : Nat := let n := v.toNat % 128; if n = 0 then 1 else min n 64

/-- The write of a special register, field by field as its access codes allow (R161, R11). Writes of `ctl.split`
and `slot.plan` make the engine wait for their procedures (R106, R235). Any other write is seen by every engine at once, within the
2 clocks that R162 allows (DESIGN CHOICE, log 139). -/
def State.writeSpr (s : State) (r : Spr) (v : Quad) : Res :=
  match r with
  | .ctlWindow => .ok (s.modMe fun c => { c with window := windowStored v })
  | .ctlSplit => .wait (.split (v.toNat % 256))
      (s.modCore s.cur.core fun c => { c with split := c.split ++ [(s.cur.ctx, s.cur.eng, v.toNat % 256)] })
  | .ctlRound => .ok (s.modMe fun c => { c with round := roundStored v })
  | .ctlPoison => .ok (s.modMe fun c => { c with pol := v.getLsbD 0 })
  | .ctlPrio => .ok (s.modMe fun c => { c with prio := min (v.toNat % 8) c.regp })
  | .ctlAsid => .ok s
  | .statTask => .ok s
  | .statStall => .ok (s.modCe fun e =>
      { e with queue := bits v.toNat 63 48, memq := bits v.toNat 47 32, window := bits v.toNat 31 16, arb := bits v.toNat 15 0 })
  | .tagmap => .ok (s.clearTags s.cur.core v)
  | .slotPlan => .wait (.plan v s.clock) s

/-- `mfs`: a number that names no register is ILLOP (R161). -/
def execMfs (m : Mods) (d : Reg) (n : BitVec 9) (s : State) : Host.Outcome State Fault Refusal :=
  issue { mods := m, regs := [d] } s fun t =>
    match sprOfCode n.toNat with
    | some r => .ok (t.wx d (t.readSpr r))
    | none => .trap .illop 0 0 t

/-- `mts`: a number that names no register is ILLOP (R161). -/
def execMts (m : Mods) (a : Reg) (n : BitVec 9) (s : State) : Host.Outcome State Fault Refusal :=
  issue { mods := m, regs := [a] } s fun t =>
    match sprOfCode n.toNat with
    | some r => t.writeSpr r (t.rx a)
    | none => .trap .illop 0 0 t

/-! ## `ctl.split` and `slot.plan` -/

/-- A span of bytes of a scratchpad that changes sides holds any value: a fresh draw (R106). -/
def State.havoc (s : State) (core a n : Nat) : State :=
  let (d, s1) := s.draw
  if n = 0 then s
  else s1.modCore core fun c =>
    { c with sram := { c.sram with havoc := (a, n, d) :: c.sram.havoc },
             poison := c.poison.filter fun w => !decide (a ≤ 8 * w ∧ 8 * w < a + n) }

/-- The procedure of the first write of `ctl.split` that waits begins: its size is checked against the allotment, and
issue is held (R105, R106). -/
def State.splitBegin (s : State) (core : Nat) : State :=
  let c := s.core core
  match c.split with
  | [] => s
  | (x, e, n) :: r =>
    let k := ctxKey core x
    if c.allot < n then (s.setCore core { c with split := r }).raiseAt k e ((s.ctx k).eng e).pc .budget
    else s.setCore core { c with splitting := true }

/-- An access to L, P or G space, for which the procedure waits: no command, no operation of a sequence unit, no slot
access, and no wait for a barrier's phase (R106). -/
def Access.drains (a : Access) : Bool :=
  match a.kind with
  | .load .. | .vload _ | .store => true
  | .op (.barwait ..) => false
  | .op o => !o.isSeq
  | _ => false

/-- Nothing outstanding comes from a core or reaches its scratchpad (R106): every access of its contexts has performed. One that
waits for an instruction that the procedure holds back is not outstanding, and a peer's access waits at its routing
slice (DEDUCED, log 99). -/
def State.splitDrained (s : State) (core : Nat) : Bool :=
  s.ctxs.all fun p => p.1 / 4 != core || p.2.mq.all fun a =>
    !a.drains || (a.parts.all fun q => q.done) || !s.comes p.1 a

/-- The end of the procedure: the L1 is emptied, SPAD takes the new value, the bytes that change sides hold any
value, the layout tags of what changes sides become 0 (R240), issue is released, and the writing engine goes on
(R106). -/
def State.splitApply (s : State) (core : Nat) : State :=
  let c := s.core core
  match c.split with
  | [] => s
  | (x, e, n) :: r =>
    let lo := min c.spad n
    let hi := max c.spad n
    let s1 := (s.modCore core fun d => { d with l1 := [], spad := n, split := r, splitting := false,
                                                 ltags := d.ltags.filter fun t => decide (t.1 < 16 * lo ∨ 16 * hi ≤ t.1) }).havoc core (65536 * lo)
      (65536 * (hi - lo))
    s1.modCtx (ctxKey core x) fun d =>
      match (d.eng e).wait with
      | .split _ => d.endWait e
      | _ => d

/-- Event: the first write of `ctl.split` that waits on a core begins its procedure (R106). -/
def execCtlSplitWrite (s : State) : Host.Outcome State Fault Refusal :=
  .next (if (s.core s.cur.ev.core).splitting then s else s.splitBegin s.cur.ev.core)

/-- Event: the accesses of a core have drained, and its `ctl.split` takes the new value; deliveries of lanes that waited for
it are made (R106). -/
def execCtlSplitApply (s : State) : Host.Outcome State Fault Refusal :=
  let n := s.cur.ev.core
  .next (if (s.core n).splitting && s.splitDrained n then (s.splitApply n).deliverReady else s)

/-- The write of `slot.plan` by an engine: a role beyond the group's column roles is PROT; else each addressed column
takes the new number of slots at its next frame boundary (R235). -/
def State.planWrite (s : State) (w : Quad) : State :=
  let role := bits w.toNat 26 16
  let n := min (bits w.toNat 4 0) 30
  let cols := s.planColumns
  if cols = [] ∨ (role ≠ 2047 ∧ cols.length ≤ role) then s.trapHere .prot
  else
    let dst := if role = 2047 then cols else [cols.getD role 0]
    (dst.foldl (fun t c => t.modCol c fun v => { v with plan := some n }) s).modMe fun c =>
      ({ c with planRole := role }).endWait s.cur.eng

/-- No other engine of a context has a write of `slot.plan` that goes first: by issue, and of one clock in the order X, L,
C, S (R162). -/
def Ctx.planFirst (c : Ctx) (e : Eng) (since : Nat) : Bool :=
  allEngs.all fun f =>
    match (c.eng f).wait with
    | .plan _ t => f == e || decide (since < t ∨ (since = t ∧ engIdx e < engIdx f))
    | _ => true

/-- Event: a write of `slot.plan` that an engine waits for is recorded (R162, R235). -/
def execSlotPlanWrite (s : State) : Host.Outcome State Fault Refusal :=
  let v := s.cur.ev
  let t := { s with cur := { s.cur with core := v.core, ctx := v.ctx, eng := v.eng } }
  .next (match t.ce.wait with | .plan w c => if t.cc.planFirst v.eng c then t.planWrite w else s | _ => s)

/-! ## Identity and time -/

/-- The bits of LANEN: bit k while every bed has at least 2^k bound lanes (R163). -/
def State.lanen (s : State) : Nat :=
  let n := (List.range 8).foldl (fun a b => min a (s.openCols b).length) 64
  ((List.range 8).filter fun k => decide (2 ^ k ≤ n)).foldl (fun a k => a + 2 ^ k) 0

/-- A feature word (R163). -/
def State.featWord (s : State) (n : Nat) : Nat :=
  match n with
  | 0 => 0x3F08
  | 1 => 0x7FF00 + s.lanen
  | 2 => 0xFDD5F
  | 3 => 0x7FFFFFFF
  | _ => 0

/-- `feat` (R163). -/
def execFeat (m : Mods) (d : Reg) (n : BitVec 5) (s : State) : Host.Outcome State Fault Refusal :=
  aluOp m d [] s fun t => quadN (t.featWord n.toNat)

/-- `clock` (R164): every die reads one count, so that the reads of different dies differ by none of the 8 clocks that the
manual allows (DESIGN CHOICE, log 100). -/
def execClock (m : Mods) (d : Reg) (s : State) : Host.Outcome State Fault Refusal :=
  aluOp m d [] s fun t => quadN t.clock

/-- What `roleid` reads of the core's place in the trellis (R165). -/
def State.roleWord (s : State) (sel : Nat) : Quad :=
  match s.myGroup with
  | none => if sel < 2 then BitVec.allOnes 64 else 0
  | some (g, i) =>
    let b := s.cr.trellis.getD g {}
    match sel with
    | 0 => quadN i
    | 1 => quadN g
    | 2 => quadN b.core.length
    | 3 => quadN b.lane.length
    | 4 => quadN b.column.length
    | 5 => quadN b.slice.length
    | 6 => quadN b.bed.length
    | _ => quadN b.matrix.length

/-- `roleid` (R165). -/
def execRoleid (m : Mods) (d : Reg) (n : BitVec 3) (s : State) : Host.Outcome State Fault Refusal :=
  aluOp m d [] s fun t => t.roleWord n.toNat

end Sys2Proof.Machine
end

