-- ==== Sys2Proof/Machine/Sha.lean ====
section
/-! DEFINITION. SHA-256 (FIPS 180-4), which the prefix hash, the signer records and the measurement register use
(spec/21_sequences.md R293, spec/31_code_objects.md R374, spec/33_service.md R376, R377). -/

namespace Sys2Proof.Machine

/-- A 32-bit word of the hash. -/
abbrev Word32 := BitVec 32

/-- The constants of the rounds, eight words to a number, the first word highest. -/
def shaRows : List (BitVec 256) := [
  0x428a2f9871374491b5c0fbcfe9b5dba53956c25b59f111f1923f82a4ab1c5ed5,
  0xd807aa9812835b01243185be550c7dc372be5d7480deb1fe9bdc06a7c19bf174,
  0xe49b69c1efbe47860fc19dc6240ca1cc2de92c6f4a7484aa5cb0a9dc76f988da,
  0x983e5152a831c66db00327c8bf597fc7c6e00bf3d5a7914706ca635114292967,
  0x27b70a852e1b21384d2c6dfc53380d13650a7354766a0abb81c2c92e92722c85,
  0xa2bfe8a1a81a664bc24b8b70c76c51a3d192e819d6990624f40e3585106aa070,
  0x19a4c1161e376c082748774c34b0bcb5391c0cb34ed8aa4a5b9cca4f682e6ff3,
  0x748f82ee78a5636f84c878148cc7020890befffaa4506cebbef9a3f7c67178f2]

/-- The words of a number, the highest first. -/
def wordsOf (n : BitVec 256) : List Word32 := (List.range 8).map fun i => n.extractLsb' (224 - 32 * i) 32

/-- The constants of the rounds. -/
def shaK : List Word32 := shaRows.flatMap wordsOf

/-- The eight words of the hash value. -/
structure Sha where
  a : Word32
  b : Word32
  c : Word32
  d : Word32
  e : Word32
  f : Word32
  g : Word32
  h : Word32
  deriving DecidableEq, Repr

/-- The initial hash value. -/
def shaInit : Sha :=
  { a := 0x6a09e667, b := 0xbb67ae85, c := 0x3c6ef372, d := 0xa54ff53a, e := 0x510e527f, f := 0x9b05688c,
    g := 0x1f83d9ab, h := 0x5be0cd19 }

/-- The word of four bytes, the first one highest. -/
def beWord (l : List Byte) : Word32 := l.foldl (fun w b => (w <<< 8) ||| b.setWidth 32) 0

/-- The bytes of a word, the highest first. -/
def wordBe (w : Word32) : List Byte := [(w >>> 24).setWidth 8, (w >>> 16).setWidth 8, (w >>> 8).setWidth 8, w.setWidth 8]

/-- The message schedule, newest word first, with more words put before it. -/
def shaExtend : Nat → List Word32 → List Word32
  | 0, w => w
  | n + 1, w =>
    let w15 := w.getD 14 0
    let w2 := w.getD 1 0
    let s0 := w15.rotateRight 7 ^^^ w15.rotateRight 18 ^^^ (w15 >>> 3)
    let s1 := w2.rotateRight 17 ^^^ w2.rotateRight 19 ^^^ (w2 >>> 10)
    shaExtend n ((w.getD 15 0 + s0 + w.getD 6 0 + s1) :: w)

/-- One round. -/
def Sha.round (x : Sha) (k w : Word32) : Sha :=
  let s1 := x.e.rotateRight 6 ^^^ x.e.rotateRight 11 ^^^ x.e.rotateRight 25
  let ch := (x.e &&& x.f) ^^^ (~~~x.e &&& x.g)
  let t1 := x.h + s1 + ch + k + w
  let s0 := x.a.rotateRight 2 ^^^ x.a.rotateRight 13 ^^^ x.a.rotateRight 22
  let maj := (x.a &&& x.b) ^^^ (x.a &&& x.c) ^^^ (x.b &&& x.c)
  { a := t1 + (s0 + maj), b := x.a, c := x.b, d := x.c, e := x.d + t1, f := x.e, g := x.f, h := x.g }

/-- The hash value after one block of 64 bytes. -/
def Sha.block (x : Sha) (bs : List Byte) : Sha :=
  let w := shaExtend 48 ((List.range 16).map fun i => beWord ((bs.drop (4 * i)).take 4)).reverse
  let y := (shaK.zip w.reverse).foldl (fun s p => s.round p.1 p.2) x
  { a := x.a + y.a, b := x.b + y.b, c := x.c + y.c, d := x.d + y.d, e := x.e + y.e, f := x.f + y.f, g := x.g + y.g,
    h := x.h + y.h }

/-- The hash value after the blocks of a padded message. -/
def shaBlocks : Nat → Sha → List Byte → Sha
  | 0, x, _ => x
  | n + 1, x, bs => shaBlocks n (x.block (bs.take 64)) (bs.drop 64)

/-- A message padded to whole blocks. -/
def shaPad (m : List Byte) : List Byte :=
  m ++ [0x80] ++ List.replicate ((119 - m.length % 64) % 64) 0 ++ (leBytes 8 (8 * m.length)).reverse

/-- The SHA-256 digest of a message. -/
def sha256 (m : List Byte) : List Byte :=
  let p := shaPad m
  let x := shaBlocks (p.length / 64) shaInit p
  [x.a, x.b, x.c, x.d, x.e, x.f, x.g, x.h].flatMap wordBe

end Sys2Proof.Machine
end

