-- ==== Sys2Proof/Machine/Matrix.lean ====
section
/-! DEFINITION. The matrix commands of C and the events in which a matrix engine executes them
(spec/17_lanes_matrix.md R222-R224, R240-R248, R385). -/

namespace Sys2Proof.Machine

/-- A matrix engine: one to a hub cluster. -/
def State.mat (s : State) (n : Nat) : Matrix := tget {} s.mats n
/-- The machine with a matrix engine replaced. -/
def State.setMat (s : State) (n : Nat) (m : Matrix) : State := { s with mats := tput s.mats n m }
/-- The matrix engine of the executing core's hub cluster (R222). -/
def State.myMat (s : State) : Nat := s.cur.core - 64

/-- The engines of a matrix instruction: C of a hub core. On a bed core it is ILLOP (R222). -/
def matClass (s : State) : EngClass := if s.cur.core < 64 then .only false false false false else onC

/-- The engine is bound to a matrix role of a group in which the core holds a core role (R222). -/
def State.matBound (s : State) : Bool :=
  (coreGroups s.cr s.cur.core).any fun g => (s.cr.trellis.getD g.1 {}).matrix.contains s.myMat

/-- The common checks of a matrix instruction (R222, R224). -/
def matInstr (m : Mods) (regs : List Reg) (s : State) (f : State → Res) : Host.Outcome State Fault Refusal :=
  issue { mods := m, cls := matClass s, regs := regs } s fun t =>
    if !t.matBound then .trap .prot 0 0 t
    else
      match t.deferred t.me (fun u => u == .mat t.myMat) with
      | some d => .stay (t.raiseDeferred t.me d)
      | none => f t

/-- A semaphore that a command names, where its enable bit is set (R241). -/
def semOf (k : BitVec 4) (e : BitVec 1) : Option Nat := if e = 1 then some k.toNat else none

/-- A matrix command at issue: what `f` gives enters the queue (R222, R223). -/
def matCommand (m : Mods) (regs : List Reg) (ws : BitVec 4) (we : BitVec 1) (ss : BitVec 4) (se : BitVec 1) (s : State)
    (f : State → Except Res MCmd) : Host.Outcome State Fault Refusal :=
  matInstr m regs s fun t =>
    match f t with
    | .error r => r
    | .ok cmd =>
      let e := t.mat t.myMat
      if 16 ≤ e.q.length then .stall .unit t
      else
        let ent : MatEnt := { ctx := t.me, taskid := t.cc.taskid, pos := t.pos, pol := t.cc.pol, part := t.cc.part,
                              asid := t.cc.asid, wsem := semOf ws we, ssem := semOf ss se, cmd := cmd }
        .ok (t.setMat t.myMat { e with q := e.q ++ [ent] })

/-! ## Commands at issue -/

/-- The layout that a word gives (R243). -/
def layoutOf (w : Nat) : Layout := { span := bits w 63 61, rstr := bits w 54 32, base := bits w 22 0 }
/-- The span of a layout in bytes (R243). -/
def Layout.bytes (l : Layout) : Nat := 16 * 2 ^ l.span
/-- The L-space offset of a byte of a layout row (R243). -/
def Layout.at_ (l : Layout) (row o : Nat) : Nat := l.base + row * l.rstr + (o ^^^ (row % (l.bytes / 16) * 16))

/-- `mlay` (R243, R244). -/
def execMlay (m : Mods) (a b : Reg) (l : BitVec 3) (ws : BitVec 4) (we : BitVec 1) (ss : BitVec 4) (se : BitVec 1) (s : State) :
    Host.Outcome State Fault Refusal :=
  matCommand m [a, b] ws we ss se s fun t =>
    let y := layoutOf (t.rx a).toNat
    let w := (t.rx b).toNat
    let start := bits w 22 0
    let len := bits w 54 32
    if y.base % 16 ≠ 0 ∨ y.rstr = 0 ∨ y.rstr % y.bytes ≠ 0 then .error (.trap .qfault 0 0 t)
    else if b = 0 then .ok (.lay l.toNat y none)
    else if start % 4096 ≠ 0 ∨ len % 4096 ≠ 0 ∨ len < 4096 then .error (.trap .qfault 0 0 t)
    else if !t.spadHas t.cur.core start len then .error (.trap .prot start 0 t)
    else .ok (.lay l.toNat y (some (start, len)))

/-- The unfold register that two words give (R244). -/
def unfoldOf (g w : Nat) : Unfold :=
  { w := bits g 63 48, h := bits g 47 32, ow := bits g 31 16, crec := bits g 15 0,
    pw := bits w 39 36, ph := bits w 35 32, dw := bits w 31 28, dh := bits w 27 24, sw := bits w 23 20, sh := bits w 19 16,
    kw := bits w 15 8, kh := bits w 7 0 }

/-- Every field of an unfold register in its range (R244). -/
def Unfold.ok (u : Unfold) : Bool :=
  u.w != 0 && u.h != 0 && u.ow != 0 && u.crec != 0 && decide (u.crec ≤ 4095) && u.dw != 0 && u.dh != 0 && u.sw != 0 &&
  u.sh != 0 && u.kw != 0 && u.kh != 0

/-- `munf` (R244). -/
def execMunf (m : Mods) (a b : Reg) (id : BitVec 1) (ws : BitVec 4) (we : BitVec 1) (ss : BitVec 4) (se : BitVec 1) (s : State) :
    Host.Outcome State Fault Refusal :=
  matCommand m [a, b] ws we ss se s fun t =>
    if id = 1 then .ok (.unf none)
    else
      let u := unfoldOf (t.rx a).toNat (t.rx b).toNat
      if u.ok then .ok (.unf (some u)) else .error (.trap .qfault 0 0 t)

/-- `mld` (R244). -/
def execMld (m : Mods) (a b c : Reg) (l : BitVec 3) (ws : BitVec 4) (we : BitVec 1) (ss : BitVec 4) (se : BitVec 1) (s : State) :
    Host.Outcome State Fault Refusal :=
  matCommand m [a, b, c] ws we ss se s fun t =>
    let w := (t.rx c).toNat
    let nr := bits w 63 48
    let nb := bits w 31 0
    if nr = 0 ∨ nb = 0 ∨ 65536 < nr * nb then .error (.trap .qfault 0 0 t)
    else .ok (.ld l.toNat (t.rx a).toNat (t.rx b).toNat nr (bits w 47 32) nb)

/-- The format of an operand word, if it is one that `lwst` admits (R225, R245). -/
def laneFmt (c : Nat) : Option Fmt :=
  match fmtOfCode (BitVec.ofNat 6 c) with
  | some f => if fmtIsLane f then some f else none
  | none => none

/-- `mmul` (R245). -/
def execMmul (m : Mods) (a b : Reg) (u : BitVec 1) (tl : BitVec 2) (ws : BitVec 4) (we : BitVec 1) (ss : BitVec 4) (se : BitVec 1)
    (s : State) : Host.Outcome State Fault Refusal :=
  matCommand m [a, b] ws we ss se s fun t =>
    let x := (t.rx a).toNat
    let y := (t.rx b).toNat
    let mm := bits x 63 57 + 1
    let krec := bits y 63 48
    match laneFmt (bits x 15 10), laneFmt (bits y 15 10) with
    | some fa, some fb =>
      let cap := if fmtWidth fa = 4 ∧ fmtWidth fb = 4 then 127488 else 63744
      if krec = 0 ∨ cap < mm * krec then .error (.trap .qfault 0 0 t)
      else .ok (.mul tl.toNat (u == 1#1) mm (bits x 47 32) fa (x.testBit 9) (bits x 2 0) krec (bits y 47 32) fb (y.testBit 9)
        (bits y 2 0))
    | _, _ => .error (.trap .qfault 0 0 t)

/-- `mdrn` (R246). -/
def execMdrn (m : Mods) (a b : Reg) (g : BitVec 1) (tl : BitVec 2) (ws : BitVec 4) (we : BitVec 1) (ss : BitVec 4) (se : BitVec 1)
    (s : State) : Host.Outcome State Fault Refusal :=
  matCommand m [a, b] ws we ss se s fun t =>
    let w := (t.rx b).toNat
    let dest := (t.rx a).toNat
    let dstr := bits w 15 0
    let m0 := bits w 22 16
    let mm := bits w 30 24 + 1
    let fd := fmtOfCode (BitVec.ofNat 6 (bits w 37 32))
    let size := match fd with | some f => outBytes f | none => 0
    if 128 < m0 + mm then .error (.trap .qfault 0 0 t)
    else if g = 0 ∧ !(List.range mm).all fun i => t.spadHas t.cur.core (dest + i * dstr) (128 * size) then
      .error (.trap .prot dest 0 t)
    else .ok (.drn tl.toNat (g == 1#1) dest dstr m0 mm fd (w.testBit 39) (t.rm m) (satOf m) (ftzOf m))

/-- `mzero` (R246). -/
def execMzero (m : Mods) (mode : TMode) (tl : BitVec 2) (ws : BitVec 4) (we : BitVec 1) (ss : BitVec 4) (se : BitVec 1) (s : State) :
    Host.Outcome State Fault Refusal :=
  matCommand m [] ws we ss se s fun _ => .ok (.zero tl.toNat mode)

/-! ## Semaphores and status -/

/-- A semaphore of a matrix engine. -/
def Matrix.sem (e : Matrix) (k : Nat) : Nat := tget 0 e.sems k
/-- A matrix engine with a semaphore written; a count saturates (R242). -/
def Matrix.setSem (e : Matrix) (k n : Nat) : Matrix := { e with sems := tput e.sems k (min 65535 n) }

/-- `msem.sig` (R242). -/
def execMsemSig (m : Mods) (k : BitVec 4) (n : BitVec 12) (s : State) : Host.Outcome State Fault Refusal :=
  matInstr m [] s fun t =>
    let e := t.mat t.myMat
    .ok (t.setMat t.myMat (e.setSem k.toNat (e.sem k.toNat + n.toNat)))

/-- `msem.rd` (R242). -/
def execMsemRd (m : Mods) (d : Reg) (k : BitVec 4) (s : State) : Host.Outcome State Fault Refusal :=
  matInstr m [d] s fun t => .ok (t.wx d (quadN ((t.mat t.myMat).sem k.toNat)))

/-- The status word of a matrix engine (R247). -/
def Matrix.word (e : Matrix) : Quad :=
  let busy := match e.q with | h :: _ => h.begun | [] => false
  quadN (e.q.length % 32 * 2 ^ 59 + busy.toNat * 2 ^ 58 + min 255 e.layc * 2 ^ 40 + min 255 e.fmtc * 2 ^ 32 +
    e.poisc % 2 ^ 16 * 2 ^ 16 + e.done % 2 ^ 16)

/-- `msem.st`: the read clears LAYC, FMTC and POISC (R242, R247). -/
def execMsemSt (m : Mods) (d : Reg) (s : State) : Host.Outcome State Fault Refusal :=
  matInstr m [d] s fun t =>
    let e := t.mat t.myMat
    .ok ((t.setMat t.myMat { e with layc := 0, fmtc := 0, poisc := 0 }).wx d e.word)

/-! ## The engine at work -/

/-- The command that an engine may work on: its head, of a task that is there, behind no `qfence` and with its semaphore
wait met, while the engine has not stopped for a pre-emption (R141, R242, R345). -/
def State.matHead (s : State) (n : Nat) : Option MatEnt :=
  match (s.mat n).q with
  | [] => none
  | e :: _ =>
    let c := s.ctx e.ctx
    if c.st = .idle ∨ c.taskid ≠ e.taskid ∨ s.unitStopped c.part (.matrix n) then none
    else if e.begun then some e
    else if s.fencedOff e.ctx e.pos then none
    else
      match e.wsem with
      | some k => if (s.mat n).sem k = 0 then none else some e
      | none => some e

/-- The count of a semaphore that an `msem.wait` may take: where the command at the head of the queue waits on it and can
proceed, the engine is served first (R242). -/
def State.semLeft (s : State) (n k : Nat) : Nat :=
  match s.matHead n with
  | some e => (s.mat n).sem k - (!e.begun && e.wsem == some k).toNat
  | none => (s.mat n).sem k

/-- `msem.wait` (R242). -/
def execMsemWait (m : Mods) (k : BitVec 4) (n : BitVec 12) (s : State) : Host.Outcome State Fault Refusal :=
  matInstr m [] s fun t =>
    let e := t.mat t.myMat
    if n.toNat ≤ t.semLeft t.myMat k.toNat then
      .ok ((t.setMat t.myMat (e.setSem k.toNat (e.sem k.toNat - n.toNat))).acquireAt t.me .device)
    else .wait (.msem k.toNat n.toNat) t

/-- Event: a waiting `msem.wait` finds its count (R242). -/
def execMsemWaitReturn (s : State) : Host.Outcome State Fault Refusal :=
  let v := s.cur.ev
  let k := ctxKey v.core v.ctx
  let e := s.mat (v.core - 64)
  .next (match ((s.ctx k).eng .c).wait with
    | .msem i n =>
      if n ≤ s.semLeft (v.core - 64) i then
        ((s.setMat (v.core - 64) (e.setSem i (e.sem i - n))).acquireAt k .device).modCtx k fun c => c.endWait .c
      else s
    | _ => s)

/-- The engine with its head command begun: its semaphore is consumed (R242). -/
def State.matBegin (s : State) (n : Nat) : State :=
  let e := s.mat n
  match e.q with
  | [] => s
  | h :: r =>
    if h.begun then s
    else
      let e1 := match h.wsem with | some k => e.setSem k (e.sem k - 1) | none => e
      s.setMat n { e1 with q := { h with begun := true } :: r }

/-- The engine with its head command complete: its semaphore is signalled (R242). -/
def State.matEnd (s : State) (n : Nat) : State :=
  let e := s.mat n
  match e.q with
  | [] => s
  | h :: r =>
    let e1 := match h.ssem with | some k => e.setSem k (e.sem k + 1) | none => e
    s.setMat n { e1 with q := r, done := (e1.done + 1) % 2 ^ 16 }

/-- The engine without the commands of a task; discarded commands signal no semaphore (R224). -/
def State.discardMat (s : State) (n ctx task : Nat) : State :=
  let e := s.mat n
  s.setMat n { e with q := e.q.filter fun h => !(h.ctx == ctx && h.taskid == task) }

/-- A fault that a matrix engine records (R224). -/
def State.deferMat (s : State) (n : Nat) (e : MatEnt) (code : Code) (addr : Nat) : State :=
  (s.discardMat n e.ctx e.taskid).addDefer
    { ctx := e.ctx, taskid := e.taskid, unit := .mat n, code := code, addr := addr, info := 0 }

/-- The head command of an engine, if it is of the kind that `f` takes, begun and then worked on. -/
def State.matWork (s : State) (f : State → Nat → MatEnt → Option State) : State :=
  let n := s.cur.ev.a
  match s.matHead n with
  | none => s
  | some e => (f (s.matBegin n) n e).getD s

/-- Regions of the hub core's scratchpad tagged with a span (R244). -/
def State.tagRegions (s : State) (n span : Nat) (rs : List Nat) : State :=
  s.modCore (64 + n) fun c => { c with ltags := rs.foldl (fun t r => tput t r span) c.ltags }

/-- Event: the engine executes `mlay` (R244). -/
def execMlayExecute (s : State) : Host.Outcome State Fault Refusal :=
  .next (s.matWork fun t n e =>
    match e.cmd with
    | .lay k l st =>
      let t1 := t.setMat n { t.mat n with layout := tput (t.mat n).layout k l }
      let t2 := match st with
        | some (a, len) => t1.tagRegions n l.span ((List.range (len / 4096)).map (a / 4096 + ·))
        | none => t1
      some (t2.matEnd n)
    | _ => none)

/-- Event: the engine executes `munf` (R244). -/
def execMunfExecute (s : State) : Host.Outcome State Fault Refusal :=
  .next (s.matWork fun t n e =>
    match e.cmd with
    | .unf u => some ((t.setMat n { t.mat n with unfold := u }).matEnd n)
    | _ => none)

/-- A layout register of an engine (R240). -/
def State.layout (s : State) (n k : Nat) : Layout := tget {} (s.mat n).layout k

/-- The offsets of a run of bytes of a layout row. -/
def Layout.run (l : Layout) (row o n : Nat) : List Nat := (List.range n).map fun i => l.at_ row (o + i)

/-- The 4 KiB regions of a list of offsets. -/
def regionsOf (l : List Nat) : List Nat := (l.map (· / 4096)).eraseDups

/-- The head command of an engine after a row. -/
def State.matRow (s : State) (n : Nat) : State :=
  let e := s.mat n
  match e.q with
  | h :: r => s.setMat n { e with q := { h with row := h.row + 1 } :: r }
  | [] => s

/-- What a row of a command comes to. -/
inductive RowRes where
  | done (s : State)
  | fault (c : Code) (addr : Nat) (s : State)
  | wait (s : State)

/-- Rows of a command one after another; it ends when every row has performed (R244, R246, R385). -/
def State.matRows (s : State) (n : Nat) (e : MatEnt) (row : State → Nat → RowRes) (total i : Nat) : Nat → State
  | 0 => if total ≤ i then s.matEnd n else s
  | f + 1 =>
    if total ≤ i then s.matEnd n
    else
      match row s i with
      | .done t => (t.matRow n).matRows n e row total (i + 1) f
      | .fault c a t => t.deferMat n e c a
      | .wait t => t

/-- A source row of `mld` (R244). POISC saturates as LAYC and FMTC do (DESIGN CHOICE, log 142). -/
def State.mldRow (s : State) (n : Nat) (e : MatEnt) (k va stride rowd nb i : Nat) : RowRes :=
  let l := s.layout n k
  let core := 64 + n
  match s.unitRead e.ctx e.part e.asid (lineParts ((va + i * stride) % 2 ^ 64) nb) with
  | .wait t => .wait t
  | .fault c a => .fault c a s
  | .ok s bs bad =>
    if bad ≠ [] ∧ e.pol then .fault .poison ((va + i * stride) % 2 ^ 64) (s.poisonEvents e.part true (bad.take 1))
    else
      let offs := l.run (rowd + i) 0 nb
      if (s.core core).splitting then .wait s
      else if !offs.all fun o => s.spadHas core o 1 then .fault .prot (l.base + (rowd + i) * l.rstr) s
      else
        let s1 := (s.poisonEvents e.part false bad).setMat n { s.mat n with poisc := satAdd16 (s.mat n).poisc bad.length }
        .done ((s1.spadScatter core (offs.zip bs)).tagRegions n l.span (regionsOf offs))

/-- The rows that an event of a long command performs: all that are left, or the number that the schedule gives, where
it stops at a row boundary (R385). -/
def rowBudget (total done asked : Nat) : Nat := if asked = 0 then total - done else min asked (total - done)

/-- Event: the engine executes `mld`, or as many of its rows as come before a row boundary at which it stops
(R244, R385). -/
def execMldExecute (s : State) : Host.Outcome State Fault Refusal :=
  .next (s.matWork fun t n e =>
    match e.cmd with
    | .ld k va stride nr rowd nb =>
      some (if (t.layout n k).rstr < nb then t.deferMat n e .qfault 0
            else t.matRows n e (fun u i => u.mldRow n e k va stride rowd nb i) nr e.row (rowBudget nr e.row s.cur.ev.b))
    | _ => none)

/-- The bytes of a unit of an operand: a record, or 32 elements without a scale (R245). -/
def unitBytes (f : Fmt) (raw : Bool) : Nat := if raw then 4 * fmtWidth f else recordSize f

/-- The elements and the scale of a unit (R245). -/
def unitValues (f : Fmt) (raw : Bool) (bs : List Byte) : List XR × XR :=
  if raw then ((recordCodes f bs).map (fmtValue f false), .fin false 1 1) else recordValues f bs

/-- The row and the unit of the layout that an unfolded unit reads; none for a zero unit (R245). -/
def unfoldAt (u : Unfold) (row kb : Nat) : Option (Nat × Nat) :=
  let oy := row / u.ow
  let ox := row % u.ow
  let cr := kb % u.crec
  let pix := kb / u.crec
  let kx := pix % u.kw
  let ky := pix / u.kw
  let iy : Int := (oy * u.sh + ky * u.dh : Nat) - (u.ph : Int)
  let ix : Int := (ox * u.sw + kx * u.dw : Nat) - (u.pw : Int)
  if u.kh ≤ ky ∨ iy < 0 ∨ (u.h : Int) ≤ iy ∨ ix < 0 ∨ (u.w : Int) ≤ ix then none
  else some (iy.toNat * u.w + ix.toNat, cr)

/-- The identity unfold: row and unit as they are (R240). -/
def rowOf (u : Option Unfold) (unf : Bool) (row kb : Nat) : Option (Nat × Nat) :=
  if !unf then some (row, kb)
  else
    match u with
    | some w => unfoldAt w row kb
    | none => some (row, kb)

/-- The offsets of a unit that a command reads; none for a zero unit. -/
def unitOffsets (l : Layout) (size : Nat) (p : Option (Nat × Nat)) : List Nat :=
  match p with
  | some (row, kb) => l.run row (kb * size) size
  | none => []

/-- The format is a binary8 format. -/
def fmtIsB8 : Fmt → Bool
  | .b8 .. => true
  | _ => false

/-- The unit of an integer accumulation, as a power of two (R86). -/
def unitQ (fa fb : Fmt) : Int := -((fmtIsHalf fa).toNat : Int) - (fmtIsHalf fb).toNat

/-- A block value in units of 2^q (R86, R245). -/
def countOf (v : XR) (q : Int) : Int :=
  match v.scale2 (-q) with
  | .fin neg n d => if neg then -((n / d : Nat) : Int) else (n / d : Nat)
  | _ => 0

/-- An integer accumulation of 56 bits: wrapped, or clamped (R86). -/
def intAccum (mode : TMode) (c : BitVec 56) (n : Int) : BitVec 56 :=
  let v := c.toInt + n
  match mode with
  | .sat => BitVec.ofInt 56 (max (-(2 ^ 55 : Nat)) (min ((2 ^ 55 - 1 : Nat) : Int) v))
  | _ => BitVec.ofInt 56 v

/-- A cell of a tile (R240). -/
def MTile.cell (t : MTile) (m n : Nat) : BitVec 56 := tget 0 t.cells (128 * m + n)

/-- The bytes of a unit as they stand in the scratchpad: uncorrectable words read as zeros (R108). -/
def State.unitAt (s : State) (core : Nat) (offs : List Nat) (size : Nat) : List Byte :=
  if offs = [] then List.replicate size 0
  else offs.map fun o => if (s.core core).poison.contains (o / 8) then 0 else (s.core core).sram.get o

/-- A command's product added to a tile, cell by cell in ascending K (R95, R97, R245). -/
def mulTile (mode : TMode) (q : Int) (t : MTile) (mm krec : Nat) (a b : Nat → Nat → List XR × XR) : MTile :=
  let cell (m n : Nat) : BitVec 56 :=
    (List.range krec).foldl (fun acc i =>
      let x := a m i
      let y := b n i
      let v := blockValue x.1 y.1 x.2 y.2
      match mode with
      | .float => a56Add acc v
      | _ => intAccum mode acc (countOf v q)) (t.cell m n)
  { t with cells := (List.range mm).foldl (fun c m => (List.range 128).foldl (fun c n => tput c (128 * m + n) (cell m n)) c) t.cells }

/-- Event: the engine executes `mmul` (R245). Record operands for a tile in an integer MODE end it with status FMT, as the
procedure of R245 has it, and are not accumulated in A56 as R86 has it (log 104). All operands are read at one moment (DESIGN
CHOICE, log 141). -/
def execMmulExecute (s : State) : Host.Outcome State Fault Refusal :=
  .next (s.matWork fun t n e =>
    match e.cmd with
    | .mul tl unf mm row0 fa rawa la krec kfirst fb rawb lb =>
      let g := t.mat n
      let core := 64 + n
      let ya := t.layout n la
      let yb := t.layout n lb
      let sa := unitBytes fa rawa
      let sb := unitBytes fb rawb
      let offA (m i : Nat) : List Nat := unitOffsets ya sa (rowOf g.unfold unf (row0 + m) (kfirst + i))
      let offB (c i : Nat) : List Nat := unitOffsets yb sb (some (c, kfirst + i))
      let allA := (List.range mm).flatMap fun m => (List.range krec).flatMap (offA m)
      let allB := (List.range 128).flatMap fun c => (List.range krec).flatMap (offB c)
      let tag (r : Nat) : Nat := tget 0 (t.core core).ltags r
      let bad := (allA ++ allB).filter fun o => (t.core core).poison.contains (o / 8)
      let tile := tget {} g.tiles tl
      let q := unitQ fa fb
      some (
        if (t.core core).splitting then s
        else if !(allA ++ allB).all fun o => t.spadHas core o 1 then t.deferMat n e .prot ya.base
        else if (regionsOf allA).any (fun r => tag r != ya.span) || (regionsOf allB).any (fun r => tag r != yb.span) then
          (t.setMat n { g with layc := min 255 (g.layc + 1) }).matEnd n
        else if tile.mode ≠ .float ∧ (!rawa ∨ !rawb ∨ fmtIsB8 fa ∨ fmtIsB8 fb ∨ (tile.q.getD q) ≠ q) then
          (t.setMat n { g with fmtc := min 255 (g.fmtc + 1) }).matEnd n
        else if bad ≠ [] ∧ e.pol then (t.wordEvent e.part core true).deferMat n e .poison (bad.headD 0)
        else
          let words := (bad.map (· / 8)).eraseDups
          let t1 := (words.foldl (fun u _ => u.wordEvent e.part core false) t).modCtx e.ctx fun c => c.poisoned words.length
          let tile1 : MTile := if tile.mode = .float then tile else { tile with q := some q }
          let tile2 := mulTile tile.mode q tile1 mm krec
            (fun m i => unitValues fa rawa (t.unitAt core (offA m i) sa))
            (fun c i => unitValues fb rawb (t.unitAt core (offB c i) sb))
          (t1.setMat n { g with tiles := tput g.tiles tl tile2 }).matEnd n)
    | _ => none)

/-- A destination format that a tile's MODE admits (R246). -/
def drainOk (mode : TMode) (f : Fmt) : Bool :=
  match mode, f with
  | .float, .a56 | .float, .fp32 | .float, .bf16 | .float, .fp16 => true
  | .wrap, .i64s | .wrap, .i32s | .sat, .i64s | .sat, .i32s => true
  | _, _ => false

/-- A cell as a drained element (R246). -/
def drainCell (mode : TMode) (f : Fmt) (rm : Rm) (sat ftz : Bool) (c : BitVec 56) : Nat :=
  match mode with
  | .float => convert .a56 f rm sat ftz c.toNat
  | _ =>
    let w := fmtWidth f
    let v : Int := if sat ∧ w = 32 then max (-(2 ^ 31 : Nat)) (min ((2 ^ 31 - 1 : Nat) : Int) c.toInt) else c.toInt
    (v % (2 ^ w : Nat)).toNat

/-- The number under which the writes of a matrix engine wait for headroom. -/
def matWaitId (n : Nat) : Nat := 2 ^ 42 + n

/-- A drained row (R246). -/
def State.drnRow (s : State) (n : Nat) (e : MatEnt) (tl : Nat) (g : Bool) (dest dstr m0 : Nat) (f : Fmt) (clr : Bool) (rm : Rm)
    (sat ftz : Bool) (i : Nat) : RowRes :=
  let tile := tget {} (s.mat n).tiles tl
  let row := (List.range 128).map fun c => tile.cell (m0 + i) c
  let bs := row.flatMap fun c => leBytes (outBytes f) (drainCell tile.mode f rm sat ftz c)
  let a := dest + i * dstr
  let clear (t : State) : State :=
    let left : MTile := { tile with cells := tile.cells.filter fun p => p.1 / 128 != m0 + i }
    if clr then t.setMat n { t.mat n with tiles := tput (t.mat n).tiles tl left } else t
  if g then
    match s.unitWrite e.ctx e.part e.asid .c (matWaitId n) bs (lineParts (a % 2 ^ 64) bs.length) with
    | .ok t => .done (clear t)
    | .fault c va => .fault c va s
    | .wait t => .wait (s.waited t)
  else if (s.core (64 + n)).splitting then .wait s
  else if !s.spadHas (64 + n) a bs.length then .fault .prot a s
  else .done (clear (s.spadWrite (64 + n) a bs))

/-- Event: the engine executes `mdrn`, or as many of its rows as come before a row boundary at which it stops
(R246, R385). -/
def execMdrnExecute (s : State) : Host.Outcome State Fault Refusal :=
  .next (s.matWork fun t n e =>
    match e.cmd with
    | .drn tl g dest dstr m0 mm fd clr rm sat ftz =>
      let tile := tget {} (t.mat n).tiles tl
      let bad := (t.setMat n { t.mat n with fmtc := min 255 ((t.mat n).fmtc + 1) }).matEnd n
      some (match fd with
        | none => bad
        | some f =>
          if !drainOk tile.mode f then bad
          else t.matRows n e (fun u i => u.drnRow n e tl g dest dstr m0 f clr rm sat ftz i) mm e.row
            (rowBudget mm e.row s.cur.ev.b))
    | _ => none)

/-- Event: the engine executes `mzero` (R246). -/
def execMzeroExecute (s : State) : Host.Outcome State Fault Refusal :=
  .next (s.matWork fun t n e =>
    match e.cmd with
    | .zero tl mode => some ((t.setMat n { t.mat n with tiles := tput (t.mat n).tiles tl { mode := mode } }).matEnd n)
    | _ => none)

end Sys2Proof.Machine
end

