-- ==== Sys2Proof/Machine/Sequence.lean ====
section
/-! DEFINITION. The sequence instructions, slot accesses, attention and the prefix table
(spec/21_sequences.md R268-R294, spec/22_sequences_notes.md R295-R297). -/

namespace Sys2Proof.Machine

/-! ## Handles -/

/-- A handle checked: aligned to 256 bytes and translated (R268). The answer is the one part at its control block. -/
def State.handle (s : State) (write : Bool) (va : Nat) : Reach :=
  if va % 256 ≠ 0 then .fault .align va
  else
    match s.translate s.cur.core s.cc.part s.cc.asid va write with
    | .fault c => .fault c va
    | .miss => .miss va
    | .ok pa _ _ => .ok [{ place := .mem, addr := pa, len := 256, off := 0, va := va }]

/-- The control block that a checked handle names. -/
def reachAddr : Reach → Nat
  | .ok (p :: _) => p.addr
  | _ => 0

/-- An operation on a sequence by its handle (R268, R272). -/
def seqOp (m : Mods) (d a : Reg) (regs : List Reg) (write : Bool) (s : State) (f : State → Nat → SliceOp) :
    Host.Outcome State Fault Refusal :=
  issue { mods := m, cls := onX, regs := d :: a :: regs } s fun t =>
    let r := t.handle write (t.rx a).toNat
    t.startOp m (f t (reachAddr r)) r .later

/-! ## Majors 20 and 21 -/

/-- `sqnew` (R273). -/
def execSqnew (m : Mods) (d a b : Reg) (bl : BitVec 5) (s : State) : Host.Outcome State Fault Refusal :=
  seqOp m d a [b] true s fun t h => .sqnew d h (t.rx b) bl.toNat

/-- `sqres` (R278). -/
def execSqres (m : Mods) (d a b : Reg) (s : State) : Host.Outcome State Fault Refusal :=
  seqOp m d a [b] false s fun t h => .sqres d h (t.rx b)

/-- `sqrest` (R288). -/
def execSqrest (m : Mods) (d a b : Reg) (s : State) : Host.Outcome State Fault Refusal :=
  seqOp m d a [b] false s fun t h => .sqrest d h (t.rx b)

/-- `sqcmt` (R279). -/
def execSqcmt (m : Mods) (d a b c : Reg) (s : State) : Host.Outcome State Fault Refusal :=
  seqOp m d a [b, c] false s fun t h => .sqcmt d h (t.rx b) (t.rx c)

/-- `sqacc` (R288). -/
def execSqacc (m : Mods) (d a b : Reg) (s : State) : Host.Outcome State Fault Refusal :=
  seqOp m d a [b] false s fun t h => .sqacc d h (t.rx b)

/-- `sqwd` (R288). -/
def execSqwd (m : Mods) (d a : Reg) (s : State) : Host.Outcome State Fault Refusal :=
  seqOp m d a [] false s fun _ h => .sqwd d h

/-- `sqfree` (R287). -/
def execSqfree (m : Mods) (d a : Reg) (s : State) : Host.Outcome State Fault Refusal :=
  seqOp m d a [] false s fun _ h => .sqfree d h

/-- `sqfork`: both handles are checked, and the graft's page needs W (R268, R285). -/
def execSqfork (m : Mods) (d a b : Reg) (s : State) : Host.Outcome State Fault Refusal :=
  issue { mods := m, cls := onX, regs := [d, a, b] } s fun t =>
    let va := (t.rx b).toNat
    let p := t.handle false (t.rx a).toNat
    let g := t.handle true va
    match p, g with
    | .ok l, .ok _ => t.startOp m (.sqfork d (reachAddr p) (reachAddr g) va) (.ok l) .later
    | .ok _, r => t.startOp m (.sqfork d 0 0 va) r .later
    | r, _ => t.startOp m (.sqfork d 0 0 va) r .later

/-- `sqlen` (R284). -/
def execSqlen (m : Mods) (d a : Reg) (s : State) : Host.Outcome State Fault Refusal :=
  seqOp m d a [] false s fun _ h => .sqlen d h

/-- `sqwait`: X waits until the length reaches the one it names, or its limit passes (R284). -/
def execSqwait (m : Mods) (d a b c : Reg) (s : State) : Host.Outcome State Fault Refusal :=
  issue { mods := m, cls := onX, regs := [d, a, b, c] } s fun t =>
    let r := t.handle false (t.rx a).toNat
    t.startOp m (.sqwait d (reachAddr r) (t.rx b) (t.rx c) t.clock) r fun u => .wait (.access t.cc.nextId) u

/-- `sqpin` (R287). -/
def execSqpin (m : Mods) (d a : Reg) (s : State) : Host.Outcome State Fault Refusal :=
  seqOp m d a [] false s fun _ h => .sqpin d h

/-- `squnpin` (R287). -/
def execSqunpin (m : Mods) (d a : Reg) (s : State) : Host.Outcome State Fault Refusal :=
  seqOp m d a [] false s fun _ h => .squnpin d h

/-- The selector that a form of `sqext` names (R276). -/
def selNat : Sel3 → Nat
  | .k0 => 0 | .k1 => 1 | .k2 => 2

/-- `sqext` (R276). -/
def execSqext (m : Mods) (d a b : Reg) (k : Sel3) (s : State) : Host.Outcome State Fault Refusal :=
  seqOp m d a [b] false s fun t h => .sqext d h (selNat k) (t.rx b)

/-- Event: a waiting `sqwait` sees the length it awaits (R284). -/
def execSqwaitReturn (s : State) : Host.Outcome State Fault Refusal :=
  let v := s.cur.ev
  .next (s.returnOf (ctxKey v.core v.ctx) .x fun k => match k with | .op (.sqwait ..) => true | _ => false)

/-- Event: the limit of a `sqwait` passes: it returns TIMEOUT with the length as last read, unless the length has come or the
sequence is gone, which it then returns (R143, R271, R284). -/
def execSqwaitTimeout (s : State) : Host.Outcome State Fault Refusal :=
  let k := ctxKey s.cur.ev.core s.cur.ev.ctx
  .next (match ((s.ctx k).eng .x).wait with
    | .access id =>
      (match (s.ctx k).access id with
       | some a =>
         (match a.kind with
          | .op (.sqwait d h n limit since) =>
            if limit = 0 ∨ s.clock < since + limit.toNat then s
            else if !(s.seq h).live || decide (n.toNat ≤ (s.seq h).len) then s.performAll k id
            else (((s.acquireAt k .device).writeReg k .x d (resultQuad 5 (s.seq h).len)).finishAccess k id .x)
          | _ => s)
       | none => s)
    | _ => s)

/-- Event: the length of a sequence advances past its committed slots, once no attention in flight defers it (R279,
R280). -/
def execLenAdvance (s : State) : Host.Outcome State Fault Refusal :=
  let pa := s.cur.ev.a
  .next (if (s.seq pa).live then s.tryAdvance pa else s)

/-! ## Slot accesses -/

/-- A slot read by `ldq` or `vldq`, `n` bytes of channels from `ch` on: it performs at the home slice of the slot's line
(R127, R283), which is that of its page in the main array, and where a vector spans two lines the first (DESIGN CHOICE, log 137). -/
def State.startSlotLoad (s : State) (m : Mods) (a b : Reg) (ch n : Nat) (f : Nat → AccKind) : Res :=
  let r := s.handle false (s.rx a).toNat
  let h := reachAddr r
  s.begin true false r (held := false) fun ps =>
    .later (s.enter (s.access m true false (f h) (ps.map fun p => { p with addr := s.fillAddr h (s.rx b).toNat ch, len := n }) []))

/-- `ldq` (R283). -/
def execLdq (m : Mods) (d a b c : Reg) (ch : BitVec 14) (s : State) : Host.Outcome State Fault Refusal :=
  issue { mods := m, cls := onL, regs := [d, a, b, c] } s fun t =>
    t.startSlotLoad m a b ch.toNat 2 fun h => .qload d c h (t.rx b).toNat ch.toNat none

/-- `vldq`: its entry of the `fd` queue is reserved at issue (R283). -/
def execVldq (m : Mods) (q : BitVec 2) (a b c : Reg) (ch : BitVec 14) (s : State) : Host.Outcome State Fault Refusal :=
  issue { mods := m, cls := onL, dsts := [.fd q.toNat], regs := [a, b, c] } s fun t =>
    match t.startSlotLoad m a b ch.toNat 128 fun h => .qload 0 c h (t.rx b).toNat ch.toNat (some q.toNat) with
    | .later u => .later (u.modMe fun x => x.reserveFd q.toNat x.nextId)
    | r => r

/-- A slot filled by `stq` or `vstq` (R279). -/
def State.startFill (s : State) (m : Mods) (a b : Reg) (ch : Nat) (data : List Byte) : Res :=
  let r := s.handle false (s.rx a).toNat
  let h := reachAddr r
  let i := (s.rx b).toNat
  s.begin false true r (held := false) fun ps =>
    .later (s.enter (s.access m false true (.qfill h i ch) (ps.map fun p => { p with addr := s.fillAddr h i ch, len := data.length })
      data))

/-- `stq` (R279). -/
def execStq (m : Mods) (d a b : Reg) (ch : BitVec 14) (s : State) : Host.Outcome State Fault Refusal :=
  issue { mods := m, cls := onS, regs := [d, a, b] } s fun t => t.startFill m a b ch.toNat (leBytes 2 (t.rx d).toNat)

/-- `vstq` pops its entry of the `dn` queue at issue (R279). -/
def execVstq (m : Mods) (q : BitVec 2) (a b : Reg) (ch : BitVec 14) (s : State) : Host.Outcome State Fault Refusal :=
  issue { mods := m, cls := onS, srcs := [.dn q.toNat], regs := [a, b] } s fun t =>
    t.startFill m a b ch.toNat (vBytes (t.cc.peekDn q.toNat))

/-! ## Attention -/

/-- A read of the scratchpad at issue, and what follows; a stall in what follows leaves everything as it
was but the request for a translation. -/
def readThen (s : State) (a n : Nat) (f : State → List Byte → Res) : Res :=
  match s.readLocal a n with
  | .error (.stall w _) => .stall w s
  | .error r => r
  | .ok (t, bs) =>
    match f t bs with
    | .stall w u => .stall w (s.waited u)
    | r => r

/-- `sqattn`: descriptor and query are read at issue (R289). -/
def execSqattn (m : Mods) (a b : Reg) (ten : BitVec 1) (tag : BitVec 6) (s : State) : Host.Outcome State Fault Refusal :=
  issue { mods := m, cls := onX, regs := [a, b] } s fun t =>
    let va := (t.rx a).toNat
    let off := (t.rx b).toNat
    if va % 256 ≠ 0 then .trap .align va 0 t
    else if off % 64 ≠ 0 then .trap .align off 0 t
    else if !t.cc.roomFor true true then .stall .memq t
    else
      readThen t off 64 fun u desc =>
        let x := attnDesc desc
        if x.qaddr % 4 ≠ 0 then .trap .align x.qaddr 0 u
        else if x.dest % 16 ≠ 0 then .trap .align x.dest 0 u
        else
          readThen u x.qaddr (4 * x.d) fun w query =>
            let r := w.handle false va
            w.startOp m (.sqattn (reachAddr r) desc query (ten == 1#1) tag.toNat) r .later

/-- An attention leaves the sequence unit, and what it deferred may go on (R291). -/
def State.endAttn (s : State) (n : Nat) (e : Attn) : State :=
  let s1 : State := { s with attns := s.attns.eraseIdx n }
  if e.live then s1.putSeq e.scb { s1.seq e.scb with attn := (s1.seq e.scb).attn - 1 } else s1

/-- The context of an attention still runs the task that issued it. -/
def State.attnMine (s : State) (e : Attn) : Bool := (s.ctx e.ctx).st != .idle && (s.ctx e.ctx).taskid == e.taskid

/-- The poison that an attention meets reported under its policy (R125, R291). -/
def State.attnReport (s : State) (e : Attn) (bad : List Nat) : State :=
  let part := (s.ctx e.ctx).part
  if bad = [] then s
  else
    let s1 := s.poisonEvents part e.pol (bad.map (128 * ·))
    if !s.attnMine e then s1
    else if e.pol then
      let tag := if e.ten then some e.tag else none
      let d : Deferred := { ctx := e.ctx, taskid := e.taskid, unit := .attn tag, code := .poison,
                            addr := 128 * bad.headD 0, info := 0, tag := tag }
      s1.addDefer d
    else s1.modCtx e.ctx fun c => c.poisoned bad.length

/-- Event: the slices and the reply network finish an attention: its result is written, and then its tag is set (R290,
R291). -/
def execSqattnExecute (s : State) : Host.Outcome State Fault Refusal :=
  let n := s.cur.ev.a
  .next (match s.attns[n]? with
    | some e =>
      if (s.core e.core).splitting then s
      else
        let a := attnDesc e.desc
        let q := { s.seq e.scb with len := e.len }
        let query := (List.range a.d).map fun i => leNat ((e.query.drop (4 * i)).take 4)
        let bad := if e.live then s.attnPoison q a else []
        let bs := s.attnResult q a query e.status (e.pol && bad != [])
        let tag := if e.ten then some e.tag else none
        let s1 := s.attnReport e bad
        let s2 :=
          if s.spadHas e.core a.dest bs.length then s1.spadWrite e.core a.dest bs
          else if s.attnMine e then
            s1.addDefer { ctx := e.ctx, taskid := e.taskid, unit := .attn tag, code := .prot, addr := a.dest, info := 0, tag := tag }
          else s1
        let s3 := match tag with
          | some g => s2.setTag e.core g
          | none => s2
        s3.endAttn n e
    | none => s)

/-! ## The prefix table -/

/-- An operation of X on its partition's prefix table: it is performed at issue, in one order at the hub (R292). -/
def pfxOp (m : Mods) (d : Reg) (regs : List Reg) (s : State) (f : State → Res) : Host.Outcome State Fault Refusal :=
  issue { mods := m, cls := onX, regs := d :: regs } s f

/-- The answer of a prefix operation. -/
def State.pfxDone (s : State) (d : Reg) (status value : Nat) : Res := .ok (s.wx d (resultQuad status value))

/-- `pfxh` (R293). -/
def execPfxh (m : Mods) (d a b : Reg) (s : State) : Host.Outcome State Fault Refusal :=
  pfxOp m d [a, b] s fun t =>
    let off := (t.rx b).toNat
    if off % 4 ≠ 0 then .trap .align off 0 t
    else
      readThen t off 64 fun u toks =>
        let h := sha256 (leBytes 32 u.cr.salt.toNat ++ leBytes 8 (u.rx a).toNat ++ toks)
        .ok (u.wx d (quadN (leNat (h.take 8))))

/-- The index of the entry of a table with a hash and a depth. -/
def pfxFind (t : Tab PfxEnt) (h : Quad) (depth : Nat) : Option (Nat × PfxEnt) := t.find? fun p => p.2.hash == h && p.2.depth == depth

/-- The match of greatest depth among chain hashes, the first of depth `n` down (R293). -/
def pfxMatch (t : Tab PfxEnt) (hs : List Quad) : Nat → Option (Nat × PfxEnt)
  | 0 => none
  | n + 1 =>
    match pfxFind t (hs.getD n 0) (n + 1) with
    | some p => some p
    | none => pfxMatch t hs n

/-- An entry made the most recent one: the recency order runs from the least recent. -/
def recent (l : List Nat) (i : Nat) : List Nat := l.filter (· != i) ++ [i]

/-- `pfxl` (R293, R297). -/
def execPfxl (m : Mods) (d a b : Reg) (s : State) : Host.Outcome State Fault Refusal :=
  pfxOp m d [a, b] s fun t =>
    let off := (t.rx a).toNat
    let n := (t.rx b).toNat
    if off % 8 ≠ 0 then .trap .align off 0 t
    else if n = 0 ∨ 64 < n then t.pfxDone d 8 0
    else
      readThen t off (8 * n) fun u bs =>
        let hs := (List.range n).map fun i => quadN (leNat ((bs.drop (8 * i)).take 8))
        match pfxMatch (u.partn u.cc.part).prefixes hs n with
        | none => u.pfxDone d 0 0
        | some (i, e) =>
          if e.pins = 65535 then u.pfxDone d 2 0
          else
            (u.modPart u.cc.part fun p =>
              { p with prefixes := tput p.prefixes i { e with pins := e.pins + 1 }, recency := recent p.recency i }).pfxDone d 0
              (i * 256 + e.depth)

/-- The entry that a quad names; none above 63 or where it is empty (R293). -/
def State.pfxEntry (s : State) (i : Quad) : Option PfxEnt :=
  if 63 < i.toNat then none else tfind (s.partn s.cc.part).prefixes i.toNat

/-- `pfxl.h` (R293). -/
def execPfxlH (m : Mods) (d a : Reg) (s : State) : Host.Outcome State Fault Refusal :=
  pfxOp m d [a] s fun t =>
    match t.pfxEntry (t.rx a) with
    | some e => t.pfxDone d 0 e.handle
    | none => t.pfxDone d 8 0

/-- `pfxl.s` (R293). -/
def execPfxlS (m : Mods) (d a : Reg) (s : State) : Host.Outcome State Fault Refusal :=
  pfxOp m d [a] s fun t =>
    match t.pfxEntry (t.rx a) with
    | some e => t.pfxDone d 0 (e.depth * 2 ^ 40 + e.base)
    | none => t.pfxDone d 8 0

/-- A sequence's pin count lowered by one for an entry that leaves the table (R294). -/
def State.unpinSeq (s : State) (pa : Nat) : State :=
  let q := s.seq pa
  if q.live then s.setSeq pa { q with pin := q.pin - 1 } else s

/-- An operation that changes the pins of some sequences, and so their control blocks: it has the headroom of their lines
first, and stalls until it has (R301, R303). -/
def State.pinning (s : State) (part : Nat) (l : List Nat) (f : State → Res) : Res :=
  match l with
  | [] => f s
  | pa :: r =>
    let id := 2 ^ 42 + r.length
    if !(s.seq pa).live then s.pinning part r f
    else
      match s.reserveScb s.me id part pa (s.seq pa).va with
      | .error w => .stall .space w
      | .ok t =>
        match t.pinning part r f with
        | .stall w u => .stall w (s.waited u)
        | x => x

/-- The entry that an insertion takes: the lowest empty one, or the least recent one that nothing pins (R294). -/
def pfxPlace (p : Partition) : Option Nat :=
  match (List.range 64).find? fun i => (tfind p.prefixes i).isNone with
  | some i => some i
  | none => p.recency.find? fun i => match tfind p.prefixes i with | some e => e.pins == 0 | none => false

/-- `pfxi` (R294). -/
def execPfxi (m : Mods) (d a b c : Reg) (s : State) : Host.Outcome State Fault Refusal :=
  pfxOp m d [a, b, c] s fun t =>
    let va := (t.rx b).toNat
    match t.handle false va with
    | .fault f x => .trap f x 0 t
    | .miss x => t.missStall x
    | .ok l =>
      let pa := reachAddr (.ok l)
      let part := t.cc.part
      let depth := bits (t.rx c).toNat 47 40
      let q := t.seq pa
      let tab := (t.partn part).prefixes
      if depth = 0 ∨ 64 < depth then t.pfxDone d 8 0
      else if !q.live then t.pfxDone d 7 0
      else
        match pfxFind tab (t.rx a) depth with
        | some p => t.pfxDone d 10 p.1
        | none =>
          if q.pin = 65535 then t.pfxDone d 2 0
          else
            match pfxPlace (t.partn part) with
            | none => t.pfxDone d 2 0
            | some i =>
              t.pinning part (((tfind tab i).map (·.scb)).toList ++ [pa]) fun u =>
                let t1 := match tfind tab i with | some e => u.unpinSeq e.scb | none => u
                let t2 := t1.pinSeq pa
                let e : PfxEnt := { hash := t.rx a, depth := depth, handle := va, scb := pa,
                                    base := bits (t.rx c).toNat 39 0, pins := 0 }
                (t2.modPart part fun p => { p with prefixes := tput p.prefixes i e, recency := recent p.recency i }).pfxDone d 0 i

/-- `pfxd` (R294). -/
def execPfxd (m : Mods) (d a : Reg) (s : State) : Host.Outcome State Fault Refusal :=
  pfxOp m d [a] s fun t =>
    let i := (t.rx a).toNat
    match t.pfxEntry (t.rx a) with
    | none => t.pfxDone d 8 0
    | some e =>
      if 0 < e.pins then t.pfxDone d 2 0
      else
        t.pinning t.cc.part [e.scb] fun u =>
          ((u.unpinSeq e.scb).modPart t.cc.part fun p =>
            { p with prefixes := tdel p.prefixes i, recency := p.recency.filter (· != i) }).pfxDone d 0 i

/-- `pfxd.u` (R294). -/
def execPfxdU (m : Mods) (d a : Reg) (s : State) : Host.Outcome State Fault Refusal :=
  pfxOp m d [a] s fun t =>
    let i := (t.rx a).toNat
    match t.pfxEntry (t.rx a) with
    | none => t.pfxDone d 8 0
    | some e =>
      if e.pins = 0 then t.pfxDone d 8 0
      else
        (t.modPart t.cc.part fun p => { p with prefixes := tput p.prefixes i { e with pins := e.pins - 1 } }).pfxDone d 0 (e.pins - 1)

end Sys2Proof.Machine
end

