-- ==== Sys2Proof/Machine/Transfer.lean ====
section
/-! DEFINITION. The transfer and column-reduce commands of L and S, and the events in which the transfer engines and
the column controllers perform them (spec/19_transfer.md R249-R265, spec/29_rings_host.md R358, R363, R364). -/

namespace Sys2Proof.Machine

/-! ## Descriptors -/

/-- The space that a two-bit field names (R253). -/
def xspaceOf (n : Nat) : XSpace := if n = 0 then .l else if n = 1 then .p else if n = 2 then .g else .sys

/-- The rounding mode that a three-bit field names; none for a reserved value (R56, R253). -/
def rmOfField (n : Nat) (ctl : Rm) : Option Rm :=
  if n = 0 then some .rne else if n = 1 then some .rtz else if n = 2 then some .rdn
  else if n = 3 then some .rup else if n = 4 then some .rna else if n = 7 then some ctl else none

/-- The dimension entry that 256 bits hold (R254). -/
def dimOf (v : Nat) : Dim :=
  { sstr := signed 56 (bits v 255 200), dstr := signed 56 (bits v 199 144), cnt := bits v 143 120, win := bits v 119 96,
    off := signed 16 (bits v 95 80), samp := bits v 79 72 }

/-- A format that a transfer element may have: of 8, 16, 32 or 64 bits (R253). -/
def fmtIsElement (f : Fmt) : Bool := fmtIsVector f && decide (8 ≤ fmtWidth f)

/-- A format that a transfer adds in (R257). -/
def fmtAdds : Fmt → Bool
  | .i8s | .i16s | .i32s | .i64s | .fp16 | .bf16 | .fp32 | .a56 => true
  | _ => false

/-- A conversion between two formats has a rule: into a floating format, out of one, or between integers (R92, R93). -/
def fmtConverts (sf tf : Fmt) : Bool := fmtIsFloat tf || fmtIsFloat sf || (!fmtIsHalf sf && !fmtIsHalf tf)

/-- The command takes the coordinate of dimension 1 from an index list (R257). -/
def XKind.indexed : XKind → Bool
  | .gath | .scat | .scadd => true
  | _ => false

/-- The fields of a used dimension within their ranges (R254); a fill ignores those of the source window (R258). The
reserved bits are ignored, as those of every descriptor (R10). -/
def dimOk (k : XKind) (d v : Nat) : Bool :=
  let e := dimOf v
  e.cnt != 0 && (k == .fill || (e.samp != 0 && (decide (d < 3) || e.samp == 1)))

/-- An unused dimension is wholly zero, except that its count may read 1 (R253); so are its reserved bits, which R10 has the device
ignore elsewhere (DESIGN CHOICE, log 134). -/
def dimUnused (v : Nat) : Bool := v == 0 || v == 2 ^ 120

/-- The copy descriptor that 256 bytes hold (R253, R254, R257); none where a field breaks its range. -/
def xferOf (k : XKind) (ren : Bool) (ctl : Rm) (v : Nat) : Option Xfer :=
  let h := v % 2 ^ 256
  let nd := bits h 31 29
  let dv (d : Nat) : Nat := v / 2 ^ (256 + 256 * d) % 2 ^ 256
  let fmtAt (hi lo : Nat) : Option Fmt := (fmtOfCode (BitVec.ofNat 6 (bits h hi lo))).filter fmtIsElement
  let sf := if k = .fill then some Fmt.i8n else fmtAt 47 42
  match sf, fmtAt 41 36, rmOfField (bits h 24 22) ctl with
  | some s, some t, some rm =>
    let add := k == .scadd || (k == .ring && h.testBit 0)
    if nd = 0 ∨ (k.indexed ∧ nd < 2) ∨ (add ∧ !(fmtAdds t && fmtConverts s t)) ∨ (ren ∧ bits h 127 96 % 16 ≠ 0) ∨
        (k.indexed ∧ bits h 95 64 % 4 ≠ 0) then none
    else if !(List.range nd).all (fun d => dimOk k d (dv d)) || !(List.range (7 - nd)).all (fun d => dimUnused (dv (nd + d)))
    then none
    else some { kind := k, sspc := xspaceOf (bits h 35 34), dspc := xspaceOf (bits h 33 32), sbase := bits h 255 192,
                dbase := bits h 191 128, ringcb := bits h 127 96, idx := bits h 95 64, key := bits h 63 48, sf := s, tf := t,
                evm := bits h 28 25, rm := rm, sat := h.testBit 21, ftz := h.testBit 20, drole := bits h 19 16, radd := add,
                dims := (List.range nd).map fun d => dimOf (dv d) }
  | _, _, _ => none

/-- The column-reduce descriptor that a 64-byte header and its indices hold (R259); none where a field breaks its
range. -/
def creqOf (ren : Bool) (h : Nat) (idx : List Byte) : Option Xfer :=
  let dim := bits h 319 308 + 1
  let n := bits h 293 289 + 1
  let sf := fmtOfCode (BitVec.ofNat 6 (bits h 307 302))
  let df := fmtOfCode (BitVec.ofNat 6 (bits h 301 296))
  let rstr := bits h 383 352
  let nrows := bits h 351 320
  match sf, df with
  | some s, some d =>
    if (s ≠ .fp16 ∧ s ≠ .bf16) ∨ (d ≠ .fp32 ∧ d ≠ .fp16 ∧ d ≠ .bf16) then none
    else if bits h 295 294 = 3 ∨ bits h 511 448 % 2 ≠ 0 ∨ bits h 447 384 % elemBytes d ≠ 0 ∨
        rstr < 2 * dim ∨ rstr % 2 ≠ 0 ∨ nrows = 0 ∨ nrows = 2 ^ 32 - 1 ∨ (ren ∧ bits h 31 0 % 16 ≠ 0) then none
    else some { kind := .creq, sbase := bits h 511 448, dbase := bits h 447 384, rstr := rstr, nrows := nrows, dim := dim,
                sf := s, tf := d, dspc := xspaceOf (bits h 295 294), ringcb := bits h 31 0,
                rows := (List.range n).map fun i => leNat ((idx.drop (4 * i)).take 4) }
  | _, _ => none

/-! ## The elements of a copy -/

/-- The positions of element `u`, i0 innermost (R255). -/
def elemPos : List Dim → Nat → List Nat
  | [], _ => []
  | d :: r, u => u % max 1 d.cnt :: elemPos r (u / max 1 d.cnt)

/-- What one element does: nothing, or a write at a destination of a zero that a gather fills in, of padding, of the
pattern of a fill, or of a source element (R255, R257, R258). -/
inductive Elem where
  | skip
  | zero (dst : Nat)
  | pad (dst : Nat)
  | fill (dst : Nat)
  | copy (dst src : Nat)
  deriving DecidableEq, Repr

/-- The source coordinate of a dimension, and whether it lies outside the window (R255). -/
def Dim.coord (d : Dim) (i : Nat) : Int × Bool :=
  let c := d.off + (i * d.samp : Nat)
  (c, decide (c < 0) || decide ((d.win : Int) ≤ c))

/-- The sum of the terms of a base, wrapped to 64 bits (R255). -/
def baseSum (b : Nat) (l : List Int) : Nat := wrap64 (l.foldl (· + ·) (b : Int))

/-- What element `u` does, given the index of its position in dimension 1, and whether that index is out of range
(R255, R257). -/
def Xfer.elem (x : Xfer) (u k : Nat) : Elem × Bool :=
  let l := (x.dims.zip (elemPos x.dims u)).zipIdx
  let src1 (d : Dim) (i n : Nat) : Int × Bool :=
    if n = 1 ∧ x.kind = .gath then (k, false) else if n = 1 ∧ x.kind.indexed then (i, false) else d.coord i
  let dst1 (i n : Nat) : Nat := if n = 1 ∧ (x.kind = .scat ∨ x.kind = .scadd) then k else i
  let dst := baseSum x.dbase (l.map fun p => (dst1 p.1.2 p.2 : Int) * p.1.1.dstr)
  let src := baseSum x.sbase (l.map fun p => (src1 p.1.1 p.1.2 p.2).1 * p.1.1.sstr)
  let pad := l.any fun p => (src1 p.1.1 p.1.2 p.2).2
  let win1 := (x.dims.getD 1 { sstr := 0, dstr := 0, cnt := 1, win := 0, off := 0, samp := 1 }).win
  if x.kind = .fill then (.fill dst, false)
  else if x.kind.indexed ∧ k = 0xFFFFFFFF then (.skip, false)
  else if x.kind.indexed ∧ win1 ≤ k then (if x.kind = .gath then .zero dst else .skip, true)
  else if pad then (.pad dst, false)
  else (.copy dst src, false)

/-! ## System-scope sides -/

/-- The entry of the outbound target table that a key names; none for an empty one (R363). -/
def State.outWindow (s : State) (part key : Nat) : Option Window :=
  if 1024 ≤ key then none
  else (tfind (s.partn part).outbound key).filter fun w => w.len != 0

/-- The lowest and the highest of the products of a range of integers and a stride. -/
def spanOf (lo hi st : Int) : Int × Int := (min (lo * st) (hi * st), max (lo * st) (hi * st))

/-- The source coordinates of a dimension that lie in its window, the lowest and the highest; none where every position
is padding (R255). -/
def Dim.inWindow (d : Dim) : Option (Int × Int) :=
  let ok := (fun (i : Int) => d.off + i * d.samp)
  let s : Int := max 1 d.samp
  let first := if 0 ≤ d.off then 0 else (-d.off + s - 1) / s
  let last := min ((d.cnt : Int) - 1) (((d.win : Int) - 1 - d.off) / s)
  if first ≤ last ∧ ok last < d.win ∧ 0 ≤ ok first then some (ok first, ok last) else none

/-- The sum of spans from a base. -/
def spanSum (b : Nat) (l : List (Int × Int)) : Int × Int := l.foldl (fun a p => (a.1 + p.1, a.2 + p.2)) ((b : Int), (b : Int))

/-- The bytes that the system-scope side of a command reaches, from its base: the lowest and the one after the highest;
none where it reaches none (R364). -/
def Xfer.sysRange (x : Xfer) (src : Bool) : Option (Int × Int) :=
  let l := x.dims.zipIdx
  if src then
    let part (p : Dim × Nat) : Option (Int × Int) :=
      let c := if p.2 = 1 ∧ x.kind = .gath then (if p.1.win = 0 then none else some (0, (p.1.win : Int) - 1))
               else if p.2 = 1 ∧ x.kind.indexed then some (0, (p.1.cnt : Int) - 1) else p.1.inWindow
      c.map fun q => spanOf q.1 q.2 p.1.sstr
    if (l.map part).any Option.isNone then none
    else
      let r := spanSum x.sbase (l.filterMap part)
      some (r.1, r.2 + elemBytes x.sf)
  else
    let part (p : Dim × Nat) : Int × Int :=
      let hi : Int := if p.2 = 1 ∧ (x.kind = .scat ∨ x.kind = .scadd) then (p.1.win : Int) - 1 else (p.1.cnt : Int) - 1
      spanOf 0 (max 0 hi) p.1.dstr
    let r := spanSum x.dbase (l.map part)
    some (r.1, r.2 + elemBytes x.tf)

/-- The check of a system-scope side at issue, its addresses wrapped to 64 bits (R255, R364). -/
def State.sysCheck (s : State) (part : Nat) (x : Xfer) : Option Code :=
  let src := x.kind != .fill && x.sspc == .sys
  let dst := x.dspc == .sys
  if !src && !dst then none
  else if src && dst then some .qfault
  else
    match s.outWindow part x.key with
    | none => some .qfault
    | some w =>
      if (src && !w.r) || (dst && !w.w) then some .prot
      else
        match x.sysRange src with
        | none => none
        | some (lo, hi) => if (w.len : Int) < lo % (2 ^ 64 : Nat) + (hi - lo) then some .prot else none

/-! ## Issue -/

/-- The unit name of the deferred faults of a queue (R261). -/
def queueUnit (e : Eng) : DUnit := if e = .l then .xl else .xs

/-- The bed of the transfer engine that serves a core (R249). -/
def engineBed (core : Nat) : Nat := routeOf core / 8

/-- The checks of a command at issue that need the region and the scratchpad (R252, R259, R358, R364): the fault, or the
command with what the region gives it. -/
def State.xferCheck (s : State) (x : Xfer) (ren : Bool) : Except Code Xfer :=
  let core := s.cur.core
  let g := match s.myGroup with | some (g, _) => s.cr.trellis.getD g {} | none => {}
  if ren ∧ !s.spadHas core x.ringcb 16 then .error .prot
  else
    match x.kind with
    | .creq =>
      let base := match s.myGroup with | some (n, _) => (s.cr.groups.getD n {}).wbase | none => 0
      let last := x.sbase + (x.nrows - 1) * x.rstr + 2 * x.dim - 1
      let role := (x.sbase - base) / 2 ^ 30
      if x.sbase < base ∨ (last - base) / 2 ^ 30 ≠ role ∨ g.column.length ≤ role then .error .prot
      else .ok { x with col := g.column.getD role 0 }
    | k =>
      if k.indexed ∧ !s.spadHas core x.idx (4 * (x.dims.getD 1 { sstr := 0, dstr := 0, cnt := 0, win := 0, off := 0, samp := 1 }).cnt)
      then .error .prot
      else if k = .ring then
        match g.bed[x.drole]? with
        | none => .error .qfault
        | some b =>
          if s.ring4 ∧ b / 4 ≠ engineBed core / 4 then .error .prot
          else
            match s.sysCheck s.cc.part x with
            | some c => .error c
            | none => .ok { x with col := b }
      else
        match s.sysCheck s.cc.part x with
        | some c => .error c
        | none => .ok x

/-- The address of the barrier that a command names, checked at issue; none where it names none (R252). -/
def State.barrierOf (s : State) (b : Reg) : Except Res (Option Nat) :=
  if b = 0 then .ok none
  else
    match s.checked .g true 16 (s.rx b).toNat 16 with
    | .ok (p :: _) => .ok (some p.addr)
    | .ok [] => .ok none
    | .fault c a => .error (.trap c a 0 s)
    | .miss va => .error (s.missStall va)

/-- A command whose descriptor has been read enters its memory queue (R249, R252). -/
def State.enterXfer (s : State) (m : Mods) (b : Reg) (a : Nat) (ren ten : Bool) (tag : Nat) (x : Option Xfer) : Res :=
  match x with
  | none => .trap .qfault a 0 s
  | some x0 =>
    match s.xferCheck x0 ren with
    | .error c => .trap c a 0 s
    | .ok x1 =>
      match s.barrierOf b with
      | .error r => r
      | .ok bar =>
        let l := s.cur.eng == .l
        let x2 : Xfer := { x1 with ren := ren, ten := ten, tag := tag, bar := bar, pol := s.cc.pol,
                                   barVa := (s.rx b).toNat,
                                   seq := (if l then s.cc.seqL else s.cc.seqS) % 2 ^ 32 }
        let t := s.enter (s.access m l (!l) (.xfer x2) [] [])
        .ok (t.modMe fun c => if l then { c with seqL := c.seqL + 1 } else { c with seqS := c.seqS + 1 })

/-- A read of the scratchpad at issue, whose stall leaves everything as it was but the request for a
translation. -/
def readOr (s : State) (r : Except Res (State × List Byte)) (f : State → List Byte → Res) : Res :=
  match r with
  | .error (.stall w _) => .stall w s
  | .error e => e
  | .ok (t, bs) =>
    match f t bs with
    | .stall w u => .stall w { s with miss := u.miss }
    | e => e

/-- A transfer or column-reduce command at issue (R251, R252, R261). -/
def xferCmd (k : XKind) (m : Mods) (a b : Reg) (ren ten : BitVec 1) (tag : BitVec 6) (s : State) :
    Host.Outcome State Fault Refusal :=
  issue { mods := m, cls := onLS, regs := [a, b] } s fun t =>
    let e := t.cur.eng
    let va := (t.rx a).toNat
    let rec_ := ren == 1#1
    match t.deferred t.me (fun u => u == queueUnit e) with
    | some d => .stay (t.raiseDeferred t.me d)
    | none =>
      if !t.cc.roomFor (e == .l) (e != .l) then .stall .memq t
      else if va % 64 ≠ 0 then .trap .qfault va 0 t
      else if k = .creq then
        readOr t (t.readLocal va 64) fun u h =>
          readOr u (u.readLocal (va + 64) (4 * (bits (leNat h) 293 289 + 1))) fun w l =>
            w.enterXfer m b va rec_ (ten == 1#1) tag.toNat (creqOf rec_ (leNat h) l)
      else
        readOr t (t.readLocal va 256) fun u h =>
          u.enterXfer m b va rec_ (ten == 1#1) tag.toNat (xferOf k rec_ (rmOfRound u.cc.round) (leNat h))

/-- `xcopy` (R251, R255). -/
def execXcopy (m : Mods) (a b : Reg) (ren ten : BitVec 1) (tag : BitVec 6) (s : State) : Host.Outcome State Fault Refusal :=
  xferCmd .copy m a b ren ten tag s

/-- `xgath` (R251, R257). -/
def execXgath (m : Mods) (a b : Reg) (ren ten : BitVec 1) (tag : BitVec 6) (s : State) : Host.Outcome State Fault Refusal :=
  xferCmd .gath m a b ren ten tag s

/-- `xscat` (R251, R257). -/
def execXscat (m : Mods) (a b : Reg) (ren ten : BitVec 1) (tag : BitVec 6) (s : State) : Host.Outcome State Fault Refusal :=
  xferCmd .scat m a b ren ten tag s

/-- `xscadd` (R251, R257). -/
def execXscadd (m : Mods) (a b : Reg) (ren ten : BitVec 1) (tag : BitVec 6) (s : State) : Host.Outcome State Fault Refusal :=
  xferCmd .scadd m a b ren ten tag s

/-- `xfill` (R251, R258). -/
def execXfill (m : Mods) (a b : Reg) (ren ten : BitVec 1) (tag : BitVec 6) (s : State) : Host.Outcome State Fault Refusal :=
  xferCmd .fill m a b ren ten tag s

/-- `xring` (R251, R258, R358). -/
def execXring (m : Mods) (a b : Reg) (ren ten : BitVec 1) (tag : BitVec 6) (s : State) : Host.Outcome State Fault Refusal :=
  xferCmd .ring m a b ren ten tag s

/-- `creq` (R251, R259). -/
def execCreq (m : Mods) (a b : Reg) (ren ten : BitVec 1) (tag : BitVec 6) (s : State) : Host.Outcome State Fault Refusal :=
  xferCmd .creq m a b ren ten tag s

/-! ## Reads and writes of a command -/

/-- What a read of a command gives: the machine after it, bytes and the lines of them delivered as zeros; a fault; or a
wait. -/
inductive XRead where
  | ok (s : State) (bs : List Byte) (zeros : List Nat)
  | fault (c : Code)
  | wait (s : State)

/-- The core and the offset that a P-space address names for a core of a context's region (R114). -/
def State.peerAt (s : State) (k a : Nat) : Option (Nat × Nat) :=
  let r := s.region (s.ctx k).regid
  let c := match coreGroups r (k / 4) with
    | (g, _) :: _ => ((r.trellis.getD g {}).core)[bits a 42 32]?
    | [] => none
  if bits a 63 43 ≠ 0 ∨ bits a 31 23 ≠ 0 then none else c.map fun n => (n, bits a 22 0)

/-- The mark under which a command counts an uncorrectable word of a scratchpad. -/
def wordMark (core w : Nat) : Nat := 2 ^ 60 + core * 2 ^ 32 + w

/-- Bytes of a space as a command reads them (R256, R261); the wire's bytes for the system side. -/
def State.xferRead (s : State) (k : Nat) (sp : XSpace) (wire : List Byte) (a n : Nat) : XRead :=
  let c := s.ctx k
  match sp with
  | .l =>
    if (s.core (k / 4)).splitting then .wait s
    else if !s.spadHas (k / 4) a n then .fault .prot
    else .ok s (s.spadClean (k / 4) a n) ((s.badWords (k / 4) a n).map (wordMark (k / 4)))
  | .p =>
    (match s.peerAt k a with
     | none => .fault .prot
     | some (p, o) =>
       if (s.core p).splitting then .wait s
       else if !s.spadHas p o n then .fault .prot
       else .ok s (s.peerRead k p o n) ((s.badWords p o n).map (wordMark p)))
  | .g =>
    (match s.unitRead k c.part c.asid (lineParts a n) with
     | .ok t bs bad => .ok t bs (bad.map (· / 128))
     | .fault f _ => .fault f
     | .wait t => .wait t)
  | .sys => if wire.length < n then .wait s else .ok s (wire.take n) []

/-- The record in the black box of a poisoned line or word that a command meets (R125). -/
def State.xferPoison (s : State) (k : Nat) (trapped : Bool) (mark : Nat) : State :=
  let part := (s.ctx k).part
  if 2 ^ 60 ≤ mark then s.wordEvent part ((mark - 2 ^ 60) / 2 ^ 32) trapped
  else s.poisonEvent part (128 * mark) trapped

/-- The queue pair of an outbound entry of a partition (R363). -/
def qpKey (part qp : Nat) : Nat := 256 * part + qp

/-- The machine with a queue pair changed. -/
def State.modQp (s : State) (q : Nat) (f : Qp → Qp) : State := { s with qps := tput s.qps q (f (tget {} s.qps q)) }

/-- What a write of a command gives: the machine with it, a fault, or a wait. -/
inductive XWrite where
  | ok (s : State)
  | fault (c : Code)
  | wait (s : State)

/-- Every line of a range lies in a bed: PROT where one does not, or a walk or another fault that comes first (R258). -/
def State.linesInBed (s : State) (k bed : Nat) : List (Nat × Nat × Nat) → XWrite
  | [] => .ok s
  | p :: l =>
    let c := s.ctx k
    let va := p.1 % 2 ^ 64
    match s.unitXlat k c.part c.asid va true with
    | .ok pa _ _ => if s.home pa / 8 = bed then s.linesInBed k bed l else .fault .prot
    | .miss => .wait (s.enterUnitMiss k c.part c.asid va)
    | .fault f => .fault f

/-- Bytes written by a copy command (R22, R258, R261, R364). A write that has to wait for one of its lines makes none
of them yet. -/
def State.xferWrite (s : State) (k id : Nat) (e : Eng) (x : Xfer) (a : Nat) (bs : List Byte) : XWrite :=
  let c := s.ctx k
  match x.dspc with
  | .l =>
    if (s.core (k / 4)).splitting then .wait s
    else if !s.spadHas (k / 4) a bs.length then .fault .prot
    else .ok (s.spadWrite (k / 4) a bs)
  | .p =>
    (match s.peerAt k a with
     | none => .fault .prot
     | some (p, o) =>
       if (s.core p).splitting then .wait s
       else if !s.spadHas p o bs.length then .fault .prot
       else if !(lineParts o bs.length).all (fun q => s.peerAllowed k p q.1) then .fault .vcap
       else .ok (s.peerWrite k p o bs))
  | .g =>
    (match (if x.kind = .ring then s.linesInBed k x.col (lineParts a bs.length) else .ok s) with
     | .ok _ =>
       (match s.unitWrite k c.part c.asid e id bs (lineParts a bs.length) with
        | .ok t => .ok t
        | .fault f _ => .fault f
        | .wait t => .wait (s.waited t))
     | r => r)
  | .sys =>
    (match s.outWindow c.part x.key with
     | none => .fault .prot
     | some w =>
       if (tget {} s.qps (qpKey c.part w.qp)).error then .fault .prot
       else .ok (s.send (.rdma c.part w.qp w.rkey (w.base + a) bs)))

/-! ## One element -/

/-- A command after its progress through an element: gone on, stopped by a fault, or waiting. -/
inductive XStep where
  | next (s : State) (x : Xfer)
  | fault (s : State) (x : Xfer) (c : Code) (a : Nat)
  | wait (s : State) (x : Xfer)

/-- Events of a conversion that the mask reports (R256). -/
def Xfer.report (x : Xfer) (u : Nat) (ev : Events) : Xfer :=
  let e := ev.mask &&& x.evm
  if e = 0 then x
  else { x with conv := true, evt := x.evt ||| e, first := some (x.first.getD (u % 2 ^ 32)) }

/-- The bytes of a source read with the destination bytes that the command has overwritten put back, as the choice of
the engine for overlapping elements has it (R255). -/
def Xfer.overlap (x : Xfer) (old : Bool) (a : Nat) (bs : List Byte) : List Byte :=
  if old && x.sspc == x.dspc then overlaid x.mem0 a bs else bs

/-- The bytes that a write replaces, kept for later elements of the command (R255). -/
def Xfer.keepOld (x : Xfer) (a : Nat) (bs : List Byte) : Xfer :=
  if x.sspc != x.dspc || x.kind == .fill then x
  else { x with mem0 := ((List.range bs.length).filter fun i => (tfind x.mem0 (a + i)).isNone).foldl
                  (fun l i => tput l (a + i) (bs.getD i 0)) x.mem0 }

/-- A delivery of poisoned lines to a command under POL = 0: each line counts once (R256, R265). -/
def State.xferZeros (s : State) (k : Nat) (x : Xfer) (z : List Nat) : State × Xfer :=
  let new := (z.filter fun m => !x.zeros.contains m).eraseDups
  if new = [] then (s, x)
  else (new.foldl (fun t m => t.xferPoison k false m) s,
        { x with zeros := x.zeros ++ new, poisc := x.poisc + new.length, pois := true })

/-- The value and events of an element that does not add: the source code, or none for padding (R255). -/
def Xfer.plain (x : Xfer) (code : Option Nat) : Nat × Events :=
  match code with
  | none => ((fmtRoundEv x.tf x.rm x.sat x.ftz (.zero false)).1, {})
  | some c => if x.sf = x.tf then (c, {}) else convertEv x.sf x.tf x.rm x.sat x.ftz c

/-- The value and events of an element that adds into its destination (R257): the sum is what is classed, and a non-zero
source that FTZ reads as zero counts where the sum is zero (R90, R94; log 103). -/
def Xfer.sum (x : Xfer) (old : Nat) (code : Option Nat) : Nat × Events :=
  let src (ftz : Bool) : XR := match code with | some c => fmtValue x.sf ftz c | none => .zero false
  let r := fmtRoundEv x.tf x.rm x.sat x.ftz ((fmtValue x.tf x.ftz old).add x.rm (src x.ftz))
  (r.1, if code.isSome then flushedSub (src false) (src x.ftz) (fmtValue x.tf false r.1) r.2 else {})

/-- A write of an element's bytes, and the count of them (R265). -/
def State.putElem (s : State) (k id : Nat) (e : Eng) (x : Xfer) (dst code : Nat) (old : List Byte) : XStep :=
  let bs := leBytes (elemBytes x.tf) code
  match s.xferWrite k id e x dst bs with
  | .fault c => .fault s x c dst
  | .wait t => .wait t x
  | .ok t => .next t { x.keepOld dst old with bytes := x.bytes + bs.length, acked := x.acked && x.dspc != .sys }

/-- The destination of a copy command has no meaning: that of an `xring` lies outside G space (R258), or a sum would be
read back from a target, to which elements are sent as RDMA writes alone (R257, R364; log 106). -/
def Xfer.noPlace (x : Xfer) : Bool := (x.kind == .ring && x.dspc != .g) || (x.radd && x.dspc == .sys)

/-- An element with its source code: it is converted or added, reported and written (R255-R257). -/
def State.moveElem (s : State) (k id : Nat) (e : Eng) (x : Xfer) (u dst : Nat) (code : Option Nat) : XStep :=
  let n := elemBytes x.tf
  if x.noPlace then .fault s x .prot dst
  else if x.radd ∨ x.sspc = x.dspc then
    match s.xferRead k x.dspc [] dst n with
    | .wait t => .wait t x
    | .fault c => .fault s x c dst
    | .ok t bs z =>
      if !x.radd then
        let r := x.plain code
        t.putElem k id e (x.report u r.2) dst r.1 bs
      else if z ≠ [] ∧ x.pol then .fault (t.xferPoison k true (z.headD 0)) x .poison dst
      else
        let (s1, x1) := t.xferZeros k x z
        let r := x.sum (leNat bs) code
        s1.putElem k id e (x1.report u r.2) dst r.1 bs
  else
    let r := x.plain code
    s.putElem k id e (x.report u r.2) dst r.1 []

/-- The index of an element's position in dimension 1, read once (R257), an uncorrectable word of the list under the
policy of the task (R108, R125); or what stops the command there. -/
def State.elemIndex (s : State) (k : Nat) (x : Xfer) (u : Nat) : XStep ⊕ (State × Nat × Xfer) :=
  if !x.kind.indexed then .inr (s, 0, x)
  else
    let i := (elemPos x.dims u).getD 1 0
    match x.rows[i]? with
    | some v => .inr (s, v, x)
    | none =>
      match s.xferRead k .l [] (x.idx + 4 * i) 4 with
      | .ok t bs z =>
        if z ≠ [] ∧ x.pol then .inl (.fault (t.xferPoison k true (z.headD 0)) x .poison (x.idx + 4 * i))
        else
          let (s1, x1) := t.xferZeros k x z
          .inr (s1, leNat bs, { x1 with rows := x1.rows ++ [leNat bs] })
      | .fault c => .inl (.fault s x c (x.idx + 4 * i))
      | .wait t => .inl (.wait t x)

/-- An index out of range recorded, the first one only (R257). -/
def Xfer.outOfRange (x : Xfer) (i k : Nat) : Xfer := { x with range := true, ridx := some (x.ridx.getD (i, k)) }

/-- The next element of a command (R255-R258). `old` is the engine's choice for overlapping bytes. A fill writes the low
bits of the pattern, of an A56 element 56 with zeros above (R85, R190, R258). An element that has to wait is handled anew
as a whole, but for its index, which is read once (R257). -/
def State.xferElem (s : State) (k id : Nat) (e : Eng) (x : Xfer) (old : Bool) : XStep :=
  let u := x.next
  match s.elemIndex k x u with
  | .inl r => r
  | .inr (s0, v, x1) =>
    let (el, bad) := x1.elem u v
    let x2 := if bad then x1.outOfRange ((elemPos x.dims u).getD 1 0) v else x1
    let r : XStep := match el with
      | .skip => .next s0 x2
      | .zero dst => s0.putElem k id e x2 dst (fmtRound x.tf .rne false false (.zero false)) []
      | .pad dst => s0.moveElem k id e x2 u dst none
      | .fill dst => s0.putElem k id e x2 dst (x.sbase % 2 ^ (if x.tf = .a56 then 56 else fmtWidth x.tf)) []
      | .copy dst src =>
        let n := elemBytes x.sf
        match s0.xferRead k x.sspc x.wire src n with
        | .wait t => .wait t x2
        | .fault c => .fault s0 x2 c src
        | .ok t bs z =>
          if z ≠ [] ∧ x.pol then .fault (t.xferPoison k true (z.headD 0)) x2 .poison src
          else
            let (s1, x3) := t.xferZeros k x2 z
            let x4 := if x.sspc = .sys then { x3 with wire := x3.wire.drop n, asked := x3.asked - n } else x3
            s1.moveElem k id e x4 u dst (some (leNat (x4.overlap old src bs)))
    match r with
    | .wait t _ => .wait (s0.waited t) x1
    | r => r

/-- Elements of a command one after another, up to a fault or a wait. -/
def State.xferElems (s : State) (k id : Nat) (e : Eng) (x : Xfer) (pick : Nat) : Nat → State × Xfer
  | 0 => (s, x)
  | n + 1 =>
    if x.total ≤ x.next then (s, x)
    else
      match s.xferElem k id e x (pick.testBit 0) with
      | .next t y => t.xferElems k id e { y with next := y.next + 1, moved := true } (pick / 2) n
      | .fault t y c a => (t, { y with fault := some c, faddr := a })
      | .wait t y => (t, y)

/-! ## The queues of the transfer engines -/

/-- The command at the head of a queue of a context (R140, R249). -/
def Ctx.xferHead (c : Ctx) (e : Eng) : Option (Access × Xfer) :=
  c.mq.findSome? fun a => if a.eng = e then (match a.kind with | .xfer x => some (a, x) | _ => none) else none

/-- The head of a queue, where its engine may work on it: the task is there, and the engine has not stopped for a
pre-emption (R250, R345). -/
def State.xferHead (s : State) (k : Nat) (e : Eng) : Option (Access × Xfer) :=
  let c := s.ctx k
  if c.st = .idle ∨ s.unitStopped c.part (.transfer (routeOf (k / 4))) then none else c.xferHead e

/-- The source reads of the next chunk of a command with a system-scope source: address and bytes (R364). -/
def State.sysReads (s : State) (k : Nat) (x : Xfer) (u : Nat) : Nat → XStep ⊕ (State × List (Nat × Nat) × Xfer)
  | 0 => .inr (s, [], x)
  | n + 1 =>
    if x.total ≤ u then .inr (s, [], x)
    else
      match s.elemIndex k x u with
      | .inl r => .inl r
      | .inr (s1, v, x1) =>
        match s1.sysReads k x1 (u + 1) n with
        | .inl r => .inl r
        | .inr (s2, l, x2) =>
          (match (x1.elem u v).1 with
           | .copy _ src => .inr (s2, (src, elemBytes x.sf) :: l, x2)
           | _ => .inr (s2, l, x2))

/-- The elements of a chunk: 64 KiB of destination bytes (R250). -/
def Xfer.chunk (x : Xfer) : Nat := 65536 / elemBytes x.tf

/-- The next chunk needs source elements that have not been asked for (R364). -/
def State.mustAsk (s : State) (k : Nat) (x : Xfer) : Bool :=
  x.sspc == .sys && x.kind != .fill && x.asked == 0 && x.cend.isNone &&
  (match s.sysReads k x x.next x.chunk with | .inr (_, [], _) => false | _ => true)

/-- The queues that a transfer engine serves, the load and the store queue of each context of its cores (R249, R250). -/
def engineQueues (r : Nat) : List (Nat × Eng) :=
  ((List.range 96).filter fun c => routeOf c == r).flatMap fun c =>
    (List.range 4).flatMap fun i => [(ctxKey c i, Eng.l), (ctxKey c i, Eng.s)]

/-- The transfer engine that serves a context (R249). -/
def engineOf (k : Nat) : Nat := routeOf (k / 4)

/-- The number of a queue in the rotation of its engine. -/
def queueKey (q : Nat × Eng) : Nat := 2 * q.1 + (q.2 == .s).toNat

/-- A queue holds a command with a chunk to move: nothing orders it behind what has not happened, and what it has asked a
target for is there (R140, R250, R364). -/
def State.chunkReady (s : State) (q : Nat × Eng) : Bool :=
  match s.xferHead q.1 q.2 with
  | some (a, x) =>
    !x.finished && s.mayPerform q.1 a none && (x.cend.isSome || (x.wire.length == x.asked && !s.mustAsk q.1 x)) &&
    !(x.kind == .creq && (s.col x.col).retr && !x.moved)
  | none => false

/-- A chunk of a queue is being moved (R250). -/
def State.midChunk (s : State) (q : Nat × Eng) : Bool :=
  match s.xferHead q.1 q.2 with
  | some (_, x) => x.cend.isSome
  | none => false

/-- The queue whose turn it is at a transfer engine: the one whose chunk it is moving, else the next in rotation that holds
a command with a chunk to move (R250). -/
def State.inTurn (s : State) (r : Nat) : Option (Nat × Eng) :=
  let l := engineQueues r
  match l.find? s.midChunk with
  | some q => some q
  | none =>
    match tfind s.xturn r with
    | none => l.find? s.chunkReady
    | some n =>
      match l.find? fun q => decide (n < queueKey q) && s.chunkReady q with
      | some q => some q
      | none => l.find? s.chunkReady

/-- The engine of a queue has served it last. -/
def State.served (s : State) (k : Nat) (e : Eng) : State := { s with xturn := tput s.xturn (engineOf k) (queueKey (k, e)) }

/-- A command changed in its queue. -/
def State.setXfer (s : State) (k id : Nat) (x : Xfer) : State :=
  s.modCtx k fun c => c.modAccess id fun a => { a with kind := .xfer x }

/-- A command that meets a fault stops, its fault is deferred, and the later commands of its queue are discarded
(R261). -/
def State.stopXfer (s : State) (k : Nat) (a : Access) (x0 : Xfer) : State :=
  let x := if x0.fault.isSome then { x0 with cend := none } else x0
  match x.fault with
  | none => s.setXfer k a.id x
  | some c =>
    let s1 := s.setXfer k a.id x
    let s2 := s1.modCtx k fun t =>
      { t with mq := t.mq.map fun b =>
          match b.kind with
          | .xfer y => if b.eng = a.eng ∧ a.id < b.id then { b with kind := .xfer { y with drop := true } } else b
          | _ => b }
    s2.addDefer { ctx := k, taskid := (s.ctx k).taskid, unit := queueUnit a.eng, code := c, addr := x.faddr, info := x.seq,
                  tag := if x.ten then some x.tag else none }

/-- The engine asks the target for the source elements of the next chunk (R364). -/
def State.askChunk (s : State) (k : Nat) (a : Access) (x : Xfer) : State :=
  let part := (s.ctx k).part
  match s.sysReads k x x.next x.chunk, s.outWindow part x.key with
  | .inl (.fault t y c va), _ => t.stopXfer k a { y with fault := some c, faddr := va }
  | .inl (.wait t y), _ => t.setXfer k a.id y
  | .inl (.next t y), _ => t.setXfer k a.id y
  | .inr _, none => s.stopXfer k a { x with fault := some .prot, faddr := x.sbase }
  | .inr (t, l, x1), some w =>
    if l ≠ [] ∧ (tget {} s.qps (qpKey part w.qp)).error then t.stopXfer k a { x1 with fault := some .prot, faddr := x.sbase }
    else
      (l.foldl (fun t p => t.send (.rread part w.qp w.rkey (w.base + p.1) p.2)) t).setXfer k a.id
        { x1 with asked := (l.map (·.2)).sum }

/-- A chunk of a command moved, as far as nothing makes an element wait: the rest of it comes before anything else that its
engine does (R250). All of its elements that move are read at one moment (log 107). -/
def State.moveChunk (s : State) (k : Nat) (a : Access) (x : Xfer) : State :=
  let stop := x.cend.getD (min x.total (x.next + x.chunk))
  let r := s.xferElems k a.id a.eng x s.cur.pick (stop - x.next)
  (r.1.stopXfer k a { r.2 with cend := if r.2.next < stop then some stop else none }).served k a.eng

/-- Event: a transfer engine moves one chunk of the command at the head of a queue, in the rotation of its queues (R250,
R255-R258). -/
def execTransferChunk (s : State) : Host.Outcome State Fault Refusal :=
  let v := s.cur.ev
  let k := ctxKey v.core v.ctx
  .next (match s.xferHead k v.eng with
    | some (a, x) =>
      if x.kind = .creq ∨ x.finished ∨ !s.mayPerform k a none then s
      else if s.mustAsk k x then s.askChunk k a x
      else if s.inTurn (engineOf k) = some (k, v.eng) then s.moveChunk k a x
      else s
    | none => s)

/-- The target of a command has answered: the retries of its queue pair count anew (R360). -/
def State.heard (s : State) (part : Nat) (x : Xfer) : State :=
  match tfind (s.partn part).outbound x.key with
  | some w => s.modQp (qpKey part w.qp) fun p => { p with retries := 0 }
  | none => s

/-- Event: the target of a command's system-scope reads delivers data (R364). -/
def execSystemReadResponse (s : State) : Host.Outcome State Fault Refusal :=
  let v := s.cur.ev
  let k := ctxKey v.core v.ctx
  .next (match s.xferHead k v.eng with
    | some (a, x) => (s.heard (s.ctx k).part x).setXfer k a.id { x with wire := x.wire ++ v.bytes.take (x.asked - x.wire.length) }
    | none => s)

/-- Event: the target of a command's system-scope writes acknowledges what has been sent (R126, R261, R364). -/
def execSystemWriteAck (s : State) : Host.Outcome State Fault Refusal :=
  let v := s.cur.ev
  let k := ctxKey v.core v.ctx
  .next (match s.xferHead k v.eng with
    | some (a, x) => if x.acked then s else ((s.heard (s.ctx k).part x).setXfer k a.id { x with acked := true }).modCtx k Ctx.wake
    | none => s)

/-- Event: the target of a command refuses it, or the transport, which retries at most 7 times (R360), hears nothing again: the
command ends with FAULT 2, and its queue pair enters the error state (R364). -/
def execRemoteNak (s : State) : Host.Outcome State Fault Refusal :=
  let v := s.cur.ev
  let k := ctxKey v.core v.ctx
  let part := (s.ctx k).part
  .next (match s.xferHead k v.eng with
    | some (a, x) =>
      if x.acked && decide (x.asked ≤ x.wire.length) then s
      else
        let stop (t : State) : State := t.stopXfer k a
          { x with fault := some .prot, faddr := if x.acked then x.sbase else x.dbase, acked := true, asked := 0, wire := [] }
        (match tfind (s.partn part).outbound x.key with
         | some w =>
           let q := qpKey part w.qp
           if v.flag && decide ((tget {} s.qps q).retries < 7) then s.modQp q fun p => { p with retries := p.retries + 1 }
           else stop ((s.modQp q fun p => { p with error := true }).send (.qpError part w.qp))
         | none => stop s)
    | none => s)

/-! ## Column reduce -/

/-- The sums of a `creq` over its rows (R260): the command with what it has met, and the sums; or what stops it. The rows are
read at one moment (log 107). -/
def State.creqRows (s : State) (k : Nat) (x : Xfer) (sum : List Nat) : List (Nat × Nat) → XStep ⊕ (State × Xfer × List Nat)
  | [] => .inr (s, x, sum)
  | (j, i) :: r =>
    if i = 0xFFFFFFFF then s.creqRows k x sum r
    else if x.nrows ≤ i then s.creqRows k (x.outOfRange j i) sum r
    else
      let va := x.sbase + i * x.rstr
      match s.xferRead k .g [] va (2 * x.dim) with
      | .wait t => .inl (.wait t x)
      | .fault c => .inl (.fault s x c va)
      | .ok t bs z =>
        if z ≠ [] ∧ x.pol then .inl (.fault (t.xferPoison k true (z.headD 0)) x .poison va)
        else
          let s1 := z.foldl (fun t m => t.xferPoison k false m) t
          let x1 := if z = [] then x else { x with poisc := x.poisc + z.length, pois := true }
          let row := (List.range x.dim).map fun e => fmtValue x.sf false (leNat ((bs.drop (2 * e)).take 2))
          s1.creqRows k x1 ((sum.zip row).map fun p => f32Round ((f32Value p.1).add .rne p.2)) r

/-- The bytes of the sums in the destination format (R260). -/
def creqBytes (f : Fmt) (sum : List Nat) : List Byte :=
  sum.flatMap fun c => leBytes (elemBytes f) (if f = .fp32 then c else convert .fp32 f .rne false false c)

/-- One line part of the result of a `creq`: it escapes the version (R260). -/
def State.creqWrite (s : State) (k id : Nat) (e : Eng) (x : Xfer) (a : Nat) (bs : List Byte) : XWrite :=
  let c := s.ctx k
  match x.dspc with
  | .l =>
    if (s.core (k / 4)).splitting then .wait s
    else if !s.spadHas (k / 4) a bs.length then .fault .prot
    else .ok (s.spadWrite (k / 4) a bs)
  | .p =>
    (match s.peerAt k a with
     | none => .fault .prot
     | some (p, o) =>
       if (s.core p).splitting then .wait s
       else if !s.spadHas p o bs.length then .fault .prot
       else .ok (s.spadWrite p o bs))
  | _ =>
    match s.unitXlat k c.part c.asid a true with
    | .fault f => .fault f
    | .miss => .wait (s.enterUnitMiss k c.part c.asid a)
    | .ok pa _ _ =>
      if s.hitsScb pa bs.length then .fault .prot
      else if s.lineHeld k pa then .wait s
      else
        match s.reserveLine c.part pa with
        | none => .wait (s.waitSpace c.part pa (some (k, e)) id a)
        | some s1 => .ok (((s1.dropWait c.part pa (some (k, e)) id).endHold k (pa / 128)).commitBytes pa bs)

/-- The line parts of a result from the `next` one on, up to a fault or a wait (R260). -/
def State.creqWrites (s : State) (k id : Nat) (e : Eng) (x : Xfer) : List (Nat × Nat × Nat) → State × Xfer
  | [] => (s, x)
  | (a, o, n) :: r =>
    match s.creqWrite k id e x (a % 2 ^ 64) ((x.wire.drop o).take n) with
    | .fault c => (s, { x with fault := some c, faddr := a % 2 ^ 64 })
    | .wait t => (t, x)
    | .ok t => t.creqWrites k id e { x with next := x.next + 1, bytes := x.bytes + n } r

/-- Event: the column controller performs the `creq` at the head of a queue, while no retraining stops its column
(R142, R236, R260). It takes the turn of its queue at the transfer engine as one chunk (R250). -/
def execCreqExecute (s : State) : Host.Outcome State Fault Refusal :=
  let v := s.cur.ev
  let k := ctxKey v.core v.ctx
  .next (match s.xferHead k v.eng with
    | some (a, x) =>
      if x.kind ≠ .creq ∨ x.finished ∨ !s.mayPerform k a none ∨ (!x.moved ∧ ((s.col x.col).retr ∨ s.inTurn (engineOf k) ≠ some (k, v.eng))) then s
      else
        let parts := lineParts x.dbase (x.dim * elemBytes x.tf)
        if x.moved then
          let r := s.creqWrites k a.id a.eng x (parts.drop x.next)
          r.1.stopXfer k a r.2
        else
          match s.creqRows k x (List.replicate x.dim 0) ((List.range x.rows.length).zip x.rows) with
          | .inl (.wait t _) => s.waited t
          | .inl (.fault t y c va) => (t.stopXfer k a { y with fault := some c, faddr := va }).served k a.eng
          | .inl (.next t _) => t
          | .inr (t, y, sum) =>
            let r := t.creqWrites k a.id a.eng { y with moved := true, wire := creqBytes x.tf sum } parts
            (r.1.stopXfer k a r.2).served k a.eng
    | none => s)

/-! ## Completion -/

/-- The number of a fault in a completion record (R265). -/
def recordFault : Option Code → Nat
  | some .xlate => 1 | some .prot => 2 | some .poison => 3 | some .space => 4 | some .vcap => 5 | _ => 0

/-- The OP field of a completion record (R265). -/
def XKind.op : XKind → Nat
  | .copy => 0 | .gath => 1 | .scat => 2 | .scadd => 3 | .fill => 4 | .ring => 5 | .creq => 6

/-- The 32 bytes of a completion record (R265). -/
def Xfer.record (x : Xfer) (e : Eng) : List Byte :=
  let ones := 2 ^ 32 - 1
  let r := x.ridx.getD (ones, 0)
  leBytes 32 (x.bytes * 2 ^ 192 + x.first.getD ones % 2 ^ 32 * 2 ^ 160 + r.1 % 2 ^ 32 * 2 ^ 128 + r.2 % 2 ^ 32 * 2 ^ 96 +
    min x.poisc ones * 2 ^ 64 + x.seq % 2 ^ 32 * 2 ^ 32 + x.evt % 16 * 2 ^ 28 +
    (x.conv.toNat + 2 * x.range.toNat + 4 * x.pois.toNat + 8 * x.fault.isSome.toNat) * 2 ^ 24 + recordFault x.fault * 2 ^ 16 +
    (if e = .l then 0 else 1) * 2 ^ 14 + x.tag % 64 * 2 ^ 8 + x.kind.op * 2 ^ 5)

/-- A fault of a command that has come to its end, deferred (R261, R263). -/
def State.deferXfer (s : State) (k : Nat) (e : Eng) (x : Xfer) (code : Code) (addr : Nat) : State :=
  s.addDefer { ctx := k, taskid := (s.ctx k).taskid, unit := queueUnit e, code := code, addr := addr, info := x.seq,
               tag := if x.ten then some x.tag else none }

/-- A record that cannot be written: the command ends with an error arrival, and the fault is deferred: PROT beyond the
scratchpad (R263), or POISON of the ring control block under POL = 1 (R125, R263). -/
def State.recordLost (s : State) (k : Nat) (a : Access) (x : Xfer) (code : Code) : State :=
  (s.setXfer k a.id { x with wrote := true, err := true }).deferXfer k a.eng x code x.ringcb

/-- The command at the head of a queue has made its writes, and they have been acknowledged (R261). -/
def Xfer.closes (x : Xfer) : Bool := x.finished && x.acked && !x.around

/-- The four words of the ring control block of a command: BASE, LOG2N, TAIL, HEAD (R263). -/
def State.ringBlock (s : State) (core : Nat) (x : Xfer) : Nat × Nat × Nat × Nat :=
  let cb := leNat (s.spadClean core x.ringcb 16)
  (bits cb 31 0, bits cb 35 32, bits cb 95 64, bits cb 127 96)

/-- The ring of a command holds as many records as it has places (R263). -/
def State.ringFull (s : State) (core : Nat) (x : Xfer) : Bool :=
  let (_, n, tail, head) := s.ringBlock core x
  decide (2 ^ n ≤ (head + 2 ^ 32 - tail) % 2 ^ 32)

/-- Event: a transfer engine writes the completion record of a command, or begins to wait for room in the ring (R261,
R263, R265). The ring control block is read as a scratchpad load, an uncorrectable word of it under the policy of the task
(R108, R125, R263). -/
def execCompletionRecordWrite (s : State) : Host.Outcome State Fault Refusal :=
  let v := s.cur.ev
  let k := ctxKey v.core v.ctx
  let core := v.core
  .next (match s.xferHead k v.eng with
    | some (a, x) =>
      if !x.closes ∨ !x.ren ∨ x.drop ∨ x.wrote ∨ (s.core core).splitting then s
      else if !s.spadHas core x.ringcb 16 then s.recordLost k a x .prot
      else
        let bad := (s.badWords core x.ringcb 16).map (wordMark core)
        let (base, n, _, head) := s.ringBlock core x
        let at_ := base + head % 2 ^ n * 32
        if bad ≠ [] ∧ x.pol then (s.xferPoison k true (bad.headD 0)).recordLost k a x .poison
        else if s.ringFull core x then
          (match x.wait with
           | some _ => s
           | none => s.setXfer k a.id { x with wait := some s.clock })
        else if !s.spadHas core at_ 32 then s.recordLost k a x .prot
        else
          let (t, y) := s.xferZeros k x bad
          ((t.spadWrite core at_ (y.record a.eng)).spadWrite core (x.ringcb + 12) (leBytes 4 ((head + 1) % 2 ^ 32))).setXfer
            k a.id { y with wrote := true, wait := none }
    | none => s)

/-- The arrival of a command on its barrier is an error arrival (R189). -/
def Xfer.errArrival (x : Xfer) : Bool := x.conv || x.fault.isSome || x.drop || x.err

/-- The barrier arrival of a command: none where another context holds its line, or it waits for headroom (R261, R303). It
ends a hold of the context's own (R183). -/
def State.xferArrive (s : State) (k id : Nat) (e : Eng) (bar : Option Nat) (va : Nat) (err : Bool) :
    Option State × State :=
  match bar with
  | none => (some s, s)
  | some pa =>
    let part := (s.ctx k).part
    if s.lineHeld k pa then (none, s)
    else
      match s.reserveLine part pa with
      | none => (none, s.waitSpace part pa (some (k, e)) id va)
      | some s1 => (some (((s1.dropWait part pa (some (k, e)) id).endHold k (pa / 128)).barArrive pa err), s)

/-- The error arrival of a command that has no place in its queue any more: made at once, or as soon as the line of the
barrier is free and has headroom (R189, R264). -/
def State.errorArrive (s : State) (k id : Nat) (e : Eng) (x : Xfer) : State :=
  match s.xferArrive k id e x.bar x.barVa true, x.bar with
  | (some t, _), _ => t
  | (none, _), some pa =>
    { s with arrivals := s.arrivals ++ [{ id := (s.arrivals.map (·.id)).foldl max 0 + 1, part := (s.ctx k).part, pa := pa }] }
  | (none, _), none => s

/-- The number under which an error arrival waits for headroom. -/
def arriveWaitId (id : Nat) : Nat := 2 ^ 51 + id

/-- An error arrival without its queue made, where no region holds its line and there is headroom (R182, R189, R303). -/
def State.arriveLate (s : State) (id : Nat) : State :=
  match s.arrivals.find? fun a => a.id == id with
  | none => s
  | some a =>
    if s.held.any fun h => h.line == a.pa / 128 then s
    else
      match s.reserveLine a.part a.pa with
      | none => s.waitSpace a.part a.pa none (arriveWaitId id)
      | some t =>
        let u := (t.dropWait a.part a.pa none (arriveWaitId id)).barArrive a.pa true
        { u with arrivals := u.arrivals.filter fun b => b.id != id }

/-- Event: the command at the head of a queue completes: its record has been written, its tag is set, and it arrives on
its barrier (R261). -/
def execTransferCompletion (s : State) : Host.Outcome State Fault Refusal :=
  let v := s.cur.ev
  let k := ctxKey v.core v.ctx
  .next (match s.xferHead k v.eng with
    | some (a, x) =>
      if !x.closes ∨ (x.ren ∧ !x.drop ∧ !x.wrote) then s
      else
        let s1 := if x.ten then s.setTag v.core x.tag else s
        (match s1.xferArrive k a.id a.eng x.bar x.barVa x.errArrival with
         | (some t, _) => t.finishAccess k a.id a.eng
         | (none, t) => t.setXfer k a.id { x with ten := false })
    | none => s)

/-- The clocks of 100 µs. -/
def clocks100us : Nat := 400000

/-- Event: a command has waited 100 µs for room in its ring, which is full still: its record is dropped, and its task traps with QFAULT
(R264). -/
def execRingWaitTimeout (s : State) : Host.Outcome State Fault Refusal :=
  let v := s.cur.ev
  let k := ctxKey v.core v.ctx
  .next (match s.xferHead k v.eng with
    | some (a, x) =>
      (match x.wait with
       | some t =>
         if s.clock < t + clocks100us ∨ x.wrote ∨ !s.ringFull v.core x then s
         else
           let s1 := if x.ten then s.setTag v.core x.tag else s
           let s2 := (s1.errorArrive k a.id a.eng x).setXfer k a.id
             { x with wrote := true, around := true, ten := false, bar := none, wait := none }
           s2.raiseAt k a.eng ((s2.ctx k).eng a.eng).pc .qfault 0 x.seq
       | none => s)
    | none => s)

end Sys2Proof.Machine
end

