-- ==== Sys2Proof/Machine/Task.lean ====
section
/-! DEFINITION. Tasks: their start, commit, traps, discard and abort, and the trap and system instructions
(spec/01_execution_model.md R20-R23, R32, R40, spec/09_consistency.md R129, spec/27_traps.md R331-R344,
spec/07_memory.md R120-R123). -/

namespace Sys2Proof.Machine

/-! ## Queues of a region -/

/-- The entries of a stage queue in order. -/
def Region.queue (r : Region) (n : Nat) : List QItem := tget [] r.queues n
/-- The region with a stage queue replaced. -/
def Region.setQueue (r : Region) (n : Nat) (l : List QItem) : Region := { r with queues := tput r.queues n l }
/-- The occupancy of a stage queue: published items, reserved entries, and entries that running tasks hold (R321). -/
def Region.occupancy (r : Region) (n : Nat) : Nat := (r.queue n).length + tget 0 r.reserved n
/-- The slots of a stage's storage that no entry occupies. -/
def Region.freeSlots (r : Region) (n : Nat) : List Nat :=
  (List.range (r.stage n).depth).filter fun i => !(r.queue n).any fun q => q.slot == i
/-- The oldest entry that a task may take: held items do not hold back those behind them (R21, R334). -/
def oldestItem (l : List QItem) : Option QItem := l.find? fun q => q.st == .published
/-- A queue with the entry of a slot changed. -/
def setItem (l : List QItem) (slot : Nat) (f : QItem → QItem) : List QItem :=
  l.map fun q => if q.slot = slot then f q else q

/-- Bytes that the scheduler writes for a region into committed memory, line part after line part. A write that finds no
headroom waits for it (R301, R303). -/
def State.heldWrite (s : State) (r : Region) (bs : List Byte) : List (Nat × Nat × Nat) → Except State State
  | [] => .ok s
  | (va, o, n) :: l =>
    match r.heldPa va with
    | none => s.heldWrite r bs l
    | some pa =>
      match s.reserveLine r.part pa with
      | none => .error (s.waitSpace r.part pa none (2 ^ 48 + r.regid))
      | some t => ((t.dropWait r.part pa none (2 ^ 48 + r.regid)).commitBytes pa ((bs.drop o).take n)).heldWrite r bs l

/-- The slots of a stage's storage that running tasks have reserved for their pushes (R321). -/
def State.pushSlots (s : State) (regid n : Nat) : List Nat :=
  (s.versionCtxs.filter fun c => c.regid == regid).flatMap fun c => (c.pushes.filter fun p => p.stage == n).map (·.slot)

/-- The slots of a stage's storage that a new entry may take. -/
def State.openSlots (s : State) (regid n : Nat) : List Nat :=
  ((s.region regid).freeSlots n).filter fun i => !(s.pushSlots regid n).contains i

/-- Items published in their slots at the end of their stage queues in push order (R129, R321): all of them, or none where
one has to wait for headroom. -/
def State.publishItems (s : State) (regid : Nat) : List Push → Except State State
  | [] => .ok s
  | p :: l =>
    let r := s.region regid
    match s.heldWrite r p.data (lineParts (r.slotVa p.stage p.slot) p.data.length) with
    | .error t => .error t
    | .ok t =>
      (t.modRegion regid fun g =>
        { g.setQueue p.stage (g.queue p.stage ++ [{ slot := p.slot, attempt := 0, st := .published }]) with
          empty := g.empty.filter (· != p.stage) }).publishItems regid l

/-! ## The start of a task -/

/-- A partition stands still: a pre-emption request stands in it (R346), or it is swapped out (R351). -/
def State.preempted (s : State) (part : Nat) : Bool := (s.partn part).preempt.isSome || (s.partn part).swapped

/-- The context that a region keeps for its children: the last of its core of lowest index (R40). -/
def Region.reservedCtx (r : Region) : Option Nat :=
  match r.cores with
  | [] => none
  | c :: l => some (ctxKey (l.foldl min c) 3)

/-- The region for whose children a context is reserved (R40); one that is swapped out reserves none (R351). -/
def State.reservedFor (s : State) (k : Nat) : Option Nat :=
  (s.regions.find? fun p => p.2.live && !(s.partn p.2.part).swapped && p.2.reservedCtx == some k).map (·.1)

/-- The INHERIT bit of CORES (R15). -/
def bitCores : Nat := 3

/-- A core serves no stage, is to join none, and runs no task (R323). -/
def State.coreIdle (s : State) (c : Nat) : Bool :=
  (s.core c).serve.isNone && (s.core c).join.isNone && (List.range 4).all fun x => (s.ctx (ctxKey c x)).st == .idle

/-- The cores that a partition's record names (R378). -/
def State.partCores (s : State) (p : Nat) : List Nat :=
  match (s.partn p).record with
  | some r => (List.range 96).filter fun c => r.cores.getLsbD c
  | none => []

/-- The free cores of a partition: those that no running region of it holds, nor one of a partition that shares the core with it
and is not swapped out (R324, R378). -/
def State.freeCores (s : State) (p : Nat) : List Nat :=
  (s.partCores p).filter fun c =>
    !(s.regions.any fun r => r.2.live && (r.2.part == p || !(s.partn r.2.part).swapped) && r.2.cores.contains c)

/-- The running regions that draw on the pool of a budget field that a region owns (R16). -/
def State.sharing (s : State) (bit owner : Nat) : List Region :=
  (s.regions.filter fun r => r.2.live && s.ownerOf bit r.1 == owner).map (·.2)

/-- The cores of the pool that a region draws on, whichever of the regions that share it holds them (R314, R316). -/
def State.poolCores (s : State) (owner : Nat) : List Nat := (s.sharing bitCores owner).flatMap (·.cores)

/-- The idle cores of the pool of a region. -/
def State.idleCores (s : State) (owner : Nat) : List Nat := (s.poolCores owner).filter s.coreIdle

/-- A region has a free context, reserved ones apart, on a core that serves it or on an idle core of its budget (R40). -/
def State.hasFreeCtx (s : State) (regid : Nat) : Bool :=
  ((s.cores.filter fun p => match p.2.serve with | some (r, _) => r == regid | none => false).map (·.1) ++
      s.idleCores (s.ownerOf bitCores regid)).any fun c =>
    (List.range 4).any fun x => (s.ctx (ctxKey c x)).st == .idle && (s.reservedFor (ctxKey c x)).isNone

/-- The stages of a region that hold an item a task may take. -/
def Region.readyStages (r : Region) : List Nat := (List.range 8).filter fun n => (oldestItem (r.queue n)).isSome

/-- The region and stage of which a free context may begin a task: those that its core serves, and for a reserved
context a child of its region that has no other free context (R20, R21, R40). -/
def State.startFor (s : State) (k pick : Nat) : Option (Nat × Nat) :=
  match s.reservedFor k with
  | none => if (s.core (k / 4)).join.isSome then none else (s.core (k / 4)).serve
  | some p =>
    choose ((s.regions.filter fun r => r.2.live && r.2.parent == some p && !s.hasFreeCtx r.1).flatMap fun r =>
      r.2.readyStages.map fun n => (r.1, n)) pick

/-- The engines of a task as it begins (R21). -/
def startEngine (entry itemVa bytes stage dataVa : Nat) : Engine :=
  { x := [(1, quadN itemVa), (2, quadN bytes), (3, quadN stage), (4, quadN dataVa)], pc := entry }

/-- A context that begins a task on an item of a stage (R21, R120, R325). -/
def Region.startCtx (r : Region) (n taskid : Nat) (q : QItem) : Ctx :=
  let t := r.stage n
  let va := r.slotVa n q.slot
  { st := .run, engs := allEngs.map fun e => (engIdx e, startEngine t.entry va t.itemBytes n r.dataVa),
    regid := r.regid, stage := n, taskid := taskid, item := { slot := q.slot, attempt := q.attempt }, itemVa := va,
    priv := r.priv, part := r.part, asid := r.asid, regp := r.rcb.prio, prio := r.rcb.prio,
    window := if t.win = 0 then 16 else t.win }

/-- A task that waits in an `lwait` whose child has completed resumes on a context of its stage before a new item
(R319). -/
def Region.resumes (r : Region) (n : Nat) : Bool := r.saved.any fun v => v.done && v.ctx.stage == n

/-- A free context begins a task on the oldest item of its stage (R21). -/
def State.startTask (s : State) (k regid n : Nat) (q : QItem) : State :=
  let r := s.region regid
  let s1 := (s.setCtx k (r.startCtx n s.nextTask q)).modRegion regid fun g =>
    g.setQueue n (setItem (g.queue n) q.slot fun i => { i with st := .running k })
  ({ s1 with nextTask := s1.nextTask + 1 } : State).l1DropAll (k / 4)

/-- Event: a free context begins a task on the oldest item of a stage; the start acquires over the commit that published
the item (R21, R143). -/
def execTaskStart (s : State) : Host.Outcome State Fault Refusal :=
  let v := s.cur.ev
  let k := ctxKey v.core v.ctx
  .next (match s.startFor k s.cur.pick with
    | none => s
    | some (regid, n) =>
      let r := s.region regid
      match oldestItem (r.queue n) with
      | none => s
      | some q =>
        if (s.ctx k).st ≠ .idle ∨ !r.live ∨ r.aborting ∨ s.preempted r.part ∨ r.resumes n then s
        else s.startTask k regid n q)

/-! ## The end of a task -/

/-- All four engines of a context wait at `tend`. -/
def Ctx.atTend (c : Ctx) : Bool := allEngs.all fun e => (c.eng e).wait == .tend

/-- An engine at `tend`: it waits for the others. X abandons an open region (R183), and engines that wait after a `yield`
go on, since the task is left to end (R347). The last engine traps the task with
QFAULT where a queue or a token FIFO is not empty, or a stream is bound (R23, R217). -/
def execTend (s : State) : Host.Outcome State Fault Refusal :=
  issue {} s fun t =>
    let u :=
      if t.cur.eng = .x then (t.abandonRegion t.me).modMe fun c => if c.st = .run then c.endYields else c
      else t
    let c := u.cc.modEng u.cur.eng fun g => { g with wait := .tend }
    if c.atTend && (!c.queuesEmpty || c.z.any fun p => p.2.bound) then .trap .qfault 0 0 u else .wait .tend u

/-- No command that a task issued is left: transfer, `creq`, lane, matrix and attention (R129). -/
def State.commandsDone (s : State) (k : Nat) : Bool :=
  let c := s.ctx k
  let mine (x t : Nat) : Bool := x == k && t == c.taskid
  c.mq.isEmpty && s.lanes.all (fun l => !(l.2.q ++ l.2.flight).any fun e => mine e.ctx e.taskid) &&
  s.reds.all (fun r => !mine r.ctx r.taskid) && s.mats.all (fun m => !m.2.q.any fun e => mine e.ctx e.taskid) &&
  s.attns.all fun a => !mine a.ctx a.taskid

/-- The slices at which a task's version commits: the home slices of its lines, and the routing slices of the cores whose
scratchpads it wrote (R114, R129). -/
def State.commitSlices (s : State) (k : Nat) : List Nat :=
  let v := (s.ctx k).ver
  ((v.memLines.map fun l => s.home (128 * l)) ++ (v.peer.filter fun p => p.2 != []).map fun p => routeOf p.1).eraseDups

/-- A line of a version committed as one event: bytes of a control block of a sequence are dropped (R128, R270). -/
def State.commitLine (s : State) (v : Version) (line : Nat) : State :=
  s.commitMasked line (v.full.contains line)
    ((v.mem.filter fun p => p.1 / 128 == line && !s.hitsScb p.1 1).map fun p => (p.1 % 128, p.2))

/-- Bytes of a version committed into the scratchpad of a peer; those that its size no longer holds are dropped, and the
words that one access wrote whole are good again (R108, R125). -/
def State.commitPeer (s : State) (v : Version) (core : Nat) : State :=
  ((tget [] v.peer core).foldl (fun t p => if t.spadHas core p.1 1 then t.spadWrite core p.1 [p.2] else t) s).modCore core
    fun c => { c with poison := c.poison.filter fun w => !v.pfull.contains (core, w) }

/-- The commit of a version at one slice: one indivisible event (R129). -/
def State.commitSlice (s : State) (k slice : Nat) : State :=
  let v := (s.ctx k).ver
  let s1 := (v.memLines.filter fun l => s.home (128 * l) == slice).foldl (fun t l => t.commitLine v l) s
  (v.peer.filter fun p => routeOf p.1 == slice).foldl (fun t p => t.commitPeer v p.1) s1

/-- Something at the slice keeps the commit back: a line held for a single-line region of another context, or a
scratchpad that changes its size (R106, R182). -/
def State.sliceBusy (s : State) (k slice : Nat) : Bool :=
  let v := (s.ctx k).ver
  (v.memLines.any fun l => s.home (128 * l) == slice && s.lineHeld k (128 * l)) ||
  (v.peer.any fun p => routeOf p.1 == slice && (s.core p.1).splitting)

/-- A region ends by abort: its running tasks and its children go, and it completes ABORTED (R343). -/
def State.startAbort (s : State) (regid : Nat) : State :=
  if (s.region regid).live then s.modRegion regid fun r => { r with aborting := true } else s

/-- The held items of a trap released, each with ATTEMPT + 1 (R339, R344). -/
def releaseHeld (trapid : Nat) (l : List QItem) : List QItem :=
  l.map fun q => if q.st = .held trapid then { q with st := .published, attempt := q.attempt + 1 } else q

/-- The held items of a trap removed from their queue (R344). -/
def dropHeldItems (trapid : Nat) (l : List QItem) : List QItem := l.filter fun q => q.st != .held trapid

/-- Every queue of a region changed. -/
def Region.mapQueues (r : Region) (f : List QItem → List QItem) : Region :=
  { r with queues := r.queues.map fun p => (p.1, f p.2) }

/-- A claim of `tret` acted on at its task's commit; the trap is then answered (R344). -/
def State.actClaim (s : State) (regid : Nat) (c : Claim) : State :=
  let s1 := s.modRegion regid fun r =>
    let q := r.mapQueues (if c.action = 0 then releaseHeld c.trapid else if c.action = 1 then dropHeldItems c.trapid else id)
    { q with traps := q.traps.filter fun t => t.trapid != c.trapid }
  if c.action = 2 then s1.startAbort regid else s1

/-- The places that a task keeps in stage queues and work lists given back: its reservations, and the places of the items
that it took (R321, R327). -/
def Region.release (r : Region) (c : Ctx) : Region :=
  let r1 := c.pushes.foldl (fun (r : Region) p => { r with reserved := tmod 0 r.reserved p.stage (· - 1) }) r
  let back (r : Region) (n : Nat) : Region := { r with listRes := tmod 0 r.listRes n (· - 1) }
  (c.takes.map (·.1)).foldl back ((c.apps.map (·.1)).foldl back r1)

/-- The slots of the items that a task holds: the one that began it, and those it popped (R21, R322). -/
def Ctx.slotsHeld (c : Ctx) : List Nat := c.item.slot :: c.pops.map (·.slot)

/-- The region after the commit of a task: its appended list items are published in append order, and the entries of its
items are free (R21, R129, R327). -/
def Region.commitTask (r : Region) (c : Ctx) : Region :=
  let r1 := r.release c
  let r2 := c.apps.foldl (fun (r : Region) p => { r with lists := tmod [] r.lists p.1 (· ++ [p.2]) }) r1
  { r2.setQueue c.stage ((r2.queue c.stage).filter fun q => !c.slotsHeld.contains q.slot) with tasks := r2.tasks + 1 }

/-- What other parts of the machine keep of a context, gone with its task: private copies in the L1, waits for headroom,
requests for translations, deferred faults, and writes of `ctl.split` that have not begun. -/
def State.forget (s : State) (k : Nat) : State :=
  let c := s.ctx k
  let s1 := s.l1DropPriv k
  let s2 := s1.modCore (k / 4) fun d =>
    { d with split := (if d.splitting then d.split.take 1 else []) ++
        ((if d.splitting then d.split.drop 1 else d.split).filter fun p => p.1 != k % 4) }
  { s2 with
    parts := s2.parts.map fun p =>
      (p.1, { p.2 with waits := p.2.waits.filter fun w => (match w.ctx with | some (x, _) => x != k | none => true) })
    miss := s2.miss.map fun p => (p.1, p.2.map fun m => { m with reqs := m.reqs.filter fun q => q.ctx != k })
    defers := s2.defers.filter fun d => !(d.ctx == k && d.taskid == c.taskid)
    saves := tdel s2.saves k }

/-- A context free, its version gone from the slices with the reservations that only it needed (R302, R334). -/
def State.vacate (s : State) (k : Nat) : State := (((s.forget k).dropHolds k).setCtx k {}).settleReserved

/-- The last part of a commit: pushed items enter their stage queues, the task's items free theirs, its claims are acted
on, and the context is free (R129, R344). -/
def State.commitEnd (s : State) (k : Nat) : State :=
  let c := s.ctx k
  match s.publishItems c.regid c.pushes with
  | .error t => s.waited t
  | .ok t =>
    let t1 := t.modRegion c.regid fun r => r.commitTask c
    let t2 := c.claims.foldl (fun u x => u.actClaim c.regid x) t1
    t2.vacate k

/-- A task's commit begins once its commands have completed: its sequence reservations are settled (R129, R282). -/
def State.commitBegin (s : State) (k : Nat) : State :=
  let t := s.settle k (s.ctx k).taskid
  t.modCtx k fun c => { c with st := .commit (t.commitSlices k) }

/-- One event of a commit in progress: the commit at a slice, or the end of it. -/
def State.commitStep (s : State) (k slice : Nat) (l : List Nat) : State :=
  if l = [] then s.commitEnd k
  else if !l.contains slice || s.sliceBusy k slice then s
  else (s.commitSlice k slice).modCtx k fun c => { c with st := .commit (l.filter (· != slice)) }

/-- Event: a task at `tend` commits at one slice, or, past its last slice, publishes its items and ends. A deferred fault
of the task makes it trap instead (R129, R224, R261, R291). -/
def execTaskCommit (s : State) : Host.Outcome State Fault Refusal :=
  let v := s.cur.ev
  let k := ctxKey v.core v.ctx
  let c := s.ctx k
  .next (match c.st with
    | .commit l => s.commitStep k v.a l
    | .run =>
      if !c.atTend || (s.region c.regid).aborting then s
      else
        match s.deferred k (fun _ => true) with
        | some d => s.raiseDeferred k d
        | none =>
          if !s.commandsDone k then s
          else
            let t := s.commitBegin k
            match (t.ctx k).st with
            | .commit l => t.commitStep k v.a l
            | _ => t
    | _ => s)

/-! ## Discard -/

/-- A transfer command has begun (R250, R334). -/
def Xfer.begun (x : Xfer) : Bool :=
  decide (0 < x.next) || decide (0 < x.asked) || x.moved || x.wrote || x.wait.isSome

/-- The commands of a queue of a discarded task: the begun one stops, and each later one moves nothing, sets its tag and
makes an error arrival on its barrier; so does one that a fault has ended or discarded before it came to its completion (R261,
R334). -/
def State.cancelXfers (s : State) (k : Nat) : List Access → State
  | [] => s
  | a :: l =>
    match a.kind with
    | .xfer x =>
      if x.begun && x.fault.isNone && !x.drop then s.cancelXfers k l
      else
        let s1 := if x.ten then s.setTag (k / 4) x.tag else s
        (s1.errorArrive k a.id a.eng x).cancelXfers k l
    | _ => s.cancelXfers k l

/-- An attention of a discarded task leaves the sequence unit; its tag is set. -/
def State.cancelAttn (s : State) (a : Attn) : State :=
  let s1 := if a.ten then s.setTag a.core a.tag else s
  if a.live then s1.putSeq a.scb { s1.seq a.scb with attn := (s1.seq a.scb).attn - 1 } else s1

/-- The items of a discarded task back at the head of their queue, the starting item first and the others in pop order,
held until the trap is handled (R322, R334). -/
def holdItems (c : Ctx) (st : QItem → ItemSt) (l : List QItem) : List QItem :=
  let mine := c.slotsHeld.filterMap fun n => l.find? fun q => q.slot == n
  (mine.map fun q => { q with st := st q }) ++ l.filter fun q => !c.slotsHeld.contains q.slot

/-- Items that a discarded task took from work lists, back at the heads of their lists in take order (R327). -/
def returnTaken (t : Tab (List Word56)) (l : List (Nat × Word56)) : Tab (List Word56) :=
  l.reverse.foldl (fun t p => tmod [] t p.1 (p.2 :: ·)) t

/-- What a discard does to the region: reservations released, taken items returned, items held, claims ended (R334,
R345). -/
def Region.discardTask (r : Region) (c : Ctx) (trapid : Nat) : Region :=
  let r1 := r.release c
  { r1.setQueue c.stage (holdItems c (fun _ => .held trapid) (r1.queue c.stage)) with
    lists := returnTaken r1.lists c.takes
    traps := r1.traps.map fun t => if t.claim = some c.taskid then { t with claim := none } else t }

/-- A task discarded: its open region and its commands stopped, a ring reduction to which every lane has given its cells
being carried to its end (R334, R346), its sequence reservations settled, its version dropped,
its reservations released, its items held, its streams, queues and tokens gone, and its context free (R334, R335). -/
def State.discardTask (s : State) (k trapid : Nat) : State :=
  let c := s.ctx k
  let mine (x t : Nat) : Bool := x == k && t == c.taskid
  let s1 := (s.abandonRegion k).cancelXfers k (c.mq.filter (·.isXfer))
  let s2 := s1.lanes.foldl (fun t p => t.discardLane p.1 k c.taskid) s1
  let folds := s.reds.filter fun r => mine r.ctx r.taskid && r.ring && r.full && !(s.core (k / 4)).splitting
  let s3 := folds.foldl State.foldRing (s2.mats.foldl (fun t p => t.discardMat p.1 k c.taskid) s2)
  let out := s3.attns.filter fun a => mine a.ctx a.taskid
  let s4 : State := { s3 with reds := s3.reds.filter (fun r => !mine r.ctx r.taskid),
                              attns := s3.attns.filter fun a => !mine a.ctx a.taskid }
  let s5 := (out.foldl State.cancelAttn s4).settle k c.taskid
  (s5.modRegion c.regid fun r => r.discardTask c trapid).vacate k

/-! ## Traps -/

/-- The 64 bytes of a trap record (R340). -/
def trapRecord (c : Ctx) (k trapid : Nat) (t : Trap) : List Byte :=
  leBytes 64 (trapid % 2 ^ 32 * 2 ^ 480 + c.regid % 2 ^ 32 * 2 ^ 448 + c.taskid % 2 ^ 32 * 2 ^ 416 + t.pc % 2 ^ 32 * 2 ^ 384 +
    t.addr % 2 ^ 64 * 2 ^ 320 + c.itemVa % 2 ^ 64 * 2 ^ 256 + t.info % 2 ^ 32 * 2 ^ 224 + min 255 c.item.attempt * 2 ^ 216 +
    codeNum t.code * 2 ^ 208 + engIdx t.eng * 2 ^ 206 + k / 4 % 128 * 2 ^ 199 + k % 4 * 2 ^ 197 + c.stage % 8 * 2 ^ 194 +
    t.halt.toNat * 2 ^ 193 + t.soft.toNat * 2 ^ 192 + t.chk.toNat * 2 ^ 191 + t.defer.toNat * 2 ^ 190 +
    t.qent.toNat * 2 ^ 189 + t.save.toNat * 2 ^ 188 + t.clock % 2 ^ 64 * 2 ^ 64)

/-- The first trap record that waits at the scheduler is published as an item of the handler's queue once that has room:
the record in bytes 0 to 63, zeros above (R339). -/
def State.publishTrap (s : State) (regid pick : Nat) : State :=
  let r := s.region regid
  let h := r.domain.toNat / 4096
  match r.traps.find? fun t => !t.queued with
  | none => s
  | some t =>
    if (r.stage h).depth ≤ r.occupancy h then s
    else
      match choose (s.openSlots regid h) pick with
      | none => s
      | some slot =>
        match s.publishItems regid
            [{ stage := h, slot := slot, data := t.record ++ List.replicate ((r.stage h).itemBytes - 64) 0 }] with
        | .error u => s.waited u
        | .ok u => u.modRegion regid fun g =>
            { g with traps := g.traps.map fun x => if x.trapid = t.trapid then { x with queued := true } else x }

/-- The counts that every trap raises (R330, R339). -/
def Region.countTrap (r : Region) (t : Trap) : Region :=
  { r with faults := r.faults + 1, vdisc := r.vdisc + 1, trapSeq := r.trapSeq + 1,
           fcode := if r.fcode = 0 then codeNum t.code else r.fcode,
           feng := if r.fcode = 0 then engIdx t.eng else r.feng }

/-- A trap delivered and handled (R334, R339). -/
def State.deliverTrap (s : State) (k pick : Nat) (t : Trap) : State :=
  let c := s.ctx k
  let r := s.region c.regid
  let id := r.trapSeq
  let e := r.domain.toNat
  let s1 := (s.modRegion c.regid fun g => g.countTrap t).discardTask k id
  if e / 4096 < 8 ∧ c.stage ≠ e / 4096 then
    if 64 ≤ r.traps.length then s1.startAbort c.regid
    else
      (s1.modRegion c.regid fun g =>
        { g with traps := g.traps ++ [{ trapid := id, record := trapRecord c k id t, queued := false }] }).publishTrap
          c.regid pick
  else if codeRetried t.code ∧ c.item.attempt < e / 256 % 16 then
    s1.modRegion c.regid fun g => g.mapQueues (releaseHeld id)
  else s1.startAbort c.regid

/-- A command that a fault ended has yet to write its record, or to find its ring full (R261). -/
def Xfer.owesRecord (x : Xfer) : Bool := x.fault.isSome && x.ren && !x.drop && !x.wrote && x.wait.isNone && x.acked

/-- A transfer engine or a column controller has begun a chunk of a command of a context, or the writes of a `creq`, and has
yet to end it: no boundary of the command (R250, R345). -/
def Ctx.midCommand (c : Ctx) : Bool :=
  c.mq.any fun a => match a.kind with
    | .xfer x => !x.finished && (x.cend.isSome || (x.kind == .creq && x.moved))
    | _ => false

/-- What holds a discard of a task back: a begun command that has not reached its boundary (R334, R346), or one ended by a fault
whose record its engine, not stopped, has yet to write (R261). -/
def State.discardWaits (s : State) (k : Nat) : Bool :=
  let c := s.ctx k
  c.midCommand || (!s.unitStopped c.part (.transfer (routeOf (k / 4))) &&
    c.mq.any fun a => match a.kind with | .xfer x => x.owesRecord | _ => false)

/-- Event: a trapped task is discarded and its trap is handled, its begun commands having reached their boundaries (R334,
R339, R346). -/
def execTrapDelivery (s : State) : Host.Outcome State Fault Refusal :=
  let v := s.cur.ev
  let k := ctxKey v.core v.ctx
  .next (match (s.ctx k).st, (s.ctx k).trap with
    | .trapped, some t =>
      if (s.region (s.ctx k).regid).aborting || s.discardWaits k then s else s.deliverTrap k s.cur.pick t
    | _, _ => s)

/-- Event: a trap record that waits at the scheduler is published (R339). -/
def execTrapRecordPublish (s : State) : Host.Outcome State Fault Refusal :=
  .next (s.publishTrap s.cur.ev.a s.cur.pick)

/-- Something of a context goes on without its engines: an access in its queues that what other engines have issued alone holds
back, a lane macro on its way to its queue, or a stream that a waiting `sunbind` may unbind. What it brings may end a stall (R32). -/
def State.goesOn (s : State) (k : Nat) : Bool :=
  let c := s.ctx k
  (c.mq.any fun a => !a.isXfer && s.comes k a) ||
  (s.lanes.any fun l => l.2.flight.any fun e => e.ctx == k && e.taskid == c.taskid) ||
  allEngs.any fun e => match (c.eng e).wait with | .sunbind z p => s.canUnbind k z e p | _ => false

/-- Event: a context whose four engines have all been stalled for 64 clocks on what nothing outside it releases traps with
QFAULT on X (R32). -/
def execDeadlockDetect (s : State) : Host.Outcome State Fault Refusal :=
  let v := s.cur.ev
  let k := ctxKey v.core v.ctx
  let c := s.ctx k
  .next (match c.st with
    | .run | .saving _ | .restoring _ =>
      if s.allDeadly k && decide (64 ≤ c.dead) && !s.goesOn k then s.raiseAt k .x (c.eng .x).pc .qfault else s
    | _ => s)

/-! ## `trap`, `chk`, `tabort`, `tstat`, `tret` -/

/-- A trap raised by an instruction with marks of its own. -/
def State.trapMarked (s : State) (t : Trap) : Res :=
  .stay (s.raise s.me { t with eng := s.cur.eng, pc := s.ce.pc, clock := s.clock })

/-- `trap` (R342). -/
def execTrap (m : Mods) (k : BitVec 15) (s : State) : Host.Outcome State Fault Refusal :=
  issue { mods := m } s fun t =>
    t.trapMarked { code := .watch, eng := .x, pc := 0, addr := 0, info := k.toNat, clock := 0, soft := true }

/-- `chk` (R342). -/
def execChk (m : Mods) (a b : Reg) (s : State) : Host.Outcome State Fault Refusal :=
  issue { mods := m, regs := [a, b] } s fun t =>
    if (t.rx b).toNat ≤ (t.rx a).toNat then
      t.trapMarked { code := .watch, eng := .x, pc := 0, addr := 0, info := (t.rx a).toNat % 2 ^ 32, clock := 0, chk := true }
    else .ok t

/-- `tabort`: the region of the task ends with STATUS ABORTED, the task with it (R343). -/
def execTabort (m : Mods) (s : State) : Host.Outcome State Fault Refusal :=
  issue { mods := m, cls := onX } s fun t => .stay (t.startAbort t.cc.regid)

/-- `tstat` (R344). -/
def execTstat (m : Mods) (d : Reg) (k : BitVec 2) (s : State) : Host.Outcome State Fault Refusal :=
  issue { mods := m, cls := onX, regs := [d] } s fun t =>
    .ok (t.wx d (quadN (match k.toNat with
      | 0 => t.cc.taskid % 2 ^ 32
      | 1 => min 255 t.cc.item.attempt
      | 2 => t.cr.faults
      | _ => t.cr.traps.length)))

/-- `tret`: a trap of the region claimed for an action at the task's commit (R344). -/
def State.claimTrap (s : State) (id action : Nat) : State × Nat :=
  let task := s.cc.taskid
  match s.cr.traps.find? fun t => t.trapid % 2 ^ 32 == id with
  | none => (s, 8)
  | some t =>
    if 2 < action then (s, 8)
    else if t.claim.isSome ∧ t.claim ≠ some task then (s, 2)
    else
      let s1 := s.modRegion s.cc.regid fun r =>
        { r with traps := r.traps.map fun x => if x.trapid = t.trapid then { x with claim := some task } else x }
      (s1.modMe fun c => { c with claims := c.claims.filter (fun x => x.trapid != t.trapid) ++
                                            [{ trapid := t.trapid, action := action }] }, 0)

/-- `tret` (R344). -/
def execTret (m : Mods) (d a b : Reg) (s : State) : Host.Outcome State Fault Refusal :=
  issue { mods := m, cls := onX, regs := [d, a, b] } s fun t =>
    let (u, status) := t.claimTrap ((t.rx a).toNat % 2 ^ 32) (t.rx b).toNat
    .ok (u.wx d (resultQuad status 0))

/-! ## Translations -/

/-- Every access of the task that precedes the instruction in execution has performed, those of its transfer commands among
them (R344). -/
def State.earlierDone (s : State) : Bool :=
  s.issuedBefore s.me s.cur.eng s.pos (fun d => decAccesses d || (match d with | .i v => instrXfer v || instrStreams v | .sys .. => false)) &&
  (s.cc.mq.all fun a => !(a.eng == s.cur.eng || s.ce.precedes a.pos s.pos)) && !s.cc.unitsLeft s.cur.eng s.pos

/-- The accesses of the task in execution that follow a change of translation, and issued before it, translate again; a
command of C that follows it is of the address space that the change leaves (R344). -/
def State.retarget (s : State) (part asid : Nat) : State :=
  let k := s.me
  let later (p : Pos) : Bool := (s.cc.eng .c).precedes s.pos p
  let mine (x t : Nat) : Bool := x == k && t == s.cc.taskid
  let after (e : MatEnt) : MatEnt :=
    if mine e.ctx e.taskid && later e.pos then { e with part := part, asid := asid } else e
  let bound (e : LaneEnt) : LaneEnt :=
    match e.cmd with
    | .wst b r => if mine e.ctx e.taskid && later e.pos then { e with cmd := .wst { b with part := part, asid := asid } r } else e
    | _ => e
  { s.modMe (fun c => { c with mq := c.mq.map fun a => if a.isXfer then a else { a with stale := true } }) with
    mats := s.mats.map fun m => (m.1, { m.2 with q := m.2.q.map after })
    lanes := s.lanes.map fun l => (l.1, { l.2 with q := l.2.q.map bound, flight := l.2.flight.map bound }) }

/-- A privileged instruction on translations: PROT in a task that is not privileged (R344). -/
def privOp (regs : List Reg) (s : State) (f : State → State) : Host.Outcome State Fault Refusal :=
  issue { cls := onX, regs := regs } s fun t =>
    if !t.cc.priv then .trap .prot 0 0 t
    else if !t.earlierDone then .stall .order t
    else .ok (f t)

/-- The ASID and the partition of an ASID word (R344). -/
def asidWord (v : Quad) : Nat × Nat := (bits v.toNat 11 0, bits v.toNat 19 16)

/-- The entries of every TLB and miss table that satisfy `p` removed; later accesses of the task translate again (R344). -/
def State.tlbRemove (s0 : State) (p : TlbEnt → Bool) (q : Miss → Bool) : State :=
  let s := s0.retarget s0.cc.part s0.cc.asid
  { s with
    cores := s.cores.map fun c => (c.1, { c.2 with tlb := c.2.tlb.filter fun t => !p t })
    ctlb := s.ctlb.map fun c => (c.1, c.2.filter fun t => !p t)
    dtlb := s.dtlb.map fun c => (c.1, c.2.filter fun t => !p t)
    miss := s.miss.map fun c => (c.1, c.2.filter fun t => !q t) }

/-- `tlbinv.pg` (R344). -/
def execTlbinvPg (a b : Reg) (s : State) : Host.Outcome State Fault Refusal :=
  privOp [a, b] s fun t =>
    let (asid, part) := asidWord (t.rx a)
    let va := (t.rx b).toNat
    t.tlbRemove (tlbCovers part asid va) fun m => m.part == part && m.asid == asid && m.page == va / 8192

/-- `tlbinv.as` (R344). -/
def execTlbinvAs (a : Reg) (s : State) : Host.Outcome State Fault Refusal :=
  privOp [a] s fun t =>
    let (asid, part) := asidWord (t.rx a)
    t.tlbRemove (fun e => e.part == part && e.asid == asid) fun m => m.part == part && m.asid == asid

/-- `tlbinv.all`: every entry of the task's partition (R344). -/
def execTlbinvAll (s : State) : Host.Outcome State Fault Refusal :=
  privOp [] s fun t => t.tlbRemove (fun e => e.part == t.cc.part) fun m => m.part == t.cc.part

/-- `asset`: `ctl.asid` of the context takes the partition and the ASID of the word (R120, R344). -/
def execAsset (a : Reg) (s : State) : Host.Outcome State Fault Refusal :=
  privOp [a] s fun t =>
    let (asid, part) := asidWord (t.rx a)
    (t.retarget part asid).modMe fun c => { c with part := part, asid := asid }

/-- A list with one more element, the oldest gone where it would hold more than `n`. -/
def cacheAdd {α : Type} (n : Nat) (l : List α) (a : α) : List α := (if l.length < n then l else l.drop (l.length + 1 - n)) ++ [a]

/-- The three TLB levels of a core filled with a translation (R121, R122). -/
def State.fillTlb (s : State) (core : Nat) (t : TlbEnt) : State :=
  let put (n : Nat) (l : List TlbEnt) : List TlbEnt :=
    cacheAdd n (l.filter fun e => !(e.part == t.part && e.asid == t.asid && e.va == t.va && e.size == t.size)) t
  let s1 := s.modCore core fun c => { c with tlb := put 64 c.tlb }
  { s1 with ctlb := tmod [] s1.ctlb (clusterOf core) (put 1024), dtlb := tmod [] s1.dtlb (dieOfCore core) (put 2048) }

/-- A request whose walk ended in XLATE faults, where its engine still stands at it; a command or a stream looks again by
itself (R122). -/
def State.failReq (s : State) (q : MissReq) : State :=
  let c := s.ctx q.ctx
  let g := c.eng q.eng
  if q.unit = false ∧ c.taskid = q.taskid ∧ g.pc = q.pc ∧ g.wait = .no then s.raiseAt q.ctx q.eng q.pc .xlate q.va else s

/-- Event: a walker finishes an entry of a die's miss table, one of the 64 that came first; the walk reads the page table through the L2
(R112, R122). -/
def execPageWalk (s : State) : Host.Outcome State Fault Refusal :=
  let die := s.cur.ev.a
  let t := tget [] s.miss die
  .next (match choose ((t.take 64).zipIdx) s.cur.pick with
    | none => s
    | some (m, i) =>
      let s1 : State := (s.walkReads m.part m.asid (8192 * m.page) s.cur.pick).foldl State.l2Fill
        { s with miss := tput s.miss die (t.eraseIdx i) }
      match s.walk m.part m.asid (8192 * m.page) s.cur.pick with
      | none => m.reqs.foldl State.failReq s1
      | some e =>
        let cores := (m.reqs.map fun q => q.ctx / 4).eraseDups
        let s2 := cores.foldl (fun u c => u.fillTlb c e) s1
        m.reqs.foldl (fun u q => u.modCtx q.ctx Ctx.wake) s2)

end Sys2Proof.Machine
end

