-- ==== Sys2Proof/Machine/Admit.lean ====
section
/-! DEFINITION. What the region scheduler reads at admission, and what it refuses: control blocks, stage tables, binding
requests, code objects and bindings (spec/01_execution_model.md R14-R20, R33, R34, spec/25_scheduling.md R312-R315,
spec/29_rings_host.md R352, spec/30_rings_host_notes.md R366, spec/31_code_objects.md R367-R375). -/

namespace Sys2Proof.Machine

/-! ## Statuses (R330) -/

/-- Completed. -/
def stDone : Nat := 0
/-- Aborted. -/
def stAborted : Nat := 1
/-- Refused for a budget. -/
def stBudget : Nat := 2
/-- Refused for a declaration. -/
def stDecl : Nat := 3
/-- Refused for a gang that can never be bound. -/
def stNobind : Nat := 4

/-! ## Reads of committed memory -/

/-- Committed bytes of G space as the scheduler reads them; none where an address does not translate (R312). -/
def State.readParts (s : State) (part asid : Nat) : List (Nat × Nat × Nat) → Option (List Byte)
  | [] => some []
  | (a, _, n) :: r =>
    match s.translateNow part asid a false with
    | .ok pa _ _ => (s.readParts part asid r).map (s.committed pa n ++ ·)
    | _ => none

/-- Committed bytes of G space from an address on. -/
def State.readG (s : State) (part asid va n : Nat) : Option (List Byte) := s.readParts part asid (lineParts va n)

/-- The translations of the pages of a range, each with write permission where it is asked for; none where one fails
(R312). -/
def State.holdPages (s : State) (part asid : Nat) (write : Bool) : List Nat → Option (List TlbEnt)
  | [] => some []
  | p :: r =>
    match (if 8192 * p < 2 ^ 53 then s.walk part asid (8192 * p) s.cur.pick else none) with
    | some t => if write && !t.w then none else (s.holdPages part asid write r).map ((if t.size = 8192 then t else
        { t with va := 8192 * p, size := 8192, pa := t.pa + (8192 * p - t.va) }) :: ·)
    | none => none

/-- The pages of a range. -/
def pagesIn (va n : Nat) : List Nat :=
  if n = 0 then [] else (List.range ((va + n - 1) / 8192 + 1 - va / 8192)).map (va / 8192 + ·)

/-- The translations that the scheduler holds for a range with write permission. -/
def State.holdRange (s : State) (part asid va n : Nat) : Option (List TlbEnt) := s.holdPages part asid true (pagesIn va n)

/-! ## Control blocks -/

/-- A field that a control block overrides, or the value it inherits (R15). -/
def inherited (mask bit own up : Nat) : Nat := if mask.testBit bit then up else own

/-- The resolved fields of a control block under what it inherits from; an overridden PRIO is at most the parent's where
there is a parent (R14, R15, R17). -/
def rcbOf (v : Nat) (up : Rcb) (child : Bool) : Rcb :=
  let m := bits v 463 448
  let prio := inherited m 10 (bits v 474 472) up.prio
  { sigaddr := inherited m 13 (bits v 1023 960) up.sigaddr, craddr := inherited m 12 (bits v 959 896) up.craddr,
    stagetbl := inherited m 1 (bits v 895 832) up.stagetbl, code := inherited m 0 (bits v 831 768) up.code,
    plstore := inherited m 14 (bits v 767 704) up.plstore, trellis := inherited m 2 (bits v 703 640) up.trellis,
    cores := inherited m 3 (bits v 575 560) up.cores, lanes := inherited m 4 (bits v 559 544) up.lanes,
    sram := inherited m 5 (bits v 543 528) up.sram, vways := inherited m 6 (bits v 527 520) up.vways,
    lslots := inherited m 7 (bits v 519 512) up.lslots, plse := inherited m 8 (bits v 511 496) up.plse,
    vlines := inherited m 9 (bits v 495 480) up.vlines, prio := if child then min prio up.prio else prio,
    fdom := inherited m 11 (bits v 471 464) up.fdom, inherit := m }

/-- What a host launch inherits: the defaults of the partition's record, and 0 for the addresses (R15). -/
def defaultsRcb (d : LaunchDefaults) : Rcb :=
  { cores := d.cores, lanes := d.lanes, sram := d.sram, vways := d.vways, lslots := d.lslots, plse := d.plse,
    vlines := d.vlines, prio := d.prio, fdom := d.fdom }

/-- What a launch inherits from. -/
def State.inheritsFrom (s : State) (l : Launch) : Rcb :=
  match l.parent with
  | some p => (s.region p).rcb
  | none => match (s.partn l.part).record with | some r => defaultsRcb r.defaults | none => {}

/-- The control block of a launch resolved, from what memory holds for it (R15). -/
def State.resolve (s : State) (l : Launch) (raw : Nat) : Rcb := rcbOf raw (s.inheritsFrom l) l.parent.isSome

/-- The control block of a launch as memory holds it; none where it cannot be read (R312). -/
def State.rawRcb (s : State) (l : Launch) : Option Nat := (s.readG l.part l.asid l.rcb 128).map leNat

/-- The fields of a control block lie in their ranges (R14); those of a host launch are there (R15). -/
def Rcb.ok (r : Rcb) (host : Bool) : Bool :=
  decide (1 ≤ r.cores ∧ r.cores ≤ 96 ∧ r.lanes ≤ 512 ∧ r.vways ≤ 16 ∧ r.lslots ≤ 16 ∧ 1 ≤ r.vlines) &&
  (!host || (r.code != 0 && r.stagetbl != 0 && r.trellis != 0 && (r.plstore != 0 || r.plse == 0)))

/-! ## Stages -/

/-- A stage descriptor (R18). -/
def stageOf (v : Nat) : Stage :=
  { qbase := bits v 255 192, entry := bits v 191 160, depth := bits v 159 144, outmask := bits v 143 136,
    item := bits v 135 132, min := bits v 127 120, max := bits v 119 112, low := bits v 111 96, high := bits v 95 80,
    win := bits v 70 64 }

/-- The eight descriptors of a stage table (R18). -/
def stagesOf (bs : List Byte) : List Stage := (List.range 8).map fun i => stageOf (leNat ((bs.drop (32 * i)).take 32))

/-- A stage is declared (R18). -/
def Stage.declared (t : Stage) : Bool := t.depth != 0

/-- The declarations of the stages hold (R19). R19 lists no refusal for a MIN or a MAX out of its range or a QBASE that is not
aligned, and their values are taken as given (DESIGN CHOICE, log 110). -/
def stagesOk (l : List Stage) (cores : Nat) : Bool :=
  (l.all fun t => !t.declared ||
    (decide (t.min ≤ t.max ∧ t.low < t.high ∧ t.win ≤ 64) &&
     (List.range 8).all fun k => !t.outmask.testBit k || (l.getD k {}).declared)) &&
  decide (((l.filter Stage.declared).map (·.min)).sum ≤ cores)

/-! ## Binding requests -/

/-- A group entry of a binding request (R313, R366). -/
def groupOf (v : Nat) : GroupReq :=
  { wbase := bits v 511 448, ncore := bits v 447 441, nlane := bits v 440 431, ncol := bits v 430 421,
    nslice := bits v 420 414, nbed := bits v 413 410, nmat := bits v 409 404, bedmask := bits v 403 396,
    coreloc := bits v 395 394, lbed := v.testBit 393 }

/-- The group entries of a binding request; none where it cannot be read or names no group, or too many (R313). -/
def State.readGroups (s : State) (part asid va : Nat) : Option (List GroupReq) :=
  match s.readG part asid va 64 with
  | none => none
  | some h =>
    let n := leNat (h.take 1)
    if n = 0 ∨ 16 < n then none
    else (s.readG part asid (va + 64) (64 * n)).map fun bs =>
      (List.range n).map fun i => groupOf (leNat ((bs.drop (64 * i)).take 64))

/-- The counts of a group entry: core, lane, column, slice, bed, matrix. -/
def GroupReq.counts (g : GroupReq) : List Nat := [g.ncore, g.nlane, g.ncol, g.nslice, g.nbed, g.nmat]

/-- A group entry lies in its ranges (R313, R366). -/
def GroupReq.ok (g : GroupReq) : Bool :=
  decide (g.ncore ≤ 96 ∧ g.nlane ≤ g.ncol ∧ g.ncol ≤ 512 ∧ g.nslice ≤ 64 ∧ g.nbed ≤ 8 ∧ g.nmat ≤ 32 ∧ g.coreloc ≤ 2) &&
  (g.ncol == 0 || g.wbase % 2 ^ 30 == 0) &&
  (!g.lbed || (g.nbed != 0 && g.nlane % g.nbed == 0))

/-- The beds in which roles of a group may bind (R313). -/
def GroupReq.beds (g : GroupReq) : List Nat :=
  (List.range 8).filter fun b => g.bedmask == 0 || g.bedmask.testBit b

/-- A core may take a core role of a group (R313). -/
def GroupReq.coreOk (g : GroupReq) (c : Nat) : Bool :=
  decide (c < 96) && (if c < 64 then g.coreloc != 2 && g.beds.contains (c / 8) else g.coreloc != 1)

/-- The bed role in whose bed lane role `i` binds under LBED (R366). -/
def GroupReq.laneBedRole (g : GroupReq) (i : Nat) : Nat := i * g.nbed / g.nlane

/-- The role counts of a group can be met among some beds of the whole device (R314, R366). -/
def GroupReq.fits (g : GroupReq) (beds : List Nat) (cols : Nat → Nat) : Bool :=
  let b := (g.beds.filter beds.contains).length
  let n := ((g.beds.filter beds.contains).map cols).sum
  decide (g.ncore ≤ ((List.range 96).filter g.coreOk).length ∧ g.nlane ≤ n ∧ g.ncol ≤ n ∧
    g.nslice ≤ 8 * g.beds.length ∧ g.nbed ≤ b ∧ g.nmat ≤ 32 ∧ g.nmat ≤ g.ncore) &&
  (g.nmat == 0 || g.coreloc != 1) &&
  (!g.lbed || decide (g.nbed ≤ ((g.beds.filter beds.contains).filter fun c => decide (g.nlane / g.nbed ≤ cols c)).length))

/-- The kinds of beds that binding requests tell apart: for each kind, the groups whose roles may bind there (R313). -/
def bedKinds (l : List GroupReq) : List (List Bool) :=
  ((List.range 8).map fun b => l.map fun g => g.beds.contains b).eraseDups

/-- How many cores the groups of a launch need, and of which kinds: hub cores first, then bed cores by kind of bed (R313,
R314). -/
def coreNeeds (l : List GroupReq) : List (Nat × List Bool) :=
  l.zipIdx.flatMap fun p =>
    [(p.1.ncore, (p.1.coreloc != 1) :: (bedKinds l).map fun k => p.1.coreloc != 2 && k.getD p.2 false),
     (p.1.nmat, [true])]

/-- How many cores of each kind are among some cores. -/
def coreCaps (l : List GroupReq) (o : List Nat) : List Nat :=
  (o.filter fun c => decide (64 ≤ c)).length ::
    (bedKinds l).map fun k => (o.filter fun c => decide (c < 64) && (l.map fun g => g.beds.contains (c / 8)) == k).length

/-- At most `n` distinct cores, of kinds that are there in given numbers, meet every need. -/
def coresMeet (n : Nat) : List Nat → List (Nat × List Bool) → Bool
  | [], needs => needs.all fun p => p.1 == 0
  | cap :: r, needs =>
    let most := (needs.map fun p => if p.2.headD false then p.1 else 0).foldl max 0
    (List.range (min most (min cap n) + 1)).any fun m =>
      coresMeet (n - m) r (needs.map fun p => (if p.2.headD false then p.1 - m else p.1, p.2.tail))

/-- Every binding of the groups of a launch binds more distinct cores than its CORES (R314). -/
def coresBeyond (n : Nat) (l : List GroupReq) : Bool :=
  decide (n < (l.map (·.ncore)).foldl max 0) ||
  (coresMeet 96 (coreCaps l (List.range 96)) (coreNeeds l) && !coresMeet n (coreCaps l (List.range 96)) (coreNeeds l))

/-- The sets of beds within which the bed, lane and column roles of a launch must bind: the whole package, or a subring
(R352). -/
def State.bedSets (s : State) : List (List Nat) := if s.ring4 then [[0, 1, 2, 3], [4, 5, 6, 7]] else [List.range 8]

/-- A launch that no binding of the whole device can ever meet (R314, R352). -/
def State.neverBindable (s : State) (l : List GroupReq) : Bool :=
  !(s.bedSets.any fun b => l.all fun g => g.fits b fun c => (s.openCols c).length)

/-! ## Bindings -/

/-- The units that a group proposes meet R33, R313 and R366. -/
def State.groupOk (s : State) (g : GroupReq) (b : GroupBind) : Bool :=
  ([b.core, b.lane, b.column, b.slice, b.bed, b.matrix].map List.length == g.counts) &&
  [b.core, b.lane, b.column, b.slice, b.bed, b.matrix].all (fun l => l.eraseDups == l) &&
  b.core.all g.coreOk &&
  b.lane.all (fun n => decide (n < 544) && g.beds.contains (n / 68) && (s.openCols (n / 68)).contains (n % 68)) &&
  b.column.all (fun c => decide (c < 544) && g.beds.contains (c / 68) && (s.openCols (c / 68)).contains (c % 68)) &&
  (b.column.take g.nlane == b.lane) &&
  b.slice.all (fun n => decide (n < 64) && g.beds.contains (n / 8)) &&
  b.bed.all g.beds.contains &&
  b.matrix.all (fun n => decide (n < 32) && b.core.contains (64 + n)) &&
  (!g.lbed || (List.range g.nlane).all fun i =>
    b.lane.getD i 0 / 68 == b.bed.getD (g.laneBedRole i) 8)

/-- The beds that the bed, lane and column roles of a binding touch. -/
def bindTouches (b : GroupBind) : List Nat := b.bed ++ b.lane.map (· / 68) ++ b.column.map (· / 68)

/-- All groups of a launch bind under R33, R313, R352 and R366. -/
def State.groupsOk (s : State) (l : List GroupReq) (b : List GroupBind) : Bool :=
  decide (l.length = b.length) && (l.zip b).all (fun p => s.groupOk p.1 p.2) &&
  s.bedSets.any fun set => b.all fun g => (bindTouches g).all set.contains

/-- The cores bound to core roles, each once. -/
def boundCores (b : List GroupBind) : List Nat := (b.flatMap (·.core)).eraseDups

/-! ## Cores -/

/-- The number of cores that a launch takes at admission: all its CORES, or where it inherits them enough for its MIN
(R314). -/
def coresTaken (r : Rcb) (child : Bool) (st : List Stage) : Nat :=
  if child && r.inherit.testBit bitCores then max 1 ((st.filter Stage.declared).map (·.min)).sum else r.cores

/-- The cores that a launch may take (R314). -/
def State.coresOpen (s : State) (l : Launch) : List Nat :=
  match l.parent with
  | none => s.freeCores l.part
  | some p => s.idleCores (s.ownerOf bitCores p)

/-- The cores of a proposed binding: every bound core first, then others, from those open to the launch (R314). -/
def State.coresOk (s : State) (l : Launch) (r : Rcb) (st : List Stage) (b : Binding) : Bool :=
  let bound := boundCores b.groups
  let inh := l.parent.isSome && r.inherit.testBit bitCores
  (b.cores.eraseDups == b.cores) && (b.cores.take bound.length == bound) && b.cores.all (s.coresOpen l).contains &&
  (if inh then decide (b.cores.length = max bound.length (coresTaken r true st))
   else decide (b.cores.length = r.cores))

/-! ## Code objects -/

/-- A section table entry (R368). -/
def sectOf (v : Nat) : Sect :=
  { kind := bits v 255 248, kern := bits v 247 240, var := bits v 239 232, off := bits v 223 192, len := bits v 191 160,
    feat := bits v 127 0 }

/-- The sections of a code object whose header is valid, with the header (R367, R368); none where it cannot be read, or
its header or the kernel index does not hold. -/
def State.readObject (s : State) (part asid base kern : Nat) : Option (List Byte × List Sect) :=
  match s.readG part asid base 64 with
  | none => none
  | some h =>
    let v := leNat h
    if bits v 511 480 ≠ 0x4E4C4F31 ∨ bits v 479 464 ≠ 1 ∨ bits v 463 456 ≤ kern then none
    else
      let n := bits v 415 400
      (s.readG part asid (base + bits v 447 416) (32 * n)).map fun bs =>
        (h, (List.range n).map fun i => sectOf (leNat ((bs.drop (32 * i)).take 32)))

/-- The feature words as one number (R371). -/
def State.features (s : State) : Nat :=
  s.featWord 0 + s.featWord 1 * 2 ^ 32 + s.featWord 2 * 2 ^ 64 + s.featWord 3 * 2 ^ 96

/-- The text of lowest variant whose required features are all there (R371). -/
def pickText (f : Nat) (kern : Nat) (l : List Sect) : Option Sect :=
  (List.range 255).findSome? fun v =>
    l.find? fun t => t.kind == 1 && t.kern == kern && t.var == v && (t.feat &&& f) == t.feat

/-- The section of a kind of a kernel. -/
def sectFor (l : List Sect) (kind kern : Nat) : Option Sect := l.find? fun t => t.kind == kind && t.kern == kern

/-- The words of an entry and yield table, and its yield entries (R369). -/
def tableOf (bs : List Byte) : List Nat × List YieldEnt :=
  ((List.range 8).map fun i => leNat ((bs.drop (4 * i)).take 4),
   (List.range ((bs.length - 32) / 16)).map fun i =>
     let v := leNat ((bs.drop (32 + 16 * i)).take 16)
     { ypc := bits v 127 96, save := bits v 95 64, restore := bits v 63 32, nv := bits v 31 16 })

/-- The header of a code object with MANOFF and MANLEN as zero (R372). -/
def bareHeader (h : List Byte) : List Byte := h.take 36 ++ List.replicate 8 0 ++ h.drop 44

/-- The digests that a manifest must hold: of the header, then of each section in table order (R372). -/
def State.objectDigests (s : State) (part asid base : Nat) (h : List Byte) (l : List Sect) : Option (List Byte) :=
  l.foldl (fun o t => o.bind fun acc => (s.readG part asid (base + t.off) t.len).map fun bs => acc ++ sha256 bs)
    (some (sha256 (bareHeader h)))

/-- The manifest of a code object verifies (R372). -/
def State.manifestOk (s : State) (part asid base : Nat) (h : List Byte) (l : List Sect) : Bool :=
  let v := leNat h
  let off := bits v 351 320
  let len := bits v 319 288
  if off = 0 then false
  else
    match s.readG part asid (base + off) len, s.objectDigests part asid base h l with
    | some m, some d =>
      let n := 12 + d.length
      (match Config.signerKey (quadN (leNat (m.take 8))) with
       | some key => (decide (n ≤ len) && leNat ((m.drop 8).take 4) == d.length / 32 && (m.take n).drop 12 == d) &&
           Config.signatureOk key (m.take n) (m.drop n)
       | none => false)
    | _, _ => false

/-- The check of signed code at an admission (R372). -/
def State.signedOk (s : State) (part asid base : Nat) (h : List Byte) (l : List Sect) : Bool :=
  match (s.partn part).record with
  | some r => !r.signed || (s.partn part).verified.contains (sha256 (bareHeader h)) || s.manifestOk part asid base h l
  | none => true

/-- The choice of a text (R371); none refuses. -/
def State.chooseText (s : State) (part asid base kern : Nat) (l : List Sect) : Option TextSel :=
  match pickText s.features kern l with
  | some t =>
    (match l.find? fun e => e.kind == 2 && e.kern == kern && e.var == t.var with
     | some e => (s.readG part asid (base + e.off) e.len).map (TextSel.native t)
     | none => none)
  | none =>
    match sectFor l 3 kern with
    | some m => (s.readG part asid (base + m.off) m.len).map .malig
    | none => none

/-- The feature words as Idust's key holds them (R375). -/
def State.featureKey (s : State) : List (BitVec 32) := (List.range 4).map fun i => BitVec.ofNat 32 (s.featWord i)

/-- The version of the translator that the service cores run (R375, R380). -/
def State.idustVersion (s : State) : BitVec 32 :=
  let f := tget {} s.images 1
  Config.idustVersion ((if f.runB then f.b else f.a).getD (Config.factoryImage 2 f.runB))

/-- An entry of the translation cache has a key (R375). -/
def IdustEnt.hasKey (e : IdustEnt) (tenant : Nat) (digest : List Byte) (feat : List (BitVec 32)) (version : BitVec 32) : Bool :=
  e.tenant == tenant && e.digest == digest && e.feat == feat && e.version == version

/-- The entry of a tenant's translation cache for a Malig section, in the memory of whichever of its partitions holds it: a key
is translated once (R375). -/
def State.idustEntry (s : State) (part : Nat) (bs : List Byte) : Option IdustEnt :=
  match (s.partn part).record with
  | none => none
  | some r => (s.parts.flatMap (·.2.idust)).find? fun e => e.hasKey r.tenant (sha256 bs) s.featureKey s.idustVersion

/-! ## The plan of an admission -/

/-- The role counts of the code object's groups equal those of the binding request (R313, R368). -/
def countsOk (table : List Byte) (l : List GroupReq) : Bool :=
  decide (table.length = 8 * l.length) &&
  (l.zipIdx.all fun p => Config.groupCounts (quadN (leNat ((table.drop (8 * p.2)).take 8))) == p.1.counts)

/-- The translations that the scheduler holds for a region from its admission; none where one fails (R312). -/
def State.holdAll (s : State) (part asid : Nat) (child : Bool) (r : Rcb) (st : List Stage) : Option (List TlbEnt) :=
  let q := st.filter Stage.declared |>.map fun t => (t.qbase, t.depth * t.itemBytes)
  let p := if r.plse = 0 then [] else [(r.plstore, 16 * r.plse)]
  let c := if r.craddr = 0 ∨ (child ∧ r.inherit.testBit 12) then [] else [(r.craddr, 64)]
  let g := if r.sigaddr = 0 ∨ (child ∧ r.inherit.testBit 13) then [] else [(r.sigaddr, 8)]
  (q ++ p ++ c ++ g).foldl (fun o x => o.bind fun l => (s.holdRange part asid x.1 x.2).map (l ++ ·)) (some [])

/-- The reservation of a child in each budget field that it overrides (R16). -/
def Rcb.budgets (r : Rcb) : List (Nat × Nat) :=
  [(3, r.cores), (4, r.lanes), (5, r.sram), (6, r.vways), (7, r.lslots), (8, r.plse), (9, r.vlines)]

/-- A reservation exceeds what its parent's pool has unallotted (R16). -/
def State.overBudget (s : State) (l : Launch) (r : Rcb) : Bool :=
  match l.parent with
  | none => false
  | some p => r.budgets.any fun b =>
      !r.inherit.testBit b.1 && decide (tget 0 (s.region (s.ownerOf b.1 p)).pools b.1 < b.2)

/-- The entry of the fault domain table that a launch is admitted under (R338). -/
def State.domainOf (s : State) (part fdom : Nat) : BitVec 16 :=
  match (s.partn part).record with
  | some p => p.fdom.getD fdom 0xF300#16
  | none => 0xF300#16

/-- The handler stage that a fault domain names is declared and holds a trap record (R338). -/
def handlerOk (d : BitVec 16) (st : List Stage) : Bool :=
  let h := d.toNat / 4096
  decide (8 ≤ h) || ((st.getD h {}).declared && decide (3 ≤ (st.getD h {}).item))

/-- The entry words of the declared stages are there (R369). -/
def entriesOk (sel : TextSel) (st : List Stage) : Bool :=
  match sel with
  | .native _ table => st.zipIdx.all fun p => !p.1.declared || (tableOf table).1.getD p.2 0 != 0xFFFFFFFF
  | .malig _ => true

/-- What a launch reads at its admission, once; none where something of it cannot be read or names no text (R14, R312). -/
def State.readPlan (s : State) (l : Launch) : Option Plan :=
  match s.rawRcb l with
  | none => none
  | some raw =>
    let r := s.resolve l raw
    let base := r.code / 256 * 256
    let kern := r.code % 256
    match s.readG l.part l.asid r.stagetbl 256, s.readGroups l.part l.asid r.trellis, s.readObject l.part l.asid base kern with
    | some st, some gs, some (h, sects) =>
      let stages := stagesOf st
      (match s.chooseText l.part l.asid base kern sects, s.holdAll l.part l.asid l.parent.isSome r stages,
          (sectFor sects 6 kern).bind fun t => s.readG l.part l.asid (base + t.off) t.len with
       | some sel, some held, some table =>
         some { raw := raw, rcb := r, stages := stages, groups := gs, base := base, text := sel, header := h, sects := sects,
                table := table, held := held, dataVa := match sectFor sects 4 kern with | some t => base + t.off | none => 0 }
       | _, _, _ => none)
    | _, _, _ => none

/-- A launch declares what it may (R14, R19, R313, R338, R368, R369, R372), in a partition that is configured (R378; which
status refuses it in one that is not is a DESIGN CHOICE, log 130). -/
def State.declared (s : State) (l : Launch) (p : Plan) : Bool :=
  (s.partn l.part).record.isSome && p.rcb.ok l.parent.isNone && stagesOk p.stages p.rcb.cores && p.groups.all GroupReq.ok &&
  countsOk p.table p.groups && decide ((p.groups.flatMap GroupReq.counts).sum ≤ 2048 ∧ l.seed ≤ (p.stages.getD 0 {}).depth) &&
  handlerOk (s.domainOf l.part p.rcb.fdom) p.stages && entriesOk p.text p.stages &&
  s.signedOk l.part l.asid p.base p.header p.sects

/-- The roles of a launch fit its own LANES and CORES (R313, R314). -/
def Plan.unitsOk (p : Plan) : Bool :=
  decide ((p.groups.map (·.nlane)).sum ≤ p.rcb.lanes) && !coresBeyond p.rcb.cores p.groups

/-- The status that refuses a launch as its control block is read (R312-R314); none where it may wait. -/
def State.planStatus (s : State) (l : Launch) (p : Plan) : Option Nat :=
  if !s.declared l p then some stDecl
  else if s.overBudget l p.rcb || !p.unitsOk then some stBudget
  else if s.neverBindable p.groups then some stNobind
  else none

/-- What a launch that waits has read holds under the record now in force (R15, R379). -/
def State.current (s : State) (l : Launch) : Bool :=
  match l.plan with
  | some p => s.resolve l p.raw == p.rcb
  | none => false

/-- What a launch that waits has read, under the record in force as it is admitted, or the status that refuses it there (R379).
A reservation that its parent's pool no longer holds keeps it waiting (DESIGN CHOICE, log 131). -/
def State.planNow (s : State) (l : Launch) (p : Plan) : Except Nat Plan :=
  let r := s.resolve l p.raw
  match (if r = p.rcb then some p.held else s.holdAll l.part l.asid l.parent.isSome r p.stages) with
  | none => .error stDecl
  | some held =>
    let q : Plan := { p with rcb := r, held := held }
    if !s.declared l q then .error stDecl else if !q.unitsOk then .error stBudget else .ok q

/-- The record of a partition requires signed code (R372). -/
def State.signedCode (s : State) (part : Nat) : Bool := match (s.partn part).record with | some r => r.signed | none => false

/-- The object that a launch has read, once it is verified, is remembered (R372). -/
def State.remember (s : State) (l : Launch) (p : Plan) : State :=
  if s.signedCode l.part && s.signedOk l.part l.asid p.base p.header p.sects then
    s.modPart l.part fun q => { q with verified := (q.verified ++ [sha256 (bareHeader p.header)]).eraseDups }
  else s

/-! ## Waiting launches -/

/-- The launches that wait for admission in a partition: those of the host, and the launch queues of its regions (R315,
R317). -/
def State.waiting (s : State) (part : Nat) : List Launch :=
  (s.partn part).launches ++ (s.regions.filter fun r => r.2.live && r.2.part == part).flatMap fun r => r.2.launchq

/-- A launch that waits for admission, by its REGID. -/
def State.findLaunch (s : State) (regid : Nat) : Option Launch :=
  (s.parts.flatMap (·.2.launches) ++ s.regions.flatMap fun r => if r.2.live then r.2.launchq else []).find?
    fun l => l.regid == regid

/-- The effective priority of a waiting launch whose control block has been read (R315). -/
def Launch.effPrio (l : Launch) : Nat := min 7 ((match l.plan with | some p => p.rcb.prio | none => 0) + l.rise)

/-- A launch comes before another in the order of admission (R315). -/
def launchBefore (a b : Launch) : Bool :=
  decide (b.effPrio < a.effPrio) || (a.effPrio == b.effPrio && decide (a.regid < b.regid))

/-- The INHERIT bits of LANES, LSLOTS, PLSE and PLSTORE (R15). -/
def bitLanes : Nat := 4
/-- The INHERIT bit of LSLOTS. -/
def bitLslots : Nat := 7
/-- The INHERIT bit of PLSE. -/
def bitPlse : Nat := 8
/-- The INHERIT bit of PLSTORE. -/
def bitPlstore : Nat := 14

/-- A child's parent has room for it: fewer children admitted, counted over the regions that share the parent's pool, than
the pool's LSLOTS less what is carved from it (R16, R315). -/
def State.slotOpen (s : State) (l : Launch) : Bool :=
  match l.parent with
  | none => true
  | some p =>
    let own := s.ownerOf bitLslots p
    decide (((s.sharing bitLslots own).map (·.children.length)).sum < tget 0 (s.region own).pools bitLslots) && !(s.region p).aborting

/-- Every slice has the version ways of a launch free: a host launch reserves its own (R314). -/
def State.waysOpen (s : State) (l : Launch) (r : Rcb) : Bool :=
  l.parent.isSome || decide (s.reservedWays + r.vways ≤ 16)

/-- The lane roles of a region. -/
def Region.laneRoles (r : Region) : Nat := (r.groups.map (·.nlane)).sum

/-- The pools that a child draws on hold what it needs: its reservations, and where it inherits LANES its lane roles beside
those of the regions that share them (R16). A launch that they do not hold waits (DESIGN CHOICE, log 131). -/
def State.poolsOpen (s : State) (l : Launch) (p : Plan) : Bool :=
  match l.parent with
  | none => true
  | some q =>
    let own := s.ownerOf bitLanes q
    let n := (p.groups.map (·.nlane)).sum
    !s.overBudget l p.rcb &&
    (!p.rcb.inherit.testBit bitLanes || n == 0 ||
      decide (((s.sharing bitLanes own).map Region.laneRoles).sum + n ≤ tget 0 (s.region own).pools bitLanes))

/-- What a launch draws on is there for it, its units apart. -/
def State.roomFor (s : State) (l : Launch) (p : Plan) : Bool :=
  s.slotOpen l && s.waysOpen l p.rcb && s.poolsOpen l p

/-- A binding of a launch is permitted now (R33, R314, R315). -/
def State.bindOk (s : State) (l : Launch) (p : Plan) (b : Binding) : Bool :=
  s.groupsOk p.groups b.groups && s.coresOk l p.rcb p.stages b && s.roomFor l p &&
  decide ((boundCores b.groups).length ≤ p.rcb.cores)

/-- The text of a launch is there: native, or translated (R371, R375). -/
def State.textReady (s : State) (l : Launch) (p : Plan) : Bool :=
  match p.text with
  | .native .. => true
  | .malig bs => match s.idustEntry l.part bs with | some e => e.ready | none => false

/-- A launch is admissible now: some binding of it is permitted (R314, R315). -/
def State.bindable (s : State) (l : Launch) : Bool :=
  match l.plan with
  | none => false
  | some p =>
    let o := s.coresOpen l
    s.textReady l p && s.roomFor l p &&
    (s.bedSets.any fun b => p.groups.all fun g => g.fits b fun c => (s.openCols c).length) &&
    decide (coresTaken p.rcb l.parent.isSome p.stages ≤ o.length) &&
    coresMeet (min p.rcb.cores o.length) (coreCaps p.groups o) (coreNeeds p.groups)

/-- The first of some launches that has waited its 50 µs at effective priority 7 (R315). -/
def State.dueFirst (s : State) (w : List Launch) : Option Launch :=
  w.foldl (fun o l =>
    match l.top with
    | none => o
    | some t =>
      if s.clock < t + 200000 then o
      else match o with
        | none => some l
        | some m => if t < m.top.getD 0 ∨ (t = m.top.getD 0 ∧ l.regid < m.regid) then some l else o) none

/-- The order of R315 lets a launch be admitted: the control blocks of all that wait have been read, under the record in force
(R379), no admissible launch comes before it, and no other has waited its 50 µs at effective priority 7 first. -/
def State.turnOf (s : State) (l : Launch) : Bool :=
  let w := s.waiting l.part
  w.all s.current &&
  (match s.dueFirst w with
   | some o => o.regid == l.regid
   | none => w.all fun o => o.regid == l.regid || !(launchBefore o l && s.bindable o))

end Sys2Proof.Machine
end

