-- ==== Sys2Proof/Machine/Launch.lean ====
section
/-! DEFINITION. Regions from their launch to their completion: admission, the balancer, quiescence, completion, abort,
and the messages of the host (spec/25_scheduling.md R311-R319, R323, R324, R328-R330, spec/27_traps.md R343). -/

namespace Sys2Proof.Machine

/-- The clocks of 2 µs. -/
def clocks2us : Nat := 8000
/-- The clocks of 50 µs. -/
def clocks50us : Nat := 200000

/-! ## Cores and stages -/

/-- A core assigned to a stage of a region: its allotment is the smaller of its units and the region's share for one
core, and SPAD takes it; bytes that change sides hold any value, the L1 is emptied, and the layout tags are 0 (R105, R106,
R240). Where SPAD stays as it was the L1 does too (DESIGN CHOICE, log 113). -/
def State.assignCore (s : State) (core regid stage : Nat) : State :=
  let r := (s.region regid).rcb
  let n := min (sramUnits core) (r.sram / r.cores)
  let old := (s.core core).spad
  let lo := min old n
  let hi := max old n
  let s1 := s.modCore core fun c =>
    { c with serve := some (regid, stage), join := none, allot := n, spad := n, ltags := [] }
  if old = n then s1
  else (s1.modCore core fun c => { c with l1 := [] }).havoc core (65536 * lo) (65536 * (hi - lo))

/-- A core serves a stage, or is to join it: a core in transit counts for its new stage (R323). -/
def State.coreStage (s : State) (c : Nat) : Option (Nat × Nat) :=
  match (s.core c).join with
  | some x => some x
  | none => (s.core c).serve

/-- The cores of a region that count for a stage (R323). -/
def State.stageCores (s : State) (r : Region) (n : Nat) : List Nat :=
  r.cores.filter fun c => s.coreStage c == some (r.regid, n)

/-- A stage is back-pressured: some stage it may push into stands at its high mark (R323). -/
def Region.backPressed (r : Region) (n : Nat) : Bool :=
  (List.range 8).any fun k => (r.stage n).outmask.testBit k && decide ((r.stage k).high ≤ r.occupancy k)

/-- The first element of a list at which a measure is smallest. -/
def leastBy {α : Type} (f : α → Nat) : List α → Option α
  | [] => none
  | a :: l => some (l.foldl (fun b c => if f c < f b then c else b) a)

/-- The stage that the balancer serves next (R323): those without a core first, then the fullest; ties go to the lowest
index. -/
def State.balTarget (s : State) (r : Region) : Option Nat :=
  let want (n : Nat) : Bool :=
    (r.stage n).declared &&
    (decide (1 ≤ r.occupancy n ∧ (s.stageCores r n).length = 0) ||
     decide ((r.stage n).high < r.occupancy n ∧ (s.stageCores r n).length < (r.stage n).max))
  leastBy (fun n => (if (s.stageCores r n).length = 0 then 0 else 2 ^ 32) + (2 ^ 31 - r.occupancy n)) ((List.range 8).filter want)

/-- Idle cores of a region assigned to its targets while there are both (R323). -/
def State.assignIdle (s : State) (regid pick : Nat) : Nat → State
  | 0 => s
  | f + 1 =>
    let r := s.region regid
    match choose (r.cores.filter s.coreIdle) pick, s.balTarget r with
    | some c, some n => (s.assignCore c regid n).assignIdle regid pick f
    | _, _ => s

/-- The tasks that a core runs of a region. -/
def State.coreTasks (s : State) (c regid : Nat) : Nat :=
  ((List.range 4).filter fun x => (s.ctx (ctxKey c x)).st != .idle && (s.ctx (ctxKey c x)).regid == regid).length

/-- The core that a donor stage gives: the one with the fewest running tasks, ties to the lowest index (R323). -/
def State.donorCore (s : State) (r : Region) (t : Nat) : Option Nat :=
  let d := (List.range 8).filter fun n => n != t && (r.stage n).declared && decide (r.occupancy n < (r.stage n).low) &&
    !r.backPressed n && decide ((r.stage n).min < (s.stageCores r n).length)
  match leastBy r.occupancy d with
  | none => none
  | some n => leastBy (fun c => 256 * s.coreTasks c r.regid + c) (s.stageCores r n)

/-- The cores of stages that stood empty for a whole period go idle (R39, R323). -/
def State.idleEmpty (s : State) (r : Region) : State :=
  let out := (r.empty.filter fun n => r.occupancy n == 0).flatMap fun n =>
    (s.stageCores r n).filter fun c => (s.core c).join.isNone && s.coreTasks c r.regid == 0
  out.foldl (fun t c => t.modCore c fun d => { d with serve := none }) s

/-- One run of the balancer for a region (R323, R324). -/
def State.balance (s : State) (regid pick : Nat) : State :=
  let r0 := s.region regid
  let s1 := s.idleEmpty r0
  let s2 := s1.assignIdle regid pick r0.cores.length
  let r := s2.region regid
  let empty := (List.range 8).filter fun n => (r.stage n).declared && r.occupancy n == 0
  let s3 := s2.modRegion regid fun g => { g with lastBal := s.clock, empty := empty, coreWait := none }
  match s2.balTarget r with
  | none => s3
  | some t =>
    match s2.donorCore r t with
    | some c => s3.modCore c fun d => { d with join := some (regid, t) }
    | none => s3.modRegion regid fun g => { g with coreWait := some (r0.coreWait.getD (s.clock, 0)) }

/-- Event: the balancer runs for a region, every 2 µs (R323). -/
def execBalancerRun (s : State) : Host.Outcome State Fault Refusal :=
  let r := s.region s.cur.ev.a
  .next (if r.live && !r.aborting && !(s.partn r.part).swapped && decide (r.lastBal + clocks2us ≤ s.clock) then s.balance s.cur.ev.a s.cur.pick else s)

/-- Event: a core in transit joins its new stage, its running tasks having ended (R20). -/
def execCoreJoinStage (s : State) : Host.Outcome State Fault Refusal :=
  let c := s.cur.ev.core
  .next (match (s.core c).join with
    | some (r, n) => if s.coreTasks c r = 0 then s.assignCore c r n else s
    | none => s)

/-- A region may be granted a core: an idle core of the pool that it shares, or, where the pool is its own and holds fewer
cores than are left of its CORES, a free core of its partition (R314, R324). -/
def State.mayTake (s : State) (r : Region) (c : Nat) : Bool :=
  let own := s.ownerOf bitCores r.regid
  r.live && !r.aborting && !(s.partn r.part).swapped && r.coreWait.isSome && !r.cores.contains c &&
  ((s.idleCores own).contains c ||
   (own == r.regid && decide ((s.poolCores own).length < tget 0 r.pools bitCores) && (s.freeCores r.part).contains c))

/-- The effective priority of a region that waits for a core (R324). -/
def Region.waitPrio (r : Region) : Nat := min 7 (r.rcb.prio + (r.coreWait.getD (0, 0)).2)

/-- Cores taken out of the hands of every region. -/
def State.takeCores (s : State) (part : Nat) (l : List Nat) : State :=
  { s with regions := s.regions.map fun p =>
      if p.2.part = part then (p.1, { p.2 with cores := p.2.cores.filter fun c => !l.contains c }) else p }

/-- Event: a core is granted to the waiting region of highest effective priority, ties to the older request (R324). -/
def execCoreGrant (s : State) : Host.Outcome State Fault Refusal :=
  let c := s.cur.ev.core
  let l := (s.regions.map (·.2)).filter fun r => s.mayTake r c
  .next (match leastBy (fun r => (7 - r.waitPrio) * 2 ^ 64 + (r.coreWait.getD (0, 0)).1) l with
    | none => s
    | some r =>
      (s.takeCores r.part [c]).modRegion r.regid fun g => { g with cores := g.cores ++ [c], coreWait := none })

/-- Event: a region that waits for a core rises by one level for each 50 µs, up to 7 (R324). -/
def execCoreWaitPriorityRise (s : State) : Host.Outcome State Fault Refusal :=
  let r := s.region s.cur.ev.a
  .next (match r.coreWait with
    | some (t, n) =>
      if r.live ∧ t + clocks50us * (n + 1) ≤ s.clock ∧ r.waitPrio < 7 then
        s.modRegion s.cur.ev.a fun g => { g with coreWait := some (t, n + 1) }
      else s
    | none => s)

/-! ## Completion -/

/-- The 64 bytes of a completion record (R330). -/
def completionRecord (r : Region) (status : Nat) : List Byte :=
  leBytes 64 (r.tstart % 2 ^ 64 * 2 ^ 448 + r.tend % 2 ^ 64 * 2 ^ 384 + r.regid % 2 ^ 32 * 2 ^ 352 +
    r.parent.getD 0 % 2 ^ 32 * 2 ^ 320 + r.tasks % 2 ^ 64 * 2 ^ 256 + r.vdisc % 2 ^ 64 * 2 ^ 192 +
    r.faults % 2 ^ 32 * 2 ^ 160 + r.fcode % 256 * 2 ^ 152 + r.feng % 4 * 2 ^ 150 + r.child % 2 ^ 32 * 2 ^ 96 +
    r.lbusy % 2 ^ 32 * 2 ^ 64 + status % 256)

/-- The address of the record of a region of its own; 0 for none (R14, R17). -/
def Region.recordVa (r : Region) : Nat := if r.parent.isSome && r.rcb.inherit.testBit 12 then 0 else r.rcb.craddr
/-- The address of the signal of a region of its own; 0 for none. -/
def Region.signalVa (r : Region) : Nat := if r.parent.isSome && r.rcb.inherit.testBit 13 then 0 else r.rcb.sigaddr

/-- The record of a region written, and then its signal raised by 1 (R329). -/
def State.writeCompletion (s : State) (r : Region) (status : Nat) : Except State State :=
  match (if r.recordVa = 0 then .ok s else s.heldWrite r (completionRecord r status) (lineParts r.recordVa 64)) with
  | .error t => .error t
  | .ok t =>
    match r.heldPa r.signalVa with
    | none => .ok t
    | some pa =>
      if r.signalVa = 0 then .ok t
      else t.heldWrite r (leBytes 8 ((leNat (t.committed pa 8) + 1) % 2 ^ 64)) (lineParts r.signalVa 8)

/-- The VALUE of a completed child: its STATUS and its fault count (R319). -/
def ChildEnd.value (e : ChildEnd) : Nat := e.status % 256 + e.faults % 2 ^ 32 * 256

/-- A completed child of a region reaped (R319). -/
def Region.reap (r : Region) (regid : Nat) : Region := { r with ends := r.ends.filter fun e => e.regid != regid }

/-- The contexts that wait for a child in an `lwait` and hold their contexts. -/
def State.lwaiters (s : State) (parent child : Nat) : List (Nat × Reg) :=
  s.ctxs.filterMap fun p =>
    match p.2.st, (p.2.eng .x).wait with
    | .run, .lwait d c => if p.2.regid = parent ∧ c = child then some (p.1, d) else none
    | _, _ => none

/-- A wait of X on a child ends with a result; the return acquires over the child's commits (R143, R319). The engines that
stopped at a `yield` for it go on. -/
def State.endLwait (s : State) (k : Nat) (d : Reg) (v : Quad) : State :=
  ((s.l1DropAll (k / 4)).writeReg k .x d v).modCtx k fun c =>
    if c.preq then c.endWait .x else (c.endWait .x).endYields

/-- A child has completed: its end is kept until it is reaped, and of the tasks that wait for it one reaps it and the
others have BADARG (R318, R319). -/
def State.endChild (s : State) (parent : Nat) (e : ChildEnd) (pick : Nat) : State :=
  let s1 := s.modRegion parent fun r =>
    { r with child := r.child + 1, children := r.children.filter (· != e.regid), ends := r.ends ++ [e],
             saved := r.saved.map fun v => if v.child = e.regid then { v with done := true } else v }
  let l := s1.lwaiters parent e.regid
  match choose l pick with
  | none => s1
  | some (k, d) =>
    let s2 := (s1.endLwait k d (resultQuad 0 e.value)).modRegion parent fun r => r.reap e.regid
    (l.filter fun p => p.1 != k).foldl (fun t p => t.endLwait p.1 p.2 (resultQuad 8 0)) s2

/-- The end of a launch told to whoever asked for it: COMPLETE to the host, or the end of a child (R311, R319, R329). -/
def State.tellEnd (s : State) (part : Nat) (parent : Option Nat) (tag : Nat) (e : ChildEnd) (pick : Nat) : State :=
  match parent with
  | none => s.send (.complete part e.regid tag e.status)
  | some p => s.endChild p e pick

/-- The reservations of a completed region returned (R16, R329). -/
def State.returnPools (s : State) (r : Region) : State :=
  match r.parent with
  | none => s
  | some p => (r.rcb.budgets.filter fun b => !r.rcb.inherit.testBit b.1).foldl (fun t b =>
      t.modRegion (t.ownerOf b.1 p) fun g => { g with pools := tmod 0 g.pools b.1 (· + b.2) }) s

/-- The counts of a child without a record of its own added to its parent's (R17). -/
def State.addCounts (s : State) (r : Region) : State :=
  match r.parent with
  | none => s
  | some p =>
    if r.rcb.inherit.testBit 12 then
      s.modRegion p fun g => { g with tasks := g.tasks + r.tasks, faults := g.faults + r.faults, vdisc := g.vdisc + r.vdisc }
    else s

/-- A region that ends while its partition is swapped out gives up what shadow storage holds of its units (R329, R351). -/
def Partition.unshadow (p : Partition) (r : Region) : Partition :=
  { p with
    shadow := p.shadow.map fun h =>
      if r.cores.contains h.1 then (h.1, { h.2 with core := { h.2.core with serve := none, join := none } }) else h
    shLanes := p.shLanes.filter fun x => !(r.trellis.flatMap (·.lane)).contains x.1
    shMats := p.shMats.filter fun x => !(r.trellis.flatMap (·.matrix)).contains x.1 }

/-- The cores of a completed region free, or back with its parent (R314, R329). -/
def State.returnCores (s : State) (r : Region) : State :=
  let s1 := if (s.partn r.part).swapped then s.modPart r.part (·.unshadow r)
    else r.cores.foldl (fun t c => t.modCore c fun d => { d with serve := none, join := none }) s
  match r.parent with
  | none => s1
  | some p => s1.modRegion p fun g => { g with cores := g.cores ++ r.cores }

/-- A region completes: record, signal, reservations and cores, and the word to whoever launched it (R329). -/
def State.complete (s : State) (regid status pick : Nat) : State :=
  let r := s.region regid
  match s.writeCompletion r status with
  | .error t => t
  | .ok t =>
    let t1 := (((t.modRegion regid fun g => { g with live := false, cores := [], held := [] }).addCounts r).returnPools r).returnCores r
    t1.tellEnd r.part r.parent (r.hostTag.getD 0) { regid := regid, status := status, faults := r.faults } pick

/-! ## Quiescence -/

/-- A task of a region is running, here or in shadow storage, those that `skip` names apart. -/
def State.hasTask (s : State) (regid : Nat) (skip : Nat → Bool) : Bool :=
  s.ctxs.any (fun p => p.2.st != .idle && p.2.regid == regid && !skip p.1) ||
  s.parts.any fun p => p.2.shadow.any fun h => h.2.ctxs.any fun c => c.2.st != .idle && c.2.regid == regid

/-- A region is quiescent but for the contexts that `skip` names (R37, R328). -/
def State.quietBut (s : State) (regid : Nat) (skip : Nat → Bool) : Bool :=
  let r := s.region regid
  r.queues.all (fun p => p.2.all fun q =>
    s.ctxs.any fun c => skip c.1 && c.2.regid == regid && c.2.stage == p.1 && c.2.slotsHeld.contains q.slot) &&
  r.lists.all (fun p => p.2.isEmpty) && !s.hasTask regid skip && r.saved.isEmpty &&
  r.children.isEmpty && r.launchq.isEmpty && r.pending.isEmpty

/-- Event: the termination detector reports a region quiescent (R37). -/
def execQuiescenceReport (s : State) : Host.Outcome State Fault Refusal :=
  let r := s.region s.cur.ev.a
  .next (if r.live && !r.aborting && !r.quiet && s.quietBut s.cur.ev.a (fun _ => false) then
      s.modRegion s.cur.ev.a fun g => { g with quiet := true, tend := s.clock }
    else s)

/-- Event: a region completes, its quiescence reported, or its abort done (R329, R343). -/
def execRegionCompletion (s : State) : Host.Outcome State Fault Refusal :=
  let n := s.cur.ev.a
  let r := s.region n
  .next (
    if !r.live then s
    else if r.quiet && !r.aborting then s.complete n stDone s.cur.pick
    else if r.aborting && s.quietBut n (fun _ => false) then
      (s.modRegion n fun g => { g with tend := s.clock }).complete n stAborted s.cur.pick
    else s)

/-- A context waits in `quies`. -/
def State.inQuies (s : State) (k : Nat) : Bool :=
  match (s.ctx k).st, ((s.ctx k).eng .x).wait with
  | .run, .quies .. => true
  | _, _ => false

/-- Event: a waiting `quies` finds its region quiescent but for itself and the other waiters (R328). -/
def execQuiesReturn (s : State) : Host.Outcome State Fault Refusal :=
  let k := ctxKey s.cur.ev.core s.cur.ev.ctx
  .next (match ((s.ctx k).eng .x).wait with
    | .quies d _ _ =>
      if s.inQuies k && s.quietBut (s.ctx k).regid s.inQuies then
        (s.writeReg k .x d (resultQuad 0 1)).modCtx k fun c => c.endWait .x
      else s
    | _ => s)

/-- Event: the timeout of a `quies` expires (R328). -/
def execQuiesTimeout (s : State) : Host.Outcome State Fault Refusal :=
  let k := ctxKey s.cur.ev.core s.cur.ev.ctx
  .next (match ((s.ctx k).eng .x).wait with
    | .quies d limit since =>
      if limit = 0 ∨ s.clock < since + limit.toNat then s
      else (s.writeReg k .x d (resultQuad 5 0)).modCtx k fun c => c.endWait .x
    | _ => s)

/-! ## Abort -/

/-- A running task that an abort discards, its begun commands having reached their boundaries: no slice event of a commit of
it has begun (R343, R346). -/
def State.abortable (s : State) (k regid : Nat) : Bool :=
  let c := s.ctx k
  c.regid == regid && !s.discardWaits k &&
  (match c.st with | .idle => false | .commit l => l == s.commitSlices k | _ => true)

/-- A task whose context is saved discarded: it holds no context of a core. -/
def State.discardSaved (s : State) (v : SavedTask) : State :=
  let k := 2 ^ 20 + v.ctx.taskid * 4
  let t := (s.setCtx k v.ctx).discardTask k 0
  { t with ctxs := tdel t.ctxs k, cores := tdel t.cores (k / 4) }

/-- The discards of an abort: running tasks, children, queues, lists, launches that wait, and unanswered traps (R343). -/
def State.abortDiscards (s : State) (regid : Nat) : State :=
  let ks := (s.ctxs.map (·.1)).filter fun k => s.abortable k regid
  let r := s.region regid
  let s1 := ks.foldl (fun t k => t.discardTask k 0) s
  let s2 := r.saved.foldl State.discardSaved s1
  let s3 := r.children.foldl State.startAbort s2
  let busy := (s3.ctxs.filter fun p => p.2.regid == regid && p.2.st != .idle).map (·.2)
  s3.modRegion regid fun g =>
    { g with
      queues := g.queues.map fun p => (p.1, p.2.filter fun q => busy.any fun c => c.stage == p.1 && c.slotsHeld.contains q.slot)
      lists := [], launchq := [], pending := [], traps := [], saved := []
      vdisc := g.vdisc + ks.length + r.saved.length }

/-- Event: a region that is to abort discards its tasks and what waits for them (R343). -/
def execRegionAbort (s : State) : Host.Outcome State Fault Refusal :=
  let r := s.region s.cur.ev.a
  .next (if r.live && r.aborting then s.abortDiscards s.cur.ev.a else s)

/-! ## Admission -/

/-- A launch off the queue in which it waited; the first entry of the pending store moves into its parent's launch queue
(R317). -/
def State.unqueue (s : State) (l : Launch) : State :=
  match l.parent with
  | none => s.modPart l.part fun p => { p with launches := p.launches.filter fun o => o.regid != l.regid }
  | some p => s.modRegion p fun r =>
      { r with launchq := (r.launchq.filter fun o => o.regid != l.regid) ++ r.pending.take 1, pending := r.pending.drop 1 }

/-- A waiting launch changed in its queue. -/
def State.putLaunch (s : State) (l : Launch) : State :=
  let f (x : List Launch) : List Launch := x.map fun o => if o.regid = l.regid then l else o
  match l.parent with
  | none => s.modPart l.part fun q => { q with launches := f q.launches }
  | some g => s.modRegion g fun r => { r with launchq := f r.launchq }

/-- The region record of a refused launch: what its completion writes (R312, R330). -/
def State.refusedRegion (s : State) (l : Launch) : Region :=
  let r := match l.plan with | some p => p.rcb | none => ((s.rawRcb l).map (s.resolve l)).getD {}
  let g : Region := { regid := l.regid, parent := l.parent, part := l.part, asid := l.asid, rcb := r, tstart := s.clock,
                      tend := s.clock }
  let c := if g.recordVa = 0 then [] else (s.holdRange l.part l.asid g.recordVa 64).getD []
  let q := if g.signalVa = 0 then [] else (s.holdRange l.part l.asid g.signalVa 8).getD []
  { g with held := c ++ q }

/-- A launch refused with a status: it completes at once (R312, R318). -/
def State.refuse (s : State) (l : Launch) (status pick : Nat) : State :=
  match s.writeCompletion (s.refusedRegion l) status with
  | .error t => t
  | .ok t => (t.unqueue l).tellEnd l.part l.parent l.tag { regid := l.regid, status := status, faults := 0 } pick

/-- PARENT and REGID written into the control block of an admitted region (R14, R312). -/
def State.writeRcb (s : State) (l : Launch) : Except State State :=
  let up := match l.parent with | some p => (s.region p).tplVa | none => 0
  let held := [s.walk l.part l.asid l.rcb s.cur.pick].filterMap id
  let g : Region := { regid := l.regid, part := l.part, held := held }
  match s.heldWrite g (leBytes 8 up) (lineParts (l.rcb + 72) 8) with
  | .error t => .error t
  | .ok t => t.heldWrite g (leBytes 4 l.regid) (lineParts (l.rcb + 52) 4)

/-- The text, its length, the bytes of a translation, and the entry and yield table of a plan; none where a translation
names no entry for a declared stage (R369, R371, R374). -/
def Plan.textOf (p : Plan) (tr : Option (List Byte × List Byte)) :
    Option (Nat × Nat × Option (List Byte) × List Nat × List YieldEnt) :=
  match p.text with
  | .native t table => some (p.base + t.off, t.len, none, tableOf table)
  | .malig _ =>
    match tr with
    | none => none
    | some (text, table) =>
      let w := tableOf table
      if p.stages.zipIdx.all fun q => !q.1.declared || w.1.getD q.2 0 != 0xFFFFFFFF then
        some (0, text.length, some text, w)
      else none

/-- The region that an admission makes (R312). -/
def State.newRegion (s : State) (l : Launch) (p : Plan) (b : Binding)
    (t : Nat × Nat × Option (List Byte) × List Nat × List YieldEnt) : Region :=
  let own := fun (x : Nat × Nat) => l.parent.isNone || !p.rcb.inherit.testBit x.1
  { regid := l.regid, live := true, parent := l.parent, part := l.part, asid := l.asid, priv := l.priv,
    hostTag := if l.parent.isNone then some l.tag else none, tplVa := l.rcb, rcb := p.rcb,
    domain := s.domainOf l.part p.rcb.fdom, salt := (s.partn l.part).salt, pools := p.rcb.budgets.filter own, cores := b.cores, groups := p.groups,
    trellis := b.groups, stages := p.stages.zipIdx.map fun q => { q.1 with entry := t.2.2.2.1.getD q.2 0 },
    queues := [(0, (List.range l.seed).map fun i => { slot := i, attempt := 0, st := .published })],
    textVa := t.1, textLen := t.2.1, textBytes := t.2.2.1, dataVa := p.dataVa, yields := t.2.2.2.2, held := p.held,
    lastBal := s.clock, tstart := s.clock }

/-- The reservations of an admitted child carved from its parent's pools (R16). -/
def State.carve (s : State) (l : Launch) (r : Rcb) : State :=
  match l.parent with
  | none => s
  | some p => (r.budgets.filter fun b => !r.inherit.testBit b.1).foldl (fun t b =>
      t.modRegion (t.ownerOf b.1 p) fun g => { g with pools := tmod 0 g.pools b.1 (· - b.2) }) s

/-- Stages given their MIN cores each, in ascending stage order (R323). -/
def State.giveMin (s : State) (regid : Nat) : List (Stage × Nat) → List Nat → State
  | [], _ => s
  | (t, n) :: r, cs =>
    let m := if t.declared then t.min else 0
    ((cs.take m).foldl (fun u c => u.assignCore c regid n) s).giveMin regid r (cs.drop m)

/-- A launch admitted with a binding (R312); a column bound to a role has 24 lane slots (R235), a lane bound to one has
both fields of its configuration word at 0 (R226), and a matrix engine bound to one its semaphores (R240). -/
def State.admitLaunch (s : State) (l : Launch) (p : Plan) (b : Binding)
    (t : Nat × Nat × Option (List Byte) × List Nat × List YieldEnt) (pick : Nat) : State :=
  match s.writeRcb l with
  | .error u => u
  | .ok u =>
    let g := s.newRegion l p b t
    let u1 := (((u.unqueue l).carve l p.rcb).takeCores l.part b.cores)
    let u2 : State := { u1 with regions := tput u1.regions l.regid g }
    let u3 := match l.parent with
      | some q => u2.modRegion q fun r => { r with children := r.children ++ [l.regid] }
      | none => u2
    let u4 := (b.groups.flatMap (·.column)).foldl (fun t c => t.modCol c fun v => { v with lslots := 24, plan := none }) u3
    let u5 := (b.groups.flatMap (·.lane)).foldl (fun t n => t.setLane n { t.lane n with rsync := false, pol := false }) u4
    let u6 := (b.groups.flatMap (·.matrix)).foldl (fun t n => t.setMat n { t.mat n with sems := [] }) u5
    (u6.giveMin l.regid g.stages.zipIdx b.cores).balance l.regid pick

/-- A translation that an admission waits for: it is asked for once (R375). -/
def State.askIdust (s : State) (part : Nat) (bs : List Byte) : State :=
  match (s.partn part).record with
  | none => s
  | some r => s.modPart part fun p =>
      { p with idust := p.idust ++ [{ tenant := r.tenant, digest := sha256 bs, feat := s.featureKey, version := s.idustVersion, result := none,
                                      ready := false, since := s.clock, malig := bs }] }

/-- An entry of the translation cache used (R375). -/
def State.touchIdust (s : State) (e : IdustEnt) : State :=
  { s with parts := s.parts.map fun p =>
      (p.1, { p.2 with idust := p.2.idust.map fun x => if x = e then { x with used := s.clock } else x }) }

/-- The firmware has mapped the column windows of a launch, as far as they are mapped, to the columns of a binding (R115). -/
def State.windowsReady (s : State) (l : Launch) (p : Plan) (b : Binding) : Bool :=
  s.windowsHold { part := l.part, asid := l.asid, groups := p.groups, trellis := b.groups }

/-- An admission past its checks: it waits for a translation, is refused, or is admitted in its turn with a permitted
binding, whose windows hold (R115, R312, R315, R371, R375; that it waits for them is a DESIGN CHOICE, log 127). -/
def State.tryAdmit (s : State) (l : Launch) (p : Plan) (b : Binding) (pick : Nat) : State :=
  let go (s : State) (tr : Option (List Byte × List Byte)) : State :=
    match p.textOf tr with
    | none => s.refuse l stDecl pick
    | some t => if s.bindOk l p b && s.windowsReady l p b && s.turnOf l then s.admitLaunch l p b t pick else s
  match p.text with
  | .native .. => go s none
  | .malig bs =>
    match s.idustEntry l.part bs with
    | none => s.askIdust l.part bs
    | some e => if e.ready then go (s.touchIdust e) e.result else s

/-- A launch that waits, under the record in force: it is refused by it, takes its new defaults, or goes on to its admission
(R379). -/
def State.admitNow (s : State) (l : Launch) (p : Plan) (b : Binding) (pick : Nat) : State :=
  match s.planNow l p with
  | .error st => s.refuse l st pick
  | .ok q => if q = p then s.tryAdmit l p b pick else s.putLaunch { l with plan := some q }

/-- Event: the region scheduler reads what a launch declares, once, and refuses it or lets it wait; or it admits one that
waits with the proposed binding (R14, R312). A signed object is checked once for its partition (R372). -/
def execRegionAdmission (s : State) : Host.Outcome State Fault Refusal :=
  .next (match s.findLaunch s.cur.ev.a with
    | none => s
    | some l =>
      if s.preempted l.part then s
      else
        match l.plan with
        | some p => (s.remember l p).admitNow l p s.cur.ev.bind s.cur.pick
        | none =>
          match s.readPlan l with
          | none => s.refuse l stDecl s.cur.pick
          | some p =>
            let t := s.remember l p
            match t.planStatus l p with
            | some st => t.refuse l st s.cur.pick
            | none => t.putLaunch { l with plan := some p })

/-- A waiting launch one level higher, with the clock at which it reaches 7 (R315). -/
def Launch.riseAt50 (l : Launch) (clock prio : Nat) : Launch :=
  { l with rise := l.rise + 1, riseAt := clock, top := if 7 ≤ prio + 1 then some clock else none }

/-- Event: a waiting launch rises by one level for each 50 µs, up to 7 (R315). -/
def execLaunchPriorityRise (s : State) : Host.Outcome State Fault Refusal :=
  .next (match s.findLaunch s.cur.ev.a with
    | none => s
    | some l =>
      let p := l.effPrio
      if s.clock < max l.since l.riseAt + clocks50us ∨ (7 ≤ p ∧ l.top.isSome) then s
      else
        s.putLaunch (if 7 ≤ p then { l with top := some (max l.since l.riseAt) } else l.riseAt50 s.clock p))

/-! ## Messages of the host -/

/-- The reply to a message. -/
def State.reply (s : State) (part status value : Nat) : State := s.send (.reply part status value)

/-- Event: the host's LAUNCH, under the ASID that the command agent fixes (R311). -/
def execLaunchMessage (s : State) : Host.Outcome State Fault Refusal :=
  let v := s.cur.ev
  .next (
    if !s.booted then s
    else if (s.partn v.a).record.isNone then s.reply v.a 8 0
    else if 256 ≤ (s.partn v.a).launches.length then s.reply v.a 2 0
    else
      let l : Launch := { regid := s.nextReg, rcb := v.b, seed := v.c, part := v.a, asid := v.opt.getD 0 % 4096, parent := none,
                          tag := v.d, priv := false, since := s.clock }
      ({ (s.modPart v.a fun p => { p with launches := p.launches ++ [l] }) with nextReg := s.nextReg + 1 } : State).reply
        v.a 0 s.nextReg)

/-- Event: the host's ABORT: the region ends as by `tabort`; a launch that still waits ends at once (R311, R343). -/
def execAbortMessage (s : State) : Host.Outcome State Fault Refusal :=
  let v := s.cur.ev
  let r := s.region v.b
  .next (
    if !s.booted then s
    else if r.live && r.part == v.a then (s.startAbort v.b).reply v.a 0 0
    else
      match (s.partn v.a).launches.find? fun l => l.regid == v.b with
      | some l =>
        let t := s.refuse l stAborted s.cur.pick
        if (t.findLaunch v.b).isSome then t else t.reply v.a 0 0
      | none => s.reply v.a 8 0)

end Sys2Proof.Machine
end

