-- ==== Sys2Proof/Machine/Sched.lean ====
section
/-! DEFINITION. The scheduling instructions of X: child launches, items of stage queues, work lists and `quies`
(spec/25_scheduling.md R316-R322, R327, R328). -/

namespace Sys2Proof.Machine

/-- A scheduling instruction: X alone, its result quad to a register. -/
def schedOp (m : Mods) (d : Reg) (regs : List Reg) (s : State) (f : State → Res) : Host.Outcome State Fault Refusal :=
  issue { mods := m, cls := onX, regs := d :: regs } s f

/-- The answer of a scheduling instruction (R271, R316). -/
def State.answer (s : State) (d : Reg) (status value : Nat) : Res := .ok (s.wx d (resultQuad status value))

/-! ## Children -/

/-- The 16 bytes of an entry of the pending store (R317). -/
def storeEntry (l : Launch) : List Byte := leBytes 16 (l.rcb % 2 ^ 64 + l.seed % 2 ^ 16 * 2 ^ 64 + l.regid % 2 ^ 32 * 2 ^ 80)

/-- The entry of the pending store that the next launch of a region takes: the first that is free from where its ring stands,
which regions that inherit PLSTORE share (R16, R317). -/
def State.storeSlot (s : State) (r : Region) : Nat :=
  let own := s.ownerOf bitPlstore r.regid
  let used := (s.sharing bitPlstore own).flatMap fun g => g.pending.map (·.entry)
  let n := r.rcb.plse
  (((List.range n).map fun i => ((s.region own).plHead + i) % n).find? fun i => !used.contains i).getD 0

/-- The pending store has a free entry: fewer than PLSE, less what is carved from it, are held by the regions that share it
(R16, R317). -/
def State.storeOpen (s : State) (r : Region) : Bool :=
  let own := s.ownerOf bitPlse r.regid
  decide (r.pending.length < r.rcb.plse) &&
  decide (((s.sharing bitPlse own).map (·.pending.length)).sum < tget 0 (s.region own).pools bitPlse)

/-- A launch that the issuing task asks for (R120, R317). -/
def State.childLaunch (s : State) (rcb seed : Nat) : Launch :=
  { regid := s.nextReg, rcb := rcb, seed := seed, part := s.cc.part, asid := s.cc.asid, parent := some s.cc.regid, tag := 0,
    priv := s.cc.priv, since := s.clock }

/-- A launch refused with BUSY: nothing is entered, and it counts (R317, R330). -/
def State.launchBusy (s : State) (d : Reg) : Res :=
  (s.modRegion s.cc.regid fun r => { r with lbusy := r.lbusy + 1 }).answer d 2 0

/-- `launch` (R317). -/
def execLaunch (m : Mods) (d a b : Reg) (s : State) : Host.Outcome State Fault Refusal :=
  schedOp m d [a, b] s fun t =>
    let rcb := (t.rx a).toNat
    let seed := (t.rx b).toNat
    let r := t.cr
    let l := t.childLaunch rcb seed
    let entered (u : State) : State := { u with nextReg := u.nextReg + 1 }
    if rcb % 128 ≠ 0 then .trap .align rcb 0 t
    else if 65535 < seed ∨ r.rcb.lslots = 0 then t.answer d 8 0
    else if 64 ≤ r.ends.length then t.launchBusy d
    else if r.launchq.length < 16 then
      (entered (t.modRegion t.cc.regid fun g => { g with launchq := g.launchq ++ [l] })).answer d 0 l.regid
    else if t.storeOpen r then
      let i := t.storeSlot r
      (match t.heldWrite r (storeEntry l) (lineParts (r.rcb.plstore + 16 * i) 16) with
       | .error u => .stall .space (t.waited u)
       | .ok u =>
         let w := u.modRegion (u.ownerOf bitPlstore t.cc.regid) fun g => { g with plHead := (i + 1) % r.rcb.plse }
         (entered (w.modRegion t.cc.regid fun g => { g with pending := g.pending ++ [{ l with entry := i }] })).answer d 0
           (2 ^ 32 + l.regid))
    else t.launchBusy d

/-- What a handle names among the children of a region (R319). -/
inductive Child where
  | ended (e : ChildEnd)
  | going
  | unknown
  deriving DecidableEq, Repr

/-- The child that a handle names: one that has ended and not been reaped, one that is admitted or waits, or none. -/
def Region.childOf (r : Region) (h : Nat) : Child :=
  match r.ends.find? fun e => e.regid == h with
  | some e => .ended e
  | none =>
    if r.children.contains h || (r.launchq ++ r.pending).any (fun l => l.regid == h) then .going else .unknown

/-- The yield-table entry of a parcel offset (R369). -/
def Region.yieldAt (r : Region) (pc : Nat) : Option YieldEnt := r.yields.find? fun y => y.ypc == pc

/-- A completed child reaped by the task in execution: the return acquires over the child's commits (R143, R319). -/
def State.reapInto (s : State) (d : Reg) (e : ChildEnd) : Res :=
  ((s.modRegion s.cc.regid fun r => r.reap e.regid).l1DropAll s.cur.core).answer d 0 e.value

/-- `lwait` (R319). -/
def execLwait (m : Mods) (d a : Reg) (s : State) : Host.Outcome State Fault Refusal :=
  schedOp m d [a] s fun t =>
    if (t.cr.yieldAt t.ce.pc).isNone then .trap .qfault 0 0 t
    else
      match t.cr.childOf (t.rx a).toNat with
      | .ended e => t.reapInto d e
      | .going => .wait (.lwait d (t.rx a).toNat) (t.modMe fun c => { c with saveBad := 0 })
      | .unknown => t.answer d 8 0

/-- `lpoll` (R319). -/
def execLpoll (m : Mods) (d a : Reg) (s : State) : Host.Outcome State Fault Refusal :=
  schedOp m d [a] s fun t =>
    match t.cr.childOf (t.rx a).toNat with
    | .ended e => t.reapInto d e
    | .going => t.answer d 1 0
    | .unknown => t.answer d 8 0

/-- A quantity of a region (R320). -/
def State.regionQuery (s : State) (r : Region) (sel : Nat) : Nat :=
  match sel with
  | 0 => r.regid
  | 1 => r.rcb.cores
  | 2 => (r.cores.filter fun c => (s.coreStage c).isSome).length
  | 3 => r.rcb.lanes
  | 4 => r.rcb.sram
  | 5 => r.rcb.vways
  | 6 => r.rcb.lslots
  | 7 => r.children.length
  | 8 => r.launchq.length
  | 9 => r.pending.length
  | 10 => r.rcb.prio
  | 11 => r.rcb.fdom
  | 12 => r.parent.getD 0
  | _ => r.ends.length

/-- `rcbq`: a child that has not been admitted has its REGID and its parent alone (R320). -/
def execRcbq (m : Mods) (d a : Reg) (k : BitVec 5) (s : State) : Host.Outcome State Fault Refusal :=
  schedOp m d [a] s fun t =>
    let h := (t.rx a).toNat
    let sel := k.toNat
    if 14 ≤ sel then .trap .illop 0 0 t
    else if a = 0 then t.answer d 0 (t.regionQuery t.cr sel)
    else if t.cr.childOf h = .unknown then t.answer d 8 0
    else if (t.region h).regid = h then t.answer d 0 (t.regionQuery (t.region h) sel)
    else if sel = 0 then t.answer d 0 h
    else if sel = 12 then t.answer d 0 t.cc.regid
    else t.answer d 1 0

/-! ## Items -/

/-- `spop` (R322). -/
def execSpop (m : Mods) (d : Reg) (s : State) : Host.Outcome State Fault Refusal :=
  schedOp m d [] s fun t =>
    let c := t.cc
    let n := c.stage
    if 15 ≤ c.pops.length then t.answer d 2 0
    else
      match oldestItem (t.cr.queue n) with
      | none => t.answer d 4 0
      | some q =>
        let u := t.modRegion c.regid fun r =>
          r.setQueue n (setItem (r.queue n) q.slot fun i => { i with st := .running t.me })
        let w := u.modMe fun c => { c with pops := c.pops ++ [{ slot := q.slot, attempt := q.attempt }] }
        (w.l1DropAll w.cur.core).answer d 0 (t.cr.slotVa n q.slot)

/-- Headroom for the lines of a pushed item, which belongs to its task's version; a line that lacks it waits (R301-R303,
R321). -/
def State.reservePush (s : State) (part : Nat) : List Nat → Except State State
  | [] => .ok s
  | l :: r =>
    match s.reserveLine part (128 * l) with
    | none => .error (s.waitSpace part (128 * l) (some (s.me, .x)) (2 ^ 43))
    | some t => (t.dropWait part (128 * l) (some (s.me, .x)) (2 ^ 43)).reservePush part r

/-- The slot that a push reserves: one that already waits for its headroom, else any that is open. -/
def State.pushSlot (s : State) (n pick : Nat) : Option Nat :=
  let r := s.cr
  let l := s.openSlots s.cc.regid n
  let waits (i : Nat) : Bool := (r.pushLines { stage := n, slot := i, data := [] }).any fun x =>
    s.parts.any fun p => p.2.waits.any fun w => w.ctx == some (s.me, .x) && w.id == 2 ^ 43 && 64 * w.granule + w.line == x
  match l.find? waits with
  | some i => some i
  | none => choose l pick

/-- `spush` (R321). -/
def execSpush (m : Mods) (d a b : Reg) (s : State) : Host.Outcome State Fault Refusal :=
  schedOp m d [a, b] s fun t =>
    let off := (t.rx a).toNat
    let n := (t.rx b).toNat
    let r := t.cr
    if off % 16 ≠ 0 then .trap .align off 0 t
    else if 7 < n ∨ !(r.stage t.cc.stage).outmask.testBit n then .trap .prot off 0 t
    else
      readThen t off (r.stage n).itemBytes fun u bs =>
        match u.pushSlot n u.cur.pick with
        | none => u.answer d 2 0
        | some slot =>
          if (r.stage n).depth ≤ r.occupancy n ∨ 64 ≤ u.cc.pushes.length then u.answer d 2 0
          else
            let p : Push := { stage := n, slot := slot, data := bs }
            match u.reservePush r.part (r.pushLines p) with
            | .error w => .stall .space w
            | .ok w =>
              ((w.modRegion w.cc.regid fun g => { g with reserved := tmod 0 g.reserved n (· + 1) }).modMe fun c =>
                { c with pushes := c.pushes ++ [p] }).answer d 0 0

/-! ## Work lists -/

/-- `wlapp` (R327). -/
def execWlapp (m : Mods) (d a b : Reg) (s : State) : Host.Outcome State Fault Refusal :=
  schedOp m d [a, b] s fun t =>
    let n := (t.rx a).toNat
    let r := t.cr
    if 63 < n then t.answer d 8 0
    else if 4096 ≤ (tget [] r.lists n).length + tget 0 r.listRes n then t.answer d 2 0
    else
      let u := t.modRegion t.cc.regid fun g => { g with listRes := tmod 0 g.listRes n (· + 1) }
      (u.modMe fun c => { c with apps := c.apps ++ [(n, (t.rx b).setWidth 56)] }).answer d 0 0

/-- `wltake`: the item keeps its place in the list until the task commits (R327). -/
def execWltake (m : Mods) (d a : Reg) (s : State) : Host.Outcome State Fault Refusal :=
  schedOp m d [a] s fun t =>
    let n := (t.rx a).toNat
    if 63 < n then t.answer d 8 0
    else
      match tget [] t.cr.lists n with
      | [] => t.answer d 4 0
      | w :: l =>
        let u := t.modRegion t.cc.regid fun g => { g with lists := tput g.lists n l, listRes := tmod 0 g.listRes n (· + 1) }
        (u.modMe fun c => { c with takes := c.takes ++ [(n, w)] }).answer d 0 w.toNat

/-- `quies` (R328). -/
def execQuies (m : Mods) (d a : Reg) (s : State) : Host.Outcome State Fault Refusal :=
  schedOp m d [a] s fun t => .wait (.quies d (t.rx a) t.clock) t

end Sys2Proof.Machine
end

