-- ==== Sys2Proof/Machine/Preempt.lean ====
section
/-! DEFINITION. `yield`, pre-emption, save and restore, and the tasks that give up their contexts in an `lwait`
(spec/27_traps.md R342, R345-R351, spec/25_scheduling.md R319). -/

namespace Sys2Proof.Machine

/-! ## Stopping -/

/-- Event: the partition firmware asks every unit of a partition to stop (R345, R346). -/
def execPreemptionRequest (s : State) : Host.Outcome State Fault Refusal :=
  let part := s.cur.ev.a
  .next (
    if s.preempted part then s
    else
      let s1 := s.modPart part fun p => { p with preempt := some { since := s.clock, acks := [], stopped := false } }
      { s1 with ctxs := s1.ctxs.map fun p =>
          if p.2.st != .idle && (s.region p.2.regid).part == part then (p.1, { p.2 with preq := true }) else p })

/-- An engine other than X counts as stopped (R347). -/
def Ctx.engStopped (c : Ctx) (e : Eng) : Bool :=
  let g := c.eng e
  match g.wait with
  | .yield | .tend | .sunbind .. | .lfence .. | .msem .. => true
  | .no => (match g.stall with
    | some .queue | some .token | some .window | some .stream | some .unit => true
    | _ => false)
  | _ => false

/-- L, C and S of a context count as stopped. -/
def Ctx.othersStopped (c : Ctx) : Bool := [Eng.l, .c, .s].all c.engStopped

/-- X of a context stands at its stop point: a `yield` or an `lwait` (R347). -/
def Ctx.xStopped (c : Ctx) : Bool :=
  match (c.eng .x).wait with
  | .yield | .lwait .. => true
  | _ => false

/-- The accesses of a context that are no transfer have performed, its attentions have ended, and the units that its
write streams have taken are stored. -/
def State.settledForSave (s : State) (k : Nat) : Bool :=
  let c := s.ctx k
  c.mq.all (·.isXfer) && (s.attns.all fun a => !(a.ctx == k && a.taskid == c.taskid)) &&
  c.z.all fun p => !p.2.write || p.2.buf.isEmpty

/-- The bytes of a save before its vector slots: the header, the device slots, a slot for each stream and each queue entry
(R348). -/
def Ctx.saveHead (c : Ctx) : Nat := 128 * (10 + c.boundStreams + c.queueEntries)

/-- A save begins: the engines' resume states, the queues and the streams are kept, and each engine goes to the save
label with its registers (R348). -/
def State.beginSave (s : State) (k : Nat) (y : YieldEnt) (lwait : Bool) (child : Nat) : State :=
  let c := s.ctx k
  let b := c.saveHead
  let base := ((c.eng .x).rx 28).toNat
  let area := if lwait then ((c.eng .x).rx 29).toNat else 40960
  if area < b + 128 * y.nv then s.failSave k 2 lwait
  else
    let (d, s0) := s.draw
    let wrote : Except (State × Bool) State :=
      if lwait then s0.areaWrite k ((List.range b).map (Config.freeByte d)) (lineParts base b) else .ok s0
    match wrote with
    | .error (t, true) => t.failSave k 1 lwait
    | .error (t, false) => t
    | .ok t =>
      let u := t.abandonRegion k
      let v := u.ctx k
      let start (g : Engine) : Engine := { x := g.x, p := g.p, pc := y.save }
      let live : Ctx :=
        { v with st := .saving lwait, engs := allEngs.map fun e => (engIdx e, start (v.eng e)), fd := [], dn := [], bk := [],
                 xq := [], bq := [], tokLC := [], tokCS := [], z := [], saveAt := base + b, saveNv := y.nv,
                 saveRes := y.restore, saveVs := 0, slots := [] }
      { u.setCtx k live with saves := tput u.saves k { ctx := v.endYields, child := child, core := k / 4 } }

/-- Event: all four engines of a context count as stopped, and it is halted: its save begins (R347, R348). -/
def execContextHalt (s : State) : Host.Outcome State Fault Refusal :=
  let v := s.cur.ev
  let k := ctxKey v.core v.ctx
  let c := s.ctx k
  let r := s.region c.regid
  .next (match r.yieldAt (c.eng .x).pc with
    | none => s
    | some y =>
      if c.st = .run ∧ (s.partn r.part).preempt.isSome ∧ c.xStopped ∧ c.othersStopped ∧ s.settledForSave k then
        s.beginSave k y false 0
      else s)

/-- A child that a task waits for has completed, or is none any more. -/
def Region.childOver (r : Region) (h : Nat) : Bool :=
  !(r.children.contains h || (r.launchq ++ r.pending).any fun l => l.regid == h)

/-- The result that an `lwait` returns, its child reaped; BADARG where another task has reaped it (R319). -/
def Region.lwaitResult (r : Region) (child : Nat) : Quad × Region :=
  match r.childOf child with
  | .ended e => (resultQuad 0 e.value, r.reap child)
  | _ => (resultQuad 8 0, r)

/-! ## The end of a save and of a restore -/

/-- A read stream past a save: its buffered units are dropped, and are fetched again (R218, R348). -/
def Stream.refetch (z : Stream) : Stream := if z.write then z else { z with buf := [], cursor := z.done }

/-- A snapshot with the buffers of its streams dropped. -/
def Ctx.dropBuffers (c : Ctx) : Ctx := { c with z := c.z.map fun p => (p.1, p.2.refetch) }

/-- The header of a G-space save marked valid: its bytes hold any value, as the manual does not give its layout (R348). -/
def State.markHeader (s : State) (k : Nat) (v : SavedTask) : Except (State × Bool) State :=
  let (d, t) := s.draw
  t.areaWrite k ((List.range 128).map (Config.freeByte d)) (lineParts ((v.ctx.eng .x).rx 28).toNat 128)

/-- The save sequence of a context has ended (R348): in a pre-emption the context waits for the swap, in an `lwait` it is
given up (R40, R319). Its header is marked valid; where its page faults the save fails (R350). -/
def State.endSave (s : State) (k : Nat) (lwait : Bool) : State :=
  let c := s.ctx k
  if !lwait then s.setCtx k { c with st := .saved }
  else
    match tfind s.saves k with
    | none => s
    | some v =>
      match s.markHeader k v with
      | .error (t, true) => t.failSave k 1 true
      | .error (t, false) => t
      | .ok t =>
        let kept : Ctx := { c.resumeFrom v.ctx.dropBuffers with st := .saved }
        let s1 := t.modRegion c.regid fun r =>
          { r with saved := r.saved ++ [{ v with ctx := kept, done := r.childOver v.child }] }
        (s1.forget k).setCtx k {}

/-- A save sequence that has ended, and whose header waits for headroom or for a page walk, marks it (R303, R348). -/
def State.retrySave (s : State) (k : Nat) : State :=
  match (s.ctx k).st with
  | .saving true => if allEngs.all fun e => ((s.ctx k).eng e).wait == .yield then s.endSave k true else s
  | _ => s

/-- A context whose waits, having been swapped out, have their full timeouts again (R284, R328, R351). -/
def Ctx.restartWaits (c : Ctx) (clock : Nat) : Ctx :=
  { c with
    engs := c.engs.map fun p => (p.1, { p.2 with wait := match p.2.wait with
      | .tags a d m l _ => .tags a d m l clock
      | .quies d l _ => .quies d l clock
      | w => w })
    mq := c.mq.map fun a => match a.kind with
      | .op (.sqwait d h n l _) => { a with kind := .op (.sqwait d h n l clock) }
      | _ => a }

/-- The restore sequence of a context has ended: queues, streams and state are refilled, RESUMED is set, and each engine
goes on from its resume state; one that stopped in a lane or a matrix wait waits again, which is what issuing that
instruction again comes to (R347, R348). -/
def State.endRestore (s : State) (k : Nat) : State :=
  match tfind s.saves k with
  | none => s
  | some v =>
    { s.modCtx k (fun l => ({ l.resumeFrom v.ctx.dropBuffers with resumed := true }).restartWaits s.clock) with
      saves := tdel s.saves k }

/-- Event: an `lwait` on a child that has not completed gives up its context: its save to the G-space area begins; one whose
child completed while its task was being saved or restored returns; and a save that waits to mark its header does so (R319, R348,
R349). -/
def execLwaitYield (s : State) : Host.Outcome State Fault Refusal :=
  let v := s.cur.ev
  let k := ctxKey v.core v.ctx
  let c := s.ctx k
  let r := s.region c.regid
  .next (match (c.eng .x).wait, r.yieldAt (c.eng .x).pc with
    | .yield, _ => s.retrySave k
    | .lwait d child, some y =>
      if c.st ≠ .run then s
      else if r.childOver child then
        let (q, r1) := r.lwaitResult child
        (s.modRegion c.regid fun _ => r1).endLwait k d q
      else if ¬ s.preempted r.part ∧ c.saveBad = 0 ∧ c.othersStopped ∧ s.settledForSave k ∧ s.commandsDone k then
        s.beginSave k y true child
      else s
    | _, _ => s)

/-- All four engines of a context have reached the `yield` that ends a sequence. -/
def Ctx.allYielded (c : Ctx) : Bool := allEngs.all fun e => (c.eng e).wait == .yield

/-- A `yield` of the engine in execution stops it: it ends a save or a restore sequence; where a pre-emption request
stands, X stops at one that has a yield-table entry, and the others at any; where X waits in an `lwait`, the others
stop (R319, R347, R348). With X at `tend` the task is left to end. -/
def State.yieldStops (s : State) : Bool :=
  let c := s.cc
  match c.st with
  | .saving _ | .restoring _ => true
  | _ =>
    let x := (c.eng .x).wait
    if s.cur.eng = .x then c.preq && (s.cr.yieldAt s.ce.pc).isSome
    else x != .tend && (c.preq || (match x with | .lwait .. => true | _ => false))

/-- What follows the last `yield` of a sequence. -/
def State.afterYield (s : State) : State :=
  let c := s.cc
  if !c.allYielded then s
  else
    match c.st with
    | .saving lwait => s.endSave s.me lwait
    | .restoring _ => s.endRestore s.me
    | _ => s

/-- `yield`: no effect, but where it stops its engine (R342, R347, R348). X abandons an open region (R183). -/
def execYield (s : State) : Host.Outcome State Fault Refusal :=
  issue {} s fun t =>
    let u := if t.cur.eng = .x then t.abandonRegion t.me else t
    if u.yieldStops then .stay ((u.retireWait {} .yield).afterYield) else .ok u

/-! ## Units, collector and swap -/

/-- A unit stands at a boundary of what it does for a partition (R345): a lane between its macros and between the pieces of
64 rows of an `lmac`, a matrix engine between its commands and between the rows of an `mld` or a G-space `mdrn`, a
transfer engine between the chunks of the commands that it has begun. -/
def State.atBoundary (s : State) (part : Nat) : StopUnit → Bool
  | .lane _ => true
  | .matrix n => (s.mat n).q.all fun e => !(s.inPart part e.ctx && e.begun) || e.cmd.rowStops
  | .transfer r => s.ctxs.all fun c => !(s.inPart part c.1 && engineOf c.1 == r && c.2.midCommand)

/-- Event: a unit reaches its boundary and acknowledges to the first partition that waits for it (R345). -/
def execUnitStopAck (s : State) : Host.Outcome State Fault Refusal :=
  let u := s.cur.ev.stop
  .next (match (s.parts.filter fun p =>
      (match p.2.preempt with | some q => !q.acks.contains u && s.atBoundary p.1 u | none => false)).map (·.1) with
    | [] => s
    | part :: _ => s.modPart part fun p => { p with preempt := p.preempt.map fun q => { q with acks := q.acks ++ [u] } })

/-- The units that hold commands of a partition's tasks. -/
def State.busyUnits (s : State) (part : Nat) : List StopUnit :=
  (s.lanes.filter fun l => (l.2.q ++ l.2.flight).any fun e => s.inPart part e.ctx).map (fun l => StopUnit.lane l.1) ++
  (s.mats.filter fun m => m.2.q.any fun e => s.inPart part e.ctx).map (fun m => StopUnit.matrix m.1) ++
  (s.ctxs.filter fun c => s.inPart part c.1 && c.2.mq.any (·.isXfer)).map fun c => StopUnit.transfer (routeOf (c.1 / 4))

/-- Every context of a partition is saved or ended, every unit that works for it has acknowledged, and no reduction of it
is about to write (R346). -/
def State.partStopped (s : State) (part : Nat) (acks : List StopUnit) : Bool :=
  (s.ctxs.all fun c => !s.inPart part c.1 || c.2.st == .saved) && (s.busyUnits part).all acks.contains &&
  s.reds.all fun r => !s.inPart part r.ctx || !r.full

/-- Event: the collector has counted every acknowledgement and reports the partition stopped (R346). -/
def execCollectorReport (s : State) : Host.Outcome State Fault Refusal :=
  let part := s.cur.ev.a
  .next (match (s.partn part).preempt with
    | some q =>
      if !q.stopped && s.partStopped part q.acks then
        s.modPart part fun p => { p with preempt := some { q with stopped := true } }
      else s
    | none => s)

/-- The lanes and the matrix engines that the running regions of a partition are bound to. -/
def State.partLanes (s : State) (part : Nat) : List Nat :=
  ((s.regions.filter fun r => r.2.live && r.2.part == part).flatMap fun r => r.2.trellis.flatMap (·.lane)).eraseDups
/-- The matrix engines that the running regions of a partition are bound to. -/
def State.partMats (s : State) (part : Nat) : List Nat :=
  ((s.regions.filter fun r => r.2.live && r.2.part == part).flatMap fun r => r.2.trellis.flatMap (·.matrix)).eraseDups

/-- The cores that the running regions of a partition hold. -/
def State.heldCores (s : State) (part : Nat) : List Nat :=
  ((s.regions.filter fun r => r.2.live && r.2.part == part).flatMap (·.2.cores)).eraseDups

/-- The live state of a core into shadow storage: its scratchpad with `ctl.split`, its registers, and its contexts. What
is left in the scratchpad is any value, and the L1 is empty (R351). -/
def State.swapCoreOut (s : State) (part core : Nat) : State :=
  let mine := (List.range 4).map (ctxKey core)
  let c := s.core core
  let img : Shadow :=
    { core := c, ctxs := (s.ctxs.filter fun p => mine.contains p.1).map fun p => (p.1, { p.2 with preq := false }),
      saves := s.saves.filter fun p => mine.contains p.1 }
  let s1 : State := { s with ctxs := s.ctxs.filter fun p => !mine.contains p.1, saves := s.saves.filter fun p => !mine.contains p.1 }
  let s2 := s1.modPart part fun p => { p with shadow := p.shadow ++ [(core, img)] }
  (s2.setCore core { tlb := c.tlb, spad := c.spad }).havoc core 0 (65536 * sramUnits core)

/-- The lanes and matrix engines of a partition into shadow storage (R351). -/
def State.swapUnitsOut (s : State) (part : Nat) : State :=
  let ls := s.lanes.filter fun l => (s.partLanes part).contains l.1
  let ms := s.mats.filter fun m => (s.partMats part).contains m.1
  let s1 := ls.foldl (fun t l => t.modCol l.1 fun v => { v with rows := 0 }) s
  { s1.modPart part (fun p => { p with shLanes := ls, shMats := ms, preempt := none, swapped := true }) with
    lanes := s.lanes.filter fun l => !ls.any fun x => x.1 == l.1
    mats := s.mats.filter fun m => !ms.any fun x => x.1 == m.1 }

/-- A stopped partition swapped out (R351). -/
def State.swapOut (s : State) (part : Nat) : State :=
  ((s.heldCores part).foldl (fun t c => t.swapCoreOut part c) s).swapUnitsOut part

/-- A partition can be swapped in: no running region of another partition that is not swapped out holds its cores. -/
def State.canSwapIn (s : State) (part : Nat) : Bool :=
  (s.partn part).swapped &&
  (s.partn part).shadow.all fun h =>
    ((List.range 4).all fun x => (s.ctx (ctxKey h.1 x)).st == .idle) &&
    !(s.regions.any fun r => r.2.live && r.2.part != part && !(s.partn r.2.part).swapped && r.2.cores.contains h.1)

/-- A partition's state put back in its cores and units from shadow storage (R351). -/
def State.swapIn (s : State) (part : Nat) : State :=
  let p := s.partn part
  let s1 := p.shadow.foldl (fun t h =>
    { t.setCore h.1 { h.2.core with l1 := [], tlb := (t.core h.1).tlb } with
      ctxs := h.2.ctxs.foldl (fun l c => tput l c.1 c.2) t.ctxs
      saves := h.2.saves.foldl (fun l c => tput l c.1 c.2) t.saves }) s
  { s1.modPart part (fun q => { q with shadow := [], shLanes := [], shMats := [], swapped := false }) with
    lanes := p.shLanes.foldl (fun l x => tput l x.1 x.2) s1.lanes
    mats := p.shMats.foldl (fun l x => tput l x.1 x.2) s1.mats }

/-- Event: a stopped partition is swapped out, and another that is in shadow storage comes back (R351). -/
def execPartitionSwap (s : State) : Host.Outcome State Fault Refusal :=
  let v := s.cur.ev
  let out := match (s.partn v.a).preempt with | some q => q.stopped | none => false
  let s1 := if out then s.swapOut v.a else s
  .next (if (out && v.a == v.b) || !s1.canSwapIn v.b then s1 else s1.swapIn v.b)

/-! ## Restores -/

/-- A context begins its restore sequence. Its registers hold any value until then, and its v registers what the sequence
puts there (R348). -/
def State.beginRestore (s : State) (k : Nat) (lwait : Bool) : State :=
  let n := s.draws
  let c := s.ctx k
  let start (i : Nat) : Engine :=
    { x := (List.range 31).map (fun r => (r + 1, Config.freeQuad (n + 32 * i + r + 1))),
      p := (Config.freeQuad (n + 32 * i)).setWidth 8, pc := c.saveRes }
  let live : Ctx :=
    { c with st := .restoring lwait, engs := allEngs.map fun e => (engIdx e, start (engIdx e)), fd := [], dn := [], bk := [],
             xq := [], bq := [], tokLC := [], tokCS := [], z := [], saveVs := 0, preq := false,
             v := (List.range 64).map fun r => (r, Config.freeVec (n + r)) }
  { (s.setCtx k live).l1DropAll (k / 4) with draws := n + 128 }

/-- Event: a saved context whose partition is back begins its restore (R348, R351). -/
def execContextRestore (s : State) : Host.Outcome State Fault Refusal :=
  let k := ctxKey s.cur.ev.core s.cur.ev.ctx
  let c := s.ctx k
  .next (if c.st = .saved ∧ ¬ s.preempted (s.region c.regid).part ∧ (s.region c.regid).aborting = false then
      s.beginRestore k false
    else s)

/-- The snapshot of a task whose `lwait` returns with a result. -/
def Ctx.returnLwait (c : Ctx) (v : Quad) : Ctx :=
  match (c.eng .x).wait with
  | .lwait d _ => (c.modEng .x fun g => g.wx d v).endWait .x
  | _ => c

/-- A restore from a G-space area reads its header and its device slots first, `f` giving the machine in which it begins: a page
that no TLB holds is walked before, and one that faults traps the task with SAVEFAULT (R122, R348, R350). -/
def State.readSaveHead (s : State) (k : Nat) (v : SavedTask) (f : State → State) : State :=
  let base := ((v.ctx.eng .x).rx 28).toNat
  match s.areaRead k v.ctx.part v.ctx.asid (lineParts base v.ctx.saveHead) with
  | .ok (t, _) => f t
  | .error (some t) => t
  | .error none =>
    (f s).raise k { code := .savefault, eng := .x, pc := (v.ctx.eng .x).pc, addr := base, info := 0, clock := s.clock,
                    save := true }

/-- Event: a task whose child has completed resumes on a free context of a core that serves its stage, reaps the child,
and begins its restore (R319, R349). -/
def execLwaitResume (s : State) : Host.Outcome State Fault Refusal :=
  let e := s.cur.ev
  let k := ctxKey e.core e.ctx
  .next (match (s.core e.core).serve with
    | none => s
    | some (regid, n) =>
      let r := s.region regid
      match r.saved.find? fun v => v.ctx.taskid == e.a && v.done && v.ctx.stage == n with
      | none => s
      | some v =>
        if (s.ctx k).st ≠ .idle ∨ (s.reservedFor k).isSome ∨ (s.core e.core).join.isSome ∨ r.aborting ∨ s.preempted r.part then s
        else
          s.readSaveHead k v fun t =>
            let (q, r1) := r.lwaitResult v.child
            let s1 := t.modRegion regid fun _ =>
              { r1 with saved := r1.saved.filter fun w => w.ctx.taskid != e.a,
                        queues := r1.queues.map fun p => (p.1, p.2.map fun i =>
                          if p.1 = n ∧ v.ctx.slotsHeld.contains i.slot then { i with st := .running k } else i) }
            let s2 : State := { s1.setCtx k v.ctx with
              saves := tput s1.saves k { v with ctx := v.ctx.returnLwait q, core := e.core } }
            s2.beginRestore k true)

end Sys2Proof.Machine
end

