-- ==== Sys2Proof/Machine/Column.lean ====
section
/-! DEFINITION. The columns: frames, slots, plans and caps, retraining, retention sleep, the patrol scrub and the erasure
of layers, and the power of a bed (spec/17_lanes_matrix.md R234-R239, spec/23_compressed_memory.md R306, R307,
spec/33_service.md R381, R382, R384). -/

namespace Sys2Proof.Machine

/-- The clocks since the frame of a column began: slot 0 of column c begins at clock 16 × (c mod 32) of the package frame
count (R234). -/
def frameOffset (col clock : Nat) : Nat := (clock + 512 - 16 * (col % 32)) % 512

/-- A physical column of the package (R3). -/
def isColumn (bed col : Nat) : Bool := decide (bed < 8 ∧ col < 68)

/-! ## Frames and slots -/

/-- A retraining that has fallen due starts at a frame boundary: the lane does not defer it, or stands at an `lsync`, or
the deferral has ended (R236). -/
def State.retrains (s : State) (c : Nat) : Bool :=
  let x := s.col c
  x.owed.isSome && !x.retr && (!(s.lane c).defers || x.force || (s.syncHead c).isSome)

/-- A column at its frame boundary: the plan and the cap written since the last one take effect, and a retraining that
may start does (R235, R236, R238). -/
def Column.newFrame (x : Column) (clock : Nat) (retrains : Bool) : Column :=
  let y : Column := { x with frame := clock + 1, slot := 0, laneUsed := 0, genUsed := 0, lslots := x.plan.getD x.lslots,
                             plan := none, capk := x.capNext.getD x.capk, capNext := none }
  if retrains then { y with retr := true, retrEnd := clock + 8 * 512, owed := none, force := false } else y

/-- Event: a frame of a column begins (R234). -/
def execFrameBoundary (s : State) : Host.Outcome State Fault Refusal :=
  let v := s.cur.ev
  let c := colKey v.a v.b
  .next (
    if !isColumn v.a v.b || frameOffset v.b s.clock != 0 || (s.col c).frame == s.clock + 1 then s
    else s.modCol c fun x => x.newFrame s.clock (s.retrains c))

/-- A slot of the frame that a column is in has come, and the column moves rows (R234, R236). -/
def State.slotNow (s : State) (bed col slot : Nat) : Bool :=
  let x := s.col (colKey bed col)
  isColumn bed col && frameOffset col s.clock / 16 == slot && decide (x.slot ≤ slot) && !x.retr

/-- Event: a slot moves one row of 1 KiB. Of the lane slots of the plan as many move rows as the cap leaves, each for the `lmac`
of the column's lane where the lane wants a row and else for general access; and so of the general slots (R234, R238). -/
def execStreamingSlot (s : State) : Host.Outcome State Fault Refusal :=
  let v := s.cur.ev
  let c := colKey v.a v.b
  let x := s.col c
  .next (
    if 30 ≤ v.c ∨ !s.slotNow v.a v.b v.c then s
    else if v.c < x.lslots then
      if x.laneUsed < laneSlots x then
        s.modCol c fun y => { y with slot := v.c + 1, laneUsed := y.laneUsed + 1,
                                     rows := if 0 < s.rowsWanted c then y.rows + 1 else y.rows }
      else s
    else if x.genUsed < generalSlots x then s.modCol c fun y => { y with slot := v.c + 1, genUsed := y.genUsed + 1 }
    else s)

/-- Event: slot 30 refreshes the next of the 72 banks (R234). -/
def execRefreshSlot (s : State) : Host.Outcome State Fault Refusal :=
  let v := s.cur.ev
  let c := colKey v.a v.b
  .next (
    if !isColumn v.a v.b || frameOffset v.b s.clock / 16 != 30 || decide (30 < (s.col c).slot) then s
    else s.modCol c fun x => { x with slot := 31, refresh := (x.refresh + 1) % 72 })

/-! ## Protection across layers -/

/-- The lines of a granule whose storage begins in the quarter `q` of its chunk `j`: 4 sectors of 32 bytes, each line after the
one before it (R298, R299). -/
def State.linesOfChunk (s : State) (g : Nat) (e : Granule) (j q : Nat) : List Nat :=
  let size (l : Nat) : Nat := if e.raw then 4 else s.lineSize e g l
  ((List.range 64).filter fun l =>
    let at_ := ((List.range l).map size).sum
    decide (0 < size l ∧ at_ / 4 = 4 * j + q)).map fun l => 64 * g + l

/-- The lines that a column stores at a place of 128 bytes, which the patrol reads there (R307): those of the granule whose chunk
lies there; where the model has no record of one, the line that the firmware's policy has put there, or a line of the column
that no granule uses. -/
def State.linesAt (s : State) (c place : Nat) : List Nat :=
  match s.grans.find? fun p => colKey p.2.bed p.2.col == c && p.2.chunks.contains (place / 4) with
  | some (g, e) => s.linesOfChunk g e (indexIn e.chunks (place / 4)) (place % 4)
  | none =>
    let l := Config.patrolLine c place
    if l < 2 ^ 34 ∧ (tfind s.grans (l / 64)).isNone ∧ s.lineIn c l then [l] else [idleLine c place]

/-- The patrol has read one more place of a column: a pass reads each of them once, and with it every line (R307). -/
def Column.patrolled (x : Column) : Column :=
  if x.patrol + 1 = 2 ^ 23 then { x with patrol := 0, corr := [] } else { x with patrol := x.patrol + 1 }

/-- A line that had to be corrected, counted by its layers and written back corrected (R306, R307, R381). -/
def State.settleFix (s : State) (c line : Nat) : State :=
  match (s.col c).fixes.find? fun f => f.1 == line with
  | none => s
  | some f =>
    let t := f.2.foldl (fun u l => u.countFix c line l) (s.modCol c fun x => { x with fixes := x.fixes.filter (·.1 != line) })
    if t.decodes line && !(t.col c).lost then t.rewritten line else t

/-- What a maintenance slot does (R234): the patrol reads the lines at its place, and writes back those that had to be
corrected; or a line that a read had to correct is counted and written back; or telemetry is sampled, which no software sees
(R306, R307, R381). -/
def State.scrub (s : State) (c : Nat) : Scrub → State
  | .sample => s
  | .writeBack line => s.settleFix c line
  | .patrol =>
    ((s.linesAt c (s.col c).patrol).foldl (fun t l => (t.readStored l).settleFix c l) s).modCol c Column.patrolled

/-- Event: slot 31 of a column's frame, for one of its maintenance tasks (R234, R307, R381). -/
def execMaintenanceSlot (s : State) : Host.Outcome State Fault Refusal :=
  let v := s.cur.ev
  let c := colKey v.a v.b
  .next (
    if !s.slotNow v.a v.b 31 then s
    else (s.modCol c fun x => { x with slot := 32 }).scrub c v.scrub)

/-! ## Retraining -/

/-- Event: a column's retraining falls due, every 8 ms; it starts at the next frame boundary, or is deferred (R236). -/
def execRetrainingDue (s : State) : Host.Outcome State Fault Refusal :=
  let v := s.cur.ev
  let c := colKey v.a v.b
  let x := s.col c
  .next (
    if !isColumn v.a v.b || decide (s.clock < x.due) || x.owed.isSome || x.retr then s
    else s.modCol c fun y => { y with owed := some y.due, due := y.due + 32000000 })

/-- Event: a deferral ends 40 µs past due, and the retraining starts at the next frame boundary (R236). -/
def execRetrainingForce (s : State) : Host.Outcome State Fault Refusal :=
  let v := s.cur.ev
  let c := colKey v.a v.b
  .next (match (s.col c).owed with
    | some d =>
      if !isColumn v.a v.b || decide (s.clock < d + 160000) || !(s.lane c).defers || (s.col c).force then s
      else (s.modCol c fun y => { y with force := true }).colEvent c 11 (s.clock - d)
    | none => s)

/-- Event: the eight frames of a retraining end: rows move again, and a layer whose slice of the vertical bus fails is
erased (R236, R307). -/
def execRetrainingEnd (s : State) : Host.Outcome State Fault Refusal :=
  let v := s.cur.ev
  let c := colKey v.a v.b
  let x := s.col c
  .next (
    if !isColumn v.a v.b || !x.retr || decide (s.clock < x.retrEnd) then s
    else
      let s1 := s.modCol c fun y => { y with retr := false }
      match v.opt with
      | some l => if l < 18 then s1.eraseLayer c l else s1
      | none => s1)

/-! ## Retention sleep -/

/-- The banks of a column that hold rows of the stream bound to its lane (R237). -/
def State.boundBanks (s : State) (c : Nat) : List Nat :=
  match (s.lane c).bind with
  | some b => b.banks
  | none => []

/-- Event: an idle bank that holds no row of a bound lane stream enters retention sleep (R237). -/
def execBankSleep (s : State) : Host.Outcome State Fault Refusal :=
  let v := s.cur.ev
  let c := colKey v.a v.b
  .next (
    if !isColumn v.a v.b || decide (72 ≤ v.c) || (s.col c).sleep.contains v.c || (s.boundBanks c).contains v.c then s
    else s.modCol c fun x => { x with sleep := v.c :: x.sleep })

/-- Event: a sleeping bank to which a first access has come is awake; the request is replayed with no change of data (R237). -/
def execBankWake (s : State) : Host.Outcome State Fault Refusal :=
  let v := s.cur.ev
  let c := colKey v.a v.b
  .next (
    if !isColumn v.a v.b || !(s.col c).waking.contains v.c then s
    else s.modCol c fun x => { x with sleep := x.sleep.filter (· != v.c), waking := x.waking.filter (· != v.c) })

/-! ## Power -/

/-- The cap of a column as its next frame boundary leaves it (R238). -/
def Column.capLast (x : Column) : Nat := x.capNext.getD x.capk

/-- The clock of a bed changed, with its record (R382, R384). -/
def State.setBedClock (s : State) (b mhz : Nat) (slow : Bool) : State :=
  { s.record b 9 0 0 true 0 mhz with
    beds := tput s.beds b { s.bed b with slow := slow } }

/-- The cap of a column changed from its next frame boundary on, with its record (R238, R382, R384). -/
def State.setCap (s : State) (b col k : Nat) : State :=
  (s.modCol (colKey b col) fun x => { x with capNext := some k }).record b 8 0 col true 0 k

/-- A sample above the cap of a bed: the cap of the hottest column that is above 10 falls by 1; once every bound column
holds 10, the bed's clock falls to 3 GHz (R384). -/
def State.lowerPower (s : State) (b hottest : Nat) : State :=
  if (s.openCols b).all fun c => (s.col (colKey b c)).capLast == 10 then
    if (s.bed b).slow then s else s.setBedClock b 3000 true
  else
    let k := (s.col (colKey b hottest)).capLast
    if (s.openCols b).contains hottest && decide (10 < k) then
      let t := s.setCap b hottest (k - 1)
      { t with beds := tput t.beds b { t.bed b with lower := hottest :: (t.bed b).lower } }
    else s

/-- One step of `lowerPower` undone, the last one first (R384). -/
def State.raisePower (s : State) (b : Nat) : State :=
  let x := s.bed b
  if x.slow then s.setBedClock b 4000 false
  else
    match x.lower with
    | [] => s
    | c :: r =>
      let t := s.setCap b c (min 30 ((s.col (colKey b c)).capLast + 1))
      { t with beds := tput t.beds b { t.bed b with lower := r } }

/-- Event: the cap controller of a bed samples its power, every 10 µs (R384). -/
def execPowerSample (s : State) : Host.Outcome State Fault Refusal :=
  let v := s.cur.ev
  let x := s.bed v.a
  .next (
    if 8 ≤ v.a ∨ s.clock < x.sample then s
    else
      let low : Bool := decide (100 * v.b < 95 * x.cap)
      let since := if low then some (x.below.getD s.clock) else none
      let s1 : State := { s with beds := tput s.beds v.a { x with sample := s.clock + 40000, below := since } }
      if x.cap < v.b then s1.lowerPower v.a v.c
      else
        match since with
        | some t => if t + 4000000 ≤ s.clock then s1.raisePower v.a else s1
        | none => s1)

end Sys2Proof.Machine
end

