-- ==== Sys2Proof/Machine/Malig.lean ====
section
/-! DEFINITION. The portable form of a kernel: the records of a Malig section, its symbols, and what Idust makes of them
(spec/31_code_objects.md R373, R374). -/

namespace Sys2Proof.Machine

/-- A ULEB128 number at the head of bytes, and the bytes after it. -/
def ulebOf : List Byte → Option (Nat × List Byte)
  | [] => none
  | b :: r => if b.toNat < 128 then some (b.toNat, r) else (ulebOf r).map fun p => (b.toNat - 128 + 128 * p.1, p.2)

/-- An SLEB128 number at the head of bytes, and the bytes after it. -/
def slebOf : List Byte → Option (Int × List Byte)
  | [] => none
  | b :: r =>
    if b.toNat < 64 then some (b.toNat, r)
    else if b.toNat < 128 then some ((b.toNat : Int) - 128, r)
    else (slebOf r).map fun p => ((b.toNat : Int) - 128 + 128 * p.1, p.2)

/-- Numbers one after another. -/
def ulebsOf : Nat → List Byte → Option (List Nat × List Byte)
  | 0, l => some ([], l)
  | n + 1, l =>
    match ulebOf l with
    | some (x, r) => (ulebsOf n r).map fun p => (x :: p.1, p.2)
    | none => none

/-- An operand (R373): a class that is reserved, an operand code that R53 reserves and a symbol that the table does not
name refuse the translation, as a predicate above p7 does. -/
def maligOperandOf (l : List Byte) : Option (MaligOperand × List Byte) :=
  match ulebOf l with
  | none => none
  | some (c, r) =>
    let n := c / 8
    match c % 8 with
    | 0 => some (.x n, r)
    | 1 => some (.v n, r)
    | 2 => if n < 8 then some (.p n, r) else none
    | 3 => if n < 90 then some (.code n, r) else none
    | 4 => (slebOf r).map fun p => (.imm p.1, p.2)
    | 5 => some (.label n, r)
    | 6 => if n < 9 then some (.symbol n, r) else none
    | _ => none

/-- Operands one after another. -/
def maligOperandsOf : Nat → List Byte → Option (List MaligOperand × List Byte)
  | 0, l => some ([], l)
  | n + 1, l =>
    match maligOperandOf l with
    | some (x, r) => (maligOperandsOf n r).map fun p => (x :: p.1, p.2)
    | none => none

/-- A major opcode that the opcode maps assign in the space of 16, 32 or 64 bits (R64-R66); the block header is no
instruction. -/
def maligMajor (space major : Nat) : Bool :=
  match space with
  | 0 => decide (major < 12)
  | 1 => decide (1 ≤ major ∧ major ≤ 40)
  | 2 => decide (1 ≤ major ∧ major ≤ 25)
  | _ => false

/-- The place and the width of the selector of a major in the bits above TK: the FN field of format A, the DST field of the majors
that select by it, and the MINOR field of format V (R42, R65, R66); none where the opcode maps name none. -/
def maligField (space major : Nat) : Option (Nat × Nat) :=
  if space = 2 then (if major = 25 then none else some (16, 8))
  else if space = 1 then
    if [1, 2, 16, 21, 22, 23, 24, 26, 31, 32, 33, 34, 36, 37, 38, 39, 40].contains major then some (0, 5)
    else if major = 29 ∨ major = 30 then some (15, 5)
    else none
  else none

/-- The constant bits of a row's fields that lie in a selector's place are those of the selector. -/
def selFits (lo w sel : Nat) : List Atom → Bool
  | [] => true
  | .f _ :: r => selFits lo w sel r
  | .k n v :: r =>
    ((List.range n).all fun i =>
      let b := atomsWidth r + i
      decide (b < lo ∨ lo + w ≤ b) || v.testBit i == sel.testBit (b - lo)) && selFits lo w sel r

/-- The length of the instructions of a space. -/
def maligLen (space : Nat) : Len := if space = 0 then .b16 else if space = 1 then .b32 else .b64

/-- The chapters assign a selector to a major: some row of the encoding tables has it (R67, R373). -/
def maligSelector (space major sel : Nat) : Bool :=
  match maligField space major with
  | some (lo, w) => decide (sel < 2 ^ w) &&
      (rowsOf (maligLen space)).any fun r => r.maj == major && selFits lo w sel r.atoms
  | none => true

/-- A prefix parcel has no reserved kind, bit or code (R55-R60). -/
def maligPrefix (kind payload : Nat) : Bool :=
  match kind with
  | 0 => decide (payload < 2 ^ 5) && payload % 8 != 5 && payload % 8 != 6
  | 1 => decide (payload < 2 ^ 5 ∧ payload / 4 ≤ 4)
  | 2 => decide (payload < 2 ^ 8)
  | 3 => decide (payload < 2 ^ 11)
  | 4 => decide (payload < 2 ^ 4)
  | _ => false

/-- The record of an instruction after its token (R373). -/
def maligInstrOf (t : Nat) (l : List Byte) : Option (MaligRec × List Byte) :=
  let space := t / 2 ^ 14
  let major := t / 2 ^ 8 % 64
  let sel := t % 2 ^ 8
  if !maligMajor space major || !maligSelector space major sel then none
  else
    match Config.maligOperands space major sel with
    | some n => (maligOperandsOf n l).map fun p => (.instr space major sel p.1, p.2)
    | none => none

/-- A record with fixed fields: what they make, or none where one of them is reserved. -/
def maligFields (n : Nat) (l : List Byte) (f : List Nat → Option MaligRec) : Option (MaligRec × List Byte) :=
  match ulebsOf n l with
  | some (xs, r) => (f xs).map fun m => (m, r)
  | none => none

/-- The opening of a block after its token: an engine mask, and a count or an operand that names a virtual x register. -/
def maligBlockOf (l : List Byte) : Option (MaligRec × List Byte) :=
  match ulebsOf 2 l with
  | some ([mask, 0], r) => if mask < 16 then (ulebOf r).map fun p => (.blockOpen mask p.1, p.2) else none
  | some ([mask, 1], r) =>
    (match maligOperandOf r with
     | some (.x n, q) => if mask < 16 then some (.blockOpenReg mask (.x n), q) else none
     | _ => none)
  | _ => none

/-- A record at the head of bytes, and the bytes after it (R373); none for a reserved token or field. -/
def maligRecordOf (l : List Byte) : Option (MaligRec × List Byte) :=
  match ulebOf l with
  | none => none
  | some (0, r) => maligBlockOf r
  | some (1, r) => some (.blockEnd, r)
  | some (2, r) => maligFields 1 r fun x => some (.label (x.getD 0 0))
  | some (3, r) => maligFields 2 r fun x => some (.yieldPoint (x.getD 0 0) (x.getD 1 0))
  | some (4, r) => maligFields 2 r fun x =>
      if maligPrefix (x.getD 0 0) (x.getD 1 0) then some (.prefixParcel (x.getD 0 0) (x.getD 1 0)) else none
  | some (5, r) => maligFields 2 r fun x => if x.getD 0 0 < 8 then some (.stageEntry (x.getD 0 0) (x.getD 1 0)) else none
  | some (t, r) => if t < 16 then none else maligInstrOf (t - 16) r

/-- The records of a section; none where one of them refuses the translation. A record has a byte at least. -/
def maligRecords (bs : List Byte) : Option (List MaligRec) := go (bs.length + 1) bs
where
  /-- The records of the bytes that are left. -/
  go : Nat → List Byte → Option (List MaligRec)
  | _, [] => some []
  | 0, _ => none
  | f + 1, l =>
    match maligRecordOf l with
    | some (m, r) => (go f r).map fun ms => m :: ms
    | none => none

/-- The value of a symbol under the feature words; none where the words do not tell it (R163, R373, R374). -/
def symbolValue (f : List (BitVec 32)) (n : Nat) : Option Nat :=
  let w (i : Nat) : BitVec 32 := f.getD i 0
  let has (b v : Nat) : Option Nat := if (w 0).getLsbD b then some v else none
  let most (lo : Nat) (l : List Nat) : Option Nat :=
    (l.zipIdx.filter fun p => (w 1).getLsbD (lo + p.2)).getLast?.map fun p => p.1
  match n with
  | 0 => has 8 16
  | 1 => has 9 16
  | 2 => has 10 8
  | 3 => has 11 8
  | 4 => has 12 256
  | 5 => has 13 64
  | 6 => most 0 ((List.range 8).map fun k => 2 ^ k)
  | 7 => most 12 [1, 8, 16, 32]
  | 8 => most 8 [1, 2, 4, 8]
  | _ => none

/-- A symbol replaced by its value (R374). -/
def resolveOperand (f : List (BitVec 32)) : MaligOperand → MaligOperand
  | .symbol n => match symbolValue f n with | some v => .imm v | none => .symbol n
  | o => o

/-- The symbols of a record replaced by their values (R374). -/
def resolveRecord (f : List (BitVec 32)) : MaligRec → MaligRec
  | .instr s m c ops => .instr s m c (ops.map (resolveOperand f))
  | r => r

/-- What Idust makes of a Malig section: it decodes the records, replaces the symbols, and expands, allocates and encodes
them (R373, R374). -/
def idustText (version : BitVec 32) (bs : List Byte) (f : List (BitVec 32)) : Option (List Byte × List Byte) :=
  match maligRecords bs with
  | some ms => Config.idust version (ms.map (resolveRecord f)) f
  | none => none

end Sys2Proof.Machine
end

