-- ==== Sys2Proof/Machine/Rake.lean ====
section
/-! DEFINITION. The rake: write-back and headroom, the balloon list, migration, drain and retirement of columns, and the
switch of a trellis to a spare column (spec/23_compressed_memory.md R298-R310, spec/07_memory.md R111, spec/01_execution_model.md
R36). -/

namespace Sys2Proof.Machine

/-! ## Write-back and headroom -/

/-- Event: the L2 writes back a granule (R302). -/
def execL2Writeback (s : State) : Host.Outcome State Fault Refusal := .next (s.writeBack s.cur.ev.a)

/-- The chunks that a granule holds (R298). -/
def Granule.size (e : Granule) : Nat := if e.raw then 16 else e.nch

/-- The chunks of a column that no granule holds or is being copied to (R298, R308). -/
def State.columnRoom (s : State) (bed col : Nat) : Nat :=
  columnChunks - ((s.grans.filter fun p => p.2.bed == bed &&
    (p.2.col == col || (match p.2.copying with | some c => c.1 == col | none => false))).map fun p => p.2.size).sum

/-- The columns to which a granule may move: other bound columns of its bed that are not degraded (R308). -/
def State.otherCols (s : State) (e : Granule) : List Nat :=
  (s.openCols e.bed).filter fun c => c != e.col && !(s.col (colKey e.bed c)).drain

/-- Those of them with free chunks for it (R308). -/
def State.destinations (s : State) (e : Granule) : List Nat :=
  (s.otherCols e).filter fun c => decide (e.size ≤ s.columnRoom e.bed c)

/-- The chunks of granules of a bed that the migration cannot place (R309): beyond those of the bed that no partition owns. -/
def State.shortfall (s : State) (bed n : Nat) : Nat := n - tget 0 s.devPool bed

/-- The chunks that the waiting reservations of a partition need beyond those reserved, were there headroom for all
(R301, R303). -/
def State.waitNeed (s : State) (part : Nat) : Nat :=
  let p := s.partn part
  let t := s.modPart part fun q => { q with free := q.free + 2 ^ 32, waits := [] }
  let t1 := (p.waits.filter fun w => !w.migrates && !w.forText).foldl (fun u w =>
    (u.reserveLine part (128 * (64 * w.granule + w.line))).getD u) t
  let moves := (p.waits.filter SpaceWait.migrates).map fun w => s.granule w.granule
  ((t1.partn part).rsv - p.rsv) + ((p.waits.filter SpaceWait.forText).map (·.va)).sum +
    ((List.range 8).map fun b => s.shortfall b ((moves.filter fun e => e.bed == b).map Granule.size).sum).sum

/-- Chunks taken from the device pool, from one bed after another. -/
def takeChunks : List Nat → Nat → Tab Nat → Tab Nat
  | [], _, t => t
  | b :: r, n, t => let m := min n (tget 0 t b); takeChunks r (n - m) (tput t b (tget 0 t b - m))

/-- A granule of the balloon list reclaimed: every line reads as zeros, and its chunks are free (R305). -/
def State.reclaimBalloon (s : State) (g : Nat) : State :=
  match tfind s.grans g with
  | none => s
  | some e =>
    if !e.balloon then s
    else
      let t : State := { s with
        mem := s.mem.filter fun p => p.1 / 8192 != g, poison := s.poison.filter fun l => l / 64 != g
        errs := s.errs.filter fun p => p.1 / 64 != g, l2 := s.l2.filter fun l => l / 64 != g
        dirty := s.dirty.filter fun l => l / 64 != g }
      (t.rebook g e { e with codes := List.replicate 64 0, nch := 0, chunks := [], balloon := false,
                             reserved := e.reserved.filter fun l => s.versionHolds (64 * g + l) }).modPart e.part fun p =>
        { p with balloon := p.balloon.filter (· != g) }

/-- The granules of a partition with reserved lines that no version holds (R303). -/
def State.recompactable (s : State) (part : Nat) : List Nat :=
  (s.grans.filter fun p => p.2.part == part && !p.2.raw &&
    p.2.reserved.any fun l => !s.versionHolds (64 * p.1 + l)).map (·.1)

/-- The chunks that the waiting reservations of a partition, those of its translations among them, lack (R303, R375). -/
def State.lacks (s : State) (part : Nat) : Nat :=
  let p := s.partn part
  if p.waits = [] then 0 else s.waitNeed part - (p.free - p.rsv)

/-- The chunks that a partition may still draw from the device pool within its LIMIT (R303). -/
def Partition.underLimit (p : Partition) : Nat := p.limit - (p.free + p.held)

/-- A partition's first waiting reservation reached the rake before another's (R303). -/
def Partition.waitsBefore (p q : Partition) : Bool :=
  match p.waits, q.waits with
  | w :: _, v :: _ => waitBefore w v
  | _, _ => false

/-- A partition may draw on the device pool: no other partition that lacks chunks and may draw on it has a reservation
that reached the rake earlier (R305). -/
def State.poolTurn (s : State) (part : Nat) : Bool :=
  s.parts.all fun q =>
    q.1 == part || !q.2.waitsBefore (s.partn part) || s.lacks q.1 == 0 || q.2.underLimit == 0

/-- The chunks that the rake can take from the device pool for a partition now (R303, R305). -/
def State.poolDraw (s : State) (part : Nat) : Nat :=
  if s.poolTurn part then min (s.lacks part) (min ((s.devPool.map (·.2)).sum) (s.partn part).underLimit) else 0

/-- One step of the rake for a partition whose waiting reservations lack headroom: chunks of the device pool while the
partition stays within LIMIT, else the recompaction of one granule, else one granule of the balloon list (R303). -/
def State.rake (s : State) (part pick : Nat) : State :=
  let pool := s.poolDraw part
  if s.lacks part = 0 then s
  else if 0 < pool then
    let t : State := { s with devPool := takeChunks ((List.range 8).map fun i => (i + pick) % 8) pool s.devPool }
    (t.modPart part fun q => { q with free := q.free + pool }).marks part
  else
    match choose (s.recompactable part) pick with
    | some g => s.writeBack g
    | none =>
      match (s.partn part).balloon with
      | g :: _ => s.reclaimBalloon g
      | [] => s

/-- Event: the rake reclaims a granule of the balloon list, as its last step for a partition that lacks chunks (R303,
R305). -/
def execBalloonReclaim (s : State) : Host.Outcome State Fault Refusal :=
  let part := (s.granule s.cur.ev.a).part
  .next (
    if s.lacks part = 0 || s.poolDraw part != 0 || s.recompactable part != [] then s else s.reclaimBalloon s.cur.ev.a)

/-- Event: the rake gathers chunks for the waiting reservations of a partition (R303). -/
def execRakeReclaim (s : State) : Host.Outcome State Fault Refusal := .next (s.rake s.cur.ev.a s.cur.pick)

/-! ## SPACE -/

/-- The waits of all partitions, each with its partition. -/
def State.allWaits (s : State) : List (Nat × SpaceWait) := s.parts.flatMap fun p => p.2.waits.map fun w => (p.1, w)

/-- The SPACE of a write of an access of a context (R304): a transfer's is deferred, also that of its barrier arrival, which
is not made (log 51), and any other access traps on its engine at its instruction. -/
def State.spaceAccess (s : State) (k : Nat) (a : Access) (addr : Nat) : State :=
  match a.kind with
  | .xfer x =>
    if x.closes then (s.setXfer k a.id { x with bar := none }).deferXfer k a.eng x .space addr
    else s.stopXfer k a { x with fault := some .space, faddr := addr }
  | _ => s.raiseAt k a.eng a.pos.off .space ((a.parts.find? fun p => !p.done).elim addr (·.va))

/-- The SPACE of a write of a matrix engine: a deferred fault of the drain at its head (R224, R304). -/
def State.spaceMat (s : State) (n addr : Nat) : State :=
  match (s.mat n).q with
  | e :: _ => s.deferMat n e .space addr
  | [] => s

/-- A write that could not be given headroom faults with SPACE, as its writer reports it (R304, R348, R350, R362). -/
def State.spaceFault (s0 : State) (w : SpaceWait) : State :=
  let addr := w.va
  let s := s0.settleReserved
  match w.ctx with
  | none =>
    if 2 ^ 51 ≤ w.id then { s with arrivals := s.arrivals.filter fun a => arriveWaitId a.id != w.id }
    else if 2 ^ 50 ≤ w.id then
      let q := w.id - 2 ^ 50
      ({ s with qps := tput s.qps q { tget {} s.qps q with pend := [] } } : State).send (.nak q true)
    else s
  | some (k, e) =>
    let c := s.ctx k
    if e = .c ∧ 2 ^ 42 ≤ w.id then s.spaceMat (w.id - 2 ^ 42) addr
    else if w.id = 2 ^ 41 then s.failSave k 1 (match c.st with | .saving l => l | _ => false)
    else if e = .s ∧ 2 ^ 40 ≤ w.id then s.raiseAt k .s (tget {} c.z (w.id - 2 ^ 40)).pos.off .space addr
    else
      match c.mq.find? fun a => a.id == w.id with
      | some a => s.spaceAccess k a addr
      | none => s.raiseAt k e (c.eng e).pc .space addr

/-- A wait can be met now (R303). -/
def State.canMeet (s : State) (part : Nat) (w : SpaceWait) : Bool :=
  match s.headroom part (128 * (64 * w.granule + w.line)) with
  | .short _ => false
  | _ => true

/-- The chunks that a waiting write needs (R301). -/
def State.needOf (s : State) (part : Nat) (w : SpaceWait) : Nat :=
  match s.headroom part (128 * (64 * w.granule + w.line)) with
  | .short n => n
  | _ => 0

/-- Event: a reservation that has not been met 50 µs after it reached the rake makes its write fault (R304). -/
def execSpaceTimeout (s : State) : Host.Outcome State Fault Refusal :=
  .next (match s.allWaits[s.cur.ev.a]? with
    | none => s
    | some (part, w) =>
      if s.clock < w.since + clocks50us ∨ w.migrates ∨ w.forText ∨ s.canMeet part w then s
      else
        let s1 := s.modPart part fun p => { p with spc := (p.spc + 1) % 2 ^ 32, waits := p.waits.filter (· != w) }
        let die := (s.granule w.granule).bed
        let core := match w.ctx with | some (k, _) => k / 4 | none => 0
        (s1.record die 6 part core false (128 * (64 * w.granule + w.line)) (s.needOf part w)).spaceFault w)

/-! ## Migration -/

/-- A page of a sequence that is pinned (R308). -/
def State.pinnedPage (s : State) (g : Nat) : Bool :=
  s.seqs.any fun q => q.2.live && q.2.pin != 0 &&
    q.2.ext.any fun e => (List.range e.npg).any fun j => s.extPage q.2 e j == g

/-- A column is bound to a role of a running launch. -/
def State.columnBound (s : State) (c : Nat) : Bool :=
  s.regions.any fun r => r.2.live && r.2.trellis.any fun b => b.column.contains c

/-- Some page that a node of a level, at a virtual base, maps at an address from `lo` up to `hi` holds a device-physical
granule (R117-R120). -/
def mapsGranule (m : Mem) (g lo hi : Nat) : Nat → Nat → Nat → Nat → Bool
  | 0, _, _, _ => false
  | fuel + 1, level, node, base =>
    let span := 2 ^ (13 + 10 * (4 - level))
    (List.range 1024).any fun i =>
      let va := base + i * span
      decide (va < hi ∧ lo < va + span) &&
        (let e := pteOf (memQuad m (node + 8 * i))
         if !e.v then false
         else if e.leaf then
           let size := leafSize level e.sz
           let pa := e.pa / size * size + va % size
           decide (3 ≤ level ∧ pa + max lo va - va < 8192 * (g + 1) ∧ 8192 * g < pa + min hi (va + span) - va)
         else decide (level < 4) && mapsGranule m g lo hi fuel (level + 1) e.pa va)

/-- The window of a column role of a running launch holds a granule: a page of the role's 1 GiB of virtual addresses is
mapped to it (R115). -/
def State.windowHolds (s : State) (r : Region) (g c : Nat) : Bool :=
  (List.range r.trellis.length).any fun n =>
    (List.range ((r.trellis.getD n {}).column.length)).any fun i =>
      (r.trellis.getD n {}).column[i]? == some c &&
        (match tfind s.roots (4096 * r.part + r.asid) with
         | some root =>
           let lo := (r.groups.getD n {}).wbase + i * 2 ^ 30
           mapsGranule s.mem g lo (lo + 2 ^ 30) 4 1 root 0
         | none => false)

/-- A granule belongs to a window of a running launch (R115, R308). -/
def State.inWindow (s : State) (g : Nat) (e : Granule) : Bool :=
  e.raw && !e.pin && s.regions.any fun r => r.2.live && s.windowHolds r.2 g (colKey e.bed e.col)

/-- The rake may migrate a granule from the degraded column that holds it (R308, R309). -/
def State.movable (s : State) (g : Nat) (e : Granule) : Bool :=
  (s.col (colKey e.bed e.col)).drain && !e.pin && !s.pinnedPage g && !s.inWindow g e

/-- What the move of a granule out of a retired column is charged, as its chunks there leave the count of the bed: those of the bed
that no partition owns, and the shortfall from its partition's headroom first, then from the device pool within the partition's
LIMIT; none where no column has room for it, while there are too few, or another reservation has waited longer (R303, R309). -/
def State.payMove (s : State) (g : Nat) (e : Granule) : Option State :=
  let p := s.partn e.part
  let n := s.shortfall e.bed e.size
  let own := min n (p.free - p.rsv)
  let rest := n - own
  let left : State := { s with devPool := tput s.devPool e.bed (tget 0 s.devPool e.bed - (e.size - n)) }
  let paid (t : State) : State := t.modPart e.part fun q => ({ q with free := q.free - own } : Partition).endMigrations (· == g)
  if s.destinations e = [] then none
  else if n = 0 then some (paid left)
  else if (p.waits != [] && !p.firstWait g 64) ||
      (decide (0 < rest) && (!s.poolTurn e.part || decide ((left.devPool.map (·.2)).sum < rest ∨ p.underLimit < rest))) then none
  else some ((paid { left with devPool := takeChunks ((List.range 8).map fun i => (i + e.bed) % 8) rest left.devPool }).marks e.part)

/-- The copy of a granule to another column begins, or waits for chunks (R308-R310). -/
def State.startCopy (s : State) (pick g : Nat) : State :=
  let e := s.granule g
  let begun (t : State) : State :=
    match choose (s.destinations e) pick with
    | some c => t.setGranule g { e with copying := some (c, false), tried := none }
    | none => t
  if !(s.col (colKey e.bed e.col)).retired then begun s
  else
    match s.payMove g e with
    | some t => begun t
    | none =>
      if (s.partn e.part).waits.any fun w => w.migrates && w.granule == g then s
      else s.modPart e.part fun p =>
        { p with waits := p.waits ++ [{ ctx := none, id := migrateWaitId g, granule := g, line := 64,
                                        slice := s.home (8192 * g), since := s.clock }] }

/-- Nothing of a granule is pending at its home slice: no version line, be it of a fill, no atomic, no single-line region
(R111). -/
def State.sliceClear (s : State) (g : Nat) : Bool :=
  !(s.versionCtxs.any fun c => (c.ver.mem.any fun p => p.1 / 8192 == g) ||
      c.ver.fills.any fun f => s.fillAddr f.1 f.2.1 f.2.2.1 / 8192 == g) &&
  !((s.held ++ s.alrq).any fun h => h.line / 64 == g) &&
  !(s.ctxs.any fun p => p.2.mq.any fun a =>
      (match a.kind with | .op _ => true | _ => false) && a.parts.any fun q => !q.done && q.place == .mem && q.addr / 8192 == g)

/-- The lines of a granule as its new column stores them: corrected, or poisoned where the old column could not give them
(R306, R307, R309). -/
def State.carryLines (s : State) (g : Nat) : State :=
  let t := (List.range 64).foldl (fun t i => if s.linePoisoned (64 * g + i) then t.poisonLine (64 * g + i) else t) s
  { t with errs := t.errs.filter fun p => p.1 / 64 != g }

/-- The lines of a granule leave the slice that was its home, where its new column has another; those to be written back are so
first (R109, R111). -/
def State.leaveSlice (s : State) (g col : Nat) : State :=
  let e := s.granule g
  let t := if s.dirtyIn g = [] then s else s.writeBack g
  if 8 * e.bed + s.placeOf e.bed col / 8 = s.home (8192 * g) then t
  else { t with l2 := t.l2.filter fun l => l / 64 != g }

/-- A granule in another column (R111). -/
def State.placeIn (s : State) (g col : Nat) : State :=
  let t := (s.leaveSlice g col).carryLines g
  let e := t.granule g
  t.setGranule g { e with col := col, copying := none, chunks := t.chunkNumbers e.bed col g e.size }

/-- Event: the rake copies a granule of a degraded column; a commit to it during the copy makes it copy again; then the
map entry switches, once nothing of the granule is pending at its home slice (R111, R308). -/
def execGranuleMigrate (s : State) : Host.Outcome State Fault Refusal :=
  let g := s.cur.ev.a
  let e := s.granule g
  .next (match e.copying with
    | none => if s.movable g e && e.tried.isNone then s.startCopy s.cur.pick g else s
    | some (c, true) => s.setGranule g { e with copying := some (c, false) }
    | some (c, false) => if s.sliceClear g then s.placeIn g c else s)

/-- Event: a migration that has had no chunks for 50 µs leaves its granule in place and raises the partition's SPC
(R310); one of a granule that may not move any more has ended. -/
def execMigrationTimeout (s : State) : Host.Outcome State Fault Refusal :=
  let g := s.cur.ev.a
  let e := s.granule g
  .next (match (s.partn e.part).waits.find? fun w => w.migrates && w.granule == g with
    | some w =>
      if !s.movable g e then s.modPart e.part fun p => p.endMigrations (· == g)
      else if s.clock < w.since + clocks50us ∨ (s.payMove g e).isSome then s
      else
        let t := s.modPart e.part fun p => { p with spc := (p.spc + 1) % 2 ^ 32, waits := p.waits.filter (· != w) }
        t.setGranule g { e with tried := some (s.partn e.part).rises }
    | none => s)

/-- Event: a migration that was given up is tried again once the partition's headroom has risen above its LOW mark
(R310). -/
def execMigrationRetry (s : State) : Host.Outcome State Fault Refusal :=
  let g := s.cur.ev.a
  let e := s.granule g
  .next (match e.tried with
    | some n => if n < (s.partn e.part).rises ∧ s.movable g e then s.startCopy s.cur.pick g else s
    | none => s)

/-! ## Drain and retirement -/

/-- The spare columns of a bed that may take over a place: not bound, nor degraded, nor promised to another column
(R308). -/
def State.spares (s : State) (bed : Nat) : List Nat :=
  (List.range 68).filter fun c =>
    let x := s.col (colKey bed c)
    !(s.bed bed).bound.contains c && !x.drain && !x.lost && x.place.isNone &&
    !(List.range 68).any fun d => (s.col (colKey bed d)).target == some c

/-- A spare column takes the place of another among the clusters of the bed, with its plan; homes do not change (R111,
R308). -/
def State.takeOver (s : State) (bed old new : Nat) : State :=
  let b := s.bed bed
  let x := s.col (colKey bed old)
  let s1 : State := { s with beds := tput s.beds bed { b with bound := b.bound.map fun c => if c = old then new else c } }
  (s1.modCol (colKey bed old) fun y => { y with place := some (indexIn b.bound old), target := none }).modCol
    (colKey bed new) fun y => { y with lslots := x.lslots, plan := x.plan }

/-- Event: the rake drains a degraded column: a spare column of the bed is chosen for its place, which it takes at once
where no launch is bound to the column, and copies of the granules that may move begin (R308). -/
def execColumnDrain (s : State) : Host.Outcome State Fault Refusal :=
  let v := s.cur.ev
  let c := colKey v.a v.b
  let x := s.col c
  .next (
    if !isColumn v.a v.b || !x.drain || x.retired || !(s.bed v.a).bound.contains v.b then s
    else
      match (match x.target with | some t => some t | none => choose (s.spares v.a) s.cur.pick) with
      | none => s
      | some t =>
        let s1 := if s.columnBound c then s.modCol c fun y => { y with target := some t } else s.takeOver v.a v.b t
        let gs := (s1.grans.filter fun p => p.2.bed == v.a && p.2.col == v.b && p.2.copying.isNone && s1.movable p.1 p.2)
        gs.foldl (fun u p => u.startCopy (s.cur.pick + p.1) p.1) s1)

/-- How many of the chunks asked for the device pool does not hold. -/
def chunksShort : List Nat → Nat → Tab Nat → Nat
  | [], n, _ => n
  | b :: r, n, t => let m := min n (tget 0 t b); chunksShort r (n - m) (tput t b (tget 0 t b - m))
/-- Chunks that leave the count: of the device pool, those of the bed first, and then of the headroom of one partition after
another (R309; DESIGN CHOICE, log 126). -/
def State.loseChunks (s : State) (bed n pick : Nat) : State :=
  let beds := (List.range 8).map fun i => (i + bed) % 8
  let t : State := { s with devPool := takeChunks beds n s.devPool }
  ((List.range 16).foldl (fun (u : State × Nat) i =>
    let part := (i + pick) % 16
    let p := u.1.partn part
    let k := min u.2 (p.free - p.rsv)
    if k = 0 then u else ((u.1.modPart part fun q => { q with free := q.free - k }).marks part, u.2 - k))
    (t, chunksShort beds n s.devPool)).1

/-- Event: a degraded column of a bed with no spare left is retired: the bed's capacity falls by 1 GiB, its free chunks at once and
those in use as their granules move, and the host is told (R309). -/
def execColumnRetire (s : State) : Host.Outcome State Fault Refusal :=
  let v := s.cur.ev
  let c := colKey v.a v.b
  let x := s.col c
  .next (
    if !isColumn v.a v.b || !x.drain || x.retired || x.target.isSome || !(s.bed v.a).bound.contains v.b ||
      s.spares v.a != [] then s
    else
      let s0 : State := { s with grans := s.grans.map fun p =>
        if p.2.bed = v.a ∧ p.2.copying.any (fun q => q.1 == v.b) then (p.1, { p.2 with copying := none }) else p }
      let room := s0.columnRoom v.a v.b
      let s1 := s0.modCol c fun y => { y with retired := true }
      let s2 := s1.loseChunks v.a room s.cur.pick
      (s2.record v.a 5 0 v.b true 0 ((s1.openCols v.a).length)).send (.retired v.a))

/-! ## The switch of a trellis -/

/-- A lane of a macro's targets under its new number. -/
def Macro.rename (f : Nat → Nat) : Macro → Macro
  | .sync id ls => .sync id (ls.map f)
  | .red id ls w fmt dest ring clr seq beds => .red id (ls.map f) w fmt dest ring clr seq beds
  | m => m

/-- A lane with the lanes that its queue names under their new numbers. -/
def Lane.rename (f : Nat → Nat) (l : Lane) : Lane :=
  let g (e : LaneEnt) : LaneEnt := { e with cmd := e.cmd.rename f }
  { l with q := l.q.map g, flight := l.flight.map g, bind := l.bind.map fun b => { b with col := f b.col } }

/-- A context with the lanes and the columns that its waits and commands name under their new numbers. -/
def Ctx.rename (f : Nat → Nat) (c : Ctx) : Ctx :=
  { c with
    engs := c.engs.map fun p =>
      (p.1, { p.2 with wait := match p.2.wait with | .lfence ls id => .lfence (ls.map f) id | w => w })
    mq := c.mq.map fun a => match a.kind with
      | .xfer x => if x.kind = .creq then { a with kind := .xfer { x with col := f x.col } } else a
      | _ => a }

/-- The lanes of a reduction under other names. -/
def Reduce.rename (r : Reduce) (f : Nat → Nat) : Reduce :=
  { r with lanes := r.lanes.map f, got := r.got.map fun g => (f g.1, g.2), ords := r.ords.map fun o => (f o.1, o.2) }

/-- A lane and its state, from beneath one column to beneath another, wherever the machine names it (R3, R36). -/
def State.renameLane (s : State) (old new : Nat) : State :=
  let f (n : Nat) : Nat := if n = old then new else n
  { s with
    lanes := (tdel (tput s.lanes new (s.lane old)) old).map fun p => (p.1, p.2.rename f)
    reds := s.reds.map (·.rename f)
    defers := s.defers.map fun d => { d with unit := match d.unit with | .lane n => .lane (f n) | u => u }
    ctxs := s.ctxs.map fun p => (p.1, p.2.rename f)
    saves := s.saves.map fun p => (p.1, { p.2 with ctx := p.2.ctx.rename f })
    regions := s.regions.map fun p => (p.1, { p.2 with trellis := p.2.trellis.map fun b =>
      { b with column := b.column.map f, lane := b.lane.map f } }) }

/-- The windows of a column in the spare that takes its place (R308). -/
def State.moveWindows (s : State) (bed old new : Nat) : State :=
  (s.grans.filter fun p => p.2.bed == bed && p.2.col == old && s.inWindow p.1 p.2).foldl (fun t p => t.placeIn p.1 new) s

/-- A lane of a group of a region stands at an `lsync` of one of the region's tasks (R36). -/
def State.groupSyncs (s : State) (regid : Nat) (b : GroupBind) : Bool :=
  b.lane.any fun n => match s.syncHead n with
    | some (k, _) => (s.ctx k).regid == regid
    | none => false

/-- Event: at an `lsync` of the group, the entries of a column role and of the lane role of its index switch together to
the spare column and the lane beneath it (R36, R308). -/
def execTrellisSwitch (s : State) : Host.Outcome State Fault Refusal :=
  let v := s.cur.ev
  let r := s.region v.a
  .next (match r.live, (r.trellis.getD v.b {}).column[v.c]? with
    | true, some c =>
      (match (s.col c).target with
       | some t =>
         if !s.groupSyncs v.a (r.trellis.getD v.b {}) then s
         else
           let new := colKey (c / 68) t
           ((s.moveWindows (c / 68) (c % 68) t).takeOver (c / 68) (c % 68) t).renameLane c new
       | none => s)
    | _, _ => s)

end Sys2Proof.Machine
end

