-- ==== Sys2Proof/Machine/Service.lean ====
section
/-! DEFINITION. Boot and identity, configuration records, live update, fatal errors, and the end of a translation
(spec/33_service.md R376-R383, spec/31_code_objects.md R375). -/

namespace Sys2Proof.Machine

/-- A 256-bit number that bytes hold. -/
def num256 (l : List Byte) : BitVec 256 := BitVec.ofNat 256 (leNat l)

/-! ## Images -/

/-- The number of a unit among those whose images are kept: the security engine, the four service cores, the column
controllers, the 16 links and four ports, and the firmware of the 16 partitions. -/
def fwKey : FwUnit → Nat
  | .security => 0
  | .service n => 1 + n % 4
  | .columns _ => 5
  | .linkPort n => 6 + n % 20
  | .partition p => 26 + p % 16

/-- The stage of the boot chain of a unit, by its number (R376). -/
def fwStage (k : Nat) : Nat := if k = 0 then 1 else if k < 5 then 2 else if k < 26 then 3 else 4

/-- The images of a unit. -/
def State.fw (s : State) (k : Nat) : FwSlot := tget {} s.images k

/-- The image in a slot of a unit: the one written there, or the one of manufacture. -/
def State.fwImage (s : State) (k : Nat) (slotB : Bool) : Image :=
  (if slotB then (s.fw k).b else (s.fw k).a).getD (Config.factoryImage (fwStage k) slotB)

/-- What an image's digest and signature cover (R376). -/
def imageBytes (i : Image) : List Byte := i.bytes ++ i.key

/-- An image passes its check under a key (R376). -/
def imageOk (key : List Byte) (i : Image) : Bool := Config.signatureOk key (imageBytes i) i.sig

/-- The first unit of a stage, whose image carries the key for the next (R376). -/
def stageFirst (stage : Nat) : Nat := if stage = 1 then 0 else if stage = 2 then 1 else if stage = 3 then 5 else 26

/-- The key against which the images of a unit are checked: that of the ROM, or the one that the stage before carries
(R376). -/
def State.fwCheckKey (s : State) (k : Nat) : List Byte :=
  if fwStage k = 1 then Config.romKey
  else let p := stageFirst (fwStage k - 1); (s.fwImage p (s.fw p).runB).key

/-- The measurement register extended with the digest of an image, which enters the log with its unit (R376, R380). -/
def State.extend (s : State) (k : Nat) (i : Image) : State :=
  let d := sha256 (imageBytes i)
  { s with measure := num256 (sha256 (leBytes 32 s.measure.toNat ++ d)), mlog := s.mlog ++ [(k, num256 d)] }

/-! ## Boot -/

/-- Units checked and measured one after another, the other slot tried where the active one fails; it stops at the first of which
both fail, and says so (R376). -/
def State.bootUnits (s : State) : List Nat → State × Bool
  | [] => (s, true)
  | k :: r =>
    let key := s.fwCheckKey k
    let b := (s.fw k).runB
    if imageOk key (s.fwImage k b) then (s.extend k (s.fwImage k b)).bootUnits r
    else if imageOk key (s.fwImage k (!b)) then
      let t : State := { s with images := tput s.images k { s.fw k with runB := !b, trial := none } }
      (t.extend k (t.fwImage k !b)).bootUnits r
    else (s, false)

/-- What a partition keeps through a reset: its record, in package flash (R378). -/
def Partition.kept (p : Partition) : Partition := { record := p.record, limit := p.limit, salt := p.salt }

/-- The security engine switches to a new image at a warm reset (R380). -/
def State.securitySwitches (s : State) (warm : Bool) : Bool := warm && (s.fw 0).loaded

/-- The machine as a reset leaves it: package flash is kept, the black boxes survive a warm reset, and at a warm reset a new image
of the security engine becomes the one that runs, its self-test to come (R376, R378, R380, R382, R383). -/
def State.afterReset (s : State) (warm : Bool) : State :=
  let sec := s.fw 0
  let images := s.images.map fun p => (p.1, { p.2 with trial := none, behind := [] })
  { State.reset with
    agenda := s.agenda, draws := s.draws, cur := s.cur, devRec := s.devRec, devNow := s.devRec, firstRec := s.firstRec
    parts := s.parts.map fun p => (p.1, p.2.kept)
    images := if s.securitySwitches warm then tput images 0 { sec with runB := !sec.runB, loaded := false, trial := some 0 } else images
    box := if warm then s.box else [], dumps := s.dumps }

/-- The code of a unit in the record of a switch (R382). The table names none for the security engine, whose switch is recorded as
that of a service core (DESIGN CHOICE, log 133). -/
def fwUnitCode : FwUnit → Nat
  | .columns _ => 0 | .linkPort _ => 1 | .service _ => 2 | .partition _ => 3 | .security => 2

/-- The black box's record of a switch (R380, R382). -/
def State.switchEvent (s : State) (u : FwUnit) (slotB back : Bool) : State :=
  s.record 8 10 0 (fwUnitCode u) true 0 (2 * slotB.toNat + back.toNat)

/-- Event: a cold or warm reset: the images are checked and measured in order; where both slots of one fail, the device
stays in recovery (R376). A switch of the security engine is recorded (R380, R382). -/
def execBoot (s : State) : Host.Outcome State Fault Refusal :=
  let (t, ok) := (s.afterReset s.cur.ev.flag).bootUnits (List.range 42)
  let b := (t.fw 0).runB
  let u := if s.securitySwitches s.cur.ev.flag && b != (s.fw 0).runB then t.switchEvent .security b false else t
  .next { u with booted := ok, recovery := !ok }

/-! ## Attestation -/

/-- The content of an attestation reply, in the order of R377: the nonce, M, the log, the digests of the records in force,
the partition index, and the clock. -/
def State.attestation (s : State) (part : Nat) (nonce : BitVec 256) : List Byte :=
  let recs := s.firstRec.toList ++ (s.devNow.map (·.digest)).toList ++ s.parts.filterMap fun p => p.2.record.map (·.digest)
  leBytes 32 nonce.toNat ++ leBytes 32 s.measure.toNat ++ (s.mlog.flatMap fun e => leBytes 8 e.1 ++ leBytes 32 e.2.toNat) ++
    (recs.flatMap fun d => leBytes 32 d.toNat) ++ leBytes 8 part ++ leBytes 8 s.clock

/-- Event: an attestation request is answered, signed with the identity key of the firmware that runs (R377). -/
def execAttestationRequest (s : State) : Host.Outcome State Fault Refusal :=
  let v := s.cur.ev
  let m := s.attestation v.a v.nonce
  .next (if s.booted then s.send (.attest v.a m (Config.identityKey s.measure) (Config.identitySign s.measure m)) else s)

/-! ## Configuration records -/

/-- The event of an accepted record (R382). -/
def State.recordEvent (s : State) (unit part version : Nat) : State :=
  s.record 8 12 part unit (unit == 0) 0 version

/-- What the signature and the digest of a record cover (R378). -/
def signedBytes (r : ConfigRecord) : List Byte := Config.recordBytes r.version r.body

/-- A device record is accepted: the first one, from partition 0, under the key that it carries; a later one under the
stored key, with a higher version (R378). -/
def State.deviceOk (s : State) (part : Nat) (r : ConfigRecord) (key : List Byte) : Bool :=
  match s.devRec with
  | none => part == 0 && Config.signatureOk key (signedBytes r) r.sig
  | some d => decide (d.version < r.version.toNat) && Config.signatureOk d.key (signedBytes r) r.sig

/-- The records that name a core, those of other partitions than one (R378). -/
def State.namers (s : State) (part core : Nat) : Nat :=
  (s.parts.filter fun p => p.1 != part && (match p.2.record with | some r => r.cores.getLsbD core | none => false)).length

/-- A partition record is accepted: signed under the stored operator key, with a higher version, and no core named by
three partitions (R378). -/
def State.partitionOk (s : State) (part : Nat) (r : ConfigRecord) (cores : BitVec 96) : Bool :=
  match s.devRec with
  | none => false
  | some d =>
    Config.signatureOk d.key (signedBytes r) r.sig &&
    (match (s.partn part).record with | some o => decide (o.version < r.version.toNat) | none => true) &&
    (List.range 96).all fun c => !cores.getLsbD c || decide (s.namers part c < 2)

/-- An entry of a prefix table lets go of its sequence, with headroom for the lines of the control block (R293, R301); none where
that lacks. -/
def State.letGo (s : State) (part scb : Nat) : Option State :=
  if (s.seq scb).live then
    ((s.reserveLine part scb).bind fun t => t.reserveLine part (scb + 128)).map fun t => t.unpinSeq scb
  else some s

/-- A prefix table emptied by a new salt: its entries let go of their sequences (R293, R379); none where one lacks headroom. -/
def State.newSalt (s : State) (part : Nat) (salt : BitVec 256) : Option State :=
  let p := s.partn part
  if p.salt = salt then some s
  else (p.prefixes.foldl (fun o e => o.bind fun t => t.letGo part e.2.scb) (some s)).map fun t => t.modPart part fun q =>
    { q with salt := salt, prefixes := [], recency := [] }

/-- A record refused (R378). In recovery port 0 alone answers, which the command agent of partition 0 stands for (R376). -/
def State.refuseRecord (s : State) (part : Nat) : State := if s.booted || part == 0 then s.reply part 8 0 else s

/-- Event: a configuration record is verified, and accepted or refused; a refused one changes nothing (R378, R379). In
recovery only the first device record is taken. One whose salt lets go of sequences is accepted once the lines of their control
blocks have headroom (DESIGN CHOICE, log 128). -/
def execConfigRecordSubmit (s : State) : Host.Outcome State Fault Refusal :=
  let v := s.cur.ev
  .next (match v.record with
    | none => s
    | some r =>
      if !s.booted ∧ !s.recovery then s
      else
        match r.body with
        | .device ring4 ports key =>
          if s.deviceOk v.a r key && (s.booted || s.devRec.isNone) then
            let dg := num256 (sha256 (signedBytes r))
            let d : DevRec := { version := r.version.toNat, ring4 := ring4, ports := ports, key := key, digest := dg }
            let t : State := { s with devRec := some d, firstRec := if s.devRec.isNone then some dg else s.firstRec }
            (t.recordEvent 0 0 d.version).reply v.a 0 0
          else s.refuseRecord v.a
        | .partition limit low crit fdom signed tenant salt cores defaults =>
          if s.booted && s.partitionOk v.a r cores then
            let p : PartRec := { version := r.version.toNat, limit := limit, low := low, crit := crit, fdom := fdom,
                                 signed := signed, tenant := tenant, salt := salt, cores := cores, defaults := defaults,
                                 digest := num256 (sha256 (signedBytes r)) }
            match s.newSalt v.a salt with
            | none => s
            | some t =>
              (((t.modPart v.a fun q => { q with record := some p, limit := limit }).marks v.a).recordEvent 1 v.a
                p.version).reply v.a 0 0
          else s.refuseRecord v.a)

/-! ## Live update -/

/-- The clocks of 1 s. -/
def clocks1s : Nat := 4000000000

/-- The self-test of a unit's new image may still fail (R380). -/
def FwSlot.testing (f : FwSlot) (clock : Nat) : Bool :=
  match f.trial with
  | some t => decide (clock ≤ t + clocks1s)
  | none => false

/-- Event: a new image is written into the slot that does not run, and checked (R380); not while that slot holds the image to which
a failing self-test would switch back, or one that columns still run (DESIGN CHOICE, log 133). -/
def execFirmwareImageLoad (s : State) : Host.Outcome State Fault Refusal :=
  let v := s.cur.ev
  let k := fwKey v.unit
  .next (match s.booted, v.image with
    | true, some i =>
      let f := s.fw k
      if f.testing s.clock || f.behind != [] then s
      else
        let g : FwSlot := if f.runB then { f with a := some i } else { f with b := some i }
        { s with images := tput s.images k { g with loaded := imageOk (s.fwCheckKey k) i, trial := none } }
    | _, _ => s)

/-- The columns whose controllers have yet to follow a switch that a unit makes: all but its own. -/
def otherColumns : FwUnit → List Nat
  | .columns c => (List.range 544).filter (· != c)
  | _ => []

/-- A unit on its other slot, M extended with the image that takes over (R380). -/
def State.switchSlot (s : State) (u : FwUnit) (back : Bool) (trial : Option Nat) : State :=
  let k := fwKey u
  let b := !(s.fw k).runB
  let t := s.extend k (s.fwImage k b)
  (({ t with images := tput t.images k { t.fw k with
        runB := b, loaded := false, trial := trial, behind := if back then [] else (otherColumns u) } } : State)).switchEvent u b back

/-- A unit may switch now: a column controller in its maintenance slot, a partition's firmware while no request of the
partition is in progress, and the security engine at the warm reset alone (R380). -/
def State.quietPoint (s : State) : FwUnit → Bool
  | .security => false
  | .columns c => frameOffset c s.clock / 16 == 31
  | .partition p => (s.partn (p % 16)).launches == []
  | _ => true

/-- The controller of a column follows a switch of the column controllers' image, which is measured and recorded once (R380). -/
def State.follow (s : State) : FwUnit → State
  | .columns c => { s with images := tput s.images 5 { s.fw 5 with behind := (s.fw 5).behind.filter (· != c) } }
  | _ => s

/-- Event: a unit switches to a new image at its quiet point; each column controller at its own (R380). -/
def execFirmwareSlotSwitch (s : State) : Host.Outcome State Fault Refusal :=
  let u := s.cur.ev.unit
  .next (
    if !s.booted || !s.quietPoint u then s
    else if (s.fw (fwKey u)).loaded then s.switchSlot u false (some s.clock)
    else s.follow u)

/-- Event: a new image fails its self-test within 1 s of the switch, and the unit switches back (R380). -/
def execFirmwareSwitchBack (s : State) : Host.Outcome State Fault Refusal :=
  let u := s.cur.ev.unit
  .next (if (s.fw (fwKey u)).testing s.clock then s.switchSlot u true none else s)

/-! ## Fatal errors -/

/-- The die whose black box records a fatal error: that of the link or the die, or the hub (R382, R383). -/
def fatalDie (cause unit : Nat) : Nat := if cause = 3 then unit % 8 else if cause = 4 then unit % 9 else 8

/-- The cause and the unit of a fatal error are ones that R382 names. -/
def fatalUnit (cause unit : Nat) : Bool :=
  match cause with
  | 1 | 2 => decide (unit < 4)
  | 3 => decide (unit < 16)
  | 4 => decide (unit < 9)
  | _ => false

/-- Event: a fatal error stops every partition, is recorded, and the 4,096 most recent records of each die go to flash,
which holds four dumps (R383). -/
def execFatalError (s : State) : Host.Outcome State Fault Refusal :=
  let v := s.cur.ev
  let die := fatalDie v.a v.b
  .next (
    if s.fatal.isSome || !fatalUnit v.a v.b then s
    else
      let t := s.record die 13 0 v.a true 0 v.b
      let dump := t.box.map fun p => (p.1, p.2.drop (p.2.length - 4096))
      { t with fatal := some (v.a, v.b), dumps := (t.dumps ++ [dump]).drop (t.dumps.length + 1 - 4) })

/-- The records of a die as the host reads them, of the live ring or of a dump, through the command agent of a partition: after the
reset that follows a fatal error (R382, R383). -/
def State.readBox (s : State) (part die : Nat) (dump : Option Nat) : State :=
  let ring := match dump with | some i => s.dumps.getD i [] | none => s.box
  if s.booted && s.fatal.isNone then s.send (.box part die dump ((tget [] ring die).flatMap BoxRec.bytes)) else s

/-! ## Translations -/

/-- The chunks that a translation occupies (R375). -/
def textChunks : Option (List Byte × List Byte) → Nat
  | some t => (t.1.length + t.2.length + 511) / 512
  | none => 0

/-- An entry of a translation cache is in use: by a running region, or by an admission that waited for it and has yet to use its
result (R375). -/
def State.idustInUse (s : State) (e : IdustEnt) : Bool :=
  (s.regions.any fun r => r.2.live && r.2.textBytes.isSome && r.2.textBytes == e.result.map (·.1)) ||
  s.parts.any fun p => (s.waiting p.1).any fun l =>
    match l.plan with
    | some p => p.text == .malig e.malig
    | none => false

/-- The least recently used entry of a list. -/
def oldestUsed : List IdustEnt → Option IdustEnt
  | [] => none
  | e :: r => match oldestUsed r with | some f => some (if f.used < e.used then f else e) | none => some e

/-- Room for a translation in a partition's cache: beyond its budget the least recently used entries that nothing uses are
evicted (R375). -/
def State.evictIdust (s : State) (part n : Nat) : Nat → State
  | 0 => s
  | f + 1 =>
    let p := s.partn part
    if (p.idust.map (·.chunks)).sum + n ≤ Config.idustBudget part then s
    else
      match oldestUsed (p.idust.filter fun e => e.ready && !s.idustInUse e) with
      | none => s
      | some e => ((s.modPart part fun q =>
          { q with idust := q.idust.filter (· != e), free := q.free + e.chunks, held := q.held - e.chunks }).marks part).evictIdust
            part n f

/-- The wait of a translation for chunks (R303, R375). -/
def IdustEnt.wait (e : IdustEnt) (n clock : Nat) : SpaceWait :=
  { ctx := none, id := textWaitId e.digest, granule := textWaitId e.digest, line := 64, slice := 0, since := clock, va := n }

/-- A translation of `n` chunks finds them: there is headroom, and where it has waited no other reservation of the partition has
waited longer (R303). -/
def Partition.textFits (p : Partition) (e : IdustEnt) (n : Nat) : Bool :=
  decide (n ≤ p.free - p.rsv) &&
    (p.waits.all (fun w => w.id != textWaitId e.digest) || p.firstWait (textWaitId e.digest) 64)

/-- A translation that has ended enters the cache: it occupies memory of the partition, and waits among its reservations while
there is too little headroom (R303, R375). -/
def State.storeIdust (s : State) (part : Nat) (e : IdustEnt) (res : Option (List Byte × List Byte)) : State :=
  let n := textChunks res
  let t := s.evictIdust part n (s.partn part).idust.length
  if (t.partn part).textFits e n then
    (t.modPart part fun q =>
      { q with free := q.free - n, held := q.held + n, waits := q.waits.filter fun w => w.id != textWaitId e.digest,
               idust := q.idust.map fun x => if x = e then { x with ready := true, result := res, used := s.clock, chunks := n } else x }).marks
        part
  else
    t.modPart part fun q =>
      if q.waits.any fun w => w.id == textWaitId e.digest then q else { q with waits := q.waits ++ [e.wait n s.clock] }

/-- Event: an Idust translation finishes and enters the cache; every admission that waits for its key goes on with the
result (R374, R375). -/
def execIdustTranslationDone (s : State) : Host.Outcome State Fault Refusal :=
  let v := s.cur.ev
  .next (match (s.partn v.a).idust[v.b]? with
    | some e =>
      if e.ready then s else s.storeIdust v.a e (idustText e.version e.malig e.feat)
    | none => s)

end Sys2Proof.Machine
end

