-- ==== Sys2Proof/Machine/Host.lean ====
section
/-! DEFINITION. The host's messages about space, inbound RDMA, the Ethernet ports and the links of the package
(spec/25_scheduling.md R311, spec/23_compressed_memory.md R300, R305, spec/29_rings_host.md R352-R365, spec/33_service.md
R381). -/

namespace Sys2Proof.Machine

/-! ## Space -/

/-- The 32 bytes of a partition's space report (R300). -/
def State.spaceReport (s : State) (part : Nat) : List Byte :=
  let p := s.partn part
  let w (n k : Nat) : Nat := n % 2 ^ 32 * 2 ^ k
  let low := match p.record with | some r => (r.low, r.crit) | none => (0, 0)
  leBytes 32 (w p.free 224 + w p.rsv 192 + w p.held 160 + w p.limit 128 + w low.1 96 + w low.2 64 + w p.balloon.length 32 + w p.spc 0)

/-- Event: the host's SPACE is answered with the space report (R300, R311). -/
def execSpaceMessage (s : State) : Host.Outcome State Fault Refusal :=
  let v := s.cur.ev
  .next (if s.booted then s.send (.report v.a 0 (s.spaceReport v.a)) else s)

/-- A granule of a partition joins its balloon list; one that is raw, pinned, or another partition's stays as it is
(R305). -/
def State.surrender (s : State) (part g : Nat) : State :=
  let e := s.granule g
  if e.raw ∨ e.pin ∨ e.balloon ∨ ((tfind s.grans g).isSome ∧ e.part ≠ part) then s
  else (s.setGranule g { e with part := part, balloon := true }).modPart part fun p => { p with balloon := p.balloon ++ [g] }

/-- The bytes of a host's list, which the region scheduler walks for itself. -/
def State.listRead (s : State) (part asid : Nat) : List (Nat × Nat × Nat) → Option (List Byte)
  | [] => some []
  | (a, _, n) :: r =>
    match s.translateNow part asid (a % 2 ^ 64) false with
    | .ok pa _ _ => (s.listRead part asid r).map (s.committed pa n ++ ·)
    | _ => none

/-- Event: the host's BALLOON: the granules of a list, 8 bytes to a virtual address, join the balloon list (R305, R311). -/
def execBalloonMessage (s : State) : Host.Outcome State Fault Refusal :=
  let v := s.cur.ev
  let asid := v.opt.getD 0 % 4096
  .next (
    if !s.booted then s
    else
      match s.listRead v.a asid (lineParts v.b (8 * v.c)) with
      | none => s.reply v.a 8 0
      | some bs =>
        ((List.range v.c).foldl (fun t i =>
          match t.translateNow v.a asid (leNat ((bs.drop (8 * i)).take 8)) false with
          | .ok pa _ _ => t.surrender v.a (granOf pa)
          | _ => t) s).reply v.a 0 0)

/-! ## Inbound RDMA -/

/-- The entry of a partition's inbound region table that a request names, with room for its range (R361, R362). -/
def State.inWindowFor (s : State) (part rkey va len : Nat) (write : Bool) : Option Window :=
  (((s.partn part).inbound.filter fun p => decide (p.1 < 1024)).map (·.2)).find? fun w =>
    w.rkey == rkey && w.len != 0 && decide (w.base ≤ va ∧ va + len ≤ w.base + w.len) && (if write then w.w else w.r)

/-- The line parts of a request by device-physical address, with their offsets and lengths; none where one does not
translate (R362). -/
def State.rdmaParts (s : State) (part asid : Nat) (write : Bool) : List (Nat × Nat × Nat) → Option (List (Nat × Nat × Nat))
  | [] => some []
  | (a, o, n) :: r =>
    match s.translateNow part asid a write with
    | .ok pa _ _ => (s.rdmaParts part asid write r).map ((pa, o, n) :: ·)
    | _ => none

/-- The next line part of an inbound write performed, unless it waits for a held line or for headroom: one event for each, the write
acknowledged once all have (R362). -/
def State.rdmaWrite (s : State) (q : Nat) : List (Nat × List Byte) → State
  | [] => s.send (.ack q [])
  | (pa, bs) :: r =>
    let part := q / 256
    let keep (l : List (Nat × List Byte)) (t : State) : State := t.modQp q fun x => { x with pend := l }
    if s.held.any fun h => h.line == pa / 128 then keep ((pa, bs) :: r) s
    else
      match s.reserveLine part pa with
      | none => keep ((pa, bs) :: r) (s.waitSpace part pa none (2 ^ 50 + q))
      | some t =>
        let marks := ((List.range bs.length).zip bs).filter fun p => !t.hitsScb (pa + p.1) 1
        let u := keep r ((t.dropWait part pa none (2 ^ 50 + q)).commitMasked (pa / 128) (decide (marks.length = 128))
          (marks.map fun p => (pa % 128 + p.1, p.2)))
        if r = [] then u.send (.ack q []) else u

/-- Event: an inbound RDMA WRITE is checked and its first line part performed, or one begun performs its next line part (R362). -/
def execRdmaWriteInbound (s : State) : Host.Outcome State Fault Refusal :=
  let v := s.cur.ev
  let q := v.a % 4096
  .next (
    if !s.booted then s
    else
      match (tget {} s.qps q).pend with
      | p :: r => s.rdmaWrite q (p :: r)
      | [] =>
        match s.inWindowFor (q / 256) v.b v.c v.bytes.length true with
        | none => s.send (.nak q false)
        | some w =>
          match s.rdmaParts (q / 256) w.asid true (lineParts v.c v.bytes.length) with
          | none => s.send (.nak q false)
          | some ps => s.rdmaWrite q (ps.map fun p => (p.1, (v.bytes.drop p.2.1).take p.2.2)))

/-- The path MTU of a queue pair, one of three (R360). -/
def mtuOf (n : Nat) : Nat := 1024 * 2 ^ (n % 3)

/-- The bytes of the packets of a response that lie whole below an offset (R362). -/
def wholePackets (mtu off : Nat) : Nat := off / mtu * mtu

/-- Event: an inbound RDMA READ returns committed lines, packet by packet; a poisoned line is answered with a NAK and no
data of its packet (R362), and the delivery is recorded (R125). -/
def execRdmaReadInbound (s : State) : Host.Outcome State Fault Refusal :=
  let v := s.cur.ev
  let q := v.a % 4096
  .next (
    if !s.booted || (tget {} s.qps q).pend != [] then s
    else
      match s.inWindowFor (q / 256) v.b v.c v.d false with
      | none => s.send (.nak q false)
      | some w =>
        match s.rdmaParts (q / 256) w.asid false (lineParts v.c v.d) with
        | none => s.send (.nak q false)
        | some ps =>
          if ps.any fun p => s.held.any fun h => h.line == p.1 / 128 then s
          else
            let t := (ps.map fun p => p.1 / 128).foldl State.l2Fill s
            let data := ps.flatMap fun p => t.committed p.1 p.2.2
            match ps.find? fun p => t.linePoisoned (p.1 / 128) with
            | some p =>
              let n := wholePackets (mtuOf s.cur.pick) p.2.1
              let u := t.poisonEvent (q / 256) p.1 true
              (if n = 0 then u else u.send (.ack q (data.take n))).send (.nak q true)
            | none => t.send (.ack q data))

/-- Event: a congestion notification packet lowers the sending rate of its queue pair (R360). -/
def execCongestionNotification (s : State) : Host.Outcome State Fault Refusal :=
  .next (s.modQp (s.cur.ev.a % 4096) fun x => { x with rate := x.rate + 1 })

/-! ## Ports and links -/

/-- The port that a number names, of four with two places each: the second place of a port is one of its own only where the
configuration record in force splits the port into two of 200 Gb/s (R5, R359, R378). -/
def State.portNo (s : State) (a : Nat) : Nat :=
  let n := a % 8
  let split := match s.devNow with | some d => d.ports.getD (n / 2) false | none => false
  if split then n else n / 2 * 2

/-- A port (R359). -/
def State.port (s : State) (n : Nat) : Port := tget {} s.ports n

/-- Event: a frame that is not supported is dropped and counted (R359). -/
def execFrameDrop (s : State) : Host.Outcome State Fault Refusal :=
  let n := s.portNo s.cur.ev.a
  .next { s with ports := tput s.ports n { s.port n with dropped := (s.port n).dropped + 1 } }

/-- Event: a priority flow control frame pauses or resumes sending on one of the eight priorities of a port (R359). -/
def execPriorityFlowControlFrame (s : State) : Host.Outcome State Fault Refusal :=
  let v := s.cur.ev
  let n := s.portNo v.a
  let rest := (s.port n).paused.filter (· != v.b % 8)
  .next { s with ports := tput s.ports n { s.port n with paused := if v.flag then v.b % 8 :: rest else rest } }

/-- Event: a port is retrained on its own, for at most 5 ms, while no other is (R381). -/
def execPortRetrain (s : State) : Host.Outcome State Fault Refusal :=
  let n := s.portNo s.cur.ev.a
  .next (
    if s.ports.any fun p => decide (s.clock < p.2.retrain) then s
    else { s with ports := tput s.ports n { s.port n with retrain := s.clock + 1 + s.cur.pick % 20000000 } })

/-- A link: ring link b joins beds b and b + 1, hub link 8 + b joins bed b to the hub (R382). -/
def State.link (s : State) (n : Nat) : Link := tget {} s.links n

/-- Event: a flit fails its CRC and is replayed; no transfer ends in error by it (R352). -/
def execFlitReplay (s : State) : Host.Outcome State Fault Refusal :=
  let n := s.cur.ev.a % 16
  .next { s with links := tput s.links n { s.link n with replays := (s.link n).replays + 1 } }

/-- Event: a link repairs a lane or recalibrates while it runs (R365). -/
def execUcieLaneRepair (s : State) : Host.Outcome State Fault Refusal :=
  let n := s.cur.ev.a % 16
  .next { s with links := tput s.links n { s.link n with repairs := (s.link n).repairs + 1 } }

end Sys2Proof.Machine
end

