-- ==== Sys2Proof/Machine/Integer.lean ====
section
/-! DEFINITION. The integer instructions: register arithmetic, immediates, constants, bit fields, compares and
predicates (spec/11_control_instructions.md R145-R155). -/

namespace Sys2Proof.Machine

/-! ## Values -/

/-- The quotient of `div`: all ones for a zero divisor, the overflow wrapped (R148). -/
def divS (a b : Quad) : Quad := if b = 0 then BitVec.allOnes 64 else quad (a.toInt.tdiv b.toInt)
/-- The quotient of `div.u` (R148). -/
def divU (a b : Quad) : Quad := if b = 0 then BitVec.allOnes 64 else a / b
/-- The remainder of `rem`, which takes the sign of the dividend (R148). -/
def remS (a b : Quad) : Quad := if b = 0 then a else quad (a.toInt.tmod b.toInt)
/-- The remainder of `rem.u` (R148). -/
def remU (a b : Quad) : Quad := if b = 0 then a else a % b
/-- The high quad of a signed product (R148). -/
def mulHigh (a b : Quad) : Quad := quad (a.toInt * b.toInt / 2 ^ 64)
/-- The high quad of an unsigned product (R148). -/
def mulHighU (a b : Quad) : Quad := quadN (a.toNat * b.toNat / 2 ^ 64)
/-- The smaller of two patterns read as signed (R148). -/
def minS (a b : Quad) : Quad := if b.toInt < a.toInt then b else a
/-- The smaller of two patterns read as unsigned (R148). -/
def minUns (a b : Quad) : Quad := if b.toNat < a.toNat then b else a
/-- The larger of two patterns read as signed (R148). -/
def maxS (a b : Quad) : Quad := if a.toInt < b.toInt then b else a
/-- The larger of two patterns read as unsigned (R148). -/
def maxUns (a b : Quad) : Quad := if a.toNat < b.toNat then b else a
/-- The leading zero bits of a pattern; 64 for zero (R149). -/
def clzOf (a : Quad) : Nat := if a = 0 then 64 else 63 - Nat.log2 a.toNat
/-- The trailing zero bits of a pattern; 64 for zero (R149). -/
def ctzOf (a : Quad) : Nat := ((List.range 64).find? fun i => a.getLsbD i).getD 64
/-- The set bits of a pattern (R149). -/
def popcOf (a : Quad) : Nat := popCount 64 a.toNat
/-- The low `w` bits of a pattern, sign-extended (R149). -/
def sextOf (w : Nat) (a : Quad) : Quad := quad (signed w a.toNat)
/-- The low `w` bits of a pattern, zero-extended (R149). -/
def zextOf (w : Nat) (a : Quad) : Quad := quadN (a.toNat % 2 ^ w)
/-- A bit field of a pattern, zero-extended (R153). -/
def fieldOf (a : Quad) (pos n : Nat) : Quad := quadN (a.toNat / 2 ^ pos % 2 ^ n)
/-- A bit field of a pattern, sign-extended (R153). -/
def fieldOfS (a : Quad) (pos n : Nat) : Quad := quad (signed n (a.toNat / 2 ^ pos))
/-- A pattern with the low bits of another in a field (R153). -/
def insertField (d a : Quad) (pos n : Nat) : Quad :=
  let mask := quadN ((2 ^ n - 1) * 2 ^ pos)
  (d &&& ~~~mask) ||| (quadN (a.toNat % 2 ^ n * 2 ^ pos) &&& mask)
/-- A pattern shifted left; 0 for an amount of 64 or more (R148). -/
def shlOf (a : Quad) (n : Nat) : Quad := if 64 ≤ n then 0 else a <<< n
/-- A pattern shifted right, zeros above; 0 for an amount of 64 or more (R148). -/
def shrOf (a : Quad) (n : Nat) : Quad := if 64 ≤ n then 0 else a >>> n
/-- A pattern shifted right, its sign above; its sign in every bit for an amount of 64 or more (R148). -/
def sraOf (a : Quad) (n : Nat) : Quad := a.sshiftRight (min n 63)
/-- A pattern whose high word is replaced by the low 32 bits of a constant (R151). -/
def setHigh (d : Quad) (k : Int) : Quad := quadN (d.toNat % 2 ^ 32 + (quad k).toNat % 2 ^ 32 * 2 ^ 32)

/-! ## Register arithmetic -/

/-- `add` (R148). -/
def execAdd (m : Mods) (d a b : Reg) (s : State) : Host.Outcome State Fault Refusal :=
  aluOp m d [a, b] s fun t => narrow m ((t.rx a).toInt + (t.rx b).toInt)

/-- `sub` (R148). -/
def execSub (m : Mods) (d a b : Reg) (s : State) : Host.Outcome State Fault Refusal :=
  aluOp m d [a, b] s fun t => narrow m ((t.rx a).toInt - (t.rx b).toInt)

/-- `mul` (R148). -/
def execMul (m : Mods) (d a b : Reg) (s : State) : Host.Outcome State Fault Refusal :=
  aluOp m d [a, b] s fun t => narrow m ((t.rx a).toInt * (t.rx b).toInt)

/-- `mulh` (R148). -/
def execMulh (m : Mods) (d a b : Reg) (s : State) : Host.Outcome State Fault Refusal :=
  aluOp m d [a, b] s fun t => mulHigh (t.rx a) (t.rx b)

/-- `mulh.u` (R148). -/
def execMulhU (m : Mods) (d a b : Reg) (s : State) : Host.Outcome State Fault Refusal :=
  aluOp m d [a, b] s fun t => mulHighU (t.rx a) (t.rx b)

/-- `div` (R148). -/
def execDiv (m : Mods) (d a b : Reg) (s : State) : Host.Outcome State Fault Refusal :=
  aluOp m d [a, b] s fun t => divS (t.rx a) (t.rx b)

/-- `div.u` (R148). -/
def execDivU (m : Mods) (d a b : Reg) (s : State) : Host.Outcome State Fault Refusal :=
  aluOp m d [a, b] s fun t => divU (t.rx a) (t.rx b)

/-- `rem` (R148). -/
def execRem (m : Mods) (d a b : Reg) (s : State) : Host.Outcome State Fault Refusal :=
  aluOp m d [a, b] s fun t => remS (t.rx a) (t.rx b)

/-- `rem.u` (R148). -/
def execRemU (m : Mods) (d a b : Reg) (s : State) : Host.Outcome State Fault Refusal :=
  aluOp m d [a, b] s fun t => remU (t.rx a) (t.rx b)

/-- `and` (R148). -/
def execAnd (m : Mods) (d a b : Reg) (s : State) : Host.Outcome State Fault Refusal :=
  aluOp m d [a, b] s fun t => t.rx a &&& t.rx b

/-- `or` (R148). -/
def execOr (m : Mods) (d a b : Reg) (s : State) : Host.Outcome State Fault Refusal :=
  aluOp m d [a, b] s fun t => t.rx a ||| t.rx b

/-- `xor` (R148). -/
def execXor (m : Mods) (d a b : Reg) (s : State) : Host.Outcome State Fault Refusal :=
  aluOp m d [a, b] s fun t => t.rx a ^^^ t.rx b

/-- `andn` (R148). -/
def execAndn (m : Mods) (d a b : Reg) (s : State) : Host.Outcome State Fault Refusal :=
  aluOp m d [a, b] s fun t => t.rx a &&& ~~~(t.rx b)

/-- `shl` (R148). -/
def execShl (m : Mods) (d a b : Reg) (s : State) : Host.Outcome State Fault Refusal :=
  aluOp m d [a, b] s fun t => shlOf (t.rx a) (t.rx b).toNat

/-- `shr` (R148). -/
def execShr (m : Mods) (d a b : Reg) (s : State) : Host.Outcome State Fault Refusal :=
  aluOp m d [a, b] s fun t => shrOf (t.rx a) (t.rx b).toNat

/-- `sra` (R148). -/
def execSra (m : Mods) (d a b : Reg) (s : State) : Host.Outcome State Fault Refusal :=
  aluOp m d [a, b] s fun t => sraOf (t.rx a) (t.rx b).toNat

/-- `rot` (R148). -/
def execRot (m : Mods) (d a b : Reg) (s : State) : Host.Outcome State Fault Refusal :=
  aluOp m d [a, b] s fun t => (t.rx a).rotateLeft ((t.rx b).toNat % 64)

/-- `min` (R148). -/
def execMin (m : Mods) (d a b : Reg) (s : State) : Host.Outcome State Fault Refusal :=
  aluOp m d [a, b] s fun t => minS (t.rx a) (t.rx b)

/-- `min.u` (R148). -/
def execMinU (m : Mods) (d a b : Reg) (s : State) : Host.Outcome State Fault Refusal :=
  aluOp m d [a, b] s fun t => minUns (t.rx a) (t.rx b)

/-- `max` (R148). -/
def execMax (m : Mods) (d a b : Reg) (s : State) : Host.Outcome State Fault Refusal :=
  aluOp m d [a, b] s fun t => maxS (t.rx a) (t.rx b)

/-- `max.u` (R148). -/
def execMaxU (m : Mods) (d a b : Reg) (s : State) : Host.Outcome State Fault Refusal :=
  aluOp m d [a, b] s fun t => maxUns (t.rx a) (t.rx b)

/-- `clz` (R149). -/
def execClz (m : Mods) (d a : Reg) (s : State) : Host.Outcome State Fault Refusal :=
  aluOp m d [a] s fun t => quadN (clzOf (t.rx a))

/-- `ctz` (R149). -/
def execCtz (m : Mods) (d a : Reg) (s : State) : Host.Outcome State Fault Refusal :=
  aluOp m d [a] s fun t => quadN (ctzOf (t.rx a))

/-- `popc` (R149). -/
def execPopc (m : Mods) (d a : Reg) (s : State) : Host.Outcome State Fault Refusal :=
  aluOp m d [a] s fun t => quadN (popcOf (t.rx a))

/-- `sext.b` (R149). -/
def execSextB (m : Mods) (d a : Reg) (s : State) : Host.Outcome State Fault Refusal :=
  aluOp m d [a] s fun t => sextOf 8 (t.rx a)

/-- `sext.h` (R149). -/
def execSextH (m : Mods) (d a : Reg) (s : State) : Host.Outcome State Fault Refusal :=
  aluOp m d [a] s fun t => sextOf 16 (t.rx a)

/-- `sext.w` (R149). -/
def execSextW (m : Mods) (d a : Reg) (s : State) : Host.Outcome State Fault Refusal :=
  aluOp m d [a] s fun t => sextOf 32 (t.rx a)

/-- `zext.b` (R149). -/
def execZextB (m : Mods) (d a : Reg) (s : State) : Host.Outcome State Fault Refusal :=
  aluOp m d [a] s fun t => zextOf 8 (t.rx a)

/-- `zext.h` (R149). -/
def execZextH (m : Mods) (d a : Reg) (s : State) : Host.Outcome State Fault Refusal :=
  aluOp m d [a] s fun t => zextOf 16 (t.rx a)

/-- `zext.w` (R149). -/
def execZextW (m : Mods) (d a : Reg) (s : State) : Host.Outcome State Fault Refusal :=
  aluOp m d [a] s fun t => zextOf 32 (t.rx a)

/-- `mov` (R149). -/
def execMov (m : Mods) (d a : Reg) (s : State) : Host.Outcome State Fault Refusal :=
  aluOp m d [a] s fun t => t.rx a

/-! ## Immediates and constants -/

/-- `addi` (R150). -/
def execAddi (m : Mods) (d a : Reg) (k : BitVec 10) (s : State) : Host.Outcome State Fault Refusal :=
  aluOp m d [a] s fun t => narrow m ((t.rx a).toInt + immS 10 k.toNat m)

/-- `andi` (R150). -/
def execAndi (m : Mods) (d a : Reg) (k : BitVec 10) (s : State) : Host.Outcome State Fault Refusal :=
  aluOp m d [a] s fun t => t.rx a &&& quad (immS 10 k.toNat m)

/-- `ori` (R150). -/
def execOri (m : Mods) (d a : Reg) (k : BitVec 10) (s : State) : Host.Outcome State Fault Refusal :=
  aluOp m d [a] s fun t => t.rx a ||| quad (immS 10 k.toNat m)

/-- `xori` (R150). -/
def execXori (m : Mods) (d a : Reg) (k : BitVec 10) (s : State) : Host.Outcome State Fault Refusal :=
  aluOp m d [a] s fun t => t.rx a ^^^ quad (immS 10 k.toNat m)

/-- `shli` (R150). -/
def execShli (m : Mods) (d a : Reg) (k : BitVec 6) (s : State) : Host.Outcome State Fault Refusal :=
  aluOp m d [a] s fun t => t.rx a <<< k.toNat

/-- `shri` (R150). -/
def execShri (m : Mods) (d a : Reg) (k : BitVec 6) (s : State) : Host.Outcome State Fault Refusal :=
  aluOp m d [a] s fun t => t.rx a >>> k.toNat

/-- `srai` (R150). -/
def execSrai (m : Mods) (d a : Reg) (k : BitVec 6) (s : State) : Host.Outcome State Fault Refusal :=
  aluOp m d [a] s fun t => (t.rx a).sshiftRight k.toNat

/-- The 32-bit `li` (R151). -/
def execLi (m : Mods) (d : Reg) (k : BitVec 15) (s : State) : Host.Outcome State Fault Refusal :=
  aluOp m d [] s fun t => quad (immS 15 k.toNat m)

/-- `lih`: the high word written, the low word kept (R151). -/
def execLih (m : Mods) (d : Reg) (k : BitVec 15) (s : State) : Host.Outcome State Fault Refusal :=
  aluOp m d [] s fun t => setHigh (t.rx d) (immS 15 k.toNat m)

/-- The 64-bit `li` (R151). -/
def execLi64 (m : Mods) (d : Reg) (k : BitVec 32) (s : State) : Host.Outcome State Fault Refusal :=
  aluOp m d [] s fun t => sextQuad 32 k.toNat

/-! ## 16-bit forms -/

/-- The 16-bit `mov` (R64, R150). -/
def execMov16 (d a : Reg) (s : State) : Host.Outcome State Fault Refusal :=
  aluOp {} d [a] s fun t => t.rx a

/-- The 16-bit `addi` (R64, R150). -/
def execAddi16 (d : Reg) (k : BitVec 5) (s : State) : Host.Outcome State Fault Refusal :=
  aluOp {} d [] s fun t => quad ((t.rx d).toInt + signed 5 k.toNat)

/-- The 16-bit `li` (R64, R151). -/
def execLi16 (d : Reg) (k : BitVec 5) (s : State) : Host.Outcome State Fault Refusal :=
  aluOp {} d [] s fun t => sextQuad 5 k.toNat

/-- The 16-bit `add` (R64, R150). -/
def execAdd16 (d a : Reg) (s : State) : Host.Outcome State Fault Refusal :=
  aluOp {} d [a] s fun t => quad ((t.rx d).toInt + (t.rx a).toInt)

/-- The 16-bit `sub` (R64, R150). -/
def execSub16 (d a : Reg) (s : State) : Host.Outcome State Fault Refusal :=
  aluOp {} d [a] s fun t => quad ((t.rx d).toInt - (t.rx a).toInt)

/-- The 16-bit `and` (R64, R150). -/
def execAnd16 (d a : Reg) (s : State) : Host.Outcome State Fault Refusal :=
  aluOp {} d [a] s fun t => t.rx d &&& t.rx a

/-- The 16-bit `or` (R64, R150). -/
def execOr16 (d a : Reg) (s : State) : Host.Outcome State Fault Refusal :=
  aluOp {} d [a] s fun t => t.rx d ||| t.rx a

/-- The 16-bit `xor` (R64, R150). -/
def execXor16 (d a : Reg) (s : State) : Host.Outcome State Fault Refusal :=
  aluOp {} d [a] s fun t => t.rx d ^^^ t.rx a

/-- The 16-bit `shli` (R64, R150). -/
def execShli16 (d : Reg) (k : BitVec 5) (s : State) : Host.Outcome State Fault Refusal :=
  aluOp {} d [] s fun t => t.rx d <<< k.toNat

/-- The 16-bit `shri` (R64, R150). -/
def execShri16 (d : Reg) (k : BitVec 5) (s : State) : Host.Outcome State Fault Refusal :=
  aluOp {} d [] s fun t => t.rx d >>> k.toNat

/-- The 16-bit `srai` (R64, R150). -/
def execSrai16 (d : Reg) (k : BitVec 5) (s : State) : Host.Outcome State Fault Refusal :=
  aluOp {} d [] s fun t => (t.rx d).sshiftRight k.toNat

/-! ## Three-source forms and bit fields -/

/-- `madd`: one wrap or clamp of the sum (R152). -/
def execMadd (m : Mods) (d a b c : Reg) (s : State) : Host.Outcome State Fault Refusal :=
  aluOp m d [a, b, c] s fun t => narrow m ((t.rx a).toInt * (t.rx b).toInt + (t.rx c).toInt)

/-- `lea` (R152). -/
def execLea (m : Mods) (d a b : Reg) (k : BitVec 5) (s : State) : Host.Outcome State Fault Refusal :=
  aluOp m d [a, b] s fun t => t.rx a + t.rx b <<< k.toNat

/-- `bext` (R153). -/
def execBext (m : Mods) (d a : Reg) (n : BitVec 4) (p : BitVec 6) (s : State) : Host.Outcome State Fault Refusal :=
  aluOp m d [a] s fun t => fieldOf (t.rx a) p.toNat (bfLen m n + 1)

/-- `bext.s` (R153). -/
def execBextS (m : Mods) (d a : Reg) (n : BitVec 4) (p : BitVec 6) (s : State) : Host.Outcome State Fault Refusal :=
  aluOp m d [a] s fun t => fieldOfS (t.rx a) p.toNat (bfLen m n + 1)

/-- `bins` (R153). -/
def execBins (m : Mods) (d a : Reg) (n : BitVec 4) (p : BitVec 6) (s : State) : Host.Outcome State Fault Refusal :=
  aluOp m d [a] s fun t => insertField (t.rx d) (t.rx a) p.toNat (bfLen m n + 1)

/-- `sel` (R152). -/
def execSel (m : Mods) (d a b : Reg) (n : BitVec 1) (p : BitVec 3) (s : State) : Host.Outcome State Fault Refusal :=
  issue { mods := m, cls := .commonXC, regs := [d, a, b] } s fun t =>
    .ok (t.wx d (if t.rp p == (n == 0#1) then t.rx a else t.rx b))

/-! ## Compares and predicates -/

/-- An instruction that writes a predicate of X or C. -/
def predOp (m : Mods) (p : BitVec 3) (srcs : List Reg) (s : State) (f : State → Bool) : Host.Outcome State Fault Refusal :=
  issue { mods := m, cls := .commonXC, regs := srcs } s fun t => .ok (t.wp p (f t))

/-- `cmp` (R154). -/
def execCmp (m : Mods) (c : Cond) (p : BitVec 3) (a b : Reg) (s : State) : Host.Outcome State Fault Refusal :=
  predOp m p [a, b] s fun t => condHolds c (t.rx a) (t.rx b)

/-- `cmpi` (R154). -/
def execCmpi (m : Mods) (c : Cond) (p : BitVec 3) (a : Reg) (k : BitVec 8) (s : State) : Host.Outcome State Fault Refusal :=
  predOp m p [a] s fun t => condHolds c (t.rx a) (quad (immS 8 k.toNat m))

/-- `pand` (R155). -/
def execPand (m : Mods) (d a b : BitVec 3) (s : State) : Host.Outcome State Fault Refusal :=
  predOp m d [] s fun t => t.rp a && t.rp b

/-- `por` (R155). -/
def execPor (m : Mods) (d a b : BitVec 3) (s : State) : Host.Outcome State Fault Refusal :=
  predOp m d [] s fun t => t.rp a || t.rp b

/-- `pxor` (R155). -/
def execPxor (m : Mods) (d a b : BitVec 3) (s : State) : Host.Outcome State Fault Refusal :=
  predOp m d [] s fun t => t.rp a != t.rp b

/-- `pnot` (R155). -/
def execPnot (m : Mods) (d a : BitVec 3) (s : State) : Host.Outcome State Fault Refusal :=
  predOp m d [] s fun t => !t.rp a

end Sys2Proof.Machine
end

