-- ==== Sys2Proof/Machine/StreamOps.lean ====
section
/-! DEFINITION. The stream instructions of L and S, and the events that move units
(spec/15_vector_stream_instructions.md R212-R219). -/

namespace Sys2Proof.Machine

/-- `sbind` (R213). -/
def execSbind (m : Mods) (z : BitVec 4) (a : Reg) (k : BitVec 16) (s : State) : Host.Outcome State Fault Refusal :=
  issue { mods := m, cls := onLS, regs := [a] } s fun t =>
    let va := effAddr (t.rx a) 0 (immS 16 k.toNat m)
    if (t.stream z.toNat).bound ∨ va % 64 ≠ 0 then .trap .qfault 0 0 t
    else
      match t.readLocal va 64 with
      | .error r => r
      | .ok (u, bs) =>
        match streamOf (leNat bs) (rmOfRound u.cc.round) with
        | none => .trap .qfault 0 0 u
        | some n => .ok (u.setStream z.toNat
            { n with write := u.cur.eng == .s, pos := u.pos, gate := u.ce.issues + 1 })

/-- `sbop` (R211, R213). -/
def execSbop (m : Mods) (z : BitVec 4) (a : Reg) (s : State) : Host.Outcome State Fault Refusal :=
  issue { mods := m, cls := onLS, regs := [a] } s fun t =>
    let q := t.stream z.toNat
    match (if t.ownStream z.toNat && !q.moved then chainOf (t.rx a) else none) with
    | none => .trap .qfault 0 0 t
    | some c => .ok (t.setStream z.toNat
        { q with chain := c, gate := if q.gate = t.ce.issues then t.ce.issues + 1 else q.gate })

/-- `sunbind` (R213, R219). With NOW a write stream is unbound once what C wrote before has been stored. -/
def execSunbind (m : Mods) (z : BitVec 4) (now : BitVec 1) (s : State) : Host.Outcome State Fault Refusal :=
  issue { mods := m, cls := onLS } s fun t =>
    let n := z.toNat
    let q := t.stream n
    let p := t.pos
    if !t.ownStream n then .trap .qfault 0 0 t
    else if now = 1 then
      if q.write && (q.buf != [] || (t.unissued t.me t.cur.eng .c p).any (decNames n)) then t.streamStall n
      else .ok (t.modMe fun c => c.unbind n)
    else if t.canUnbind t.me n t.cur.eng p then .ok (t.modMe fun c => c.unbind n)
    else .wait (.sunbind n p) t

/-- `sadv` (R213, R217). -/
def execSadv (m : Mods) (z : BitVec 4) (a : Reg) (s : State) : Host.Outcome State Fault Refusal :=
  issue { mods := m, cls := onLS, regs := [a] } s fun t =>
    let q := t.stream z.toNat
    if !t.ownStream z.toNat then .trap .qfault 0 0 t
    else
      .ok ((t.setStream z.toNat { q with skips := q.skips ++ [{ pos := t.pos, n := (t.rx a).toNat }] }).settleSkips t.me z.toNat)

/-- `sstat` (R216). -/
def execSstat (m : Mods) (d : Reg) (z : BitVec 4) (s : State) : Host.Outcome State Fault Refusal :=
  issue { mods := m, cls := onLS, regs := [d] } s fun t =>
    let u := t.settleSkips t.me z.toNat
    .ok (u.wx d (u.stream z.toNat).word)

/-- Event: a waiting `sunbind` finds every unit taken or stored, and the stream is unbound (R219). -/
def execSunbindComplete (s : State) : Host.Outcome State Fault Refusal :=
  let v := s.cur.ev
  let k := ctxKey v.core v.ctx
  .next (match ((s.ctx k).eng v.eng).wait with
    | .sunbind n p =>
      if s.canUnbind k n v.eng p then s.modCtx k fun c => (c.unbind n).endWait v.eng else s
    | _ => s)

/-- Event: L fetches a line part of the next unit of a read stream (R127, R214). -/
def execStreamFetch (s : State) : Host.Outcome State Fault Refusal :=
  let v := s.cur.ev
  let k := ctxKey v.core v.ctx
  let t := s.settleSkips k v.a
  .next (if t.canFetch k v.a then t.fetchUnit k v.a s.cur.pick else s)

/-- Event: S stores a line part of the next written unit of a write stream (R127, R215). -/
def execStreamStore (s : State) : Host.Outcome State Fault Refusal :=
  let v := s.cur.ev
  let k := ctxKey v.core v.ctx
  .next (if s.canStore k v.a then s.storeUnit k v.a s.cur.pick else s)

end Sys2Proof.Machine
end

