-- ==== Sys2Proof/Machine/Vector.lean ====
section
/-! DEFINITION. The vector instructions of C (spec/15_vector_stream_instructions.md R190-R208). -/

namespace Sys2Proof.Machine

/-- The bits of an element width. -/
def widthBits (w : Width) : Nat := 8 * widthBytes w
/-- The bits of an integer element type (R194). -/
def etBits (e : IntEt) : Nat := fmtWidth (intEtFmt e)

/-! ## Integer operations -/

/-- An integer operation on two vectors: elements read by U, the result wrapped, or clamped where the operation
saturates (R195). -/
def intOp2 (m : Mods) (d : VDst) (a b : VSrc) (w : Nat) (u sat : Bool) (f : Int → Int → Int) (s : State) :
    Host.Outcome State Fault Refusal :=
  vecOp m d [a, b] [] s fun _ l =>
    vMap2 w (fun x y => intResult w u sat (f (elemInt w u x) (elemInt w u y))) (l.getD 0 0) (l.getD 1 0)

/-- An integer operation on one vector (R195). -/
def intOp1 (m : Mods) (d : VDst) (a : VSrc) (w : Nat) (u sat : Bool) (f : Int → Int) (s : State) :
    Host.Outcome State Fault Refusal :=
  vecOp m d [a] [] s fun _ l => vMap1 w (fun x => intResult w u sat (f (elemInt w u x))) (l.getD 0 0)

/-- A bitwise operation on two vectors (R195). -/
def bitOp (m : Mods) (d : VDst) (a b : VSrc) (f : Vec → Vec → Vec) (s : State) : Host.Outcome State Fault Refusal :=
  vecOp m d [a, b] [] s fun _ l => f (l.getD 0 0) (l.getD 1 0)

/-- A shift, whose amount is read as unsigned (R195). -/
def shiftOp (m : Mods) (d : VDst) (a b : VSrc) (et : IntEt) (f : Nat → Nat → Nat → Nat) (s : State) :
    Host.Outcome State Fault Refusal :=
  vecOp m d [a, b] [] s fun _ l => vMap2 (etBits et) (f (etBits et)) (l.getD 0 0) (l.getD 1 0)

/-- `vadd` (R195). -/
def execVadd (m : Mods) (d : VDst) (a b : VSrc) (u : BitVec 1) (et : IntEt) (s : State) :
    Host.Outcome State Fault Refusal :=
  intOp2 m d a b (etBits et) (u == 1#1) (satOf m) (fun x y => x + y) s

/-- `vsub` (R195). -/
def execVsub (m : Mods) (d : VDst) (a b : VSrc) (u : BitVec 1) (et : IntEt) (s : State) :
    Host.Outcome State Fault Refusal :=
  intOp2 m d a b (etBits et) (u == 1#1) (satOf m) (fun x y => x - y) s

/-- `vmul` (R195). -/
def execVmul (m : Mods) (d : VDst) (a b : VSrc) (u : BitVec 1) (et : IntEt) (s : State) :
    Host.Outcome State Fault Refusal :=
  intOp2 m d a b (etBits et) (u == 1#1) (satOf m) (fun x y => x * y) s

/-- `vmulh`: it never saturates (R195). -/
def execVmulh (m : Mods) (d : VDst) (a b : VSrc) (u : BitVec 1) (et : IntEt) (s : State) :
    Host.Outcome State Fault Refusal :=
  intOp2 m d a b (etBits et) (u == 1#1) false (fun x y => x * y / (2 ^ etBits et : Nat)) s

/-- `vmadd`: one wrap or clamp (R195). -/
def execVmadd (m : Mods) (d : VDst) (a b c : VSrc) (u : BitVec 1) (et : IntEt) (s : State) :
    Host.Outcome State Fault Refusal :=
  vecOp m d [a, b, c] [] s fun _ l =>
    let w := etBits et
    let v (e : Nat) : Int := elemInt w (u == 1#1) e
    vMap3 w (fun x y z => intResult w (u == 1#1) (satOf m) (v x * v y + v z)) (l.getD 0 0) (l.getD 1 0) (l.getD 2 0)

/-- `vmin` (R195). -/
def execVmin (m : Mods) (d : VDst) (a b : VSrc) (u : BitVec 1) (et : IntEt) (s : State) :
    Host.Outcome State Fault Refusal :=
  intOp2 m d a b (etBits et) (u == 1#1) false (fun x y => min x y) s

/-- `vmax` (R195). -/
def execVmax (m : Mods) (d : VDst) (a b : VSrc) (u : BitVec 1) (et : IntEt) (s : State) :
    Host.Outcome State Fault Refusal :=
  intOp2 m d a b (etBits et) (u == 1#1) false (fun x y => max x y) s

/-- `vand` (R195). -/
def execVand (m : Mods) (d : VDst) (a b : VSrc) (_ : BitVec 1) (_ : IntEt) (s : State) :
    Host.Outcome State Fault Refusal :=
  bitOp m d a b (fun x y => x &&& y) s

/-- `vor` (R195). -/
def execVor (m : Mods) (d : VDst) (a b : VSrc) (_ : BitVec 1) (_ : IntEt) (s : State) :
    Host.Outcome State Fault Refusal :=
  bitOp m d a b (fun x y => x ||| y) s

/-- `vxor` (R195). -/
def execVxor (m : Mods) (d : VDst) (a b : VSrc) (_ : BitVec 1) (_ : IntEt) (s : State) :
    Host.Outcome State Fault Refusal :=
  bitOp m d a b (fun x y => x ^^^ y) s

/-- `vshl` (R195). -/
def execVshl (m : Mods) (d : VDst) (a b : VSrc) (_ : BitVec 1) (et : IntEt) (s : State) :
    Host.Outcome State Fault Refusal :=
  shiftOp m d a b et elemShl s

/-- `vshr` (R195). -/
def execVshr (m : Mods) (d : VDst) (a b : VSrc) (_ : BitVec 1) (et : IntEt) (s : State) :
    Host.Outcome State Fault Refusal :=
  shiftOp m d a b et elemShr s

/-- `vsra` (R195). -/
def execVsra (m : Mods) (d : VDst) (a b : VSrc) (_ : BitVec 1) (et : IntEt) (s : State) :
    Host.Outcome State Fault Refusal :=
  shiftOp m d a b et elemSra s

/-- `vabs` (R195). -/
def execVabs (m : Mods) (d : VDst) (a : VSrc) (u : BitVec 1) (et : IntEt) (s : State) :
    Host.Outcome State Fault Refusal :=
  intOp1 m d a (etBits et) (u == 1#1) (satOf m) (fun x => (x.natAbs : Int)) s

/-- `vneg` (R195). -/
def execVneg (m : Mods) (d : VDst) (a : VSrc) (u : BitVec 1) (et : IntEt) (s : State) :
    Host.Outcome State Fault Refusal :=
  intOp1 m d a (etBits et) (u == 1#1) (satOf m) (fun x => -x) s

/-- A compare: all-ones or zero for each element, and with PE the predicate PD as the OR of the elements (R194, R195,
R196). -/
def cmpOp (m : Mods) (d : VDst) (a b : VSrc) (w : Nat) (pe : BitVec 1) (pd : BitVec 3) (f : Nat → Nat → Bool) (s : State) :
    Host.Outcome State Fault Refusal :=
  issue (vecForm m (some d) [a, b] []) s fun t =>
    t.withSrcs (some d) [a, b] fun t1 l =>
      let v := vMap2 w (fun x y => ones w (f x y)) (l.getD 0 0) (l.getD 1 0)
      match t1.putDst d v with
      | .error (.stall x _) => .stall x t
      | .error r => r
      | .ok t2 => .ok (if pe = 1 then t2.wp pd (v != 0) else t2)

/-- `vcmp` (R194, R195). -/
def execVcmp (m : Mods) (d : VDst) (a b : VSrc) (pe : BitVec 1) (pd : BitVec 3) (c : VCond) (u : BitVec 1) (et : IntEt)
    (s : State) : Host.Outcome State Fault Refusal :=
  cmpOp m d a b (etBits et) pe pd (fun x y => vcondHolds c (elemInt (etBits et) (u == 1#1) x) (elemInt (etBits et) (u == 1#1) y)) s

/-- `vsel` (R195). -/
def execVsel (m : Mods) (d : VDst) (a b c : VSrc) (_ : BitVec 1) (et : IntEt) (s : State) :
    Host.Outcome State Fault Refusal :=
  vecOp m d [a, b, c] [] s fun _ l =>
    vMap3 (etBits et) (fun x y z => if z = 0 then y else x) (l.getD 0 0) (l.getD 1 0) (l.getD 2 0)

/-- `vpopc` (R195). -/
def execVpopc (m : Mods) (d : VDst) (a : VSrc) (_ : BitVec 1) (et : IntEt) (s : State) :
    Host.Outcome State Fault Refusal :=
  vecOp m d [a] [] s fun _ l => vMap1 (etBits et) (popCount (etBits et)) (l.getD 0 0)

/-! ## Floating-point operations -/

/-- A floating operation on two vectors, rounded once by the instruction's mode (R197). -/
def fltOp2 (m : Mods) (d : VDst) (a b : VSrc) (f : Fmt) (g : Rm → XR → XR → XR) (s : State) :
    Host.Outcome State Fault Refusal :=
  vecOp m d [a, b] [] s fun t l => fMap2 f (t.rm m) (satOf m) (ftzOf m) (g (t.rm m)) (l.getD 0 0) (l.getD 1 0)

/-- `vfmin` and `vfmax`: RM and SAT have no effect (R192, R197). -/
def pickOp (m : Mods) (d : VDst) (a b : VSrc) (f : Fmt) (g : XR → XR → XR) (s : State) : Host.Outcome State Fault Refusal :=
  vecOp m d [a, b] [] s fun _ l => fMap2 f .rne false (ftzOf m) g (l.getD 0 0) (l.getD 1 0)

/-- A floating operation on one vector (R198). -/
def fltOp1 (m : Mods) (d : VDst) (a : VSrc) (f : Fmt) (g : XR → XR) (s : State) : Host.Outcome State Fault Refusal :=
  vecOp m d [a] [] s fun t l => fMap1 f (t.rm m) (satOf m) (ftzOf m) g (l.getD 0 0)

/-- `vfadd` (R197). -/
def execVfadd (m : Mods) (d : VDst) (a b : VSrc) (et : FltEt) (s : State) : Host.Outcome State Fault Refusal :=
  fltOp2 m d a b (fltEtFmt et) (fun r x y => x.add r y) s

/-- `vfsub` (R197). -/
def execVfsub (m : Mods) (d : VDst) (a b : VSrc) (et : FltEt) (s : State) : Host.Outcome State Fault Refusal :=
  fltOp2 m d a b (fltEtFmt et) (fun r x y => x.add r y.negate) s

/-- `vfmul` (R197). -/
def execVfmul (m : Mods) (d : VDst) (a b : VSrc) (et : FltEt) (s : State) : Host.Outcome State Fault Refusal :=
  fltOp2 m d a b (fltEtFmt et) (fun _ x y => x.mul y) s

/-- `vfma`: one rounding (R197). -/
def execVfma (m : Mods) (d : VDst) (a b c : VSrc) (et : FltEt) (s : State) : Host.Outcome State Fault Refusal :=
  vecOp m d [a, b, c] [] s fun t l =>
    fMap3 (fltEtFmt et) (t.rm m) (satOf m) (ftzOf m) (fun x y z => (x.mul y).add (t.rm m) z) (l.getD 0 0) (l.getD 1 0)
      (l.getD 2 0)

/-- `vfmin` (R197). -/
def execVfmin (m : Mods) (d : VDst) (a b : VSrc) (et : FltEt) (s : State) : Host.Outcome State Fault Refusal :=
  pickOp m d a b (fltEtFmt et) XR.smaller s

/-- `vfmax` (R197). -/
def execVfmax (m : Mods) (d : VDst) (a b : VSrc) (et : FltEt) (s : State) : Host.Outcome State Fault Refusal :=
  pickOp m d a b (fltEtFmt et) XR.larger s

/-- `vfcmp` (R197). -/
def execVfcmp (m : Mods) (d : VDst) (a b : VSrc) (pe : BitVec 1) (pd : BitVec 3) (c : FCond) (et : FltEt) (s : State) :
    Host.Outcome State Fault Refusal :=
  cmpOp m d a b (fmtWidth (fltEtFmt et)) pe pd
    (fun x y => fcondHolds c (fmtValue (fltEtFmt et) (ftzOf m) x) (fmtValue (fltEtFmt et) (ftzOf m) y)) s

/-- `vfrcp` (R198). -/
def execVfrcp (m : Mods) (d : VDst) (a : VSrc) (et : FltEt3) (s : State) : Host.Outcome State Fault Refusal :=
  fltOp1 m d a (fltEt3Fmt et) xRecip s

/-- `vfrsq` (R198). -/
def execVfrsq (m : Mods) (d : VDst) (a : VSrc) (et : FltEt3) (s : State) : Host.Outcome State Fault Refusal :=
  fltOp1 m d a (fltEt3Fmt et) xRsqrt s

/-- `vfexp2` (R198). -/
def execVfexp2 (m : Mods) (d : VDst) (a : VSrc) (et : FltEt3) (s : State) : Host.Outcome State Fault Refusal :=
  fltOp1 m d a (fltEt3Fmt et) xExp2 s

/-- `vflog2` (R198). -/
def execVflog2 (m : Mods) (d : VDst) (a : VSrc) (et : FltEt3) (s : State) : Host.Outcome State Fault Refusal :=
  fltOp1 m d a (fltEt3Fmt et) xLog2 s

/-- `vftanh` (R198). -/
def execVftanh (m : Mods) (d : VDst) (a : VSrc) (et : FltEt3) (s : State) : Host.Outcome State Fault Refusal :=
  fltOp1 m d a (fltEt3Fmt et) xTanh s

/-! ## Conversion, quantisation and records -/

/-- The format that a code of a decoded instruction names. -/
def fmtOf (c : BitVec 6) : Fmt := (fmtOfCode c).getD .i8s

/-- `vcvt` (R200). -/
def execVcvt (m : Mods) (d : VDst) (a : VSrc) (k : BitVec 4) (sf tf : BitVec 6) (s : State) :
    Host.Outcome State Fault Refusal :=
  vecOp m d [a] [] s fun t l => vecCvt (fmtOf sf) (fmtOf tf) k.toNat (t.rm m) (satOf m) (ftzOf m) (l.getD 0 0)

/-- `vqnt` (R201). -/
def execVqnt (m : Mods) (d : VDst) (a b : VSrc) (k scm : BitVec 1) (sf : FltEt3) (tf : BitVec 6) (s : State) :
    Host.Outcome State Fault Refusal :=
  vecOp m d (if scm = 1 then [a, b] else [a]) [] s fun t l =>
    let scale := if scm = 1 then some ((l.getD 1 0).setWidth 8) else none
    vecQnt (fltEt3Fmt sf) (fmtOf tf) k.toNat scale (t.rm m) (satOf m) (ftzOf m) (l.getD 0 0)

/-- `vdqnt` (R202). -/
def execVdqnt (m : Mods) (d : VDst) (a : VSrc) (k : BitVec 1) (sf : BitVec 6) (tf : FltEt3) (s : State) :
    Host.Outcome State Fault Refusal :=
  vecOp m d [a] [] s fun t l => vecDqnt (fmtOf sf) (fltEt3Fmt tf) k.toNat (t.rm m) (satOf m) (ftzOf m) (l.getD 0 0)

/-- `vpack` (R203). -/
def execVpack (m : Mods) (d : VDst) (a : VSrc) (f : BitVec 6) (s : State) : Host.Outcome State Fault Refusal :=
  vecOp m d [a] [] s fun _ l => vecPack (fmtOf f) (l.getD 0 0)

/-- `vunpk` (R203). -/
def execVunpk (m : Mods) (d : VDst) (a : VSrc) (f : BitVec 6) (s : State) : Host.Outcome State Fault Refusal :=
  vecOp m d [a] [] s fun _ l => vecUnpk (fmtOf f) (l.getD 0 0)

/-! ## Reductions -/

/-- `vradd` (R204). -/
def execVradd (m : Mods) (d : VDst) (a : VSrc) (u : BitVec 1) (et : IntEt) (s : State) :
    Host.Outcome State Fault Refusal :=
  vecOp m d [a] [] s fun _ l => vecRadd (etBits et) (u == 1#1) (satOf m) (l.getD 0 0)

/-- `vrmax` (R204). -/
def execVrmax (m : Mods) (d : VDst) (a : VSrc) (u : BitVec 1) (et : IntEt) (s : State) :
    Host.Outcome State Fault Refusal :=
  vecOp m d [a] [] s fun _ l => vecRmax (etBits et) (u == 1#1) (l.getD 0 0)

/-- `vfradd` (R204). -/
def execVfradd (m : Mods) (d : VDst) (a : VSrc) (et : FltEt) (s : State) : Host.Outcome State Fault Refusal :=
  vecOp m d [a] [] s fun t l => vecFradd (fltEtFmt et) (t.rm m) (satOf m) (ftzOf m) (l.getD 0 0)

/-- `vfrmax` (R204). -/
def execVfrmax (m : Mods) (d : VDst) (a : VSrc) (et : FltEt) (s : State) : Host.Outcome State Fault Refusal :=
  vecOp m d [a] [] s fun _ l => vecFrmax (fltEtFmt et) (ftzOf m) (l.getD 0 0)

/-! ## Permutations, the merge and moves -/

/-- `vperm` (R205). -/
def execVperm (m : Mods) (d : VDst) (a b c : VSrc) (w : Width) (s : State) : Host.Outcome State Fault Refusal :=
  vecOp m d [a, b, c] [] s fun _ l => vecPerm (widthBits w) (l.getD 0 0) (l.getD 1 0) (l.getD 2 0)

/-- `vrot` (R205). -/
def execVrot (m : Mods) (d : VDst) (a : VSrc) (k : BitVec 8) (w : Width) (s : State) : Host.Outcome State Fault Refusal :=
  vecOp m d [a] [] s fun _ l => vecRot (widthBits w) k.toNat (l.getD 0 0)

/-- `vbcast` (R205). -/
def execVbcast (m : Mods) (d : VDst) (a : VSrc) (k : BitVec 8) (w : Width) (s : State) : Host.Outcome State Fault Refusal :=
  vecOp m d [a] [] s fun _ l => vecBcast (widthBits w) k.toNat (l.getD 0 0)

/-- `vext`: the element goes to an x register of C (R205). -/
def execVext (m : Mods) (d : Reg) (a : VSrc) (k : BitVec 8) (sx : BitVec 1) (w : Width) (s : State) :
    Host.Outcome State Fault Refusal :=
  issue (vecForm m none [a] [d]) s fun t =>
    t.withSrcs none [a] fun t1 l =>
      .ok (t1.wx d (extend (sx == 1#1) (widthBytes w) ((vElems (widthBits w) (l.getD 0 0)).getD k.toNat 0)))

/-- `vins` (R205). -/
def execVins (m : Mods) (d : VDst) (a : VSrc) (b : Reg) (k : BitVec 8) (w : Width) (s : State) :
    Host.Outcome State Fault Refusal :=
  vecOp m d [a] [b] s fun t l => vecIns (widthBits w) k.toNat (l.getD 0 0) (t.rx b)

/-- `vcomp` (R205). -/
def execVcomp (m : Mods) (d : VDst) (a b : VSrc) (w : Width) (s : State) : Host.Outcome State Fault Refusal :=
  vecOp m d [a, b] [] s fun _ l => vecComp (widthBits w) (l.getD 0 0) (l.getD 1 0)

/-- `vexpd` (R205). -/
def execVexpd (m : Mods) (d : VDst) (a b : VSrc) (w : Width) (s : State) : Host.Outcome State Fault Refusal :=
  vecOp m d [a, b] [] s fun _ l => vecExpd (widthBits w) (l.getD 0 0) (l.getD 1 0)

/-- `vmrg3` (R206). -/
def execVmrg3 (m : Mods) (d : VDst) (a b c : VSrc) (sel : BitVec 1) (s : State) : Host.Outcome State Fault Refusal :=
  vecOp m d [a, b, c] [] s fun _ l => vecMrg3 (sel == 1#1) (l.getD 0 0) (l.getD 1 0) (l.getD 2 0)

/-- `vmov` (R207). -/
def execVmov (m : Mods) (d : VDst) (a : VSrc) (s : State) : Host.Outcome State Fault Refusal :=
  vecOp m d [a] [] s fun _ l => l.getD 0 0

/-- `vli` (R207). -/
def execVli (m : Mods) (d : VDst) (r : BitVec 1) (w : Width) (k : BitVec 16) (s : State) :
    Host.Outcome State Fault Refusal :=
  vecOp m d [] [] s fun _ _ => vecLi (widthBits w) (r == 1#1) (immS 16 k.toNat m)

/-- `vsplat` (R207). -/
def execVsplat (m : Mods) (d : VDst) (a : Reg) (w : Width) (s : State) : Host.Outcome State Fault Refusal :=
  vecOp m d [] [a] s fun t _ => vecSplat (widthBits w) (t.rx a)

/-! ## Compact forms -/

/-- A compact form acts on the operands that its fields name with their extension (R58, R208). -/
def compact (m : Mods) (d a b : Reg) (s : State) (f : VDst → VSrc → VSrc → Host.Outcome State Fault Refusal) :
    Host.Outcome State Fault Refusal :=
  match compactDst m d, compactA m a, compactB m b with
  | some d', some a', some b' => f d' a' b'
  | _, _, _ => .next (s.trapHere .illop)

/-- The width that the FN field of a compact integer form names (R208). -/
def compactBits (e : BitVec 2) : Nat := 8 * 2 ^ e.toNat

/-- The format that the FN field of a compact floating form names (R208). -/
def cFltFmt : CFlt → Fmt
  | .fp32 => .fp32
  | .bf16 => .bf16
  | .fp16 => .fp16

/-- Compact `vadd` (R208). -/
def execVaddC (m : Mods) (d a b : Reg) (e : BitVec 2) (s : State) : Host.Outcome State Fault Refusal :=
  compact m d a b s fun d a b => intOp2 m d a b (compactBits e) false (satOf m) (fun x y => x + y) s

/-- Compact `vsub` (R208). -/
def execVsubC (m : Mods) (d a b : Reg) (e : BitVec 2) (s : State) : Host.Outcome State Fault Refusal :=
  compact m d a b s fun d a b => intOp2 m d a b (compactBits e) false (satOf m) (fun x y => x - y) s

/-- Compact `vmul` (R208). -/
def execVmulC (m : Mods) (d a b : Reg) (e : BitVec 2) (s : State) : Host.Outcome State Fault Refusal :=
  compact m d a b s fun d a b => intOp2 m d a b (compactBits e) false (satOf m) (fun x y => x * y) s

/-- Compact `vmin` (R208). -/
def execVminC (m : Mods) (d a b : Reg) (e : BitVec 2) (s : State) : Host.Outcome State Fault Refusal :=
  compact m d a b s fun d a b => intOp2 m d a b (compactBits e) false false (fun x y => min x y) s

/-- Compact `vmax` (R208). -/
def execVmaxC (m : Mods) (d a b : Reg) (e : BitVec 2) (s : State) : Host.Outcome State Fault Refusal :=
  compact m d a b s fun d a b => intOp2 m d a b (compactBits e) false false (fun x y => max x y) s

/-- Compact `vand` (R208). -/
def execVandC (m : Mods) (d a b : Reg) (_ : BitVec 2) (s : State) : Host.Outcome State Fault Refusal :=
  compact m d a b s fun d a b => bitOp m d a b (fun x y => x &&& y) s

/-- Compact `vor` (R208). -/
def execVorC (m : Mods) (d a b : Reg) (_ : BitVec 2) (s : State) : Host.Outcome State Fault Refusal :=
  compact m d a b s fun d a b => bitOp m d a b (fun x y => x ||| y) s

/-- Compact `vxor` (R208). -/
def execVxorC (m : Mods) (d a b : Reg) (_ : BitVec 2) (s : State) : Host.Outcome State Fault Refusal :=
  compact m d a b s fun d a b => bitOp m d a b (fun x y => x ^^^ y) s

/-- Compact `vfadd` (R208). -/
def execVfaddC (m : Mods) (d a b : Reg) (e : CFlt) (s : State) : Host.Outcome State Fault Refusal :=
  compact m d a b s fun d a b => fltOp2 m d a b (cFltFmt e) (fun r x y => x.add r y) s

/-- Compact `vfsub` (R208). -/
def execVfsubC (m : Mods) (d a b : Reg) (e : CFlt) (s : State) : Host.Outcome State Fault Refusal :=
  compact m d a b s fun d a b => fltOp2 m d a b (cFltFmt e) (fun r x y => x.add r y.negate) s

/-- Compact `vfmul` (R208). -/
def execVfmulC (m : Mods) (d a b : Reg) (e : CFlt) (s : State) : Host.Outcome State Fault Refusal :=
  compact m d a b s fun d a b => fltOp2 m d a b (cFltFmt e) (fun _ x y => x.mul y) s

/-- Compact `vfmin` (R208). -/
def execVfminC (m : Mods) (d a b : Reg) (e : CFlt) (s : State) : Host.Outcome State Fault Refusal :=
  compact m d a b s fun d a b => pickOp m d a b (cFltFmt e) XR.smaller s

/-- Compact `vfmax` (R208). -/
def execVfmaxC (m : Mods) (d a b : Reg) (e : CFlt) (s : State) : Host.Outcome State Fault Refusal :=
  compact m d a b s fun d a b => pickOp m d a b (cFltFmt e) XR.larger s

end Sys2Proof.Machine
end

