-- ==== Sys2Proof/Machine/Dispatch.lean ====
section
/-! DEFINITION. What each instruction and each event does: one arm per constructor of Instr. -/

namespace Sys2Proof.Machine

/-- One step of an instruction, or of an event of the device. -/
def exec (i : Instr) (s : State) : Host.Outcome State Fault Refusal :=
  match i with
  | .blockHeader rep body mask => Sys2Proof.Machine.execBlockHeader rep body mask s
  | .blockHeaderReg r body mask => Sys2Proof.Machine.execBlockHeaderReg r body mask s
  | .mov16 d a => Sys2Proof.Machine.execMov16 d a s
  | .addi16 d k => Sys2Proof.Machine.execAddi16 d k s
  | .li16 d k => Sys2Proof.Machine.execLi16 d k s
  | .add16 d a => Sys2Proof.Machine.execAdd16 d a s
  | .sub16 d a => Sys2Proof.Machine.execSub16 d a s
  | .and16 d a => Sys2Proof.Machine.execAnd16 d a s
  | .or16 d a => Sys2Proof.Machine.execOr16 d a s
  | .xor16 d a => Sys2Proof.Machine.execXor16 d a s
  | .shli16 d k => Sys2Proof.Machine.execShli16 d k s
  | .shri16 d k => Sys2Proof.Machine.execShri16 d k s
  | .srai16 d k => Sys2Proof.Machine.execSrai16 d k s
  | .add m d a b => Sys2Proof.Machine.execAdd m d a b s
  | .sub m d a b => Sys2Proof.Machine.execSub m d a b s
  | .mul m d a b => Sys2Proof.Machine.execMul m d a b s
  | .mulh m d a b => Sys2Proof.Machine.execMulh m d a b s
  | .mulhU m d a b => Sys2Proof.Machine.execMulhU m d a b s
  | .div m d a b => Sys2Proof.Machine.execDiv m d a b s
  | .divU m d a b => Sys2Proof.Machine.execDivU m d a b s
  | .rem m d a b => Sys2Proof.Machine.execRem m d a b s
  | .remU m d a b => Sys2Proof.Machine.execRemU m d a b s
  | .and m d a b => Sys2Proof.Machine.execAnd m d a b s
  | .or m d a b => Sys2Proof.Machine.execOr m d a b s
  | .xor m d a b => Sys2Proof.Machine.execXor m d a b s
  | .andn m d a b => Sys2Proof.Machine.execAndn m d a b s
  | .shl m d a b => Sys2Proof.Machine.execShl m d a b s
  | .shr m d a b => Sys2Proof.Machine.execShr m d a b s
  | .sra m d a b => Sys2Proof.Machine.execSra m d a b s
  | .rot m d a b => Sys2Proof.Machine.execRot m d a b s
  | .min m d a b => Sys2Proof.Machine.execMin m d a b s
  | .minU m d a b => Sys2Proof.Machine.execMinU m d a b s
  | .max m d a b => Sys2Proof.Machine.execMax m d a b s
  | .maxU m d a b => Sys2Proof.Machine.execMaxU m d a b s
  | .clz m d a => Sys2Proof.Machine.execClz m d a s
  | .ctz m d a => Sys2Proof.Machine.execCtz m d a s
  | .popc m d a => Sys2Proof.Machine.execPopc m d a s
  | .sextB m d a => Sys2Proof.Machine.execSextB m d a s
  | .sextH m d a => Sys2Proof.Machine.execSextH m d a s
  | .sextW m d a => Sys2Proof.Machine.execSextW m d a s
  | .zextB m d a => Sys2Proof.Machine.execZextB m d a s
  | .zextH m d a => Sys2Proof.Machine.execZextH m d a s
  | .zextW m d a => Sys2Proof.Machine.execZextW m d a s
  | .mov m d a => Sys2Proof.Machine.execMov m d a s
  | .addi m d a k => Sys2Proof.Machine.execAddi m d a k s
  | .andi m d a k => Sys2Proof.Machine.execAndi m d a k s
  | .ori m d a k => Sys2Proof.Machine.execOri m d a k s
  | .xori m d a k => Sys2Proof.Machine.execXori m d a k s
  | .shli m d a k => Sys2Proof.Machine.execShli m d a k s
  | .shri m d a k => Sys2Proof.Machine.execShri m d a k s
  | .srai m d a k => Sys2Proof.Machine.execSrai m d a k s
  | .li m d k => Sys2Proof.Machine.execLi m d k s
  | .lih m d k => Sys2Proof.Machine.execLih m d k s
  | .li64 m d k => Sys2Proof.Machine.execLi64 m d k s
  | .madd m d a b c => Sys2Proof.Machine.execMadd m d a b c s
  | .sel m d a b k0 p => Sys2Proof.Machine.execSel m d a b k0 p s
  | .bext m d a n p => Sys2Proof.Machine.execBext m d a n p s
  | .bextS m d a n p => Sys2Proof.Machine.execBextS m d a n p s
  | .bins m d a n p => Sys2Proof.Machine.execBins m d a n p s
  | .lea m d a b k0 => Sys2Proof.Machine.execLea m d a b k0 s
  | .cmp m c p a b => Sys2Proof.Machine.execCmp m c p a b s
  | .cmpi m c p a k => Sys2Proof.Machine.execCmpi m c p a k s
  | .pand m d a b => Sys2Proof.Machine.execPand m d a b s
  | .por m d a b => Sys2Proof.Machine.execPor m d a b s
  | .pxor m d a b => Sys2Proof.Machine.execPxor m d a b s
  | .pnot m d a => Sys2Proof.Machine.execPnot m d a s
  | .bra o => Sys2Proof.Machine.execBra o s
  | .bc p k0 o => Sys2Proof.Machine.execBc p k0 o s
  | .call o => Sys2Proof.Machine.execCall o s
  | .bq k0 o => Sys2Proof.Machine.execBq k0 o s
  | .bx a => Sys2Proof.Machine.execBx a s
  | .bcast p e k1 => Sys2Proof.Machine.execBcast p e k1 s
  | .xsend m e a => Sys2Proof.Machine.execXsend m e a s
  | .xrecv m d => Sys2Proof.Machine.execXrecv m d s
  | .mfs m d n => Sys2Proof.Machine.execMfs m d n s
  | .mts m a n => Sys2Proof.Machine.execMts m a n s
  | .feat m d n => Sys2Proof.Machine.execFeat m d n s
  | .clock m d => Sys2Proof.Machine.execClock m d s
  | .roleid m d n => Sys2Proof.Machine.execRoleid m d n s
  | .ldl m d a f o => Sys2Proof.Machine.execLdl m d a f o s
  | .ldp m d a f o => Sys2Proof.Machine.execLdp m d a f o s
  | .ldg m d a f o => Sys2Proof.Machine.execLdg m d a f o s
  | .stl m d a w o => Sys2Proof.Machine.execStl m d a w o s
  | .stp m d a w o => Sys2Proof.Machine.execStp m d a w o s
  | .stg m d a w o => Sys2Proof.Machine.execStg m d a w o s
  | .pfg m a k => Sys2Proof.Machine.execPfg m a k s
  | .l1inv m a k => Sys2Proof.Machine.execL1inv m a k s
  | .l1invAll m => Sys2Proof.Machine.execL1invAll m s
  | .mark m => Sys2Proof.Machine.execMark m s
  | .fence m => Sys2Proof.Machine.execFence m s
  | .qfence m a k => Sys2Proof.Machine.execQfence m a k s
  | .tkpush n => Sys2Proof.Machine.execTkpush n s
  | .tkpop n => Sys2Proof.Machine.execTkpop n s
  | .barinit m a b => Sys2Proof.Machine.execBarinit m a b s
  | .bararr m d a b => Sys2Proof.Machine.execBararr m d a b s
  | .barwait m d a b => Sys2Proof.Machine.execBarwait m d a b s
  | .vldl m q a b nb k => Sys2Proof.Machine.execVldl m q a b nb k s
  | .vldp m q a b nb k => Sys2Proof.Machine.execVldp m q a b nb k s
  | .vldg m q a b nb k => Sys2Proof.Machine.execVldg m q a b nb k s
  | .vstl m q a b nb k => Sys2Proof.Machine.execVstl m q a b nb k s
  | .vstp m q a b nb k => Sys2Proof.Machine.execVstp m q a b nb k s
  | .vstg m q a b nb k => Sys2Proof.Machine.execVstg m q a b nb k s
  | .vgl m q a b e n => Sys2Proof.Machine.execVgl m q a b e n s
  | .vgg m q a b e n => Sys2Proof.Machine.execVgg m q a b e n s
  | .vsl m q a b e n => Sys2Proof.Machine.execVsl m q a b e n s
  | .vsg m q a b e n => Sys2Proof.Machine.execVsg m q a b e n s
  | .aadd m d a b w k => Sys2Proof.Machine.execAadd m d a b w k s
  | .aand m d a b w k => Sys2Proof.Machine.execAand m d a b w k s
  | .aor m d a b w k => Sys2Proof.Machine.execAor m d a b w k s
  | .axor m d a b w k => Sys2Proof.Machine.execAxor m d a b w k s
  | .amin m d a b u w k => Sys2Proof.Machine.execAmin m d a b u w k s
  | .amax m d a b u w k => Sys2Proof.Machine.execAmax m d a b u w k s
  | .aswp m d a b w k => Sys2Proof.Machine.execAswp m d a b w k s
  | .acas m d a b c w k => Sys2Proof.Machine.execAcas m d a b c w k s
  | .afadd m d a b w k => Sys2Proof.Machine.execAfadd m d a b w k s
  | .abinc m d a b w k => Sys2Proof.Machine.execAbinc m d a b w k s
  | .alrb m a k => Sys2Proof.Machine.execAlrb m a k s
  | .alrl m d a z w o => Sys2Proof.Machine.execAlrl m d a z w o s
  | .alrs m a b w o => Sys2Proof.Machine.execAlrs m a b w o s
  | .alrc m d => Sys2Proof.Machine.execAlrc m d s
  | .vaddC m d a b e => Sys2Proof.Machine.execVaddC m d a b e s
  | .vsubC m d a b e => Sys2Proof.Machine.execVsubC m d a b e s
  | .vmulC m d a b e => Sys2Proof.Machine.execVmulC m d a b e s
  | .vandC m d a b e => Sys2Proof.Machine.execVandC m d a b e s
  | .vorC m d a b e => Sys2Proof.Machine.execVorC m d a b e s
  | .vxorC m d a b e => Sys2Proof.Machine.execVxorC m d a b e s
  | .vminC m d a b e => Sys2Proof.Machine.execVminC m d a b e s
  | .vmaxC m d a b e => Sys2Proof.Machine.execVmaxC m d a b e s
  | .vfaddC m d a b e => Sys2Proof.Machine.execVfaddC m d a b e s
  | .vfsubC m d a b e => Sys2Proof.Machine.execVfsubC m d a b e s
  | .vfmulC m d a b e => Sys2Proof.Machine.execVfmulC m d a b e s
  | .vfminC m d a b e => Sys2Proof.Machine.execVfminC m d a b e s
  | .vfmaxC m d a b e => Sys2Proof.Machine.execVfmaxC m d a b e s
  | .vadd m d a b u et => Sys2Proof.Machine.execVadd m d a b u et s
  | .vsub m d a b u et => Sys2Proof.Machine.execVsub m d a b u et s
  | .vmul m d a b u et => Sys2Proof.Machine.execVmul m d a b u et s
  | .vmulh m d a b u et => Sys2Proof.Machine.execVmulh m d a b u et s
  | .vmadd m d a b c u et => Sys2Proof.Machine.execVmadd m d a b c u et s
  | .vmin m d a b u et => Sys2Proof.Machine.execVmin m d a b u et s
  | .vmax m d a b u et => Sys2Proof.Machine.execVmax m d a b u et s
  | .vand m d a b u et => Sys2Proof.Machine.execVand m d a b u et s
  | .vor m d a b u et => Sys2Proof.Machine.execVor m d a b u et s
  | .vxor m d a b u et => Sys2Proof.Machine.execVxor m d a b u et s
  | .vshl m d a b u et => Sys2Proof.Machine.execVshl m d a b u et s
  | .vshr m d a b u et => Sys2Proof.Machine.execVshr m d a b u et s
  | .vsra m d a b u et => Sys2Proof.Machine.execVsra m d a b u et s
  | .vabs m d a u et => Sys2Proof.Machine.execVabs m d a u et s
  | .vneg m d a u et => Sys2Proof.Machine.execVneg m d a u et s
  | .vcmp m d a b pe pd c u et => Sys2Proof.Machine.execVcmp m d a b pe pd c u et s
  | .vsel m d a b c u et => Sys2Proof.Machine.execVsel m d a b c u et s
  | .vpopc m d a u et => Sys2Proof.Machine.execVpopc m d a u et s
  | .vfadd m d a b et => Sys2Proof.Machine.execVfadd m d a b et s
  | .vfsub m d a b et => Sys2Proof.Machine.execVfsub m d a b et s
  | .vfmul m d a b et => Sys2Proof.Machine.execVfmul m d a b et s
  | .vfma m d a b c et => Sys2Proof.Machine.execVfma m d a b c et s
  | .vfmin m d a b et => Sys2Proof.Machine.execVfmin m d a b et s
  | .vfmax m d a b et => Sys2Proof.Machine.execVfmax m d a b et s
  | .vfcmp m d a b pe pd c et => Sys2Proof.Machine.execVfcmp m d a b pe pd c et s
  | .vfrcp m d a et => Sys2Proof.Machine.execVfrcp m d a et s
  | .vfrsq m d a et => Sys2Proof.Machine.execVfrsq m d a et s
  | .vfexp2 m d a et => Sys2Proof.Machine.execVfexp2 m d a et s
  | .vflog2 m d a et => Sys2Proof.Machine.execVflog2 m d a et s
  | .vftanh m d a et => Sys2Proof.Machine.execVftanh m d a et s
  | .vcvt m d a k sf tf => Sys2Proof.Machine.execVcvt m d a k sf tf s
  | .vqnt m d a b k scm sf tf => Sys2Proof.Machine.execVqnt m d a b k scm sf tf s
  | .vdqnt m d a k sf tf => Sys2Proof.Machine.execVdqnt m d a k sf tf s
  | .vpack m d a f => Sys2Proof.Machine.execVpack m d a f s
  | .vunpk m d a f => Sys2Proof.Machine.execVunpk m d a f s
  | .vradd m d a u et => Sys2Proof.Machine.execVradd m d a u et s
  | .vrmax m d a u et => Sys2Proof.Machine.execVrmax m d a u et s
  | .vfradd m d a et => Sys2Proof.Machine.execVfradd m d a et s
  | .vfrmax m d a et => Sys2Proof.Machine.execVfrmax m d a et s
  | .vperm m d a b c w => Sys2Proof.Machine.execVperm m d a b c w s
  | .vrot m d a k w => Sys2Proof.Machine.execVrot m d a k w s
  | .vbcast m d a k w => Sys2Proof.Machine.execVbcast m d a k w s
  | .vext m d a k k0 w => Sys2Proof.Machine.execVext m d a k k0 w s
  | .vins m d a b k w => Sys2Proof.Machine.execVins m d a b k w s
  | .vcomp m d a b w => Sys2Proof.Machine.execVcomp m d a b w s
  | .vexpd m d a b w => Sys2Proof.Machine.execVexpd m d a b w s
  | .vmrg3 m d a b c k0 => Sys2Proof.Machine.execVmrg3 m d a b c k0 s
  | .vmov m d a => Sys2Proof.Machine.execVmov m d a s
  | .vli m d r w k => Sys2Proof.Machine.execVli m d r w k s
  | .vsplat m d a w => Sys2Proof.Machine.execVsplat m d a w s
  | .sbind m z a k => Sys2Proof.Machine.execSbind m z a k s
  | .sbop m z a => Sys2Proof.Machine.execSbop m z a s
  | .sunbind m z now => Sys2Proof.Machine.execSunbind m z now s
  | .sadv m z a => Sys2Proof.Machine.execSadv m z a s
  | .sstat m d z => Sys2Proof.Machine.execSstat m d z s
  | .lcfg m a b => Sys2Proof.Machine.execLcfg m a b s
  | .lstat m d a => Sys2Proof.Machine.execLstat m d a s
  | .lfence m a => Sys2Proof.Machine.execLfence m a s
  | .lsync m a => Sys2Proof.Machine.execLsync m a s
  | .lwst m a b c f => Sys2Proof.Machine.execLwst m a b c f s
  | .lact m a b c f => Sys2Proof.Machine.execLact m a b c f s
  | .lmac m a b z => Sys2Proof.Machine.execLmac m a b z s
  | .laccz m a => Sys2Proof.Machine.execLaccz m a s
  | .laccr m a b c f => Sys2Proof.Machine.execLaccr m a b c f s
  | .lred m a b c clr ring f => Sys2Proof.Machine.execLred m a b c clr ring f s
  | .mlay m a b l ws we ss se => Sys2Proof.Machine.execMlay m a b l ws we ss se s
  | .munf m a b id ws we ss se => Sys2Proof.Machine.execMunf m a b id ws we ss se s
  | .mld m a b c l ws we ss se => Sys2Proof.Machine.execMld m a b c l ws we ss se s
  | .mmul m a b u t ws we ss se => Sys2Proof.Machine.execMmul m a b u t ws we ss se s
  | .mdrn m a b g t ws we ss se => Sys2Proof.Machine.execMdrn m a b g t ws we ss se s
  | .mzero m mode t ws we ss se => Sys2Proof.Machine.execMzero m mode t ws we ss se s
  | .msemSig m k0 n => Sys2Proof.Machine.execMsemSig m k0 n s
  | .msemWait m k0 n => Sys2Proof.Machine.execMsemWait m k0 n s
  | .msemRd m d k0 => Sys2Proof.Machine.execMsemRd m d k0 s
  | .msemSt m d => Sys2Proof.Machine.execMsemSt m d s
  | .xcopy m a b ren ten tag => Sys2Proof.Machine.execXcopy m a b ren ten tag s
  | .xgath m a b ren ten tag => Sys2Proof.Machine.execXgath m a b ren ten tag s
  | .xscat m a b ren ten tag => Sys2Proof.Machine.execXscat m a b ren ten tag s
  | .xscadd m a b ren ten tag => Sys2Proof.Machine.execXscadd m a b ren ten tag s
  | .xfill m a b ren ten tag => Sys2Proof.Machine.execXfill m a b ren ten tag s
  | .xring m a b ren ten tag => Sys2Proof.Machine.execXring m a b ren ten tag s
  | .creq m a b ren ten tag => Sys2Proof.Machine.execCreq m a b ren ten tag s
  | .sqnew m d a b bl => Sys2Proof.Machine.execSqnew m d a b bl s
  | .sqres m d a b => Sys2Proof.Machine.execSqres m d a b s
  | .sqrest m d a b => Sys2Proof.Machine.execSqrest m d a b s
  | .sqcmt m d a b c => Sys2Proof.Machine.execSqcmt m d a b c s
  | .sqacc m d a b => Sys2Proof.Machine.execSqacc m d a b s
  | .sqwd m d a => Sys2Proof.Machine.execSqwd m d a s
  | .sqfree m d a => Sys2Proof.Machine.execSqfree m d a s
  | .sqfork m d a b => Sys2Proof.Machine.execSqfork m d a b s
  | .sqlen m d a => Sys2Proof.Machine.execSqlen m d a s
  | .sqwait m d a b c => Sys2Proof.Machine.execSqwait m d a b c s
  | .sqpin m d a => Sys2Proof.Machine.execSqpin m d a s
  | .squnpin m d a => Sys2Proof.Machine.execSqunpin m d a s
  | .sqext m d a b k => Sys2Proof.Machine.execSqext m d a b k s
  | .ldq m d a b c ch => Sys2Proof.Machine.execLdq m d a b c ch s
  | .vldq m q a b c ch => Sys2Proof.Machine.execVldq m q a b c ch s
  | .stq m d a b ch => Sys2Proof.Machine.execStq m d a b ch s
  | .vstq m q a b ch => Sys2Proof.Machine.execVstq m q a b ch s
  | .sqattn m a b ten tag => Sys2Proof.Machine.execSqattn m a b ten tag s
  | .pfxh m d a b => Sys2Proof.Machine.execPfxh m d a b s
  | .pfxl m d a b => Sys2Proof.Machine.execPfxl m d a b s
  | .pfxlH m d a => Sys2Proof.Machine.execPfxlH m d a s
  | .pfxlS m d a => Sys2Proof.Machine.execPfxlS m d a s
  | .pfxi m d a b c => Sys2Proof.Machine.execPfxi m d a b c s
  | .pfxd m d a => Sys2Proof.Machine.execPfxd m d a s
  | .pfxdU m d a => Sys2Proof.Machine.execPfxdU m d a s
  | .trap m k => Sys2Proof.Machine.execTrap m k s
  | .chk m a b => Sys2Proof.Machine.execChk m a b s
  | .twany m d a b => Sys2Proof.Machine.execTwany m d a b s
  | .twall m d a b => Sys2Proof.Machine.execTwall m d a b s
  | .tffr m d a => Sys2Proof.Machine.execTffr m d a s
  | .tclr m a => Sys2Proof.Machine.execTclr m a s
  | .tabort m => Sys2Proof.Machine.execTabort m s
  | .tstat m d k => Sys2Proof.Machine.execTstat m d k s
  | .tret m d a b => Sys2Proof.Machine.execTret m d a b s
  | .tlbinvPg a b => Sys2Proof.Machine.execTlbinvPg a b s
  | .tlbinvAs a => Sys2Proof.Machine.execTlbinvAs a s
  | .asset a => Sys2Proof.Machine.execAsset a s
  | .launch m d a b => Sys2Proof.Machine.execLaunch m d a b s
  | .lwait m d a => Sys2Proof.Machine.execLwait m d a s
  | .lpoll m d a => Sys2Proof.Machine.execLpoll m d a s
  | .rcbq m d a k => Sys2Proof.Machine.execRcbq m d a k s
  | .spop m d => Sys2Proof.Machine.execSpop m d s
  | .spush m d a b => Sys2Proof.Machine.execSpush m d a b s
  | .wlapp m d a b => Sys2Proof.Machine.execWlapp m d a b s
  | .wltake m d a => Sys2Proof.Machine.execWltake m d a s
  | .quies m d a => Sys2Proof.Machine.execQuies m d a s
  | .nop16 => Sys2Proof.Machine.execNop16 s
  | .ret => Sys2Proof.Machine.execRet s
  | .nop => Sys2Proof.Machine.execNop s
  | .halt => Sys2Proof.Machine.execHalt s
  | .tend => Sys2Proof.Machine.execTend s
  | .yield => Sys2Proof.Machine.execYield s
  | .tlbinvAll => Sys2Proof.Machine.execTlbinvAll s
  | .ctlSplitWrite => Sys2Proof.Machine.execCtlSplitWrite s
  | .ctlSplitApply => Sys2Proof.Machine.execCtlSplitApply s
  | .slotPlanWrite => Sys2Proof.Machine.execSlotPlanWrite s
  | .qfenceReturn => Sys2Proof.Machine.execQfenceReturn s
  | .tagWaitReturn => Sys2Proof.Machine.execTagWaitReturn s
  | .tagWaitTimeout => Sys2Proof.Machine.execTagWaitTimeout s
  | .barwaitReturn => Sys2Proof.Machine.execBarwaitReturn s
  | .quiesReturn => Sys2Proof.Machine.execQuiesReturn s
  | .quiesTimeout => Sys2Proof.Machine.execQuiesTimeout s
  | .sunbindComplete => Sys2Proof.Machine.execSunbindComplete s
  | .streamFetch => Sys2Proof.Machine.execStreamFetch s
  | .streamStore => Sys2Proof.Machine.execStreamStore s
  | .alrGrant => Sys2Proof.Machine.execAlrGrant s
  | .alrHoldExpiry => Sys2Proof.Machine.execAlrHoldExpiry s
  | .lcfgApply => Sys2Proof.Machine.execLcfgApply s
  | .lfenceReturn => Sys2Proof.Machine.execLfenceReturn s
  | .lsyncRelease => Sys2Proof.Machine.execLsyncRelease s
  | .trellisSwitch => Sys2Proof.Machine.execTrellisSwitch s
  | .lwstBind => Sys2Proof.Machine.execLwstBind s
  | .lactLoad => Sys2Proof.Machine.execLactLoad s
  | .lmacPiece => Sys2Proof.Machine.execLmacPiece s
  | .lacczClear => Sys2Proof.Machine.execLacczClear s
  | .laccrReadout => Sys2Proof.Machine.execLaccrReadout s
  | .lredReduce => Sys2Proof.Machine.execLredReduce s
  | .ringFold => Sys2Proof.Machine.execRingFold s
  | .mlayExecute => Sys2Proof.Machine.execMlayExecute s
  | .munfExecute => Sys2Proof.Machine.execMunfExecute s
  | .mldExecute => Sys2Proof.Machine.execMldExecute s
  | .mmulExecute => Sys2Proof.Machine.execMmulExecute s
  | .mdrnExecute => Sys2Proof.Machine.execMdrnExecute s
  | .mzeroExecute => Sys2Proof.Machine.execMzeroExecute s
  | .msemWaitReturn => Sys2Proof.Machine.execMsemWaitReturn s
  | .transferChunk => Sys2Proof.Machine.execTransferChunk s
  | .creqExecute => Sys2Proof.Machine.execCreqExecute s
  | .transferCompletion => Sys2Proof.Machine.execTransferCompletion s
  | .completionRecordWrite => Sys2Proof.Machine.execCompletionRecordWrite s
  | .ringWaitTimeout => Sys2Proof.Machine.execRingWaitTimeout s
  | .systemWriteAck => Sys2Proof.Machine.execSystemWriteAck s
  | .remoteNak => Sys2Proof.Machine.execRemoteNak s
  | .systemReadResponse => Sys2Proof.Machine.execSystemReadResponse s
  | .sqwaitReturn => Sys2Proof.Machine.execSqwaitReturn s
  | .sqwaitTimeout => Sys2Proof.Machine.execSqwaitTimeout s
  | .lenAdvance => Sys2Proof.Machine.execLenAdvance s
  | .sqattnExecute => Sys2Proof.Machine.execSqattnExecute s
  | .taskStart => Sys2Proof.Machine.execTaskStart s
  | .taskCommit => Sys2Proof.Machine.execTaskCommit s
  | .deadlockDetect => Sys2Proof.Machine.execDeadlockDetect s
  | .trapDelivery => Sys2Proof.Machine.execTrapDelivery s
  | .trapRecordPublish => Sys2Proof.Machine.execTrapRecordPublish s
  | .regionAdmission => Sys2Proof.Machine.execRegionAdmission s
  | .launchPriorityRise => Sys2Proof.Machine.execLaunchPriorityRise s
  | .balancerRun => Sys2Proof.Machine.execBalancerRun s
  | .coreJoinStage => Sys2Proof.Machine.execCoreJoinStage s
  | .coreGrant => Sys2Proof.Machine.execCoreGrant s
  | .coreWaitPriorityRise => Sys2Proof.Machine.execCoreWaitPriorityRise s
  | .quiescenceReport => Sys2Proof.Machine.execQuiescenceReport s
  | .regionCompletion => Sys2Proof.Machine.execRegionCompletion s
  | .regionAbort => Sys2Proof.Machine.execRegionAbort s
  | .lwaitYield => Sys2Proof.Machine.execLwaitYield s
  | .lwaitResume => Sys2Proof.Machine.execLwaitResume s
  | .launchMessage => Sys2Proof.Machine.execLaunchMessage s
  | .abortMessage => Sys2Proof.Machine.execAbortMessage s
  | .spaceMessage => Sys2Proof.Machine.execSpaceMessage s
  | .balloonMessage => Sys2Proof.Machine.execBalloonMessage s
  | .pageWalk => Sys2Proof.Machine.execPageWalk s
  | .l2Writeback => Sys2Proof.Machine.execL2Writeback s
  | .rakeReclaim => Sys2Proof.Machine.execRakeReclaim s
  | .spaceTimeout => Sys2Proof.Machine.execSpaceTimeout s
  | .balloonReclaim => Sys2Proof.Machine.execBalloonReclaim s
  | .granuleMigrate => Sys2Proof.Machine.execGranuleMigrate s
  | .columnDrain => Sys2Proof.Machine.execColumnDrain s
  | .columnRetire => Sys2Proof.Machine.execColumnRetire s
  | .migrationTimeout => Sys2Proof.Machine.execMigrationTimeout s
  | .migrationRetry => Sys2Proof.Machine.execMigrationRetry s
  | .frameBoundary => Sys2Proof.Machine.execFrameBoundary s
  | .streamingSlot => Sys2Proof.Machine.execStreamingSlot s
  | .refreshSlot => Sys2Proof.Machine.execRefreshSlot s
  | .maintenanceSlot => Sys2Proof.Machine.execMaintenanceSlot s
  | .retrainingDue => Sys2Proof.Machine.execRetrainingDue s
  | .retrainingForce => Sys2Proof.Machine.execRetrainingForce s
  | .retrainingEnd => Sys2Proof.Machine.execRetrainingEnd s
  | .bankSleep => Sys2Proof.Machine.execBankSleep s
  | .bankWake => Sys2Proof.Machine.execBankWake s
  | .powerSample => Sys2Proof.Machine.execPowerSample s
  | .preemptionRequest => Sys2Proof.Machine.execPreemptionRequest s
  | .contextHalt => Sys2Proof.Machine.execContextHalt s
  | .unitStopAck => Sys2Proof.Machine.execUnitStopAck s
  | .collectorReport => Sys2Proof.Machine.execCollectorReport s
  | .partitionSwap => Sys2Proof.Machine.execPartitionSwap s
  | .contextRestore => Sys2Proof.Machine.execContextRestore s
  | .rdmaWriteInbound => Sys2Proof.Machine.execRdmaWriteInbound s
  | .rdmaReadInbound => Sys2Proof.Machine.execRdmaReadInbound s
  | .congestionNotification => Sys2Proof.Machine.execCongestionNotification s
  | .frameDrop => Sys2Proof.Machine.execFrameDrop s
  | .flitReplay => Sys2Proof.Machine.execFlitReplay s
  | .portRetrain => Sys2Proof.Machine.execPortRetrain s
  | .boot => Sys2Proof.Machine.execBoot s
  | .attestationRequest => Sys2Proof.Machine.execAttestationRequest s
  | .configRecordSubmit => Sys2Proof.Machine.execConfigRecordSubmit s
  | .firmwareImageLoad => Sys2Proof.Machine.execFirmwareImageLoad s
  | .firmwareSlotSwitch => Sys2Proof.Machine.execFirmwareSlotSwitch s
  | .firmwareSwitchBack => Sys2Proof.Machine.execFirmwareSwitchBack s
  | .fatalError => Sys2Proof.Machine.execFatalError s
  | .priorityFlowControlFrame => Sys2Proof.Machine.execPriorityFlowControlFrame s
  | .ucieLaneRepair => Sys2Proof.Machine.execUcieLaneRepair s
  | .idustTranslationDone => Sys2Proof.Machine.execIdustTranslationDone s

end Sys2Proof.Machine
end

