-- ==== Sys2Proof/Machine/Run.lean ====
section
/-! DEFINITION. What one step does: the schedule's choice of what happens, an engine's fetch and decoding of what stands
at its offset, the accesses, the events, and what the firmware of a partition does (spec/01_execution_model.md R24-R31,
spec/03_encoding.md R41-R45, R68). -/

namespace Sys2Proof.Machine

/-! ## Decoded words -/

/-- What a decoded word does: the meaning of its instruction. -/
def execDec (d : Dec) (s : State) : Host.Outcome State Fault Refusal :=
  match d with
  | .i v => exec v s
  | .sys .twany m d a b => execTwany m d a b s
  | .sys .twall m d a b => execTwall m d a b s
  | .sys .tffr m d a _ => execTffr m d a s
  | .sys .tclr m _ a _ => execTclr m a s
  | .sys .tabort m _ _ _ => execTabort m s
  | .sys .tstat m d a _ => execTstat m d (a.setWidth 2) s
  | .sys .tret m d a b => execTret m d a b s
  | .sys .tlbinvPg _ _ a b => execTlbinvPg a b s
  | .sys .tlbinvAs _ _ a _ => execTlbinvAs a s
  | .sys .asset _ _ a _ => execAsset a s
  | .sys .launch m d a b => execLaunch m d a b s
  | .sys .lwait m d a _ => execLwait m d a s
  | .sys .lpoll m d a _ => execLpoll m d a s
  | .sys .rcbq m d a b => execRcbq m d a b s
  | .sys .spop m d _ _ => execSpop m d s
  | .sys .spush m d a b => execSpush m d a b s
  | .sys .wlapp m d a b => execWlapp m d a b s
  | .sys .wltake m d a _ => execWltake m d a s
  | .sys .quies m d a _ => execQuies m d a s

/-- The fault of a run of parcels that does not decode: PREFIX for an orphan prefix, and else ILLOP (R61, R68). -/
def decodeFault : DecodeError → Code
  | .orphanPrefix => .pfx
  | _ => .illop

/-! ## Engines -/

/-- An engine may take a step: its context runs, or runs its save or restore blocks, the engine waits for nothing, and its
region is not being aborted. -/
def State.mayStep (s : State) (k : Nat) (e : Eng) : Bool :=
  let c := s.ctx k
  (match c.st with | .run | .saving _ | .restoring _ => true | _ => false) && (c.eng e).wait == .no &&
  !(s.region c.regid).aborting

/-- A miss of the fetch of text: the engine waits for the walk (R122). -/
def State.fetchMiss (s : State) (va : Nat) : State := (s.enterMiss s.me s.cur.eng va).stallHere .tlb

/-- The parcels of an instruction decoded, and what it does; or the trap of an encoding that has no meaning (R68). -/
def State.runParcels (s : State) (ps : List Parcel) : Host.Outcome State Fault Refusal :=
  match decodeDec ps with
  | .ok (d, n) => execDec d { s with cur := { s.cur with len := n } }
  | .error e => .next (s.trapHere (decodeFault e))

/-- An engine at an offset in a body of which `n` parcels are left. -/
def State.runBody (s : State) (n : Nat) : Host.Outcome State Fault Refusal :=
  match s.fetchInstr s.me s.cur.eng false s.ce.pc n with
  | .ok ps => s.runParcels ps
  | .beyond => .next (s.trapHere .illop)
  | .miss va => .next (s.fetchMiss va)
  | .fault c va => .next (s.trapHere c va)

/-- An engine at a block header (R43-R45). -/
def State.runHeader (s : State) : Host.Outcome State Fault Refusal :=
  match s.headerAt s.me s.cur.eng false s.ce.pc with
  | .ok (some i) => exec i { s with cur := { s.cur with len := 2 } }
  | .ok none | .beyond => .next (s.trapHere .illop)
  | .miss va => .next (s.fetchMiss va)
  | .fault c va => .next (s.trapHere c va)

/-- An engine at work: at a header, at the window before an instance of its block, or at an instruction of the body. -/
def State.runEngine (s : State) : Host.Outcome State Fault Refusal :=
  match s.ce.blk with
  | none => s.runHeader
  | some b => if b.begun then s.runBody (b.next - s.ce.pc) else .next (s.tryInstance b)

/-! ## The firmware of a partition -/

/-- Aligned blocks that make up `n` pages from page `x` on (R274). -/
def alignedBlocks : Nat → Nat → Nat → List (Nat × Nat)
  | 0, _, _ => []
  | f + 1, x, n =>
    if n = 0 then []
    else
      let fits := (List.range 21).filter fun k => decide (x % 2 ^ k = 0 ∧ 2 ^ k ≤ n)
      let k := fits.getLast?.getD 0
      (x, k) :: alignedBlocks f (x + 2 ^ k) (n - 2 ^ k)

/-- The free blocks of a new pool: for each place within a step of STRIDE, blocks of pages STRIDE apart (R274). -/
def poolBlocks (first pages stride : Nat) : List (Nat × Nat) :=
  (List.range stride).flatMap fun r =>
    (alignedBlocks 64 0 ((pages + stride - 1 - r) / stride)).map fun b => (first + b.1 * stride + r, b.2)

/-- A granule mapped by the firmware in a column, raw or compressible, with the chunks that its content takes out of those
its partition has free (R298-R300, R302). It has not been mapped, or has been unmapped, and what must be raw is (R299). -/
def State.mapGranule (s : State) (g part bed col : Nat) (raw pin : Bool) : State :=
  let e : Granule := { bed := bed, col := col, raw := raw, part := part, pin := pin }
  let codes := if raw then List.replicate 64 5 else s.codesOf e g
  let n := if raw then 16 else chunksOf ((codes.map codeSectors).sum)
  let p := s.partn part
  if !(s.openCols bed).contains col || (tfind s.grans g).isSome || (!raw && s.mustBeRaw g) || decide (p.free < p.rsv + n) ||
    decide (s.columnRoom bed col < n) then s
  else
    (((s.setGranule g { e with nch := n, codes := codes, chunks := s.chunkNumbers bed col g n }).modPart part fun p =>
      { p with free := p.free - n, held := p.held + n }).marks part)

/-- A granule unmapped: its chunks are free, and nothing of it is reserved or listed any more (R299, R300, R305). One that
a version, a region or a copy holds stays. -/
def State.unmapGranule (s : State) (g : Nat) : State :=
  match tfind s.grans g with
  | none => s
  | some e =>
    if s.mustBeRaw g || e.copying.isSome || (List.range 64).any fun l => s.versionHolds (64 * g + l) then s
    else
      let n := s.reserve e g e.reserved
      ((({ s with grans := tdel s.grans g, l2 := s.l2.filter (· / 64 != g), dirty := s.dirty.filter (· / 64 != g) } :
          State).modPart e.part fun p =>
        ({ p with free := p.free + e.nch, held := p.held - e.nch, rsv := p.rsv - n,
                  balloon := p.balloon.filter (· != g) } : Partition).endMigrations (· == g)).marks e.part)

/-- The PIN of a mapped granule set or cleared: once it is clear the granule may be moved, and the wait of a move that it stops
has ended (R299, R308, R310). -/
def State.pinGranule (s : State) (g : Nat) (on : Bool) : State :=
  match tfind s.grans g with
  | none => s
  | some e =>
    let t := s.setGranule g { e with pin := on }
    if on then t.modPart e.part fun p => p.endMigrations (· == g) else t

/-- Bytes that the firmware writes to device memory, each line with the headroom that it needs; nothing where one has none
(R301). -/
def State.firmwareWrite (s : State) (pa : Nat) (bs : List Byte) : State :=
  ((lineParts pa bs.length).foldl (fun (t : Option State) p =>
    let b := (bs.drop p.2.1).take p.2.2
    t.bind fun u =>
      match tfind u.grans (granOf p.1) with
      | some e => (u.reserveLine e.part p.1).map fun w => w.commitBytes p.1 b
      | none => some (u.commitBytes p.1 b)) (some s)).getD s

/-- The pages that the firmware takes for the pool of a bed: mapped raw there for the partition, pages STRIDE apart in
consecutive columns of the bed's bound columns (R274). -/
def State.poolFits (s : State) (part bed first pages stride : Nat) : Bool :=
  (List.range pages).all fun i =>
    match tfind s.grans (first + i) with
    | some e =>
      e.raw && e.bed == bed && e.part == part &&
      (decide (pages ≤ i + stride) ||
        (s.granule (first + i + stride)).col == (s.bed bed).bound.getD ((indexIn (s.bed bed).bound e.col + 1) % 64) 0)
    | none => false

/-- Chunks that a partition comes to own out of the device pool, up to its limit (R300). -/
def State.ownChunks (s : State) (part bed n : Nat) : State :=
  let p := s.partn part
  let k := min n (min (tget 0 s.devPool bed) (p.limit - (p.free + p.held)))
  (({ s with devPool := tput s.devPool bed (tget 0 s.devPool bed - k) } : State).modPart part fun p =>
    { p with free := p.free + k }).marks part

/-- An inbound entry in the widths of its map: a base and a length of whole 8 KiB (R361). -/
def Window.inboundForm (w : Window) : Window :=
  { w with base := w.base % 2 ^ 64 / 8192 * 8192, len := w.len % 2 ^ 40 / 8192 * 8192, rkey := w.rkey % 2 ^ 32, asid := w.asid % 2 ^ 12 }

/-- An outbound entry in the widths of its map (R363). -/
def Window.outboundForm (w : Window) : Window :=
  { w with base := w.base % 2 ^ 64, len := w.len % 2 ^ 40, rkey := w.rkey % 2 ^ 32, qp := w.qp % 256 }

/-- What the firmware of a partition does to tables and settings that software cannot write, and the trap of a watchpoint
that it has set (R331; log 108). -/
def State.fwAct (s : State) : FwAct → State
  | .write pa bs => s.firmwareWrite pa bs
  | .root part asid pa =>
    if (s.granule (granOf pa)).raw then { s with roots := tput s.roots (4096 * part + asid) pa } else s
  | .map g part bed col raw pin => s.mapGranule g part bed col raw pin
  | .unmap g => s.unmapGranule g
  | .pin g on => s.pinGranule g on
  | .pool part bed first pages stride =>
    let n := max 1 (min 255 stride)
    if s.poolFits part bed first pages n && (s.pool part bed).used.isEmpty then
      s.setPool part bed { first := first, pages := pages, stride := n, free := poolBlocks first pages n }
    else s
  | .inbound part i w => if i < 1024 then s.modPart part fun p => { p with inbound := tput p.inbound i w.inboundForm } else s
  | .outbound part i w => if i < 1024 then s.modPart part fun p => { p with outbound := tput p.outbound i w.outboundForm } else s
  | .chunks bed n => { s with devPool := tput s.devPool bed (tget 0 s.devPool bed + n) }
  | .own part bed n => s.ownChunks part bed n
  | .cap bed mw => { s with beds := tput s.beds bed { s.bed bed with cap := min mw 100000 } }
  | .launch l =>
    let m : Launch := { l with regid := s.nextReg, parent := none, priv := true, since := s.clock, plan := none }
    if (s.partn l.part).record.isNone then s
    else { (s.modPart l.part fun p => { p with launches := p.launches ++ [m] }) with nextReg := s.nextReg + 1 }
  | .watch core ctx e addr =>
    let k := ctxKey core ctx
    if (s.ctx k).st = .run then s.raiseAt k e ((s.ctx k).eng e).pc .watch addr else s

/-- The windows of a running launch that held before hold after (R115). -/
def State.windowsKept (s t : State) : Bool :=
  t.regions.all fun r => !r.2.live || t.windowsHold r.2 || !s.windowsHold r.2

/-- An act of the firmware, which keeps to the rules that bind it: every page table lies in raw granules (R299), and a column window
is mapped to its column alone (R115). What would break them it does not do. -/
def State.firmware (s : State) (f : FwAct) : State :=
  let t := s.fwAct f
  if t.tablesRaw && s.windowsKept t then t else s

/-! ## One step -/

/-- The schedule's next slot: the first of the agenda, or where that is empty the one that nothing in the model knows. -/
def State.nextSlot (s : State) : Slot × State :=
  match s.agenda with
  | t :: r => (t, { s with agenda := r })
  | [] => (Config.nextSlot s.draws, { s with draws := s.draws + 1 })

/-- An event of a unit that carries on with what it holds: a command, an attention, a walk, or a column's frame. -/
def inFlight : Instr → Bool
  | .lcfgApply | .lwstBind | .lactLoad | .lmacPiece | .lacczClear | .laccrReadout | .lredReduce | .ringFold
  | .mlayExecute | .munfExecute | .mldExecute | .mmulExecute | .mdrnExecute | .mzeroExecute
  | .transferChunk | .creqExecute | .sqattnExecute | .pageWalk | .l2Writeback
  | .frameBoundary | .streamingSlot | .refreshSlot | .maintenanceSlot | .retrainingDue | .retrainingForce | .retrainingEnd => true
  | _ => false

/-- What may happen after a fatal error: every partition is stopped, what is in flight in its units may still end, and records of it
enter the live rings, until a reset (R383; DEDUCED, log 88). -/
def afterFatal : Action → Bool
  | .event i _ => (match i with | .boot => true | _ => false) || inFlight i
  | .perform .. | .laneEnter .. | .arrive _ | .badWord .. | .badLine .. | .evictL1 .. => true
  | _ => false

/-- An event that may happen before the images have passed their checks: the reset that checks them, and the messages of
recovery (R376). -/
def beforeBoot : Instr → Bool
  | .boot | .configRecordSubmit => true
  | _ => false

/-- The place of an engine in the order of the contexts and engines of its core that act in one clock (R23, R162, R185). -/
def turnKey (ctx : Nat) (e : Eng) : Nat := 4 * ctx + engIdx e

/-- The engines that a core has served in a clock, by their places (R24). -/
def Core.servedAt (c : Core) (clock : Nat) : List Nat :=
  match c.turn with
  | some (t, l) => if t = clock then l else []
  | none => []

/-- The engines that have lost a clock to another context, by their places (R326). -/
def Core.lostAt (c : Core) (clock : Nat) : List Nat := if c.lost.1 = clock then c.lost.2 else []

/-- A core that serves an engine in a clock. -/
def Core.serveEngine (c : Core) (clock key : Nat) : Core := { c with turn := some (clock, key :: c.servedAt clock) }

/-- An engine may act now: on its core none that comes after it has acted in this clock, and the issue slot of its kind of
engine is free (R23, R24, R162, R185). An `mfs` in the clock of another engine's `mts` of the register so reads the new value where
that engine comes before it in X, L, C, S, and the old one where it comes after (DESIGN CHOICE, log 129). -/
def State.turnOpen (s : State) (core ctx : Nat) (e : Eng) : Bool :=
  ((s.core core).servedAt s.clock).all fun n => decide (n < turnKey ctx e) && n % 4 != engIdx e

/-- Another context of a core has been served on an engine in this clock (R325, R326). -/
def State.servedOther (s : State) (core ctx : Nat) (e : Eng) : Bool :=
  ((s.core core).servedAt s.clock).any fun n => n % 4 == engIdx e && n / 4 != ctx

/-- A ready engine has lost this clock to another context, which it counts once (R326). -/
def State.loseClock (s : State) (core ctx : Nat) (e : Eng) : State :=
  let k := ctxKey core ctx
  let l := (s.core core).lostAt s.clock
  if s.mayStep k e && ((s.ctx k).eng e).stall.isNone && s.servedOther core ctx e && !l.contains (turnKey ctx e) then
    (s.modCtx k fun c => c.modEng e fun g => { g with arb := satAdd16 g.arb 1 }).modCore core fun c =>
      { c with lost := (s.clock, turnKey ctx e :: l) }
  else s

/-- A context that an action names is one of the four of its core (R23). -/
def Action.named : Action → Bool
  | .engine _ n .. | .perform _ n .. | .arb _ n _ | .laneEnter _ _ n => decide (n < 4)
  | .event _ a => decide (a.ctx < 4)
  | _ => true

/-- What happens in a slot. -/
def State.act (s : State) (t : Slot) : Host.Outcome State Fault Refusal :=
  if (s.fatal.isSome && !afterFatal t.act) || !t.act.named then .next s
  else
    match t.act with
    | .engine core ctx e hold =>
      let u : State := { s with cur := { core := core, ctx := ctx, eng := e, hold := hold, pick := t.pick } }
      if s.mayStep (ctxKey core ctx) e && s.turnOpen core ctx e then
        (u.modCore core fun c => c.serveEngine s.clock (turnKey ctx e)).runEngine
      else .next u
    | .perform core ctx id part =>
      .next (({ s with cur := { core := core, ctx := ctx, pick := t.pick } } : State).tryPerform (ctxKey core ctx) id part)
    | .arb core ctx e => .next (s.loseClock core ctx e)
    | .event i a =>
      let u : State := { s with cur := { core := a.core, ctx := a.ctx, eng := a.eng, pick := t.pick, ev := a } }
      if instrIsEvent i && (s.booted || beforeBoot i) then exec i u else .next u
    | .badWord core w => .next (s.badWord core w)
    | .badLine l n b => .next (s.symbolError l n b)
    | .linkFail b c n =>
      .next (if isColumn b c && decide (n < 18) then
          ({ s with cur := { pick := t.pick } } : State).eraseLayer (colKey b c) n
        else s)
    | .evictL1 core l => .next (s.l1Replace core l)
    | .badRequest q => .next (if s.booted then s.send (.nakInvalid (q % 4096)) else s)
    | .arrive id => .next (({ s with cur := { pick := t.pick } } : State).arriveLate id)
    | .laneEnter n core ctx => .next (s.laneEnter n (ctxKey core ctx))
    | .readBox p d n => .next (s.readBox p d n)
    | .firmware f => .next (if s.booted then ({ s with cur := { pick := t.pick } } : State).firmware f else s)

/-- What happens next: the clocks of the slot pass, and it happens. -/
def State.run (s : State) : Host.Outcome State Fault Refusal :=
  let n := s.nextSlot
  (n.2.tick n.1.elapsed).act n.1

/-! ## An instruction placed for the next step -/

/-- The engines that may execute a decoded word (R63). -/
def decEngines : Dec → EngClass
  | .i v => instrEngines v
  | .sys .. => onX

/-- The first engine that may execute what parcels begin with. -/
def placeEngine (ps : List Parcel) : Eng :=
  match decodeDec ps with
  | .ok (d, _) => (allEngs.find? (classOk (decEngines d))).getD .x
  | .error _ => .x

/-- The parcels of the longest instruction with its prefixes (R41, R55). -/
def maxParcels : Nat := 7

/-- The engine that is to execute placed parcels: at the header that they form, or in the body of a block that holds
them. -/
def placedEngine (g : Engine) (e : Eng) (head : Bool) : Engine :=
  { g with pc := if head then 0 else 2, wait := .no, stall := none,
           blk := if head then none
                  else some { head := 0, next := 2 + maxParcels, left := 0, begun := true, mask := 1#4 <<< engIdx e } }

/-- A context whose one engine at work is about to execute placed parcels; the other engines have reached `tend`. -/
def placedCtx (c : Ctx) (e : Eng) (head : Bool) : Ctx :=
  let c1 := allEngs.foldl (fun (d : Ctx) f => d.modEng f fun g => { g with wait := .tend }) c
  let c2 := c1.setEng e (placedEngine (c.eng e) e head)
  { c2 with st := .run, regid := 1, taskid := 1, trap := none, part := 0, asid := 0, olds := [] }

/-- The machine with parcels as the text of a region, on a page that core 0's TLB maps for fetches, and the engine of its
context 0 that may execute them about to step. -/
def State.place (s : State) (ps : List Parcel) : State :=
  let head := (decodeHeader ps).isSome
  let e := if head then Eng.x else placeEngine ps
  let at_ := 8192 + (if head then 0 else 4)
  let t : TlbEnt := { part := 0, asid := 0, va := 8192, size := 8192, pa := 8192, w := false, x := true }
  let r := s.region 1
  let s1 : State := { s with
    agenda := [{ act := .engine 0 0 e false }]
    mem := memWrite s.mem at_ (ps.flatMap fun p => leBytes 2 p.toNat)
    poison := s.poison.filter fun l => l / 64 != 1
    errs := s.errs.filter fun p => p.1 / 64 != 1
    fatal := none
    regions := tput s.regions 1 { r with regid := 1, live := true, aborting := false, textVa := 8192,
                                         textLen := 4 + 2 * maxParcels, textBytes := none } }
  (s1.modCore 0 fun c => { c with tlb := t :: c.tlb, turn := none }).setCtx 0 (placedCtx (s.ctx 0) e head)

end Sys2Proof.Machine
end

