-- ==== Sys2Proof/Machine/Step.lean ====
section
/-! DEFINITION. One step of the machine, and an instruction placed for it. -/

namespace Sys2Proof.Machine

/-- One step: the schedule's next slot happens. -/
def step (s : State) : Host.Outcome State Fault Refusal := s.run

/-- The machine with an instruction, its bits numbered as the opcode table numbers them, where the next step fetches. -/
def State.withFetchWord (s : State) (nbits w : Nat) : State := s.place (tableParcels nbits w)

end Sys2Proof.Machine
end

