-- ==== Sys2Proof/Safety/Form.lean ====
section
/-! DEFINITION. What the common part of issue needs to know of each instruction, as one table over the operands: the
registers whose pending results it waits for, and the queues that it pops and pushes (spec/01_execution_model.md R29,
R30, spec/03_encoding.md R49, R53, R60, R63). The statements speak of every instruction through it. -/

namespace Sys2Proof.Machine

/-- An instruction that a word of a body encodes: no event, and no block header. -/
def instrIsWord : Instr → Bool
  | .blockHeader .. | .blockHeaderReg .. => false
  | i => !instrIsEvent i

/-- A matrix instruction, which on a bed core is ILLOP on every engine (R222). -/
def instrOnHub : Instr → Bool
  | .mlay .. | .munf .. | .mld .. | .mmul .. | .mdrn .. | .mzero .. | .msemSig .. | .msemWait .. | .msemRd ..
  | .msemSt .. => true
  | _ => false

/-- The x registers that an instruction reads or writes: it waits for a result that one of them has yet to take. -/
def instrRegs : Instr → List Reg
  | .mov16 d a | .add16 d a | .sub16 d a | .and16 d a | .or16 d a | .xor16 d a => [d, a]
  | .addi16 d _ | .li16 d _ | .shli16 d _ | .shri16 d _ | .srai16 d _ => [d]
  | .add _ d a b | .sub _ d a b | .mul _ d a b | .mulh _ d a b | .mulhU _ d a b | .div _ d a b | .divU _ d a b
  | .rem _ d a b | .remU _ d a b | .and _ d a b | .or _ d a b | .xor _ d a b | .andn _ d a b | .shl _ d a b
  | .shr _ d a b | .sra _ d a b | .rot _ d a b | .min _ d a b | .minU _ d a b | .max _ d a b | .maxU _ d a b => [d, a, b]
  | .clz _ d a | .ctz _ d a | .popc _ d a | .sextB _ d a | .sextH _ d a | .sextW _ d a | .zextB _ d a | .zextH _ d a
  | .zextW _ d a | .mov _ d a => [d, a]
  | .addi _ d a _ | .andi _ d a _ | .ori _ d a _ | .xori _ d a _ => [d, a]
  | .shli _ d a _ | .shri _ d a _ | .srai _ d a _ => [d, a]
  | .li _ d _ | .lih _ d _ => [d]
  | .li64 _ d _ => [d]
  | .madd _ d a b c => [d, a, b, c]
  | .sel _ d a b _ _ => [d, a, b]
  | .bext _ d a _ _ | .bextS _ d a _ _ | .bins _ d a _ _ => [d, a]
  | .lea _ d a b _ => [d, a, b]
  | .cmp _ _ _ a b => [a, b]
  | .cmpi _ _ _ a _ => [a]
  | .call _ | .ret => [31]
  | .bx a => [a]
  | .xsend _ _ a => [a]
  | .xrecv _ d => [d]
  | .mfs _ d _ => [d]
  | .mts _ a _ => [a]
  | .feat _ d _ => [d]
  | .clock _ d => [d]
  | .roleid _ d _ => [d]
  | .ldl _ d a _ _ | .ldp _ d a _ _ | .ldg _ d a _ _ => [d, a]
  | .stl _ d a _ _ | .stp _ d a _ _ | .stg _ d a _ _ => [d, a]
  | .pfg _ a _ | .l1inv _ a _ => [a]
  | .qfence _ a _ => [a]
  | .twany _ d a b | .twall _ d a b => [d, a, b]
  | .tffr _ d a => [d, a]
  | .tclr _ a => [a]
  | .barinit _ a b => [a, b]
  | .bararr _ d a b | .barwait _ d a b => [d, a, b]
  | .vldl _ _ a b _ _ | .vldp _ _ a b _ _ | .vldg _ _ a b _ _ => a :: indexRegs b
  | .vstl _ _ a b _ _ | .vstp _ _ a b _ _ | .vstg _ _ a b _ _ => [a, b]
  | .vgl _ _ a b _ _ | .vgg _ _ a b _ _ | .vsl _ _ a b _ _ | .vsg _ _ a b _ _ => [a, b]
  | .aadd _ d a b _ _ | .aand _ d a b _ _ | .aor _ d a b _ _ | .axor _ d a b _ _ | .aswp _ d a b _ _
  | .afadd _ d a b _ _ | .abinc _ d a b _ _ => [d, a, b, 0]
  | .amin _ d a b _ _ _ | .amax _ d a b _ _ _ => [d, a, b, 0]
  | .acas _ d a b c _ _ => [d, a, b, c]
  | .alrb _ a _ => [a]
  | .alrl _ d a _ _ _ => [d, a]
  | .alrs _ a b _ _ => [a, b]
  | .alrc _ d => [d]
  | .vext _ d .. => [d]
  | .vins _ _ _ b _ _ => [b]
  | .vsplat _ _ a _ => [a]
  | .sbind _ _ a _ => [a]
  | .sbop _ _ a | .sadv _ _ a => [a]
  | .sstat _ d _ => [d]
  | .lcfg _ a b => [a, b]
  | .lstat _ d a => [d, a]
  | .lfence _ a | .lsync _ a | .laccz _ a => [a]
  | .lwst _ a b c _ | .lact _ a b c _ => [a, b, c]
  | .laccr _ a b c _ => [a, b, c]
  | .lred _ a b c _ _ _ => [a, b, c]
  | .lmac _ a b _ => [a, b]
  | .mlay _ a b .. => [a, b]
  | .munf _ a b .. => [a, b]
  | .mld _ a b c .. => [a, b, c]
  | .mmul _ a b .. => [a, b]
  | .mdrn _ a b .. => [a, b]
  | .msemRd _ d _ => [d]
  | .msemSt _ d => [d]
  | .xcopy _ a b .. | .xgath _ a b .. | .xscat _ a b .. | .xscadd _ a b .. | .xfill _ a b .. | .xring _ a b ..
  | .creq _ a b .. => [a, b]
  | .sqnew _ d a b _ => [d, a, b]
  | .sqres _ d a b | .sqrest _ d a b | .sqacc _ d a b | .sqfork _ d a b => [d, a, b]
  | .sqcmt _ d a b c | .sqwait _ d a b c => [d, a, b, c]
  | .sqwd _ d a | .sqfree _ d a | .sqlen _ d a | .sqpin _ d a | .squnpin _ d a => [d, a]
  | .sqext _ d a b _ => [d, a, b]
  | .ldq _ d a b c _ => [d, a, b, c]
  | .vldq _ _ a b c _ => [a, b, c]
  | .stq _ d a b _ => [d, a, b]
  | .vstq _ _ a b _ => [a, b]
  | .sqattn _ a b .. => [a, b]
  | .pfxh _ d a b | .pfxl _ d a b => [d, a, b]
  | .pfxlH _ d a | .pfxlS _ d a | .pfxd _ d a | .pfxdU _ d a => [d, a]
  | .pfxi _ d a b c => [d, a, b, c]
  | .chk _ a b => [a, b]
  | .tstat _ d _ => [d]
  | .tret _ d a b => [d, a, b]
  | .tlbinvPg a b => [a, b]
  | .tlbinvAs a | .asset a => [a]
  | .launch _ d a b | .spush _ d a b | .wlapp _ d a b => [d, a, b]
  | .lwait _ d a | .lpoll _ d a | .wltake _ d a | .quies _ d a => [d, a]
  | .rcbq _ d a _ => [d, a]
  | .spop _ d => [d]
  | _ => []

/-- The vector sources that an instruction takes: `vqnt` takes its second one only where SCM names a scale (R201). -/
def instrTakes : Instr → List VSrc
  | .vqnt _ _ a b _ scm _ _ => if scm = 1 then [a, b] else [a]
  | i => instrSrcs i

/-- The queues that an instruction of an engine pops, each once (R29, R30, R191). -/
def instrPops (i : Instr) (e : Eng) : List QEnd :=
  match i with
  | .bq .. => [.bq e]
  | .xrecv .. => [.xq e]
  | .vldl _ _ _ b _ _ | .vldp _ _ _ b _ _ | .vldg _ _ _ b _ _ => indexQueue b
  | .vstl _ q .. | .vstp _ q .. | .vstg _ q .. => [.dn q.toNat]
  | .vsl _ q .. | .vsg _ q .. => [.dn q.toNat]
  | .vstq _ q .. => [.dn q.toNat]
  | i => ((instrTakes i).flatMap srcQueue).eraseDups

/-- The queues that an instruction pushes (R29, R30, R191). -/
def instrPushes (i : Instr) : List QEnd :=
  match i with
  | .bcast _ e _ => (sendMask e).map .bq
  | .xsend _ e _ => (sendMask e).map .xq
  | .vldl _ q .. | .vldp _ q .. | .vldg _ q .. => [.fd q.toNat]
  | .vgl _ q .. | .vgg _ q .. => [.fd q.toNat]
  | .vldq _ q .. => [.fd q.toNat]
  | i => match instrDst i with | some d => dstQueue d | none => []

/-- The form of an instruction where it stands. -/
def formOf (i : Instr) (s : State) : Form :=
  { mods := instrMods i, cls := if instrOnHub i then matClass s else instrEngines i, srcs := instrPops i s.cur.eng,
    dsts := instrPushes i, regs := instrRegs i }

/-- Nothing keeps an instruction from its own effect: its engine may execute it (R49, R60, R63), no result, token or
queue stalls it (R30, R31, R147), and its guard does not leave it out (R60). -/
def Ready (s : State) (i : Instr) : Prop :=
  s.legal (formOf i s) = true ∧ s.blocked (formOf i s) = none ∧ s.guardOff (instrMods i) = false

/-- The machine past an instruction of its engine whose own effect has led from `s` to `t` (R31, R44). -/
def past (i : Instr) (s t : State) : State := t.retire (formOf i s)

/-- The same of an instruction that has entered an access: the access performs at once where the schedule does not hold
it and nothing orders it behind another (R132). -/
def pastEntered (i : Instr) (s t : State) : State := t.retireLater (formOf i s)

/-- The same with the access still to perform: what performs it starts from here. -/
def pastQueued (i : Instr) (s t : State) : State :=
  t.modMe fun c => ((c.issued t.cur.eng (formOf i s)).advance t.cur.eng t.cur.len).wake

/-- The machine past the issue of an instruction that has entered an access for which its engine waits, with the access
still to perform. -/
def waitQueued (i : Instr) (s t : State) : State :=
  t.modMe fun c => ((c.issued t.cur.eng (formOf i s)).modEng t.cur.eng fun g =>
    { g with wait := .access t.cc.nextId, wlen := t.cur.len, wid := t.cc.nextId }).wake

end Sys2Proof.Machine
end

