-- ==== Sys2Proof/Safety/Frame.lean ====
section
/-! DEFINITION. What a step leaves unchanged, in the terms the statements use: everything but the contexts, every other
context, and of the context in execution all but the walk of its engine (spec/01_execution_model.md R24-R31). -/

namespace Sys2Proof.Machine

/-- All but the contexts is the same: memory, cores, lanes, columns, matrix engines, sequences, regions, partitions, and
the rest of the machine. -/
def SameMachine (s t : State) : Prop := { t with ctxs := s.ctxs } = s

/-- Every context but the one in execution is the same. -/
def SameOthers (s t : State) : Prop := ∀ k, k ≠ s.me → t.ctx k = s.ctx k

/-- A context without what the walk of its engines moves: the engines, the token FIFOs, the number of its next
instruction, and the deadlock clock. -/
def Ctx.still (c : Ctx) : Ctx := { c with engs := [], tokLC := [], tokCS := [], nextId := 0, dead := 0 }

/-- An engine without its place in the text, the count of what it has issued and the note of its stall. -/
def Engine.still (g : Engine) : Engine := { g with pc := 0, blk := none, insts := [], issues := 0, stall := none }

/-- An engine without the note of its stall. -/
def Engine.quiet (g : Engine) : Engine := { g with stall := none }

/-- An engine without its place in the text and its x registers. -/
def Engine.stillX (g : Engine) : Engine := Engine.still { g with x := [] }

/-- An engine without its place in the text and its predicates. -/
def Engine.stillP (g : Engine) : Engine := Engine.still { g with p := 0 }

/-- The machine `t` is `u` past an instruction of a form: the heads of the queues that the form pops are gone, the engine
has moved on in its text, its tokens are taken and pushed, and nothing else has changed. -/
def Walked (f : Form) (u t : State) : Prop :=
  SameMachine u t ∧ SameOthers u t ∧ Ctx.still t.cc = Ctx.still (f.srcs.foldl Ctx.popQueue u.cc) ∧
  (∀ e, e ≠ u.cur.eng → (t.cc.eng e).quiet = (u.cc.eng e).quiet) ∧
  Engine.still t.ce = Engine.still u.ce

/-- The frame of an instruction that writes the x register `d` of its engine and nothing else: every other register of
every engine, every predicate, v register, queue, stream and special register is unchanged, and so is every byte of
memory. -/
def WritesOnly (d : Reg) (s t : State) : Prop :=
  SameMachine s t ∧ SameOthers s t ∧ (∀ a, memGet t.mem a = memGet s.mem a) ∧ Ctx.still t.cc = Ctx.still s.cc ∧
  (∀ e, e ≠ s.cur.eng → (t.cc.eng e).quiet = (s.cc.eng e).quiet) ∧
  (∀ r, r ≠ d → t.rx r = s.rx r) ∧
  t.ce.stillX = s.ce.stillX

/-- The frame of an instruction that writes the predicate `n` of its engine and nothing else. -/
def WritesPredOnly (n : BitVec 3) (s t : State) : Prop :=
  SameMachine s t ∧ SameOthers s t ∧ (∀ a, memGet t.mem a = memGet s.mem a) ∧ Ctx.still t.cc = Ctx.still s.cc ∧
  (∀ e, e ≠ s.cur.eng → (t.cc.eng e).quiet = (s.cc.eng e).quiet) ∧
  (∀ r, r ≠ n → t.rp r = s.rp r) ∧
  t.ce.stillP = s.ce.stillP

/-- The machine with a slot taken from the agenda and its clocks passed. -/
def State.passed (s : State) (t : Slot) (rest : List Slot) : State := ({ s with agenda := rest } : State).tick t.elapsed

/-- The machine in which an engine is to act: its slot taken from the agenda, the clocks of the slot passed, the engine
named, and its place noted in the order of its core's contexts and engines in this clock. -/
def State.acting (s : State) (t : Slot) (rest : List Slot) (core ctx : Nat) (e : Eng) (hold : Bool) : State :=
  ({ s.passed t rest with cur := { core := core, ctx := ctx, eng := e, hold := hold, pick := t.pick } } : State).modCore core fun c =>
    c.serveEngine (s.passed t rest).clock (turnKey ctx e)

/-- The same machine with the length of the instruction that it executes. -/
def State.executing (s : State) (n : Nat) : State := { s with cur := { s.cur with len := n } }

/-- The machine in which an event of the device happens. -/
def State.happening (s : State) (t : Slot) (rest : List Slot) (a : EvArgs) : State :=
  { s.passed t rest with
    cur := { core := a.core, ctx := a.ctx, eng := a.eng, pick := t.pick, ev := a } }

end Sys2Proof.Machine
end

