-- ==== Sys2Proof/Safety/Access.lean ====
section
/-! DEFINITION. What each load, store and operation of X at a home slice enters, as the tables of spec/ give it: its space,
its address, its bytes and its alignment (spec/13_memory_instructions.md R166-R174, R178-R189, spec/21_sequences.md R268,
R272). -/

namespace Sys2Proof.Machine

/-- One access as its instruction enters it: the space, whether it writes, its alignment, its address and its length. -/
structure MemForm where
  sp    : Space
  write : Bool
  align : Nat
  va    : Nat
  len   : Nat

/-- The bytes of a scalar load format and whether it extends the sign (R169, R170). -/
def loadShape : LdFmt → Nat × Bool
  | .i8s => (1, true) | .i8n => (1, false) | .i16s => (2, true) | .i16n => (2, false) | .i32s => (4, true)
  | .i32n => (4, false) | .i64s => (8, true)

/-- The form of a scalar load: the offset counts in units of its size (R169). -/
def scalarLoadForm (sp : Space) (m : Mods) (a : Reg) (f : LdFmt) (o : BitVec 5) (s : State) : MemForm :=
  let n := (loadShape f).1
  { sp := sp, write := false, align := n, va := (s.rx a + 0 + quad (immS 5 o.toNat m * n)).toNat, len := n }

/-- The form of a scalar store (R169). -/
def scalarStoreForm (sp : Space) (m : Mods) (a : Reg) (w : Width) (o : BitVec 5) (s : State) : MemForm :=
  let n := widthBytes w
  { sp := sp, write := true, align := n, va := (s.rx a + 0 + quad (immS 5 o.toNat m * n)).toNat, len := n }

/-- The form of a vector load or store: base, index and a byte offset, 16 to 128 bytes, no alignment (R171, R172). -/
def vectorForm (sp : Space) (write : Bool) (m : Mods) (a : Reg) (x : Quad) (nb : BitVec 3) (k : BitVec 16) (s : State) : MemForm :=
  { sp := sp, write := write, align := 1, va := (s.rx a + x + quad (immS 16 k.toNat m)).toNat, len := 16 * (nb.toNat + 1) }

/-- A load: its form, what it delivers, and the `fd` queue whose entry it reserves (R170, R172). -/
def loadOf (i : Instr) (s : State) : Option (MemForm × AccKind × Option Nat) :=
  let sc (sp : Space) (m : Mods) (d a : Reg) (f : LdFmt) (o : BitVec 5) : Option (MemForm × AccKind × Option Nat) :=
    some (scalarLoadForm sp m a f o s, .load (loadShape f).1 (loadShape f).2 d, none)
  let vc (sp : Space) (m : Mods) (q : BitVec 2) (a : Reg) (b : XOrBk) (nb : BitVec 3) (k : BitVec 16) :
      Option (MemForm × AccKind × Option Nat) :=
    some (vectorForm sp false m a (match b with | .x r => s.rx r | .bk n => s.cc.peekBk n.toNat) nb k s, .vload q.toNat,
      some q.toNat)
  match i with
  | .ldl m d a f o => sc .l m d a f o
  | .ldp m d a f o => sc .p m d a f o
  | .ldg m d a f o => sc .g m d a f o
  | .vldl m q a b nb k => vc .l m q a b nb k
  | .vldp m q a b nb k => vc .p m q a b nb k
  | .vldg m q a b nb k => vc .g m q a b nb k
  | _ => none

/-- A store: its form and its bytes (R170, R172). -/
def storeOf (i : Instr) (s : State) : Option (MemForm × List Byte) :=
  let sc (sp : Space) (m : Mods) (d a : Reg) (w : Width) (o : BitVec 5) : Option (MemForm × List Byte) :=
    some (scalarStoreForm sp m a w o s, leBytes (widthBytes w) (s.rx d).toNat)
  let vc (sp : Space) (m : Mods) (q : BitVec 2) (a b : Reg) (nb : BitVec 3) (k : BitVec 16) : Option (MemForm × List Byte) :=
    some (vectorForm sp true m a (s.rx b) nb k s, (leBytes 128 (s.cc.peekDn q.toNat).toNat).take (16 * (nb.toNat + 1)))
  match i with
  | .stl m d a w o => sc .l m d a w o
  | .stp m d a w o => sc .p m d a w o
  | .stg m d a w o => sc .g m d a w o
  | .vstl m q a b nb k => vc .l m q a b nb k
  | .vstp m q a b nb k => vc .p m q a b nb k
  | .vstg m q a b nb k => vc .g m q a b nb k
  | _ => none

/-- A gather or a scatter: its space, its queue, its base, its list, its element width and the number of elements
(R173, R174). -/
def listOf (i : Instr) : Option (Space × Bool × BitVec 2 × Reg × Reg × Nat × Nat) :=
  match i with
  | .vgl _ q a b e n => some (.l, false, q, a, b, widthBytes e, n.toNat + 1)
  | .vgg _ q a b e n => some (.g, false, q, a, b, widthBytes e, n.toNat + 1)
  | .vsl _ q a b e n => some (.l, true, q, a, b, widthBytes e, n.toNat + 1)
  | .vsg _ q a b e n => some (.g, true, q, a, b, widthBytes e, n.toNat + 1)
  | _ => none

/-- The instruction reads or writes vector slots of a save area where it stands (R348). -/
def inSaveSequence (i : Instr) (s : State) : Bool :=
  match i, s.cc.st with
  | .vldg .., .restoring _ => true
  | .vstg .., .saving _ => true
  | _, _ => false

/-- The machine with an access entered, under the number that its instruction issues with, and a place in an `fd` queue
reserved for it where it fills one. -/
def State.entered (s : State) (i : Instr) (inL inS : Bool) (kind : AccKind) (ps : List Part) (data : List Byte)
    (fd : Option Nat) : State :=
  s.modMe fun c =>
    let c1 := { c with mq := c.mq ++ [{ id := c.nextId, eng := s.cur.eng, inL := inL, inS := inS, pos := s.pos, kind := kind,
                                        ord := (instrMods i).pfx.ord, parts := ps, data := data }] }
    match fd with
    | some q => c1.reserveFd q c1.nextId
    | none => c1

/-- Nothing but the address keeps an access from its queues: the core's scratchpad keeps its size, and the queues have
room (R106, R168). -/
def State.mayEnter (s : State) (inL inS : Bool) : Prop :=
  (s.core s.cur.core).splitting = false ∧ s.cc.roomFor inL inS = true

/-- An operation of X at a home slice: the operation, its operand's address and length with its check, and whether X waits
for it (R178-R189, R268). -/
def sliceOpOf (i : Instr) (s : State) : Option (SliceOp × Reach × Bool) :=
  let at_ (m : Mods) (op : AOp) (d a b c : Reg) (w : ASize) (k : BitVec 16) : Option (SliceOp × Reach × Bool) :=
    let n := match w with | .word => 4 | .quad => 8
    some (.atomic op n d (s.rx b) (s.rx c), s.checked .g true n (s.rx a + 0 + quad (immS 16 k.toNat m)).toNat n, false)
  let sq (write : Bool) (a : Reg) (f : Nat → SliceOp) : Option (SliceOp × Reach × Bool) :=
    let r := s.handle write (s.rx a).toNat
    some (f (reachAddr r), r, false)
  match i with
  | .aadd m d a b w k => at_ m .add d a b 0 w k
  | .aand m d a b w k => at_ m .and d a b 0 w k
  | .aor m d a b w k => at_ m .or d a b 0 w k
  | .axor m d a b w k => at_ m .xor d a b 0 w k
  | .amin m d a b u w k => at_ m (if u = 1 then .minU else .min) d a b 0 w k
  | .amax m d a b u w k => at_ m (if u = 1 then .maxU else .max) d a b 0 w k
  | .aswp m d a b w k => at_ m .swp d a b 0 w k
  | .acas m d a b c w k => at_ m .cas d a b c w k
  | .afadd m d a b w k => at_ m (match w with | .word => .faddF | .quad => .faddA) d a b 0 w k
  | .abinc m d a b w k => at_ m .binc d a b 0 w k
  | .barinit _ a b => some (.barinit (s.rx b), s.checked .g true 16 (s.rx a).toNat 16, false)
  | .bararr _ d a b => some (.bararr d ((s.rx b).getLsbD 0), s.checked .g true 16 (s.rx a).toNat 16, false)
  | .barwait _ d a b => some (.barwait d ((s.rx b).toNat % 2 ^ 32), s.checked .g false 16 (s.rx a).toNat 16, true)
  | .sqnew _ d a b bl => sq true a fun h => .sqnew d h (s.rx b) bl.toNat
  | .sqres _ d a b => sq false a fun h => .sqres d h (s.rx b)
  | .sqrest _ d a b => sq false a fun h => .sqrest d h (s.rx b)
  | .sqcmt _ d a b c => sq false a fun h => .sqcmt d h (s.rx b) (s.rx c)
  | .sqacc _ d a b => sq false a fun h => .sqacc d h (s.rx b)
  | .sqwd _ d a => sq false a fun h => .sqwd d h
  | .sqfree _ d a => sq false a fun h => .sqfree d h
  | .sqlen _ d a => sq false a fun h => .sqlen d h
  | .sqpin _ d a => sq false a fun h => .sqpin d h
  | .squnpin _ d a => sq false a fun h => .squnpin d h
  | .sqext _ d a b k => sq false a fun h => .sqext d h (match k with | .k0 => 0 | .k1 => 1 | .k2 => 2) (s.rx b)
  | .sqwait _ d a b c =>
    let r := s.handle false (s.rx a).toNat
    some (.sqwait d (reachAddr r) (s.rx b) (s.rx c) s.clock, r, true)
  | .sqfork _ d a b =>
    match s.handle false (s.rx a).toNat, s.handle true (s.rx b).toNat with
    | .ok l, .ok m => some (.sqfork d (reachAddr (.ok l)) (reachAddr (.ok m)) (s.rx b).toNat, .ok l, false)
    | .ok _, r => some (.sqfork d 0 0 (s.rx b).toNat, r, false)
    | r, _ => some (.sqfork d 0 0 (s.rx b).toNat, r, false)
  | _ => none

/-- Memory, the sequences and the pools are as they were. -/
def SameStore (s t : State) : Prop := t.mem = s.mem ∧ t.seqs = s.seqs ∧ t.pools = s.pools

/-- An operation on a sequence answers with a status and the value 0, and changes nothing stored (R271). -/
def Refuses (s : State) (r : OpRes) (status : Nat) : Prop := ∃ t, r = .done t (resultQuad status 0) ∧ SameStore s t

/-- Every sequence but one is as it was. -/
def OthersKept (pa : Nat) (s t : State) : Prop := ∀ x, x ≠ pa → t.seq x = s.seq x

/-- A sequence whose length has come to `l` by a commit of the slots from `first` on, `n` of them: past committed and void slots
alone, and while no attention is in flight past all of them; what the length does not decide is as it was (R279, R280). -/
def LengthComes (q q' : Seq) (first n : Nat) : Prop :=
  let done (r : SlotRec) : Prop := (first ≤ r.i ∧ r.i < first + n) ∨ r.st = .committed ∨ r.st = .voided
  (∃ stage ring frozen scales slots,
    q' = { q with len := q'.len, stage := stage, ring := ring, frozen := frozen, scales := scales, slots := slots }) ∧
  q.len ≤ q'.len ∧ (q.attn ≠ 0 → q'.len = q.len) ∧
  (∀ i, q.len ≤ i → i < q'.len → ∃ r ∈ q.slots, r.i = i ∧ done r) ∧
  (q.attn = 0 → ∀ r, (q.slots.find? fun r => r.i == q'.len) = some r → ¬done r)

end Sys2Proof.Machine
end

