-- ==== Sys2Proof/Safety/Control.lean ====
section
/-! DEFINITION. The walk of the text, the special registers and the identity words as the tables of spec/ give them
(spec/03_encoding.md R43-R48, spec/11_control_instructions.md R156-R165, spec/27_traps.md R337, R344). -/

namespace Sys2Proof.Machine

/-- A branch: whether it is taken, and its target, a parcel offset of the text (R48, R156). -/
def branchOf (i : Instr) (s : State) : Option (Bool × Int) :=
  match i with
  | .bra o | .call o => some (true, s.ce.pc + o.toInt)
  | .bc p n o => some (s.rp p == (n == 0#1), s.ce.pc + o.toInt)
  | .bq n o => some (s.cc.peekBq s.cur.eng == (n == 0#1), s.ce.pc + o.toInt)
  | .bx a => some (true, ((s.rx a).toNat : Int))
  | .ret => some (true, ((s.rx 31).toNat : Int))
  | _ => none

/-- The instruction writes the link register `x31` (R156). -/
def branchLinks : Instr → Bool
  | .call _ => true
  | _ => false

/-- A block header lies at a parcel offset, inside the text, on a page that the fetch of X reaches: LEN 01 and MAJ 0
(R43, R48). -/
def HeaderAt (s : State) (t : Int) : Prop :=
  0 ≤ t ∧ 2 * (t + 2) ≤ s.cr.textLen ∧
  ∃ p q, s.parcels s.me s.cur.eng false t.toNat 2 = .ok (p :: q) ∧ p.toNat % 4 = 1 ∧ p.toNat / 4 % 64 = 0

/-- The times that an engine executes the body of a block: one more than REP, or what its register holds (R43, R44). -/
def headerCount (i : Instr) (s : State) : Option (Nat × BitVec 12 × BitVec 4) :=
  match i with
  | .blockHeader rep body mask => some (rep.toNat + 1, body, mask)
  | .blockHeaderReg r body mask => some ((s.rx r).toNat, body, mask)
  | _ => none

/-- The register from which a header takes its count has a result still to come (R147). -/
def headerWaits (i : Instr) (s : State) : Bool :=
  match i with
  | .blockHeaderReg r _ mask => maskHas mask s.cur.eng && s.resultPending [r]
  | _ => false

/-- The word of a special register by its number (R161); none for a number that names no register. -/
def sprWord (n : Nat) (s : State) : Option Quad :=
  if n = 1 then some (quadN s.cc.window)
  else if n = 2 then some (quadN (s.core s.cur.core).spad)
  else if n = 3 then some (quadN s.cc.round.toNat)
  else if n = 4 then some (if s.cc.pol then 1 else 0)
  else if n = 5 then some (quadN (16 * s.cc.regp + s.cc.prio))
  else if n = 6 then some (quadN (65536 * s.cc.part + s.cc.asid))
  else if n = 16 then some (s.statTask s.me)
  else if n = 17 then some s.ce.statStall
  else if n = 18 then some (s.core s.cur.core).tagmap
  else if n = 32 then some s.slotPlan
  else none

/-- The machine after a write of a special register by its number, and whether its engine waits for a procedure of it
(R28, R88, R106, R161, R235); none for a number that names no register. -/
def sprWrite (n : Nat) (v : Quad) (s : State) : Option (State × Option Wait) :=
  if n = 1 then
    let k := v.toNat % 128
    some (s.modMe fun c => { c with window := if k = 0 then 1 else if 64 < k then 64 else k }, none)
  else if n = 2 then
    let w := v.toNat % 256
    some (s.modCore s.cur.core fun c => { c with split := c.split ++ [(s.cur.ctx, s.cur.eng, w)] }, some (.split w))
  else if n = 3 then some (s.modMe fun c => { c with round := if 4 < v.toNat % 8 then 0 else v.setWidth 3 }, none)
  else if n = 4 then some (s.modMe fun c => { c with pol := v.getLsbD 0 }, none)
  else if n = 5 then some (s.modMe fun c => { c with prio := min (v.toNat % 8) c.regp }, none)
  else if n = 6 ∨ n = 16 then some (s, none)
  else if n = 17 then
    some (s.modCe fun e => { e with queue := v.toNat / 2 ^ 48, memq := v.toNat / 2 ^ 32 % 2 ^ 16,
                                    window := v.toNat / 2 ^ 16 % 2 ^ 16, arb := v.toNat % 2 ^ 16 }, none)
  else if n = 18 then
    -- a tag that a completion has set in this clock stays set (R185)
    some (s.modCore s.cur.core fun c =>
      { c with tagmap := c.tagmap &&& ~~~(v &&& ~~~(if c.tagSet.1 = s.clock then c.tagSet.2 else 0)) }, none)
  else if n = 32 then some (s, some (.plan v s.clock))
  else none

/-- The x register that an instruction of identity, time and status writes, and its value (R161, R163-R165, R344). -/
def readResult (i : Instr) (s : State) : Option (Reg × Quad) :=
  match i with
  | .mfs _ d n => (sprWord n.toNat s).map fun v => (d, v)
  | .feat _ d n =>
    some (d, if n.toNat = 0 then 0x3F08 else if n.toNat = 1 then quadN (0x7FF00 + s.lanen) else if n.toNat = 2 then 0xFDD5F
             else if n.toNat = 3 then 0x7FFFFFFF else 0)
  | .clock _ d => some (d, quadN s.clock)
  | .roleid _ d n => some (d, s.roleWord n.toNat)
  | .tstat _ d k =>
    some (d, if k = 0 then quadN (s.cc.taskid % 2 ^ 32) else if k = 1 then quadN (min 255 s.cc.item.attempt)
             else if k = 2 then quadN s.cr.faults else quadN s.cr.traps.length)
  | _ => none

end Sys2Proof.Machine
end

