-- ==== Sys2Proof/Safety/Scalar.lean ====
section
/-! DEFINITION. The results of the integer instructions as the tables of spec/11_control_instructions.md give them:
exact integers, and one wrap or clamp at the end (R145, R146, R148-R155). -/

namespace Sys2Proof.Machine

/-- wrap(r) of R145. -/
def wrapR (r : Int) : Quad := BitVec.ofInt 64 r
/-- wrap(r), or clamp(r) where the prefix has SAT = 1 (R145, R146). -/
def wrapOrClamp (m : Mods) (r : Int) : Quad :=
  wrapR (if satOf m then (if r < -2 ^ 63 then -2 ^ 63 else if 2 ^ 63 ≤ r then 2 ^ 63 - 1 else r) else r)

/-- `shl` by an amount (R148). -/
def ruleShl (a : Quad) (n : Nat) : Quad := if 64 ≤ n then 0 else wrapR (a.toNat * 2 ^ n)
/-- `shr` by an amount (R148). -/
def ruleShr (a : Quad) (n : Nat) : Quad := if 64 ≤ n then 0 else wrapR (a.toNat / 2 ^ n : Nat)
/-- `sra` by an amount (R148). -/
def ruleSra (a : Quad) (n : Nat) : Quad := if 64 ≤ n then (if a.toInt < 0 then wrapR (-1) else 0) else wrapR (a.toInt / 2 ^ n)
/-- `rot`: bit i of the result is bit i − n of the source, modulo 64 (R148). -/
def ruleRot (a : Quad) (n : Nat) : Quad := (a <<< (n % 64)) ||| (a >>> ((64 - n % 64) % 64))

/-- The quotient and the remainder of the division of R148, on the integers that `read` gives. -/
def ruleDiv (signed : Bool) (a b : Quad) : Quad × Quad :=
  if b = 0 then (BitVec.allOnes 64, a)
  else if signed = true ∧ a.toInt = -2 ^ 63 ∧ b.toInt = -1 then (wrapR (-2 ^ 63), 0)
  else
    let x : Int := if signed then a.toInt else a.toNat
    let y : Int := if signed then b.toInt else b.toNat
    let q := x.tdiv y
    (wrapR q, wrapR (x - y * q))

/-- The x register that an integer instruction writes and its new value, from the state in which it issues: the tables
of R148-R153, and the 16-bit forms of R150 and R151. -/
def scalarResult (i : Instr) (s : State) : Option (Reg × Quad) :=
  let x (r : Reg) : Quad := s.rx r
  let n (r : Reg) : Nat := (s.rx r).toNat
  let v (r : Reg) : Int := (s.rx r).toInt
  match i with
  | .add m d a b => some (d, wrapOrClamp m (v a + v b))
  | .sub m d a b => some (d, wrapOrClamp m (v a - v b))
  | .mul m d a b => some (d, wrapOrClamp m (v a * v b))
  | .mulh _ d a b => some (d, wrapR (v a * v b / 2 ^ 64))
  | .mulhU _ d a b => some (d, wrapR ((n a * n b / 2 ^ 64 : Nat)))
  | .div _ d a b => some (d, (ruleDiv true (x a) (x b)).1)
  | .divU _ d a b => some (d, (ruleDiv false (x a) (x b)).1)
  | .rem _ d a b => some (d, (ruleDiv true (x a) (x b)).2)
  | .remU _ d a b => some (d, (ruleDiv false (x a) (x b)).2)
  | .and _ d a b => some (d, x a &&& x b)
  | .or _ d a b => some (d, x a ||| x b)
  | .xor _ d a b => some (d, x a ^^^ x b)
  | .andn _ d a b => some (d, x a &&& ~~~x b)
  | .shl _ d a b => some (d, ruleShl (x a) (n b))
  | .shr _ d a b => some (d, ruleShr (x a) (n b))
  | .sra _ d a b => some (d, ruleSra (x a) (n b))
  | .rot _ d a b => some (d, ruleRot (x a) (n b))
  | .min _ d a b => some (d, if v a ≤ v b then x a else x b)
  | .minU _ d a b => some (d, if n a ≤ n b then x a else x b)
  | .max _ d a b => some (d, if v a ≤ v b then x b else x a)
  | .maxU _ d a b => some (d, if n a ≤ n b then x b else x a)
  | .clz _ d a => some (d, wrapR (((List.range 64).takeWhile fun k => !(x a).getLsbD (63 - k)).length))
  | .ctz _ d a => some (d, wrapR (((List.range 64).takeWhile fun k => !(x a).getLsbD k).length))
  | .popc _ d a => some (d, wrapR (((List.range 64).filter fun k => (x a).getLsbD k).length))
  | .sextB _ d a => some (d, ((x a).setWidth 8).signExtend 64)
  | .sextH _ d a => some (d, ((x a).setWidth 16).signExtend 64)
  | .sextW _ d a => some (d, ((x a).setWidth 32).signExtend 64)
  | .zextB _ d a => some (d, ((x a).setWidth 8).setWidth 64)
  | .zextH _ d a => some (d, ((x a).setWidth 16).setWidth 64)
  | .zextW _ d a => some (d, ((x a).setWidth 32).setWidth 64)
  | .mov _ d a => some (d, x a)
  | .addi m d a k => some (d, wrapOrClamp m (v a + immS 10 k.toNat m))
  | .andi m d a k => some (d, x a &&& wrapR (immS 10 k.toNat m))
  | .ori m d a k => some (d, x a ||| wrapR (immS 10 k.toNat m))
  | .xori m d a k => some (d, x a ^^^ wrapR (immS 10 k.toNat m))
  | .shli _ d a k => some (d, ruleShl (x a) k.toNat)
  | .shri _ d a k => some (d, ruleShr (x a) k.toNat)
  | .srai _ d a k => some (d, ruleSra (x a) k.toNat)
  | .li m d k => some (d, wrapR (immS 15 k.toNat m))
  | .lih m d k => some (d, (wrapR (immS 15 k.toNat m)).setWidth 32 ++ (x d).setWidth 32)
  | .li64 _ d k => some (d, k.signExtend 64)
  | .madd m d a b c => some (d, wrapOrClamp m (v a * v b + v c))
  | .sel _ d a b c p => some (d, if s.rp p = !(c == 1#1) then x a else x b)
  | .lea _ d a b k => some (d, wrapR (n a + n b * 2 ^ k.toNat))
  | .bext m d a k p => some (d, wrapR (n a / 2 ^ p.toNat % 2 ^ (bfLen m k + 1) : Nat))
  | .bextS m d a k p => some (d, wrapR (signed (bfLen m k + 1) (n a / 2 ^ p.toNat)))
  | .bins m d a k p =>
    let mask : Quad := wrapR ((2 ^ (bfLen m k + 1) - 1) * 2 ^ p.toNat)
    some (d, (x d &&& ~~~mask) ||| ((x a <<< p.toNat) &&& mask))
  | .mov16 d a => some (d, x a)
  | .addi16 d k => some (d, wrapR (v d + k.toInt))
  | .li16 d k => some (d, k.signExtend 64)
  | .add16 d a => some (d, wrapR (v d + v a))
  | .sub16 d a => some (d, wrapR (v d - v a))
  | .and16 d a => some (d, x d &&& x a)
  | .or16 d a => some (d, x d ||| x a)
  | .xor16 d a => some (d, x d ^^^ x a)
  | .shli16 d k => some (d, ruleShl (x d) k.toNat)
  | .shri16 d k => some (d, ruleShr (x d) k.toNat)
  | .srai16 d k => some (d, ruleSra (x d) k.toNat)
  | _ => none

/-- The predicate that an instruction writes and its new value (R154, R155). -/
def predResult (i : Instr) (s : State) : Option (BitVec 3 × Bool) :=
  let cond (c : Cond) (a : Quad) (b : Quad) : Bool :=
    match c with
    | .eq => decide (a = b) | .ne => decide (a ≠ b)
    | .lt => decide (a.toInt < b.toInt) | .ge => decide (¬a.toInt < b.toInt)
    | .le => decide (¬b.toInt < a.toInt) | .gt => decide (b.toInt < a.toInt)
    | .ltu => decide (a.toNat < b.toNat) | .geu => decide (¬a.toNat < b.toNat)
    | .leu => decide (¬b.toNat < a.toNat) | .gtu => decide (b.toNat < a.toNat)
    | .bs => decide (a &&& b ≠ 0) | .bz => decide (a &&& b = 0)
  match i with
  | .cmp _ c p a b => some (p, cond c (s.rx a) (s.rx b))
  | .cmpi m c p a k => some (p, cond c (s.rx a) (wrapR (immS 8 k.toNat m)))
  | .pand _ d a b => some (d, s.rp a && s.rp b)
  | .por _ d a b => some (d, s.rp a || s.rp b)
  | .pxor _ d a b => some (d, s.rp a ^^ s.rp b)
  | .pnot _ d a => some (d, !s.rp a)
  | _ => none

end Sys2Proof.Machine
end

