-- ==== Sys2Proof/Safety/Units.lean ====
section
/-! DEFINITION. What the macros of lanes, the commands of the matrix engine and the transfers enter in their queues, as the
tables of spec/ give it, and the values on which they fault at issue (spec/17_lanes_matrix.md R220-R246,
spec/19_transfer.md R249-R261, spec/29_rings_host.md R353, R354). -/

namespace Sys2Proof.Machine

/-- The register that holds the target word of a lane macro (R225). -/
def laneTarget : Instr → Option Reg
  | .lcfg _ a _ | .lfence _ a | .lsync _ a | .lwst _ a .. | .lact _ a .. | .lmac _ a .. | .laccz _ a | .laccr _ a .. | .lred _ a .. =>
    some a
  | _ => none

/-- Some lane of a list of targets is the unit. -/
def laneUnits (ls : List (Nat × Nat)) : DUnit → Bool
  | .lane n => ls.any fun p => p.2 == n
  | _ => false

/-- What a lane macro comes to at issue on its targets: a fault with the address it reports, or the machine that goes on
and the macro for each role; none where the tile of `lact` cannot be read now (R226-R231, R354). -/
def laneRule (i : Instr) (s : State) (g : Nat) (ls : List (Nat × Nat)) : Option (Except (Code × Nat) (State × (Nat → Macro))) :=
  let lanes := ls.map (·.2)
  let id := s.cc.nextId
  let group := s.cr.trellis.getD g {}
  let all (m : Macro) : Option (Except (Code × Nat) (State × (Nat → Macro))) := some (.ok (s, fun _ => m))
  let fault (c : Code) (a : Nat) : Option (Except (Code × Nat) (State × (Nat → Macro))) := some (.error (c, a))
  let inside (a n : Nat) : Bool := decide (a + n ≤ (s.core s.cur.core).spad * 65536)
  let word (r : Reg) : Nat := (s.rx r).toNat
  let read (w : Nat) : ReadWord := { rdst := bits w 63 32, c0 := bits w 23 16, nc := bits w 15 8 + 1, nt := bits w 4 0 }
  let readOk (w : ReadWord) : Bool := decide (w.c0 + w.nc ≤ 256 ∧ 1 ≤ w.nt ∧ w.nt ≤ 16)
  let size (f : FltEt) : Nat := match f with | .a56 => 8 | .fp32 => 4 | .bf16 => 2 | .fp16 => 2
  match i with
  | .lcfg _ _ b => all (.cfg ((s.rx b).getLsbD 1) ((s.rx b).getLsbD 0))
  | .lfence .. => all (.fence id)
  | .lsync .. => all (.sync id lanes)
  | .lwst _ _ b c f =>
    let off := word b
    let nrow := bits (word c) 63 48
    let rstr := bits (word c) 47 16
    let nrec := bits (word c) 11 0
    let n := recordSize (fmtOf f)
    if nrec = 0 ∨ nrow = 0 ∨ rstr < nrec * n then fault .qfault 0
    else if 2 ^ 30 < off + (nrow - 1) * rstr + nrec * n then fault .prot off
    else some (.ok (s, fun role => .wst { col := group.column.getD role 0, va := (s.cr.groups.getD g {}).wbase + role * 2 ^ 30,
                                          part := s.cc.part, asid := s.cc.asid, off := off, fmt := fmtOf f, nrow := nrow,
                                          rstr := rstr, nrec := nrec } role))
  | .lact _ _ b c f =>
    let stride := bits (word c) 63 32
    let krec := bits (word c) 27 16
    let n := bits (word c) 4 0
    let bytes := krec * recordSize (fmtOf f)
    if n = 0 ∨ 16 < n ∨ krec = 0 ∨ 65536 < n * bytes then fault .qfault 0
    else if !(List.range n).all fun t => inside (word b + t * stride) bytes then fault .prot (word b)
    else
      match s.readTile (word b) stride bytes n with
      | .error _ => none
      | .ok (u, bs) => some (.ok (u, fun _ => .act { t := n, krec := krec, fmt := fmtOf f, data := bs }))
  | .lmac _ _ b z =>
    let c0 := bits (word b) 39 32
    let n := bits (word b) 31 16
    if n = 0 ∨ 256 < n ∨ 256 < c0 + n then fault .qfault 0 else all (.mac c0 n (bits (word b) 15 0) (z == 1#1))
  | .laccz .. => all .accz
  | .laccr _ _ b c f =>
    let w := read (word c)
    if ls.length ≠ 1 then fault .prot 0
    else if !readOk w then fault .qfault 0
    else if !inside (word b) (w.nt * w.nc * size f) then fault .prot (word b)
    else all (.accr w (fltEtFmt f) (word b))
  | .lred _ _ b c clr ring f =>
    let w := read (word c)
    if !readOk w then fault .qfault 0
    else if ring = 0 then
      if 64 ≤ s.cur.core ∨ lanes.any (fun n => n / 68 != s.cur.core / 8) then fault .prot 0
      else if !inside (word b) (w.nt * w.nc * size f) then fault .prot (word b)
      else all (.red id lanes w (fltEtFmt f) (word b) false (clr == 1#1) 0 [])
    else if f ≠ .a56 then fault .qfault 0
    else
      match bedRoles group lanes with
      | none => fault .prot 0
      | some beds =>
        if w.rdst % 16 ≠ 0 then fault .qfault w.rdst
        else if !inside w.rdst (8 * w.nt * w.nc + 16) then fault .prot w.rdst
        else some (.ok (s.modMe fun x => { x with rings := x.rings + 1 },
                        fun _ => .red id lanes w .a56 w.rdst true (clr == 1#1) s.cc.rings beds))
  | _ => none

/-- The semaphores of a queued matrix command: the one it waits on, and the one it signals (R241). -/
def matSems : Instr → Option Nat × Option Nat
  | .mlay _ _ _ _ ws we ss se | .munf _ _ _ _ ws we ss se | .mld _ _ _ _ _ ws we ss se | .mmul _ _ _ _ _ ws we ss se
  | .mdrn _ _ _ _ _ ws we ss se | .mzero _ _ _ ws we ss se =>
    (if we = 1 then some ws.toNat else none, if se = 1 then some ss.toNat else none)
  | _ => (none, none)

/-- What a queued matrix command comes to at issue: a fault with the address it reports, or the command (R243-R246). -/
def matRule (i : Instr) (s : State) : Option (Except (Code × Nat) MCmd) :=
  let word (r : Reg) : Nat := (s.rx r).toNat
  let inside (a n : Nat) : Bool := decide (a + n ≤ (s.core s.cur.core).spad * 65536)
  match i with
  | .mlay _ a b k .. =>
    let y : Layout := { span := bits (word a) 63 61, rstr := bits (word a) 54 32, base := bits (word a) 22 0 }
    let start := bits (word b) 22 0
    let len := bits (word b) 54 32
    if y.base % 16 ≠ 0 ∨ y.rstr = 0 ∨ y.rstr % (16 * 2 ^ y.span) ≠ 0 then some (.error (.qfault, 0))
    else if b = 0 then some (.ok (.lay k.toNat y none))
    else if start % 4096 ≠ 0 ∨ len % 4096 ≠ 0 ∨ len < 4096 then some (.error (.qfault, 0))
    else if !inside start len then some (.error (.prot, start))
    else some (.ok (.lay k.toNat y (some (start, len))))
  | .munf _ a b id .. =>
    let g := word a
    let v := word b
    let u : Unfold := { w := bits g 63 48, h := bits g 47 32, ow := bits g 31 16, crec := bits g 15 0,
                        pw := bits v 39 36, ph := bits v 35 32, dw := bits v 31 28, dh := bits v 27 24,
                        sw := bits v 23 20, sh := bits v 19 16, kw := bits v 15 8, kh := bits v 7 0 }
    if id = 1 then some (.ok (.unf none))
    else if u.w = 0 ∨ u.h = 0 ∨ u.ow = 0 ∨ u.crec = 0 ∨ 4095 < u.crec ∨ u.dw = 0 ∨ u.dh = 0 ∨ u.sw = 0 ∨ u.sh = 0 ∨ u.kw = 0 ∨ u.kh = 0
    then some (.error (.qfault, 0))
    else some (.ok (.unf (some u)))
  | .mld _ a b c k .. =>
    let nr := bits (word c) 63 48
    let nb := bits (word c) 31 0
    if nr = 0 ∨ nb = 0 ∨ 65536 < nr * nb then some (.error (.qfault, 0))
    else some (.ok (.ld k.toNat (word a) (word b) nr (bits (word c) 47 32) nb))
  | .mmul _ a b u t .. =>
    let x := word a
    let y := word b
    let mm := bits x 63 57 + 1
    let krec := bits y 63 48
    match laneFmt (bits x 15 10), laneFmt (bits y 15 10) with
    | some fa, some fb =>
      if krec = 0 ∨ (if fmtWidth fa = 4 ∧ fmtWidth fb = 4 then 127488 else 63744) < mm * krec then some (.error (.qfault, 0))
      else some (.ok (.mul t.toNat (u == 1#1) mm (bits x 47 32) fa (x.testBit 9) (bits x 2 0) krec (bits y 47 32) fb
        (y.testBit 9) (bits y 2 0)))
    | _, _ => some (.error (.qfault, 0))
  | .mdrn m a b g t .. =>
    let v := word b
    let m0 := bits v 22 16
    let mm := bits v 30 24 + 1
    let fd := fmtOfCode (BitVec.ofNat 6 (bits v 37 32))
    let size := match fd with | some f => fmtWidth f / 8 | none => 0
    if 128 < m0 + mm then some (.error (.qfault, 0))
    else if g = 0 ∧ (List.range mm).any (fun k => !inside (word a + k * bits v 15 0) (128 * size)) then
      some (.error (.prot, word a))
    else some (.ok (.drn t.toNat (g == 1#1) (word a) (bits v 15 0) m0 mm fd (v.testBit 39) (s.rm m) (satOf m) (ftzOf m)))
  | .mzero _ mode t .. => some (.ok (.zero t.toNat mode))
  | _ => none

/-- A transfer or column-reduce command: its kind and operands (R251). -/
def xferForm : Instr → Option (XKind × Mods × Reg × Reg × BitVec 1 × BitVec 1 × BitVec 6)
  | .xcopy m a b r t g => some (.copy, m, a, b, r, t, g)
  | .xgath m a b r t g => some (.gath, m, a, b, r, t, g)
  | .xscat m a b r t g => some (.scat, m, a, b, r, t, g)
  | .xscadd m a b r t g => some (.scadd, m, a, b, r, t, g)
  | .xfill m a b r t g => some (.fill, m, a, b, r, t, g)
  | .xring m a b r t g => some (.ring, m, a, b, r, t, g)
  | .creq m a b r t g => some (.creq, m, a, b, r, t, g)
  | _ => none

/-- The machine with a transfer entered in the queue of its engine, under the next sequence number of that engine (R249,
R252, R360). -/
def State.enteredXfer (s : State) (i : Instr) (x : Xfer) (ren ten : BitVec 1) (tag : BitVec 6) (bar : Option Nat) (barVa : Nat) :
    State :=
  let l := s.cur.eng == .l
  let y : Xfer := { x with ren := ren == 1#1, ten := ten == 1#1, tag := tag.toNat, bar := bar, pol := s.cc.pol,
                           barVa := barVa, seq := (if l then s.cc.seqL else s.cc.seqS) % 2 ^ 32 }
  s.modMe fun c =>
    let a : Access := { id := c.nextId, eng := s.cur.eng, inL := l, inS := !l, pos := s.pos, kind := .xfer y,
                        ord := (instrMods i).pfx.ord, parts := [], data := [] }
    let c1 : Ctx := { c with mq := c.mq ++ [a] }
    if l then { c1 with seqL := c1.seqL + 1 } else { c1 with seqS := c1.seqS + 1 }

/-- The machine with headroom reserved for the control blocks of some live sequences, whose pins an operation on the prefix
table changes; none where it is not to be had (R301, R303). -/
def State.pinRoom (s : State) (part : Nat) : List Nat → Option State
  | [] => some s
  | pa :: r =>
    if (s.seq pa).live then
      match s.reserveScb s.me (2 ^ 42 + r.length) part pa (s.seq pa).va with
      | .ok t => t.pinRoom part r
      | .error _ => none
    else s.pinRoom part r

end Sys2Proof.Machine
end

