-- ==== Sys2Proof/Safety/Vector.lean ====
section
/-! DEFINITION. The results of the vector instructions as the tables of spec/15_vector_stream_instructions.md give them,
element by element (R190-R208), and the values that their operands have (R191). -/

namespace Sys2Proof.Machine

/-- Element `j` of a vector at width `w` (R190). -/
def vEl (w : Nat) (v : Vec) (j : Nat) : Nat := v.toNat / 2 ^ (w * j) % 2 ^ w
/-- The vector whose element `j` at width `w` is `f j` (R190). -/
def vFrom (w : Nat) (f : Nat → Nat) : Vec := vOf w ((List.range (1024 / w)).map f)

/-- An element read as s(), or with U as u() (R195). -/
def readEl (w : Nat) (u : BitVec 1) (e : Nat) : Int :=
  if u = 1 then e else if e < 2 ^ (w - 1) then e else (e : Int) - 2 ^ w
/-- A result written at width `w`: it wraps, or clamps with SAT to the range that U selects (R195). -/
def writeEl (w : Nat) (u : BitVec 1) (sat : Bool) (r : Int) : Nat :=
  let lo : Int := if u = 1 then 0 else -2 ^ (w - 1)
  let hi : Int := if u = 1 then 2 ^ w - 1 else 2 ^ (w - 1) - 1
  ((if sat then (if r < lo then lo else if hi < r then hi else r) else r) % 2 ^ w).toNat

/-- An integer operation on the elements of two vectors (R195). -/
def intRule2 (w : Nat) (u : BitVec 1) (sat : Bool) (f : Int → Int → Int) (l : List Vec) : Vec :=
  vFrom w fun j => writeEl w u sat (f (readEl w u (vEl w (l.getD 0 0) j)) (readEl w u (vEl w (l.getD 1 0) j)))
/-- An integer operation on the elements of one vector (R195). -/
def intRule1 (w : Nat) (u : BitVec 1) (sat : Bool) (f : Int → Int) (l : List Vec) : Vec :=
  vFrom w fun j => writeEl w u sat (f (readEl w u (vEl w (l.getD 0 0) j)))
/-- A floating operation on the elements of two vectors, rounded once (R197). -/
def fltRule2 (f : Fmt) (rm : Rm) (sat ftz : Bool) (g : XR → XR → XR) (l : List Vec) : Vec :=
  let w := fmtWidth f
  vFrom w fun j => fmtRound f rm sat ftz (g (fmtValue f ftz (vEl w (l.getD 0 0) j)) (fmtValue f ftz (vEl w (l.getD 1 0) j)))
/-- A function of the elements of one vector, rounded once (R198). -/
def fltRule1 (f : Fmt) (rm : Rm) (sat ftz : Bool) (g : XR → XR) (l : List Vec) : Vec :=
  let w := fmtWidth f
  vFrom w fun j => fmtRound f rm sat ftz (g (fmtValue f ftz (vEl w (l.getD 0 0) j)))

/-- A shift of an element by an unsigned amount (R148, R195). -/
def shlEl (w a n : Nat) : Nat := if w ≤ n then 0 else a * 2 ^ n % 2 ^ w
def shrEl (w a n : Nat) : Nat := if w ≤ n then 0 else a / 2 ^ n
def sraEl (w a n : Nat) : Nat :=
  let v := readEl w 0 a
  if w ≤ n then (if v < 0 then 2 ^ w - 1 else 0) else writeEl w 0 false (v / 2 ^ n)

/-- The elements of one vector where those of another are not zero, in their order (R205). -/
def chosen (w : Nat) (a b : Vec) : List Nat :=
  ((List.range (1024 / w)).filter fun j => vEl w b j != 0).map (vEl w a)

/-- `vcvt`: the elements that PART places (R200). -/
def cvtRule (sf tf : Fmt) (part : Nat) (rm : Rm) (sat ftz : Bool) (a : Vec) : Vec :=
  let ws := fmtWidth sf
  let wt := fmtWidth tf
  let n := 1024 / max ws wt
  vFrom wt fun j =>
    if ws < wt then (if n * part + j < 1024 / ws then convert sf tf rm sat ftz (vEl ws a (n * part + j)) else 0)
    else if n * part ≤ j ∧ j < n * part + n ∨ ws = wt then
      convert sf tf rm sat ftz (vEl ws a (if ws = wt then j else j - n * part))
    else 0

/-- The vector that an instruction with a vector destination computes from its sources in order: its destination, its
sources, and its result (R195, R197, R198, R200-R207). -/
def vectorRule (i : Instr) (s : State) : Option (VDst × List VSrc × (List Vec → Vec)) :=
  let a (l : List Vec) : Vec := l.getD 0 0
  let b (l : List Vec) : Vec := l.getD 1 0
  let c (l : List Vec) : Vec := l.getD 2 0
  let flt2 (m : Mods) (d : VDst) (x y : VSrc) (f : Fmt) (g : Rm → XR → XR → XR) : Option (VDst × List VSrc × (List Vec → Vec)) :=
    some (d, [x, y], fltRule2 f (s.rm m) (satOf m) (ftzOf m) (g (s.rm m)))
  let pick (m : Mods) (d : VDst) (x y : VSrc) (f : Fmt) (g : XR → XR → XR) : Option (VDst × List VSrc × (List Vec → Vec)) :=
    some (d, [x, y], fltRule2 f .rne false (ftzOf m) g)
  let flt1 (m : Mods) (d : VDst) (x : VSrc) (f : Fmt) (g : XR → XR) : Option (VDst × List VSrc × (List Vec → Vec)) :=
    some (d, [x], fltRule1 f (s.rm m) (satOf m) (ftzOf m) g)
  match i with
  | .vadd m d x y u e => some (d, [x, y], intRule2 (etBits e) u (satOf m) (· + ·))
  | .vsub m d x y u e => some (d, [x, y], intRule2 (etBits e) u (satOf m) (· - ·))
  | .vmul m d x y u e => some (d, [x, y], intRule2 (etBits e) u (satOf m) (· * ·))
  | .vmulh _ d x y u e => some (d, [x, y], intRule2 (etBits e) u false fun p q => p * q / 2 ^ etBits e)
  | .vmadd m d x y z u e =>
    let w := etBits e
    some (d, [x, y, z], fun l => vFrom w fun j =>
      writeEl w u (satOf m) (readEl w u (vEl w (a l) j) * readEl w u (vEl w (b l) j) + readEl w u (vEl w (c l) j)))
  | .vmin _ d x y u e => some (d, [x, y], intRule2 (etBits e) u false fun p q => if q < p then q else p)
  | .vmax _ d x y u e => some (d, [x, y], intRule2 (etBits e) u false fun p q => if p < q then q else p)
  | .vand _ d x y _ _ => some (d, [x, y], fun l => a l &&& b l)
  | .vor _ d x y _ _ => some (d, [x, y], fun l => a l ||| b l)
  | .vxor _ d x y _ _ => some (d, [x, y], fun l => a l ^^^ b l)
  | .vshl _ d x y _ e => some (d, [x, y], fun l => let w := etBits e; vFrom w fun j => shlEl w (vEl w (a l) j) (vEl w (b l) j))
  | .vshr _ d x y _ e => some (d, [x, y], fun l => let w := etBits e; vFrom w fun j => shrEl w (vEl w (a l) j) (vEl w (b l) j))
  | .vsra _ d x y _ e => some (d, [x, y], fun l => let w := etBits e; vFrom w fun j => sraEl w (vEl w (a l) j) (vEl w (b l) j))
  | .vabs m d x u e => some (d, [x], intRule1 (etBits e) u (satOf m) fun p => if p < 0 then -p else p)
  | .vneg m d x u e => some (d, [x], intRule1 (etBits e) u (satOf m) fun p => -p)
  | .vsel _ d x y z _ e =>
    some (d, [x, y, z], fun l => let w := etBits e; vFrom w fun j => if vEl w (c l) j ≠ 0 then vEl w (a l) j else vEl w (b l) j)
  | .vpopc _ d x _ e =>
    some (d, [x], fun l => let w := etBits e
                           vFrom w fun j => ((List.range w).filter fun k => (vEl w (a l) j).testBit k).length)
  | .vfadd m d x y f => flt2 m d x y (fltEtFmt f) fun rm p q => p.add rm q
  | .vfsub m d x y f => flt2 m d x y (fltEtFmt f) fun rm p q => p.add rm q.negate
  | .vfmul m d x y f => flt2 m d x y (fltEtFmt f) fun _ p q => p.mul q
  | .vfma m d x y z f =>
    let g := fltEtFmt f
    let w := fmtWidth g
    let v (k : Nat) : XR := fmtValue g (ftzOf m) k
    some (d, [x, y, z], fun l => vFrom w fun j => fmtRound g (s.rm m) (satOf m) (ftzOf m)
      (((v (vEl w (a l) j)).mul (v (vEl w (b l) j))).add (s.rm m) (v (vEl w (c l) j))))
  | .vfmin m d x y f => pick m d x y (fltEtFmt f) XR.smaller
  | .vfmax m d x y f => pick m d x y (fltEtFmt f) XR.larger
  | .vfrcp m d x f => flt1 m d x (fltEt3Fmt f) xRecip
  | .vfrsq m d x f => flt1 m d x (fltEt3Fmt f) xRsqrt
  | .vfexp2 m d x f => flt1 m d x (fltEt3Fmt f) xExp2
  | .vflog2 m d x f => flt1 m d x (fltEt3Fmt f) xLog2
  | .vftanh m d x f => flt1 m d x (fltEt3Fmt f) xTanh
  | .vcvt m d x k sf tf =>
    some (d, [x], fun l => cvtRule (fmtOf sf) (fmtOf tf) k.toNat (s.rm m) (satOf m) (ftzOf m) (a l))
  | .vqnt m d x y k scm sf tf =>
    let f := fltEt3Fmt sf
    let g := fmtOf tf
    some (d, if scm = 1 then [x, y] else [x], fun l =>
      let xs := (List.range 32).map fun j => fmtValue f (ftzOf m) (vEl (fmtWidth f) (a l) (32 * k.toNat + j))
      let sc : Byte := if scm = 1 then BitVec.ofNat 8 (vEl 8 (b l) 0) else quantScale g xs
      vFrom 8 fun j => (((recordBytes g sc (xs.map fun v =>
        fmtRound g (s.rm m) (satOf m) (ftzOf m) (quantQuot v (scaleValue sc)))).getD j 0) : Byte).toNat)
  | .vdqnt m d x k sf tf =>
    let f := fmtOf sf
    let g := fltEt3Fmt tf
    some (d, [x], fun l => vFrom (fmtWidth g) fun j =>
      if 32 * k.toNat ≤ j ∧ j < 32 * k.toNat + 32 then
        fmtRound g (s.rm m) (satOf m) (ftzOf m) ((fmtValue (.b8 5 true true) (ftzOf m) (vEl 8 (a l) 0)).mul
          (fmtValue f (ftzOf m) ((a l).toNat / 2 ^ (8 + fmtWidth f * (j - 32 * k.toNat)) % 2 ^ fmtWidth f)))
      else 0)
  | .vpack _ d x f =>
    let w := fmtWidth (fmtOf f)
    some (d, [x], fun l => BitVec.ofNat 1024 (vEl 8 (a l) 0 +
      ((List.range 32).map fun j => vEl 8 (a l) (1 + j) % 2 ^ w * 2 ^ (8 + w * j)).sum))
  | .vunpk _ d x f =>
    let w := fmtWidth (fmtOf f)
    some (d, [x], fun l => vFrom 8 fun j =>
      if j = 0 then vEl 8 (a l) 0 else if j < 33 then (a l).toNat / 2 ^ (8 + w * (j - 1)) % 2 ^ w else 0)
  | .vradd m d x u e =>
    let w := etBits e
    some (d, [x], fun l => vFrom 64 fun j =>
      if j = 0 then writeEl 64 u false (reduceTree (fun p q => readEl 64 u (writeEl 64 u (satOf m) (p + q))) 0
        ((List.range (1024 / w)).map fun k => readEl w u (vEl w (a l) k)))
      else 0)
  | .vrmax _ d x u e =>
    let w := etBits e
    some (d, [x], fun l => vFrom w fun j =>
      if j = 0 then writeEl w u false (reduceTree (fun p q => if p < q then q else p) 0
        ((List.range (1024 / w)).map fun k => readEl w u (vEl w (a l) k)))
      else 0)
  | .vfradd m d x f =>
    let g := fltEtFmt f
    let w := fmtWidth g
    let v (k : Nat) : XR := fmtValue g (ftzOf m) k
    some (d, [x], fun l => vFrom w fun j =>
      if j = 0 then reduceTree (fun p q => fmtRound g (s.rm m) (satOf m) (ftzOf m) ((v p).add (s.rm m) (v q))) 0
        ((List.range (1024 / w)).map (vEl w (a l)))
      else 0)
  | .vfrmax m d x f =>
    let g := fltEtFmt f
    let w := fmtWidth g
    let v (k : Nat) : XR := fmtValue g (ftzOf m) k
    some (d, [x], fun l => vFrom w fun j =>
      if j = 0 then reduceTree (fun p q => fmtRound g .rne false false ((v p).larger (v q))) 0
        ((List.range (1024 / w)).map (vEl w (a l)))
      else 0)
  | .vperm _ d x y z e =>
    let w := widthBits e
    let n := 1024 / w
    some (d, [x, y, z], fun l => vFrom w fun j =>
      let k := vEl w (c l) j
      if k < n then vEl w (a l) k else if k < 2 * n then vEl w (b l) (k - n) else 0)
  | .vrot _ d x k e => some (d, [x], fun l => let w := widthBits e; vFrom w fun j => vEl w (a l) ((j + k.toNat) % (1024 / w)))
  | .vbcast _ d x k e =>
    some (d, [x], fun l => let w := widthBits e; vFrom w fun _ => if k.toNat < 1024 / w then vEl w (a l) k.toNat else 0)
  | .vins _ d x r k e =>
    some (d, [x], fun l => let w := widthBits e; vFrom w fun j => if j = k.toNat then (s.rx r).toNat % 2 ^ w else vEl w (a l) j)
  | .vcomp _ d x y e => some (d, [x, y], fun l => let w := widthBits e; vFrom w fun j => (chosen w (a l) (b l)).getD j 0)
  | .vexpd _ d x y e =>
    some (d, [x, y], fun l => let w := widthBits e
                              vFrom w fun j => if vEl w (b l) j = 0 then 0
                                else vEl w (a l) (((List.range j).filter fun k => vEl w (b l) k != 0).length))
  | .vmrg3 _ d x y z sel =>
    some (d, [x, y, z], fun l =>
      let k (n : Nat) : Nat := vEl 32 (c l) n
      let os (v : Vec) : List Nat := (List.range 32).map (vEl 32 v)
      let t := mergeTriples { m := k 0, s := k 1, o := os (a l) } { m := k 2, s := k 3, o := os (b l) }
      vFrom 32 fun j =>
        if sel = 0 then t.o.getD j 0 else if j = 0 then t.m else if j = 1 then t.s else 0)
  | .vmov _ d x => some (d, [x], a)
  | .vli m d r e k =>
    some (d, [], fun _ => let w := widthBits e
                          vFrom w fun j => ((immS 16 k.toNat m + (if r = 1 then (j : Int) else 0)) % 2 ^ w).toNat)
  | .vsplat _ d r e => some (d, [], fun _ => let w := widthBits e; vFrom w fun _ => (s.rx r).toNat % 2 ^ w)
  | _ => none

/-- The full form that a compact form stands for: its operands with their extension, signed elements of the width or the
format that FN names (R58, R208). -/
def fullForm (i : Instr) : Option Instr :=
  let ops (m : Mods) (d a b : Reg) (f : VDst → VSrc → VSrc → Instr) : Option Instr :=
    match compactDst m d, compactA m a, compactB m b with
    | some d', some a', some b' => some (f d' a' b')
    | _, _, _ => none
  let et (e : BitVec 2) : IntEt := if e = 0 then .i8s else if e = 1 then .i16s else if e = 2 then .i32s else .i64s
  let ft (e : CFlt) : FltEt := match e with | .fp32 => .fp32 | .bf16 => .bf16 | .fp16 => .fp16
  match i with
  | .vaddC m d a b e => ops m d a b fun d a b => .vadd m d a b 0 (et e)
  | .vsubC m d a b e => ops m d a b fun d a b => .vsub m d a b 0 (et e)
  | .vmulC m d a b e => ops m d a b fun d a b => .vmul m d a b 0 (et e)
  | .vminC m d a b e => ops m d a b fun d a b => .vmin m d a b 0 (et e)
  | .vmaxC m d a b e => ops m d a b fun d a b => .vmax m d a b 0 (et e)
  | .vandC m d a b e => ops m d a b fun d a b => .vand m d a b 0 (et e)
  | .vorC m d a b e => ops m d a b fun d a b => .vor m d a b 0 (et e)
  | .vxorC m d a b e => ops m d a b fun d a b => .vxor m d a b 0 (et e)
  | .vfaddC m d a b e => ops m d a b fun d a b => .vfadd m d a b (ft e)
  | .vfsubC m d a b e => ops m d a b fun d a b => .vfsub m d a b (ft e)
  | .vfmulC m d a b e => ops m d a b fun d a b => .vfmul m d a b (ft e)
  | .vfminC m d a b e => ops m d a b fun d a b => .vfmin m d a b (ft e)
  | .vfmaxC m d a b e => ops m d a b fun d a b => .vfmax m d a b (ft e)
  | _ => none

/-- A compare: its destination and sources, its width, PE and PD, and the condition on two elements (R194, R195, R197). -/
def compareRule (i : Instr) : Option (VDst × VSrc × VSrc × Nat × BitVec 1 × BitVec 3 × (Nat → Nat → Bool)) :=
  match i with
  | .vcmp _ d a b pe pd c u e =>
    let w := etBits e
    some (d, a, b, w, pe, pd, fun x y =>
      let p := readEl w u x
      let q := readEl w u y
      match c with
      | .eq => decide (p = q) | .ne => decide (p ≠ q) | .lt => decide (p < q) | .le => decide (p ≤ q)
      | .gt => decide (q < p) | .ge => decide (q ≤ p))
  | .vfcmp m d a b pe pd c f =>
    let g := fltEtFmt f
    some (d, a, b, fmtWidth g, pe, pd, fun x y =>
      let p := fmtValue g (ftzOf m) x
      let q := fmtValue g (ftzOf m) y
      let ordered := !p.isNan && !q.isNan
      match c with
      | .eq => ordered && !p.lt q && !q.lt p | .ne => !(ordered && !p.lt q && !q.lt p)
      | .lt => ordered && p.lt q | .le => ordered && !q.lt p
      | .gt => ordered && q.lt p | .ge => ordered && !p.lt q
      | .un => p.isNan || q.isNan)
  | _ => none

/-- A source that is no stream, and its value: a `v` register, or the oldest entry of an `fd` queue (R191). -/
def plainSrc (s : State) : VSrc → Option Vec
  | .v n => some (s.rv n)
  | .fd n => some (s.cc.peekFd n.toNat)
  | .z _ => none

/-- The stream as C meets it where it stands, the actions of L and S that precede having issued (R217). -/
def State.streamHere (s : State) (n : BitVec 4) : Stream := s.cc.skipsBefore s.pos (s.stream n.toNat)

/-- C meets a bound stream: what L and S skip of it before has issued, or a `sunbind` that precedes waits for the units that are
left (R217). -/
def State.meets (s : State) (n : BitVec 4) : Prop :=
  (s.stream n.toNat).bound = true ∧ (s.unbinding n.toNat = true ∨ (s.streamAhead n.toNat).1.any (decSkips n.toNat) = false)

end Sys2Proof.Machine
end

