-- ==== Sys2Proof/Safety.lean ====
section
/-! DEFINITION. What counts as a safe run, in the terms the statements use: readiness of an instruction, frames, and the
results that the tables of spec/ give. -/

namespace Sys2Proof.Machine

/-- The device has not stopped at a fatal error: the one state in which no partition's engine runs and no host request is served,
so that only what is in flight may still end, the black boxes are read, and a reset follows (R383; log 88). A task's own faults
are traps, from which the task's launch ends and the device goes on (R331, R333). -/
def Safe (s : State) : Prop := s.fatal = none

end Sys2Proof.Machine
end

