-- ==== Sys2Proof/Certificates/Slice0/Obligations.lean ====
section
/-! DEFINITION. The statements about the machine, each a proposition. OBLIGATIONS.json names the rules of spec/ that
each one formalises or rests on. -/

open Sys2Proof Sys2Proof.Machine

/-! ## Encoding and decoding -/

/-- R41-R67: words written out from the encoding tables decode to the instructions that they stand for. -/
def Obligations.WorkedWordsDecode : Prop :=
  decodeTableWord 32 0x298E0005 = some (.add {} 5 6 7) ∧
  decodeTableWord 32 0x2948000D = some (.addi {} 5 5 0x80) ∧
  decodeTableWord 16 0x4B28 = some (.shri16 9 12) ∧
  decodeTableWord 32 0x5FFEC049 = some (.bc 2 1 0xFFEC) ∧
  decodeTableWord 32 0x07006601 = some (.blockHeader 7 6 6) ∧
  decodeTableWord 32 0x29B4806D = some (.ldg {} 5 6 .i64s 8) ∧
  decodeTableWord 32 0x298E2085 = some (.barwait {} 5 6 7) ∧
  decodeTableWord 32 0x4900207D = some (.tffr {} 9 4)

/-- R41-R67: what the encoder writes for a well-formed instruction, the decoder reads back, with every field at every
value that the encoding admits, whatever follows; and so for the two parcels of a block header. -/
def Obligations.DecodeInvertsEncode : Prop :=
  (∀ (i : Instr) (rest : List Parcel), wellFormed i = true → instrIsWord i = true →
    decode (encode i ++ rest) = .ok (i, (encode i).length)) ∧
  ∀ (rep : BitVec 7) (r : Reg) (body : BitVec 12) (mask : BitVec 4) (rest : List Parcel),
    decodeHeader (encode (.blockHeader rep body mask) ++ rest) = some (.blockHeader rep body mask) ∧
    decodeHeader (encode (.blockHeaderReg r body mask) ++ rest) = some (.blockHeaderReg r body mask)

/-- R62, R67: whatever the decoder accepts is a well-formed instruction, and lies within the parcels given. -/
def Obligations.DecodedIsWellFormed : Prop :=
  ∀ (ps : List Parcel) (i : Instr) (n : Nat), decode ps = .ok (i, n) → wellFormed i = true ∧ 0 < n ∧ n ≤ ps.length

/-- R61: prefixes at the end of a body, or before a control instruction (the 16-bit `nop`, and majors 17 to 23 of the 32-bit
format), whatever else is wrong with it, make the engine that executes them fault with PREFIX at the first of them. -/
def Obligations.OrphanPrefixFaults : Prop :=
  ∀ (s : State) (pre : List Parcel), pre ≠ [] → (∀ p ∈ pre, parcelLen p = 3) →
    s.runParcels pre = .next (s.trapHere .pfx) ∧
    ∀ (p : Parcel) (rest : List Parcel),
      ((parcelLen p = 0 ∧ p.toNat / 4 % 16 = 0) ∨ (parcelLen p = 1 ∧ 17 ≤ p.toNat / 4 % 64 ∧ p.toNat / 4 % 64 ≤ 23)) →
      s.runParcels (pre ++ p :: rest) = .next (s.trapHere .pfx)

/-! ## The step -/

/-- R24, R41-R45: at a body offset whose parcels decode to an instruction, at a header, and at an event of the device, one step
is `exec` of that instruction, in the machine with the clocks of the slot passed, the slot gone from the agenda, and the
engine, or the event's operands, named. An engine acts where no later one of its core has acted in this clock and the issue
slot of its kind is free (R23, R24, R162, R185); the order X, L, C, S of the engines within a clock is the model's choice, log
129. Before the images have passed their checks no event happens but the reset and the messages of recovery (R376). Slots and
the agenda are the model's own, log 1. That after a fatal error, at which R383 has every partition stopped, only a reset and
what is in flight in the units happen, is the model's choice, log 88. -/
def Obligations.StepRunsTheInstruction : Prop :=
  ∀ (s : State) (t : Slot) (rest : List Slot), s.agenda = t :: rest →
    (s.fatal ≠ none → afterFatal t.act = false → step s = .next (s.passed t rest)) ∧
    (s.fatal = none → ∀ core ctx e hold, t.act = .engine core ctx e hold → ctx < 4 →
      let u := s.acting t rest core ctx e hold
      (s.passed t rest).mayStep (ctxKey core ctx) e = true → (s.passed t rest).turnOpen core ctx e = true →
      (∀ b ps i n, u.ce.blk = some b → b.begun = true → u.fetchInstr u.me u.cur.eng false u.ce.pc (b.next - u.ce.pc) = .ok ps →
        decode ps = .ok (i, n) → step s = exec i (u.executing n)) ∧
      (∀ i, u.ce.blk = none → u.headerAt u.me u.cur.eng false u.ce.pc = .ok (some i) → step s = exec i (u.executing 2))) ∧
    (s.fatal = none → ∀ i a, t.act = .event i a → a.ctx < 4 → instrIsEvent i = true → (s.booted = true ∨ beforeBoot i = true) →
      step s = exec i (s.happening t rest a))

/-- R331: no instruction and no event stops the machine: each answers a next state, in every state, and so does every
step. Faults of a task are traps of that task, and not stops. -/
def Obligations.EveryStepAnswersNext : Prop :=
  (∀ (i : Instr) (s : State), ∃ t, exec i s = .next t) ∧ ∀ s : State, ∃ t, step s = .next t


/-- R103, R107: every step keeps device memory in its canonical form: addresses strictly rising, and no byte listed that an
unlisted address reads as. So memories that read alike are equal. -/
def Obligations.EveryStepKeepsMemoryCanonical : Prop :=
  (∀ s t : State, Memory.wf s.mem = true → step s = .next t → Memory.wf t.mem = true) ∧
  ∀ m n : Mem, Memory.wf m = true → Memory.wf n = true → (∀ a, memGet m a = memGet n a) → m = n

/-! ## Reset -/

/-- R28, R29, R31, R88, R124, R184, R209, R226, R235, R238, R240: what reset leaves in the contexts, the cores, the lanes,
the columns and the matrix engines. By log entry 4, a choice of the model, device memory and every scratchpad list no byte, so
that each reads as zero, and the store is in its canonical form. -/
def Obligations.ResetValues : Prop :=
  let s := State.reset
  (∀ k, (s.ctx k).window = 16 ∧ (s.ctx k).round = 0 ∧ (s.ctx k).pol = false ∧ (s.ctx k).queuesEmpty = true ∧
    (s.ctx k).mq = [] ∧ (s.ctx k).fwd = [] ∧ (s.ctx k).alr = none ∧ ∀ z, (tget {} (s.ctx k).z z).bound = false) ∧
  (∀ n, (s.core n).spad = 0 ∧ (s.core n).tagmap = 0 ∧ (s.core n).ltags = []) ∧
  (∀ n, (s.lane n).q = [] ∧ (s.lane n).rsync = false ∧ (s.lane n).pol = false ∧ (s.lane n).done = 0) ∧
  (∀ n, (s.col n).lslots = 24 ∧ (s.col n).capk = 30) ∧
  (∀ n, (s.mat n).q = [] ∧ (s.mat n).unfold = none ∧ (∀ k, (s.mat n).sem k = 0) ∧
    ∀ k, s.layout n k = { span := 0, rstr := 16, base := 0 }) ∧
  s.measure = 0 ∧ s.booted = false ∧
  Memory.wf s.mem = true ∧ (∀ a, memGet s.mem a = 0) ∧ ∀ n, (s.core n).sram = {}

/-! ## Issue -/

/-- R63: an instruction outside the engine list of its form makes the engine that executes it fault with ILLOP, and so does
one that is not common in a block tagged for several engines. A common form stands in the list of every engine, one that
names a predicate in those of X and C. -/
def Obligations.EngineOutsideListFaults : Prop :=
  (∀ e, classOk .common e = true ∧ classOk .commonXC e = (e == .x || e == .c)) ∧
  (∀ c, classCommon c = true ↔ c = .common ∨ c = .commonXC) ∧
  ∀ (i : Instr) (s : State), instrIsWord i = true →
    (classOk (instrEngines i) s.cur.eng = false ∨ (s.multi = true ∧ classCommon (instrEngines i) = false)) →
    exec i s = .next (s.trapHere .illop)

/-- R49, R60, R62: a guard on an instruction that L or S executes faults with ILLOP. A TK field that is not zero faults with
ILLOP on X and in a block tagged for several engines; on L a bit that names a lower neighbour does, and on S a bit that names
an upper one. -/
def Obligations.TokenFieldAndGuardFaults : Prop :=
  ∀ (i : Instr) (s : State), instrIsWord i = true →
    ((instrMods i).tk ≠ 0 → (s.cur.eng = .x ∨ s.multi = true ∨ (s.cur.eng = .l ∧ ((instrMods i).tk.getLsbD 2 ∨ (instrMods i).tk.getLsbD 0)) ∨
      (s.cur.eng = .s ∧ ((instrMods i).tk.getLsbD 3 ∨ (instrMods i).tk.getLsbD 1))) →
      exec i s = .next (s.trapHere .illop)) ∧
    ((instrMods i).pfx.guard ≠ none → (s.cur.eng = .l ∨ s.cur.eng = .s) → exec i s = .next (s.trapHere .illop))

/-- R30, R31, R147: an instruction that waits for an operand, a token or a queue has no effect on any state but the note of its
engine's stall: no queue, token, register, memory byte or offset changes. That a token which the instruction pops still counts
in the FIFO to which it pushes is the model's choice, log 135. -/
def Obligations.StalledInstructionHasNoEffect : Prop :=
  ∀ (i : Instr) (s : State) (w : Stall), instrIsWord i = true → wellFormed i = true → s.legal (formOf i s) = true →
    s.blocked (formOf i s) = some w →
    exec i s = .next (s.stallHere w) ∧ SameMachine s (s.stallHere w) ∧ SameOthers s (s.stallHere w) ∧
    (∀ e, ((s.stallHere w).cc.eng e).quiet = (s.cc.eng e).quiet) ∧
    { (s.stallHere w).cc with engs := s.cc.engs } = s.cc

/-- R60: a guarded-off instruction pops the queues that it names as sources, pushes one zero entry to each that it names as
a destination, and takes and pushes its tokens; it writes no register, predicate, stream, special register or memory. -/
def Obligations.GuardedOffInstructionKeepsBalance : Prop :=
  ∀ (i : Instr) (s : State), instrIsWord i = true → wellFormed i = true → s.legal (formOf i s) = true →
    s.blocked (formOf i s) = none → s.guardOff (instrMods i) = true →
    ∃ t, exec i s = .next t ∧
      Walked (formOf i s) (s.modMe fun c => (instrPushes i).foldl Ctx.pushZero c) t

/-- R27, R30, R31, R44: an instruction past its own effect has popped the queues that it names and moved its engine and its
tokens, and left everything else: registers, predicates, v registers, streams, memory and every other context. Its engine
goes on to the next one of the body; from the last one of the last pass it goes to the header after the block; from the last
one of an earlier pass it begins the next pass at the first instruction, or waits for it at the header while the slip window is
closed. -/
def Obligations.RetirementAndWalk : Prop :=
  (∀ (i : Instr) (s u : State), Walked (formOf i s) u (past i s u)) ∧
  ∀ (c : Ctx) (e : Eng) (n : Nat) (b : Blk), (c.eng e).blk = some b →
    ((c.eng e).pc + n < b.next → ((c.advance e n).eng e).pc = (c.eng e).pc + n ∧ ((c.advance e n).eng e).blk = some b) ∧
    (b.next ≤ (c.eng e).pc + n → b.left = 0 → ((c.advance e n).eng e).pc = b.next ∧ ((c.advance e n).eng e).blk = none) ∧
    (b.next ≤ (c.eng e).pc + n → b.left ≠ 0 → c.windowOpen e b.head b.mask = true →
      ((c.advance e n).eng e).pc = b.head + 2 ∧
      ((c.advance e n).eng e).blk = some { b with left := b.left - 1, begun := true } ∧
      ((c.advance e n).eng e).begun b.head = (c.eng e).begun b.head + 1) ∧
    (b.next ≤ (c.eng e).pc + n → b.left ≠ 0 → c.windowOpen e b.head b.mask = false →
      ((c.advance e n).eng e).pc = b.head ∧
      ((c.advance e n).eng e).blk = some { b with left := b.left - 1, begun := false } ∧
      ((c.advance e n).eng e).begun b.head = (c.eng e).begun b.head)

/-- R333: a task traps once, for the first fault by clock; of faults of one clock the one on the first engine in the order
X, L, C, S; and from the trap on no engine of the task takes a step. -/
def Obligations.FirstFaultTrapsTheTask : Prop :=
  ∀ (s : State) (k : Nat) (t : Trap),
    ((s.ctx k).st = .run → (s.ctx k).trap = none →
      ((s.raise k t).ctx k).st = .trapped ∧ ((s.raise k t).ctx k).trap = some t ∧
      ∀ e, (s.raise k t).mayStep k e = false) ∧
    (∀ o, (s.ctx k).st = .trapped → (s.ctx k).trap = some o →
      ((s.raise k t).ctx k).st = .trapped ∧
      ((s.raise k t).ctx k).trap = if o.clock = t.clock ∧ engIdx t.eng < engIdx o.eng then some t else some o) ∧
    (∀ n, n ≠ k → (s.raise k t).ctx n = s.ctx n)

/-! ## Number formats -/

/-- R79, R80: the value of every code of the half-step formats, which have no zero, and of the integer formats; and, as follows
from R87 and R93, a value of one of them rounds to its own code, in every rounding mode. -/
def Obligations.IntegerAndHalfStepFormats : Prop :=
  ∀ (ftz sat : Bool) (rm : Rm) (c : Nat),
    (c < 16 → fmtValue .h4s ftz c = .ofInt (2 * c - 15) 2 ∧ fmtValue .h4n ftz c = .ofInt (2 * c + 1) 2 ∧
      fmtValue .i4s ftz c = .ofInt (signed 4 c) ∧ fmtValue .i4n ftz c = .ofInt c) ∧
    (c < 64 → fmtValue .h6s ftz c = .ofInt (2 * c - 63) 2) ∧
    (c < 256 → fmtValue .h8s ftz c = .ofInt (2 * c - 255) 2 ∧ fmtValue .h8n ftz c = .ofInt (2 * c + 1) 2 ∧
      fmtValue .i8s ftz c = .ofInt (signed 8 c) ∧ fmtValue .i8n ftz c = .ofInt c) ∧
    (c < 2 ^ 16 → fmtValue .i16s ftz c = .ofInt (signed 16 c)) ∧ (c < 2 ^ 32 → fmtValue .i32s ftz c = .ofInt (signed 32 c)) ∧
    (c < 2 ^ 64 → fmtValue .i64s ftz c = .ofInt (signed 64 c)) ∧
    ∀ f sp, intSpec f = some sp → c < 2 ^ sp.w → fmtRound f rm sat ftz (fmtValue f ftz c) = c ∧
      (sp.half = true → (fmtValue f ftz c).isZero = false)

/-! ## Integer instructions -/

/-- R145, R148-R153: every integer instruction that writes an x register executes to its end with the result that the
tables give, a write to `x0` is discarded, and nothing else changes. -/
def Obligations.IntegerResults : Prop :=
  ∀ (i : Instr) (s : State) (d : Reg) (v : Quad), scalarResult i s = some (d, v) → Ready s i →
    ∃ t, exec i s = .next t ∧ (d ≠ 0 → t.rx d = v) ∧ t.rx 0 = 0 ∧ WritesOnly d s t

/-- R154, R155: every compare and predicate instruction writes its predicate with the outcome of its condition, and
nothing else. -/
def Obligations.PredicateResults : Prop :=
  ∀ (i : Instr) (s : State) (n : BitVec 3) (b : Bool), predResult i s = some (n, b) → Ready s i →
    ∃ t, exec i s = .next t ∧ t.rp n = b ∧ WritesPredOnly n s t

/-! ## The walk of the text -/

/-- R48, R156: a branch that is not taken does nothing but go on; a taken one leaves its block for the header at its target,
`call` with the header after its block in `x31`; a target outside the text, and one inside it whose parcels are no block header,
faults with ILLOP; a fault of the fetch of the target traps, and a page that no TLB holds stalls. No other register of the
engine, no predicate, v register, queue or byte of memory changes, but that `bq` pops its outcome. That LEN and MAJ alone make a
header is the model's reading, log 9. -/
def Obligations.BranchesGoToTheirTarget : Prop :=
  ∀ (i : Instr) (s : State) (taken : Bool) (t : Int), branchOf i s = some (taken, t) → Ready s i →
    (taken = false → exec i s = .next (past i s s)) ∧
    (taken = true → HeaderAt s t → ∃ u, exec i s = .next u ∧ u.ce.pc = t.toNat ∧ u.ce.blk = none ∧
      (∀ r, r ≠ 31 ∨ branchLinks i = false → u.rx r = s.rx r) ∧
      (branchLinks i = true → ∀ b, s.ce.blk = some b → u.rx 31 = quadN b.next) ∧
      (∀ n, u.rp n = s.rp n) ∧ SameMachine s u ∧ SameOthers s u ∧ (∀ e, e ≠ s.cur.eng → (u.cc.eng e).quiet = (s.cc.eng e).quiet) ∧
      Ctx.still u.cc = Ctx.still ((instrPops i s.cur.eng).foldl Ctx.popQueue s.cc)) ∧
    (taken = true → t < 0 ∨ (s.cr.textLen : Int) < 2 * (t + 2) → exec i s = .next (s.trapHere .illop)) ∧
    (taken = true → 0 ≤ t → 2 * (t + 2) ≤ (s.cr.textLen : Int) →
      (∀ p q, s.parcels s.me s.cur.eng false t.toNat 2 = .ok (p :: q) → ¬(p.toNat % 4 = 1 ∧ p.toNat / 4 % 64 = 0) →
        exec i s = .next (s.trapHere .illop)) ∧
      (∀ c va, s.parcels s.me s.cur.eng false t.toNat 2 = .fault c va → exec i s = .next (s.trapHere c va)) ∧
      ∀ va, s.parcels s.me s.cur.eng false t.toNat 2 = .miss va →
        exec i s = .next ((s.enterMiss s.me s.cur.eng va).stallHere .tlb))

/-- R25, R27, R43-R45: an engine at a block header that fails its checks faults with ILLOP; an engine that the mask does not
tag, or whose count is 0, goes to the header after the block; a tagged one begins the first instance, or waits at it while
the slip window is closed, and before that while its count register has a result to come (R44, R147). No register, predicate,
queue or byte of memory changes. -/
def Obligations.BlockHeaderEntersItsBlock : Prop :=
  ∀ (i : Instr) (s : State) (n : Nat) (body : BitVec 12) (mask : BitVec 4), headerCount i s = some (n, body, mask) →
    let h := s.ce.pc
    let next := h + 2 + body.toNat
    (body = 0 ∨ mask = 0 ∨ s.cr.textLen < 2 * next → exec i s = .next (s.trapHere .illop)) ∧
    (body ≠ 0 → mask ≠ 0 → 2 * next ≤ s.cr.textLen → headerWaits i s = true → exec i s = .next (s.stallHere .result)) ∧
    (body ≠ 0 → mask ≠ 0 → 2 * next ≤ s.cr.textLen → headerWaits i s = false → ∃ u, exec i s = .next u ∧ SameMachine s u ∧ SameOthers s u ∧
      Ctx.still u.cc = Ctx.still s.cc ∧ (∀ e, e ≠ s.cur.eng → (u.cc.eng e).quiet = (s.cc.eng e).quiet) ∧
      (∀ r, u.rx r = s.rx r) ∧ (∀ r, u.rp r = s.rp r) ∧ u.ce.visits = h :: s.ce.visits ∧
      ((maskHas mask s.cur.eng = false ∨ n = 0) → u.ce.pc = next ∧ u.ce.blk = none) ∧
      (maskHas mask s.cur.eng = true → n ≠ 0 → s.cc.windowOpen s.cur.eng h mask = true →
        u.ce.pc = h + 2 ∧ u.ce.begun h = s.ce.begun h + 1 ∧
        u.ce.blk = some { head := h, next := next, left := n - 1, begun := true, mask := mask }) ∧
      (maskHas mask s.cur.eng = true → n ≠ 0 → s.cc.windowOpen s.cur.eng h mask = false →
        u.ce.pc = h ∧ u.ce.begun h = s.ce.begun h ∧ u.ce.stall = some .window ∧
        u.ce.blk = some { head := h, next := next, left := n - 1, begun := false, mask := mask }))

/-- R64, R157-R159: the two forms of `nop` do nothing but go on; `bcast` pushes the predicate, or its negation, and `xsend` a
register, into the queue of every engine that the mask names; `xrecv` takes the oldest entry of its engine's queue; a mask of
zero faults with ILLOP. -/
def Obligations.NopsAndScalarsBetweenEngines : Prop :=
  ∀ (s : State) (m : Mods) (p : BitVec 3) (e : BitVec 3) (k : BitVec 1) (r : Reg),
    (Ready s .nop16 → exec .nop16 s = .next (past .nop16 s s)) ∧ (Ready s .nop → exec .nop s = .next (past .nop s s)) ∧
    (Ready s (.bcast p e k) → exec (.bcast p e k) s =
      .next (if e = 0 then s.trapHere .illop else past (.bcast p e k) s
        (s.modMe fun c => (sendMask e).foldl (fun c f => c.pushBq f (s.rp p != (k == 1#1))) c))) ∧
    (Ready s (.xsend m e r) → exec (.xsend m e r) s =
      .next (if e = 0 then s.trapHere .illop else past (.xsend m e r) s
        (s.modMe fun c => (sendMask e).foldl (fun c f => c.pushXq f (s.rx r)) c))) ∧
    (Ready s (.xrecv m r) → exec (.xrecv m r) s = .next (past (.xrecv m r) s (s.wx r (s.cc.peekXq s.cur.eng))))

/-- R186: `tkpush` enters a token toward a neighbour once the engine's earlier accesses have performed, and `tkpop` takes
one; both wait for the FIFO, and a neighbour that the engine does not have is ILLOP. -/
def Obligations.TokenInstructions : Prop :=
  ∀ (s : State) (n : BitVec 1),
    let up := n == 1#1
    (Ready s (.tkpush n) → exec (.tkpush n) s = .next (
      if neighbourOk s.cur.eng up = false then s.trapHere .illop
      else if s.ownPerformed = false then s.stallHere .memq
      else if s.cc.tokRoom s.cur.eng up = false then s.stallHere .token
      else past (.tkpush n) s (s.modMe fun c => c.tokReserve s.cur.eng up s.cc.nextId))) ∧
    (Ready s (.tkpop n) → exec (.tkpop n) s = .next (
      if neighbourOk s.cur.eng up = false then s.trapHere .illop
      else if s.cc.tokThere s.cur.eng up = false then s.stallHere .token
      else past (.tkpop n) s (s.modMe fun c => c.tokTake s.cur.eng up)))

/-- R158, R342, R343: `halt`, `trap` and a `chk` whose bound is reached stop the task with WATCH, each marked as what it is,
at its own offset; another `chk` only goes on; `tabort` begins the end of its region. -/
def Obligations.SoftwareTraps : Prop :=
  ∀ (s : State) (m : Mods) (k : BitVec 15) (a b : Reg),
    let t : Trap := { code := .watch, eng := s.cur.eng, pc := s.ce.pc, addr := 0, info := 0, clock := s.clock }
    (Ready s .halt → exec .halt s = .next (s.raise s.me { t with halt := true })) ∧
    (Ready s (.trap m k) → exec (.trap m k) s = .next (s.raise s.me { t with info := k.toNat, soft := true })) ∧
    (Ready s (.chk m a b) → exec (.chk m a b) s = .next (
      if (s.rx b).toNat ≤ (s.rx a).toNat then s.raise s.me { t with info := (s.rx a).toNat % 2 ^ 32, chk := true }
      else past (.chk m a b) s s)) ∧
    (Ready s (.tabort m) → exec (.tabort m) s = .next (s.startAbort s.cc.regid))

/-! ## Special registers, identity and time -/

/-- R161, R163-R165, R344: `mfs`, `feat`, `clock`, `roleid` and `tstat` write their register with the word that they read,
and nothing else. That `clock` reads one count on every die, where R164 allows a difference of 8 clocks, is the model's choice,
log 100. -/
def Obligations.StatusReads : Prop :=
  ∀ (i : Instr) (s : State) (d : Reg) (v : Quad), readResult i s = some (d, v) → Ready s i →
    ∃ t, exec i s = .next t ∧ (d ≠ 0 → t.rx d = v) ∧ t.rx 0 = 0 ∧ WritesOnly d s t

/-- R28, R88, R106, R161, R235: a write of each special register, field by field as its access codes allow; `ctl.split` and
`slot.plan` make the engine wait; a number that names no register is ILLOP, for `mfs` as for `mts`. That the other engines see
a write at once, where R162 gives 2 clocks, is the model's choice, log 139. -/
def Obligations.SpecialRegisterWrites : Prop :=
  ∀ (s : State) (m : Mods) (a d : Reg) (n : BitVec 9),
    (Ready s (.mts m a n) → exec (.mts m a n) s = .next (
      match sprWrite n.toNat (s.rx a) s with
      | none => s.trapHere .illop
      | some (u, none) => past (.mts m a n) s u
      | some (u, some w) => u.retireWait (formOf (.mts m a n) s) w)) ∧
    (Ready s (.mfs m d n) → sprWord n.toNat s = none → exec (.mfs m d n) s = .next (s.trapHere .illop))

/-! ## Loads and stores -/

/-- R113, R166: the checks of an address come in order. A misaligned address is ALIGN; an L-space address outside the
scratchpad is PROT, and one inside it has its parts there; a P-space role that is not bound, or an offset outside the peer's
scratchpad, is PROT; a G-space address of 2^53 or more is XLATE. -/
def Obligations.AddressChecks : Prop :=
  ∀ (s : State) (write : Bool) (align a n : Nat),
    (∀ sp, a % align ≠ 0 → s.checked sp write align a n = .fault .align a) ∧
    (a % align = 0 →
      (65536 * (s.core s.cur.core).spad < a + n → s.checked .l write align a n = .fault .prot a) ∧
      (a + n ≤ 65536 * (s.core s.cur.core).spad → ∃ ps, s.checked .l write align a n = .ok ps ∧
        ∀ p ∈ ps, p.place = .spad s.cur.core ∧ a ≤ p.addr ∧ p.addr = a + p.off ∧ p.va = p.addr ∧ p.addr + p.len ≤ a + n ∧
          p.addr / 128 = (p.addr + p.len - 1) / 128) ∧
      (s.peerCore (a / 2 ^ 32 % 2 ^ 11) = none → s.checked .p write align a n = .fault .prot a) ∧
      (∀ c, s.peerCore (a / 2 ^ 32 % 2 ^ 11) = some c → 65536 * (s.core c).spad < a % 2 ^ 23 + n →
        s.checked .p write align a n = .fault .prot a) ∧
      (2 ^ 53 ≤ a → s.checked .g write align a n = .fault .xlate a))

/-- R132, R136, R166-R172: a scalar or a vector load that has its places in the queue enters it with the parts of its
address, a vector one with its place in the `fd` queue; a fault of the address traps with the address, and a page that no TLB
holds stalls. That a load from L space waits until S has issued every earlier L-space store, overlapping or not, is the model's
reading of R136, log 21; the bytes delivered are R136's. -/
def Obligations.LoadsEnterTheirQueue : Prop :=
  ∀ (i : Instr) (s : State) (f : MemForm) (kind : AccKind) (fd : Option Nat), loadOf i s = some (f, kind, fd) →
    Ready s i → inSaveSequence i s = false →
    ((f.sp = .l ∧ s.issuedBefore s.me s.cur.eng s.pos decLocalStore = false) → exec i s = .next (s.stallHere .order)) ∧
    ((f.sp = .l → s.issuedBefore s.me s.cur.eng s.pos decLocalStore = true) →
      ((s.core s.cur.core).splitting = false → s.cc.roomFor true false = false → exec i s = .next (s.stallHere .memq)) ∧
      (s.mayEnter true false →
        (∀ ps, s.checked f.sp f.write f.align f.va f.len = .ok ps →
          exec i s = .next (pastEntered i s (s.entered i true false kind ps (List.replicate f.len 0) fd))) ∧
        (∀ c a, s.checked f.sp f.write f.align f.va f.len = .fault c a → exec i s = .next (s.trapHere c a)) ∧
        (∀ a, s.checked f.sp f.write f.align f.va f.len = .miss a →
          exec i s = .next ((s.enterMiss s.me s.cur.eng a).stallHere .tlb))))

/-- R132, R136, R166-R172: a scalar or a vector store enters its queue with its bytes, one to L space in the forwarding table
too; it waits where the table holds 16 stores; a fault of the address traps, and a missing page stalls. -/
def Obligations.StoresEnterTheirQueue : Prop :=
  ∀ (i : Instr) (s : State) (f : MemForm) (data : List Byte), storeOf i s = some (f, data) →
    Ready s i → inSaveSequence i s = false →
    ((f.sp = .l ∧ 16 ≤ s.cc.pruneFwd.fwdHeld) → exec i s = .next (s.stallHere .fwd)) ∧
    ((f.sp = .l → s.cc.pruneFwd.fwdHeld < 16) →
      ((s.core s.cur.core).splitting = false → s.cc.roomFor false true = false → exec i s = .next (s.stallHere .memq)) ∧
      (s.mayEnter false true →
        (∀ ps, s.checked f.sp f.write f.align f.va f.len = .ok ps →
          (f.sp ≠ .l → exec i s = .next (pastEntered i s (s.entered i false true .store ps data none))) ∧
          (f.sp = .l →
            let a := s.access (instrMods i) false true .store ps data
            exec i s = .next (pastEntered i s (((s.modMe Ctx.pruneFwd).forward a).enter a)))) ∧
        (∀ c a, s.checked f.sp f.write f.align f.va f.len = .fault c a → exec i s = .next (s.trapHere c a)) ∧
        (∀ a, s.checked f.sp f.write f.align f.va f.len = .miss a →
          exec i s = .next ((s.enterMiss s.me s.cur.eng a).stallHere .tlb))))

/-- R173, R174: a gather or a scatter reads its list of word indices at issue, misaligned lists being ALIGN and lists outside the
scratchpad PROT; an index of all ones is skipped; the accesses of the other elements, each at base + index · width, enter the
queue together. A fault of an element's address traps, and nothing has entered; an element on a page that no TLB holds stalls.
That a scatter to L space needs one place of the forwarding table, however many elements it has, is the model's choice, log 22;
that of a stall nothing is kept but the request for the walk, so that the list is read again, is log 89. -/
def Obligations.GathersAndScatters : Prop :=
  ∀ (i : Instr) (s : State) (sp : Space) (write : Bool) (q : BitVec 2) (a b : Reg) (w n : Nat),
    listOf i = some (sp, write, q, a, b, w, n) → Ready s i → s.cc.roomFor (!write) write = true →
    ((s.rx b).toNat % 4 ≠ 0 → exec i s = .next (s.trapHere .align (s.rx b).toNat)) ∧
    ((s.rx b).toNat % 4 = 0 → ∀ c x y t, s.readLocal (s.rx b).toNat (4 * n) = .error (.trap c x y t) →
      exec i s = .next (t.trapHere c x y)) ∧
    ((s.rx b).toNat % 4 = 0 → (s.core s.cur.core).splitting = false → s.issuedBefore s.me s.cur.eng s.pos decLocalStore = true →
      s.localStored = true → s.acquired = true → 65536 * (s.core s.cur.core).spad < (s.rx b).toNat + 4 * n →
      exec i s = .next (s.trapHere .prot (s.rx b).toNat)) ∧
    ((s.rx b).toNat % 4 = 0 → ∀ v t, s.readLocal (s.rx b).toNat (4 * n) = .error (.stall v t) → exec i s = .next (t.stallHere v)) ∧
    (∀ u bs, (s.rx b).toNat % 4 = 0 → s.readLocal (s.rx b).toNat (4 * n) = .ok (u, bs) → u.mayEnter (!write) write →
      (write = false → sp = .l → u.issuedBefore u.me u.cur.eng u.pos decLocalStore = true) →
      (write = true → sp = .l → u.cc.pruneFwd.fwdHeld < 16) →
      let reached := u.reachList sp write (u.rx a) w
        (((List.range n).map fun j => (j, leNat ((bs.drop (4 * j)).take 4))).filter fun p => p.2 != 0xFFFFFFFF)
      (∀ c x, reached = .fault c x → exec i s = .next (u.trapHere c x)) ∧
      (∀ x, reached = .miss x → exec i s = .next (({ s with miss := (u.enterMiss u.me u.cur.eng x).miss } : State).stallHere .tlb)) ∧
      ∀ ps, reached = .ok ps →
        (write = false →
          exec i s = .next (pastEntered i s (u.entered i true false (.vload q.toNat) ps (List.replicate (n * w) 0) (some q.toNat)))) ∧
        (write = true →
          let data := (leBytes 128 (u.cc.peekDn q.toNat).toNat).take (n * w)
          (sp ≠ .l → exec i s = .next (pastEntered i s (u.entered i false true .store ps data none))) ∧
          (sp = .l →
            let e := u.access (instrMods i) false true .store ps data
            exec i s = .next (pastEntered i s (((u.modMe Ctx.pruneFwd).forward e).enter e)))))

/-- R169, R170, R172: a load of one part performs when nothing orders it behind another: its bytes, the lowest address in the
lowest byte, are extended by its sign or by zeros into its register, or fill its entry of the `fd` queue; its access leaves
the queues; no byte of memory changes. The bytes are those that its place gives it, where no change of a translation has come
between. -/
def Obligations.LoadDeliversItsBytes : Prop :=
  ∀ (s : State) (k id : Nat) (a : Access) (p : Part) (bs : List Byte) (u : State), (s.ctx k).access id = some a →
    a.id = id → (s.ctx k).st ≠ .idle → (s.ctx k).systemAcked a = true → a.stale = false → a.parts = [p] → p.done = false →
    s.mayPerform k a (some p) = true → (s.acquireOf k a).readPart k a p = (u, some bs) → p.off = 0 → bs.length = a.data.length →
    (∀ n sext d, a.kind = .load n sext d →
      let t := s.tryPerform k id 0
      (d ≠ 0 → ((t.ctx k).eng a.eng).rx d = if sext then quad (signed (8 * n) (leNat bs)) else quadN (leNat bs)) ∧
      (t.ctx k).access id = none ∧ t.mem = s.mem) ∧
    (∀ q, a.kind = .vload q →
      s.tryPerform k id 0 = (u.modCtx k fun c => c.fillFd q id (BitVec.ofNat 1024 (leNat bs))).finishAccess k id a.eng)

/-- R22, R107, R128, R170: a store of one part to device memory enters the bytes in the version of its task, where its own
loads see them, and changes no byte of memory and no other context; one to the engine's own scratchpad puts them there, byte
by byte, and leaves every other byte of it; one to P space enters them in the version of its task for the peer's scratchpad, and
changes no scratchpad, no byte of memory and no other context. -/
def Obligations.StoreWritesItsBytes : Prop :=
  ∀ (s : State) (k : Nat) (a : Access) (p : Part) (bs : List Byte) (t : State), s.writePart k a p bs = (t, true) →
    (p.place = .mem → (∀ x, memGet t.mem x = memGet s.mem x) ∧ (t.ctx k).ver.mem = overlay (s.ctx k).ver.mem p.addr bs ∧
      ∀ n, n ≠ k → (t.ctx n).ver = (s.ctx n).ver) ∧
    (∀ c, p.place = .spad c → s.badWords c p.addr bs.length = [] →
      (∀ x, memGet t.mem x = memGet s.mem x) ∧ (∀ j, j < bs.length → (t.core c).sram.get (p.addr + j) = bs.getD j 0) ∧
      (∀ x, x < p.addr ∨ p.addr + bs.length ≤ x → (t.core c).sram.get x = (s.core c).sram.get x) ∧
      ∀ n, n ≠ c → t.core n = s.core n) ∧
    (∀ c, p.place = .peer c → (∀ x, memGet t.mem x = memGet s.mem x) ∧
      tget [] (t.ctx k).ver.peer c = overlay (tget [] (s.ctx k).ver.peer c) p.addr bs ∧
      (∀ d, d ≠ c → tget [] (t.ctx k).ver.peer d = tget [] (s.ctx k).ver.peer d) ∧
      (t.ctx k).ver.mem = (s.ctx k).ver.mem ∧ (∀ n, n ≠ k → t.ctx n = s.ctx n) ∧ ∀ n, (t.core n).sram = (s.core n).sram)

/-! ## Lines and order -/

/-- R135, R139, R141, R175, R176: `pfg` brings the line at its address into its home slice, and into the L1 where that has
room, ends its own context's hold of the line (R183), and waits while another context holds it (R182); `l1inv` removes the copy
of the line from the L1 of the core, `l1inv.all` every copy, but for those private to the task, once the loads before it that
would fill one again have performed; an address that would fault does nothing. That a page that no TLB holds stalls them, and
that they go on where its walk faults, is the model's choice, log 29, with the translation of log 23. `mark`, `fence` and
`qfence` enter both queues; where nothing holds them back they perform at once, a `fence` with its acquire, and leave the
queues; a `qfence` makes its engine wait until the condition under the mask of its register and its immediate holds, and traps
with a deferred fault of the units that it names. -/
def Obligations.LineAndOrderingInstructions : Prop :=
  (∀ (s : State) (m : Mods) (a : Reg) (k : BitVec 10),
     let va := (s.rx a + 0 + quad (immS 10 k.toNat m)).toNat
     let x := s.unitXlat s.me s.cc.part s.cc.asid va false
     let dropped (p : Nat → Bool) : State :=
       s.modCore (s.me / 4) fun c => { c with l1 := c.l1.filter fun e => !p e.line || e.priv == some s.me }
     (s.mayEnter true false → Ready s (.pfg m a k) →
       (∀ pa w r, x = .ok pa w r → (∀ h ∈ s.held, h.line = pa / 128 → h.ctx = s.me) →
         exec (.pfg m a k) s = .next (past (.pfg m a k) s (s.prefetch (pa / 128)))) ∧
       (∀ pa w r, x = .ok pa w r → (∃ h ∈ s.held, h.line = pa / 128 ∧ h.ctx ≠ s.me) →
         exec (.pfg m a k) s = .next (s.stallHere .hold)) ∧
       (∀ f, x = .fault f → exec (.pfg m a k) s = .next (past (.pfg m a k) s s)) ∧
       (x = .miss → exec (.pfg m a k) s = .next ((s.enterUnitMiss s.me s.cc.part s.cc.asid va).stallHere .tlb))) ∧
     (s.mayEnter true false → Ready s (.l1inv m a k) →
       (∀ pa w r, x = .ok pa w r → s.fillPending (· == pa / 128) = false →
         exec (.l1inv m a k) s = .next (past (.l1inv m a k) s (dropped (· == pa / 128)))) ∧
       (∀ pa w r, x = .ok pa w r → s.fillPending (· == pa / 128) = true → exec (.l1inv m a k) s = .next (s.stallHere .order)) ∧
       (∀ f, x = .fault f → exec (.l1inv m a k) s = .next (past (.l1inv m a k) s s)) ∧
       (x = .miss → exec (.l1inv m a k) s = .next ((s.enterUnitMiss s.me s.cc.part s.cc.asid va).stallHere .tlb))) ∧
     (Ready s (.l1invAll m) →
       (s.fillPending (fun _ => true) = false → exec (.l1invAll m) s = .next (past (.l1invAll m) s (dropped fun _ => true))) ∧
       (s.fillPending (fun _ => true) = true → exec (.l1invAll m) s = .next (s.stallHere .order)))) ∧
  (∀ (s : State) (line : Nat), (∀ h ∈ (s.prefetch line).held, h.line = line → h.ctx ≠ s.me) ∧ (s.prefetch line).mem = s.mem ∧
     (l1Find (s.core s.cur.core).l1 s.me line = none → ((s.endHold s.me line).l2Fill line).linePoisoned line = false →
       (s.core s.cur.core).l1.length < s.l1Lines s.cur.core →
       l1Find ((s.prefetch line).core s.cur.core).l1 s.me line = some { line := line, data := memRead s.mem (128 * line) 128 })) ∧
  ∀ (s : State) (m : Mods) (a : Reg) (k : BitVec 6), s.cc.roomFor true true = true →
    let id := s.cc.nextId
    (Ready s (.mark m) →
      let i : Instr := .mark m
      let e := s.access m true true .mark [] []
      let u := s.entered i true true .mark [] [] none
      let q := pastQueued i s u
      exec i s = .next (pastEntered i s u) ∧
      (s.cur.hold = false → s.cc.st ≠ .idle → s.cc.access id = none → q.mayPerform s.me e none = true →
        exec i s = .next (q.finishAccess s.me id s.cur.eng))) ∧
    (Ready s (.fence m) →
      let i : Instr := .fence m
      let e := s.access m true true .fence [] []
      let u := s.entered i true true .fence [] [] none
      let q := pastQueued i s u
      exec i s = .next (pastEntered i s u) ∧
      (s.cur.hold = false → s.cc.st ≠ .idle → s.cc.access id = none → q.mayPerform s.me e none = true →
        (q.ctx s.me).systemAcked e = true → exec i s = .next ((q.acquireAt s.me e.scope).finishAccess s.me id s.cur.eng))) ∧
    (Ready s (.qfence m a k) →
      let i : Instr := .qfence m a k
      let mask := ((s.rx a).toNat ||| k.toNat) % 64
      let e := s.access m true true (.qfence mask) [] []
      let u := s.entered i true true (.qfence mask) [] [] none
      let q := waitQueued i s u
      (∀ d, s.deferred s.me (fenceUnits mask) = some d → exec i s = .next (s.raiseDeferred s.me d)) ∧
      (s.deferred s.me (fenceUnits mask) = none →
        exec i s = .next (u.retireWait (formOf i s) (.access id)) ∧
        (s.cur.hold = false → s.cc.st ≠ .idle → s.cc.access id = none → q.mayPerform s.me e none = true →
          (q.ctx s.me).systemAcked e = true → q.engineQueuesDone s.me e mask = true → q.unitsStored s.me e mask = true →
          exec i s = .next (q.finishAccess s.me id s.cur.eng))))

/-- R138, R139: of two accesses of one queue with parts for one target the later performs after the earlier; an access that
acquires holds back every later one, and one that releases waits for every earlier one. -/
def Obligations.OrderOfAccesses : Prop :=
  ∀ (s : State) (k : Nat) (a b : Access) (p q : Part), b ∈ (s.ctx k).mq → b.id ≠ a.id → (s.ctx k).before b a = true →
    (a.kind = .store ∨ (∃ n x d, a.kind = .load n x d) ∨ ∃ f, a.kind = .vload f) →
    (b.kind = .store ∨ (∃ n x d, b.kind = .load n x d) ∨ ∃ f, b.kind = .vload f) →
    (b.acquires = true ∨ a.releases = true ∨
      (((b.inL = true ∧ a.inL = true) ∨ (b.inS = true ∧ a.inS = true)) ∧ q ∈ b.parts ∧ q.done = false ∧
        s.target q = s.target p)) →
    s.mayPerform k a (some p) = false

/-- R184, R185: `twany` and `twall` return the tags of their mask that are set where their condition holds, a mask of zero at
once, and wait otherwise; `tffr` takes the lowest set tag of its mask, and answers 64 where none is set; `tclr` clears the tags
of its mask; a tag that a completion has set in the same clock stays set. A tag whose command has a deferred fault makes its
task trap instead. -/
def Obligations.TransferTags : Prop :=
  ∀ (s : State) (m : Mods) (d a b : Reg) (all : Bool),
    let i : Instr := if all then .twall m d a b else .twany m d a b
    let tags := (s.core s.cur.core).tagmap
    let v := tags &&& s.rx a
    let met := s.rx a = 0 ∨ (if all then v = s.rx a else v ≠ 0)
    (Ready s i →
      (met → s.tagDeferred s.me v = none →
        exec i s = .next (past i s (((if v = 0 then s else s.l1DropAll (s.me / 4))).wx d v))) ∧
      (met → ∀ e, s.tagDeferred s.me v = some e → exec i s = .next (s.raiseDeferred s.me e)) ∧
      (¬met → exec i s = .next (s.retireWait (formOf i s) (.tags all d (s.rx a) (s.rx b) s.clock)))) ∧
    (Ready s (.tffr m d a) →
      (v = 0 → exec (.tffr m d a) s = .next (past (.tffr m d a) s (s.wx d 64))) ∧
      (∀ n, n < 64 → v.getLsbD n = true → (∀ j, j < n → v.getLsbD j = false) → s.tagDeferred s.me (1#64 <<< n) = none →
        exec (.tffr m d a) s = .next (past (.tffr m d a) s
          (((s.l1DropAll (s.me / 4)).clearTags s.cur.core (1#64 <<< n)).wx d (quadN n)))) ∧
      (∀ n, n < 64 → v.getLsbD n = true → (∀ j, j < n → v.getLsbD j = false) → ∀ e, s.tagDeferred s.me (1#64 <<< n) = some e →
        exec (.tffr m d a) s = .next (s.raiseDeferred s.me e))) ∧
    (Ready s (.tclr m a) → exec (.tclr m a) s = .next (past (.tclr m a) s (s.clearTags s.cur.core (s.rx a)))) ∧
    (∀ x : Quad, let c := s.core s.cur.core
      (s.clearTags s.cur.core x).core s.cur.core =
        { c with tagmap := if c.tagSet.1 = s.clock then c.tagmap &&& (~~~x ||| c.tagSet.2) else c.tagmap &&& ~~~x } ∧
      (∀ n, n ≠ s.cur.core → (s.clearTags s.cur.core x).core n = s.core n) ∧ (s.clearTags s.cur.core x).ctxs = s.ctxs ∧
      (s.clearTags s.cur.core x).mem = s.mem)

/-! ## Operations of X at a home slice -/

/-- R137, R166, R178, R188, R268, R272: an atomic, a barrier operation or an operation on a sequence enters both queues with
its operands, and performs at the home slice of its operand; X waits for `barwait` and `sqwait`. A fault of its address traps
with the address. That `barwait` asks for no permission to write is the model's reading, log 31. At its slice, where its line
is not poisoned and has headroom, `barinit` sets EXPECT, at least 1, and clears ARRIVED and both error bits, and `bararr`
counts an arrival and returns the phase that it found, the last arrival opening the next phase with the errors of the one that
ends; no other byte changes (R187, R188), and the L1 copies of the line leave (log 138, the model's choice). The operations on
sequences answer status and value, DEAD where there is none live, and what they refuse changes nothing stored: `sqnew` and
`sqfork` make a sequence, `sqres` and `sqrest` move CUR, `sqrest` with the fields of its group, `sqcmt` and `sqacc` commit,
`sqwd` withdraws the group, `sqfree` ends a sequence, `sqpin` and `squnpin` count its pins, and `sqlen` and `sqext` read (R271,
R273, R276, R278, R279, R284, R285, R287, R288). No other sequence changes. -/
def Obligations.SliceOperationsEnter : Prop :=
  (∀ (i : Instr) (s : State) (o : SliceOp) (r : Reach) (waits : Bool), sliceOpOf i s = some (o, r, waits) → Ready s i →
    s.cc.roomFor true true = true → (o.isSeq = false → (s.core s.cur.core).splitting = false) →
    (∀ ps, r = .ok ps →
      let u := s.entered i true true (.op o) ps [] none
      exec i s = .next (if waits then u.retireWait (formOf i s) (.access s.cc.nextId) else pastEntered i s u)) ∧
    (∀ c a, r = .fault c a → exec i s = .next (s.trapHere c a)) ∧
    (∀ a, r = .miss a → exec i s = .next ((s.enterMiss s.me s.cur.eng a).stallHere .tlb))) ∧
  (∀ (s : State) (k : Nat) (a : Access) (p : Part) (o : SliceOp) (t : State) (v : Quad),
    (if opCloses o then s else s.endHold k (p.addr / 128)).opAt k a p o = .done t v →
    let u := s.performOp k a p o
    u.mem = t.mem ∧ u.seqs = t.seqs ∧ (∀ b ∈ (u.ctx k).mq, b.id ≠ a.id) ∧
    ∀ d, opDest o = some d → d ≠ 0 → ((u.ctx k).eng a.eng).rx d = v) ∧
  (∀ (s : State) (k id off va pa : Nat) (b : Quad) (e : Bool),
    let w := s.l2Fill (pa / 128)
    let r := barOf (leNat (memRead s.mem pa 16))
    let writes (o : OpRes) (n : BarRec) (v : Quad) : Prop :=
      ∃ t, o = .done t v ∧ barOf (leNat (memRead t.mem pa 16)) = n ∧ t.seqs = s.seqs ∧
        ∀ z, z < pa ∨ pa + 16 ≤ z → memGet t.mem z = memGet s.mem z
    w.linePoisoned (pa / 128) = false → w.hitsScb pa 16 = false → (w.reserveLine (s.ctx k).part pa).isSome = true →
    writes (s.opBarWrite k id off va pa (fun x => x.init b) fun _ => 0)
      { r with expect := max 1 (b.toNat % 2 ^ 32), arrived := 0, err := false, errcur := false } 0 ∧
    writes (s.opBarWrite k id off va pa (fun x => x.arrive e) fun x => quadN x.phase)
      (if r.expect ≤ r.arrived + 1 then
         { r with err := r.errcur || e, errcur := false, arrived := 0, phase := (r.phase + 1) % 2 ^ 32 }
       else { r with errcur := r.errcur || e, arrived := r.arrived + 1 }) (quadN r.phase)) ∧
  (∀ (s : State) (k id pa : Nat) (n m : Quad),
    let q := s.seq pa
    let task := (s.ctx k).taskid
    let free : Prop := ∃ t, (s.l1DropScb k pa).reserveScb k id (s.ctx k).part pa q.va = .ok t
    let slots (c : Nat) (st : SlotSt) : List SlotRec := (List.range c).map fun i => { i := q.cur + i, st := st, owner := task }
    let tooMany : Prop := q.tact = true ∨ 256 < q.cur + n.toNat - (if q.frozen then q.len else 0)
    let reserves (o : OpRes) (limit : Nat) (f : Seq → Seq) : Prop :=
      (n = 0 ∨ limit < n.toNat → Refuses s o 8) ∧ (n ≠ 0 → n.toNat ≤ limit → tooMany → Refuses s o 2) ∧
      (n ≠ 0 → n.toNat ≤ limit → ¬tooMany → free → Refuses s o 3 ∨ Refuses s o 6 ∨
        ∃ t ext, o = .done t (resultQuad 0 q.cur) ∧ OthersKept pa s t ∧ t.seq pa = f { q with ext := ext, cur := q.cur + n.toNat })
    let group : Prop := q.tact = true ∧ q.towner = task
    let own (r : SlotRec) : Prop := r.st = .reserved ∧ r.owner = task
    let commits : Prop := 1 ≤ m.toNat ∧ m.toNat ≤ 256 ∧ ∀ i, i < m.toNat → ∃ r ∈ q.slots, r.i = n.toNat + i ∧ own r
    (q.live = false →
      Refuses s (s.opSqres k id pa n) 7 ∧ Refuses s (s.opSqrest k id pa n) 7 ∧ Refuses s (s.opSqcmt k id pa n m) 7 ∧
      Refuses s (s.opSqacc k id pa n) 7 ∧ Refuses s (s.opSqwd k id pa) 7 ∧ Refuses s (s.opSqfree k id pa) 7 ∧
      Refuses s (s.opSqlen k pa) 7 ∧ Refuses s (s.opSqwait k pa n) 7 ∧ ∀ up, Refuses s (s.opSqpin k id pa up) 7) ∧
    (q.live = true →
      reserves (s.opSqres k id pa n) 256 (fun x => { x with slots := x.slots ++ slots n.toNat .reserved }) ∧
      reserves (s.opSqrest k id pa n) 64 (fun x => { x with slots := x.slots ++ slots n.toNat .tentative, tbase := q.cur,
                                                             tcnt := n.toNat, tact := true, towner := task }) ∧
      (¬commits → Refuses s (s.opSqcmt k id pa n m) 8) ∧
      (commits → free → ∃ t, s.opSqcmt k id pa n m = .done t (resultQuad 0 (t.seq pa).len) ∧ OthersKept pa s t ∧
        LengthComes q (t.seq pa) n.toNat m.toNat) ∧
      (¬(group ∧ n.toNat ≤ q.tcnt) → Refuses s (s.opSqacc k id pa n) 8) ∧
      (group → n.toNat ≤ q.tcnt → free → ∃ t, s.opSqacc k id pa n = .done t (resultQuad 0 (t.seq pa).len) ∧ OthersKept pa s t ∧
        LengthComes { q with tbase := q.tbase + n.toNat, tcnt := q.tcnt - n.toNat, tact := q.tcnt != n.toNat } (t.seq pa) q.tbase
          n.toNat) ∧
      (¬group → Refuses s (s.opSqwd k id pa) 8) ∧
      (group → free → ∃ t ext stage gone, s.opSqwd k id pa = .done t (resultQuad 0 q.tcnt) ∧ OthersKept pa s t ∧
        t.seq pa = { q with ext := ext, cur := q.tbase, tact := false, tcnt := 0, stage := stage, gone := gone,
                            slots := q.slots.filter fun r => decide (r.i < q.tbase) }) ∧
      (0 < q.pin ∨ q.len < q.cur ∨ q.tact = true ∨ 0 < q.attn → Refuses s (s.opSqfree k id pa) 2) ∧
      (q.pin = 0 → q.cur ≤ q.len → q.tact = false → q.attn = 0 → free →
        ∃ t, s.opSqfree k id pa = .done t (resultQuad 0 q.len) ∧ OthersKept pa s t ∧ (t.seq pa).live = false) ∧
      (∀ up : Bool, (if up then q.pin = 65535 else q.pin = 0) → Refuses s (s.opSqpin k id pa up) (if up then 2 else 8)) ∧
      (∀ up : Bool, ¬(if up then q.pin = 65535 else q.pin = 0) → free →
        let c := if up then q.pin + 1 else q.pin - 1
        ∃ t, s.opSqpin k id pa up = .done t (resultQuad 0 c) ∧ OthersKept pa s t ∧ t.seq pa = { q with pin := c } ∧
          ∀ z, z < pa ∨ pa + 256 ≤ z → memGet t.mem z = memGet s.mem z) ∧
      (∃ t, s.opSqlen k pa = .done t (resultQuad 0 q.len) ∧ SameStore s t) ∧
      (q.len < n.toNat → s.opSqwait k pa n = .wait s) ∧
      (n.toNat ≤ q.len → ∃ t, s.opSqwait k pa n = .done t (resultQuad 0 q.len) ∧ SameStore s t) ∧
      (∀ e, q.ext[n.toNat]? = some e →
        (∃ t, s.opSqext k pa 0 n = .done t (quadN (e.base % 2 ^ 27 * 2 ^ 37 + e.npg * 2 ^ 16 +
            (s.pool q.part e.bed).stride % 256 * 2 ^ 8 + if 1 < s.blockRefs q.part e.bed e.block then 1 else 0)) ∧ SameStore s t) ∧
        ∃ t, s.opSqext k pa 1 n = .done t (quadN (s.blockRefs q.part e.bed e.block)) ∧ SameStore s t) ∧
      (∀ b x, s.seqPage q q.ext (q.pageOf n.toNat) = some (b, x) →
        ∃ t, s.opSqext k pa 2 n = .done t (quadN (s.share q.part b x)) ∧ SameStore s t)) ∧
    (∀ sel, q.live = false ∨ (sel ≠ 2 ∧ q.ext.length ≤ n.toNat) ∨ (sel = 2 ∧ s.seqPage q q.ext (q.pageOf n.toNat) = none) →
      ∃ t, s.opSqext k pa sel n = .done t 0 ∧ SameStore s t)) ∧
  ∀ (s : State) (k id pa va parentVa g b : Nat) (w : Quad),
    let c := s.ctx k
    let q := s.seq pa
    let win := bits w.toNat 26 16
    let fmt := bits w.toNat 15 10
    let slg := bits w.toNat 3 0
    let bad : Prop := win % 16 ≠ 0 ∨ 1024 < win ∨ (fmt ≠ 0x30 ∧ fmt ≠ 0x0E) ∨ 8 < slg ∨ (slg = 8 ∧ b = 0) ∨ 16 < b ∨ q.live = true
    let sidePages (size window : Nat) : Nat := orderFor ((sideBytes size window + 8191) / 8192)
    (bad → Refuses s (s.opSqnew k id pa va w b) 8) ∧
    (¬bad →
      ((s.l1DropScb k pa).poolAlloc c.part (s.home pa / 8) (sidePages (64 * 2 ^ slg) win) = none →
        Refuses s (s.opSqnew k id pa va w b) 6) ∧
      ∀ u page x, (s.l1DropScb k pa).poolAlloc c.part (s.home pa / 8) (sidePages (64 * 2 ^ slg) win) = some (u, page) →
        u.reserveScb k id c.part pa va = .ok x →
        ∃ t, s.opSqnew k id pa va w b = .done t 0 ∧ OthersKept pa s t ∧
          t.seq pa = { live := true, va := va, part := c.part, asid := c.asid, w := win, fmt := BitVec.ofNat 6 fmt, slg := slg,
                       b := b, side := 8192 * page, sideBlock := page, bed := s.home pa / 8 } ∧
          ∀ z, z < pa ∨ pa + 256 ≤ z → memGet t.mem z = memGet s.mem z) ∧
    let f := s.opSqfork k id pa g va parentVa
    let v := (s.l1DropScb k pa).l1DropScb k g
    (q.live = false → Refuses s f 7) ∧ (q.live = true → (s.seq g).live = true → Refuses s f 8) ∧
    (q.live = true → (s.seq g).live = false →
      (v.poolAlloc c.part (s.home g / 8) (sidePages q.size q.w) = none → Refuses s f 6) ∧
      ∀ u page x, v.poolAlloc c.part (s.home g / 8) (sidePages q.size q.w) = some (u, page) →
        u.reserveScb k id c.part g va = .ok x →
        ∃ t, f = .done t (resultQuad 0 q.len) ∧ OthersKept g s t ∧
          t.seq g = { live := true, va := va, part := c.part, asid := c.asid, len := q.len, cur := q.len, w := q.w, fmt := q.fmt,
                      slg := q.slg, b := q.b, ext := clipExtents q.ext (q.pagesFor q.len), frozen := q.frozen,
                      side := 8192 * page, sideBlock := page, parent := parentVa, forkl := q.len, bed := s.home g / 8,
                      scales := q.scales, ring := q.ring,
                      stage := if q.frozen then [] else q.stage.filter fun p => decide (p.1 < q.len) } ∧
          ∀ z, z < g ∨ g + 256 ≤ z → memGet t.mem z = memGet s.mem z)

/-- R144, R178-R180: what each atomic writes, of a word or a quad that holds `x`, and what it returns: the value that it read.
A compare that fails writes what is there; `afadd` rounds its sum once, RNE, in FP32 or in A56, whose bits 63:56 it writes as
zero. At its slice, on a line that is not poisoned, it returns what the committed bytes hold, writes those bytes and no other
byte of memory, and removes the line from the L1 of its core. -/
def Obligations.Atomics : Prop :=
  (∀ (w x b c : Nat), (w = 32 ∨ w = 64) → x < 2 ^ w → b < 2 ^ w → c < 2 ^ w →
     atomicNew .add w x b c = (x + b) % 2 ^ w ∧ atomicNew .swp w x b c = b ∧
     (∀ j, (atomicNew .and w x b c).testBit j = (x.testBit j && b.testBit j)) ∧
     (∀ j, (atomicNew .or w x b c).testBit j = (x.testBit j || b.testBit j)) ∧
     (∀ j, (atomicNew .xor w x b c).testBit j = (x.testBit j ^^ b.testBit j)) ∧
     signed w (atomicNew .min w x b c) = min (signed w x) (signed w b) ∧
     signed w (atomicNew .max w x b c) = max (signed w x) (signed w b) ∧
     atomicNew .minU w x b c = min x b ∧ atomicNew .maxU w x b c = max x b ∧
     (x = c → atomicNew .cas w x b c = b) ∧ (x ≠ c → atomicNew .cas w x b c = x) ∧
     (x < b → atomicNew .binc w x b c = x + 1) ∧ (b ≤ x → atomicNew .binc w x b c = 0) ∧
     (w = 32 → atomicNew .faddF w x b c = fmtRound .fp32 .rne false false ((fmtValue .fp32 false x).add .rne (fmtValue .fp32 false b))) ∧
     (w = 64 → atomicNew .faddA w x b c = fmtRound .a56 .rne false false
        ((fmtValue .a56 false (x % 2 ^ 56)).add .rne (fmtValue .a56 false (b % 2 ^ 56))) % 2 ^ 56)) ∧
  ∀ (s t : State) (k id off va pa n : Nat) (op : AOp) (b c v : Quad), (s.l2Fill (pa / 128)).linePoisoned (pa / 128) = false → (n = 4 ∨ n = 8) →
    s.opAtomic k id off va pa op n b c = .done t v →
    let x := leNat (memRead s.mem pa n)
    let y := atomicNew op (8 * n) x (b.toNat % 2 ^ (8 * n)) (c.toNat % 2 ^ (8 * n))
    v = quadN x ∧ memRead t.mem pa n = leBytes n y ∧ (∀ z, z < pa ∨ pa + n ≤ z → memGet t.mem z = memGet s.mem z) ∧
    ∀ e ∈ (t.core (k / 4)).l1, e.line ≠ pa / 128

/-- R181-R183: `alrb` asks for its line and gives up an open one, whose line it releases; `alrl` reads the region buffer, the
marked bytes over the snapshot; `alrs` marks bytes; `alrc` closes the region, after the release of its line where the hold has
ended on X, and answers 0 at once where none is open. At the slice the closing message answers 1 where the hold lasts, the
marked bytes of the line being written and no other, and 0 where it does not, nothing being written; the line is released. An
offset outside the line or misaligned is ALIGN. Each waits while a
snapshot is on its way. That the sum of an offset and a register wraps modulo 2^64 is the model's reading, log 32. -/
def Obligations.SingleLineRegions : Prop :=
  (∀ (s : State) (k id off va pa : Nat) (marks : List (Nat × Byte)),
    let line := pa / 128
    let holds : Prop := ∃ h ∈ s.held, h.line = line ∧ h.ctx = k
    (¬holds → ∃ t, s.opAlrc k id off va pa marks = .done t 0 ∧ t.mem = s.mem) ∧
    (holds → marks = [] ∨ (s.hitsScb (128 * line) 128 = false ∧ s.linePoisoned line = false ∧
        (s.reserveLine (s.ctx k).part pa).isSome = true) →
      ∃ t, s.opAlrc k id off va pa marks = .done t 1 ∧ (∀ h ∈ t.held, ¬(h.line = line ∧ h.ctx = k)) ∧
        (∀ i, i < 128 → memGet t.mem (128 * line + i) = (tfind marks i).getD (memGet s.mem (128 * line + i))) ∧
        ∀ x, x < 128 * line ∨ 128 * line + 128 ≤ x → memGet t.mem x = memGet s.mem x)) ∧
  ∀ (s : State) (m : Mods) (d a b : Reg) (z : BitVec 1) (w : Width) (o : BitVec 7) (k : BitVec 16),
    let n := widthBytes w
    let x := (s.rx a + 0 + quad (o.toNat : Int)).toNat
    let va := (s.rx a + 0 + quad (immS 16 k.toNat m)).toNat
    let released (u : State) (line : Nat) : State := { u with held := u.held.filter fun h => !(h.line == line && h.ctx == s.me) }
    let closed (u : State) : State := u.modMe fun c => { c with alr := none }
    (s.cc.alrPending = true → ∀ i, i = .alrl m d a z w o ∨ i = .alrs m a b w o ∨ i = .alrb m a k ∨ i = .alrc m d → Ready s i →
      exec i s = .next (s.stallHere .result)) ∧
    (s.cc.alrPending = false →
      (Ready s (.alrl m d a z w o) →
        (128 ≤ x ∨ x % n ≠ 0 → exec (.alrl m d a z w o) s = .next (s.trapHere .align x)) ∧
        (x < 128 → x % n = 0 → exec (.alrl m d a z w o) s = .next (past (.alrl m d a z w o) s (s.wx d
          (match s.cc.alr with
           | some r => if z = 0 then quad (signed (8 * n) (leNat (r.bytes x n))) else quadN (leNat (r.bytes x n))
           | none => 0))))) ∧
      (Ready s (.alrs m a b w o) →
        (128 ≤ x ∨ x % n ≠ 0 → exec (.alrs m a b w o) s = .next (s.trapHere .align x)) ∧
        (x < 128 → x % n = 0 → exec (.alrs m a b w o) s = .next (past (.alrs m a b w o) s (s.modMe fun c =>
          { c with alr := c.alr.map fun r => { r with marks := overlay r.marks x (leBytes n (s.rx b).toNat) } })))) ∧
      (Ready s (.alrb m a k) → s.mayEnter true true →
        (∀ ps, s.checked .g true 1 va 1 = .ok ps →
          let u := s.entered (.alrb m a k) true true (.op (.alrb va false)) ps [] none
          exec (.alrb m a k) s = .next (pastEntered (.alrb m a k) s
            (match s.cc.alr with | some r => closed (released u r.line) | none => u))) ∧
        (∀ c y, s.checked .g true 1 va 1 = .fault c y → exec (.alrb m a k) s = .next (s.trapHere c y))) ∧
      (Ready s (.alrc m d) →
        (s.cc.alr = none → exec (.alrc m d) s = .next (past (.alrc m d) s (s.wx d 0))) ∧
        (∀ r, s.cc.alr = some r → s.mayEnter true true →
          let part : Part := { place := .mem, addr := 128 * r.line, len := 128, off := 0, va := r.va }
          let u := closed (s.entered (.alrc m d) true true (.op (.alrc d r.marks)) [part] [] none)
          exec (.alrc m d) s = .next (pastEntered (.alrc m d) s
            (if r.hold = true ∧ s.clock < r.since + 64 then u else released u r.line)))))

/-- R127, R279, R283: `ldq` and `vldq` enter the load queue and `stq` and `vstq` the store queue with their slot and channel,
at the home slice of the slot's line; the handle is checked as R268 says. That the slot's line is the one that `State.fillAddr`
gives, of the slot's page, is the model's reading, log 55, and that an access of two lines has one target its choice, log 137.
As they perform, a load of a slot below the length delivers the bits that the slot holds with status 0, and one beyond it zeros
with status 1 (R283); a fill enters its values, channel after channel, in the version of its task (R279). -/
def Obligations.SlotAccessesEnter : Prop :=
  (∀ (s : State) (m : Mods) (d a b c : Reg) (q : BitVec 2) (ch : BitVec 14),
    let r := s.handle false (s.rx a).toNat
    let h := reachAddr r
    let n := (s.rx b).toNat
    let at_ (ps : List Part) (len : Nat) : List Part := ps.map fun p => { p with addr := s.fillAddr h n ch.toNat, len := len }
    let word := leBytes 2 (s.rx d).toNat
    let vec := leBytes 128 (s.cc.peekDn q.toNat).toNat
    let enters (i : Instr) (load : Bool) (u : List Part → State) : Prop := Ready s i →
      (s.cc.roomFor load (!load) = false → exec i s = .next (s.stallHere .memq)) ∧
      (s.cc.roomFor load (!load) = true →
        (∀ ps, r = .ok ps → exec i s = .next (pastEntered i s (u ps))) ∧
        (∀ f x, r = .fault f x → exec i s = .next (s.trapHere f x)) ∧
        (∀ x, r = .miss x → exec i s = .next ((s.enterMiss s.me s.cur.eng x).stallHere .tlb)))
    enters (.ldq m d a b c ch) true (fun ps =>
      s.entered (.ldq m d a b c ch) true false (.qload d c h n ch.toNat none) (at_ ps 2) [] none) ∧
    enters (.vldq m q a b c ch) true (fun ps =>
      s.entered (.vldq m q a b c ch) true false (.qload 0 c h n ch.toNat (some q.toNat)) (at_ ps 128) [] (some q.toNat)) ∧
    enters (.stq m d a b ch) false (fun ps =>
      s.entered (.stq m d a b ch) false true (.qfill h n ch.toNat) (at_ ps 2) word none) ∧
    enters (.vstq m q a b ch) false (fun ps =>
      s.entered (.vstq m q a b ch) false true (.qfill h n ch.toNat) (at_ ps 128) vec none)) ∧
  (∀ (s : State) (k : Nat) (a : Access) (p : Part) (d st : Reg) (h i ch : Nat) (vec : Option Nat),
    let q := s.seq h
    let n := min (if vec.isSome then 64 else 1) (q.size - ch)
    let t := s.performQload k a p d st h i ch vec
    let lines := s.chanLines q i ch n
    let gives (status : Nat) (vals : List (BitVec 16)) : Prop :=
      let bits := vals.foldr (fun v x => v.toNat + 2 ^ 16 * x) 0
      ∃ u : State, u.mem = s.mem ∧ u.seqs = s.seqs ∧ (∀ m, m ≠ k → u.ctx m = s.ctx m) ∧
        (∀ e, (u.ctx k).eng e = (s.ctx k).eng e) ∧ (u.ctx k).mq = (s.ctx k).mq ∧
        t = ((match vec with
              | some f => u.modCtx k fun c => c.fillFd f a.id (BitVec.ofNat 1024 bits)
              | none => u.writeReg k a.eng d (quadN bits)).writeReg k a.eng st (resultQuad status q.len)).finishAccess k a.id a.eng
    (q.live = false → gives 7 []) ∧ (q.live = true → q.len ≤ i → gives 1 []) ∧
    (q.live = true → i < q.len → s.slotVoid q i = true → gives 9 []) ∧
    (q.live = true → i < q.len → s.slotVoid q i = false →
      (q.size ≤ ch → ∃ u : State, t = u.raiseAt k a.eng a.pos.off .prot p.va) ∧
      (ch < q.size →
        ((∀ l ∈ lines, s.linePoisoned l = false) ∨ (s.ctx k).pol = false →
          gives 0 ((List.range n).map fun j => s.chanBits q i (ch + j))) ∧
        ((∃ l ∈ lines, s.linePoisoned l = true) → (s.ctx k).pol = true →
          ∃ u : State, t = u.raiseAt k a.eng a.pos.off .poison p.va)))) ∧
  ∀ (s : State) (k : Nat) (a : Access) (p : Part) (h i ch : Nat),
    let q := s.seq h
    let t := s.performQfill k a p h i ch
    let mine (r : SlotRec) : Prop := r.i = i ∧ (r.st = .reserved ∨ r.st = .tentative) ∧ r.owner = (s.ctx k).taskid
    let gone (g : Nat × Nat × Nat) : Prop := g.1 ≤ i ∧ i < g.1 + g.2.1 ∧ g.2.2 = (s.ctx k).taskid
    let new := (List.range (min (a.data.length / 2) (q.size - ch))).map fun j =>
      (h, i, ch + j, BitVec.ofNat 16 (leNat ((a.data.drop (2 * j)).take 2)))
    (q.live = false ∨ q.size ≤ ch ∨ ((∀ r ∈ q.slots, ¬mine r) ∧ ∀ g ∈ q.gone, ¬gone g) →
      t = s.raiseAt k a.eng a.pos.off .prot p.va) ∧
    (q.live = true → ch < q.size → (∀ r ∈ q.slots, ¬mine r) → (∃ g ∈ q.gone, gone g) → t = s.finishAccess k a.id a.eng) ∧
    (q.live = true → ch < q.size → (∃ r ∈ q.slots, mine r) →
      (s.takeFills k new = none → t = s.raiseAt k a.eng a.pos.off .vcap p.va) ∧
      ∀ u, s.takeFills k new = some u → t = (u.endHold k (p.addr / 128)).finishAccess k a.id a.eng ∧ u.mem = s.mem ∧
        u.seqs = s.seqs ∧ (u.ctx k).ver.fills = (s.ctx k).ver.fills ++ new ∧ ∀ m, m ≠ k → u.ctx m = s.ctx m)

/-- R289: `sqattn` reads its descriptor and its query at issue and enters the operation with them; a descriptor that is not on
64 bytes, and a query or destination that is not aligned, are ALIGN. That a misaligned handle is reported before a misaligned
descriptor is the model's reading, log 15; that a stall of a read keeps nothing but a request for a walk, and both reads are made
again, its choice, log 89. -/
def Obligations.AttentionEnters : Prop :=
  ∀ (s : State) (m : Mods) (a b : Reg) (ten : BitVec 1) (tag : BitVec 6),
    let i : Instr := .sqattn m a b ten tag
    let va := (s.rx a).toNat
    let off := (s.rx b).toNat
    Ready s i →
    (va % 256 ≠ 0 → exec i s = .next (s.trapHere .align va)) ∧
    (va % 256 = 0 → off % 64 ≠ 0 → exec i s = .next (s.trapHere .align off)) ∧
    (va % 256 = 0 → off % 64 = 0 → s.cc.roomFor true true = true →
      ∀ u desc w query ps, s.readLocal off 64 = .ok (u, desc) → (attnDesc desc).qaddr % 4 = 0 → (attnDesc desc).dest % 16 = 0 →
        u.readLocal (attnDesc desc).qaddr (4 * (attnDesc desc).d) = .ok (w, query) → w.cc.roomFor true true = true →
        w.handle false va = .ok ps →
        exec i s = .next (pastEntered i s
          (w.entered i true true (.op (.sqattn (reachAddr (.ok ps)) desc query (ten == 1#1) tag.toNat)) ps [] none)))

/-! ## Vectors and streams -/

/-- R191, R214, R215: what the sources and destinations of a vector instruction are. A register or the oldest entry of an
`fd` queue is a source at once; a read stream gives its next unit, zeros with OVR past its end, and the trap of a marked
unit; a destination takes the result whole, `bk` its bits 63:0, a write stream while it has a place. A read of a write
stream, and the other way round, is QFAULT; a stream that has nothing to give, or no place, stalls. An instruction takes nothing
before every stream that it names can serve it (R191). That C waits at a stream for the `sadv` and `sunbind` with NOW that
precede, and where its units are spent, or it is of the other kind, for a `sunbind` that precedes and the binding after it, is
the model's reading of R214 to R217, log 38. -/
def Obligations.VectorOperands : Prop :=
  (∀ (s : State) (srcs : List VSrc) (l : List Vec), srcs.map (plainSrc s) = l.map some → s.takeSrcs [] srcs = .ok (s, l)) ∧
  (∀ (s : State) (v : Vec),
    (∀ n, ∃ t, s.putDst (.v n) v = .ok t ∧ t.rv n = v ∧ ∀ r, r ≠ n → t.rv r = s.rv r) ∧
    (∀ n, s.putDst (.dn n) v = .ok (s.modMe fun c => c.pushDn n.toNat v)) ∧
    (∀ n, s.putDst (.bk n) v = .ok (s.modMe fun c => c.pushBk n.toNat (v.setWidth 64)))) ∧
  (∀ (s : State) (n : BitVec 4),
    let z := s.streamHere n
    (¬s.meets n → s.takeSrcs [] [.z n] = .error (s.streamStall n.toNat)) ∧
    (s.meets n → z.write = true → s.rebinding n.toNat = false → s.takeSrcs [] [.z n] = .error (.trap .qfault 0 0 s)) ∧
    (s.meets n → z.write = false → z.total ≤ z.done → s.rebinding n.toNat = false →
      s.takeSrcs [] [.z n] = .ok (s.setStream n.toNat { z with ovr := true }, [0])) ∧
    (s.meets n → z.write = true ∨ z.total ≤ z.done → s.rebinding n.toNat = true →
      s.takeSrcs [] [.z n] = .error (s.streamStall n.toNat)) ∧
    (s.meets n → z.write = false → z.done < z.total → z.buf = [] → s.takeSrcs [] [.z n] = .error (s.streamStall n.toNat)) ∧
    (∀ b r, s.meets n → z.write = false → z.done < z.total → z.buf = b :: r → b.mark = none →
      s.takeSrcs [] [.z n] = .ok (s.setStream n.toNat { z with buf := r, done := z.done + 1 }, [b.val])) ∧
    (∀ b r c a, s.meets n → z.write = false → z.done < z.total → z.buf = b :: r → b.mark = some (c, a) →
      s.takeSrcs [] [.z n] = .error (.stay (s.raise s.me { code := c, eng := .c, pc := s.ce.pc, addr := a, info := b.u,
                                                           clock := s.clock, qent := true })))) ∧
  (∀ (s : State) (n : BitVec 4) (v : Vec),
    let z := s.streamHere n
    (¬s.meets n → s.putDst (.z n) v = .error (s.streamStall n.toNat)) ∧
    (s.meets n → z.write = false → s.rebinding n.toNat = false → s.putDst (.z n) v = .error (.trap .qfault 0 0 s)) ∧
    (s.meets n → z.write = true → z.total ≤ z.done → s.rebinding n.toNat = false →
      s.putDst (.z n) v = .ok (s.setStream n.toNat { z with ovr := true })) ∧
    (s.meets n → z.write = false ∨ z.total ≤ z.done → s.rebinding n.toNat = true →
      s.putDst (.z n) v = .error (s.streamStall n.toNat)) ∧
    (s.meets n → z.write = true → z.done < z.total → 8 ≤ z.buf.length → s.putDst (.z n) v = .error (s.streamStall n.toNat)) ∧
    (s.meets n → z.write = true → z.done < z.total → z.buf.length < 8 → s.putDst (.z n) v =
      .ok (s.setStream n.toNat
        { z with buf := z.buf ++ [{ u := z.done, val := v, pos := s.pos }], done := z.done + 1, moved := true }))) ∧
  ∀ (s : State) (d : Option VDst) (srcs : List VSrc),
    (s.operandsOpen d srcs = .ok () ↔
      (∀ n : BitVec 4, VSrc.z n ∈ srcs → ∃ z b, s.openRead n.toNat = .ok (z, b)) ∧
      ∀ n : BitVec 4, d = some (.z n) → ∃ z, s.openWrite n.toNat = .ok z) ∧
    (∀ r, s.operandsOpen d srcs = .error r →
      (∃ n : BitVec 4, VSrc.z n ∈ srcs ∧ s.openRead n.toNat = .error r) ∨
      ∃ n : BitVec 4, d = some (.z n) ∧ s.openWrite n.toNat = .error r)

/-- R190-R208: every instruction with a vector destination executes to its end with the vector that the tables give, where its
operands can be taken and its result passed on; a compact form is the full form that its fields name; an operand that stalls or
traps leaves nothing else done. That U has no effect on `vshr` and `vsra` (log 16), the intermediate values of the functions of
R198 (log 17) the flushed scale of `vdqnt` (log 92) and the events and modes of conversions where R89 to R94 leave them open
(logs 91, 97, 98 and 136) are the model's readings. -/
def Obligations.VectorResults : Prop :=
  (∀ (i : Instr) (s : State) (d : VDst) (srcs : List VSrc) (f : List Vec → Vec), vectorRule i s = some (d, srcs, f) →
    wellFormed i = true → Ready s i →
    (∀ w t, s.operandsOpen (some d) srcs = .error (.stall w t) → exec i s = .next (s.stallHere w)) ∧
    (∀ c a x t, s.operandsOpen (some d) srcs = .error (.trap c a x t) → exec i s = .next (s.trapHere c a x)) ∧
    (s.operandsOpen (some d) srcs = .ok () →
      (∀ t l u, s.takeSrcs [] srcs = .ok (t, l) → t.putDst d (f l) = .ok u → exec i s = .next (past i s u)) ∧
      ∀ t, s.takeSrcs [] srcs = .error (.stay t) → exec i s = .next t)) ∧
  ∀ (i j : Instr) (s : State), fullForm i = some j → exec i s = exec j s

/-- R194, R195, R197, R205: a vector compare gives all-ones or zero for each element, and with PE the OR of them in its
predicate; `vext` gives an element to an x register of C, extended by its sign or by zeros. Where a stream that they name cannot
serve them they stall, or trap, and nothing else is done. -/
def Obligations.VectorComparesAndExtracts : Prop :=
  (∀ (i : Instr) (s t u : State) (d : VDst) (a b : VSrc) (w : Nat) (pe : BitVec 1) (pd : BitVec 3) (f : Nat → Nat → Bool)
    (l : List Vec), compareRule i = some (d, a, b, w, pe, pd, f) → Ready s i →
    s.operandsOpen (some d) [a, b] = .ok () → s.takeSrcs [] [a, b] = .ok (t, l) →
    let hit (j : Nat) : Bool := f (vEl w (l.getD 0 0) j) (vEl w (l.getD 1 0) j)
    t.putDst d (vFrom w fun j => if hit j then 2 ^ w - 1 else 0) = .ok u →
    exec i s = .next (past i s (if pe = 1 then u.wp pd ((List.range (1024 / w)).any hit) else u))) ∧
  (∀ (s t : State) (m : Mods) (d : Reg) (a : VSrc) (k : BitVec 8) (sx : BitVec 1) (w : Width) (l : List Vec),
    let n := 8 * widthBytes w
    let e := if k.toNat < 1024 / n then vEl n (l.getD 0 0) k.toNat else 0
    Ready s (.vext m d a k sx w) → s.operandsOpen none [a] = .ok () → s.takeSrcs [] [a] = .ok (t, l) →
    exec (.vext m d a k sx w) s = .next (past (.vext m d a k sx w) s
      (t.wx d (if sx = 1 then quad (signed n e) else quadN e)))) ∧
  ∀ (i : Instr) (s : State) (d : Option VDst) (srcs : List VSrc), Ready s i →
    ((∃ m e a k sx w, i = .vext m e a k sx w ∧ d = none ∧ srcs = [a]) ∨
      ∃ e a b w pe pd f, compareRule i = some (e, a, b, w, pe, pd, f) ∧ d = some e ∧ srcs = [a, b]) →
    (∀ w t, s.operandsOpen d srcs = .error (.stall w t) → exec i s = .next (s.stallHere w)) ∧
    ∀ c x y t, s.operandsOpen d srcs = .error (.trap c x y t) → exec i s = .next (s.trapHere c x y)

/-- R209-R219: `sbind` binds a stream to the descriptor at its address; `sbop` sets its chain before a unit has moved;
`sadv` notes a skip at its place; `sunbind` unbinds a stream whose units are done, and waits otherwise; `sstat` reads its
word. A stream that is not the engine's own, or a descriptor or chain that R209 and R211 do not admit, is QFAULT. That `sunbind`
with NOW waits, on a write stream, until what C wrote before has been stored is the model's reading of R213, log 38. -/
def Obligations.StreamInstructions : Prop :=
  ∀ (s : State) (m : Mods) (z : BitVec 4) (a d : Reg) (k : BitVec 16) (now : BitVec 1),
    let n := z.toNat
    let q := s.stream n
    let own := q.bound = true ∧ q.write = (s.cur.eng == .s)
    let va := (s.rx a + 0 + quad (immS 16 k.toNat m)).toNat
    (Ready s (.sbind m z a k) →
      (q.bound = true ∨ va % 64 ≠ 0 → exec (.sbind m z a k) s = .next (s.trapHere .qfault)) ∧
      (∀ u bs, q.bound = false → va % 64 = 0 → s.readLocal va 64 = .ok (u, bs) →
        (streamOf (leNat bs) (rmOfRound u.cc.round) = none → exec (.sbind m z a k) s = .next (u.trapHere .qfault)) ∧
        (∀ y, streamOf (leNat bs) (rmOfRound u.cc.round) = some y → exec (.sbind m z a k) s =
          .next (past (.sbind m z a k) s (u.setStream n
            { y with write := u.cur.eng == .s, pos := u.pos, gate := u.ce.issues + 1 }))))) ∧
    (Ready s (.sbop m z a) →
      (¬own ∨ q.moved = true ∨ chainOf (s.rx a) = none → exec (.sbop m z a) s = .next (s.trapHere .qfault)) ∧
      (∀ c, own → q.moved = false → chainOf (s.rx a) = some c → exec (.sbop m z a) s = .next (past (.sbop m z a) s
        (s.setStream n { q with chain := c, gate := if q.gate = s.ce.issues then s.ce.issues + 1 else q.gate })))) ∧
    (Ready s (.sadv m z a) →
      (¬own → exec (.sadv m z a) s = .next (s.trapHere .qfault)) ∧
      (own → exec (.sadv m z a) s = .next (past (.sadv m z a) s
        ((s.setStream n { q with skips := q.skips ++ [{ pos := s.pos, n := (s.rx a).toNat }] }).settleSkips s.me n)))) ∧
    (Ready s (.sunbind m z now) →
      (¬own → exec (.sunbind m z now) s = .next (s.trapHere .qfault)) ∧
      (own → now = 0 → s.canUnbind s.me n s.cur.eng s.pos = true →
        exec (.sunbind m z now) s = .next (past (.sunbind m z now) s (s.modMe fun c => c.unbind n))) ∧
      (own → now = 0 → s.canUnbind s.me n s.cur.eng s.pos = false →
        exec (.sunbind m z now) s = .next (s.retireWait (formOf (.sunbind m z now) s) (.sunbind n s.pos))) ∧
      (own → now = 1 → (q.write = true → q.buf = [] ∧ (s.unissued s.me s.cur.eng .c s.pos).any (decNames n) = false) →
        exec (.sunbind m z now) s = .next (past (.sunbind m z now) s (s.modMe fun c => c.unbind n))) ∧
      (own → now = 1 → q.write = true → q.buf ≠ [] ∨ (s.unissued s.me s.cur.eng .c s.pos).any (decNames n) = true →
        exec (.sunbind m z now) s = .next (s.stallHere (if s.streamComes s.me q then .stream else .queue)))) ∧
    (Ready s (.sstat m d z) →
      let u := s.settleSkips s.me n
      let y := u.stream n
      exec (.sstat m d z) s = .next (past (.sstat m d z) s (u.wx d
        (quadN ((if y.bound = false then 0 else if y.write then 2 else 1) * 2 ^ 62 + (if y.ovr then 2 ^ 61 else 0) +
          (if y.pois then 2 ^ 60 else 0) + (if y.bound then (y.total - y.done) % 2 ^ 48 else 0))))))

/-! ## Lanes, matrix engines and transfers -/

/-- R220-R232: a lane macro with a target word outside its group is PROT; after a deferred fault of a target lane it traps
with that fault; operands outside their limits fault with the code that the macro's rule gives; where every target queue has
a place it goes to them all, `lfence` then waiting, and otherwise C stalls; it enters a queue at once where the schedule does
not hold it and no macro of its context is on its way there before it. `lstat` reads the word of its one lane. -/
def Obligations.LaneMacrosEnter : Prop :=
  (∀ (i : Instr) (s : State) (a : Reg), laneTarget i = some a → Ready s i →
    (s.targets (s.rx a) = none → exec i s = .next (s.trapHere .prot)) ∧
    ∀ g ls, s.targets (s.rx a) = some (g, ls) →
      (∀ d, s.deferred s.me (laneUnits ls) = some d → exec i s = .next (s.raiseDeferred s.me d)) ∧
      (s.deferred s.me (laneUnits ls) = none →
        (∀ c x, laneRule i s g ls = some (.error (c, x)) → exec i s = .next (s.trapHere c x)) ∧
        ∀ u mk, laneRule i s g ls = some (.ok (u, mk)) →
          let v := u.pushMacro ls mk
          let room (p : Nat × Nat) : Nat := (s.lane p.2).q.length + (s.lane p.2).flight.length
          ((∃ p ∈ ls, 64 ≤ room p) → exec i s = .next (s.stallHere .unit)) ∧
          ((∀ p ∈ ls, room p < 64) → exec i s = .next (
            match i with
            | .lfence .. => v.retireWait (formOf i s) (.lfence (ls.map (·.2)) s.cc.nextId)
            | _ => if v.macroFlying s.me s.cc.nextId then pastEntered i s v else past i s v)) ∧
          ((ls.map (·.2)).Nodup → ∀ p ∈ ls,
            let l := s.lane p.2
            let e : LaneEnt := { ctx := s.me, taskid := s.cc.taskid, pos := s.pos, cmd := mk p.1, id := s.cc.nextId }
            v.lane p.2 = if s.cur.hold = true ∨ (∃ f ∈ l.flight, f.ctx = s.me) then { l with flight := l.flight ++ [e] }
              else l.enter e))) ∧
  (∀ (s : State) (w : Quad),
    let g := bits w.toNat 29 26
    let n := bits w.toNat 25 16
    let first := bits w.toNat 9 0
    let b := s.cr.trellis.getD g {}
    s.targets w = if s.cur.core ∈ b.core ∧ n ≠ 0 ∧ first + n ≤ b.lane.length
      then some (g, (List.range n).map fun k => (first + k, b.lane.getD (first + k) 0)) else none) ∧
  (∀ (s : State) (m : Mods) (d a : Reg), Ready s (.lstat m d a) →
    ((∀ g p, s.targets (s.rx a) ≠ some (g, [p])) → exec (.lstat m d a) s = .next (s.trapHere .prot)) ∧
    ∀ g p, s.targets (s.rx a) = some (g, [p]) →
      (∀ e, s.deferred s.me (· == .lane p.2) = some e → exec (.lstat m d a) s = .next (s.raiseDeferred s.me e)) ∧
      (s.deferred s.me (· == .lane p.2) = none →
        exec (.lstat m d a) s = .next (past (.lstat m d a) s (s.wx d (s.laneWord p.2)))))

/-- R222-R224, R241-R247: a matrix instruction on an engine that no group of the core binds is PROT, and one after a deferred
fault of the engine traps with it; a queued command enters the queue with its semaphores, or faults on the operands that its
rule does not admit, or waits for a place; `msem` reads, adds to and takes from a count at once, but that the command at the
head of the queue, where it waits on the count and can proceed, is served before a wait of C. -/
def Obligations.MatrixInstructions : Prop :=
  ∀ (s : State),
    let n := s.cur.core - 64
    let e := s.mat n
    let bound := ∃ g ∈ coreGroups s.cr s.cur.core, n ∈ (s.cr.trellis.getD g.1 {}).matrix
    let clear := bound ∧ s.deferred s.me (· == .mat n) = none
    (∀ i, instrOnHub i = true → Ready s i →
      (¬bound → exec i s = .next (s.trapHere .prot)) ∧
      (∀ d, bound → s.deferred s.me (· == .mat n) = some d → exec i s = .next (s.raiseDeferred s.me d)) ∧
      (∀ c x, clear → matRule i s = some (.error (c, x)) → exec i s = .next (s.trapHere c x)) ∧
      (∀ cmd, clear → matRule i s = some (.ok cmd) → 16 ≤ e.q.length → exec i s = .next (s.stallHere .unit)) ∧
      (∀ cmd, clear → matRule i s = some (.ok cmd) → e.q.length < 16 → exec i s = .next (past i s (s.setMat n
        { e with q := e.q ++ [{ ctx := s.me, taskid := s.cc.taskid, pos := s.pos, pol := s.cc.pol, part := s.cc.part,
                                asid := s.cc.asid, wsem := (matSems i).1, ssem := (matSems i).2, cmd := cmd }] })))) ∧
    (∀ (m : Mods) (k : BitVec 4) (c : BitVec 12) (d : Reg), clear →
      let sem := tget 0 e.sems k.toNat
      let left := match s.matHead n with | some h => if h.begun = false ∧ h.wsem = some k.toNat then sem - 1 else sem | none => sem
      (Ready s (.msemSig m k c) → exec (.msemSig m k c) s = .next (past (.msemSig m k c) s
        (s.setMat n { e with sems := tput e.sems k.toNat (min 65535 (sem + c.toNat)) }))) ∧
      (Ready s (.msemWait m k c) → c.toNat ≤ left → exec (.msemWait m k c) s = .next (past (.msemWait m k c) s
        ((s.setMat n { e with sems := tput e.sems k.toNat (min 65535 (sem - c.toNat)) }).acquireAt s.me .device))) ∧
      (Ready s (.msemWait m k c) → left < c.toNat → exec (.msemWait m k c) s =
        .next (s.retireWait (formOf (.msemWait m k c) s) (.msem k.toNat c.toNat))) ∧
      (Ready s (.msemRd m d k) → exec (.msemRd m d k) s = .next (past (.msemRd m d k) s (s.wx d (quadN sem)))) ∧
      (Ready s (.msemSt m d) → exec (.msemSt m d) s = .next (past (.msemSt m d) s
        ((s.setMat n { e with layc := 0, fmtc := 0, poisc := 0 }).wx d (quadN
          (e.q.length % 32 * 2 ^ 59 + (match e.q with | h :: _ => if h.begun then 2 ^ 58 else 0 | [] => 0) +
            min 255 e.layc * 2 ^ 40 + min 255 e.fmtc * 2 ^ 32 + e.poisc % 2 ^ 16 * 2 ^ 16 + e.done % 2 ^ 16))))))

/-- R249-R261: a transfer or column-reduce command traps with a deferred fault of its queue, waits for a place, faults with
QFAULT on a descriptor that is not on 64 bytes or that its format does not admit, with the code of the checks of its region,
scratchpad and barrier, and otherwise enters the queue of its engine with its descriptor and the next number of that engine; a
page of the barrier that no TLB holds stalls. The order of the faults (log 15), the fields that `xfill` reads (log 46), the
destination space of `xring` (log 47) the pairs of formats (log 106) and the reserved bits of unused dimensions (log 134) are
the model's readings. -/
def Obligations.TransferCommandsEnter : Prop :=
  ∀ (i : Instr) (s : State) (k : XKind) (m : Mods) (a b : Reg) (ren ten : BitVec 1) (tag : BitVec 6),
    xferForm i = some (k, m, a, b, ren, ten, tag) → Ready s i →
    let va := (s.rx a).toNat
    let r := ren == 1#1
    let unit : DUnit := if s.cur.eng = .l then .xl else .xs
    let entered (u : State) (x : Option Xfer) : Prop :=
      (x = none → exec i s = .next (u.trapHere .qfault va)) ∧
      ∀ y, x = some y →
        (∀ c, u.xferCheck y r = .error c → exec i s = .next (u.trapHere c va)) ∧
        (∀ y1 bar, u.xferCheck y r = .ok y1 → u.barrierOf b = .ok bar →
          exec i s = .next (past i s (u.enteredXfer i y1 ren ten tag bar (u.rx b).toNat))) ∧
        (∀ y1, u.xferCheck y r = .ok y1 →
          (b = 0 → u.barrierOf b = .ok none) ∧
          (∀ c x, b ≠ 0 → u.checked .g true 16 (u.rx b).toNat 16 = .fault c x → exec i s = .next (u.trapHere c x)) ∧
          ∀ x, b ≠ 0 → u.checked .g true 16 (u.rx b).toNat 16 = .miss x →
            exec i s = .next (({ s with miss := (u.enterMiss u.me u.cur.eng x).miss } : State).stallHere .tlb))
    (∀ d, s.deferred s.me (· == unit) = some d → exec i s = .next (s.raiseDeferred s.me d)) ∧
    (s.deferred s.me (· == unit) = none →
      (s.cc.roomFor (s.cur.eng == .l) (s.cur.eng != .l) = false → exec i s = .next (s.stallHere .memq)) ∧
      (s.cc.roomFor (s.cur.eng == .l) (s.cur.eng != .l) = true →
        (va % 64 ≠ 0 → exec i s = .next (s.trapHere .qfault va)) ∧
        (va % 64 = 0 → k ≠ .creq → ∀ u h, s.readLocal va 256 = .ok (u, h) →
          entered u (xferOf k r (rmOfRound u.cc.round) (leNat h))) ∧
        (va % 64 = 0 → k = .creq → ∀ u w h l, s.readLocal va 64 = .ok (u, h) →
          u.readLocal (va + 64) (4 * (bits (leNat h) 293 289 + 1)) = .ok (w, l) → entered w (creqOf r (leNat h) l))))

/-! ## The prefix table, scheduling and translations -/

/-- R292-R294, R297: the operations on the prefix table of a partition, each with its status and value: a hash of tokens, the
deepest match and its pin, the handle and the span of an entry, an insertion, a deletion and an unpin. That SHA-256 is that of
FIPS 180-4 is presumed, log 18; that the salt enters as its 32 bytes, lowest first (log 19), the order of the reasons for which
an insertion is refused (log 57), and that one that changes a control block stalls until it has headroom (log 119) are the
model's choices. -/
def Obligations.PrefixTableOperations : Prop :=
  ∀ (s : State) (m : Mods) (d a b c : Reg),
    let tab := (s.partn s.cc.part).prefixes
    let entry : Option PfxEnt := if 63 < (s.rx a).toNat then none else tfind tab (s.rx a).toNat
    let n := (s.rx a).toNat
    let use (u : State) (i : Nat) (e : PfxEnt) : State := u.modPart s.cc.part fun p =>
      { p with prefixes := tput p.prefixes i e, recency := p.recency.filter (· != i) ++ [i] }
    let done (i : Instr) (u : State) (status value : Nat) : Prop := exec i s = .next (past i s (u.wx d (resultQuad status value)))
    (Ready s (.pfxh m d a b) →
      ((s.rx b).toNat % 4 ≠ 0 → exec (.pfxh m d a b) s = .next (s.trapHere .align (s.rx b).toNat)) ∧
      (∀ u toks, (s.rx b).toNat % 4 = 0 → s.readLocal (s.rx b).toNat 64 = .ok (u, toks) →
        exec (.pfxh m d a b) s = .next (past (.pfxh m d a b) s (u.wx d (quadN (leNat ((sha256
          (leBytes 32 u.cr.salt.toNat ++ leBytes 8 (u.rx a).toNat ++ toks)).take 8))))))) ∧
    (Ready s (.pfxl m d a b) →
      (n % 8 ≠ 0 → exec (.pfxl m d a b) s = .next (s.trapHere .align n)) ∧
      (n % 8 = 0 → (s.rx b).toNat = 0 ∨ 64 < (s.rx b).toNat → done (.pfxl m d a b) s 8 0) ∧
      (∀ u bs, n % 8 = 0 → (s.rx b).toNat ≠ 0 → (s.rx b).toNat ≤ 64 → s.readLocal n (8 * (s.rx b).toNat) = .ok (u, bs) →
        let t := (u.partn s.cc.part).prefixes
        let hash (j : Nat) : Quad := quadN (leNat ((bs.drop (8 * j)).take 8))
        ((∀ j, j < (s.rx b).toNat → ∀ p ∈ t, ¬(p.2.hash = hash j ∧ p.2.depth = j + 1)) → done (.pfxl m d a b) u 0 0) ∧
        (∀ j i e, j < (s.rx b).toNat → t.find? (fun p => p.2.hash == hash j && p.2.depth == j + 1) = some (i, e) →
          (∀ k, j < k → k < (s.rx b).toNat → ∀ p ∈ t, ¬(p.2.hash = hash k ∧ p.2.depth = k + 1)) →
          (e.pins = 65535 → done (.pfxl m d a b) u 2 0) ∧
          (e.pins ≠ 65535 → done (.pfxl m d a b) (use u i { e with pins := e.pins + 1 }) 0 (i * 256 + e.depth))))) ∧
    (Ready s (.pfxlH m d a) →
      (entry = none → done (.pfxlH m d a) s 8 0) ∧ (∀ e, entry = some e → done (.pfxlH m d a) s 0 e.handle)) ∧
    (Ready s (.pfxlS m d a) →
      (entry = none → done (.pfxlS m d a) s 8 0) ∧ (∀ e, entry = some e → done (.pfxlS m d a) s 0 (e.depth * 2 ^ 40 + e.base))) ∧
    (Ready s (.pfxi m d a b c) → ∀ ps, s.handle false (s.rx b).toNat = .ok ps →
      let scb := reachAddr (.ok ps)
      let depth := bits (s.rx c).toNat 47 40
      let base := bits (s.rx c).toNat 39 0
      let q := s.seq scb
      let same := tab.find? fun p => p.2.hash == s.rx a && p.2.depth == depth
      (depth = 0 ∨ 64 < depth → done (.pfxi m d a b c) s 8 0) ∧
      (0 < depth → depth ≤ 64 → q.live = false → done (.pfxi m d a b c) s 7 0) ∧
      (∀ p, 0 < depth → depth ≤ 64 → q.live = true → same = some p → done (.pfxi m d a b c) s 10 p.1) ∧
      (0 < depth → depth ≤ 64 → q.live = true → same = none →
        q.pin = 65535 ∨ pfxPlace (s.partn s.cc.part) = none → done (.pfxi m d a b c) s 2 0) ∧
      (∀ i u, 0 < depth → depth ≤ 64 → q.live = true → same = none → q.pin ≠ 65535 → pfxPlace (s.partn s.cc.part) = some i →
        s.pinRoom s.cc.part (((tfind tab i).map (·.scb)).toList ++ [scb]) = some u →
        let w := match tfind tab i with | some e => u.unpinSeq e.scb | none => u
        let x := w.pinSeq scb
        let e : PfxEnt := { hash := s.rx a, depth := depth, handle := (s.rx b).toNat, scb := scb, base := base, pins := 0 }
        done (.pfxi m d a b c) (use x i e) 0 i)) ∧
    (Ready s (.pfxd m d a) →
      (entry = none → done (.pfxd m d a) s 8 0) ∧ (∀ e, entry = some e → 0 < e.pins → done (.pfxd m d a) s 2 0) ∧
      (∀ e u, entry = some e → e.pins = 0 → s.pinRoom s.cc.part [e.scb] = some u → done (.pfxd m d a)
        ((u.unpinSeq e.scb).modPart s.cc.part fun p =>
          { p with prefixes := tdel p.prefixes n, recency := p.recency.filter (· != n) }) 0 n)) ∧
    (Ready s (.pfxdU m d a) →
      (entry = none → done (.pfxdU m d a) s 8 0) ∧ (∀ e, entry = some e → e.pins = 0 → done (.pfxdU m d a) s 8 0) ∧
      (∀ e, entry = some e → 0 < e.pins → done (.pfxdU m d a)
        (s.modPart s.cc.part fun p => { p with prefixes := tput p.prefixes n { e with pins := e.pins - 1 } }) 0 (e.pins - 1)))

/-- R316-R322, R327, R328: the scheduling instructions, each with its status and value: a child entered in the launch queue
or the pending store, a child reaped or waited for, a quantity of a region, an item taken or pushed, a list item appended or
taken, and the wait of `quies`. That `spush` reserves the slot of its item and the headroom of its lines as it performs is the
model's choice, log 118. -/
def Obligations.SchedulingInstructions : Prop :=
  ∀ (s : State) (m : Mods) (d a b : Reg) (k : BitVec 5),
    let r := s.cr
    let id := s.cc.regid
    let va := (s.rx a).toNat
    let vb := (s.rx b).toNat
    let done (i : Instr) (u : State) (status value : Nat) : Prop := exec i s = .next (past i s (u.wx d (resultQuad status value)))
    (Ready s (.launch m d a b) →
      let l : Launch := { regid := s.nextReg, rcb := va, seed := vb, part := s.cc.part, asid := s.cc.asid, parent := some id, tag := 0,
                          priv := s.cc.priv, since := s.clock }
      let ok := va % 128 = 0 ∧ vb ≤ 65535 ∧ r.rcb.lslots ≠ 0
      let busy := s.modRegion id fun g => { g with lbusy := g.lbusy + 1 }
      (va % 128 ≠ 0 → exec (.launch m d a b) s = .next (s.trapHere .align va)) ∧
      (va % 128 = 0 → 65535 < vb ∨ r.rcb.lslots = 0 → done (.launch m d a b) s 8 0) ∧
      (ok → 64 ≤ r.ends.length → done (.launch m d a b) busy 2 0) ∧
      (ok → r.ends.length < 64 → r.launchq.length < 16 → done (.launch m d a b)
        { s.modRegion id (fun g => { g with launchq := g.launchq ++ [l] }) with nextReg := s.nextReg + 1 } 0 s.nextReg) ∧
      (∀ u, ok → r.ends.length < 64 → 16 ≤ r.launchq.length → s.storeOpen r = true →
        let i := s.storeSlot r
        s.heldWrite r (storeEntry l) (lineParts (r.rcb.plstore + 16 * i) 16) = .ok u →
        let w := u.modRegion (u.ownerOf bitPlstore id) fun g => { g with plHead := (i + 1) % r.rcb.plse }
        done (.launch m d a b) { w.modRegion id (fun g => { g with pending := g.pending ++ [{ l with entry := i }] }) with
          nextReg := w.nextReg + 1 } 0 (2 ^ 32 + s.nextReg)) ∧
      (ok → r.ends.length < 64 → 16 ≤ r.launchq.length → s.storeOpen r = false → done (.launch m d a b) busy 2 0)) ∧
    (Ready s (.lwait m d a) →
      (r.yieldAt s.ce.pc = none → exec (.lwait m d a) s = .next (s.trapHere .qfault)) ∧
      (∀ e, r.yieldAt s.ce.pc ≠ none → r.childOf va = .ended e →
        done (.lwait m d a) ((s.modRegion id fun g => g.reap e.regid).l1DropAll s.cur.core) 0 e.value) ∧
      (r.yieldAt s.ce.pc ≠ none → r.childOf va = .going → exec (.lwait m d a) s =
        .next ((s.modMe fun c => { c with saveBad := 0 }).retireWait (formOf (.lwait m d a) s) (.lwait d va))) ∧
      (r.yieldAt s.ce.pc ≠ none → r.childOf va = .unknown → done (.lwait m d a) s 8 0)) ∧
    (Ready s (.lpoll m d a) →
      (∀ e, r.childOf va = .ended e →
        done (.lpoll m d a) ((s.modRegion id fun g => g.reap e.regid).l1DropAll s.cur.core) 0 e.value) ∧
      (r.childOf va = .going → done (.lpoll m d a) s 1 0) ∧ (r.childOf va = .unknown → done (.lpoll m d a) s 8 0)) ∧
    (Ready s (.rcbq m d a k) →
      (14 ≤ k.toNat → exec (.rcbq m d a k) s = .next (s.trapHere .illop)) ∧
      (k.toNat < 14 → a = 0 → done (.rcbq m d a k) s 0 (s.regionQuery r k.toNat)) ∧
      (k.toNat < 14 → a ≠ 0 → r.childOf va = .unknown → done (.rcbq m d a k) s 8 0) ∧
      (k.toNat < 14 → a ≠ 0 → r.childOf va ≠ .unknown → (s.region va).regid = va →
        done (.rcbq m d a k) s 0 (s.regionQuery (s.region va) k.toNat)) ∧
      (k.toNat < 14 → a ≠ 0 → r.childOf va ≠ .unknown → (s.region va).regid ≠ va →
        done (.rcbq m d a k) s (if k = 0 ∨ k = 12 then 0 else 1) (if k = 0 then va else if k = 12 then id else 0))) ∧
    (Ready s (.spop m d) →
      let n := s.cc.stage
      (15 ≤ s.cc.pops.length → done (.spop m d) s 2 0) ∧
      (s.cc.pops.length < 15 → oldestItem (r.queue n) = none → done (.spop m d) s 4 0) ∧
      (∀ q, s.cc.pops.length < 15 → oldestItem (r.queue n) = some q →
        let u := s.modRegion id fun g => g.setQueue n (setItem (g.queue n) q.slot fun x => { x with st := .running s.me })
        let v := u.modMe fun c => { c with pops := c.pops ++ [{ slot := q.slot, attempt := q.attempt }] }
        done (.spop m d) (v.l1DropAll s.cur.core) 0 (r.slotVa n q.slot))) ∧
    (Ready s (.spush m d a b) →
      (va % 16 ≠ 0 → exec (.spush m d a b) s = .next (s.trapHere .align va)) ∧
      (va % 16 = 0 → 7 < vb ∨ (r.stage s.cc.stage).outmask.testBit vb = false →
        exec (.spush m d a b) s = .next (s.trapHere .prot va)) ∧
      (∀ u bs, va % 16 = 0 → vb ≤ 7 → (r.stage s.cc.stage).outmask.testBit vb = true →
        s.readLocal va (r.stage vb).itemBytes = .ok (u, bs) →
        (u.pushSlot vb u.cur.pick = none ∨ (r.stage vb).depth ≤ r.occupancy vb ∨ 64 ≤ u.cc.pushes.length →
          done (.spush m d a b) u 2 0) ∧
        (∀ i w, u.pushSlot vb u.cur.pick = some i → r.occupancy vb < (r.stage vb).depth → u.cc.pushes.length < 64 →
          let p : Push := { stage := vb, slot := i, data := bs }
          u.reservePush r.part (r.pushLines p) = .ok w → done (.spush m d a b)
            ((w.modRegion w.cc.regid fun g => { g with reserved := tmod 0 g.reserved vb (· + 1) }).modMe
              fun c => { c with pushes := c.pushes ++ [p] }) 0 0))) ∧
    (Ready s (.wlapp m d a b) →
      (63 < va → done (.wlapp m d a b) s 8 0) ∧
      (va ≤ 63 → 4096 ≤ (tget [] r.lists va).length + tget 0 r.listRes va → done (.wlapp m d a b) s 2 0) ∧
      (va ≤ 63 → (tget [] r.lists va).length + tget 0 r.listRes va < 4096 → done (.wlapp m d a b)
        ((s.modRegion id fun g => { g with listRes := tmod 0 g.listRes va (· + 1) }).modMe
          fun c => { c with apps := c.apps ++ [(va, (s.rx b).setWidth 56)] }) 0 0)) ∧
    (Ready s (.wltake m d a) →
      (63 < va → done (.wltake m d a) s 8 0) ∧ (va ≤ 63 → tget [] r.lists va = [] → done (.wltake m d a) s 4 0) ∧
      (∀ w l, va ≤ 63 → tget [] r.lists va = w :: l → done (.wltake m d a)
        ((s.modRegion id fun g => { g with lists := tput g.lists va l, listRes := tmod 0 g.listRes va (· + 1) }).modMe
          fun c => { c with takes := c.takes ++ [(va, w)] }) 0 w.toNat)) ∧
    (Ready s (.quies m d a) → exec (.quies m d a) s =
      .next (s.retireWait (formOf (.quies m d a) s) (.quies d (s.rx a) s.clock)))

/-- R344: the instructions on translations fault with PROT in a task that is not privileged, wait for the earlier accesses of
the task, and then remove the entries that they name from every TLB and miss table, or set the partition and the ASID of the
context; what the task has issued that follows them translates again, or is of the new address space. That the instruction
itself waits for the earlier accesses (log 62), the transfers among them (log 117), is the model's reading. -/
def Obligations.TranslationInstructions : Prop :=
  ∀ (s : State) (a b : Reg),
    let asid := bits (s.rx a).toNat 11 0
    let part := bits (s.rx a).toNat 19 16
    let va := (s.rx b).toNat
    let priv (i : Instr) (u : State) : Prop := Ready s i →
      (s.cc.priv = false → exec i s = .next (s.trapHere .prot)) ∧
      (s.cc.priv = true → s.earlierDone = false → exec i s = .next (s.stallHere .order)) ∧
      (s.cc.priv = true → s.earlierDone = true → exec i s = .next (past i s u))
    let remove (p : TlbEnt → Bool) (q : Miss → Bool) : State :=
      { s.retarget s.cc.part s.cc.asid with
        cores := (s.retarget s.cc.part s.cc.asid).cores.map fun c => (c.1, { c.2 with tlb := c.2.tlb.filter fun e => !p e }),
        ctlb := s.ctlb.map fun c => (c.1, c.2.filter fun e => !p e),
        dtlb := s.dtlb.map fun c => (c.1, c.2.filter fun e => !p e),
        miss := s.miss.map fun c => (c.1, c.2.filter fun x => !q x) }
    priv (.tlbinvPg a b) (remove (tlbCovers part asid va) fun x => x.part == part && x.asid == asid && x.page == va / 8192) ∧
    priv (.tlbinvAs a) (remove (fun e => e.part == part && e.asid == asid) fun x => x.part == part && x.asid == asid) ∧
    priv .tlbinvAll (remove (fun e => e.part == s.cc.part) fun x => x.part == s.cc.part) ∧
    priv (.asset a) ((s.retarget part asid).modMe fun c => { c with part := part, asid := asid })

/-- R23, R183, R217, R342, R344, R347: `tret` claims a trap of its region for an action at the commit of its task; an engine
at `tend` waits for the others, the last one trapping where a queue, a token or a stream is left; `yield` only goes on,
except where it stops its engine. X gives up an open single-line region at both. That no other engine gives it up (log 33), that
the QFAULT is reported on the engine whose `tend` comes last and reserved places of a token FIFO count as entries (log 59), and
that a claim replaces the task's own earlier one (log 61) are the model's readings. -/
def Obligations.EndsOfATask : Prop :=
  ∀ (s : State) (m : Mods) (d a b : Reg),
    let own (u : State) : State := if s.cur.eng = .x then u.abandonRegion s.me else u
    (Ready s (.tret m d a b) →
      let done (u : State) (status : Nat) : Prop :=
        exec (.tret m d a b) s = .next (past (.tret m d a b) s (u.wx d (resultQuad status 0)))
      let found := s.cr.traps.find? fun t => t.trapid % 2 ^ 32 == (s.rx a).toNat % 2 ^ 32
      (found = none ∨ 2 < (s.rx b).toNat → done s 8) ∧
      (∀ t, found = some t → (s.rx b).toNat ≤ 2 → t.claim ≠ none → t.claim ≠ some s.cc.taskid → done s 2) ∧
      (∀ t, found = some t → (s.rx b).toNat ≤ 2 → (t.claim = none ∨ t.claim = some s.cc.taskid) →
        let u := s.modRegion s.cc.regid fun r =>
          { r with traps := r.traps.map fun x => if x.trapid = t.trapid then { x with claim := some s.cc.taskid } else x }
        done (u.modMe fun c => { c with claims := (c.claims.filter fun x => x.trapid != t.trapid) ++
                                                  [{ trapid := t.trapid, action := (s.rx b).toNat }] }) 0)) ∧
    (Ready s .tend →
      let u := if s.cur.eng = .x then (s.abandonRegion s.me).modMe fun c => if c.st = .run then c.endYields else c else s
      let last := ∀ e, e ≠ s.cur.eng → (u.cc.eng e).wait = .tend
      let left := u.cc.queuesEmpty = false ∨ ∃ p ∈ u.cc.z, p.2.bound = true
      (last → left → exec .tend s = .next (u.trapHere .qfault)) ∧
      (¬(last ∧ left) → exec .tend s = .next (u.retireWait (formOf .tend s) .tend))) ∧
    (Ready s .yield →
      ((own s).yieldStops = false → exec .yield s = .next (past .yield s (own s))) ∧
      ((own s).yieldStops = true → exec .yield s = .next (((own s).retireWait {} .yield).afterYield)))

/-! ## Waits of engines, and streams -/

/-- R106, R141, R182, R184, R188, R213, R235, R242, R271, R280, R284, R328: when a wait of an engine ends, and what it then
finds: a fence, a wait on tags, on a barrier, on the length of a sequence, on the quiescence of a region, on a semaphore or on
lanes, each with its timeout where it has one; a write of `ctl.split` or of `slot.plan`; the grant and the lapse of the hold of
a single-line region; and the advance of the length of a sequence over its committed and void slots, which freezes it from 16
slots on and fills its window ring (R280). A condition that does not hold leaves everything as it is, but that an unmet
`barwait` or `sqwait` ends the hold that its own context has on the line (R183). What a change of the scratchpad's size waits
for (`splitDrained`, log 99) and what counts as quiescent (`quietBut`, log 68) are the model's readings. -/
def Obligations.WaitsEnd : Prop :=
  ∀ (s : State),
    let v := s.cur.ev
    let k := ctxKey v.core v.ctx
    let c := s.ctx k
    let go (e : Eng) (u : State) : State := u.modCtx k fun x => x.endWait e
    let answer (status value : Nat) (d : Reg) (u : State) : State := u.writeReg k .x d (resultQuad status value)
    (∀ id a m, (c.eng v.eng).wait = .access id → c.access id = some a → a.kind = .qfence m → a.parts = [] → c.st ≠ .idle →
      c.systemAcked a = true → a.stale = false →
      exec .qfenceReturn s = .next (match s.deferred k (fenceUnits m) with
        | some d => s.raiseDeferred k d
        | none => if s.mayPerform k a none ∧ s.engineQueuesDone k a m ∧ s.unitsStored k a m then s.finishAccess k id a.eng else s)) ∧
    (∀ all d mask limit since, (c.eng .x).wait = .tags all d mask limit since →
      let t := (s.core (k / 4)).tagmap &&& mask
      let ended : State := match s.tagDeferred k t with
        | some e => s.raiseDeferred k e
        | none => go .x ((if t = 0 then s else s.l1DropAll (k / 4)).writeReg k .x d t)
      exec .tagWaitReturn s = .next (if (if all then t = mask else t ≠ 0) then ended else s) ∧
      exec .tagWaitTimeout s = .next (if limit ≠ 0 ∧ since + limit.toNat ≤ s.clock then ended else s)) ∧
    (∀ id a p d ph, (c.eng .x).wait = .access id → c.access id = some a → a.kind = .op (.barwait d ph) → a.parts = [p] →
      p.done = false → c.st ≠ .idle → c.systemAcked a = true → a.stale = false → s.mayPerform k a (some p) = true →
      let u := s.endHold k (p.addr / 128)
      let w := u.l2Fill (p.addr / 128)
      w.linePoisoned (p.addr / 128) = false →
      let r := s.bar p.addr
      exec .barwaitReturn s = .next (if r.phase = ph % 2 ^ 32 then u
        else (((w.l1Drop (k / 4) (p.addr / 128)).writeReg k a.eng d (r.answer ph)).acquireOf k a).finishAccess k id a.eng)) ∧
    (∀ id a p d h n limit since, (c.eng .x).wait = .access id → c.access id = some a →
      a.kind = .op (.sqwait d h n limit since) → a.parts = [p] → p.done = false → c.st ≠ .idle →
      c.systemAcked a = true → a.stale = false → s.mayPerform k a (some p) = true →
      let u := s.endHold k (p.addr / 128)
      let q := s.seq h
      let ended (status value : Nat) : State :=
        ((((u.l1Drop (k / 4) (h / 128)).l1Drop (k / 4) (h / 128 + 1)).writeReg k a.eng d (resultQuad status value)).acquireOf
          k a).finishAccess k id a.eng
      let late := limit ≠ 0 ∧ since + limit.toNat ≤ s.clock
      (q.live = false → exec .sqwaitReturn s = .next (ended 7 0)) ∧
      (q.live = true → n.toNat ≤ q.len → exec .sqwaitReturn s = .next (ended 0 q.len)) ∧
      (q.live = true → q.len < n.toNat → exec .sqwaitReturn s = .next u) ∧
      (¬late → exec .sqwaitTimeout s = .next s) ∧
      (late → q.live = false ∨ n.toNat ≤ q.len → exec .sqwaitTimeout s = exec .sqwaitReturn s) ∧
      (late → q.live = true → q.len < n.toNat → exec .sqwaitTimeout s =
        .next ((answer 5 q.len d (s.l1DropAll (k / 4))).finishAccess k id .x))) ∧
    (∀ d limit since, (c.eng .x).wait = .quies d limit since → c.st = .run →
      exec .quiesReturn s = .next (if s.quietBut c.regid s.inQuies then go .x (answer 0 1 d s) else s) ∧
      exec .quiesTimeout s = .next (if limit ≠ 0 ∧ since + limit.toNat ≤ s.clock then go .x (answer 5 0 d s) else s)) ∧
    (∀ i n, (c.eng .c).wait = .msem i n →
      let e := s.mat (v.core - 64)
      let sem := tget 0 e.sems i
      let left := match s.matHead (v.core - 64) with | some h => if h.begun = false ∧ h.wsem = some i then sem - 1 else sem | none => sem
      exec .msemWaitReturn s = .next (if n ≤ left
        then go .c ((s.setMat (v.core - 64) { e with sems := tput e.sems i (min 65535 (tget 0 e.sems i - n)) }).l1DropAll (k / 4))
        else s)) ∧
    (∀ ls id, (c.eng .c).wait = .lfence ls id →
      let there := ∃ n ∈ ls, ∃ e ∈ (s.lane n).q ++ (s.lane n).flight, e.ctx = k ∧ e.taskid = c.taskid ∧ e.cmd = .fence id
      let open_ := ∃ r ∈ s.reds, r.ctx = k ∧ r.taskid = c.taskid ∧ r.id < id ∧ ∃ m ∈ r.lanes, m ∈ ls
      (¬there → ¬open_ → exec .lfenceReturn s = .next (go .c s)) ∧ (there ∨ open_ → exec .lfenceReturn s = .next s)) ∧
    (∀ n p, (c.eng v.eng).wait = .sunbind n p → exec .sunbindComplete s =
      .next (if s.canUnbind k n v.eng p then s.modCtx k fun x => (x.unbind n).endWait v.eng else s)) ∧
    (∀ w t, (c.eng v.eng).wait = .plan w t →
      let first := ∀ e, e ≠ v.eng → ∀ x u, (c.eng e).wait = .plan x u → t < u ∨ (t = u ∧ engIdx v.eng < engIdx e)
      (first → exec .slotPlanWrite s =
        .next (({ s with cur := { s.cur with core := v.core, ctx := v.ctx, eng := v.eng } } : State).planWrite w)) ∧
      (¬first → exec .slotPlanWrite s = .next s)) ∧
    (let d := s.core v.core
     ∀ x e n r, d.split = (x, e, n) :: r →
      (d.splitting = false → exec .ctlSplitWrite s = .next (if d.allot < n
        then (s.setCore v.core { d with split := r }).raiseAt (ctxKey v.core x) e ((s.ctx (ctxKey v.core x)).eng e).pc .budget
        else s.setCore v.core { d with splitting := true })) ∧
      (d.splitting = true → exec .ctlSplitWrite s = .next s) ∧
      (d.splitting = false ∨ s.splitDrained v.core = false → exec .ctlSplitApply s = .next s) ∧
      (d.splitting = true → s.splitDrained v.core = true → ∃ t : State, exec .ctlSplitApply s = .next t.deliverReady ∧
        (s.reds = [] → t.deliverReady = t) ∧ t.mem = s.mem ∧ t.reds = s.reds ∧
        (t.core v.core).spad = n ∧ (t.core v.core).l1 = [] ∧ (t.core v.core).split = r ∧ (t.core v.core).splitting = false ∧
        (∀ o, o ≠ v.core → t.core o = s.core o) ∧ (∀ o, o ≠ ctxKey v.core x → t.ctx o = s.ctx o) ∧
        (∀ y, ((s.ctx (ctxKey v.core x)).eng e).wait = .split y → ((t.ctx (ctxKey v.core x)).eng e).wait = .no))) ∧
    (∀ a p va, c.mq.find? (fun a => match a.kind with | .op (.alrb ..) => true | _ => false) = some a →
      a.kind = .op (.alrb va false) → a.parts = [p] → p.done = false → c.st ≠ .idle → c.systemAcked a = true → a.stale = false →
      s.mayPerform k a (some p) = true → ((s.endHold k (p.addr / 128)).l2Fill (p.addr / 128)).linePoisoned (p.addr / 128) = false →
      (∀ h ∈ s.held, h.line = p.addr / 128 → h.ctx = k) → (∀ h ∈ s.alrq, h.line ≠ p.addr / 128) → c.access a.id = some a →
      ∃ t, exec .alrGrant s = .next t ∧ t.mem = s.mem ∧ (t.ctx k).access a.id = none ∧
        (∃ h ∈ t.held, h.line = p.addr / 128 ∧ h.ctx = k) ∧
        (t.ctx k).alr = some { line := p.addr / 128, va := va / 128 * 128, marks := [], since := s.clock, hold := true,
                               snap := memRead s.mem (128 * (p.addr / 128)) 128 }) ∧
    (∀ r, c.alr = some r → exec .alrHoldExpiry s = .next (if r.hold ∧ r.since + 64 ≤ s.clock
      then { s with held := s.held.filter fun h => !(h.line == r.line && h.ctx == k) }.modCtx k fun x =>
        { x with alr := some { r with hold := false } }
      else s)) ∧
    (let q := s.seq v.a
     (q.live = false ∨ q.attn ≠ 0 → exec .lenAdvance s = .next s) ∧
     (q.live = true → q.attn = 0 → exec .lenAdvance s = .next (s.advanceLen v.a) ∧
      ∃ t b, exec .lenAdvance s = .next t ∧ q.len ≤ b ∧
        (∀ i, q.len ≤ i → i < b → ∃ r, q.slots.find? (fun r => r.i == i) = some r ∧ (r.st = .committed ∨ r.st = .voided)) ∧
        (∀ r, q.slots.find? (fun r => r.i == b) = some r → r.st ≠ .committed ∧ r.st ≠ .voided) ∧
        (b = q.len → t = s) ∧
        (b ≠ q.len → (t.seq v.a).len = b ∧ (t.seq v.a).frozen = (q.frozen || decide (16 ≤ b)) ∧
          (∀ i, max q.len (b - q.w) ≤ i → i < b → tget [] (t.seq v.a).ring (i % q.w) = q.staged i) ∧
          (∀ o, o ≠ v.a → t.seq o = s.seq o))))

/-- R127, R214, R215: L fetches a line part of the next unit of a read stream, and with the last of its parts the unit has come,
through the chain; a unit whose fetch faults is marked with its fault. S stores a line part of the oldest unit of a write
stream, and with the last of its parts the unit has left; a part that waits for headroom leaves the stream as it is. That a
fault of a unit's store is raised at the place of the `sbind` (log 37), and how the units of a stream translate (log 23), are
the model's readings. -/
def Obligations.StreamUnitsMove : Prop :=
  ∀ (s : State),
    let v := s.cur.ev
    let k := ctxKey v.core v.ctx
    let t := s.settleSkips k v.a
    let z := tget {} (t.ctx k).z v.a
    let w := tget {} (s.ctx k).z v.a
    let fetched (mem : Mem) (y : Stream) : Prop := ∃ u, exec .streamFetch s = .next u ∧ u.mem = mem ∧ tget {} (u.ctx k).z v.a = y
    let marked (e : Code × Nat) : Stream :=
      { z with buf := z.buf ++ [{ u := z.cursor, mark := some e }], cursor := z.cursor + 1, moved := true, got := [] }
    (t.canFetch k v.a = false → exec .streamFetch s = .next s) ∧
    (t.canFetch k v.a = true →
      (∀ f va, t.unitParts k z false 0 (z.pieces z.cursor) = .fault f va → fetched t.mem (marked (f, va))) ∧
      (∀ va, t.unitParts k z false 0 (z.pieces z.cursor) = .miss va →
        exec .streamFetch s = .next (t.enterUnitMiss k (t.ctx k).part (t.ctx k).asid va)) ∧
      ∀ ps p x, t.unitParts k z false 0 (z.pieces z.cursor) = .ok ps →
        choose ((z.left ps).filter fun p => t.queueClear k true [p]) s.cur.pick = some p →
        (∀ e, t.fetchPart k p = (x, .error e) → fetched x.mem (marked e)) ∧
        ∀ bs bad, t.fetchPart k p = (x, .ok (bs, bad)) →
          let got := z.got ++ [(p.off, bs)]
          let y : Stream := { z with moved := true, pois := z.pois || decide (0 < bad) }
          ((z.left ps).length ≤ 1 → fetched x.mem { y with
            buf := z.buf ++ [{ u := z.cursor, val := z.through (BitVec.ofNat 1024 (leNat (gotBytes got ps))) }],
            cursor := z.cursor + 1, got := [] }) ∧
          (1 < (z.left ps).length → fetched x.mem { y with got := got })) ∧
    (s.canStore k v.a = false → exec .streamStore s = .next s) ∧
    (∀ b r, s.canStore k v.a = true → w.buf = b :: r →
      (∀ f va, s.unitParts k w true 0 (w.pieces b.u) = .fault f va → exec .streamStore s = .next (s.raiseAt k .s w.pos.off f va)) ∧
      (∀ va, s.unitParts k w true 0 (w.pieces b.u) = .miss va →
        exec .streamStore s = .next (s.enterUnitMiss k (s.ctx k).part (s.ctx k).asid va)) ∧
      ∀ ps p x, s.unitParts k w true 0 (w.pieces b.u) = .ok ps → choose ((w.left ps).filter (s.partStores k v.a)) s.cur.pick = some p →
        let a : Access := { id := 2 ^ 40 + v.a, eng := .s, inL := false, inS := true, pos := w.pos, kind := .store }
        let bs := ((leBytes 128 (w.through b.val).toNat).drop p.off).take p.len
        (s.writePart k a p bs = (x, false) → exec .streamStore s = .next x) ∧
        (s.writePart k a p bs = (x, true) → ∃ u, exec .streamStore s = .next u ∧ u.mem = x.mem ∧ tget {} (u.ctx k).z v.a =
          if (w.left ps).length ≤ 1 then { w with buf := r, got := [] } else { w with got := w.got ++ [(p.off, [])] }))

/-! ## Lanes and matrix engines at work -/

/-- R221, R226-R232, R354-R356: what a lane does with the macro at the head of its queue, each completed macro leaving the
queue: `lcfg`, `lwst` over pages that are raw and of its column, `lact`, the rows of an `lmac` once its column has moved them,
the clear, the read-out, the hand-over to a reduction and the end of an `lsync`; and the fold of a ring reduction. A read-out is
made behind a delivery that its lane handed over before and that is still to come, whichever task gave it (R140). A head that
its rule does not admit is a deferred fault, and the lane discards what its task queued after it. The INFO and ADDR of a lane's
fault (log 41), the check of every page at `lwst` (log 42), rows by streaming slots (log 43), the release of an `lsync` in one
event (log 44), what discarded lanes hand on (log 45), deliveries whose lanes contradict one another (log 101) and the moment
at which weights are read (log 140) are the model's choices. -/
def Obligations.LanesAtWork : Prop :=
  ∀ (s : State),
    let n := s.cur.ev.a
    let l := s.lane n
    let fails (e : LaneEnt) (c : Code) (a : Nat) : State := s.deferLane n e c a
    (∀ e r, l.q = e :: r → (s.ctx e.ctx).st ≠ .idle → (s.ctx e.ctx).taskid = e.taskid →
      s.unitStopped (s.ctx e.ctx).part (.lane n) = false → s.fencedOff e.ctx e.pos = false →
      let k := e.ctx
      let busy := (s.core (k / 4)).splitting
      (∀ y p, e.cmd = .cfg y p → exec .lcfgApply s = .next (s.setLane n ({ l with rsync := y, pol := p } : Lane).pop)) ∧
      (∀ b role, e.cmd = .wst b role →
        let first := (b.va + b.off) / 8192
        let last := (b.va + b.off + (b.nrow - 1) * b.rstr + b.nrec * recordSize b.fmt - 1) / 8192
        let pages := s.windowPages e.ctx b (8192 * first) (last + 1 - first) (last + 1 - first)
        (∀ c a, pages = .fault c a → exec .lwstBind s = .next (fails e c a)) ∧
        (∀ a, pages = .miss a → exec .lwstBind s = .next (s.enterUnitMiss e.ctx b.part b.asid a)) ∧
        (∀ ps, pages = .ok ps → ∃ t, exec .lwstBind s = .next t ∧ t.mem = s.mem ∧
          t.lane n = ({ l with bind := some { b with pages := ps } } : Lane).pop)) ∧
      (∀ t, e.cmd = .act t → exec .lactLoad s = .next (s.setLane n ({ l with tile := some t } : Lane).pop)) ∧
      (e.cmd = .accz → exec .lacczClear s = .next (s.setLane n ({ l with acc := [], pois := [] } : Lane).pop)) ∧
      (∀ c0 cnt frow z, e.cmd = .mac c0 cnt frow z →
        (l.bind = none ∨ l.tile = none → exec .lmacPiece s = .next (fails e .qfault 0)) ∧
        (∀ b t, l.bind = some b → l.tile = some t →
          let m := min 64 (cnt - l.row)
          let need := (b.newRows frow l.row m).length
          let u := s.modCol n fun v => { v with rows := v.rows - need }
          (t.krec ≠ b.nrec → exec .lmacPiece s = .next (fails e .qfault 0)) ∧
          (t.krec = b.nrec → b.nrow < frow + cnt → exec .lmacPiece s = .next (fails e .prot 0)) ∧
          (t.krec = b.nrec → frow + cnt ≤ b.nrow → (s.col n).rows < need → exec .lmacPiece s = .next s) ∧
          (t.krec = b.nrec → frow + cnt ≤ b.nrow → need ≤ (s.col n).rows →
            exec .lmacPiece s = .next (match u.lmacRows b.part l b t (c0 + l.row) (frow + l.row) z [] m with
              | (x, y, some a) => (x.setLane n y).deferLane n e .poison a
              | (x, y, none) => x.setLane n (if cnt ≤ y.row then y.pop else y))))) ∧
      (∀ w f dest, e.cmd = .accr w f dest →
        let bs := cellBytes f (l.cells w)
        (busy = true → exec .laccrReadout s = .next s) ∧
        (busy = false → s.spadHas (k / 4) dest bs.length = false → exec .laccrReadout s = .next (fails e .prot dest)) ∧
        (busy = false → s.spadHas (k / 4) dest bs.length = true → s.reds = [] → exec .laccrReadout s =
          .next ((s.setLane n l.pop).deliverCells k dest bs ((l.cells w).any (·.2)))) ∧
        (∀ q, busy = false → s.spadHas (k / 4) dest bs.length = true → s.reds = [q] → (∃ o, (n, o) ∈ q.ords) → q.full = false →
          ∃ t, exec .laccrReadout s = .next t ∧ t.mem = s.mem ∧ t.cores = s.cores ∧ t.reds.length = 2 ∧
            t.lane n = ({ l with q := l.q.tail, row := 0 } : Lane).settle)) ∧
      (∀ id ls w f dest ring clr seq beds, e.cmd = .red id ls w f dest ring clr seq beds →
        let left (y : Lane) : Lane := ({ y with q := y.q.tail, row := 0 } : Lane).settle
        let u := (s.handRed n e (l.cells w) false).setLane n (left (if clr then l.clearCells w else l))
        exec .lredReduce s = .next u.deliverReady ∧
        ∀ x, u.reds = [x] →
          (x.ring = true ∨ x.full = false ∨ (s.core (x.ctx / 4)).splitting = true → u.deliverReady = u) ∧
          (x.ring = false → x.full = true → (s.core (x.ctx / 4)).splitting = false →
            (x.tree x.lanes = none → u.deliverReady = u.redDone x) ∧
            (∀ cells, x.tree x.lanes = some cells → u.spadHas (x.ctx / 4) x.dest (cellBytes x.fmt cells).length = true →
              u.deliverReady = (u.redDone x).deliverCells x.ctx x.dest (cellBytes x.fmt cells) (cells.any (·.2))))) ∧
      (∀ id ls, e.cmd = .sync id ls → ls.Nodup →
        ((∃ m ∈ ls, s.syncReady k e.taskid id m = false) → exec .lsyncRelease s = .next s) ∧
        ((∀ m ∈ ls, s.syncReady k e.taskid id m = true) → ∃ t, exec .lsyncRelease s = .next t ∧ t.mem = s.mem ∧
          ∀ m, t.lane m = match (s.lane m).q with
            | x :: _ => if m ∈ ls ∧ isSync k e.taskid id x then (s.lane m).pop else s.lane m
            | [] => s.lane m))) ∧
    (∀ x, s.reds = [x] → x.ring = true → x.taskid = s.cur.ev.a → x.seq = s.cur.ev.b →
      let cells := foldPartials (x.beds.map fun b => x.bedPart (b % 8))
      let bs := cellBytes .a56 cells ++ x.footer cells
      let u : State := s.redDone x
      (x.full = false ∨ (s.core (x.ctx / 4)).splitting = true → exec .ringFold s = .next s) ∧
      (x.full = true → (s.core (x.ctx / 4)).splitting = false → s.spadHas (x.ctx / 4) x.dest bs.length = true →
        exec .ringFold s = .next (u.deliverCells x.ctx x.dest bs (cells.any (·.2)))) ∧
      (x.full = true → (s.core (x.ctx / 4)).splitting = false → s.spadHas (x.ctx / 4) x.dest bs.length = false →
        exec .ringFold s = .next (({ s with reds := [] } : State).redFault x).deliverReady)) ∧
    (∀ (y : Lane) (b : LaneBind) (t : Tile) (j r : Nat) (z : Bool) (i : Nat), j < 256 → i < t.t → t.t ≤ 16 →
      let word (m : Nat) := recordValues b.fmt (s.weight b (b.off + r * b.rstr + m * recordSize b.fmt) (recordSize b.fmt))
      let act (m : Nat) := recordValues t.fmt ((t.data.drop ((i * t.krec + m) * recordSize t.fmt)).take (recordSize t.fmt))
      tget 0 (s.lmacRow y b t j r z).acc (256 * i + j) =
        (List.range b.nrec).foldl (fun a m => a56Add a (blockValue (word m).1 (act m).1 (word m).2 (act m).2))
          (if z then 0 else tget 0 y.acc (256 * i + j)) ∧
      ∀ c, c % 256 ≠ j → tget 0 (s.lmacRow y b t j r z).acc c = tget 0 y.acc c)

/-- R242-R246: what a matrix engine does with the command at the head of its queue once its semaphore lets it begin: `mlay` and
`munf` set their registers, `mzero` clears a tile and sets its mode, `mld` and `mdrn` move rows, and `mmul` adds its products
to the cells of its tile in ascending order; a mismatch of layouts or formats is counted and the command does nothing; operands
outside the scratchpad are deferred faults. That record operands on a tile in an integer mode end with status FMT, as the
procedure of R245 has it (log 104), that `mmul` reads all its operands at one moment (log 141), and that POISC saturates (log
142), are the model's choices. -/
def Obligations.MatrixEnginesAtWork : Prop :=
  ∀ (s : State) (e : MatEnt) (r : List MatEnt),
    let n := s.cur.ev.a
    let t := s.matBegin n
    let g := t.mat n
    let core := 64 + n
    (s.mat n).q = e :: r → s.matHead n = some e →
    (∀ k y st, e.cmd = .lay k y st → ∃ u, exec .mlayExecute s = .next u ∧ u.mem = s.mem ∧ (u.mat n).q = r ∧
      tget {} (u.mat n).layout k = y ∧ (st = none → (u.core core).ltags = (s.core core).ltags) ∧
      ∀ a len, st = some (a, len) → ∀ i, i < len / 4096 → tget 0 (u.core core).ltags (a / 4096 + i) = y.span) ∧
    (∀ y, e.cmd = .unf y → ∃ u, exec .munfExecute s = .next u ∧ u.mem = s.mem ∧ (u.mat n).q = r ∧ (u.mat n).unfold = y ∧
      (u.mat n).tiles = (s.mat n).tiles) ∧
    (∀ tl m, e.cmd = .zero tl m → ∃ u, exec .mzeroExecute s = .next u ∧ u.mem = s.mem ∧ (u.mat n).q = r ∧
      tget {} (u.mat n).tiles tl = { cells := [], mode := m, q := none } ∧
      ∀ o, o ≠ tl → tget {} (u.mat n).tiles o = tget {} (s.mat n).tiles o) ∧
    (∀ k va st nr rowd nb, e.cmd = .ld k va st nr rowd nb →
      ((t.layout n k).rstr < nb → exec .mldExecute s = .next (t.deferMat n e .qfault 0)) ∧
      (nb ≤ (t.layout n k).rstr → exec .mldExecute s = .next (t.matRows n e (fun u i => u.mldRow n e k va st rowd nb i) nr e.row
        (if s.cur.ev.b = 0 then nr - e.row else min s.cur.ev.b (nr - e.row))))) ∧
    (∀ tl gs dest ds m0 mm fd clr rm sat ftz, e.cmd = .drn tl gs dest ds m0 mm fd clr rm sat ftz →
      let mode := (tget {} g.tiles tl).mode
      ((∀ f, fd = some f → drainOk mode f = false) → exec .mdrnExecute s =
        .next ((t.setMat n { g with fmtc := min 255 (g.fmtc + 1) }).matEnd n)) ∧
      (∀ f, fd = some f → drainOk mode f = true → exec .mdrnExecute s =
        .next (t.matRows n e (fun u i => u.drnRow n e tl gs dest ds m0 f clr rm sat ftz i) mm e.row
          (if s.cur.ev.b = 0 then mm - e.row else min s.cur.ev.b (mm - e.row))))) ∧
    (∀ tl unf mm row0 fa ra la krec k0 fb rb lb, e.cmd = .mul tl unf mm row0 fa ra la krec k0 fb rb lb →
      let ya := t.layout n la
      let yb := t.layout n lb
      let offA (m i : Nat) : List Nat := unitOffsets ya (unitBytes fa ra) (rowOf g.unfold unf (row0 + m) (k0 + i))
      let offB (c i : Nat) : List Nat := unitOffsets yb (unitBytes fb rb) (some (c, k0 + i))
      let allA := (List.range mm).flatMap fun m => (List.range krec).flatMap (offA m)
      let allB := (List.range 128).flatMap fun c => (List.range krec).flatMap (offB c)
      let tile := tget {} g.tiles tl
      let a (m i : Nat) := unitValues fa ra (t.unitAt core (offA m i) (unitBytes fa ra))
      let b (c i : Nat) := unitValues fb rb (t.unitAt core (offB c i) (unitBytes fb rb))
      let has := ∀ o, o ∈ allA ++ allB → t.spadHas core o 1 = true
      let tags := (∀ o ∈ allA, tget 0 (t.core core).ltags (o / 4096) = ya.span) ∧
        ∀ o ∈ allB, tget 0 (t.core core).ltags (o / 4096) = yb.span
      let fmtBad := ra = false ∨ rb = false ∨ fmtIsB8 fa = true ∨ fmtIsB8 fb = true ∨ (tile.q.getD (unitQ fa fb)) ≠ unitQ fa fb
      ((t.core core).splitting = true → exec .mmulExecute s = .next s) ∧
      ((t.core core).splitting = false →
      (¬has → exec .mmulExecute s = .next (t.deferMat n e .prot ya.base)) ∧
      (has → tags → tile.mode ≠ .float → fmtBad →
        exec .mmulExecute s = .next ((t.setMat n { g with fmtc := min 255 (g.fmtc + 1) }).matEnd n)) ∧
      (has → tags → tile.mode ≠ .float → ¬fmtBad → (∀ o ∈ allA ++ allB, o / 8 ∉ (t.core core).poison) →
        ∃ u, exec .mmulExecute s = .next u ∧ u.mem = s.mem ∧ (u.mat n).q = r ∧
          (∀ m c, m < mm → c < 128 → (tget {} (u.mat n).tiles tl).cell m c =
            (List.range krec).foldl (fun x i => intAccum tile.mode x
              (countOf (blockValue (a m i).1 (b c i).1 (a m i).2 (b c i).2) (unitQ fa fb))) (tile.cell m c)) ∧
          (tget {} (u.mat n).tiles tl).q = some (unitQ fa fb)) ∧
      (has → ¬tags → exec .mmulExecute s = .next ((t.setMat n { g with layc := min 255 (g.layc + 1) }).matEnd n)) ∧
      (has → tags → tile.mode = .float → (∀ o ∈ allA ++ allB, o / 8 ∉ (t.core core).poison) →
        ∃ u, exec .mmulExecute s = .next u ∧ u.mem = s.mem ∧ (u.mat n).q = r ∧
          (∀ m c, m < mm → c < 128 → (tget {} (u.mat n).tiles tl).cell m c =
            (List.range krec).foldl (fun x i => a56Add x (blockValue (a m i).1 (b c i).1 (a m i).2 (b c i).2)) (tile.cell m c)) ∧
          (∀ m c, mm ≤ m → c < 128 → (tget {} (u.mat n).tiles tl).cell m c = tile.cell m c) ∧
          ∀ o, o ≠ tl → tget {} (u.mat n).tiles o = tget {} g.tiles o)))

/-! ## Transfers and attentions at work -/

/-- R250, R255-R258, R260-R265, R364: what a transfer engine and the column controller do with the command at the head of a
queue in its turn: a chunk moves, or its system-scope source is asked for; data and acknowledgements come from the target, or
its refusal, or the transport gives up after 7 retries (R360); a column reduce runs; the record is written to its ring, whose
HEAD then advances, or room in it is waited for, for 100 µs; and the command ends with its tag set and its arrival on its
barrier. R290, R291: an attention's result is written, and then its tag is set. An arrival that waits for headroom (log 51), the
fault of a command on a queue pair in error (log 52), the one moment at which an attention (log 53) and a chunk (log 107) read
and the ring's control block as a scratchpad load (log 115) are the model's choices. -/
def Obligations.TransfersAtWork : Prop :=
  ∀ (s : State),
    let v := s.cur.ev
    let k := ctxKey v.core v.ctx
    let setTag (u : State) (core tag : Nat) : State := u.modCore core fun c =>
      { c with tagmap := c.tagmap ||| (1#64 <<< tag)
               tagSet := (s.clock, (if c.tagSet.1 = s.clock then c.tagSet.2 else 0) ||| (1#64 <<< tag)) }
    (∀ a x, s.xferHead k v.eng = some (a, x) →
      let put (t : State) (y : Xfer) : State := t.setXfer k a.id y
      let stops := x.finished = true ∨ s.mayPerform k a none = false
      let turn := s.inTurn (engineOf k) = some (k, v.eng)
      let tagged : State := if x.ten then setTag s v.core x.tag else s
      let part := (s.ctx k).part
      let modQp (q : Nat) (f : Qp → Qp) : State := { s with qps := tput s.qps q (f (tget {} s.qps q)) }
      let heard : State := match tfind (s.partn part).outbound x.key with
        | some w => modQp (qpKey part w.qp) fun p => { p with retries := 0 }
        | none => s
      let refused (u : State) : State := u.stopXfer k a { x with fault := some .prot, faddr := if x.acked then x.sbase else x.dbase,
                                                                 acked := true, asked := 0, wire := [] }
      (x.kind = .creq ∨ stops → exec .transferChunk s = .next s) ∧
      (x.kind ≠ .creq → ¬stops → s.mustAsk k x = true → exec .transferChunk s = .next (s.askChunk k a x)) ∧
      (x.kind ≠ .creq → ¬stops → s.mustAsk k x = false → ¬turn → exec .transferChunk s = .next s) ∧
      (∀ t y, x.kind ≠ .creq → ¬stops → s.mustAsk k x = false → turn →
        let stop := x.cend.getD (min x.total (x.next + 65536 / elemBytes x.tf))
        s.xferElems k a.id a.eng x s.cur.pick (stop - x.next) = (t, y) →
        exec .transferChunk s = .next ((t.stopXfer k a { y with cend := if y.next < stop then some stop else none }).served k a.eng)) ∧
      (∀ dst old, x.kind = .fill → x.dspc = .l → x.elem x.next 0 = (.fill dst, false) → (s.core (k / 4)).splitting = false →
        let bs := leBytes (elemBytes x.tf) (x.sbase % 2 ^ (if x.tf = .a56 then 56 else fmtWidth x.tf))
        (s.spadHas (k / 4) dst bs.length = true → ∃ y, s.xferElem k a.id a.eng x old = .next (s.spadWrite (k / 4) dst bs) y ∧
          y.bytes = x.bytes + bs.length) ∧
        (s.spadHas (k / 4) dst bs.length = false → s.xferElem k a.id a.eng x old = .fault s x .prot dst)) ∧
      exec .systemReadResponse s = .next (put heard { x with wire := x.wire ++ v.bytes.take (x.asked - x.wire.length) }) ∧
      (x.acked = true → exec .systemWriteAck s = .next s) ∧
      (x.acked = false → exec .systemWriteAck s = .next ((put heard { x with acked := true }).modCtx k Ctx.wake)) ∧
      (x.acked = true → x.asked ≤ x.wire.length → exec .remoteNak s = .next s) ∧
      ((x.acked = false ∨ x.wire.length < x.asked) →
        (tfind (s.partn part).outbound x.key = none → exec .remoteNak s = .next (refused s)) ∧
        ∀ w, tfind (s.partn part).outbound x.key = some w →
          let q := qpKey part w.qp
          (v.flag = true → (tget {} s.qps q).retries < 7 →
            exec .remoteNak s = .next (modQp q fun p => { p with retries := p.retries + 1 })) ∧
          (v.flag = false ∨ 7 ≤ (tget {} s.qps q).retries → exec .remoteNak s =
            .next (refused { modQp q (fun p => { p with error := true }) with out := s.out ++ [.qpError part w.qp] }))) ∧
      (x.kind = .creq → ¬stops → x.moved = false → (s.col x.col).retr = false → turn →
        ∀ t y sum, s.creqRows k x (List.replicate x.dim 0) ((List.range x.rows.length).zip x.rows) = .inr (t, y, sum) →
          let w := t.creqWrites k a.id a.eng { y with moved := true, wire := creqBytes x.tf sum }
            (lineParts x.dbase (x.dim * elemBytes x.tf))
          exec .creqExecute s = .next ((w.1.stopXfer k a w.2).served k a.eng)) ∧
      (x.kind ≠ .creq ∨ stops ∨ (x.moved = false ∧ ((s.col x.col).retr = true ∨ ¬turn)) → exec .creqExecute s = .next s) ∧
      (let cb := leNat (s.spadClean v.core x.ringcb 16)
       let bad := s.badWords v.core x.ringcb 16
       let head := bits cb 127 96
       let tail := bits cb 95 64
       let size := 2 ^ bits cb 35 32
       let place := bits cb 31 0 + head % size * 32
       let writes := x.closes = true ∧ x.ren = true ∧ x.drop = false ∧ x.wrote = false ∧ (s.core v.core).splitting = false
       (¬writes → exec .completionRecordWrite s = .next s) ∧
       (writes → s.spadHas v.core x.ringcb 16 = true → (x.pol = false ∨ bad = []) → size ≤ (head + 2 ^ 32 - tail) % 2 ^ 32 → x.wait = none →
         exec .completionRecordWrite s = .next (put s { x with wait := some s.clock })) ∧
       (writes → s.spadHas v.core x.ringcb 16 = true → bad = [] → (head + 2 ^ 32 - tail) % 2 ^ 32 < size →
         s.spadHas v.core place 32 = true →
         exec .completionRecordWrite s = .next (put ((s.spadWrite v.core place (x.record a.eng)).spadWrite v.core (x.ringcb + 12)
           (leBytes 4 ((head + 1) % 2 ^ 32))) { x with wrote := true, wait := none })) ∧
       (writes → s.spadHas v.core x.ringcb 16 = false → exec .completionRecordWrite s = .next (s.recordLost k a x .prot))) ∧
      (let ends := x.closes = true ∧ (x.ren = true → x.drop = true ∨ x.wrote = true)
       (¬ends → exec .transferCompletion s = .next s) ∧
       (ends → x.bar = none → exec .transferCompletion s = .next (tagged.finishAccess k a.id a.eng)) ∧
       (∀ pa, ends → x.bar = some pa → s.lineHeld k pa = true →
         exec .transferCompletion s = .next (put tagged { x with ten := false })) ∧
       (∀ pa u, ends → x.bar = some pa → s.lineHeld k pa = false → tagged.reserveLine (s.ctx k).part pa = some u →
         exec .transferCompletion s = .next ((((u.dropWait (s.ctx k).part pa (some (k, a.eng)) a.id).endHold k (pa / 128)).barArrive pa
           x.errArrival).finishAccess k a.id a.eng))) ∧
      (∀ t, x.wait = some t → x.wrote = false →
        let cb := leNat (s.spadClean v.core x.ringcb 16)
        let full : Prop := 2 ^ bits cb 35 32 ≤ (bits cb 127 96 + 2 ^ 32 - bits cb 95 64) % 2 ^ 32
        let shut : Xfer := { x with wrote := true, around := true, ten := false, bar := none, wait := none }
        let traps (u : State) : State := (put u shut).raiseAt k a.eng ((u.ctx k).eng a.eng).pc .qfault 0 x.seq
        (s.clock < t + 400000 ∨ ¬full → exec .ringWaitTimeout s = .next s) ∧
        (t + 400000 ≤ s.clock → full → x.bar = none → exec .ringWaitTimeout s = .next (traps tagged)) ∧
        (∀ pa u, t + 400000 ≤ s.clock → full → x.bar = some pa → s.lineHeld k pa = false → tagged.reserveLine (s.ctx k).part pa = some u →
          exec .ringWaitTimeout s = .next (traps (((u.dropWait (s.ctx k).part pa (some (k, a.eng)) a.id).endHold k
            (pa / 128)).barArrive pa true))))) ∧
    (∀ e, s.attns[v.a]? = some e → (s.core e.core).splitting = false →
      let d := attnDesc e.desc
      let q := { s.seq e.scb with len := e.len }
      let query := (List.range d.d).map fun i => leNat ((e.query.drop (4 * i)).take 4)
      let bs := s.attnResult q d query e.status false
      let tagged (t : State) : State := if e.ten then setTag t e.core e.tag else t
      (e.live = true → s.attnPoison q d = []) → s.spadHas e.core d.dest bs.length = true →
      exec .sqattnExecute s = .next ((tagged (s.spadWrite e.core d.dest bs)).endAttn v.a e))

/-! ## Tasks -/

/-- R21-R23, R32, R122, R129, R334, R339: a free context begins a task on the oldest item of a stage that its core serves, its
engines at the stage's entry with the item in `x1` to `x4`; a task at `tend` traps with a fault that was deferred, waits for its
commands, commits its version slice by slice, publishes its pushed items and ends; a trapped task is discarded, and its trap
goes to the handler of its domain, or retries its item, or ends the region; a trap record is published once the queue has
room; four engines that nothing outside can release trap after 64 clocks; and a walker fills the TLBs or makes its requests
fault. The model's choices here are those of log entries 24 and 30 (when deferred faults and failed walks are raised), 25 (the
choices among equals are the schedule's), 28 (the L2 holds lines and no bytes), 60 (which stalls count) and 64 (the reserved
context). -/
def Obligations.TasksRunAndEnd : Prop :=
  ∀ (s : State),
    let v := s.cur.ev
    let k := ctxKey v.core v.ctx
    let c := s.ctx k
    let r := s.region c.regid
    (∀ id n q, s.startFor k s.cur.pick = some (id, n) → oldestItem ((s.region id).queue n) = some q → c.st = .idle →
      (s.region id).live = true → (s.region id).aborting = false → s.preempted (s.region id).part = false →
      (s.region id).resumes n = false →
      let g := s.region id
      let d := g.stage n
      ∃ t, exec .taskStart s = .next t ∧ t.mem = s.mem ∧ t.nextTask = s.nextTask + 1 ∧ (t.ctx k).st = .run ∧
        (t.ctx k).taskid = s.nextTask ∧ (t.ctx k).regid = g.regid ∧ (t.ctx k).stage = n ∧ (t.ctx k).queuesEmpty = true ∧
        (t.ctx k).ver = {} ∧ (∀ m, m ≠ k → t.ctx m = s.ctx m) ∧
        (∀ e, let w := (t.ctx k).eng e
          w.pc = d.entry ∧ w.blk = none ∧ w.p = 0 ∧ w.rx 1 = quadN (d.qbase + q.slot * (16 * (d.item + 1))) ∧
          w.rx 2 = quadN (16 * (d.item + 1)) ∧ w.rx 3 = quadN n ∧ w.rx 4 = quadN g.dataVa ∧ ∀ x : Reg, 4 < x.toNat → w.rx x = 0) ∧
        (t.region id).queue n = (g.queue n).map fun i => if i.slot = q.slot then { i with st := .running k } else i) ∧
    (c.st ≠ .idle → exec .taskStart s = .next s) ∧
    (c.st = .run → c.atTend = true → r.aborting = false →
      (∀ d, s.deferred k (fun _ => true) = some d → exec .taskCommit s = .next (s.raiseDeferred k d)) ∧
      (s.deferred k (fun _ => true) = none → s.commandsDone k = false → exec .taskCommit s = .next s) ∧
      (s.deferred k (fun _ => true) = none → s.commandsDone k = true →
        let w := s.settle k c.taskid
        let l := w.commitSlices k
        let u := w.modCtx k fun x => { x with st := .commit l }
        (l ≠ [] → v.a ∉ l ∨ u.sliceBusy k v.a = true → exec .taskCommit s = .next u) ∧
        (l ≠ [] → v.a ∈ l → u.sliceBusy k v.a = false → exec .taskCommit s = .next ((u.commitSlice k v.a).modCtx k fun x =>
          { x with st := .commit (l.filter (· ≠ v.a)) })))) ∧
    (c.st = .run → c.atTend = false → exec .taskCommit s = .next s) ∧
    (∀ l, c.st = .commit l → l ≠ [] →
      (v.a ∉ l ∨ s.sliceBusy k v.a = true → exec .taskCommit s = .next s) ∧
      (v.a ∈ l → s.sliceBusy k v.a = false → exec .taskCommit s = .next ((s.commitSlice k v.a).modCtx k fun x =>
        { x with st := .commit (l.filter (· ≠ v.a)) }))) ∧
    (∀ t, c.st = .commit [] → s.publishItems c.regid c.pushes = .ok t → exec .taskCommit s =
      .next ((c.claims.foldl (fun u x => u.actClaim c.regid x) (t.modRegion c.regid fun g => g.commitTask c)).vacate k)) ∧
    ((r.commitTask c).tasks = r.tasks + 1 ∧
      (r.commitTask c).queue c.stage = (r.queue c.stage).filter fun q => q.slot ∉ c.item.slot :: c.pops.map (·.slot)) ∧
    ((s.vacate k).ctx k = {} ∧ (s.vacate k).mem = s.mem ∧ ∀ m, m ≠ k → (s.vacate k).ctx m = s.ctx m) ∧
    (r.aborting = true ∨ s.discardWaits k = true → exec .trapDelivery s = .next s) ∧
    (∀ t, c.st = .trapped → c.trap = some t → r.aborting = false → s.discardWaits k = false →
      let e := r.domain.toNat
      let u := (s.modRegion c.regid fun g => g.countTrap t).discardTask k r.trapSeq
      let handled := e / 4096 < 8 ∧ c.stage ≠ e / 4096
      let retried := codeRetried t.code = true ∧ c.item.attempt < e / 256 % 16
      (handled → r.traps.length < 64 → exec .trapDelivery s = .next ((u.modRegion c.regid fun g =>
        { g with traps := g.traps ++ [{ trapid := r.trapSeq, record := trapRecord c k r.trapSeq t, queued := false }] }).publishTrap
          c.regid s.cur.pick)) ∧
      (handled → 64 ≤ r.traps.length → exec .trapDelivery s = .next (u.startAbort c.regid)) ∧
      (¬handled → retried → exec .trapDelivery s = .next (u.modRegion c.regid fun g => g.mapQueues (releaseHeld r.trapSeq))) ∧
      (¬handled → ¬retried → exec .trapDelivery s = .next (u.startAbort c.regid))) ∧
    (c.st ≠ .trapped → exec .trapDelivery s = .next s) ∧
    (let g := s.region v.a
     let h := g.domain.toNat / 4096
     ((∀ t ∈ g.traps, t.queued = true) → exec .trapRecordPublish s = .next s) ∧
     (∀ t, g.traps.find? (fun x => !x.queued) = some t →
       ((g.stage h).depth ≤ g.occupancy h → exec .trapRecordPublish s = .next s) ∧
       (choose (s.openSlots v.a h) s.cur.pick = none → exec .trapRecordPublish s = .next s) ∧
       ∀ n u, g.occupancy h < (g.stage h).depth → choose (s.openSlots v.a h) s.cur.pick = some n →
         s.publishItems v.a [{ stage := h, slot := n, data := t.record ++ List.replicate ((g.stage h).itemBytes - 64) 0 }] = .ok u →
         exec .trapRecordPublish s = .next (u.modRegion v.a fun y =>
           { y with traps := y.traps.map fun x => if x.trapid = t.trapid then { x with queued := true } else x }))) ∧
    ((c.st = .run ∨ ∃ b, c.st = .saving b ∨ c.st = .restoring b) → exec .deadlockDetect s =
      .next (if s.allDeadly k ∧ 64 ≤ c.dead ∧ s.goesOn k = false then s.raiseAt k .x (c.eng .x).pc .qfault else s)) ∧
    (∀ m i, choose (((tget [] s.miss v.a).take 64).zipIdx) s.cur.pick = some (m, i) →
      let u := (s.walkReads m.part m.asid (8192 * m.page) s.cur.pick).foldl State.l2Fill
        { s with miss := tput s.miss v.a ((tget [] s.miss v.a).eraseIdx i) }
      (s.walk m.part m.asid (8192 * m.page) s.cur.pick = none → exec .pageWalk s = .next (m.reqs.foldl State.failReq u)) ∧
      (∀ e, s.walk m.part m.asid (8192 * m.page) s.cur.pick = some e → exec .pageWalk s =
        .next (m.reqs.foldl (fun x q => x.modCtx q.ctx Ctx.wake) ((m.reqs.map (·.ctx / 4)).eraseDups.foldl (fun x n => x.fillTlb n e) u))))

/-- R319, R345-R351: a pre-emption asks every unit of a partition to stop; each acknowledges; a context whose engines have all
stopped begins its save at the save label of its stop point, its registers as they were; the collector reports the partition
stopped once all has stopped; a stopped partition is swapped out and another comes back; and a saved context begins its
restore. An `lwait` on a child that is not there gives up its context in the same way, and the task resumes on a free context
of a core that serves its stage once the child has ended. The model's choices here are those of log entries 70 (what is done
before a save), 71 (device slots and the kept state), 73 (a swap is one event) and 23 (the header's translation at a resume). -/
def Obligations.PreemptionAndLwait : Prop :=
  ∀ (s : State),
    let v := s.cur.ev
    let k := ctxKey v.core v.ctx
    let c := s.ctx k
    let r := s.region c.regid
    let b := 128 * (10 + c.boundStreams + c.queueEntries)
    (s.preempted v.a = true → exec .preemptionRequest s = .next s) ∧
    (s.preempted v.a = false → ∃ t, exec .preemptionRequest s = .next t ∧ t.mem = s.mem ∧
      (t.partn v.a).preempt = some { since := s.clock, acks := [], stopped := false } ∧
      (∀ p, p ≠ v.a → t.partn p = s.partn p) ∧
      ∀ n d, (n, d) ∈ t.ctxs → d.st ≠ .idle → (s.region d.regid).part = v.a → d.preq = true) ∧
    (∀ y, r.yieldAt (c.eng .x).pc = some y → c.st = .run → (s.partn r.part).preempt ≠ none → c.xStopped = true →
      c.othersStopped = true → s.settledForSave k = true → b + 128 * y.nv ≤ 40960 →
      ∃ t, exec .contextHalt s = .next t ∧ t.mem = s.mem ∧ (t.ctx k).st = .saving false ∧ (t.ctx k).saveRes = y.restore ∧
        (t.ctx k).alr = none ∧ (∀ m, m ≠ k → t.ctx m = s.ctx m) ∧
        ∀ e, ((t.ctx k).eng e).pc = y.save ∧ ((t.ctx k).eng e).x = (c.eng e).x ∧ ((t.ctx k).eng e).p = (c.eng e).p) ∧
    (c.st ≠ .run ∨ (s.partn r.part).preempt = none → exec .contextHalt s = .next s) ∧
    (∀ d child y, (c.eng .x).wait = .lwait d child → r.yieldAt (c.eng .x).pc = some y →
      let gives := s.preempted r.part = false ∧ c.saveBad = 0 ∧ c.othersStopped = true ∧ s.settledForSave k = true ∧
        s.commandsDone k = true
      (c.st ≠ .run → exec .lwaitYield s = .next s) ∧
      (c.st = .run → r.childOver child = true → exec .lwaitYield s =
        .next ((s.modRegion c.regid fun _ => (r.lwaitResult child).2).endLwait k d (r.lwaitResult child).1)) ∧
      (c.st = .run → r.childOver child = false → gives → exec .lwaitYield s = .next (s.beginSave k y true child)) ∧
      (c.st = .run → r.childOver child = false → ¬gives → exec .lwaitYield s = .next s)) ∧
    ((c.eng .x).wait = .yield → exec .lwaitYield s =
      .next (if c.st = .saving true ∧ c.allYielded = true then s.endSave k true else s)) ∧
    (∀ id n x, (s.core v.core).serve = some (id, n) →
      (s.region id).saved.find? (fun x => x.ctx.taskid == v.a && x.done && x.ctx.stage == n) = some x →
      let free := c.st = .idle ∧ s.reservedFor k = none ∧ (s.core v.core).join = none ∧ (s.region id).aborting = false ∧
        s.preempted (s.region id).part = false
      (¬free → exec .lwaitResume s = .next s) ∧
      let head := s.areaRead k x.ctx.part x.ctx.asid (lineParts ((x.ctx.eng .x).rx 28).toNat x.ctx.saveHead)
      let back (t : State) : Prop := (t.ctx k).taskid = v.a ∧ (∀ e, ((t.ctx k).eng e).pc = x.ctx.saveRes) ∧
        (∀ m, m ≠ k → t.ctx m = s.ctx m) ∧ ∀ y ∈ (t.region id).saved, y.ctx.taskid ≠ v.a
      (∀ u, free → head = .error (some u) → exec .lwaitResume s = .next u) ∧
      (∀ u bs, free → head = .ok (u, bs) → ∃ t, exec .lwaitResume s = .next t ∧ t.mem = s.mem ∧ back t ∧
        (t.ctx k).st = .restoring true) ∧
      (free → head = .error none → x.ctx.trap = none → ∃ t, exec .lwaitResume s = .next t ∧ t.mem = s.mem ∧ back t ∧
        (t.ctx k).st = .trapped ∧
        (t.ctx k).trap = some { code := .savefault, eng := .x, pc := (x.ctx.eng .x).pc, addr := ((x.ctx.eng .x).rx 28).toNat,
                                info := 0, clock := s.clock, save := true })) ∧
    ((∀ p ∈ s.parts, ∀ q, p.2.preempt = some q → v.stop ∈ q.acks ∨ s.atBoundary p.1 v.stop = false) → exec .unitStopAck s = .next s) ∧
    (∀ p q, (s.parts.find? fun p =>
        match p.2.preempt with | some q => decide (v.stop ∉ q.acks) && s.atBoundary p.1 v.stop | none => false) = some p →
      (s.partn p.1).preempt = some q → ∃ t, exec .unitStopAck s = .next t ∧
        (t.partn p.1) = { s.partn p.1 with preempt := some { q with acks := q.acks ++ [v.stop] } } ∧
        ∀ n, n ≠ p.1 → t.partn n = s.partn n) ∧
    (∀ q, (s.partn v.a).preempt = some q → exec .collectorReport s = .next (if q.stopped = false ∧ s.partStopped v.a q.acks = true
      then s.modPart v.a fun p => { p with preempt := some { q with stopped := true } } else s)) ∧
    (let out := ∃ q, (s.partn v.a).preempt = some q ∧ q.stopped = true
     (out → v.a = v.b → exec .partitionSwap s = .next (s.swapOut v.a)) ∧
     (out → v.a ≠ v.b → exec .partitionSwap s =
       .next (if (s.swapOut v.a).canSwapIn v.b then (s.swapOut v.a).swapIn v.b else s.swapOut v.a)) ∧
     (¬out → exec .partitionSwap s = .next (if s.canSwapIn v.b then s.swapIn v.b else s))) ∧
    (let back := c.st = .saved ∧ s.preempted r.part = false ∧ r.aborting = false
     (¬back → exec .contextRestore s = .next s) ∧
     (back → ∃ t, exec .contextRestore s = .next t ∧ t.mem = s.mem ∧ (t.ctx k).st = .restoring false ∧ (t.ctx k).preq = false ∧
       (t.ctx k).queuesEmpty = true ∧ (∀ e, ((t.ctx k).eng e).pc = c.saveRes ∧ ((t.ctx k).eng e).blk = none) ∧
       ∀ m, m ≠ k → t.ctx m = s.ctx m))

/-! ## Regions -/

/-- R311-R315, R318, R323, R324, R328-R330, R343: a launch of the host enters its partition's queue with the next region
number; a waiting launch rises by a level each 50 µs, and is refused, or admitted with a permitted binding in its turn; the
balancer runs every 2 µs; a core in transit joins its stage, a free core goes to the waiting region of highest priority, and
a region that waits for a core rises too; a quiescent region is reported and completes with its record, its signal and its
reservations returned; and an abort discards what a region holds. The model's choices here are those of log entries 63 (idle
cores), 66 (fields out of range, the order of launches), 67 (the ASID of a message), 68 (what quiet means), 102 and 121 (what is
read once), 127 (a launch waits for its windows), 130 (a partition without a record), 131 (a reservation that no longer fits)
and 125 (the translation cache). -/
def Obligations.RegionsRunAndEnd : Prop :=
  ∀ (s : State),
    let v := s.cur.ev
    let r := s.region v.a
    let pick := s.cur.pick
    (s.booted = false → exec .launchMessage s = .next s ∧ exec .abortMessage s = .next s) ∧
    (s.booted = true →
      let p := s.partn v.a
      let l : Launch := { regid := s.nextReg, rcb := v.b, seed := v.c, part := v.a, asid := v.opt.getD 0 % 4096, parent := none,
                          tag := v.d, priv := false, since := s.clock }
      let g := s.region v.b
      (p.record = none → exec .launchMessage s = .next (s.send (.reply v.a 8 0))) ∧
      (p.record ≠ none → 256 ≤ p.launches.length → exec .launchMessage s = .next (s.send (.reply v.a 2 0))) ∧
      (p.record ≠ none → p.launches.length < 256 → ∃ t, exec .launchMessage s = .next t ∧ t.mem = s.mem ∧
        t.out = s.out ++ [.reply v.a 0 s.nextReg] ∧ t.nextReg = s.nextReg + 1 ∧
        (t.partn v.a).launches = p.launches ++ [l] ∧ (t.regions = s.regions)) ∧
      (g.live = true → g.part = v.a → ∃ t, exec .abortMessage s = .next t ∧ t.mem = s.mem ∧
        t.out = s.out ++ [.reply v.a 0 0] ∧ (t.region v.b).aborting = true ∧ ∀ n, n ≠ v.b → t.region n = s.region n) ∧
      (g.live = false ∨ g.part ≠ v.a → (∀ o ∈ p.launches, o.regid ≠ v.b) →
        exec .abortMessage s = .next (s.send (.reply v.a 8 0)))) ∧
    (s.findLaunch v.a = none → exec .regionAdmission s = .next s ∧ exec .launchPriorityRise s = .next s) ∧
    (∀ l, s.findLaunch v.a = some l →
      let low := s.clock < max l.since l.riseAt + 200000
      (s.preempted l.part = true → exec .regionAdmission s = .next s) ∧
      let put (t : State) (x : Launch) : State := match l.parent with
        | none => t.modPart l.part fun q => { q with launches := q.launches.map fun o => if o.regid = l.regid then x else o }
        | some g => t.modRegion g fun q => { q with launchq := q.launchq.map fun o => if o.regid = l.regid then x else o }
      (s.preempted l.part = false → l.plan = none → s.readPlan l = none →
        exec .regionAdmission s = .next (s.refuse l stDecl pick)) ∧
      (∀ p, s.preempted l.part = false → l.plan = none → s.readPlan l = some p →
        let t := s.remember l p
        ((s.partn l.part).record = none → t.planStatus l p = some stDecl) ∧
        (t.declared l p = true → t.overBudget l p.rcb = true → t.planStatus l p = some stBudget) ∧
        (∀ st, t.planStatus l p = some st → exec .regionAdmission s = .next (t.refuse l st pick)) ∧
        (t.planStatus l p = none → exec .regionAdmission s = .next (put t { l with plan := some p }))) ∧
      (∀ p, s.preempted l.part = false → l.plan = some p →
        let t := s.remember l p
        (∀ st, t.planNow l p = .error st → exec .regionAdmission s = .next (t.refuse l st pick)) ∧
        (∀ q, t.planNow l p = .ok q → q ≠ p → exec .regionAdmission s = .next (put t { l with plan := some q })) ∧
        (t.planNow l p = .ok p →
          (∀ a b, p.text = .native a b → ∀ x, p.textOf none = some x → exec .regionAdmission s =
            .next (if t.bindOk l p v.bind ∧ t.windowsReady l p v.bind ∧ t.turnOf l then t.admitLaunch l p v.bind x pick else t)) ∧
          (∀ bs, p.text = .malig bs →
            (t.idustEntry l.part bs = none → exec .regionAdmission s = .next (t.askIdust l.part bs)) ∧
            (∀ e, t.idustEntry l.part bs = some e → e.ready = false → exec .regionAdmission s = .next t) ∧
            (∀ e, t.idustEntry l.part bs = some e → e.ready = true →
              let u := t.touchIdust e
              (p.textOf e.result = none → exec .regionAdmission s = .next (u.refuse l stDecl pick)) ∧
              ∀ x, p.textOf e.result = some x → exec .regionAdmission s =
                .next (if u.bindOk l p v.bind ∧ u.windowsReady l p v.bind ∧ u.turnOf l
                  then u.admitLaunch l p v.bind x pick else u))))) ∧
      let level := min 7 ((match l.plan with | some p => p.rcb.prio | none => 0) + l.rise)
      (low ∨ (level = 7 ∧ l.top ≠ none) → exec .launchPriorityRise s = .next s) ∧
      (¬low → level < 7 → exec .launchPriorityRise s = .next (put s
        { l with rise := l.rise + 1, riseAt := s.clock, top := if level = 6 then some s.clock else none })) ∧
      (¬low → level = 7 → l.top = none → exec .launchPriorityRise s = .next (put s
        { l with top := some (max l.since l.riseAt) }))) ∧
    (r.live = true → r.aborting = false → (s.partn r.part).swapped = false →
      exec .balancerRun s = .next (if r.lastBal + 8000 ≤ s.clock then s.balance v.a pick else s)) ∧
    ((s.partn r.part).swapped = true → exec .balancerRun s = .next s) ∧
    (∀ g n, (s.core v.core).join = some (g, n) →
      (s.coreTasks v.core g ≠ 0 → exec .coreJoinStage s = .next s) ∧
      (s.coreTasks v.core g = 0 → ∃ t, exec .coreJoinStage s = .next t ∧ t.mem = s.mem ∧ (t.core v.core).serve = some (g, n) ∧
        (t.core v.core).join = none ∧
        (t.core v.core).spad = min (sramUnits v.core) ((s.region g).rcb.sram / (s.region g).rcb.cores) ∧
        (t.core v.core).allot = (t.core v.core).spad ∧ ∀ o, o ≠ v.core → t.core o = s.core o)) ∧
    ((∀ p ∈ s.regions, s.mayTake p.2 v.core = false) → exec .coreGrant s = .next s) ∧
    (∀ g, leastBy (fun (x : Region) => (7 - x.waitPrio) * 2 ^ 64 + (x.coreWait.getD (0, 0)).1)
        ((s.regions.map (·.2)).filter fun x => s.mayTake x v.core) = some g →
      exec .coreGrant s = .next ((s.takeCores g.part [v.core]).modRegion g.regid fun x =>
        { x with cores := x.cores ++ [v.core], coreWait := none })) ∧
    (∀ t n, r.coreWait = some (t, n) → r.live = true → exec .coreWaitPriorityRise s =
      .next (if t + 200000 * (n + 1) ≤ s.clock ∧ r.waitPrio < 7 then s.modRegion v.a fun x => { x with coreWait := some (t, n + 1) } else s)) ∧
    (r.live = true → r.aborting = false → r.quiet = false → exec .quiescenceReport s =
      .next (if s.quietBut v.a (fun _ => false) then s.modRegion v.a fun x => { x with quiet := true, tend := s.clock } else s)) ∧
    (r.live = false → exec .regionCompletion s = .next s ∧ exec .regionAbort s = .next s) ∧
    (r.live = true → r.aborting = false → r.quiet = true → exec .regionCompletion s = .next (s.complete v.a 0 pick)) ∧
    (r.live = true → r.aborting = true →
      exec .regionAbort s = .next (s.abortDiscards v.a) ∧
      exec .regionCompletion s = .next (if s.quietBut v.a (fun _ => false)
        then (s.modRegion v.a fun x => { x with tend := s.clock }).complete v.a stAborted pick else s)) ∧
    (∀ st t, s.writeCompletion r st = .ok t → r.parent = none →
      let u := s.complete v.a st pick
      (u.region v.a).live = false ∧ (u.region v.a).cores = [] ∧
      u.out = t.out ++ [.complete r.part v.a (r.hostTag.getD 0) st] ∧ u.mem = t.mem ∧
      ((t.partn r.part).swapped = false → ∀ c ∈ r.cores, (u.core c).serve = none ∧ (u.core c).join = none) ∧
      ((t.partn r.part).swapped = true → u.cores = t.cores))

/-! ## Columns, the rake, the host and the service -/

/-- R234-R238, R306, R307, R384: what happens to a column and to a bed: a frame begins at its offset with the plan and the cap
written before it and with a retraining that may start; a slot moves a row for the lane under its plan and the cap, or for
general access; slot 30 refreshes the next of the 72 banks and slot 31 reads a line; a retraining falls due each 8 ms, is
forced 40 µs past due and ends after its frames; a bank sleeps, and one that an access finds asleep wakes; and every 10 µs a bed
above its power cap lowers the cap of a column, and one below it for 1 ms raises one again. The model's choices here are those of
log entries 8 (errors and samples are inputs), 26 (the bank of a row), 43 (what a lane slot moves), 74 (PART and DEV of a
column's record), and 75 and 123 (the patrol). -/
def Obligations.ColumnsAtWork : Prop :=
  ∀ (s : State),
    let v := s.cur.ev
    let k := colKey v.a v.b
    let x := s.col k
    let is := v.a < 8 ∧ v.b < 68
    let off := (s.clock + 512 - 16 * (v.b % 32)) % 512
    let put (y : Column) : State := { s with cols := tput s.cols k y }
    (is → off = 0 → x.frame ≠ s.clock + 1 →
      let y : Column := { x with frame := s.clock + 1, slot := 0, laneUsed := 0, genUsed := 0, lslots := x.plan.getD x.lslots,
                                 plan := none, capk := x.capNext.getD x.capk, capNext := none }
      exec .frameBoundary s = .next (put (if s.retrains k
        then { y with retr := true, retrEnd := s.clock + 4096, owed := none, force := false } else y))) ∧
    (¬is ∨ off ≠ 0 ∨ x.frame = s.clock + 1 → exec .frameBoundary s = .next s) ∧
    (let now := is ∧ off / 16 = v.c ∧ x.slot ≤ v.c ∧ x.retr = false ∧ v.c < 30
     let le := if x.capk = 30 then x.lslots else (x.lslots * x.capk + 29) / 30
     (¬now → exec .streamingSlot s = .next s) ∧
     (now → v.c < x.lslots → x.laneUsed < le → exec .streamingSlot s =
       .next (put { x with slot := v.c + 1, laneUsed := x.laneUsed + 1,
                           rows := if 0 < s.rowsWanted k then x.rows + 1 else x.rows })) ∧
     (now → v.c < x.lslots → le ≤ x.laneUsed → exec .streamingSlot s = .next s) ∧
     (now → x.lslots ≤ v.c → exec .streamingSlot s = .next (if x.genUsed < x.capk - le
       then put { x with slot := v.c + 1, genUsed := x.genUsed + 1 } else s))) ∧
    (is → off / 16 = 30 → x.slot ≤ 30 → exec .refreshSlot s = .next (put { x with slot := 31, refresh := (x.refresh + 1) % 72 })) ∧
    (¬is ∨ off / 16 ≠ 30 ∨ 30 < x.slot → exec .refreshSlot s = .next s) ∧
    (let now := is ∧ off / 16 = 31 ∧ x.slot ≤ 31 ∧ x.retr = false
     (¬now → exec .maintenanceSlot s = .next s) ∧
     (now →
      let u := put { x with slot := 32 }
      (v.scrub = .sample → exec .maintenanceSlot s = .next u) ∧
      (∀ n, v.scrub = .writeBack n → x.fixes.find? (fun f => f.1 == n) = none → exec .maintenanceSlot s = .next u) ∧
      (∀ n ls, v.scrub = .writeBack n → x.fixes.find? (fun f => f.1 == n) = some (n, ls) →
        let w := ls.foldl (fun y l => y.countFix k n l) (u.modCol k fun y => { y with fixes := y.fixes.filter (·.1 != n) })
        exec .maintenanceSlot s = .next (if w.decodes n = true ∧ (w.col k).lost = false then w.rewritten n else w)) ∧
      (v.scrub = .patrol → exec .maintenanceSlot s =
        .next (((u.linesAt k x.patrol).foldl (fun y l => (y.readStored l).settleFix k l) u).modCol k Column.patrolled)))) ∧
    (x.patrolled = if x.patrol + 1 = 2 ^ 23 then { x with patrol := 0, corr := [] } else { x with patrol := x.patrol + 1 }) ∧
    (let due := is ∧ x.due ≤ s.clock ∧ x.owed = none ∧ x.retr = false
     (due → exec .retrainingDue s = .next (put { x with owed := some x.due, due := x.due + 32000000 })) ∧
     (¬due → exec .retrainingDue s = .next s)) ∧
    (x.owed = none → exec .retrainingForce s = .next s) ∧
    (∀ d, x.owed = some d →
      let must := is ∧ d + 160000 ≤ s.clock ∧ (s.lane k).defers = true ∧ x.force = false
      (must → exec .retrainingForce s = .next ((put { x with force := true }).colEvent k 11 (s.clock - d))) ∧
      (¬must → exec .retrainingForce s = .next s)) ∧
    (let ends := is ∧ x.retr = true ∧ x.retrEnd ≤ s.clock
     (¬ends → exec .retrainingEnd s = .next s) ∧
     (ends → v.opt = none → exec .retrainingEnd s = .next (put { x with retr := false })) ∧
     (∀ l, ends → v.opt = some l → l < 18 → exec .retrainingEnd s = .next ((put { x with retr := false }).eraseLayer k l))) ∧
    (let sleeps := is ∧ v.c < 72 ∧ v.c ∉ x.sleep ∧ v.c ∉ s.boundBanks k
     (sleeps → exec .bankSleep s = .next (put { x with sleep := v.c :: x.sleep })) ∧
     (¬sleeps → exec .bankSleep s = .next s)) ∧
    (is → v.c ∈ x.waking → exec .bankWake s =
      .next (put { x with sleep := x.sleep.filter (· != v.c), waking := x.waking.filter (· != v.c) })) ∧
    (¬is ∨ v.c ∉ x.waking → exec .bankWake s = .next s) ∧
    (∀ line, let b := Config.rowBank (line / 8) % 72
      s.columnOf line = k → b ∈ x.sleep → b ∈ ((s.touchBank line).col k).waking) ∧
    (let b := s.bed v.a
     (8 ≤ v.a ∨ s.clock < b.sample → exec .powerSample s = .next s) ∧
     (v.a < 8 → b.sample ≤ s.clock →
       let low := 100 * v.b < 95 * b.cap
       let since := if low then some (b.below.getD s.clock) else none
       let u : State := { s with beds := tput s.beds v.a { b with sample := s.clock + 40000, below := since } }
       (b.cap < v.b → exec .powerSample s = .next (u.lowerPower v.a v.c)) ∧
       (v.b ≤ b.cap → low → b.below.getD s.clock + 4000000 ≤ s.clock → exec .powerSample s = .next (u.raisePower v.a)) ∧
       (v.b ≤ b.cap → (¬low ∨ s.clock < b.below.getD s.clock + 4000000) → exec .powerSample s = .next u))) ∧
    (∀ (u : State) (b h : Nat), h ∈ u.openCols b → 10 < (u.col (colKey b h)).capLast →
      ((u.lowerPower b h).col (colKey b h)).capNext = some ((u.col (colKey b h)).capLast - 1))

/-- R36, R111, R298, R302-R305, R308-R310: the rake: a granule is written back; chunks are found for a partition's waiting
reservations; a reservation that has waited 50 µs makes its write fault and counts; a granule of the balloon list becomes
zeros and frees its chunks; a granule of a degraded column is copied, copied again where it changed, and switched once nothing
of it is pending; a migration without chunks is given up and tried again; a degraded column is drained to a spare or retired;
and at an `lsync` a group's column and lane switch to the spare. The model's choices here are those of log entries 76 (what a
switch carries over), 78 (the place of a migration), 79 (the rake does one step per event), 80 (when a spare is bound), 82 (the
ids of waits), 109 (lines that stay reserved) and 126 (where a retired column's chunks leave the count). -/
def Obligations.RakeAtWork : Prop :=
  ∀ (s : State),
    let v := s.cur.ev
    let pick := s.cur.pick
    let e := s.granule v.a
    let clean : State := let u := (s.dirtyIn v.a).foldl State.rewritten s
      { u with dirty := u.dirty.filter fun l => l / 64 != v.a }
    (tfind s.grans v.a = none → exec .l2Writeback s = .next clean ∧ exec .balloonReclaim s = .next s) ∧
    (∀ g, tfind s.grans v.a = some g → g.raw = true → exec .l2Writeback s = .next clean) ∧
    (∀ g, tfind s.grans v.a = some g → g.raw = false → ∃ t, exec .l2Writeback s = .next t ∧ t.mem = s.mem ∧
      (t.granule v.a).codes = s.codesOf g v.a ∧ (t.granule v.a).nch = chunksOf ((s.codesOf g v.a).map codeSectors).sum ∧
      (∀ l, l ∈ t.dirty ↔ l ∈ s.dirty ∧ l / 64 ≠ v.a) ∧ ∀ a, a ≠ v.a → t.granule a = s.granule a) ∧
    (let turn := s.lacks e.part ≠ 0 ∧ s.poolDraw e.part = 0 ∧ s.recompactable e.part = []
     (¬turn → exec .balloonReclaim s = .next s) ∧
     (∀ g, tfind s.grans v.a = some g → g.balloon = false → exec .balloonReclaim s = .next s) ∧
     ∀ g, tfind s.grans v.a = some g → g.balloon = true → turn → ∃ t, exec .balloonReclaim s = .next t ∧
      (∀ a, a / 8192 = v.a → memGet t.mem a = 0) ∧ (∀ a, a / 8192 ≠ v.a → memGet t.mem a = memGet s.mem a) ∧
      (∀ p ∈ t.errs, p.1 / 64 ≠ v.a) ∧
      (t.granule v.a).nch = 0 ∧ (t.granule v.a).balloon = false ∧ v.a ∉ (t.partn g.part).balloon) ∧
    (let p := s.partn v.a
     let short := if p.waits = [] then 0 else s.waitNeed v.a - (p.free - p.rsv)
     let pool := if s.poolTurn v.a then min short (min ((s.devPool.map (·.2)).sum) (p.limit - (p.free + p.held))) else 0
     (short = 0 → exec .rakeReclaim s = .next s) ∧
     (0 < pool → ∃ t, exec .rakeReclaim s = .next t ∧ t.mem = s.mem ∧ (t.partn v.a).free = p.free + pool) ∧
     (∀ g, short ≠ 0 → pool = 0 → choose (s.recompactable v.a) pick = some g → exec .rakeReclaim s = .next (s.writeBack g)) ∧
     (∀ g r, short ≠ 0 → pool = 0 → choose (s.recompactable v.a) pick = none → p.balloon = g :: r →
       exec .rakeReclaim s = .next (s.reclaimBalloon g))) ∧
    (∀ part w, (s.parts.flatMap fun p => p.2.waits.map fun w => (p.1, w))[v.a]? = some (part, w) →
      let lapses := w.since + 200000 ≤ s.clock ∧ w.migrates = false ∧ w.forText = false ∧ s.canMeet part w = false
      (¬lapses → exec .spaceTimeout s = .next s) ∧
      (lapses →
        let die := (s.granule w.granule).bed
        let u := s.modPart part fun p => { p with spc := (p.spc + 1) % 2 ^ 32, waits := p.waits.filter (· != w) }
        let core := match w.ctx with | some (k, _) => k / 4 | none => 0
        exec .spaceTimeout s =
          .next ((u.record die 6 part core false (128 * (64 * w.granule + w.line)) (s.needOf part w)).spaceFault w))) ∧
    (e.copying = none → exec .granuleMigrate s = .next (if s.movable v.a e ∧ e.tried = none then s.startCopy pick v.a else s)) ∧
    (∀ c, e.copying = some (c, true) → exec .granuleMigrate s = .next (s.setGranule v.a { e with copying := some (c, false) })) ∧
    (∀ c, e.copying = some (c, false) →
      (s.sliceClear v.a = false → exec .granuleMigrate s = .next s) ∧
      (s.sliceClear v.a = true → ∃ t, exec .granuleMigrate s = .next t ∧ t.mem = s.mem ∧ (t.granule v.a).col = c ∧
        (t.granule v.a).copying = none ∧ ∀ g, g ≠ v.a → t.granule g = s.granule g)) ∧
    (∀ w, (s.partn e.part).waits.find? (fun w => w.migrates && w.granule == v.a) = some w →
      let lapses := s.movable v.a e = true ∧ w.since + 200000 ≤ s.clock ∧ s.payMove v.a e = none
      (s.movable v.a e = false → exec .migrationTimeout s = .next (s.modPart e.part fun p =>
        { p with waits := p.waits.filter fun w => !(w.migrates && w.granule == v.a) })) ∧
      (s.movable v.a e = true → ¬lapses → exec .migrationTimeout s = .next s) ∧
      (lapses → ∃ t, exec .migrationTimeout s = .next t ∧ t.mem = s.mem ∧
        (t.partn e.part).spc = ((s.partn e.part).spc + 1) % 2 ^ 32 ∧ w ∉ (t.partn e.part).waits ∧
        (t.granule v.a).tried = some (s.partn e.part).rises ∧ (t.granule v.a).col = e.col)) ∧
    (∀ n, e.tried = some n → exec .migrationRetry s =
      .next (if n < (s.partn e.part).rises ∧ s.movable v.a e then s.startCopy pick v.a else s)) ∧
    (e.tried = none → exec .migrationRetry s = .next s) ∧
    (let x := s.col (colKey v.a v.b)
     let drains := v.a < 8 ∧ v.b < 68 ∧ x.drain = true ∧ x.retired = false ∧ v.b ∈ (s.bed v.a).bound
     (¬drains → exec .columnDrain s = .next s ∧ exec .columnRetire s = .next s) ∧
     (drains → x.target = none → choose (s.spares v.a) pick = none → exec .columnDrain s = .next s) ∧
     (∀ t, drains → (x.target = some t ∨ (x.target = none ∧ choose (s.spares v.a) pick = some t)) →
       let u := if s.columnBound (colKey v.a v.b) then s.modCol (colKey v.a v.b) (fun y => { y with target := some t })
         else s.takeOver v.a v.b t
       let gs := u.grans.filter fun p => p.2.bed == v.a && p.2.col == v.b && p.2.copying.isNone && u.movable p.1 p.2
       exec .columnDrain s = .next (gs.foldl (fun w p => w.startCopy (pick + p.1) p.1) u)) ∧
     (drains → x.target ≠ none ∨ s.spares v.a ≠ [] → exec .columnRetire s = .next s) ∧
     let back : State := { s with grans := s.grans.map fun p =>
       if p.2.bed = v.a ∧ p.2.copying.any (fun q => q.1 == v.b) then (p.1, { p.2 with copying := none }) else p }
     let room := back.columnRoom v.a v.b
     (drains → x.target = none → s.spares v.a = [] → ∃ t, exec .columnRetire s = .next t ∧ t.mem = s.mem ∧
       (t.col (colKey v.a v.b)).retired = true ∧ t.out.getLast? = some (.retired v.a) ∧
       (room ≤ tget 0 s.devPool v.a → tget 0 t.devPool v.a = tget 0 s.devPool v.a - room ∧ t.parts = s.parts) ∧
       t.devPool = (back.loseChunks v.a room pick).devPool ∧ t.parts = (back.loseChunks v.a room pick).parts)) ∧
    (∀ c t, (s.region v.a).live = true → (((s.region v.a).trellis.getD v.b {}).column)[v.c]? = some c → (s.col c).target = some t →
      let syncs := ∃ n ∈ ((s.region v.a).trellis.getD v.b {}).lane, ∃ k r, s.syncHead n = some (k, r) ∧ (s.ctx k).regid = v.a
      (¬syncs → exec .trellisSwitch s = .next s) ∧
      (syncs → exec .trellisSwitch s =
        .next (((s.moveWindows (c / 68) (c % 68) t).takeOver (c / 68) (c % 68) t).renameLane c (colKey (c / 68) t))))

/-- R300, R305, R311, R352, R359, R360, R362, R365, R374-R383: the host's requests for space and inbound RDMA, with replies,
acknowledgements and refusals; the counts of ports and links; the boot of a reset; attestation; records of the device and of
partitions, of which a refused one changes nothing; new images, and the switch to one and back within 1 s of it; a fatal
error; and the end of a translation. The model's choices here are those of log entries 5 (images, keys and what Idust makes),
8 (what the outside does is an input), 67 and 81 (the ASID and the list of a request), 83 (inbound writes and reads), 84 (how long
a port retrains), 85 (what a reset keeps), 86 and 87 (replies, and when a record or an image takes effect), 125 (the translation
cache), 128 (a new salt) and 133 (when an image is refused). -/
def Obligations.HostAndService : Prop :=
  ∀ (s : State),
    let v := s.cur.ev
    let q := v.a % 4096
    let qp := tget {} s.qps q
    let f := s.fw (fwKey v.unit)
    (s.booted = false → exec .spaceMessage s = .next s ∧ exec .balloonMessage s = .next s ∧ exec .rdmaWriteInbound s = .next s ∧
      exec .rdmaReadInbound s = .next s ∧ exec .attestationRequest s = .next s ∧ exec .firmwareImageLoad s = .next s ∧
      exec .firmwareSlotSwitch s = .next s) ∧
    (s.booted = true →
      exec .spaceMessage s = .next (s.send (.report v.a 0 (s.spaceReport v.a))) ∧
      (let asid := v.opt.getD 0 % 4096
       (s.listRead v.a asid (lineParts v.b (8 * v.c)) = none → exec .balloonMessage s = .next (s.send (.reply v.a 8 0))) ∧
       (∀ bs, s.listRead v.a asid (lineParts v.b (8 * v.c)) = some bs → ∃ t, exec .balloonMessage s = .next t ∧ t.mem = s.mem ∧
         t.out = s.out ++ [.reply v.a 0 0])) ∧
      (∀ p r, qp.pend = p :: r → exec .rdmaWriteInbound s = .next (s.rdmaWrite q (p :: r)) ∧ exec .rdmaReadInbound s = .next s) ∧
      (∀ pa bs r, (∀ h ∈ s.held, h.line ≠ pa / 128) → s.reserveLine (q / 256) pa = none → ∃ t, s.rdmaWrite q ((pa, bs) :: r) = t ∧
        t.mem = s.mem ∧ t.out = s.out ∧ (tget {} t.qps q).pend = (pa, bs) :: r) ∧
      (∀ pa bs r u, (∀ h ∈ s.held, h.line ≠ pa / 128) → s.reserveLine (q / 256) pa = some u → pa % 128 + bs.length ≤ 128 →
        (∀ i, u.hitsScb (pa + i) 1 = false) → ∃ t, s.rdmaWrite q ((pa, bs) :: r) = t ∧ (tget {} t.qps q).pend = r ∧
        (r = [] → t.out.getLast? = some (.ack q [])) ∧
        (∀ i, i < bs.length → memGet t.mem (pa + i) = bs.getD i 0) ∧
        ∀ a, a / 128 ≠ pa / 128 → memGet t.mem a = memGet u.mem a) ∧
      (qp.pend = [] → s.inWindowFor (q / 256) v.b v.c v.bytes.length true = none →
        exec .rdmaWriteInbound s = .next (s.send (.nak q false))) ∧
      (∀ w ps, qp.pend = [] → s.inWindowFor (q / 256) v.b v.c v.bytes.length true = some w →
        s.rdmaParts (q / 256) w.asid true (lineParts v.c v.bytes.length) = some ps →
        exec .rdmaWriteInbound s = .next (s.rdmaWrite q (ps.map fun p => (p.1, (v.bytes.drop p.2.1).take p.2.2)))) ∧
      (qp.pend = [] → s.inWindowFor (q / 256) v.b v.c v.d false = none →
        exec .rdmaReadInbound s = .next (s.send (.nak q false))) ∧
      (∀ w, qp.pend = [] → s.inWindowFor (q / 256) v.b v.c v.bytes.length true = some w →
        s.rdmaParts (q / 256) w.asid true (lineParts v.c v.bytes.length) = none →
        exec .rdmaWriteInbound s = .next (s.send (.nak q false))) ∧
      (∀ w, qp.pend = [] → s.inWindowFor (q / 256) v.b v.c v.d false = some w →
        s.rdmaParts (q / 256) w.asid false (lineParts v.c v.d) = none → exec .rdmaReadInbound s = .next (s.send (.nak q false))) ∧
      (∀ w ps, qp.pend = [] → s.inWindowFor (q / 256) v.b v.c v.d false = some w →
        s.rdmaParts (q / 256) w.asid false (lineParts v.c v.d) = some ps →
        let t := (ps.map fun p => p.1 / 128).foldl State.l2Fill s
        let data := ps.flatMap fun p => t.committed p.1 p.2.2
        ((∃ p ∈ ps, ∃ h ∈ s.held, h.line = p.1 / 128) → exec .rdmaReadInbound s = .next s) ∧
        ((∀ p ∈ ps, ∀ h ∈ s.held, h.line ≠ p.1 / 128) →
          (∀ p, ps.find? (fun p => t.linePoisoned (p.1 / 128)) = some p →
            let mtu := 1024 * 2 ^ (s.cur.pick % 3)
            let n := p.2.1 / mtu * mtu
            let u := t.poisonEvent (q / 256) p.1 true
            exec .rdmaReadInbound s = .next ((if n = 0 then u else u.send (.ack q (data.take n))).send (.nak q true))) ∧
          ((∀ p ∈ ps, t.linePoisoned (p.1 / 128) = false) → exec .rdmaReadInbound s = .next (t.send (.ack q data))))) ∧
      exec .attestationRequest s = .next (s.send (.attest v.a (s.attestation v.a v.nonce) (Config.identityKey s.measure)
        (Config.identitySign s.measure (s.attestation v.a v.nonce)))) ∧
      ((f.testing s.clock = true ∨ f.behind ≠ []) → exec .firmwareImageLoad s = .next s) ∧
      (∀ i, v.image = some i → f.testing s.clock = false → f.behind = [] → ∃ t, exec .firmwareImageLoad s = .next t ∧ t.mem = s.mem ∧
        (t.fw (fwKey v.unit)).runB = f.runB ∧ (t.fw (fwKey v.unit)).loaded = imageOk (s.fwCheckKey (fwKey v.unit)) i ∧
        t.fwImage (fwKey v.unit) (!f.runB) = i ∧ t.fwImage (fwKey v.unit) f.runB = s.fwImage (fwKey v.unit) f.runB) ∧
      (let goes := f.loaded = true ∧ s.quietPoint v.unit = true
       (s.quietPoint v.unit = false → exec .firmwareSlotSwitch s = .next s) ∧
       (s.quietPoint v.unit = true → f.loaded = false → ∃ t, exec .firmwareSlotSwitch s = .next t ∧ t.mem = s.mem ∧
         t.box = s.box ∧ t.measure = s.measure ∧ (∀ c, v.unit = .columns c → c ∉ (t.fw 5).behind) ∧
         (t.fw (fwKey v.unit)).runB = f.runB) ∧
       (goes → ∃ t, exec .firmwareSlotSwitch s = .next t ∧ t.mem = s.mem ∧ (t.fw (fwKey v.unit)).runB = !f.runB ∧
         (t.fw (fwKey v.unit)).trial = some s.clock ∧ (t.fw (fwKey v.unit)).behind = otherColumns v.unit ∧
         t.measure = num256 (sha256 (leBytes 32 s.measure.toNat ++ sha256 (imageBytes (s.fwImage (fwKey v.unit) (!f.runB)))))))) ∧
    exec .congestionNotification s = .next { s with qps := tput s.qps q { qp with rate := qp.rate + 1 } } ∧
    (let m := v.a % 8
     let split := match s.devNow with | some d => d.ports.getD (m / 2) false | none => false
     let n := if split then m else m / 2 * 2
     let p : Port := tget {} s.ports n
     let put (y : Port) : State := { s with ports := tput s.ports n y }
     let rest := p.paused.filter (· ≠ v.b % 8)
     exec .frameDrop s = .next (put { p with dropped := p.dropped + 1 }) ∧
     exec .priorityFlowControlFrame s = .next (put { p with paused := if v.flag then v.b % 8 :: rest else rest }) ∧
     ((∃ o ∈ s.ports, s.clock < o.2.retrain) → exec .portRetrain s = .next s) ∧
     ((∀ o ∈ s.ports, o.2.retrain ≤ s.clock) → ∃ y, exec .portRetrain s = .next (put { p with retrain := y }) ∧
       s.clock < y ∧ y ≤ s.clock + 20000000)) ∧
    (let n := v.a % 16
     let l : Link := tget {} s.links n
     exec .flitReplay s = .next { s with links := tput s.links n { l with replays := l.replays + 1 } } ∧
     exec .ucieLaneRepair s = .next { s with links := tput s.links n { l with repairs := l.repairs + 1 } }) ∧
    (let y := (s.afterReset v.flag).bootUnits (List.range 42)
     ∃ u, exec .boot s = .next u ∧ u.booted = y.2 ∧ u.recovery = !y.2 ∧ u.measure = y.1.measure ∧ u.mem = [] ∧ u.ctxs = [] ∧
       u.cores = [] ∧ u.regions = [] ∧ u.devRec = s.devRec ∧ u.dumps = s.dumps ∧ (v.flag = false → u.box = []) ∧
       (v.flag = true → ((s.fw 0).loaded = false ∨ (y.1.fw 0).runB = (s.fw 0).runB) → u.box = s.box) ∧
       (v.flag = true → (s.fw 0).loaded = true → (y.1.fw 0).runB ≠ (s.fw 0).runB →
         ∃ x, (tget [] u.box 8).getLast? = some x ∧ x.code = 10 ∧ x.unit = BitVec.ofNat 16 (fwUnitCode .security))) ∧
    (∀ r, v.record = some r →
      (s.booted = false → s.recovery = false → exec .configRecordSubmit s = .next s) ∧
      (∀ g p key, r.body = .device g p key → (s.booted = true ∨ (s.recovery = true ∧ s.devRec = none)) →
        (s.deviceOk v.a r key = false → (s.booted = true ∨ v.a = 0) →
          exec .configRecordSubmit s = .next (s.send (.reply v.a 8 0))) ∧
        (s.deviceOk v.a r key = false → s.booted = false → v.a ≠ 0 → exec .configRecordSubmit s = .next s) ∧
        (s.deviceOk v.a r key = true → ∃ t, exec .configRecordSubmit s = .next t ∧ t.mem = s.mem ∧
          t.out = s.out ++ [.reply v.a 0 0] ∧ t.devNow = s.devNow ∧ t.parts = s.parts ∧
          ∃ y, t.devRec = some y ∧ y.version = r.version.toNat ∧ y.key = key ∧ y.ring4 = g ∧ y.ports = p)) ∧
      (∀ l a b fd sg tn sl cs df, r.body = .partition l a b fd sg tn sl cs df → s.booted = true →
        (s.partitionOk v.a r cs = false → exec .configRecordSubmit s = .next (s.send (.reply v.a 8 0))) ∧
        (s.partitionOk v.a r cs = true → s.newSalt v.a sl = none → exec .configRecordSubmit s = .next s) ∧
        (s.partitionOk v.a r cs = true → ∀ u, s.newSalt v.a sl = some u → ∃ t, exec .configRecordSubmit s = .next t ∧
          ((s.partn v.a).prefixes = [] ∨ (s.partn v.a).salt = sl → t.mem = s.mem) ∧ (t.partn v.a).limit = l ∧
          (t.partn v.a).salt = sl ∧ ∃ y, (t.partn v.a).record = some y ∧ y.version = r.version.toNat ∧ y.cores = cs ∧ y.limit = l))) ∧
    (f.trial = none → exec .firmwareSwitchBack s = .next s) ∧
    (∀ t, f.trial = some t →
      (t + 4000000000 < s.clock → exec .firmwareSwitchBack s = .next s) ∧
      (s.clock ≤ t + 4000000000 → ∃ u, exec .firmwareSwitchBack s = .next u ∧ u.mem = s.mem ∧
        (u.fw (fwKey v.unit)).runB = !f.runB ∧ (u.fw (fwKey v.unit)).trial = none)) ∧
    (s.fatal ≠ none ∨ fatalUnit v.a v.b = false → exec .fatalError s = .next s) ∧
    (s.fatal = none → fatalUnit v.a v.b = true → ∃ t, exec .fatalError s = .next t ∧ t.mem = s.mem ∧ t.fatal = some (v.a, v.b) ∧
      t.dumps.length = min 4 (s.dumps.length + 1)) ∧
    (∀ e, (s.partn v.a).idust[v.b]? = some e →
      (e.ready = true → exec .idustTranslationDone s = .next s) ∧
      (e.ready = false →
        let p := s.partn v.a
        let res := idustText e.version e.malig e.feat
        let n := textChunks res
        exec .idustTranslationDone s = .next (s.storeIdust v.a e res) ∧
        ((p.idust.map (·.chunks)).sum + n ≤ Config.idustBudget v.a →
          (p.textFits e n = false → ∃ u, s.storeIdust v.a e res = u ∧ u.mem = s.mem ∧ (u.partn v.a).idust = p.idust ∧
            (u.partn v.a).free = p.free ∧ ∃ w ∈ (u.partn v.a).waits, w.id = textWaitId e.digest) ∧
          (p.textFits e n = true →
            let u := (s.storeIdust v.a e res).partn v.a
            u.free = p.free - n ∧ u.held = p.held + n ∧ (∀ w ∈ u.waits, w.id ≠ textWaitId e.digest) ∧
            u.idust = p.idust.map fun x =>
              if x = e then { x with ready := true, result := res, used := s.clock, chunks := n } else x))))
end

