-- ==== Sys2Proof/Laws/Decode.lean ====
section
/-! SUPPORT. The fields of a word: what the encoder joins the decoder splits, no two rows of the opcode maps match one
word, and prefixes read back as they were written. -/

namespace Sys2Proof

open Sys2Proof.Machine

/-! ## Fields -/

/-- Field values that fit the fields of a row. -/
def fits : List Atom → List Nat → Bool
  | [], [] => true
  | .k w v :: r, l => decide (v < 2 ^ w) && fits r l
  | .f w :: r, x :: l => decide (x < 2 ^ w) && fits r l
  | _, _ => false

theorem joinAtoms_lt : ∀ (a : List Atom) (l : List Nat), fits a l = true → joinAtoms a l < 2 ^ atomsWidth a
  | [], [], _ => by simp [joinAtoms, atomsWidth]
  | .k w v :: r, l, h => by
    simp only [fits, Bool.and_eq_true, decide_eq_true_eq] at h
    have := joinAtoms_lt r l h.2
    rw [joinAtoms, atomsWidth, atomWidth, Nat.pow_add]
    calc v * 2 ^ atomsWidth r + joinAtoms r l < v * 2 ^ atomsWidth r + 2 ^ atomsWidth r := by omega
      _ = (v + 1) * 2 ^ atomsWidth r := by ring
      _ ≤ 2 ^ w * 2 ^ atomsWidth r := Nat.mul_le_mul_right _ h.1
  | .f w :: r, x :: l, h => by
    simp only [fits, Bool.and_eq_true, decide_eq_true_eq] at h
    have := joinAtoms_lt r l h.2
    rw [joinAtoms, atomsWidth, atomWidth, Nat.pow_add]
    calc x * 2 ^ atomsWidth r + joinAtoms r l < x * 2 ^ atomsWidth r + 2 ^ atomsWidth r := by omega
      _ = (x + 1) * 2 ^ atomsWidth r := by ring
      _ ≤ 2 ^ w * 2 ^ atomsWidth r := Nat.mul_le_mul_right _ h.1
  | .f _ :: _, [], h => by simp [fits] at h
  | [], _ :: _, h => by simp [fits] at h

theorem field_of {x n w k j : Nat} (hx : x < 2 ^ w) (hj : j < 2 ^ k) : (n * 2 ^ (w + k) + (x * 2 ^ k + j)) / 2 ^ k % 2 ^ w = x := by
  have : n * 2 ^ (w + k) + (x * 2 ^ k + j) = j + 2 ^ k * (n * 2 ^ w + x) := by rw [Nat.pow_add]; ring
  rw [this, Nat.add_mul_div_left _ _ (by positivity), Nat.div_eq_of_lt hj, Nat.zero_add, Nat.mul_add_mod_of_lt' hx]
where
  Nat.mul_add_mod_of_lt' {n w x : Nat} (h : x < 2 ^ w) : (n * 2 ^ w + x) % 2 ^ w = x := by
    rw [Nat.mul_comm, Nat.mul_add_mod, Nat.mod_eq_of_lt h]

/-- What the encoder joins, the decoder splits, whatever stands above. -/
theorem splitAtoms_join : ∀ (a : List Atom) (l : List Nat) (n : Nat), fits a l = true →
    splitAtoms a (n * 2 ^ atomsWidth a + joinAtoms a l) = some l
  | [], [], _, _ => by simp [splitAtoms]
  | .k w v :: r, l, n, h => by
    simp only [fits, Bool.and_eq_true, decide_eq_true_eq] at h
    have hj := joinAtoms_lt r l h.2
    rw [joinAtoms, splitAtoms, atomsWidth, atomWidth, if_pos (field_of h.1 hj)]
    rw [show n * 2 ^ (w + atomsWidth r) + (v * 2 ^ atomsWidth r + joinAtoms r l)
      = (n * 2 ^ w + v) * 2 ^ atomsWidth r + joinAtoms r l by rw [Nat.pow_add]; ring]
    exact splitAtoms_join r l _ h.2
  | .f w :: r, x :: l, n, h => by
    simp only [fits, Bool.and_eq_true, decide_eq_true_eq] at h
    have hj := joinAtoms_lt r l h.2
    have hs := splitAtoms_join r l (n * 2 ^ w + x) h.2
    rw [show (n * 2 ^ w + x) * 2 ^ atomsWidth r + joinAtoms r l
      = n * 2 ^ (w + atomsWidth r) + (x * 2 ^ atomsWidth r + joinAtoms r l) by rw [Nat.pow_add]; ring] at hs
    rw [joinAtoms, splitAtoms, atomsWidth, atomWidth, hs]
    simp only [field_of h.1 hj]
  | .f _ :: _, [], _, h => by simp [fits] at h
  | [], _ :: _, _, h => by simp [fits] at h

/-! ## Rows -/

/-- The constant bit of a row at a position of its fields, where it has one. -/
def constBit : List Atom → Nat → Option Bool
  | [], _ => none
  | .k w v :: r, i =>
    if i < atomsWidth r then constBit r i else if i < atomsWidth r + w then some (v.testBit (i - atomsWidth r)) else none
  | .f _ :: r, i => if i < atomsWidth r then constBit r i else none

/-- Two rows differ in their major opcode, or in a bit that is constant in both. -/
def rowsClash (a b : Row) : Bool :=
  a.maj != b.maj || (List.range 52).any fun i =>
    match constBit a.atoms i, constBit b.atoms i with
    | some x, some y => x != y
    | _, _ => false

theorem splitAtoms_const : ∀ (a : List Atom) (n : Nat) (l : List Nat), splitAtoms a n = some l →
    ∀ i b, constBit a i = some b → n.testBit i = b
  | [], _, _, _, _, _, h => by simp [constBit] at h
  | .k w v :: r, n, l, hs, i, b, h => by
    rw [splitAtoms] at hs
    split at hs
    · next hv =>
      rw [constBit] at h
      split at h
      · exact splitAtoms_const r n l hs i b h
      · split at h
        · next h1 h2 =>
          cases h
          rw [← hv, Nat.testBit_mod_two_pow, Nat.testBit_div_two_pow]
          have : i - atomsWidth r + atomsWidth r = i := by omega
          rw [this]
          simp only [show i - atomsWidth r < w by omega, decide_true, Bool.true_and]
        · cases h
    · cases hs
  | .f w :: r, n, l, hs, i, b, h => by
    rw [splitAtoms] at hs
    split at hs
    · next l' hl =>
      rw [constBit] at h
      split at h
      · exact splitAtoms_const r n l' hl i b h
      · cases h
    · cases hs

/-- No word matches two rows that clash. -/
theorem clash_none {a b : Row} {n : Nat} {l : List Nat} (hm : a.maj = b.maj) (h : rowsClash a b = true)
    (hb : splitAtoms b.atoms n = some l) : splitAtoms a.atoms n = none := by
  cases ha : splitAtoms a.atoms n with
  | none => rfl
  | some l' =>
    exfalso
    unfold rowsClash at h
    simp only [hm, bne_self_eq_false, Bool.false_or, List.any_eq_true] at h
    obtain ⟨i, _, hi⟩ := h
    split at hi
    · next x y hx hy =>
      have h1 := splitAtoms_const _ _ _ ha i x hx
      have h2 := splitAtoms_const _ _ _ hb i y hy
      rw [← h1, ← h2] at hi
      simp at hi
    · cases hi

theorem findRow_of_clash {len : Len} {w : Nat} {r : Row} {v : List Nat} (hm : r.maj = wordMaj len w)
    (ht : r.tkZero = true → wordTk len w = 0) (hs : splitAtoms r.atoms (wordBody len w) = some v) :
    ∀ (l : List Row), r ∈ l → l.Pairwise (fun a b => rowsClash a b = true) → findRow len w l = some (r, v)
  | [], h, _ => by cases h
  | q :: l, h, hp => by
    rw [List.pairwise_cons] at hp
    rcases List.mem_cons.mp h with rfl | h'
    · rw [findRow, if_pos ⟨hm, ht⟩, hs]
    · have ih := findRow_of_clash hm ht hs l h' hp.2
      rw [findRow]
      split
      · next hq => rw [clash_none (hq.1.trans hm.symm) (hp.1 r h') hs]; exact ih
      · exact ih

/-- Every two rows of a list clash. -/
def allClash : List Row → Bool
  | [] => true
  | r :: l => l.all (rowsClash r) && allClash l

theorem pairwise_of_allClash : ∀ l : List Row, allClash l = true → l.Pairwise (fun a b => rowsClash a b = true)
  | [], _ => .nil
  | r :: l, h => by
    rw [allClash, Bool.and_eq_true, List.all_eq_true] at h
    exact .cons h.1 (pairwise_of_allClash l h.2)

theorem rows16_clash : allClash rows16 = true := by decide +kernel
theorem rows32_clash : allClash rows32 = true := by decide +kernel
theorem rows64_clash : allClash rows64 = true := by decide +kernel

theorem rowsOf_clash (len : Len) : (rowsOf len).Pairwise (fun a b => rowsClash a b = true) := by
  cases len
  · exact pairwise_of_allClash _ rows16_clash
  · exact pairwise_of_allClash _ rows32_clash
  · exact pairwise_of_allClash _ rows64_clash

/-! ## Codes -/

@[simp] theorem condOfCode_code (c : Cond) : condOfCode (condCode c) = some c := by cases c <;> rfl
@[simp] theorem ldFmtOfCode_code (c : LdFmt) : ldFmtOfCode (ldFmtCode c) = some c := by cases c <;> rfl
@[simp] theorem widthOfCode_code (c : Width) : widthOfCode (widthCode c) = some c := by cases c <;> rfl
@[simp] theorem aSizeOfCode_code (c : ASize) : aSizeOfCode (aSizeCode c) = some c := by cases c <;> rfl
@[simp] theorem intEtOfCode_code (c : IntEt) : intEtOfCode (intEtCode c) = some c := by cases c <;> rfl
@[simp] theorem fltEtOfCode_code (c : FltEt) : fltEtOfCode (fltEtCode c) = some c := by cases c <;> rfl
@[simp] theorem fltEt3OfCode_code (c : FltEt3) : fltEt3OfCode (fltEt3Code c) = some c := by cases c <;> rfl
@[simp] theorem cFltOfCode_code (c : CFlt) : cFltOfCode (cFltCode c) = some c := by cases c <;> rfl
@[simp] theorem vCondOfCode_code (c : VCond) : vCondOfCode (vCondCode c) = some c := by cases c <;> rfl
@[simp] theorem fCondOfCode_code (c : FCond) : fCondOfCode (fCondCode c) = some c := by cases c <;> rfl
@[simp] theorem tModeOfCode_code (c : TMode) : tModeOfCode (tModeCode c) = some c := by cases c <;> rfl
@[simp] theorem sel3OfCode_code (c : Sel3) : sel3OfCode (sel3Code c) = some c := by cases c <;> rfl

@[simp] theorem vsrcOfCode_code (c : VSrc) : vsrcOfCode (vsrcCode c) = some c := by
  rcases c with n | n | n <;> revert n <;> decide

@[simp] theorem vdstOfCode_code (c : VDst) : vdstOfCode (vdstCode c) = some c := by
  rcases c with n | n | n | n <;> revert n <;> decide

@[simp] theorem xOrBkOfCode_code (c : XOrBk) : xOrBkOfCode (xOrBkCode c) = some c := by
  rcases c with n | n <;> revert n <;> decide

theorem condCode_lt (c : Cond) : condCode c < 16 := by cases c <;> decide
theorem ldFmtCode_lt (c : LdFmt) : ldFmtCode c < 8 := by cases c <;> decide
theorem widthCode_lt (c : Width) : widthCode c < 4 := by cases c <;> decide
theorem aSizeCode_lt (c : ASize) : aSizeCode c < 4 := by cases c <;> decide
theorem intEtCode_lt (c : IntEt) : intEtCode c < 64 := by cases c <;> decide
theorem fltEtCode_lt (c : FltEt) : fltEtCode c < 64 := by cases c <;> decide
theorem fltEt3Code_lt (c : FltEt3) : fltEt3Code c < 64 := by cases c <;> decide
theorem cFltCode_lt (c : CFlt) : cFltCode c < 4 := by cases c <;> decide
theorem vCondCode_lt (c : VCond) : vCondCode c < 8 := by cases c <;> decide
theorem fCondCode_lt (c : FCond) : fCondCode c < 8 := by cases c <;> decide
theorem tModeCode_lt (c : TMode) : tModeCode c < 4 := by cases c <;> decide
theorem sel3Code_lt (c : Sel3) : sel3Code c < 4 := by cases c <;> decide
theorem vsrcCode_lt (c : VSrc) : vsrcCode c < 128 := by
  rcases c with n | n | n <;> have h := n.isLt <;> simp only [vsrcCode] <;> omega
theorem vdstCode_lt (c : VDst) : vdstCode c < 128 := by
  rcases c with n | n | n | n <;> have h := n.isLt <;> simp only [vdstCode] <;> omega
theorem xOrBkCode_lt (c : XOrBk) : xOrBkCode c < 128 := by
  rcases c with n | n <;> have h := n.isLt <;> simp only [xOrBkCode] <;> omega

/-- A field of a row that holds a value back as the pattern it came from. -/
@[simp] theorem bv_toNat {w : Nat} (n : BitVec w) : BitVec.ofNat w n.toNat = n := by
  rw [BitVec.ofNat_toNat, BitVec.setWidth_eq]

theorem wellFormed_iff (i : Instr) : wellFormed i = true ↔ instrIsEvent i = false ∧
    pfxOk (instrAccepts i) (instrMods i).pfx = true ∧ (instrTkZero i = true → (instrMods i).tk = 0) ∧ valueOk i = true := by
  unfold wellFormed formError
  cases instrIsEvent i <;> cases pfxOk (instrAccepts i) (instrMods i).pfx <;> cases instrTkZero i <;>
    cases valueOk i <;> simp
  split <;> simp

theorem formError_of_wellFormed {i : Instr} (h : wellFormed i = true) : formError i = none := by
  simpa [wellFormed] using h

theorem sysError_none {k : Sys} {m : Mods} {d a b : Reg} (hp : pfxOk { guard := true } m.pfx = true) (ht : m.tk = 0)
    (hk : k = .rcbq → b.toNat < 14) : decError (.sys k m d a b) = none := by
  cases k <;> first | rfl | (simp [decError, hp, ht]; done) | (simp [decError, hp, ht]; exact hk rfl)

theorem bfOk_ext {m : Mods} {k : Nat} {n : BitVec 4} {p : BitVec 6} (h : bfOk m k n p = true) : bfExt m / 4 = k := by
  simp only [bfOk, Bool.and_eq_true, decide_eq_true_eq, beq_iff_eq] at h
  exact h.1

/-! ## Prefixes -/

/-- How many kinds of prefix a form accepts. -/
def acceptCount (a : Accepts) : Nat :=
  (if a.rnd = .no then 0 else 1) + (if a.ord = .no then 0 else 1) + a.rext.toNat + a.imm.toNat + a.guard.toNat

theorem encodePfx_length {a : Accepts} {p : Pfx} (h : pfxOk a p = true) : (encodePfx p).length ≤ acceptCount a := by
  obtain ⟨r, o, x, k, g⟩ := p
  obtain ⟨ar, ao, ax, ak, ag⟩ := a
  simp only [pfxOk, Bool.and_eq_true] at h
  obtain ⟨⟨⟨⟨hr, ho⟩, hx⟩, hk⟩, hg⟩ := h
  have h1 : (match r with
      | some r => [BitVec.ofNat 16 (r.ftz.toNat * 512 + r.sat.toNat * 256 + rmCode r.rm * 32 + 3)]
      | none => []).length ≤ if ar = .no then 0 else 1 := by
    cases r <;> cases ar <;> simp_all [rndOk]
  have h2 : (match o with
      | some o => [BitVec.ofNat 16 (scopeCode o.scope * 128 + o.rel.toNat * 64 + o.acq.toNat * 32 + 7)]
      | none => []).length ≤ if ao = .no then 0 else 1 := by
    cases o <;> cases ao <;> simp_all [ordOk]
  have h3 : (match x with
      | some r => [BitVec.ofNat 16 (r.toNat * 32 + 11)]
      | none => []).length ≤ ax.toNat := by
    cases x <;> cases ax <;> simp_all
  have h4 : (match k with
      | some k => [BitVec.ofNat 16 (k.toNat * 32 + 15)]
      | none => []).length ≤ ak.toNat := by
    cases k <;> cases ak <;> simp_all
  have h5 : (match g with
      | some g => [BitVec.ofNat 16 (g.sense.toNat * 256 + g.pred.toNat * 32 + 19)]
      | none => []).length ≤ ag.toNat := by
    cases g <;> cases ag <;> simp_all
  simp only [encodePfx, List.length_append, acceptCount]
  exact Nat.add_le_add (Nat.add_le_add (Nat.add_le_add (Nat.add_le_add h1 h2) h3) h4) h5

/-- A prefix parcel of kind `k`: LEN 11 and the kind above it (R55). -/
theorem ofNat_kind {n k : Nat} (hn : n % 32 = k * 4 + 3) (_hk : k < 8) :
    parcelLen (BitVec.ofNat 16 n) = 3 ∧ prefixKind (BitVec.ofNat 16 n) = k := by
  simp only [parcelLen, prefixKind, BitVec.toNat_ofNat]
  omega

theorem addPrefix_rnd (a : Pfx) (r : RndPfx) (h : a.rnd = none) :
    addPrefix a (BitVec.ofNat 16 (r.ftz.toNat * 512 + r.sat.toNat * 256 + rmCode r.rm * 32 + 3)) =
      .ok { a with rnd := some r } := by
  obtain ⟨f, s, m⟩ := r
  unfold addPrefix
  cases f <;> cases s <;> rcases m with _ | m <;> try cases m
  all_goals simp [prefixKind, rmCode, h, rmOfCode]
  all_goals decide

theorem addPrefix_ord (a : Pfx) (o : OrdPfx) (h : a.ord = none) :
    addPrefix a (BitVec.ofNat 16 (scopeCode o.scope * 128 + o.rel.toNat * 64 + o.acq.toNat * 32 + 7)) =
      .ok { a with ord := some o } := by
  obtain ⟨c, r, q⟩ := o
  unfold addPrefix
  cases c <;> cases r <;> cases q <;> simp [prefixKind, scopeCode, h, scopeOfCode] <;> decide

theorem addPrefix_rext (a : Pfx) (r : BitVec 8) (h : a.rext = none) :
    addPrefix a (BitVec.ofNat 16 (r.toNat * 32 + 11)) = .ok { a with rext := some r } := by
  have := r.isLt
  unfold addPrefix
  have h1 : prefixKind (BitVec.ofNat 16 (r.toNat * 32 + 11)) = 2 := (ofNat_kind (k := 2) (by omega) (by omega)).2
  have h2 : (BitVec.ofNat 16 (r.toNat * 32 + 11)).toNat = r.toNat * 32 + 11 := by
    rw [BitVec.toNat_ofNat]; omega
  simp only [h1, h2, h]
  rw [if_neg (by simp), if_pos (by omega), show (r.toNat * 32 + 11) / 32 = r.toNat by omega, bv_toNat]

theorem addPrefix_imm (a : Pfx) (k : BitVec 11) (h : a.imm = none) :
    addPrefix a (BitVec.ofNat 16 (k.toNat * 32 + 15)) = .ok { a with imm := some k } := by
  have := k.isLt
  unfold addPrefix
  have h1 : prefixKind (BitVec.ofNat 16 (k.toNat * 32 + 15)) = 3 := (ofNat_kind (k := 3) (by omega) (by omega)).2
  have h2 : (BitVec.ofNat 16 (k.toNat * 32 + 15)).toNat = k.toNat * 32 + 15 := by
    rw [BitVec.toNat_ofNat]; omega
  simp only [h1, h2, h]
  rw [if_neg (by simp), show (k.toNat * 32 + 15) / 32 = k.toNat by omega, bv_toNat]

theorem addPrefix_guard (a : Pfx) (g : Guard) (h : a.guard = none) :
    addPrefix a (BitVec.ofNat 16 (g.sense.toNat * 256 + g.pred.toNat * 32 + 19)) = .ok { a with guard := some g } := by
  obtain ⟨p, s⟩ := g
  have := p.isLt
  unfold addPrefix
  have h1 : prefixKind (BitVec.ofNat 16 (s.toNat * 256 + p.toNat * 32 + 19)) = 4 :=
    (ofNat_kind (k := 4) (by omega) (by omega)).2
  have h2 : (BitVec.ofNat 16 (s.toNat * 256 + p.toNat * 32 + 19)).toNat = s.toNat * 256 + p.toNat * 32 + 19 := by
    rw [BitVec.toNat_ofNat]; cases s <;> simp <;> omega
  simp only [h1, h2, h]
  have h3 : BitVec.ofNat 3 ((s.toNat * 256 + p.toNat * 32 + 19) / 32) = p := by
    apply BitVec.eq_of_toNat_eq; rw [BitVec.toNat_ofNat]; cases s <;> simp <;> omega
  have h4 : (s.toNat * 256 + p.toNat * 32 + 19).testBit 8 = s := by
    rw [Nat.testBit_eq_decide_div_mod_eq]; cases s <;> simp <;> omega
  rw [if_neg (by simp), if_pos (by cases s <;> simp <;> omega), h3, h4]

end Sys2Proof
end

