-- ==== Sys2Proof/Laws/Forms.lean ====
section
/-! SUPPORT. Every instruction of a body is `issue` of the form that `formOf` gives it: one lemma for each, and one for all
of them. -/

namespace Sys2Proof.Machine

/-- An instruction is `issue` of its form, with some effect of its own. -/
def Formed (i : Instr) (s : State) : Prop := ∃ body, exec i s = issue (formOf i s) s body

theorem compact_form (m : Mods) (d a b : Reg) {d' : VDst} {a' b' : VSrc} (hd : compactDst m d = some d')
    (ha : compactA m a = some a') (hb : compactB m b = some b') :
    ({ mods := m, cls := .only false false true false,
       srcs := (([compactA m a, compactB m b].filterMap id).flatMap srcQueue).eraseDups,
       dsts := match compactDst m d with | some d => dstQueue d | none => [], regs := [] } : Form) =
      vecForm m (some d') [a', b'] [] := by
  rw [hd, ha, hb]; rfl

theorem compact_formed (i : Instr) (m : Mods) (d a b : Reg) (s : State)
    (f : VDst → VSrc → VSrc → Host.Outcome State Fault Refusal) (hi : exec i s = compact m d a b s f)
    (h : ∀ d' a' b', compactDst m d = some d' → compactA m a = some a' → compactB m b = some b' →
      ∃ body, f d' a' b' = issue (formOf i s) s body) :
    Formed i s ∨ (compactOk m d a b = false ∧ exec i s = .next (s.trapHere .illop)) := by
  unfold compact at hi
  split at hi
  · next d' a' b' hd ha hb =>
    obtain ⟨body, hb'⟩ := h d' a' b' hd ha hb
    exact .inl ⟨body, hi.trans hb'⟩
  · next hn =>
    refine .inr ⟨?_, hi⟩
    unfold compactOk
    cases hd : compactDst m d <;> cases ha : compactA m a <;> cases hb : compactB m b <;> simp
    exact (hn _ _ _ hd ha hb).elim

theorem form_mov16 d a (s : State) : Formed (.mov16 d a) s := by
  show ∃ body, execMov16 d a s = _
  unfold execMov16 aluOp; exact ⟨_, rfl⟩

theorem form_addi16 d k (s : State) : Formed (.addi16 d k) s := by
  show ∃ body, execAddi16 d k s = _
  unfold execAddi16 aluOp; exact ⟨_, rfl⟩

theorem form_li16 d k (s : State) : Formed (.li16 d k) s := by
  show ∃ body, execLi16 d k s = _
  unfold execLi16 aluOp; exact ⟨_, rfl⟩

theorem form_add16 d a (s : State) : Formed (.add16 d a) s := by
  show ∃ body, execAdd16 d a s = _
  unfold execAdd16 aluOp; exact ⟨_, rfl⟩

theorem form_sub16 d a (s : State) : Formed (.sub16 d a) s := by
  show ∃ body, execSub16 d a s = _
  unfold execSub16 aluOp; exact ⟨_, rfl⟩

theorem form_and16 d a (s : State) : Formed (.and16 d a) s := by
  show ∃ body, execAnd16 d a s = _
  unfold execAnd16 aluOp; exact ⟨_, rfl⟩

theorem form_or16 d a (s : State) : Formed (.or16 d a) s := by
  show ∃ body, execOr16 d a s = _
  unfold execOr16 aluOp; exact ⟨_, rfl⟩

theorem form_xor16 d a (s : State) : Formed (.xor16 d a) s := by
  show ∃ body, execXor16 d a s = _
  unfold execXor16 aluOp; exact ⟨_, rfl⟩

theorem form_shli16 d k (s : State) : Formed (.shli16 d k) s := by
  show ∃ body, execShli16 d k s = _
  unfold execShli16 aluOp; exact ⟨_, rfl⟩

theorem form_shri16 d k (s : State) : Formed (.shri16 d k) s := by
  show ∃ body, execShri16 d k s = _
  unfold execShri16 aluOp; exact ⟨_, rfl⟩

theorem form_srai16 d k (s : State) : Formed (.srai16 d k) s := by
  show ∃ body, execSrai16 d k s = _
  unfold execSrai16 aluOp; exact ⟨_, rfl⟩

theorem form_add m d a b (s : State) : Formed (.add m d a b) s := by
  show ∃ body, execAdd m d a b s = _
  unfold execAdd aluOp; exact ⟨_, rfl⟩

theorem form_sub m d a b (s : State) : Formed (.sub m d a b) s := by
  show ∃ body, execSub m d a b s = _
  unfold execSub aluOp; exact ⟨_, rfl⟩

theorem form_mul m d a b (s : State) : Formed (.mul m d a b) s := by
  show ∃ body, execMul m d a b s = _
  unfold execMul aluOp; exact ⟨_, rfl⟩

theorem form_mulh m d a b (s : State) : Formed (.mulh m d a b) s := by
  show ∃ body, execMulh m d a b s = _
  unfold execMulh aluOp; exact ⟨_, rfl⟩

theorem form_mulhU m d a b (s : State) : Formed (.mulhU m d a b) s := by
  show ∃ body, execMulhU m d a b s = _
  unfold execMulhU aluOp; exact ⟨_, rfl⟩

theorem form_div m d a b (s : State) : Formed (.div m d a b) s := by
  show ∃ body, execDiv m d a b s = _
  unfold execDiv aluOp; exact ⟨_, rfl⟩

theorem form_divU m d a b (s : State) : Formed (.divU m d a b) s := by
  show ∃ body, execDivU m d a b s = _
  unfold execDivU aluOp; exact ⟨_, rfl⟩

theorem form_rem m d a b (s : State) : Formed (.rem m d a b) s := by
  show ∃ body, execRem m d a b s = _
  unfold execRem aluOp; exact ⟨_, rfl⟩

theorem form_remU m d a b (s : State) : Formed (.remU m d a b) s := by
  show ∃ body, execRemU m d a b s = _
  unfold execRemU aluOp; exact ⟨_, rfl⟩

theorem form_and m d a b (s : State) : Formed (.and m d a b) s := by
  show ∃ body, execAnd m d a b s = _
  unfold execAnd aluOp; exact ⟨_, rfl⟩

theorem form_or m d a b (s : State) : Formed (.or m d a b) s := by
  show ∃ body, execOr m d a b s = _
  unfold execOr aluOp; exact ⟨_, rfl⟩

theorem form_xor m d a b (s : State) : Formed (.xor m d a b) s := by
  show ∃ body, execXor m d a b s = _
  unfold execXor aluOp; exact ⟨_, rfl⟩

theorem form_andn m d a b (s : State) : Formed (.andn m d a b) s := by
  show ∃ body, execAndn m d a b s = _
  unfold execAndn aluOp; exact ⟨_, rfl⟩

theorem form_shl m d a b (s : State) : Formed (.shl m d a b) s := by
  show ∃ body, execShl m d a b s = _
  unfold execShl aluOp; exact ⟨_, rfl⟩

theorem form_shr m d a b (s : State) : Formed (.shr m d a b) s := by
  show ∃ body, execShr m d a b s = _
  unfold execShr aluOp; exact ⟨_, rfl⟩

theorem form_sra m d a b (s : State) : Formed (.sra m d a b) s := by
  show ∃ body, execSra m d a b s = _
  unfold execSra aluOp; exact ⟨_, rfl⟩

theorem form_rot m d a b (s : State) : Formed (.rot m d a b) s := by
  show ∃ body, execRot m d a b s = _
  unfold execRot aluOp; exact ⟨_, rfl⟩

theorem form_min m d a b (s : State) : Formed (.min m d a b) s := by
  show ∃ body, execMin m d a b s = _
  unfold execMin aluOp; exact ⟨_, rfl⟩

theorem form_minU m d a b (s : State) : Formed (.minU m d a b) s := by
  show ∃ body, execMinU m d a b s = _
  unfold execMinU aluOp; exact ⟨_, rfl⟩

theorem form_max m d a b (s : State) : Formed (.max m d a b) s := by
  show ∃ body, execMax m d a b s = _
  unfold execMax aluOp; exact ⟨_, rfl⟩

theorem form_maxU m d a b (s : State) : Formed (.maxU m d a b) s := by
  show ∃ body, execMaxU m d a b s = _
  unfold execMaxU aluOp; exact ⟨_, rfl⟩

theorem form_clz m d a (s : State) : Formed (.clz m d a) s := by
  show ∃ body, execClz m d a s = _
  unfold execClz aluOp; exact ⟨_, rfl⟩

theorem form_ctz m d a (s : State) : Formed (.ctz m d a) s := by
  show ∃ body, execCtz m d a s = _
  unfold execCtz aluOp; exact ⟨_, rfl⟩

theorem form_popc m d a (s : State) : Formed (.popc m d a) s := by
  show ∃ body, execPopc m d a s = _
  unfold execPopc aluOp; exact ⟨_, rfl⟩

theorem form_sextB m d a (s : State) : Formed (.sextB m d a) s := by
  show ∃ body, execSextB m d a s = _
  unfold execSextB aluOp; exact ⟨_, rfl⟩

theorem form_sextH m d a (s : State) : Formed (.sextH m d a) s := by
  show ∃ body, execSextH m d a s = _
  unfold execSextH aluOp; exact ⟨_, rfl⟩

theorem form_sextW m d a (s : State) : Formed (.sextW m d a) s := by
  show ∃ body, execSextW m d a s = _
  unfold execSextW aluOp; exact ⟨_, rfl⟩

theorem form_zextB m d a (s : State) : Formed (.zextB m d a) s := by
  show ∃ body, execZextB m d a s = _
  unfold execZextB aluOp; exact ⟨_, rfl⟩

theorem form_zextH m d a (s : State) : Formed (.zextH m d a) s := by
  show ∃ body, execZextH m d a s = _
  unfold execZextH aluOp; exact ⟨_, rfl⟩

theorem form_zextW m d a (s : State) : Formed (.zextW m d a) s := by
  show ∃ body, execZextW m d a s = _
  unfold execZextW aluOp; exact ⟨_, rfl⟩

theorem form_mov m d a (s : State) : Formed (.mov m d a) s := by
  show ∃ body, execMov m d a s = _
  unfold execMov aluOp; exact ⟨_, rfl⟩

theorem form_addi m d a k (s : State) : Formed (.addi m d a k) s := by
  show ∃ body, execAddi m d a k s = _
  unfold execAddi aluOp; exact ⟨_, rfl⟩

theorem form_andi m d a k (s : State) : Formed (.andi m d a k) s := by
  show ∃ body, execAndi m d a k s = _
  unfold execAndi aluOp; exact ⟨_, rfl⟩

theorem form_ori m d a k (s : State) : Formed (.ori m d a k) s := by
  show ∃ body, execOri m d a k s = _
  unfold execOri aluOp; exact ⟨_, rfl⟩

theorem form_xori m d a k (s : State) : Formed (.xori m d a k) s := by
  show ∃ body, execXori m d a k s = _
  unfold execXori aluOp; exact ⟨_, rfl⟩

theorem form_shli m d a k (s : State) : Formed (.shli m d a k) s := by
  show ∃ body, execShli m d a k s = _
  unfold execShli aluOp; exact ⟨_, rfl⟩

theorem form_shri m d a k (s : State) : Formed (.shri m d a k) s := by
  show ∃ body, execShri m d a k s = _
  unfold execShri aluOp; exact ⟨_, rfl⟩

theorem form_srai m d a k (s : State) : Formed (.srai m d a k) s := by
  show ∃ body, execSrai m d a k s = _
  unfold execSrai aluOp; exact ⟨_, rfl⟩

theorem form_li m d k (s : State) : Formed (.li m d k) s := by
  show ∃ body, execLi m d k s = _
  unfold execLi aluOp; exact ⟨_, rfl⟩

theorem form_lih m d k (s : State) : Formed (.lih m d k) s := by
  show ∃ body, execLih m d k s = _
  unfold execLih aluOp; exact ⟨_, rfl⟩

theorem form_li64 m d k (s : State) : Formed (.li64 m d k) s := by
  show ∃ body, execLi64 m d k s = _
  unfold execLi64 aluOp; exact ⟨_, rfl⟩

theorem form_madd m d a b c (s : State) : Formed (.madd m d a b c) s := by
  show ∃ body, execMadd m d a b c s = _
  unfold execMadd aluOp; exact ⟨_, rfl⟩

theorem form_sel m d a b k0 p (s : State) : Formed (.sel m d a b k0 p) s := by
  show ∃ body, execSel m d a b k0 p s = _
  unfold execSel; exact ⟨_, rfl⟩

theorem form_bext m d a n p (s : State) : Formed (.bext m d a n p) s := by
  show ∃ body, execBext m d a n p s = _
  unfold execBext aluOp; exact ⟨_, rfl⟩

theorem form_bextS m d a n p (s : State) : Formed (.bextS m d a n p) s := by
  show ∃ body, execBextS m d a n p s = _
  unfold execBextS aluOp; exact ⟨_, rfl⟩

theorem form_bins m d a n p (s : State) : Formed (.bins m d a n p) s := by
  show ∃ body, execBins m d a n p s = _
  unfold execBins aluOp; exact ⟨_, rfl⟩

theorem form_lea m d a b k0 (s : State) : Formed (.lea m d a b k0) s := by
  show ∃ body, execLea m d a b k0 s = _
  unfold execLea aluOp; exact ⟨_, rfl⟩

theorem form_cmp m c p a b (s : State) : Formed (.cmp m c p a b) s := by
  show ∃ body, execCmp m c p a b s = _
  unfold execCmp predOp; exact ⟨_, rfl⟩

theorem form_cmpi m c p a k (s : State) : Formed (.cmpi m c p a k) s := by
  show ∃ body, execCmpi m c p a k s = _
  unfold execCmpi predOp; exact ⟨_, rfl⟩

theorem form_pand m d a b (s : State) : Formed (.pand m d a b) s := by
  show ∃ body, execPand m d a b s = _
  unfold execPand predOp; exact ⟨_, rfl⟩

theorem form_por m d a b (s : State) : Formed (.por m d a b) s := by
  show ∃ body, execPor m d a b s = _
  unfold execPor predOp; exact ⟨_, rfl⟩

theorem form_pxor m d a b (s : State) : Formed (.pxor m d a b) s := by
  show ∃ body, execPxor m d a b s = _
  unfold execPxor predOp; exact ⟨_, rfl⟩

theorem form_pnot m d a (s : State) : Formed (.pnot m d a) s := by
  show ∃ body, execPnot m d a s = _
  unfold execPnot predOp; exact ⟨_, rfl⟩

theorem form_bra o (s : State) : Formed (.bra o) s := by
  show ∃ body, execBra o s = _
  unfold execBra; exact ⟨_, rfl⟩

theorem form_bc p k0 o (s : State) : Formed (.bc p k0 o) s := by
  show ∃ body, execBc p k0 o s = _
  unfold execBc; exact ⟨_, rfl⟩

theorem form_call o (s : State) : Formed (.call o) s := by
  show ∃ body, execCall o s = _
  unfold execCall; exact ⟨_, rfl⟩

theorem form_bq k0 o (s : State) : Formed (.bq k0 o) s := by
  show ∃ body, execBq k0 o s = _
  unfold execBq; exact ⟨_, rfl⟩

theorem form_bx a (s : State) : Formed (.bx a) s := by
  show ∃ body, execBx a s = _
  unfold execBx; exact ⟨_, rfl⟩

theorem form_bcast p e i (s : State) : Formed (.bcast p e i) s := by
  show ∃ body, execBcast p e i s = _
  unfold execBcast; exact ⟨_, rfl⟩

theorem form_xsend m e a (s : State) : Formed (.xsend m e a) s := by
  show ∃ body, execXsend m e a s = _
  unfold execXsend; exact ⟨_, rfl⟩

theorem form_xrecv m d (s : State) : Formed (.xrecv m d) s := by
  show ∃ body, execXrecv m d s = _
  unfold execXrecv; exact ⟨_, rfl⟩

theorem form_mfs m d n (s : State) : Formed (.mfs m d n) s := by
  show ∃ body, execMfs m d n s = _
  unfold execMfs; exact ⟨_, rfl⟩

theorem form_mts m a n (s : State) : Formed (.mts m a n) s := by
  show ∃ body, execMts m a n s = _
  unfold execMts; exact ⟨_, rfl⟩

theorem form_feat m d n (s : State) : Formed (.feat m d n) s := by
  show ∃ body, execFeat m d n s = _
  unfold execFeat aluOp; exact ⟨_, rfl⟩

theorem form_clock m d (s : State) : Formed (.clock m d) s := by
  show ∃ body, execClock m d s = _
  unfold execClock aluOp; exact ⟨_, rfl⟩

theorem form_roleid m d n (s : State) : Formed (.roleid m d n) s := by
  show ∃ body, execRoleid m d n s = _
  unfold execRoleid aluOp; exact ⟨_, rfl⟩

theorem form_ldl m d a f o (s : State) : Formed (.ldl m d a f o) s := by
  show ∃ body, execLdl m d a f o s = _
  unfold execLdl scalarLoad; exact ⟨_, rfl⟩

theorem form_ldp m d a f o (s : State) : Formed (.ldp m d a f o) s := by
  show ∃ body, execLdp m d a f o s = _
  unfold execLdp scalarLoad; exact ⟨_, rfl⟩

theorem form_ldg m d a f o (s : State) : Formed (.ldg m d a f o) s := by
  show ∃ body, execLdg m d a f o s = _
  unfold execLdg scalarLoad; exact ⟨_, rfl⟩

theorem form_stl m d a w o (s : State) : Formed (.stl m d a w o) s := by
  show ∃ body, execStl m d a w o s = _
  unfold execStl scalarStore; exact ⟨_, rfl⟩

theorem form_stp m d a w o (s : State) : Formed (.stp m d a w o) s := by
  show ∃ body, execStp m d a w o s = _
  unfold execStp scalarStore; exact ⟨_, rfl⟩

theorem form_stg m d a w o (s : State) : Formed (.stg m d a w o) s := by
  show ∃ body, execStg m d a w o s = _
  unfold execStg scalarStore; exact ⟨_, rfl⟩

theorem form_pfg m a k (s : State) : Formed (.pfg m a k) s := by
  show ∃ body, execPfg m a k s = _
  unfold execPfg lineOp; exact ⟨_, rfl⟩

theorem form_l1inv m a k (s : State) : Formed (.l1inv m a k) s := by
  show ∃ body, execL1inv m a k s = _
  unfold execL1inv lineOp; exact ⟨_, rfl⟩

theorem form_l1invAll m (s : State) : Formed (.l1invAll m) s := by
  show ∃ body, execL1invAll m s = _
  unfold execL1invAll; exact ⟨_, rfl⟩

theorem form_mark m (s : State) : Formed (.mark m) s := by
  show ∃ body, execMark m s = _
  unfold execMark; exact ⟨_, rfl⟩

theorem form_fence m (s : State) : Formed (.fence m) s := by
  show ∃ body, execFence m s = _
  unfold execFence; exact ⟨_, rfl⟩

theorem form_qfence m a k (s : State) : Formed (.qfence m a k) s := by
  show ∃ body, execQfence m a k s = _
  unfold execQfence; exact ⟨_, rfl⟩

theorem form_tkpush n (s : State) : Formed (.tkpush n) s := by
  show ∃ body, execTkpush n s = _
  unfold execTkpush; exact ⟨_, rfl⟩

theorem form_tkpop n (s : State) : Formed (.tkpop n) s := by
  show ∃ body, execTkpop n s = _
  unfold execTkpop; exact ⟨_, rfl⟩

theorem form_barinit m a b (s : State) : Formed (.barinit m a b) s := by
  show ∃ body, execBarinit m a b s = _
  unfold execBarinit; exact ⟨_, rfl⟩

theorem form_bararr m d a b (s : State) : Formed (.bararr m d a b) s := by
  show ∃ body, execBararr m d a b s = _
  unfold execBararr; exact ⟨_, rfl⟩

theorem form_barwait m d a b (s : State) : Formed (.barwait m d a b) s := by
  show ∃ body, execBarwait m d a b s = _
  unfold execBarwait; exact ⟨_, rfl⟩

theorem form_vldl m q a b nb k (s : State) : Formed (.vldl m q a b nb k) s := by
  show ∃ body, execVldl m q a b nb k s = _
  unfold execVldl vectorLoad; exact ⟨_, rfl⟩

theorem form_vldp m q a b nb k (s : State) : Formed (.vldp m q a b nb k) s := by
  show ∃ body, execVldp m q a b nb k s = _
  unfold execVldp vectorLoad; exact ⟨_, rfl⟩

theorem form_vldg m q a b nb k (s : State) : Formed (.vldg m q a b nb k) s := by
  show ∃ body, execVldg m q a b nb k s = _
  unfold execVldg; split
  · exact ⟨_, rfl⟩
  · unfold vectorLoad; exact ⟨_, rfl⟩

theorem form_vstl m q a b nb k (s : State) : Formed (.vstl m q a b nb k) s := by
  show ∃ body, execVstl m q a b nb k s = _
  unfold execVstl vectorStore; exact ⟨_, rfl⟩

theorem form_vstp m q a b nb k (s : State) : Formed (.vstp m q a b nb k) s := by
  show ∃ body, execVstp m q a b nb k s = _
  unfold execVstp vectorStore; exact ⟨_, rfl⟩

theorem form_vstg m q a b nb k (s : State) : Formed (.vstg m q a b nb k) s := by
  show ∃ body, execVstg m q a b nb k s = _
  unfold execVstg; split
  · exact ⟨_, rfl⟩
  · unfold vectorStore; exact ⟨_, rfl⟩

theorem form_vgl m q a b e n (s : State) : Formed (.vgl m q a b e n) s := by
  show ∃ body, execVgl m q a b e n s = _
  unfold execVgl gather; exact ⟨_, rfl⟩

theorem form_vgg m q a b e n (s : State) : Formed (.vgg m q a b e n) s := by
  show ∃ body, execVgg m q a b e n s = _
  unfold execVgg gather; exact ⟨_, rfl⟩

theorem form_vsl m q a b e n (s : State) : Formed (.vsl m q a b e n) s := by
  show ∃ body, execVsl m q a b e n s = _
  unfold execVsl scatter; exact ⟨_, rfl⟩

theorem form_vsg m q a b e n (s : State) : Formed (.vsg m q a b e n) s := by
  show ∃ body, execVsg m q a b e n s = _
  unfold execVsg scatter; exact ⟨_, rfl⟩

theorem form_aadd m d a b w k (s : State) : Formed (.aadd m d a b w k) s := by
  show ∃ body, execAadd m d a b w k s = _
  unfold execAadd atomic; exact ⟨_, rfl⟩

theorem form_aand m d a b w k (s : State) : Formed (.aand m d a b w k) s := by
  show ∃ body, execAand m d a b w k s = _
  unfold execAand atomic; exact ⟨_, rfl⟩

theorem form_aor m d a b w k (s : State) : Formed (.aor m d a b w k) s := by
  show ∃ body, execAor m d a b w k s = _
  unfold execAor atomic; exact ⟨_, rfl⟩

theorem form_axor m d a b w k (s : State) : Formed (.axor m d a b w k) s := by
  show ∃ body, execAxor m d a b w k s = _
  unfold execAxor atomic; exact ⟨_, rfl⟩

theorem form_amin m d a b u w k (s : State) : Formed (.amin m d a b u w k) s := by
  show ∃ body, execAmin m d a b u w k s = _
  unfold execAmin atomic; exact ⟨_, rfl⟩

theorem form_amax m d a b u w k (s : State) : Formed (.amax m d a b u w k) s := by
  show ∃ body, execAmax m d a b u w k s = _
  unfold execAmax atomic; exact ⟨_, rfl⟩

theorem form_aswp m d a b w k (s : State) : Formed (.aswp m d a b w k) s := by
  show ∃ body, execAswp m d a b w k s = _
  unfold execAswp atomic; exact ⟨_, rfl⟩

theorem form_acas m d a b c w k (s : State) : Formed (.acas m d a b c w k) s := by
  show ∃ body, execAcas m d a b c w k s = _
  unfold execAcas atomic; exact ⟨_, rfl⟩

theorem form_afadd m d a b w k (s : State) : Formed (.afadd m d a b w k) s := by
  show ∃ body, execAfadd m d a b w k s = _
  unfold execAfadd atomic; exact ⟨_, rfl⟩

theorem form_abinc m d a b w k (s : State) : Formed (.abinc m d a b w k) s := by
  show ∃ body, execAbinc m d a b w k s = _
  unfold execAbinc atomic; exact ⟨_, rfl⟩

theorem form_alrb m a k (s : State) : Formed (.alrb m a k) s := by
  show ∃ body, execAlrb m a k s = _
  unfold execAlrb; exact ⟨_, rfl⟩

theorem form_alrl m d a z w o (s : State) : Formed (.alrl m d a z w o) s := by
  show ∃ body, execAlrl m d a z w o s = _
  unfold execAlrl; exact ⟨_, rfl⟩

theorem form_alrs m a b w o (s : State) : Formed (.alrs m a b w o) s := by
  show ∃ body, execAlrs m a b w o s = _
  unfold execAlrs; exact ⟨_, rfl⟩

theorem form_alrc m d (s : State) : Formed (.alrc m d) s := by
  show ∃ body, execAlrc m d s = _
  unfold execAlrc; exact ⟨_, rfl⟩

theorem form_vaddC m d a b e (s : State) :
    Formed (.vaddC m d a b e) s ∨ (compactOk m d a b = false ∧ exec (.vaddC m d a b e) s = .next (s.trapHere .illop)) := by
  refine compact_formed _ m d a b s _ (by rfl) ?_
  intro d' a' b' hd ha hb
  have e : formOf (.vaddC m d a b e) s = vecForm m (some d') [a', b'] [] := compact_form m d a b hd ha hb
  unfold intOp2 vecOp
  rw [e]
  exact ⟨_, rfl⟩

theorem form_vsubC m d a b e (s : State) :
    Formed (.vsubC m d a b e) s ∨ (compactOk m d a b = false ∧ exec (.vsubC m d a b e) s = .next (s.trapHere .illop)) := by
  refine compact_formed _ m d a b s _ (by rfl) ?_
  intro d' a' b' hd ha hb
  have e : formOf (.vsubC m d a b e) s = vecForm m (some d') [a', b'] [] := compact_form m d a b hd ha hb
  unfold intOp2 vecOp
  rw [e]
  exact ⟨_, rfl⟩

theorem form_vmulC m d a b e (s : State) :
    Formed (.vmulC m d a b e) s ∨ (compactOk m d a b = false ∧ exec (.vmulC m d a b e) s = .next (s.trapHere .illop)) := by
  refine compact_formed _ m d a b s _ (by rfl) ?_
  intro d' a' b' hd ha hb
  have e : formOf (.vmulC m d a b e) s = vecForm m (some d') [a', b'] [] := compact_form m d a b hd ha hb
  unfold intOp2 vecOp
  rw [e]
  exact ⟨_, rfl⟩

theorem form_vandC m d a b e (s : State) :
    Formed (.vandC m d a b e) s ∨ (compactOk m d a b = false ∧ exec (.vandC m d a b e) s = .next (s.trapHere .illop)) := by
  refine compact_formed _ m d a b s _ (by rfl) ?_
  intro d' a' b' hd ha hb
  have e : formOf (.vandC m d a b e) s = vecForm m (some d') [a', b'] [] := compact_form m d a b hd ha hb
  unfold bitOp vecOp
  rw [e]
  exact ⟨_, rfl⟩

theorem form_vorC m d a b e (s : State) :
    Formed (.vorC m d a b e) s ∨ (compactOk m d a b = false ∧ exec (.vorC m d a b e) s = .next (s.trapHere .illop)) := by
  refine compact_formed _ m d a b s _ (by rfl) ?_
  intro d' a' b' hd ha hb
  have e : formOf (.vorC m d a b e) s = vecForm m (some d') [a', b'] [] := compact_form m d a b hd ha hb
  unfold bitOp vecOp
  rw [e]
  exact ⟨_, rfl⟩

theorem form_vxorC m d a b e (s : State) :
    Formed (.vxorC m d a b e) s ∨ (compactOk m d a b = false ∧ exec (.vxorC m d a b e) s = .next (s.trapHere .illop)) := by
  refine compact_formed _ m d a b s _ (by rfl) ?_
  intro d' a' b' hd ha hb
  have e : formOf (.vxorC m d a b e) s = vecForm m (some d') [a', b'] [] := compact_form m d a b hd ha hb
  unfold bitOp vecOp
  rw [e]
  exact ⟨_, rfl⟩

theorem form_vminC m d a b e (s : State) :
    Formed (.vminC m d a b e) s ∨ (compactOk m d a b = false ∧ exec (.vminC m d a b e) s = .next (s.trapHere .illop)) := by
  refine compact_formed _ m d a b s _ (by rfl) ?_
  intro d' a' b' hd ha hb
  have e : formOf (.vminC m d a b e) s = vecForm m (some d') [a', b'] [] := compact_form m d a b hd ha hb
  unfold intOp2 vecOp
  rw [e]
  exact ⟨_, rfl⟩

theorem form_vmaxC m d a b e (s : State) :
    Formed (.vmaxC m d a b e) s ∨ (compactOk m d a b = false ∧ exec (.vmaxC m d a b e) s = .next (s.trapHere .illop)) := by
  refine compact_formed _ m d a b s _ (by rfl) ?_
  intro d' a' b' hd ha hb
  have e : formOf (.vmaxC m d a b e) s = vecForm m (some d') [a', b'] [] := compact_form m d a b hd ha hb
  unfold intOp2 vecOp
  rw [e]
  exact ⟨_, rfl⟩

theorem form_vfaddC m d a b e (s : State) :
    Formed (.vfaddC m d a b e) s ∨ (compactOk m d a b = false ∧ exec (.vfaddC m d a b e) s = .next (s.trapHere .illop)) := by
  refine compact_formed _ m d a b s _ (by rfl) ?_
  intro d' a' b' hd ha hb
  have e : formOf (.vfaddC m d a b e) s = vecForm m (some d') [a', b'] [] := compact_form m d a b hd ha hb
  unfold fltOp2 vecOp
  rw [e]
  exact ⟨_, rfl⟩

theorem form_vfsubC m d a b e (s : State) :
    Formed (.vfsubC m d a b e) s ∨ (compactOk m d a b = false ∧ exec (.vfsubC m d a b e) s = .next (s.trapHere .illop)) := by
  refine compact_formed _ m d a b s _ (by rfl) ?_
  intro d' a' b' hd ha hb
  have e : formOf (.vfsubC m d a b e) s = vecForm m (some d') [a', b'] [] := compact_form m d a b hd ha hb
  unfold fltOp2 vecOp
  rw [e]
  exact ⟨_, rfl⟩

theorem form_vfmulC m d a b e (s : State) :
    Formed (.vfmulC m d a b e) s ∨ (compactOk m d a b = false ∧ exec (.vfmulC m d a b e) s = .next (s.trapHere .illop)) := by
  refine compact_formed _ m d a b s _ (by rfl) ?_
  intro d' a' b' hd ha hb
  have e : formOf (.vfmulC m d a b e) s = vecForm m (some d') [a', b'] [] := compact_form m d a b hd ha hb
  unfold fltOp2 vecOp
  rw [e]
  exact ⟨_, rfl⟩

theorem form_vfminC m d a b e (s : State) :
    Formed (.vfminC m d a b e) s ∨ (compactOk m d a b = false ∧ exec (.vfminC m d a b e) s = .next (s.trapHere .illop)) := by
  refine compact_formed _ m d a b s _ (by rfl) ?_
  intro d' a' b' hd ha hb
  have e : formOf (.vfminC m d a b e) s = vecForm m (some d') [a', b'] [] := compact_form m d a b hd ha hb
  unfold pickOp vecOp
  rw [e]
  exact ⟨_, rfl⟩

theorem form_vfmaxC m d a b e (s : State) :
    Formed (.vfmaxC m d a b e) s ∨ (compactOk m d a b = false ∧ exec (.vfmaxC m d a b e) s = .next (s.trapHere .illop)) := by
  refine compact_formed _ m d a b s _ (by rfl) ?_
  intro d' a' b' hd ha hb
  have e : formOf (.vfmaxC m d a b e) s = vecForm m (some d') [a', b'] [] := compact_form m d a b hd ha hb
  unfold pickOp vecOp
  rw [e]
  exact ⟨_, rfl⟩

theorem form_vadd m d a b u et (s : State) : Formed (.vadd m d a b u et) s := by
  show ∃ body, execVadd m d a b u et s = _
  unfold execVadd intOp2 vecOp; exact ⟨_, rfl⟩

theorem form_vsub m d a b u et (s : State) : Formed (.vsub m d a b u et) s := by
  show ∃ body, execVsub m d a b u et s = _
  unfold execVsub intOp2 vecOp; exact ⟨_, rfl⟩

theorem form_vmul m d a b u et (s : State) : Formed (.vmul m d a b u et) s := by
  show ∃ body, execVmul m d a b u et s = _
  unfold execVmul intOp2 vecOp; exact ⟨_, rfl⟩

theorem form_vmulh m d a b u et (s : State) : Formed (.vmulh m d a b u et) s := by
  show ∃ body, execVmulh m d a b u et s = _
  unfold execVmulh intOp2 vecOp; exact ⟨_, rfl⟩

theorem form_vmadd m d a b c u et (s : State) : Formed (.vmadd m d a b c u et) s := by
  show ∃ body, execVmadd m d a b c u et s = _
  unfold execVmadd vecOp; exact ⟨_, rfl⟩

theorem form_vmin m d a b u et (s : State) : Formed (.vmin m d a b u et) s := by
  show ∃ body, execVmin m d a b u et s = _
  unfold execVmin intOp2 vecOp; exact ⟨_, rfl⟩

theorem form_vmax m d a b u et (s : State) : Formed (.vmax m d a b u et) s := by
  show ∃ body, execVmax m d a b u et s = _
  unfold execVmax intOp2 vecOp; exact ⟨_, rfl⟩

theorem form_vand m d a b u et (s : State) : Formed (.vand m d a b u et) s := by
  show ∃ body, execVand m d a b u et s = _
  unfold execVand bitOp vecOp; exact ⟨_, rfl⟩

theorem form_vor m d a b u et (s : State) : Formed (.vor m d a b u et) s := by
  show ∃ body, execVor m d a b u et s = _
  unfold execVor bitOp vecOp; exact ⟨_, rfl⟩

theorem form_vxor m d a b u et (s : State) : Formed (.vxor m d a b u et) s := by
  show ∃ body, execVxor m d a b u et s = _
  unfold execVxor bitOp vecOp; exact ⟨_, rfl⟩

theorem form_vshl m d a b u et (s : State) : Formed (.vshl m d a b u et) s := by
  show ∃ body, execVshl m d a b u et s = _
  unfold execVshl shiftOp vecOp; exact ⟨_, rfl⟩

theorem form_vshr m d a b u et (s : State) : Formed (.vshr m d a b u et) s := by
  show ∃ body, execVshr m d a b u et s = _
  unfold execVshr shiftOp vecOp; exact ⟨_, rfl⟩

theorem form_vsra m d a b u et (s : State) : Formed (.vsra m d a b u et) s := by
  show ∃ body, execVsra m d a b u et s = _
  unfold execVsra shiftOp vecOp; exact ⟨_, rfl⟩

theorem form_vabs m d a u et (s : State) : Formed (.vabs m d a u et) s := by
  show ∃ body, execVabs m d a u et s = _
  unfold execVabs intOp1 vecOp; exact ⟨_, rfl⟩

theorem form_vneg m d a u et (s : State) : Formed (.vneg m d a u et) s := by
  show ∃ body, execVneg m d a u et s = _
  unfold execVneg intOp1 vecOp; exact ⟨_, rfl⟩

theorem form_vcmp m d a b pe pd c u et (s : State) : Formed (.vcmp m d a b pe pd c u et) s := by
  show ∃ body, execVcmp m d a b pe pd c u et s = _
  unfold execVcmp cmpOp; exact ⟨_, rfl⟩

theorem form_vsel m d a b c u et (s : State) : Formed (.vsel m d a b c u et) s := by
  show ∃ body, execVsel m d a b c u et s = _
  unfold execVsel vecOp; exact ⟨_, rfl⟩

theorem form_vpopc m d a u et (s : State) : Formed (.vpopc m d a u et) s := by
  show ∃ body, execVpopc m d a u et s = _
  unfold execVpopc vecOp; exact ⟨_, rfl⟩

theorem form_vfadd m d a b et (s : State) : Formed (.vfadd m d a b et) s := by
  show ∃ body, execVfadd m d a b et s = _
  unfold execVfadd fltOp2 vecOp; exact ⟨_, rfl⟩

theorem form_vfsub m d a b et (s : State) : Formed (.vfsub m d a b et) s := by
  show ∃ body, execVfsub m d a b et s = _
  unfold execVfsub fltOp2 vecOp; exact ⟨_, rfl⟩

theorem form_vfmul m d a b et (s : State) : Formed (.vfmul m d a b et) s := by
  show ∃ body, execVfmul m d a b et s = _
  unfold execVfmul fltOp2 vecOp; exact ⟨_, rfl⟩

theorem form_vfma m d a b c et (s : State) : Formed (.vfma m d a b c et) s := by
  show ∃ body, execVfma m d a b c et s = _
  unfold execVfma vecOp; exact ⟨_, rfl⟩

theorem form_vfmin m d a b et (s : State) : Formed (.vfmin m d a b et) s := by
  show ∃ body, execVfmin m d a b et s = _
  unfold execVfmin pickOp vecOp; exact ⟨_, rfl⟩

theorem form_vfmax m d a b et (s : State) : Formed (.vfmax m d a b et) s := by
  show ∃ body, execVfmax m d a b et s = _
  unfold execVfmax pickOp vecOp; exact ⟨_, rfl⟩

theorem form_vfcmp m d a b pe pd c et (s : State) : Formed (.vfcmp m d a b pe pd c et) s := by
  show ∃ body, execVfcmp m d a b pe pd c et s = _
  unfold execVfcmp cmpOp; exact ⟨_, rfl⟩

theorem form_vfrcp m d a et (s : State) : Formed (.vfrcp m d a et) s := by
  show ∃ body, execVfrcp m d a et s = _
  unfold execVfrcp fltOp1 vecOp; exact ⟨_, rfl⟩

theorem form_vfrsq m d a et (s : State) : Formed (.vfrsq m d a et) s := by
  show ∃ body, execVfrsq m d a et s = _
  unfold execVfrsq fltOp1 vecOp; exact ⟨_, rfl⟩

theorem form_vfexp2 m d a et (s : State) : Formed (.vfexp2 m d a et) s := by
  show ∃ body, execVfexp2 m d a et s = _
  unfold execVfexp2 fltOp1 vecOp; exact ⟨_, rfl⟩

theorem form_vflog2 m d a et (s : State) : Formed (.vflog2 m d a et) s := by
  show ∃ body, execVflog2 m d a et s = _
  unfold execVflog2 fltOp1 vecOp; exact ⟨_, rfl⟩

theorem form_vftanh m d a et (s : State) : Formed (.vftanh m d a et) s := by
  show ∃ body, execVftanh m d a et s = _
  unfold execVftanh fltOp1 vecOp; exact ⟨_, rfl⟩

theorem form_vcvt m d a k sf tf (s : State) : Formed (.vcvt m d a k sf tf) s := by
  show ∃ body, execVcvt m d a k sf tf s = _
  unfold execVcvt vecOp; exact ⟨_, rfl⟩

theorem form_vqnt m d a b k scm sf tf (s : State) : Formed (.vqnt m d a b k scm sf tf) s := by
  show ∃ body, execVqnt m d a b k scm sf tf s = _
  unfold execVqnt vecOp; exact ⟨_, rfl⟩

theorem form_vdqnt m d a k sf tf (s : State) : Formed (.vdqnt m d a k sf tf) s := by
  show ∃ body, execVdqnt m d a k sf tf s = _
  unfold execVdqnt vecOp; exact ⟨_, rfl⟩

theorem form_vpack m d a f (s : State) : Formed (.vpack m d a f) s := by
  show ∃ body, execVpack m d a f s = _
  unfold execVpack vecOp; exact ⟨_, rfl⟩

theorem form_vunpk m d a f (s : State) : Formed (.vunpk m d a f) s := by
  show ∃ body, execVunpk m d a f s = _
  unfold execVunpk vecOp; exact ⟨_, rfl⟩

theorem form_vradd m d a u et (s : State) : Formed (.vradd m d a u et) s := by
  show ∃ body, execVradd m d a u et s = _
  unfold execVradd vecOp; exact ⟨_, rfl⟩

theorem form_vrmax m d a u et (s : State) : Formed (.vrmax m d a u et) s := by
  show ∃ body, execVrmax m d a u et s = _
  unfold execVrmax vecOp; exact ⟨_, rfl⟩

theorem form_vfradd m d a et (s : State) : Formed (.vfradd m d a et) s := by
  show ∃ body, execVfradd m d a et s = _
  unfold execVfradd vecOp; exact ⟨_, rfl⟩

theorem form_vfrmax m d a et (s : State) : Formed (.vfrmax m d a et) s := by
  show ∃ body, execVfrmax m d a et s = _
  unfold execVfrmax vecOp; exact ⟨_, rfl⟩

theorem form_vperm m d a b c w (s : State) : Formed (.vperm m d a b c w) s := by
  show ∃ body, execVperm m d a b c w s = _
  unfold execVperm vecOp; exact ⟨_, rfl⟩

theorem form_vrot m d a k w (s : State) : Formed (.vrot m d a k w) s := by
  show ∃ body, execVrot m d a k w s = _
  unfold execVrot vecOp; exact ⟨_, rfl⟩

theorem form_vbcast m d a k w (s : State) : Formed (.vbcast m d a k w) s := by
  show ∃ body, execVbcast m d a k w s = _
  unfold execVbcast vecOp; exact ⟨_, rfl⟩

theorem form_vext m d a k k0 w (s : State) : Formed (.vext m d a k k0 w) s := by
  show ∃ body, execVext m d a k k0 w s = _
  unfold execVext; exact ⟨_, rfl⟩

theorem form_vins m d a b k w (s : State) : Formed (.vins m d a b k w) s := by
  show ∃ body, execVins m d a b k w s = _
  unfold execVins vecOp; exact ⟨_, rfl⟩

theorem form_vcomp m d a b w (s : State) : Formed (.vcomp m d a b w) s := by
  show ∃ body, execVcomp m d a b w s = _
  unfold execVcomp vecOp; exact ⟨_, rfl⟩

theorem form_vexpd m d a b w (s : State) : Formed (.vexpd m d a b w) s := by
  show ∃ body, execVexpd m d a b w s = _
  unfold execVexpd vecOp; exact ⟨_, rfl⟩

theorem form_vmrg3 m d a b c k0 (s : State) : Formed (.vmrg3 m d a b c k0) s := by
  show ∃ body, execVmrg3 m d a b c k0 s = _
  unfold execVmrg3 vecOp; exact ⟨_, rfl⟩

theorem form_vmov m d a (s : State) : Formed (.vmov m d a) s := by
  show ∃ body, execVmov m d a s = _
  unfold execVmov vecOp; exact ⟨_, rfl⟩

theorem form_vli m d r w k (s : State) : Formed (.vli m d r w k) s := by
  show ∃ body, execVli m d r w k s = _
  unfold execVli vecOp; exact ⟨_, rfl⟩

theorem form_vsplat m d a w (s : State) : Formed (.vsplat m d a w) s := by
  show ∃ body, execVsplat m d a w s = _
  unfold execVsplat vecOp; exact ⟨_, rfl⟩

theorem form_sbind m z a k (s : State) : Formed (.sbind m z a k) s := by
  show ∃ body, execSbind m z a k s = _
  unfold execSbind; exact ⟨_, rfl⟩

theorem form_sbop m z a (s : State) : Formed (.sbop m z a) s := by
  show ∃ body, execSbop m z a s = _
  unfold execSbop; exact ⟨_, rfl⟩

theorem form_sunbind m z now (s : State) : Formed (.sunbind m z now) s := by
  show ∃ body, execSunbind m z now s = _
  unfold execSunbind; exact ⟨_, rfl⟩

theorem form_sadv m z a (s : State) : Formed (.sadv m z a) s := by
  show ∃ body, execSadv m z a s = _
  unfold execSadv; exact ⟨_, rfl⟩

theorem form_sstat m d z (s : State) : Formed (.sstat m d z) s := by
  show ∃ body, execSstat m d z s = _
  unfold execSstat; exact ⟨_, rfl⟩

theorem form_lcfg m a b (s : State) : Formed (.lcfg m a b) s := by
  show ∃ body, execLcfg m a b s = _
  unfold execLcfg laneMacro; exact ⟨_, rfl⟩

theorem form_lstat m d a (s : State) : Formed (.lstat m d a) s := by
  show ∃ body, execLstat m d a s = _
  unfold execLstat; exact ⟨_, rfl⟩

theorem form_lfence m a (s : State) : Formed (.lfence m a) s := by
  show ∃ body, execLfence m a s = _
  unfold execLfence laneMacro; exact ⟨_, rfl⟩

theorem form_lsync m a (s : State) : Formed (.lsync m a) s := by
  show ∃ body, execLsync m a s = _
  unfold execLsync laneMacro; exact ⟨_, rfl⟩

theorem form_lwst m a b c f (s : State) : Formed (.lwst m a b c f) s := by
  show ∃ body, execLwst m a b c f s = _
  unfold execLwst laneMacro; exact ⟨_, rfl⟩

theorem form_lact m a b c f (s : State) : Formed (.lact m a b c f) s := by
  show ∃ body, execLact m a b c f s = _
  unfold execLact laneMacro; exact ⟨_, rfl⟩

theorem form_lmac m a b z (s : State) : Formed (.lmac m a b z) s := by
  show ∃ body, execLmac m a b z s = _
  unfold execLmac laneMacro; exact ⟨_, rfl⟩

theorem form_laccz m a (s : State) : Formed (.laccz m a) s := by
  show ∃ body, execLaccz m a s = _
  unfold execLaccz laneMacro; exact ⟨_, rfl⟩

theorem form_laccr m a b c f (s : State) : Formed (.laccr m a b c f) s := by
  show ∃ body, execLaccr m a b c f s = _
  unfold execLaccr laneMacro; exact ⟨_, rfl⟩

theorem form_lred m a b c clr ring f (s : State) : Formed (.lred m a b c clr ring f) s := by
  show ∃ body, execLred m a b c clr ring f s = _
  unfold execLred laneMacro; exact ⟨_, rfl⟩

theorem form_mlay m a b l ws we ss se (s : State) : Formed (.mlay m a b l ws we ss se) s := by
  show ∃ body, execMlay m a b l ws we ss se s = _
  unfold execMlay matCommand matInstr; exact ⟨_, rfl⟩

theorem form_munf m a b id ws we ss se (s : State) : Formed (.munf m a b id ws we ss se) s := by
  show ∃ body, execMunf m a b id ws we ss se s = _
  unfold execMunf matCommand matInstr; exact ⟨_, rfl⟩

theorem form_mld m a b c l ws we ss se (s : State) : Formed (.mld m a b c l ws we ss se) s := by
  show ∃ body, execMld m a b c l ws we ss se s = _
  unfold execMld matCommand matInstr; exact ⟨_, rfl⟩

theorem form_mmul m a b u t ws we ss se (s : State) : Formed (.mmul m a b u t ws we ss se) s := by
  show ∃ body, execMmul m a b u t ws we ss se s = _
  unfold execMmul matCommand matInstr; exact ⟨_, rfl⟩

theorem form_mdrn m a b g t ws we ss se (s : State) : Formed (.mdrn m a b g t ws we ss se) s := by
  show ∃ body, execMdrn m a b g t ws we ss se s = _
  unfold execMdrn matCommand matInstr; exact ⟨_, rfl⟩

theorem form_mzero m mode t ws we ss se (s : State) : Formed (.mzero m mode t ws we ss se) s := by
  show ∃ body, execMzero m mode t ws we ss se s = _
  unfold execMzero matCommand matInstr; exact ⟨_, rfl⟩

theorem form_msemSig m k0 n (s : State) : Formed (.msemSig m k0 n) s := by
  show ∃ body, execMsemSig m k0 n s = _
  unfold execMsemSig matInstr; exact ⟨_, rfl⟩

theorem form_msemWait m k0 n (s : State) : Formed (.msemWait m k0 n) s := by
  show ∃ body, execMsemWait m k0 n s = _
  unfold execMsemWait matInstr; exact ⟨_, rfl⟩

theorem form_msemRd m d k0 (s : State) : Formed (.msemRd m d k0) s := by
  show ∃ body, execMsemRd m d k0 s = _
  unfold execMsemRd matInstr; exact ⟨_, rfl⟩

theorem form_msemSt m d (s : State) : Formed (.msemSt m d) s := by
  show ∃ body, execMsemSt m d s = _
  unfold execMsemSt matInstr; exact ⟨_, rfl⟩

theorem form_xcopy m a b ren ten tag (s : State) : Formed (.xcopy m a b ren ten tag) s := by
  show ∃ body, execXcopy m a b ren ten tag s = _
  unfold execXcopy xferCmd; exact ⟨_, rfl⟩

theorem form_xgath m a b ren ten tag (s : State) : Formed (.xgath m a b ren ten tag) s := by
  show ∃ body, execXgath m a b ren ten tag s = _
  unfold execXgath xferCmd; exact ⟨_, rfl⟩

theorem form_xscat m a b ren ten tag (s : State) : Formed (.xscat m a b ren ten tag) s := by
  show ∃ body, execXscat m a b ren ten tag s = _
  unfold execXscat xferCmd; exact ⟨_, rfl⟩

theorem form_xscadd m a b ren ten tag (s : State) : Formed (.xscadd m a b ren ten tag) s := by
  show ∃ body, execXscadd m a b ren ten tag s = _
  unfold execXscadd xferCmd; exact ⟨_, rfl⟩

theorem form_xfill m a b ren ten tag (s : State) : Formed (.xfill m a b ren ten tag) s := by
  show ∃ body, execXfill m a b ren ten tag s = _
  unfold execXfill xferCmd; exact ⟨_, rfl⟩

theorem form_xring m a b ren ten tag (s : State) : Formed (.xring m a b ren ten tag) s := by
  show ∃ body, execXring m a b ren ten tag s = _
  unfold execXring xferCmd; exact ⟨_, rfl⟩

theorem form_creq m a b ren ten tag (s : State) : Formed (.creq m a b ren ten tag) s := by
  show ∃ body, execCreq m a b ren ten tag s = _
  unfold execCreq xferCmd; exact ⟨_, rfl⟩

theorem form_sqnew m d a b bl (s : State) : Formed (.sqnew m d a b bl) s := by
  show ∃ body, execSqnew m d a b bl s = _
  unfold execSqnew seqOp; exact ⟨_, rfl⟩

theorem form_sqres m d a b (s : State) : Formed (.sqres m d a b) s := by
  show ∃ body, execSqres m d a b s = _
  unfold execSqres seqOp; exact ⟨_, rfl⟩

theorem form_sqrest m d a b (s : State) : Formed (.sqrest m d a b) s := by
  show ∃ body, execSqrest m d a b s = _
  unfold execSqrest seqOp; exact ⟨_, rfl⟩

theorem form_sqcmt m d a b c (s : State) : Formed (.sqcmt m d a b c) s := by
  show ∃ body, execSqcmt m d a b c s = _
  unfold execSqcmt seqOp; exact ⟨_, rfl⟩

theorem form_sqacc m d a b (s : State) : Formed (.sqacc m d a b) s := by
  show ∃ body, execSqacc m d a b s = _
  unfold execSqacc seqOp; exact ⟨_, rfl⟩

theorem form_sqwd m d a (s : State) : Formed (.sqwd m d a) s := by
  show ∃ body, execSqwd m d a s = _
  unfold execSqwd seqOp; exact ⟨_, rfl⟩

theorem form_sqfree m d a (s : State) : Formed (.sqfree m d a) s := by
  show ∃ body, execSqfree m d a s = _
  unfold execSqfree seqOp; exact ⟨_, rfl⟩

theorem form_sqfork m d a b (s : State) : Formed (.sqfork m d a b) s := by
  show ∃ body, execSqfork m d a b s = _
  unfold execSqfork; exact ⟨_, rfl⟩

theorem form_sqlen m d a (s : State) : Formed (.sqlen m d a) s := by
  show ∃ body, execSqlen m d a s = _
  unfold execSqlen seqOp; exact ⟨_, rfl⟩

theorem form_sqwait m d a b c (s : State) : Formed (.sqwait m d a b c) s := by
  show ∃ body, execSqwait m d a b c s = _
  unfold execSqwait; exact ⟨_, rfl⟩

theorem form_sqpin m d a (s : State) : Formed (.sqpin m d a) s := by
  show ∃ body, execSqpin m d a s = _
  unfold execSqpin seqOp; exact ⟨_, rfl⟩

theorem form_squnpin m d a (s : State) : Formed (.squnpin m d a) s := by
  show ∃ body, execSqunpin m d a s = _
  unfold execSqunpin seqOp; exact ⟨_, rfl⟩

theorem form_sqext m d a b k (s : State) : Formed (.sqext m d a b k) s := by
  show ∃ body, execSqext m d a b k s = _
  unfold execSqext seqOp; exact ⟨_, rfl⟩

theorem form_ldq m d a b c ch (s : State) : Formed (.ldq m d a b c ch) s := by
  show ∃ body, execLdq m d a b c ch s = _
  unfold execLdq; exact ⟨_, rfl⟩

theorem form_vldq m q a b c ch (s : State) : Formed (.vldq m q a b c ch) s := by
  show ∃ body, execVldq m q a b c ch s = _
  unfold execVldq; exact ⟨_, rfl⟩

theorem form_stq m d a b ch (s : State) : Formed (.stq m d a b ch) s := by
  show ∃ body, execStq m d a b ch s = _
  unfold execStq; exact ⟨_, rfl⟩

theorem form_vstq m q a b ch (s : State) : Formed (.vstq m q a b ch) s := by
  show ∃ body, execVstq m q a b ch s = _
  unfold execVstq; exact ⟨_, rfl⟩

theorem form_sqattn m a b ten tag (s : State) : Formed (.sqattn m a b ten tag) s := by
  show ∃ body, execSqattn m a b ten tag s = _
  unfold execSqattn; exact ⟨_, rfl⟩

theorem form_pfxh m d a b (s : State) : Formed (.pfxh m d a b) s := by
  show ∃ body, execPfxh m d a b s = _
  unfold execPfxh pfxOp; exact ⟨_, rfl⟩

theorem form_pfxl m d a b (s : State) : Formed (.pfxl m d a b) s := by
  show ∃ body, execPfxl m d a b s = _
  unfold execPfxl pfxOp; exact ⟨_, rfl⟩

theorem form_pfxlH m d a (s : State) : Formed (.pfxlH m d a) s := by
  show ∃ body, execPfxlH m d a s = _
  unfold execPfxlH pfxOp; exact ⟨_, rfl⟩

theorem form_pfxlS m d a (s : State) : Formed (.pfxlS m d a) s := by
  show ∃ body, execPfxlS m d a s = _
  unfold execPfxlS pfxOp; exact ⟨_, rfl⟩

theorem form_pfxi m d a b c (s : State) : Formed (.pfxi m d a b c) s := by
  show ∃ body, execPfxi m d a b c s = _
  unfold execPfxi pfxOp; exact ⟨_, rfl⟩

theorem form_pfxd m d a (s : State) : Formed (.pfxd m d a) s := by
  show ∃ body, execPfxd m d a s = _
  unfold execPfxd pfxOp; exact ⟨_, rfl⟩

theorem form_pfxdU m d a (s : State) : Formed (.pfxdU m d a) s := by
  show ∃ body, execPfxdU m d a s = _
  unfold execPfxdU pfxOp; exact ⟨_, rfl⟩

theorem form_trap m k (s : State) : Formed (.trap m k) s := by
  show ∃ body, execTrap m k s = _
  unfold execTrap; exact ⟨_, rfl⟩

theorem form_chk m a b (s : State) : Formed (.chk m a b) s := by
  show ∃ body, execChk m a b s = _
  unfold execChk; exact ⟨_, rfl⟩

theorem form_twany m d a b (s : State) : Formed (.twany m d a b) s := by
  show ∃ body, execTwany m d a b s = _
  unfold execTwany tagWait; exact ⟨_, rfl⟩

theorem form_twall m d a b (s : State) : Formed (.twall m d a b) s := by
  show ∃ body, execTwall m d a b s = _
  unfold execTwall tagWait; exact ⟨_, rfl⟩

theorem form_tffr m d a (s : State) : Formed (.tffr m d a) s := by
  show ∃ body, execTffr m d a s = _
  unfold execTffr; exact ⟨_, rfl⟩

theorem form_tclr m a (s : State) : Formed (.tclr m a) s := by
  show ∃ body, execTclr m a s = _
  unfold execTclr; exact ⟨_, rfl⟩

theorem form_tabort m (s : State) : Formed (.tabort m) s := by
  show ∃ body, execTabort m s = _
  unfold execTabort; exact ⟨_, rfl⟩

theorem form_tstat m d k (s : State) : Formed (.tstat m d k) s := by
  show ∃ body, execTstat m d k s = _
  unfold execTstat; exact ⟨_, rfl⟩

theorem form_tret m d a b (s : State) : Formed (.tret m d a b) s := by
  show ∃ body, execTret m d a b s = _
  unfold execTret; exact ⟨_, rfl⟩

theorem form_tlbinvPg a b (s : State) : Formed (.tlbinvPg a b) s := by
  show ∃ body, execTlbinvPg a b s = _
  unfold execTlbinvPg privOp; exact ⟨_, rfl⟩

theorem form_tlbinvAs a (s : State) : Formed (.tlbinvAs a) s := by
  show ∃ body, execTlbinvAs a s = _
  unfold execTlbinvAs privOp; exact ⟨_, rfl⟩

theorem form_asset a (s : State) : Formed (.asset a) s := by
  show ∃ body, execAsset a s = _
  unfold execAsset privOp; exact ⟨_, rfl⟩

theorem form_launch m d a b (s : State) : Formed (.launch m d a b) s := by
  show ∃ body, execLaunch m d a b s = _
  unfold execLaunch schedOp; exact ⟨_, rfl⟩

theorem form_lwait m d a (s : State) : Formed (.lwait m d a) s := by
  show ∃ body, execLwait m d a s = _
  unfold execLwait schedOp; exact ⟨_, rfl⟩

theorem form_lpoll m d a (s : State) : Formed (.lpoll m d a) s := by
  show ∃ body, execLpoll m d a s = _
  unfold execLpoll schedOp; exact ⟨_, rfl⟩

theorem form_rcbq m d a k (s : State) : Formed (.rcbq m d a k) s := by
  show ∃ body, execRcbq m d a k s = _
  unfold execRcbq schedOp; exact ⟨_, rfl⟩

theorem form_spop m d (s : State) : Formed (.spop m d) s := by
  show ∃ body, execSpop m d s = _
  unfold execSpop schedOp; exact ⟨_, rfl⟩

theorem form_spush m d a b (s : State) : Formed (.spush m d a b) s := by
  show ∃ body, execSpush m d a b s = _
  unfold execSpush schedOp; exact ⟨_, rfl⟩

theorem form_wlapp m d a b (s : State) : Formed (.wlapp m d a b) s := by
  show ∃ body, execWlapp m d a b s = _
  unfold execWlapp schedOp; exact ⟨_, rfl⟩

theorem form_wltake m d a (s : State) : Formed (.wltake m d a) s := by
  show ∃ body, execWltake m d a s = _
  unfold execWltake schedOp; exact ⟨_, rfl⟩

theorem form_quies m d a (s : State) : Formed (.quies m d a) s := by
  show ∃ body, execQuies m d a s = _
  unfold execQuies schedOp; exact ⟨_, rfl⟩

theorem form_nop16 (s : State) : Formed .nop16 s := by
  show ∃ body, execNop16 s = _
  unfold execNop16; exact ⟨_, rfl⟩

theorem form_ret (s : State) : Formed .ret s := by
  show ∃ body, execRet s = _
  unfold execRet; exact ⟨_, rfl⟩

theorem form_nop (s : State) : Formed .nop s := by
  show ∃ body, execNop s = _
  unfold execNop; exact ⟨_, rfl⟩

theorem form_halt (s : State) : Formed .halt s := by
  show ∃ body, execHalt s = _
  unfold execHalt; exact ⟨_, rfl⟩

theorem form_tend (s : State) : Formed .tend s := by
  show ∃ body, execTend s = _
  unfold execTend; exact ⟨_, rfl⟩

theorem form_yield (s : State) : Formed .yield s := by
  show ∃ body, execYield s = _
  unfold execYield; exact ⟨_, rfl⟩

theorem form_tlbinvAll (s : State) : Formed .tlbinvAll s := by
  show ∃ body, execTlbinvAll s = _
  unfold execTlbinvAll privOp; exact ⟨_, rfl⟩

theorem compact_ill {m : Mods} {d a b : Reg} (i : Instr) (hv : valueOk i = compactOk m d a b)
    (h : compactOk m d a b = false) : wellFormed i = false := by
  rw [h] at hv
  unfold wellFormed formError
  split
  · rfl
  · split
    · rfl
    · split
      · rfl
      · simp [hv]

/-- Every instruction of a body is `issue` of its form, but a compact form whose fields name no operands, which is
ILLOP. -/
theorem exec_formed (i : Instr) (s : State) (h : instrIsWord i = true) :
    Formed i s ∨ (wellFormed i = false ∧ exec i s = .next (s.trapHere .illop)) := by
  cases i with
  | mov16 d a => exact .inl (form_mov16 d a s)
  | addi16 d k => exact .inl (form_addi16 d k s)
  | li16 d k => exact .inl (form_li16 d k s)
  | add16 d a => exact .inl (form_add16 d a s)
  | sub16 d a => exact .inl (form_sub16 d a s)
  | and16 d a => exact .inl (form_and16 d a s)
  | or16 d a => exact .inl (form_or16 d a s)
  | xor16 d a => exact .inl (form_xor16 d a s)
  | shli16 d k => exact .inl (form_shli16 d k s)
  | shri16 d k => exact .inl (form_shri16 d k s)
  | srai16 d k => exact .inl (form_srai16 d k s)
  | add m d a b => exact .inl (form_add m d a b s)
  | sub m d a b => exact .inl (form_sub m d a b s)
  | mul m d a b => exact .inl (form_mul m d a b s)
  | mulh m d a b => exact .inl (form_mulh m d a b s)
  | mulhU m d a b => exact .inl (form_mulhU m d a b s)
  | div m d a b => exact .inl (form_div m d a b s)
  | divU m d a b => exact .inl (form_divU m d a b s)
  | rem m d a b => exact .inl (form_rem m d a b s)
  | remU m d a b => exact .inl (form_remU m d a b s)
  | and m d a b => exact .inl (form_and m d a b s)
  | or m d a b => exact .inl (form_or m d a b s)
  | xor m d a b => exact .inl (form_xor m d a b s)
  | andn m d a b => exact .inl (form_andn m d a b s)
  | shl m d a b => exact .inl (form_shl m d a b s)
  | shr m d a b => exact .inl (form_shr m d a b s)
  | sra m d a b => exact .inl (form_sra m d a b s)
  | rot m d a b => exact .inl (form_rot m d a b s)
  | min m d a b => exact .inl (form_min m d a b s)
  | minU m d a b => exact .inl (form_minU m d a b s)
  | max m d a b => exact .inl (form_max m d a b s)
  | maxU m d a b => exact .inl (form_maxU m d a b s)
  | clz m d a => exact .inl (form_clz m d a s)
  | ctz m d a => exact .inl (form_ctz m d a s)
  | popc m d a => exact .inl (form_popc m d a s)
  | sextB m d a => exact .inl (form_sextB m d a s)
  | sextH m d a => exact .inl (form_sextH m d a s)
  | sextW m d a => exact .inl (form_sextW m d a s)
  | zextB m d a => exact .inl (form_zextB m d a s)
  | zextH m d a => exact .inl (form_zextH m d a s)
  | zextW m d a => exact .inl (form_zextW m d a s)
  | mov m d a => exact .inl (form_mov m d a s)
  | addi m d a k => exact .inl (form_addi m d a k s)
  | andi m d a k => exact .inl (form_andi m d a k s)
  | ori m d a k => exact .inl (form_ori m d a k s)
  | xori m d a k => exact .inl (form_xori m d a k s)
  | shli m d a k => exact .inl (form_shli m d a k s)
  | shri m d a k => exact .inl (form_shri m d a k s)
  | srai m d a k => exact .inl (form_srai m d a k s)
  | li m d k => exact .inl (form_li m d k s)
  | lih m d k => exact .inl (form_lih m d k s)
  | li64 m d k => exact .inl (form_li64 m d k s)
  | madd m d a b c => exact .inl (form_madd m d a b c s)
  | sel m d a b k0 p => exact .inl (form_sel m d a b k0 p s)
  | bext m d a n p => exact .inl (form_bext m d a n p s)
  | bextS m d a n p => exact .inl (form_bextS m d a n p s)
  | bins m d a n p => exact .inl (form_bins m d a n p s)
  | lea m d a b k0 => exact .inl (form_lea m d a b k0 s)
  | cmp m c p a b => exact .inl (form_cmp m c p a b s)
  | cmpi m c p a k => exact .inl (form_cmpi m c p a k s)
  | pand m d a b => exact .inl (form_pand m d a b s)
  | por m d a b => exact .inl (form_por m d a b s)
  | pxor m d a b => exact .inl (form_pxor m d a b s)
  | pnot m d a => exact .inl (form_pnot m d a s)
  | bra o => exact .inl (form_bra o s)
  | bc p k0 o => exact .inl (form_bc p k0 o s)
  | call o => exact .inl (form_call o s)
  | bq k0 o => exact .inl (form_bq k0 o s)
  | bx a => exact .inl (form_bx a s)
  | bcast p e i => exact .inl (form_bcast p e i s)
  | xsend m e a => exact .inl (form_xsend m e a s)
  | xrecv m d => exact .inl (form_xrecv m d s)
  | mfs m d n => exact .inl (form_mfs m d n s)
  | mts m a n => exact .inl (form_mts m a n s)
  | feat m d n => exact .inl (form_feat m d n s)
  | clock m d => exact .inl (form_clock m d s)
  | roleid m d n => exact .inl (form_roleid m d n s)
  | ldl m d a f o => exact .inl (form_ldl m d a f o s)
  | ldp m d a f o => exact .inl (form_ldp m d a f o s)
  | ldg m d a f o => exact .inl (form_ldg m d a f o s)
  | stl m d a w o => exact .inl (form_stl m d a w o s)
  | stp m d a w o => exact .inl (form_stp m d a w o s)
  | stg m d a w o => exact .inl (form_stg m d a w o s)
  | pfg m a k => exact .inl (form_pfg m a k s)
  | l1inv m a k => exact .inl (form_l1inv m a k s)
  | l1invAll m => exact .inl (form_l1invAll m s)
  | mark m => exact .inl (form_mark m s)
  | fence m => exact .inl (form_fence m s)
  | qfence m a k => exact .inl (form_qfence m a k s)
  | tkpush n => exact .inl (form_tkpush n s)
  | tkpop n => exact .inl (form_tkpop n s)
  | barinit m a b => exact .inl (form_barinit m a b s)
  | bararr m d a b => exact .inl (form_bararr m d a b s)
  | barwait m d a b => exact .inl (form_barwait m d a b s)
  | vldl m q a b nb k => exact .inl (form_vldl m q a b nb k s)
  | vldp m q a b nb k => exact .inl (form_vldp m q a b nb k s)
  | vldg m q a b nb k => exact .inl (form_vldg m q a b nb k s)
  | vstl m q a b nb k => exact .inl (form_vstl m q a b nb k s)
  | vstp m q a b nb k => exact .inl (form_vstp m q a b nb k s)
  | vstg m q a b nb k => exact .inl (form_vstg m q a b nb k s)
  | vgl m q a b e n => exact .inl (form_vgl m q a b e n s)
  | vgg m q a b e n => exact .inl (form_vgg m q a b e n s)
  | vsl m q a b e n => exact .inl (form_vsl m q a b e n s)
  | vsg m q a b e n => exact .inl (form_vsg m q a b e n s)
  | aadd m d a b w k => exact .inl (form_aadd m d a b w k s)
  | aand m d a b w k => exact .inl (form_aand m d a b w k s)
  | aor m d a b w k => exact .inl (form_aor m d a b w k s)
  | axor m d a b w k => exact .inl (form_axor m d a b w k s)
  | amin m d a b u w k => exact .inl (form_amin m d a b u w k s)
  | amax m d a b u w k => exact .inl (form_amax m d a b u w k s)
  | aswp m d a b w k => exact .inl (form_aswp m d a b w k s)
  | acas m d a b c w k => exact .inl (form_acas m d a b c w k s)
  | afadd m d a b w k => exact .inl (form_afadd m d a b w k s)
  | abinc m d a b w k => exact .inl (form_abinc m d a b w k s)
  | alrb m a k => exact .inl (form_alrb m a k s)
  | alrl m d a z w o => exact .inl (form_alrl m d a z w o s)
  | alrs m a b w o => exact .inl (form_alrs m a b w o s)
  | alrc m d => exact .inl (form_alrc m d s)
  | vaddC m d a b e => exact (form_vaddC m d a b e s).imp id (And.imp_left (compact_ill _ rfl))
  | vsubC m d a b e => exact (form_vsubC m d a b e s).imp id (And.imp_left (compact_ill _ rfl))
  | vmulC m d a b e => exact (form_vmulC m d a b e s).imp id (And.imp_left (compact_ill _ rfl))
  | vandC m d a b e => exact (form_vandC m d a b e s).imp id (And.imp_left (compact_ill _ rfl))
  | vorC m d a b e => exact (form_vorC m d a b e s).imp id (And.imp_left (compact_ill _ rfl))
  | vxorC m d a b e => exact (form_vxorC m d a b e s).imp id (And.imp_left (compact_ill _ rfl))
  | vminC m d a b e => exact (form_vminC m d a b e s).imp id (And.imp_left (compact_ill _ rfl))
  | vmaxC m d a b e => exact (form_vmaxC m d a b e s).imp id (And.imp_left (compact_ill _ rfl))
  | vfaddC m d a b e => exact (form_vfaddC m d a b e s).imp id (And.imp_left (compact_ill _ rfl))
  | vfsubC m d a b e => exact (form_vfsubC m d a b e s).imp id (And.imp_left (compact_ill _ rfl))
  | vfmulC m d a b e => exact (form_vfmulC m d a b e s).imp id (And.imp_left (compact_ill _ rfl))
  | vfminC m d a b e => exact (form_vfminC m d a b e s).imp id (And.imp_left (compact_ill _ rfl))
  | vfmaxC m d a b e => exact (form_vfmaxC m d a b e s).imp id (And.imp_left (compact_ill _ rfl))
  | vadd m d a b u et => exact .inl (form_vadd m d a b u et s)
  | vsub m d a b u et => exact .inl (form_vsub m d a b u et s)
  | vmul m d a b u et => exact .inl (form_vmul m d a b u et s)
  | vmulh m d a b u et => exact .inl (form_vmulh m d a b u et s)
  | vmadd m d a b c u et => exact .inl (form_vmadd m d a b c u et s)
  | vmin m d a b u et => exact .inl (form_vmin m d a b u et s)
  | vmax m d a b u et => exact .inl (form_vmax m d a b u et s)
  | vand m d a b u et => exact .inl (form_vand m d a b u et s)
  | vor m d a b u et => exact .inl (form_vor m d a b u et s)
  | vxor m d a b u et => exact .inl (form_vxor m d a b u et s)
  | vshl m d a b u et => exact .inl (form_vshl m d a b u et s)
  | vshr m d a b u et => exact .inl (form_vshr m d a b u et s)
  | vsra m d a b u et => exact .inl (form_vsra m d a b u et s)
  | vabs m d a u et => exact .inl (form_vabs m d a u et s)
  | vneg m d a u et => exact .inl (form_vneg m d a u et s)
  | vcmp m d a b pe pd c u et => exact .inl (form_vcmp m d a b pe pd c u et s)
  | vsel m d a b c u et => exact .inl (form_vsel m d a b c u et s)
  | vpopc m d a u et => exact .inl (form_vpopc m d a u et s)
  | vfadd m d a b et => exact .inl (form_vfadd m d a b et s)
  | vfsub m d a b et => exact .inl (form_vfsub m d a b et s)
  | vfmul m d a b et => exact .inl (form_vfmul m d a b et s)
  | vfma m d a b c et => exact .inl (form_vfma m d a b c et s)
  | vfmin m d a b et => exact .inl (form_vfmin m d a b et s)
  | vfmax m d a b et => exact .inl (form_vfmax m d a b et s)
  | vfcmp m d a b pe pd c et => exact .inl (form_vfcmp m d a b pe pd c et s)
  | vfrcp m d a et => exact .inl (form_vfrcp m d a et s)
  | vfrsq m d a et => exact .inl (form_vfrsq m d a et s)
  | vfexp2 m d a et => exact .inl (form_vfexp2 m d a et s)
  | vflog2 m d a et => exact .inl (form_vflog2 m d a et s)
  | vftanh m d a et => exact .inl (form_vftanh m d a et s)
  | vcvt m d a k sf tf => exact .inl (form_vcvt m d a k sf tf s)
  | vqnt m d a b k scm sf tf => exact .inl (form_vqnt m d a b k scm sf tf s)
  | vdqnt m d a k sf tf => exact .inl (form_vdqnt m d a k sf tf s)
  | vpack m d a f => exact .inl (form_vpack m d a f s)
  | vunpk m d a f => exact .inl (form_vunpk m d a f s)
  | vradd m d a u et => exact .inl (form_vradd m d a u et s)
  | vrmax m d a u et => exact .inl (form_vrmax m d a u et s)
  | vfradd m d a et => exact .inl (form_vfradd m d a et s)
  | vfrmax m d a et => exact .inl (form_vfrmax m d a et s)
  | vperm m d a b c w => exact .inl (form_vperm m d a b c w s)
  | vrot m d a k w => exact .inl (form_vrot m d a k w s)
  | vbcast m d a k w => exact .inl (form_vbcast m d a k w s)
  | vext m d a k k0 w => exact .inl (form_vext m d a k k0 w s)
  | vins m d a b k w => exact .inl (form_vins m d a b k w s)
  | vcomp m d a b w => exact .inl (form_vcomp m d a b w s)
  | vexpd m d a b w => exact .inl (form_vexpd m d a b w s)
  | vmrg3 m d a b c k0 => exact .inl (form_vmrg3 m d a b c k0 s)
  | vmov m d a => exact .inl (form_vmov m d a s)
  | vli m d r w k => exact .inl (form_vli m d r w k s)
  | vsplat m d a w => exact .inl (form_vsplat m d a w s)
  | sbind m z a k => exact .inl (form_sbind m z a k s)
  | sbop m z a => exact .inl (form_sbop m z a s)
  | sunbind m z now => exact .inl (form_sunbind m z now s)
  | sadv m z a => exact .inl (form_sadv m z a s)
  | sstat m d z => exact .inl (form_sstat m d z s)
  | lcfg m a b => exact .inl (form_lcfg m a b s)
  | lstat m d a => exact .inl (form_lstat m d a s)
  | lfence m a => exact .inl (form_lfence m a s)
  | lsync m a => exact .inl (form_lsync m a s)
  | lwst m a b c f => exact .inl (form_lwst m a b c f s)
  | lact m a b c f => exact .inl (form_lact m a b c f s)
  | lmac m a b z => exact .inl (form_lmac m a b z s)
  | laccz m a => exact .inl (form_laccz m a s)
  | laccr m a b c f => exact .inl (form_laccr m a b c f s)
  | lred m a b c clr ring f => exact .inl (form_lred m a b c clr ring f s)
  | mlay m a b l ws we ss se => exact .inl (form_mlay m a b l ws we ss se s)
  | munf m a b id ws we ss se => exact .inl (form_munf m a b id ws we ss se s)
  | mld m a b c l ws we ss se => exact .inl (form_mld m a b c l ws we ss se s)
  | mmul m a b u t ws we ss se => exact .inl (form_mmul m a b u t ws we ss se s)
  | mdrn m a b g t ws we ss se => exact .inl (form_mdrn m a b g t ws we ss se s)
  | mzero m mode t ws we ss se => exact .inl (form_mzero m mode t ws we ss se s)
  | msemSig m k0 n => exact .inl (form_msemSig m k0 n s)
  | msemWait m k0 n => exact .inl (form_msemWait m k0 n s)
  | msemRd m d k0 => exact .inl (form_msemRd m d k0 s)
  | msemSt m d => exact .inl (form_msemSt m d s)
  | xcopy m a b ren ten tag => exact .inl (form_xcopy m a b ren ten tag s)
  | xgath m a b ren ten tag => exact .inl (form_xgath m a b ren ten tag s)
  | xscat m a b ren ten tag => exact .inl (form_xscat m a b ren ten tag s)
  | xscadd m a b ren ten tag => exact .inl (form_xscadd m a b ren ten tag s)
  | xfill m a b ren ten tag => exact .inl (form_xfill m a b ren ten tag s)
  | xring m a b ren ten tag => exact .inl (form_xring m a b ren ten tag s)
  | creq m a b ren ten tag => exact .inl (form_creq m a b ren ten tag s)
  | sqnew m d a b bl => exact .inl (form_sqnew m d a b bl s)
  | sqres m d a b => exact .inl (form_sqres m d a b s)
  | sqrest m d a b => exact .inl (form_sqrest m d a b s)
  | sqcmt m d a b c => exact .inl (form_sqcmt m d a b c s)
  | sqacc m d a b => exact .inl (form_sqacc m d a b s)
  | sqwd m d a => exact .inl (form_sqwd m d a s)
  | sqfree m d a => exact .inl (form_sqfree m d a s)
  | sqfork m d a b => exact .inl (form_sqfork m d a b s)
  | sqlen m d a => exact .inl (form_sqlen m d a s)
  | sqwait m d a b c => exact .inl (form_sqwait m d a b c s)
  | sqpin m d a => exact .inl (form_sqpin m d a s)
  | squnpin m d a => exact .inl (form_squnpin m d a s)
  | sqext m d a b k => exact .inl (form_sqext m d a b k s)
  | ldq m d a b c ch => exact .inl (form_ldq m d a b c ch s)
  | vldq m q a b c ch => exact .inl (form_vldq m q a b c ch s)
  | stq m d a b ch => exact .inl (form_stq m d a b ch s)
  | vstq m q a b ch => exact .inl (form_vstq m q a b ch s)
  | sqattn m a b ten tag => exact .inl (form_sqattn m a b ten tag s)
  | pfxh m d a b => exact .inl (form_pfxh m d a b s)
  | pfxl m d a b => exact .inl (form_pfxl m d a b s)
  | pfxlH m d a => exact .inl (form_pfxlH m d a s)
  | pfxlS m d a => exact .inl (form_pfxlS m d a s)
  | pfxi m d a b c => exact .inl (form_pfxi m d a b c s)
  | pfxd m d a => exact .inl (form_pfxd m d a s)
  | pfxdU m d a => exact .inl (form_pfxdU m d a s)
  | trap m k => exact .inl (form_trap m k s)
  | chk m a b => exact .inl (form_chk m a b s)
  | twany m d a b => exact .inl (form_twany m d a b s)
  | twall m d a b => exact .inl (form_twall m d a b s)
  | tffr m d a => exact .inl (form_tffr m d a s)
  | tclr m a => exact .inl (form_tclr m a s)
  | tabort m => exact .inl (form_tabort m s)
  | tstat m d k => exact .inl (form_tstat m d k s)
  | tret m d a b => exact .inl (form_tret m d a b s)
  | tlbinvPg a b => exact .inl (form_tlbinvPg a b s)
  | tlbinvAs a => exact .inl (form_tlbinvAs a s)
  | asset a => exact .inl (form_asset a s)
  | launch m d a b => exact .inl (form_launch m d a b s)
  | lwait m d a => exact .inl (form_lwait m d a s)
  | lpoll m d a => exact .inl (form_lpoll m d a s)
  | rcbq m d a k => exact .inl (form_rcbq m d a k s)
  | spop m d => exact .inl (form_spop m d s)
  | spush m d a b => exact .inl (form_spush m d a b s)
  | wlapp m d a b => exact .inl (form_wlapp m d a b s)
  | wltake m d a => exact .inl (form_wltake m d a s)
  | quies m d a => exact .inl (form_quies m d a s)
  | nop16 => exact .inl (form_nop16 s)
  | ret => exact .inl (form_ret s)
  | nop => exact .inl (form_nop s)
  | halt => exact .inl (form_halt s)
  | tend => exact .inl (form_tend s)
  | yield => exact .inl (form_yield s)
  | tlbinvAll => exact .inl (form_tlbinvAll s)
  | _ => exact Bool.noConfusion (show false = true from h)

end Sys2Proof.Machine
end

