-- ==== Sys2Proof/Laws/Table.lean ====
section
/-! SUPPORT. Reading a table after a write of it: the entry written, and every other entry. -/

namespace Sys2Proof.Machine

@[simp] theorem tget_nil {α : Type} (d : α) (k : Nat) : tget d [] k = d := rfl

@[simp] theorem tget_tput_same {α : Type} (d : α) (t : Tab α) (k : Nat) (v : α) : tget d (tput t k v) k = v := by
  induction t with
  | nil => simp [tput, tget]
  | cons p r ih =>
    obtain ⟨j, w⟩ := p
    unfold tput
    split
    · simp [tget]
    · split
      · simp [tget]
      · rename_i h
        simp [tget, ih, Ne.symm h]

theorem tget_tput_other {α : Type} (d : α) (t : Tab α) {k n : Nat} (v : α) (h : n ≠ k) :
    tget d (tput t k v) n = tget d t n := by
  induction t with
  | nil => simp [tput, tget, Ne.symm h]
  | cons p r ih =>
    obtain ⟨j, w⟩ := p
    unfold tput
    split
    · simp [tget, Ne.symm h]
    · split
      · rename_i e
        subst e
        simp [tget, Ne.symm h]
      · simp [tget, ih]

theorem tget_tput {α : Type} (d : α) (t : Tab α) (k n : Nat) (v : α) :
    tget d (tput t k v) n = if n = k then v else tget d t n := by
  split
  · next h => subst h; simp
  · next h => exact tget_tput_other d t v h

theorem tget_tdel {α : Type} (d : α) (t : Tab α) (k n : Nat) :
    tget d (tdel t k) n = if n = k then d else tget d t n := by
  induction t with
  | nil => simp [tdel, tget]
  | cons p r ih =>
    obtain ⟨j, w⟩ := p
    simp only [tdel] at ih
    by_cases hj : j = k
    · subst hj
      simp only [tdel, List.filter, bne_self_eq_false, ih, tget]
      by_cases hn : n = j
      · simp [hn]
      · simp [hn, Ne.symm hn]
    · simp only [tdel, List.filter, bne_iff_ne.mpr hj, tget, ih]
      by_cases hn : n = k
      · subst hn; simp [hj]
      · simp [hn]

/-- A table read through a map that keeps the default value. -/
theorem tget_map {α β : Type} (d : α) (f : α → β) (t : Tab α) (n : Nat) :
    tget (f d) (t.map fun p => (p.1, f p.2)) n = f (tget d t n) := by
  induction t with
  | nil => rfl
  | cons p r ih =>
    obtain ⟨j, w⟩ := p
    simp only [List.map, tget]
    split
    · rfl
    · exact ih

end Sys2Proof.Machine
end

