-- ==== Sys2Proof/Laws/Memory.lean ====
section
/-! SUPPORT. The byte store: reading after a write, the frame of a write, and the canonical form that every operation
on it keeps. -/

namespace Sys2Proof.Machine

/-! ## Reading after writing -/

theorem memGet_memPut (m : Mem) (a b : Nat) (v : Byte) : memGet (memPut m a v) b = if b = a then v else memGet m b := by
  unfold memGet memPut
  split
  · next h => rw [tget_tdel]; split <;> simp [h]
  · exact tget_tput 0 m a b v

/-- A write of bytes leaves every byte outside them. -/
theorem memGet_memWrite_outside (m : Mem) (a : Nat) (l : List Byte) (b : Nat) (h : b < a ∨ a + l.length ≤ b) :
    memGet (memWrite m a l) b = memGet m b := by
  induction l generalizing m a with
  | nil => rfl
  | cons v r ih =>
    simp only [List.length_cons] at h
    rw [memWrite, ih _ _ (by omega), memGet_memPut, if_neg (by omega)]

/-- A byte of what was written. -/
theorem memGet_memWrite_inside (m : Mem) (a : Nat) (l : List Byte) (i : Nat) (h : i < l.length) :
    memGet (memWrite m a l) (a + i) = l[i] := by
  induction l generalizing m a i with
  | nil => simp at h
  | cons v r ih =>
    rw [memWrite]
    cases i with
    | zero =>
      rw [memGet_memWrite_outside _ _ _ _ (by omega), memGet_memPut]; simp
    | succ j =>
      have := ih (memPut m a v) (a + 1) j (by simpa using h)
      rw [show a + 1 + j = a + (j + 1) by omega] at this
      simpa using this

/-- What was written reads back. -/
theorem memRead_memWrite (m : Mem) (a : Nat) (l : List Byte) : memRead (memWrite m a l) a l.length = l := by
  induction l generalizing m a with
  | nil => rfl
  | cons v r ih =>
    rw [memWrite, List.length_cons, memRead, memGet_memWrite_outside _ _ _ _ (by omega), memGet_memPut, if_pos rfl, ih]

/-! ## The canonical form -/

theorem memWfFrom_mono {a b : Nat} {m : Mem} (h : a ≤ b) (hb : memWfFrom b m = true) : memWfFrom a m = true := by
  cases m with
  | nil => rfl
  | cons p r =>
    obtain ⟨k, v⟩ := p
    simp only [memWfFrom, Bool.and_eq_true, decide_eq_true_eq] at hb ⊢
    exact ⟨⟨by omega, hb.1.2⟩, hb.2⟩

theorem memWfFrom_filter {a : Nat} {m : Mem} (p : Host.Cell → Bool) (h : memWfFrom a m = true) :
    memWfFrom a (m.filter p) = true := by
  induction m generalizing a with
  | nil => rfl
  | cons c r ih =>
    obtain ⟨k, v⟩ := c
    simp only [memWfFrom, Bool.and_eq_true, decide_eq_true_eq] at h
    rw [List.filter]
    split
    · simp only [memWfFrom, Bool.and_eq_true, decide_eq_true_eq]
      exact ⟨h.1, ih h.2⟩
    · exact memWfFrom_mono (by omega) (ih h.2)

theorem memWfFrom_tput {a k : Nat} {m : Mem} {v : Byte} (hv : v ≠ 0) (hk : a ≤ k) (h : memWfFrom a m = true) :
    memWfFrom a (tput m k v) = true := by
  induction m generalizing a with
  | nil => simp only [tput, memWfFrom, Bool.and_eq_true, decide_eq_true_eq, bne_iff_ne]; exact ⟨⟨hk, hv⟩, trivial⟩
  | cons c r ih =>
    obtain ⟨j, w⟩ := c
    simp only [memWfFrom, Bool.and_eq_true, decide_eq_true_eq] at h
    unfold tput
    split
    · simp only [memWfFrom, Bool.and_eq_true, decide_eq_true_eq, bne_iff_ne]
      exact ⟨⟨hk, hv⟩, ⟨by omega, bne_iff_ne.mp h.1.2⟩, h.2⟩
    · split
      · next e => subst e; simp only [memWfFrom, Bool.and_eq_true, decide_eq_true_eq, bne_iff_ne]; exact ⟨⟨h.1.1, hv⟩, h.2⟩
      · simp only [memWfFrom, Bool.and_eq_true, decide_eq_true_eq]
        exact ⟨h.1, ih (by omega) h.2⟩

/-- Leaving entries out keeps the canonical form. -/
theorem wf_filter {m : Mem} (p : Host.Cell → Bool) (h : Memory.wf m = true) : Memory.wf (m.filter p) = true :=
  memWfFrom_filter p h

/-- A write of one byte keeps the canonical form. -/
theorem wf_memPut {m : Mem} (a : Nat) (v : Byte) (h : Memory.wf m = true) : Memory.wf (memPut m a v) = true := by
  unfold memPut
  split
  · exact memWfFrom_filter _ h
  · next hv => exact memWfFrom_tput hv (by omega) h

/-- A write of bytes keeps the canonical form. -/
theorem wf_memWrite {m : Mem} (a : Nat) (l : List Byte) (h : Memory.wf m = true) : Memory.wf (memWrite m a l) = true := by
  induction l generalizing m a with
  | nil => exact h
  | cons v r ih => exact ih (a + 1) (wf_memPut a v h)

theorem wf_nil : Memory.wf [] = true := rfl

/-- An entry above the first address that a store may list reads as zero below it. -/
theorem memGet_of_wfFrom {a n : Nat} {m : Mem} (h : memWfFrom a m = true) (hn : n < a) : memGet m n = 0 := by
  induction m generalizing a with
  | nil => rfl
  | cons c r ih =>
    obtain ⟨k, v⟩ := c
    simp only [memWfFrom, Bool.and_eq_true, decide_eq_true_eq] at h
    have hr := ih (a := k + 1) h.2 (by omega)
    simp only [memGet, tget, if_neg (show k ≠ n by omega)]
    exact hr

/-- Canonical stores that read alike at every address are equal. -/
theorem ext_of_wfFrom {a : Nat} {m n : Mem} (hm : memWfFrom a m = true) (hn : memWfFrom a n = true)
    (h : ∀ x, memGet m x = memGet n x) : m = n := by
  induction m generalizing a n with
  | nil =>
    cases n with
    | nil => rfl
    | cons c r =>
      obtain ⟨k, v⟩ := c
      simp only [memWfFrom, Bool.and_eq_true, decide_eq_true_eq] at hn
      have := h k
      simp [memGet, tget] at this
      exact absurd this.symm (bne_iff_ne.mp hn.1.2)
  | cons c r ih =>
    obtain ⟨k, v⟩ := c
    simp only [memWfFrom, Bool.and_eq_true, decide_eq_true_eq] at hm
    cases n with
    | nil =>
      have := h k
      simp [memGet, tget] at this
      exact absurd this (bne_iff_ne.mp hm.1.2)
    | cons d s =>
      obtain ⟨j, w⟩ := d
      simp only [memWfFrom, Bool.and_eq_true, decide_eq_true_eq] at hn
      have hk := h k
      have hj := h j
      have hvr : ∀ x, x < k + 1 → memGet r x = 0 := fun x hx => memGet_of_wfFrom hm.2 hx
      have hws : ∀ x, x < j + 1 → memGet s x = 0 := fun x hx => memGet_of_wfFrom hn.2 hx
      have hv := bne_iff_ne.mp hm.1.2
      have hw := bne_iff_ne.mp hn.1.2
      have e : k = j := by
        rcases Nat.lt_trichotomy k j with l | l | l
        · have := hws k (by omega)
          simp only [memGet, tget, if_true, if_neg (show j ≠ k by omega)] at hk this
          exact absurd (hk.trans this) hv
        · exact l
        · have := hvr j (by omega)
          simp only [memGet, tget, if_true, if_neg (show k ≠ j by omega)] at hj this
          exact absurd (hj.symm.trans this) hw
      subst e
      have e : v = w := by simpa [memGet, tget] using hk
      subst e
      refine congrArg _ (ih hm.2 hn.2 fun x => ?_)
      by_cases hx : x = k
      · subst hx; rw [hvr x (by omega), hws x (by omega)]
      · have := h x
        simpa [memGet, tget, Ne.symm hx] using this

/-- Equal memories are equal data. -/
theorem Memory.ext {m n : Mem} (hm : Memory.wf m = true) (hn : Memory.wf n = true) (h : ∀ x, memGet m x = memGet n x) :
    m = n := ext_of_wfFrom hm hn h

end Sys2Proof.Machine
end

