-- ==== Sys2Proof/Laws/State.lean ====
section
/-! SUPPORT. What each named update of the state leaves: one lemma for each field, by computation, so that no proof
unfolds the update of a record. -/

namespace Sys2Proof.Machine

@[simp] theorem State.setCtx_agenda (s : State) (k : Nat) (c : Ctx) : (s.setCtx k c).agenda = s.agenda := rfl
@[simp] theorem State.setCtx_draws (s : State) (k : Nat) (c : Ctx) : (s.setCtx k c).draws = s.draws := rfl
@[simp] theorem State.setCtx_cur (s : State) (k : Nat) (c : Ctx) : (s.setCtx k c).cur = s.cur := rfl
@[simp] theorem State.setCtx_clock (s : State) (k : Nat) (c : Ctx) : (s.setCtx k c).clock = s.clock := rfl
@[simp] theorem State.setCtx_mem (s : State) (k : Nat) (c : Ctx) : (s.setCtx k c).mem = s.mem := rfl
@[simp] theorem State.setCtx_poison (s : State) (k : Nat) (c : Ctx) : (s.setCtx k c).poison = s.poison := rfl
@[simp] theorem State.setCtx_errs (s : State) (k : Nat) (c : Ctx) : (s.setCtx k c).errs = s.errs := rfl
@[simp] theorem State.setCtx_l2 (s : State) (k : Nat) (c : Ctx) : (s.setCtx k c).l2 = s.l2 := rfl
@[simp] theorem State.setCtx_dirty (s : State) (k : Nat) (c : Ctx) : (s.setCtx k c).dirty = s.dirty := rfl
@[simp] theorem State.setCtx_grans (s : State) (k : Nat) (c : Ctx) : (s.setCtx k c).grans = s.grans := rfl
@[simp] theorem State.setCtx_roots (s : State) (k : Nat) (c : Ctx) : (s.setCtx k c).roots = s.roots := rfl
@[simp] theorem State.setCtx_ctlb (s : State) (k : Nat) (c : Ctx) : (s.setCtx k c).ctlb = s.ctlb := rfl
@[simp] theorem State.setCtx_dtlb (s : State) (k : Nat) (c : Ctx) : (s.setCtx k c).dtlb = s.dtlb := rfl
@[simp] theorem State.setCtx_miss (s : State) (k : Nat) (c : Ctx) : (s.setCtx k c).miss = s.miss := rfl
@[simp] theorem State.setCtx_held (s : State) (k : Nat) (c : Ctx) : (s.setCtx k c).held = s.held := rfl
@[simp] theorem State.setCtx_alrq (s : State) (k : Nat) (c : Ctx) : (s.setCtx k c).alrq = s.alrq := rfl
@[simp] theorem State.setCtx_cores (s : State) (k : Nat) (c : Ctx) : (s.setCtx k c).cores = s.cores := rfl
@[simp] theorem State.setCtx_saves (s : State) (k : Nat) (c : Ctx) : (s.setCtx k c).saves = s.saves := rfl
@[simp] theorem State.setCtx_lanes (s : State) (k : Nat) (c : Ctx) : (s.setCtx k c).lanes = s.lanes := rfl
@[simp] theorem State.setCtx_cols (s : State) (k : Nat) (c : Ctx) : (s.setCtx k c).cols = s.cols := rfl
@[simp] theorem State.setCtx_mats (s : State) (k : Nat) (c : Ctx) : (s.setCtx k c).mats = s.mats := rfl
@[simp] theorem State.setCtx_beds (s : State) (k : Nat) (c : Ctx) : (s.setCtx k c).beds = s.beds := rfl
@[simp] theorem State.setCtx_reds (s : State) (k : Nat) (c : Ctx) : (s.setCtx k c).reds = s.reds := rfl
@[simp] theorem State.setCtx_defers (s : State) (k : Nat) (c : Ctx) : (s.setCtx k c).defers = s.defers := rfl
@[simp] theorem State.setCtx_arrivals (s : State) (k : Nat) (c : Ctx) : (s.setCtx k c).arrivals = s.arrivals := rfl
@[simp] theorem State.setCtx_xturn (s : State) (k : Nat) (c : Ctx) : (s.setCtx k c).xturn = s.xturn := rfl
@[simp] theorem State.setCtx_seqs (s : State) (k : Nat) (c : Ctx) : (s.setCtx k c).seqs = s.seqs := rfl
@[simp] theorem State.setCtx_pools (s : State) (k : Nat) (c : Ctx) : (s.setCtx k c).pools = s.pools := rfl
@[simp] theorem State.setCtx_attns (s : State) (k : Nat) (c : Ctx) : (s.setCtx k c).attns = s.attns := rfl
@[simp] theorem State.setCtx_regions (s : State) (k : Nat) (c : Ctx) : (s.setCtx k c).regions = s.regions := rfl
@[simp] theorem State.setCtx_nextReg (s : State) (k : Nat) (c : Ctx) : (s.setCtx k c).nextReg = s.nextReg := rfl
@[simp] theorem State.setCtx_nextTask (s : State) (k : Nat) (c : Ctx) : (s.setCtx k c).nextTask = s.nextTask := rfl
@[simp] theorem State.setCtx_parts (s : State) (k : Nat) (c : Ctx) : (s.setCtx k c).parts = s.parts := rfl
@[simp] theorem State.setCtx_devPool (s : State) (k : Nat) (c : Ctx) : (s.setCtx k c).devPool = s.devPool := rfl
@[simp] theorem State.setCtx_qps (s : State) (k : Nat) (c : Ctx) : (s.setCtx k c).qps = s.qps := rfl
@[simp] theorem State.setCtx_ports (s : State) (k : Nat) (c : Ctx) : (s.setCtx k c).ports = s.ports := rfl
@[simp] theorem State.setCtx_links (s : State) (k : Nat) (c : Ctx) : (s.setCtx k c).links = s.links := rfl
@[simp] theorem State.setCtx_out (s : State) (k : Nat) (c : Ctx) : (s.setCtx k c).out = s.out := rfl
@[simp] theorem State.setCtx_booted (s : State) (k : Nat) (c : Ctx) : (s.setCtx k c).booted = s.booted := rfl
@[simp] theorem State.setCtx_recovery (s : State) (k : Nat) (c : Ctx) : (s.setCtx k c).recovery = s.recovery := rfl
@[simp] theorem State.setCtx_measure (s : State) (k : Nat) (c : Ctx) : (s.setCtx k c).measure = s.measure := rfl
@[simp] theorem State.setCtx_mlog (s : State) (k : Nat) (c : Ctx) : (s.setCtx k c).mlog = s.mlog := rfl
@[simp] theorem State.setCtx_images (s : State) (k : Nat) (c : Ctx) : (s.setCtx k c).images = s.images := rfl
@[simp] theorem State.setCtx_devRec (s : State) (k : Nat) (c : Ctx) : (s.setCtx k c).devRec = s.devRec := rfl
@[simp] theorem State.setCtx_devNow (s : State) (k : Nat) (c : Ctx) : (s.setCtx k c).devNow = s.devNow := rfl
@[simp] theorem State.setCtx_firstRec (s : State) (k : Nat) (c : Ctx) : (s.setCtx k c).firstRec = s.firstRec := rfl
@[simp] theorem State.setCtx_box (s : State) (k : Nat) (c : Ctx) : (s.setCtx k c).box = s.box := rfl
@[simp] theorem State.setCtx_dumps (s : State) (k : Nat) (c : Ctx) : (s.setCtx k c).dumps = s.dumps := rfl
@[simp] theorem State.setCtx_fatal (s : State) (k : Nat) (c : Ctx) : (s.setCtx k c).fatal = s.fatal := rfl

@[simp] theorem State.modCtx_agenda (s : State) (k : Nat) (f : Ctx → Ctx) : (s.modCtx k f).agenda = s.agenda := rfl
@[simp] theorem State.modCtx_draws (s : State) (k : Nat) (f : Ctx → Ctx) : (s.modCtx k f).draws = s.draws := rfl
@[simp] theorem State.modCtx_cur (s : State) (k : Nat) (f : Ctx → Ctx) : (s.modCtx k f).cur = s.cur := rfl
@[simp] theorem State.modCtx_clock (s : State) (k : Nat) (f : Ctx → Ctx) : (s.modCtx k f).clock = s.clock := rfl
@[simp] theorem State.modCtx_mem (s : State) (k : Nat) (f : Ctx → Ctx) : (s.modCtx k f).mem = s.mem := rfl
@[simp] theorem State.modCtx_poison (s : State) (k : Nat) (f : Ctx → Ctx) : (s.modCtx k f).poison = s.poison := rfl
@[simp] theorem State.modCtx_errs (s : State) (k : Nat) (f : Ctx → Ctx) : (s.modCtx k f).errs = s.errs := rfl
@[simp] theorem State.modCtx_l2 (s : State) (k : Nat) (f : Ctx → Ctx) : (s.modCtx k f).l2 = s.l2 := rfl
@[simp] theorem State.modCtx_dirty (s : State) (k : Nat) (f : Ctx → Ctx) : (s.modCtx k f).dirty = s.dirty := rfl
@[simp] theorem State.modCtx_grans (s : State) (k : Nat) (f : Ctx → Ctx) : (s.modCtx k f).grans = s.grans := rfl
@[simp] theorem State.modCtx_roots (s : State) (k : Nat) (f : Ctx → Ctx) : (s.modCtx k f).roots = s.roots := rfl
@[simp] theorem State.modCtx_ctlb (s : State) (k : Nat) (f : Ctx → Ctx) : (s.modCtx k f).ctlb = s.ctlb := rfl
@[simp] theorem State.modCtx_dtlb (s : State) (k : Nat) (f : Ctx → Ctx) : (s.modCtx k f).dtlb = s.dtlb := rfl
@[simp] theorem State.modCtx_miss (s : State) (k : Nat) (f : Ctx → Ctx) : (s.modCtx k f).miss = s.miss := rfl
@[simp] theorem State.modCtx_held (s : State) (k : Nat) (f : Ctx → Ctx) : (s.modCtx k f).held = s.held := rfl
@[simp] theorem State.modCtx_alrq (s : State) (k : Nat) (f : Ctx → Ctx) : (s.modCtx k f).alrq = s.alrq := rfl
@[simp] theorem State.modCtx_cores (s : State) (k : Nat) (f : Ctx → Ctx) : (s.modCtx k f).cores = s.cores := rfl
@[simp] theorem State.modCtx_saves (s : State) (k : Nat) (f : Ctx → Ctx) : (s.modCtx k f).saves = s.saves := rfl
@[simp] theorem State.modCtx_lanes (s : State) (k : Nat) (f : Ctx → Ctx) : (s.modCtx k f).lanes = s.lanes := rfl
@[simp] theorem State.modCtx_cols (s : State) (k : Nat) (f : Ctx → Ctx) : (s.modCtx k f).cols = s.cols := rfl
@[simp] theorem State.modCtx_mats (s : State) (k : Nat) (f : Ctx → Ctx) : (s.modCtx k f).mats = s.mats := rfl
@[simp] theorem State.modCtx_beds (s : State) (k : Nat) (f : Ctx → Ctx) : (s.modCtx k f).beds = s.beds := rfl
@[simp] theorem State.modCtx_reds (s : State) (k : Nat) (f : Ctx → Ctx) : (s.modCtx k f).reds = s.reds := rfl
@[simp] theorem State.modCtx_defers (s : State) (k : Nat) (f : Ctx → Ctx) : (s.modCtx k f).defers = s.defers := rfl
@[simp] theorem State.modCtx_arrivals (s : State) (k : Nat) (f : Ctx → Ctx) : (s.modCtx k f).arrivals = s.arrivals := rfl
@[simp] theorem State.modCtx_xturn (s : State) (k : Nat) (f : Ctx → Ctx) : (s.modCtx k f).xturn = s.xturn := rfl
@[simp] theorem State.modCtx_seqs (s : State) (k : Nat) (f : Ctx → Ctx) : (s.modCtx k f).seqs = s.seqs := rfl
@[simp] theorem State.modCtx_pools (s : State) (k : Nat) (f : Ctx → Ctx) : (s.modCtx k f).pools = s.pools := rfl
@[simp] theorem State.modCtx_attns (s : State) (k : Nat) (f : Ctx → Ctx) : (s.modCtx k f).attns = s.attns := rfl
@[simp] theorem State.modCtx_regions (s : State) (k : Nat) (f : Ctx → Ctx) : (s.modCtx k f).regions = s.regions := rfl
@[simp] theorem State.modCtx_nextReg (s : State) (k : Nat) (f : Ctx → Ctx) : (s.modCtx k f).nextReg = s.nextReg := rfl
@[simp] theorem State.modCtx_nextTask (s : State) (k : Nat) (f : Ctx → Ctx) : (s.modCtx k f).nextTask = s.nextTask := rfl
@[simp] theorem State.modCtx_parts (s : State) (k : Nat) (f : Ctx → Ctx) : (s.modCtx k f).parts = s.parts := rfl
@[simp] theorem State.modCtx_devPool (s : State) (k : Nat) (f : Ctx → Ctx) : (s.modCtx k f).devPool = s.devPool := rfl
@[simp] theorem State.modCtx_qps (s : State) (k : Nat) (f : Ctx → Ctx) : (s.modCtx k f).qps = s.qps := rfl
@[simp] theorem State.modCtx_ports (s : State) (k : Nat) (f : Ctx → Ctx) : (s.modCtx k f).ports = s.ports := rfl
@[simp] theorem State.modCtx_links (s : State) (k : Nat) (f : Ctx → Ctx) : (s.modCtx k f).links = s.links := rfl
@[simp] theorem State.modCtx_out (s : State) (k : Nat) (f : Ctx → Ctx) : (s.modCtx k f).out = s.out := rfl
@[simp] theorem State.modCtx_booted (s : State) (k : Nat) (f : Ctx → Ctx) : (s.modCtx k f).booted = s.booted := rfl
@[simp] theorem State.modCtx_recovery (s : State) (k : Nat) (f : Ctx → Ctx) : (s.modCtx k f).recovery = s.recovery := rfl
@[simp] theorem State.modCtx_measure (s : State) (k : Nat) (f : Ctx → Ctx) : (s.modCtx k f).measure = s.measure := rfl
@[simp] theorem State.modCtx_mlog (s : State) (k : Nat) (f : Ctx → Ctx) : (s.modCtx k f).mlog = s.mlog := rfl
@[simp] theorem State.modCtx_images (s : State) (k : Nat) (f : Ctx → Ctx) : (s.modCtx k f).images = s.images := rfl
@[simp] theorem State.modCtx_devRec (s : State) (k : Nat) (f : Ctx → Ctx) : (s.modCtx k f).devRec = s.devRec := rfl
@[simp] theorem State.modCtx_devNow (s : State) (k : Nat) (f : Ctx → Ctx) : (s.modCtx k f).devNow = s.devNow := rfl
@[simp] theorem State.modCtx_firstRec (s : State) (k : Nat) (f : Ctx → Ctx) : (s.modCtx k f).firstRec = s.firstRec := rfl
@[simp] theorem State.modCtx_box (s : State) (k : Nat) (f : Ctx → Ctx) : (s.modCtx k f).box = s.box := rfl
@[simp] theorem State.modCtx_dumps (s : State) (k : Nat) (f : Ctx → Ctx) : (s.modCtx k f).dumps = s.dumps := rfl
@[simp] theorem State.modCtx_fatal (s : State) (k : Nat) (f : Ctx → Ctx) : (s.modCtx k f).fatal = s.fatal := rfl

@[simp] theorem State.modMe_agenda (s : State) (f : Ctx → Ctx) : (s.modMe f).agenda = s.agenda := rfl
@[simp] theorem State.modMe_draws (s : State) (f : Ctx → Ctx) : (s.modMe f).draws = s.draws := rfl
@[simp] theorem State.modMe_cur (s : State) (f : Ctx → Ctx) : (s.modMe f).cur = s.cur := rfl
@[simp] theorem State.modMe_clock (s : State) (f : Ctx → Ctx) : (s.modMe f).clock = s.clock := rfl
@[simp] theorem State.modMe_mem (s : State) (f : Ctx → Ctx) : (s.modMe f).mem = s.mem := rfl
@[simp] theorem State.modMe_poison (s : State) (f : Ctx → Ctx) : (s.modMe f).poison = s.poison := rfl
@[simp] theorem State.modMe_errs (s : State) (f : Ctx → Ctx) : (s.modMe f).errs = s.errs := rfl
@[simp] theorem State.modMe_l2 (s : State) (f : Ctx → Ctx) : (s.modMe f).l2 = s.l2 := rfl
@[simp] theorem State.modMe_dirty (s : State) (f : Ctx → Ctx) : (s.modMe f).dirty = s.dirty := rfl
@[simp] theorem State.modMe_grans (s : State) (f : Ctx → Ctx) : (s.modMe f).grans = s.grans := rfl
@[simp] theorem State.modMe_roots (s : State) (f : Ctx → Ctx) : (s.modMe f).roots = s.roots := rfl
@[simp] theorem State.modMe_ctlb (s : State) (f : Ctx → Ctx) : (s.modMe f).ctlb = s.ctlb := rfl
@[simp] theorem State.modMe_dtlb (s : State) (f : Ctx → Ctx) : (s.modMe f).dtlb = s.dtlb := rfl
@[simp] theorem State.modMe_miss (s : State) (f : Ctx → Ctx) : (s.modMe f).miss = s.miss := rfl
@[simp] theorem State.modMe_held (s : State) (f : Ctx → Ctx) : (s.modMe f).held = s.held := rfl
@[simp] theorem State.modMe_alrq (s : State) (f : Ctx → Ctx) : (s.modMe f).alrq = s.alrq := rfl
@[simp] theorem State.modMe_cores (s : State) (f : Ctx → Ctx) : (s.modMe f).cores = s.cores := rfl
@[simp] theorem State.modMe_saves (s : State) (f : Ctx → Ctx) : (s.modMe f).saves = s.saves := rfl
@[simp] theorem State.modMe_lanes (s : State) (f : Ctx → Ctx) : (s.modMe f).lanes = s.lanes := rfl
@[simp] theorem State.modMe_cols (s : State) (f : Ctx → Ctx) : (s.modMe f).cols = s.cols := rfl
@[simp] theorem State.modMe_mats (s : State) (f : Ctx → Ctx) : (s.modMe f).mats = s.mats := rfl
@[simp] theorem State.modMe_beds (s : State) (f : Ctx → Ctx) : (s.modMe f).beds = s.beds := rfl
@[simp] theorem State.modMe_reds (s : State) (f : Ctx → Ctx) : (s.modMe f).reds = s.reds := rfl
@[simp] theorem State.modMe_defers (s : State) (f : Ctx → Ctx) : (s.modMe f).defers = s.defers := rfl
@[simp] theorem State.modMe_arrivals (s : State) (f : Ctx → Ctx) : (s.modMe f).arrivals = s.arrivals := rfl
@[simp] theorem State.modMe_xturn (s : State) (f : Ctx → Ctx) : (s.modMe f).xturn = s.xturn := rfl
@[simp] theorem State.modMe_seqs (s : State) (f : Ctx → Ctx) : (s.modMe f).seqs = s.seqs := rfl
@[simp] theorem State.modMe_pools (s : State) (f : Ctx → Ctx) : (s.modMe f).pools = s.pools := rfl
@[simp] theorem State.modMe_attns (s : State) (f : Ctx → Ctx) : (s.modMe f).attns = s.attns := rfl
@[simp] theorem State.modMe_regions (s : State) (f : Ctx → Ctx) : (s.modMe f).regions = s.regions := rfl
@[simp] theorem State.modMe_nextReg (s : State) (f : Ctx → Ctx) : (s.modMe f).nextReg = s.nextReg := rfl
@[simp] theorem State.modMe_nextTask (s : State) (f : Ctx → Ctx) : (s.modMe f).nextTask = s.nextTask := rfl
@[simp] theorem State.modMe_parts (s : State) (f : Ctx → Ctx) : (s.modMe f).parts = s.parts := rfl
@[simp] theorem State.modMe_devPool (s : State) (f : Ctx → Ctx) : (s.modMe f).devPool = s.devPool := rfl
@[simp] theorem State.modMe_qps (s : State) (f : Ctx → Ctx) : (s.modMe f).qps = s.qps := rfl
@[simp] theorem State.modMe_ports (s : State) (f : Ctx → Ctx) : (s.modMe f).ports = s.ports := rfl
@[simp] theorem State.modMe_links (s : State) (f : Ctx → Ctx) : (s.modMe f).links = s.links := rfl
@[simp] theorem State.modMe_out (s : State) (f : Ctx → Ctx) : (s.modMe f).out = s.out := rfl
@[simp] theorem State.modMe_booted (s : State) (f : Ctx → Ctx) : (s.modMe f).booted = s.booted := rfl
@[simp] theorem State.modMe_recovery (s : State) (f : Ctx → Ctx) : (s.modMe f).recovery = s.recovery := rfl
@[simp] theorem State.modMe_measure (s : State) (f : Ctx → Ctx) : (s.modMe f).measure = s.measure := rfl
@[simp] theorem State.modMe_mlog (s : State) (f : Ctx → Ctx) : (s.modMe f).mlog = s.mlog := rfl
@[simp] theorem State.modMe_images (s : State) (f : Ctx → Ctx) : (s.modMe f).images = s.images := rfl
@[simp] theorem State.modMe_devRec (s : State) (f : Ctx → Ctx) : (s.modMe f).devRec = s.devRec := rfl
@[simp] theorem State.modMe_devNow (s : State) (f : Ctx → Ctx) : (s.modMe f).devNow = s.devNow := rfl
@[simp] theorem State.modMe_firstRec (s : State) (f : Ctx → Ctx) : (s.modMe f).firstRec = s.firstRec := rfl
@[simp] theorem State.modMe_box (s : State) (f : Ctx → Ctx) : (s.modMe f).box = s.box := rfl
@[simp] theorem State.modMe_dumps (s : State) (f : Ctx → Ctx) : (s.modMe f).dumps = s.dumps := rfl
@[simp] theorem State.modMe_fatal (s : State) (f : Ctx → Ctx) : (s.modMe f).fatal = s.fatal := rfl

@[simp] theorem State.modCe_agenda (s : State) (f : Engine → Engine) : (s.modCe f).agenda = s.agenda := rfl
@[simp] theorem State.modCe_draws (s : State) (f : Engine → Engine) : (s.modCe f).draws = s.draws := rfl
@[simp] theorem State.modCe_cur (s : State) (f : Engine → Engine) : (s.modCe f).cur = s.cur := rfl
@[simp] theorem State.modCe_clock (s : State) (f : Engine → Engine) : (s.modCe f).clock = s.clock := rfl
@[simp] theorem State.modCe_mem (s : State) (f : Engine → Engine) : (s.modCe f).mem = s.mem := rfl
@[simp] theorem State.modCe_poison (s : State) (f : Engine → Engine) : (s.modCe f).poison = s.poison := rfl
@[simp] theorem State.modCe_errs (s : State) (f : Engine → Engine) : (s.modCe f).errs = s.errs := rfl
@[simp] theorem State.modCe_l2 (s : State) (f : Engine → Engine) : (s.modCe f).l2 = s.l2 := rfl
@[simp] theorem State.modCe_dirty (s : State) (f : Engine → Engine) : (s.modCe f).dirty = s.dirty := rfl
@[simp] theorem State.modCe_grans (s : State) (f : Engine → Engine) : (s.modCe f).grans = s.grans := rfl
@[simp] theorem State.modCe_roots (s : State) (f : Engine → Engine) : (s.modCe f).roots = s.roots := rfl
@[simp] theorem State.modCe_ctlb (s : State) (f : Engine → Engine) : (s.modCe f).ctlb = s.ctlb := rfl
@[simp] theorem State.modCe_dtlb (s : State) (f : Engine → Engine) : (s.modCe f).dtlb = s.dtlb := rfl
@[simp] theorem State.modCe_miss (s : State) (f : Engine → Engine) : (s.modCe f).miss = s.miss := rfl
@[simp] theorem State.modCe_held (s : State) (f : Engine → Engine) : (s.modCe f).held = s.held := rfl
@[simp] theorem State.modCe_alrq (s : State) (f : Engine → Engine) : (s.modCe f).alrq = s.alrq := rfl
@[simp] theorem State.modCe_cores (s : State) (f : Engine → Engine) : (s.modCe f).cores = s.cores := rfl
@[simp] theorem State.modCe_saves (s : State) (f : Engine → Engine) : (s.modCe f).saves = s.saves := rfl
@[simp] theorem State.modCe_lanes (s : State) (f : Engine → Engine) : (s.modCe f).lanes = s.lanes := rfl
@[simp] theorem State.modCe_cols (s : State) (f : Engine → Engine) : (s.modCe f).cols = s.cols := rfl
@[simp] theorem State.modCe_mats (s : State) (f : Engine → Engine) : (s.modCe f).mats = s.mats := rfl
@[simp] theorem State.modCe_beds (s : State) (f : Engine → Engine) : (s.modCe f).beds = s.beds := rfl
@[simp] theorem State.modCe_reds (s : State) (f : Engine → Engine) : (s.modCe f).reds = s.reds := rfl
@[simp] theorem State.modCe_defers (s : State) (f : Engine → Engine) : (s.modCe f).defers = s.defers := rfl
@[simp] theorem State.modCe_arrivals (s : State) (f : Engine → Engine) : (s.modCe f).arrivals = s.arrivals := rfl
@[simp] theorem State.modCe_xturn (s : State) (f : Engine → Engine) : (s.modCe f).xturn = s.xturn := rfl
@[simp] theorem State.modCe_seqs (s : State) (f : Engine → Engine) : (s.modCe f).seqs = s.seqs := rfl
@[simp] theorem State.modCe_pools (s : State) (f : Engine → Engine) : (s.modCe f).pools = s.pools := rfl
@[simp] theorem State.modCe_attns (s : State) (f : Engine → Engine) : (s.modCe f).attns = s.attns := rfl
@[simp] theorem State.modCe_regions (s : State) (f : Engine → Engine) : (s.modCe f).regions = s.regions := rfl
@[simp] theorem State.modCe_nextReg (s : State) (f : Engine → Engine) : (s.modCe f).nextReg = s.nextReg := rfl
@[simp] theorem State.modCe_nextTask (s : State) (f : Engine → Engine) : (s.modCe f).nextTask = s.nextTask := rfl
@[simp] theorem State.modCe_parts (s : State) (f : Engine → Engine) : (s.modCe f).parts = s.parts := rfl
@[simp] theorem State.modCe_devPool (s : State) (f : Engine → Engine) : (s.modCe f).devPool = s.devPool := rfl
@[simp] theorem State.modCe_qps (s : State) (f : Engine → Engine) : (s.modCe f).qps = s.qps := rfl
@[simp] theorem State.modCe_ports (s : State) (f : Engine → Engine) : (s.modCe f).ports = s.ports := rfl
@[simp] theorem State.modCe_links (s : State) (f : Engine → Engine) : (s.modCe f).links = s.links := rfl
@[simp] theorem State.modCe_out (s : State) (f : Engine → Engine) : (s.modCe f).out = s.out := rfl
@[simp] theorem State.modCe_booted (s : State) (f : Engine → Engine) : (s.modCe f).booted = s.booted := rfl
@[simp] theorem State.modCe_recovery (s : State) (f : Engine → Engine) : (s.modCe f).recovery = s.recovery := rfl
@[simp] theorem State.modCe_measure (s : State) (f : Engine → Engine) : (s.modCe f).measure = s.measure := rfl
@[simp] theorem State.modCe_mlog (s : State) (f : Engine → Engine) : (s.modCe f).mlog = s.mlog := rfl
@[simp] theorem State.modCe_images (s : State) (f : Engine → Engine) : (s.modCe f).images = s.images := rfl
@[simp] theorem State.modCe_devRec (s : State) (f : Engine → Engine) : (s.modCe f).devRec = s.devRec := rfl
@[simp] theorem State.modCe_devNow (s : State) (f : Engine → Engine) : (s.modCe f).devNow = s.devNow := rfl
@[simp] theorem State.modCe_firstRec (s : State) (f : Engine → Engine) : (s.modCe f).firstRec = s.firstRec := rfl
@[simp] theorem State.modCe_box (s : State) (f : Engine → Engine) : (s.modCe f).box = s.box := rfl
@[simp] theorem State.modCe_dumps (s : State) (f : Engine → Engine) : (s.modCe f).dumps = s.dumps := rfl
@[simp] theorem State.modCe_fatal (s : State) (f : Engine → Engine) : (s.modCe f).fatal = s.fatal := rfl

@[simp] theorem State.wx_agenda (s : State) (r : Reg) (v : Quad) : (s.wx r v).agenda = s.agenda := rfl
@[simp] theorem State.wx_draws (s : State) (r : Reg) (v : Quad) : (s.wx r v).draws = s.draws := rfl
@[simp] theorem State.wx_cur (s : State) (r : Reg) (v : Quad) : (s.wx r v).cur = s.cur := rfl
@[simp] theorem State.wx_clock (s : State) (r : Reg) (v : Quad) : (s.wx r v).clock = s.clock := rfl
@[simp] theorem State.wx_mem (s : State) (r : Reg) (v : Quad) : (s.wx r v).mem = s.mem := rfl
@[simp] theorem State.wx_poison (s : State) (r : Reg) (v : Quad) : (s.wx r v).poison = s.poison := rfl
@[simp] theorem State.wx_errs (s : State) (r : Reg) (v : Quad) : (s.wx r v).errs = s.errs := rfl
@[simp] theorem State.wx_l2 (s : State) (r : Reg) (v : Quad) : (s.wx r v).l2 = s.l2 := rfl
@[simp] theorem State.wx_dirty (s : State) (r : Reg) (v : Quad) : (s.wx r v).dirty = s.dirty := rfl
@[simp] theorem State.wx_grans (s : State) (r : Reg) (v : Quad) : (s.wx r v).grans = s.grans := rfl
@[simp] theorem State.wx_roots (s : State) (r : Reg) (v : Quad) : (s.wx r v).roots = s.roots := rfl
@[simp] theorem State.wx_ctlb (s : State) (r : Reg) (v : Quad) : (s.wx r v).ctlb = s.ctlb := rfl
@[simp] theorem State.wx_dtlb (s : State) (r : Reg) (v : Quad) : (s.wx r v).dtlb = s.dtlb := rfl
@[simp] theorem State.wx_miss (s : State) (r : Reg) (v : Quad) : (s.wx r v).miss = s.miss := rfl
@[simp] theorem State.wx_held (s : State) (r : Reg) (v : Quad) : (s.wx r v).held = s.held := rfl
@[simp] theorem State.wx_alrq (s : State) (r : Reg) (v : Quad) : (s.wx r v).alrq = s.alrq := rfl
@[simp] theorem State.wx_cores (s : State) (r : Reg) (v : Quad) : (s.wx r v).cores = s.cores := rfl
@[simp] theorem State.wx_saves (s : State) (r : Reg) (v : Quad) : (s.wx r v).saves = s.saves := rfl
@[simp] theorem State.wx_lanes (s : State) (r : Reg) (v : Quad) : (s.wx r v).lanes = s.lanes := rfl
@[simp] theorem State.wx_cols (s : State) (r : Reg) (v : Quad) : (s.wx r v).cols = s.cols := rfl
@[simp] theorem State.wx_mats (s : State) (r : Reg) (v : Quad) : (s.wx r v).mats = s.mats := rfl
@[simp] theorem State.wx_beds (s : State) (r : Reg) (v : Quad) : (s.wx r v).beds = s.beds := rfl
@[simp] theorem State.wx_reds (s : State) (r : Reg) (v : Quad) : (s.wx r v).reds = s.reds := rfl
@[simp] theorem State.wx_defers (s : State) (r : Reg) (v : Quad) : (s.wx r v).defers = s.defers := rfl
@[simp] theorem State.wx_arrivals (s : State) (r : Reg) (v : Quad) : (s.wx r v).arrivals = s.arrivals := rfl
@[simp] theorem State.wx_xturn (s : State) (r : Reg) (v : Quad) : (s.wx r v).xturn = s.xturn := rfl
@[simp] theorem State.wx_seqs (s : State) (r : Reg) (v : Quad) : (s.wx r v).seqs = s.seqs := rfl
@[simp] theorem State.wx_pools (s : State) (r : Reg) (v : Quad) : (s.wx r v).pools = s.pools := rfl
@[simp] theorem State.wx_attns (s : State) (r : Reg) (v : Quad) : (s.wx r v).attns = s.attns := rfl
@[simp] theorem State.wx_regions (s : State) (r : Reg) (v : Quad) : (s.wx r v).regions = s.regions := rfl
@[simp] theorem State.wx_nextReg (s : State) (r : Reg) (v : Quad) : (s.wx r v).nextReg = s.nextReg := rfl
@[simp] theorem State.wx_nextTask (s : State) (r : Reg) (v : Quad) : (s.wx r v).nextTask = s.nextTask := rfl
@[simp] theorem State.wx_parts (s : State) (r : Reg) (v : Quad) : (s.wx r v).parts = s.parts := rfl
@[simp] theorem State.wx_devPool (s : State) (r : Reg) (v : Quad) : (s.wx r v).devPool = s.devPool := rfl
@[simp] theorem State.wx_qps (s : State) (r : Reg) (v : Quad) : (s.wx r v).qps = s.qps := rfl
@[simp] theorem State.wx_ports (s : State) (r : Reg) (v : Quad) : (s.wx r v).ports = s.ports := rfl
@[simp] theorem State.wx_links (s : State) (r : Reg) (v : Quad) : (s.wx r v).links = s.links := rfl
@[simp] theorem State.wx_out (s : State) (r : Reg) (v : Quad) : (s.wx r v).out = s.out := rfl
@[simp] theorem State.wx_booted (s : State) (r : Reg) (v : Quad) : (s.wx r v).booted = s.booted := rfl
@[simp] theorem State.wx_recovery (s : State) (r : Reg) (v : Quad) : (s.wx r v).recovery = s.recovery := rfl
@[simp] theorem State.wx_measure (s : State) (r : Reg) (v : Quad) : (s.wx r v).measure = s.measure := rfl
@[simp] theorem State.wx_mlog (s : State) (r : Reg) (v : Quad) : (s.wx r v).mlog = s.mlog := rfl
@[simp] theorem State.wx_images (s : State) (r : Reg) (v : Quad) : (s.wx r v).images = s.images := rfl
@[simp] theorem State.wx_devRec (s : State) (r : Reg) (v : Quad) : (s.wx r v).devRec = s.devRec := rfl
@[simp] theorem State.wx_devNow (s : State) (r : Reg) (v : Quad) : (s.wx r v).devNow = s.devNow := rfl
@[simp] theorem State.wx_firstRec (s : State) (r : Reg) (v : Quad) : (s.wx r v).firstRec = s.firstRec := rfl
@[simp] theorem State.wx_box (s : State) (r : Reg) (v : Quad) : (s.wx r v).box = s.box := rfl
@[simp] theorem State.wx_dumps (s : State) (r : Reg) (v : Quad) : (s.wx r v).dumps = s.dumps := rfl
@[simp] theorem State.wx_fatal (s : State) (r : Reg) (v : Quad) : (s.wx r v).fatal = s.fatal := rfl

@[simp] theorem State.wp_agenda (s : State) (n : BitVec 3) (b : Bool) : (s.wp n b).agenda = s.agenda := rfl
@[simp] theorem State.wp_draws (s : State) (n : BitVec 3) (b : Bool) : (s.wp n b).draws = s.draws := rfl
@[simp] theorem State.wp_cur (s : State) (n : BitVec 3) (b : Bool) : (s.wp n b).cur = s.cur := rfl
@[simp] theorem State.wp_clock (s : State) (n : BitVec 3) (b : Bool) : (s.wp n b).clock = s.clock := rfl
@[simp] theorem State.wp_mem (s : State) (n : BitVec 3) (b : Bool) : (s.wp n b).mem = s.mem := rfl
@[simp] theorem State.wp_poison (s : State) (n : BitVec 3) (b : Bool) : (s.wp n b).poison = s.poison := rfl
@[simp] theorem State.wp_errs (s : State) (n : BitVec 3) (b : Bool) : (s.wp n b).errs = s.errs := rfl
@[simp] theorem State.wp_l2 (s : State) (n : BitVec 3) (b : Bool) : (s.wp n b).l2 = s.l2 := rfl
@[simp] theorem State.wp_dirty (s : State) (n : BitVec 3) (b : Bool) : (s.wp n b).dirty = s.dirty := rfl
@[simp] theorem State.wp_grans (s : State) (n : BitVec 3) (b : Bool) : (s.wp n b).grans = s.grans := rfl
@[simp] theorem State.wp_roots (s : State) (n : BitVec 3) (b : Bool) : (s.wp n b).roots = s.roots := rfl
@[simp] theorem State.wp_ctlb (s : State) (n : BitVec 3) (b : Bool) : (s.wp n b).ctlb = s.ctlb := rfl
@[simp] theorem State.wp_dtlb (s : State) (n : BitVec 3) (b : Bool) : (s.wp n b).dtlb = s.dtlb := rfl
@[simp] theorem State.wp_miss (s : State) (n : BitVec 3) (b : Bool) : (s.wp n b).miss = s.miss := rfl
@[simp] theorem State.wp_held (s : State) (n : BitVec 3) (b : Bool) : (s.wp n b).held = s.held := rfl
@[simp] theorem State.wp_alrq (s : State) (n : BitVec 3) (b : Bool) : (s.wp n b).alrq = s.alrq := rfl
@[simp] theorem State.wp_cores (s : State) (n : BitVec 3) (b : Bool) : (s.wp n b).cores = s.cores := rfl
@[simp] theorem State.wp_saves (s : State) (n : BitVec 3) (b : Bool) : (s.wp n b).saves = s.saves := rfl
@[simp] theorem State.wp_lanes (s : State) (n : BitVec 3) (b : Bool) : (s.wp n b).lanes = s.lanes := rfl
@[simp] theorem State.wp_cols (s : State) (n : BitVec 3) (b : Bool) : (s.wp n b).cols = s.cols := rfl
@[simp] theorem State.wp_mats (s : State) (n : BitVec 3) (b : Bool) : (s.wp n b).mats = s.mats := rfl
@[simp] theorem State.wp_beds (s : State) (n : BitVec 3) (b : Bool) : (s.wp n b).beds = s.beds := rfl
@[simp] theorem State.wp_reds (s : State) (n : BitVec 3) (b : Bool) : (s.wp n b).reds = s.reds := rfl
@[simp] theorem State.wp_defers (s : State) (n : BitVec 3) (b : Bool) : (s.wp n b).defers = s.defers := rfl
@[simp] theorem State.wp_arrivals (s : State) (n : BitVec 3) (b : Bool) : (s.wp n b).arrivals = s.arrivals := rfl
@[simp] theorem State.wp_xturn (s : State) (n : BitVec 3) (b : Bool) : (s.wp n b).xturn = s.xturn := rfl
@[simp] theorem State.wp_seqs (s : State) (n : BitVec 3) (b : Bool) : (s.wp n b).seqs = s.seqs := rfl
@[simp] theorem State.wp_pools (s : State) (n : BitVec 3) (b : Bool) : (s.wp n b).pools = s.pools := rfl
@[simp] theorem State.wp_attns (s : State) (n : BitVec 3) (b : Bool) : (s.wp n b).attns = s.attns := rfl
@[simp] theorem State.wp_regions (s : State) (n : BitVec 3) (b : Bool) : (s.wp n b).regions = s.regions := rfl
@[simp] theorem State.wp_nextReg (s : State) (n : BitVec 3) (b : Bool) : (s.wp n b).nextReg = s.nextReg := rfl
@[simp] theorem State.wp_nextTask (s : State) (n : BitVec 3) (b : Bool) : (s.wp n b).nextTask = s.nextTask := rfl
@[simp] theorem State.wp_parts (s : State) (n : BitVec 3) (b : Bool) : (s.wp n b).parts = s.parts := rfl
@[simp] theorem State.wp_devPool (s : State) (n : BitVec 3) (b : Bool) : (s.wp n b).devPool = s.devPool := rfl
@[simp] theorem State.wp_qps (s : State) (n : BitVec 3) (b : Bool) : (s.wp n b).qps = s.qps := rfl
@[simp] theorem State.wp_ports (s : State) (n : BitVec 3) (b : Bool) : (s.wp n b).ports = s.ports := rfl
@[simp] theorem State.wp_links (s : State) (n : BitVec 3) (b : Bool) : (s.wp n b).links = s.links := rfl
@[simp] theorem State.wp_out (s : State) (n : BitVec 3) (b : Bool) : (s.wp n b).out = s.out := rfl
@[simp] theorem State.wp_booted (s : State) (n : BitVec 3) (b : Bool) : (s.wp n b).booted = s.booted := rfl
@[simp] theorem State.wp_recovery (s : State) (n : BitVec 3) (b : Bool) : (s.wp n b).recovery = s.recovery := rfl
@[simp] theorem State.wp_measure (s : State) (n : BitVec 3) (b : Bool) : (s.wp n b).measure = s.measure := rfl
@[simp] theorem State.wp_mlog (s : State) (n : BitVec 3) (b : Bool) : (s.wp n b).mlog = s.mlog := rfl
@[simp] theorem State.wp_images (s : State) (n : BitVec 3) (b : Bool) : (s.wp n b).images = s.images := rfl
@[simp] theorem State.wp_devRec (s : State) (n : BitVec 3) (b : Bool) : (s.wp n b).devRec = s.devRec := rfl
@[simp] theorem State.wp_devNow (s : State) (n : BitVec 3) (b : Bool) : (s.wp n b).devNow = s.devNow := rfl
@[simp] theorem State.wp_firstRec (s : State) (n : BitVec 3) (b : Bool) : (s.wp n b).firstRec = s.firstRec := rfl
@[simp] theorem State.wp_box (s : State) (n : BitVec 3) (b : Bool) : (s.wp n b).box = s.box := rfl
@[simp] theorem State.wp_dumps (s : State) (n : BitVec 3) (b : Bool) : (s.wp n b).dumps = s.dumps := rfl
@[simp] theorem State.wp_fatal (s : State) (n : BitVec 3) (b : Bool) : (s.wp n b).fatal = s.fatal := rfl

@[simp] theorem State.wv_agenda (s : State) (n : BitVec 6) (v : Vec) : (s.wv n v).agenda = s.agenda := rfl
@[simp] theorem State.wv_draws (s : State) (n : BitVec 6) (v : Vec) : (s.wv n v).draws = s.draws := rfl
@[simp] theorem State.wv_cur (s : State) (n : BitVec 6) (v : Vec) : (s.wv n v).cur = s.cur := rfl
@[simp] theorem State.wv_clock (s : State) (n : BitVec 6) (v : Vec) : (s.wv n v).clock = s.clock := rfl
@[simp] theorem State.wv_mem (s : State) (n : BitVec 6) (v : Vec) : (s.wv n v).mem = s.mem := rfl
@[simp] theorem State.wv_poison (s : State) (n : BitVec 6) (v : Vec) : (s.wv n v).poison = s.poison := rfl
@[simp] theorem State.wv_errs (s : State) (n : BitVec 6) (v : Vec) : (s.wv n v).errs = s.errs := rfl
@[simp] theorem State.wv_l2 (s : State) (n : BitVec 6) (v : Vec) : (s.wv n v).l2 = s.l2 := rfl
@[simp] theorem State.wv_dirty (s : State) (n : BitVec 6) (v : Vec) : (s.wv n v).dirty = s.dirty := rfl
@[simp] theorem State.wv_grans (s : State) (n : BitVec 6) (v : Vec) : (s.wv n v).grans = s.grans := rfl
@[simp] theorem State.wv_roots (s : State) (n : BitVec 6) (v : Vec) : (s.wv n v).roots = s.roots := rfl
@[simp] theorem State.wv_ctlb (s : State) (n : BitVec 6) (v : Vec) : (s.wv n v).ctlb = s.ctlb := rfl
@[simp] theorem State.wv_dtlb (s : State) (n : BitVec 6) (v : Vec) : (s.wv n v).dtlb = s.dtlb := rfl
@[simp] theorem State.wv_miss (s : State) (n : BitVec 6) (v : Vec) : (s.wv n v).miss = s.miss := rfl
@[simp] theorem State.wv_held (s : State) (n : BitVec 6) (v : Vec) : (s.wv n v).held = s.held := rfl
@[simp] theorem State.wv_alrq (s : State) (n : BitVec 6) (v : Vec) : (s.wv n v).alrq = s.alrq := rfl
@[simp] theorem State.wv_cores (s : State) (n : BitVec 6) (v : Vec) : (s.wv n v).cores = s.cores := rfl
@[simp] theorem State.wv_saves (s : State) (n : BitVec 6) (v : Vec) : (s.wv n v).saves = s.saves := rfl
@[simp] theorem State.wv_lanes (s : State) (n : BitVec 6) (v : Vec) : (s.wv n v).lanes = s.lanes := rfl
@[simp] theorem State.wv_cols (s : State) (n : BitVec 6) (v : Vec) : (s.wv n v).cols = s.cols := rfl
@[simp] theorem State.wv_mats (s : State) (n : BitVec 6) (v : Vec) : (s.wv n v).mats = s.mats := rfl
@[simp] theorem State.wv_beds (s : State) (n : BitVec 6) (v : Vec) : (s.wv n v).beds = s.beds := rfl
@[simp] theorem State.wv_reds (s : State) (n : BitVec 6) (v : Vec) : (s.wv n v).reds = s.reds := rfl
@[simp] theorem State.wv_defers (s : State) (n : BitVec 6) (v : Vec) : (s.wv n v).defers = s.defers := rfl
@[simp] theorem State.wv_arrivals (s : State) (n : BitVec 6) (v : Vec) : (s.wv n v).arrivals = s.arrivals := rfl
@[simp] theorem State.wv_xturn (s : State) (n : BitVec 6) (v : Vec) : (s.wv n v).xturn = s.xturn := rfl
@[simp] theorem State.wv_seqs (s : State) (n : BitVec 6) (v : Vec) : (s.wv n v).seqs = s.seqs := rfl
@[simp] theorem State.wv_pools (s : State) (n : BitVec 6) (v : Vec) : (s.wv n v).pools = s.pools := rfl
@[simp] theorem State.wv_attns (s : State) (n : BitVec 6) (v : Vec) : (s.wv n v).attns = s.attns := rfl
@[simp] theorem State.wv_regions (s : State) (n : BitVec 6) (v : Vec) : (s.wv n v).regions = s.regions := rfl
@[simp] theorem State.wv_nextReg (s : State) (n : BitVec 6) (v : Vec) : (s.wv n v).nextReg = s.nextReg := rfl
@[simp] theorem State.wv_nextTask (s : State) (n : BitVec 6) (v : Vec) : (s.wv n v).nextTask = s.nextTask := rfl
@[simp] theorem State.wv_parts (s : State) (n : BitVec 6) (v : Vec) : (s.wv n v).parts = s.parts := rfl
@[simp] theorem State.wv_devPool (s : State) (n : BitVec 6) (v : Vec) : (s.wv n v).devPool = s.devPool := rfl
@[simp] theorem State.wv_qps (s : State) (n : BitVec 6) (v : Vec) : (s.wv n v).qps = s.qps := rfl
@[simp] theorem State.wv_ports (s : State) (n : BitVec 6) (v : Vec) : (s.wv n v).ports = s.ports := rfl
@[simp] theorem State.wv_links (s : State) (n : BitVec 6) (v : Vec) : (s.wv n v).links = s.links := rfl
@[simp] theorem State.wv_out (s : State) (n : BitVec 6) (v : Vec) : (s.wv n v).out = s.out := rfl
@[simp] theorem State.wv_booted (s : State) (n : BitVec 6) (v : Vec) : (s.wv n v).booted = s.booted := rfl
@[simp] theorem State.wv_recovery (s : State) (n : BitVec 6) (v : Vec) : (s.wv n v).recovery = s.recovery := rfl
@[simp] theorem State.wv_measure (s : State) (n : BitVec 6) (v : Vec) : (s.wv n v).measure = s.measure := rfl
@[simp] theorem State.wv_mlog (s : State) (n : BitVec 6) (v : Vec) : (s.wv n v).mlog = s.mlog := rfl
@[simp] theorem State.wv_images (s : State) (n : BitVec 6) (v : Vec) : (s.wv n v).images = s.images := rfl
@[simp] theorem State.wv_devRec (s : State) (n : BitVec 6) (v : Vec) : (s.wv n v).devRec = s.devRec := rfl
@[simp] theorem State.wv_devNow (s : State) (n : BitVec 6) (v : Vec) : (s.wv n v).devNow = s.devNow := rfl
@[simp] theorem State.wv_firstRec (s : State) (n : BitVec 6) (v : Vec) : (s.wv n v).firstRec = s.firstRec := rfl
@[simp] theorem State.wv_box (s : State) (n : BitVec 6) (v : Vec) : (s.wv n v).box = s.box := rfl
@[simp] theorem State.wv_dumps (s : State) (n : BitVec 6) (v : Vec) : (s.wv n v).dumps = s.dumps := rfl
@[simp] theorem State.wv_fatal (s : State) (n : BitVec 6) (v : Vec) : (s.wv n v).fatal = s.fatal := rfl

@[simp] theorem State.setCore_agenda (s : State) (k : Nat) (c : Core) : (s.setCore k c).agenda = s.agenda := rfl
@[simp] theorem State.setCore_draws (s : State) (k : Nat) (c : Core) : (s.setCore k c).draws = s.draws := rfl
@[simp] theorem State.setCore_cur (s : State) (k : Nat) (c : Core) : (s.setCore k c).cur = s.cur := rfl
@[simp] theorem State.setCore_clock (s : State) (k : Nat) (c : Core) : (s.setCore k c).clock = s.clock := rfl
@[simp] theorem State.setCore_mem (s : State) (k : Nat) (c : Core) : (s.setCore k c).mem = s.mem := rfl
@[simp] theorem State.setCore_poison (s : State) (k : Nat) (c : Core) : (s.setCore k c).poison = s.poison := rfl
@[simp] theorem State.setCore_errs (s : State) (k : Nat) (c : Core) : (s.setCore k c).errs = s.errs := rfl
@[simp] theorem State.setCore_l2 (s : State) (k : Nat) (c : Core) : (s.setCore k c).l2 = s.l2 := rfl
@[simp] theorem State.setCore_dirty (s : State) (k : Nat) (c : Core) : (s.setCore k c).dirty = s.dirty := rfl
@[simp] theorem State.setCore_grans (s : State) (k : Nat) (c : Core) : (s.setCore k c).grans = s.grans := rfl
@[simp] theorem State.setCore_roots (s : State) (k : Nat) (c : Core) : (s.setCore k c).roots = s.roots := rfl
@[simp] theorem State.setCore_ctlb (s : State) (k : Nat) (c : Core) : (s.setCore k c).ctlb = s.ctlb := rfl
@[simp] theorem State.setCore_dtlb (s : State) (k : Nat) (c : Core) : (s.setCore k c).dtlb = s.dtlb := rfl
@[simp] theorem State.setCore_miss (s : State) (k : Nat) (c : Core) : (s.setCore k c).miss = s.miss := rfl
@[simp] theorem State.setCore_held (s : State) (k : Nat) (c : Core) : (s.setCore k c).held = s.held := rfl
@[simp] theorem State.setCore_alrq (s : State) (k : Nat) (c : Core) : (s.setCore k c).alrq = s.alrq := rfl
@[simp] theorem State.setCore_ctxs (s : State) (k : Nat) (c : Core) : (s.setCore k c).ctxs = s.ctxs := rfl
@[simp] theorem State.setCore_saves (s : State) (k : Nat) (c : Core) : (s.setCore k c).saves = s.saves := rfl
@[simp] theorem State.setCore_lanes (s : State) (k : Nat) (c : Core) : (s.setCore k c).lanes = s.lanes := rfl
@[simp] theorem State.setCore_cols (s : State) (k : Nat) (c : Core) : (s.setCore k c).cols = s.cols := rfl
@[simp] theorem State.setCore_mats (s : State) (k : Nat) (c : Core) : (s.setCore k c).mats = s.mats := rfl
@[simp] theorem State.setCore_beds (s : State) (k : Nat) (c : Core) : (s.setCore k c).beds = s.beds := rfl
@[simp] theorem State.setCore_reds (s : State) (k : Nat) (c : Core) : (s.setCore k c).reds = s.reds := rfl
@[simp] theorem State.setCore_defers (s : State) (k : Nat) (c : Core) : (s.setCore k c).defers = s.defers := rfl
@[simp] theorem State.setCore_arrivals (s : State) (k : Nat) (c : Core) : (s.setCore k c).arrivals = s.arrivals := rfl
@[simp] theorem State.setCore_xturn (s : State) (k : Nat) (c : Core) : (s.setCore k c).xturn = s.xturn := rfl
@[simp] theorem State.setCore_seqs (s : State) (k : Nat) (c : Core) : (s.setCore k c).seqs = s.seqs := rfl
@[simp] theorem State.setCore_pools (s : State) (k : Nat) (c : Core) : (s.setCore k c).pools = s.pools := rfl
@[simp] theorem State.setCore_attns (s : State) (k : Nat) (c : Core) : (s.setCore k c).attns = s.attns := rfl
@[simp] theorem State.setCore_regions (s : State) (k : Nat) (c : Core) : (s.setCore k c).regions = s.regions := rfl
@[simp] theorem State.setCore_nextReg (s : State) (k : Nat) (c : Core) : (s.setCore k c).nextReg = s.nextReg := rfl
@[simp] theorem State.setCore_nextTask (s : State) (k : Nat) (c : Core) : (s.setCore k c).nextTask = s.nextTask := rfl
@[simp] theorem State.setCore_parts (s : State) (k : Nat) (c : Core) : (s.setCore k c).parts = s.parts := rfl
@[simp] theorem State.setCore_devPool (s : State) (k : Nat) (c : Core) : (s.setCore k c).devPool = s.devPool := rfl
@[simp] theorem State.setCore_qps (s : State) (k : Nat) (c : Core) : (s.setCore k c).qps = s.qps := rfl
@[simp] theorem State.setCore_ports (s : State) (k : Nat) (c : Core) : (s.setCore k c).ports = s.ports := rfl
@[simp] theorem State.setCore_links (s : State) (k : Nat) (c : Core) : (s.setCore k c).links = s.links := rfl
@[simp] theorem State.setCore_out (s : State) (k : Nat) (c : Core) : (s.setCore k c).out = s.out := rfl
@[simp] theorem State.setCore_booted (s : State) (k : Nat) (c : Core) : (s.setCore k c).booted = s.booted := rfl
@[simp] theorem State.setCore_recovery (s : State) (k : Nat) (c : Core) : (s.setCore k c).recovery = s.recovery := rfl
@[simp] theorem State.setCore_measure (s : State) (k : Nat) (c : Core) : (s.setCore k c).measure = s.measure := rfl
@[simp] theorem State.setCore_mlog (s : State) (k : Nat) (c : Core) : (s.setCore k c).mlog = s.mlog := rfl
@[simp] theorem State.setCore_images (s : State) (k : Nat) (c : Core) : (s.setCore k c).images = s.images := rfl
@[simp] theorem State.setCore_devRec (s : State) (k : Nat) (c : Core) : (s.setCore k c).devRec = s.devRec := rfl
@[simp] theorem State.setCore_devNow (s : State) (k : Nat) (c : Core) : (s.setCore k c).devNow = s.devNow := rfl
@[simp] theorem State.setCore_firstRec (s : State) (k : Nat) (c : Core) : (s.setCore k c).firstRec = s.firstRec := rfl
@[simp] theorem State.setCore_box (s : State) (k : Nat) (c : Core) : (s.setCore k c).box = s.box := rfl
@[simp] theorem State.setCore_dumps (s : State) (k : Nat) (c : Core) : (s.setCore k c).dumps = s.dumps := rfl
@[simp] theorem State.setCore_fatal (s : State) (k : Nat) (c : Core) : (s.setCore k c).fatal = s.fatal := rfl

@[simp] theorem State.modCore_agenda (s : State) (k : Nat) (f : Core → Core) : (s.modCore k f).agenda = s.agenda := rfl
@[simp] theorem State.modCore_draws (s : State) (k : Nat) (f : Core → Core) : (s.modCore k f).draws = s.draws := rfl
@[simp] theorem State.modCore_cur (s : State) (k : Nat) (f : Core → Core) : (s.modCore k f).cur = s.cur := rfl
@[simp] theorem State.modCore_clock (s : State) (k : Nat) (f : Core → Core) : (s.modCore k f).clock = s.clock := rfl
@[simp] theorem State.modCore_mem (s : State) (k : Nat) (f : Core → Core) : (s.modCore k f).mem = s.mem := rfl
@[simp] theorem State.modCore_poison (s : State) (k : Nat) (f : Core → Core) : (s.modCore k f).poison = s.poison := rfl
@[simp] theorem State.modCore_errs (s : State) (k : Nat) (f : Core → Core) : (s.modCore k f).errs = s.errs := rfl
@[simp] theorem State.modCore_l2 (s : State) (k : Nat) (f : Core → Core) : (s.modCore k f).l2 = s.l2 := rfl
@[simp] theorem State.modCore_dirty (s : State) (k : Nat) (f : Core → Core) : (s.modCore k f).dirty = s.dirty := rfl
@[simp] theorem State.modCore_grans (s : State) (k : Nat) (f : Core → Core) : (s.modCore k f).grans = s.grans := rfl
@[simp] theorem State.modCore_roots (s : State) (k : Nat) (f : Core → Core) : (s.modCore k f).roots = s.roots := rfl
@[simp] theorem State.modCore_ctlb (s : State) (k : Nat) (f : Core → Core) : (s.modCore k f).ctlb = s.ctlb := rfl
@[simp] theorem State.modCore_dtlb (s : State) (k : Nat) (f : Core → Core) : (s.modCore k f).dtlb = s.dtlb := rfl
@[simp] theorem State.modCore_miss (s : State) (k : Nat) (f : Core → Core) : (s.modCore k f).miss = s.miss := rfl
@[simp] theorem State.modCore_held (s : State) (k : Nat) (f : Core → Core) : (s.modCore k f).held = s.held := rfl
@[simp] theorem State.modCore_alrq (s : State) (k : Nat) (f : Core → Core) : (s.modCore k f).alrq = s.alrq := rfl
@[simp] theorem State.modCore_ctxs (s : State) (k : Nat) (f : Core → Core) : (s.modCore k f).ctxs = s.ctxs := rfl
@[simp] theorem State.modCore_saves (s : State) (k : Nat) (f : Core → Core) : (s.modCore k f).saves = s.saves := rfl
@[simp] theorem State.modCore_lanes (s : State) (k : Nat) (f : Core → Core) : (s.modCore k f).lanes = s.lanes := rfl
@[simp] theorem State.modCore_cols (s : State) (k : Nat) (f : Core → Core) : (s.modCore k f).cols = s.cols := rfl
@[simp] theorem State.modCore_mats (s : State) (k : Nat) (f : Core → Core) : (s.modCore k f).mats = s.mats := rfl
@[simp] theorem State.modCore_beds (s : State) (k : Nat) (f : Core → Core) : (s.modCore k f).beds = s.beds := rfl
@[simp] theorem State.modCore_reds (s : State) (k : Nat) (f : Core → Core) : (s.modCore k f).reds = s.reds := rfl
@[simp] theorem State.modCore_defers (s : State) (k : Nat) (f : Core → Core) : (s.modCore k f).defers = s.defers := rfl
@[simp] theorem State.modCore_arrivals (s : State) (k : Nat) (f : Core → Core) : (s.modCore k f).arrivals = s.arrivals := rfl
@[simp] theorem State.modCore_xturn (s : State) (k : Nat) (f : Core → Core) : (s.modCore k f).xturn = s.xturn := rfl
@[simp] theorem State.modCore_seqs (s : State) (k : Nat) (f : Core → Core) : (s.modCore k f).seqs = s.seqs := rfl
@[simp] theorem State.modCore_pools (s : State) (k : Nat) (f : Core → Core) : (s.modCore k f).pools = s.pools := rfl
@[simp] theorem State.modCore_attns (s : State) (k : Nat) (f : Core → Core) : (s.modCore k f).attns = s.attns := rfl
@[simp] theorem State.modCore_regions (s : State) (k : Nat) (f : Core → Core) : (s.modCore k f).regions = s.regions := rfl
@[simp] theorem State.modCore_nextReg (s : State) (k : Nat) (f : Core → Core) : (s.modCore k f).nextReg = s.nextReg := rfl
@[simp] theorem State.modCore_nextTask (s : State) (k : Nat) (f : Core → Core) : (s.modCore k f).nextTask = s.nextTask := rfl
@[simp] theorem State.modCore_parts (s : State) (k : Nat) (f : Core → Core) : (s.modCore k f).parts = s.parts := rfl
@[simp] theorem State.modCore_devPool (s : State) (k : Nat) (f : Core → Core) : (s.modCore k f).devPool = s.devPool := rfl
@[simp] theorem State.modCore_qps (s : State) (k : Nat) (f : Core → Core) : (s.modCore k f).qps = s.qps := rfl
@[simp] theorem State.modCore_ports (s : State) (k : Nat) (f : Core → Core) : (s.modCore k f).ports = s.ports := rfl
@[simp] theorem State.modCore_links (s : State) (k : Nat) (f : Core → Core) : (s.modCore k f).links = s.links := rfl
@[simp] theorem State.modCore_out (s : State) (k : Nat) (f : Core → Core) : (s.modCore k f).out = s.out := rfl
@[simp] theorem State.modCore_booted (s : State) (k : Nat) (f : Core → Core) : (s.modCore k f).booted = s.booted := rfl
@[simp] theorem State.modCore_recovery (s : State) (k : Nat) (f : Core → Core) : (s.modCore k f).recovery = s.recovery := rfl
@[simp] theorem State.modCore_measure (s : State) (k : Nat) (f : Core → Core) : (s.modCore k f).measure = s.measure := rfl
@[simp] theorem State.modCore_mlog (s : State) (k : Nat) (f : Core → Core) : (s.modCore k f).mlog = s.mlog := rfl
@[simp] theorem State.modCore_images (s : State) (k : Nat) (f : Core → Core) : (s.modCore k f).images = s.images := rfl
@[simp] theorem State.modCore_devRec (s : State) (k : Nat) (f : Core → Core) : (s.modCore k f).devRec = s.devRec := rfl
@[simp] theorem State.modCore_devNow (s : State) (k : Nat) (f : Core → Core) : (s.modCore k f).devNow = s.devNow := rfl
@[simp] theorem State.modCore_firstRec (s : State) (k : Nat) (f : Core → Core) : (s.modCore k f).firstRec = s.firstRec := rfl
@[simp] theorem State.modCore_box (s : State) (k : Nat) (f : Core → Core) : (s.modCore k f).box = s.box := rfl
@[simp] theorem State.modCore_dumps (s : State) (k : Nat) (f : Core → Core) : (s.modCore k f).dumps = s.dumps := rfl
@[simp] theorem State.modCore_fatal (s : State) (k : Nat) (f : Core → Core) : (s.modCore k f).fatal = s.fatal := rfl

@[simp] theorem State.modRegion_agenda (s : State) (k : Nat) (f : Region → Region) : (s.modRegion k f).agenda = s.agenda := rfl
@[simp] theorem State.modRegion_draws (s : State) (k : Nat) (f : Region → Region) : (s.modRegion k f).draws = s.draws := rfl
@[simp] theorem State.modRegion_cur (s : State) (k : Nat) (f : Region → Region) : (s.modRegion k f).cur = s.cur := rfl
@[simp] theorem State.modRegion_clock (s : State) (k : Nat) (f : Region → Region) : (s.modRegion k f).clock = s.clock := rfl
@[simp] theorem State.modRegion_mem (s : State) (k : Nat) (f : Region → Region) : (s.modRegion k f).mem = s.mem := rfl
@[simp] theorem State.modRegion_poison (s : State) (k : Nat) (f : Region → Region) : (s.modRegion k f).poison = s.poison := rfl
@[simp] theorem State.modRegion_errs (s : State) (k : Nat) (f : Region → Region) : (s.modRegion k f).errs = s.errs := rfl
@[simp] theorem State.modRegion_l2 (s : State) (k : Nat) (f : Region → Region) : (s.modRegion k f).l2 = s.l2 := rfl
@[simp] theorem State.modRegion_dirty (s : State) (k : Nat) (f : Region → Region) : (s.modRegion k f).dirty = s.dirty := rfl
@[simp] theorem State.modRegion_grans (s : State) (k : Nat) (f : Region → Region) : (s.modRegion k f).grans = s.grans := rfl
@[simp] theorem State.modRegion_roots (s : State) (k : Nat) (f : Region → Region) : (s.modRegion k f).roots = s.roots := rfl
@[simp] theorem State.modRegion_ctlb (s : State) (k : Nat) (f : Region → Region) : (s.modRegion k f).ctlb = s.ctlb := rfl
@[simp] theorem State.modRegion_dtlb (s : State) (k : Nat) (f : Region → Region) : (s.modRegion k f).dtlb = s.dtlb := rfl
@[simp] theorem State.modRegion_miss (s : State) (k : Nat) (f : Region → Region) : (s.modRegion k f).miss = s.miss := rfl
@[simp] theorem State.modRegion_held (s : State) (k : Nat) (f : Region → Region) : (s.modRegion k f).held = s.held := rfl
@[simp] theorem State.modRegion_alrq (s : State) (k : Nat) (f : Region → Region) : (s.modRegion k f).alrq = s.alrq := rfl
@[simp] theorem State.modRegion_cores (s : State) (k : Nat) (f : Region → Region) : (s.modRegion k f).cores = s.cores := rfl
@[simp] theorem State.modRegion_ctxs (s : State) (k : Nat) (f : Region → Region) : (s.modRegion k f).ctxs = s.ctxs := rfl
@[simp] theorem State.modRegion_saves (s : State) (k : Nat) (f : Region → Region) : (s.modRegion k f).saves = s.saves := rfl
@[simp] theorem State.modRegion_lanes (s : State) (k : Nat) (f : Region → Region) : (s.modRegion k f).lanes = s.lanes := rfl
@[simp] theorem State.modRegion_cols (s : State) (k : Nat) (f : Region → Region) : (s.modRegion k f).cols = s.cols := rfl
@[simp] theorem State.modRegion_mats (s : State) (k : Nat) (f : Region → Region) : (s.modRegion k f).mats = s.mats := rfl
@[simp] theorem State.modRegion_beds (s : State) (k : Nat) (f : Region → Region) : (s.modRegion k f).beds = s.beds := rfl
@[simp] theorem State.modRegion_reds (s : State) (k : Nat) (f : Region → Region) : (s.modRegion k f).reds = s.reds := rfl
@[simp] theorem State.modRegion_defers (s : State) (k : Nat) (f : Region → Region) : (s.modRegion k f).defers = s.defers := rfl
@[simp] theorem State.modRegion_arrivals (s : State) (k : Nat) (f : Region → Region) : (s.modRegion k f).arrivals = s.arrivals := rfl
@[simp] theorem State.modRegion_xturn (s : State) (k : Nat) (f : Region → Region) : (s.modRegion k f).xturn = s.xturn := rfl
@[simp] theorem State.modRegion_seqs (s : State) (k : Nat) (f : Region → Region) : (s.modRegion k f).seqs = s.seqs := rfl
@[simp] theorem State.modRegion_pools (s : State) (k : Nat) (f : Region → Region) : (s.modRegion k f).pools = s.pools := rfl
@[simp] theorem State.modRegion_attns (s : State) (k : Nat) (f : Region → Region) : (s.modRegion k f).attns = s.attns := rfl
@[simp] theorem State.modRegion_nextReg (s : State) (k : Nat) (f : Region → Region) : (s.modRegion k f).nextReg = s.nextReg := rfl
@[simp] theorem State.modRegion_nextTask (s : State) (k : Nat) (f : Region → Region) : (s.modRegion k f).nextTask = s.nextTask := rfl
@[simp] theorem State.modRegion_parts (s : State) (k : Nat) (f : Region → Region) : (s.modRegion k f).parts = s.parts := rfl
@[simp] theorem State.modRegion_devPool (s : State) (k : Nat) (f : Region → Region) : (s.modRegion k f).devPool = s.devPool := rfl
@[simp] theorem State.modRegion_qps (s : State) (k : Nat) (f : Region → Region) : (s.modRegion k f).qps = s.qps := rfl
@[simp] theorem State.modRegion_ports (s : State) (k : Nat) (f : Region → Region) : (s.modRegion k f).ports = s.ports := rfl
@[simp] theorem State.modRegion_links (s : State) (k : Nat) (f : Region → Region) : (s.modRegion k f).links = s.links := rfl
@[simp] theorem State.modRegion_out (s : State) (k : Nat) (f : Region → Region) : (s.modRegion k f).out = s.out := rfl
@[simp] theorem State.modRegion_booted (s : State) (k : Nat) (f : Region → Region) : (s.modRegion k f).booted = s.booted := rfl
@[simp] theorem State.modRegion_recovery (s : State) (k : Nat) (f : Region → Region) : (s.modRegion k f).recovery = s.recovery := rfl
@[simp] theorem State.modRegion_measure (s : State) (k : Nat) (f : Region → Region) : (s.modRegion k f).measure = s.measure := rfl
@[simp] theorem State.modRegion_mlog (s : State) (k : Nat) (f : Region → Region) : (s.modRegion k f).mlog = s.mlog := rfl
@[simp] theorem State.modRegion_images (s : State) (k : Nat) (f : Region → Region) : (s.modRegion k f).images = s.images := rfl
@[simp] theorem State.modRegion_devRec (s : State) (k : Nat) (f : Region → Region) : (s.modRegion k f).devRec = s.devRec := rfl
@[simp] theorem State.modRegion_devNow (s : State) (k : Nat) (f : Region → Region) : (s.modRegion k f).devNow = s.devNow := rfl
@[simp] theorem State.modRegion_firstRec (s : State) (k : Nat) (f : Region → Region) : (s.modRegion k f).firstRec = s.firstRec := rfl
@[simp] theorem State.modRegion_box (s : State) (k : Nat) (f : Region → Region) : (s.modRegion k f).box = s.box := rfl
@[simp] theorem State.modRegion_dumps (s : State) (k : Nat) (f : Region → Region) : (s.modRegion k f).dumps = s.dumps := rfl
@[simp] theorem State.modRegion_fatal (s : State) (k : Nat) (f : Region → Region) : (s.modRegion k f).fatal = s.fatal := rfl

@[simp] theorem State.modPart_agenda (s : State) (k : Nat) (f : Partition → Partition) : (s.modPart k f).agenda = s.agenda := rfl
@[simp] theorem State.modPart_draws (s : State) (k : Nat) (f : Partition → Partition) : (s.modPart k f).draws = s.draws := rfl
@[simp] theorem State.modPart_cur (s : State) (k : Nat) (f : Partition → Partition) : (s.modPart k f).cur = s.cur := rfl
@[simp] theorem State.modPart_clock (s : State) (k : Nat) (f : Partition → Partition) : (s.modPart k f).clock = s.clock := rfl
@[simp] theorem State.modPart_mem (s : State) (k : Nat) (f : Partition → Partition) : (s.modPart k f).mem = s.mem := rfl
@[simp] theorem State.modPart_poison (s : State) (k : Nat) (f : Partition → Partition) : (s.modPart k f).poison = s.poison := rfl
@[simp] theorem State.modPart_errs (s : State) (k : Nat) (f : Partition → Partition) : (s.modPart k f).errs = s.errs := rfl
@[simp] theorem State.modPart_l2 (s : State) (k : Nat) (f : Partition → Partition) : (s.modPart k f).l2 = s.l2 := rfl
@[simp] theorem State.modPart_dirty (s : State) (k : Nat) (f : Partition → Partition) : (s.modPart k f).dirty = s.dirty := rfl
@[simp] theorem State.modPart_grans (s : State) (k : Nat) (f : Partition → Partition) : (s.modPart k f).grans = s.grans := rfl
@[simp] theorem State.modPart_roots (s : State) (k : Nat) (f : Partition → Partition) : (s.modPart k f).roots = s.roots := rfl
@[simp] theorem State.modPart_ctlb (s : State) (k : Nat) (f : Partition → Partition) : (s.modPart k f).ctlb = s.ctlb := rfl
@[simp] theorem State.modPart_dtlb (s : State) (k : Nat) (f : Partition → Partition) : (s.modPart k f).dtlb = s.dtlb := rfl
@[simp] theorem State.modPart_miss (s : State) (k : Nat) (f : Partition → Partition) : (s.modPart k f).miss = s.miss := rfl
@[simp] theorem State.modPart_held (s : State) (k : Nat) (f : Partition → Partition) : (s.modPart k f).held = s.held := rfl
@[simp] theorem State.modPart_alrq (s : State) (k : Nat) (f : Partition → Partition) : (s.modPart k f).alrq = s.alrq := rfl
@[simp] theorem State.modPart_cores (s : State) (k : Nat) (f : Partition → Partition) : (s.modPart k f).cores = s.cores := rfl
@[simp] theorem State.modPart_ctxs (s : State) (k : Nat) (f : Partition → Partition) : (s.modPart k f).ctxs = s.ctxs := rfl
@[simp] theorem State.modPart_saves (s : State) (k : Nat) (f : Partition → Partition) : (s.modPart k f).saves = s.saves := rfl
@[simp] theorem State.modPart_lanes (s : State) (k : Nat) (f : Partition → Partition) : (s.modPart k f).lanes = s.lanes := rfl
@[simp] theorem State.modPart_cols (s : State) (k : Nat) (f : Partition → Partition) : (s.modPart k f).cols = s.cols := rfl
@[simp] theorem State.modPart_mats (s : State) (k : Nat) (f : Partition → Partition) : (s.modPart k f).mats = s.mats := rfl
@[simp] theorem State.modPart_beds (s : State) (k : Nat) (f : Partition → Partition) : (s.modPart k f).beds = s.beds := rfl
@[simp] theorem State.modPart_reds (s : State) (k : Nat) (f : Partition → Partition) : (s.modPart k f).reds = s.reds := rfl
@[simp] theorem State.modPart_defers (s : State) (k : Nat) (f : Partition → Partition) : (s.modPart k f).defers = s.defers := rfl
@[simp] theorem State.modPart_arrivals (s : State) (k : Nat) (f : Partition → Partition) : (s.modPart k f).arrivals = s.arrivals := rfl
@[simp] theorem State.modPart_xturn (s : State) (k : Nat) (f : Partition → Partition) : (s.modPart k f).xturn = s.xturn := rfl
@[simp] theorem State.modPart_seqs (s : State) (k : Nat) (f : Partition → Partition) : (s.modPart k f).seqs = s.seqs := rfl
@[simp] theorem State.modPart_pools (s : State) (k : Nat) (f : Partition → Partition) : (s.modPart k f).pools = s.pools := rfl
@[simp] theorem State.modPart_attns (s : State) (k : Nat) (f : Partition → Partition) : (s.modPart k f).attns = s.attns := rfl
@[simp] theorem State.modPart_regions (s : State) (k : Nat) (f : Partition → Partition) : (s.modPart k f).regions = s.regions := rfl
@[simp] theorem State.modPart_nextReg (s : State) (k : Nat) (f : Partition → Partition) : (s.modPart k f).nextReg = s.nextReg := rfl
@[simp] theorem State.modPart_nextTask (s : State) (k : Nat) (f : Partition → Partition) : (s.modPart k f).nextTask = s.nextTask := rfl
@[simp] theorem State.modPart_devPool (s : State) (k : Nat) (f : Partition → Partition) : (s.modPart k f).devPool = s.devPool := rfl
@[simp] theorem State.modPart_qps (s : State) (k : Nat) (f : Partition → Partition) : (s.modPart k f).qps = s.qps := rfl
@[simp] theorem State.modPart_ports (s : State) (k : Nat) (f : Partition → Partition) : (s.modPart k f).ports = s.ports := rfl
@[simp] theorem State.modPart_links (s : State) (k : Nat) (f : Partition → Partition) : (s.modPart k f).links = s.links := rfl
@[simp] theorem State.modPart_out (s : State) (k : Nat) (f : Partition → Partition) : (s.modPart k f).out = s.out := rfl
@[simp] theorem State.modPart_booted (s : State) (k : Nat) (f : Partition → Partition) : (s.modPart k f).booted = s.booted := rfl
@[simp] theorem State.modPart_recovery (s : State) (k : Nat) (f : Partition → Partition) : (s.modPart k f).recovery = s.recovery := rfl
@[simp] theorem State.modPart_measure (s : State) (k : Nat) (f : Partition → Partition) : (s.modPart k f).measure = s.measure := rfl
@[simp] theorem State.modPart_mlog (s : State) (k : Nat) (f : Partition → Partition) : (s.modPart k f).mlog = s.mlog := rfl
@[simp] theorem State.modPart_images (s : State) (k : Nat) (f : Partition → Partition) : (s.modPart k f).images = s.images := rfl
@[simp] theorem State.modPart_devRec (s : State) (k : Nat) (f : Partition → Partition) : (s.modPart k f).devRec = s.devRec := rfl
@[simp] theorem State.modPart_devNow (s : State) (k : Nat) (f : Partition → Partition) : (s.modPart k f).devNow = s.devNow := rfl
@[simp] theorem State.modPart_firstRec (s : State) (k : Nat) (f : Partition → Partition) : (s.modPart k f).firstRec = s.firstRec := rfl
@[simp] theorem State.modPart_box (s : State) (k : Nat) (f : Partition → Partition) : (s.modPart k f).box = s.box := rfl
@[simp] theorem State.modPart_dumps (s : State) (k : Nat) (f : Partition → Partition) : (s.modPart k f).dumps = s.dumps := rfl
@[simp] theorem State.modPart_fatal (s : State) (k : Nat) (f : Partition → Partition) : (s.modPart k f).fatal = s.fatal := rfl

@[simp] theorem State.send_agenda (s : State) (m : Msg) : (s.send m).agenda = s.agenda := rfl
@[simp] theorem State.send_draws (s : State) (m : Msg) : (s.send m).draws = s.draws := rfl
@[simp] theorem State.send_cur (s : State) (m : Msg) : (s.send m).cur = s.cur := rfl
@[simp] theorem State.send_clock (s : State) (m : Msg) : (s.send m).clock = s.clock := rfl
@[simp] theorem State.send_mem (s : State) (m : Msg) : (s.send m).mem = s.mem := rfl
@[simp] theorem State.send_poison (s : State) (m : Msg) : (s.send m).poison = s.poison := rfl
@[simp] theorem State.send_errs (s : State) (m : Msg) : (s.send m).errs = s.errs := rfl
@[simp] theorem State.send_l2 (s : State) (m : Msg) : (s.send m).l2 = s.l2 := rfl
@[simp] theorem State.send_dirty (s : State) (m : Msg) : (s.send m).dirty = s.dirty := rfl
@[simp] theorem State.send_grans (s : State) (m : Msg) : (s.send m).grans = s.grans := rfl
@[simp] theorem State.send_roots (s : State) (m : Msg) : (s.send m).roots = s.roots := rfl
@[simp] theorem State.send_ctlb (s : State) (m : Msg) : (s.send m).ctlb = s.ctlb := rfl
@[simp] theorem State.send_dtlb (s : State) (m : Msg) : (s.send m).dtlb = s.dtlb := rfl
@[simp] theorem State.send_miss (s : State) (m : Msg) : (s.send m).miss = s.miss := rfl
@[simp] theorem State.send_held (s : State) (m : Msg) : (s.send m).held = s.held := rfl
@[simp] theorem State.send_alrq (s : State) (m : Msg) : (s.send m).alrq = s.alrq := rfl
@[simp] theorem State.send_cores (s : State) (m : Msg) : (s.send m).cores = s.cores := rfl
@[simp] theorem State.send_ctxs (s : State) (m : Msg) : (s.send m).ctxs = s.ctxs := rfl
@[simp] theorem State.send_saves (s : State) (m : Msg) : (s.send m).saves = s.saves := rfl
@[simp] theorem State.send_lanes (s : State) (m : Msg) : (s.send m).lanes = s.lanes := rfl
@[simp] theorem State.send_cols (s : State) (m : Msg) : (s.send m).cols = s.cols := rfl
@[simp] theorem State.send_mats (s : State) (m : Msg) : (s.send m).mats = s.mats := rfl
@[simp] theorem State.send_beds (s : State) (m : Msg) : (s.send m).beds = s.beds := rfl
@[simp] theorem State.send_reds (s : State) (m : Msg) : (s.send m).reds = s.reds := rfl
@[simp] theorem State.send_defers (s : State) (m : Msg) : (s.send m).defers = s.defers := rfl
@[simp] theorem State.send_arrivals (s : State) (m : Msg) : (s.send m).arrivals = s.arrivals := rfl
@[simp] theorem State.send_xturn (s : State) (m : Msg) : (s.send m).xturn = s.xturn := rfl
@[simp] theorem State.send_seqs (s : State) (m : Msg) : (s.send m).seqs = s.seqs := rfl
@[simp] theorem State.send_pools (s : State) (m : Msg) : (s.send m).pools = s.pools := rfl
@[simp] theorem State.send_attns (s : State) (m : Msg) : (s.send m).attns = s.attns := rfl
@[simp] theorem State.send_regions (s : State) (m : Msg) : (s.send m).regions = s.regions := rfl
@[simp] theorem State.send_nextReg (s : State) (m : Msg) : (s.send m).nextReg = s.nextReg := rfl
@[simp] theorem State.send_nextTask (s : State) (m : Msg) : (s.send m).nextTask = s.nextTask := rfl
@[simp] theorem State.send_parts (s : State) (m : Msg) : (s.send m).parts = s.parts := rfl
@[simp] theorem State.send_devPool (s : State) (m : Msg) : (s.send m).devPool = s.devPool := rfl
@[simp] theorem State.send_qps (s : State) (m : Msg) : (s.send m).qps = s.qps := rfl
@[simp] theorem State.send_ports (s : State) (m : Msg) : (s.send m).ports = s.ports := rfl
@[simp] theorem State.send_links (s : State) (m : Msg) : (s.send m).links = s.links := rfl
@[simp] theorem State.send_booted (s : State) (m : Msg) : (s.send m).booted = s.booted := rfl
@[simp] theorem State.send_recovery (s : State) (m : Msg) : (s.send m).recovery = s.recovery := rfl
@[simp] theorem State.send_measure (s : State) (m : Msg) : (s.send m).measure = s.measure := rfl
@[simp] theorem State.send_mlog (s : State) (m : Msg) : (s.send m).mlog = s.mlog := rfl
@[simp] theorem State.send_images (s : State) (m : Msg) : (s.send m).images = s.images := rfl
@[simp] theorem State.send_devRec (s : State) (m : Msg) : (s.send m).devRec = s.devRec := rfl
@[simp] theorem State.send_devNow (s : State) (m : Msg) : (s.send m).devNow = s.devNow := rfl
@[simp] theorem State.send_firstRec (s : State) (m : Msg) : (s.send m).firstRec = s.firstRec := rfl
@[simp] theorem State.send_box (s : State) (m : Msg) : (s.send m).box = s.box := rfl
@[simp] theorem State.send_dumps (s : State) (m : Msg) : (s.send m).dumps = s.dumps := rfl
@[simp] theorem State.send_fatal (s : State) (m : Msg) : (s.send m).fatal = s.fatal := rfl

@[simp] theorem Ctx.setEng_st (c : Ctx) (e : Eng) (v : Engine) : (c.setEng e v).st = c.st := rfl
@[simp] theorem Ctx.setEng_regid (c : Ctx) (e : Eng) (v : Engine) : (c.setEng e v).regid = c.regid := rfl
@[simp] theorem Ctx.setEng_stage (c : Ctx) (e : Eng) (v : Engine) : (c.setEng e v).stage = c.stage := rfl
@[simp] theorem Ctx.setEng_taskid (c : Ctx) (e : Eng) (v : Engine) : (c.setEng e v).taskid = c.taskid := rfl
@[simp] theorem Ctx.setEng_item (c : Ctx) (e : Eng) (v : Engine) : (c.setEng e v).item = c.item := rfl
@[simp] theorem Ctx.setEng_olds (c : Ctx) (e : Eng) (v : Engine) : (c.setEng e v).olds = c.olds := rfl
@[simp] theorem Ctx.setEng_itemVa (c : Ctx) (e : Eng) (v : Engine) : (c.setEng e v).itemVa = c.itemVa := rfl
@[simp] theorem Ctx.setEng_priv (c : Ctx) (e : Eng) (v : Engine) : (c.setEng e v).priv = c.priv := rfl
@[simp] theorem Ctx.setEng_part (c : Ctx) (e : Eng) (v : Engine) : (c.setEng e v).part = c.part := rfl
@[simp] theorem Ctx.setEng_asid (c : Ctx) (e : Eng) (v : Engine) : (c.setEng e v).asid = c.asid := rfl
@[simp] theorem Ctx.setEng_regp (c : Ctx) (e : Eng) (v : Engine) : (c.setEng e v).regp = c.regp := rfl
@[simp] theorem Ctx.setEng_prio (c : Ctx) (e : Eng) (v : Engine) : (c.setEng e v).prio = c.prio := rfl
@[simp] theorem Ctx.setEng_window (c : Ctx) (e : Eng) (v : Engine) : (c.setEng e v).window = c.window := rfl
@[simp] theorem Ctx.setEng_round (c : Ctx) (e : Eng) (v : Engine) : (c.setEng e v).round = c.round := rfl
@[simp] theorem Ctx.setEng_pol (c : Ctx) (e : Eng) (v : Engine) : (c.setEng e v).pol = c.pol := rfl
@[simp] theorem Ctx.setEng_poisc (c : Ctx) (e : Eng) (v : Engine) : (c.setEng e v).poisc = c.poisc := rfl
@[simp] theorem Ctx.setEng_pois (c : Ctx) (e : Eng) (v : Engine) : (c.setEng e v).pois = c.pois := rfl
@[simp] theorem Ctx.setEng_resumed (c : Ctx) (e : Eng) (v : Engine) : (c.setEng e v).resumed = c.resumed := rfl
@[simp] theorem Ctx.setEng_preq (c : Ctx) (e : Eng) (v : Engine) : (c.setEng e v).preq = c.preq := rfl
@[simp] theorem Ctx.setEng_svf (c : Ctx) (e : Eng) (v : Engine) : (c.setEng e v).svf = c.svf := rfl
@[simp] theorem Ctx.setEng_planRole (c : Ctx) (e : Eng) (v : Engine) : (c.setEng e v).planRole = c.planRole := rfl
@[simp] theorem Ctx.setEng_v (c : Ctx) (e : Eng) (v : Engine) : (c.setEng e v).v = c.v := rfl
@[simp] theorem Ctx.setEng_fd (c : Ctx) (e : Eng) (v : Engine) : (c.setEng e v).fd = c.fd := rfl
@[simp] theorem Ctx.setEng_dn (c : Ctx) (e : Eng) (v : Engine) : (c.setEng e v).dn = c.dn := rfl
@[simp] theorem Ctx.setEng_bk (c : Ctx) (e : Eng) (v : Engine) : (c.setEng e v).bk = c.bk := rfl
@[simp] theorem Ctx.setEng_xq (c : Ctx) (e : Eng) (v : Engine) : (c.setEng e v).xq = c.xq := rfl
@[simp] theorem Ctx.setEng_bq (c : Ctx) (e : Eng) (v : Engine) : (c.setEng e v).bq = c.bq := rfl
@[simp] theorem Ctx.setEng_tokLC (c : Ctx) (e : Eng) (v : Engine) : (c.setEng e v).tokLC = c.tokLC := rfl
@[simp] theorem Ctx.setEng_tokCS (c : Ctx) (e : Eng) (v : Engine) : (c.setEng e v).tokCS = c.tokCS := rfl
@[simp] theorem Ctx.setEng_z (c : Ctx) (e : Eng) (v : Engine) : (c.setEng e v).z = c.z := rfl
@[simp] theorem Ctx.setEng_mq (c : Ctx) (e : Eng) (v : Engine) : (c.setEng e v).mq = c.mq := rfl
@[simp] theorem Ctx.setEng_nextId (c : Ctx) (e : Eng) (v : Engine) : (c.setEng e v).nextId = c.nextId := rfl
@[simp] theorem Ctx.setEng_fwd (c : Ctx) (e : Eng) (v : Engine) : (c.setEng e v).fwd = c.fwd := rfl
@[simp] theorem Ctx.setEng_ver (c : Ctx) (e : Eng) (v : Engine) : (c.setEng e v).ver = c.ver := rfl
@[simp] theorem Ctx.setEng_alr (c : Ctx) (e : Eng) (v : Engine) : (c.setEng e v).alr = c.alr := rfl
@[simp] theorem Ctx.setEng_seqL (c : Ctx) (e : Eng) (v : Engine) : (c.setEng e v).seqL = c.seqL := rfl
@[simp] theorem Ctx.setEng_seqS (c : Ctx) (e : Eng) (v : Engine) : (c.setEng e v).seqS = c.seqS := rfl
@[simp] theorem Ctx.setEng_rings (c : Ctx) (e : Eng) (v : Engine) : (c.setEng e v).rings = c.rings := rfl
@[simp] theorem Ctx.setEng_pops (c : Ctx) (e : Eng) (v : Engine) : (c.setEng e v).pops = c.pops := rfl
@[simp] theorem Ctx.setEng_pushes (c : Ctx) (e : Eng) (v : Engine) : (c.setEng e v).pushes = c.pushes := rfl
@[simp] theorem Ctx.setEng_apps (c : Ctx) (e : Eng) (v : Engine) : (c.setEng e v).apps = c.apps := rfl
@[simp] theorem Ctx.setEng_takes (c : Ctx) (e : Eng) (v : Engine) : (c.setEng e v).takes = c.takes := rfl
@[simp] theorem Ctx.setEng_claims (c : Ctx) (e : Eng) (v : Engine) : (c.setEng e v).claims = c.claims := rfl
@[simp] theorem Ctx.setEng_attn (c : Ctx) (e : Eng) (v : Engine) : (c.setEng e v).attn = c.attn := rfl
@[simp] theorem Ctx.setEng_trap (c : Ctx) (e : Eng) (v : Engine) : (c.setEng e v).trap = c.trap := rfl
@[simp] theorem Ctx.setEng_dead (c : Ctx) (e : Eng) (v : Engine) : (c.setEng e v).dead = c.dead := rfl
@[simp] theorem Ctx.setEng_saveAt (c : Ctx) (e : Eng) (v : Engine) : (c.setEng e v).saveAt = c.saveAt := rfl
@[simp] theorem Ctx.setEng_saveVs (c : Ctx) (e : Eng) (v : Engine) : (c.setEng e v).saveVs = c.saveVs := rfl
@[simp] theorem Ctx.setEng_saveNv (c : Ctx) (e : Eng) (v : Engine) : (c.setEng e v).saveNv = c.saveNv := rfl
@[simp] theorem Ctx.setEng_saveRes (c : Ctx) (e : Eng) (v : Engine) : (c.setEng e v).saveRes = c.saveRes := rfl
@[simp] theorem Ctx.setEng_saveBad (c : Ctx) (e : Eng) (v : Engine) : (c.setEng e v).saveBad = c.saveBad := rfl
@[simp] theorem Ctx.setEng_slots (c : Ctx) (e : Eng) (v : Engine) : (c.setEng e v).slots = c.slots := rfl

@[simp] theorem Ctx.modEng_st (c : Ctx) (e : Eng) (f : Engine → Engine) : (c.modEng e f).st = c.st := rfl
@[simp] theorem Ctx.modEng_regid (c : Ctx) (e : Eng) (f : Engine → Engine) : (c.modEng e f).regid = c.regid := rfl
@[simp] theorem Ctx.modEng_stage (c : Ctx) (e : Eng) (f : Engine → Engine) : (c.modEng e f).stage = c.stage := rfl
@[simp] theorem Ctx.modEng_taskid (c : Ctx) (e : Eng) (f : Engine → Engine) : (c.modEng e f).taskid = c.taskid := rfl
@[simp] theorem Ctx.modEng_item (c : Ctx) (e : Eng) (f : Engine → Engine) : (c.modEng e f).item = c.item := rfl
@[simp] theorem Ctx.modEng_olds (c : Ctx) (e : Eng) (f : Engine → Engine) : (c.modEng e f).olds = c.olds := rfl
@[simp] theorem Ctx.modEng_itemVa (c : Ctx) (e : Eng) (f : Engine → Engine) : (c.modEng e f).itemVa = c.itemVa := rfl
@[simp] theorem Ctx.modEng_priv (c : Ctx) (e : Eng) (f : Engine → Engine) : (c.modEng e f).priv = c.priv := rfl
@[simp] theorem Ctx.modEng_part (c : Ctx) (e : Eng) (f : Engine → Engine) : (c.modEng e f).part = c.part := rfl
@[simp] theorem Ctx.modEng_asid (c : Ctx) (e : Eng) (f : Engine → Engine) : (c.modEng e f).asid = c.asid := rfl
@[simp] theorem Ctx.modEng_regp (c : Ctx) (e : Eng) (f : Engine → Engine) : (c.modEng e f).regp = c.regp := rfl
@[simp] theorem Ctx.modEng_prio (c : Ctx) (e : Eng) (f : Engine → Engine) : (c.modEng e f).prio = c.prio := rfl
@[simp] theorem Ctx.modEng_window (c : Ctx) (e : Eng) (f : Engine → Engine) : (c.modEng e f).window = c.window := rfl
@[simp] theorem Ctx.modEng_round (c : Ctx) (e : Eng) (f : Engine → Engine) : (c.modEng e f).round = c.round := rfl
@[simp] theorem Ctx.modEng_pol (c : Ctx) (e : Eng) (f : Engine → Engine) : (c.modEng e f).pol = c.pol := rfl
@[simp] theorem Ctx.modEng_poisc (c : Ctx) (e : Eng) (f : Engine → Engine) : (c.modEng e f).poisc = c.poisc := rfl
@[simp] theorem Ctx.modEng_pois (c : Ctx) (e : Eng) (f : Engine → Engine) : (c.modEng e f).pois = c.pois := rfl
@[simp] theorem Ctx.modEng_resumed (c : Ctx) (e : Eng) (f : Engine → Engine) : (c.modEng e f).resumed = c.resumed := rfl
@[simp] theorem Ctx.modEng_preq (c : Ctx) (e : Eng) (f : Engine → Engine) : (c.modEng e f).preq = c.preq := rfl
@[simp] theorem Ctx.modEng_svf (c : Ctx) (e : Eng) (f : Engine → Engine) : (c.modEng e f).svf = c.svf := rfl
@[simp] theorem Ctx.modEng_planRole (c : Ctx) (e : Eng) (f : Engine → Engine) : (c.modEng e f).planRole = c.planRole := rfl
@[simp] theorem Ctx.modEng_v (c : Ctx) (e : Eng) (f : Engine → Engine) : (c.modEng e f).v = c.v := rfl
@[simp] theorem Ctx.modEng_fd (c : Ctx) (e : Eng) (f : Engine → Engine) : (c.modEng e f).fd = c.fd := rfl
@[simp] theorem Ctx.modEng_dn (c : Ctx) (e : Eng) (f : Engine → Engine) : (c.modEng e f).dn = c.dn := rfl
@[simp] theorem Ctx.modEng_bk (c : Ctx) (e : Eng) (f : Engine → Engine) : (c.modEng e f).bk = c.bk := rfl
@[simp] theorem Ctx.modEng_xq (c : Ctx) (e : Eng) (f : Engine → Engine) : (c.modEng e f).xq = c.xq := rfl
@[simp] theorem Ctx.modEng_bq (c : Ctx) (e : Eng) (f : Engine → Engine) : (c.modEng e f).bq = c.bq := rfl
@[simp] theorem Ctx.modEng_tokLC (c : Ctx) (e : Eng) (f : Engine → Engine) : (c.modEng e f).tokLC = c.tokLC := rfl
@[simp] theorem Ctx.modEng_tokCS (c : Ctx) (e : Eng) (f : Engine → Engine) : (c.modEng e f).tokCS = c.tokCS := rfl
@[simp] theorem Ctx.modEng_z (c : Ctx) (e : Eng) (f : Engine → Engine) : (c.modEng e f).z = c.z := rfl
@[simp] theorem Ctx.modEng_mq (c : Ctx) (e : Eng) (f : Engine → Engine) : (c.modEng e f).mq = c.mq := rfl
@[simp] theorem Ctx.modEng_nextId (c : Ctx) (e : Eng) (f : Engine → Engine) : (c.modEng e f).nextId = c.nextId := rfl
@[simp] theorem Ctx.modEng_fwd (c : Ctx) (e : Eng) (f : Engine → Engine) : (c.modEng e f).fwd = c.fwd := rfl
@[simp] theorem Ctx.modEng_ver (c : Ctx) (e : Eng) (f : Engine → Engine) : (c.modEng e f).ver = c.ver := rfl
@[simp] theorem Ctx.modEng_alr (c : Ctx) (e : Eng) (f : Engine → Engine) : (c.modEng e f).alr = c.alr := rfl
@[simp] theorem Ctx.modEng_seqL (c : Ctx) (e : Eng) (f : Engine → Engine) : (c.modEng e f).seqL = c.seqL := rfl
@[simp] theorem Ctx.modEng_seqS (c : Ctx) (e : Eng) (f : Engine → Engine) : (c.modEng e f).seqS = c.seqS := rfl
@[simp] theorem Ctx.modEng_rings (c : Ctx) (e : Eng) (f : Engine → Engine) : (c.modEng e f).rings = c.rings := rfl
@[simp] theorem Ctx.modEng_pops (c : Ctx) (e : Eng) (f : Engine → Engine) : (c.modEng e f).pops = c.pops := rfl
@[simp] theorem Ctx.modEng_pushes (c : Ctx) (e : Eng) (f : Engine → Engine) : (c.modEng e f).pushes = c.pushes := rfl
@[simp] theorem Ctx.modEng_apps (c : Ctx) (e : Eng) (f : Engine → Engine) : (c.modEng e f).apps = c.apps := rfl
@[simp] theorem Ctx.modEng_takes (c : Ctx) (e : Eng) (f : Engine → Engine) : (c.modEng e f).takes = c.takes := rfl
@[simp] theorem Ctx.modEng_claims (c : Ctx) (e : Eng) (f : Engine → Engine) : (c.modEng e f).claims = c.claims := rfl
@[simp] theorem Ctx.modEng_attn (c : Ctx) (e : Eng) (f : Engine → Engine) : (c.modEng e f).attn = c.attn := rfl
@[simp] theorem Ctx.modEng_trap (c : Ctx) (e : Eng) (f : Engine → Engine) : (c.modEng e f).trap = c.trap := rfl
@[simp] theorem Ctx.modEng_dead (c : Ctx) (e : Eng) (f : Engine → Engine) : (c.modEng e f).dead = c.dead := rfl
@[simp] theorem Ctx.modEng_saveAt (c : Ctx) (e : Eng) (f : Engine → Engine) : (c.modEng e f).saveAt = c.saveAt := rfl
@[simp] theorem Ctx.modEng_saveVs (c : Ctx) (e : Eng) (f : Engine → Engine) : (c.modEng e f).saveVs = c.saveVs := rfl
@[simp] theorem Ctx.modEng_saveNv (c : Ctx) (e : Eng) (f : Engine → Engine) : (c.modEng e f).saveNv = c.saveNv := rfl
@[simp] theorem Ctx.modEng_saveRes (c : Ctx) (e : Eng) (f : Engine → Engine) : (c.modEng e f).saveRes = c.saveRes := rfl
@[simp] theorem Ctx.modEng_saveBad (c : Ctx) (e : Eng) (f : Engine → Engine) : (c.modEng e f).saveBad = c.saveBad := rfl
@[simp] theorem Ctx.modEng_slots (c : Ctx) (e : Eng) (f : Engine → Engine) : (c.modEng e f).slots = c.slots := rfl

end Sys2Proof.Machine
end

