-- ==== Sys2Proof/Laws/Issue.lean ====
section
/-! SUPPORT. Contexts and engines read after an update, what `issue` can do, and what the retirement of an instruction
leaves unchanged. -/

namespace Sys2Proof.Machine

/-! ## Contexts, engines and registers -/

theorem engIdx_inj {e f : Eng} (h : engIdx e = engIdx f) : e = f := by cases e <;> cases f <;> simp_all [engIdx]

theorem State.ctx_setCtx (s : State) (k n : Nat) (c : Ctx) : (s.setCtx k c).ctx n = if n = k then c else s.ctx n := by
  unfold State.ctx State.setCtx
  exact tget_tput _ s.ctxs k n c

@[simp] theorem State.ctx_setCtx_same (s : State) (k : Nat) (c : Ctx) : (s.setCtx k c).ctx k = c := by
  simp [State.ctx_setCtx]

theorem State.ctx_modCtx (s : State) (k n : Nat) (f : Ctx → Ctx) :
    (s.modCtx k f).ctx n = if n = k then f (s.ctx k) else s.ctx n := State.ctx_setCtx s k n _

@[simp] theorem State.ctx_modCtx_same (s : State) (k : Nat) (f : Ctx → Ctx) : (s.modCtx k f).ctx k = f (s.ctx k) := by
  simp [State.ctx_modCtx]

theorem State.ctx_modCtx_other (s : State) {k n : Nat} (f : Ctx → Ctx) (h : n ≠ k) : (s.modCtx k f).ctx n = s.ctx n := by
  simp [State.ctx_modCtx, h]

@[simp] theorem State.modMe_me (s : State) (f : Ctx → Ctx) : (s.modMe f).me = s.me := rfl
@[simp] theorem State.modCe_me (s : State) (f : Engine → Engine) : (s.modCe f).me = s.me := rfl
@[simp] theorem State.wx_me (s : State) (r : Reg) (v : Quad) : (s.wx r v).me = s.me := rfl
@[simp] theorem State.wp_me (s : State) (n : BitVec 3) (b : Bool) : (s.wp n b).me = s.me := rfl
@[simp] theorem State.wv_me (s : State) (n : BitVec 6) (v : Vec) : (s.wv n v).me = s.me := rfl

@[simp] theorem State.modMe_cc (s : State) (f : Ctx → Ctx) : (s.modMe f).cc = f s.cc := State.ctx_modCtx_same s s.me f

theorem Ctx.eng_setEng (c : Ctx) (e f : Eng) (g : Engine) : (c.setEng e g).eng f = if f = e then g else c.eng f := by
  unfold Ctx.eng Ctx.setEng
  rw [tget_tput]
  by_cases h : f = e
  · simp [h]
  · rw [if_neg h, if_neg fun x => h (engIdx_inj x)]

@[simp] theorem Ctx.eng_setEng_same (c : Ctx) (e : Eng) (g : Engine) : (c.setEng e g).eng e = g := by
  simp [Ctx.eng_setEng]

theorem Ctx.eng_setEng_other (c : Ctx) {e f : Eng} (g : Engine) (h : f ≠ e) : (c.setEng e g).eng f = c.eng f := by
  simp [Ctx.eng_setEng, h]

@[simp] theorem Ctx.eng_modEng_same (c : Ctx) (e : Eng) (f : Engine → Engine) : (c.modEng e f).eng e = f (c.eng e) :=
  Ctx.eng_setEng_same c e _

theorem Ctx.eng_modEng_other (c : Ctx) {e g : Eng} (f : Engine → Engine) (h : g ≠ e) : (c.modEng e f).eng g = c.eng g :=
  Ctx.eng_setEng_other c _ h

@[simp] theorem State.modCe_cc (s : State) (f : Engine → Engine) : (s.modCe f).cc = s.cc.modEng s.cur.eng f :=
  State.modMe_cc s _

@[simp] theorem State.modCe_ce (s : State) (f : Engine → Engine) : (s.modCe f).ce = f s.ce := by
  show (s.modCe f).cc.eng s.cur.eng = _
  rw [State.modCe_cc, Ctx.eng_modEng_same]; rfl

@[simp] theorem Engine.rx_zero (g : Engine) : g.rx 0 = 0 := rfl

theorem Engine.rx_wx (g : Engine) (d r : Reg) (v : Quad) :
    (g.wx d v).rx r = if r = d ∧ d ≠ 0 then v else g.rx r := by
  unfold Engine.rx Engine.wx
  by_cases hd : d = 0
  · simp [hd]
  · rw [if_neg hd]
    by_cases hr : r = 0
    · simp only [hr, if_true]
      rw [if_neg (by rintro ⟨h, -⟩; exact hd h.symm)]
    · rw [if_neg hr, if_neg hr]
      simp only [tget_tput]
      by_cases h : r = d
      · subst h; simp only [if_true, ne_eq, hd, not_false_eq_true, and_self]
      · rw [if_neg (by simpa [BitVec.toNat_eq] using h), if_neg (by rintro ⟨x, -⟩; exact h x)]

theorem State.rx_wx (s : State) (d r : Reg) (v : Quad) : (s.wx d v).rx r = if r = d ∧ d ≠ 0 then v else s.rx r := by
  show (s.wx d v).ce.rx r = _
  rw [show (s.wx d v).ce = s.ce.wx d v from State.modCe_ce s _, Engine.rx_wx]; rfl

/-! ## Issue -/

theorem issue_illegal {f : Form} {s : State} (body : State → Res) (h : s.legal f = false) :
    issue f s body = .next (s.trapHere .illop) := by simp [issue, h]

theorem issue_blocked {f : Form} {s : State} {w : Stall} (body : State → Res) (hl : s.legal f = true)
    (h : s.blocked f = some w) : issue f s body = .next (s.stallHere w) := by simp [issue, hl, h]

theorem issue_guarded {f : Form} {s : State} (body : State → Res) (hl : s.legal f = true) (hb : s.blocked f = none)
    (h : s.guardOff f.mods = true) : issue f s body = .next (s.skipGuarded f) := by simp [issue, hl, hb, h]

theorem issue_ready {f : Form} {s : State} (body : State → Res) (hl : s.legal f = true) (hb : s.blocked f = none)
    (h : s.guardOff f.mods = false) : issue f s body = .next (s.settleRes f (body s)) := by simp [issue, hl, hb, h]

/-! ## The walk past an instruction -/

theorem Ctx.wake_eng (c : Ctx) (e : Eng) : c.wake.eng e = (c.eng e).quiet := by
  unfold Ctx.wake Ctx.eng
  exact tget_map ({} : Engine) Engine.quiet c.engs (engIdx e)

theorem Ctx.still_wake (c : Ctx) : Ctx.still c.wake = Ctx.still c := rfl
theorem Ctx.still_setEng (c : Ctx) (e : Eng) (g : Engine) : Ctx.still (c.setEng e g) = Ctx.still c := rfl
theorem Ctx.still_modEng (c : Ctx) (e : Eng) (f : Engine → Engine) : Ctx.still (c.modEng e f) = Ctx.still c := rfl

theorem Ctx.still_setFifo (c : Ctx) (e : Eng) (u : Bool) (l : List Tok) : Ctx.still (c.setFifo e u l) = Ctx.still c := by
  cases e <;> cases u <;> rfl

theorem Ctx.still_beginInstance (c : Ctx) (e : Eng) (b : Blk) : Ctx.still (c.beginInstance e b) = Ctx.still c := by
  unfold Ctx.beginInstance; split <;> rfl

theorem Ctx.still_advance (c : Ctx) (e : Eng) (n : Nat) : Ctx.still (c.advance e n) = Ctx.still c := by
  unfold Ctx.advance
  dsimp only
  split
  · rfl
  · split
    · rfl
    · split
      · rfl
      · exact Ctx.still_beginInstance c e _

theorem Ctx.still_tokFill (c : Ctx) (n : Nat) : Ctx.still (c.tokFill n) = Ctx.still c := rfl

theorem Ctx.still_takeTokens (c : Ctx) (e : Eng) (tk : BitVec 4) (n : Nat) : Ctx.still (c.takeTokens e tk n) = Ctx.still c := by
  unfold Ctx.takeTokens
  simp only [Ctx.tokTake, Ctx.tokReserve]
  repeat' split
  all_goals simp only [Ctx.still_setFifo]

theorem Ctx.still_issued (c : Ctx) (e : Eng) (f : Form) :
    Ctx.still (c.issued e f) = Ctx.still (f.srcs.foldl Ctx.popQueue c) := by
  unfold Ctx.issued
  exact Ctx.still_takeTokens _ _ _ _

theorem Ctx.engs_popQueue (c : Ctx) (q : QEnd) : (c.popQueue q).engs = c.engs := by cases q <;> rfl

theorem Ctx.engs_popQueues (l : List QEnd) (c : Ctx) : (l.foldl Ctx.popQueue c).engs = c.engs := by
  induction l generalizing c with
  | nil => rfl
  | cons q r ih => rw [List.foldl_cons, ih, Ctx.engs_popQueue]

theorem Ctx.engs_setFifo (c : Ctx) (e : Eng) (u : Bool) (l : List Tok) : (c.setFifo e u l).engs = c.engs := by
  cases e <;> cases u <;> rfl

theorem Ctx.engs_takeTokens (c : Ctx) (e : Eng) (tk : BitVec 4) (n : Nat) : (c.takeTokens e tk n).engs = c.engs := by
  unfold Ctx.takeTokens
  simp only [Ctx.tokTake, Ctx.tokReserve]
  repeat' split
  all_goals simp only [Ctx.engs_setFifo]

/-- The issue of an instruction counts on its engine and leaves the others. -/
theorem Ctx.eng_issued (c : Ctx) (e g : Eng) (f : Form) :
    (c.issued e f).eng g = if g = e then { c.eng e with issues := (c.eng e).issues + 1 } else c.eng g := by
  have h : ∀ x, (({ (f.srcs.foldl Ctx.popQueue c).takeTokens e f.mods.tk (f.srcs.foldl Ctx.popQueue c).nextId with
      nextId := ((f.srcs.foldl Ctx.popQueue c).takeTokens e f.mods.tk (f.srcs.foldl Ctx.popQueue c).nextId).nextId + 1 } :
      Ctx)).eng x = c.eng x := by
    intro x
    show tget {} ((f.srcs.foldl Ctx.popQueue c).takeTokens e f.mods.tk _).engs (engIdx x) = _
    rw [Ctx.engs_takeTokens, Ctx.engs_popQueues]; rfl
  unfold Ctx.issued
  dsimp only
  split
  · next he => subst he; rw [Ctx.eng_modEng_same, h]
  · next he => rw [Ctx.eng_modEng_other _ _ he, h]

/-- Moving past an instruction leaves the other engines. -/
theorem Ctx.advance_other (c : Ctx) {e g : Eng} (n : Nat) (h : g ≠ e) :
    ((c.advance e n).eng g).quiet = (c.eng g).quiet := by
  unfold Ctx.advance
  dsimp only
  split
  · rw [Ctx.eng_setEng_other _ _ h]
  · split
    · rw [Ctx.eng_setEng_other _ _ h]
    · split
      · rw [Ctx.eng_setEng_other _ _ h]
      · unfold Ctx.beginInstance
        split
        · rw [Ctx.wake_eng, Ctx.eng_modEng_other _ _ h]; rfl
        · rw [Ctx.eng_modEng_other _ _ h]

/-- Moving past an instruction moves its engine in the text and changes nothing else of it. -/
theorem Ctx.advance_same (c : Ctx) (e : Eng) (n : Nat) : Engine.still ((c.advance e n).eng e) = Engine.still (c.eng e) := by
  unfold Ctx.advance
  dsimp only
  split
  · rw [Ctx.eng_setEng_same]; rfl
  · split
    · rw [Ctx.eng_setEng_same]; rfl
    · split
      · rw [Ctx.eng_setEng_same]; rfl
      · unfold Ctx.beginInstance
        split
        · rw [Ctx.wake_eng, Ctx.eng_modEng_same]; rfl
        · rw [Ctx.eng_modEng_same]; rfl

theorem State.retire_cc (s : State) (f : Form) :
    (s.retire f).cc = ((((s.cc.issued s.cur.eng f).tokFill s.cc.nextId).advance s.cur.eng s.cur.len).wake) :=
  State.modMe_cc s _

theorem State.retire_still (s : State) (f : Form) : Ctx.still (s.retire f).cc = Ctx.still (f.srcs.foldl Ctx.popQueue s.cc) := by
  rw [State.retire_cc, Ctx.still_wake, Ctx.still_advance, Ctx.still_tokFill, Ctx.still_issued]

theorem State.retire_eng (s : State) (f : Form) {e : Eng} (h : e ≠ s.cur.eng) :
    ((s.retire f).cc.eng e).quiet = (s.cc.eng e).quiet := by
  rw [State.retire_cc, Ctx.wake_eng]
  show Engine.quiet (Engine.quiet ((Ctx.advance _ s.cur.eng s.cur.len).eng e)) = _
  show Engine.quiet ((Ctx.advance _ s.cur.eng s.cur.len).eng e) = _
  rw [Ctx.advance_other _ _ h]
  show Engine.quiet ((s.cc.issued s.cur.eng f).eng e) = _
  rw [Ctx.eng_issued, if_neg h]

theorem State.retire_ce (s : State) (f : Form) : Engine.still (s.retire f).ce = Engine.still s.ce := by
  show Engine.still ((s.retire f).cc.eng s.cur.eng) = _
  rw [State.retire_cc, Ctx.wake_eng]
  show Engine.still ((Ctx.advance _ s.cur.eng s.cur.len).eng s.cur.eng) = _
  rw [Ctx.advance_same]
  show Engine.still ((s.cc.issued s.cur.eng f).eng s.cur.eng) = _
  rw [Ctx.eng_issued, if_pos rfl]; rfl

/-- The x registers of the engine in execution survive the walk. -/
theorem State.retire_rx (s : State) (f : Form) (r : Reg) : (s.retire f).rx r = s.rx r := by
  have := congrArg (fun g : Engine => g.rx r) (State.retire_ce s f)
  exact this

/-- The predicates of the engine in execution survive the walk. -/
theorem State.retire_rp (s : State) (f : Form) (n : BitVec 3) : (s.retire f).rp n = s.rp n := by
  have := congrArg (fun g : Engine => g.p.getLsbD n.toNat) (State.retire_ce s f)
  exact this

theorem State.retire_others (s : State) (f : Form) {k : Nat} (h : k ≠ s.me) : (s.retire f).ctx k = s.ctx k :=
  State.ctx_modCtx_other s _ h

/-- An instruction that pops no queue and writes an x register writes nothing else. -/
theorem State.retire_wx (f : Form) (s : State) (d : Reg) (v : Quad) (h : f.srcs = []) :
    (d ≠ 0 → ((s.wx d v).retire f).rx d = v) ∧ WritesOnly d s ((s.wx d v).retire f) := by
  have hce : (s.wx d v).ce = s.ce.wx d v := State.modCe_ce s _
  have hcc : (s.wx d v).cc = s.cc.modEng s.cur.eng fun e => e.wx d v := State.modMe_cc s _
  refine ⟨fun hd => ?_, rfl, fun k hk => ?_, fun _ => rfl, ?_, fun e he => ?_, fun r hr => ?_, ?_⟩
  · rw [State.retire_rx, State.rx_wx, if_pos ⟨rfl, hd⟩]
  · exact (State.retire_others (s.wx d v) f hk).trans (State.ctx_modCtx_other s _ hk)
  · rw [State.retire_still, h]
    show Ctx.still (s.wx d v).cc = _
    rw [hcc, Ctx.still_modEng]
  · rw [State.retire_eng (s.wx d v) f he, hcc, Ctx.eng_modEng_other _ _ he]
  · rw [State.retire_rx, State.rx_wx, if_neg fun x => hr x.1]
  · have h1 := congrArg Engine.stillX (State.retire_ce (s.wx d v) f)
    rw [hce] at h1
    refine Eq.trans h1 ?_
    unfold Engine.wx; split <;> rfl

/-- An instruction that pops no queue and writes a predicate writes nothing else. -/
theorem State.retire_wp (f : Form) (s : State) (n : BitVec 3) (b : Bool) (h : f.srcs = []) :
    ((s.wp n b).retire f).rp n = b ∧ WritesPredOnly n s ((s.wp n b).retire f) := by
  have hcc : (s.wp n b).cc = s.cc.modEng s.cur.eng _ := State.modMe_cc s _
  have hce : (s.wp n b).ce = _ := State.modCe_ce s _
  have hrp : ∀ r, (s.wp n b).rp r = if r = n then b else s.rp r := by
    intro r
    unfold State.rp
    rw [hce]
    show (if b then s.ce.p ||| (1#8 <<< n.toNat) else s.ce.p &&& ~~~(1#8 <<< n.toNat)).getLsbD r.toNat = _
    have hr := r.isLt
    have hn := n.isLt
    by_cases e : r = n
    · subst e
      cases b <;> simp <;> omega
    · have : r.toNat ≠ n.toNat := fun h => e (BitVec.eq_of_toNat_eq h)
      rw [if_neg e]
      cases b <;> simp <;> omega
  refine ⟨?_, rfl, fun k hk => ?_, fun _ => rfl, ?_, fun e he => ?_, fun r hr => ?_, ?_⟩
  · rw [State.retire_rp, hrp, if_pos rfl]
  · exact (State.retire_others (s.wp n b) f hk).trans (State.ctx_modCtx_other s _ hk)
  · rw [State.retire_still, h]
    show Ctx.still (s.wp n b).cc = _
    rw [hcc, Ctx.still_modEng]
  · rw [State.retire_eng (s.wp n b) f he, hcc, Ctx.eng_modEng_other _ _ he]
  · rw [State.retire_rp, hrp, if_neg hr]
  · have h1 := congrArg Engine.stillP (State.retire_ce (s.wp n b) f)
    rw [hce] at h1
    exact Eq.trans h1 rfl

end Sys2Proof.Machine
end

