-- ==== Sys2Proof/Laws/PerInstr.lean ====
section
/-! SUPPORT. Instruction by instruction: the row of the opcode map and the fields that encode it read back as it (R41-R67).
One lemma per constructor; a block header and an event have no row, and the statement is empty of them. -/

namespace Sys2Proof.Laws.Encoding

open Sys2Proof.Machine

/-- What encodes a well-formed instruction is a row of the opcode map, with field values that fit it; the row is one that
its TK field allows, and gives the instruction back. -/
def Statement (i : Instr) : Prop :=
  ∀ (r : Row) (m : Mods) (v : List Nat), fieldsOf i = some (r, m, v) → wellFormed i = true →
    r ∈ rowsOf r.len ∧ fits r.atoms v = true ∧ (r.tkZero = true → m.tk = 0) ∧
    (encodePfx m.pfx).length ≤ 3 ∧ (isControlWord r.len (r.maj * 4) = true → encodePfx m.pfx = []) ∧
    (r.len = .b16 → m.tk = 0) ∧ (r.maj ≠ 0 ∨ r.len ≠ .b32) ∧ r.maj < (if r.len = .b16 then 16 else 64) ∧
    atomsWidth r.atoms = (match r.len with | .b16 => 10 | .b32 => 20 | .b64 => 52) ∧
    ∃ d, r.build m v = some d ∧ d.instr = i ∧ decMods d = m ∧ decError d = none

theorem blockHeader y0 y1 y2 : Statement (.blockHeader y0 y1 y2) := fun _ _ _ h => by cases h

theorem blockHeaderReg y0 y1 y2 : Statement (.blockHeaderReg y0 y1 y2) := fun _ _ _ h => by cases h

theorem mov16 d a : Statement (.mov16 d a) := by
  intro r m' v' h hw
  cases h
  exact ⟨List.mem_of_getElem? (i := 1) rfl, by simp [fits, rowMov16, d.isLt, a.isLt], (fun _ => rfl), by decide,
    (fun _ => rfl), (fun _ => rfl), by decide, by decide, rfl,
    ⟨.i (.mov16 d a), by simp [rowMov16, bv, arg], rfl, rfl, formError_of_wellFormed hw⟩⟩

theorem addi16 d k : Statement (.addi16 d k) := by
  intro r m' v' h hw
  cases h
  exact ⟨List.mem_of_getElem? (i := 2) rfl, by simp [fits, rowAddi16, d.isLt, k.isLt], (fun _ => rfl), by decide,
    (fun _ => rfl), (fun _ => rfl), by decide, by decide, rfl,
    ⟨.i (.addi16 d k), by simp [rowAddi16, bv, arg], rfl, rfl, formError_of_wellFormed hw⟩⟩

theorem li16 d k : Statement (.li16 d k) := by
  intro r m' v' h hw
  cases h
  exact ⟨List.mem_of_getElem? (i := 3) rfl, by simp [fits, rowLi16, d.isLt, k.isLt], (fun _ => rfl), by decide,
    (fun _ => rfl), (fun _ => rfl), by decide, by decide, rfl,
    ⟨.i (.li16 d k), by simp [rowLi16, bv, arg], rfl, rfl, formError_of_wellFormed hw⟩⟩

theorem add16 d a : Statement (.add16 d a) := by
  intro r m' v' h hw
  cases h
  exact ⟨List.mem_of_getElem? (i := 4) rfl, by simp [fits, rowAdd16, d.isLt, a.isLt], (fun _ => rfl), by decide,
    (fun _ => rfl), (fun _ => rfl), by decide, by decide, rfl,
    ⟨.i (.add16 d a), by simp [rowAdd16, bv, arg], rfl, rfl, formError_of_wellFormed hw⟩⟩

theorem sub16 d a : Statement (.sub16 d a) := by
  intro r m' v' h hw
  cases h
  exact ⟨List.mem_of_getElem? (i := 5) rfl, by simp [fits, rowSub16, d.isLt, a.isLt], (fun _ => rfl), by decide,
    (fun _ => rfl), (fun _ => rfl), by decide, by decide, rfl,
    ⟨.i (.sub16 d a), by simp [rowSub16, bv, arg], rfl, rfl, formError_of_wellFormed hw⟩⟩

theorem and16 d a : Statement (.and16 d a) := by
  intro r m' v' h hw
  cases h
  exact ⟨List.mem_of_getElem? (i := 6) rfl, by simp [fits, rowAnd16, d.isLt, a.isLt], (fun _ => rfl), by decide,
    (fun _ => rfl), (fun _ => rfl), by decide, by decide, rfl,
    ⟨.i (.and16 d a), by simp [rowAnd16, bv, arg], rfl, rfl, formError_of_wellFormed hw⟩⟩

theorem or16 d a : Statement (.or16 d a) := by
  intro r m' v' h hw
  cases h
  exact ⟨List.mem_of_getElem? (i := 7) rfl, by simp [fits, rowOr16, d.isLt, a.isLt], (fun _ => rfl), by decide,
    (fun _ => rfl), (fun _ => rfl), by decide, by decide, rfl,
    ⟨.i (.or16 d a), by simp [rowOr16, bv, arg], rfl, rfl, formError_of_wellFormed hw⟩⟩

theorem xor16 d a : Statement (.xor16 d a) := by
  intro r m' v' h hw
  cases h
  exact ⟨List.mem_of_getElem? (i := 8) rfl, by simp [fits, rowXor16, d.isLt, a.isLt], (fun _ => rfl), by decide,
    (fun _ => rfl), (fun _ => rfl), by decide, by decide, rfl,
    ⟨.i (.xor16 d a), by simp [rowXor16, bv, arg], rfl, rfl, formError_of_wellFormed hw⟩⟩

theorem shli16 d k : Statement (.shli16 d k) := by
  intro r m' v' h hw
  cases h
  exact ⟨List.mem_of_getElem? (i := 9) rfl, by simp [fits, rowShli16, d.isLt, k.isLt], (fun _ => rfl), by decide,
    (fun _ => rfl), (fun _ => rfl), by decide, by decide, rfl,
    ⟨.i (.shli16 d k), by simp [rowShli16, bv, arg], rfl, rfl, formError_of_wellFormed hw⟩⟩

theorem shri16 d k : Statement (.shri16 d k) := by
  intro r m' v' h hw
  cases h
  exact ⟨List.mem_of_getElem? (i := 10) rfl, by simp [fits, rowShri16, d.isLt, k.isLt], (fun _ => rfl), by decide,
    (fun _ => rfl), (fun _ => rfl), by decide, by decide, rfl,
    ⟨.i (.shri16 d k), by simp [rowShri16, bv, arg], rfl, rfl, formError_of_wellFormed hw⟩⟩

theorem srai16 d k : Statement (.srai16 d k) := by
  intro r m' v' h hw
  cases h
  exact ⟨List.mem_of_getElem? (i := 11) rfl, by simp [fits, rowSrai16, d.isLt, k.isLt], (fun _ => rfl), by decide,
    (fun _ => rfl), (fun _ => rfl), by decide, by decide, rfl,
    ⟨.i (.srai16 d k), by simp [rowSrai16, bv, arg], rfl, rfl, formError_of_wellFormed hw⟩⟩

theorem add m d a b : Statement (.add m d a b) := by
  intro r m' v' h hw
  cases h
  exact ⟨List.mem_of_getElem? (i := 0) rfl, by simp [fits, rowAdd, d.isLt, a.isLt, b.isLt], (fun h => by cases h),
      (encodePfx_length ((wellFormed_iff _).mp hw).2.1).trans (Nat.le_of_ble_eq_true rfl),
    (fun h => by cases h), (fun h => by cases h), by decide, by decide, rfl,
    ⟨.i (.add m d a b), by simp [rowAdd, bv, arg], rfl, rfl, formError_of_wellFormed hw⟩⟩

theorem sub m d a b : Statement (.sub m d a b) := by
  intro r m' v' h hw
  cases h
  exact ⟨List.mem_of_getElem? (i := 1) rfl, by simp [fits, rowSub, d.isLt, a.isLt, b.isLt], (fun h => by cases h),
      (encodePfx_length ((wellFormed_iff _).mp hw).2.1).trans (Nat.le_of_ble_eq_true rfl),
    (fun h => by cases h), (fun h => by cases h), by decide, by decide, rfl,
    ⟨.i (.sub m d a b), by simp [rowSub, bv, arg], rfl, rfl, formError_of_wellFormed hw⟩⟩

theorem mul m d a b : Statement (.mul m d a b) := by
  intro r m' v' h hw
  cases h
  exact ⟨List.mem_of_getElem? (i := 2) rfl, by simp [fits, rowMul, d.isLt, a.isLt, b.isLt], (fun h => by cases h),
      (encodePfx_length ((wellFormed_iff _).mp hw).2.1).trans (Nat.le_of_ble_eq_true rfl),
    (fun h => by cases h), (fun h => by cases h), by decide, by decide, rfl,
    ⟨.i (.mul m d a b), by simp [rowMul, bv, arg], rfl, rfl, formError_of_wellFormed hw⟩⟩

theorem mulh m d a b : Statement (.mulh m d a b) := by
  intro r m' v' h hw
  cases h
  exact ⟨List.mem_of_getElem? (i := 3) rfl, by simp [fits, rowMulh, d.isLt, a.isLt, b.isLt], (fun h => by cases h),
      (encodePfx_length ((wellFormed_iff _).mp hw).2.1).trans (Nat.le_of_ble_eq_true rfl),
    (fun h => by cases h), (fun h => by cases h), by decide, by decide, rfl,
    ⟨.i (.mulh m d a b), by simp [rowMulh, bv, arg], rfl, rfl, formError_of_wellFormed hw⟩⟩

theorem mulhU m d a b : Statement (.mulhU m d a b) := by
  intro r m' v' h hw
  cases h
  exact ⟨List.mem_of_getElem? (i := 4) rfl, by simp [fits, rowMulhU, d.isLt, a.isLt, b.isLt], (fun h => by cases h),
      (encodePfx_length ((wellFormed_iff _).mp hw).2.1).trans (Nat.le_of_ble_eq_true rfl),
    (fun h => by cases h), (fun h => by cases h), by decide, by decide, rfl,
    ⟨.i (.mulhU m d a b), by simp [rowMulhU, bv, arg], rfl, rfl, formError_of_wellFormed hw⟩⟩

theorem div m d a b : Statement (.div m d a b) := by
  intro r m' v' h hw
  cases h
  exact ⟨List.mem_of_getElem? (i := 5) rfl, by simp [fits, rowDiv, d.isLt, a.isLt, b.isLt], (fun h => by cases h),
      (encodePfx_length ((wellFormed_iff _).mp hw).2.1).trans (Nat.le_of_ble_eq_true rfl),
    (fun h => by cases h), (fun h => by cases h), by decide, by decide, rfl,
    ⟨.i (.div m d a b), by simp [rowDiv, bv, arg], rfl, rfl, formError_of_wellFormed hw⟩⟩

theorem divU m d a b : Statement (.divU m d a b) := by
  intro r m' v' h hw
  cases h
  exact ⟨List.mem_of_getElem? (i := 6) rfl, by simp [fits, rowDivU, d.isLt, a.isLt, b.isLt], (fun h => by cases h),
      (encodePfx_length ((wellFormed_iff _).mp hw).2.1).trans (Nat.le_of_ble_eq_true rfl),
    (fun h => by cases h), (fun h => by cases h), by decide, by decide, rfl,
    ⟨.i (.divU m d a b), by simp [rowDivU, bv, arg], rfl, rfl, formError_of_wellFormed hw⟩⟩

theorem rem m d a b : Statement (.rem m d a b) := by
  intro r m' v' h hw
  cases h
  exact ⟨List.mem_of_getElem? (i := 7) rfl, by simp [fits, rowRem, d.isLt, a.isLt, b.isLt], (fun h => by cases h),
      (encodePfx_length ((wellFormed_iff _).mp hw).2.1).trans (Nat.le_of_ble_eq_true rfl),
    (fun h => by cases h), (fun h => by cases h), by decide, by decide, rfl,
    ⟨.i (.rem m d a b), by simp [rowRem, bv, arg], rfl, rfl, formError_of_wellFormed hw⟩⟩

theorem remU m d a b : Statement (.remU m d a b) := by
  intro r m' v' h hw
  cases h
  exact ⟨List.mem_of_getElem? (i := 8) rfl, by simp [fits, rowRemU, d.isLt, a.isLt, b.isLt], (fun h => by cases h),
      (encodePfx_length ((wellFormed_iff _).mp hw).2.1).trans (Nat.le_of_ble_eq_true rfl),
    (fun h => by cases h), (fun h => by cases h), by decide, by decide, rfl,
    ⟨.i (.remU m d a b), by simp [rowRemU, bv, arg], rfl, rfl, formError_of_wellFormed hw⟩⟩

theorem and m d a b : Statement (.and m d a b) := by
  intro r m' v' h hw
  cases h
  exact ⟨List.mem_of_getElem? (i := 9) rfl, by simp [fits, rowAnd, d.isLt, a.isLt, b.isLt], (fun h => by cases h),
      (encodePfx_length ((wellFormed_iff _).mp hw).2.1).trans (Nat.le_of_ble_eq_true rfl),
    (fun h => by cases h), (fun h => by cases h), by decide, by decide, rfl,
    ⟨.i (.and m d a b), by simp [rowAnd, bv, arg], rfl, rfl, formError_of_wellFormed hw⟩⟩

theorem or m d a b : Statement (.or m d a b) := by
  intro r m' v' h hw
  cases h
  exact ⟨List.mem_of_getElem? (i := 10) rfl, by simp [fits, rowOr, d.isLt, a.isLt, b.isLt], (fun h => by cases h),
      (encodePfx_length ((wellFormed_iff _).mp hw).2.1).trans (Nat.le_of_ble_eq_true rfl),
    (fun h => by cases h), (fun h => by cases h), by decide, by decide, rfl,
    ⟨.i (.or m d a b), by simp [rowOr, bv, arg], rfl, rfl, formError_of_wellFormed hw⟩⟩

theorem xor m d a b : Statement (.xor m d a b) := by
  intro r m' v' h hw
  cases h
  exact ⟨List.mem_of_getElem? (i := 11) rfl, by simp [fits, rowXor, d.isLt, a.isLt, b.isLt], (fun h => by cases h),
      (encodePfx_length ((wellFormed_iff _).mp hw).2.1).trans (Nat.le_of_ble_eq_true rfl),
    (fun h => by cases h), (fun h => by cases h), by decide, by decide, rfl,
    ⟨.i (.xor m d a b), by simp [rowXor, bv, arg], rfl, rfl, formError_of_wellFormed hw⟩⟩

theorem andn m d a b : Statement (.andn m d a b) := by
  intro r m' v' h hw
  cases h
  exact ⟨List.mem_of_getElem? (i := 12) rfl, by simp [fits, rowAndn, d.isLt, a.isLt, b.isLt], (fun h => by cases h),
      (encodePfx_length ((wellFormed_iff _).mp hw).2.1).trans (Nat.le_of_ble_eq_true rfl),
    (fun h => by cases h), (fun h => by cases h), by decide, by decide, rfl,
    ⟨.i (.andn m d a b), by simp [rowAndn, bv, arg], rfl, rfl, formError_of_wellFormed hw⟩⟩

theorem shl m d a b : Statement (.shl m d a b) := by
  intro r m' v' h hw
  cases h
  exact ⟨List.mem_of_getElem? (i := 13) rfl, by simp [fits, rowShl, d.isLt, a.isLt, b.isLt], (fun h => by cases h),
      (encodePfx_length ((wellFormed_iff _).mp hw).2.1).trans (Nat.le_of_ble_eq_true rfl),
    (fun h => by cases h), (fun h => by cases h), by decide, by decide, rfl,
    ⟨.i (.shl m d a b), by simp [rowShl, bv, arg], rfl, rfl, formError_of_wellFormed hw⟩⟩

theorem shr m d a b : Statement (.shr m d a b) := by
  intro r m' v' h hw
  cases h
  exact ⟨List.mem_of_getElem? (i := 14) rfl, by simp [fits, rowShr, d.isLt, a.isLt, b.isLt], (fun h => by cases h),
      (encodePfx_length ((wellFormed_iff _).mp hw).2.1).trans (Nat.le_of_ble_eq_true rfl),
    (fun h => by cases h), (fun h => by cases h), by decide, by decide, rfl,
    ⟨.i (.shr m d a b), by simp [rowShr, bv, arg], rfl, rfl, formError_of_wellFormed hw⟩⟩

theorem sra m d a b : Statement (.sra m d a b) := by
  intro r m' v' h hw
  cases h
  exact ⟨List.mem_of_getElem? (i := 15) rfl, by simp [fits, rowSra, d.isLt, a.isLt, b.isLt], (fun h => by cases h),
      (encodePfx_length ((wellFormed_iff _).mp hw).2.1).trans (Nat.le_of_ble_eq_true rfl),
    (fun h => by cases h), (fun h => by cases h), by decide, by decide, rfl,
    ⟨.i (.sra m d a b), by simp [rowSra, bv, arg], rfl, rfl, formError_of_wellFormed hw⟩⟩

theorem rot m d a b : Statement (.rot m d a b) := by
  intro r m' v' h hw
  cases h
  exact ⟨List.mem_of_getElem? (i := 16) rfl, by simp [fits, rowRot, d.isLt, a.isLt, b.isLt], (fun h => by cases h),
      (encodePfx_length ((wellFormed_iff _).mp hw).2.1).trans (Nat.le_of_ble_eq_true rfl),
    (fun h => by cases h), (fun h => by cases h), by decide, by decide, rfl,
    ⟨.i (.rot m d a b), by simp [rowRot, bv, arg], rfl, rfl, formError_of_wellFormed hw⟩⟩

theorem min m d a b : Statement (.min m d a b) := by
  intro r m' v' h hw
  cases h
  exact ⟨List.mem_of_getElem? (i := 17) rfl, by simp [fits, rowMin, d.isLt, a.isLt, b.isLt], (fun h => by cases h),
      (encodePfx_length ((wellFormed_iff _).mp hw).2.1).trans (Nat.le_of_ble_eq_true rfl),
    (fun h => by cases h), (fun h => by cases h), by decide, by decide, rfl,
    ⟨.i (.min m d a b), by simp [rowMin, bv, arg], rfl, rfl, formError_of_wellFormed hw⟩⟩

theorem minU m d a b : Statement (.minU m d a b) := by
  intro r m' v' h hw
  cases h
  exact ⟨List.mem_of_getElem? (i := 18) rfl, by simp [fits, rowMinU, d.isLt, a.isLt, b.isLt], (fun h => by cases h),
      (encodePfx_length ((wellFormed_iff _).mp hw).2.1).trans (Nat.le_of_ble_eq_true rfl),
    (fun h => by cases h), (fun h => by cases h), by decide, by decide, rfl,
    ⟨.i (.minU m d a b), by simp [rowMinU, bv, arg], rfl, rfl, formError_of_wellFormed hw⟩⟩

theorem max m d a b : Statement (.max m d a b) := by
  intro r m' v' h hw
  cases h
  exact ⟨List.mem_of_getElem? (i := 19) rfl, by simp [fits, rowMax, d.isLt, a.isLt, b.isLt], (fun h => by cases h),
      (encodePfx_length ((wellFormed_iff _).mp hw).2.1).trans (Nat.le_of_ble_eq_true rfl),
    (fun h => by cases h), (fun h => by cases h), by decide, by decide, rfl,
    ⟨.i (.max m d a b), by simp [rowMax, bv, arg], rfl, rfl, formError_of_wellFormed hw⟩⟩

theorem maxU m d a b : Statement (.maxU m d a b) := by
  intro r m' v' h hw
  cases h
  exact ⟨List.mem_of_getElem? (i := 20) rfl, by simp [fits, rowMaxU, d.isLt, a.isLt, b.isLt], (fun h => by cases h),
      (encodePfx_length ((wellFormed_iff _).mp hw).2.1).trans (Nat.le_of_ble_eq_true rfl),
    (fun h => by cases h), (fun h => by cases h), by decide, by decide, rfl,
    ⟨.i (.maxU m d a b), by simp [rowMaxU, bv, arg], rfl, rfl, formError_of_wellFormed hw⟩⟩

theorem clz m d a : Statement (.clz m d a) := by
  intro r m' v' h hw
  cases h
  exact ⟨List.mem_of_getElem? (i := 21) rfl, by simp [fits, rowClz, d.isLt, a.isLt], (fun h => by cases h),
      (encodePfx_length ((wellFormed_iff _).mp hw).2.1).trans (Nat.le_of_ble_eq_true rfl),
    (fun h => by cases h), (fun h => by cases h), by decide, by decide, rfl,
    ⟨.i (.clz m d a), by simp [rowClz, bv, arg], rfl, rfl, formError_of_wellFormed hw⟩⟩

theorem ctz m d a : Statement (.ctz m d a) := by
  intro r m' v' h hw
  cases h
  exact ⟨List.mem_of_getElem? (i := 22) rfl, by simp [fits, rowCtz, d.isLt, a.isLt], (fun h => by cases h),
      (encodePfx_length ((wellFormed_iff _).mp hw).2.1).trans (Nat.le_of_ble_eq_true rfl),
    (fun h => by cases h), (fun h => by cases h), by decide, by decide, rfl,
    ⟨.i (.ctz m d a), by simp [rowCtz, bv, arg], rfl, rfl, formError_of_wellFormed hw⟩⟩

theorem popc m d a : Statement (.popc m d a) := by
  intro r m' v' h hw
  cases h
  exact ⟨List.mem_of_getElem? (i := 23) rfl, by simp [fits, rowPopc, d.isLt, a.isLt], (fun h => by cases h),
      (encodePfx_length ((wellFormed_iff _).mp hw).2.1).trans (Nat.le_of_ble_eq_true rfl),
    (fun h => by cases h), (fun h => by cases h), by decide, by decide, rfl,
    ⟨.i (.popc m d a), by simp [rowPopc, bv, arg], rfl, rfl, formError_of_wellFormed hw⟩⟩

theorem sextB m d a : Statement (.sextB m d a) := by
  intro r m' v' h hw
  cases h
  exact ⟨List.mem_of_getElem? (i := 24) rfl, by simp [fits, rowSextB, d.isLt, a.isLt], (fun h => by cases h),
      (encodePfx_length ((wellFormed_iff _).mp hw).2.1).trans (Nat.le_of_ble_eq_true rfl),
    (fun h => by cases h), (fun h => by cases h), by decide, by decide, rfl,
    ⟨.i (.sextB m d a), by simp [rowSextB, bv, arg], rfl, rfl, formError_of_wellFormed hw⟩⟩

theorem sextH m d a : Statement (.sextH m d a) := by
  intro r m' v' h hw
  cases h
  exact ⟨List.mem_of_getElem? (i := 25) rfl, by simp [fits, rowSextH, d.isLt, a.isLt], (fun h => by cases h),
      (encodePfx_length ((wellFormed_iff _).mp hw).2.1).trans (Nat.le_of_ble_eq_true rfl),
    (fun h => by cases h), (fun h => by cases h), by decide, by decide, rfl,
    ⟨.i (.sextH m d a), by simp [rowSextH, bv, arg], rfl, rfl, formError_of_wellFormed hw⟩⟩

theorem sextW m d a : Statement (.sextW m d a) := by
  intro r m' v' h hw
  cases h
  exact ⟨List.mem_of_getElem? (i := 26) rfl, by simp [fits, rowSextW, d.isLt, a.isLt], (fun h => by cases h),
      (encodePfx_length ((wellFormed_iff _).mp hw).2.1).trans (Nat.le_of_ble_eq_true rfl),
    (fun h => by cases h), (fun h => by cases h), by decide, by decide, rfl,
    ⟨.i (.sextW m d a), by simp [rowSextW, bv, arg], rfl, rfl, formError_of_wellFormed hw⟩⟩

theorem zextB m d a : Statement (.zextB m d a) := by
  intro r m' v' h hw
  cases h
  exact ⟨List.mem_of_getElem? (i := 27) rfl, by simp [fits, rowZextB, d.isLt, a.isLt], (fun h => by cases h),
      (encodePfx_length ((wellFormed_iff _).mp hw).2.1).trans (Nat.le_of_ble_eq_true rfl),
    (fun h => by cases h), (fun h => by cases h), by decide, by decide, rfl,
    ⟨.i (.zextB m d a), by simp [rowZextB, bv, arg], rfl, rfl, formError_of_wellFormed hw⟩⟩

theorem zextH m d a : Statement (.zextH m d a) := by
  intro r m' v' h hw
  cases h
  exact ⟨List.mem_of_getElem? (i := 28) rfl, by simp [fits, rowZextH, d.isLt, a.isLt], (fun h => by cases h),
      (encodePfx_length ((wellFormed_iff _).mp hw).2.1).trans (Nat.le_of_ble_eq_true rfl),
    (fun h => by cases h), (fun h => by cases h), by decide, by decide, rfl,
    ⟨.i (.zextH m d a), by simp [rowZextH, bv, arg], rfl, rfl, formError_of_wellFormed hw⟩⟩

theorem zextW m d a : Statement (.zextW m d a) := by
  intro r m' v' h hw
  cases h
  exact ⟨List.mem_of_getElem? (i := 29) rfl, by simp [fits, rowZextW, d.isLt, a.isLt], (fun h => by cases h),
      (encodePfx_length ((wellFormed_iff _).mp hw).2.1).trans (Nat.le_of_ble_eq_true rfl),
    (fun h => by cases h), (fun h => by cases h), by decide, by decide, rfl,
    ⟨.i (.zextW m d a), by simp [rowZextW, bv, arg], rfl, rfl, formError_of_wellFormed hw⟩⟩

theorem mov m d a : Statement (.mov m d a) := by
  intro r m' v' h hw
  cases h
  exact ⟨List.mem_of_getElem? (i := 30) rfl, by simp [fits, rowMov, d.isLt, a.isLt], (fun h => by cases h),
      (encodePfx_length ((wellFormed_iff _).mp hw).2.1).trans (Nat.le_of_ble_eq_true rfl),
    (fun h => by cases h), (fun h => by cases h), by decide, by decide, rfl,
    ⟨.i (.mov m d a), by simp [rowMov, bv, arg], rfl, rfl, formError_of_wellFormed hw⟩⟩

theorem addi m d a k : Statement (.addi m d a k) := by
  intro r m' v' h hw
  cases h
  exact ⟨List.mem_of_getElem? (i := 31) rfl, by simp [fits, rowAddi, d.isLt, a.isLt, k.isLt], (fun h => by cases h),
      (encodePfx_length ((wellFormed_iff _).mp hw).2.1).trans (Nat.le_of_ble_eq_true rfl),
    (fun h => by cases h), (fun h => by cases h), by decide, by decide, rfl,
    ⟨.i (.addi m d a k), by simp [rowAddi, bv, arg], rfl, rfl, formError_of_wellFormed hw⟩⟩

theorem andi m d a k : Statement (.andi m d a k) := by
  intro r m' v' h hw
  cases h
  exact ⟨List.mem_of_getElem? (i := 32) rfl, by simp [fits, rowAndi, d.isLt, a.isLt, k.isLt], (fun h => by cases h),
      (encodePfx_length ((wellFormed_iff _).mp hw).2.1).trans (Nat.le_of_ble_eq_true rfl),
    (fun h => by cases h), (fun h => by cases h), by decide, by decide, rfl,
    ⟨.i (.andi m d a k), by simp [rowAndi, bv, arg], rfl, rfl, formError_of_wellFormed hw⟩⟩

theorem ori m d a k : Statement (.ori m d a k) := by
  intro r m' v' h hw
  cases h
  exact ⟨List.mem_of_getElem? (i := 33) rfl, by simp [fits, rowOri, d.isLt, a.isLt, k.isLt], (fun h => by cases h),
      (encodePfx_length ((wellFormed_iff _).mp hw).2.1).trans (Nat.le_of_ble_eq_true rfl),
    (fun h => by cases h), (fun h => by cases h), by decide, by decide, rfl,
    ⟨.i (.ori m d a k), by simp [rowOri, bv, arg], rfl, rfl, formError_of_wellFormed hw⟩⟩

theorem xori m d a k : Statement (.xori m d a k) := by
  intro r m' v' h hw
  cases h
  exact ⟨List.mem_of_getElem? (i := 34) rfl, by simp [fits, rowXori, d.isLt, a.isLt, k.isLt], (fun h => by cases h),
      (encodePfx_length ((wellFormed_iff _).mp hw).2.1).trans (Nat.le_of_ble_eq_true rfl),
    (fun h => by cases h), (fun h => by cases h), by decide, by decide, rfl,
    ⟨.i (.xori m d a k), by simp [rowXori, bv, arg], rfl, rfl, formError_of_wellFormed hw⟩⟩

theorem shli m d a k : Statement (.shli m d a k) := by
  intro r m' v' h hw
  cases h
  exact ⟨List.mem_of_getElem? (i := 35) rfl, by simp [fits, rowShli, d.isLt, a.isLt, k.isLt], (fun h => by cases h),
      (encodePfx_length ((wellFormed_iff _).mp hw).2.1).trans (Nat.le_of_ble_eq_true rfl),
    (fun h => by cases h), (fun h => by cases h), by decide, by decide, rfl,
    ⟨.i (.shli m d a k), by simp [rowShli, bv, arg], rfl, rfl, formError_of_wellFormed hw⟩⟩

theorem shri m d a k : Statement (.shri m d a k) := by
  intro r m' v' h hw
  cases h
  exact ⟨List.mem_of_getElem? (i := 36) rfl, by simp [fits, rowShri, d.isLt, a.isLt, k.isLt], (fun h => by cases h),
      (encodePfx_length ((wellFormed_iff _).mp hw).2.1).trans (Nat.le_of_ble_eq_true rfl),
    (fun h => by cases h), (fun h => by cases h), by decide, by decide, rfl,
    ⟨.i (.shri m d a k), by simp [rowShri, bv, arg], rfl, rfl, formError_of_wellFormed hw⟩⟩

theorem srai m d a k : Statement (.srai m d a k) := by
  intro r m' v' h hw
  cases h
  exact ⟨List.mem_of_getElem? (i := 37) rfl, by simp [fits, rowSrai, d.isLt, a.isLt, k.isLt], (fun h => by cases h),
      (encodePfx_length ((wellFormed_iff _).mp hw).2.1).trans (Nat.le_of_ble_eq_true rfl),
    (fun h => by cases h), (fun h => by cases h), by decide, by decide, rfl,
    ⟨.i (.srai m d a k), by simp [rowSrai, bv, arg], rfl, rfl, formError_of_wellFormed hw⟩⟩

theorem li m d k : Statement (.li m d k) := by
  intro r m' v' h hw
  cases h
  exact ⟨List.mem_of_getElem? (i := 38) rfl, by simp [fits, rowLi, d.isLt, k.isLt], (fun h => by cases h),
      (encodePfx_length ((wellFormed_iff _).mp hw).2.1).trans (Nat.le_of_ble_eq_true rfl),
    (fun h => by cases h), (fun h => by cases h), by decide, by decide, rfl,
    ⟨.i (.li m d k), by simp [rowLi, bv, arg], rfl, rfl, formError_of_wellFormed hw⟩⟩

theorem lih m d k : Statement (.lih m d k) := by
  intro r m' v' h hw
  cases h
  exact ⟨List.mem_of_getElem? (i := 39) rfl, by simp [fits, rowLih, d.isLt, k.isLt], (fun h => by cases h),
      (encodePfx_length ((wellFormed_iff _).mp hw).2.1).trans (Nat.le_of_ble_eq_true rfl),
    (fun h => by cases h), (fun h => by cases h), by decide, by decide, rfl,
    ⟨.i (.lih m d k), by simp [rowLih, bv, arg], rfl, rfl, formError_of_wellFormed hw⟩⟩

theorem li64 m d k : Statement (.li64 m d k) := by
  intro r m' v' h hw
  cases h
  exact ⟨List.mem_of_getElem? (i := 0) rfl, by simp [fits, rowLi64, d.isLt, k.isLt], (fun h => by cases h),
      (encodePfx_length ((wellFormed_iff _).mp hw).2.1).trans (Nat.le_of_ble_eq_true rfl),
    (fun h => by cases h), (fun h => by cases h), by decide, by decide, rfl,
    ⟨.i (.li64 m d k), by simp [rowLi64, bv, arg], rfl, rfl, formError_of_wellFormed hw⟩⟩

theorem madd m d a b c : Statement (.madd m d a b c) := by
  intro r m' v' h hw
  cases h
  exact ⟨List.mem_of_getElem? (i := 40) rfl, by simp [fits, rowMadd, d.isLt, a.isLt, b.isLt, c.isLt],
      (fun h => by cases h), (encodePfx_length ((wellFormed_iff _).mp hw).2.1).trans (Nat.le_of_ble_eq_true rfl),
    (fun h => by cases h), (fun h => by cases h), by decide, by decide, rfl,
    ⟨.i (.madd m d a b c), by simp [rowMadd, bv, arg], rfl, rfl, formError_of_wellFormed hw⟩⟩

theorem sel m d a b s p : Statement (.sel m d a b s p) := by
  intro r m' v' h hw
  cases h
  exact ⟨List.mem_of_getElem? (i := 41) rfl, by simp [fits, rowSel, d.isLt, a.isLt, b.isLt, s.isLt, p.isLt],
      (fun h => by cases h), (encodePfx_length ((wellFormed_iff _).mp hw).2.1).trans (Nat.le_of_ble_eq_true rfl),
    (fun h => by cases h), (fun h => by cases h), by decide, by decide, rfl,
    ⟨.i (.sel m d a b s p), by simp [rowSel, bv, arg], rfl, rfl, formError_of_wellFormed hw⟩⟩

theorem bext m d a n p : Statement (.bext m d a n p) := by
  intro r m' v' h hw
  cases h
  exact ⟨List.mem_of_getElem? (i := 42) rfl, by simp [fits, rowBitField, d.isLt, a.isLt, n.isLt, p.isLt],
      (fun h => by cases h), (encodePfx_length ((wellFormed_iff _).mp hw).2.1).trans (Nat.le_of_ble_eq_true rfl),
    (fun h => by cases h), (fun h => by cases h), by decide, by decide, rfl,
    ⟨.i (.bext m d a n p),
      by simp [rowBitField, bv, arg, bfOk_ext (k := 0) (n := n) (p := p) ((wellFormed_iff _).mp hw).2.2.2], rfl, rfl,
      formError_of_wellFormed hw⟩⟩

theorem bextS m d a n p : Statement (.bextS m d a n p) := by
  intro r m' v' h hw
  cases h
  exact ⟨List.mem_of_getElem? (i := 42) rfl, by simp [fits, rowBitField, d.isLt, a.isLt, n.isLt, p.isLt],
      (fun h => by cases h), (encodePfx_length ((wellFormed_iff _).mp hw).2.1).trans (Nat.le_of_ble_eq_true rfl),
    (fun h => by cases h), (fun h => by cases h), by decide, by decide, rfl,
    ⟨.i (.bextS m d a n p),
      by simp [rowBitField, bv, arg, bfOk_ext (k := 1) (n := n) (p := p) ((wellFormed_iff _).mp hw).2.2.2], rfl, rfl,
      formError_of_wellFormed hw⟩⟩

theorem bins m d a n p : Statement (.bins m d a n p) := by
  intro r m' v' h hw
  cases h
  exact ⟨List.mem_of_getElem? (i := 42) rfl, by simp [fits, rowBitField, d.isLt, a.isLt, n.isLt, p.isLt],
      (fun h => by cases h), (encodePfx_length ((wellFormed_iff _).mp hw).2.1).trans (Nat.le_of_ble_eq_true rfl),
    (fun h => by cases h), (fun h => by cases h), by decide, by decide, rfl,
    ⟨.i (.bins m d a n p),
      by simp [rowBitField, bv, arg, bfOk_ext (k := 2) (n := n) (p := p) ((wellFormed_iff _).mp hw).2.2.2], rfl, rfl,
      formError_of_wellFormed hw⟩⟩

theorem lea m d a b s : Statement (.lea m d a b s) := by
  intro r m' v' h hw
  cases h
  exact ⟨List.mem_of_getElem? (i := 43) rfl, by simp [fits, rowLea, d.isLt, a.isLt, b.isLt, s.isLt],
      (fun h => by cases h), (encodePfx_length ((wellFormed_iff _).mp hw).2.1).trans (Nat.le_of_ble_eq_true rfl),
    (fun h => by cases h), (fun h => by cases h), by decide, by decide, rfl,
    ⟨.i (.lea m d a b s), by simp [rowLea, bv, arg], rfl, rfl, formError_of_wellFormed hw⟩⟩

theorem cmp m c p a b : Statement (.cmp m c p a b) := by
  intro r m' v' h hw
  cases h
  exact ⟨List.mem_of_getElem? (i := 44) rfl, by simp [fits, rowCmp, condCode_lt c, p.isLt, a.isLt, b.isLt],
      (fun h => by cases h), (encodePfx_length ((wellFormed_iff _).mp hw).2.1).trans (Nat.le_of_ble_eq_true rfl),
    (fun h => by cases h), (fun h => by cases h), by decide, by decide, rfl,
    ⟨.i (.cmp m c p a b), by simp [rowCmp, bv, arg], rfl, rfl, formError_of_wellFormed hw⟩⟩

theorem cmpi m c p a k : Statement (.cmpi m c p a k) := by
  intro r m' v' h hw
  cases h
  exact ⟨List.mem_of_getElem? (i := 45) rfl, by simp [fits, rowCmpi, condCode_lt c, p.isLt, a.isLt, k.isLt],
      (fun h => by cases h), (encodePfx_length ((wellFormed_iff _).mp hw).2.1).trans (Nat.le_of_ble_eq_true rfl),
    (fun h => by cases h), (fun h => by cases h), by decide, by decide, rfl,
    ⟨.i (.cmpi m c p a k), by simp [rowCmpi, bv, arg], rfl, rfl, formError_of_wellFormed hw⟩⟩

theorem pand m d a b : Statement (.pand m d a b) := by
  intro r m' v' h hw
  cases h
  exact ⟨List.mem_of_getElem? (i := 46) rfl, by simp [fits, rowPand, d.isLt, a.isLt, b.isLt], (fun h => by cases h),
      (encodePfx_length ((wellFormed_iff _).mp hw).2.1).trans (Nat.le_of_ble_eq_true rfl),
    (fun h => by cases h), (fun h => by cases h), by decide, by decide, rfl,
    ⟨.i (.pand m d a b), by simp [rowPand, bv, arg], rfl, rfl, formError_of_wellFormed hw⟩⟩

theorem por m d a b : Statement (.por m d a b) := by
  intro r m' v' h hw
  cases h
  exact ⟨List.mem_of_getElem? (i := 47) rfl, by simp [fits, rowPor, d.isLt, a.isLt, b.isLt], (fun h => by cases h),
      (encodePfx_length ((wellFormed_iff _).mp hw).2.1).trans (Nat.le_of_ble_eq_true rfl),
    (fun h => by cases h), (fun h => by cases h), by decide, by decide, rfl,
    ⟨.i (.por m d a b), by simp [rowPor, bv, arg], rfl, rfl, formError_of_wellFormed hw⟩⟩

theorem pxor m d a b : Statement (.pxor m d a b) := by
  intro r m' v' h hw
  cases h
  exact ⟨List.mem_of_getElem? (i := 48) rfl, by simp [fits, rowPxor, d.isLt, a.isLt, b.isLt], (fun h => by cases h),
      (encodePfx_length ((wellFormed_iff _).mp hw).2.1).trans (Nat.le_of_ble_eq_true rfl),
    (fun h => by cases h), (fun h => by cases h), by decide, by decide, rfl,
    ⟨.i (.pxor m d a b), by simp [rowPxor, bv, arg], rfl, rfl, formError_of_wellFormed hw⟩⟩

theorem pnot m d a : Statement (.pnot m d a) := by
  intro r m' v' h hw
  cases h
  exact ⟨List.mem_of_getElem? (i := 49) rfl, by simp [fits, rowPnot, d.isLt, a.isLt], (fun h => by cases h),
      (encodePfx_length ((wellFormed_iff _).mp hw).2.1).trans (Nat.le_of_ble_eq_true rfl),
    (fun h => by cases h), (fun h => by cases h), by decide, by decide, rfl,
    ⟨.i (.pnot m d a), by simp [rowPnot, bv, arg], rfl, rfl, formError_of_wellFormed hw⟩⟩

theorem bra o : Statement (.bra o) := by
  intro r m' v' h hw
  cases h
  exact ⟨List.mem_of_getElem? (i := 50) rfl, by simp [fits, rowBra, o.isLt], (fun _ => rfl), by decide,
    (fun _ => rfl), (fun _ => rfl), by decide, by decide, rfl,
    ⟨.i (.bra o), by simp [rowBra, bv, arg], rfl, rfl, formError_of_wellFormed hw⟩⟩

theorem bc p s o : Statement (.bc p s o) := by
  intro r m' v' h hw
  cases h
  exact ⟨List.mem_of_getElem? (i := 51) rfl, by simp [fits, rowBc, p.isLt, s.isLt, o.isLt], (fun _ => rfl), by decide,
    (fun _ => rfl), (fun _ => rfl), by decide, by decide, rfl,
    ⟨.i (.bc p s o), by simp [rowBc, bv, arg], rfl, rfl, formError_of_wellFormed hw⟩⟩

theorem call o : Statement (.call o) := by
  intro r m' v' h hw
  cases h
  exact ⟨List.mem_of_getElem? (i := 52) rfl, by simp [fits, rowCall, o.isLt], (fun _ => rfl), by decide,
    (fun _ => rfl), (fun _ => rfl), by decide, by decide, rfl,
    ⟨.i (.call o), by simp [rowCall, bv, arg], rfl, rfl, formError_of_wellFormed hw⟩⟩

theorem bq s o : Statement (.bq s o) := by
  intro r m' v' h hw
  cases h
  exact ⟨List.mem_of_getElem? (i := 53) rfl, by simp [fits, rowBq, s.isLt, o.isLt], (fun _ => rfl), by decide,
    (fun _ => rfl), (fun _ => rfl), by decide, by decide, rfl,
    ⟨.i (.bq s o), by simp [rowBq, bv, arg], rfl, rfl, formError_of_wellFormed hw⟩⟩

theorem bx a : Statement (.bx a) := by
  intro r m' v' h hw
  cases h
  exact ⟨List.mem_of_getElem? (i := 54) rfl, by simp [fits, rowBx, a.isLt], (fun _ => rfl), by decide,
    (fun _ => rfl), (fun _ => rfl), by decide, by decide, rfl,
    ⟨.i (.bx a), by simp [rowBx, bv, arg], rfl, rfl, formError_of_wellFormed hw⟩⟩

theorem bcast p e i : Statement (.bcast p e i) := by
  intro r m' v' h hw
  cases h
  exact ⟨List.mem_of_getElem? (i := 56) rfl, by simp [fits, rowBcast, p.isLt, e.isLt, i.isLt], (fun _ => rfl),
      by decide,
    (fun _ => rfl), (fun _ => rfl), by decide, by decide, rfl,
    ⟨.i (.bcast p e i), by simp [rowBcast, bv, arg], rfl, rfl, formError_of_wellFormed hw⟩⟩

theorem xsend m e a : Statement (.xsend m e a) := by
  intro r m' v' h hw
  cases h
  exact ⟨List.mem_of_getElem? (i := 59) rfl, by simp [fits, rowXsend, e.isLt, a.isLt],
      (fun _ => ((wellFormed_iff _).mp hw).2.2.1 rfl),
      (encodePfx_length ((wellFormed_iff _).mp hw).2.1).trans (Nat.le_of_ble_eq_true rfl),
    (fun h => by cases h), (fun h => by cases h), by decide, by decide, rfl,
    ⟨.i (.xsend m e a), by simp [rowXsend, bv, arg], rfl, rfl, formError_of_wellFormed hw⟩⟩

theorem xrecv m d : Statement (.xrecv m d) := by
  intro r m' v' h hw
  cases h
  exact ⟨List.mem_of_getElem? (i := 60) rfl, by simp [fits, rowXrecv, d.isLt], (fun h => by cases h),
      (encodePfx_length ((wellFormed_iff _).mp hw).2.1).trans (Nat.le_of_ble_eq_true rfl),
    (fun h => by cases h), (fun h => by cases h), by decide, by decide, rfl,
    ⟨.i (.xrecv m d), by simp [rowXrecv, bv, arg], rfl, rfl, formError_of_wellFormed hw⟩⟩

theorem mfs m d n : Statement (.mfs m d n) := by
  intro r m' v' h hw
  cases h
  exact ⟨List.mem_of_getElem? (i := 61) rfl, by simp [fits, rowMfs, d.isLt, n.isLt], (fun h => by cases h),
      (encodePfx_length ((wellFormed_iff _).mp hw).2.1).trans (Nat.le_of_ble_eq_true rfl),
    (fun h => by cases h), (fun h => by cases h), by decide, by decide, rfl,
    ⟨.i (.mfs m d n), by simp [rowMfs, bv, arg], rfl, rfl, formError_of_wellFormed hw⟩⟩

theorem mts m a n : Statement (.mts m a n) := by
  intro r m' v' h hw
  cases h
  exact ⟨List.mem_of_getElem? (i := 62) rfl, by simp [fits, rowMts, a.isLt, n.isLt], (fun h => by cases h),
      (encodePfx_length ((wellFormed_iff _).mp hw).2.1).trans (Nat.le_of_ble_eq_true rfl),
    (fun h => by cases h), (fun h => by cases h), by decide, by decide, rfl,
    ⟨.i (.mts m a n), by simp [rowMts, bv, arg], rfl, rfl, formError_of_wellFormed hw⟩⟩

theorem feat m d n : Statement (.feat m d n) := by
  intro r m' v' h hw
  cases h
  exact ⟨List.mem_of_getElem? (i := 63) rfl, by simp [fits, rowFeat, d.isLt, n.isLt], (fun h => by cases h),
      (encodePfx_length ((wellFormed_iff _).mp hw).2.1).trans (Nat.le_of_ble_eq_true rfl),
    (fun h => by cases h), (fun h => by cases h), by decide, by decide, rfl,
    ⟨.i (.feat m d n), by simp [rowFeat, bv, arg], rfl, rfl, formError_of_wellFormed hw⟩⟩

theorem clock m d : Statement (.clock m d) := by
  intro r m' v' h hw
  cases h
  exact ⟨List.mem_of_getElem? (i := 64) rfl, by simp [fits, rowClock, d.isLt], (fun h => by cases h),
      (encodePfx_length ((wellFormed_iff _).mp hw).2.1).trans (Nat.le_of_ble_eq_true rfl),
    (fun h => by cases h), (fun h => by cases h), by decide, by decide, rfl,
    ⟨.i (.clock m d), by simp [rowClock, bv, arg], rfl, rfl, formError_of_wellFormed hw⟩⟩

theorem roleid m d n : Statement (.roleid m d n) := by
  intro r m' v' h hw
  cases h
  exact ⟨List.mem_of_getElem? (i := 65) rfl, by simp [fits, rowRoleid, d.isLt, n.isLt], (fun h => by cases h),
      (encodePfx_length ((wellFormed_iff _).mp hw).2.1).trans (Nat.le_of_ble_eq_true rfl),
    (fun h => by cases h), (fun h => by cases h), by decide, by decide, rfl,
    ⟨.i (.roleid m d n), by simp [rowRoleid, bv, arg], rfl, rfl, formError_of_wellFormed hw⟩⟩

theorem ldl m d a f o : Statement (.ldl m d a f o) := by
  intro r m' v' h hw
  cases h
  exact ⟨List.mem_of_getElem? (i := 66) rfl, by simp [fits, rowLdl, d.isLt, a.isLt, ldFmtCode_lt f, o.isLt],
      (fun h => by cases h), (encodePfx_length ((wellFormed_iff _).mp hw).2.1).trans (Nat.le_of_ble_eq_true rfl),
    (fun h => by cases h), (fun h => by cases h), by decide, by decide, rfl,
    ⟨.i (.ldl m d a f o), by simp [rowLdl, bv, arg], rfl, rfl, formError_of_wellFormed hw⟩⟩

theorem ldp m d a f o : Statement (.ldp m d a f o) := by
  intro r m' v' h hw
  cases h
  exact ⟨List.mem_of_getElem? (i := 67) rfl, by simp [fits, rowLdp, d.isLt, a.isLt, ldFmtCode_lt f, o.isLt],
      (fun h => by cases h), (encodePfx_length ((wellFormed_iff _).mp hw).2.1).trans (Nat.le_of_ble_eq_true rfl),
    (fun h => by cases h), (fun h => by cases h), by decide, by decide, rfl,
    ⟨.i (.ldp m d a f o), by simp [rowLdp, bv, arg], rfl, rfl, formError_of_wellFormed hw⟩⟩

theorem ldg m d a f o : Statement (.ldg m d a f o) := by
  intro r m' v' h hw
  cases h
  exact ⟨List.mem_of_getElem? (i := 68) rfl, by simp [fits, rowLdg, d.isLt, a.isLt, ldFmtCode_lt f, o.isLt],
      (fun h => by cases h), (encodePfx_length ((wellFormed_iff _).mp hw).2.1).trans (Nat.le_of_ble_eq_true rfl),
    (fun h => by cases h), (fun h => by cases h), by decide, by decide, rfl,
    ⟨.i (.ldg m d a f o), by simp [rowLdg, bv, arg], rfl, rfl, formError_of_wellFormed hw⟩⟩

theorem stl m d a w o : Statement (.stl m d a w o) := by
  intro r m' v' h hw
  cases h
  exact ⟨List.mem_of_getElem? (i := 69) rfl, by simp [fits, rowStl, d.isLt, a.isLt, widthCode_lt w, o.isLt],
      (fun h => by cases h), (encodePfx_length ((wellFormed_iff _).mp hw).2.1).trans (Nat.le_of_ble_eq_true rfl),
    (fun h => by cases h), (fun h => by cases h), by decide, by decide, rfl,
    ⟨.i (.stl m d a w o), by simp [rowStl, bv, arg], rfl, rfl, formError_of_wellFormed hw⟩⟩

theorem stp m d a w o : Statement (.stp m d a w o) := by
  intro r m' v' h hw
  cases h
  exact ⟨List.mem_of_getElem? (i := 70) rfl, by simp [fits, rowStp, d.isLt, a.isLt, widthCode_lt w, o.isLt],
      (fun h => by cases h), (encodePfx_length ((wellFormed_iff _).mp hw).2.1).trans (Nat.le_of_ble_eq_true rfl),
    (fun h => by cases h), (fun h => by cases h), by decide, by decide, rfl,
    ⟨.i (.stp m d a w o), by simp [rowStp, bv, arg], rfl, rfl, formError_of_wellFormed hw⟩⟩

theorem stg m d a w o : Statement (.stg m d a w o) := by
  intro r m' v' h hw
  cases h
  exact ⟨List.mem_of_getElem? (i := 71) rfl, by simp [fits, rowStg, d.isLt, a.isLt, widthCode_lt w, o.isLt],
      (fun h => by cases h), (encodePfx_length ((wellFormed_iff _).mp hw).2.1).trans (Nat.le_of_ble_eq_true rfl),
    (fun h => by cases h), (fun h => by cases h), by decide, by decide, rfl,
    ⟨.i (.stg m d a w o), by simp [rowStg, bv, arg], rfl, rfl, formError_of_wellFormed hw⟩⟩

theorem pfg m a k : Statement (.pfg m a k) := by
  intro r m' v' h hw
  cases h
  exact ⟨List.mem_of_getElem? (i := 72) rfl, by simp [fits, rowPfg, a.isLt, k.isLt], (fun h => by cases h),
      (encodePfx_length ((wellFormed_iff _).mp hw).2.1).trans (Nat.le_of_ble_eq_true rfl),
    (fun h => by cases h), (fun h => by cases h), by decide, by decide, rfl,
    ⟨.i (.pfg m a k), by simp [rowPfg, bv, arg], rfl, rfl, formError_of_wellFormed hw⟩⟩

theorem l1inv m a k : Statement (.l1inv m a k) := by
  intro r m' v' h hw
  cases h
  exact ⟨List.mem_of_getElem? (i := 73) rfl, by simp [fits, rowL1inv, a.isLt, k.isLt], (fun h => by cases h),
      (encodePfx_length ((wellFormed_iff _).mp hw).2.1).trans (Nat.le_of_ble_eq_true rfl),
    (fun h => by cases h), (fun h => by cases h), by decide, by decide, rfl,
    ⟨.i (.l1inv m a k), by simp [rowL1inv, bv, arg], rfl, rfl, formError_of_wellFormed hw⟩⟩

theorem l1invAll m : Statement (.l1invAll m) := by
  intro r m' v' h hw
  cases h
  exact ⟨List.mem_of_getElem? (i := 74) rfl, rfl, (fun h => by cases h),
      (encodePfx_length ((wellFormed_iff _).mp hw).2.1).trans (Nat.le_of_ble_eq_true rfl),
    (fun h => by cases h), (fun h => by cases h), by decide, by decide, rfl,
    ⟨.i (.l1invAll m), rfl, rfl, rfl, formError_of_wellFormed hw⟩⟩

theorem mark m : Statement (.mark m) := by
  intro r m' v' h hw
  cases h
  exact ⟨List.mem_of_getElem? (i := 75) rfl, rfl, (fun h => by cases h),
      (encodePfx_length ((wellFormed_iff _).mp hw).2.1).trans (Nat.le_of_ble_eq_true rfl),
    (fun h => by cases h), (fun h => by cases h), by decide, by decide, rfl,
    ⟨.i (.mark m), rfl, rfl, rfl, formError_of_wellFormed hw⟩⟩

theorem fence m : Statement (.fence m) := by
  intro r m' v' h hw
  cases h
  exact ⟨List.mem_of_getElem? (i := 76) rfl, rfl, (fun h => by cases h),
      (encodePfx_length ((wellFormed_iff _).mp hw).2.1).trans (Nat.le_of_ble_eq_true rfl),
    (fun h => by cases h), (fun h => by cases h), by decide, by decide, rfl,
    ⟨.i (.fence m), rfl, rfl, rfl, formError_of_wellFormed hw⟩⟩

theorem qfence m a k : Statement (.qfence m a k) := by
  intro r m' v' h hw
  cases h
  exact ⟨List.mem_of_getElem? (i := 77) rfl, by simp [fits, rowQfence, a.isLt, k.isLt], (fun h => by cases h),
      (encodePfx_length ((wellFormed_iff _).mp hw).2.1).trans (Nat.le_of_ble_eq_true rfl),
    (fun h => by cases h), (fun h => by cases h), by decide, by decide, rfl,
    ⟨.i (.qfence m a k), by simp [rowQfence, bv, arg], rfl, rfl, formError_of_wellFormed hw⟩⟩

theorem tkpush n : Statement (.tkpush n) := by
  intro r m' v' h hw
  cases h
  exact ⟨List.mem_of_getElem? (i := 82) rfl, by simp [fits, rowTkpush, n.isLt], (fun _ => rfl), by decide,
    (fun _ => rfl), (fun _ => rfl), by decide, by decide, rfl,
    ⟨.i (.tkpush n), by simp [rowTkpush, bv, arg], rfl, rfl, formError_of_wellFormed hw⟩⟩

theorem tkpop n : Statement (.tkpop n) := by
  intro r m' v' h hw
  cases h
  exact ⟨List.mem_of_getElem? (i := 83) rfl, by simp [fits, rowTkpop, n.isLt], (fun _ => rfl), by decide,
    (fun _ => rfl), (fun _ => rfl), by decide, by decide, rfl,
    ⟨.i (.tkpop n), by simp [rowTkpop, bv, arg], rfl, rfl, formError_of_wellFormed hw⟩⟩

theorem barinit m a b : Statement (.barinit m a b) := by
  intro r m' v' h hw
  cases h
  exact ⟨List.mem_of_getElem? (i := 84) rfl, by simp [fits, rowBarinit, a.isLt, b.isLt],
      (fun _ => ((wellFormed_iff _).mp hw).2.2.1 rfl),
      (encodePfx_length ((wellFormed_iff _).mp hw).2.1).trans (Nat.le_of_ble_eq_true rfl),
    (fun h => by cases h), (fun h => by cases h), by decide, by decide, rfl,
    ⟨.i (.barinit m a b), by simp [rowBarinit, bv, arg], rfl, rfl, formError_of_wellFormed hw⟩⟩

theorem bararr m d a b : Statement (.bararr m d a b) := by
  intro r m' v' h hw
  cases h
  exact ⟨List.mem_of_getElem? (i := 85) rfl, by simp [fits, rowBararr, d.isLt, a.isLt, b.isLt],
      (fun _ => ((wellFormed_iff _).mp hw).2.2.1 rfl),
      (encodePfx_length ((wellFormed_iff _).mp hw).2.1).trans (Nat.le_of_ble_eq_true rfl),
    (fun h => by cases h), (fun h => by cases h), by decide, by decide, rfl,
    ⟨.i (.bararr m d a b), by simp [rowBararr, bv, arg], rfl, rfl, formError_of_wellFormed hw⟩⟩

theorem barwait m d a b : Statement (.barwait m d a b) := by
  intro r m' v' h hw
  cases h
  exact ⟨List.mem_of_getElem? (i := 86) rfl, by simp [fits, rowBarwait, d.isLt, a.isLt, b.isLt],
      (fun _ => ((wellFormed_iff _).mp hw).2.2.1 rfl),
      (encodePfx_length ((wellFormed_iff _).mp hw).2.1).trans (Nat.le_of_ble_eq_true rfl),
    (fun h => by cases h), (fun h => by cases h), by decide, by decide, rfl,
    ⟨.i (.barwait m d a b), by simp [rowBarwait, bv, arg], rfl, rfl, formError_of_wellFormed hw⟩⟩

theorem vldl m q a b nb k : Statement (.vldl m q a b nb k) := by
  intro r m' v' h hw
  cases h
  exact ⟨List.mem_of_getElem? (i := 1) rfl, by simp [fits, rowVldl, q.isLt, a.isLt, xOrBkCode_lt b, nb.isLt, k.isLt],
      (fun h => by cases h), (encodePfx_length ((wellFormed_iff _).mp hw).2.1).trans (Nat.le_of_ble_eq_true rfl),
    (fun h => by cases h), (fun h => by cases h), by decide, by decide, rfl,
    ⟨.i (.vldl m q a b nb k), by simp [rowVldl, bv, arg], rfl, rfl, formError_of_wellFormed hw⟩⟩

theorem vldp m q a b nb k : Statement (.vldp m q a b nb k) := by
  intro r m' v' h hw
  cases h
  exact ⟨List.mem_of_getElem? (i := 2) rfl, by simp [fits, rowVldp, q.isLt, a.isLt, xOrBkCode_lt b, nb.isLt, k.isLt],
      (fun h => by cases h), (encodePfx_length ((wellFormed_iff _).mp hw).2.1).trans (Nat.le_of_ble_eq_true rfl),
    (fun h => by cases h), (fun h => by cases h), by decide, by decide, rfl,
    ⟨.i (.vldp m q a b nb k), by simp [rowVldp, bv, arg], rfl, rfl, formError_of_wellFormed hw⟩⟩

theorem vldg m q a b nb k : Statement (.vldg m q a b nb k) := by
  intro r m' v' h hw
  cases h
  exact ⟨List.mem_of_getElem? (i := 3) rfl, by simp [fits, rowVldg, q.isLt, a.isLt, xOrBkCode_lt b, nb.isLt, k.isLt],
      (fun h => by cases h), (encodePfx_length ((wellFormed_iff _).mp hw).2.1).trans (Nat.le_of_ble_eq_true rfl),
    (fun h => by cases h), (fun h => by cases h), by decide, by decide, rfl,
    ⟨.i (.vldg m q a b nb k), by simp [rowVldg, bv, arg], rfl, rfl, formError_of_wellFormed hw⟩⟩

theorem vstl m q a b nb k : Statement (.vstl m q a b nb k) := by
  intro r m' v' h hw
  cases h
  exact ⟨List.mem_of_getElem? (i := 4) rfl, by simp [fits, rowVstl, q.isLt, a.isLt, b.isLt, nb.isLt, k.isLt],
      (fun h => by cases h), (encodePfx_length ((wellFormed_iff _).mp hw).2.1).trans (Nat.le_of_ble_eq_true rfl),
    (fun h => by cases h), (fun h => by cases h), by decide, by decide, rfl,
    ⟨.i (.vstl m q a b nb k), by simp [rowVstl, bv, arg], rfl, rfl, formError_of_wellFormed hw⟩⟩

theorem vstp m q a b nb k : Statement (.vstp m q a b nb k) := by
  intro r m' v' h hw
  cases h
  exact ⟨List.mem_of_getElem? (i := 5) rfl, by simp [fits, rowVstp, q.isLt, a.isLt, b.isLt, nb.isLt, k.isLt],
      (fun h => by cases h), (encodePfx_length ((wellFormed_iff _).mp hw).2.1).trans (Nat.le_of_ble_eq_true rfl),
    (fun h => by cases h), (fun h => by cases h), by decide, by decide, rfl,
    ⟨.i (.vstp m q a b nb k), by simp [rowVstp, bv, arg], rfl, rfl, formError_of_wellFormed hw⟩⟩

theorem vstg m q a b nb k : Statement (.vstg m q a b nb k) := by
  intro r m' v' h hw
  cases h
  exact ⟨List.mem_of_getElem? (i := 6) rfl, by simp [fits, rowVstg, q.isLt, a.isLt, b.isLt, nb.isLt, k.isLt],
      (fun h => by cases h), (encodePfx_length ((wellFormed_iff _).mp hw).2.1).trans (Nat.le_of_ble_eq_true rfl),
    (fun h => by cases h), (fun h => by cases h), by decide, by decide, rfl,
    ⟨.i (.vstg m q a b nb k), by simp [rowVstg, bv, arg], rfl, rfl, formError_of_wellFormed hw⟩⟩

theorem vgl m q a b e n : Statement (.vgl m q a b e n) := by
  intro r m' v' h hw
  cases h
  exact ⟨List.mem_of_getElem? (i := 7) rfl, by simp [fits, rowVgl, q.isLt, a.isLt, b.isLt, widthCode_lt e, n.isLt],
      (fun h => by cases h), (encodePfx_length ((wellFormed_iff _).mp hw).2.1).trans (Nat.le_of_ble_eq_true rfl),
    (fun h => by cases h), (fun h => by cases h), by decide, by decide, rfl,
    ⟨.i (.vgl m q a b e n), by simp [rowVgl, bv, arg], rfl, rfl, formError_of_wellFormed hw⟩⟩

theorem vgg m q a b e n : Statement (.vgg m q a b e n) := by
  intro r m' v' h hw
  cases h
  exact ⟨List.mem_of_getElem? (i := 8) rfl, by simp [fits, rowVgg, q.isLt, a.isLt, b.isLt, widthCode_lt e, n.isLt],
      (fun h => by cases h), (encodePfx_length ((wellFormed_iff _).mp hw).2.1).trans (Nat.le_of_ble_eq_true rfl),
    (fun h => by cases h), (fun h => by cases h), by decide, by decide, rfl,
    ⟨.i (.vgg m q a b e n), by simp [rowVgg, bv, arg], rfl, rfl, formError_of_wellFormed hw⟩⟩

theorem vsl m q a b e n : Statement (.vsl m q a b e n) := by
  intro r m' v' h hw
  cases h
  exact ⟨List.mem_of_getElem? (i := 9) rfl, by simp [fits, rowVsl, q.isLt, a.isLt, b.isLt, widthCode_lt e, n.isLt],
      (fun h => by cases h), (encodePfx_length ((wellFormed_iff _).mp hw).2.1).trans (Nat.le_of_ble_eq_true rfl),
    (fun h => by cases h), (fun h => by cases h), by decide, by decide, rfl,
    ⟨.i (.vsl m q a b e n), by simp [rowVsl, bv, arg], rfl, rfl, formError_of_wellFormed hw⟩⟩

theorem vsg m q a b e n : Statement (.vsg m q a b e n) := by
  intro r m' v' h hw
  cases h
  exact ⟨List.mem_of_getElem? (i := 10) rfl, by simp [fits, rowVsg, q.isLt, a.isLt, b.isLt, widthCode_lt e, n.isLt],
      (fun h => by cases h), (encodePfx_length ((wellFormed_iff _).mp hw).2.1).trans (Nat.le_of_ble_eq_true rfl),
    (fun h => by cases h), (fun h => by cases h), by decide, by decide, rfl,
    ⟨.i (.vsg m q a b e n), by simp [rowVsg, bv, arg], rfl, rfl, formError_of_wellFormed hw⟩⟩

theorem aadd m d a b w k : Statement (.aadd m d a b w k) := by
  intro r m' v' h hw
  cases h
  exact ⟨List.mem_of_getElem? (i := 11) rfl, by simp [fits, rowAadd, d.isLt, a.isLt, b.isLt, aSizeCode_lt w, k.isLt],
      (fun _ => ((wellFormed_iff _).mp hw).2.2.1 rfl),
      (encodePfx_length ((wellFormed_iff _).mp hw).2.1).trans (Nat.le_of_ble_eq_true rfl),
    (fun h => by cases h), (fun h => by cases h), by decide, by decide, rfl,
    ⟨.i (.aadd m d a b w k), by simp [rowAadd, bv, arg], rfl, rfl, formError_of_wellFormed hw⟩⟩

theorem aand m d a b w k : Statement (.aand m d a b w k) := by
  intro r m' v' h hw
  cases h
  exact ⟨List.mem_of_getElem? (i := 12) rfl, by simp [fits, rowAand, d.isLt, a.isLt, b.isLt, aSizeCode_lt w, k.isLt],
      (fun _ => ((wellFormed_iff _).mp hw).2.2.1 rfl),
      (encodePfx_length ((wellFormed_iff _).mp hw).2.1).trans (Nat.le_of_ble_eq_true rfl),
    (fun h => by cases h), (fun h => by cases h), by decide, by decide, rfl,
    ⟨.i (.aand m d a b w k), by simp [rowAand, bv, arg], rfl, rfl, formError_of_wellFormed hw⟩⟩

theorem aor m d a b w k : Statement (.aor m d a b w k) := by
  intro r m' v' h hw
  cases h
  exact ⟨List.mem_of_getElem? (i := 13) rfl, by simp [fits, rowAor, d.isLt, a.isLt, b.isLt, aSizeCode_lt w, k.isLt],
      (fun _ => ((wellFormed_iff _).mp hw).2.2.1 rfl),
      (encodePfx_length ((wellFormed_iff _).mp hw).2.1).trans (Nat.le_of_ble_eq_true rfl),
    (fun h => by cases h), (fun h => by cases h), by decide, by decide, rfl,
    ⟨.i (.aor m d a b w k), by simp [rowAor, bv, arg], rfl, rfl, formError_of_wellFormed hw⟩⟩

theorem axor m d a b w k : Statement (.axor m d a b w k) := by
  intro r m' v' h hw
  cases h
  exact ⟨List.mem_of_getElem? (i := 14) rfl, by simp [fits, rowAxor, d.isLt, a.isLt, b.isLt, aSizeCode_lt w, k.isLt],
      (fun _ => ((wellFormed_iff _).mp hw).2.2.1 rfl),
      (encodePfx_length ((wellFormed_iff _).mp hw).2.1).trans (Nat.le_of_ble_eq_true rfl),
    (fun h => by cases h), (fun h => by cases h), by decide, by decide, rfl,
    ⟨.i (.axor m d a b w k), by simp [rowAxor, bv, arg], rfl, rfl, formError_of_wellFormed hw⟩⟩

theorem amin m d a b u w k : Statement (.amin m d a b u w k) := by
  intro r m' v' h hw
  cases h
  exact ⟨List.mem_of_getElem? (i := 15) rfl,
      by simp [fits, rowAmin, d.isLt, a.isLt, b.isLt, u.isLt, aSizeCode_lt w, k.isLt],
      (fun _ => ((wellFormed_iff _).mp hw).2.2.1 rfl),
      (encodePfx_length ((wellFormed_iff _).mp hw).2.1).trans (Nat.le_of_ble_eq_true rfl),
    (fun h => by cases h), (fun h => by cases h), by decide, by decide, rfl,
    ⟨.i (.amin m d a b u w k), by simp [rowAmin, bv, arg], rfl, rfl, formError_of_wellFormed hw⟩⟩

theorem amax m d a b u w k : Statement (.amax m d a b u w k) := by
  intro r m' v' h hw
  cases h
  exact ⟨List.mem_of_getElem? (i := 16) rfl,
      by simp [fits, rowAmax, d.isLt, a.isLt, b.isLt, u.isLt, aSizeCode_lt w, k.isLt],
      (fun _ => ((wellFormed_iff _).mp hw).2.2.1 rfl),
      (encodePfx_length ((wellFormed_iff _).mp hw).2.1).trans (Nat.le_of_ble_eq_true rfl),
    (fun h => by cases h), (fun h => by cases h), by decide, by decide, rfl,
    ⟨.i (.amax m d a b u w k), by simp [rowAmax, bv, arg], rfl, rfl, formError_of_wellFormed hw⟩⟩

theorem aswp m d a b w k : Statement (.aswp m d a b w k) := by
  intro r m' v' h hw
  cases h
  exact ⟨List.mem_of_getElem? (i := 17) rfl, by simp [fits, rowAswp, d.isLt, a.isLt, b.isLt, aSizeCode_lt w, k.isLt],
      (fun _ => ((wellFormed_iff _).mp hw).2.2.1 rfl),
      (encodePfx_length ((wellFormed_iff _).mp hw).2.1).trans (Nat.le_of_ble_eq_true rfl),
    (fun h => by cases h), (fun h => by cases h), by decide, by decide, rfl,
    ⟨.i (.aswp m d a b w k), by simp [rowAswp, bv, arg], rfl, rfl, formError_of_wellFormed hw⟩⟩

theorem acas m d a b c w k : Statement (.acas m d a b c w k) := by
  intro r m' v' h hw
  cases h
  exact ⟨List.mem_of_getElem? (i := 18) rfl,
      by simp [fits, rowAcas, d.isLt, a.isLt, b.isLt, c.isLt, aSizeCode_lt w, k.isLt],
      (fun _ => ((wellFormed_iff _).mp hw).2.2.1 rfl),
      (encodePfx_length ((wellFormed_iff _).mp hw).2.1).trans (Nat.le_of_ble_eq_true rfl),
    (fun h => by cases h), (fun h => by cases h), by decide, by decide, rfl,
    ⟨.i (.acas m d a b c w k), by simp [rowAcas, bv, arg], rfl, rfl, formError_of_wellFormed hw⟩⟩

theorem afadd m d a b w k : Statement (.afadd m d a b w k) := by
  intro r m' v' h hw
  cases h
  exact ⟨List.mem_of_getElem? (i := 19) rfl, by simp [fits, rowAfadd, d.isLt, a.isLt, b.isLt, aSizeCode_lt w, k.isLt],
      (fun _ => ((wellFormed_iff _).mp hw).2.2.1 rfl),
      (encodePfx_length ((wellFormed_iff _).mp hw).2.1).trans (Nat.le_of_ble_eq_true rfl),
    (fun h => by cases h), (fun h => by cases h), by decide, by decide, rfl,
    ⟨.i (.afadd m d a b w k), by simp [rowAfadd, bv, arg], rfl, rfl, formError_of_wellFormed hw⟩⟩

theorem abinc m d a b w k : Statement (.abinc m d a b w k) := by
  intro r m' v' h hw
  cases h
  exact ⟨List.mem_of_getElem? (i := 20) rfl, by simp [fits, rowAbinc, d.isLt, a.isLt, b.isLt, aSizeCode_lt w, k.isLt],
      (fun _ => ((wellFormed_iff _).mp hw).2.2.1 rfl),
      (encodePfx_length ((wellFormed_iff _).mp hw).2.1).trans (Nat.le_of_ble_eq_true rfl),
    (fun h => by cases h), (fun h => by cases h), by decide, by decide, rfl,
    ⟨.i (.abinc m d a b w k), by simp [rowAbinc, bv, arg], rfl, rfl, formError_of_wellFormed hw⟩⟩

theorem alrb m a k : Statement (.alrb m a k) := by
  intro r m' v' h hw
  cases h
  exact ⟨List.mem_of_getElem? (i := 21) rfl, by simp [fits, rowAlrb, a.isLt, k.isLt],
      (fun _ => ((wellFormed_iff _).mp hw).2.2.1 rfl),
      (encodePfx_length ((wellFormed_iff _).mp hw).2.1).trans (Nat.le_of_ble_eq_true rfl),
    (fun h => by cases h), (fun h => by cases h), by decide, by decide, rfl,
    ⟨.i (.alrb m a k), by simp [rowAlrb, bv, arg], rfl, rfl, formError_of_wellFormed hw⟩⟩

theorem alrl m d a z w o : Statement (.alrl m d a z w o) := by
  intro r m' v' h hw
  cases h
  exact ⟨List.mem_of_getElem? (i := 22) rfl, by simp [fits, rowAlrl, d.isLt, a.isLt, z.isLt, widthCode_lt w, o.isLt],
      (fun _ => ((wellFormed_iff _).mp hw).2.2.1 rfl),
      (encodePfx_length ((wellFormed_iff _).mp hw).2.1).trans (Nat.le_of_ble_eq_true rfl),
    (fun h => by cases h), (fun h => by cases h), by decide, by decide, rfl,
    ⟨.i (.alrl m d a z w o), by simp [rowAlrl, bv, arg], rfl, rfl, formError_of_wellFormed hw⟩⟩

theorem alrs m a b w o : Statement (.alrs m a b w o) := by
  intro r m' v' h hw
  cases h
  exact ⟨List.mem_of_getElem? (i := 23) rfl, by simp [fits, rowAlrs, a.isLt, b.isLt, widthCode_lt w, o.isLt],
      (fun _ => ((wellFormed_iff _).mp hw).2.2.1 rfl),
      (encodePfx_length ((wellFormed_iff _).mp hw).2.1).trans (Nat.le_of_ble_eq_true rfl),
    (fun h => by cases h), (fun h => by cases h), by decide, by decide, rfl,
    ⟨.i (.alrs m a b w o), by simp [rowAlrs, bv, arg], rfl, rfl, formError_of_wellFormed hw⟩⟩

theorem alrc m d : Statement (.alrc m d) := by
  intro r m' v' h hw
  cases h
  exact ⟨List.mem_of_getElem? (i := 24) rfl, by simp [fits, rowAlrc, d.isLt],
      (fun _ => ((wellFormed_iff _).mp hw).2.2.1 rfl),
      (encodePfx_length ((wellFormed_iff _).mp hw).2.1).trans (Nat.le_of_ble_eq_true rfl),
    (fun h => by cases h), (fun h => by cases h), by decide, by decide, rfl,
    ⟨.i (.alrc m d), by simp [rowAlrc, bv, arg], rfl, rfl, formError_of_wellFormed hw⟩⟩

theorem vaddC m d a b e : Statement (.vaddC m d a b e) := by
  intro r m' v' h hw
  cases h
  exact ⟨List.mem_of_getElem? (i := 87) rfl, by simp [fits, rowVaddC, d.isLt, a.isLt, b.isLt, e.isLt],
      (fun h => by cases h), (encodePfx_length ((wellFormed_iff _).mp hw).2.1).trans (Nat.le_of_ble_eq_true rfl),
    (fun h => by cases h), (fun h => by cases h), by decide, by decide, rfl,
    ⟨.i (.vaddC m d a b e), by simp [rowVaddC, bv, arg], rfl, rfl, formError_of_wellFormed hw⟩⟩

theorem vsubC m d a b e : Statement (.vsubC m d a b e) := by
  intro r m' v' h hw
  cases h
  exact ⟨List.mem_of_getElem? (i := 88) rfl, by simp [fits, rowVsubC, d.isLt, a.isLt, b.isLt, e.isLt],
      (fun h => by cases h), (encodePfx_length ((wellFormed_iff _).mp hw).2.1).trans (Nat.le_of_ble_eq_true rfl),
    (fun h => by cases h), (fun h => by cases h), by decide, by decide, rfl,
    ⟨.i (.vsubC m d a b e), by simp [rowVsubC, bv, arg], rfl, rfl, formError_of_wellFormed hw⟩⟩

theorem vmulC m d a b e : Statement (.vmulC m d a b e) := by
  intro r m' v' h hw
  cases h
  exact ⟨List.mem_of_getElem? (i := 89) rfl, by simp [fits, rowVmulC, d.isLt, a.isLt, b.isLt, e.isLt],
      (fun h => by cases h), (encodePfx_length ((wellFormed_iff _).mp hw).2.1).trans (Nat.le_of_ble_eq_true rfl),
    (fun h => by cases h), (fun h => by cases h), by decide, by decide, rfl,
    ⟨.i (.vmulC m d a b e), by simp [rowVmulC, bv, arg], rfl, rfl, formError_of_wellFormed hw⟩⟩

theorem vandC m d a b e : Statement (.vandC m d a b e) := by
  intro r m' v' h hw
  cases h
  exact ⟨List.mem_of_getElem? (i := 90) rfl, by simp [fits, rowVandC, d.isLt, a.isLt, b.isLt, e.isLt],
      (fun h => by cases h), (encodePfx_length ((wellFormed_iff _).mp hw).2.1).trans (Nat.le_of_ble_eq_true rfl),
    (fun h => by cases h), (fun h => by cases h), by decide, by decide, rfl,
    ⟨.i (.vandC m d a b e), by simp [rowVandC, bv, arg], rfl, rfl, formError_of_wellFormed hw⟩⟩

theorem vorC m d a b e : Statement (.vorC m d a b e) := by
  intro r m' v' h hw
  cases h
  exact ⟨List.mem_of_getElem? (i := 91) rfl, by simp [fits, rowVorC, d.isLt, a.isLt, b.isLt, e.isLt],
      (fun h => by cases h), (encodePfx_length ((wellFormed_iff _).mp hw).2.1).trans (Nat.le_of_ble_eq_true rfl),
    (fun h => by cases h), (fun h => by cases h), by decide, by decide, rfl,
    ⟨.i (.vorC m d a b e), by simp [rowVorC, bv, arg], rfl, rfl, formError_of_wellFormed hw⟩⟩

theorem vxorC m d a b e : Statement (.vxorC m d a b e) := by
  intro r m' v' h hw
  cases h
  exact ⟨List.mem_of_getElem? (i := 92) rfl, by simp [fits, rowVxorC, d.isLt, a.isLt, b.isLt, e.isLt],
      (fun h => by cases h), (encodePfx_length ((wellFormed_iff _).mp hw).2.1).trans (Nat.le_of_ble_eq_true rfl),
    (fun h => by cases h), (fun h => by cases h), by decide, by decide, rfl,
    ⟨.i (.vxorC m d a b e), by simp [rowVxorC, bv, arg], rfl, rfl, formError_of_wellFormed hw⟩⟩

theorem vminC m d a b e : Statement (.vminC m d a b e) := by
  intro r m' v' h hw
  cases h
  exact ⟨List.mem_of_getElem? (i := 93) rfl, by simp [fits, rowVminC, d.isLt, a.isLt, b.isLt, e.isLt],
      (fun h => by cases h), (encodePfx_length ((wellFormed_iff _).mp hw).2.1).trans (Nat.le_of_ble_eq_true rfl),
    (fun h => by cases h), (fun h => by cases h), by decide, by decide, rfl,
    ⟨.i (.vminC m d a b e), by simp [rowVminC, bv, arg], rfl, rfl, formError_of_wellFormed hw⟩⟩

theorem vmaxC m d a b e : Statement (.vmaxC m d a b e) := by
  intro r m' v' h hw
  cases h
  exact ⟨List.mem_of_getElem? (i := 94) rfl, by simp [fits, rowVmaxC, d.isLt, a.isLt, b.isLt, e.isLt],
      (fun h => by cases h), (encodePfx_length ((wellFormed_iff _).mp hw).2.1).trans (Nat.le_of_ble_eq_true rfl),
    (fun h => by cases h), (fun h => by cases h), by decide, by decide, rfl,
    ⟨.i (.vmaxC m d a b e), by simp [rowVmaxC, bv, arg], rfl, rfl, formError_of_wellFormed hw⟩⟩

theorem vfaddC m d a b e : Statement (.vfaddC m d a b e) := by
  intro r m' v' h hw
  cases h
  exact ⟨List.mem_of_getElem? (i := 95) rfl, by simp [fits, rowVfaddC, d.isLt, a.isLt, b.isLt, cFltCode_lt e],
      (fun h => by cases h), (encodePfx_length ((wellFormed_iff _).mp hw).2.1).trans (Nat.le_of_ble_eq_true rfl),
    (fun h => by cases h), (fun h => by cases h), by decide, by decide, rfl,
    ⟨.i (.vfaddC m d a b e), by simp [rowVfaddC, bv, arg], rfl, rfl, formError_of_wellFormed hw⟩⟩

theorem vfsubC m d a b e : Statement (.vfsubC m d a b e) := by
  intro r m' v' h hw
  cases h
  exact ⟨List.mem_of_getElem? (i := 96) rfl, by simp [fits, rowVfsubC, d.isLt, a.isLt, b.isLt, cFltCode_lt e],
      (fun h => by cases h), (encodePfx_length ((wellFormed_iff _).mp hw).2.1).trans (Nat.le_of_ble_eq_true rfl),
    (fun h => by cases h), (fun h => by cases h), by decide, by decide, rfl,
    ⟨.i (.vfsubC m d a b e), by simp [rowVfsubC, bv, arg], rfl, rfl, formError_of_wellFormed hw⟩⟩

theorem vfmulC m d a b e : Statement (.vfmulC m d a b e) := by
  intro r m' v' h hw
  cases h
  exact ⟨List.mem_of_getElem? (i := 97) rfl, by simp [fits, rowVfmulC, d.isLt, a.isLt, b.isLt, cFltCode_lt e],
      (fun h => by cases h), (encodePfx_length ((wellFormed_iff _).mp hw).2.1).trans (Nat.le_of_ble_eq_true rfl),
    (fun h => by cases h), (fun h => by cases h), by decide, by decide, rfl,
    ⟨.i (.vfmulC m d a b e), by simp [rowVfmulC, bv, arg], rfl, rfl, formError_of_wellFormed hw⟩⟩

theorem vfminC m d a b e : Statement (.vfminC m d a b e) := by
  intro r m' v' h hw
  cases h
  exact ⟨List.mem_of_getElem? (i := 98) rfl, by simp [fits, rowVfminC, d.isLt, a.isLt, b.isLt, cFltCode_lt e],
      (fun h => by cases h), (encodePfx_length ((wellFormed_iff _).mp hw).2.1).trans (Nat.le_of_ble_eq_true rfl),
    (fun h => by cases h), (fun h => by cases h), by decide, by decide, rfl,
    ⟨.i (.vfminC m d a b e), by simp [rowVfminC, bv, arg], rfl, rfl, formError_of_wellFormed hw⟩⟩

theorem vfmaxC m d a b e : Statement (.vfmaxC m d a b e) := by
  intro r m' v' h hw
  cases h
  exact ⟨List.mem_of_getElem? (i := 99) rfl, by simp [fits, rowVfmaxC, d.isLt, a.isLt, b.isLt, cFltCode_lt e],
      (fun h => by cases h), (encodePfx_length ((wellFormed_iff _).mp hw).2.1).trans (Nat.le_of_ble_eq_true rfl),
    (fun h => by cases h), (fun h => by cases h), by decide, by decide, rfl,
    ⟨.i (.vfmaxC m d a b e), by simp [rowVfmaxC, bv, arg], rfl, rfl, formError_of_wellFormed hw⟩⟩

theorem vadd m d a b u et : Statement (.vadd m d a b u et) := by
  intro r m' v' h hw
  cases h
  exact ⟨List.mem_of_getElem? (i := 25) rfl,
      by simp [fits, rowVadd, vdstCode_lt d, vsrcCode_lt a, vsrcCode_lt b, u.isLt, intEtCode_lt et],
      (fun h => by cases h), (encodePfx_length ((wellFormed_iff _).mp hw).2.1).trans (Nat.le_of_ble_eq_true rfl),
    (fun h => by cases h), (fun h => by cases h), by decide, by decide, rfl,
    ⟨.i (.vadd m d a b u et), by simp [rowVadd, bv, arg], rfl, rfl, formError_of_wellFormed hw⟩⟩

theorem vsub m d a b u et : Statement (.vsub m d a b u et) := by
  intro r m' v' h hw
  cases h
  exact ⟨List.mem_of_getElem? (i := 26) rfl,
      by simp [fits, rowVsub, vdstCode_lt d, vsrcCode_lt a, vsrcCode_lt b, u.isLt, intEtCode_lt et],
      (fun h => by cases h), (encodePfx_length ((wellFormed_iff _).mp hw).2.1).trans (Nat.le_of_ble_eq_true rfl),
    (fun h => by cases h), (fun h => by cases h), by decide, by decide, rfl,
    ⟨.i (.vsub m d a b u et), by simp [rowVsub, bv, arg], rfl, rfl, formError_of_wellFormed hw⟩⟩

theorem vmul m d a b u et : Statement (.vmul m d a b u et) := by
  intro r m' v' h hw
  cases h
  exact ⟨List.mem_of_getElem? (i := 27) rfl,
      by simp [fits, rowVmul, vdstCode_lt d, vsrcCode_lt a, vsrcCode_lt b, u.isLt, intEtCode_lt et],
      (fun h => by cases h), (encodePfx_length ((wellFormed_iff _).mp hw).2.1).trans (Nat.le_of_ble_eq_true rfl),
    (fun h => by cases h), (fun h => by cases h), by decide, by decide, rfl,
    ⟨.i (.vmul m d a b u et), by simp [rowVmul, bv, arg], rfl, rfl, formError_of_wellFormed hw⟩⟩

theorem vmulh m d a b u et : Statement (.vmulh m d a b u et) := by
  intro r m' v' h hw
  cases h
  exact ⟨List.mem_of_getElem? (i := 28) rfl,
      by simp [fits, rowVmulh, vdstCode_lt d, vsrcCode_lt a, vsrcCode_lt b, u.isLt, intEtCode_lt et],
      (fun h => by cases h), (encodePfx_length ((wellFormed_iff _).mp hw).2.1).trans (Nat.le_of_ble_eq_true rfl),
    (fun h => by cases h), (fun h => by cases h), by decide, by decide, rfl,
    ⟨.i (.vmulh m d a b u et), by simp [rowVmulh, bv, arg], rfl, rfl, formError_of_wellFormed hw⟩⟩

theorem vmadd m d a b c u et : Statement (.vmadd m d a b c u et) := by
  intro r m' v' h hw
  cases h
  exact ⟨List.mem_of_getElem? (i := 29) rfl,
      by simp [fits, rowVmadd, vdstCode_lt d, vsrcCode_lt a, vsrcCode_lt b, vsrcCode_lt c, u.isLt, intEtCode_lt et],
      (fun h => by cases h), (encodePfx_length ((wellFormed_iff _).mp hw).2.1).trans (Nat.le_of_ble_eq_true rfl),
    (fun h => by cases h), (fun h => by cases h), by decide, by decide, rfl,
    ⟨.i (.vmadd m d a b c u et), by simp [rowVmadd, bv, arg], rfl, rfl, formError_of_wellFormed hw⟩⟩

theorem vmin m d a b u et : Statement (.vmin m d a b u et) := by
  intro r m' v' h hw
  cases h
  exact ⟨List.mem_of_getElem? (i := 30) rfl,
      by simp [fits, rowVmin, vdstCode_lt d, vsrcCode_lt a, vsrcCode_lt b, u.isLt, intEtCode_lt et],
      (fun h => by cases h), (encodePfx_length ((wellFormed_iff _).mp hw).2.1).trans (Nat.le_of_ble_eq_true rfl),
    (fun h => by cases h), (fun h => by cases h), by decide, by decide, rfl,
    ⟨.i (.vmin m d a b u et), by simp [rowVmin, bv, arg], rfl, rfl, formError_of_wellFormed hw⟩⟩

theorem vmax m d a b u et : Statement (.vmax m d a b u et) := by
  intro r m' v' h hw
  cases h
  exact ⟨List.mem_of_getElem? (i := 31) rfl,
      by simp [fits, rowVmax, vdstCode_lt d, vsrcCode_lt a, vsrcCode_lt b, u.isLt, intEtCode_lt et],
      (fun h => by cases h), (encodePfx_length ((wellFormed_iff _).mp hw).2.1).trans (Nat.le_of_ble_eq_true rfl),
    (fun h => by cases h), (fun h => by cases h), by decide, by decide, rfl,
    ⟨.i (.vmax m d a b u et), by simp [rowVmax, bv, arg], rfl, rfl, formError_of_wellFormed hw⟩⟩

theorem vand m d a b u et : Statement (.vand m d a b u et) := by
  intro r m' v' h hw
  cases h
  exact ⟨List.mem_of_getElem? (i := 32) rfl,
      by simp [fits, rowVand, vdstCode_lt d, vsrcCode_lt a, vsrcCode_lt b, u.isLt, intEtCode_lt et],
      (fun h => by cases h), (encodePfx_length ((wellFormed_iff _).mp hw).2.1).trans (Nat.le_of_ble_eq_true rfl),
    (fun h => by cases h), (fun h => by cases h), by decide, by decide, rfl,
    ⟨.i (.vand m d a b u et), by simp [rowVand, bv, arg], rfl, rfl, formError_of_wellFormed hw⟩⟩

theorem vor m d a b u et : Statement (.vor m d a b u et) := by
  intro r m' v' h hw
  cases h
  exact ⟨List.mem_of_getElem? (i := 33) rfl,
      by simp [fits, rowVor, vdstCode_lt d, vsrcCode_lt a, vsrcCode_lt b, u.isLt, intEtCode_lt et],
      (fun h => by cases h), (encodePfx_length ((wellFormed_iff _).mp hw).2.1).trans (Nat.le_of_ble_eq_true rfl),
    (fun h => by cases h), (fun h => by cases h), by decide, by decide, rfl,
    ⟨.i (.vor m d a b u et), by simp [rowVor, bv, arg], rfl, rfl, formError_of_wellFormed hw⟩⟩

theorem vxor m d a b u et : Statement (.vxor m d a b u et) := by
  intro r m' v' h hw
  cases h
  exact ⟨List.mem_of_getElem? (i := 34) rfl,
      by simp [fits, rowVxor, vdstCode_lt d, vsrcCode_lt a, vsrcCode_lt b, u.isLt, intEtCode_lt et],
      (fun h => by cases h), (encodePfx_length ((wellFormed_iff _).mp hw).2.1).trans (Nat.le_of_ble_eq_true rfl),
    (fun h => by cases h), (fun h => by cases h), by decide, by decide, rfl,
    ⟨.i (.vxor m d a b u et), by simp [rowVxor, bv, arg], rfl, rfl, formError_of_wellFormed hw⟩⟩

theorem vshl m d a b u et : Statement (.vshl m d a b u et) := by
  intro r m' v' h hw
  cases h
  exact ⟨List.mem_of_getElem? (i := 35) rfl,
      by simp [fits, rowVshl, vdstCode_lt d, vsrcCode_lt a, vsrcCode_lt b, u.isLt, intEtCode_lt et],
      (fun h => by cases h), (encodePfx_length ((wellFormed_iff _).mp hw).2.1).trans (Nat.le_of_ble_eq_true rfl),
    (fun h => by cases h), (fun h => by cases h), by decide, by decide, rfl,
    ⟨.i (.vshl m d a b u et), by simp [rowVshl, bv, arg], rfl, rfl, formError_of_wellFormed hw⟩⟩

theorem vshr m d a b u et : Statement (.vshr m d a b u et) := by
  intro r m' v' h hw
  cases h
  exact ⟨List.mem_of_getElem? (i := 36) rfl,
      by simp [fits, rowVshr, vdstCode_lt d, vsrcCode_lt a, vsrcCode_lt b, u.isLt, intEtCode_lt et],
      (fun h => by cases h), (encodePfx_length ((wellFormed_iff _).mp hw).2.1).trans (Nat.le_of_ble_eq_true rfl),
    (fun h => by cases h), (fun h => by cases h), by decide, by decide, rfl,
    ⟨.i (.vshr m d a b u et), by simp [rowVshr, bv, arg], rfl, rfl, formError_of_wellFormed hw⟩⟩

theorem vsra m d a b u et : Statement (.vsra m d a b u et) := by
  intro r m' v' h hw
  cases h
  exact ⟨List.mem_of_getElem? (i := 37) rfl,
      by simp [fits, rowVsra, vdstCode_lt d, vsrcCode_lt a, vsrcCode_lt b, u.isLt, intEtCode_lt et],
      (fun h => by cases h), (encodePfx_length ((wellFormed_iff _).mp hw).2.1).trans (Nat.le_of_ble_eq_true rfl),
    (fun h => by cases h), (fun h => by cases h), by decide, by decide, rfl,
    ⟨.i (.vsra m d a b u et), by simp [rowVsra, bv, arg], rfl, rfl, formError_of_wellFormed hw⟩⟩

theorem vabs m d a u et : Statement (.vabs m d a u et) := by
  intro r m' v' h hw
  cases h
  exact ⟨List.mem_of_getElem? (i := 38) rfl,
      by simp [fits, rowVabs, vdstCode_lt d, vsrcCode_lt a, u.isLt, intEtCode_lt et], (fun h => by cases h),
      (encodePfx_length ((wellFormed_iff _).mp hw).2.1).trans (Nat.le_of_ble_eq_true rfl),
    (fun h => by cases h), (fun h => by cases h), by decide, by decide, rfl,
    ⟨.i (.vabs m d a u et), by simp [rowVabs, bv, arg], rfl, rfl, formError_of_wellFormed hw⟩⟩

theorem vneg m d a u et : Statement (.vneg m d a u et) := by
  intro r m' v' h hw
  cases h
  exact ⟨List.mem_of_getElem? (i := 39) rfl,
      by simp [fits, rowVneg, vdstCode_lt d, vsrcCode_lt a, u.isLt, intEtCode_lt et], (fun h => by cases h),
      (encodePfx_length ((wellFormed_iff _).mp hw).2.1).trans (Nat.le_of_ble_eq_true rfl),
    (fun h => by cases h), (fun h => by cases h), by decide, by decide, rfl,
    ⟨.i (.vneg m d a u et), by simp [rowVneg, bv, arg], rfl, rfl, formError_of_wellFormed hw⟩⟩

theorem vcmp m d a b pe pd c u et : Statement (.vcmp m d a b pe pd c u et) := by
  intro r m' v' h hw
  cases h
  exact ⟨List.mem_of_getElem? (i := 40) rfl,
      by simp [fits, rowVcmp, vdstCode_lt d, vsrcCode_lt a, vsrcCode_lt b, pe.isLt, pd.isLt, vCondCode_lt c, u.isLt,
      intEtCode_lt et], (fun h => by cases h),
      (encodePfx_length ((wellFormed_iff _).mp hw).2.1).trans (Nat.le_of_ble_eq_true rfl),
    (fun h => by cases h), (fun h => by cases h), by decide, by decide, rfl,
    ⟨.i (.vcmp m d a b pe pd c u et), by simp [rowVcmp, bv, arg], rfl, rfl, formError_of_wellFormed hw⟩⟩

theorem vsel m d a b c u et : Statement (.vsel m d a b c u et) := by
  intro r m' v' h hw
  cases h
  exact ⟨List.mem_of_getElem? (i := 41) rfl,
      by simp [fits, rowVsel, vdstCode_lt d, vsrcCode_lt a, vsrcCode_lt b, vsrcCode_lt c, u.isLt, intEtCode_lt et],
      (fun h => by cases h), (encodePfx_length ((wellFormed_iff _).mp hw).2.1).trans (Nat.le_of_ble_eq_true rfl),
    (fun h => by cases h), (fun h => by cases h), by decide, by decide, rfl,
    ⟨.i (.vsel m d a b c u et), by simp [rowVsel, bv, arg], rfl, rfl, formError_of_wellFormed hw⟩⟩

theorem vpopc m d a u et : Statement (.vpopc m d a u et) := by
  intro r m' v' h hw
  cases h
  exact ⟨List.mem_of_getElem? (i := 42) rfl,
      by simp [fits, rowVpopc, vdstCode_lt d, vsrcCode_lt a, u.isLt, intEtCode_lt et], (fun h => by cases h),
      (encodePfx_length ((wellFormed_iff _).mp hw).2.1).trans (Nat.le_of_ble_eq_true rfl),
    (fun h => by cases h), (fun h => by cases h), by decide, by decide, rfl,
    ⟨.i (.vpopc m d a u et), by simp [rowVpopc, bv, arg], rfl, rfl, formError_of_wellFormed hw⟩⟩

theorem vfadd m d a b et : Statement (.vfadd m d a b et) := by
  intro r m' v' h hw
  cases h
  exact ⟨List.mem_of_getElem? (i := 43) rfl,
      by simp [fits, rowVfadd, vdstCode_lt d, vsrcCode_lt a, vsrcCode_lt b, fltEtCode_lt et], (fun h => by cases h),
      (encodePfx_length ((wellFormed_iff _).mp hw).2.1).trans (Nat.le_of_ble_eq_true rfl),
    (fun h => by cases h), (fun h => by cases h), by decide, by decide, rfl,
    ⟨.i (.vfadd m d a b et), by simp [rowVfadd, arg], rfl, rfl, formError_of_wellFormed hw⟩⟩

theorem vfsub m d a b et : Statement (.vfsub m d a b et) := by
  intro r m' v' h hw
  cases h
  exact ⟨List.mem_of_getElem? (i := 44) rfl,
      by simp [fits, rowVfsub, vdstCode_lt d, vsrcCode_lt a, vsrcCode_lt b, fltEtCode_lt et], (fun h => by cases h),
      (encodePfx_length ((wellFormed_iff _).mp hw).2.1).trans (Nat.le_of_ble_eq_true rfl),
    (fun h => by cases h), (fun h => by cases h), by decide, by decide, rfl,
    ⟨.i (.vfsub m d a b et), by simp [rowVfsub, arg], rfl, rfl, formError_of_wellFormed hw⟩⟩

theorem vfmul m d a b et : Statement (.vfmul m d a b et) := by
  intro r m' v' h hw
  cases h
  exact ⟨List.mem_of_getElem? (i := 45) rfl,
      by simp [fits, rowVfmul, vdstCode_lt d, vsrcCode_lt a, vsrcCode_lt b, fltEtCode_lt et], (fun h => by cases h),
      (encodePfx_length ((wellFormed_iff _).mp hw).2.1).trans (Nat.le_of_ble_eq_true rfl),
    (fun h => by cases h), (fun h => by cases h), by decide, by decide, rfl,
    ⟨.i (.vfmul m d a b et), by simp [rowVfmul, arg], rfl, rfl, formError_of_wellFormed hw⟩⟩

theorem vfma m d a b c et : Statement (.vfma m d a b c et) := by
  intro r m' v' h hw
  cases h
  exact ⟨List.mem_of_getElem? (i := 46) rfl,
      by simp [fits, rowVfma, vdstCode_lt d, vsrcCode_lt a, vsrcCode_lt b, vsrcCode_lt c, fltEtCode_lt et],
      (fun h => by cases h), (encodePfx_length ((wellFormed_iff _).mp hw).2.1).trans (Nat.le_of_ble_eq_true rfl),
    (fun h => by cases h), (fun h => by cases h), by decide, by decide, rfl,
    ⟨.i (.vfma m d a b c et), by simp [rowVfma, arg], rfl, rfl, formError_of_wellFormed hw⟩⟩

theorem vfmin m d a b et : Statement (.vfmin m d a b et) := by
  intro r m' v' h hw
  cases h
  exact ⟨List.mem_of_getElem? (i := 47) rfl,
      by simp [fits, rowVfmin, vdstCode_lt d, vsrcCode_lt a, vsrcCode_lt b, fltEtCode_lt et], (fun h => by cases h),
      (encodePfx_length ((wellFormed_iff _).mp hw).2.1).trans (Nat.le_of_ble_eq_true rfl),
    (fun h => by cases h), (fun h => by cases h), by decide, by decide, rfl,
    ⟨.i (.vfmin m d a b et), by simp [rowVfmin, arg], rfl, rfl, formError_of_wellFormed hw⟩⟩

theorem vfmax m d a b et : Statement (.vfmax m d a b et) := by
  intro r m' v' h hw
  cases h
  exact ⟨List.mem_of_getElem? (i := 48) rfl,
      by simp [fits, rowVfmax, vdstCode_lt d, vsrcCode_lt a, vsrcCode_lt b, fltEtCode_lt et], (fun h => by cases h),
      (encodePfx_length ((wellFormed_iff _).mp hw).2.1).trans (Nat.le_of_ble_eq_true rfl),
    (fun h => by cases h), (fun h => by cases h), by decide, by decide, rfl,
    ⟨.i (.vfmax m d a b et), by simp [rowVfmax, arg], rfl, rfl, formError_of_wellFormed hw⟩⟩

theorem vfcmp m d a b pe pd c et : Statement (.vfcmp m d a b pe pd c et) := by
  intro r m' v' h hw
  cases h
  exact ⟨List.mem_of_getElem? (i := 49) rfl,
      by simp [fits, rowVfcmp, vdstCode_lt d, vsrcCode_lt a, vsrcCode_lt b, pe.isLt, pd.isLt, fCondCode_lt c,
      fltEtCode_lt et], (fun h => by cases h),
      (encodePfx_length ((wellFormed_iff _).mp hw).2.1).trans (Nat.le_of_ble_eq_true rfl),
    (fun h => by cases h), (fun h => by cases h), by decide, by decide, rfl,
    ⟨.i (.vfcmp m d a b pe pd c et), by simp [rowVfcmp, bv, arg], rfl, rfl, formError_of_wellFormed hw⟩⟩

theorem vfrcp m d a et : Statement (.vfrcp m d a et) := by
  intro r m' v' h hw
  cases h
  exact ⟨List.mem_of_getElem? (i := 50) rfl, by simp [fits, rowVfrcp, vdstCode_lt d, vsrcCode_lt a, fltEt3Code_lt et],
      (fun h => by cases h), (encodePfx_length ((wellFormed_iff _).mp hw).2.1).trans (Nat.le_of_ble_eq_true rfl),
    (fun h => by cases h), (fun h => by cases h), by decide, by decide, rfl,
    ⟨.i (.vfrcp m d a et), by simp [rowVfrcp, arg], rfl, rfl, formError_of_wellFormed hw⟩⟩

theorem vfrsq m d a et : Statement (.vfrsq m d a et) := by
  intro r m' v' h hw
  cases h
  exact ⟨List.mem_of_getElem? (i := 51) rfl, by simp [fits, rowVfrsq, vdstCode_lt d, vsrcCode_lt a, fltEt3Code_lt et],
      (fun h => by cases h), (encodePfx_length ((wellFormed_iff _).mp hw).2.1).trans (Nat.le_of_ble_eq_true rfl),
    (fun h => by cases h), (fun h => by cases h), by decide, by decide, rfl,
    ⟨.i (.vfrsq m d a et), by simp [rowVfrsq, arg], rfl, rfl, formError_of_wellFormed hw⟩⟩

theorem vfexp2 m d a et : Statement (.vfexp2 m d a et) := by
  intro r m' v' h hw
  cases h
  exact ⟨List.mem_of_getElem? (i := 52) rfl,
      by simp [fits, rowVfexp2, vdstCode_lt d, vsrcCode_lt a, fltEt3Code_lt et], (fun h => by cases h),
      (encodePfx_length ((wellFormed_iff _).mp hw).2.1).trans (Nat.le_of_ble_eq_true rfl),
    (fun h => by cases h), (fun h => by cases h), by decide, by decide, rfl,
    ⟨.i (.vfexp2 m d a et), by simp [rowVfexp2, arg], rfl, rfl, formError_of_wellFormed hw⟩⟩

theorem vflog2 m d a et : Statement (.vflog2 m d a et) := by
  intro r m' v' h hw
  cases h
  exact ⟨List.mem_of_getElem? (i := 53) rfl,
      by simp [fits, rowVflog2, vdstCode_lt d, vsrcCode_lt a, fltEt3Code_lt et], (fun h => by cases h),
      (encodePfx_length ((wellFormed_iff _).mp hw).2.1).trans (Nat.le_of_ble_eq_true rfl),
    (fun h => by cases h), (fun h => by cases h), by decide, by decide, rfl,
    ⟨.i (.vflog2 m d a et), by simp [rowVflog2, arg], rfl, rfl, formError_of_wellFormed hw⟩⟩

theorem vftanh m d a et : Statement (.vftanh m d a et) := by
  intro r m' v' h hw
  cases h
  exact ⟨List.mem_of_getElem? (i := 54) rfl,
      by simp [fits, rowVftanh, vdstCode_lt d, vsrcCode_lt a, fltEt3Code_lt et], (fun h => by cases h),
      (encodePfx_length ((wellFormed_iff _).mp hw).2.1).trans (Nat.le_of_ble_eq_true rfl),
    (fun h => by cases h), (fun h => by cases h), by decide, by decide, rfl,
    ⟨.i (.vftanh m d a et), by simp [rowVftanh, arg], rfl, rfl, formError_of_wellFormed hw⟩⟩

theorem vcvt m d a k sf tf : Statement (.vcvt m d a k sf tf) := by
  intro r m' v' h hw
  cases h
  exact ⟨List.mem_of_getElem? (i := 55) rfl,
      by simp [fits, rowVcvt, vdstCode_lt d, vsrcCode_lt a, k.isLt, sf.isLt, tf.isLt], (fun h => by cases h),
      (encodePfx_length ((wellFormed_iff _).mp hw).2.1).trans (Nat.le_of_ble_eq_true rfl),
    (fun h => by cases h), (fun h => by cases h), by decide, by decide, rfl,
    ⟨.i (.vcvt m d a k sf tf), by simp [rowVcvt, bv, arg], rfl, rfl, formError_of_wellFormed hw⟩⟩

theorem vqnt m d a b k scm sf tf : Statement (.vqnt m d a b k scm sf tf) := by
  intro r m' v' h hw
  cases h
  exact ⟨List.mem_of_getElem? (i := 56) rfl,
      by simp [fits, rowVqnt, vdstCode_lt d, vsrcCode_lt a, vsrcCode_lt b, k.isLt, scm.isLt, fltEt3Code_lt sf,
      tf.isLt], (fun h => by cases h),
      (encodePfx_length ((wellFormed_iff _).mp hw).2.1).trans (Nat.le_of_ble_eq_true rfl),
    (fun h => by cases h), (fun h => by cases h), by decide, by decide, rfl,
    ⟨.i (.vqnt m d a b k scm sf tf), by simp [rowVqnt, bv, arg], rfl, rfl, formError_of_wellFormed hw⟩⟩

theorem vdqnt m d a k sf tf : Statement (.vdqnt m d a k sf tf) := by
  intro r m' v' h hw
  cases h
  exact ⟨List.mem_of_getElem? (i := 57) rfl,
      by simp [fits, rowVdqnt, vdstCode_lt d, vsrcCode_lt a, k.isLt, sf.isLt, fltEt3Code_lt tf],
      (fun h => by cases h), (encodePfx_length ((wellFormed_iff _).mp hw).2.1).trans (Nat.le_of_ble_eq_true rfl),
    (fun h => by cases h), (fun h => by cases h), by decide, by decide, rfl,
    ⟨.i (.vdqnt m d a k sf tf), by simp [rowVdqnt, bv, arg], rfl, rfl, formError_of_wellFormed hw⟩⟩

theorem vpack m d a f : Statement (.vpack m d a f) := by
  intro r m' v' h hw
  cases h
  exact ⟨List.mem_of_getElem? (i := 58) rfl, by simp [fits, rowVpack, vdstCode_lt d, vsrcCode_lt a, f.isLt],
      (fun h => by cases h), (encodePfx_length ((wellFormed_iff _).mp hw).2.1).trans (Nat.le_of_ble_eq_true rfl),
    (fun h => by cases h), (fun h => by cases h), by decide, by decide, rfl,
    ⟨.i (.vpack m d a f), by simp [rowVpack, bv, arg], rfl, rfl, formError_of_wellFormed hw⟩⟩

theorem vunpk m d a f : Statement (.vunpk m d a f) := by
  intro r m' v' h hw
  cases h
  exact ⟨List.mem_of_getElem? (i := 59) rfl, by simp [fits, rowVunpk, vdstCode_lt d, vsrcCode_lt a, f.isLt],
      (fun h => by cases h), (encodePfx_length ((wellFormed_iff _).mp hw).2.1).trans (Nat.le_of_ble_eq_true rfl),
    (fun h => by cases h), (fun h => by cases h), by decide, by decide, rfl,
    ⟨.i (.vunpk m d a f), by simp [rowVunpk, bv, arg], rfl, rfl, formError_of_wellFormed hw⟩⟩

theorem vradd m d a u et : Statement (.vradd m d a u et) := by
  intro r m' v' h hw
  cases h
  exact ⟨List.mem_of_getElem? (i := 60) rfl,
      by simp [fits, rowVradd, vdstCode_lt d, vsrcCode_lt a, u.isLt, intEtCode_lt et], (fun h => by cases h),
      (encodePfx_length ((wellFormed_iff _).mp hw).2.1).trans (Nat.le_of_ble_eq_true rfl),
    (fun h => by cases h), (fun h => by cases h), by decide, by decide, rfl,
    ⟨.i (.vradd m d a u et), by simp [rowVradd, bv, arg], rfl, rfl, formError_of_wellFormed hw⟩⟩

theorem vrmax m d a u et : Statement (.vrmax m d a u et) := by
  intro r m' v' h hw
  cases h
  exact ⟨List.mem_of_getElem? (i := 61) rfl,
      by simp [fits, rowVrmax, vdstCode_lt d, vsrcCode_lt a, u.isLt, intEtCode_lt et], (fun h => by cases h),
      (encodePfx_length ((wellFormed_iff _).mp hw).2.1).trans (Nat.le_of_ble_eq_true rfl),
    (fun h => by cases h), (fun h => by cases h), by decide, by decide, rfl,
    ⟨.i (.vrmax m d a u et), by simp [rowVrmax, bv, arg], rfl, rfl, formError_of_wellFormed hw⟩⟩

theorem vfradd m d a et : Statement (.vfradd m d a et) := by
  intro r m' v' h hw
  cases h
  exact ⟨List.mem_of_getElem? (i := 62) rfl, by simp [fits, rowVfradd, vdstCode_lt d, vsrcCode_lt a, fltEtCode_lt et],
      (fun h => by cases h), (encodePfx_length ((wellFormed_iff _).mp hw).2.1).trans (Nat.le_of_ble_eq_true rfl),
    (fun h => by cases h), (fun h => by cases h), by decide, by decide, rfl,
    ⟨.i (.vfradd m d a et), by simp [rowVfradd, arg], rfl, rfl, formError_of_wellFormed hw⟩⟩

theorem vfrmax m d a et : Statement (.vfrmax m d a et) := by
  intro r m' v' h hw
  cases h
  exact ⟨List.mem_of_getElem? (i := 63) rfl, by simp [fits, rowVfrmax, vdstCode_lt d, vsrcCode_lt a, fltEtCode_lt et],
      (fun h => by cases h), (encodePfx_length ((wellFormed_iff _).mp hw).2.1).trans (Nat.le_of_ble_eq_true rfl),
    (fun h => by cases h), (fun h => by cases h), by decide, by decide, rfl,
    ⟨.i (.vfrmax m d a et), by simp [rowVfrmax, arg], rfl, rfl, formError_of_wellFormed hw⟩⟩

theorem vperm m d a b c w : Statement (.vperm m d a b c w) := by
  intro r m' v' h hw
  cases h
  exact ⟨List.mem_of_getElem? (i := 64) rfl,
      by simp [fits, rowVperm, vdstCode_lt d, vsrcCode_lt a, vsrcCode_lt b, vsrcCode_lt c, widthCode_lt w],
      (fun h => by cases h), (encodePfx_length ((wellFormed_iff _).mp hw).2.1).trans (Nat.le_of_ble_eq_true rfl),
    (fun h => by cases h), (fun h => by cases h), by decide, by decide, rfl,
    ⟨.i (.vperm m d a b c w), by simp [rowVperm, arg], rfl, rfl, formError_of_wellFormed hw⟩⟩

theorem vrot m d a k w : Statement (.vrot m d a k w) := by
  intro r m' v' h hw
  cases h
  exact ⟨List.mem_of_getElem? (i := 65) rfl,
      by simp [fits, rowVrot, vdstCode_lt d, vsrcCode_lt a, k.isLt, widthCode_lt w], (fun h => by cases h),
      (encodePfx_length ((wellFormed_iff _).mp hw).2.1).trans (Nat.le_of_ble_eq_true rfl),
    (fun h => by cases h), (fun h => by cases h), by decide, by decide, rfl,
    ⟨.i (.vrot m d a k w), by simp [rowVrot, bv, arg], rfl, rfl, formError_of_wellFormed hw⟩⟩

theorem vbcast m d a k w : Statement (.vbcast m d a k w) := by
  intro r m' v' h hw
  cases h
  exact ⟨List.mem_of_getElem? (i := 66) rfl,
      by simp [fits, rowVbcast, vdstCode_lt d, vsrcCode_lt a, k.isLt, widthCode_lt w], (fun h => by cases h),
      (encodePfx_length ((wellFormed_iff _).mp hw).2.1).trans (Nat.le_of_ble_eq_true rfl),
    (fun h => by cases h), (fun h => by cases h), by decide, by decide, rfl,
    ⟨.i (.vbcast m d a k w), by simp [rowVbcast, bv, arg], rfl, rfl, formError_of_wellFormed hw⟩⟩

theorem vext m d a k s w : Statement (.vext m d a k s w) := by
  intro r m' v' h hw
  cases h
  exact ⟨List.mem_of_getElem? (i := 67) rfl,
      by simp [fits, rowVext, d.isLt, vsrcCode_lt a, k.isLt, s.isLt, widthCode_lt w], (fun h => by cases h),
      (encodePfx_length ((wellFormed_iff _).mp hw).2.1).trans (Nat.le_of_ble_eq_true rfl),
    (fun h => by cases h), (fun h => by cases h), by decide, by decide, rfl,
    ⟨.i (.vext m d a k s w), by simp [rowVext, bv, arg], rfl, rfl, formError_of_wellFormed hw⟩⟩

theorem vins m d a b k w : Statement (.vins m d a b k w) := by
  intro r m' v' h hw
  cases h
  exact ⟨List.mem_of_getElem? (i := 68) rfl,
      by simp [fits, rowVins, vdstCode_lt d, vsrcCode_lt a, b.isLt, k.isLt, widthCode_lt w], (fun h => by cases h),
      (encodePfx_length ((wellFormed_iff _).mp hw).2.1).trans (Nat.le_of_ble_eq_true rfl),
    (fun h => by cases h), (fun h => by cases h), by decide, by decide, rfl,
    ⟨.i (.vins m d a b k w), by simp [rowVins, bv, arg], rfl, rfl, formError_of_wellFormed hw⟩⟩

theorem vcomp m d a b w : Statement (.vcomp m d a b w) := by
  intro r m' v' h hw
  cases h
  exact ⟨List.mem_of_getElem? (i := 69) rfl,
      by simp [fits, rowVcomp, vdstCode_lt d, vsrcCode_lt a, vsrcCode_lt b, widthCode_lt w], (fun h => by cases h),
      (encodePfx_length ((wellFormed_iff _).mp hw).2.1).trans (Nat.le_of_ble_eq_true rfl),
    (fun h => by cases h), (fun h => by cases h), by decide, by decide, rfl,
    ⟨.i (.vcomp m d a b w), by simp [rowVcomp, arg], rfl, rfl, formError_of_wellFormed hw⟩⟩

theorem vexpd m d a b w : Statement (.vexpd m d a b w) := by
  intro r m' v' h hw
  cases h
  exact ⟨List.mem_of_getElem? (i := 70) rfl,
      by simp [fits, rowVexpd, vdstCode_lt d, vsrcCode_lt a, vsrcCode_lt b, widthCode_lt w], (fun h => by cases h),
      (encodePfx_length ((wellFormed_iff _).mp hw).2.1).trans (Nat.le_of_ble_eq_true rfl),
    (fun h => by cases h), (fun h => by cases h), by decide, by decide, rfl,
    ⟨.i (.vexpd m d a b w), by simp [rowVexpd, arg], rfl, rfl, formError_of_wellFormed hw⟩⟩

theorem vmrg3 m d a b c s : Statement (.vmrg3 m d a b c s) := by
  intro r m' v' h hw
  cases h
  exact ⟨List.mem_of_getElem? (i := 71) rfl,
      by simp [fits, rowVmrg3, vdstCode_lt d, vsrcCode_lt a, vsrcCode_lt b, vsrcCode_lt c, s.isLt],
      (fun h => by cases h), (encodePfx_length ((wellFormed_iff _).mp hw).2.1).trans (Nat.le_of_ble_eq_true rfl),
    (fun h => by cases h), (fun h => by cases h), by decide, by decide, rfl,
    ⟨.i (.vmrg3 m d a b c s), by simp [rowVmrg3, bv, arg], rfl, rfl, formError_of_wellFormed hw⟩⟩

theorem vmov m d a : Statement (.vmov m d a) := by
  intro r m' v' h hw
  cases h
  exact ⟨List.mem_of_getElem? (i := 72) rfl, by simp [fits, rowVmov, vdstCode_lt d, vsrcCode_lt a],
      (fun h => by cases h), (encodePfx_length ((wellFormed_iff _).mp hw).2.1).trans (Nat.le_of_ble_eq_true rfl),
    (fun h => by cases h), (fun h => by cases h), by decide, by decide, rfl,
    ⟨.i (.vmov m d a), by simp [rowVmov, arg], rfl, rfl, formError_of_wellFormed hw⟩⟩

theorem vli m d r w k : Statement (.vli m d r w k) := by
  intro r m' v' h hw
  cases h
  exact ⟨List.mem_of_getElem? (i := 73) rfl, by simp [fits, rowVli, vdstCode_lt d, r.isLt, widthCode_lt w, k.isLt],
      (fun h => by cases h), (encodePfx_length ((wellFormed_iff _).mp hw).2.1).trans (Nat.le_of_ble_eq_true rfl),
    (fun h => by cases h), (fun h => by cases h), by decide, by decide, rfl,
    ⟨.i (.vli m d r w k), by simp [rowVli, bv, arg], rfl, rfl, formError_of_wellFormed hw⟩⟩

theorem vsplat m d a w : Statement (.vsplat m d a w) := by
  intro r m' v' h hw
  cases h
  exact ⟨List.mem_of_getElem? (i := 74) rfl, by simp [fits, rowVsplat, vdstCode_lt d, a.isLt, widthCode_lt w],
      (fun h => by cases h), (encodePfx_length ((wellFormed_iff _).mp hw).2.1).trans (Nat.le_of_ble_eq_true rfl),
    (fun h => by cases h), (fun h => by cases h), by decide, by decide, rfl,
    ⟨.i (.vsplat m d a w), by simp [rowVsplat, bv, arg], rfl, rfl, formError_of_wellFormed hw⟩⟩

theorem sbind m z a k : Statement (.sbind m z a k) := by
  intro r m' v' h hw
  cases h
  exact ⟨List.mem_of_getElem? (i := 75) rfl, by simp [fits, rowSbind, z.isLt, a.isLt, k.isLt], (fun h => by cases h),
      (encodePfx_length ((wellFormed_iff _).mp hw).2.1).trans (Nat.le_of_ble_eq_true rfl),
    (fun h => by cases h), (fun h => by cases h), by decide, by decide, rfl,
    ⟨.i (.sbind m z a k), by simp [rowSbind, bv, arg], rfl, rfl, formError_of_wellFormed hw⟩⟩

theorem sbop m z a : Statement (.sbop m z a) := by
  intro r m' v' h hw
  cases h
  exact ⟨List.mem_of_getElem? (i := 76) rfl, by simp [fits, rowSbop, z.isLt, a.isLt], (fun h => by cases h),
      (encodePfx_length ((wellFormed_iff _).mp hw).2.1).trans (Nat.le_of_ble_eq_true rfl),
    (fun h => by cases h), (fun h => by cases h), by decide, by decide, rfl,
    ⟨.i (.sbop m z a), by simp [rowSbop, bv, arg], rfl, rfl, formError_of_wellFormed hw⟩⟩

theorem sunbind m z now : Statement (.sunbind m z now) := by
  intro r m' v' h hw
  cases h
  exact ⟨List.mem_of_getElem? (i := 77) rfl, by simp [fits, rowSunbind, z.isLt, now.isLt], (fun h => by cases h),
      (encodePfx_length ((wellFormed_iff _).mp hw).2.1).trans (Nat.le_of_ble_eq_true rfl),
    (fun h => by cases h), (fun h => by cases h), by decide, by decide, rfl,
    ⟨.i (.sunbind m z now), by simp [rowSunbind, bv, arg], rfl, rfl, formError_of_wellFormed hw⟩⟩

theorem sadv m z a : Statement (.sadv m z a) := by
  intro r m' v' h hw
  cases h
  exact ⟨List.mem_of_getElem? (i := 78) rfl, by simp [fits, rowSadv, z.isLt, a.isLt], (fun h => by cases h),
      (encodePfx_length ((wellFormed_iff _).mp hw).2.1).trans (Nat.le_of_ble_eq_true rfl),
    (fun h => by cases h), (fun h => by cases h), by decide, by decide, rfl,
    ⟨.i (.sadv m z a), by simp [rowSadv, bv, arg], rfl, rfl, formError_of_wellFormed hw⟩⟩

theorem sstat m d z : Statement (.sstat m d z) := by
  intro r m' v' h hw
  cases h
  exact ⟨List.mem_of_getElem? (i := 79) rfl, by simp [fits, rowSstat, d.isLt, z.isLt], (fun h => by cases h),
      (encodePfx_length ((wellFormed_iff _).mp hw).2.1).trans (Nat.le_of_ble_eq_true rfl),
    (fun h => by cases h), (fun h => by cases h), by decide, by decide, rfl,
    ⟨.i (.sstat m d z), by simp [rowSstat, bv, arg], rfl, rfl, formError_of_wellFormed hw⟩⟩

theorem lcfg m a b : Statement (.lcfg m a b) := by
  intro r m' v' h hw
  cases h
  exact ⟨List.mem_of_getElem? (i := 80) rfl, by simp [fits, rowLcfg, a.isLt, b.isLt], (fun h => by cases h),
      (encodePfx_length ((wellFormed_iff _).mp hw).2.1).trans (Nat.le_of_ble_eq_true rfl),
    (fun h => by cases h), (fun h => by cases h), by decide, by decide, rfl,
    ⟨.i (.lcfg m a b), by simp [rowLcfg, bv, arg], rfl, rfl, formError_of_wellFormed hw⟩⟩

theorem lstat m d a : Statement (.lstat m d a) := by
  intro r m' v' h hw
  cases h
  exact ⟨List.mem_of_getElem? (i := 81) rfl, by simp [fits, rowLstat, d.isLt, a.isLt], (fun h => by cases h),
      (encodePfx_length ((wellFormed_iff _).mp hw).2.1).trans (Nat.le_of_ble_eq_true rfl),
    (fun h => by cases h), (fun h => by cases h), by decide, by decide, rfl,
    ⟨.i (.lstat m d a), by simp [rowLstat, bv, arg], rfl, rfl, formError_of_wellFormed hw⟩⟩

theorem lfence m a : Statement (.lfence m a) := by
  intro r m' v' h hw
  cases h
  exact ⟨List.mem_of_getElem? (i := 82) rfl, by simp [fits, rowLfence, a.isLt], (fun h => by cases h),
      (encodePfx_length ((wellFormed_iff _).mp hw).2.1).trans (Nat.le_of_ble_eq_true rfl),
    (fun h => by cases h), (fun h => by cases h), by decide, by decide, rfl,
    ⟨.i (.lfence m a), by simp [rowLfence, bv, arg], rfl, rfl, formError_of_wellFormed hw⟩⟩

theorem lsync m a : Statement (.lsync m a) := by
  intro r m' v' h hw
  cases h
  exact ⟨List.mem_of_getElem? (i := 83) rfl, by simp [fits, rowLsync, a.isLt], (fun h => by cases h),
      (encodePfx_length ((wellFormed_iff _).mp hw).2.1).trans (Nat.le_of_ble_eq_true rfl),
    (fun h => by cases h), (fun h => by cases h), by decide, by decide, rfl,
    ⟨.i (.lsync m a), by simp [rowLsync, bv, arg], rfl, rfl, formError_of_wellFormed hw⟩⟩

theorem lwst m a b c f : Statement (.lwst m a b c f) := by
  intro r m' v' h hw
  cases h
  exact ⟨List.mem_of_getElem? (i := 84) rfl, by simp [fits, rowLwst, a.isLt, b.isLt, c.isLt, f.isLt],
      (fun h => by cases h), (encodePfx_length ((wellFormed_iff _).mp hw).2.1).trans (Nat.le_of_ble_eq_true rfl),
    (fun h => by cases h), (fun h => by cases h), by decide, by decide, rfl,
    ⟨.i (.lwst m a b c f), by simp [rowLwst, bv, arg], rfl, rfl, formError_of_wellFormed hw⟩⟩

theorem lact m a b c f : Statement (.lact m a b c f) := by
  intro r m' v' h hw
  cases h
  exact ⟨List.mem_of_getElem? (i := 85) rfl, by simp [fits, rowLact, a.isLt, b.isLt, c.isLt, f.isLt],
      (fun h => by cases h), (encodePfx_length ((wellFormed_iff _).mp hw).2.1).trans (Nat.le_of_ble_eq_true rfl),
    (fun h => by cases h), (fun h => by cases h), by decide, by decide, rfl,
    ⟨.i (.lact m a b c f), by simp [rowLact, bv, arg], rfl, rfl, formError_of_wellFormed hw⟩⟩

theorem lmac m a b z : Statement (.lmac m a b z) := by
  intro r m' v' h hw
  cases h
  exact ⟨List.mem_of_getElem? (i := 86) rfl, by simp [fits, rowLmac, a.isLt, b.isLt, z.isLt], (fun h => by cases h),
      (encodePfx_length ((wellFormed_iff _).mp hw).2.1).trans (Nat.le_of_ble_eq_true rfl),
    (fun h => by cases h), (fun h => by cases h), by decide, by decide, rfl,
    ⟨.i (.lmac m a b z), by simp [rowLmac, bv, arg], rfl, rfl, formError_of_wellFormed hw⟩⟩

theorem laccz m a : Statement (.laccz m a) := by
  intro r m' v' h hw
  cases h
  exact ⟨List.mem_of_getElem? (i := 87) rfl, by simp [fits, rowLaccz, a.isLt], (fun h => by cases h),
      (encodePfx_length ((wellFormed_iff _).mp hw).2.1).trans (Nat.le_of_ble_eq_true rfl),
    (fun h => by cases h), (fun h => by cases h), by decide, by decide, rfl,
    ⟨.i (.laccz m a), by simp [rowLaccz, bv, arg], rfl, rfl, formError_of_wellFormed hw⟩⟩

theorem laccr m a b c f : Statement (.laccr m a b c f) := by
  intro r m' v' h hw
  cases h
  exact ⟨List.mem_of_getElem? (i := 88) rfl, by simp [fits, rowLaccr, a.isLt, b.isLt, c.isLt, fltEtCode_lt f],
      (fun h => by cases h), (encodePfx_length ((wellFormed_iff _).mp hw).2.1).trans (Nat.le_of_ble_eq_true rfl),
    (fun h => by cases h), (fun h => by cases h), by decide, by decide, rfl,
    ⟨.i (.laccr m a b c f), by simp [rowLaccr, bv, arg], rfl, rfl, formError_of_wellFormed hw⟩⟩

theorem lred m a b c clr ring f : Statement (.lred m a b c clr ring f) := by
  intro r m' v' h hw
  cases h
  exact ⟨List.mem_of_getElem? (i := 89) rfl,
      by simp [fits, rowLred, a.isLt, b.isLt, c.isLt, clr.isLt, ring.isLt, fltEtCode_lt f], (fun h => by cases h),
      (encodePfx_length ((wellFormed_iff _).mp hw).2.1).trans (Nat.le_of_ble_eq_true rfl),
    (fun h => by cases h), (fun h => by cases h), by decide, by decide, rfl,
    ⟨.i (.lred m a b c clr ring f), by simp [rowLred, bv, arg], rfl, rfl, formError_of_wellFormed hw⟩⟩

theorem mlay m a b l ws we ss se : Statement (.mlay m a b l ws we ss se) := by
  intro r m' v' h hw
  cases h
  exact ⟨List.mem_of_getElem? (i := 90) rfl,
      by simp [fits, rowMlay, a.isLt, b.isLt, l.isLt, ws.isLt, we.isLt, ss.isLt, se.isLt], (fun h => by cases h),
      (encodePfx_length ((wellFormed_iff _).mp hw).2.1).trans (Nat.le_of_ble_eq_true rfl),
    (fun h => by cases h), (fun h => by cases h), by decide, by decide, rfl,
    ⟨.i (.mlay m a b l ws we ss se), by simp [rowMlay, bv, arg], rfl, rfl, formError_of_wellFormed hw⟩⟩

theorem munf m a b id ws we ss se : Statement (.munf m a b id ws we ss se) := by
  intro r m' v' h hw
  cases h
  exact ⟨List.mem_of_getElem? (i := 91) rfl,
      by simp [fits, rowMunf, a.isLt, b.isLt, id.isLt, ws.isLt, we.isLt, ss.isLt, se.isLt], (fun h => by cases h),
      (encodePfx_length ((wellFormed_iff _).mp hw).2.1).trans (Nat.le_of_ble_eq_true rfl),
    (fun h => by cases h), (fun h => by cases h), by decide, by decide, rfl,
    ⟨.i (.munf m a b id ws we ss se), by simp [rowMunf, bv, arg], rfl, rfl, formError_of_wellFormed hw⟩⟩

theorem mld m a b c l ws we ss se : Statement (.mld m a b c l ws we ss se) := by
  intro r m' v' h hw
  cases h
  exact ⟨List.mem_of_getElem? (i := 92) rfl,
      by simp [fits, rowMld, a.isLt, b.isLt, c.isLt, l.isLt, ws.isLt, we.isLt, ss.isLt, se.isLt],
      (fun h => by cases h), (encodePfx_length ((wellFormed_iff _).mp hw).2.1).trans (Nat.le_of_ble_eq_true rfl),
    (fun h => by cases h), (fun h => by cases h), by decide, by decide, rfl,
    ⟨.i (.mld m a b c l ws we ss se), by simp [rowMld, bv, arg], rfl, rfl, formError_of_wellFormed hw⟩⟩

theorem mmul m a b u t ws we ss se : Statement (.mmul m a b u t ws we ss se) := by
  intro r m' v' h hw
  cases h
  exact ⟨List.mem_of_getElem? (i := 93) rfl,
      by simp [fits, rowMmul, a.isLt, b.isLt, u.isLt, t.isLt, ws.isLt, we.isLt, ss.isLt, se.isLt],
      (fun h => by cases h), (encodePfx_length ((wellFormed_iff _).mp hw).2.1).trans (Nat.le_of_ble_eq_true rfl),
    (fun h => by cases h), (fun h => by cases h), by decide, by decide, rfl,
    ⟨.i (.mmul m a b u t ws we ss se), by simp [rowMmul, bv, arg], rfl, rfl, formError_of_wellFormed hw⟩⟩

theorem mdrn m a b g t ws we ss se : Statement (.mdrn m a b g t ws we ss se) := by
  intro r m' v' h hw
  cases h
  exact ⟨List.mem_of_getElem? (i := 94) rfl,
      by simp [fits, rowMdrn, a.isLt, b.isLt, g.isLt, t.isLt, ws.isLt, we.isLt, ss.isLt, se.isLt],
      (fun h => by cases h), (encodePfx_length ((wellFormed_iff _).mp hw).2.1).trans (Nat.le_of_ble_eq_true rfl),
    (fun h => by cases h), (fun h => by cases h), by decide, by decide, rfl,
    ⟨.i (.mdrn m a b g t ws we ss se), by simp [rowMdrn, bv, arg], rfl, rfl, formError_of_wellFormed hw⟩⟩

theorem mzero m mode t ws we ss se : Statement (.mzero m mode t ws we ss se) := by
  intro r m' v' h hw
  cases h
  exact ⟨List.mem_of_getElem? (i := 95) rfl,
      by simp [fits, rowMzero, tModeCode_lt mode, t.isLt, ws.isLt, we.isLt, ss.isLt, se.isLt], (fun h => by cases h),
      (encodePfx_length ((wellFormed_iff _).mp hw).2.1).trans (Nat.le_of_ble_eq_true rfl),
    (fun h => by cases h), (fun h => by cases h), by decide, by decide, rfl,
    ⟨.i (.mzero m mode t ws we ss se), by simp [rowMzero, bv, arg], rfl, rfl, formError_of_wellFormed hw⟩⟩

theorem msemSig m s n : Statement (.msemSig m s n) := by
  intro r m' v' h hw
  cases h
  exact ⟨List.mem_of_getElem? (i := 96) rfl, by simp [fits, rowMsemSig, s.isLt, n.isLt], (fun h => by cases h),
      (encodePfx_length ((wellFormed_iff _).mp hw).2.1).trans (Nat.le_of_ble_eq_true rfl),
    (fun h => by cases h), (fun h => by cases h), by decide, by decide, rfl,
    ⟨.i (.msemSig m s n), by simp [rowMsemSig, bv, arg], rfl, rfl, formError_of_wellFormed hw⟩⟩

theorem msemWait m s n : Statement (.msemWait m s n) := by
  intro r m' v' h hw
  cases h
  exact ⟨List.mem_of_getElem? (i := 97) rfl, by simp [fits, rowMsemWait, s.isLt, n.isLt], (fun h => by cases h),
      (encodePfx_length ((wellFormed_iff _).mp hw).2.1).trans (Nat.le_of_ble_eq_true rfl),
    (fun h => by cases h), (fun h => by cases h), by decide, by decide, rfl,
    ⟨.i (.msemWait m s n), by simp [rowMsemWait, bv, arg], rfl, rfl, formError_of_wellFormed hw⟩⟩

theorem msemRd m d s : Statement (.msemRd m d s) := by
  intro r m' v' h hw
  cases h
  exact ⟨List.mem_of_getElem? (i := 98) rfl, by simp [fits, rowMsemRd, d.isLt, s.isLt], (fun h => by cases h),
      (encodePfx_length ((wellFormed_iff _).mp hw).2.1).trans (Nat.le_of_ble_eq_true rfl),
    (fun h => by cases h), (fun h => by cases h), by decide, by decide, rfl,
    ⟨.i (.msemRd m d s), by simp [rowMsemRd, bv, arg], rfl, rfl, formError_of_wellFormed hw⟩⟩

theorem msemSt m d : Statement (.msemSt m d) := by
  intro r m' v' h hw
  cases h
  exact ⟨List.mem_of_getElem? (i := 99) rfl, by simp [fits, rowMsemSt, d.isLt], (fun h => by cases h),
      (encodePfx_length ((wellFormed_iff _).mp hw).2.1).trans (Nat.le_of_ble_eq_true rfl),
    (fun h => by cases h), (fun h => by cases h), by decide, by decide, rfl,
    ⟨.i (.msemSt m d), by simp [rowMsemSt, bv, arg], rfl, rfl, formError_of_wellFormed hw⟩⟩

theorem xcopy m a b ren ten tag : Statement (.xcopy m a b ren ten tag) := by
  intro r m' v' h hw
  cases h
  exact ⟨List.mem_of_getElem? (i := 100) rfl, by simp [fits, rowXcopy, a.isLt, b.isLt, ren.isLt, ten.isLt, tag.isLt],
      (fun h => by cases h), (encodePfx_length ((wellFormed_iff _).mp hw).2.1).trans (Nat.le_of_ble_eq_true rfl),
    (fun h => by cases h), (fun h => by cases h), by decide, by decide, rfl,
    ⟨.i (.xcopy m a b ren ten tag), by simp [rowXcopy, bv, arg], rfl, rfl, formError_of_wellFormed hw⟩⟩

theorem xgath m a b ren ten tag : Statement (.xgath m a b ren ten tag) := by
  intro r m' v' h hw
  cases h
  exact ⟨List.mem_of_getElem? (i := 101) rfl, by simp [fits, rowXgath, a.isLt, b.isLt, ren.isLt, ten.isLt, tag.isLt],
      (fun h => by cases h), (encodePfx_length ((wellFormed_iff _).mp hw).2.1).trans (Nat.le_of_ble_eq_true rfl),
    (fun h => by cases h), (fun h => by cases h), by decide, by decide, rfl,
    ⟨.i (.xgath m a b ren ten tag), by simp [rowXgath, bv, arg], rfl, rfl, formError_of_wellFormed hw⟩⟩

theorem xscat m a b ren ten tag : Statement (.xscat m a b ren ten tag) := by
  intro r m' v' h hw
  cases h
  exact ⟨List.mem_of_getElem? (i := 102) rfl, by simp [fits, rowXscat, a.isLt, b.isLt, ren.isLt, ten.isLt, tag.isLt],
      (fun h => by cases h), (encodePfx_length ((wellFormed_iff _).mp hw).2.1).trans (Nat.le_of_ble_eq_true rfl),
    (fun h => by cases h), (fun h => by cases h), by decide, by decide, rfl,
    ⟨.i (.xscat m a b ren ten tag), by simp [rowXscat, bv, arg], rfl, rfl, formError_of_wellFormed hw⟩⟩

theorem xscadd m a b ren ten tag : Statement (.xscadd m a b ren ten tag) := by
  intro r m' v' h hw
  cases h
  exact ⟨List.mem_of_getElem? (i := 103) rfl, by simp [fits, rowXscadd, a.isLt, b.isLt, ren.isLt, ten.isLt, tag.isLt],
      (fun h => by cases h), (encodePfx_length ((wellFormed_iff _).mp hw).2.1).trans (Nat.le_of_ble_eq_true rfl),
    (fun h => by cases h), (fun h => by cases h), by decide, by decide, rfl,
    ⟨.i (.xscadd m a b ren ten tag), by simp [rowXscadd, bv, arg], rfl, rfl, formError_of_wellFormed hw⟩⟩

theorem xfill m a b ren ten tag : Statement (.xfill m a b ren ten tag) := by
  intro r m' v' h hw
  cases h
  exact ⟨List.mem_of_getElem? (i := 104) rfl, by simp [fits, rowXfill, a.isLt, b.isLt, ren.isLt, ten.isLt, tag.isLt],
      (fun h => by cases h), (encodePfx_length ((wellFormed_iff _).mp hw).2.1).trans (Nat.le_of_ble_eq_true rfl),
    (fun h => by cases h), (fun h => by cases h), by decide, by decide, rfl,
    ⟨.i (.xfill m a b ren ten tag), by simp [rowXfill, bv, arg], rfl, rfl, formError_of_wellFormed hw⟩⟩

theorem xring m a b ren ten tag : Statement (.xring m a b ren ten tag) := by
  intro r m' v' h hw
  cases h
  exact ⟨List.mem_of_getElem? (i := 105) rfl, by simp [fits, rowXring, a.isLt, b.isLt, ren.isLt, ten.isLt, tag.isLt],
      (fun h => by cases h), (encodePfx_length ((wellFormed_iff _).mp hw).2.1).trans (Nat.le_of_ble_eq_true rfl),
    (fun h => by cases h), (fun h => by cases h), by decide, by decide, rfl,
    ⟨.i (.xring m a b ren ten tag), by simp [rowXring, bv, arg], rfl, rfl, formError_of_wellFormed hw⟩⟩

theorem creq m a b ren ten tag : Statement (.creq m a b ren ten tag) := by
  intro r m' v' h hw
  cases h
  exact ⟨List.mem_of_getElem? (i := 106) rfl, by simp [fits, rowCreq, a.isLt, b.isLt, ren.isLt, ten.isLt, tag.isLt],
      (fun h => by cases h), (encodePfx_length ((wellFormed_iff _).mp hw).2.1).trans (Nat.le_of_ble_eq_true rfl),
    (fun h => by cases h), (fun h => by cases h), by decide, by decide, rfl,
    ⟨.i (.creq m a b ren ten tag), by simp [rowCreq, bv, arg], rfl, rfl, formError_of_wellFormed hw⟩⟩

theorem sqnew m d a b bl : Statement (.sqnew m d a b bl) := by
  intro r m' v' h hw
  cases h
  exact ⟨List.mem_of_getElem? (i := 107) rfl, by simp [fits, rowSqnew, d.isLt, a.isLt, b.isLt, bl.isLt],
      (fun _ => ((wellFormed_iff _).mp hw).2.2.1 rfl),
      (encodePfx_length ((wellFormed_iff _).mp hw).2.1).trans (Nat.le_of_ble_eq_true rfl),
    (fun h => by cases h), (fun h => by cases h), by decide, by decide, rfl,
    ⟨.i (.sqnew m d a b bl), by simp [rowSqnew, bv, arg], rfl, rfl, formError_of_wellFormed hw⟩⟩

theorem sqres m d a b : Statement (.sqres m d a b) := by
  intro r m' v' h hw
  cases h
  exact ⟨List.mem_of_getElem? (i := 108) rfl, by simp [fits, rowSqres, d.isLt, a.isLt, b.isLt],
      (fun _ => ((wellFormed_iff _).mp hw).2.2.1 rfl),
      (encodePfx_length ((wellFormed_iff _).mp hw).2.1).trans (Nat.le_of_ble_eq_true rfl),
    (fun h => by cases h), (fun h => by cases h), by decide, by decide, rfl,
    ⟨.i (.sqres m d a b), by simp [rowSqres, bv, arg], rfl, rfl, formError_of_wellFormed hw⟩⟩

theorem sqrest m d a b : Statement (.sqrest m d a b) := by
  intro r m' v' h hw
  cases h
  exact ⟨List.mem_of_getElem? (i := 109) rfl, by simp [fits, rowSqrest, d.isLt, a.isLt, b.isLt],
      (fun _ => ((wellFormed_iff _).mp hw).2.2.1 rfl),
      (encodePfx_length ((wellFormed_iff _).mp hw).2.1).trans (Nat.le_of_ble_eq_true rfl),
    (fun h => by cases h), (fun h => by cases h), by decide, by decide, rfl,
    ⟨.i (.sqrest m d a b), by simp [rowSqrest, bv, arg], rfl, rfl, formError_of_wellFormed hw⟩⟩

theorem sqcmt m d a b c : Statement (.sqcmt m d a b c) := by
  intro r m' v' h hw
  cases h
  exact ⟨List.mem_of_getElem? (i := 110) rfl, by simp [fits, rowSqcmt, d.isLt, a.isLt, b.isLt, c.isLt],
      (fun _ => ((wellFormed_iff _).mp hw).2.2.1 rfl),
      (encodePfx_length ((wellFormed_iff _).mp hw).2.1).trans (Nat.le_of_ble_eq_true rfl),
    (fun h => by cases h), (fun h => by cases h), by decide, by decide, rfl,
    ⟨.i (.sqcmt m d a b c), by simp [rowSqcmt, bv, arg], rfl, rfl, formError_of_wellFormed hw⟩⟩

theorem sqacc m d a b : Statement (.sqacc m d a b) := by
  intro r m' v' h hw
  cases h
  exact ⟨List.mem_of_getElem? (i := 111) rfl, by simp [fits, rowSqacc, d.isLt, a.isLt, b.isLt],
      (fun _ => ((wellFormed_iff _).mp hw).2.2.1 rfl),
      (encodePfx_length ((wellFormed_iff _).mp hw).2.1).trans (Nat.le_of_ble_eq_true rfl),
    (fun h => by cases h), (fun h => by cases h), by decide, by decide, rfl,
    ⟨.i (.sqacc m d a b), by simp [rowSqacc, bv, arg], rfl, rfl, formError_of_wellFormed hw⟩⟩

theorem sqwd m d a : Statement (.sqwd m d a) := by
  intro r m' v' h hw
  cases h
  exact ⟨List.mem_of_getElem? (i := 112) rfl, by simp [fits, rowSqwd, d.isLt, a.isLt],
      (fun _ => ((wellFormed_iff _).mp hw).2.2.1 rfl),
      (encodePfx_length ((wellFormed_iff _).mp hw).2.1).trans (Nat.le_of_ble_eq_true rfl),
    (fun h => by cases h), (fun h => by cases h), by decide, by decide, rfl,
    ⟨.i (.sqwd m d a), by simp [rowSqwd, bv, arg], rfl, rfl, formError_of_wellFormed hw⟩⟩

theorem sqfree m d a : Statement (.sqfree m d a) := by
  intro r m' v' h hw
  cases h
  exact ⟨List.mem_of_getElem? (i := 113) rfl, by simp [fits, rowSqfree, d.isLt, a.isLt],
      (fun _ => ((wellFormed_iff _).mp hw).2.2.1 rfl),
      (encodePfx_length ((wellFormed_iff _).mp hw).2.1).trans (Nat.le_of_ble_eq_true rfl),
    (fun h => by cases h), (fun h => by cases h), by decide, by decide, rfl,
    ⟨.i (.sqfree m d a), by simp [rowSqfree, bv, arg], rfl, rfl, formError_of_wellFormed hw⟩⟩

theorem sqfork m d a b : Statement (.sqfork m d a b) := by
  intro r m' v' h hw
  cases h
  exact ⟨List.mem_of_getElem? (i := 114) rfl, by simp [fits, rowSqfork, d.isLt, a.isLt, b.isLt],
      (fun _ => ((wellFormed_iff _).mp hw).2.2.1 rfl),
      (encodePfx_length ((wellFormed_iff _).mp hw).2.1).trans (Nat.le_of_ble_eq_true rfl),
    (fun h => by cases h), (fun h => by cases h), by decide, by decide, rfl,
    ⟨.i (.sqfork m d a b), by simp [rowSqfork, bv, arg], rfl, rfl, formError_of_wellFormed hw⟩⟩

theorem sqlen m d a : Statement (.sqlen m d a) := by
  intro r m' v' h hw
  cases h
  exact ⟨List.mem_of_getElem? (i := 115) rfl, by simp [fits, rowSqlen, d.isLt, a.isLt],
      (fun _ => ((wellFormed_iff _).mp hw).2.2.1 rfl),
      (encodePfx_length ((wellFormed_iff _).mp hw).2.1).trans (Nat.le_of_ble_eq_true rfl),
    (fun h => by cases h), (fun h => by cases h), by decide, by decide, rfl,
    ⟨.i (.sqlen m d a), by simp [rowSqlen, bv, arg], rfl, rfl, formError_of_wellFormed hw⟩⟩

theorem sqwait m d a b c : Statement (.sqwait m d a b c) := by
  intro r m' v' h hw
  cases h
  exact ⟨List.mem_of_getElem? (i := 116) rfl, by simp [fits, rowSqwait, d.isLt, a.isLt, b.isLt, c.isLt],
      (fun _ => ((wellFormed_iff _).mp hw).2.2.1 rfl),
      (encodePfx_length ((wellFormed_iff _).mp hw).2.1).trans (Nat.le_of_ble_eq_true rfl),
    (fun h => by cases h), (fun h => by cases h), by decide, by decide, rfl,
    ⟨.i (.sqwait m d a b c), by simp [rowSqwait, bv, arg], rfl, rfl, formError_of_wellFormed hw⟩⟩

theorem sqpin m d a : Statement (.sqpin m d a) := by
  intro r m' v' h hw
  cases h
  exact ⟨List.mem_of_getElem? (i := 117) rfl, by simp [fits, rowSqpin, d.isLt, a.isLt],
      (fun _ => ((wellFormed_iff _).mp hw).2.2.1 rfl),
      (encodePfx_length ((wellFormed_iff _).mp hw).2.1).trans (Nat.le_of_ble_eq_true rfl),
    (fun h => by cases h), (fun h => by cases h), by decide, by decide, rfl,
    ⟨.i (.sqpin m d a), by simp [rowSqpin, bv, arg], rfl, rfl, formError_of_wellFormed hw⟩⟩

theorem squnpin m d a : Statement (.squnpin m d a) := by
  intro r m' v' h hw
  cases h
  exact ⟨List.mem_of_getElem? (i := 118) rfl, by simp [fits, rowSqunpin, d.isLt, a.isLt],
      (fun _ => ((wellFormed_iff _).mp hw).2.2.1 rfl),
      (encodePfx_length ((wellFormed_iff _).mp hw).2.1).trans (Nat.le_of_ble_eq_true rfl),
    (fun h => by cases h), (fun h => by cases h), by decide, by decide, rfl,
    ⟨.i (.squnpin m d a), by simp [rowSqunpin, bv, arg], rfl, rfl, formError_of_wellFormed hw⟩⟩

theorem sqext m d a b k : Statement (.sqext m d a b k) := by
  intro r m' v' h hw
  cases h
  exact ⟨List.mem_of_getElem? (i := 119) rfl, by simp [fits, rowSqext, d.isLt, a.isLt, b.isLt, sel3Code_lt k],
      (fun _ => ((wellFormed_iff _).mp hw).2.2.1 rfl),
      (encodePfx_length ((wellFormed_iff _).mp hw).2.1).trans (Nat.le_of_ble_eq_true rfl),
    (fun h => by cases h), (fun h => by cases h), by decide, by decide, rfl,
    ⟨.i (.sqext m d a b k), by simp [rowSqext, bv, arg], rfl, rfl, formError_of_wellFormed hw⟩⟩

theorem ldq m d a b c ch : Statement (.ldq m d a b c ch) := by
  intro r m' v' h hw
  cases h
  exact ⟨List.mem_of_getElem? (i := 120) rfl, by simp [fits, rowLdq, d.isLt, a.isLt, b.isLt, c.isLt, ch.isLt],
      (fun h => by cases h), (encodePfx_length ((wellFormed_iff _).mp hw).2.1).trans (Nat.le_of_ble_eq_true rfl),
    (fun h => by cases h), (fun h => by cases h), by decide, by decide, rfl,
    ⟨.i (.ldq m d a b c ch), by simp [rowLdq, bv, arg], rfl, rfl, formError_of_wellFormed hw⟩⟩

theorem vldq m q a b c ch : Statement (.vldq m q a b c ch) := by
  intro r m' v' h hw
  cases h
  exact ⟨List.mem_of_getElem? (i := 121) rfl, by simp [fits, rowVldq, q.isLt, a.isLt, b.isLt, c.isLt, ch.isLt],
      (fun h => by cases h), (encodePfx_length ((wellFormed_iff _).mp hw).2.1).trans (Nat.le_of_ble_eq_true rfl),
    (fun h => by cases h), (fun h => by cases h), by decide, by decide, rfl,
    ⟨.i (.vldq m q a b c ch), by simp [rowVldq, bv, arg], rfl, rfl, formError_of_wellFormed hw⟩⟩

theorem stq m d a b ch : Statement (.stq m d a b ch) := by
  intro r m' v' h hw
  cases h
  exact ⟨List.mem_of_getElem? (i := 122) rfl, by simp [fits, rowStq, d.isLt, a.isLt, b.isLt, ch.isLt],
      (fun h => by cases h), (encodePfx_length ((wellFormed_iff _).mp hw).2.1).trans (Nat.le_of_ble_eq_true rfl),
    (fun h => by cases h), (fun h => by cases h), by decide, by decide, rfl,
    ⟨.i (.stq m d a b ch), by simp [rowStq, bv, arg], rfl, rfl, formError_of_wellFormed hw⟩⟩

theorem vstq m q a b ch : Statement (.vstq m q a b ch) := by
  intro r m' v' h hw
  cases h
  exact ⟨List.mem_of_getElem? (i := 123) rfl, by simp [fits, rowVstq, q.isLt, a.isLt, b.isLt, ch.isLt],
      (fun h => by cases h), (encodePfx_length ((wellFormed_iff _).mp hw).2.1).trans (Nat.le_of_ble_eq_true rfl),
    (fun h => by cases h), (fun h => by cases h), by decide, by decide, rfl,
    ⟨.i (.vstq m q a b ch), by simp [rowVstq, bv, arg], rfl, rfl, formError_of_wellFormed hw⟩⟩

theorem sqattn m a b ten tag : Statement (.sqattn m a b ten tag) := by
  intro r m' v' h hw
  cases h
  exact ⟨List.mem_of_getElem? (i := 124) rfl, by simp [fits, rowSqattn, a.isLt, b.isLt, ten.isLt, tag.isLt],
      (fun _ => ((wellFormed_iff _).mp hw).2.2.1 rfl),
      (encodePfx_length ((wellFormed_iff _).mp hw).2.1).trans (Nat.le_of_ble_eq_true rfl),
    (fun h => by cases h), (fun h => by cases h), by decide, by decide, rfl,
    ⟨.i (.sqattn m a b ten tag), by simp [rowSqattn, bv, arg], rfl, rfl, formError_of_wellFormed hw⟩⟩

theorem pfxh m d a b : Statement (.pfxh m d a b) := by
  intro r m' v' h hw
  cases h
  exact ⟨List.mem_of_getElem? (i := 125) rfl, by simp [fits, rowPfxh, d.isLt, a.isLt, b.isLt],
      (fun _ => ((wellFormed_iff _).mp hw).2.2.1 rfl),
      (encodePfx_length ((wellFormed_iff _).mp hw).2.1).trans (Nat.le_of_ble_eq_true rfl),
    (fun h => by cases h), (fun h => by cases h), by decide, by decide, rfl,
    ⟨.i (.pfxh m d a b), by simp [rowPfxh, bv, arg], rfl, rfl, formError_of_wellFormed hw⟩⟩

theorem pfxl m d a b : Statement (.pfxl m d a b) := by
  intro r m' v' h hw
  cases h
  exact ⟨List.mem_of_getElem? (i := 126) rfl, by simp [fits, rowPfxl, d.isLt, a.isLt, b.isLt],
      (fun _ => ((wellFormed_iff _).mp hw).2.2.1 rfl),
      (encodePfx_length ((wellFormed_iff _).mp hw).2.1).trans (Nat.le_of_ble_eq_true rfl),
    (fun h => by cases h), (fun h => by cases h), by decide, by decide, rfl,
    ⟨.i (.pfxl m d a b), by simp [rowPfxl, bv, arg], rfl, rfl, formError_of_wellFormed hw⟩⟩

theorem pfxlH m d a : Statement (.pfxlH m d a) := by
  intro r m' v' h hw
  cases h
  exact ⟨List.mem_of_getElem? (i := 127) rfl, by simp [fits, rowPfxlH, d.isLt, a.isLt],
      (fun _ => ((wellFormed_iff _).mp hw).2.2.1 rfl),
      (encodePfx_length ((wellFormed_iff _).mp hw).2.1).trans (Nat.le_of_ble_eq_true rfl),
    (fun h => by cases h), (fun h => by cases h), by decide, by decide, rfl,
    ⟨.i (.pfxlH m d a), by simp [rowPfxlH, bv, arg], rfl, rfl, formError_of_wellFormed hw⟩⟩

theorem pfxlS m d a : Statement (.pfxlS m d a) := by
  intro r m' v' h hw
  cases h
  exact ⟨List.mem_of_getElem? (i := 128) rfl, by simp [fits, rowPfxlS, d.isLt, a.isLt],
      (fun _ => ((wellFormed_iff _).mp hw).2.2.1 rfl),
      (encodePfx_length ((wellFormed_iff _).mp hw).2.1).trans (Nat.le_of_ble_eq_true rfl),
    (fun h => by cases h), (fun h => by cases h), by decide, by decide, rfl,
    ⟨.i (.pfxlS m d a), by simp [rowPfxlS, bv, arg], rfl, rfl, formError_of_wellFormed hw⟩⟩

theorem pfxi m d a b c : Statement (.pfxi m d a b c) := by
  intro r m' v' h hw
  cases h
  exact ⟨List.mem_of_getElem? (i := 129) rfl, by simp [fits, rowPfxi, d.isLt, a.isLt, b.isLt, c.isLt],
      (fun _ => ((wellFormed_iff _).mp hw).2.2.1 rfl),
      (encodePfx_length ((wellFormed_iff _).mp hw).2.1).trans (Nat.le_of_ble_eq_true rfl),
    (fun h => by cases h), (fun h => by cases h), by decide, by decide, rfl,
    ⟨.i (.pfxi m d a b c), by simp [rowPfxi, bv, arg], rfl, rfl, formError_of_wellFormed hw⟩⟩

theorem pfxd m d a : Statement (.pfxd m d a) := by
  intro r m' v' h hw
  cases h
  exact ⟨List.mem_of_getElem? (i := 130) rfl, by simp [fits, rowPfxd, d.isLt, a.isLt],
      (fun _ => ((wellFormed_iff _).mp hw).2.2.1 rfl),
      (encodePfx_length ((wellFormed_iff _).mp hw).2.1).trans (Nat.le_of_ble_eq_true rfl),
    (fun h => by cases h), (fun h => by cases h), by decide, by decide, rfl,
    ⟨.i (.pfxd m d a), by simp [rowPfxd, bv, arg], rfl, rfl, formError_of_wellFormed hw⟩⟩

theorem pfxdU m d a : Statement (.pfxdU m d a) := by
  intro r m' v' h hw
  cases h
  exact ⟨List.mem_of_getElem? (i := 131) rfl, by simp [fits, rowPfxdU, d.isLt, a.isLt],
      (fun _ => ((wellFormed_iff _).mp hw).2.2.1 rfl),
      (encodePfx_length ((wellFormed_iff _).mp hw).2.1).trans (Nat.le_of_ble_eq_true rfl),
    (fun h => by cases h), (fun h => by cases h), by decide, by decide, rfl,
    ⟨.i (.pfxdU m d a), by simp [rowPfxdU, bv, arg], rfl, rfl, formError_of_wellFormed hw⟩⟩

theorem trap m k : Statement (.trap m k) := by
  intro r m' v' h hw
  cases h
  exact ⟨List.mem_of_getElem? (i := 102) rfl, by simp [fits, rowTrap, k.isLt],
      (fun _ => ((wellFormed_iff _).mp hw).2.2.1 rfl),
      (encodePfx_length ((wellFormed_iff _).mp hw).2.1).trans (Nat.le_of_ble_eq_true rfl),
    (fun h => by cases h), (fun h => by cases h), by decide, by decide, rfl,
    ⟨.i (.trap m k), by simp [rowTrap, bv, arg], rfl, rfl, formError_of_wellFormed hw⟩⟩

theorem chk m a b : Statement (.chk m a b) := by
  intro r m' v' h hw
  cases h
  exact ⟨List.mem_of_getElem? (i := 103) rfl, by simp [fits, rowChk, a.isLt, b.isLt],
      (fun _ => ((wellFormed_iff _).mp hw).2.2.1 rfl),
      (encodePfx_length ((wellFormed_iff _).mp hw).2.1).trans (Nat.le_of_ble_eq_true rfl),
    (fun h => by cases h), (fun h => by cases h), by decide, by decide, rfl,
    ⟨.i (.chk m a b), by simp [rowChk, bv, arg], rfl, rfl, formError_of_wellFormed hw⟩⟩

theorem twany m d a b : Statement (.twany m d a b) := by
  intro r m' v' h hw
  cases h
  exact ⟨List.mem_of_getElem? (i := 78) rfl, by simp [fits, rowTwany, d.isLt, a.isLt, b.isLt],
      (fun _ => ((wellFormed_iff _).mp hw).2.2.1 rfl),
      (encodePfx_length ((wellFormed_iff _).mp hw).2.1).trans (Nat.le_of_ble_eq_true rfl),
    (fun h => by cases h), (fun h => by cases h), by decide, by decide, rfl,
    ⟨.sys .twany m d a b, by simp [rowTwany, bv, arg], rfl, rfl,
      sysError_none (((wellFormed_iff _).mp hw).2.1) (((wellFormed_iff _).mp hw).2.2.1 rfl) (by intro h; cases h)⟩⟩

theorem twall m d a b : Statement (.twall m d a b) := by
  intro r m' v' h hw
  cases h
  exact ⟨List.mem_of_getElem? (i := 79) rfl, by simp [fits, rowTwall, d.isLt, a.isLt, b.isLt],
      (fun _ => ((wellFormed_iff _).mp hw).2.2.1 rfl),
      (encodePfx_length ((wellFormed_iff _).mp hw).2.1).trans (Nat.le_of_ble_eq_true rfl),
    (fun h => by cases h), (fun h => by cases h), by decide, by decide, rfl,
    ⟨.sys .twall m d a b, by simp [rowTwall, bv, arg], rfl, rfl,
      sysError_none (((wellFormed_iff _).mp hw).2.1) (((wellFormed_iff _).mp hw).2.2.1 rfl) (by intro h; cases h)⟩⟩

theorem tffr m d a : Statement (.tffr m d a) := by
  intro r m' v' h hw
  cases h
  exact ⟨List.mem_of_getElem? (i := 80) rfl, by simp [fits, rowTffr, d.isLt, a.isLt],
      (fun _ => ((wellFormed_iff _).mp hw).2.2.1 rfl),
      (encodePfx_length ((wellFormed_iff _).mp hw).2.1).trans (Nat.le_of_ble_eq_true rfl),
    (fun h => by cases h), (fun h => by cases h), by decide, by decide, rfl,
    ⟨.sys .tffr m d a 0, by simp [rowTffr, bv, arg], rfl, rfl,
      sysError_none (((wellFormed_iff _).mp hw).2.1) (((wellFormed_iff _).mp hw).2.2.1 rfl) (by intro h; cases h)⟩⟩

theorem tclr m a : Statement (.tclr m a) := by
  intro r m' v' h hw
  cases h
  exact ⟨List.mem_of_getElem? (i := 81) rfl, by simp [fits, rowTclr, a.isLt],
      (fun _ => ((wellFormed_iff _).mp hw).2.2.1 rfl),
      (encodePfx_length ((wellFormed_iff _).mp hw).2.1).trans (Nat.le_of_ble_eq_true rfl),
    (fun h => by cases h), (fun h => by cases h), by decide, by decide, rfl,
    ⟨.sys .tclr m 0 a 0, by simp [rowTclr, bv, arg], rfl, rfl,
      sysError_none (((wellFormed_iff _).mp hw).2.1) (((wellFormed_iff _).mp hw).2.2.1 rfl) (by intro h; cases h)⟩⟩

theorem tabort m : Statement (.tabort m) := by
  intro r m' v' h hw
  cases h
  exact ⟨List.mem_of_getElem? (i := 104) rfl, rfl, (fun _ => ((wellFormed_iff _).mp hw).2.2.1 rfl),
      (encodePfx_length ((wellFormed_iff _).mp hw).2.1).trans (Nat.le_of_ble_eq_true rfl),
    (fun h => by cases h), (fun h => by cases h), by decide, by decide, rfl,
    ⟨.sys .tabort m 0 0 0, rfl, rfl, rfl,
      sysError_none (((wellFormed_iff _).mp hw).2.1) (((wellFormed_iff _).mp hw).2.2.1 rfl) (by intro h; cases h)⟩⟩

theorem tstat m d k : Statement (.tstat m d k) := by
  intro r m' v' h hw
  cases h
  exact ⟨List.mem_of_getElem? (i := 105) rfl, by simp [fits, rowTstat, d.isLt, k.isLt],
      (fun _ => ((wellFormed_iff _).mp hw).2.2.1 rfl),
      (encodePfx_length ((wellFormed_iff _).mp hw).2.1).trans (Nat.le_of_ble_eq_true rfl),
    (fun h => by cases h), (fun h => by cases h), by decide, by decide, rfl,
    ⟨.sys .tstat m d (k.setWidth 5) 0,
      by simp [rowTstat, bv, arg, Nat.mod_eq_of_lt (show k.toNat < 4 from k.isLt), ← BitVec.ofNat_toNat],
      by simp [Dec.instr], rfl,
      sysError_none (((wellFormed_iff _).mp hw).2.1) (((wellFormed_iff _).mp hw).2.2.1 rfl) (by intro h; cases h)⟩⟩

theorem tret m d a b : Statement (.tret m d a b) := by
  intro r m' v' h hw
  cases h
  exact ⟨List.mem_of_getElem? (i := 106) rfl, by simp [fits, rowTret, d.isLt, a.isLt, b.isLt],
      (fun _ => ((wellFormed_iff _).mp hw).2.2.1 rfl),
      (encodePfx_length ((wellFormed_iff _).mp hw).2.1).trans (Nat.le_of_ble_eq_true rfl),
    (fun h => by cases h), (fun h => by cases h), by decide, by decide, rfl,
    ⟨.sys .tret m d a b, by simp [rowTret, bv, arg], rfl, rfl,
      sysError_none (((wellFormed_iff _).mp hw).2.1) (((wellFormed_iff _).mp hw).2.2.1 rfl) (by intro h; cases h)⟩⟩

theorem tlbinvPg a b : Statement (.tlbinvPg a b) := by
  intro r m' v' h hw
  cases h
  exact ⟨List.mem_of_getElem? (i := 107) rfl, by simp [fits, rowTlbinvPg, a.isLt, b.isLt], (fun _ => rfl), by decide,
    (fun _ => rfl), (fun _ => rfl), by decide, by decide, rfl,
    ⟨.sys .tlbinvPg {} 0 a b, by simp [rowTlbinvPg, bv, arg], rfl, rfl, rfl⟩⟩

theorem tlbinvAs a : Statement (.tlbinvAs a) := by
  intro r m' v' h hw
  cases h
  exact ⟨List.mem_of_getElem? (i := 108) rfl, by simp [fits, rowTlbinvAs, a.isLt], (fun _ => rfl), by decide,
    (fun _ => rfl), (fun _ => rfl), by decide, by decide, rfl,
    ⟨.sys .tlbinvAs {} 0 a 0, by simp [rowTlbinvAs, bv, arg], rfl, rfl, rfl⟩⟩

theorem asset a : Statement (.asset a) := by
  intro r m' v' h hw
  cases h
  exact ⟨List.mem_of_getElem? (i := 110) rfl, by simp [fits, rowAsset, a.isLt], (fun _ => rfl), by decide,
    (fun _ => rfl), (fun _ => rfl), by decide, by decide, rfl,
    ⟨.sys .asset {} 0 a 0, by simp [rowAsset, bv, arg], rfl, rfl, rfl⟩⟩

theorem launch m d a b : Statement (.launch m d a b) := by
  intro r m' v' h hw
  cases h
  exact ⟨List.mem_of_getElem? (i := 111) rfl, by simp [fits, rowLaunch, d.isLt, a.isLt, b.isLt],
      (fun _ => ((wellFormed_iff _).mp hw).2.2.1 rfl),
      (encodePfx_length ((wellFormed_iff _).mp hw).2.1).trans (Nat.le_of_ble_eq_true rfl),
    (fun h => by cases h), (fun h => by cases h), by decide, by decide, rfl,
    ⟨.sys .launch m d a b, by simp [rowLaunch, bv, arg], rfl, rfl,
      sysError_none (((wellFormed_iff _).mp hw).2.1) (((wellFormed_iff _).mp hw).2.2.1 rfl) (by intro h; cases h)⟩⟩

theorem lwait m d a : Statement (.lwait m d a) := by
  intro r m' v' h hw
  cases h
  exact ⟨List.mem_of_getElem? (i := 112) rfl, by simp [fits, rowLwait, d.isLt, a.isLt],
      (fun _ => ((wellFormed_iff _).mp hw).2.2.1 rfl),
      (encodePfx_length ((wellFormed_iff _).mp hw).2.1).trans (Nat.le_of_ble_eq_true rfl),
    (fun h => by cases h), (fun h => by cases h), by decide, by decide, rfl,
    ⟨.sys .lwait m d a 0, by simp [rowLwait, bv, arg], rfl, rfl,
      sysError_none (((wellFormed_iff _).mp hw).2.1) (((wellFormed_iff _).mp hw).2.2.1 rfl) (by intro h; cases h)⟩⟩

theorem lpoll m d a : Statement (.lpoll m d a) := by
  intro r m' v' h hw
  cases h
  exact ⟨List.mem_of_getElem? (i := 113) rfl, by simp [fits, rowLpoll, d.isLt, a.isLt],
      (fun _ => ((wellFormed_iff _).mp hw).2.2.1 rfl),
      (encodePfx_length ((wellFormed_iff _).mp hw).2.1).trans (Nat.le_of_ble_eq_true rfl),
    (fun h => by cases h), (fun h => by cases h), by decide, by decide, rfl,
    ⟨.sys .lpoll m d a 0, by simp [rowLpoll, bv, arg], rfl, rfl,
      sysError_none (((wellFormed_iff _).mp hw).2.1) (((wellFormed_iff _).mp hw).2.2.1 rfl) (by intro h; cases h)⟩⟩

theorem rcbq m d a k : Statement (.rcbq m d a k) := by
  intro r m' v' h hw
  cases h
  exact ⟨List.mem_of_getElem? (i := 114) rfl, by simp [fits, rowRcbq, d.isLt, a.isLt, k.isLt],
      (fun _ => ((wellFormed_iff _).mp hw).2.2.1 rfl),
      (encodePfx_length ((wellFormed_iff _).mp hw).2.1).trans (Nat.le_of_ble_eq_true rfl),
    (fun h => by cases h), (fun h => by cases h), by decide, by decide, rfl,
    ⟨.sys .rcbq m d a k, by simp [rowRcbq, bv, arg], rfl, rfl,
      sysError_none (((wellFormed_iff _).mp hw).2.1) (((wellFormed_iff _).mp hw).2.2.1 rfl) (by intro _; simpa [valueOk] using ((wellFormed_iff _).mp hw).2.2.2)⟩⟩

theorem spop m d : Statement (.spop m d) := by
  intro r m' v' h hw
  cases h
  exact ⟨List.mem_of_getElem? (i := 115) rfl, by simp [fits, rowSpop, d.isLt],
      (fun _ => ((wellFormed_iff _).mp hw).2.2.1 rfl),
      (encodePfx_length ((wellFormed_iff _).mp hw).2.1).trans (Nat.le_of_ble_eq_true rfl),
    (fun h => by cases h), (fun h => by cases h), by decide, by decide, rfl,
    ⟨.sys .spop m d 0 0, by simp [rowSpop, bv, arg], rfl, rfl,
      sysError_none (((wellFormed_iff _).mp hw).2.1) (((wellFormed_iff _).mp hw).2.2.1 rfl) (by intro h; cases h)⟩⟩

theorem spush m d a b : Statement (.spush m d a b) := by
  intro r m' v' h hw
  cases h
  exact ⟨List.mem_of_getElem? (i := 116) rfl, by simp [fits, rowSpush, d.isLt, a.isLt, b.isLt],
      (fun _ => ((wellFormed_iff _).mp hw).2.2.1 rfl),
      (encodePfx_length ((wellFormed_iff _).mp hw).2.1).trans (Nat.le_of_ble_eq_true rfl),
    (fun h => by cases h), (fun h => by cases h), by decide, by decide, rfl,
    ⟨.sys .spush m d a b, by simp [rowSpush, bv, arg], rfl, rfl,
      sysError_none (((wellFormed_iff _).mp hw).2.1) (((wellFormed_iff _).mp hw).2.2.1 rfl) (by intro h; cases h)⟩⟩

theorem wlapp m d a b : Statement (.wlapp m d a b) := by
  intro r m' v' h hw
  cases h
  exact ⟨List.mem_of_getElem? (i := 117) rfl, by simp [fits, rowWlapp, d.isLt, a.isLt, b.isLt],
      (fun _ => ((wellFormed_iff _).mp hw).2.2.1 rfl),
      (encodePfx_length ((wellFormed_iff _).mp hw).2.1).trans (Nat.le_of_ble_eq_true rfl),
    (fun h => by cases h), (fun h => by cases h), by decide, by decide, rfl,
    ⟨.sys .wlapp m d a b, by simp [rowWlapp, bv, arg], rfl, rfl,
      sysError_none (((wellFormed_iff _).mp hw).2.1) (((wellFormed_iff _).mp hw).2.2.1 rfl) (by intro h; cases h)⟩⟩

theorem wltake m d a : Statement (.wltake m d a) := by
  intro r m' v' h hw
  cases h
  exact ⟨List.mem_of_getElem? (i := 118) rfl, by simp [fits, rowWltake, d.isLt, a.isLt],
      (fun _ => ((wellFormed_iff _).mp hw).2.2.1 rfl),
      (encodePfx_length ((wellFormed_iff _).mp hw).2.1).trans (Nat.le_of_ble_eq_true rfl),
    (fun h => by cases h), (fun h => by cases h), by decide, by decide, rfl,
    ⟨.sys .wltake m d a 0, by simp [rowWltake, bv, arg], rfl, rfl,
      sysError_none (((wellFormed_iff _).mp hw).2.1) (((wellFormed_iff _).mp hw).2.2.1 rfl) (by intro h; cases h)⟩⟩

theorem quies m d a : Statement (.quies m d a) := by
  intro r m' v' h hw
  cases h
  exact ⟨List.mem_of_getElem? (i := 119) rfl, by simp [fits, rowQuies, d.isLt, a.isLt],
      (fun _ => ((wellFormed_iff _).mp hw).2.2.1 rfl),
      (encodePfx_length ((wellFormed_iff _).mp hw).2.1).trans (Nat.le_of_ble_eq_true rfl),
    (fun h => by cases h), (fun h => by cases h), by decide, by decide, rfl,
    ⟨.sys .quies m d a 0, by simp [rowQuies, bv, arg], rfl, rfl,
      sysError_none (((wellFormed_iff _).mp hw).2.1) (((wellFormed_iff _).mp hw).2.2.1 rfl) (by intro h; cases h)⟩⟩

theorem nop16 : Statement .nop16 := by
  intro r m' v' h hw
  cases h
  exact ⟨List.mem_of_getElem? (i := 0) rfl, rfl, (fun _ => rfl), by decide,
    (fun _ => rfl), (fun _ => rfl), by decide, by decide, rfl,
    ⟨.i .nop16, rfl, rfl, rfl, formError_of_wellFormed hw⟩⟩

theorem ret : Statement .ret := by
  intro r m' v' h hw
  cases h
  exact ⟨List.mem_of_getElem? (i := 55) rfl, rfl, (fun _ => rfl), by decide,
    (fun _ => rfl), (fun _ => rfl), by decide, by decide, rfl,
    ⟨.i .ret, rfl, rfl, rfl, formError_of_wellFormed hw⟩⟩

theorem nop : Statement .nop := by
  intro r m' v' h hw
  cases h
  exact ⟨List.mem_of_getElem? (i := 57) rfl, rfl, (fun _ => rfl), by decide,
    (fun _ => rfl), (fun _ => rfl), by decide, by decide, rfl,
    ⟨.i .nop, rfl, rfl, rfl, formError_of_wellFormed hw⟩⟩

theorem halt : Statement .halt := by
  intro r m' v' h hw
  cases h
  exact ⟨List.mem_of_getElem? (i := 58) rfl, rfl, (fun _ => rfl), by decide,
    (fun _ => rfl), (fun _ => rfl), by decide, by decide, rfl,
    ⟨.i .halt, rfl, rfl, rfl, formError_of_wellFormed hw⟩⟩

theorem tend : Statement .tend := by
  intro r m' v' h hw
  cases h
  exact ⟨List.mem_of_getElem? (i := 100) rfl, rfl, (fun _ => rfl), by decide,
    (fun _ => rfl), (fun _ => rfl), by decide, by decide, rfl,
    ⟨.i .tend, rfl, rfl, rfl, formError_of_wellFormed hw⟩⟩

theorem yield : Statement .yield := by
  intro r m' v' h hw
  cases h
  exact ⟨List.mem_of_getElem? (i := 101) rfl, rfl, (fun _ => rfl), by decide,
    (fun _ => rfl), (fun _ => rfl), by decide, by decide, rfl,
    ⟨.i .yield, rfl, rfl, rfl, formError_of_wellFormed hw⟩⟩

theorem tlbinvAll : Statement .tlbinvAll := by
  intro r m' v' h hw
  cases h
  exact ⟨List.mem_of_getElem? (i := 109) rfl, rfl, (fun _ => rfl), by decide,
    (fun _ => rfl), (fun _ => rfl), by decide, by decide, rfl,
    ⟨.i .tlbinvAll, rfl, rfl, rfl, formError_of_wellFormed hw⟩⟩

theorem ctlSplitWrite : Statement .ctlSplitWrite := fun _ _ _ h => by cases h

theorem ctlSplitApply : Statement .ctlSplitApply := fun _ _ _ h => by cases h

theorem slotPlanWrite : Statement .slotPlanWrite := fun _ _ _ h => by cases h

theorem qfenceReturn : Statement .qfenceReturn := fun _ _ _ h => by cases h

theorem tagWaitReturn : Statement .tagWaitReturn := fun _ _ _ h => by cases h

theorem tagWaitTimeout : Statement .tagWaitTimeout := fun _ _ _ h => by cases h

theorem barwaitReturn : Statement .barwaitReturn := fun _ _ _ h => by cases h

theorem quiesReturn : Statement .quiesReturn := fun _ _ _ h => by cases h

theorem quiesTimeout : Statement .quiesTimeout := fun _ _ _ h => by cases h

theorem sunbindComplete : Statement .sunbindComplete := fun _ _ _ h => by cases h

theorem streamFetch : Statement .streamFetch := fun _ _ _ h => by cases h

theorem streamStore : Statement .streamStore := fun _ _ _ h => by cases h

theorem alrGrant : Statement .alrGrant := fun _ _ _ h => by cases h

theorem alrHoldExpiry : Statement .alrHoldExpiry := fun _ _ _ h => by cases h

theorem lcfgApply : Statement .lcfgApply := fun _ _ _ h => by cases h

theorem lfenceReturn : Statement .lfenceReturn := fun _ _ _ h => by cases h

theorem lsyncRelease : Statement .lsyncRelease := fun _ _ _ h => by cases h

theorem trellisSwitch : Statement .trellisSwitch := fun _ _ _ h => by cases h

theorem lwstBind : Statement .lwstBind := fun _ _ _ h => by cases h

theorem lactLoad : Statement .lactLoad := fun _ _ _ h => by cases h

theorem lmacPiece : Statement .lmacPiece := fun _ _ _ h => by cases h

theorem lacczClear : Statement .lacczClear := fun _ _ _ h => by cases h

theorem laccrReadout : Statement .laccrReadout := fun _ _ _ h => by cases h

theorem lredReduce : Statement .lredReduce := fun _ _ _ h => by cases h

theorem ringFold : Statement .ringFold := fun _ _ _ h => by cases h

theorem mlayExecute : Statement .mlayExecute := fun _ _ _ h => by cases h

theorem munfExecute : Statement .munfExecute := fun _ _ _ h => by cases h

theorem mldExecute : Statement .mldExecute := fun _ _ _ h => by cases h

theorem mmulExecute : Statement .mmulExecute := fun _ _ _ h => by cases h

theorem mdrnExecute : Statement .mdrnExecute := fun _ _ _ h => by cases h

theorem mzeroExecute : Statement .mzeroExecute := fun _ _ _ h => by cases h

theorem msemWaitReturn : Statement .msemWaitReturn := fun _ _ _ h => by cases h

theorem transferChunk : Statement .transferChunk := fun _ _ _ h => by cases h

theorem creqExecute : Statement .creqExecute := fun _ _ _ h => by cases h

theorem transferCompletion : Statement .transferCompletion := fun _ _ _ h => by cases h

theorem completionRecordWrite : Statement .completionRecordWrite := fun _ _ _ h => by cases h

theorem ringWaitTimeout : Statement .ringWaitTimeout := fun _ _ _ h => by cases h

theorem systemWriteAck : Statement .systemWriteAck := fun _ _ _ h => by cases h

theorem remoteNak : Statement .remoteNak := fun _ _ _ h => by cases h

theorem systemReadResponse : Statement .systemReadResponse := fun _ _ _ h => by cases h

theorem sqwaitReturn : Statement .sqwaitReturn := fun _ _ _ h => by cases h

theorem sqwaitTimeout : Statement .sqwaitTimeout := fun _ _ _ h => by cases h

theorem lenAdvance : Statement .lenAdvance := fun _ _ _ h => by cases h

theorem sqattnExecute : Statement .sqattnExecute := fun _ _ _ h => by cases h

theorem taskStart : Statement .taskStart := fun _ _ _ h => by cases h

theorem taskCommit : Statement .taskCommit := fun _ _ _ h => by cases h

theorem deadlockDetect : Statement .deadlockDetect := fun _ _ _ h => by cases h

theorem trapDelivery : Statement .trapDelivery := fun _ _ _ h => by cases h

theorem trapRecordPublish : Statement .trapRecordPublish := fun _ _ _ h => by cases h

theorem regionAdmission : Statement .regionAdmission := fun _ _ _ h => by cases h

theorem launchPriorityRise : Statement .launchPriorityRise := fun _ _ _ h => by cases h

theorem balancerRun : Statement .balancerRun := fun _ _ _ h => by cases h

theorem coreJoinStage : Statement .coreJoinStage := fun _ _ _ h => by cases h

theorem coreGrant : Statement .coreGrant := fun _ _ _ h => by cases h

theorem coreWaitPriorityRise : Statement .coreWaitPriorityRise := fun _ _ _ h => by cases h

theorem quiescenceReport : Statement .quiescenceReport := fun _ _ _ h => by cases h

theorem regionCompletion : Statement .regionCompletion := fun _ _ _ h => by cases h

theorem regionAbort : Statement .regionAbort := fun _ _ _ h => by cases h

theorem lwaitYield : Statement .lwaitYield := fun _ _ _ h => by cases h

theorem lwaitResume : Statement .lwaitResume := fun _ _ _ h => by cases h

theorem launchMessage : Statement .launchMessage := fun _ _ _ h => by cases h

theorem abortMessage : Statement .abortMessage := fun _ _ _ h => by cases h

theorem spaceMessage : Statement .spaceMessage := fun _ _ _ h => by cases h

theorem balloonMessage : Statement .balloonMessage := fun _ _ _ h => by cases h

theorem pageWalk : Statement .pageWalk := fun _ _ _ h => by cases h

theorem l2Writeback : Statement .l2Writeback := fun _ _ _ h => by cases h

theorem rakeReclaim : Statement .rakeReclaim := fun _ _ _ h => by cases h

theorem spaceTimeout : Statement .spaceTimeout := fun _ _ _ h => by cases h

theorem balloonReclaim : Statement .balloonReclaim := fun _ _ _ h => by cases h

theorem granuleMigrate : Statement .granuleMigrate := fun _ _ _ h => by cases h

theorem columnDrain : Statement .columnDrain := fun _ _ _ h => by cases h

theorem columnRetire : Statement .columnRetire := fun _ _ _ h => by cases h

theorem migrationTimeout : Statement .migrationTimeout := fun _ _ _ h => by cases h

theorem migrationRetry : Statement .migrationRetry := fun _ _ _ h => by cases h

theorem frameBoundary : Statement .frameBoundary := fun _ _ _ h => by cases h

theorem streamingSlot : Statement .streamingSlot := fun _ _ _ h => by cases h

theorem refreshSlot : Statement .refreshSlot := fun _ _ _ h => by cases h

theorem maintenanceSlot : Statement .maintenanceSlot := fun _ _ _ h => by cases h

theorem retrainingDue : Statement .retrainingDue := fun _ _ _ h => by cases h

theorem retrainingForce : Statement .retrainingForce := fun _ _ _ h => by cases h

theorem retrainingEnd : Statement .retrainingEnd := fun _ _ _ h => by cases h

theorem bankSleep : Statement .bankSleep := fun _ _ _ h => by cases h

theorem bankWake : Statement .bankWake := fun _ _ _ h => by cases h

theorem powerSample : Statement .powerSample := fun _ _ _ h => by cases h

theorem preemptionRequest : Statement .preemptionRequest := fun _ _ _ h => by cases h

theorem contextHalt : Statement .contextHalt := fun _ _ _ h => by cases h

theorem unitStopAck : Statement .unitStopAck := fun _ _ _ h => by cases h

theorem collectorReport : Statement .collectorReport := fun _ _ _ h => by cases h

theorem partitionSwap : Statement .partitionSwap := fun _ _ _ h => by cases h

theorem contextRestore : Statement .contextRestore := fun _ _ _ h => by cases h

theorem rdmaWriteInbound : Statement .rdmaWriteInbound := fun _ _ _ h => by cases h

theorem rdmaReadInbound : Statement .rdmaReadInbound := fun _ _ _ h => by cases h

theorem congestionNotification : Statement .congestionNotification := fun _ _ _ h => by cases h

theorem frameDrop : Statement .frameDrop := fun _ _ _ h => by cases h

theorem flitReplay : Statement .flitReplay := fun _ _ _ h => by cases h

theorem portRetrain : Statement .portRetrain := fun _ _ _ h => by cases h

theorem boot : Statement .boot := fun _ _ _ h => by cases h

theorem attestationRequest : Statement .attestationRequest := fun _ _ _ h => by cases h

theorem configRecordSubmit : Statement .configRecordSubmit := fun _ _ _ h => by cases h

theorem firmwareImageLoad : Statement .firmwareImageLoad := fun _ _ _ h => by cases h

theorem firmwareSlotSwitch : Statement .firmwareSlotSwitch := fun _ _ _ h => by cases h

theorem firmwareSwitchBack : Statement .firmwareSwitchBack := fun _ _ _ h => by cases h

theorem fatalError : Statement .fatalError := fun _ _ _ h => by cases h

theorem priorityFlowControlFrame : Statement .priorityFlowControlFrame := fun _ _ _ h => by cases h

theorem ucieLaneRepair : Statement .ucieLaneRepair := fun _ _ _ h => by cases h

theorem idustTranslationDone : Statement .idustTranslationDone := fun _ _ _ h => by cases h

end Sys2Proof.Laws.Encoding
end

