-- ==== Sys2Proof/Laws/Step.lean ====
section
/-! SUPPORT. One step taken apart: the slot of the agenda, and what each kind of slot does. -/

namespace Sys2Proof.Machine

/-- A decoded word does what its instruction does. -/
theorem execDec_eq (d : Dec) (s : State) : execDec d s = exec d.instr s := by
  cases d with
  | i v => rfl
  | sys k m d a b => cases k <;> rfl

/-- A step takes the first slot of the agenda, and its clocks pass. -/
theorem step_slot {s : State} {t : Slot} {r : List Slot} (h : s.agenda = t :: r) :
    step s = (({ s with agenda := r } : State).tick t.elapsed).act t := by
  unfold step State.run State.nextSlot; rw [h]

theorem State.act_engine {s : State} {t : Slot} {core ctx : Nat} {e : Eng} {hold : Bool} (hf : s.fatal = none)
    (h : t.act = .engine core ctx e hold) (hc : ctx < 4) :
    s.act t =
      if s.mayStep (ctxKey core ctx) e && s.turnOpen core ctx e then
        (({ s with cur := { core := core, ctx := ctx, eng := e, hold := hold, pick := t.pick } } : State).modCore core fun c =>
          c.serveEngine s.clock (turnKey ctx e)).runEngine
      else .next { s with cur := { core := core, ctx := ctx, eng := e, hold := hold, pick := t.pick } } := by
  unfold State.act; rw [if_neg (by simp [hf, h, Action.named, hc]), h]

theorem State.act_event {s : State} {t : Slot} {i : Instr} {a : EvArgs} (hf : s.fatal = none) (h : t.act = .event i a)
    (hc : a.ctx < 4) :
    s.act t =
      if instrIsEvent i && (s.booted || beforeBoot i) then
        exec i { s with cur := { core := a.core, ctx := a.ctx, eng := a.eng, pick := t.pick, ev := a } }
      else .next { s with cur := { core := a.core, ctx := a.ctx, eng := a.eng, pick := t.pick, ev := a } } := by
  unfold State.act; rw [if_neg (by simp [hf, h, Action.named, hc]), h]

/-- Parcels that decode do what the instruction that they decode to does. -/
theorem State.runParcels_ok {s : State} {ps : List Parcel} {i : Instr} {n : Nat} (h : decode ps = .ok (i, n)) :
    s.runParcels ps = exec i { s with cur := { s.cur with len := n } } := by
  unfold decode at h
  cases hd : decodeDec ps with
  | error e => rw [hd] at h; cases h
  | ok x =>
    obtain ⟨d, k⟩ := x
    rw [hd] at h
    cases h
    unfold State.runParcels
    rw [hd]
    exact execDec_eq _ _

/-- Parcels that do not decode trap the task. -/
theorem State.runParcels_error {s : State} {ps : List Parcel} {e : DecodeError} (h : decodeDec ps = .error e) :
    s.runParcels ps = .next (s.trapHere (decodeFault e)) := by
  unfold State.runParcels; rw [h]

end Sys2Proof.Machine
end

