-- ==== Sys2Proof/Tests/Slice0.lean ====
section
/-! SUPPORT. Small tests, each with its expected result from the worked words and tables of spec/, and for each statement
of Certificates/Slice0/Obligations.lean that has hypotheses a concrete state and operands that meet them. -/

namespace Sys2Proof.Tests

open Sys2Proof Sys2Proof.Machine

set_option Elab.async false

/-! ## Words written out in the manual, one or more of each family -/

theorem test_word_header : decodeTableWord 32 0x07006601 = some (.blockHeader 7 6 6) := by decide +kernel
theorem test_word_shri16 : decodeTableWord 16 0x4B28 = some (.shri16 9 12) := by decide +kernel
theorem test_word_li16 : decodeTableWord 16 0x304C = some (.li16 6 1) := by decide +kernel
theorem test_word_add : decodeTableWord 32 0x298E0005 = some (.add {} 5 6 7) := by decide +kernel
theorem test_word_add_sat : decodeTableWord 48 (0x01E3 + 65536 * 0x298C0005) =
    some (.add { pfx := { rnd := some { ftz := false, sat := true, rm := none } } } 5 6 6) := by decide +kernel
theorem test_word_addi : decodeTableWord 32 0x2948000D = some (.addi {} 5 5 0x80) := by decide +kernel
theorem test_word_shli : decodeTableWord 32 0x3183E01D = some (.shli {} 6 6 0x3E) := by decide +kernel
theorem test_word_cmpi : decodeTableWord 32 0x244FD03D = some (.cmpi {} .lt 2 4 0xFD) := by decide +kernel
theorem test_word_bc : decodeTableWord 32 0x5FFEC049 = some (.bc 2 1 0xFFEC) := by decide +kernel
theorem test_word_bcast : decodeTableWord 32 0x09C00059 = some (.bcast 1 7 0) := by decide +kernel
theorem test_word_ldg : decodeTableWord 32 0x29B4806D = some (.ldg {} 5 6 .i64s 8) := by decide +kernel
theorem test_word_qfence : decodeTableWord 32 0x10004079 = some (.qfence {} 0 4) := by decide +kernel
theorem test_word_tffr : decodeTableWord 32 0x4900207D = some (.tffr {} 9 4) := by decide +kernel
theorem test_word_barwait : decodeTableWord 32 0x298E2085 = some (.barwait {} 5 6 7) := by decide +kernel
theorem test_word_vldg : decodeTableWord 64 0xA2140003A010002A = some (.vldg {} 1 5 (.x 0) 7 0x100) := by decide +kernel
theorem test_word_aadd_release : decodeTableWord 80 (0x01C7 + 65536 * 0x0A18380200008036) =
    some (.aadd { pfx := { ord := some { scope := .device, rel := true, acq := false } } } 5 6 7 .quad 8) := by decide +kernel
theorem test_word_vadd : decodeTableWord 32 0x298E209D = some (.vaddC {} 5 6 7 2) := by decide +kernel
theorem test_word_vmadd : decodeTableWord 64 0x1204150040004006 = some (.vmadd {} (.v 9) (.v 1) (.v 2) (.fd 0) 0 .i16s) := by
  decide +kernel
theorem test_word_vfma : decodeTableWord 64 0x080410303001200A = some (.vfma {} (.v 4) (.v 1) (.v 2) (.v 3) .fp32) := by
  decide +kernel
theorem test_word_vcvt : decodeTableWord 64 0x0E10000000430012 = some (.vcvt {} (.v 7) (.v 4) 0 0x10 0x30) := by decide +kernel
theorem test_word_vli : decodeTableWord 64 0x0400000053C00022 = some (.vli {} (.v 2) 0 .w16 0x3C00) := by decide +kernel
theorem test_word_sbind : decodeTableWord 64 0x861C000000040026 = some (.sbind {} 3 7 0x40) := by decide +kernel
theorem test_word_lact : decodeTableWord 64 0x0034709010002042 = some (.lact {} 13 14 9 2) := by decide +kernel
theorem test_word_lmac : decodeTableWord 64 0x0010780020040042 = some (.lmac {} 4 15 1) := by decide +kernel
theorem test_word_mmul : decodeTableWord 64 0x00183800B2AC0046 = some (.mmul {} 6 7 0 1 2 1 5 1) := by decide +kernel
theorem test_word_xcopy : decodeTableWord 64 0x00140000000C304A = some (.xcopy {} 5 0 1 1 3) := by decide +kernel
theorem test_word_creq : decodeTableWord 64 0x001800000004904E = some (.creq {} 6 0 0 1 9) := by decide +kernel
theorem test_word_sqres : decodeTableWord 64 0x0A18380010000052 = some (.sqres {} 5 6 7) := by decide +kernel
theorem test_word_ldq : decodeTableWord 64 0x0A1838800000305A = some (.ldq {} 5 6 7 8 3) := by decide +kernel
theorem test_word_sqattn : decodeTableWord 64 0x001838000004305E = some (.sqattn {} 6 7 1 3) := by decide +kernel
theorem test_word_chk : decodeTableWord 32 0x00C83089 = some (.chk {} 3 4) := by decide +kernel
theorem test_word_tret : decodeTableWord 32 0x29D06089 = some (.tret {} 5 7 8) := by decide +kernel
theorem test_word_tlbinv : decodeTableWord 32 0x014C008D = some (.tlbinvPg 5 6) := by decide +kernel
theorem test_word_launch : decodeTableWord 32 0x298E0091 = some (.launch {} 5 6 7) := by decide +kernel
theorem test_word_quies : decodeTableWord 32 0x1A002099 = some (.quies {} 3 8) := by decide +kernel

/-! ## Ill-formed instructions, which the checks refuse -/

theorem test_refuses_prefix : formError (.add { pfx := { imm := some 1 } } 5 6 7) = some .prefixes := by decide +kernel
theorem test_refuses_token : formError (.trap { tk := 1 } 5) = some .token ∧ formError (.mov { tk := 1 } 5 6) = none := by
  decide +kernel
theorem test_refuses_value : formError (.bext {} 5 6 1 63) = some .value ∧ formError (.rcbq {} 5 6 14) = some .value := by
  decide +kernel
theorem test_refuses_event : formError .taskStart = some .event := by decide +kernel
theorem test_refuses_unassigned : decodeTableWord 32 0x000000FD = none := by decide +kernel
theorem test_refuses_reserved_bits : decodeTableWord 16 0x0840 = none := by decide +kernel

/-! ## Small states -/

/-- A running task on core `n`, its engine `e` about to issue an instruction of two parcels, with the x registers `l`. -/
def on (e : Eng) (n : Nat := 0) (l : Tab Quad := []) : State :=
  { cur := { core := n, eng := e, len := 2 }, ctxs := [(4 * n, { st := .run, engs := [(engIdx e, { x := l })] })] }

/-- The state after an instruction, or the state itself where it stops. -/
def after (i : Instr) (s : State) : State := match exec i s with | .next t => t | _ => s

theorem on_cc (e : Eng) (n : Nat) (l : Tab Quad) : (on e n l).cc = { st := .run, engs := [(engIdx e, { x := l })] } := by
  simp [State.cc, State.me, ctxKey, on, State.ctx, tget]

/-- Every instruction without prefixes and token fields, and without a queue to pop, is ready on an engine of its list. -/
theorem ready_on (i : Instr) (e : Eng) (n : Nat) (l : Tab Quad) (hm : instrMods i = {})
    (hc : classOk (formOf i (on e n l)).cls e = true) (hp : instrPops i e = []) : Ready (on e n l) i := by
  have hb : (on e n l).ce.blk = none := by
    rw [State.ce, on_cc]; cases e <;> rfl
  have hs : (formOf i (on e n l)).srcs = [] := hp
  have hf : (formOf i (on e n l)).mods = {} := hm
  have hq (q : QEnd) : (on e n l).cc.queueRoom q = true := by
    rw [on_cc]; cases q <;> rfl
  refine ⟨?_, ?_, ?_⟩
  · simp [State.legal, hf, State.multi, hb, tkOk, show (on e n l).cur.eng = e from rfl, hc]
  · have hr : (on e n l).cc.mq = [] := by rw [on_cc]
    simp [State.blocked, State.resultPending, State.tokensBlocked, State.queuesBlocked, hf, hs, hq, hr]
  · simp [State.guardOff, hm]

/-! ## Decoding and the step -/

theorem met_DecodeInvertsEncode : wellFormed (.lred {} 4 0 16 0 1 .a56) = true ∧ instrIsWord (.lred {} 4 0 16 0 1 .a56) = true ∧
    wellFormed (.bext {} 5 6 1 62) = true := by decide +kernel
theorem met_DecodedIsWellFormed : decode [0x0005#16, 0x298E#16, 0#16] = .ok (.add {} 5 6 7, 2) := by rfl
theorem met_OrphanPrefixFaults : parcelLen 0x01C7#16 = 3 ∧ parcelLen 0#16 = 0 ∧ parcelLen 0x0049#16 = 1 ∧
    (0x0045#16).toNat / 4 % 64 = 17 ∧ (0x005D#16).toNat / 4 % 64 = 23 := by decide +kernel
theorem test_orphan_prefix_traps : ((on .x).runParcels [0x01C7#16]) = .next ((on .x).trapHere .pfx) := by rfl

/-- The machine in which the next step fetches `add x5, x6, x7` on X. -/
def fetching : State := State.reset.withFetchWord 32 0x298E0005
theorem met_StepRunsTheInstruction :
    (∃ t rest, fetching.agenda = t :: rest ∧ fetching.fatal = none ∧ ∃ core ctx e hold, t.act = .engine core ctx e hold ∧
      let u := fetching.acting t rest core ctx e hold
      ctx < 4 ∧ (fetching.passed t rest).turnOpen core ctx e = true ∧ u.mayStep (ctxKey core ctx) e = true ∧ ∃ b ps, u.ce.blk = some b ∧ b.begun = true ∧
        u.fetchInstr u.me u.cur.eng false u.ce.pc (b.next - u.ce.pc) = .ok ps ∧ decode ps = .ok (.add {} 5 6 7, 2)) := by
  refine ⟨_, _, rfl, rfl, _, _, _, _, rfl, by decide +kernel, by decide +kernel, by decide +kernel, _, [0x0005#16, 0x298E#16], rfl, rfl, rfl, rfl⟩
theorem met_StepRunsTheInstruction_header :
    let h := State.reset.withFetchWord 32 0x07006601
    ∃ t rest, h.agenda = t :: rest ∧ ∃ core ctx e hold, t.act = .engine core ctx e hold ∧
      let u := h.acting t rest core ctx e hold
      u.mayStep (ctxKey core ctx) e = true ∧ u.ce.blk = none ∧ u.headerAt u.me u.cur.eng false u.ce.pc = .ok (some (.blockHeader 7 6 6)) := by
  refine ⟨_, _, rfl, _, _, _, _, rfl, by decide +kernel, rfl, rfl⟩
theorem met_StepRunsTheInstruction_event : ({ agenda := [{ act := .event .taskStart {} }] } : State).fatal = none ∧
    instrIsEvent .taskStart = true ∧ ({ booted := true } : State).booted = true ∧ beforeBoot .boot = true ∧ afterFatal (.event .taskStart {}) = false ∧
    ({ fatal := some (0, 0) } : State).fatal ≠ none := by decide +kernel
theorem met_EveryStepKeepsMemoryCanonical : Memory.wf State.reset.mem = true ∧ Memory.wf [(8, 1#8), (9, 2#8)] = true ∧
    Memory.wf [(8, 0#8)] = false ∧ Memory.wf [(9, 1#8), (8, 1#8)] = false ∧
    ∃ t, step fetching = .next t := ⟨rfl, rfl, rfl, rfl, _, rfl⟩

/-! ## Issue -/

/-- X in a block that the mask tags. -/
def inBlock (mask : BitVec 4) : State :=
  { cur := { eng := .x, len := 2 }, ctxs := [(0, { st := .run, engs := [(0, { pc := 2, blk := some { head := 0, next := 6, left := 1, begun := true, mask := mask } })] })] }
theorem met_EngineOutsideListFaults : classOk (instrEngines (.bcast 1 7 0)) (on .l).cur.eng = false ∧
    (inBlock 3).multi = true ∧ classCommon (instrEngines (.bcast 1 7 0)) = false ∧ instrIsWord (.bcast 1 7 0) = true := by
  decide +kernel
theorem met_TokenFieldAndGuardFaults : let i (k : BitVec 4) : Instr := .add { tk := k } 5 6 7
    instrIsWord (i 1) = true ∧ (instrMods (i 1)).tk ≠ 0 ∧ (instrMods (i 1)).tk.getLsbD 0 = true ∧
    (instrMods (i 8)).tk.getLsbD 3 = true ∧ (inBlock 3).multi = true ∧
    (instrMods (.add { pfx := { guard := some { pred := 0, sense := true } } } 5 6 7)).pfx.guard ≠ none := by decide +kernel
theorem met_StalledInstructionHasNoEffect : let s := on .c
    instrIsWord (.xrecv {} 5) = true ∧ wellFormed (.xrecv {} 5) = true ∧ s.legal (formOf (.xrecv {} 5) s) = true ∧
    s.blocked (formOf (.xrecv {} 5) s) = some .queue := by decide +kernel
theorem met_GuardedOffInstructionKeepsBalance : let s := on .x
    let i : Instr := .add { pfx := { guard := some { pred := 0, sense := false } } } 5 6 7
    instrIsWord i = true ∧ wellFormed i = true ∧ s.legal (formOf i s) = true ∧ s.blocked (formOf i s) = none ∧
    s.guardOff (instrMods i) = true := by decide +kernel
/-- X and L in a block of two instances more, X one slip window ahead where `ahead` says so. -/
def walking (ahead : Nat) (left : Nat) : Ctx :=
  let b : Blk := { head := 0, next := 6, left := left, begun := true, mask := 3 }
  { st := .run, engs := [(0, { pc := 4, blk := some b, insts := [(0, ahead)] }), (1, { pc := 4, blk := some b, insts := [(0, 1)] })] }
theorem met_RetirementAndWalk : ((walking 1 1).eng .x).blk.isSome = true ∧ ((walking 1 1).eng .x).pc + 1 < 6 ∧
    6 ≤ ((walking 1 1).eng .x).pc + 2 ∧ (walking 16 1).windowOpen .x 0 3 = true ∧ (walking 17 1).windowOpen .x 0 3 = false := by
  decide +kernel
theorem met_FirstFaultTrapsTheTask : let t : Trap := { code := .qfault, eng := .l, pc := 0, addr := 0, info := 0, clock := 5 }
    ((on .x).ctx 0).st = .run ∧ ((on .x).ctx 0).trap = none ∧
    (((on .x).raise 0 t).ctx 0).st = .trapped ∧ (((on .x).raise 0 t).ctx 0).trap = some t ∧ engIdx .x < engIdx .l := by
  decide +kernel

/-! ## Integer instructions -/

/-- X with 2^63 − 1 in `x6`, −1 in `x7` and −2^63 in `x8`. -/
def sums : State := on .x 0 [(6, 0x7FFFFFFFFFFFFFFF), (7, 0xFFFFFFFFFFFFFFFF), (8, 0x8000000000000000)]
theorem met_IntegerResults : scalarResult (.add {} 5 6 6) sums = some (5, 0xFFFFFFFFFFFFFFFE) ∧ Ready sums (.add {} 5 6 6) ∧
    scalarResult (.mov16 0 6) sums = some (0, 0x7FFFFFFFFFFFFFFF) ∧ Ready sums (.mov16 0 6) :=
  ⟨by decide +kernel, ready_on _ _ _ _ rfl rfl rfl, by decide +kernel, ready_on _ _ _ _ rfl rfl rfl⟩
theorem met_PredicateResults : predResult (.cmpi {} .lt 2 7 0xFF) sums = some (2, false) ∧ Ready sums (.cmpi {} .lt 2 7 0xFF) :=
  ⟨by decide +kernel, ready_on _ _ _ _ rfl rfl rfl⟩
theorem test_add_saturates : (after (.add { pfx := { rnd := some { ftz := false, sat := true, rm := none } } } 5 6 6) sums).rx 5 =
    0x7FFFFFFFFFFFFFFF := by decide +kernel
theorem test_div_overflow : (after (.div {} 5 8 7) sums).rx 5 = 0x8000000000000000 ∧ (after (.rem {} 5 8 7) sums).rx 5 = 0 ∧
    (after (.div {} 5 6 0) sums).rx 5 = 0xFFFFFFFFFFFFFFFF ∧ (after (.rem {} 5 6 0) sums).rx 5 = (sums.rx 6) := by decide +kernel
theorem test_x0_discards : (after (.mov16 0 6) sums).rx 0 = 0 := by decide +kernel
theorem met_IntegerAndHalfStepFormats : intSpec .h4s = some { w := 4, sgn := false, half := true, low := -8 } ∧
    fmtRound .h4s .rne false false (fmtValue .h4s false 15) = 15 := by decide +kernel

/-! ## The walk of the text, and loads and stores -/

/-- A page table that maps the page at 0 to the one at 8192. -/
def pageTable : Mem :=
  [(32768, 40961), (40960, 49153), (49152, 57345), (57344, 8192 + 27)].foldl (fun m p => memWrite m p.1 (leBytes 8 p.2)) []
/-- A running task on core 0, whose scratchpad has 64 KiB, and whose TLB maps the page at 8192 for data and the one at
16384 for the text `t` of region 1; its engine `e` with the x registers `l`. -/
def task (e : Eng) (l : Tab Quad := []) (t : List Parcel := []) (g : Engine := {}) (c : Ctx := {}) : State :=
  { cur := { eng := e, len := 2 }
    ctxs := [(0, { c with st := .run, regid := 1, taskid := 7, engs := (engIdx e, { g with x := l }) :: c.engs })]
    cores := [(0, { spad := 1, allot := 1, tlb := [{ part := 0, asid := 0, va := 8192, size := 8192, pa := 8192, w := true, x := false },
      { part := 0, asid := 0, va := 16384, size := 8192, pa := 16384, w := false, x := true }] })]
    regions := [(1, { regid := 1, live := true, rcb := { vlines := 4, lslots := 1 }, textVa := 16384, textLen := 2 * t.length, trellis := [{ core := [0, 1] }] })]
    grans := [(1, { bed := 0, col := 0, raw := true }), (2, { bed := 0, col := 0, raw := true })]
    mem := memWrite [] 16384 (t.flatMap fun p => leBytes 2 p.toNat) }

/-- An instruction without prefixes and token fields, and without a queue to pop, is ready where no access is pending and the
queues are empty. -/
theorem ready_of (i : Instr) (s : State) (hm : instrMods i = {}) (hc : classOk (formOf i s).cls s.cur.eng = true)
    (hp : instrPops i s.cur.eng = []) (h0 : s.cc.mq = []) (hb : s.multi = false)
    (hq : s.cc.fd = [] ∧ s.cc.dn = [] ∧ s.cc.bk = [] ∧ s.cc.xq = [] ∧ s.cc.bq = []) : Ready s i := by
  obtain ⟨h1, h2, h3, h4, h5⟩ := hq
  have hs : (formOf i s).srcs = [] := hp
  have hf : (formOf i s).mods = {} := hm
  have hr (q : QEnd) : s.cc.queueRoom q = true := by
    cases q <;> simp only [Ctx.queueRoom, Ctx.queueLen, h1, h2, h3, h4, h5] <;> rfl
  refine ⟨?_, ?_, ?_⟩
  · simp [State.legal, hf, hb, tkOk, hc]
  · simp [State.blocked, State.resultPending, State.tokensBlocked, State.queuesBlocked, hf, hs, hr, h0]
  · simp [State.guardOff, hm]

/-- The text of a block of two parcels, and X past it with 0 and 1 in `x31` and `x5`. -/
def branching : State := task .x [(31, 0), (5, 1)] (encode (.blockHeader 0 2 1)) { p := 4 }
theorem met_BranchesGoToTheirTarget :
    branchOf (.bc 2 1 4) branching = some (false, 4) ∧ Ready branching (.bc 2 1 4) ∧
    branchOf .ret branching = some (true, 0) ∧ Ready branching .ret ∧ HeaderAt branching 0 ∧
    branchOf (.call 0) branching = some (true, 0) ∧ branchLinks (.call 0) = true ∧
    branchOf (.bx 5) branching = some (true, 1) ∧ (branching.cr.textLen : Int) < 2 * (1 + 2) ∧
    branchOf (.bra 0x3FFF) branching = some (true, 16383) ∧ branchOf (.bc 2 0 0x1FFF) branching = some (true, 8191) :=
  ⟨by decide +kernel, ready_of _ _ rfl rfl rfl rfl rfl ⟨rfl, rfl, rfl, rfl, rfl⟩, by decide +kernel,
   ready_of _ _ rfl rfl rfl rfl rfl ⟨rfl, rfl, rfl, rfl, rfl⟩, ⟨by decide, by decide, _, _, rfl, by decide, by decide⟩,
   by decide +kernel, rfl, by decide +kernel, by decide +kernel, by decide +kernel, by decide +kernel⟩
theorem test_call_links : (after (.call (-2)) (task .x [] (encode (.blockHeader 0 2 1))
    { pc := 2, blk := some { head := 0, next := 4, left := 0, begun := true, mask := 1 } })).rx 31 = 4 := by decide +kernel
theorem met_BlockHeaderEntersItsBlock : let s := task .x [(5, 0)] [0, 0, 0, 0]
    headerCount (.blockHeader 7 2 3) s = some (8, 2, 3) ∧ headerWaits (.blockHeader 7 2 3) s = false ∧
    headerCount (.blockHeaderReg 5 2 1) s = some (0, 2, 1) ∧ headerWaits (.blockHeaderReg 5 2 1) s = false ∧
    2 * (s.ce.pc + 2 + 2) = s.cr.textLen ∧ s.cr.textLen < 2 * (s.ce.pc + 2 + 3) ∧
    maskHas 3 .x = true ∧ maskHas 2 .x = false ∧ s.cc.windowOpen .x 0 3 = true ∧
    (walking 17 1).windowOpen .x 0 3 = false := by decide +kernel
theorem met_NopsAndScalarsBetweenEngines : Ready (on .x) .nop16 ∧ Ready (on .s) .nop ∧ Ready (on .x) (.bcast 1 7 0) ∧
    Ready (on .x) (.xsend {} 7 5) ∧
    Ready ({ ctxs := [(0, { st := .run, xq := [(2, [9])] })], cur := { eng := .c, len := 2 } } : State) (.xrecv {} 5) :=
  ⟨ready_on _ _ _ _ rfl rfl rfl, ready_on _ _ _ _ rfl rfl rfl, ready_on _ _ _ _ rfl rfl rfl, ready_on _ _ _ _ rfl rfl rfl,
   by decide +kernel, by decide +kernel, by decide +kernel⟩
theorem met_TokenInstructions : Ready (on .c) (.tkpush 1) ∧ Ready (on .l) (.tkpop 0) ∧ neighbourOk .c true = true ∧
    neighbourOk .l false = false ∧ (on .c).ownPerformed = true ∧ (on .c).cc.tokRoom .c true = true ∧ (on .l).cc.tokThere .l true = false :=
  ⟨ready_on _ _ _ _ rfl rfl rfl, ready_on _ _ _ _ rfl rfl rfl, by decide +kernel⟩
theorem met_SoftwareTraps : Ready (on .x) .halt ∧ Ready (on .l) (.trap {} 5) ∧ Ready sums (.chk {} 6 6) ∧ Ready (on .x) (.tabort {}) :=
  ⟨ready_on _ _ _ _ rfl rfl rfl, ready_on _ _ _ _ rfl rfl rfl, ready_on _ _ _ _ rfl rfl rfl, ready_on _ _ _ _ rfl rfl rfl⟩
theorem test_chk_traps_at_its_bound : ((after (.chk {} 6 6) sums).cc.trap.map (·.code)) = some .watch ∧
    (after (.chk {} 6 8) sums).cc.trap = none := by decide +kernel
theorem met_StatusReads : readResult (.clock {} 5) (on .x) = some (5, 0) ∧ Ready (on .x) (.clock {} 5) :=
  ⟨by decide +kernel, ready_on _ _ _ _ rfl rfl rfl⟩
theorem met_SpecialRegisterWrites : Ready sums (.mts {} 6 1) ∧ Ready (on .x) (.mfs {} 5 511) ∧ sprWord 511 (on .x) = none ∧
    sprWord 0 (on .x) = none ∧ sprWord 1 (on .x) = some 16 :=
  ⟨ready_on _ _ _ _ rfl rfl rfl, ready_on _ _ _ _ rfl rfl rfl, by decide +kernel⟩
theorem met_AddressChecks : let s := task .x
    9 % 8 ≠ 0 ∧ 65536 * (s.core s.cur.core).spad < 65529 + 8 ∧ 65528 + 8 ≤ 65536 * (s.core s.cur.core).spad ∧
    s.checked .l false 8 65528 8 = .ok [{ place := .spad 0, addr := 65528, len := 8, off := 0, va := 65528 }] ∧
    s.peerCore 1 = some 1 ∧ s.peerCore 2 = none ∧ (2 ^ 53) % 8 = 0 ∧ s.checked .g false 8 (2 ^ 53 - 8) 8 = .miss (2 ^ 53 - 8) := by
  decide +kernel

/-- X in its second block, with a store of S in the first one still to come. -/
def behindStore : State :=
  let text := encode (.blockHeader 0 2 8) ++ encode (.stl {} 5 6 .w64 0)
  { task .l [(6, 8)] [] { visits := [4, 0], pc := 6, blk := some { head := 4, next := 8, left := 0, begun := true, mask := 2 } } with
    regions := [(1, { regid := 1, live := true, textLen := 16, textBytes := some (text.flatMap fun p => leBytes 2 p.toNat) })] }
theorem met_LoadsEnterTheirQueue :
    (loadOf (.ldl {} 5 6 .i64s 0) (task .l [(6, 8)])).isSome = true ∧ Ready (task .l [(6, 8)]) (.ldl {} 5 6 .i64s 0) ∧
    inSaveSequence (.ldl {} 5 6 .i64s 0) (task .l [(6, 8)]) = false ∧ (task .l [(6, 8)]).mayEnter true false ∧
    (task .l).checked .l false 8 65528 8 ≠ .fault .prot 65528 ∧ (task .l).checked .l false 8 65536 8 = .fault .prot 65536 ∧
    (task .l).checked .g false 8 8192 8 = .ok [{ place := .mem, addr := 8192, len := 8, off := 0, va := 8192 }] ∧
    (task .l).checked .g false 8 24576 8 = .miss 24576 ∧
    Ready (task .l [(6, 8)]) (.vldg {} 1 6 (.x 0) 7 0) ∧
    behindStore.issuedBefore behindStore.me .l behindStore.pos decLocalStore = false ∧ Ready behindStore (.ldl {} 5 6 .i64s 0) :=
  ⟨rfl, ready_of _ _ rfl rfl rfl rfl rfl ⟨rfl, rfl, rfl, rfl, rfl⟩, rfl, ⟨rfl, by decide +kernel⟩, by decide +kernel,
   by decide +kernel, by decide +kernel, by decide +kernel, ready_of _ _ rfl rfl rfl rfl rfl ⟨rfl, rfl, rfl, rfl, rfl⟩,
   by decide +kernel, by decide +kernel, by decide +kernel, by decide +kernel⟩
/-- S with sixteen stores in the forwarding table. -/
def manyStores : State := task .s [] [] {} { fwd := (List.range 16).map fun i =>
  { id := i, off := 0, pos := {}, addr := 8 * i, data := [0], done := false } }
theorem met_StoresEnterTheirQueue :
    (storeOf (.stg {} 5 6 .w64 0) (task .s [(6, 8192)])).isSome = true ∧ Ready (task .s [(6, 8192)]) (.stg {} 5 6 .w64 0) ∧
    inSaveSequence (.stg {} 5 6 .w64 0) (task .s [(6, 8192)]) = false ∧ (task .s).mayEnter false true ∧
    (task .s).checked .g true 8 8192 8 = .ok [{ place := .mem, addr := 8192, len := 8, off := 0, va := 8192 }] ∧
    (task .s).checked .g true 8 16384 8 ≠ .ok [] ∧ (task .s).cc.pruneFwd.fwdHeld = 0 ∧ manyStores.cc.pruneFwd.fwdHeld = 16 :=
  ⟨rfl, ready_of _ _ rfl rfl rfl rfl rfl ⟨rfl, rfl, rfl, rfl, rfl⟩, rfl, ⟨rfl, by decide +kernel⟩, by decide +kernel,
   by decide +kernel, by decide +kernel, by decide +kernel⟩

/-- L with an index list of two words in its scratchpad at 256: 0 and all ones. -/
def gathering : State :=
  { task .l [(5, 8192), (6, 256), (7, 258)] with
    cores := [(0, { (task .l).core 0 with sram := ({} : Sram).putAll 256 [0, 0, 0, 0, 255, 255, 255, 255] })] }
theorem met_GathersAndScatters : listOf (.vgg {} 1 5 6 .w32 1) = some (.g, false, 1, 5, 6, 4, 2) ∧
    Ready gathering (.vgg {} 1 5 6 .w32 1) ∧ gathering.cc.roomFor true false = true ∧ (gathering.rx 7).toNat % 4 ≠ 0 ∧
    (gathering.rx 6).toNat % 4 = 0 ∧ gathering.mayEnter true false ∧
    (match gathering.readLocal 256 8 with
     | .ok (u, bs) => u == gathering && ((List.range 2).map fun j => (j, leNat ((bs.drop (4 * j)).take 4))).filter (fun p => p.2 != 0xFFFFFFFF) == [(0, 0)]
     | .error _ => false) = true ∧
    gathering.reachList .g false 8192 4 [(0, 0)] = .ok [{ place := .mem, addr := 8192, len := 4, off := 0, va := 8192, elem := true }] :=
  ⟨rfl, ready_of _ _ rfl rfl rfl rfl rfl ⟨rfl, rfl, rfl, rfl, rfl⟩, by decide +kernel, by decide +kernel, by decide +kernel,
   ⟨rfl, by decide +kernel⟩, by decide +kernel, by decide +kernel⟩

/-- A load of eight bytes at 64 of the scratchpad, in the load queue of L. -/
def pendingLoad : Access :=
  { id := 3, eng := .l, inL := true, inS := false, pos := {}, kind := .load 2 true 5, data := [0, 0],
    parts := [{ place := .spad 0, addr := 64, len := 2, off := 0, va := 64 }] }
def loading : State :=
  { task .l [] [] {} { mq := [pendingLoad] } with
    cores := [(0, { spad := 1, allot := 1, sram := ({} : Sram).putAll 64 [0xFE, 0xFF] })] }
theorem met_LoadDeliversItsBytes : (loading.ctx 0).access 3 = some pendingLoad ∧ (loading.ctx 0).st ≠ .idle ∧
    (loading.ctx 0).systemAcked pendingLoad = true ∧ loading.mayPerform 0 pendingLoad pendingLoad.parts.head? = true ∧
    ((loading.acquireOf 0 pendingLoad).readPart 0 pendingLoad { place := .spad 0, addr := 64, len := 2, off := 0, va := 64 }).2 =
      some [0xFE, 0xFF] := by decide +kernel
theorem test_load_extends_its_sign : (((loading.tryPerform 0 3 0).ctx 0).eng .l).rx 5 = 0xFFFFFFFFFFFFFFFE := by decide +kernel
theorem met_StoreWritesItsBytes : let a := { pendingLoad with kind := .store, inL := false, inS := true }
    ((loading.writePart 0 a { place := .spad 0, addr := 65534, len := 2, off := 0 } [1, 2]).2 = true ∧
      loading.badWords 0 65534 2 = []) ∧
    ((task .s).writePart 0 a { place := .mem, addr := 8192, len := 2, off := 0 } [1, 2]).2 = true := by decide +kernel
theorem test_store_stays_in_the_version : let a := { pendingLoad with kind := .store, inL := false, inS := true }
    let t := ((task .s).writePart 0 a { place := .mem, addr := 8192, len := 2, off := 0 } [1, 2]).1
    memGet t.mem 8193 = 0 ∧ (t.ctx 0).ver.mem = [(8192, 1), (8193, 2)] := by decide +kernel
theorem met_LineAndOrderingInstructions : (task .l [(6, 8192)]).mayEnter true false ∧ Ready (task .l [(6, 8192)]) (.pfg {} 6 0) ∧
    Ready (task .l [(6, 8192)]) (.l1inv {} 6 0) ∧ Ready (task .l) (.l1invAll {}) ∧
    (let s := task .l [(6, 8192)]
     let xlat (va : Nat) (f : Xlat → Bool) : Bool := f (s.unitXlat s.me s.cc.part s.cc.asid va false)
     xlat 8192 (fun | .ok pa _ _ => pa == 8192 | _ => false) = true ∧ xlat (2 ^ 53) (fun | .fault _ => true | _ => false) = true ∧
     s.fillPending (· == 64) = false ∧ l1Find (s.core 0).l1 s.me 64 = none ∧
     (s.l2Fill 64).linePoisoned 64 = false ∧ (s.core 0).l1.length < s.l1Lines 0) ∧
    ({ task .l with mem := pageTable, roots := [(0, 32768)] } : State).unitXlat 0 0 0 0 false = .miss ∧
    (task .l [] [] {} { mq := [{ pendingLoad with parts := [{ place := .mem, addr := 8192, len := 2, off := 0, va := 8192 }] }] }).fillPending
      (· == 64) = true ∧
    (task .l).cc.roomFor true true = true ∧ Ready (task .l) (.mark {}) ∧ Ready (task .l) (.fence {}) ∧
    Ready (task .x) (.qfence {} 0 63) ∧ (task .x).deferred (task .x).me (fenceUnits 63) = none :=
  ⟨⟨rfl, by decide +kernel⟩, ready_of _ _ rfl rfl rfl rfl rfl ⟨rfl, rfl, rfl, rfl, rfl⟩,
   ready_of _ _ rfl rfl rfl rfl rfl ⟨rfl, rfl, rfl, rfl, rfl⟩, ready_of _ _ rfl rfl rfl rfl rfl ⟨rfl, rfl, rfl, rfl, rfl⟩,
   by decide +kernel, by decide +kernel, by decide +kernel, by decide +kernel, ready_of _ _ rfl rfl rfl rfl rfl ⟨rfl, rfl, rfl, rfl, rfl⟩,
   ready_of _ _ rfl rfl rfl rfl rfl ⟨rfl, rfl, rfl, rfl, rfl⟩, ready_of _ _ rfl rfl rfl rfl rfl ⟨rfl, rfl, rfl, rfl, rfl⟩,
   by decide +kernel⟩
theorem met_LineAndOrderingInstructions_done :
    (let s := task .l
     let q := pastQueued (.fence {}) s (s.entered (.fence {}) true true .fence [] [] none)
     let w := pastQueued (.mark {}) s (s.entered (.mark {}) true true .mark [] [] none)
     s.cur.hold = false ∧ s.cc.st ≠ .idle ∧ s.cc.access s.cc.nextId = none ∧
     w.mayPerform s.me (s.access {} true true .mark [] []) none = true ∧
     q.mayPerform s.me (s.access {} true true .fence [] []) none = true ∧
     (q.ctx s.me).systemAcked (s.access {} true true .fence [] []) = true ∧ ((after (.fence {}) s).ctx 0).mq = []) ∧
    (let s := task .x
     let i : Instr := .qfence {} 0 63
     let a := s.access {} true true (.qfence 63) [] []
     let q := waitQueued i s (s.entered i true true (.qfence 63) [] [] none)
     s.deferred s.me (fenceUnits 63) = none ∧ s.cur.hold = false ∧ s.cc.access s.cc.nextId = none ∧ q.mayPerform s.me a none = true ∧
     (q.ctx s.me).systemAcked a = true ∧ q.engineQueuesDone s.me a 63 = true ∧ q.unitsStored s.me a 63 = true ∧
     ((after i s).ctx 0).mq = [] ∧ (after i s).ce.wait = .no) := by decide +kernel
/-- A store of L's line at 8192 that follows the load. -/
def laterLoad : Access := { pendingLoad with id := 4 }
theorem met_OrderOfAccesses : let s := task .l [] [] {} { mq := [pendingLoad, laterLoad] }
    pendingLoad ∈ (s.ctx 0).mq ∧ pendingLoad.id ≠ laterLoad.id ∧ (s.ctx 0).before pendingLoad laterLoad = true ∧
    pendingLoad.inL = true ∧ laterLoad.inL = true ∧ s.mayPerform 0 laterLoad laterLoad.parts.head? = false ∧
    ({ pendingLoad with ord := some { scope := .core, rel := false, acq := true } } : Access).acquires = true ∧
    ({ pendingLoad with kind := .store, ord := some { scope := .core, rel := true, acq := false } } : Access).releases = true := by
  decide +kernel
/-- X with the tags 5 and 9 set, 0x220 and 0x20 in `x6` and `x7`. -/
def tagged : State := { task .x [(6, 0x220), (7, 0x21)] with cores := [(0, { tagmap := 0x220 })] }
theorem met_TransferTags : Ready tagged (.twany {} 5 6 0) ∧ Ready tagged (.twall {} 5 6 0) ∧ Ready tagged (.tffr {} 5 6) ∧
    Ready tagged (.tclr {} 6) ∧ tagged.tagDeferred tagged.me 0x220 = none ∧
    (after (.tffr {} 5 6) tagged).rx 5 = 5 ∧ (after (.tffr {} 5 0) tagged).rx 5 = 64 ∧
    (after (.twall {} 5 7 0) tagged).ce.wait ≠ .no ∧ (after (.twany {} 5 7 0) tagged).rx 5 = 0x20 ∧
    (after (.tclr {} 7) tagged).core 0 = { tagmap := 0x200 } :=
  ⟨ready_of _ _ rfl rfl rfl rfl rfl ⟨rfl, rfl, rfl, rfl, rfl⟩, ready_of _ _ rfl rfl rfl rfl rfl ⟨rfl, rfl, rfl, rfl, rfl⟩,
   ready_of _ _ rfl rfl rfl rfl rfl ⟨rfl, rfl, rfl, rfl, rfl⟩, ready_of _ _ rfl rfl rfl rfl rfl ⟨rfl, rfl, rfl, rfl, rfl⟩,
   by decide +kernel, by decide +kernel, by decide +kernel, by decide +kernel, by decide +kernel, by decide +kernel⟩

/-! ## Operations of X at a home slice -/

/-- X with the address 8192 in `x6`, 8196 in `x8` and 24576 in `x9`. -/
def atSlice : State := task .x [(6, 8192), (7, 3), (8, 8196), (9, 24576)]
theorem met_SliceOperationsEnter : let part : Part := { place := .mem, addr := 8192, len := 8, off := 0, va := 8192 }
    sliceOpOf (.aadd {} 5 6 7 .quad 0) atSlice = some (.atomic .add 8 5 3 0, .ok [part], false) ∧
    Ready atSlice (.aadd {} 5 6 7 .quad 0) ∧ atSlice.mayEnter true true ∧
    sliceOpOf (.aadd {} 5 8 7 .quad 0) atSlice = some (.atomic .add 8 5 3 0, .fault .align 8196, false) ∧
    sliceOpOf (.aadd {} 5 9 7 .quad 0) atSlice = some (.atomic .add 8 5 3 0, .miss 24576, false) ∧
    (sliceOpOf (.barwait {} 5 6 7) atSlice).map (·.2.2) = some true ∧ Ready atSlice (.barwait {} 5 6 7) ∧
    (sliceOpOf (.sqlen {} 5 6) atSlice).isSome = true ∧ Ready atSlice (.sqlen {} 5 6) :=
  ⟨by decide +kernel, ready_of _ _ rfl rfl rfl rfl rfl ⟨rfl, rfl, rfl, rfl, rfl⟩, ⟨rfl, by decide +kernel⟩, by decide +kernel,
   by decide +kernel, by decide +kernel, ready_of _ _ rfl rfl rfl rfl rfl ⟨rfl, rfl, rfl, rfl, rfl⟩, by decide +kernel,
   ready_of _ _ rfl rfl rfl rfl rfl ⟨rfl, rfl, rfl, rfl, rfl⟩⟩
theorem met_Atomics : (5 : Nat) < 2 ^ 32 ∧ (atSlice.l2Fill 64).linePoisoned 64 = false ∧
    (∃ t v, atSlice.opAtomic 0 1 0 8192 8192 .add 8 3 0 = .done t v) ∧ atomicNew .binc 32 4 4 0 = 0 ∧ atomicNew .binc 32 3 4 0 = 4 :=
  ⟨by decide, by decide +kernel, ⟨_, _, rfl⟩, by decide, by decide⟩
theorem test_atomic_min_is_signed : atomicNew .min 32 0xFFFFFFFF 1 0 = 0xFFFFFFFF ∧ atomicNew .minU 32 0xFFFFFFFF 1 0 = 1 := by
  decide +kernel
/-- X with a single-line region open. -/
def inRegion : State := task .x [(6, 120), (7, 0x1234), (8, 128), (9, 8192)] [] {}
  { alr := some { line := 64, va := 8192, snap := List.replicate 128 7, marks := [], since := 0, hold := true } }
theorem met_SingleLineRegions : inRegion.cc.alrPending = false ∧ Ready inRegion (.alrl {} 5 6 0 .w64 0) ∧
    Ready inRegion (.alrs {} 6 7 .w64 0) ∧ Ready inRegion (.alrb {} 9 0) ∧ Ready inRegion (.alrc {} 5) ∧ inRegion.cc.alr ≠ none ∧
    (task .x).cc.alr = none ∧ inRegion.mayEnter true true ∧
    inRegion.checked .g true 1 8192 1 = .ok [{ place := .mem, addr := 8192, len := 1, off := 0, va := 8192 }] ∧
    (after (.alrl {} 5 6 0 .w64 0) inRegion).rx 5 = 0x0707070707070707 ∧
    ((after (.alrl {} 5 8 0 .w64 0) inRegion).cc.trap.map (·.code)) = some .align :=
  ⟨rfl, ready_of _ _ rfl rfl rfl rfl rfl ⟨rfl, rfl, rfl, rfl, rfl⟩, ready_of _ _ rfl rfl rfl rfl rfl ⟨rfl, rfl, rfl, rfl, rfl⟩,
   ready_of _ _ rfl rfl rfl rfl rfl ⟨rfl, rfl, rfl, rfl, rfl⟩, ready_of _ _ rfl rfl rfl rfl rfl ⟨rfl, rfl, rfl, rfl, rfl⟩,
   by decide +kernel, rfl, ⟨rfl, by decide +kernel⟩, by decide +kernel, by decide +kernel, by decide +kernel⟩
theorem met_SlotAccessesEnter : let s := task .l [(6, 8192), (7, 3)]
    let t := task .s [(6, 8192), (7, 3)]
    s.handle false (s.rx 6).toNat = .ok [{ place := .mem, addr := 8192, len := 256, off := 0, va := 8192 }] ∧
    s.mayEnter true false ∧ t.mayEnter false true ∧ Ready s (.ldq {} 5 6 7 8 3) ∧ Ready s (.vldq {} 1 6 7 8 3) ∧ Ready t (.stq {} 5 6 7 3) :=
  ⟨by decide +kernel, ⟨rfl, by decide +kernel⟩, ⟨rfl, by decide +kernel⟩,
   ready_of _ _ rfl rfl rfl rfl rfl ⟨rfl, rfl, rfl, rfl, rfl⟩, ready_of _ _ rfl rfl rfl rfl rfl ⟨rfl, rfl, rfl, rfl, rfl⟩,
   ready_of _ _ rfl rfl rfl rfl rfl ⟨rfl, rfl, rfl, rfl, rfl⟩⟩
theorem met_AttentionEnters : let s := task .x [(6, 8192), (7, 64), (8, 32), (9, 8193)]
    Ready s (.sqattn {} 6 7 1 3) ∧ (s.rx 9).toNat % 256 ≠ 0 ∧ (s.rx 8).toNat % 64 ≠ 0 ∧ s.cc.roomFor true true = true ∧
    (match s.readLocal 64 64 with
     | .ok (u, desc) => decide ((attnDesc desc).qaddr % 4 = 0 ∧ (attnDesc desc).dest % 16 = 0) &&
       (match u.readLocal (attnDesc desc).qaddr (4 * (attnDesc desc).d) with
        | .ok (w, _) => w == s && w.handle false 8192 == .ok [{ place := .mem, addr := 8192, len := 256, off := 0, va := 8192 }]
        | .error _ => false)
     | .error _ => false) = true ∧ s.mayEnter true true :=
  ⟨ready_of _ _ rfl rfl rfl rfl rfl ⟨rfl, rfl, rfl, rfl, rfl⟩, by decide +kernel, by decide +kernel, by decide +kernel,
   by decide +kernel, ⟨rfl, by decide +kernel⟩⟩

/-! ## Vectors, streams and units -/

/-- C with 300 and 200 in the first halves of `v1` and `v2`, and an entry in `fd0`. -/
def vectors : State := task .c [] [] {} { v := [(1, 300), (2, 200)], fd := [(0, [{ val := 5 }])] }
/-- A read stream of two units, one of them fetched. -/
def readStream (done : Nat) (mark : Option (Code × Nat)) : Stream :=
  { bound := true, cnt := [2, 1, 1], done := done, buf := [{ u := 0, val := 9, mark := mark }], cursor := 1 }
def streaming (z : Stream) : State := task .c [] [] {} { z := [(3, z)] }
theorem Stream_total_two : (readStream 0 none).total = 2 := by decide +kernel
theorem met_VectorOperands : [VSrc.v 1, .fd 0].map (plainSrc vectors) = [300, 5].map some ∧
    (streaming (readStream 0 none)).meets 3 ∧ ((streaming (readStream 0 none)).streamHere 3).done < 2 ∧
    2 ≤ ((streaming (readStream 2 none)).streamHere 3).total ∧ ¬(streaming {}).meets 3 ∧
    (streaming { readStream 0 none with write := true }).meets 3 ∧
    ((streaming (readStream 0 (some (.prot, 64)))).streamHere 3).buf = [{ u := 0, val := 9, mark := some (.prot, 64) }] ∧
    ((streaming { readStream 0 none with buf := [] }).streamHere 3).buf = [] ∧
    ((streaming { readStream 0 none with write := true, buf := List.replicate 8 { u := 0 } }).streamHere 3).buf.length = 8 :=
  ⟨by decide +kernel, ⟨by decide +kernel, .inr rfl⟩, by decide +kernel, by decide +kernel, fun h => absurd h.1 (by decide +kernel),
   ⟨by decide +kernel, .inr rfl⟩, by decide +kernel, by decide +kernel, by decide +kernel⟩
theorem met_VectorResults : (vectorRule (.vadd {} (.v 5) (.v 1) (.v 2) 0 .i16s) vectors).isSome = true ∧
    wellFormed (.vadd {} (.v 5) (.v 1) (.v 2) 0 .i16s) = true ∧ Ready vectors (.vadd {} (.v 5) (.v 1) (.v 2) 0 .i16s) ∧
    (match vectors.takeSrcs [] [.v 1, .v 2] with
     | .ok (t, l) => l == [300, 200] && (match t.putDst (.v 5) 500 with | .ok _ => true | .error _ => false)
     | .error _ => false) = true ∧
    (match (streaming {}).takeSrcs [] [.z 3] with | .error (.stall _ _) => true | _ => false) = true ∧
    (match (streaming { readStream 0 none with write := true }).takeSrcs [] [.z 3] with
     | .error (.trap c 0 0 _) => c == .qfault | _ => false) = true ∧
    (fullForm (.vaddC {} 5 6 7 2)).isSome = true :=
  ⟨by decide +kernel, by decide +kernel, ⟨by decide +kernel, by decide +kernel, by decide +kernel⟩, by decide +kernel,
   by decide +kernel, by decide +kernel, by decide +kernel⟩
theorem test_vector_product_saturates : writeEl 16 0 true (300 * 200) = 32767 ∧ writeEl 16 0 false (300 * 200) = 60000 ∧
    signed 16 60000 = -5536 := by decide +kernel
theorem test_vadd : (after (.vadd {} (.v 5) (.v 1) (.v 2) 0 .i16s) vectors).rv 5 = 500 := by decide +kernel
theorem met_VectorComparesAndExtracts : (compareRule (.vcmp {} (.v 5) (.v 1) (.v 2) 1 3 .gt 0 .i16s)).isSome = true ∧
    Ready vectors (.vcmp {} (.v 5) (.v 1) (.v 2) 1 3 .gt 0 .i16s) ∧ Ready vectors (.vext {} 5 (.v 1) 63 1 .w16) ∧
    (after (.vcmp {} (.v 5) (.v 1) (.v 2) 1 3 .gt 0 .i16s) vectors).rp 3 = true ∧
    (after (.vext {} 5 (.v 1) 0 1 .w8) vectors).rx 5 = 44 :=
  ⟨by decide +kernel, ⟨by decide +kernel, by decide +kernel, by decide +kernel⟩,
   ⟨by decide +kernel, by decide +kernel, by decide +kernel⟩, by decide +kernel, by decide +kernel⟩

/-- L with a stream descriptor of one unit at 8192 in its scratchpad at 64, and one with a count of 0 at 128. -/
def binding : State :=
  let v := 8192 * 2 ^ 448 + 2 ^ 432 + 2 ^ 368 + 2 ^ 304 + 2 ^ 49
  { task .l [(6, 64), (7, 65), (8, 128), (9, 0)] [] {} { z := [(4, { readStream 2 none with buf := [], cursor := 2 })] } with
    cores := [(0, { (task .l).core 0 with sram := (({} : Sram).putAll 64 (leBytes 64 v)).putAll 128 (leBytes 64 (v - 2 ^ 432)) })] }
theorem met_StreamInstructions : Ready binding (.sbind {} 3 6 0) ∧ (binding.stream 3).bound = false ∧ (binding.rx 6).toNat % 64 = 0 ∧
    (binding.rx 7).toNat % 64 ≠ 0 ∧
    (match binding.readLocal 64 64 with | .ok (_, bs) => (streamOf (leNat bs) .rne).isSome | .error _ => false) = true ∧
    (match binding.readLocal 128 64 with | .ok (_, bs) => (streamOf (leNat bs) .rne).isNone | .error _ => false) = true ∧
    Ready binding (.sbop {} 4 9) ∧ Ready binding (.sadv {} 4 9) ∧ Ready binding (.sunbind {} 4 0) ∧ Ready binding (.sstat {} 5 4) ∧
    (binding.stream 4).bound = true ∧ (binding.stream 4).write = (binding.cur.eng == .s) ∧ (binding.stream 4).moved = false ∧
    chainOf (binding.rx 9) = some [] ∧ chainOf 0xF000 = none :=
  ⟨ready_of _ _ rfl rfl rfl rfl rfl ⟨rfl, rfl, rfl, rfl, rfl⟩, by decide +kernel, by decide +kernel, by decide +kernel,
   by decide +kernel, by decide +kernel, ready_of _ _ rfl rfl rfl rfl rfl ⟨rfl, rfl, rfl, rfl, rfl⟩,
   ready_of _ _ rfl rfl rfl rfl rfl ⟨rfl, rfl, rfl, rfl, rfl⟩, ready_of _ _ rfl rfl rfl rfl rfl ⟨rfl, rfl, rfl, rfl, rfl⟩,
   ready_of _ _ rfl rfl rfl rfl rfl ⟨rfl, rfl, rfl, rfl, rfl⟩, by decide +kernel, by decide +kernel, by decide +kernel,
   by decide +kernel, by decide +kernel⟩

/-- C of a core whose group has the lanes 0 and 1, with target words of one and of three lanes. -/
def onLanes : State :=
  { task .c [(6, 0x10000), (7, 0x30000), (8, 0x0000000000000001)] with
    regions := [(1, { regid := 1, live := true, rcb := { vlines := 4 }, trellis := [{ core := [0], lane := [0, 1], column := [0, 1] }] })] }
theorem met_LaneMacrosEnter : laneTarget (.laccz {} 6) = some 6 ∧ Ready onLanes (.laccz {} 6) ∧
    onLanes.targets (onLanes.rx 6) = some (0, [(0, 0)]) ∧ onLanes.targets (onLanes.rx 7) = none ∧
    onLanes.deferred onLanes.me (laneUnits [(0, 0)]) = none ∧ (onLanes.lane 0).q.length < 64 ∧
    (match laneRule (.laccz {} 6) onLanes 0 [(0, 0)] with | some (.ok (u, _)) => u == onLanes | _ => false) = true ∧
    (match laneRule (.lmac {} 6 0 0) onLanes 0 [(0, 0)] with | some (.error (c, _)) => c == .qfault | _ => false) = true ∧
    Ready onLanes (.lfence {} 6) ∧ Ready onLanes (.lstat {} 5 6) :=
  ⟨rfl, ready_of _ _ rfl rfl rfl rfl rfl ⟨rfl, rfl, rfl, rfl, rfl⟩, by decide +kernel, by decide +kernel, by decide +kernel,
   by decide +kernel, by decide +kernel, by decide +kernel, ready_of _ _ rfl rfl rfl rfl rfl ⟨rfl, rfl, rfl, rfl, rfl⟩,
   ready_of _ _ rfl rfl rfl rfl rfl ⟨rfl, rfl, rfl, rfl, rfl⟩⟩
/-- C of hub core 64, whose group has the matrix engine 0. -/
def onMatrix : State :=
  { on .c 64 [(6, 2 ^ 32 * 16), (7, 0)] with
    regions := [(0, { live := true, trellis := [{ core := [64], matrix := [0] }] })] }
theorem met_MatrixInstructions : instrOnHub (.mlay {} 6 0 0 0 0 0 0) = true ∧ Ready onMatrix (.mlay {} 6 0 0 0 0 0 0) ∧
    (∃ g ∈ coreGroups onMatrix.cr 64, 0 ∈ (onMatrix.cr.trellis.getD g.1 {}).matrix) ∧
    onMatrix.deferred onMatrix.me (· == .mat 0) = none ∧ (onMatrix.mat 0).q.length < 16 ∧
    matRule (.mlay {} 6 0 0 0 0 0 0) onMatrix = some (.ok (.lay 0 { span := 0, rstr := 16, base := 0 } none)) ∧
    matRule (.mlay {} 7 0 0 0 0 0 0) onMatrix = some (.error (.qfault, 0)) ∧
    Ready onMatrix (.msemSig {} 0 1) ∧ Ready onMatrix (.msemWait {} 0 0) ∧ Ready onMatrix (.msemRd {} 5 0) ∧ Ready onMatrix (.msemSt {} 5) ∧
    ¬(∃ g ∈ coreGroups (on .c 64).cr 64, 0 ∈ ((on .c 64).cr.trellis.getD g.1 {}).matrix) :=
  ⟨rfl, ready_of _ _ rfl rfl rfl rfl rfl ⟨rfl, rfl, rfl, rfl, rfl⟩, by decide +kernel, by decide +kernel, by decide +kernel, rfl, rfl,
   ready_of _ _ rfl rfl rfl rfl rfl ⟨rfl, rfl, rfl, rfl, rfl⟩, ready_of _ _ rfl rfl rfl rfl rfl ⟨rfl, rfl, rfl, rfl, rfl⟩,
   ready_of _ _ rfl rfl rfl rfl rfl ⟨rfl, rfl, rfl, rfl, rfl⟩, ready_of _ _ rfl rfl rfl rfl rfl ⟨rfl, rfl, rfl, rfl, rfl⟩,
   by decide +kernel⟩
/-- S with the descriptor of a fill of one byte at 1024 of its scratchpad in its scratchpad at 64. -/
def filling : State :=
  let h := 1024 * 2 ^ 128 + 3 * 2 ^ 36 + 2 ^ 29 + 2 ^ 376
  { task .s [(6, 64), (7, 65)] with
    cores := [(0, { (task .s).core 0 with sram := ({} : Sram).putAll 64 (leBytes 64 h) })] }
theorem met_TransferCommandsEnter : xferForm (.xfill {} 6 0 0 1 9) = some (.fill, {}, 6, 0, 0, 1, 9) ∧ Ready filling (.xfill {} 6 0 0 1 9) ∧
    filling.deferred filling.me (· == .xs) = none ∧ filling.cc.roomFor false true = true ∧ (filling.rx 6).toNat % 64 = 0 ∧
    (filling.rx 7).toNat % 64 ≠ 0 ∧ (match filling.readLocal 64 256 with
     | .ok (u, h) =>
       (match xferOf .fill false .rne (leNat h) with
        | some y => (match u.xferCheck y false, u.barrierOf 0 with | .ok _, .ok _ => true | _, _ => false)
        | none => false)
     | .error _ => false) = true ∧ xferOf .fill false .rne 0 = none :=
  ⟨rfl, ready_of _ _ rfl rfl rfl rfl rfl ⟨rfl, rfl, rfl, rfl, rfl⟩, by decide +kernel, by decide +kernel, by decide +kernel,
   by decide +kernel, by decide +kernel, rfl⟩

/-! ## The prefix table, scheduling and the ends of a task -/

/-- X with a prefix table of one entry, of hash 0 and depth 1, pinned `pins` times, and a live sequence at 8192. -/
def prefixed (pins : Nat) : State :=
  { task .x [(6, 64), (7, 1), (8, 65), (9, 5), (10, 8192), (11, 2 ^ 40), (12, 77), (13, 65 * 2 ^ 40)] with
    parts := [(0, { prefixes := [(5, { hash := 0, depth := 1, handle := 8192, scb := 8192, base := 0, pins := pins })], recency := [5] })]
    seqs := [(8192, { live := true })] }
theorem met_PrefixTableOperations : let s := prefixed 0
    Ready s (.pfxh {} 5 9 6) ∧ Ready s (.pfxl {} 5 6 7) ∧ Ready s (.pfxlH {} 5 9) ∧ Ready s (.pfxlS {} 5 9) ∧
    Ready s (.pfxi {} 5 12 10 11) ∧ Ready s (.pfxd {} 5 9) ∧ Ready s (.pfxdU {} 5 9) ∧
    (match s.readLocal 64 64 with | .ok (u, _) => u == s | .error _ => false) = true ∧
    (match s.readLocal 64 8 with | .ok (u, bs) => u == s && leNat (bs.take 8) == 0 | .error _ => false) = true ∧
    (s.rx 8).toNat % 8 ≠ 0 ∧ 64 < (s.rx 8).toNat ∧ (s.rx 7).toNat = 1 ∧
    tfind (s.partn 0).prefixes 5 ≠ none ∧ tfind (s.partn 0).prefixes 6 = none ∧
    s.handle false 8192 = .ok [{ place := .mem, addr := 8192, len := 256, off := 0, va := 8192 }] ∧ (s.seq 8192).live = true ∧
    (s.seq 0).live = false ∧ bits (s.rx 11).toNat 47 40 = 1 ∧ bits (s.rx 13).toNat 47 40 = 65 ∧ pfxPlace (s.partn 0) = some 0 ∧
    s.pinRoom 0 [8192, 8192] ≠ none ∧ (prefixed 65535).partn 0 ≠ s.partn 0 :=
  ⟨ready_of _ _ rfl rfl rfl rfl rfl ⟨rfl, rfl, rfl, rfl, rfl⟩, ready_of _ _ rfl rfl rfl rfl rfl ⟨rfl, rfl, rfl, rfl, rfl⟩,
   ready_of _ _ rfl rfl rfl rfl rfl ⟨rfl, rfl, rfl, rfl, rfl⟩, ready_of _ _ rfl rfl rfl rfl rfl ⟨rfl, rfl, rfl, rfl, rfl⟩,
   ready_of _ _ rfl rfl rfl rfl rfl ⟨rfl, rfl, rfl, rfl, rfl⟩, ready_of _ _ rfl rfl rfl rfl rfl ⟨rfl, rfl, rfl, rfl, rfl⟩,
   ready_of _ _ rfl rfl rfl rfl rfl ⟨rfl, rfl, rfl, rfl, rfl⟩, by decide +kernel⟩
theorem test_prefix_match_pins : (after (.pfxl {} 5 6 7) (prefixed 0)).rx 5 = resultQuad 0 (5 * 256 + 1) ∧
    (after (.pfxl {} 5 6 7) (prefixed 65535)).rx 5 = resultQuad 2 0 := by decide +kernel

/-- X of a task of region 1, which has a stage, a work list, a child that has ended and one that runs, and `n` launches. -/
def scheduling (n : Nat) : State :=
  let l : Launch := { regid := 9, rcb := 0, seed := 0, part := 0, asid := 0, parent := some 1, tag := 0, priv := false, since := 0 }
  { task .x [(6, 8192), (7, 1), (8, 0), (9, 2), (10, 3), (11, 64), (12, 63), (13, 8193)] with
    regions := [(1, { regid := 1, live := true, rcb := { vlines := 4, lslots := 1, plse := 0 }, yields := [{ ypc := 0, save := 2, restore := 4, nv := 0 }],
                      stages := [{ depth := 2, outmask := 2, item := 0 }, { depth := 2 }], queues := [(0, [{ slot := 1, attempt := 0, st := .published }])],
                      lists := [(63, [5])], children := [2, 3], ends := [{ regid := 2, status := 0, faults := 0 }],
                      launchq := List.replicate n l }), (3, { regid := 3, live := true })] }
theorem met_SchedulingInstructions : let s := scheduling 0
    Ready s (.launch {} 5 6 7) ∧ Ready s (.lwait {} 5 9) ∧ Ready s (.lpoll {} 5 9) ∧ Ready s (.rcbq {} 5 0 13) ∧ Ready s (.spop {} 5) ∧
    Ready s (.spush {} 5 8 7) ∧ Ready s (.wlapp {} 5 12 7) ∧ Ready s (.wltake {} 5 12) ∧ Ready s (.quies {} 5 8) ∧
    (s.rx 6).toNat % 128 = 0 ∧ (s.rx 13).toNat % 128 ≠ 0 ∧ s.cr.rcb.lslots ≠ 0 ∧ s.cr.launchq.length < 16 ∧
    (scheduling 16).cr.launchq.length = 16 ∧ (scheduling 16).cr.rcb.plse ≤ (scheduling 16).cr.pending.length ∧
    s.cr.yieldAt s.ce.pc ≠ none ∧ s.cr.childOf 2 = .ended { regid := 2, status := 0, faults := 0 } ∧ s.cr.childOf 3 = .going ∧
    s.cr.childOf 4 = .unknown ∧ (s.region 3).regid = 3 ∧ oldestItem (s.cr.queue 0) ≠ none ∧ s.cc.pops.length < 15 ∧
    (s.cr.stage 0).outmask.testBit 1 = true ∧ (s.cr.stage 0).outmask.testBit 2 = false ∧
    (match s.readLocal 0 (s.cr.stage 1).itemBytes with | .ok (u, _) => u == s | .error _ => false) = true ∧
    s.cr.occupancy 1 < (s.cr.stage 1).depth ∧ 63 < (s.rx 11).toNat ∧ tget [] s.cr.lists 63 = [5] ∧ tget [] s.cr.lists 0 = [] :=
  ⟨ready_of _ _ rfl rfl rfl rfl rfl ⟨rfl, rfl, rfl, rfl, rfl⟩, ready_of _ _ rfl rfl rfl rfl rfl ⟨rfl, rfl, rfl, rfl, rfl⟩,
   ready_of _ _ rfl rfl rfl rfl rfl ⟨rfl, rfl, rfl, rfl, rfl⟩, ready_of _ _ rfl rfl rfl rfl rfl ⟨rfl, rfl, rfl, rfl, rfl⟩,
   ready_of _ _ rfl rfl rfl rfl rfl ⟨rfl, rfl, rfl, rfl, rfl⟩, ready_of _ _ rfl rfl rfl rfl rfl ⟨rfl, rfl, rfl, rfl, rfl⟩,
   ready_of _ _ rfl rfl rfl rfl rfl ⟨rfl, rfl, rfl, rfl, rfl⟩, ready_of _ _ rfl rfl rfl rfl rfl ⟨rfl, rfl, rfl, rfl, rfl⟩,
   ready_of _ _ rfl rfl rfl rfl rfl ⟨rfl, rfl, rfl, rfl, rfl⟩, by decide +kernel⟩
theorem met_SchedulingInstructions_store :
    (let t : TlbEnt := { part := 0, asid := 0, va := 8192, size := 8192, pa := 8192, w := true, x := false }
     let s := (scheduling 16).modRegion 1 fun r => { r with rcb := { r.rcb with plse := 2, plstore := 8192 }, held := [t], pools := [(bitPlse, 2)] }
     s.storeOpen s.cr = true ∧ s.storeSlot s.cr = 0 ∧
     (match s.heldWrite s.cr (storeEntry (s.childLaunch 8192 1)) (lineParts (s.cr.rcb.plstore + 16 * 0) 16) with
      | .ok _ => true | .error _ => false) = true ∧
     ((after (.launch {} 5 6 7) s).cr.pending.map (·.entry)) = [0] ∧ (scheduling 16).storeOpen (scheduling 16).cr = false) ∧
    (let t : TlbEnt := { part := 0, asid := 0, va := 8192, size := 8192, pa := 8192, w := true, x := false }
     let s := (scheduling 0).modRegion 1 fun r => { r with stages := [{ depth := 2, outmask := 2 }, { depth := 2, qbase := 8192 }], held := [t] }
     s.pushSlot 1 0 = some 0 ∧
     (match s.reservePush s.cr.part (s.cr.pushLines { stage := 1, slot := 0, data := [] }) with | .ok _ => true | .error _ => false) = true ∧
     ((after (.spush {} 5 8 7) s).cc.pushes.map (·.slot)) = [0]) := by decide +kernel
theorem met_TranslationInstructions : Ready (task .x) (.tlbinvPg 5 6) ∧ Ready (task .x) (.tlbinvAs 5) ∧ Ready (task .x) .tlbinvAll ∧
    Ready (task .x) (.asset 9) ∧ (task .x).cc.priv = false ∧ (task .x [] [] {} { priv := true }).cc.priv = true ∧
    (task .x [] [] {} { priv := true }).earlierDone = true ∧ behindStore.earlierDone = false :=
  ⟨ready_of _ _ rfl rfl rfl rfl rfl ⟨rfl, rfl, rfl, rfl, rfl⟩, ready_of _ _ rfl rfl rfl rfl rfl ⟨rfl, rfl, rfl, rfl, rfl⟩,
   ready_of _ _ rfl rfl rfl rfl rfl ⟨rfl, rfl, rfl, rfl, rfl⟩, ready_of _ _ rfl rfl rfl rfl rfl ⟨rfl, rfl, rfl, rfl, rfl⟩, by decide +kernel⟩
theorem test_user_task_may_not_invalidate : ((after .tlbinvAll (task .x)).cc.trap.map (·.code)) = some .prot ∧
    ((after .tlbinvAll (task .x [] [] {} { priv := true })).core 0).tlb = [] := by decide +kernel
/-- X at the end of its task, the other engines at `tend`, in a region with a trap to answer. -/
def ending : State :=
  { task .x [(7, 5), (8, 2), (9, 3)] [] {} { engs := [(1, { wait := .tend }), (2, { wait := .tend }), (3, { wait := .tend })] } with
    regions := [(1, { regid := 1, live := true, traps := [{ trapid := 5, record := [], queued := true },
      { trapid := 6, record := [], queued := true, claim := some 99 }] })] }
theorem met_EndsOfATask : Ready ending (.tret {} 5 7 8) ∧ Ready ending .tend ∧ Ready ending .yield ∧
    (ending.cr.traps.find? fun t => t.trapid % 2 ^ 32 == 5).isSome = true ∧ (ending.rx 8).toNat = 2 ∧ 2 < (ending.rx 9).toNat ∧
    (ending.cc.eng .l).wait = .tend ∧ ending.cc.queuesEmpty = true ∧ vectors.cc.queuesEmpty = false ∧ ending.yieldStops = false ∧
    (after .tend ending).ce.wait = .tend ∧ ((after (.tret {} 5 7 8) ending).rx 5) = 0 :=
  ⟨ready_of _ _ rfl rfl rfl rfl rfl ⟨rfl, rfl, rfl, rfl, rfl⟩, ready_of _ _ rfl rfl rfl rfl rfl ⟨rfl, rfl, rfl, rfl, rfl⟩,
   ready_of _ _ rfl rfl rfl rfl rfl ⟨rfl, rfl, rfl, rfl, rfl⟩, by decide +kernel⟩

/-! ## Events: waits, streams and units -/

/-- A running task of core 0 whose engines X and C wait. -/
def waiting (w : Wait) (c : Ctx := {}) : State :=
  { ctxs := [(0, { c with st := .run, engs := [(0, { wait := w }), (2, { wait := w })] })] }
/-- An operation of X at the line at 8192. -/
def atLine (o : SliceOp) : Access :=
  { id := 3, eng := .x, inL := true, inS := true, pos := {}, kind := .op o, parts := [{ place := .mem, addr := 8192, len := 8, off := 0, va := 8192 }] }
theorem met_WaitsEnd_accesses :
    (let a : Access := { atLine (.sqlen 5 0) with kind := .qfence 63, parts := [] }
     let s := waiting (.access 3) { mq := [a] }
     ((s.ctx 0).eng .x).wait = .access 3 ∧ (s.ctx 0).access 3 = some a ∧ (s.ctx 0).st ≠ .idle ∧ (s.ctx 0).systemAcked a = true ∧
     ((after .qfenceReturn s).ctx 0).mq = []) ∧
    (let a := atLine (.barwait 5 0)
     let s := waiting (.access 3) { mq := [a] }
     (s.ctx 0).access 3 = some a ∧ s.mayPerform 0 a a.parts.head? = true ∧ s.linePoisoned 64 = false ∧ (s.bar 8192).phase = 0 ∧
     ((after .barwaitReturn s).ctx 0).mq = [a]) ∧
    (let a := atLine (.sqwait 5 8192 1 1 0)
     let s := waiting (.access 3) { mq := [a] }
     (s.ctx 0).access 3 = some a ∧ s.mayPerform 0 a a.parts.head? = true ∧ (s.seq 8192).len < 1 ∧
     ({ s with seqs := [(8192, { live := true, len := 1 })] } : State).seq 8192 = { live := true, len := 1 }) ∧
    (let a := { atLine (.alrb 8192 false) with id := 3 }
     let s := waiting .no { mq := [a] }
     (s.ctx 0).access 3 = some a ∧ (s.ctx 0).st ≠ .idle ∧ s.mayPerform 0 a a.parts.head? = true ∧ s.alrq = [] ∧
     ((after .alrGrant s).ctx 0).alr.isSome = true) := by decide +kernel
theorem met_WaitsEnd_others :
    (let s := waiting (.tags true 5 3 1 0)
     s.tagDeferred 0 3 = none ∧ (((after .tagWaitTimeout { s with clock := 1 }).ctx 0).eng .x).wait = .no ∧ after .tagWaitTimeout s = s) ∧
    ((waiting (.quies 5 1 0)).ctx 0).st = .run ∧ ((waiting (.msem 0 0)).ctx 0).eng .c = { wait := .msem 0 0 } ∧
    ((waiting (.lfence [0] 3)).ctx 0).eng .c = { wait := .lfence [0] 3 } ∧ (waiting (.lfence [0] 3)).reds = [] ∧
    ((waiting (.sunbind 3 {})).ctx 0).eng .x = { wait := .sunbind 3 {} } ∧ ((waiting (.plan 5 0)).ctx 0).eng .x = { wait := .plan 5 0 } ∧
    (let s : State := { waiting (.split 1) with cores := [(0, { spad := 2, allot := 1, split := [(0, .x, 1)] })] }
     let t : State := { s with cores := [(0, { spad := 2, allot := 1, split := [(0, .x, 1)], splitting := true })] }
     (s.core 0).split = [(0, .x, 1)] ∧ (s.core 0).splitting = false ∧ ¬(s.core 0).allot < 1 ∧ (s.core 0).allot < 2 ∧
     t.splitDrained 0 = true ∧ ((after .ctlSplitApply t).core 0).spad = 1) ∧
    (let s : State := { inRegion with clock := 64 }
     (s.ctx 0).alr ≠ none ∧ ((after .alrHoldExpiry s).ctx 0).alr ≠ (s.ctx 0).alr ∧ after .alrHoldExpiry { s with clock := 63 } = { s with clock := 63 }) := by
  decide +kernel
/-- A task with a read stream of one unit to fetch at 0 of its scratchpad, and a write stream with one to store. -/
def units : State :=
  let z : Stream := { bound := true, cnt := [2, 1, 1], nb := 7 }
  { task .c [] [] {} { z := [(3, z), (4, { z with write := true, done := 1, buf := [{ u := 0, val := 9 }] })] } with
    cur := { ev := { a := 3 } } }
theorem met_StreamUnitsMove : units.canFetch 0 3 = true ∧ units.canFetch 0 4 = false ∧ units.canStore 0 4 = true ∧ units.canStore 0 3 = false ∧
    (match units.unitParts 0 (tget {} (units.ctx 0).z 3) false 0 [(0, 128)] with | .ok ps => ps.length == 1 | _ => false) = true ∧
    (tget {} ((after .streamFetch units).ctx 0).z 3).cursor = 1 ∧
    (tget {} ((after .streamStore { units with cur := { ev := { a := 4 } } }).ctx 0).z 4).buf = [] ∧
    memGet ((after .streamStore { units with cur := { ev := { a := 4 } } }).core 0).sram.cells 0 = 9 := by decide +kernel

/-- Lane 0 with a macro of a running task at the head of its queue. -/
def lane (m : Macro) (l : Lane := {}) : State :=
  { task .c with lanes := [(0, { l with q := [{ ctx := 0, taskid := 7, pos := {}, cmd := m }] })], cols := [(0, { rows := 4 })],
                    mem := pageTable, roots := [(0, 32768)] }
def bind1 : LaneBind := { col := 0, va := 0, part := 0, asid := 0, off := 0, fmt := .i8s, nrow := 4, rstr := 33, nrec := 1, pages := [1] }
def tile1 : Tile := { t := 1, krec := 1, fmt := .i8s, data := 127 :: List.replicate 32 2 }
theorem met_LanesAtWork : let at0 (s : State) : Bool :=
      match (s.lane 0).q with
      | e :: _ => decide ((s.ctx e.ctx).st ≠ .idle) && decide ((s.ctx e.ctx).taskid = e.taskid) && !s.unitStopped (s.ctx e.ctx).part (.lane 0) &&
        !s.fencedOff e.ctx e.pos
      | [] => false
    at0 (lane (.cfg true true)) = true ∧ ((after .lcfgApply (lane (.cfg true true))).lane 0) = { rsync := true, pol := true, done := 1 } ∧
    at0 (lane (.wst bind1 0)) = true ∧
    (match (lane (.wst bind1 0)).windowPages 0 bind1 0 1 1 with | .miss va => va == 0 | _ => false) = true ∧
    at0 (lane (.act tile1)) = true ∧ ((after .lactLoad (lane (.act tile1))).lane 0) = { tile := some tile1, done := 1 } ∧
    at0 (lane .accz { acc := [(0, 5)] }) = true ∧ ((after .lacczClear (lane .accz { acc := [(0, 5)] })).lane 0) = { done := 1 } ∧
    (let s := lane (.mac 0 1 0 true) { bind := some bind1, tile := some tile1 }
     at0 s = true ∧ (bind1.newRows 0 0 1).length ≤ (s.col 0).rows ∧ 0 + 1 ≤ bind1.nrow ∧ tile1.krec = bind1.nrec) ∧
    (let s := lane (.accr { rdst := 0, c0 := 0, nc := 1, nt := 1 } .fp32 64)
     at0 s = true ∧ s.spadHas 0 64 4 = true ∧ ((after .laccrReadout s).lane 0).q = []) ∧
    (let s := lane (.red 3 [0] { rdst := 0, c0 := 0, nc := 1, nt := 1 } .fp32 64 false true 0 [])
     at0 s = true ∧ (after .lredReduce s).reds = []) ∧
    (let s := lane (.sync 3 [0])
     at0 s = true ∧ [0].Nodup ∧ s.syncReady 0 7 3 0 = true ∧ ((after .lsyncRelease s).lane 0).q = []) ∧
    (let r : Reduce := { ctx := 0, taskid := 7, pos := {}, id := 3, lanes := [0], got := [(0, [(0, false)], false)],
                         w := { rdst := 0, c0 := 0, nc := 1, nt := 1 }, fmt := .a56, dest := 0, ring := true, seq := 0, beds := [0] }
     let s : State := { task .c with reds := [r], cur := { ev := { a := 7 } } }
     s.reds.find? (fun r => r.ring && r.taskid == s.cur.ev.a && r.seq == s.cur.ev.b) = some r ∧ r.full = true) := by decide +kernel

/-- Hub core 64 with a command at the head of the queue of its matrix engine. -/
def matrix (m : MCmd) : State :=
  { ctxs := [(256, { st := .run, taskid := 7 })], cores := [(64, { spad := 1, allot := 1 })],
    mats := [(0, { q := [{ ctx := 256, taskid := 7, pos := {}, pol := false, part := 0, asid := 0, wsem := none, ssem := none, cmd := m }] })] }
theorem met_MatrixEnginesAtWork : let ready (m : MCmd) : Bool := (matrix m).matHead 0 == ((matrix m).mat 0).q.head? && ((matrix m).mat 0).q.length == 1
    ready (.lay 0 { base := 16 } (some (0, 4096))) = true ∧ ((after .mlayExecute (matrix (.lay 0 { base := 16 } none))).mat 0).q = [] ∧
    ready (.unf none) = true ∧ ready (.zero 1 .wrap) = true ∧ (tget {} ((after .mzeroExecute (matrix (.zero 1 .wrap))).mat 0).tiles 1).mode = .wrap ∧
    ready (.ld 0 0 0 1 0 32) = true ∧ ((matrix (.unf none)).layout 0 0).rstr < 32 ∧ ready (.ld 0 0 0 1 0 16) = true ∧
    ready (.drn 0 false 0 0 0 1 (some .fp32) false .rne false false) = true ∧ drainOk .float .fp32 = true ∧ drainOk .float .i32s = false ∧
    ready (.mul 0 false 1 0 .i8s false 0 1 0 .i8s false 0) = true := by decide +kernel
/-- (3 × 2 − 1 × 1) × ½ is 2.5: exponent 1 above the bias, and a quarter as the fraction (R85, R95). -/
theorem test_block_sum : a56Add 0 (blockValue [.fin false 3 1, .fin true 1 1] [.fin false 2 1, .fin false 1 1] (.fin false 1 1) (.fin false 1 2)) =
    2 ^ 54 + 2 ^ 42 := by decide +kernel

/-! ## Events: transfers, tasks, regions, columns, the rake and the host -/

/-- A transfer of kind `x` at the head of the queue of S of core 0. -/
def transferring (x : Xfer) : State :=
  { task .s [] [] {} { mq := [{ id := 3, eng := .s, inL := false, inS := true, pos := {}, kind := .xfer x }] } with cur := { ev := { eng := .s } } }
def dim1 : Dim := { sstr := 0, dstr := 1, cnt := 2, win := 0, off := 0, samp := 1 }
theorem met_TransfersAtWork :
    (let x : Xfer := { kind := .fill, dspc := .l, dbase := 64, sbase := 7, tf := .i8n, dims := [dim1], ten := true, tag := 63 }
     let s := transferring x
     (s.xferHead 0 .s).map (·.2) = some x ∧ x.finished = false ∧ x.total = 2 ∧ s.mustAsk 0 x = false ∧ x.elem 0 0 = (.fill 64, false) ∧ s.spadHas 0 64 1 = true ∧
     memGet ((after .transferChunk s).core 0).sram.cells 65 = 7) ∧
    (let x : Xfer := { kind := .fill, dims := [dim1], next := 2, ten := true, tag := 63 }
     x.closes = true ∧ ((after .transferCompletion (transferring x)).core 0).tagmap = 2 ^ 63 ∧ ((after .transferCompletion (transferring x)).ctx 0).mq = []) ∧
    (let x : Xfer := { kind := .copy, dims := [dim1], acked := false }
     x.acked = false ∧ (((after .systemWriteAck (transferring x)).xferHead 0 .s).map (·.2.acked)) = some true) ∧
    (let x : Xfer := { kind := .fill, dims := [dim1], next := 2, ren := true, ringcb := 128, wait := some 0 }
     let s := transferring x
     let full : State := { s with clock := 400000, cores := [(0, { spad := 1, allot := 1, sram := ({} : Sram).putAll 128 (leBytes 16 (2 ^ 96)) })] }
     x.closes = true ∧ s.spadHas 0 128 16 = true ∧ ((after .completionRecordWrite s).xferHead 0 .s).map (·.2.wrote) = some true ∧
     ((after .ringWaitTimeout { s with clock := 400000 }).ctx 0).trap = none ∧
     ((after .ringWaitTimeout { full with clock := 399999 }).ctx 0).trap = none ∧
     (((after .ringWaitTimeout full).ctx 0).trap.map (·.code)) = some .qfault) ∧
    (let x : Xfer := { kind := .creq, dim := 1, nrows := 1, rstr := 2, sf := .fp16, tf := .fp32, dspc := .l }
     (transferring x).mayPerform 0 { id := 3, eng := .s, inL := false, inS := true, pos := {}, kind := .xfer x } none = true ∧ x.finished = false ∧
     ((transferring x).col x.col).retr = false) := by decide +kernel
/-- Core 0 serves stage 0 of region 1, whose queue holds one item. -/
def serving : State :=
  { task .x with ctxs := [], cores := [(0, { serve := some (1, 0) })],
                 regions := [(1, { regid := 1, live := true, rcb := { vlines := 1 }, dataVa := 64,
                                   stages := [{ qbase := 4096, entry := 2, depth := 2, item := 1 }],
                                   queues := [(0, [{ slot := 1, attempt := 0, st := .published }])] })] }
theorem met_TasksRunAndEnd_start : serving.startFor 0 serving.cur.pick = some (1, 0) ∧ (serving.ctx 0).st = .idle ∧
    oldestItem ((serving.region 1).queue 0) = some { slot := 1, attempt := 0, st := .published } ∧ serving.preempted 0 = false ∧
    (serving.region 1).resumes 0 = false ∧ (((after .taskStart serving).ctx 0).eng .l).rx 1 = 4128 ∧
    (((after .taskStart serving).ctx 0).eng .c).rx 2 = 32 ∧ ((after .taskStart serving).ctx 0).st = .run := by decide +kernel
/-- A task all of whose engines are at `tend`. -/
def ended (c : Ctx) : State :=
  { task .x with ctxs := [(0, { c with regid := 1, taskid := 7, engs := [(0, { wait := .tend }), (1, { wait := .tend }), (2, { wait := .tend }), (3, { wait := .tend })] })] }
theorem met_TasksRunAndEnd_end :
    (let s := ended { st := .run }
     (s.ctx 0).atTend = true ∧ s.deferred 0 (fun _ => true) = none ∧ s.commandsDone 0 = true ∧ ((after .taskCommit s).ctx 0).st ≠ .run) ∧
    (let s := ended { st := .commit [5] }
     (s.ctx 0).st = .commit [5] ∧ s.sliceBusy 0 5 = false ∧ s.sliceBusy 0 0 = false) ∧
    (let s := ended { st := .commit [] }
     (s.ctx 0).st = .commit [] ∧ (match s.publishItems 1 (s.ctx 0).pushes with | .ok t => t == s | .error _ => false) = true ∧
     ((after .taskCommit s).ctx 0).st = .idle) ∧
    (let t : Trap := { code := .prot, eng := .x, pc := 0, addr := 0, info := 0, clock := 0 }
     let s := ended { st := .trapped, trap := some t }
     (s.ctx 0).trap = some t ∧ (s.region 1).domain.toNat / 4096 = 15 ∧ (s.region 1).domain.toNat / 256 % 16 = 3 ∧ codeRetried .prot = true ∧
     ((after .trapDelivery s).ctx 0).st = .idle) ∧
    (ended { st := .run, dead := 64 }).allDeadly 0 = false ∧
    (let s := { task .x with ctxs := [(0, { st := .run, dead := 64, engs := [(0, { stall := some .token }), (1, { wait := .tend }), (2, { wait := .tend }), (3, { wait := .tend })] })] }
     s.allDeadly 0 = true ∧ (((after .deadlockDetect s).ctx 0).trap.map (·.code)) = some .qfault) ∧
    (let m : Miss := { part := 0, asid := 0, page := 0, reqs := [] }
     let s : State := { mem := pageTable, roots := [(0, 32768)], miss := [(0, [m])] }
     choose (((tget [] s.miss 0).take 64).zipIdx) s.cur.pick = some (m, 0) ∧ (s.walk 0 0 0 0).isSome = true ∧ s.walk 0 1 0 0 = none) ∧
    (let g : Region := { regid := 1, live := true, domain := 0x0300, stages := [{ depth := 1, item := 3 }], traps := [{ trapid := 0, record := [], queued := false }] }
     (g.traps.find? fun x => !x.queued).isSome = true ∧ g.occupancy 0 < (g.stage 0).depth) := by decide +kernel
/-- A pre-empted partition 0 with a task that has stopped at a `yield`, or with one saved. -/
def stopping (c : CtxSt) (stopped : Bool) : State :=
  { task .x with
    ctxs := [(0, { st := c, regid := 1, engs := [(0, { wait := .yield }), (1, { wait := .yield }), (2, { wait := .yield }), (3, { wait := .yield })] })]
    regions := [(1, { regid := 1, live := true, yields := [{ ypc := 0, save := 8, restore := 10, nv := 1 }] })]
    parts := [(0, { preempt := some { since := 0, acks := [], stopped := stopped } })] }
theorem met_PreemptionAndLwait :
    (let s := stopping .run false
     s.preempted 0 = true ∧ ((s.region 1).yieldAt 0).isSome = true ∧ (s.ctx 0).xStopped = true ∧ (s.ctx 0).othersStopped = true ∧ s.settledForSave 0 = true ∧
     ((after .contextHalt s).ctx 0).st = .saving false ∧ (((after .contextHalt s).ctx 0).eng .c).pc = 8) ∧
    (task .x).preempted 0 = false ∧ ((after .preemptionRequest (task .x)).partn 0).preempt = some { since := 0, acks := [], stopped := false } ∧
    (stopping .saved false).partStopped 0 [] = true ∧ (stopping .run false).partStopped 0 [] = false ∧ ((stopping .saved true).partn 0).preempt ≠ none ∧
    (let s := { stopping .saved true with parts := [] }
     (s.ctx 0).st = .saved ∧ s.preempted (s.region 1).part = false ∧ ((after .contextRestore s).ctx 0).st = .restoring false) ∧
    (let s := { stopping .run false with parts := [], ctxs := [(0, { st := .run, regid := 1, engs :=
                 [(0, { wait := .lwait 5 9 }), (1, { wait := .yield }), (2, { wait := .tend }), (3, { wait := .yield })] })] }
     (s.ctx 0).othersStopped = true ∧ (s.ctx 0).saveBad = 0 ∧ s.commandsDone 0 = true ∧ s.settledForSave 0 = true) ∧
    (let x : SavedTask := { ctx := { regid := 1, taskid := 9, saveRes := 10 }, child := 2, core := 0, done := true }
     let s : State := { serving with regions := [(1, { regid := 1, live := true, saved := [x] })], cur := { ev := { a := 9 } }, mem := pageTable, roots := [(0, 32768)], cores := [(0, { serve := some (1, 0), tlb := [{ part := 0, asid := 0, va := 0, size := 8192, pa := 8192, w := true, x := false }] })] }
     (match s.areaRead 0 0 0 (lineParts ((x.ctx.eng .x).rx 28).toNat x.ctx.saveHead) with | .ok _ => true | _ => false) = true ∧
     (match ({ s with cores := serving.cores } : State).areaRead 0 0 0 (lineParts 0 8) with | .error (some _) => true | _ => false) = true ∧
     (match s.areaRead 0 0 0 (lineParts (2 ^ 53) 8) with | .error none => true | _ => false) = true ∧ x.ctx.trap = none ∧
     ((s.region 1).saved.find? (fun x => x.ctx.taskid == 9 && x.done && x.ctx.stage == 0)) = some x ∧ s.reservedFor 0 = none ∧
     ((after .lwaitResume s).ctx 0).st = .restoring true) := by decide +kernel
theorem met_RegionsRunAndEnd :
    (let l : Launch := { regid := 1, rcb := 0, seed := 0, part := 0, asid := 0, parent := none, tag := 0, priv := false, since := 0 }
     let s : State := { booted := true, parts := [(0, { record := some {} })], cur := { ev := { b := 256 } } }
     (s.partn 0).record ≠ none ∧ (s.partn 0).launches.length < 256 ∧ (after .launchMessage s).out = [.reply 0 0 1] ∧
     ((after .launchMessage s).partn 0).launches = [{ l with rcb := 256 }] ∧
     (let u : State := { s with parts := [(0, { record := some {}, launches := [l] })], cur := { ev := { a := 1 } } }
      u.findLaunch 1 = some l ∧ u.readPlan l = none ∧ u.preempted 0 = false ∧ l.effPrio < 7 ∧
      (after .launchPriorityRise { u with clock := 199999 }) = { u with clock := 199999 } ∧
      ((after .launchPriorityRise { u with clock := 200000 }).partn 0).launches.map (·.rise) = [1] ∧ (after .regionAdmission u).findLaunch 1 = none)) ∧
    (let s : State := { serving with cur := { ev := { a := 1 } }, booted := true }
     (s.region 1).live = true ∧ (s.region 1).aborting = false ∧ (after .abortMessage { s with cur := { ev := { b := 1 } } }).out = [.reply 0 0 0] ∧
     (after .abortMessage { s with cur := { ev := { b := 2 } } }).out = [.reply 0 8 0] ∧ s.quietBut 1 (fun _ => false) = false) ∧
    (let s : State := { regions := [(1, { regid := 1, live := true, cores := [0] })], cores := [(0, { serve := some (1, 0) })], cur := { ev := { a := 1 } } }
     s.quietBut 1 (fun _ => false) = true ∧ ((after .quiescenceReport s).region 1).quiet = true ∧
     (match s.writeCompletion (s.region 1) 0 with | .ok t => t == s | .error _ => false) = true ∧
     ((after .regionCompletion { s with regions := [(1, { (s.region 1) with quiet := true })] }).region 1).live = false) ∧
    (let s : State := { regions := [(1, { regid := 1, live := true, rcb := { sram := 4, cores := 2 } })], cores := [(0, { join := some (1, 0) })] }
     s.coreTasks 0 1 = 0 ∧ ((after .coreJoinStage s).core 0).serve = some (1, 0) ∧ ((after .coreJoinStage s).core 0).spad = 2) ∧
    (let s : State := { regions := [(1, { regid := 1, live := true, rcb := { cores := 1 }, pools := [(bitCores, 1)], coreWait := some (0, 0) })],
                        parts := [(0, { record := some { cores := 1 } })], cur := { ev := { a := 1 } } }
     s.mayTake (s.region 1) 0 = true ∧ ((after .coreGrant s).region 1).cores = [0] ∧ (s.region 1).waitPrio < 7 ∧
     ((after .coreWaitPriorityRise { s with clock := 200000 }).region 1).coreWait = some (0, 1)) := by decide +kernel
theorem met_ColumnsAtWork : let s : State := {}
    let at_ (n c : Nat) (e : Nat) : State := { s with clock := n, cur := { ev := { c := c, opt := some e, scrub := .sample } } }
    (s.col (colKey 0 0)).frame ≠ 0 + 1 ∧ (after .frameBoundary s).col 0 = { frame := 1 } ∧ (after .frameBoundary (at_ 1 0 0)) = at_ 1 0 0 ∧
    ((after .streamingSlot s).col 0) = { slot := 1, laneUsed := 1 } ∧ (after .streamingSlot (at_ 480 30 0)) = at_ 480 30 0 ∧
    ((after .streamingSlot (at_ 464 29 0)).col 0).slot = 30 ∧
    ((after .refreshSlot (at_ 480 0 0)).col 0) = { slot := 31, refresh := 1 } ∧ ((after .maintenanceSlot (at_ 496 0 0)).col 0).slot = 32 ∧
    ((after .retrainingDue (at_ 32000000 0 0)).col 0).owed = some 32000000 ∧ (after .retrainingDue (at_ 31999999 0 0)) = at_ 31999999 0 0 ∧
    ((after .bankSleep (at_ 0 71 0)).col 0).sleep = [71] ∧ (after .bankSleep (at_ 0 72 0)) = at_ 0 72 0 ∧
    (let r : State := { cols := [(0, { retr := true, retrEnd := 4096 })], clock := 4096 }
     ((after .retrainingEnd r).col 0).retr = false) ∧
    (let r : State := { cols := [(0, { owed := some 0 })], clock := 160000 }
     (r.lane 0).defers = false ∧ after .retrainingForce r = r) ∧
    (let r : State := { clock := 40000, cur := { ev := { b := 100001 } } }
     (r.bed 0).cap < 100001 ∧ ((after .powerSample r).bed 0).sample = 80000) := by decide +kernel
/-- A wait for three chunks for the text of a translation. -/
def text : SpaceWait := ({ tenant := 0, digest := [], feat := [], version := 0, result := none, ready := false, since := 0, malig := [] } : IdustEnt).wait 3 0
theorem met_RakeAtWork :
    (let e : Granule := { bed := 0, col := 0, raw := true }
     let s : State := { grans := [(0, e)], dirty := [3, 64] }
     tfind s.grans 0 = some e ∧ (after .l2Writeback s).dirty = [64] ∧ tfind s.grans 1 = none) ∧
    (let e : Granule := { bed := 0, col := 0, raw := false, balloon := true, nch := 2 }
     let s : State := { grans := [(0, e)], mem := memPut [] 8191 5, parts := [(0, { held := 2, balloon := [0], waits := [text] })] }
     tfind s.grans 0 = some e ∧ memGet (after .balloonReclaim s).mem 8191 = 0 ∧ ((after .balloonReclaim s).granule 0).nch = 0) ∧
    (let e : Granule := { bed := 0, col := 0, raw := true }
     let w : SpaceWait := { ctx := none, id := 0, granule := 0, line := 0, slice := 0, since := 0 }
     let s : State := { grans := [(0, { e with raw := false })], parts := [(0, { waits := [w] })], clock := 200000 }
     (s.parts.flatMap fun p => p.2.waits.map fun w => (p.1, w))[0]? = some (0, w) ∧ w.migrates = false ∧ s.canMeet 0 w = false ∧
     ((after .spaceTimeout s).partn 0).spc = 1 ∧ after .spaceTimeout { s with clock := 199999 } = { s with clock := 199999 }) ∧
    (let e : Granule := { bed := 0, col := 0, raw := true, copying := some (1, false) }
     let s : State := { grans := [(0, e)] }
     (s.granule 0).copying = some (1, false) ∧ s.sliceClear 0 = true ∧ ((after .granuleMigrate s).granule 0).col = 1) ∧
    (let s : State := { cols := [(0, { drain := true })] }
     0 ∈ (s.bed 0).bound ∧ (s.col (colKey 0 0)).drain = true ∧ s.spares 0 ≠ [] ∧ ((after .columnDrain s).bed 0).bound ≠ (s.bed 0).bound) := by decide +kernel
theorem met_HostAndService : let s : State := { booted := true }
    (tget {} s.qps 0).pend = [] ∧ s.inWindowFor 0 0 0 0 true = none ∧ (after .rdmaWriteInbound s).out = [.nak 0 false] ∧
    (after .congestionNotification s).qps = [(0, { rate := 1 })] ∧ (∀ o ∈ s.ports, o.2.retrain ≤ s.clock) ∧
    s.fatal = none ∧ fatalUnit 4 8 = true ∧ fatalUnit 4 9 = false ∧
    (after .fatalError { s with cur := { ev := { a := 4, b := 8 } } }).fatal = some (4, 8) ∧
    (s.fw (fwKey .security)).trial = none ∧ s.listRead 0 0 (lineParts 0 8) = none ∧
    (let t : State := { s with images := [(fwKey .security, { runB := true, trial := some 0 })], clock := 4000000000 }
     (t.fw (fwKey .security)).trial = some 0 ∧ ((after .firmwareSwitchBack t).fw (fwKey .security)).runB = false) := by decide +kernel
theorem met_TasksRunAndEnd_more :
    (let t : Trap := { code := .prot, eng := .x, pc := 0, addr := 0, info := 0, clock := 0 }
     let s := ended { st := .trapped, trap := some t }
     s.discardWaits 0 = false ∧
     ((s.modCtx 0 fun c => { c with mq := [{ id := 3, eng := .s, inL := false, inS := true, pos := {}, kind := .xfer { kind := .fill, cend := some 4 } }] }).discardWaits
       0) = true) ∧
    (let g : Region := { regid := 1, live := true, domain := 0x0300, stages := [{ depth := 1, item := 3 }], traps := [{ trapid := 0, record := [], queued := false }] }
     let s : State := { regions := [(1, g)], cur := { ev := { a := 1 } } }
     choose (s.openSlots 1 0) s.cur.pick = some 0) ∧
    (let s := { task .x with ctxs := [(0, { st := .run, dead := 64, engs := [(0, { stall := some .token }), (1, { wait := .tend }), (2, { wait := .tend }), (3, { wait := .tend })] })] }
     s.goesOn 0 = false) := by decide +kernel
theorem met_PreemptionAndLwait_more :
    (let s := { stopping .run false with cur := { ev := { stop := .lane 0 } } }
     (s.parts.find? fun p => match p.2.preempt with
       | some q => decide (StopUnit.lane 0 ∉ q.acks) && s.atBoundary p.1 (.lane 0) | none => false).isSome = true ∧
     ((after .unitStopAck s).partn 0).preempt.map (·.acks) = some [.lane 0]) ∧
    (let s (l : List Nat) : State := { stopping .run false with
       parts := [], regions := [(1, { regid := 1, live := true, children := l, yields := [{ ypc := 0, save := 8, restore := 10, nv := 1 }] })],
       ctxs := [(0, { st := .run, regid := 1, engs := [(0, { wait := .lwait 5 9 }), (1, { wait := .yield }), (2, { wait := .tend }), (3, { wait := .yield })] })] }
     ((s []).region 1).childOver 9 = true ∧ ((s [9]).region 1).childOver 9 = false ∧
     (((after .lwaitYield (s [])).ctx 0).eng .x).rx 5 = resultQuad 8 0) ∧
    (let s := stopping (.saving true) false
     (s.ctx 0).allYielded = true ∧ ((s.ctx 0).eng .x).wait = .yield) := by decide +kernel
theorem met_RegionsRunAndEnd_admission :
    (let p : Plan := { raw := 0, rcb := { prio := 7 }, stages := [], groups := [], base := 0, text := .malig [1], header := [], sects := [], table := [], held := [], dataVa := 0 }
     let l : Launch := { regid := 1, rcb := 0, seed := 0, part := 0, asid := 0, parent := none, tag := 0, priv := false, since := 0, plan := some p }
     let s : State := { parts := [(0, { record := some {}, launches := [l] })], clock := 200000, cur := { ev := { a := 1 } } }
     s.findLaunch 1 = some l ∧ l.plan = some p ∧ min 7 (p.rcb.prio + l.rise) = 7 ∧ l.top = none ∧
     ((after .launchPriorityRise s).partn 0).launches.map (·.top) = [some 0] ∧ p.textOf none = none) := by decide +kernel
theorem met_ColumnsAtWork_patrol :
    let s : State := { cols := [(0, { fixes := [(5, [0])] })], errs := [(5, [(0, 0)])], clock := 496,
                       cur := { ev := { c := 7, scrub := .writeBack 5 } }, grans := [(0, { bed := 0, col := 0, raw := true })] }
    (s.col 0).fixes.find? (fun f => f.1 == 5) = some (5, [0]) ∧ (s.col 0).fixes.find? (fun f => f.1 == 6) = none ∧
    s.decodes 5 = true ∧ (s.col 0).lost = false ∧ (after .maintenanceSlot s).errs = [] ∧ ((after .maintenanceSlot s).col 0).corr = [(0, [5])] ∧
    ((after .bankWake { s with cols := [(0, { sleep := [7], waking := [7] })] }).col 0).sleep = [] ∧ s.columnOf 5 = 0 ∧
    (let r : State := { s with cols := [(0, { capk := 15 })], clock := 384, cur := { ev := { c := 24 } } }
     ((after .streamingSlot r).col 0).genUsed = 1 ∧
     ((after .streamingSlot { r with cols := [(0, { capk := 15, genUsed := 3 })] }).col 0).genUsed = 3 ∧
     ((after .streamingSlot { r with cols := [(0, { capk := 15, laneUsed := 12 })], clock := 368, cur := { ev := { c := 23 } } }).col 0).laneUsed = 12) :=
  by decide +kernel
theorem met_RakeAtWork_more :
    (let s : State := { parts := [(0, { limit := 4, waits := [text] })], devPool := [(0, 5)] }
     s.poolTurn 0 = true ∧ s.waitNeed 0 = 3 ∧ ((after .rakeReclaim s).partn 0).free = 3) ∧
    (let s : State := { parts := [(0, { waits := [text] })], grans := [(3, { bed := 0, col := 0, raw := false, reserved := [0] })] }
     choose (s.recompactable 0) s.cur.pick = some 3 ∧ s.poolDraw 0 = 0 ∧ s.lacks 0 ≠ 0 ∧ ((after .rakeReclaim s).granule 3).reserved = []) ∧
    (let s : State := { parts := [(0, { waits := [text], held := 2, balloon := [0] })],
                        grans := [(0, { bed := 0, col := 0, raw := false, balloon := true, nch := 2 })] }
     choose (s.recompactable 0) s.cur.pick = none ∧ s.poolDraw 0 = 0 ∧ s.lacks 0 ≠ 0 ∧ ((after .rakeReclaim s).granule 0).nch = 0) ∧
    (let s : State := { cols := [(0, { target := some 67 })], lanes := [(0, { q := [{ ctx := 0, taskid := 7, pos := {}, cmd := .sync 3 [0] }] })],
                        ctxs := [(0, { st := .run, taskid := 7 , regid := 1})],
                        regions := [(1, { regid := 1, live := true, trellis := [{ column := [0], lane := [0] }] })], cur := { ev := { a := 1 } } }
     (s.region 1).live = true ∧ ((s.region 1).trellis.getD 0 {}).column[0]? = some 0 ∧ (s.col 0).target = some 67 ∧
     (match s.syncHead 0 with | some (k, _) => (s.ctx k).regid == 1 | none => false) = true) := by decide +kernel
theorem met_HostAndService_more :
    (let w : Window := { rkey := 0, base := 0, len := 256, asid := 0, r := true, w := true }
     let s : State := { booted := true, mem := pageTable, roots := [(0, 32768)], parts := [(0, { inbound := [(0, w)] })],
                        grans := [(1, { bed := 0, col := 0, raw := true })], cur := { ev := { d := 8 } } }
     s.inWindowFor 0 0 0 8 false = some w ∧ s.rdmaParts 0 0 false (lineParts 0 8) = some [(8192, 0, 8)] ∧ s.held = [] ∧
     (s.l2Fill 64).linePoisoned 64 = false ∧ (after .rdmaReadInbound s).out = [.ack 0 [0, 0, 0, 0, 0, 0, 0, 0]] ∧
     (({ s with poison := [64] } : State).l2Fill 64).linePoisoned 64 = true ∧
     (after .rdmaReadInbound { s with poison := [64] }).out = [.nak 0 true] ∧
     s.inWindowFor 0 0 128 200 false = none ∧ ({ s with roots := [] } : State).rdmaParts 0 0 false (lineParts 0 8) = none) := by decide +kernel

/-! ## Further witnesses, for the clauses beside those above -/

/-- X past a block of four parcels with `n` in `x31`, its text at `va` of address space 0. -/
def aimed (n : Nat) (va : Nat) : State :=
  let s := task .x [(31, quadN n)] (encode (.blockHeader 0 2 1) ++ encode (.add {} 5 6 7))
  { s with regions := [(1, { regid := 1, live := true, textVa := va, textLen := 8 })], mem := s.mem ++ pageTable, roots := [(0, 32768)] }
theorem met_BranchesGoToTheirTarget_header : branchOf .ret (aimed 2 16384) = some (true, 2) ∧ Ready (aimed 2 16384) .ret ∧
    (match (aimed 2 16384).parcels 0 .x false 2 2 with | .ok (p :: _) => decide (p.toNat % 4 ≠ 1 ∨ p.toNat / 4 % 64 ≠ 0) | _ => false) = true ∧
    ((after .ret (aimed 2 16384)).cc.trap.map (·.code)) = some .illop ∧
    (match (aimed 0 (2 ^ 53)).parcels 0 .x false 0 2 with | .fault .. => true | _ => false) = true ∧
    (match (aimed 0 0).parcels 0 .x false 0 2 with | .miss va => va == 0 | _ => false) = true :=
  ⟨by decide +kernel, ready_of _ _ rfl rfl rfl rfl rfl ⟨rfl, rfl, rfl, rfl, rfl⟩, by decide +kernel⟩
theorem met_BlockHeaderEntersItsBlock_waits :
    let s := task .x [(5, 3)] [0, 0, 0, 0] {} { mq := [{ pendingLoad with eng := .x, kind := .load 2 true 5 }] }
    headerWaits (.blockHeaderReg 5 2 1) s = true ∧ headerCount (.blockHeaderReg 5 2 1) s = some (3, 2, 1) ∧
    (after (.blockHeaderReg 5 2 1) s).ce.stall = some .result ∧ ((after (.blockHeaderReg 5 0 1) s).cc.trap.map (·.code)) = some .illop := by
  decide +kernel
theorem met_GathersAndScatters_faults :
    let bad := gathering.modCore 0 fun c => { c with poison := [32] }
    let far := { gathering with ctxs := [(0, { st := .run, regid := 1, engs := [(1, { x := [(5, 24576), (6, 256)] })] })] }
    (match (bad.modCtx 0 fun c => { c with pol := true }).readLocal 256 8 with | .error (.stay _) => true | _ => false) = true ∧
    (match ({ gathering with cores := [(0, { (gathering.core 0) with splitting := true })] } : State).readLocal 256 8 with
     | .error (.stall v _) => v == .hold | _ => false) = true ∧
    (match gathering.readLocal 65536 8 with | .error (.trap c x _ _) => c == .prot && x == 65536 | _ => false) = true ∧
    (gathering.core 0).splitting = false ∧ gathering.localStored = true ∧ gathering.acquired = true ∧
    gathering.issuedBefore gathering.me .l gathering.pos decLocalStore = true ∧
    (match far.reachList .g false 24576 4 [(0, 0)] with | .miss x => x == 24576 | _ => false) = true ∧
    (match far.reachList .g false (2 ^ 53) 4 [(0, 0)] with | .fault .. => true | _ => false) = true := by decide +kernel
theorem met_StoreWritesItsBytes_peer : let a := { pendingLoad with kind := .store, inL := false, inS := true }
    let w := ({ task .s with cores := (task .s).cores ++ [(1, { spad := 1, allot := 1 })] } : State).writePart 0 a { place := .peer 1, addr := 64, len := 2, off := 0 } [1, 2]
    w.2 = true ∧ tget [] (w.1.ctx 0).ver.peer 1 = [(64, 1), (65, 2)] := by decide +kernel
theorem met_LineAndOrderingInstructions_hold : let s := task .l [(6, 8192)]
    (after (.pfg {} 6 0) { s with held := [{ line := 64, ctx := 4 }] }).ce.stall = some .hold ∧
    (∃ h ∈ ({ s with held := [{ line := 64, ctx := 4 }] } : State).held, h.line = 64 ∧ h.ctx ≠ s.me) ∧
    (after (.pfg {} 6 0) { s with held := [{ line := 64, ctx := 0 }] }).held = [] ∧
    ((after (.pfg {} 6 0) s).core 0).l1.map (·.line) = [64] :=
  ⟨by decide +kernel, ⟨{ line := 64, ctx := 4 }, by simp, rfl, by decide +kernel⟩, by decide +kernel, by decide +kernel⟩
/-- The tags 5 and 9 set, the second of them by a completion in this clock. -/
def justSet : State := { tagged with clock := 6, cores := [(0, { tagmap := 0x220, tagSet := (6, 0x200) })] }
theorem met_TransferTags_same_clock : Ready justSet (.tclr {} 6) ∧ Ready justSet (.tffr {} 5 6) ∧ (justSet.core 0).tagSet.1 = justSet.clock ∧
    (justSet.core 0).tagSet.2 &&& justSet.rx 6 ≠ 0 ∧ ((after (.tclr {} 6) justSet).core 0).tagmap = 0x200 ∧
    ((after (.tclr {} 6) { justSet with clock := 7 }).core 0).tagmap = 0 :=
  ⟨ready_of _ _ rfl rfl rfl rfl rfl ⟨rfl, rfl, rfl, rfl, rfl⟩, ready_of _ _ rfl rfl rfl rfl rfl ⟨rfl, rfl, rfl, rfl, rfl⟩,
   by decide +kernel⟩
/-- A sequence of length 2, with slot 2 reserved and a group of the slots 3 and 4, both of task 7. -/
def twoSlots : Seq :=
  { live := true, va := 8192, len := 2, cur := 5, tbase := 3, tcnt := 2, tact := true, towner := 7,
    slots := [{ i := 2, st := .reserved, owner := 7 }, { i := 3, st := .tentative, owner := 7 }, { i := 4, st := .tentative, owner := 7 }],
    ext := [{ base := 16, npg := 64, bed := 0, block := 16 }] }
/-- X at a sequence whose control block is at 8192, in a partition with a pool. -/
def atSeq (q : Seq := twoSlots) : State :=
  { atSlice with
    seqs := [(8192, q)]
    pools := [(0, { first := 0, pages := 1024, free := [(512, 6)], used := [(16, 6, 1)] })] }
/-- Reservations of the control block's lines succeed, as its granule is raw. -/
theorem met_SliceOperationsEnter_sequences : let s := atSeq
    let q := s.seq 8192
    let done (o : OpRes) (f : State → Quad → Bool) : Bool := match o with | .done t v => f t v | _ => false
    let free (s : State) : Bool := match (s.l1DropScb 0 8192).reserveScb 0 3 0 8192 q.va with | .ok _ => true | .error _ => false
    q.live = true ∧ q.tact = true ∧ q.towner = (s.ctx 0).taskid ∧ free s = true ∧ q.pin = 0 ∧ q.len < q.cur ∧
    q.slots.any (fun r => r.i == 2 && r.st == .reserved && r.owner == 7) = true ∧
    done (s.opSqcmt 0 3 8192 2 1) (fun t v => v == resultQuad 0 3 && (t.seq 8192).len == 3) = true ∧
    done (s.opSqcmt 0 3 8192 3 1) (fun _ v => v == resultQuad 8 0) = true ∧
    done (s.opSqacc 0 3 8192 2) (fun t _ => (t.seq 8192).tact == false && (t.seq 8192).tbase == 5) = true ∧
    done (s.opSqacc 0 3 8192 3) (fun _ v => v == resultQuad 8 0) = true ∧
    done (s.opSqwd 0 3 8192) (fun t v => v == resultQuad 0 2 && (t.seq 8192).cur == 3) = true ∧
    done (s.opSqfree 0 3 8192) (fun _ v => v == resultQuad 2 0) = true ∧
    done (s.opSqres 0 3 8192 1) (fun _ v => v == resultQuad 2 0) = true ∧
    done (s.opSqlen 0 8192) (fun _ v => v == resultQuad 0 2) = true ∧
    done (s.opSqext 0 8192 1 0) (fun _ v => v == 1) = true ∧ q.ext[0]? ≠ none ∧ q.ext.length ≤ 1 ∧
    (match s.opSqwait 0 8192 3 with | .wait t => t == s | _ => false) = true := by decide +kernel
theorem met_SliceOperationsEnter_makes : let s := atSeq { live := true, va := 8192, len := 2, cur := 2, pin := 1 }
    let fresh := { s with seqs := [] }
    let done (o : OpRes) (f : State → Quad → Bool) : Bool := match o with | .done t v => f t v | _ => false
    done (s.opSqres 0 3 8192 1) (fun t v => v == resultQuad 0 2 && (t.seq 8192).cur == 3) = true ∧
    done (s.opSqrest 0 3 8192 64) (fun t v => v == resultQuad 0 2 && (t.seq 8192).tcnt == 64) = true ∧
    done (s.opSqrest 0 3 8192 65) (fun _ v => v == resultQuad 8 0) = true ∧
    done (s.opSqpin 0 3 8192 true) (fun t v => v == resultQuad 0 2 && (t.seq 8192).pin == 2) = true ∧
    done (s.opSqpin 0 3 8192 false) (fun t v => v == resultQuad 0 0 && (t.seq 8192).pin == 0) = true ∧
    done ((atSeq { live := true, pin := 65535 }).opSqpin 0 3 8192 true) (fun _ v => v == resultQuad 2 0) = true ∧
    done ((atSeq { live := true, len := 2, cur := 2 }).opSqfree 0 3 8192) (fun t v => v == resultQuad 0 2 && (t.seq 8192).live == false) = true ∧
    done (fresh.opSqnew 0 3 8192 8192 (0x0E * 1024) 1) (fun t v => v == 0 && (t.seq 8192).live == true) = true ∧
    done (s.opSqnew 0 3 8192 8192 (0x0E * 1024) 1) (fun _ v => v == resultQuad 8 0) = true ∧
    done (fresh.opSqlen 0 8192) (fun _ v => v == resultQuad 7 0) = true ∧
    done (s.opSqfork 0 3 8192 8448 8448 8192) (fun t v => v == resultQuad 0 2 && (t.seq 8448).forkl == 2) = true ∧
    done (s.opSqfork 0 3 8192 8192 8192 8192) (fun _ v => v == resultQuad 8 0) = true ∧
    done (({ s with pools := [] } : State).opSqfork 0 3 8192 8448 8448 8192) (fun _ v => v == resultQuad 6 0) = true := by decide +kernel
theorem met_SliceOperationsEnter_barriers : let s := atSlice
    let done (o : OpRes) (f : State → Quad → Bool) : Bool := match o with | .done t v => f t v | _ => false
    (s.l2Fill 64).linePoisoned 64 = false ∧ (s.l2Fill 64).hitsScb 8192 16 = false ∧ ((s.l2Fill 64).reserveLine (s.ctx 0).part 8192).isSome = true ∧
    done (s.opBarWrite 0 3 0 8192 8192 (fun x => x.init 2) fun _ => 0) (fun t _ => barOf (leNat (memRead t.mem 8192 16)) ==
      { arrived := 0, expect := 2, err := false, errcur := false, rest := 0, phase := 0 }) = true ∧
    (let a := { pendingLoad with eng := .x, inS := true, kind := .op (.sqlen 5 0) }
     done ((s.endHold 0 64).opAt 0 a { place := .mem, addr := 8192, len := 8, off := 0, va := 8192 } (.sqlen 5 0)) (fun _ v => v == resultQuad 7 0) = true) := by
  decide +kernel
theorem met_Atomics_float : atomicNew .faddF 32 0x3F800000 0x40000000 0 = 0x40400000 := by decide +kernel
theorem met_SingleLineRegions_close : let s := { inRegion with held := [{ line := 64, ctx := 0 }] }
    let done (o : OpRes) (f : State → Quad → Bool) : Bool := match o with | .done t v => f t v | _ => false
    (∃ h ∈ s.held, h.line = 8192 / 128 ∧ h.ctx = 0) ∧ s.hitsScb 8192 128 = false ∧ s.linePoisoned 64 = false ∧
    (s.reserveLine (s.ctx 0).part 8192).isSome = true ∧
    done (s.opAlrc 0 3 0 8192 8192 [(5, 9)]) (fun t v => v == 1 && memGet t.mem 8197 == 9 && t.held == []) = true ∧
    done (inRegion.opAlrc 0 3 0 8192 8192 [(5, 9)]) (fun t v => v == 0 && memGet t.mem 8197 == 0) = true :=
  ⟨⟨_, List.mem_singleton.2 rfl, rfl, rfl⟩, by decide +kernel⟩
theorem met_SlotAccessesEnter_performs : let s := atSeq
    let p : Part := { place := .mem, addr := 8192, len := 256, off := 0, va := 8192 }
    let load := s.performQload 0 pendingLoad p 5 6 8192
    let fill := s.performQfill 0 { pendingLoad with data := [1, 2] } p 8192
    (s.seq 8192).live = true ∧ (s.seq 8192).len ≤ 2 ∧ 1 < (s.seq 8192).len ∧ 64 ≤ (s.seq 8192).size ∧ 0 < (s.seq 8192).size ∧
    s.slotVoid (s.seq 8192) 1 = false ∧ ((load 2 0 none).ctx 0).engs.isEmpty = false ∧ (((load 2 0 none).ctx 0).eng .l).rx 6 = resultQuad 1 2 ∧
    (((load 1 0 none).ctx 0).eng .l).rx 6 = resultQuad 0 2 ∧ (((load 1 64 none).ctx 0).trap.map (·.code)) = some .prot ∧
    (s.chanLines (s.seq 8192) 1 0 1).all (fun l => !s.linePoisoned l) = true ∧ ((fill 2 0).ctx 0).ver.fills = [(8192, 2, 0, 513)] ∧
    (((fill 9 0).ctx 0).trap.map (·.code)) = some .prot := by decide +kernel
/-- C behind a `sunbind` of L that waits for the units of the stream 3. -/
def unbindingFirst : State :=
  { streaming (readStream 2 none) with ctxs := [(0, { ((streaming (readStream 2 none)).ctx 0) with engs :=
      [(1, { wait := .sunbind 3 { head := 0, visit := 1, off := 1 } }),
       (2, { visits := [0], pc := 2, blk := some { head := 0, next := 6, left := 1, begun := true, mask := 6 } })] })] }
theorem met_VectorOperands_serve : (streaming (readStream 2 none)).rebinding 3 = false ∧ unbindingFirst.rebinding 3 = true ∧
    unbindingFirst.meets 3 ∧ (unbindingFirst.streamHere 3).total ≤ (unbindingFirst.streamHere 3).done ∧
    (match unbindingFirst.operandsOpen none [.z 3] with | .error (.stall _ _) => true | _ => false) = true ∧
    (match (streaming { readStream 0 none with write := true }).operandsOpen (some (.v 1)) [.z 3] with
     | .error (.trap c 0 0 _) => c == .qfault | _ => false) = true ∧
    (match (streaming (readStream 0 none)).operandsOpen (some (.v 1)) [.z 3] with | .ok () => true | _ => false) = true ∧
    (match (streaming (readStream 0 (some (.prot, 64)))).takeSrcs [] [.z 3] with | .error (.stay _) => true | _ => false) = true ∧
    (match vectors.operandsOpen (some (.v 5)) [.v 1, .v 2] with | .ok () => true | _ => false) = true ∧
    (match vectors.operandsOpen none [.v 1] with | .ok () => true | _ => false) = true ∧
    (match (streaming {}).operandsOpen none [.z 3] with | .error (.stall _ _) => true | _ => false) = true :=
  ⟨by decide +kernel, by decide +kernel, ⟨by decide +kernel, .inl (by decide +kernel)⟩, by decide +kernel, by decide +kernel,
   by decide +kernel, by decide +kernel, by decide +kernel, by decide +kernel, by decide +kernel, by decide +kernel⟩
theorem met_TransferCommandsEnter_barrier : (match filling.barrierOf 0 with | .ok none => true | _ => false) = true ∧
    filling.checked .g true 16 24576 16 = .miss 24576 ∧ (match filling.checked .g true 16 8200 16 with | .fault .. => true | _ => false) = true ∧
    (match filling.readLocal 64 256 with
     | .ok (_, h) => (match xferOf .fill false .rne (leNat h) with | some y => (match filling.xferCheck y false with | .ok _ => true | _ => false) | none => false)
     | .error _ => false) = true := by decide +kernel
/-- Units of raw bytes at `va` of L, G or S space, and one of two lines. -/
def moving (z : Stream) (w : Nat := 3) : State :=
  { task .c [] [] {} { z := [(w, { z with bound := true, cnt := [2, 1, 1], nb := 7 })] } with cur := { ev := { a := w } } }
theorem met_StreamUnitsMove_parts :
    let g : Stream := { base := 8192, global := true }
    let unit (s : State) (write : Bool) (n : Nat) : Reach := let z := tget {} (s.ctx 0).z n; s.unitParts 0 z write 0 (z.pieces z.cursor)
    (match unit (moving { base := 2 ^ 53, global := true }) false 3 with | .fault .. => true | _ => false) = true ∧
    (match unit ({ moving { global := true } with mem := pageTable, roots := [(0, 32768)] } : State) false 3 with | .miss _ => true | _ => false) = true ∧
    (match unit (moving { g with base := 8256 }) false 3 with | .ok ps => ps.length == 2 | _ => false) = true ∧
    (tget {} ((after .streamFetch (moving { g with base := 8256 })).ctx 0).z 3).got.length = 1 ∧
    (tget {} ((after .streamFetch (moving g)).ctx 0).z 3).cursor = 1 ∧
    (moving { g with base := 8256 }).canFetch 0 3 = true ∧
    (let s := (moving g).modCtx 0 fun c => { c with pol := true }
     let t : State := { s with poison := [64] }
     (match t.fetchPart 0 { place := .mem, addr := 8192, len := 128, off := 0, va := 8192 } with | (_, .error (.poison, _)) => true | _ => false) = true ∧
     ((tget {} ((after .streamFetch t).ctx 0).z 3).buf.map (·.mark)) = [some (.poison, 8192)]) ∧
    (let w : Stream := { g with write := true, done := 1, buf := [{ u := 0, val := 9 }] }
     (moving w 4).canStore 0 4 = true ∧ (tget {} ((after .streamStore (moving w 4)).ctx 0).z 4).buf = [] ∧
     (tget {} ((after .streamStore (moving { w with base := 8256 } 4)).ctx 0).z 4).got.length = 1 ∧
     ((after .streamStore (moving { w with base := 2 ^ 53 } 4)).ctx 0).trap.isSome = true ∧
     (match unit ({ moving { w with base := 0 } 4 with mem := pageTable, roots := [(0, 32768)] } : State) true 4 with | .miss _ => true | _ => false) = true ∧
     ((after .streamStore { moving w 4 with seqs := [(8192, { live := true })] }).ctx 0).trap.isSome = true) := by decide +kernel
theorem met_LanesAtWork_behind : let s := lane (.accr { rdst := 0, c0 := 0, nc := 1, nt := 1 } .fp32 64)
    let q : Reduce := { ctx := 0, taskid := 7, pos := {}, id := 3, lanes := [0, 1], got := [(0, [(0, false)], false)], ords := [(0, 0)],
                        w := { rdst := 0, c0 := 0, nc := 1, nt := 1 }, fmt := .fp32, dest := 64, ring := false, seq := 0, beds := [] }
    let t : State := { s with reds := [q] }
    (∃ o, (0, o) ∈ q.ords) ∧ q.full = false ∧ (after .laccrReadout t).reds.length = 2 ∧ ((after .laccrReadout t).lane 0).q = [] :=
  ⟨⟨0, by simp⟩, by decide +kernel⟩
theorem met_TransfersAtWork_refusals :
    let x : Xfer := { kind := .copy, dims := [dim1], acked := false, key := 5 }
    let s : State := { transferring x with parts := [(0, { outbound := [(5, { qp := 2, rkey := 0, base := 0, len := 8 })] })] }
    let again : State := { s with cur := { ev := { eng := .s, flag := true } } }
    tfind (s.partn 0).outbound 5 ≠ none ∧ tfind ((transferring x).partn 0).outbound 5 = none ∧
    (after .remoteNak again).qps = [(2, { retries := 1 })] ∧
    (tget {} (after .remoteNak { again with qps := [(2, { retries := 7 })] }).qps 2).error = true ∧
    (tget {} (after .remoteNak s).qps 2).error = true ∧
    (tget {} (after .systemWriteAck { s with qps := [(2, { retries := 3 })] }).qps 2).retries = 0 := by decide +kernel
/-- A machine whose page at address 0 holds a control block, a stage table at 256, a group table at 512, and at 1024 a code object
of one Malig section, which region 9 of the host or of region 1 names. -/
def launching (c : Bool) (plan : Option Plan) : State :=
  let put (m : Mem) (p : Nat × Nat × Nat) : Mem := memWrite m (8192 + p.1) (leBytes p.2.1 p.2.2)
  let l : Launch := { regid := 9, rcb := 0, seed := 0, part := 0, asid := 0, parent := if c then some 1 else none, tag := 0, priv := false, since := 0, plan := plan }
  { roots := [(0, 32768)], cur := { ev := { a := 9 } },
    parts := [(0, { record := if c then some {} else none, launches := if c then [] else [l] })],
    regions := [(1, { regid := 1, live := true, launchq := if c then [l] else [] })],
    mem := [(0, 128, 1024 * 2 ^ 768 + 256 * 2 ^ 832 + 512 * 2 ^ 640), (512, 1, 1),
            (1024, 64, 0x4E4C4F31 * 2 ^ 480 + 2 ^ 464 + 2 ^ 456 + 64 * 2 ^ 416 + 2 * 2 ^ 400),
            (1088, 32, 3 * 2 ^ 248 + 512 * 2 ^ 192 + 2 ^ 160), (1120, 32, 6 * 2 ^ 248 + 576 * 2 ^ 192 + 8 * 2 ^ 160)].foldl put pageTable }
theorem met_RegionsRunAndEnd_read : let s := launching false none
    ∃ l, s.findLaunch 9 = some l ∧ l.plan = none ∧ s.preempted l.part = false ∧ (s.readPlan l).isSome = true ∧ (s.partn l.part).record = none ∧
      ((after .regionAdmission s).partn 0).launches = [] ∧ (after .regionAdmission s).out.length = 1 :=
  ⟨_, rfl, rfl, by decide +kernel⟩
/-- What a child's launch has read: a control block that asks for one core and one version line. -/
def childPlan (t : TextSel) : Plan :=
  { raw := 2 ^ 560 + 2 ^ 480, rcb := rcbOf (2 ^ 560 + 2 ^ 480) {} true, stages := [], groups := [], base := 0, text := t, header := [], sects := [],
    table := [], held := [], dataVa := 0 }
theorem met_RegionsRunAndEnd_plans : let p := childPlan (.malig [1])
    let s := launching true (some p)
    let l := (s.findLaunch 9).getD { regid := 0, rcb := 0, seed := 0, part := 0, asid := 0, parent := none, tag := 0, priv := false, since := 0 }
    s.findLaunch 9 = some l ∧ l.plan = some p ∧ s.remember l p = s ∧
    (match s.planNow l p with | .ok q => q == p | .error _ => false) = true ∧
    (match ({ s with parts := [] } : State).planNow l p with | .error n => n == stDecl | .ok _ => false) = true ∧
    (match s.planNow l { p with rcb := {} } with | .ok q => q == p | .error _ => false) = true ∧
    s.idustEntry l.part [1] = none ∧ p.textOf none = none ∧
    ((childPlan (.native { kind := 1, kern := 0, var := 0, off := 0, len := 4, feat := 0 } [])).textOf none).isSome = true ∧
    s.declared l p = true ∧ s.overBudget l { (p.rcb) with lanes := 5 } = true ∧
    ((after .balancerRun { s with parts := [(0, { swapped := true })], cur := { ev := { a := 1 } }, clock := 8000 }).region 1).lastBal = 0 ∧
    ((after .balancerRun { s with cur := { ev := { a := 1 } }, clock := 8000 }).region 1).lastBal = 8000 := by decide +kernel
theorem met_RegionsRunAndEnd_translated :
    (({ parts := [(0, { record := some {} })] } : State).askIdust 0 [1]).idustEntry 0 [1] ≠ none := by
  simp [State.askIdust, State.idustEntry, State.partn, tget, State.modPart, tput, IdustEnt.hasKey, State.featureKey, State.featWord,
    State.idustVersion]
  exact fun _ _ => rfl
theorem met_ColumnsAtWork_bank (line : Nat) : Config.rowBank (line / 8) % 72 ∈ ({ sleep := List.range 72 } : Column).sleep :=
  List.mem_range.2 (Nat.mod_lt _ (by decide))
theorem met_RakeAtWork_moves :
    (let e : Granule := { bed := 0, col := 0, raw := false }
     let s : State := { grans := [(0, e)], dirty := [3, 64], mem := memPut [] 384 9 }
     tfind s.grans 0 = some e ∧ e.raw = false ∧ (after .l2Writeback s).dirty = [64] ∧ ((after .l2Writeback s).granule 0).nch ≠ 0) ∧
    (let e : Granule := { bed := 0, col := 0, raw := true }
     let w : SpaceWait := { ctx := none, id := migrateWaitId 0, granule := 0, line := 64, slice := 0, since := 0 }
     let s (c : Column) : State := { grans := [(0, e)], parts := [(0, { waits := [w] })], clock := 200000, cols := [(0, c)] }
     ((s {}).partn e.part).waits.find? (fun w => w.migrates && w.granule == 0) = some w ∧ (s {}).movable 0 e = false ∧
     ((after .migrationTimeout (s {})).partn 0).waits = [] ∧ (s { drain := true, retired := true }).movable 0 e = true ∧
     (s { drain := true, retired := true }).payMove 0 e = none ∧
     ((after .migrationTimeout (s { drain := true, retired := true })).granule 0).tried = some 0) ∧
    (let s : State := { cols := [(0, { drain := true })], beds := [(0, { bound := [0, 1] })], devPool := [(0, 2 ^ 21)] }
     (s.col (colKey 0 0)).target = none ∧ 0 ∈ (s.bed 0).bound) := by decide +kernel
theorem met_RakeAtWork_retires : let s : State := { cols := (List.range 68).map fun c => (c, { drain := c == 0 || 64 ≤ c }), devPool := [(0, 2 ^ 22)] }
    s.spares 0 = [] ∧ s.columnRoom 0 0 ≤ tget 0 s.devPool 0 ∧ ((after .columnRetire s).col 0).retired = true ∧
    (after .columnRetire s).out.getLast? = some (.retired 0) := by decide +kernel
theorem met_HostAndService_writes :
    let e : Granule := { bed := 0, col := 0, raw := true }
    let s : State := { booted := true, grans := [(1, e)] }
    (match s.reserveLine 0 8192 with | some u => u == s | none => false) = true ∧ s.hitsScb 8192 1 = false ∧
    memGet (s.rdmaWrite 0 [(8192, [7])]).mem 8192 = 7 ∧ (s.rdmaWrite 0 [(8192, [7])]).out = [.ack 0 []] ∧
    ({ s with grans := [(1, { e with raw := false })] } : State).reserveLine 0 8192 = none ∧
    (tget {} (s.rdmaWrite 0 [(8192, [7]), (8320, [8])]).qps 0).pend = [(8320, [8])] := by decide +kernel
theorem met_HostAndService_units :
    let i : Image := (Config.factoryImage 0 true)
    let f : FwSlot := { loaded := true }
    let s : State := { booted := true, images := [(5, f)], clock := 496, cur := { ev := { unit := .columns 0, image := some i } } }
    (s.fw (fwKey (.columns 0))).testing s.clock = false ∧ s.quietPoint (.columns 0) = true ∧ ({ s with clock := 0 } : State).quietPoint (.columns 0) = false ∧
    (f.testing 0 = false ∧ f.behind = []) ∧ s.cur.ev.image = some i ∧
    (let t : State := { s with images := [(5, { runB := true, trial := some 0, behind := [0, 1] })] }
     (t.fw 5).loaded = false ∧ (t.fw 5).testing 496 = true ∧ ((after .firmwareSlotSwitch t).fw 5).behind = [1] ∧ after .firmwareImageLoad t = t) := by
  refine ⟨by decide +kernel, by decide +kernel, by decide +kernel, by decide +kernel, rfl, by decide +kernel, by decide +kernel, by decide +kernel, rfl⟩
theorem met_HostAndService_texts :
    let e : IdustEnt := { tenant := 0, digest := [], feat := [], version := 0, result := none, ready := false, since := 0, malig := [1] }
    let p : Partition := { idust := [e], free := 2 }
    p.idust[0]? = some e ∧ e.ready = false ∧ p.textFits e 2 = true ∧ p.textFits e 3 = false := by decide +kernel

/-- A sequence with a committed slot, a void one and a reserved one advances over the first two; one whose next slot is reserved
and one with an attention in flight stay. -/
theorem met_WaitsEnd_advance :
    let q : Seq := { live := true, part := 0, w := 1, slots := [⟨0, .committed, 1⟩, ⟨1, .voided, 1⟩, ⟨2, .reserved, 2⟩],
                     stage := [(0, [1#16]), (1, [2#16])] }
    let at_ (q : Seq) : State := { ({} : State) with cur := { ev := { a := 8192 } }, seqs := [(8192, q), (16384, { live := true })] }
    let after (q : Seq) : State := match exec .lenAdvance (at_ q) with | .next t => t | _ => {}
    ((at_ q).seq 8192).live = true ∧ ((at_ q).seq 8192).attn = 0 ∧
    ((after q).seq 8192).len = 2 ∧ ((after q).seq 8192).frozen = false ∧ tget [] ((after q).seq 8192).ring 0 = [2#16] ∧
    ((after { q with slots := [⟨0, .reserved, 1⟩] }).seq 8192).len = 0 ∧ ((after { q with attn := 1 }).seq 8192).len = 0 := by
  decide +kernel

end Sys2Proof.Tests
end

section
/-! PROOFS. Encoding: what stands behind a run of prefixes, where prefixes are orphans (R61), and the engines on which an
instruction is ILLOP (R63). -/

namespace Sys2Proof

open Sys2Proof.Machine

/-! ## A run of prefixes and what follows it (R41, R55) -/

/-- Prefixes in front of any parcels join the run of prefixes at their front. -/
theorem spanPrefixes_append {pre : List Parcel} (hpre : ∀ p ∈ pre, parcelLen p = 3) (rest : List Parcel) :
    spanPrefixes (pre ++ rest) = (pre ++ (spanPrefixes rest).1, (spanPrefixes rest).2) := by
  induction pre with
  | nil => rfl
  | cons q qs ih =>
    rw [List.forall_mem_cons] at hpre
    obtain ⟨hq, hqs⟩ := hpre
    rw [List.cons_append, spanPrefixes, if_pos hq, ih hqs, List.cons_append]

theorem spanPrefixes_prefixes {pre : List Parcel} (hpre : ∀ p ∈ pre, parcelLen p = 3) : spanPrefixes pre = (pre, []) := by
  simpa [spanPrefixes] using spanPrefixes_append hpre []

theorem spanPrefixes_prefixes_cons {pre : List Parcel} (hpre : ∀ p ∈ pre, parcelLen p = 3) {p : Parcel}
    (hp : parcelLen p ≠ 3) (rest : List Parcel) : spanPrefixes (pre ++ p :: rest) = (pre, p :: rest) := by
  simp [spanPrefixes_append hpre, spanPrefixes, hp]

/-! ## Control instructions (R61) -/

/-- The first parcel of a word alone says whether it is a control instruction: LEN and MAJ lie in it. -/
theorem isControlWord_joinParcels_cons (len : Len) (p : Parcel) (ps : List Parcel) :
    isControlWord len (joinParcels (p :: ps)) = isControlWord len p.toNat := by
  have h16 : joinParcels (p :: ps) / 4 % 16 = p.toNat / 4 % 16 := by rw [joinParcels]; omega
  have h64 : joinParcels (p :: ps) / 4 % 64 = p.toNat / 4 % 64 := by rw [joinParcels]; omega
  cases len <;> simp only [isControlWord, h16, h64]

/-- A parcel at which a control instruction begins: of 16 bits with MAJ 0, or of 32 bits with MAJ 17 to 23. -/
def BeginsControl (p : Parcel) : Prop :=
  (parcelLen p = 0 ∧ p.toNat / 4 % 16 = 0) ∨ (parcelLen p = 1 ∧ 17 ≤ p.toNat / 4 % 64 ∧ p.toNat / 4 % 64 ≤ 23)

theorem BeginsControl.isControlWord {p : Parcel} (h : BeginsControl p) :
    isControlWord (lenOf (parcelLen p)) p.toNat = true := by
  rcases h with ⟨hlen, hmaj⟩ | ⟨hlen, hmaj⟩ <;> simp [hlen, hmaj, lenOf, Sys2Proof.isControlWord]

theorem BeginsControl.lenParcels_pos {p : Parcel} (h : BeginsControl p) : 0 < lenParcels (parcelLen p) := by
  rcases h with ⟨hlen, -⟩ | ⟨hlen, -⟩ <;> simp [hlen, lenParcels]

theorem BeginsControl.parcelLen_ne {p : Parcel} (h : BeginsControl p) : parcelLen p ≠ 3 := by
  rcases h with ⟨hlen, -⟩ | ⟨hlen, -⟩ <;> simp [hlen]

/-! ## Orphan prefixes (R61) -/

theorem decodeWord_orphanPrefix {pre : List Parcel} (hne : pre ≠ []) {len : Len} {w : Nat}
    (h : isControlWord len w = true) : decodeWord pre len w = .error .orphanPrefix := by
  rw [decodeWord, if_pos ⟨h, hne⟩]

/-- Prefixes after which the body ends are orphans. -/
theorem decodeDec_prefixes {pre : List Parcel} (hpre : ∀ p ∈ pre, parcelLen p = 3) :
    decodeDec pre = .error .orphanPrefix := by
  simp only [decodeDec, spanPrefixes_prefixes hpre]

/-- Prefixes before a control instruction are orphans, also where the body ends within the instruction. -/
theorem decodeDec_prefixes_control {pre : List Parcel} (hne : pre ≠ []) (hpre : ∀ p ∈ pre, parcelLen p = 3) {p : Parcel}
    (hp : BeginsControl p) (rest : List Parcel) : decodeDec (pre ++ p :: rest) = .error .orphanPrefix := by
  have hword : decodeWord pre (lenOf (parcelLen p)) (joinParcels ((p :: rest).take (lenParcels (parcelLen p)))) =
      .error .orphanPrefix := by
    refine decodeWord_orphanPrefix hne ?_
    rw [List.take_cons hp.lenParcels_pos, isControlWord_joinParcels_cons, hp.isControlWord]
  simp only [decodeDec, spanPrefixes_prefixes_cons hpre hp.parcelLen_ne, hword]
  split
  · exact if_pos ⟨hp.isControlWord, hne⟩
  · rfl

/-- Settles O4: the decoder answers `orphanPrefix` before it looks at anything else of the word, and so the engine traps
with PREFIX. -/
theorem orphanPrefixFaults : Obligations.OrphanPrefixFaults := by
  intro s pre hne hpre
  exact ⟨State.runParcels_error (decodeDec_prefixes hpre),
    fun p rest hp => State.runParcels_error (decodeDec_prefixes_control hne hpre hp rest)⟩

end Sys2Proof

namespace Sys2Proof.Machine

/-! ## The engine list of a form (R63) -/

/-- An instruction of a class may not stand where the engine is: the class leaves the engine out, or it is not common and
the block is tagged for several engines. -/
def State.Outside (s : State) (c : EngClass) : Prop :=
  classOk c s.cur.eng = false ∨ (s.multi = true ∧ classCommon c = false)

theorem State.Outside.legal_eq_false {s : State} {f : Form} (h : s.Outside f.cls) : s.legal f = false := by
  rcases h with h | ⟨hm, hc⟩
  · simp [State.legal, h]
  · simp [State.legal, hm, hc]

theorem instrEngines_of_instrOnHub {i : Instr} (h : instrOnHub i = true) : instrEngines i = onC := by
  unfold instrOnHub at h
  split at h
  case h_11 => cases h
  all_goals rfl

/-- On a bed core no engine may execute a matrix instruction, and on a hub core C alone (R222). -/
theorem State.Outside.on_matClass {s : State} (h : s.Outside onC) : s.Outside (matClass s) := by
  unfold matClass
  split
  · exact .inl (by cases s.cur.eng <;> rfl)
  · exact h

theorem State.Outside.formOf_cls {s : State} {i : Instr} (h : s.Outside (instrEngines i)) : s.Outside (formOf i s).cls := by
  show s.Outside (if instrOnHub i then matClass s else instrEngines i)
  split
  · next hub => exact (instrEngines_of_instrOnHub hub ▸ h).on_matClass
  · exact h

theorem exec_illop_of_outside {i : Instr} {s : State} (hw : instrIsWord i = true) (h : s.Outside (instrEngines i)) :
    exec i s = .next (s.trapHere .illop) := by
  rcases exec_formed i s hw with ⟨body, hbody⟩ | ⟨-, hill⟩
  · rw [hbody, issue_illegal body h.formOf_cls.legal_eq_false]
  · exact hill

theorem classCommon_iff (c : EngClass) : classCommon c = true ↔ c = .common ∨ c = .commonXC := by
  cases c <;> simp [classCommon]

/-- Settles O9: every instruction of a body issues with the engines of its form, or with fewer, and an instruction that is
not legal where it stands is ILLOP before anything else. -/
theorem engineOutsideListFaults : Obligations.EngineOutsideListFaults :=
  ⟨fun _ => ⟨rfl, rfl⟩, classCommon_iff, fun _ _ => exec_illop_of_outside⟩

end Sys2Proof.Machine
end

section
/-! PROOFS. Decoding what the encoder writes (R41-R67): the parcels of a word, its fields, its prefixes, and the row that
they select. -/

namespace Sys2Proof.Laws.Encoding

open Sys2Proof.Machine

/-- Every instruction of a body reads back from its row of the opcode map. -/
theorem statement_of_isWord (i : Instr) (h : instrIsWord i = true) : Statement i := by
  cases i with
  | mov16 d a => exact mov16 d a
  | addi16 d k => exact addi16 d k
  | li16 d k => exact li16 d k
  | add16 d a => exact add16 d a
  | sub16 d a => exact sub16 d a
  | and16 d a => exact and16 d a
  | or16 d a => exact or16 d a
  | xor16 d a => exact xor16 d a
  | shli16 d k => exact shli16 d k
  | shri16 d k => exact shri16 d k
  | srai16 d k => exact srai16 d k
  | add m d a b => exact add m d a b
  | sub m d a b => exact sub m d a b
  | mul m d a b => exact mul m d a b
  | mulh m d a b => exact mulh m d a b
  | mulhU m d a b => exact mulhU m d a b
  | div m d a b => exact div m d a b
  | divU m d a b => exact divU m d a b
  | rem m d a b => exact rem m d a b
  | remU m d a b => exact remU m d a b
  | and m d a b => exact and m d a b
  | or m d a b => exact or m d a b
  | xor m d a b => exact xor m d a b
  | andn m d a b => exact andn m d a b
  | shl m d a b => exact shl m d a b
  | shr m d a b => exact shr m d a b
  | sra m d a b => exact sra m d a b
  | rot m d a b => exact rot m d a b
  | min m d a b => exact min m d a b
  | minU m d a b => exact minU m d a b
  | max m d a b => exact max m d a b
  | maxU m d a b => exact maxU m d a b
  | clz m d a => exact clz m d a
  | ctz m d a => exact ctz m d a
  | popc m d a => exact popc m d a
  | sextB m d a => exact sextB m d a
  | sextH m d a => exact sextH m d a
  | sextW m d a => exact sextW m d a
  | zextB m d a => exact zextB m d a
  | zextH m d a => exact zextH m d a
  | zextW m d a => exact zextW m d a
  | mov m d a => exact mov m d a
  | addi m d a k => exact addi m d a k
  | andi m d a k => exact andi m d a k
  | ori m d a k => exact ori m d a k
  | xori m d a k => exact xori m d a k
  | shli m d a k => exact shli m d a k
  | shri m d a k => exact shri m d a k
  | srai m d a k => exact srai m d a k
  | li m d k => exact li m d k
  | lih m d k => exact lih m d k
  | li64 m d k => exact li64 m d k
  | madd m d a b c => exact madd m d a b c
  | sel m d a b s p => exact sel m d a b s p
  | bext m d a n p => exact bext m d a n p
  | bextS m d a n p => exact bextS m d a n p
  | bins m d a n p => exact bins m d a n p
  | lea m d a b s => exact lea m d a b s
  | cmp m c p a b => exact cmp m c p a b
  | cmpi m c p a k => exact cmpi m c p a k
  | pand m d a b => exact pand m d a b
  | por m d a b => exact por m d a b
  | pxor m d a b => exact pxor m d a b
  | pnot m d a => exact pnot m d a
  | bra o => exact bra o
  | bc p s o => exact bc p s o
  | call o => exact call o
  | bq s o => exact bq s o
  | bx a => exact bx a
  | bcast p e i => exact bcast p e i
  | xsend m e a => exact xsend m e a
  | xrecv m d => exact xrecv m d
  | mfs m d n => exact mfs m d n
  | mts m a n => exact mts m a n
  | feat m d n => exact feat m d n
  | clock m d => exact clock m d
  | roleid m d n => exact roleid m d n
  | ldl m d a f o => exact ldl m d a f o
  | ldp m d a f o => exact ldp m d a f o
  | ldg m d a f o => exact ldg m d a f o
  | stl m d a w o => exact stl m d a w o
  | stp m d a w o => exact stp m d a w o
  | stg m d a w o => exact stg m d a w o
  | pfg m a k => exact pfg m a k
  | l1inv m a k => exact l1inv m a k
  | l1invAll m => exact l1invAll m
  | mark m => exact mark m
  | fence m => exact fence m
  | qfence m a k => exact qfence m a k
  | tkpush n => exact tkpush n
  | tkpop n => exact tkpop n
  | barinit m a b => exact barinit m a b
  | bararr m d a b => exact bararr m d a b
  | barwait m d a b => exact barwait m d a b
  | vldl m q a b nb k => exact vldl m q a b nb k
  | vldp m q a b nb k => exact vldp m q a b nb k
  | vldg m q a b nb k => exact vldg m q a b nb k
  | vstl m q a b nb k => exact vstl m q a b nb k
  | vstp m q a b nb k => exact vstp m q a b nb k
  | vstg m q a b nb k => exact vstg m q a b nb k
  | vgl m q a b e n => exact vgl m q a b e n
  | vgg m q a b e n => exact vgg m q a b e n
  | vsl m q a b e n => exact vsl m q a b e n
  | vsg m q a b e n => exact vsg m q a b e n
  | aadd m d a b w k => exact aadd m d a b w k
  | aand m d a b w k => exact aand m d a b w k
  | aor m d a b w k => exact aor m d a b w k
  | axor m d a b w k => exact axor m d a b w k
  | amin m d a b u w k => exact amin m d a b u w k
  | amax m d a b u w k => exact amax m d a b u w k
  | aswp m d a b w k => exact aswp m d a b w k
  | acas m d a b c w k => exact acas m d a b c w k
  | afadd m d a b w k => exact afadd m d a b w k
  | abinc m d a b w k => exact abinc m d a b w k
  | alrb m a k => exact alrb m a k
  | alrl m d a z w o => exact alrl m d a z w o
  | alrs m a b w o => exact alrs m a b w o
  | alrc m d => exact alrc m d
  | vaddC m d a b e => exact vaddC m d a b e
  | vsubC m d a b e => exact vsubC m d a b e
  | vmulC m d a b e => exact vmulC m d a b e
  | vandC m d a b e => exact vandC m d a b e
  | vorC m d a b e => exact vorC m d a b e
  | vxorC m d a b e => exact vxorC m d a b e
  | vminC m d a b e => exact vminC m d a b e
  | vmaxC m d a b e => exact vmaxC m d a b e
  | vfaddC m d a b e => exact vfaddC m d a b e
  | vfsubC m d a b e => exact vfsubC m d a b e
  | vfmulC m d a b e => exact vfmulC m d a b e
  | vfminC m d a b e => exact vfminC m d a b e
  | vfmaxC m d a b e => exact vfmaxC m d a b e
  | vadd m d a b u et => exact vadd m d a b u et
  | vsub m d a b u et => exact vsub m d a b u et
  | vmul m d a b u et => exact vmul m d a b u et
  | vmulh m d a b u et => exact vmulh m d a b u et
  | vmadd m d a b c u et => exact vmadd m d a b c u et
  | vmin m d a b u et => exact vmin m d a b u et
  | vmax m d a b u et => exact vmax m d a b u et
  | vand m d a b u et => exact vand m d a b u et
  | vor m d a b u et => exact vor m d a b u et
  | vxor m d a b u et => exact vxor m d a b u et
  | vshl m d a b u et => exact vshl m d a b u et
  | vshr m d a b u et => exact vshr m d a b u et
  | vsra m d a b u et => exact vsra m d a b u et
  | vabs m d a u et => exact vabs m d a u et
  | vneg m d a u et => exact vneg m d a u et
  | vcmp m d a b pe pd c u et => exact vcmp m d a b pe pd c u et
  | vsel m d a b c u et => exact vsel m d a b c u et
  | vpopc m d a u et => exact vpopc m d a u et
  | vfadd m d a b et => exact vfadd m d a b et
  | vfsub m d a b et => exact vfsub m d a b et
  | vfmul m d a b et => exact vfmul m d a b et
  | vfma m d a b c et => exact vfma m d a b c et
  | vfmin m d a b et => exact vfmin m d a b et
  | vfmax m d a b et => exact vfmax m d a b et
  | vfcmp m d a b pe pd c et => exact vfcmp m d a b pe pd c et
  | vfrcp m d a et => exact vfrcp m d a et
  | vfrsq m d a et => exact vfrsq m d a et
  | vfexp2 m d a et => exact vfexp2 m d a et
  | vflog2 m d a et => exact vflog2 m d a et
  | vftanh m d a et => exact vftanh m d a et
  | vcvt m d a k sf tf => exact vcvt m d a k sf tf
  | vqnt m d a b k scm sf tf => exact vqnt m d a b k scm sf tf
  | vdqnt m d a k sf tf => exact vdqnt m d a k sf tf
  | vpack m d a f => exact vpack m d a f
  | vunpk m d a f => exact vunpk m d a f
  | vradd m d a u et => exact vradd m d a u et
  | vrmax m d a u et => exact vrmax m d a u et
  | vfradd m d a et => exact vfradd m d a et
  | vfrmax m d a et => exact vfrmax m d a et
  | vperm m d a b c w => exact vperm m d a b c w
  | vrot m d a k w => exact vrot m d a k w
  | vbcast m d a k w => exact vbcast m d a k w
  | vext m d a k s w => exact vext m d a k s w
  | vins m d a b k w => exact vins m d a b k w
  | vcomp m d a b w => exact vcomp m d a b w
  | vexpd m d a b w => exact vexpd m d a b w
  | vmrg3 m d a b c s => exact vmrg3 m d a b c s
  | vmov m d a => exact vmov m d a
  | vli m d r w k => exact vli m d r w k
  | vsplat m d a w => exact vsplat m d a w
  | sbind m z a k => exact sbind m z a k
  | sbop m z a => exact sbop m z a
  | sunbind m z now => exact sunbind m z now
  | sadv m z a => exact sadv m z a
  | sstat m d z => exact sstat m d z
  | lcfg m a b => exact lcfg m a b
  | lstat m d a => exact lstat m d a
  | lfence m a => exact lfence m a
  | lsync m a => exact lsync m a
  | lwst m a b c f => exact lwst m a b c f
  | lact m a b c f => exact lact m a b c f
  | lmac m a b z => exact lmac m a b z
  | laccz m a => exact laccz m a
  | laccr m a b c f => exact laccr m a b c f
  | lred m a b c clr ring f => exact lred m a b c clr ring f
  | mlay m a b l ws we ss se => exact mlay m a b l ws we ss se
  | munf m a b id ws we ss se => exact munf m a b id ws we ss se
  | mld m a b c l ws we ss se => exact mld m a b c l ws we ss se
  | mmul m a b u t ws we ss se => exact mmul m a b u t ws we ss se
  | mdrn m a b g t ws we ss se => exact mdrn m a b g t ws we ss se
  | mzero m mode t ws we ss se => exact mzero m mode t ws we ss se
  | msemSig m s n => exact msemSig m s n
  | msemWait m s n => exact msemWait m s n
  | msemRd m d s => exact msemRd m d s
  | msemSt m d => exact msemSt m d
  | xcopy m a b ren ten tag => exact xcopy m a b ren ten tag
  | xgath m a b ren ten tag => exact xgath m a b ren ten tag
  | xscat m a b ren ten tag => exact xscat m a b ren ten tag
  | xscadd m a b ren ten tag => exact xscadd m a b ren ten tag
  | xfill m a b ren ten tag => exact xfill m a b ren ten tag
  | xring m a b ren ten tag => exact xring m a b ren ten tag
  | creq m a b ren ten tag => exact creq m a b ren ten tag
  | sqnew m d a b bl => exact sqnew m d a b bl
  | sqres m d a b => exact sqres m d a b
  | sqrest m d a b => exact sqrest m d a b
  | sqcmt m d a b c => exact sqcmt m d a b c
  | sqacc m d a b => exact sqacc m d a b
  | sqwd m d a => exact sqwd m d a
  | sqfree m d a => exact sqfree m d a
  | sqfork m d a b => exact sqfork m d a b
  | sqlen m d a => exact sqlen m d a
  | sqwait m d a b c => exact sqwait m d a b c
  | sqpin m d a => exact sqpin m d a
  | squnpin m d a => exact squnpin m d a
  | sqext m d a b k => exact sqext m d a b k
  | ldq m d a b c ch => exact ldq m d a b c ch
  | vldq m q a b c ch => exact vldq m q a b c ch
  | stq m d a b ch => exact stq m d a b ch
  | vstq m q a b ch => exact vstq m q a b ch
  | sqattn m a b ten tag => exact sqattn m a b ten tag
  | pfxh m d a b => exact pfxh m d a b
  | pfxl m d a b => exact pfxl m d a b
  | pfxlH m d a => exact pfxlH m d a
  | pfxlS m d a => exact pfxlS m d a
  | pfxi m d a b c => exact pfxi m d a b c
  | pfxd m d a => exact pfxd m d a
  | pfxdU m d a => exact pfxdU m d a
  | trap m k => exact trap m k
  | chk m a b => exact chk m a b
  | twany m d a b => exact twany m d a b
  | twall m d a b => exact twall m d a b
  | tffr m d a => exact tffr m d a
  | tclr m a => exact tclr m a
  | tabort m => exact tabort m
  | tstat m d k => exact tstat m d k
  | tret m d a b => exact tret m d a b
  | tlbinvPg a b => exact tlbinvPg a b
  | tlbinvAs a => exact tlbinvAs a
  | asset a => exact asset a
  | launch m d a b => exact launch m d a b
  | lwait m d a => exact lwait m d a
  | lpoll m d a => exact lpoll m d a
  | rcbq m d a k => exact rcbq m d a k
  | spop m d => exact spop m d
  | spush m d a b => exact spush m d a b
  | wlapp m d a b => exact wlapp m d a b
  | wltake m d a => exact wltake m d a
  | quies m d a => exact quies m d a
  | nop16 => exact nop16
  | ret => exact ret
  | nop => exact nop
  | halt => exact halt
  | tend => exact tend
  | yield => exact yield
  | tlbinvAll => exact tlbinvAll  | _ => exact Bool.noConfusion (show false = true from h)

theorem fieldsOf_isSome_of_isWord {i : Instr} (h : instrIsWord i = true) : ∃ r m v, fieldsOf i = some (r, m, v) := by
  cases i with
  | blockHeader | blockHeaderReg => exact Bool.noConfusion (show false = true from h)
  | _ => first | exact ⟨_, _, _, rfl⟩ | exact Bool.noConfusion (show false = true from h)

end Sys2Proof.Laws.Encoding

namespace Sys2Proof

open Sys2Proof.Machine

/-! ## Parcels of a number (R42) -/

theorem length_splitParcels (n w : Nat) : (splitParcels n w).length = n := by
  induction n generalizing w with
  | zero => rfl
  | succ n ih => simp [splitParcels, ih]

theorem joinParcels_splitParcels {n w : Nat} (h : w < 2 ^ (16 * n)) : joinParcels (splitParcels n w) = w := by
  induction n generalizing w with
  | zero => simp at h; simp [splitParcels, joinParcels, h]
  | succ n ih =>
    have hw : w / 65536 < 2 ^ (16 * n) := by
      rw [Nat.div_lt_iff_lt_mul (by norm_num)]
      calc w < 2 ^ (16 * (n + 1)) := h
        _ = 2 ^ (16 * n) * 65536 := by rw [Nat.mul_add, Nat.pow_add]
    rw [splitParcels, joinParcels, ih hw, BitVec.toNat_ofNat]
    omega

/-! ## The word of a row (R49-R52) -/

/-- The LEN field of a word of a length. -/
def lenCode : Len → Nat
  | .b16 => 0
  | .b32 => 1
  | .b64 => 2

theorem lenOf_lenCode (l : Len) : lenOf (lenCode l) = l := by cases l <;> rfl
theorem lenParcels_lenCode (l : Len) : lenParcels (lenCode l) = parcelsOf l := by cases l <;> rfl
theorem lenCode_ne_three (l : Len) : lenCode l ≠ 3 := by cases l <;> decide
theorem parcelsOf_pos (l : Len) : 0 < parcelsOf l := by cases l <;> decide

theorem wordOf_mod_four (r : Row) (tk : BitVec 4) (v : List Nat) : wordOf r tk v % 4 = lenCode r.len := by
  cases h : r.len <;> simp only [wordOf, h, lenCode] <;> omega

/-- What a row needs for its words to read back: a major opcode that MAJ holds, and fields as wide as its length leaves. -/
structure RowFits (r : Row) : Prop where
  maj : r.maj < (if r.len = .b16 then 16 else 64)
  width : atomsWidth r.atoms = (match r.len with | .b16 => 10 | .b32 => 20 | .b64 => 52)

theorem RowFits.joinAtoms_lt {r : Row} (hr : RowFits r) {v : List Nat} (hv : fits r.atoms v = true) :
    joinAtoms r.atoms v < 2 ^ (match r.len with | .b16 => 10 | .b32 => 20 | .b64 => 52) :=
  hr.width ▸ Sys2Proof.joinAtoms_lt r.atoms v hv

theorem RowFits.wordOf_lt {r : Row} (hr : RowFits r) (tk : BitVec 4) {v : List Nat} (hv : fits r.atoms v = true) :
    wordOf r tk v < 2 ^ (16 * parcelsOf r.len) := by
  have hj := hr.joinAtoms_lt hv
  have hm := hr.maj
  have htk := tk.isLt
  cases h : r.len <;> simp only [h, wordOf, parcelsOf, reduceIte, reduceCtorEq] at * <;> omega

theorem RowFits.wordMaj_wordOf {r : Row} (hr : RowFits r) (tk : BitVec 4) (v : List Nat) :
    wordMaj r.len (wordOf r tk v) = r.maj := by
  have hm := hr.maj
  have htk := tk.isLt
  cases h : r.len <;> simp only [h, wordOf, wordMaj, reduceIte, reduceCtorEq] at * <;> omega

theorem RowFits.wordTk_wordOf {r : Row} (hr : RowFits r) {tk : BitVec 4} (ht : r.len = .b16 → tk = 0) (v : List Nat) :
    wordTk r.len (wordOf r tk v) = tk.toNat := by
  have hm := hr.maj
  have htk := tk.isLt
  cases h : r.len <;> simp only [h, wordOf, wordTk, reduceIte, reduceCtorEq, forall_const] at *
  · simp [ht]
  · omega
  · omega

theorem RowFits.wordBody_wordOf {r : Row} (hr : RowFits r) (tk : BitVec 4) (v : List Nat) :
    wordBody r.len (wordOf r tk v) = joinAtoms r.atoms v := by
  have hm := hr.maj
  have htk := tk.isLt
  cases h : r.len <;> simp only [h, wordOf, wordBody, reduceIte, reduceCtorEq] at * <;> omega

/-- Whether a word is a control instruction lies in its length and its major opcode. -/
theorem RowFits.isControlWord_wordOf {r : Row} (hr : RowFits r) (tk : BitVec 4) (v : List Nat) :
    isControlWord r.len (wordOf r tk v) = isControlWord r.len (r.maj * 4) := by
  have hm := hr.maj
  have hw := hr.wordMaj_wordOf tk v
  cases h : r.len <;> simp only [h, isControlWord, wordMaj, reduceIte, reduceCtorEq] at hm hw ⊢
  · rw [hw, show r.maj * 4 / 4 % 16 = r.maj by omega]
  · rw [hw, show r.maj * 4 / 4 % 64 = r.maj by omega]

theorem findRow_wordOf {r : Row} (hr : RowFits r) (hmem : r ∈ rowsOf r.len) {tk : BitVec 4} {v : List Nat}
    (hv : fits r.atoms v = true) (hz : r.tkZero = true → tk = 0) (ht : r.len = .b16 → tk = 0) :
    findRow r.len (wordOf r tk v) (rowsOf r.len) = some (r, v) := by
  refine findRow_of_clash (hr.wordMaj_wordOf tk v).symm (fun h => ?_) ?_ _ hmem (rowsOf_clash _)
  · rw [hr.wordTk_wordOf ht, hz h]; rfl
  · rw [hr.wordBody_wordOf]
    simpa using splitAtoms_join r.atoms v 0 hv

/-! ## Prefixes (R55-R60) -/

/-- The parcel of one of the prefixes, which may be absent. -/
def prefixParcels {α : Type} (word : α → Nat) : Option α → List Parcel
  | some a => [BitVec.ofNat 16 (word a)]
  | none => []

def rndWord (r : RndPfx) : Nat := r.ftz.toNat * 512 + r.sat.toNat * 256 + rmCode r.rm * 32 + 3
def ordWord (o : OrdPfx) : Nat := scopeCode o.scope * 128 + o.rel.toNat * 64 + o.acq.toNat * 32 + 7
def rextWord (r : BitVec 8) : Nat := r.toNat * 32 + 11
def immWord (k : BitVec 11) : Nat := k.toNat * 32 + 15
def guardWord (g : Guard) : Nat := g.sense.toNat * 256 + g.pred.toNat * 32 + 19

theorem encodePfx_eq (p : Pfx) : encodePfx p = prefixParcels rndWord p.rnd ++ prefixParcels ordWord p.ord ++
    prefixParcels rextWord p.rext ++ prefixParcels immWord p.imm ++ prefixParcels guardWord p.guard := by
  obtain ⟨r, o, x, k, g⟩ := p
  cases r <;> cases o <;> cases x <;> cases k <;> cases g <;> rfl

theorem rndWord_mod (r : RndPfx) : rndWord r % 32 = 0 * 4 + 3 := by unfold rndWord; omega
theorem ordWord_mod (o : OrdPfx) : ordWord o % 32 = 1 * 4 + 3 := by unfold ordWord; omega
theorem rextWord_mod (r : BitVec 8) : rextWord r % 32 = 2 * 4 + 3 := by unfold rextWord; omega
theorem immWord_mod (k : BitVec 11) : immWord k % 32 = 3 * 4 + 3 := by unfold immWord; omega
theorem guardWord_mod (g : Guard) : guardWord g % 32 = 4 * 4 + 3 := by unfold guardWord; omega

section
variable {α : Type} {word : α → Nat} {k : Nat} (hk : k < 8) (hw : ∀ a, word a % 32 = k * 4 + 3) (o : Option α)
include hk hw

theorem map_prefixKind_prefixParcels : ((prefixParcels word o).map prefixKind).Sublist [k] := by
  cases o with
  | none => exact List.nil_sublist _
  | some a => simp [prefixParcels, (ofNat_kind (hw a) hk).2]

theorem parcelLen_prefixParcels : ∀ p ∈ prefixParcels word o, parcelLen p = 3 := by
  cases o with
  | none => simp [prefixParcels]
  | some a => simp [prefixParcels, (ofNat_kind (hw a) hk).1]

end

theorem parcelLen_encodePfx (p : Pfx) : ∀ q ∈ encodePfx p, parcelLen q = 3 := by
  simp only [encodePfx_eq, List.forall_mem_append]
  exact ⟨⟨⟨⟨parcelLen_prefixParcels (by decide) rndWord_mod _, parcelLen_prefixParcels (by decide) ordWord_mod _⟩,
    parcelLen_prefixParcels (by decide) rextWord_mod _⟩, parcelLen_prefixParcels (by decide) immWord_mod _⟩,
    parcelLen_prefixParcels (by decide) guardWord_mod _⟩

/-- The kinds of the prefixes rise, so no two of them are the same. -/
theorem map_prefixKind_encodePfx (p : Pfx) : ((encodePfx p).map prefixKind).Sublist ([0] ++ [1] ++ [2] ++ [3] ++ [4]) := by
  simp only [encodePfx_eq, List.map_append]
  exact ((((map_prefixKind_prefixParcels (by decide) rndWord_mod _).append
    (map_prefixKind_prefixParcels (by decide) ordWord_mod _)).append
    (map_prefixKind_prefixParcels (by decide) rextWord_mod _)).append
    (map_prefixKind_prefixParcels (by decide) immWord_mod _)).append
    (map_prefixKind_prefixParcels (by decide) guardWord_mod _)

theorem prefixKindsOk_encodePfx {p : Pfx} (h : (encodePfx p).length ≤ 3) : prefixKindsOk (encodePfx p) = .ok () := by
  have hs := map_prefixKind_encodePfx p
  have hlow : ∀ q ∈ encodePfx p, prefixKind q < 5 := fun q hq => by
    have := hs.subset (List.mem_map_of_mem (f := prefixKind) hq)
    simp at this
    omega
  have hany : ((encodePfx p).any fun q => decide (5 ≤ prefixKind q)) = false := by
    simp only [List.any_eq_false, decide_eq_true_eq, Nat.not_le]
    exact hlow
  rw [prefixKindsOk, if_neg (by omega), if_neg (by simp [hany]), if_pos (hs.nodup (by decide))]

theorem addPrefixes_append {a b : Pfx} {l : List Parcel} (h : addPrefixes a l = .ok b) (m : List Parcel) :
    addPrefixes a (l ++ m) = addPrefixes b m := by
  induction l generalizing a with
  | nil => cases h; rfl
  | cons q qs ih =>
    rw [addPrefixes] at h
    rw [List.cons_append, addPrefixes]
    split at h
    · exact ih h
    · cases h

/-- The prefixes of a form read back as they were written, kind after kind. -/
theorem addPrefixes_encodePfx (p : Pfx) : addPrefixes {} (encodePfx p) = .ok p := by
  obtain ⟨r, o, x, k, g⟩ := p
  have hr : addPrefixes {} (prefixParcels rndWord r) = .ok { rnd := r } := by
    cases r with
    | none => rfl
    | some r => simp only [prefixParcels, rndWord, addPrefixes, addPrefix_rnd {} r rfl]
  have ho : addPrefixes { rnd := r } (prefixParcels ordWord o) = .ok { rnd := r, ord := o } := by
    cases o with
    | none => rfl
    | some o => simp only [prefixParcels, ordWord, addPrefixes, addPrefix_ord { rnd := r } o rfl]
  have hx : addPrefixes { rnd := r, ord := o } (prefixParcels rextWord x) = .ok { rnd := r, ord := o, rext := x } := by
    cases x with
    | none => rfl
    | some x => simp only [prefixParcels, rextWord, addPrefixes, addPrefix_rext { rnd := r, ord := o } x rfl]
  have hk : addPrefixes { rnd := r, ord := o, rext := x } (prefixParcels immWord k) =
      .ok { rnd := r, ord := o, rext := x, imm := k } := by
    cases k with
    | none => rfl
    | some k => simp only [prefixParcels, immWord, addPrefixes, addPrefix_imm { rnd := r, ord := o, rext := x } k rfl]
  have hg : addPrefixes { rnd := r, ord := o, rext := x, imm := k } (prefixParcels guardWord g) =
      .ok { rnd := r, ord := o, rext := x, imm := k, guard := g } := by
    cases g with
    | none => rfl
    | some g =>
      simp only [prefixParcels, guardWord, addPrefixes, addPrefix_guard { rnd := r, ord := o, rext := x, imm := k } g rfl]
  rw [encodePfx_eq, List.append_assoc, List.append_assoc, List.append_assoc, addPrefixes_append hr, addPrefixes_append ho,
    addPrefixes_append hx, addPrefixes_append hk, hg]

/-! ## Words and headers read back (R41-R67) -/

theorem decodeWord_wordOf {i : Instr} {r : Row} {m : Mods} {v : List Nat} (hf : fieldsOf i = some (r, m, v))
    (hi : Laws.Encoding.Statement i) (hw : wellFormed i = true) :
    RowFits r ∧ fits r.atoms v = true ∧
      ∃ d, decodeWord (encodePfx m.pfx) r.len (wordOf r m.tk v) = .ok d ∧ d.instr = i := by
  obtain ⟨hmem, hv, hz, hlen, hctl, ht, -, hmaj, hwidth, d, hbuild, hd, hmods, herr⟩ := hi r m v hf hw
  have hr : RowFits r := ⟨hmaj, hwidth⟩
  refine ⟨hr, hv, d, ?_, hd⟩
  have htk : BitVec.ofNat 4 (wordTk r.len (wordOf r m.tk v)) = m.tk := by rw [hr.wordTk_wordOf ht, bv_toNat]
  have hfree : ¬(isControlWord r.len (wordOf r m.tk v) = true ∧ encodePfx m.pfx ≠ []) := fun h =>
    h.2 (hctl (hr.isControlWord_wordOf m.tk v ▸ h.1))
  simp only [decodeWord, if_neg hfree, prefixKindsOk_encodePfx hlen, findRow_wordOf hr hmem hv hz ht,
    addPrefixes_encodePfx, htk, hbuild, hmods, herr, ne_eq, not_true_eq_false, if_false]

/-- Parcels that are prefixes and then a word decode to what the word is behind those prefixes. -/
theorem decodeDec_append_word {pre : List Parcel} (hpre : ∀ p ∈ pre, parcelLen p = 3) {len : Len} {w : Nat}
    (hlen : w % 4 = lenCode len) (hw : w < 2 ^ (16 * parcelsOf len)) {d : Dec} (hd : decodeWord pre len w = .ok d)
    (rest : List Parcel) :
    decodeDec (pre ++ (splitParcels (parcelsOf len) w ++ rest)) = .ok (d, pre.length + parcelsOf len) := by
  obtain ⟨n, hn⟩ := Nat.exists_eq_succ_of_ne_zero (Nat.ne_of_gt (parcelsOf_pos len))
  have hfirst : splitParcels (parcelsOf len) w ++ rest = BitVec.ofNat 16 w :: (splitParcels n (w / 65536) ++ rest) := by
    rw [hn]; rfl
  have hp : parcelLen (BitVec.ofNat 16 w) = lenCode len := by
    rw [parcelLen, BitVec.toNat_ofNat, ← hlen]; omega
  have htake : (splitParcels (parcelsOf len) w ++ rest).take (parcelsOf len) = splitParcels (parcelsOf len) w :=
    List.take_left' (length_splitParcels _ _)
  have hlong : ¬(splitParcels (parcelsOf len) w ++ rest).length < parcelsOf len := by
    rw [List.length_append, length_splitParcels]; omega
  have hspan : spanPrefixes (pre ++ (splitParcels (parcelsOf len) w ++ rest)) =
      (pre, splitParcels (parcelsOf len) w ++ rest) := by
    rw [hfirst]
    exact spanPrefixes_prefixes_cons hpre (hp ▸ lenCode_ne_three len) _
  rw [hfirst] at hspan hlong htake ⊢
  simp only [decodeDec, hspan, hp, lenParcels_lenCode, lenOf_lenCode, if_neg hlong, htake, joinParcels_splitParcels hw, hd]

theorem decode_encode {i : Instr} (hw : wellFormed i = true) (hi : instrIsWord i = true) (rest : List Parcel) :
    decode (encode i ++ rest) = .ok (i, (encode i).length) := by
  obtain ⟨r, m, v, hf⟩ := Laws.Encoding.fieldsOf_isSome_of_isWord hi
  obtain ⟨hr, hv, d, hd, hdi⟩ := decodeWord_wordOf hf (Laws.Encoding.statement_of_isWord i hi) hw
  have henc : encode i = encodePfx m.pfx ++ splitParcels (parcelsOf r.len) (wordOf r m.tk v) := by
    unfold encode
    split
    · cases hf
    · cases hf
    · rw [hf]
  rw [henc, List.append_assoc, decode, decodeDec_append_word (parcelLen_encodePfx m.pfx) (wordOf_mod_four r m.tk v)
    (hr.wordOf_lt m.tk hv) hd rest, List.length_append, length_splitParcels]
  simp only [hdi]

theorem decodeHeader_splitParcels {w : Nat} (hw : w < 2 ^ 32) (hlen : w % 4 = 1) (rest : List Parcel) :
    decodeHeader (splitParcels 2 w ++ rest) = headerOfWord w := by
  have hj : joinParcels (splitParcels 2 w) = w := joinParcels_splitParcels hw
  have hp : parcelLen (BitVec.ofNat 16 w) = 1 := by rw [parcelLen, BitVec.toNat_ofNat]; omega
  simp only [splitParcels] at hj
  simp only [splitParcels, List.cons_append, decodeHeader, if_pos hp, hj]

theorem headerOfWord_blockHeader (rep : BitVec 7) (body : BitVec 12) (mask : BitVec 4) :
    headerOfWord (rep.toNat * 2 ^ 24 + body.toNat * 4096 + mask.toNat * 256 + 1) = some (.blockHeader rep body mask) := by
  have := rep.isLt
  have := body.isLt
  have := mask.isLt
  have h31 : (rep.toNat * 2 ^ 24 + body.toNat * 4096 + mask.toNat * 256 + 1).testBit 31 = false :=
    Nat.testBit_lt_two_pow (by omega)
  rw [headerOfWord, if_pos (by omega), h31, if_neg (by decide)]
  congr 2 <;> apply BitVec.eq_of_toNat_eq <;> rw [BitVec.toNat_ofNat] <;> omega

theorem headerOfWord_blockHeaderReg (r : Reg) (body : BitVec 12) (mask : BitVec 4) :
    headerOfWord (2 ^ 31 + r.toNat * 2 ^ 24 + body.toNat * 4096 + mask.toNat * 256 + 1) =
      some (.blockHeaderReg r body mask) := by
  have := r.isLt
  have := body.isLt
  have := mask.isLt
  have h31 : (2 ^ 31 + r.toNat * 2 ^ 24 + body.toNat * 4096 + mask.toNat * 256 + 1).testBit 31 = true := by
    rw [Nat.testBit_eq_decide_div_mod_eq, decide_eq_true_eq]; omega
  rw [headerOfWord, if_pos (by omega), h31, if_pos rfl, if_pos (by omega)]
  congr 2 <;> apply BitVec.eq_of_toNat_eq <;> rw [BitVec.toNat_ofNat] <;> omega

/-- Settles O2: what the encoder joins the decoder splits, the rows of the opcode map exclude one another, and the prefixes
of a form read back kind after kind. -/
theorem decodeInvertsEncode : Obligations.DecodeInvertsEncode := by
  refine ⟨fun i rest hw hi => decode_encode hw hi rest, fun rep r body mask rest => ⟨?_, ?_⟩⟩
  · have := rep.isLt
    have := body.isLt
    have := mask.isLt
    rw [← headerOfWord_blockHeader, encode, decodeHeader_splitParcels (by omega) (by omega)]
  · have := r.isLt
    have := body.isLt
    have := mask.isLt
    rw [← headerOfWord_blockHeaderReg, encode, decodeHeader_splitParcels (by omega) (by omega)]

end Sys2Proof
end

section
/-! PROOFS. What the decoder accepts (R62, R67), and that no instruction, event or step stops the machine (R331). -/

namespace Sys2Proof

open Sys2Proof.Machine

/-! ## Decoded words (R62, R67) -/

/-- A decoded word whose fields pass every check is a well-formed instruction. -/
theorem wellFormed_of_decError {d : Dec} (h : decError d = none) : wellFormed d.instr = true := by
  refine Option.isNone_iff_eq_none.2 ?_
  cases d with
  | i v => exact h
  | sys k m d a b =>
    cases k with
    | tlbinvPg | tlbinvAs | asset => rfl
    | rcbq =>
      have hv : (decide (14 ≤ b.toNat)) = !decide (b.toNat < 14) := by
        rw [← decide_not, decide_eq_decide, Nat.not_lt]
      simp only [decError, hv] at h
      exact h
    | _ => exact h

/-- What is read as a word has passed the checks of its fields. -/
theorem decError_of_decodeWord {pre : List Parcel} {len : Len} {w : Nat} {d : Dec} (h : decodeWord pre len w = .ok d) :
    decError d = none := by
  unfold decodeWord at h
  repeat' split at h
  all_goals cases h
  assumption

theorem length_spanPrefixes (ps : List Parcel) : (spanPrefixes ps).1.length + (spanPrefixes ps).2.length = ps.length := by
  induction ps with
  | nil => rfl
  | cons p ps ih =>
    rw [spanPrefixes]
    split
    · simp only [List.length_cons]; omega
    · simp

/-- The parcel behind a run of prefixes is none of them. -/
theorem parcelLen_ne_of_spanPrefixes {ps : List Parcel} {p : Parcel} {r : List Parcel}
    (h : (spanPrefixes ps).2 = p :: r) : parcelLen p ≠ 3 := by
  induction ps with
  | nil => cases h
  | cons q ps ih =>
    rw [spanPrefixes] at h
    split at h
    · exact ih h
    · next hq => cases h; exact hq

theorem lenParcels_parcelLen_pos {p : Parcel} (h : parcelLen p ≠ 3) : 0 < lenParcels (parcelLen p) := by
  have hlt : parcelLen p < 4 := Nat.mod_lt _ (by decide)
  obtain h0 | h1 | h2 : parcelLen p = 0 ∨ parcelLen p = 1 ∨ parcelLen p = 2 := by omega
  · simp [lenParcels, h0]
  · simp [lenParcels, h1]
  · simp [lenParcels, h2]

/-- What the decoder accepts has no failed check, and takes its prefixes and the parcels of its length. -/
theorem decodeDec_ok {ps : List Parcel} {d : Dec} {n : Nat} (h : decodeDec ps = .ok (d, n)) :
    decError d = none ∧ 0 < n ∧ n ≤ ps.length := by
  have hlen := length_spanPrefixes ps
  simp only [decodeDec] at h
  split at h
  · cases h
  · next p r hrest =>
    have hpos := lenParcels_parcelLen_pos (parcelLen_ne_of_spanPrefixes hrest)
    split at h
    · split at h <;> cases h
    · next hfits =>
      split at h
      · next hd =>
        cases h
        exact ⟨decError_of_decodeWord hd, by omega, by omega⟩
      · cases h

/-- Settles O3: the decoder gives a word out only behind the checks of its fields, and behind that of its length. -/
theorem decodedIsWellFormed : Obligations.DecodedIsWellFormed := by
  intro ps i n h
  unfold decode at h
  split at h
  · next d k hd =>
    cases h
    obtain ⟨herr, hpos, hle⟩ := decodeDec_ok hd
    exact ⟨wellFormed_of_decError herr, hpos, hle⟩
  · cases h

end Sys2Proof

namespace Sys2Proof.Machine

/-! ## No instruction, event or step stops the machine (R331) -/

theorem issue_next (f : Form) (s : State) (body : State → Res) : ∃ t, issue f s body = .next t := ⟨_, rfl⟩

/-- An instruction of a body issues or is ILLOP. -/
theorem exec_next_of_isWord {i : Instr} (s : State) (h : instrIsWord i = true) : ∃ t, exec i s = .next t := by
  rcases exec_formed i s h with ⟨body, hbody⟩ | ⟨-, hill⟩
  · rw [hbody]; exact issue_next _ _ _
  · exact ⟨_, hill⟩

/-- A block header enters its block, and every event answers the state that it leaves. -/
theorem exec_next_of_not_isWord {i : Instr} (s : State) (h : instrIsWord i = false) : ∃ t, exec i s = .next t := by
  cases i with
  | _ => first | exact ⟨_, rfl⟩ | exact Bool.noConfusion (show true = false from h)

theorem exec_next (i : Instr) (s : State) : ∃ t, exec i s = .next t := by
  cases h : instrIsWord i
  · exact exec_next_of_not_isWord s h
  · exact exec_next_of_isWord s h

theorem State.runParcels_next (s : State) (ps : List Parcel) : ∃ t, s.runParcels ps = .next t := by
  unfold State.runParcels
  split
  · rw [execDec_eq]; exact exec_next _ _
  · exact ⟨_, rfl⟩

theorem State.runBody_next (s : State) (n : Nat) : ∃ t, s.runBody n = .next t := by
  unfold State.runBody
  split
  · exact State.runParcels_next _ _
  · exact ⟨_, rfl⟩
  · exact ⟨_, rfl⟩
  · exact ⟨_, rfl⟩

theorem State.runHeader_next (s : State) : ∃ t, s.runHeader = .next t := by
  unfold State.runHeader
  split
  · exact exec_next _ _
  all_goals exact ⟨_, rfl⟩

theorem State.runEngine_next (s : State) : ∃ t, s.runEngine = .next t := by
  unfold State.runEngine
  split
  · exact State.runHeader_next s
  · split
    · exact State.runBody_next s _
    · exact ⟨_, rfl⟩

theorem State.act_next (s : State) (t : Slot) : ∃ u, s.act t = .next u := by
  unfold State.act
  split
  · exact ⟨_, rfl⟩
  · split
    case h_1 =>
      dsimp only
      split
      · exact State.runEngine_next _
      · exact ⟨_, rfl⟩
    case h_4 =>
      dsimp only
      split
      · exact exec_next _ _
      · exact ⟨_, rfl⟩
    all_goals exact ⟨_, rfl⟩

theorem step_next (s : State) : ∃ t, step s = .next t := State.act_next _ _

/-- Settles O6: an instruction answers what `issue` settles or its trap, an event the state that it leaves, and a slot of the
schedule one of the two. -/
theorem everyStepAnswersNext : Obligations.EveryStepAnswersNext := ⟨exec_next, step_next⟩

end Sys2Proof.Machine
end

section
/-! PROOFS. The step, reset, issue and the walk of a body: O1, O5, O8 and what issue, a guard, a stall and retirement do
(R24-R31, R41-R45, R49, R60, R333). -/

namespace Sys2Proof.Machine

/-- Settles O1: the tables read each word. -/
theorem workedWordsDecode : Obligations.WorkedWordsDecode :=
  ⟨by decide +kernel, by decide +kernel, by decide +kernel, by decide +kernel, by decide +kernel, by decide +kernel,
    by decide +kernel, by decide +kernel⟩

/-! ## One step (R24, R41-R45) -/

/-- A step is what happens in the first slot of the agenda, in the machine with its clocks passed. -/
theorem step_eq_act {s : State} {t : Slot} {rest : List Slot} (h : s.agenda = t :: rest) :
    step s = (s.passed t rest).act t := step_slot h

theorem State.act_afterFatal {s : State} {t : Slot} (hf : s.fatal ≠ none) (ha : afterFatal t.act = false) :
    s.act t = .next s := by
  unfold State.act
  rw [if_pos (by simp [Option.isSome_iff_ne_none.2 hf, ha])]

/-- An engine in the body of a block executes the instruction that it fetches. -/
theorem State.runEngine_body {s : State} {b : Blk} {ps : List Parcel} {i : Instr} {n : Nat} (hb : s.ce.blk = some b)
    (hbegun : b.begun = true) (hf : s.fetchInstr s.me s.cur.eng false s.ce.pc (b.next - s.ce.pc) = .ok ps)
    (hd : decode ps = .ok (i, n)) : s.runEngine = exec i (s.executing n) := by
  simp only [State.runEngine, hb, if_pos hbegun, State.runBody, hf]
  exact State.runParcels_ok hd

/-- An engine outside a block executes the header at its offset. -/
theorem State.runEngine_header {s : State} {i : Instr} (hb : s.ce.blk = none)
    (hh : s.headerAt s.me s.cur.eng false s.ce.pc = .ok (some i)) : s.runEngine = exec i (s.executing 2) := by
  simp only [State.runEngine, hb, State.runHeader, hh]
  rfl

/-- Settles O5: the slot of the agenda says what happens, and an engine that may act runs what stands at its offset. -/
theorem stepRunsTheInstruction : Obligations.StepRunsTheInstruction := by
  intro s t rest h
  rw [step_eq_act h]
  refine ⟨fun hf ha => State.act_afterFatal hf ha, fun hf core ctx e hold hact hctx => ?_,
    fun hf i a hact hctx hev hboot => ?_⟩
  · intro u hmay hopen
    have hu : (s.passed t rest).act t = u.runEngine := by
      rw [State.act_engine (s := s.passed t rest) hf hact hctx, if_pos (by rw [hmay, hopen]; rfl)]
      rfl
    rw [hu]
    exact ⟨fun b ps i n hb hbegun hfetch hd => State.runEngine_body hb hbegun hfetch hd,
      fun i hb hh => State.runEngine_header hb hh⟩
  · have hmay : (instrIsEvent i && ((s.passed t rest).booted || beforeBoot i)) = true := by
      rw [hev, Bool.true_and, Bool.or_eq_true]
      exact hboot
    rw [State.act_event (s := s.passed t rest) hf hact hctx, if_pos hmay]
    rfl

/-! ## Reset -/

/-- Settles O8: after reset every table is empty, so that each unit holds its defaults. -/
theorem resetValues : Obligations.ResetValues :=
  ⟨fun _ => ⟨rfl, rfl, rfl, rfl, rfl, rfl, rfl, fun _ => rfl⟩, fun _ => ⟨rfl, rfl, rfl⟩, fun _ => ⟨rfl, rfl, rfl, rfl⟩,
    fun _ => ⟨rfl, rfl⟩, fun _ => ⟨rfl, rfl, fun _ => rfl, fun _ => rfl⟩, rfl, rfl, rfl, fun _ => rfl, fun _ => rfl⟩

/-! ## The TK field and the guard (R49, R60, R62) -/

theorem State.legal_eq_false_of_tk {s : State} {f : Form} (h : tkOk f.mods.tk s.cur.eng s.multi = false) :
    s.legal f = false := by simp [State.legal, h]

theorem State.legal_eq_false_of_guard {s : State} {f : Form} (hg : f.mods.pfx.guard ≠ none)
    (he : s.cur.eng = .l ∨ s.cur.eng = .s) : s.legal f = false := by
  have hsome : f.mods.pfx.guard.isNone = false := by simpa [Option.isSome_iff_ne_none] using hg
  rcases he with he | he <;> simp [State.legal, he, hsome]

/-- A TK field that an engine may not use (R49). -/
theorem tkOk_eq_false {tk : BitVec 4} {e : Eng} {multi : Bool} (hne : tk ≠ 0)
    (h : e = .x ∨ multi = true ∨ (e = .l ∧ (tk.getLsbD 2 ∨ tk.getLsbD 0)) ∨ (e = .s ∧ (tk.getLsbD 3 ∨ tk.getLsbD 1))) :
    tkOk tk e multi = false := by
  have h0 : (tk == 0) = false := by simpa using hne
  rcases h with rfl | rfl | ⟨rfl, h | h⟩ | ⟨rfl, h | h⟩ <;> simp_all [tkOk]

theorem exec_illop_of_illegal {i : Instr} {s : State} (hw : instrIsWord i = true) (h : s.legal (formOf i s) = false) :
    exec i s = .next (s.trapHere .illop) := by
  rcases exec_formed i s hw with ⟨body, hbody⟩ | ⟨-, hill⟩
  · rw [hbody, issue_illegal body h]
  · exact hill

/-- Settles O10: both are illegal in every form. -/
theorem tokenFieldAndGuardFaults : Obligations.TokenFieldAndGuardFaults := fun _ _ hw =>
  ⟨fun hne h => exec_illop_of_illegal hw (State.legal_eq_false_of_tk (tkOk_eq_false hne h)),
    fun hg he => exec_illop_of_illegal hw (State.legal_eq_false_of_guard hg he)⟩

/-! ## Stalls (R30, R31, R147) -/

/-- A well-formed instruction of a body is `issue` of its form. -/
theorem formed_of_wellFormed {i : Instr} (s : State) (hw : instrIsWord i = true) (hf : wellFormed i = true) : Formed i s := by
  rcases exec_formed i s hw with h | ⟨hv, -⟩
  · exact h
  · exact absurd hf (by simp [hv])

theorem State.sameMachine_modMe (s : State) (f : Ctx → Ctx) : SameMachine s (s.modMe f) := rfl

theorem State.sameOthers_modMe (s : State) (f : Ctx → Ctx) : SameOthers s (s.modMe f) :=
  fun _ hk => State.ctx_modCtx_other s f hk

/-- A stall notes itself on its engine, and does nothing else. -/
theorem State.stallHere_frame (s : State) (w : Stall) :
    SameMachine s (s.stallHere w) ∧ SameOthers s (s.stallHere w) ∧
    (∀ e, ((s.stallHere w).cc.eng e).quiet = (s.cc.eng e).quiet) ∧ { (s.stallHere w).cc with engs := s.cc.engs } = s.cc := by
  have hcc : (s.stallHere w).cc = s.cc.modEng s.cur.eng fun g => { g with stall := some w } := State.modCe_cc s _
  refine ⟨State.sameMachine_modMe s _, State.sameOthers_modMe s _, fun e => ?_, by rw [hcc]; rfl⟩
  rw [hcc]
  by_cases he : e = s.cur.eng
  · rw [he, Ctx.eng_modEng_same]; rfl
  · rw [Ctx.eng_modEng_other _ _ he]

/-- Settles O11: a blocked instruction stalls before its own effect. -/
theorem stalledInstructionHasNoEffect : Obligations.StalledInstructionHasNoEffect := by
  intro i s w hw hf hl hb
  obtain ⟨body, hbody⟩ := formed_of_wellFormed s hw hf
  exact ⟨hbody.trans (issue_blocked body hl hb), State.stallHere_frame s w⟩

/-! ## Retirement (R27, R30, R31, R44, R60) -/

theorem State.walked_retire (u : State) (f : Form) : Walked f u (u.retire f) :=
  ⟨State.sameMachine_modMe u _, fun _ hk => State.retire_others u f hk, State.retire_still u f,
    fun _ he => State.retire_eng u f he, State.retire_ce u f⟩

/-- Settles O12: a guarded-off instruction pushes its zeros and retires. -/
theorem guardedOffInstructionKeepsBalance : Obligations.GuardedOffInstructionKeepsBalance := by
  intro i s hw hf hl hb hg
  obtain ⟨body, hbody⟩ := formed_of_wellFormed s hw hf
  exact ⟨_, hbody.trans (issue_guarded body hl hb hg), State.walked_retire _ _⟩

section
variable {c : Ctx} {e : Eng} {n : Nat} {b : Blk} (hb : (c.eng e).blk = some b)
include hb

theorem Ctx.advance_within (h : (c.eng e).pc + n < b.next) : c.advance e n = c.setEng e { c.eng e with pc := (c.eng e).pc + n } := by
  simp only [Ctx.advance, hb, if_pos h]

theorem Ctx.advance_last (h : b.next ≤ (c.eng e).pc + n) (hl : b.left = 0) :
    c.advance e n = c.setEng e { c.eng e with pc := b.next, blk := none } := by
  simp only [Ctx.advance, hb, if_neg (Nat.not_lt.2 h), if_pos hl]

theorem Ctx.advance_again (h : b.next ≤ (c.eng e).pc + n) (hl : b.left ≠ 0) :
    c.advance e n = c.beginInstance e { b with left := b.left - 1 } := by
  simp only [Ctx.advance, hb, if_neg (Nat.not_lt.2 h), if_neg hl]

end

theorem Ctx.eng_beginInstance_open {c : Ctx} {e : Eng} {b : Blk} (h : c.windowOpen e b.head b.mask = true) :
    (c.beginInstance e b).eng e = ({ c.eng e with
      insts := tput (c.eng e).insts b.head ((c.eng e).begun b.head + 1), pc := b.head + 2,
      blk := some { b with begun := true } } : Engine).quiet := by
  rw [Ctx.beginInstance, if_pos h, Ctx.wake_eng, Ctx.eng_modEng_same]

theorem Ctx.eng_beginInstance_closed {c : Ctx} {e : Eng} {b : Blk} (h : c.windowOpen e b.head b.mask = false) :
    (c.beginInstance e b).eng e = { c.eng e with pc := b.head, blk := some { b with begun := false } } := by
  rw [Ctx.beginInstance, if_neg (by simp [h]), Ctx.eng_modEng_same]

/-- Settles O13: retirement moves the walk alone, and `advance` takes each of its four ways. -/
theorem retirementAndWalk : Obligations.RetirementAndWalk := by
  refine ⟨fun i s u => State.walked_retire u _, fun c e n b hb => ⟨fun h => ?_, fun h hl => ?_, fun h hl ho => ?_,
    fun h hl hc => ?_⟩⟩
  · rw [Ctx.advance_within hb h, Ctx.eng_setEng_same]
    exact ⟨rfl, hb⟩
  · rw [Ctx.advance_last hb h hl, Ctx.eng_setEng_same]
    exact ⟨rfl, rfl⟩
  · rw [Ctx.advance_again hb h hl, Ctx.eng_beginInstance_open (b := { b with left := b.left - 1 }) ho]
    exact ⟨rfl, rfl, tget_tput_same _ _ _ _⟩
  · rw [Ctx.advance_again hb h hl, Ctx.eng_beginInstance_closed (b := { b with left := b.left - 1 }) hc]
    exact ⟨rfl, rfl, rfl⟩

/-! ## The first fault (R333) -/

theorem State.mayStep_trapped {s : State} {k : Nat} (h : (s.ctx k).st = .trapped) (e : Eng) : s.mayStep k e = false := by
  simp [State.mayStep, h]

/-- A fault of a running task traps it. -/
theorem State.raise_run {s : State} {k : Nat} (t : Trap) (hst : (s.ctx k).st = .run) (ht : (s.ctx k).trap = none) :
    s.raise k t = s.setCtx k { s.ctx k with st := .trapped, trap := some t } := by
  simp only [State.raise, hst, ht]

/-- A fault of a trapped task takes the place of its trap where it comes first in the order of the engines. -/
theorem State.raise_trapped {s : State} {k : Nat} (t : Trap) {o : Trap} (hst : (s.ctx k).st = .trapped)
    (ht : (s.ctx k).trap = some o) :
    s.raise k t = if o.clock = t.clock ∧ engIdx t.eng < engIdx o.eng then s.setCtx k { s.ctx k with trap := some t } else s := by
  simp only [State.raise, hst, ht]

/-- A fault raised on a context leaves every other one. -/
theorem State.ctx_raise_other (s : State) {k n : Nat} (t : Trap) (h : n ≠ k) : (s.raise k t).ctx n = s.ctx n := by
  have hset : ∀ c, (s.setCtx k c).ctx n = s.ctx n := fun c => by rw [State.ctx_setCtx, if_neg h]
  unfold State.raise
  dsimp only
  split
  · rfl
  · rfl
  · rfl
  · split
    · split
      · exact hset _
      · rfl
    · exact hset _

/-- Settles O14: by the state of the context on which the fault is raised. -/
theorem firstFaultTrapsTheTask : Obligations.FirstFaultTrapsTheTask := by
  refine fun s k t => ⟨fun hst ht => ?_, fun o hst ht => ?_, fun n hn => State.ctx_raise_other s t hn⟩
  · have htrapped : ((s.raise k t).ctx k).st = .trapped := by rw [State.raise_run t hst ht, State.ctx_setCtx_same]
    exact ⟨htrapped, by rw [State.raise_run t hst ht, State.ctx_setCtx_same], State.mayStep_trapped htrapped⟩
  · rw [State.raise_trapped t hst ht]
    split
    · rw [State.ctx_setCtx_same]
      exact ⟨hst, rfl⟩
    · exact ⟨hst, ht⟩

end Sys2Proof.Machine
end

section
/-! PROOFS. The integer and half-step formats: the grid of a format, and that a value of it rounds to its own code
(R79, R80, R87, R93). -/

namespace Sys2Proof.Machine

/-- A format of `intSpec` is no floating format. -/
theorem fltSpec_of_intSpec {f : Fmt} {sp : IntSpec} (h : intSpec f = some sp) : fltSpec f = none := by
  cases f with
  | fp16 | bf16 | fp32 | a56 | b8 => cases h
  | _ => rfl

theorem fmtValue_of_intSpec {f : Fmt} {sp : IntSpec} (h : intSpec f = some sp) (ftz : Bool) (c : Nat) :
    fmtValue f ftz c = intValue sp c := by
  simp only [fmtValue, fltSpec_of_intSpec h, h]

theorem fmtRound_of_intSpec {f : Fmt} {sp : IntSpec} (h : intSpec f = some sp) (rm : Rm) (sat ftz : Bool) (x : XR) :
    fmtRound f rm sat ftz x = (intRound sp rm sat x).1 := by
  simp only [fmtRound, fmtRoundEv, fltSpec_of_intSpec h, h]

/-- The lowest value of a format: the grid of a signed one begins at −2^(w−1), and that of an unsigned one at 0. -/
theorem intSpec_low {f : Fmt} {sp : IntSpec} (h : intSpec f = some sp) :
    0 < sp.w ∧ (sp.half = false → sp.low = if sp.sgn then -2 ^ (sp.w - 1) else 0) := by
  cases f <;> cases h <;> decide

/-- The place on the grid of its format at which a code stands: `k` for the value `k`, or for the value `k` + ½. -/
def IntSpec.place (sp : IntSpec) (c : Nat) : Int :=
  if sp.half then sp.low + c else if sp.sgn then signed sp.w c else c

theorem IntSpec.intValue_half {sp : IntSpec} (hh : sp.half = true) {c : Nat} (hc : c < 2 ^ sp.w) :
    intValue sp c = .ofInt (2 * sp.place c + 1) 2 := by
  rw [intValue, Nat.mod_eq_of_lt hc, if_pos hh, IntSpec.place, if_pos hh]

theorem IntSpec.intValue_whole {sp : IntSpec} (hh : sp.half = false) {c : Nat} (hc : c < 2 ^ sp.w) :
    intValue sp c = .ofInt (sp.place c) := by
  rw [intValue, Nat.mod_eq_of_lt hc, IntSpec.place]
  cases sp.sgn <;> simp [hh]

theorem two_pow_succ_pred {w : Nat} (hw : 0 < w) : 2 ^ w = 2 * 2 ^ (w - 1) := by
  rw [← Nat.pow_succ', Nat.succ_eq_add_one, Nat.sub_add_cancel hw]

theorem signed_of_lt {w c : Nat} (hc : c < 2 ^ w) : signed w c = if c < 2 ^ (w - 1) then (c : Int) else c - (2 ^ w : Nat) := by
  rw [signed, Nat.mod_eq_of_lt hc]

theorem signed_bounds {w c : Nat} (hw : 0 < w) (hc : c < 2 ^ w) :
    -(2 ^ (w - 1) : Nat) ≤ signed w c ∧ signed w c < (2 ^ (w - 1) : Nat) := by
  have h2 := two_pow_succ_pred hw
  rw [signed_of_lt hc]
  split <;> omega

theorem signed_emod {w c : Nat} (hc : c < 2 ^ w) : signed w c % ((2 ^ w : Nat) : Int) = c := by
  rw [signed_of_lt hc]
  split
  · exact Int.emod_eq_of_lt (by omega) (by omega)
  · rw [Int.sub_emod_right]; exact Int.emod_eq_of_lt (by omega) (by omega)

/-- Every place of a code lies between the extremes of its format (R93). -/
theorem IntSpec.place_bounds {f : Fmt} {sp : IntSpec} (h : intSpec f = some sp) {c : Nat} (hc : c < 2 ^ sp.w) :
    sp.low ≤ sp.place c ∧ sp.place c ≤ sp.low + 2 ^ sp.w - 1 := by
  obtain ⟨hw, hlow⟩ := intSpec_low h
  have hcast : ((2 ^ sp.w : Nat) : Int) = 2 ^ sp.w := by push_cast; rfl
  have hhalf : ((2 ^ (sp.w - 1) : Nat) : Int) = 2 ^ (sp.w - 1) := by push_cast; rfl
  have h2 := two_pow_succ_pred hw
  unfold IntSpec.place
  cases hh : sp.half with
  | true => simp only [if_true]; omega
  | false =>
    rw [hh] at hlow
    cases hs : sp.sgn with
    | true =>
      have hb := signed_bounds hw hc
      simp only [hlow, hs, if_true, Bool.false_eq_true, if_false]
      omega
    | false =>
      simp only [hlow, hs, Bool.false_eq_true, if_false]
      omega

/-- The code that stands at the place of a code is that code. -/
theorem IntSpec.code_place {sp : IntSpec} {c : Nat} (hc : c < 2 ^ sp.w) :
    (if sp.half then (sp.place c - sp.low).toNat else (sp.place c % (2 ^ sp.w : Int)).toNat) = c := by
  have hcast : ((2 ^ sp.w : Nat) : Int) = 2 ^ sp.w := by push_cast; rfl
  unfold IntSpec.place
  cases sp.half with
  | true => simp only [if_true]; omega
  | false =>
    cases sp.sgn with
    | true => simp only [Bool.false_eq_true, if_true, if_false, ← hcast, signed_emod hc, Int.toNat_natCast]
    | false =>
      simp only [Bool.false_eq_true, if_false, ← hcast]
      rw [Int.emod_eq_of_lt (by omega) (by omega), Int.toNat_natCast]

theorem sign_mul_natAbs (m : Int) : (if decide (m < 0) = true then -1 else 1) * ((2 * m.natAbs : Nat) : Int) = 2 * m := by
  by_cases hm : m < 0
  · rw [if_pos (by simpa using hm)]; omega
  · rw [if_neg (by simpa using hm)]; omega

/-- A value on the half-step grid rounds to its own place, in every mode. -/
theorem roundGrid_half (rm : Rm) (k : Int) : roundGrid true rm (decide (2 * k + 1 < 0)) (2 * k + 1).natAbs 2 = k := by
  have ht : 2 * (2 * k + 1) - 2 = 4 * k := by omega
  simp only [roundGrid, sign_mul_natAbs, if_true, Nat.cast_ofNat, ht, show (2 * 2 : Int) = 4 from rfl]
  rw [if_pos (by omega)]
  omega

/-- An integer rounds to itself, in every mode. -/
theorem roundGrid_whole (rm : Rm) (k : Int) : roundGrid false rm (decide (k < 0)) k.natAbs 1 = k := by
  simp only [roundGrid, sign_mul_natAbs, Bool.false_eq_true, if_false, Nat.cast_one, mul_one]
  rw [if_pos (by omega)]
  omega

/-- A value whose place lies between the extremes rounds to the code of its place. -/
theorem intRound_place {f : Fmt} {sp : IntSpec} (h : intSpec f = some sp) (rm : Rm) (sat : Bool) {c : Nat} (hc : c < 2 ^ sp.w)
    {neg : Bool} {n d : Nat} (hk : roundGrid sp.half rm neg n d = sp.place c) :
    (intRound sp rm sat (.fin neg n d)).1 = c := by
  simp only [intRound, hk, if_pos (IntSpec.place_bounds h hc)]
  exact IntSpec.code_place hc

theorem intRound_intValue {f : Fmt} {sp : IntSpec} (h : intSpec f = some sp) (rm : Rm) (sat : Bool) {c : Nat}
    (hc : c < 2 ^ sp.w) : (intRound sp rm sat (intValue sp c)).1 = c := by
  cases hh : sp.half with
  | true =>
    rw [IntSpec.intValue_half hh hc]
    exact intRound_place h rm sat hc (hh ▸ roundGrid_half rm _)
  | false =>
    rw [IntSpec.intValue_whole hh hc]
    exact intRound_place h rm sat hc (hh ▸ roundGrid_whole rm _)

/-- The value of a half-step code is odd over 2, and so not zero. -/
theorem isZero_intValue_half {sp : IntSpec} (hh : sp.half = true) {c : Nat} (hc : c < 2 ^ sp.w) :
    (intValue sp c).isZero = false := by
  rw [IntSpec.intValue_half hh hc]
  simp only [XR.ofInt, XR.isZero, beq_eq_false_iff_ne]
  omega

/-- The value of a code of the half-step format whose lowest place is `low`. -/
theorem fmtValue_half {f : Fmt} {w : Nat} {low : Int} {sgn : Bool}
    (h : intSpec f = some { w := w, sgn := sgn, half := true, low := low }) (ftz : Bool) {c : Nat} (hc : c < 2 ^ w) {m : Int}
    (hm : m = 2 * (low + c) + 1) : fmtValue f ftz c = .ofInt m 2 := by
  rw [fmtValue_of_intSpec h, IntSpec.intValue_half rfl hc, hm]; rfl

theorem fmtValue_signed {f : Fmt} {w : Nat} {low : Int} (h : intSpec f = some { w := w, sgn := true, half := false, low := low })
    (ftz : Bool) {c : Nat} (hc : c < 2 ^ w) : fmtValue f ftz c = .ofInt (signed w c) := by
  rw [fmtValue_of_intSpec h, IntSpec.intValue_whole rfl hc]; rfl

theorem fmtValue_unsigned {f : Fmt} {w : Nat} {low : Int}
    (h : intSpec f = some { w := w, sgn := false, half := false, low := low }) (ftz : Bool) {c : Nat} (hc : c < 2 ^ w) :
    fmtValue f ftz c = .ofInt c := by
  rw [fmtValue_of_intSpec h, IntSpec.intValue_whole rfl hc]; rfl

/-- Settles O15: a code stands at one place of the grid of its format, and the place gives it back. -/
theorem integerAndHalfStepFormats : Obligations.IntegerAndHalfStepFormats := by
  intro ftz sat rm c
  refine ⟨fun h => ⟨?_, ?_, ?_, ?_⟩, fun h => ?_, fun h => ⟨?_, ?_, ?_, ?_⟩, fun h => ?_, fun h => ?_, fun h => ?_,
    fun f sp hf hc => ⟨?_, fun hh => ?_⟩⟩
  · exact fmtValue_half (w := 4) rfl ftz h (by omega)
  · exact fmtValue_half (w := 4) rfl ftz h (by omega)
  · exact fmtValue_signed (w := 4) rfl ftz h
  · exact fmtValue_unsigned (w := 4) rfl ftz h
  · exact fmtValue_half (w := 6) rfl ftz h (by omega)
  · exact fmtValue_half (w := 8) rfl ftz h (by omega)
  · exact fmtValue_half (w := 8) rfl ftz h (by omega)
  · exact fmtValue_signed (w := 8) rfl ftz h
  · exact fmtValue_unsigned (w := 8) rfl ftz h
  · exact fmtValue_signed (w := 16) rfl ftz h
  · exact fmtValue_signed (w := 32) rfl ftz h
  · exact fmtValue_signed (w := 64) rfl ftz h
  · rw [fmtRound_of_intSpec hf, fmtValue_of_intSpec hf, intRound_intValue hf rm sat hc]
  · rw [fmtValue_of_intSpec hf, isZero_intValue_half hh hc]

end Sys2Proof.Machine
end

section
/-! PROOFS. The integer and predicate instructions: each value of the model is the one of the tables (R145-R155), and an
instruction that is ready completes with it. -/

namespace Sys2Proof.Machine

/-! ## Arithmetic (R145, R146, R148) -/

theorem quadN_eq_wrapR (n : Nat) : quadN n = wrapR n := (BitVec.ofInt_natCast 64 n).symm

theorem narrow_eq (m : Mods) (r : Int) : narrow m r = wrapOrClamp m r := by
  unfold narrow wrapOrClamp wrapR
  cases satOf m with
  | false => rfl
  | true =>
    have hc : clamp64 r = if r < -2 ^ 63 then -2 ^ 63 else if 2 ^ 63 ≤ r then 2 ^ 63 - 1 else r := by
      unfold clamp64
      split_ifs <;> omega
    simp only [if_true, hc]

theorem mulHighU_eq (a b : Quad) : mulHighU a b = wrapR (a.toNat * b.toNat / 2 ^ 64 : Nat) := quadN_eq_wrapR _

theorem wrapR_toNat (a : Quad) : wrapR a.toNat = a := by rw [← quadN_eq_wrapR]; exact BitVec.ofNat_toNat 64 a

theorem toInt_tdiv_overflow {a b : Quad} (ha : a.toInt = -2 ^ 63) (hb : b.toInt = -1) : a.toInt.tdiv b.toInt = 2 ^ 63 := by
  rw [ha, hb]; rfl

theorem divS_eq (a b : Quad) : divS a b = (ruleDiv true a b).1 := by
  unfold divS ruleDiv
  by_cases hb : b = 0
  · simp only [if_pos hb]
  · simp only [if_neg hb, true_and, if_true]
    by_cases ho : a.toInt = -2 ^ 63 ∧ b.toInt = -1
    · rw [if_pos ho, toInt_tdiv_overflow ho.1 ho.2]; decide
    · rw [if_neg ho]; rfl

theorem remS_eq (a b : Quad) : remS a b = (ruleDiv true a b).2 := by
  unfold remS ruleDiv
  by_cases hb : b = 0
  · simp only [if_pos hb]
  · simp only [if_neg hb, true_and, if_true]
    by_cases ho : a.toInt = -2 ^ 63 ∧ b.toInt = -1
    · rw [if_pos ho, ho.1, ho.2]; decide
    · rw [if_neg ho, Int.tmod_def]; rfl

theorem divU_eq (a b : Quad) : divU a b = (ruleDiv false a b).1 := by
  unfold divU ruleDiv
  by_cases hb : b = 0
  · simp only [if_pos hb]
  · simp only [if_neg hb, Bool.false_eq_true, false_and, if_false]
    rw [← Int.ofNat_tdiv, ← BitVec.toNat_udiv, wrapR_toNat]

theorem remU_eq (a b : Quad) : remU a b = (ruleDiv false a b).2 := by
  unfold remU ruleDiv
  by_cases hb : b = 0
  · simp only [if_pos hb]
  · simp only [if_neg hb, Bool.false_eq_true, false_and, if_false]
    rw [← Int.tmod_def, ← Int.ofNat_tmod, ← BitVec.toNat_umod, wrapR_toNat]

theorem minS_eq (a b : Quad) : minS a b = if a.toInt ≤ b.toInt then a else b := by
  unfold minS; split_ifs <;> first | rfl | omega
theorem minUns_eq (a b : Quad) : minUns a b = if a.toNat ≤ b.toNat then a else b := by
  unfold minUns; split_ifs <;> first | rfl | omega
theorem maxS_eq (a b : Quad) : maxS a b = if a.toInt ≤ b.toInt then b else a := by
  unfold maxS; split_ifs with h1 h2 h2
  · rfl
  · omega
  · exact BitVec.eq_of_toInt_eq (by omega)
  · rfl
theorem maxUns_eq (a b : Quad) : maxUns a b = if a.toNat ≤ b.toNat then b else a := by
  unfold maxUns; split_ifs with h1 h2 h2
  · rfl
  · omega
  · exact BitVec.eq_of_toNat_eq (by omega)
  · rfl

/-! ## Shifts (R148, R150) -/

theorem shiftLeft_eq_wrapR (a : Quad) (n : Nat) : a <<< n = wrapR (a.toNat * 2 ^ n) := by
  have h : (a.toNat * 2 ^ n : Int) = ((a.toNat * 2 ^ n : Nat) : Int) := by push_cast; rfl
  rw [h, ← quadN_eq_wrapR]
  apply BitVec.eq_of_toNat_eq
  rw [BitVec.toNat_shiftLeft, Nat.shiftLeft_eq, BitVec.toNat_ofNat]

theorem ushiftRight_eq_wrapR (a : Quad) (n : Nat) : a >>> n = wrapR (a.toNat / 2 ^ n : Nat) := by
  rw [← Nat.shiftRight_eq_div_pow, ← BitVec.toNat_ushiftRight, wrapR_toNat]

theorem sshiftRight_eq_wrapR (a : Quad) (n : Nat) : a.sshiftRight n = wrapR (a.toInt / 2 ^ n) := by
  rw [BitVec.sshiftRight, Int.shiftRight_eq_div_pow]; rfl

theorem shlOf_eq (a : Quad) (n : Nat) : shlOf a n = ruleShl a n := by rw [shlOf, ruleShl, shiftLeft_eq_wrapR]
theorem shrOf_eq (a : Quad) (n : Nat) : shrOf a n = ruleShr a n := by rw [shrOf, ruleShr, ushiftRight_eq_wrapR]

theorem sraOf_eq (a : Quad) (n : Nat) : sraOf a n = ruleSra a n := by
  unfold sraOf ruleSra
  by_cases hn : 64 ≤ n
  · rw [if_pos hn, show min n 63 = 63 by omega, sshiftRight_eq_wrapR]
    have hlo := BitVec.le_toInt a
    have hhi := BitVec.toInt_lt (x := a)
    by_cases ha : a.toInt < 0
    · rw [if_pos ha, show a.toInt / 2 ^ 63 = -1 by omega]
    · rw [if_neg ha, show a.toInt / 2 ^ 63 = 0 by omega]; rfl
  · rw [if_neg hn, show min n 63 = n by omega, sshiftRight_eq_wrapR]

theorem shli_eq (a : Quad) {n : Nat} (hn : n < 64) : a <<< n = ruleShl a n := by
  rw [← shlOf_eq, shlOf, if_neg (by omega)]
theorem shri_eq (a : Quad) {n : Nat} (hn : n < 64) : a >>> n = ruleShr a n := by
  rw [← shrOf_eq, shrOf, if_neg (by omega)]
theorem srai_eq (a : Quad) {n : Nat} (hn : n < 64) : a.sshiftRight n = ruleSra a n := by
  rw [← sraOf_eq, sraOf, show min n 63 = n by omega]

theorem rotateLeft_eq (a : Quad) (n : Nat) : a.rotateLeft (n % 64) = ruleRot a n := by
  have hm : n % 64 % 64 = n % 64 := Nat.mod_mod _ _
  rw [BitVec.rotateLeft_def, hm, ruleRot]
  by_cases h0 : n % 64 = 0
  · simp [h0, BitVec.ushiftRight_eq_zero (x := a) (Nat.le_refl 64)]
  · rw [show (64 - n % 64) % 64 = 64 - n % 64 by omega]

/-! ## Counts and extensions (R149, R151) -/

theorem signExtend_eq_wrapR {w : Nat} (hw : 0 < w) (k : BitVec w) : k.signExtend 64 = quad (signed w k.toNat) := by
  have h2 := two_pow_succ_pred hw
  have hk := k.isLt
  have hi : signed w k.toNat = k.toInt := by
    rw [signed_of_lt hk, BitVec.toInt_eq_toNat_cond]
    split_ifs <;> omega
  rw [hi]; rfl

theorem sextOf_eq {w : Nat} (hw : 0 < w) (a : Quad) : sextOf w a = (a.setWidth w).signExtend 64 := by
  have h : signed w a.toNat = signed w (a.setWidth w).toNat := by
    rw [signed, signed, BitVec.toNat_setWidth, Nat.mod_mod]
  rw [signExtend_eq_wrapR hw, sextOf, h]

theorem zextOf_eq (w : Nat) (a : Quad) : zextOf w a = (a.setWidth w).setWidth 64 := by
  apply BitVec.eq_of_toNat_eq
  simp [zextOf, BitVec.toNat_setWidth]

theorem toInt_eq_signed {w : Nat} (hw : 0 < w) (k : BitVec w) : signed w k.toNat = k.toInt := by
  have h2 := two_pow_succ_pred hw
  rw [signed_of_lt k.isLt, BitVec.toInt_eq_toNat_cond]
  split_ifs <;> omega

theorem setHigh_eq (d : Quad) (k : Int) : setHigh d k = (wrapR k).setWidth 32 ++ d.setWidth 32 := by
  apply BitVec.eq_of_toNat_eq
  rw [setHigh, BitVec.toNat_append, BitVec.toNat_setWidth, BitVec.toNat_setWidth, BitVec.toNat_ofNat,
    ← Nat.shiftLeft_add_eq_or_of_lt (Nat.mod_lt _ (by decide)), Nat.shiftLeft_eq]
  show _ = (quad k).toNat % 2 ^ 32 * 2 ^ 32 + d.toNat % 2 ^ 32
  omega

/-- As many of the first numbers have a property as come before the first that has not. -/
theorem length_takeWhile_range {p : Nat → Bool} {n k : Nat} (hk : k ≤ n) (hp : ∀ i < k, p i = true)
    (he : k = n ∨ p k = false) : ((List.range n).takeWhile p).length = k := by
  obtain ⟨m, rfl⟩ := Nat.exists_eq_add_of_le hk
  rw [List.range_add, List.takeWhile_append_of_pos (by simpa using hp)]
  cases m with
  | zero => simp
  | succ m =>
    have hf : p k = false := he.resolve_left (by omega)
    simp [List.range_succ_eq_map, hf]

theorem ctzOf_eq (a : Quad) : ctzOf a = ((List.range 64).takeWhile fun k => !a.getLsbD k).length := by
  unfold ctzOf
  cases hf : (List.range 64).find? fun i => a.getLsbD i with
  | none =>
    rw [List.find?_eq_none] at hf
    exact (length_takeWhile_range (Nat.le_refl 64) (fun i hi => by simpa using hf i (List.mem_range.2 hi)) (.inl rfl)).symm
  | some k =>
    rw [List.find?_range_eq_some] at hf
    obtain ⟨hk, hmem, hlow⟩ := hf
    exact (length_takeWhile_range (Nat.le_of_lt (List.mem_range.1 hmem)) hlow (.inr (by simp [hk]))).symm

theorem clzOf_eq (a : Quad) : clzOf a = ((List.range 64).takeWhile fun k => !a.getLsbD (63 - k)).length := by
  unfold clzOf
  by_cases ha : a = 0
  · rw [if_pos ha, ha]; decide
  · have hne : a.toNat ≠ 0 := fun h => ha (BitVec.eq_of_toNat_eq h)
    have hlog : Nat.log2 a.toNat < 64 := (Nat.log2_lt hne).2 a.isLt
    rw [if_neg ha]
    refine (length_takeWhile_range (by omega) (fun i hi => ?_) (.inr ?_)).symm
    · rw [Bool.not_eq_true']
      exact Nat.testBit_lt_two_pow (Nat.lt_of_lt_of_le Nat.lt_log2_self (Nat.pow_le_pow_right (by decide) (by omega)))
    · rw [show 63 - (63 - a.toNat.log2) = a.toNat.log2 by omega, Bool.not_eq_false']
      exact Nat.testBit_log2 hne

/-! ## Bit fields (R153) -/

theorem insertField_eq (d a : Quad) (pos n : Nat) : insertField d a pos n =
    (d &&& ~~~wrapR ((2 ^ n - 1) * 2 ^ pos)) ||| ((a <<< pos) &&& wrapR ((2 ^ n - 1) * 2 ^ pos)) := by
  have hpos : 1 ≤ 2 ^ n := Nat.one_le_two_pow
  have hmask : wrapR ((2 ^ n - 1) * 2 ^ pos) = quadN ((2 ^ n - 1) * 2 ^ pos) := by
    rw [quadN_eq_wrapR]; push_cast [hpos]; rfl
  rw [hmask, insertField]
  congr 1
  apply BitVec.eq_of_getLsbD_eq
  intro i hi
  simp only [BitVec.getLsbD_and, BitVec.getLsbD_ofNat, BitVec.getLsbD_shiftLeft, hi, decide_true, Bool.true_and,
    Nat.testBit_mul_two_pow, Nat.testBit_two_pow_sub_one, Nat.testBit_mod_two_pow]
  by_cases hp : pos ≤ i
  · by_cases hn : i - pos < n <;> simp [hp, hn, BitVec.getLsbD, Nat.not_lt.2 hp]
  · simp [hp]

theorem lea_eq (a b : Quad) (k : Nat) : a + b <<< k = wrapR (a.toNat + b.toNat * 2 ^ k) := by
  have h : (a.toNat + b.toNat * 2 ^ k : Int) = ((a.toNat + b.toNat * 2 ^ k : Nat) : Int) := by push_cast; rfl
  rw [h, ← quadN_eq_wrapR]
  apply BitVec.eq_of_toNat_eq
  simp [Nat.shiftLeft_eq]

/-! ## Conditions (R154) -/

theorem bit_eq_zero (n : BitVec 1) : (n == 0#1) = !(n == 1#1) := by revert n; decide

end Sys2Proof.Machine
end

section
/-! PROOFS. Instructions that are ready: the integer and predicate instructions and the reads of status complete with the
values of the tables and write nothing else (R145-R165). -/

namespace Sys2Proof.Machine

/-- What keeps an instruction from its own effect does not: it settles what its effect comes to. -/
theorem Ready.exec_eq {i : Instr} {s : State} (hr : Ready s i) {body : State → Res}
    (h : exec i s = issue (formOf i s) s body) : exec i s = .next (s.settleRes (formOf i s) (body s)) := by
  obtain ⟨hl, hb, hg⟩ := hr
  exact h.trans (issue_ready body hl hb hg)

/-- A ready instruction that writes one x register and pops no queue writes nothing else. -/
theorem Ready.writes_x {i : Instr} {s : State} (hr : Ready s i) {e} {f : Form} {d d' : Reg} {g : State → Quad}
    {v v' : Quad} (he : exec i s = e) (h : e = issue f s fun t => .ok (t.wx d (g t))) (hf : formOf i s = f)
    (hs : f.srcs = []) (hv : g s = v) (hd : some (d, v) = some (d', v')) :
    ∃ t, exec i s = .next t ∧ (d' ≠ 0 → t.rx d' = v') ∧ t.rx 0 = 0 ∧ WritesOnly d' s t := by
  obtain ⟨rfl, rfl⟩ := Prod.mk.inj (Option.some.inj hd)
  obtain ⟨hval, honly⟩ := State.retire_wx f s d v hs
  subst hf
  exact ⟨_, (hr.exec_eq (he.trans h)).trans (by rw [hv]; rfl), hval, rfl, honly⟩

/-- A ready integer instruction writes its x register and nothing else. -/
theorem Ready.writes_alu {i : Instr} {s : State} (hr : Ready s i) {e} {m : Mods} {r : List Reg} {d d' : Reg}
    {g : State → Quad} {v v' : Quad} (he : exec i s = e) (h : e = aluOp m d r s g)
    (hf : formOf i s = { mods := m, regs := d :: r }) (hv : g s = v) (hd : some (d, v) = some (d', v')) :
    ∃ t, exec i s = .next t ∧ (d' ≠ 0 → t.rx d' = v') ∧ t.rx 0 = 0 ∧ WritesOnly d' s t :=
  hr.writes_x he h hf rfl hv hd

/-- A ready compare or predicate instruction writes its predicate and nothing else. -/
theorem Ready.writes_pred {i : Instr} {s : State} (hr : Ready s i) {e} {m : Mods} {r : List Reg} {d d' : BitVec 3}
    {g : State → Bool} {v v' : Bool} (he : exec i s = e) (h : e = predOp m d r s g)
    (hf : formOf i s = { mods := m, cls := .commonXC, regs := r }) (hv : g s = v) (hd : some (d, v) = some (d', v')) :
    ∃ t, exec i s = .next t ∧ t.rp d' = v' ∧ WritesPredOnly d' s t := by
  obtain ⟨rfl, rfl⟩ := Prod.mk.inj (Option.some.inj hd)
  obtain ⟨hval, honly⟩ := State.retire_wp (formOf i s) s d v (by rw [hf])
  exact ⟨_, (hr.exec_eq (he.trans (h.trans (by rw [hf]; rfl)))).trans (by rw [hv]; rfl), hval, honly⟩

/-- Settles O16: instruction by instruction, the value of the model is the one of its table. -/
theorem integerResults : Obligations.IntegerResults := by
  intro i s d v h hr
  cases i with
  | add m d a b => exact hr.writes_alu (e := execAdd m d a b s) rfl rfl rfl (narrow_eq _ _) h
  | sub m d a b => exact hr.writes_alu (e := execSub m d a b s) rfl rfl rfl (narrow_eq _ _) h
  | mul m d a b => exact hr.writes_alu (e := execMul m d a b s) rfl rfl rfl (narrow_eq _ _) h
  | mulh m d a b => exact hr.writes_alu (e := execMulh m d a b s) rfl rfl rfl rfl h
  | mulhU m d a b => exact hr.writes_alu (e := execMulhU m d a b s) rfl rfl rfl (mulHighU_eq _ _) h
  | div m d a b => exact hr.writes_alu (e := execDiv m d a b s) rfl rfl rfl (divS_eq _ _) h
  | divU m d a b => exact hr.writes_alu (e := execDivU m d a b s) rfl rfl rfl (divU_eq _ _) h
  | rem m d a b => exact hr.writes_alu (e := execRem m d a b s) rfl rfl rfl (remS_eq _ _) h
  | remU m d a b => exact hr.writes_alu (e := execRemU m d a b s) rfl rfl rfl (remU_eq _ _) h
  | and m d a b => exact hr.writes_alu (e := execAnd m d a b s) rfl rfl rfl rfl h
  | or m d a b => exact hr.writes_alu (e := execOr m d a b s) rfl rfl rfl rfl h
  | xor m d a b => exact hr.writes_alu (e := execXor m d a b s) rfl rfl rfl rfl h
  | andn m d a b => exact hr.writes_alu (e := execAndn m d a b s) rfl rfl rfl rfl h
  | shl m d a b => exact hr.writes_alu (e := execShl m d a b s) rfl rfl rfl (shlOf_eq _ _) h
  | shr m d a b => exact hr.writes_alu (e := execShr m d a b s) rfl rfl rfl (shrOf_eq _ _) h
  | sra m d a b => exact hr.writes_alu (e := execSra m d a b s) rfl rfl rfl (sraOf_eq _ _) h
  | rot m d a b => exact hr.writes_alu (e := execRot m d a b s) rfl rfl rfl (rotateLeft_eq _ _) h
  | min m d a b => exact hr.writes_alu (e := execMin m d a b s) rfl rfl rfl (minS_eq _ _) h
  | minU m d a b => exact hr.writes_alu (e := execMinU m d a b s) rfl rfl rfl (minUns_eq _ _) h
  | max m d a b => exact hr.writes_alu (e := execMax m d a b s) rfl rfl rfl (maxS_eq _ _) h
  | maxU m d a b => exact hr.writes_alu (e := execMaxU m d a b s) rfl rfl rfl (maxUns_eq _ _) h
  | clz m d a => exact hr.writes_alu (e := execClz m d a s) rfl rfl rfl (by rw [quadN_eq_wrapR, clzOf_eq]) h
  | ctz m d a => exact hr.writes_alu (e := execCtz m d a s) rfl rfl rfl (by rw [quadN_eq_wrapR, ctzOf_eq]) h
  | popc m d a => exact hr.writes_alu (e := execPopc m d a s) rfl rfl rfl (quadN_eq_wrapR _) h
  | sextB m d a => exact hr.writes_alu (e := execSextB m d a s) rfl rfl rfl (sextOf_eq (by decide) _) h
  | sextH m d a => exact hr.writes_alu (e := execSextH m d a s) rfl rfl rfl (sextOf_eq (by decide) _) h
  | sextW m d a => exact hr.writes_alu (e := execSextW m d a s) rfl rfl rfl (sextOf_eq (by decide) _) h
  | zextB m d a => exact hr.writes_alu (e := execZextB m d a s) rfl rfl rfl (zextOf_eq 8 _) h
  | zextH m d a => exact hr.writes_alu (e := execZextH m d a s) rfl rfl rfl (zextOf_eq 16 _) h
  | zextW m d a => exact hr.writes_alu (e := execZextW m d a s) rfl rfl rfl (zextOf_eq 32 _) h
  | mov m d a => exact hr.writes_alu (e := execMov m d a s) rfl rfl rfl rfl h
  | addi m d a k => exact hr.writes_alu (e := execAddi m d a k s) rfl rfl rfl (narrow_eq _ _) h
  | andi m d a k => exact hr.writes_alu (e := execAndi m d a k s) rfl rfl rfl rfl h
  | ori m d a k => exact hr.writes_alu (e := execOri m d a k s) rfl rfl rfl rfl h
  | xori m d a k => exact hr.writes_alu (e := execXori m d a k s) rfl rfl rfl rfl h
  | shli m d a k => exact hr.writes_alu (e := execShli m d a k s) rfl rfl rfl (shli_eq _ k.isLt) h
  | shri m d a k => exact hr.writes_alu (e := execShri m d a k s) rfl rfl rfl (shri_eq _ k.isLt) h
  | srai m d a k => exact hr.writes_alu (e := execSrai m d a k s) rfl rfl rfl (srai_eq _ k.isLt) h
  | li m d k => exact hr.writes_alu (e := execLi m d k s) rfl rfl rfl rfl h
  | lih m d k => exact hr.writes_alu (e := execLih m d k s) rfl rfl rfl (setHigh_eq _ _) h
  | li64 m d k => exact hr.writes_alu (e := execLi64 m d k s) rfl rfl rfl (signExtend_eq_wrapR (by decide) k).symm h
  | madd m d a b c => exact hr.writes_alu (e := execMadd m d a b c s) rfl rfl rfl (narrow_eq _ _) h
  | sel m d a b n p =>
    exact hr.writes_x (e := execSel m d a b n p s) (g := fun t => if t.rp p == (n == 0#1) then t.rx a else t.rx b) rfl rfl rfl
      rfl (by rw [bit_eq_zero]; simp only [beq_iff_eq]) h
  | lea m d a b k => exact hr.writes_alu (e := execLea m d a b k s) rfl rfl rfl (lea_eq _ _ _) h
  | bext m d a n p => exact hr.writes_alu (e := execBext m d a n p s) rfl rfl rfl (quadN_eq_wrapR _) h
  | bextS m d a n p => exact hr.writes_alu (e := execBextS m d a n p s) rfl rfl rfl rfl h
  | bins m d a n p => exact hr.writes_alu (e := execBins m d a n p s) rfl rfl rfl (insertField_eq _ _ _ _) h
  | mov16 d a => exact hr.writes_alu (e := execMov16 d a s) rfl rfl rfl rfl h
  | addi16 d k => exact hr.writes_alu (e := execAddi16 d k s) rfl rfl rfl (by rw [toInt_eq_signed (by decide) k]; rfl) h
  | li16 d k => exact hr.writes_alu (e := execLi16 d k s) rfl rfl rfl (signExtend_eq_wrapR (by decide) k).symm h
  | add16 d a => exact hr.writes_alu (e := execAdd16 d a s) rfl rfl rfl rfl h
  | sub16 d a => exact hr.writes_alu (e := execSub16 d a s) rfl rfl rfl rfl h
  | and16 d a => exact hr.writes_alu (e := execAnd16 d a s) rfl rfl rfl rfl h
  | or16 d a => exact hr.writes_alu (e := execOr16 d a s) rfl rfl rfl rfl h
  | xor16 d a => exact hr.writes_alu (e := execXor16 d a s) rfl rfl rfl rfl h
  | shli16 d k => exact hr.writes_alu (e := execShli16 d k s) rfl rfl rfl (shli_eq _ (by omega)) h
  | shri16 d k => exact hr.writes_alu (e := execShri16 d k s) rfl rfl rfl (shri_eq _ (by omega)) h
  | srai16 d k => exact hr.writes_alu (e := execSrai16 d k s) rfl rfl rfl (srai_eq _ (by omega)) h
  | _ => cases h

/-- The outcome of each condition as its table gives it (R154). -/
theorem condHolds_cmp (m : Mods) (c : Cond) (p : BitVec 3) (a b : Reg) (s : State) :
    predResult (.cmp m c p a b) s = some (p, condHolds c (s.rx a) (s.rx b)) := by
  cases c <;> simp [predResult, condHolds] <;> grind

theorem condHolds_cmpi (m : Mods) (c : Cond) (p : BitVec 3) (a : Reg) (k : BitVec 8) (s : State) :
    predResult (.cmpi m c p a k) s = some (p, condHolds c (s.rx a) (quad (immS 8 k.toNat m))) := by
  cases c <;> simp [predResult, condHolds, quad, wrapR] <;> grind

/-- Settles O17: instruction by instruction, the new value of the predicate is the one of its table. -/
theorem predicateResults : Obligations.PredicateResults := by
  intro i s p b h hr
  cases i with
  | cmp m c d a b => exact hr.writes_pred (e := execCmp m c d a b s) rfl rfl rfl rfl ((condHolds_cmp ..).symm.trans h)
  | cmpi m c d a k => exact hr.writes_pred (e := execCmpi m c d a k s) rfl rfl rfl rfl ((condHolds_cmpi ..).symm.trans h)
  | pand m d a b => exact hr.writes_pred (e := execPand m d a b s) rfl rfl rfl rfl h
  | por m d a b => exact hr.writes_pred (e := execPor m d a b s) rfl rfl rfl rfl h
  | pxor m d a b => exact hr.writes_pred (e := execPxor m d a b s) rfl rfl rfl rfl h
  | pnot m d a => exact hr.writes_pred (e := execPnot m d a s) rfl rfl rfl rfl h
  | _ => cases h

end Sys2Proof.Machine
end

section
/-! PROOFS. The walk of the text: branches, block headers, and the instructions that move scalars, tokens and traps
(R43-R48, R156-R159, R186, R342, R343). -/

namespace Sys2Proof.Machine

/-- A ready instruction settles what its effect comes to, where its effect stands in a definition of its own. -/
theorem Ready.run {i : Instr} {s : State} (hr : Ready s i) {e} {f : Form} {body : State → Res} (he : exec i s = e)
    (h : e = issue f s body) (hf : formOf i s = f) : exec i s = .next (s.settleRes (formOf i s) (body s)) := by
  subst hf
  exact hr.exec_eq (he.trans h)

/-! ## Branches (R48, R156) -/

/-- What a branch comes to where it is taken: its target is checked, and `call` writes its link. -/
def State.branched (s : State) (i : Instr) (t : Int) : Res :=
  if branchLinks i then
    match s.branchTo t with
    | .jump d u => .jump d (u.wx 31 (quadN (match s.ce.blk with | some b => b.next | none => s.ce.pc)))
    | r => r
  else s.branchTo t

/-- A ready branch goes on, or goes to its target. -/
theorem Ready.branch {i : Instr} {s : State} {taken : Bool} {t : Int} (h : branchOf i s = some (taken, t)) (hr : Ready s i) :
    exec i s = .next (s.settleRes (formOf i s) (if taken then s.branched i t else .ok s)) := by
  cases i with
  | bra o =>
    obtain ⟨rfl, rfl⟩ := Prod.mk.inj (Option.some.inj h)
    refine (hr.run (e := execBra o s) rfl rfl rfl).trans ?_
    rw [State.branchBy, toInt_eq_signed (by decide)]; rfl
  | call o =>
    obtain ⟨rfl, rfl⟩ := Prod.mk.inj (Option.some.inj h)
    refine (hr.run (e := execCall o s) rfl rfl rfl).trans ?_
    rw [State.branchBy, toInt_eq_signed (by decide)]; rfl
  | bc p n o =>
    obtain ⟨rfl, rfl⟩ := Prod.mk.inj (Option.some.inj h)
    refine (hr.run (e := execBc p n o s) rfl rfl rfl).trans ?_
    rw [State.branchBy, toInt_eq_signed (by decide)]; rfl
  | bq n o =>
    obtain ⟨rfl, rfl⟩ := Prod.mk.inj (Option.some.inj h)
    refine (hr.run (e := execBq n o s) rfl rfl rfl).trans ?_
    rw [State.branchBy, toInt_eq_signed (by decide)]; rfl
  | bx a =>
    obtain ⟨rfl, rfl⟩ := Prod.mk.inj (Option.some.inj h)
    exact hr.run (e := execBx a s) rfl rfl rfl
  | ret =>
    obtain ⟨rfl, rfl⟩ := Prod.mk.inj (Option.some.inj h)
    exact hr.run (e := execRet s) rfl rfl rfl
  | _ => cases h

/-- The machine past a jump of its engine. -/
def State.jumped (s : State) (f : Form) (d : Nat) : State :=
  s.modMe fun c => ((c.issued s.cur.eng f).jump s.cur.eng d).wake

theorem State.jumped_cc (s : State) (f : Form) (d : Nat) :
    (s.jumped f d).cc = ((s.cc.issued s.cur.eng f).jump s.cur.eng d).wake := State.modMe_cc s _

theorem State.jumped_ce (s : State) (f : Form) (d : Nat) :
    (s.jumped f d).ce = { s.ce with pc := d, blk := none, issues := s.ce.issues + 1, stall := none } := by
  show (s.jumped f d).cc.eng s.cur.eng = _
  rw [State.jumped_cc, Ctx.wake_eng, Ctx.jump, Ctx.eng_modEng_same, Ctx.eng_issued, if_pos rfl]
  rfl

theorem State.jumped_eng (s : State) (f : Form) (d : Nat) {e : Eng} (he : e ≠ s.cur.eng) :
    ((s.jumped f d).cc.eng e).quiet = (s.cc.eng e).quiet := by
  rw [State.jumped_cc, Ctx.wake_eng, Ctx.jump, Ctx.eng_modEng_other _ _ he, Ctx.eng_issued, if_neg he]
  rfl

theorem State.jumped_still (s : State) (f : Form) (d : Nat) :
    Ctx.still (s.jumped f d).cc = Ctx.still (f.srcs.foldl Ctx.popQueue s.cc) := by
  rw [State.jumped_cc, Ctx.still_wake, Ctx.jump, Ctx.still_modEng, Ctx.still_issued]

theorem State.jumped_rx (s : State) (f : Form) (d : Nat) (r : Reg) : (s.jumped f d).rx r = s.rx r := by
  unfold State.rx; rw [State.jumped_ce]; rfl

theorem State.jumped_rp (s : State) (f : Form) (d : Nat) (n : BitVec 3) : (s.jumped f d).rp n = s.rp n := by
  unfold State.rp; rw [State.jumped_ce]

theorem Ctx.still_popQueue {c c' : Ctx} (h : Ctx.still c = Ctx.still c') (q : QEnd) :
    Ctx.still (c.popQueue q) = Ctx.still (c'.popQueue q) := by
  cases c; cases c'
  simp only [Ctx.still, Ctx.mk.injEq] at h
  cases q <;> simp_all [Ctx.still, Ctx.popQueue]

theorem Ctx.still_popQueues {c c' : Ctx} (h : Ctx.still c = Ctx.still c') (l : List QEnd) :
    Ctx.still (l.foldl Ctx.popQueue c) = Ctx.still (l.foldl Ctx.popQueue c') := by
  induction l generalizing c c' with
  | nil => exact h
  | cons q l ih => exact ih (Ctx.still_popQueue h q)

/-- The state whose engine alone has written one x register reads as before but for it. -/
theorem State.wx_ce (s : State) (d : Reg) (v : Quad) : (s.wx d v).ce = s.ce.wx d v := State.modCe_ce s _

theorem State.wx_cc (s : State) (d : Reg) (v : Quad) : (s.wx d v).cc = s.cc.modEng s.cur.eng fun e => e.wx d v :=
  State.modMe_cc s _

theorem State.rp_wx (s : State) (d : Reg) (v : Quad) (n : BitVec 3) : (s.wx d v).rp n = s.rp n := by
  unfold State.rp; rw [State.wx_ce]; unfold Engine.wx; split <;> rfl

/-- The target of a branch is a header: it is taken there. -/
theorem State.branchTo_header {s : State} {t : Int} (h : HeaderAt s t) : s.branchTo t = .jump t.toNat s := by
  obtain ⟨h0, ht, p, q, hp, h4, hm⟩ := h
  have hin : ¬(t < 0 ∨ (s.cr.textLen : Int) < 2 * (t + 2)) := by omega
  simp only [State.branchTo, State.checkTarget, if_neg hin, hp, h4, hm, and_self, if_true]

theorem State.branchTo_outside {s : State} {t : Int} (h : t < 0 ∨ (s.cr.textLen : Int) < 2 * (t + 2)) :
    s.branchTo t = .trap .illop 0 0 s := by
  simp only [State.branchTo, State.checkTarget, if_pos h]

section
variable {s : State} {t : Int} (h0 : 0 ≤ t) (ht : 2 * (t + 2) ≤ (s.cr.textLen : Int))
include h0 ht

theorem State.branchTo_noHeader {p q} (hp : s.parcels s.me s.cur.eng false t.toNat 2 = .ok (p :: q))
    (hh : ¬(p.toNat % 4 = 1 ∧ p.toNat / 4 % 64 = 0)) : s.branchTo t = .trap .illop 0 0 s := by
  have hin : ¬(t < 0 ∨ (s.cr.textLen : Int) < 2 * (t + 2)) := by omega
  simp only [State.branchTo, State.checkTarget, if_neg hin, hp, if_neg hh]

theorem State.branchTo_fault {c va} (hp : s.parcels s.me s.cur.eng false t.toNat 2 = .fault c va) :
    s.branchTo t = .trap c va 0 s := by
  have hin : ¬(t < 0 ∨ (s.cr.textLen : Int) < 2 * (t + 2)) := by omega
  simp only [State.branchTo, State.checkTarget, if_neg hin, hp]

theorem State.branchTo_miss {va} (hp : s.parcels s.me s.cur.eng false t.toNat 2 = .miss va) :
    s.branchTo t = s.missStall va := by
  have hin : ¬(t < 0 ∨ (s.cr.textLen : Int) < 2 * (t + 2)) := by omega
  simp only [State.branchTo, State.checkTarget, if_neg hin, hp]

end

/-- A branch that does not jump does nothing to its link. -/
theorem State.branched_of_trap {s : State} {i : Instr} {t : Int} {c a n u} (h : s.branchTo t = .trap c a n u) :
    s.branched i t = .trap c a n u := by
  unfold State.branched; rw [h]; split <;> rfl

theorem State.branched_of_stall {s : State} {i : Instr} {t : Int} {w u} (h : s.branchTo t = .stall w u) :
    s.branched i t = .stall w u := by
  unfold State.branched; rw [h]; split <;> rfl

/-- Settles O18: what each outcome of the check of a target comes to. -/
theorem branchesGoToTheirTarget : Obligations.BranchesGoToTheirTarget := by
  intro i s taken t h hr
  have hrun := hr.branch h
  refine ⟨?_, ?_, ?_, ?_⟩
  · rintro rfl; exact hrun
  · rintro rfl hh
    have hto := State.branchTo_header hh
    have hb : s.branched i t = .jump t.toNat
        (if branchLinks i then s.wx 31 (quadN (match s.ce.blk with | some b => b.next | none => s.ce.pc)) else s) := by
      unfold State.branched; rw [hto]; split <;> rfl
    rw [if_pos rfl, hb] at hrun
    refine ⟨_, hrun, ?_⟩
    show ((State.jumped _ (formOf i s) t.toNat).ce.pc = _ ∧ (State.jumped _ (formOf i s) t.toNat).ce.blk = _ ∧ _)
    split
    · next hl =>
      set v : Quad := quadN (match s.ce.blk with | some b => b.next | none => s.ce.pc) with hv
      refine ⟨by rw [State.jumped_ce], by rw [State.jumped_ce], fun r hr31 => ?_, fun _ b hblk => ?_, fun n => ?_,
        rfl, fun k hk => ?_, fun e he => ?_, ?_⟩
      · have hne : r ≠ 31 := hr31.resolve_right (by simp [hl])
        exact (State.jumped_rx _ _ _ r).trans (by rw [State.rx_wx, if_neg fun x => hne x.1])
      · exact (State.jumped_rx _ _ _ 31).trans (by rw [State.rx_wx, if_pos ⟨rfl, by decide⟩, hv, hblk])
      · exact (State.jumped_rp _ _ _ n).trans (State.rp_wx s 31 v n)
      · exact (State.sameOthers_modMe (s.wx 31 v) _ k hk).trans (State.ctx_modCtx_other s _ hk)
      · exact (State.jumped_eng (s.wx 31 v) _ _ he).trans (by rw [State.wx_cc, Ctx.eng_modEng_other _ _ he])
      · exact (State.jumped_still (s.wx 31 v) _ _).trans
          (Ctx.still_popQueues (by rw [State.wx_cc, Ctx.still_modEng]) _)
    · next hl =>
      exact ⟨by rw [State.jumped_ce], by rw [State.jumped_ce], fun r _ => State.jumped_rx s _ _ r,
        fun hl' => absurd hl' hl, fun n => State.jumped_rp s _ _ n, State.sameMachine_modMe _ _, State.sameOthers_modMe _ _,
        fun e he => State.jumped_eng s _ _ he, State.jumped_still s _ _⟩
  · rintro rfl hout
    rw [if_pos rfl, State.branched_of_trap (State.branchTo_outside hout)] at hrun
    exact hrun
  · rintro rfl h0 ht
    rw [if_pos rfl] at hrun
    refine ⟨fun p q hp hh => ?_, fun c va hp => ?_, fun va hp => ?_⟩
    · rw [State.branched_of_trap (State.branchTo_noHeader h0 ht hp hh)] at hrun; exact hrun
    · rw [State.branched_of_trap (State.branchTo_fault h0 ht hp)] at hrun; exact hrun
    · rw [State.branched_of_stall (State.branchTo_miss h0 ht hp)] at hrun; exact hrun

end Sys2Proof.Machine
end

section
/-! PROOFS. Block headers, and the instructions that move scalars, tokens and traps (R43-R47, R157-R159, R186, R342, R343). -/

namespace Sys2Proof.Machine

/-! ## Block headers (R25, R27, R43-R45) -/

/-- A header enters its block with the count that it gives, or waits for the register of the count. -/
theorem exec_header {i : Instr} {s : State} {n : Nat} {body : BitVec 12} {mask : BitVec 4}
    (h : headerCount i s = some (n, body, mask)) :
    exec i s = .next (if !s.headerBad body mask && headerWaits i s then s.stallHere .result else s.enterBlock body mask n) := by
  cases i with
  | blockHeader rep b m =>
    obtain ⟨rfl, hp⟩ := Prod.mk.inj (Option.some.inj h)
    obtain ⟨rfl, rfl⟩ := Prod.mk.inj hp
    rw [show headerWaits (.blockHeader rep b m) s = false from rfl, Bool.and_false, if_neg Bool.false_ne_true]
    rfl
  | blockHeaderReg r b m =>
    obtain ⟨rfl, hp⟩ := Prod.mk.inj (Option.some.inj h)
    obtain ⟨rfl, rfl⟩ := Prod.mk.inj hp
    rw [show headerWaits (.blockHeaderReg r b m) s = (maskHas m s.cur.eng && s.resultPending [r]) from rfl, ← Bool.and_assoc]
    rfl
  | _ => cases h

theorem State.headerBad_iff (s : State) (body : BitVec 12) (mask : BitVec 4) :
    s.headerBad body mask = true ↔ body = 0 ∨ mask = 0 ∨ s.cr.textLen < 2 * (s.ce.pc + 2 + body.toNat) := by
  simp [State.headerBad, or_assoc]

/-- The engine has noted its visit of a header. -/
def State.visited (s : State) : State := s.modCe fun e => { e with visits := s.ce.pc :: e.visits, stall := none }

theorem State.visited_ce (s : State) : s.visited.ce = { s.ce with visits := s.ce.pc :: s.ce.visits, stall := none } :=
  State.modCe_ce s _

theorem State.visited_cc (s : State) :
    s.visited.cc = s.cc.modEng s.cur.eng fun e => { e with visits := s.ce.pc :: e.visits, stall := none } := State.modCe_cc s _

theorem State.visited_eng (s : State) {e : Eng} (he : e ≠ s.cur.eng) : s.visited.cc.eng e = s.cc.eng e := by
  rw [State.visited_cc, Ctx.eng_modEng_other _ _ he]

/-- A visit of its header does not move the slip window of an engine. -/
theorem State.visited_windowOpen (s : State) (h : Nat) (mask : BitVec 4) :
    s.visited.cc.windowOpen s.cur.eng h mask = s.cc.windowOpen s.cur.eng h mask := by
  have hbegun : (s.visited.cc.eng s.cur.eng).begun h = (s.cc.eng s.cur.eng).begun h := by
    rw [State.visited_cc, Ctx.eng_modEng_same]; rfl
  refine List.all_congr rfl fun f => ?_
  by_cases hf : f = s.cur.eng
  · simp [hf]
  · have hwin : s.visited.cc.window = s.cc.window := by rw [State.visited_cc]; rfl
    rw [State.visited_eng s hf, hbegun, hwin]

theorem State.enterBlock_bad {s : State} {body : BitVec 12} {mask : BitVec 4} (n : Nat) (h : s.headerBad body mask = true) :
    s.enterBlock body mask n = s.trapHere .illop := by
  simp only [State.enterBlock, h, if_true]

/-- What every engine keeps as it passes a header. -/
def HeaderFrame (s u : State) : Prop :=
  SameMachine s u ∧ SameOthers s u ∧ Ctx.still u.cc = Ctx.still s.cc ∧
  (∀ e, e ≠ s.cur.eng → (u.cc.eng e).quiet = (s.cc.eng e).quiet) ∧ (∀ r, u.rx r = s.rx r) ∧ (∀ r, u.rp r = s.rp r) ∧
  u.ce.visits = s.ce.pc :: s.ce.visits

/-- A change of the context of a visited header keeps the frame where it keeps that of the engines. -/
theorem HeaderFrame.of_modMe {s : State} {f : Ctx → Ctx} (hs : Ctx.still (f s.visited.cc) = Ctx.still s.visited.cc)
    (ho : ∀ e, e ≠ s.cur.eng → ((f s.visited.cc).eng e).quiet = (s.visited.cc.eng e).quiet)
    (hx : ((f s.visited.cc).eng s.cur.eng).x = s.visited.ce.x) (hp : ((f s.visited.cc).eng s.cur.eng).p = s.visited.ce.p)
    (hv : ((f s.visited.cc).eng s.cur.eng).visits = s.visited.ce.visits) : HeaderFrame s (s.visited.modMe f) := by
  have hcc : (s.visited.modMe f).cc = f s.visited.cc := State.modMe_cc _ f
  have hce : (s.visited.modMe f).ce = (f s.visited.cc).eng s.cur.eng := congrArg (fun c => Ctx.eng c s.cur.eng) hcc
  refine ⟨rfl, fun k hk => ?_, ?_, fun e he => ?_, fun r => ?_, fun r => ?_, ?_⟩
  · exact (State.ctx_modCtx_other s.visited f hk).trans (State.ctx_modCtx_other s _ hk)
  · rw [hcc, hs, State.visited_cc, Ctx.still_modEng]
  · rw [hcc, ho e he, State.visited_eng s he]
  · unfold State.rx Engine.rx; rw [hce, hx, State.visited_ce]
  · unfold State.rp; rw [hce, hp, State.visited_ce]
  · rw [hce, hv, State.visited_ce]

section
variable {s : State} {body : BitVec 12} {mask : BitVec 4} {n : Nat}

/-- An engine that the mask does not tag, or whose count is 0, goes to the header after the block. -/
theorem State.enterBlock_passes (hb : s.headerBad body mask = false) (h : maskHas mask s.cur.eng = false ∨ n = 0) :
    HeaderFrame s (s.enterBlock body mask n) ∧ (s.enterBlock body mask n).ce.pc = s.ce.pc + 2 + body.toNat ∧
    (s.enterBlock body mask n).ce.blk = none := by
  have hc : (!maskHas mask s.cur.eng || n == 0) = true := by simpa using h
  have he : s.enterBlock body mask n = s.visited.modMe fun c => (c.jump s.cur.eng (s.ce.pc + 2 + body.toNat)).wake := by
    simp only [State.enterBlock, hb, if_neg Bool.false_ne_true, hc, if_true]; rfl
  have heng : ((s.visited.cc.jump s.cur.eng (s.ce.pc + 2 + body.toNat)).wake).eng s.cur.eng =
      { s.visited.ce with pc := s.ce.pc + 2 + body.toNat, blk := none, stall := none } := by
    rw [Ctx.wake_eng, Ctx.jump, Ctx.eng_modEng_same]; rfl
  have hce : (s.enterBlock body mask n).ce = { s.visited.ce with pc := s.ce.pc + 2 + body.toNat, blk := none, stall := none } := by
    rw [he]; exact (congrArg (fun c => Ctx.eng c s.cur.eng) (State.modMe_cc s.visited _)).trans heng
  refine ⟨?_, by rw [hce], by rw [hce]⟩
  rw [he]
  refine HeaderFrame.of_modMe (by rw [Ctx.still_wake, Ctx.jump, Ctx.still_modEng]) (fun e h => ?_) ?_ ?_ ?_
  · rw [Ctx.wake_eng, Ctx.jump, Ctx.eng_modEng_other _ _ h]; rfl
  all_goals rw [heng]

section
variable (hb : s.headerBad body mask = false) (ht : maskHas mask s.cur.eng = true) (hn : n ≠ 0)
include hb ht hn

theorem State.enterBlock_tries :
    s.enterBlock body mask n = s.visited.tryInstance
      { head := s.ce.pc, next := s.ce.pc + 2 + body.toNat, left := n - 1, begun := false, mask := mask } := by
  have hc : (!maskHas mask s.cur.eng || n == 0) = false := by simp [ht, hn]
  simp only [State.enterBlock, hb, if_neg Bool.false_ne_true, hc]; rfl

/-- A tagged engine begins the first of its instances where the window is open. -/
theorem State.enterBlock_begins (hw : s.cc.windowOpen s.cur.eng s.ce.pc mask = true) :
    HeaderFrame s (s.enterBlock body mask n) ∧ (s.enterBlock body mask n).ce.pc = s.ce.pc + 2 ∧
    (s.enterBlock body mask n).ce.begun s.ce.pc = s.ce.begun s.ce.pc + 1 ∧
    (s.enterBlock body mask n).ce.blk =
      some { head := s.ce.pc, next := s.ce.pc + 2 + body.toNat, left := n - 1, begun := true, mask := mask } := by
  set b : Blk := { head := s.ce.pc, next := s.ce.pc + 2 + body.toNat, left := n - 1, begun := false, mask := mask }
  have hw' : s.visited.cc.windowOpen s.cur.eng b.head b.mask = true := (State.visited_windowOpen s _ _).trans hw
  have he : s.enterBlock body mask n = s.visited.modMe fun c => c.beginInstance s.cur.eng b := by
    rw [State.enterBlock_tries hb ht hn]
    exact if_pos hw'
  have heng := Ctx.eng_beginInstance_open hw'
  have hce : (s.enterBlock body mask n).ce = (s.visited.cc.beginInstance s.cur.eng b).eng s.cur.eng := by
    rw [he]; exact congrArg (fun c => Ctx.eng c s.cur.eng) (State.modMe_cc s.visited _)
  rw [heng] at hce
  have hbegun : s.visited.ce.begun s.ce.pc = s.ce.begun s.ce.pc := by rw [State.visited_ce]; rfl
  refine ⟨?_, by rw [hce]; rfl, ?_, by rw [hce]; rfl⟩
  · rw [he]
    refine HeaderFrame.of_modMe (Ctx.still_beginInstance _ _ _) (fun e h => ?_) (by rw [heng]; rfl) (by rw [heng]; rfl)
      (by rw [heng]; rfl)
    rw [Ctx.beginInstance, if_pos hw', Ctx.wake_eng, Ctx.eng_modEng_other _ _ h]; rfl
  · rw [hce, ← hbegun]
    show tget 0 (tput _ s.ce.pc _) s.ce.pc = _
    rw [tget_tput, if_pos rfl]; rfl

/-- A tagged engine waits at the header while the window is closed. -/
theorem State.enterBlock_waits (hw : s.cc.windowOpen s.cur.eng s.ce.pc mask = false) :
    HeaderFrame s (s.enterBlock body mask n) ∧ (s.enterBlock body mask n).ce.pc = s.ce.pc ∧
    (s.enterBlock body mask n).ce.begun s.ce.pc = s.ce.begun s.ce.pc ∧
    (s.enterBlock body mask n).ce.stall = some .window ∧ (s.enterBlock body mask n).ce.blk =
      some { head := s.ce.pc, next := s.ce.pc + 2 + body.toNat, left := n - 1, begun := false, mask := mask } := by
  set b : Blk := { head := s.ce.pc, next := s.ce.pc + 2 + body.toNat, left := n - 1, begun := false, mask := mask }
  have hw' : s.visited.cc.windowOpen s.cur.eng b.head b.mask = false := (State.visited_windowOpen s _ _).trans hw
  have he : s.enterBlock body mask n = (s.visited.modMe fun c => c.beginInstance s.cur.eng b).stallHere .window := by
    rw [State.enterBlock_tries hb ht hn]
    exact if_neg (Bool.eq_false_iff.1 hw')
  set v := s.visited.modMe fun c => c.beginInstance s.cur.eng b
  have heng := Ctx.eng_beginInstance_closed hw'
  have hvcc : v.cc = s.visited.cc.beginInstance s.cur.eng b := State.modMe_cc s.visited _
  have hvce : v.ce = _ := (congrArg (fun c => Ctx.eng c s.cur.eng) hvcc).trans heng
  have hframe : HeaderFrame s v := by
    refine HeaderFrame.of_modMe (Ctx.still_beginInstance _ _ _) (fun e h => ?_) (by rw [heng]; rfl) (by rw [heng]; rfl)
      (by rw [heng]; rfl)
    rw [Ctx.beginInstance, if_neg (by rw [hw']; exact Bool.false_ne_true), Ctx.eng_modEng_other _ _ h]
  have hce : (v.stallHere .window).ce = { v.ce with stall := some .window } := State.modCe_ce v _
  have hcc : (v.stallHere .window).cc = v.cc.modEng s.cur.eng _ := State.modCe_cc v _
  rw [he]
  obtain ⟨-, hothers, hstill, hengs, hrx, hrp, hvis⟩ := hframe
  refine ⟨⟨rfl, fun k hk => ?_, by rw [hcc, Ctx.still_modEng, hstill], fun e h => ?_, fun r => ?_, fun r => ?_, ?_⟩,
    by rw [hce, hvce], ?_, by rw [hce], by rw [hce, hvce]⟩
  · exact (State.ctx_modCtx_other v _ hk).trans (hothers k hk)
  · rw [hcc, Ctx.eng_modEng_other _ _ h, hengs e h]
  · rw [← hrx r]; unfold State.rx; rw [hce]; rfl
  · rw [← hrp r]; unfold State.rp; rw [hce]
  · rw [hce, hvis]
  · rw [hce, hvce, show s.visited.cc.eng s.cur.eng = s.visited.ce from rfl, State.visited_ce]; rfl

end

end

/-- Settles O19: a header fails its checks, waits for its count, or is passed in one of the three ways. -/
theorem blockHeaderEntersItsBlock : Obligations.BlockHeaderEntersItsBlock := by
  intro i s n body mask h
  dsimp only
  have hexec := exec_header h
  refine ⟨fun hbad => ?_, fun hb0 hm0 hlen hwait => ?_, fun hb0 hm0 hlen hwait => ?_⟩
  · have hbad' := (State.headerBad_iff s body mask).2 hbad
    rw [hexec, hbad', Bool.not_true, Bool.false_and, if_neg Bool.false_ne_true, State.enterBlock_bad n hbad']
  all_goals
    have hok : s.headerBad body mask = false := by
      refine Bool.eq_false_iff.2 fun hx => ?_
      rcases (State.headerBad_iff s body mask).1 hx with hx | hx | hx
      exacts [hb0 hx, hm0 hx, absurd hx (Nat.not_lt.2 hlen)]
  · rw [hexec, hok, hwait, Bool.not_false, Bool.true_and, if_pos rfl]
  · rw [hexec, hok, hwait, Bool.and_false, if_neg Bool.false_ne_true]
    have hpass := State.enterBlock_passes (n := n) hok
    have hbegin := State.enterBlock_begins (n := n) hok
    have hwaits := State.enterBlock_waits (n := n) hok
    have hframe : HeaderFrame s (s.enterBlock body mask n) := by
      by_cases hpassing : maskHas mask s.cur.eng = false ∨ n = 0
      · exact (hpass hpassing).1
      · obtain ⟨ht, hn⟩ := not_or.1 hpassing
        rw [Bool.not_eq_false] at ht
        cases hw : s.cc.windowOpen s.cur.eng s.ce.pc mask
        · exact (hwaits ht hn hw).1
        · exact (hbegin ht hn hw).1
    obtain ⟨hm, ho, hs, he, hx, hp, hv⟩ := hframe
    exact ⟨_, rfl, hm, ho, hs, he, hx, hp, hv, fun h => (hpass h).2, fun ht hn hw => (hbegin ht hn hw).2,
      fun ht hn hw => (hwaits ht hn hw).2⟩

/-! ## Scalars, tokens and traps (R64, R157-R159, R186, R342, R343) -/

/-- Settles O20: each of the five effects at its place. -/
theorem nopsAndScalarsBetweenEngines : Obligations.NopsAndScalarsBetweenEngines := by
  intro s m p e k r
  refine ⟨fun hr => hr.run (e := execNop16 s) rfl rfl rfl, fun hr => hr.run (e := execNop s) rfl rfl rfl, fun hr => ?_,
    fun hr => ?_, fun hr => hr.run (e := execXrecv m r s) rfl rfl rfl⟩
  · refine (hr.run (e := execBcast p e k s) rfl rfl rfl).trans ?_
    split <;> rfl
  · refine (hr.run (e := execXsend m e r s) rfl rfl rfl).trans ?_
    split <;> rfl

/-- Settles O21: the checks of each instruction in their order. -/
theorem tokenInstructions : Obligations.TokenInstructions := by
  intro s n
  refine ⟨fun hr => (hr.run (e := execTkpush n s) rfl rfl rfl).trans ?_,
    fun hr => (hr.run (e := execTkpop n s) rfl rfl rfl).trans ?_⟩
  all_goals
    simp only [Bool.not_eq_eq_eq_not, Bool.not_true]
    repeat' split
    all_goals rfl

/-- Settles O22: each trap carries its own mark. -/
theorem softwareTraps : Obligations.SoftwareTraps := by
  intro s m k a b
  refine ⟨fun hr => hr.run (e := execHalt s) rfl rfl rfl, fun hr => hr.run (e := execTrap m k s) rfl rfl rfl,
    fun hr => (hr.run (e := execChk m a b s) rfl rfl rfl).trans ?_, fun hr => hr.run (e := execTabort m s) rfl rfl rfl⟩
  dsimp only; split <;> rfl

/-! ## Special registers, identity and time (R161-R165, R235, R344) -/

/-- The numbers that name special registers (R161). -/
theorem sprOfCode_eq (n : Nat) : sprOfCode n =
    if n = 1 then some .ctlWindow else if n = 2 then some .ctlSplit else if n = 3 then some .ctlRound
    else if n = 4 then some .ctlPoison else if n = 5 then some .ctlPrio else if n = 6 then some .ctlAsid
    else if n = 16 then some .statTask else if n = 17 then some .statStall else if n = 18 then some .tagmap
    else if n = 32 then some .slotPlan else none := by
  unfold sprOfCode
  split
  all_goals first | rfl | simp_all

theorem sprWord_eq (n : Nat) (s : State) : sprWord n s = (sprOfCode n).map s.readSpr := by
  have hround : quadN s.cc.round.toNat = s.cc.round.setWidth 64 := BitVec.eq_of_toNat_eq (by
    simp [quadN])
  have hpol : (if s.cc.pol then 1 else 0) = quadN s.cc.pol.toNat := by cases s.cc.pol <;> rfl
  rw [sprOfCode_eq, sprWord, hround, hpol, Nat.mul_comm 16, Nat.mul_comm 65536]
  simp only [apply_ite (Option.map s.readSpr)]
  rfl

/-- The own effect of a write of a special register. -/
def sprRes (n : Nat) (v : Quad) (s : State) : Res :=
  match sprWrite n v s with
  | none => .trap .illop 0 0 s
  | some (u, none) => .ok u
  | some (u, some w) => .wait w u

theorem windowStored_eq (v : Quad) :
    windowStored v = if v.toNat % 128 = 0 then 1 else if 64 < v.toNat % 128 then 64 else v.toNat % 128 := by
  unfold windowStored
  dsimp only
  split_ifs <;> omega

theorem roundStored_eq (v : Quad) : roundStored v = if 4 < v.toNat % 8 then 0 else v.setWidth 3 := by
  have hw : BitVec.ofNat 3 v.toNat = v.setWidth 3 := BitVec.eq_of_toNat_eq (by simp)
  unfold roundStored
  rw [hw]
  split_ifs <;> first | rfl | omega

/-- The write of each register changes the fields that the rules give. -/
theorem writeSpr_eq (n : Nat) (v : Quad) (s : State) :
    (match sprOfCode n with | some r => s.writeSpr r v | none => .trap .illop 0 0 s) = sprRes n v s := by
  have h63 : bits v.toNat 63 48 = v.toNat / 2 ^ 48 := Nat.mod_eq_of_lt (by have := v.isLt; omega)
  have hstall : s.writeSpr .statStall v = .ok (s.modCe fun e =>
      { e with queue := v.toNat / 2 ^ 48, memq := v.toNat / 2 ^ 32 % 2 ^ 16,
               window := v.toNat / 2 ^ 16 % 2 ^ 16, arb := v.toNat % 2 ^ 16 }) := by
    rw [← h63]
    simp only [State.writeSpr, bits, Nat.pow_zero, Nat.div_one, Nat.reduceAdd, Nat.reduceSub, Nat.reducePow]
  rw [sprOfCode_eq]
  unfold sprRes sprWrite
  dsimp only
  by_cases h1 : n = 1
  · simp only [h1, if_true, State.writeSpr, windowStored_eq]
  by_cases h2 : n = 2
  · subst h2; rfl
  by_cases h3 : n = 3
  · subst h3; simp only [State.writeSpr, roundStored_eq]; rfl
  by_cases h4 : n = 4
  · subst h4; rfl
  by_cases h5 : n = 5
  · subst h5; rfl
  by_cases h6 : n = 6
  · subst h6; rfl
  by_cases h16 : n = 16
  · subst h16; rfl
  by_cases h17 : n = 17
  · subst h17; exact hstall
  by_cases h18 : n = 18
  · subst h18; rfl
  by_cases h32 : n = 32
  · subst h32; rfl
  simp only [h1, h2, h3, h4, h5, h6, h16, h17, h18, h32, if_false, or_self]

/-- Settles O23: each word that the model reads is the one of its table. -/
theorem statusReads : Obligations.StatusReads := by
  intro i s d v h hr
  cases i with
  | mfs m r n =>
    have hn : (sprWord n.toNat s).map (fun v => (r, v)) = some (d, v) := h
    rw [sprWord_eq] at hn
    cases hc : sprOfCode n.toNat with
    | none => rw [hc] at hn; cases hn
    | some q =>
      rw [hc] at hn
      have hbody : execMfs m r n s = issue { mods := m, regs := [r] } s fun t => .ok (t.wx r (t.readSpr q)) := by
        unfold execMfs; rw [hc]
      exact hr.writes_x (e := execMfs m r n s) rfl hbody rfl rfl rfl hn
  | feat m r n =>
    refine hr.writes_alu (e := execFeat m r n s) rfl rfl rfl ?_ h
    show quadN (s.featWord n.toNat) = _
    unfold State.featWord
    split <;> simp_all [quadN]
  | clock m r => exact hr.writes_alu (e := execClock m r s) rfl rfl rfl rfl h
  | roleid m r n => exact hr.writes_alu (e := execRoleid m r n s) rfl rfl rfl rfl h
  | tstat m r k =>
    refine hr.writes_x (e := execTstat m r k s) (g := fun t => quadN (match k.toNat with
      | 0 => t.cc.taskid % 2 ^ 32
      | 1 => min 255 t.cc.item.attempt
      | 2 => t.cr.faults
      | _ => t.cr.traps.length)) rfl rfl rfl rfl ?_ h
    have hk : ∀ k : BitVec 2, k = 0 ∨ k = 1 ∨ k = 2 ∨ k = 3 := by decide
    rcases hk k with rfl | rfl | rfl | rfl <;> rfl
  | _ => cases h

/-- Settles O24: the effect of a write settles as its wait, its fault or its change. -/
theorem specialRegisterWrites : Obligations.SpecialRegisterWrites := by
  intro s m a d n
  refine ⟨fun hr => ?_, fun hr hn => ?_⟩
  · refine (hr.run (e := execMts m a n s) rfl rfl rfl).trans ?_
    refine (congrArg (fun r => Host.Outcome.next (s.settleRes _ r)) (writeSpr_eq n.toNat (s.rx a) s)).trans ?_
    unfold sprRes
    rcases sprWrite n.toNat (s.rx a) s with _ | ⟨u, _ | w⟩ <;> rfl
  · refine (hr.run (e := execMfs m d n s) rfl rfl rfl).trans ?_
    have hc : sprOfCode n.toNat = none := by rw [sprWord_eq] at hn; simpa using hn
    rw [hc]; rfl

end Sys2Proof.Machine
end

section
/-! PROOFS. The checks of an address, and how loads, stores, gathers and scatters enter their queues (R113, R132, R136,
R166-R174). -/

namespace Sys2Proof.Machine

/-! ## Two changes of one entry or one context -/

theorem tput_tput {α : Type} (t : Tab α) (k : Nat) (v w : α) : tput (tput t k v) k w = tput t k w := by
  induction t with
  | nil => simp [tput]
  | cons p r ih =>
    obtain ⟨j, x⟩ := p
    by_cases h1 : k < j
    · simp [tput, h1]
    · by_cases h2 : k = j
      · simp [tput, h2]
      · simp [tput, h1, h2, ih]

theorem State.modCtx_modCtx (s : State) (k : Nat) (f g : Ctx → Ctx) :
    (s.modCtx k f).modCtx k g = s.modCtx k fun c => g (f c) := by
  unfold State.modCtx
  rw [State.ctx_setCtx_same]
  unfold State.setCtx
  dsimp only
  rw [tput_tput]

theorem State.modMe_modMe (s : State) (f g : Ctx → Ctx) : (s.modMe f).modMe g = s.modMe fun c => g (f c) :=
  State.modCtx_modCtx s s.me f g

/-! ## The checks of an address (R113, R166) -/

/-- A task on core 0 whose peer of role 1, core 1, changes the size of its scratchpad from nothing. -/
def resizingPeer : State :=
  { ctxs := [(0, { st := .run, regid := 1 })], cores := [(1, { spad := 0, splitting := true })],
    regions := [(1, { regid := 1, live := true, trellis := [{ core := [0, 1] }] })] }

/-- Refutes O25: while a peer's `ctl.split` changes its scratchpad, an offset beyond it enters as a part, and is checked as the
access performs; the byte at offset 0 of the peer of role 1, whose scratchpad is empty, is no PROT. -/
theorem not_addressChecks : ¬ Obligations.AddressChecks := by
  intro h
  obtain ⟨-, h⟩ := h resizingPeer false 1 (2 ^ 32) 1
  obtain ⟨-, -, -, hpeer, -⟩ := h (by decide)
  exact absurd (hpeer 1 (by decide +kernel) (by decide +kernel)) (by decide +kernel)

/-! ## How an access begins (R106, R168) -/

section
variable {s : State} {inL inS : Bool} {r : Reach} {go : List Part → Res}

theorem State.begin_full (h : (s.core s.cur.core).splitting = false) (hq : s.cc.roomFor inL inS = false) :
    s.begin inL inS r go = .stall .memq s := by
  simp [State.begin, h, hq]

section
variable (h : s.mayEnter inL inS)
include h

theorem State.begin_ok (ps : List Part) : s.begin inL inS (.ok ps) go = go ps := by
  obtain ⟨hs, hq⟩ := h
  simp only [State.begin, hs, hq, Bool.and_false, Bool.not_true, if_neg Bool.false_ne_true]

theorem State.begin_fault (c : Code) (a : Nat) : s.begin inL inS (.fault c a) go = .trap c a 0 s := by
  obtain ⟨hs, hq⟩ := h
  simp only [State.begin, hs, hq, Bool.and_false, Bool.not_true, if_neg Bool.false_ne_true]

theorem State.begin_miss (a : Nat) : s.begin inL inS (.miss a) go = s.missStall a := by
  obtain ⟨hs, hq⟩ := h
  simp only [State.begin, hs, hq, Bool.and_false, Bool.not_true, if_neg Bool.false_ne_true]

end

end

section
variable {s : State} {m : Mods} {sp : Space} {r : Reach} {kind : AccKind} {n : Nat} {data : List Byte}

theorem State.startLoad_waits (h : sp = .l ∧ s.issuedBefore s.me s.cur.eng s.pos decLocalStore = false) :
    s.startLoad m sp r kind n = .stall .order s := by
  simp only [State.startLoad]
  rw [if_pos ⟨h.1, by simp [h.2]⟩]

theorem State.startLoad_begins (h : sp = .l → s.issuedBefore s.me s.cur.eng s.pos decLocalStore = true) :
    s.startLoad m sp r kind n =
      s.begin true false r fun ps => .later (s.enter (s.access m true false kind ps (List.replicate n 0))) := by
  simp only [State.startLoad]
  rw [if_neg fun x => by simp [h x.1] at x]

theorem State.startStore_waits (h : sp = .l ∧ 16 ≤ s.cc.pruneFwd.fwdHeld) : s.startStore m sp r data = .stall .fwd s := by
  simp only [State.startStore]
  rw [if_pos h]

theorem State.startStore_begins (h : sp = .l → s.cc.pruneFwd.fwdHeld < 16) :
    s.startStore m sp r data = s.begin false true r fun ps =>
      let a := s.access m false true .store ps data
      .later (if sp = .l then ((s.modMe Ctx.pruneFwd).forward a).enter a else s.enter a) := by
  simp only [State.startStore]
  rw [if_neg fun x => absurd (h x.1) (Nat.not_lt.2 x.2)]

end

theorem State.entered_none (s : State) (i : Instr) (inL inS : Bool) (kind : AccKind) (ps : List Part) (data : List Byte) :
    s.enter (s.access (instrMods i) inL inS kind ps data) = s.entered i inL inS kind ps data none := rfl

theorem State.entered_some (s : State) (i : Instr) (inL inS : Bool) (kind : AccKind) (ps : List Part) (data : List Byte) (q : Nat) :
    ((s.enter (s.access (instrMods i) inL inS kind ps data)).modMe fun c => c.reserveFd q c.nextId) =
      s.entered i inL inS kind ps data (some q) := State.modMe_modMe s _ _

/-! ## Loads (R132, R136, R166-R172) -/

theorem loadShape_eq (f : LdFmt) : loadShape f = (ldBytes f, ldSigned f) := by cases f <;> rfl

/-- A load whose entry of an `fd` queue, where it fills one, is reserved as it enters. -/
def State.loadRes (s : State) (i : Instr) (f : MemForm) (kind : AccKind) (fd : Option Nat) : Res :=
  match s.startLoad (instrMods i) f.sp (s.checked f.sp f.write f.align f.va f.len) kind f.len, fd with
  | .later u, some q => .later (u.modMe fun c => c.reserveFd q c.nextId)
  | r, _ => r

theorem State.loadRes_none (s : State) (i : Instr) (f : MemForm) (kind : AccKind) : s.loadRes i f kind none =
    s.startLoad (instrMods i) f.sp (s.checked f.sp f.write f.align f.va f.len) kind f.len := by
  unfold State.loadRes
  generalize s.startLoad (instrMods i) f.sp (s.checked f.sp f.write f.align f.va f.len) kind f.len = r
  cases r <;> rfl

/-- A scalar load comes to the load of its form. -/
theorem Ready.scalar_load {i : Instr} {s : State} (hr : Ready s i) (sp : Space) (d a : Reg) (f : LdFmt) (o : BitVec 5)
    (he : exec i s = scalarLoad (instrMods i) sp d a f o s)
    (hf : formOf i s = { mods := instrMods i, cls := onL, regs := [d, a] }) :
    exec i s = .next (s.settleRes (formOf i s) (s.loadRes i (scalarLoadForm sp (instrMods i) a f o s)
      (.load (loadShape f).1 (loadShape f).2 d) none)) := by
  refine (hr.run he rfl hf).trans ?_
  rw [State.loadRes_none]
  unfold scalarLoadForm
  rw [loadShape_eq]
  rfl

/-- A vector load comes to the load of its form. -/
theorem Ready.vector_load {i : Instr} {s : State} (hr : Ready s i) (sp : Space) (q : BitVec 2) (a : Reg) (b : XOrBk)
    (nb : BitVec 3) (k : BitVec 16) {v : Quad} (hv : s.indexValue b = v) (he : exec i s = vectorLoad (instrMods i) sp q a b nb k s)
    (hf : formOf i s = { mods := instrMods i, cls := onL, srcs := indexQueue b, dsts := [.fd q.toNat], regs := a :: indexRegs b }) :
    exec i s = .next (s.settleRes (formOf i s) (s.loadRes i (vectorForm sp false (instrMods i) a v nb k s)
      (.vload q.toNat) (some q.toNat))) := by
  refine (hr.run he rfl hf).trans ?_
  subst hv
  unfold State.loadRes vectorForm
  dsimp only [effAddr]
  generalize s.startLoad (instrMods i) sp _ (.vload q.toNat) _ = r
  cases r <;> rfl

/-- A ready load comes to the load of its form. -/
theorem Ready.load {i : Instr} {s : State} {f : MemForm} {kind : AccKind} {fd : Option Nat} (hr : Ready s i)
    (h : loadOf i s = some (f, kind, fd)) (hrestore : inSaveSequence i s = false) :
    exec i s = .next (s.settleRes (formOf i s) (s.loadRes i f kind fd)) := by
  cases i with
  | ldl m d a g o => cases h; exact hr.scalar_load .l d a g o rfl rfl
  | ldp m d a g o => cases h; exact hr.scalar_load .p d a g o rfl rfl
  | ldg m d a g o => cases h; exact hr.scalar_load .g d a g o rfl rfl
  | vldl m q a b nb k => cases h; exact hr.vector_load .l q a b nb k (by cases b <;> rfl) rfl rfl
  | vldp m q a b nb k => cases h; exact hr.vector_load .p q a b nb k (by cases b <;> rfl) rfl rfl
  | vldg m q a b nb k =>
    cases h
    refine hr.vector_load .g q a b nb k (by cases b <;> rfl) ?_ rfl
    show execVldg m q a b nb k s = _
    unfold execVldg
    split
    · next w hst => simp [inSaveSequence, hst] at hrestore
    · rfl
  | _ => cases h

theorem State.loadRes_stall {s : State} {i : Instr} {f : MemForm} {kind : AccKind} {fd : Option Nat} {w : Stall} {t : State}
    (h : s.startLoad (instrMods i) f.sp (s.checked f.sp f.write f.align f.va f.len) kind f.len = .stall w t) :
    s.loadRes i f kind fd = .stall w t := by unfold State.loadRes; rw [h]

theorem State.loadRes_trap {s : State} {i : Instr} {f : MemForm} {kind : AccKind} {fd : Option Nat} {c : Code} {a n : Nat} {t : State}
    (h : s.startLoad (instrMods i) f.sp (s.checked f.sp f.write f.align f.va f.len) kind f.len = .trap c a n t) :
    s.loadRes i f kind fd = .trap c a n t := by unfold State.loadRes; rw [h]

theorem State.loadRes_later {s : State} {i : Instr} {f : MemForm} {kind : AccKind} {fd : Option Nat} {ps : List Part}
    (h : s.startLoad (instrMods i) f.sp (s.checked f.sp f.write f.align f.va f.len) kind f.len =
      .later (s.enter (s.access (instrMods i) true false kind ps (List.replicate f.len 0)))) :
    s.loadRes i f kind fd = .later (s.entered i true false kind ps (List.replicate f.len 0) fd) := by
  unfold State.loadRes
  rw [h]
  cases fd with
  | none => rfl
  | some q => exact congrArg Res.later (State.entered_some s i true false kind ps _ q)

/-- Settles O26: what begins a load, outcome by outcome of the checks of its address. -/
theorem loadsEnterTheirQueue : Obligations.LoadsEnterTheirQueue := by
  intro i s f kind fd h hr hrestore
  have hrun := hr.load h hrestore
  refine ⟨fun hw => ?_, fun ho => ⟨fun hs hq => ?_, fun hm => ⟨fun ps hps => ?_, fun c a hc => ?_, fun a ha => ?_⟩⟩⟩
  · rw [hrun, State.loadRes_stall (State.startLoad_waits hw)]; rfl
  all_goals have hb := State.startLoad_begins (m := instrMods i) (r := s.checked f.sp f.write f.align f.va f.len)
              (kind := kind) (n := f.len) ho
  · rw [hrun, State.loadRes_stall (hb.trans (State.begin_full hs hq))]; rfl
  · rw [hrun, State.loadRes_later (hb.trans (by rw [hps, State.begin_ok hm]))]; rfl
  · rw [hrun, State.loadRes_trap (hb.trans (by rw [hc, State.begin_fault hm]))]; rfl
  · rw [hrun, State.loadRes_stall (hb.trans (by rw [ha, State.begin_miss hm]; rfl))]; rfl

/-! ## Stores (R132, R136, R166-R172) -/

/-- A ready store comes to the store of its form. -/
theorem Ready.store {i : Instr} {s : State} {f : MemForm} {data : List Byte} (hr : Ready s i)
    (h : storeOf i s = some (f, data)) (hsave : inSaveSequence i s = false) : exec i s = .next (s.settleRes (formOf i s)
      (s.startStore (instrMods i) f.sp (s.checked f.sp f.write f.align f.va f.len) data)) := by
  cases i with
  | stl m d a w o => cases h; exact hr.run (e := scalarStore m .l d a w o s) rfl rfl rfl
  | stp m d a w o => cases h; exact hr.run (e := scalarStore m .p d a w o s) rfl rfl rfl
  | stg m d a w o => cases h; exact hr.run (e := scalarStore m .g d a w o s) rfl rfl rfl
  | vstl m q a b nb k => cases h; exact hr.run (e := vectorStore m .l q a b nb k s) rfl rfl rfl
  | vstp m q a b nb k => cases h; exact hr.run (e := vectorStore m .p q a b nb k s) rfl rfl rfl
  | vstg m q a b nb k =>
    cases h
    refine hr.run (e := vectorStore m .g q a b nb k s) ?_ rfl rfl
    show execVstg m q a b nb k s = _
    unfold execVstg
    split
    · next w hst => simp [inSaveSequence, hst] at hsave
    · rfl
  | _ => cases h

/-- Settles O27: what begins a store, outcome by outcome of the checks of its address. -/
theorem storesEnterTheirQueue : Obligations.StoresEnterTheirQueue := by
  intro i s f data h hr hsave
  have hrun := hr.store h hsave
  refine ⟨fun hw => ?_, fun ho => ⟨fun hs hq => ?_, fun hm => ⟨fun ps hps => ⟨fun hg => ?_, fun hl => ?_⟩, fun c a hc => ?_,
    fun a ha => ?_⟩⟩⟩
  · rw [hrun, State.startStore_waits hw]; rfl
  all_goals rw [hrun, State.startStore_begins ho]
  · rw [State.begin_full hs hq]; rfl
  · rw [hps, State.begin_ok hm]; dsimp only; rw [if_neg hg]; rfl
  · rw [hps, State.begin_ok hm]; dsimp only; rw [if_pos hl]; rfl
  · rw [hc, State.begin_fault hm]; rfl
  · rw [ha, State.begin_miss hm]; rfl

/-! ## Gathers and scatters (R173, R174) -/

/-- What a gather comes to once its list has been read, with the request of a miss alone kept. -/
def State.gathered (s : State) (i : Instr) (sp : Space) (q : BitVec 2) (n : Nat) (w : Nat) (u : State) (r : Reach) : Res :=
  match u.startLoad (instrMods i) sp r (.vload q.toNat) (n * w) with
  | .later v => .later (v.modMe fun c => c.reserveFd q.toNat c.nextId)
  | .stall c v => .stall c { s with miss := v.miss }
  | r => r

/-- The same of a scatter. -/
def State.scattered (s : State) (i : Instr) (sp : Space) (q : BitVec 2) (n : Nat) (w : Nat) (u : State) (r : Reach) : Res :=
  match u.startStore (instrMods i) sp r ((vBytes (u.cc.peekDn q.toNat)).take (n * w)) with
  | .stall c v => .stall c { s with miss := v.miss }
  | r => r

/-- What a gather or a scatter comes to: its list is read, and its elements enter. -/
def State.listRes (s : State) (i : Instr) (sp : Space) (write : Bool) (q : BitVec 2) (a b : Reg) (w n : Nat) : Res :=
  match s.indexList b n with
  | .error r => r
  | .ok (u, l) =>
    if write then s.scattered i sp q n w u (u.reachList sp true (u.rx a) w l)
    else s.gathered i sp q n w u (u.reachList sp false (u.rx a) w l)

/-- A ready gather with room reads its list, and enters its elements. -/
theorem Ready.gather {i : Instr} {s : State} (hr : Ready s i) (hroom : s.cc.roomFor true false = true) (sp : Space)
    (q : BitVec 2) (a b : Reg) (e : Width) (n : BitVec 7) (he : exec i s = gather (instrMods i) sp q a b e n s)
    (hf : formOf i s = { mods := instrMods i, cls := onL, dsts := [.fd q.toNat], regs := [a, b] }) :
    exec i s = .next (s.settleRes (formOf i s) (s.listRes i sp false q a b (widthBytes e) (n.toNat + 1))) := by
  refine (hr.run he rfl hf).trans ?_
  simp only [hroom, Bool.not_true, if_neg Bool.false_ne_true]
  rfl

/-- A ready scatter with room reads its list, and enters its elements. -/
theorem Ready.scatter {i : Instr} {s : State} (hr : Ready s i) (hroom : s.cc.roomFor false true = true) (sp : Space)
    (q : BitVec 2) (a b : Reg) (e : Width) (n : BitVec 7) (he : exec i s = scatter (instrMods i) sp q a b e n s)
    (hf : formOf i s = { mods := instrMods i, cls := onS, srcs := [.dn q.toNat], regs := [a, b] }) :
    exec i s = .next (s.settleRes (formOf i s) (s.listRes i sp true q a b (widthBytes e) (n.toNat + 1))) := by
  refine (hr.run he rfl hf).trans ?_
  simp only [hroom, Bool.not_true, if_neg Bool.false_ne_true]
  rfl

theorem Ready.list {i : Instr} {s : State} {sp : Space} {write : Bool} {q : BitVec 2} {a b : Reg} {w n : Nat} (hr : Ready s i)
    (h : listOf i = some (sp, write, q, a, b, w, n)) (hroom : s.cc.roomFor (!write) write = true) :
    exec i s = .next (s.settleRes (formOf i s) (s.listRes i sp write q a b w n)) := by
  cases i with
  | vgl m q a b e n => cases h; exact hr.gather hroom .l q a b e n rfl rfl
  | vgg m q a b e n => cases h; exact hr.gather hroom .g q a b e n rfl rfl
  | vsl m q a b e n => cases h; exact hr.scatter hroom .l q a b e n rfl rfl
  | vsg m q a b e n => cases h; exact hr.scatter hroom .g q a b e n rfl rfl
  | _ => cases h

section
variable {s : State} {b : Reg} {n : Nat} (h4 : (s.rx b).toNat % 4 = 0)
include h4

theorem State.indexList_error {r : Res} (h : s.readLocal (s.rx b).toNat (4 * n) = .error r) : s.indexList b n = .error r := by
  simp only [State.indexList, h4, h, ne_eq, not_true, if_false]

theorem State.indexList_ok {u : State} {bs : List Byte} (h : s.readLocal (s.rx b).toNat (4 * n) = .ok (u, bs)) :
    s.indexList b n = .ok (u, listElements bs n) := by
  simp only [State.indexList, h4, h, ne_eq, not_true, if_false]

end

/-- Settles O28: the list is read, or stalls or faults; then the elements enter, or one of them stalls or faults. -/
theorem gathersAndScatters : Obligations.GathersAndScatters := by
  intro i s sp write q a b w n h hr hroom
  have hrun := hr.list h hroom
  have hfails (h4 : (s.rx b).toNat % 4 = 0) {r : Res} (hl : s.readLocal (s.rx b).toNat (4 * n) = .error r) :
      exec i s = .next (s.settleRes (formOf i s) r) := by
    rw [hrun, State.listRes, State.indexList_error h4 hl]
  refine ⟨fun h4 => ?_, fun h4 c x y t hl => hfails h4 hl, fun h4 hsplit hiss hst hacq hout => ?_, fun h4 v t hl => hfails h4 hl,
    fun u bs h4 hl hm hord hfwd => ?_⟩
  · rw [hrun, State.listRes, State.indexList, if_pos h4]; rfl
  · refine hfails (r := .trap .prot (s.rx b).toNat 0 s) h4 ?_
    have hhas : s.spadHas s.cur.core (s.rx b).toNat (4 * n) = false := by
      refine decide_eq_false ?_
      unfold State.spadSize
      omega
    simp only [State.readLocal, hsplit, hiss, hst, hacq, hhas, Bool.not_true, Bool.or_self, if_neg Bool.false_ne_true,
      Bool.not_false, if_true]
  · dsimp only
    have hlist : s.listRes i sp write q a b w n = if write then s.scattered i sp q n w u (u.reachList sp true (u.rx a) w (listElements bs n))
        else s.gathered i sp q n w u (u.reachList sp false (u.rx a) w (listElements bs n)) := by
      simp only [State.listRes, State.indexList_ok h4 hl]
    rw [hrun, hlist]
    change (∀ c x, u.reachList sp write (u.rx a) w (listElements bs n) = _ → _) ∧
      (∀ x, u.reachList sp write (u.rx a) w (listElements bs n) = _ → _) ∧
      ∀ ps, u.reachList sp write (u.rx a) w (listElements bs n) = _ → _
    cases write with
    | false =>
      have hm : u.mayEnter true false := hm
      rw [if_neg Bool.false_ne_true]
      have hb := fun r => State.startLoad_begins (m := instrMods i) (r := r) (kind := .vload q.toNat) (n := n * w) (hord rfl)
      refine ⟨fun c x hx => ?_, fun x hx => ?_, fun ps hx => ⟨fun _ => ?_, fun hw => absurd hw Bool.false_ne_true⟩⟩
      all_goals rw [hx, State.gathered, hb]
      · rw [State.begin_fault hm]; rfl
      · rw [State.begin_miss hm]; rfl
      · rw [State.begin_ok hm]
        exact congrArg (fun t => Host.Outcome.next (pastEntered i s t)) (State.entered_some u i true false (.vload q.toNat) ps _ q.toNat)
    | true =>
      have hm : u.mayEnter false true := hm
      rw [if_pos rfl]
      have hb := fun r => State.startStore_begins (m := instrMods i) (r := r)
        (data := (vBytes (u.cc.peekDn q.toNat)).take (n * w)) (hfwd rfl)
      refine ⟨fun c x hx => ?_, fun x hx => ?_, fun ps hx => ⟨fun hw => absurd hw.symm Bool.false_ne_true, fun _ => ⟨fun hg => ?_, fun hl => ?_⟩⟩⟩
      all_goals rw [hx, State.scattered, hb]
      · rw [State.begin_fault hm]; rfl
      · rw [State.begin_miss hm]; rfl
      · rw [State.begin_ok hm]; dsimp only; rw [if_neg hg]; rfl
      · rw [State.begin_ok hm]; dsimp only; rw [if_pos hl]; rfl

end Sys2Proof.Machine
end

section
/-! PROOFS. What leaves device memory as it is: one lemma for each operation of the model that writes no byte of it (R107). -/

namespace Sys2Proof.Machine

/-- Steps that each leave device memory leave it together. -/
@[simp] theorem foldl_mem {α : Type} {f : State → α → State} (h : ∀ s a, (f s a).mem = s.mem) (l : List α) (s : State) :
    (l.foldl f s).mem = s.mem := by
  induction l generalizing s with
  | nil => rfl
  | cons a l ih => exact (ih (f s a)).trans (h s a)

theorem State.mem_measured (s : State) (m : BitVec 256) (l : List (Nat × BitVec 256)) :
    ({ s with measure := m, mlog := l } : State).mem = s.mem := rfl

theorem State.mem_imaged (s : State) (l : Tab FwSlot) : ({ s with images := l } : State).mem = s.mem := rfl

@[simp] theorem State.draw_mem (s : State) : (s.draw).2.mem = s.mem := rfl

@[simp] theorem State.setTag_mem (s : State) (core tag : Nat) : (s.setTag core tag).mem = s.mem := rfl

@[simp] theorem State.clearTags_mem (s : State) (core : Nat) (v : Quad) : (s.clearTags core v).mem = s.mem := rfl

@[simp] theorem State.record_mem (s : State) (die code part unit : Nat) (dev : Bool) (addr data : Nat) :
    (s.record die code part unit dev addr data).mem = s.mem := rfl

@[simp] theorem State.raise_mem (s : State) (k : Nat) (t : Trap) : (s.raise k t).mem = s.mem := by
  unfold State.raise
  dsimp only
  repeat' split
  all_goals simp

@[simp] theorem State.raiseAt_mem (s : State) (k : Nat) (e : Eng) (pc : Nat) (code : Code) (addr info : Nat) :
    (s.raiseAt k e pc code addr info).mem = s.mem := by
  unfold State.raiseAt
  simp

@[simp] theorem State.trapHere_mem (s : State) (code : Code) (addr info : Nat) :
    (s.trapHere code addr info).mem = s.mem := by
  unfold State.trapHere
  simp

@[simp] theorem State.stallHere_mem (s : State) (w : Stall) : (s.stallHere w).mem = s.mem := rfl

@[simp] theorem State.setPool_mem (s : State) (part bed : Nat) (p : Pool) : (s.setPool part bed p).mem = s.mem := rfl

@[simp] theorem State.modCol_mem (s : State) (c : Nat) (f : Column → Column) : (s.modCol c f).mem = s.mem := rfl

@[simp] theorem State.setGranule_mem (s : State) (g : Nat) (e : Granule) : (s.setGranule g e).mem = s.mem := rfl

@[simp] theorem State.colEvent_mem (s : State) (c code data : Nat) (addr : Nat) :
    (s.colEvent c code data addr).mem = s.mem := rfl

@[simp] theorem State.eraseLayer_mem (s : State) (c layer : Nat) : (s.eraseLayer c layer).mem = s.mem := by
  unfold State.eraseLayer
  dsimp only
  repeat' split
  all_goals simp

@[simp] theorem State.poisonLine_mem (s : State) (line : Nat) : (s.poisonLine line).mem = s.mem := by
  unfold State.poisonLine
  split <;> simp

@[simp] theorem State.touchBank_mem (s : State) (line : Nat) : (s.touchBank line).mem = s.mem := by
  unfold State.touchBank
  dsimp only
  repeat' split
  all_goals simp

@[simp] theorem State.countFix_mem (s : State) (c line layer : Nat) : (s.countFix c line layer).mem = s.mem := by
  unfold State.countFix
  dsimp only
  repeat' split
  all_goals simp

@[simp] theorem State.readStored_mem (s0 : State) (line : Nat) : (State.readStored s0 line).mem = s0.mem := by
  unfold State.readStored
  dsimp only
  split
  · simp
  · split
    · simp
    · split
      · rw [foldl_mem (by simp)]; simp
      · simp

@[simp] theorem State.rewritten_mem (s0 : State) (line : Nat) : (State.rewritten s0 line).mem = s0.mem := by
  unfold State.rewritten
  dsimp only
  split <;> simp

@[simp] theorem State.symbolError_mem (s : State) (line layer byte : Nat) :
    (s.symbolError line layer byte).mem = s.mem := by
  unfold State.symbolError
  split <;> simp

@[simp] theorem State.keepText_mem (s : State) (line : Nat) : (s.keepText line).mem = s.mem := rfl

@[simp] theorem State.marks_mem (s : State) (part : Nat) : (s.marks part).mem = s.mem := by
  unfold State.marks
  dsimp only
  repeat' split
  all_goals simp

@[simp] theorem State.unlist_mem (s : State) (pay g : Nat) (e : Granule) : (s.unlist pay g e).mem = s.mem := by
  unfold State.unlist
  split <;> simp

@[simp] theorem State.waitSpace_mem (s : State) (part pa : Nat) (who : Option (Nat × Eng)) (id : Nat) (va : Nat) :
    (s.waitSpace part pa who id va).mem = s.mem := by
  unfold State.waitSpace
  dsimp only
  repeat' split
  all_goals simp

@[simp] theorem State.dropWait_mem (s : State) (part pa : Nat) (who : Option (Nat × Eng)) (id : Nat) :
    (s.dropWait part pa who id).mem = s.mem := rfl

@[simp] theorem State.rebook_mem (s : State) (g : Nat) (e e' : Granule) : (s.rebook g e e').mem = s.mem := by
  unfold State.rebook
  simp

@[simp] theorem State.writeBack_mem (s : State) (g : Nat) : (s.writeBack g).mem = s.mem := by
  unfold State.writeBack
  dsimp only
  repeat' split
  all_goals simp

@[simp] theorem State.dropReserved_mem (s : State) (g : Nat) : (s.dropReserved g).mem = s.mem := by
  unfold State.dropReserved
  dsimp only
  repeat' split
  all_goals simp

@[simp] theorem State.settleReserved_mem (s : State) : (s.settleReserved).mem = s.mem := by
  unfold State.settleReserved
  simp

@[simp] theorem State.l2Evict_mem (s : State) (line : Nat) : (s.l2Evict line).mem = s.mem := by
  unfold State.l2Evict
  split <;> simp

@[simp] theorem State.l2Room_mem (s : State) (w : Nat × Nat) : (s.l2Room w).mem = s.mem := by
  unfold State.l2Room
  repeat' split
  all_goals simp

@[simp] theorem State.l2Fill_mem (s0 : State) (line : Nat) : (State.l2Fill s0 line).mem = s0.mem := by
  unfold State.l2Fill
  dsimp only
  repeat' split
  all_goals simp

@[simp] theorem State.granuleWritten_mem (s : State) (g : Nat) : (s.granuleWritten g).mem = s.mem := by
  unfold State.granuleWritten
  split <;> simp

@[simp] theorem State.markDirty_mem (s0 : State) (line : Nat) : (State.markDirty s0 line).mem = s0.mem := by
  unfold State.markDirty
  dsimp only
  repeat' split
  all_goals simp

@[simp] theorem State.enterReq_mem (s : State) (part asid : Nat) (me : MissReq) :
    (s.enterReq part asid me).mem = s.mem := by
  unfold State.enterReq
  dsimp only
  repeat' split
  all_goals simp

@[simp] theorem State.enterMiss_mem (s : State) (k : Nat) (e : Eng) (va : Nat) : (s.enterMiss k e va).mem = s.mem := by
  unfold State.enterMiss
  simp

@[simp] theorem State.enterUnitMiss_mem (s : State) (k part asid va : Nat) :
    (s.enterUnitMiss k part asid va).mem = s.mem := by
  unfold State.enterUnitMiss
  simp

@[simp] theorem State.zeroWords_mem (s : State) (core a n : Nat) : (s.zeroWords core a n).mem = s.mem := rfl

@[simp] theorem State.coverFwd_mem (s : State) (skip : Option Nat) (core : Nat) (l : List (Nat × Byte)) :
    (s.coverFwd skip core l).mem = s.mem := by
  unfold State.coverFwd
  split <;> simp

@[simp] theorem State.spadPut_mem (s : State) (core a : Nat) (bs : List Byte) : (s.spadPut core a bs).mem = s.mem := rfl

@[simp] theorem State.spadWrite_mem (s : State) (core a : Nat) (bs : List Byte) :
    (s.spadWrite core a bs).mem = s.mem := by
  unfold State.spadWrite
  simp

@[simp] theorem State.spadScatter_mem (s : State) (core : Nat) (l : List (Nat × Byte)) :
    (s.spadScatter core l).mem = s.mem := by
  unfold State.spadScatter
  simp

@[simp] theorem State.waited_mem (s t : State) : (s.waited t).mem = s.mem := rfl

@[simp] theorem State.takeWay_mem (s : State) (k : Nat) (l : Nat × Nat × Nat) : (s.takeWay k l).mem = s.mem := by
  unfold State.takeWay
  split <;> simp

@[simp] theorem State.l1Fill_mem (s : State) (core line : Nat) (data : List Byte) :
    (s.l1Fill core line data).mem = s.mem := by
  unfold State.l1Fill
  dsimp only
  repeat' split
  all_goals simp

@[simp] theorem State.l1Drop_mem (s : State) (core line : Nat) : (s.l1Drop core line).mem = s.mem := rfl

@[simp] theorem State.l1DropAll_mem (s : State) (core : Nat) : (s.l1DropAll core).mem = s.mem := rfl

@[simp] theorem State.l1Replace_mem (s : State) (core line : Nat) : (s.l1Replace core line).mem = s.mem := rfl

@[simp] theorem State.l1Inv_mem (s : State) (k : Nat) (p : Nat → Bool) : (s.l1Inv k p).mem = s.mem := rfl

@[simp] theorem State.l1DropPriv_mem (s : State) (k : Nat) : (s.l1DropPriv k).mem = s.mem := rfl

@[simp] theorem State.l1Store_mem (s : State) (k pa : Nat) (bs : List Byte) : (s.l1Store k pa bs).mem = s.mem := rfl

@[simp] theorem State.badWord_mem (s : State) (core w : Nat) : (s.badWord core w).mem = s.mem := rfl

@[simp] theorem State.poisonEvent_mem (s : State) (part pa : Nat) (trapped : Bool) :
    (s.poisonEvent part pa trapped).mem = s.mem := rfl

@[simp] theorem State.wordEvent_mem (s : State) (part core : Nat) (trapped : Bool) :
    (s.wordEvent part core trapped).mem = s.mem := rfl

@[simp] theorem State.verWrite_mem (s : State) (k pa : Nat) (bs : List Byte) : (s.verWrite k pa bs).mem = s.mem := by
  unfold State.verWrite
  simp

@[simp] theorem State.peerWrite_mem (s : State) (k core a : Nat) (bs : List Byte) :
    (s.peerWrite k core a bs).mem = s.mem := by
  unfold State.peerWrite
  simp

@[simp] theorem State.deliver_mem (s : State) (k : Nat) (e : Eng) (off va pa : Nat) :
    (s.deliver k e off va pa).1.mem = s.mem := by
  unfold State.deliver
  dsimp only
  repeat' split
  all_goals simp

@[simp] theorem State.dropHolds_mem (s : State) (k : Nat) : (s.dropHolds k).mem = s.mem := rfl

@[simp] theorem State.dropHeld_mem (s : State) (k line : Nat) : (s.dropHeld k line).mem = s.mem := rfl

@[simp] theorem State.releaseLine_mem (s : State) (k : Nat) : (s.releaseLine k).mem = s.mem := by
  unfold State.releaseLine
  split <;> simp

@[simp] theorem State.abandonRegion_mem (s : State) (k : Nat) : (s.abandonRegion k).mem = s.mem := by
  unfold State.abandonRegion
  simp

@[simp] theorem State.endHold_mem (s : State) (k line : Nat) : (s.endHold k line).mem = s.mem := by
  unfold State.endHold
  split <;> simp

@[simp] theorem State.blockRef_mem (s : State) (part bed page : Nat) (up : Bool) :
    (s.blockRef part bed page up).mem = s.mem := by
  unfold State.blockRef
  dsimp only
  repeat' split
  all_goals simp

@[simp] theorem State.reref_mem (s : State) (part : Nat) (old new : List Extent) :
    (s.reref part old new).mem = s.mem := by
  unfold State.reref
  simp

@[simp] theorem State.setShare_mem (s : State) (part bed page n : Nat) : (s.setShare part bed page n).mem = s.mem := rfl

@[simp] theorem State.setVoids_mem (s : State) (part bed page : Nat) (l : List Nat) :
    (s.setVoids part bed page l).mem = s.mem := rfl

@[simp] theorem State.setVoid_mem (s : State) (q : Seq) (i : Nat) (b : Bool) : (s.setVoid q i b).mem = s.mem := by
  unfold State.setVoid
  split <;> simp

@[simp] theorem State.putSeq_mem (s : State) (pa : Nat) (q : Seq) : (s.putSeq pa q).mem = s.mem := rfl

@[simp] theorem State.dropScb_mem (s : State) (k id part pa : Nat) : (s.dropScb k id part pa).mem = s.mem := rfl

@[simp] theorem State.l1DropScb_mem (s : State) (k pa : Nat) : (s.l1DropScb k pa).mem = s.mem := rfl

@[simp] theorem State.freshLines_mem (s : State) (l : List Nat) : (s.freshLines l).mem = s.mem := by
  unfold State.freshLines
  simp

@[simp] theorem State.copyLines_mem (s : State) (l : List (Nat × Nat)) : (s.copyLines l).mem = s.mem := by
  unfold State.copyLines
  simp

@[simp] theorem State.dropShares_mem (s : State) (q : Seq) : (s.dropShares q).mem = s.mem := by
  refine foldl_mem (fun t j => ?_) _ s
  repeat' split
  all_goals simp

@[simp] theorem State.writeReg_mem (s : State) (k : Nat) (e : Eng) (d : Reg) (v : Quad) :
    (s.writeReg k e d v).mem = s.mem := rfl

@[simp] theorem State.finishAccess_mem (s : State) (k id : Nat) (e : Eng) : (s.finishAccess k id e).mem = s.mem := rfl

@[simp] theorem State.acquireAt_mem (s : State) (k : Nat) (sc : Scope) : (s.acquireAt k sc).mem = s.mem := by
  unfold State.acquireAt
  split <;> simp

@[simp] theorem State.acquireOf_mem (s : State) (k : Nat) (a : Access) : (s.acquireOf k a).mem = s.mem := by
  unfold State.acquireOf
  split <;> simp

@[simp] theorem State.deliverWords_mem (s : State) (k core : Nat) (e : Eng) (off va a n : Nat) :
    (s.deliverWords k core e off va a n).1.mem = s.mem := by
  unfold State.deliverWords
  dsimp only
  split
  · rfl
  · split
    · simp
    · exact foldl_mem (fun _ _ => by simp) _ _

@[simp] theorem State.deliverL1_mem (s : State) (k : Nat) (a : Access) (p : Part) :
    (s.deliverL1 k a p).1.mem = s.mem := by
  unfold State.deliverL1
  dsimp only
  split
  · rfl
  · split
    · simp
    · exact foldl_mem (fun _ _ => by simp) _ _

@[simp] theorem State.deliverLoad_mem (s : State) (k : Nat) (a : Access) : (s.deliverLoad k a).mem = s.mem := by
  unfold State.deliverLoad
  split <;> simp

@[simp] theorem State.spadStore_mem (s : State) (k core : Nat) (a : Access) (p : Part) (bs : List Byte) :
    (s.spadStore k core a p bs).mem = s.mem := by
  unfold State.spadStore
  split <;> simp

@[simp] theorem State.raiseDeferred_mem (s : State) (k : Nat) (d : Deferred) : (s.raiseDeferred k d).mem = s.mem := by
  unfold State.raiseDeferred
  simp

@[simp] theorem State.retire_mem (s : State) (f : Form) : (s.retire f).mem = s.mem := rfl

@[simp] theorem State.skipGuarded_mem (s : State) (f : Form) : (s.skipGuarded f).mem = s.mem := rfl

@[simp] theorem State.settleSkips_mem (s : State) (k n : Nat) : (s.settleSkips k n).mem = s.mem := rfl

@[simp] theorem State.setStream_mem (s : State) (n : Nat) (z : Stream) : (s.setStream n z).mem = s.mem := rfl

@[simp] theorem State.tick_mem (s : State) (d : Nat) : (s.tick d).mem = s.mem := rfl

@[simp] theorem State.enter_mem (s : State) (a : Access) : (s.enter a).mem = s.mem := rfl

@[simp] theorem State.resumeInPlace_mem (s : State) (k : Nat) : (s.resumeInPlace k).mem = s.mem := by
  unfold State.resumeInPlace
  split <;> simp

@[simp] theorem State.abandonPreempt_mem (s : State) (part : Nat) : (s.abandonPreempt part).mem = s.mem := by
  unfold State.abandonPreempt
  dsimp only
  rw [State.modPart_mem, foldl_mem (by simp), foldl_mem (by simp)]

@[simp] theorem State.failSave_mem (s : State) (k svf : Nat) (lwait : Bool) : (s.failSave k svf lwait).mem = s.mem := by
  unfold State.failSave
  split <;> simp

@[simp] theorem State.forward_mem (s : State) (a : Access) : (s.forward a).mem = s.mem := by
  unfold State.forward
  split <;> simp

@[simp] theorem State.prefetch_mem (s : State) (line : Nat) : (s.prefetch line).mem = s.mem := by
  unfold State.prefetch
  dsimp only
  split <;> simp

@[simp] theorem State.tagAcquire_mem (s : State) (k : Nat) (v : Quad) : (s.tagAcquire k v).mem = s.mem := by
  unfold State.tagAcquire
  split <;> simp

@[simp] theorem State.endTags_mem (s : State) (k : Nat) (d : Reg) (mask : Quad) : (s.endTags k d mask).mem = s.mem := by
  unfold State.endTags
  dsimp only
  split <;> simp

@[simp] theorem State.addDefer_mem (s : State) (d : Deferred) : (s.addDefer d).mem = s.mem := by
  unfold State.addDefer
  dsimp only
  repeat' split
  all_goals simp

@[simp] theorem State.poisonEvents_mem (s : State) (part : Nat) (trapped : Bool) (bad : List Nat) :
    (s.poisonEvents part trapped bad).mem = s.mem := foldl_mem (fun t pa => State.poisonEvent_mem t part pa trapped) bad s

@[simp] theorem State.setLane_mem (s : State) (n : Nat) (l : Lane) : (s.setLane n l).mem = s.mem := rfl

@[simp] theorem State.pushMacro_mem (s : State) (ls : List (Nat × Nat)) (mk : Nat → Macro) :
    (s.pushMacro ls mk).mem = s.mem := foldl_mem (fun _ _ => by rfl) ls s

@[simp] theorem State.laneEnter_mem (s : State) (n k : Nat) : (s.laneEnter n k).mem = s.mem := by
  unfold State.laneEnter
  dsimp only
  repeat' split
  all_goals simp

@[simp] theorem State.handRed_mem (s : State) (n : Nat) (e : LaneEnt) (cells : List (BitVec 56 × Bool)) (gone : Bool) :
    (s.handRed n e cells gone).mem = s.mem := by
  unfold State.handRed
  dsimp only
  repeat' split
  all_goals simp

@[simp] theorem State.deliverCells_mem (s : State) (k a : Nat) (bs : List Byte) (bad : Bool) :
    (s.deliverCells k a bs bad).mem = s.mem := by
  unfold State.deliverCells
  simp

@[simp] theorem State.redDone_mem (s : State) (r : Reduce) : (s.redDone r).mem = s.mem := foldl_mem (fun _ _ => by rfl) _ _

@[simp] theorem State.tryInstance_mem (s : State) (b : Blk) : (s.tryInstance b).mem = s.mem := by
  unfold State.tryInstance
  split <;> simp

@[simp] theorem State.enterBlock_mem (s : State) (body : BitVec 12) (mask : BitVec 4) (n : Nat) :
    (s.enterBlock body mask n).mem = s.mem := by
  unfold State.enterBlock
  dsimp only
  repeat' split
  all_goals simp

@[simp] theorem State.havoc_mem (s : State) (core a n : Nat) : (s.havoc core a n).mem = s.mem := by
  unfold State.havoc
  dsimp only
  split <;> simp

@[simp] theorem State.splitBegin_mem (s : State) (core : Nat) : (s.splitBegin core).mem = s.mem := by
  unfold State.splitBegin
  dsimp only
  repeat' split
  all_goals simp

@[simp] theorem State.splitApply_mem (s : State) (core : Nat) : (s.splitApply core).mem = s.mem := by
  unfold State.splitApply
  dsimp only
  split <;> simp

@[simp] theorem State.planWrite_mem (s : State) (w : Quad) : (s.planWrite w).mem = s.mem := by
  unfold State.planWrite
  dsimp only
  split
  · simp
  · rw [State.modMe_mem, foldl_mem (by simp)]

@[simp] theorem State.setMat_mem (s : State) (n : Nat) (m : Matrix) : (s.setMat n m).mem = s.mem := rfl

@[simp] theorem State.matBegin_mem (s : State) (n : Nat) : (s.matBegin n).mem = s.mem := by
  unfold State.matBegin
  dsimp only
  repeat' split
  all_goals simp

@[simp] theorem State.matEnd_mem (s : State) (n : Nat) : (s.matEnd n).mem = s.mem := by
  unfold State.matEnd
  dsimp only
  split <;> simp

@[simp] theorem State.discardMat_mem (s : State) (n ctx task : Nat) : (s.discardMat n ctx task).mem = s.mem := rfl

@[simp] theorem State.deferMat_mem (s : State) (n : Nat) (e : MatEnt) (code : Code) (addr : Nat) :
    (s.deferMat n e code addr).mem = s.mem := by
  unfold State.deferMat
  simp

@[simp] theorem State.tagRegions_mem (s : State) (n span : Nat) (rs : List Nat) :
    (s.tagRegions n span rs).mem = s.mem := rfl

@[simp] theorem State.matRow_mem (s : State) (n : Nat) : (s.matRow n).mem = s.mem := by
  unfold State.matRow
  dsimp only
  split <;> simp

@[simp] theorem State.endAttn_mem (s : State) (n : Nat) (e : Attn) : (s.endAttn n e).mem = s.mem := by
  unfold State.endAttn
  split <;> simp

@[simp] theorem State.attnReport_mem (s : State) (e : Attn) (bad : List Nat) : (s.attnReport e bad).mem = s.mem := by
  unfold State.attnReport
  dsimp only
  repeat' split
  all_goals simp

@[simp] theorem State.xferPoison_mem (s : State) (k : Nat) (trapped : Bool) (mark : Nat) :
    (s.xferPoison k trapped mark).mem = s.mem := by
  unfold State.xferPoison
  split <;> simp

@[simp] theorem State.modQp_mem (s : State) (q : Nat) (f : Qp → Qp) : (s.modQp q f).mem = s.mem := rfl

@[simp] theorem State.xferZeros_mem (s : State) (k : Nat) (x : Xfer) (z : List Nat) :
    (s.xferZeros k x z).1.mem = s.mem := by
  unfold State.xferZeros
  dsimp only
  split <;> simp

@[simp] theorem State.served_mem (s : State) (k : Nat) (e : Eng) : (s.served k e).mem = s.mem := rfl

@[simp] theorem State.setXfer_mem (s : State) (k id : Nat) (x : Xfer) : (s.setXfer k id x).mem = s.mem := rfl

@[simp] theorem State.stopXfer_mem (s : State) (k : Nat) (a : Access) (x0 : Xfer) :
    (s.stopXfer k a x0).mem = s.mem := by
  unfold State.stopXfer
  dsimp only
  split <;> simp

@[simp] theorem State.heard_mem (s : State) (part : Nat) (x : Xfer) : (s.heard part x).mem = s.mem := by
  unfold State.heard
  split <;> simp

@[simp] theorem State.deferXfer_mem (s : State) (k : Nat) (e : Eng) (x : Xfer) (code : Code) (addr : Nat) :
    (s.deferXfer k e x code addr).mem = s.mem := by
  unfold State.deferXfer
  simp

@[simp] theorem State.recordLost_mem (s : State) (k : Nat) (a : Access) (x : Xfer) (code : Code) :
    (s.recordLost k a x code).mem = s.mem := by
  unfold State.recordLost
  simp

@[simp] theorem State.startTask_mem (s : State) (k regid n : Nat) (q : QItem) :
    (s.startTask k regid n q).mem = s.mem := rfl

@[simp] theorem State.commitPeer_mem (s : State) (v : Version) (core : Nat) : (s.commitPeer v core).mem = s.mem := foldl_mem (fun t p => by split <;> simp) _ s

@[simp] theorem State.startAbort_mem (s : State) (regid : Nat) : (s.startAbort regid).mem = s.mem := by
  unfold State.startAbort
  split <;> simp

@[simp] theorem State.actClaim_mem (s : State) (regid : Nat) (c : Claim) : (s.actClaim regid c).mem = s.mem := by
  unfold State.actClaim
  dsimp only
  split <;> simp

@[simp] theorem State.forget_mem (s : State) (k : Nat) : (s.forget k).mem = s.mem := rfl

@[simp] theorem State.vacate_mem (s : State) (k : Nat) : (s.vacate k).mem = s.mem := by
  unfold State.vacate
  simp

@[simp] theorem State.cancelAttn_mem (s : State) (a : Attn) : (s.cancelAttn a).mem = s.mem := by
  unfold State.cancelAttn
  dsimp only
  repeat' split
  all_goals simp

@[simp] theorem State.claimTrap_mem (s : State) (id action : Nat) : (s.claimTrap id action).1.mem = s.mem := by
  unfold State.claimTrap
  dsimp only
  repeat' split
  all_goals simp

@[simp] theorem State.retarget_mem (s : State) (part asid : Nat) : (s.retarget part asid).mem = s.mem := rfl

@[simp] theorem State.tlbRemove_mem (s0 : State) (p : TlbEnt → Bool) (q : Miss → Bool) :
    (State.tlbRemove s0 p q).mem = s0.mem := rfl

@[simp] theorem State.fillTlb_mem (s : State) (core : Nat) (t : TlbEnt) : (s.fillTlb core t).mem = s.mem := rfl

@[simp] theorem State.failReq_mem (s : State) (q : MissReq) : (s.failReq q).mem = s.mem := by
  unfold State.failReq
  dsimp only
  split <;> simp

@[simp] theorem State.remember_mem (s : State) (l : Launch) (p : Plan) : (s.remember l p).mem = s.mem := by
  unfold State.remember
  split <;> simp

@[simp] theorem State.assignCore_mem (s : State) (core regid stage : Nat) :
    (s.assignCore core regid stage).mem = s.mem := by
  unfold State.assignCore
  dsimp only
  split <;> simp

@[simp] theorem State.assignIdle_mem (s : State) (regid pick : Nat) (x1 : Nat) :
    (s.assignIdle regid pick x1).mem = s.mem := by
  induction x1 generalizing s with
  | zero => rfl
  | succ f ih =>
    unfold State.assignIdle
    dsimp only
    split
    · rw [ih, State.assignCore_mem]
    · rfl

@[simp] theorem State.idleEmpty_mem (s : State) (r : Region) : (s.idleEmpty r).mem = s.mem := foldl_mem (fun _ _ => by rfl) _ s

@[simp] theorem State.takeCores_mem (s : State) (part : Nat) (l : List Nat) : (s.takeCores part l).mem = s.mem := rfl

@[simp] theorem State.endLwait_mem (s : State) (k : Nat) (d : Reg) (v : Quad) : (s.endLwait k d v).mem = s.mem := rfl

@[simp] theorem State.endChild_mem (s : State) (parent : Nat) (e : ChildEnd) (pick : Nat) :
    (s.endChild parent e pick).mem = s.mem := by
  unfold State.endChild
  dsimp only
  split
  · rfl
  · rw [foldl_mem (by simp)]; simp

@[simp] theorem State.returnPools_mem (s : State) (r : Region) : (s.returnPools r).mem = s.mem := by
  unfold State.returnPools
  split
  · rfl
  · exact foldl_mem (fun _ _ => by rfl) _ s

@[simp] theorem State.addCounts_mem (s : State) (r : Region) : (s.addCounts r).mem = s.mem := by
  unfold State.addCounts
  repeat' split
  all_goals simp

@[simp] theorem State.returnCores_mem (s : State) (r : Region) : (s.returnCores r).mem = s.mem := by
  have h := fun (l : List Nat) => foldl_mem (f := fun t c => t.modCore c fun d => { d with serve := none, join := none })
    (fun _ _ => by rfl) l s
  unfold State.returnCores
  dsimp only
  repeat' split
  all_goals simp [h]

@[simp] theorem State.unqueue_mem (s : State) (l : Launch) : (s.unqueue l).mem = s.mem := by
  unfold State.unqueue
  split <;> simp

@[simp] theorem State.putLaunch_mem (s : State) (l : Launch) : (s.putLaunch l).mem = s.mem := by
  unfold State.putLaunch
  split <;> simp

@[simp] theorem State.carve_mem (s : State) (l : Launch) (r : Rcb) : (s.carve l r).mem = s.mem := by
  unfold State.carve
  split
  · rfl
  · exact foldl_mem (fun _ _ => by rfl) _ s

@[simp] theorem State.giveMin_mem (s : State) (regid : Nat) (x1 : List (Stage × Nat)) (x2 : List Nat) :
    (s.giveMin regid x1 x2).mem = s.mem := by
  induction x1 generalizing s x2 with
  | nil => rfl
  | cons t r ih =>
    unfold State.giveMin
    dsimp only
    rw [ih, foldl_mem (by simp)]

@[simp] theorem State.askIdust_mem (s : State) (part : Nat) (bs : List Byte) : (s.askIdust part bs).mem = s.mem := by
  unfold State.askIdust
  split <;> simp

@[simp] theorem State.touchIdust_mem (s : State) (e : IdustEnt) : (s.touchIdust e).mem = s.mem := rfl

@[simp] theorem State.reply_mem (s : State) (part status value : Nat) : (s.reply part status value).mem = s.mem := rfl

@[simp] theorem State.endRestore_mem (s : State) (k : Nat) : (s.endRestore k).mem = s.mem := by
  unfold State.endRestore
  split <;> simp

@[simp] theorem State.swapCoreOut_mem (s : State) (part core : Nat) : (s.swapCoreOut part core).mem = s.mem := by
  unfold State.swapCoreOut
  simp

@[simp] theorem State.swapUnitsOut_mem (s : State) (part : Nat) : (s.swapUnitsOut part).mem = s.mem := foldl_mem (fun _ _ => by rfl) _ s

@[simp] theorem State.swapOut_mem (s : State) (part : Nat) : (s.swapOut part).mem = s.mem := by
  unfold State.swapOut
  simp

@[simp] theorem State.swapIn_mem (s : State) (part : Nat) : (s.swapIn part).mem = s.mem := by
  unfold State.swapIn
  simp

@[simp] theorem State.beginRestore_mem (s : State) (k : Nat) (lwait : Bool) : (s.beginRestore k lwait).mem = s.mem := rfl

@[simp] theorem State.settleFix_mem (s : State) (c line : Nat) : (s.settleFix c line).mem = s.mem := by
  unfold State.settleFix
  dsimp only
  repeat' split
  all_goals simp

@[simp] theorem State.scrub_mem (s : State) (c : Nat) (x1 : Scrub) : (s.scrub c x1).mem = s.mem := by
  unfold State.scrub
  split <;> simp

@[simp] theorem State.setBedClock_mem (s : State) (b mhz : Nat) (slow : Bool) :
    (s.setBedClock b mhz slow).mem = s.mem := rfl

@[simp] theorem State.setCap_mem (s : State) (b col k : Nat) : (s.setCap b col k).mem = s.mem := rfl

@[simp] theorem State.lowerPower_mem (s : State) (b hottest : Nat) : (s.lowerPower b hottest).mem = s.mem := by
  unfold State.lowerPower
  dsimp only
  repeat' split
  all_goals simp

@[simp] theorem State.raisePower_mem (s : State) (b : Nat) : (s.raisePower b).mem = s.mem := by
  unfold State.raisePower
  dsimp only
  repeat' split
  all_goals simp

@[simp] theorem State.spaceAccess_mem (s : State) (k : Nat) (a : Access) (addr : Nat) :
    (s.spaceAccess k a addr).mem = s.mem := by
  unfold State.spaceAccess
  repeat' split
  all_goals simp

@[simp] theorem State.spaceMat_mem (s : State) (n addr : Nat) : (s.spaceMat n addr).mem = s.mem := by
  unfold State.spaceMat
  split <;> simp

@[simp] theorem State.spaceFault_mem (s0 : State) (w : SpaceWait) : (State.spaceFault s0 w).mem = s0.mem := by
  unfold State.spaceFault
  dsimp only
  repeat' split
  all_goals simp

@[simp] theorem State.carryLines_mem (s : State) (g : Nat) : (s.carryLines g).mem = s.mem := foldl_mem (fun t i => by split <;> simp) _ s

@[simp] theorem State.leaveSlice_mem (s : State) (g col : Nat) : (s.leaveSlice g col).mem = s.mem := by
  unfold State.leaveSlice
  dsimp only
  repeat' split
  all_goals simp

@[simp] theorem State.placeIn_mem (s : State) (g col : Nat) : (s.placeIn g col).mem = s.mem := by
  unfold State.placeIn
  simp

@[simp] theorem State.renameLane_mem (s : State) (old new : Nat) : (s.renameLane old new).mem = s.mem := rfl

@[simp] theorem State.moveWindows_mem (s : State) (bed old new : Nat) : (s.moveWindows bed old new).mem = s.mem := by
  unfold State.moveWindows
  simp

@[simp] theorem State.extend_mem (s : State) (k : Nat) (i : Image) : (s.extend k i).mem = s.mem := State.mem_measured s _ _

@[simp] theorem State.bootUnits_mem (s : State) (x1 : List Nat) : (s.bootUnits x1).1.mem = s.mem := by
  induction x1 generalizing s with
  | nil => rfl
  | cons k r ih =>
    simp only [State.bootUnits, apply_ite Prod.fst, apply_ite State.mem, ih, State.extend_mem, ite_self]

@[simp] theorem State.switchEvent_mem (s : State) (u : FwUnit) (slotB back : Bool) :
    (s.switchEvent u slotB back).mem = s.mem := rfl

@[simp] theorem State.recordEvent_mem (s : State) (unit part version : Nat) :
    (s.recordEvent unit part version).mem = s.mem := rfl

@[simp] theorem State.refuseRecord_mem (s : State) (part : Nat) : (s.refuseRecord part).mem = s.mem := by
  unfold State.refuseRecord
  split <;> simp

@[simp] theorem State.switchSlot_mem (s : State) (u : FwUnit) (back : Bool) (trial : Option Nat) :
    (s.switchSlot u back trial).mem = s.mem := by
  unfold State.switchSlot
  exact (State.switchEvent_mem _ _ _ _).trans ((State.mem_imaged _ _).trans (s.extend_mem _ _))

@[simp] theorem State.follow_mem (s : State) (x1 : FwUnit) : (s.follow x1).mem = s.mem := by
  unfold State.follow
  split <;> simp

@[simp] theorem State.readBox_mem (s : State) (part die : Nat) (dump : Option Nat) :
    (s.readBox part die dump).mem = s.mem := by
  unfold State.readBox
  dsimp only
  split <;> simp

@[simp] theorem State.evictIdust_mem (s : State) (part n : Nat) (x1 : Nat) : (s.evictIdust part n x1).mem = s.mem := by
  induction x1 generalizing s with
  | zero => rfl
  | succ f ih =>
    unfold State.evictIdust
    dsimp only
    split
    · rfl
    · split
      · rfl
      · rw [ih]; simp

@[simp] theorem State.storeIdust_mem (s : State) (part : Nat) (e : IdustEnt) (res : Option (List Byte × List Byte)) :
    (s.storeIdust part e res).mem = s.mem := by
  unfold State.storeIdust
  dsimp only
  split <;> simp

@[simp] theorem State.surrender_mem (s : State) (part g : Nat) : (s.surrender part g).mem = s.mem := by
  unfold State.surrender
  dsimp only
  split <;> simp

@[simp] theorem State.fetchMiss_mem (s : State) (va : Nat) : (s.fetchMiss va).mem = s.mem := by
  unfold State.fetchMiss
  simp

@[simp] theorem State.mapGranule_mem (s : State) (g part bed col : Nat) (raw pin : Bool) :
    (s.mapGranule g part bed col raw pin).mem = s.mem := by
  unfold State.mapGranule
  dsimp only
  repeat' split
  all_goals simp

@[simp] theorem State.unmapGranule_mem (s : State) (g : Nat) : (s.unmapGranule g).mem = s.mem := by
  unfold State.unmapGranule
  dsimp only
  repeat' split
  all_goals simp

@[simp] theorem State.pinGranule_mem (s : State) (g : Nat) (on : Bool) : (s.pinGranule g on).mem = s.mem := by
  unfold State.pinGranule
  dsimp only
  repeat' split
  all_goals simp

@[simp] theorem State.ownChunks_mem (s : State) (part bed n : Nat) : (s.ownChunks part bed n).mem = s.mem := by
  unfold State.ownChunks
  simp

@[simp] theorem State.loseClock_mem (s : State) (core ctx : Nat) (e : Eng) : (s.loseClock core ctx e).mem = s.mem := by
  unfold State.loseClock
  dsimp only
  split <;> simp

end Sys2Proof.Machine
end

section
/-! PROOFS. What leaves the contexts, and what leaves the cores: the bookkeeping of the home slices and of the rake (R109, R298-R303). -/

namespace Sys2Proof.Machine

@[simp] theorem foldl_ctxs {α : Type} {f : State → α → State} (h : ∀ s a, (f s a).ctxs = s.ctxs) (l : List α)
    (s : State) : (l.foldl f s).ctxs = s.ctxs := by
  induction l generalizing s with
  | nil => rfl
  | cons a l ih => exact (ih (f s a)).trans (h s a)

@[simp] theorem State.draw_ctxs (s : State) : (s.draw).2.ctxs = s.ctxs := rfl

@[simp] theorem State.setTag_ctxs (s : State) (core tag : Nat) : (s.setTag core tag).ctxs = s.ctxs := rfl

@[simp] theorem State.record_ctxs (s : State) (die code part unit : Nat) (dev : Bool) (addr data : Nat) :
    (s.record die code part unit dev addr data).ctxs = s.ctxs := rfl

@[simp] theorem State.setPool_ctxs (s : State) (part bed : Nat) (p : Pool) : (s.setPool part bed p).ctxs = s.ctxs := rfl

@[simp] theorem State.modCol_ctxs (s : State) (c : Nat) (f : Column → Column) : (s.modCol c f).ctxs = s.ctxs := rfl

@[simp] theorem State.setGranule_ctxs (s : State) (g : Nat) (e : Granule) : (s.setGranule g e).ctxs = s.ctxs := rfl

@[simp] theorem State.colEvent_ctxs (s : State) (c code data : Nat) (addr : Nat) :
    (s.colEvent c code data addr).ctxs = s.ctxs := rfl

@[simp] theorem State.eraseLayer_ctxs (s : State) (c layer : Nat) : (s.eraseLayer c layer).ctxs = s.ctxs := by
  unfold State.eraseLayer
  dsimp only
  repeat' split
  all_goals simp

@[simp] theorem State.poisonLine_ctxs (s : State) (line : Nat) : (s.poisonLine line).ctxs = s.ctxs := by
  unfold State.poisonLine
  split <;> simp

@[simp] theorem State.touchBank_ctxs (s : State) (line : Nat) : (s.touchBank line).ctxs = s.ctxs := by
  unfold State.touchBank
  dsimp only
  repeat' split
  all_goals simp

@[simp] theorem State.countFix_ctxs (s : State) (c line layer : Nat) : (s.countFix c line layer).ctxs = s.ctxs := by
  unfold State.countFix
  dsimp only
  repeat' split
  all_goals simp

@[simp] theorem State.readStored_ctxs (s0 : State) (line : Nat) : (State.readStored s0 line).ctxs = s0.ctxs := by
  unfold State.readStored
  dsimp only
  split
  · simp
  · split
    · simp
    · split
      · rw [foldl_ctxs (by simp)]; simp
      · simp

@[simp] theorem State.rewritten_ctxs (s0 : State) (line : Nat) : (State.rewritten s0 line).ctxs = s0.ctxs := by
  unfold State.rewritten
  dsimp only
  split <;> simp

@[simp] theorem State.symbolError_ctxs (s : State) (line layer byte : Nat) :
    (s.symbolError line layer byte).ctxs = s.ctxs := by
  unfold State.symbolError
  split <;> simp

@[simp] theorem State.marks_ctxs (s : State) (part : Nat) : (s.marks part).ctxs = s.ctxs := by
  unfold State.marks
  dsimp only
  repeat' split
  all_goals simp

@[simp] theorem State.unlist_ctxs (s : State) (pay g : Nat) (e : Granule) : (s.unlist pay g e).ctxs = s.ctxs := by
  unfold State.unlist
  split <;> simp

@[simp] theorem State.waitSpace_ctxs (s : State) (part pa : Nat) (who : Option (Nat × Eng)) (id : Nat) (va : Nat) :
    (s.waitSpace part pa who id va).ctxs = s.ctxs := by
  unfold State.waitSpace
  dsimp only
  repeat' split
  all_goals simp

@[simp] theorem State.dropWait_ctxs (s : State) (part pa : Nat) (who : Option (Nat × Eng)) (id : Nat) :
    (s.dropWait part pa who id).ctxs = s.ctxs := rfl

@[simp] theorem State.rebook_ctxs (s : State) (g : Nat) (e e' : Granule) : (s.rebook g e e').ctxs = s.ctxs := by
  unfold State.rebook
  simp

@[simp] theorem State.writeBack_ctxs (s : State) (g : Nat) : (s.writeBack g).ctxs = s.ctxs := by
  unfold State.writeBack
  dsimp only
  repeat' split
  all_goals simp

@[simp] theorem State.dropReserved_ctxs (s : State) (g : Nat) : (s.dropReserved g).ctxs = s.ctxs := by
  unfold State.dropReserved
  dsimp only
  repeat' split
  all_goals simp

@[simp] theorem State.settleReserved_ctxs (s : State) : (s.settleReserved).ctxs = s.ctxs := by
  unfold State.settleReserved
  simp

@[simp] theorem State.l2Evict_ctxs (s : State) (line : Nat) : (s.l2Evict line).ctxs = s.ctxs := by
  unfold State.l2Evict
  dsimp only
  split <;> simp

@[simp] theorem State.l2Room_ctxs (s : State) (w : Nat × Nat) : (s.l2Room w).ctxs = s.ctxs := by
  unfold State.l2Room
  repeat' split
  all_goals simp

@[simp] theorem State.l2Fill_ctxs (s0 : State) (line : Nat) : (State.l2Fill s0 line).ctxs = s0.ctxs := by
  unfold State.l2Fill
  dsimp only
  repeat' split
  all_goals simp

@[simp] theorem State.granuleWritten_ctxs (s : State) (g : Nat) : (s.granuleWritten g).ctxs = s.ctxs := by
  unfold State.granuleWritten
  split <;> simp

@[simp] theorem State.enterReq_ctxs (s : State) (part asid : Nat) (me : MissReq) :
    (s.enterReq part asid me).ctxs = s.ctxs := by
  unfold State.enterReq
  dsimp only
  repeat' split
  all_goals simp

@[simp] theorem State.enterMiss_ctxs (s : State) (k : Nat) (e : Eng) (va : Nat) : (s.enterMiss k e va).ctxs = s.ctxs := by
  unfold State.enterMiss
  simp

@[simp] theorem State.enterUnitMiss_ctxs (s : State) (k part asid va : Nat) :
    (s.enterUnitMiss k part asid va).ctxs = s.ctxs := by
  unfold State.enterUnitMiss
  simp

@[simp] theorem State.takeWay_ctxs (s : State) (k : Nat) (l : Nat × Nat × Nat) : (s.takeWay k l).ctxs = s.ctxs := by
  unfold State.takeWay
  split <;> simp

@[simp] theorem State.poisonEvent_ctxs (s : State) (part pa : Nat) (trapped : Bool) :
    (s.poisonEvent part pa trapped).ctxs = s.ctxs := rfl

@[simp] theorem State.wordEvent_ctxs (s : State) (part core : Nat) (trapped : Bool) :
    (s.wordEvent part core trapped).ctxs = s.ctxs := rfl

@[simp] theorem State.dropHolds_ctxs (s : State) (k : Nat) : (s.dropHolds k).ctxs = s.ctxs := rfl

@[simp] theorem State.dropHeld_ctxs (s : State) (k line : Nat) : (s.dropHeld k line).ctxs = s.ctxs := rfl

@[simp] theorem foldl_cores {α : Type} {f : State → α → State} (h : ∀ s a, (f s a).cores = s.cores) (l : List α)
    (s : State) : (l.foldl f s).cores = s.cores := by
  induction l generalizing s with
  | nil => rfl
  | cons a l ih => exact (ih (f s a)).trans (h s a)

@[simp] theorem State.draw_cores (s : State) : (s.draw).2.cores = s.cores := rfl

@[simp] theorem State.record_cores (s : State) (die code part unit : Nat) (dev : Bool) (addr data : Nat) :
    (s.record die code part unit dev addr data).cores = s.cores := rfl

@[simp] theorem State.setPool_cores (s : State) (part bed : Nat) (p : Pool) : (s.setPool part bed p).cores = s.cores := rfl

@[simp] theorem State.modCol_cores (s : State) (c : Nat) (f : Column → Column) : (s.modCol c f).cores = s.cores := rfl

@[simp] theorem State.setGranule_cores (s : State) (g : Nat) (e : Granule) : (s.setGranule g e).cores = s.cores := rfl

@[simp] theorem State.colEvent_cores (s : State) (c code data : Nat) (addr : Nat) :
    (s.colEvent c code data addr).cores = s.cores := rfl

@[simp] theorem State.eraseLayer_cores (s : State) (c layer : Nat) : (s.eraseLayer c layer).cores = s.cores := by
  unfold State.eraseLayer
  dsimp only
  repeat' split
  all_goals simp

@[simp] theorem State.poisonLine_cores (s : State) (line : Nat) : (s.poisonLine line).cores = s.cores := by
  unfold State.poisonLine
  split <;> simp

@[simp] theorem State.touchBank_cores (s : State) (line : Nat) : (s.touchBank line).cores = s.cores := by
  unfold State.touchBank
  dsimp only
  repeat' split
  all_goals simp

@[simp] theorem State.countFix_cores (s : State) (c line layer : Nat) : (s.countFix c line layer).cores = s.cores := by
  unfold State.countFix
  dsimp only
  repeat' split
  all_goals simp

@[simp] theorem State.readStored_cores (s0 : State) (line : Nat) : (State.readStored s0 line).cores = s0.cores := by
  unfold State.readStored
  dsimp only
  split
  · simp
  · split
    · simp
    · split
      · rw [foldl_cores (by simp)]; simp
      · simp

@[simp] theorem State.rewritten_cores (s0 : State) (line : Nat) : (State.rewritten s0 line).cores = s0.cores := by
  unfold State.rewritten
  dsimp only
  split <;> simp

@[simp] theorem State.symbolError_cores (s : State) (line layer byte : Nat) :
    (s.symbolError line layer byte).cores = s.cores := by
  unfold State.symbolError
  split <;> simp

@[simp] theorem State.marks_cores (s : State) (part : Nat) : (s.marks part).cores = s.cores := by
  unfold State.marks
  dsimp only
  repeat' split
  all_goals simp

@[simp] theorem State.unlist_cores (s : State) (pay g : Nat) (e : Granule) : (s.unlist pay g e).cores = s.cores := by
  unfold State.unlist
  split <;> simp

@[simp] theorem State.waitSpace_cores (s : State) (part pa : Nat) (who : Option (Nat × Eng)) (id : Nat) (va : Nat) :
    (s.waitSpace part pa who id va).cores = s.cores := by
  unfold State.waitSpace
  dsimp only
  repeat' split
  all_goals simp

@[simp] theorem State.dropWait_cores (s : State) (part pa : Nat) (who : Option (Nat × Eng)) (id : Nat) :
    (s.dropWait part pa who id).cores = s.cores := rfl

@[simp] theorem State.rebook_cores (s : State) (g : Nat) (e e' : Granule) : (s.rebook g e e').cores = s.cores := by
  unfold State.rebook
  simp

@[simp] theorem State.writeBack_cores (s : State) (g : Nat) : (s.writeBack g).cores = s.cores := by
  unfold State.writeBack
  dsimp only
  repeat' split
  all_goals simp

@[simp] theorem State.dropReserved_cores (s : State) (g : Nat) : (s.dropReserved g).cores = s.cores := by
  unfold State.dropReserved
  dsimp only
  repeat' split
  all_goals simp

@[simp] theorem State.settleReserved_cores (s : State) : (s.settleReserved).cores = s.cores := by
  unfold State.settleReserved
  simp

@[simp] theorem State.l2Evict_cores (s : State) (line : Nat) : (s.l2Evict line).cores = s.cores := by
  unfold State.l2Evict
  dsimp only
  split <;> simp

@[simp] theorem State.l2Room_cores (s : State) (w : Nat × Nat) : (s.l2Room w).cores = s.cores := by
  unfold State.l2Room
  repeat' split
  all_goals simp

@[simp] theorem State.l2Fill_cores (s0 : State) (line : Nat) : (State.l2Fill s0 line).cores = s0.cores := by
  unfold State.l2Fill
  dsimp only
  repeat' split
  all_goals simp

@[simp] theorem State.granuleWritten_cores (s : State) (g : Nat) : (s.granuleWritten g).cores = s.cores := by
  unfold State.granuleWritten
  split <;> simp

@[simp] theorem State.enterReq_cores (s : State) (part asid : Nat) (me : MissReq) :
    (s.enterReq part asid me).cores = s.cores := by
  unfold State.enterReq
  dsimp only
  repeat' split
  all_goals simp

@[simp] theorem State.enterMiss_cores (s : State) (k : Nat) (e : Eng) (va : Nat) :
    (s.enterMiss k e va).cores = s.cores := by
  unfold State.enterMiss
  simp

@[simp] theorem State.enterUnitMiss_cores (s : State) (k part asid va : Nat) :
    (s.enterUnitMiss k part asid va).cores = s.cores := by
  unfold State.enterUnitMiss
  simp

@[simp] theorem State.takeWay_cores (s : State) (k : Nat) (l : Nat × Nat × Nat) : (s.takeWay k l).cores = s.cores := by
  unfold State.takeWay
  split <;> simp

@[simp] theorem State.poisonEvent_cores (s : State) (part pa : Nat) (trapped : Bool) :
    (s.poisonEvent part pa trapped).cores = s.cores := rfl

@[simp] theorem State.wordEvent_cores (s : State) (part core : Nat) (trapped : Bool) :
    (s.wordEvent part core trapped).cores = s.cores := rfl

@[simp] theorem State.dropHolds_cores (s : State) (k : Nat) : (s.dropHolds k).cores = s.cores := rfl

@[simp] theorem State.dropHeld_cores (s : State) (k line : Nat) : (s.dropHeld k line).cores = s.cores := rfl

end Sys2Proof.Machine
end

section
/-! PROOFS. What a load delivers as it performs, and where a store puts its bytes (R22, R107, R128, R136, R169-R172). -/

namespace Sys2Proof.Machine

/-! ## The bytes of a scratchpad after a write (R104, R106) -/

/-- A span of any value covers an address. -/
def spanCovers (x : Nat) (h : Nat × Nat × Nat) : Bool := decide (h.1 ≤ x ∧ x < h.1 + h.2.1)

/-- The draw of the span of any value that covers an address. -/
def spanAt (x : Nat) (l : List (Nat × Nat × Nat)) : Option Nat := (l.find? (spanCovers x)).map (·.2.2)

theorem spanAt_cons (x : Nat) (h : Nat × Nat × Nat) (l : List (Nat × Nat × Nat)) :
    spanAt x (h :: l) = if h.1 ≤ x ∧ x < h.1 + h.2.1 then some h.2.2 else spanAt x l := by
  unfold spanAt
  by_cases hc : h.1 ≤ x ∧ x < h.1 + h.2.1
  · rw [List.find?_cons_of_pos (by simpa [spanCovers] using hc), if_pos hc]; rfl
  · rw [List.find?_cons_of_neg (by simpa [spanCovers] using hc), if_neg hc]

theorem spanAt_append (x : Nat) (l m : List (Nat × Nat × Nat)) : spanAt x (l ++ m) = (spanAt x l).or (spanAt x m) := by
  induction l with
  | nil => rfl
  | cons h l ih => rw [List.cons_append, spanAt_cons, spanAt_cons, ih]; split <;> rfl

theorem spanAt_ite (x : Nat) (c : Prop) [Decidable c] (h : Nat × Nat × Nat) :
    spanAt x (if c then [h] else []) = if c ∧ h.1 ≤ x ∧ x < h.1 + h.2.1 then some h.2.2 else none := by
  by_cases hc : c
  · simp only [hc, if_true, true_and, spanAt_cons]; rfl
  · simp only [hc, if_false, false_and]; rfl

/-- The spans of any value, less one address: no span covers it, and every other address is covered as before. -/
theorem spanAt_cutSpan (a x : Nat) (l : List (Nat × Nat × Nat)) :
    spanAt x (cutSpan a l) = if x = a then none else spanAt x l := by
  induction l with
  | nil => simp [cutSpan, spanAt]
  | cons h l ih =>
    obtain ⟨b, n, d⟩ := h
    unfold cutSpan
    by_cases hin : b ≤ a ∧ a < b + n
    · rw [if_pos hin, spanAt_append, spanAt_append, spanAt_ite, spanAt_ite, ih, spanAt_cons]
      dsimp only
      rcases Nat.lt_trichotomy x a with hx | rfl | hx
      · rw [if_neg (by omega : ¬(a + 1 < b + n ∧ a + 1 ≤ x ∧ x < a + 1 + (b + n - (a + 1)))), Option.or_none]
        have hne : x ≠ a := by omega
        rw [if_neg hne, if_neg hne]
        by_cases hb : b ≤ x
        · rw [if_pos (by omega), if_pos (by omega)]; rfl
        · rw [if_neg (by omega), if_neg (by omega)]; rfl
      · rw [if_neg (by omega), if_neg (by omega), if_pos rfl, if_pos rfl]; rfl
      · rw [if_neg (by omega : ¬(b < a ∧ b ≤ x ∧ x < b + (a - b))), Option.none_or]
        have hne : x ≠ a := by omega
        rw [if_neg hne, if_neg hne]
        by_cases hb : x < b + n
        · rw [if_pos (by omega), if_pos (by omega)]; rfl
        · rw [if_neg (by omega), if_neg (by omega)]; rfl
    · rw [if_neg hin, spanAt_cons, spanAt_cons, ih]
      by_cases hx : x = a
      · subst hx; rw [if_neg hin, if_pos rfl, if_pos rfl]
      · rw [if_neg hx, if_neg hx]

theorem Sram.get_eq (r : Sram) (x : Nat) : r.get x = match spanAt x r.havoc with
    | some d => Config.freeByte d x
    | none => memGet r.cells x := by
  unfold Sram.get spanAt
  show (match r.havoc.find? (spanCovers x) with | some h => _ | none => _) = _
  cases r.havoc.find? (spanCovers x) <;> rfl

theorem Sram.get_put (r : Sram) (a x : Nat) (b : Byte) : (r.put a b).get x = if x = a then b else r.get x := by
  rw [Sram.get_eq, Sram.get_eq]
  show (match spanAt x (cutSpan a r.havoc) with | some d => _ | none => memGet (memPut r.cells a b) x) = _
  rw [spanAt_cutSpan, memGet_memPut]
  by_cases hx : x = a
  · simp only [hx, if_true]
  · simp only [hx, if_false]

theorem Sram.get_putAll (r : Sram) (a x : Nat) (bs : List Byte) :
    (r.putAll a bs).get x = if a ≤ x ∧ x < a + bs.length then bs.getD (x - a) 0 else r.get x := by
  induction bs generalizing r a with
  | nil => rw [if_neg (by rw [List.length_nil]; omega)]; rfl
  | cons b l ih =>
    show ((r.put a b).putAll (a + 1) l).get x = _
    rw [ih, Sram.get_put, List.length_cons]
    by_cases hx : x = a
    · subst hx
      rw [if_neg (by omega), if_pos rfl, if_pos (by omega), Nat.sub_self, List.getD_cons_zero]
    · by_cases hin : a + 1 ≤ x ∧ x < a + 1 + l.length
      · rw [if_pos hin, if_pos (by omega), show x - a = (x - (a + 1)) + 1 by omega, List.getD_cons_succ]
      · rw [if_neg hin, if_neg hx, if_neg (by omega)]

/-! ## Loads (R169, R170, R172) -/

theorem Ctx.mq_endAccessWait (c : Ctx) (e : Eng) (id : Nat) : (c.endAccessWait e id).mq = c.mq := by
  have hstill : ∀ d : Ctx, Ctx.still d.wake = Ctx.still d := Ctx.still_wake
  unfold Ctx.endAccessWait
  split
  · split
    · unfold Ctx.endWait
      have h := (Ctx.still_advance ((c.setEng e { c.eng e with wait := .no, wlen := 0, wid := 0 }).tokFill (c.eng e).wid) e
        (c.eng e).wlen)
      exact congrArg Ctx.mq ((hstill _).trans h) |>.trans rfl
    · rfl
  · rfl

/-- The end of a wait of an engine keeps its x registers. -/
theorem Ctx.rx_endAccessWait (c : Ctx) (e : Eng) (id : Nat) (r : Reg) : ((c.endAccessWait e id).eng e).rx r = (c.eng e).rx r := by
  unfold Ctx.endAccessWait
  split
  · split
    · unfold Ctx.endWait
      rw [Ctx.wake_eng]
      have h := Ctx.advance_same ((c.setEng e { c.eng e with wait := .no, wlen := 0, wid := 0 }).tokFill (c.eng e).wid) e (c.eng e).wlen
      have hx := congrArg (fun g : Engine => g.rx r) h
      refine Eq.trans hx ?_
      show (Ctx.eng (c.setEng e _) e).rx r = _
      rw [Ctx.eng_setEng_same]
      rfl
    · rfl
  · rfl

theorem State.finishAccess_ctx (s : State) (k id : Nat) (e : Eng) :
    (s.finishAccess k id e).ctx k =
      ((({ s.ctx k with mq := (s.ctx k).mq.filter fun a => a.id != id }).tokFill id).wake).endAccessWait e id :=
  State.ctx_modCtx_same s k _

/-- An access that has performed has left the queues. -/
theorem State.finishAccess_access (s : State) (k id : Nat) (e : Eng) : ((s.finishAccess k id e).ctx k).access id = none := by
  unfold Ctx.access
  rw [State.finishAccess_ctx, Ctx.mq_endAccessWait]
  show ((s.ctx k).mq.filter fun a => a.id != id).find? (fun a => a.id == id) = none
  rw [List.find?_eq_none]
  intro a ha
  simpa using (List.mem_filter.1 ha).2

/-- The end of an access keeps the x registers of its engine. -/
theorem State.finishAccess_rx (s : State) (k id : Nat) (e : Eng) (r : Reg) :
    (((s.finishAccess k id e).ctx k).eng e).rx r = ((s.ctx k).eng e).rx r := by
  rw [State.finishAccess_ctx, Ctx.rx_endAccessWait, Ctx.wake_eng]
  rfl

theorem State.writeReg_rx (s : State) (k : Nat) (e : Eng) {d : Reg} (v : Quad) (h : d ≠ 0) :
    (((s.writeReg k e d v).ctx k).eng e).rx d = v := by
  unfold State.writeReg
  rw [State.ctx_modCtx_same, Ctx.eng_modEng_same, Engine.rx_wx, if_pos ⟨rfl, h⟩]

@[simp] theorem State.readPart_mem (s : State) (k : Nat) (a : Access) (p : Part) : (s.readPart k a p).1.mem = s.mem := by
  unfold State.readPart
  dsimp only
  repeat' split
  all_goals simp

theorem lineWrite_whole {data bs : List Byte} (h : bs.length = data.length) : lineWrite data 0 bs = bs := by
  simp [lineWrite, h]

/-- A load of one part that performs delivers its bytes. -/
theorem State.loadPart_one {s u : State} {k : Nat} {a : Access} {p : Part} {bs : List Byte} (hp : a.parts = [p])
    (hread : (s.acquireOf k a).readPart k a p = (u, some bs)) (hoff : p.off = 0) (hlen : bs.length = a.data.length) :
    s.loadPart k a 0 p = u.deliverLoad k { a with data := bs, parts := [{ p with done := true }] } := by
  have hm : markDone a.parts 0 = [{ p with done := true }] := by rw [hp]; rfl
  unfold State.loadPart
  rw [hread]
  dsimp only
  rw [hm, hoff, lineWrite_whole hlen]
  rfl

/-- A load of one part that nothing holds back performs with that part. -/
theorem State.tryPerform_load {s : State} {k id : Nat} {a : Access} {p : Part} (hacc : (s.ctx k).access id = some a)
    (hst : (s.ctx k).st ≠ .idle) (hack : (s.ctx k).systemAcked a = true) (hstale : a.stale = false) (hparts : a.parts = [p])
    (hdone : p.done = false) (hmay : s.mayPerform k a (some p) = true)
    (hkind : (∃ n sext d, a.kind = .load n sext d) ∨ ∃ q, a.kind = .vload q) : s.tryPerform k id 0 = s.loadPart k a 0 p := by
  have hbefore : s.elementsBefore a 0 p = true := by simp [State.elementsBefore]
  have hidle : ¬((s.ctx k).st = .idle ∨ (!(s.ctx k).systemAcked a) = true) := by simp [hst, hack]
  have h0 : a.parts[0]? = some p := by rw [hparts]; rfl
  rcases hkind with ⟨n, sext, d, hk⟩ | ⟨q, hk⟩ <;>
    simp only [State.tryPerform, hacc, if_neg hidle, hstale, if_neg Bool.false_ne_true, hk, h0, hdone, hbefore, hmay,
      Bool.not_true, Bool.or_self]

/-- Settles O29: the one part of the load performs, and its bytes are delivered. -/
theorem loadDeliversItsBytes : Obligations.LoadDeliversItsBytes := by
  intro s k id a p bs u hacc hid hst hack hstale hparts hdone hmay hread hoff hlen
  subst hid
  have hmem : u.mem = s.mem := by
    have h := congrArg (fun r => r.1.mem) hread
    simpa using h.symm
  have hperf := fun hk => (State.tryPerform_load hacc hst hack hstale hparts hdone hmay hk).trans
    (State.loadPart_one hparts hread hoff hlen)
  refine ⟨fun n sext d hk => ?_, fun q hk => ?_⟩
  · have ht : s.tryPerform k a.id 0 = (u.writeReg k a.eng d (extend sext n (leNat bs))).finishAccess k a.id a.eng := by
      rw [hperf (.inl ⟨n, sext, d, hk⟩)]
      simp only [State.deliverLoad, hk]
    dsimp only
    rw [ht]
    refine ⟨fun hd => ?_, State.finishAccess_access _ k a.id a.eng, by simpa using hmem⟩
    rw [State.finishAccess_rx, State.writeReg_rx _ _ _ _ hd]
    rfl
  · rw [hperf (.inr ⟨q, hk⟩)]
    simp only [State.deliverLoad, hk]
    rfl

/-! ## Stores (R22, R107, R128, R170) -/

theorem State.reserveLine_mem {s t : State} {part pa : Nat} (h : s.reserveLine part pa = some t) : t.mem = s.mem := by
  unfold State.reserveLine at h
  dsimp only at h
  split at h
  · cases h
  · split at h <;> cases h <;> simp
  · cases h; simp

theorem State.reserveLine_ctxs {s t : State} {part pa : Nat} (h : s.reserveLine part pa = some t) : t.ctxs = s.ctxs := by
  unfold State.reserveLine at h
  dsimp only at h
  split at h
  · cases h
  · split at h <;> cases h <;> simp
  · cases h; simp

/-- The version of a context after the hold of a line ends. -/
theorem State.endHold_ver (s : State) (k line n : Nat) : ((s.endHold k line).ctx n).ver = (s.ctx n).ver := by
  unfold State.endHold
  split
  · rw [State.ctx_modCtx]
    split
    · next h => subst h; rfl
    · rfl
  · rfl

theorem State.ctx_of_ctxs {s t : State} (h : t.ctxs = s.ctxs) (n : Nat) : t.ctx n = s.ctx n := by
  unfold State.ctx; rw [h]

theorem State.core_of_cores {s t : State} (h : t.cores = s.cores) (n : Nat) : t.core n = s.core n := by
  unfold State.core; rw [h]

/-- A part of a store to device memory that performs has found its headroom, and enters its bytes in the version. -/
theorem State.writePart_mem_eq {s t : State} {k : Nat} {a : Access} {p : Part} {bs : List Byte} (hp : p.place = .mem)
    (h : s.writePart k a p bs = (t, true)) : ∃ s1, s.reserveLine (s.ctx k).part p.addr = some s1 ∧
      t = ((s1.dropWait (s.ctx k).part p.addr (some (k, a.eng)) a.id).endHold k (p.addr / 128)).verWrite k p.addr bs := by
  simp only [State.writePart, hp] at h
  split at h
  · simp at h
  · split at h
    · simp at h
    · split at h
      · simp at h
      · next s1 hs1 => exact ⟨s1, hs1, (Prod.mk.inj h).1.symm⟩

theorem State.verWrite_ctx (s : State) (k pa n : Nat) (bs : List Byte) :
    ((s.verWrite k pa bs).ctx n).ver = if n = k then { (s.ctx k).ver with
      mem := overlay (s.ctx k).ver.mem pa bs
      full := if bs.length = 128 ∧ !(s.ctx k).ver.full.contains (pa / 128) then pa / 128 :: (s.ctx k).ver.full else (s.ctx k).ver.full }
      else (s.ctx n).ver := by
  unfold State.verWrite
  rw [State.ctx_modCtx]
  have hway := fun m => State.ctx_of_ctxs (State.takeWay_ctxs s k (0, 0, pa / 128)) m
  split <;> rw [hway]

theorem State.coverFwd_cores (s : State) (skip : Option Nat) (core : Nat) (l : List (Nat × Byte)) :
    (s.coverFwd skip core l).cores = s.cores := by
  unfold State.coverFwd; split <;> rfl

theorem State.core_setCore (s : State) (c n : Nat) (v : Core) : (s.setCore c v).core n = if n = c then v else s.core n :=
  tget_tput _ s.cores c n v

theorem State.core_modCore (s : State) (c n : Nat) (f : Core → Core) :
    (s.modCore c f).core n = if n = c then f (s.core c) else s.core n := State.core_setCore s c n _

/-- Bytes put into a scratchpad with no uncorrectable word among them land where they are put, and nowhere else. -/
theorem State.spadPut_core {s : State} {c a : Nat} {bs : List Byte} (h : s.badWords c a bs.length = []) (n : Nat) :
    (s.spadPut c a bs).core n = if n = c then
      { s.core c with sram := (s.core c).sram.putAll a bs, poison := clearWords (s.core c).poison a bs.length } else s.core n := by
  have hw : (s.core c).poison.filter (fun w => decide (8 * w < a + bs.length ∧ a < 8 * w + 8)) = [] := h
  have hz : s.zeroWords c a bs.length = s.setCore c { s.core c with sram := (s.core c).sram } := by
    unfold State.zeroWords; dsimp only; rw [hw]; rfl
  unfold State.spadPut
  rw [hz, State.core_modCore, State.core_setCore, State.core_setCore, if_pos rfl]
  split <;> rfl

/-- A store in a scratchpad leaves the cores as putting its bytes there does. -/
theorem State.spadStore_cores (s : State) (k core : Nat) (a : Access) (p : Part) (bs : List Byte) :
    (s.spadStore k core a p bs).cores = (s.spadPut core p.addr bs).cores := by
  unfold State.spadStore State.spadWrite
  split
  · exact State.coverFwd_cores _ _ _ _
  · exact State.coverFwd_cores _ _ _ _

/-- Settles O30: place by place, where the bytes land. -/
theorem storeWritesItsBytes : Obligations.StoreWritesItsBytes := by
  intro s k a p bs t h
  refine ⟨fun hp => ?_, fun c hp hbad => ?_, fun c hp => ?_⟩
  · obtain ⟨s1, hs1, rfl⟩ := State.writePart_mem_eq hp h
    have hver : ∀ n, (((s1.dropWait (s.ctx k).part p.addr (some (k, a.eng)) a.id).endHold k (p.addr / 128)).ctx n).ver = (s.ctx n).ver :=
      fun n => (State.endHold_ver _ _ _ _).trans (congrArg Ctx.ver ((State.ctx_of_ctxs (State.dropWait_ctxs s1 _ _ _ _) n).trans
        (State.ctx_of_ctxs (State.reserveLine_ctxs hs1) n)))
    refine ⟨fun x => ?_, ?_, fun n hn => ?_⟩
    · simp [State.reserveLine_mem hs1]
    · rw [State.verWrite_ctx, if_pos rfl, hver]
    · rw [State.verWrite_ctx, if_neg hn, hver]
  · simp only [State.writePart, hp] at h
    split at h
    · simp at h
    · obtain rfl := (Prod.mk.inj h).1
      have hcore : ∀ n, (s.spadStore k c a p bs).core n = (s.spadPut c p.addr bs).core n :=
        State.core_of_cores (State.spadStore_cores s k c a p bs)
      refine ⟨fun x => by simp, fun j hj => ?_, fun x hx => ?_, fun n hn => ?_⟩
      · rw [hcore, State.spadPut_core hbad, if_pos rfl, Sram.get_putAll, if_pos (by omega), Nat.add_sub_cancel_left]
      · rw [hcore, State.spadPut_core hbad, if_pos rfl, Sram.get_putAll, if_neg (by omega)]
      · rw [hcore, State.spadPut_core hbad, if_neg hn]
  · simp only [State.writePart, hp] at h
    split at h
    · simp at h
    · split at h
      · simp at h
      · obtain rfl := (Prod.mk.inj h).1
        have hway := fun n => State.ctx_of_ctxs (State.takeWay_ctxs s k (1, c, p.addr / 128)) n
        have hctx : ∀ n, (s.peerWrite k c p.addr bs).ctx n = _ := fun n => State.ctx_modCtx (s.takeWay k (1, c, p.addr / 128)) k n _
        refine ⟨fun x => by simp, ?_, fun d hd => ?_, ?_, fun n hn => ?_, fun n => ?_⟩
        · rw [hctx, if_pos rfl, hway]; exact tget_tput_same _ _ _ _
        · rw [hctx, if_pos rfl, hway]; exact tget_tput_other _ _ _ hd
        · rw [hctx, if_pos rfl, hway]
        · rw [hctx, if_neg hn, hway]
        · exact congrArg Core.sram (State.core_of_cores (State.takeWay_cores s k (1, c, p.addr / 128)) n)

end Sys2Proof.Machine
end

section
/-! PROOFS. The ordering instructions, the order of the accesses of a queue, and the tags of transfers (R135-R141, R176, R184,
R185). -/

namespace Sys2Proof.Machine

/-! ## Ordering instructions (R126, R135, R176) -/

/-- An ordering word before an access that releases at system scope. -/
def systemRelease : Mods := { pfx := { ord := some { scope := .system, rel := true, acq := false } } }

/-- A copy to system space that no acknowledgement has answered. -/
def unackedCopy : Access :=
  { id := 0, eng := .l, inL := false, inS := false, pos := { head := 0, visit := 0, off := 0 },
    kind := .xfer { kind := .copy, dspc := .sys } }

/-- A task whose engine L has given such a copy. -/
def unacknowledged : State :=
  { cur := { eng := .l, len := 2 }, ctxs := [(0, { st := .run, nextId := 1, mq := [unackedCopy] })] }

/-- The accesses that a step leaves in the queues of context 0. -/
def queuedAfter (o : Host.Outcome State Fault Refusal) : Nat := match o with | .next t => (t.ctx 0).mq.length | _ => 0

/-- Refutes O31: the modifiers of `mark` range over those that no encoding gives it too; one that releases at system scope waits
for the acknowledgement of an earlier write to system space (R126), though nothing orders the mark behind it. -/
theorem not_lineAndOrderingInstructions : ¬ Obligations.LineAndOrderingInstructions := by
  rintro ⟨-, -, h⟩
  obtain ⟨hmark, -⟩ := h unacknowledged systemRelease 0 0 (by decide +kernel)
  obtain ⟨-, hperforms⟩ := hmark ⟨by decide +kernel, by decide +kernel, by decide +kernel⟩
  have hexec := congrArg queuedAfter (hperforms (by decide +kernel) (by decide +kernel) (by decide +kernel) (by decide +kernel))
  exact absurd hexec (by decide +kernel)

/-! ## The order of accesses (R138, R139) -/

/-- A load or a store of the queues. -/
def AccKind.plain (x : AccKind) : Prop := x = .store ∨ (∃ n e d, x = .load n e d) ∨ ∃ f, x = .vload f

/-- An earlier load or store holds back a later one where one of the two orders them, or they have parts for one target. -/
theorem State.holdsBack_plain {s : State} {a b : Access} {p q : Part} (ha : a.kind.plain) (hb : b.kind.plain)
    (h : b.acquires = true ∨ a.releases = true ∨
      (((b.inL = true ∧ a.inL = true) ∨ (b.inS = true ∧ a.inS = true)) ∧ q ∈ b.parts ∧ q.done = false ∧ s.target q = s.target p)) :
    s.holdsBack b a (some (s.target p)) = true := by
  have hcopy : a.isCopy = false := by
    rcases ha with ha | ⟨n, e, d, ha⟩ | ⟨f, ha⟩ <;> simp [Access.isCopy, ha]
  have haop : a.isOp = false := by rcases ha with ha | ⟨n, e, d, ha⟩ | ⟨f, ha⟩ <;> simp [Access.isOp, ha]
  have hbop : b.isOp = false := by rcases hb with hb | ⟨n, e, d, hb⟩ | ⟨f, hb⟩ <;> simp [Access.isOp, hb]
  have hopen : s.openTargets b = (b.parts.filter fun p => !p.done).map s.target := by
    rcases hb with hb | ⟨n, e, d, hb⟩ | ⟨f, hb⟩ <;> simp [State.openTargets, hb]
  have horders : s.ordersAccess b a (some (s.target p)) = true := by
    have heq : s.ordersAccess b a (some (s.target p)) = (b.acquires || a.releases ||
        ((b.inL && a.inL) || (b.inS && a.inS)) && (s.openTargets b).contains (s.target p)) := by
      rcases ha with ha | ⟨n, e, d, ha⟩ | ⟨f, ha⟩ <;> simp [State.ordersAccess, ha, haop, hbop]
    rw [heq, hopen]
    rcases h with h | h | ⟨hin, hq, hdone, ht⟩
    · simp [h]
    · simp [h]
    · have hmem : s.target p ∈ (b.parts.filter fun p => !p.done).map s.target :=
        List.mem_map.2 ⟨q, List.mem_filter.2 ⟨hq, by simp [hdone]⟩, ht⟩
      have hqueue : ((b.inL && a.inL) || (b.inS && a.inS)) = true := by rcases hin with ⟨h1, h2⟩ | ⟨h1, h2⟩ <;> simp [h1, h2]
      rw [List.contains_iff_mem.2 hmem, hqueue, Bool.and_true, Bool.or_true]
  rcases hb with hb | ⟨n, e, d, hb⟩ | ⟨f, hb⟩ <;> rcases ha with ha | ⟨n', e', d', ha⟩ | ⟨f', ha⟩ <;>
    simp [State.holdsBack, hb, ha, hcopy, horders]

/-- Settles O32: an access that an earlier one holds back does not perform. -/
theorem orderOfAccesses : Obligations.OrderOfAccesses := by
  intro s k a b p q hb hne hbefore ha hkb h
  have hhold := State.holdsBack_plain (s := s) (p := p) (q := q) ha hkb h
  have hmq : ((s.ctx k).mq.all fun c => c.id == a.id || !(s.ctx k).before c a || !s.holdsBack c a (some (s.target p))) = false := by
    rw [List.all_eq_false]
    exact ⟨b, hb, by simp [hne, hbefore, hhold]⟩
  have hplace : (match a.kind with
      | .xfer x => if x.kind = .creq then some (Target.slice (s.colSlice x.col)) else none
      | _ => (some p).map s.target) = some (s.target p) := by
    rcases ha with ha | ⟨n, e, d, ha⟩ | ⟨f, ha⟩ <;> simp [ha]
  have horder : s.inOrder k a (some (s.target p)) = false := by simp [State.inOrder, hmq]
  rcases ha with ha | ⟨n, e, d, ha⟩ | ⟨f, ha⟩ <;> simp [State.mayPerform, ha, horder]

/-! ## Transfer tags (R184, R185) -/

theorem State.tagAcquire_eq (s : State) (k : Nat) (v : Quad) : s.tagAcquire k v = if v = 0 then s else s.l1DropAll (k / 4) := by
  unfold State.tagAcquire; split <;> rfl

/-- What a wait on tags comes to. -/
def State.tagsWaited (s : State) (all : Bool) (d a b : Reg) : Res :=
  if s.rx a = 0 ∨ tagsMet all (s.core s.cur.core).tagmap (s.rx a) = true then
    match s.tagDeferred s.me ((s.core s.cur.core).tagmap &&& s.rx a) with
    | some e => .stay (s.raiseDeferred s.me e)
    | none => .ok ((s.tagAcquire s.me ((s.core s.cur.core).tagmap &&& s.rx a)).wx d ((s.core s.cur.core).tagmap &&& s.rx a))
  else .wait (.tags all d (s.rx a) (s.rx b) s.clock) s

/-- A ready wait on tags returns them, traps with a deferred fault, or waits. -/
theorem Ready.tagWait {i : Instr} {s : State} (hr : Ready s i) (all : Bool) (d a b : Reg)
    (he : exec i s = tagWait (instrMods i) all d a b s)
    (hf : formOf i s = { mods := instrMods i, cls := onX, regs := [d, a, b] }) :
    exec i s = .next (s.settleRes (formOf i s) (s.tagsWaited all d a b)) := by
  refine (hr.run he rfl hf).trans ?_
  simp only [Bool.or_eq_true, decide_eq_true_eq]
  rfl

theorem tagsMet_iff (all : Bool) (t m : Quad) : tagsMet all t m = true ↔ if all then t &&& m = m else t &&& m ≠ 0 := by
  cases all <;> simp [tagsMet]

/-- The lowest set bit of a pattern. -/
theorem lowestBit_eq {v : Quad} {n : Nat} (hn : n < 64) (hb : v.getLsbD n = true) (hl : ∀ j, j < n → v.getLsbD j = false) :
    lowestBit v = n := by
  have hfind : (List.range 64).find? (fun i => v.getLsbD i) = some n := by
    rw [List.find?_range_eq_some]
    exact ⟨hb, by simpa using hn, fun j hj => by simp [hl j hj]⟩
  rw [lowestBit, hfind]; rfl

theorem State.clearTags_core (s : State) (c : Nat) (x : Quad) :
    (s.clearTags c x).core c = { s.core c with tagmap :=
      if (s.core c).tagSet.1 = s.clock then (s.core c).tagmap &&& (~~~x ||| (s.core c).tagSet.2) else (s.core c).tagmap &&& ~~~x } := by
  unfold State.clearTags
  rw [State.core_modCore, if_pos rfl]
  have hnot : ∀ y : Quad, ~~~(x &&& ~~~y) = ~~~x ||| y := fun y => by rw [BitVec.not_and]; simp
  split
  · rw [hnot]
  · rw [hnot]; simp

/-- Settles O33: each of the four instructions at once, or with the wait or the deferred fault that it meets. -/
theorem transferTags : Obligations.TransferTags := by
  intro s m d a b all
  have hmet : s.rx a = 0 ∨ tagsMet all (s.core s.cur.core).tagmap (s.rx a) = true ↔
      s.rx a = 0 ∨ (if all then (s.core s.cur.core).tagmap &&& s.rx a = s.rx a else (s.core s.cur.core).tagmap &&& s.rx a ≠ 0) := by
    rw [tagsMet_iff]
  refine ⟨fun hr => ?_, fun hr => ⟨fun hv => ?_, fun n hn hb hl hd => ?_, fun n hn hb hl e hd => ?_⟩,
    fun hr => hr.run (e := execTclr m a s) rfl rfl rfl, fun x => ⟨State.clearTags_core s _ x, fun n hn => ?_, rfl, rfl⟩⟩
  · have hrun : exec (if all then .twall m d a b else .twany m d a b) s =
        .next (s.settleRes (formOf (if all then .twall m d a b else .twany m d a b) s) (s.tagsWaited all d a b)) := by
      cases all
      · exact Ready.tagWait hr false d a b rfl rfl
      · exact Ready.tagWait hr true d a b rfl rfl
    rw [hrun, State.tagsWaited]
    refine ⟨fun h hd => ?_, fun h e hd => ?_, fun h => ?_⟩
    · rw [if_pos (hmet.2 h), hd, State.tagAcquire_eq]; rfl
    · rw [if_pos (hmet.2 h), hd]; rfl
    · rw [if_neg fun x => h (hmet.1 x)]; rfl
  · rw [hr.run (e := execTffr m d a s) rfl rfl rfl, if_pos hv]; rfl
  · have hv : (s.core s.cur.core).tagmap &&& s.rx a ≠ 0 := fun h => by rw [h] at hb; simp at hb
    rw [hr.run (e := execTffr m d a s) rfl rfl rfl, if_neg hv, lowestBit_eq hn hb hl, hd, State.tagAcquire_eq, if_neg hv]; rfl
  · have hv : (s.core s.cur.core).tagmap &&& s.rx a ≠ 0 := fun h => by rw [h] at hb; simp at hb
    rw [hr.run (e := execTffr m d a s) rfl rfl rfl, if_neg hv, lowestBit_eq hn hb hl, hd]; rfl
  · exact (State.core_modCore s _ n _).trans (if_neg hn)

end Sys2Proof.Machine
end

section
/-! PROOFS. A line that is good stays good: what the bookkeeping of a write does to the layers of a column and to the marks of
poison (R125, R302, R306, R307). -/

namespace Sys2Proof.Machine

theorem tfind_tput_same {α : Type} (t : Tab α) (k : Nat) (v : α) : tfind (tput t k v) k = some v := by
  induction t with
  | nil => simp [tput, tfind]
  | cons p r ih =>
    obtain ⟨j, w⟩ := p
    simp only [tput]
    split
    · simp [tfind]
    · split
      · simp [tfind]
      · next hne => simp only [tfind, ih]; rw [if_neg (fun e => hne e.symm)]

theorem tfind_tput_other {α : Type} (t : Tab α) {k n : Nat} (v : α) (h : n ≠ k) : tfind (tput t k v) n = tfind t n := by
  induction t with
  | nil => simp [tput, tfind, Ne.symm h]
  | cons p r ih =>
    obtain ⟨j, w⟩ := p
    simp only [tput]
    split
    · simp [tfind, Ne.symm h]
    · split
      · next heq => subst heq; simp [tfind, Ne.symm h]
      · simp only [tfind, ih]

theorem tget_of_tfind_none {α : Type} {d : α} {t : Tab α} {k : Nat} (h : tfind t k = none) : tget d t k = d := by
  induction t with
  | nil => rfl
  | cons p r ih =>
    obtain ⟨j, v⟩ := p
    simp only [tfind] at h
    split at h
    · cases h
    · next hne => simp only [tget, if_neg hne]; exact ih h

/-! ## Where the lines lie -/

/-- Two machines place every granule in the same column of the same bed. -/
def State.SamePlaces (s t : State) : Prop := ∀ g, (t.granule g).bed = (s.granule g).bed ∧ (t.granule g).col = (s.granule g).col

theorem State.SamePlaces.trans {s t u : State} (h : s.SamePlaces t) (h' : t.SamePlaces u) : s.SamePlaces u := fun g =>
  ⟨(h' g).1.trans (h g).1, (h' g).2.trans (h g).2⟩

theorem State.samePlaces_of_eq {s t : State} (hg : t.grans = s.grans) (hb : t.beds = s.beds) : s.SamePlaces t := by
  intro g
  unfold State.granule State.bed
  rw [hg, hb]
  cases tfind s.grans g with
  | none => exact ⟨rfl, rfl⟩
  | some e => exact ⟨rfl, rfl⟩

theorem State.granule_of_tfind {s : State} {g : Nat} {e : Granule} (h : tfind s.grans g = some e) : s.granule g = e := by
  unfold State.granule
  rw [h]

theorem State.samePlaces_setGranule (s : State) {g : Nat} {e : Granule} (hb : e.bed = (s.granule g).bed)
    (hc : e.col = (s.granule g).col) : s.SamePlaces (s.setGranule g e) := by
  intro x
  by_cases hx : x = g
  · subst hx
    rw [State.granule_of_tfind (tfind_tput_same s.grans x e)]
    exact ⟨hb, hc⟩
  · have hf : tfind (s.setGranule g e).grans x = tfind s.grans x := tfind_tput_other s.grans e hx
    unfold State.granule
    rw [hf]
    cases tfind s.grans x with
    | none => exact ⟨rfl, rfl⟩
    | some e => exact ⟨rfl, rfl⟩

theorem State.SamePlaces.columnOf {s t : State} (h : s.SamePlaces t) (line : Nat) : t.columnOf line = s.columnOf line := by
  unfold State.columnOf
  simp only [h (line / 64)]

/-! ## What may become of a line -/

/-- From `s` to `t` the line `line` has met no new error: its column has lost no layer, its place and its cached copy are kept,
and the errors of its stored symbols are those that they were, or none. -/
structure State.NoWorse (line : Nat) (s t : State) : Prop where
  poison : t.poison.contains line = true → s.poison.contains line = true
  places : s.SamePlaces t
  health : ∀ c, (t.col c).lost = (s.col c).lost ∧ (t.col c).erased = (s.col c).erased
  cached : s.l2.contains line = true → t.l2.contains line = true
  errs   : t.errsOf line = s.errsOf line ∨ t.errsOf line = []

theorem State.NoWorse.refl (line : Nat) (s : State) : s.NoWorse line s :=
  ⟨id, fun _ => ⟨rfl, rfl⟩, fun _ => ⟨rfl, rfl⟩, id, .inl rfl⟩

theorem State.NoWorse.trans {line : Nat} {s t u : State} (h : s.NoWorse line t) (h' : t.NoWorse line u) : s.NoWorse line u where
  poison := fun x => h.poison (h'.poison x)
  places := h.places.trans h'.places
  health := fun c => ⟨(h'.health c).1.trans (h.health c).1, (h'.health c).2.trans (h.health c).2⟩
  cached := fun x => h'.cached (h.cached x)
  errs := by
    rcases h'.errs with e | e
    · rw [e]; exact h.errs
    · exact .inr e

/-- The fields by which a line is good or not. -/
theorem State.noWorse_of_eq {s t : State} (line : Nat) (hp : t.poison = s.poison) (hg : t.grans = s.grans)
    (hb : t.beds = s.beds) (hc : t.cols = s.cols) (hl : t.l2 = s.l2) (he : t.errs = s.errs) : s.NoWorse line t where
  poison := fun h => by rwa [hp] at h
  places := State.samePlaces_of_eq hg hb
  health := fun c => by unfold State.col; rw [hc]; exact ⟨rfl, rfl⟩
  cached := fun h => by rwa [hl]
  errs := .inl (by unfold State.errsOf; rw [he])

theorem decodesWith_nil (o : Option Nat) : decodesWith o [] = true := by
  cases o <;> simp [decodesWith]

theorem State.decodes_eq (s : State) (line : Nat) :
    s.decodes line = decodesWith (s.col (s.columnOf line)).erased (s.errsOf line) := by
  unfold State.decodes
  split
  · next h => rw [h, decodesWith_nil]
  · rfl

theorem State.NoWorse.decodes {line : Nat} {s t : State} (h : s.NoWorse line t) (hd : s.decodes line = true) :
    t.decodes line = true := by
  rw [State.decodes_eq] at hd ⊢
  rcases h.errs with he | he
  · rwa [he, h.places.columnOf, (h.health _).2]
  · rw [he, decodesWith_nil]

theorem State.linePoisoned_eq_false {s : State} {line : Nat} :
    s.linePoisoned line = false ↔ s.poison.contains line = false ∧ (s.col (s.columnOf line)).lost = false ∧
      (s.l2.contains line = true ∨ s.decodes line = true) := by
  unfold State.linePoisoned
  cases s.poison.contains line <;> cases (s.col (s.columnOf line)).lost <;> cases s.l2.contains line <;> cases s.decodes line <;> decide

theorem State.NoWorse.linePoisoned {line : Nat} {s t : State} (h : s.NoWorse line t) (hs : s.linePoisoned line = false) :
    t.linePoisoned line = false := by
  obtain ⟨hp, hl, hd⟩ := State.linePoisoned_eq_false.mp hs
  refine State.linePoisoned_eq_false.mpr ⟨?_, ?_, ?_⟩
  · cases hx : t.poison.contains line with
    | false => rfl
    | true => rw [h.poison hx] at hp; cases hp
  · rw [h.places.columnOf, (h.health _).1, hl]
  · exact hd.imp h.cached h.decodes

/-! ## The operations of the bookkeeping -/

theorem State.noWorse_modPart (line : Nat) (s : State) (p : Nat) (f : Partition → Partition) : s.NoWorse line (s.modPart p f) :=
  State.noWorse_of_eq line rfl rfl rfl rfl rfl rfl

theorem State.noWorse_unlist (line : Nat) (s : State) (pay g : Nat) (e : Granule) : s.NoWorse line (s.unlist pay g e) := by
  unfold State.unlist
  split
  · exact State.noWorse_modPart ..
  · exact .refl ..

theorem State.noWorse_sendIf (line : Nat) (s : State) (b : Bool) (m : Msg) :
    s.NoWorse line (if b then s.send m else s) := by
  cases b
  · exact .refl ..
  · exact State.noWorse_of_eq line rfl rfl rfl rfl rfl rfl

theorem State.noWorse_marks (line : Nat) (s : State) (part : Nat) : s.NoWorse line (s.marks part) := by
  unfold State.marks
  dsimp only
  split
  · exact .refl ..
  · exact ((State.noWorse_sendIf line s ..).trans (State.noWorse_sendIf line _ ..)).trans (State.noWorse_modPart ..)

theorem State.noWorse_setGranule (line : Nat) (s : State) {g : Nat} {e : Granule} (hb : e.bed = (s.granule g).bed)
    (hc : e.col = (s.granule g).col) : s.NoWorse line (s.setGranule g e) where
  poison := id
  places := State.samePlaces_setGranule s hb hc
  health := fun _ => ⟨rfl, rfl⟩
  cached := id
  errs := .inl rfl

theorem State.unlist_grans (s : State) (pay g : Nat) (e : Granule) : (s.unlist pay g e).grans = s.grans := by
  unfold State.unlist
  split <;> rfl

theorem State.unlist_beds (s : State) (pay g : Nat) (e : Granule) : (s.unlist pay g e).beds = s.beds := by
  unfold State.unlist
  split <;> rfl

/-- A granule whose entry is replaced after its partition's balloon list has lost it, at its place. -/
theorem State.noWorse_unlist_setGranule (line : Nat) (s : State) (pay g : Nat) {e e' : Granule} (he : e = s.granule g)
    (hb : e'.bed = e.bed) (hc : e'.col = e.col) : s.NoWorse line ((s.unlist pay g e).setGranule g e') := by
  subst he
  have hp := State.samePlaces_of_eq (s.unlist_grans pay g (s.granule g)) (s.unlist_beds pay g (s.granule g)) g
  exact (State.noWorse_unlist ..).trans
    (State.noWorse_setGranule line _ (hb.trans hp.1.symm) (hc.trans hp.2.symm))

theorem State.noWorse_reserveLine (line : Nat) {s t : State} {part pa : Nat} (h : s.reserveLine part pa = some t) :
    s.NoWorse line t := by
  unfold State.reserveLine at h
  dsimp only at h
  split at h
  · cases h
  · split at h
    · cases h; exact .refl ..
    · cases h; exact State.noWorse_unlist_setGranule line s _ _ rfl rfl rfl
  · cases h
    refine State.NoWorse.trans ?_ (State.noWorse_marks ..)
    refine State.NoWorse.trans ?_ (State.noWorse_modPart ..)
    exact State.noWorse_unlist_setGranule line s _ _ rfl rfl rfl

theorem State.noWorse_dropWait (line : Nat) (s : State) (part pa : Nat) (who : Option (Nat × Eng)) (id : Nat) :
    s.NoWorse line (s.dropWait part pa who id) := State.noWorse_modPart ..

theorem State.noWorse_granuleWritten (line : Nat) (s : State) (g : Nat) : s.NoWorse line (s.granuleWritten g) := by
  unfold State.granuleWritten
  split
  · exact .refl ..
  · next e he => exact State.noWorse_unlist_setGranule line s _ _ (State.granule_of_tfind he).symm rfl rfl

theorem State.noWorse_keepText (line l : Nat) (s : State) : s.NoWorse line (s.keepText l) :=
  State.noWorse_of_eq line rfl rfl rfl rfl rfl rfl

theorem State.noWorse_rebook (line : Nat) (s : State) {g : Nat} {e e' : Granule} (he : tfind s.grans g = some e)
    (hb : e'.bed = e.bed) (hc : e'.col = e.col) : s.NoWorse line (s.rebook g e e') := by
  have hg := State.granule_of_tfind he
  refine ((State.noWorse_setGranule line s (g := g) (e := e') ?_ ?_).trans (State.noWorse_modPart ..)).trans
    (State.noWorse_marks ..)
  · rw [hg, hb]
  · rw [hg, hc]

theorem State.col_modCol (s : State) (c x : Nat) (f : Column → Column) :
    (s.modCol c f).col x = if x = c then f (s.col c) else s.col x := tget_tput ..

theorem State.noWorse_modCol (line : Nat) (s : State) (c : Nat) {f : Column → Column}
    (h : (f (s.col c)).lost = (s.col c).lost ∧ (f (s.col c)).erased = (s.col c).erased) : s.NoWorse line (s.modCol c f) where
  poison := id
  places := State.samePlaces_of_eq rfl rfl
  health := fun x => by
    rw [State.col_modCol]
    split
    · next hx => subst hx; exact h
    · exact ⟨rfl, rfl⟩
  cached := id
  errs := .inl rfl

theorem State.noWorse_touchBank (line l : Nat) (s : State) : s.NoWorse line (s.touchBank l) := by
  unfold State.touchBank
  dsimp only
  split
  · exact .refl ..
  · split
    · exact State.noWorse_modCol line s _ ⟨rfl, rfl⟩
    · exact .refl ..

theorem State.noWorse_colEvent (line : Nat) (s : State) (c code data addr : Nat) :
    s.NoWorse line (s.colEvent c code data addr) := State.noWorse_of_eq line rfl rfl rfl rfl rfl rfl

theorem State.noWorse_foldl {α : Type} (line : Nat) {f : State → α → State} (h : ∀ (s : State) a, s.NoWorse line (f s a)) (l : List α)
    (s : State) : s.NoWorse line (l.foldl f s) := by
  induction l generalizing s with
  | nil => exact State.NoWorse.refl ..
  | cons a l ih => exact (h s a).trans (ih (f s a))

/-- A line that decodes is corrected, and not poisoned, as its column is read (R306). -/
theorem State.noWorse_readStored (s : State) {line : Nat} (hd : s.decodes line = true) : s.NoWorse line (s.readStored line) := by
  have ht := State.noWorse_touchBank line line s
  unfold State.readStored
  dsimp only
  split
  · exact ht
  · split
    · exact ht
    · rw [if_pos (ht.decodes hd)]
      exact (ht.trans (State.noWorse_modCol line _ _ ⟨rfl, rfl⟩)).trans
        (State.noWorse_foldl line (fun t _ => State.noWorse_colEvent line t ..) _ _)

theorem State.errsOf_tdel (s : State) (line l : Nat) :
    tget [] (tdel s.errs l) line = s.errsOf line ∨ tget [] (tdel s.errs l) line = [] := by
  rw [tget_tdel]
  split
  · exact .inr rfl
  · exact .inl rfl

theorem State.noWorse_rewritten (line l : Nat) (s : State) : s.NoWorse line (s.rewritten l) := by
  have ht := State.noWorse_touchBank line l s
  unfold State.rewritten
  dsimp only
  split
  · exact ht
  · exact ht.trans { poison := id, places := State.samePlaces_of_eq rfl rfl, health := fun _ => ⟨rfl, rfl⟩, cached := id,
                     errs := State.errsOf_tdel _ line l }

theorem foldl_grans {α : Type} {f : State → α → State} (h : ∀ s a, (f s a).grans = s.grans) (l : List α) (s : State) :
    (l.foldl f s).grans = s.grans := by
  induction l generalizing s with
  | nil => rfl
  | cons a l ih => exact (ih (f s a)).trans (h s a)

theorem State.touchBank_grans (s : State) (l : Nat) : (s.touchBank l).grans = s.grans := by
  unfold State.touchBank
  dsimp only
  split
  · rfl
  · split <;> rfl

theorem State.rewritten_grans (s : State) (l : Nat) : (s.rewritten l).grans = s.grans := by
  unfold State.rewritten
  dsimp only
  split
  · exact s.touchBank_grans l
  · exact s.touchBank_grans l

theorem State.noWorse_writeBack (line : Nat) (s : State) (g : Nat) : s.NoWorse line (s.writeBack g) := by
  have hr : s.NoWorse line ((s.dirtyIn g).foldl State.rewritten s) :=
    State.noWorse_foldl line (fun (t : State) l => State.noWorse_rewritten line l t) _ s
  have hg : ((s.dirtyIn g).foldl State.rewritten s).grans = s.grans := foldl_grans State.rewritten_grans _ s
  have hu := hr.trans (State.noWorse_of_eq (t := { (s.dirtyIn g).foldl State.rewritten s with
    dirty := ((s.dirtyIn g).foldl State.rewritten s).dirty.filter fun l => l / 64 != g }) line rfl rfl rfl rfl rfl rfl)
  unfold State.writeBack
  dsimp only
  split
  · exact hu
  · next e he =>
    split
    · exact hu
    · exact hu.trans (State.noWorse_rebook line _ (by exact hg ▸ he) rfl rfl)

theorem State.noWorse_l2Evict (s : State) {line l : Nat} (h : l ≠ line) : s.NoWorse line (s.l2Evict l) := by
  have hw : s.NoWorse line (if s.dirty.contains l then s.writeBack (l / 64) else s) := by
    split
    · exact State.noWorse_writeBack ..
    · exact .refl ..
  refine hw.trans { poison := id, places := State.samePlaces_of_eq rfl rfl, health := fun _ => ⟨rfl, rfl⟩, cached := ?_,
                    errs := .inl rfl }
  intro hc
  have hm : line ∈ (if s.dirty.contains l then s.writeBack (l / 64) else s).l2 := List.contains_iff_mem.mp hc
  exact List.contains_iff_mem.mpr (List.mem_filter.mpr ⟨hm, by simpa using Ne.symm h⟩)

theorem choose_mem {α : Type} {l : List α} {n : Nat} {a : α} (h : choose l n = some a) : a ∈ l := by
  cases l with
  | nil => cases h
  | cons b r =>
    have hlt : n % (b :: r).length < (b :: r).length := Nat.mod_lt _ (Nat.succ_pos _)
    cases h
    rw [List.getD_eq_getElem _ _ hlt]
    exact List.getElem_mem hlt

/-- The room made in a set takes a line that the L2 holds (R109). -/
theorem State.noWorse_l2Room (s : State) (w : Nat × Nat) {line : Nat} (h : s.l2.contains line = false) :
    s.NoWorse line (s.l2Room w) := by
  unfold State.l2Room
  split
  · exact .refl ..
  · split
    · exact .refl ..
    · split
      · next l hl =>
        have hm : l ∈ s.l2 := (List.mem_filter.mp (choose_mem hl)).1
        refine State.noWorse_l2Evict s fun e => ?_
        subst e
        rw [List.contains_iff_mem.mpr hm] at h
        cases h
      · exact .refl ..

theorem foldl_l2 {α : Type} {f : State → α → State} (h : ∀ s a, (f s a).l2 = s.l2) (l : List α) (s : State) :
    (l.foldl f s).l2 = s.l2 := by
  induction l generalizing s with
  | nil => rfl
  | cons a l ih => exact (ih (f s a)).trans (h s a)

theorem State.touchBank_l2 (s : State) (l : Nat) : (s.touchBank l).l2 = s.l2 := by
  unfold State.touchBank
  dsimp only
  split
  · rfl
  · split <;> rfl

theorem State.poisonLine_l2 (s : State) (l : Nat) : (s.poisonLine l).l2 = s.l2 := by
  unfold State.poisonLine
  split <;> rfl

theorem State.readStored_l2 (s : State) (l : Nat) : (s.readStored l).l2 = s.l2 := by
  unfold State.readStored
  dsimp only
  split
  · exact s.touchBank_l2 l
  · split
    · exact s.touchBank_l2 l
    · split
      · rw [foldl_l2 fun (t : State) a => (rfl : (t.colEvent _ 2 a _).l2 = t.l2)]
        exact s.touchBank_l2 l
      · exact (State.poisonLine_l2 ..).trans (s.touchBank_l2 l)

/-- A line enters the L2. -/
theorem State.noWorse_cache (line : Nat) (s : State) : s.NoWorse line { s with l2 := s.l2 ++ [line] } where
  poison := id
  places := State.samePlaces_of_eq rfl rfl
  health := fun _ => ⟨rfl, rfl⟩
  cached := fun _ => by simp
  errs := .inl rfl

theorem State.noWorse_l2Fill (s : State) {line : Nat} (h : s.linePoisoned line = false) : s.NoWorse line (s.l2Fill line) := by
  unfold State.l2Fill
  dsimp only
  split
  · exact .refl ..
  · next hc =>
    have hc : s.l2.contains line = false := by simpa using hc
    have hd : s.decodes line = true := ((State.linePoisoned_eq_false.mp h).2.2).resolve_left (by rw [hc]; decide)
    have hr := State.noWorse_readStored s hd
    have hl : (s.readStored line).l2.contains line = false := by rw [State.readStored_l2]; exact hc
    split
    · exact hr
    · exact (hr.trans (State.noWorse_l2Room _ _ hl)).trans (State.noWorse_cache line _)

/-- A line is noted as one to be written back. -/
theorem State.noWorse_dirty (line : Nat) (s : State) :
    s.NoWorse line (if s.dirty.contains line then s else { s with dirty := line :: s.dirty }) := by
  split
  · exact .refl ..
  · exact State.noWorse_of_eq line rfl rfl rfl rfl rfl rfl

theorem State.noWorse_markDirty (s : State) {line : Nat} (h : s.linePoisoned line = false) : s.NoWorse line (s.markDirty line) := by
  have hk := State.noWorse_keepText line line s
  have hf := hk.trans (State.noWorse_l2Fill _ (hk.linePoisoned h))
  have hg := hf.trans (State.noWorse_granuleWritten line _ (line / 64))
  have hu := hg.trans (State.noWorse_dirty line _)
  unfold State.markDirty
  dsimp only
  generalize (if (((s.keepText line).l2Fill line).granuleWritten (line / 64)).dirty.contains line then _ else _ : State) = u
    at hu ⊢
  split
  · exact hu
  · exact hu.trans (State.noWorse_writeBack ..)

end Sys2Proof.Machine
end

section
/-! PROOFS. Atomics at their home slice (R178-R180). -/

namespace Sys2Proof.Machine

theorem memRead_length (m : Mem) (a n : Nat) : (memRead m a n).length = n := by
  induction n generalizing a with
  | zero => rfl
  | succ n ih => simp [memRead, ih]

theorem leBytes_length (n v : Nat) : (leBytes n v).length = n := by
  induction n generalizing v with
  | zero => rfl
  | succ n ih => simp [leBytes, ih]

theorem leBytes_leNat (l : List Byte) : leBytes l.length (leNat l) = l := by
  induction l with
  | nil => rfl
  | cons b r ih =>
    have hb : b.toNat < 256 := b.isLt
    have hd : (b.toNat + 256 * leNat r) / 256 = leNat r := by omega
    simp only [List.length_cons, leBytes, leNat, hd, ih]
    congr 1
    apply BitVec.eq_of_toNat_eq
    simp
    omega

theorem memRead_memWrite_leBytes (m : Mem) (a n v : Nat) : memRead (memWrite m a (leBytes n v)) a n = leBytes n v := by
  have h := memRead_memWrite m a (leBytes n v)
  rwa [leBytes_length] at h

/-! ## The value written -/

theorem signed_atomicNew_min (w x b c : Nat) : signed w (atomicNew .min w x b c) = min (signed w x) (signed w b) := by
  simp only [atomicNew]
  split <;> omega

theorem signed_atomicNew_max (w x b c : Nat) : signed w (atomicNew .max w x b c) = max (signed w x) (signed w b) := by
  simp only [atomicNew]
  split <;> omega

/-- The value that an atomic leaves, operation by operation. -/
theorem atomicNew_values (w x b c : Nat) :
    atomicNew .add w x b c = (x + b) % 2 ^ w ∧ atomicNew .swp w x b c = b ∧
    (∀ j, (atomicNew .and w x b c).testBit j = (x.testBit j && b.testBit j)) ∧
    (∀ j, (atomicNew .or w x b c).testBit j = (x.testBit j || b.testBit j)) ∧
    (∀ j, (atomicNew .xor w x b c).testBit j = (x.testBit j ^^ b.testBit j)) ∧
    signed w (atomicNew .min w x b c) = min (signed w x) (signed w b) ∧
    signed w (atomicNew .max w x b c) = max (signed w x) (signed w b) ∧
    atomicNew .minU w x b c = min x b ∧ atomicNew .maxU w x b c = max x b ∧
    (x = c → atomicNew .cas w x b c = b) ∧ (x ≠ c → atomicNew .cas w x b c = x) ∧
    (x < b → atomicNew .binc w x b c = x + 1) ∧ (b ≤ x → atomicNew .binc w x b c = 0) := by
  refine ⟨rfl, rfl, fun j => Nat.testBit_and .., fun j => Nat.testBit_or .., fun j => Nat.testBit_xor ..,
    signed_atomicNew_min .., signed_atomicNew_max .., ?_, ?_, fun h => if_pos h, fun h => if_neg h,
    fun h => if_neg (by omega), fun h => if_pos h⟩
  all_goals
    simp only [atomicNew]
    split <;> omega

theorem atomicNew_faddA (x b c : Nat) : atomicNew .faddA 64 x b c = fmtRound .a56 .rne false false
    ((fmtValue .a56 false (x % 2 ^ 56)).add .rne (fmtValue .a56 false (b % 2 ^ 56))) % 2 ^ 56 := by
  simp only [atomicNew, a56Add, a56Round, a56Value, BitVec.toNat_ofNat]

/-! ## At the slice -/

theorem State.deliver_of_good {s : State} {pa : Nat} (k : Nat) (e : Eng) (off va : Nat)
    (h : (s.l2Fill (pa / 128)).linePoisoned (pa / 128) = false) : s.deliver k e off va pa = (s.l2Fill (pa / 128), true) := by
  unfold State.deliver
  simp only [h]
  rfl

theorem State.committed_of_good {s : State} {pa : Nat} (n : Nat) (h : s.linePoisoned (pa / 128) = false) :
    s.committed pa n = memRead s.mem pa n := by
  unfold State.committed
  rw [h]
  rfl

/-- Committed bytes on a good line are written, and no other byte is. -/
theorem State.commitBytes_mem {s : State} {pa : Nat} (bs : List Byte) (h : s.linePoisoned (pa / 128) = false) :
    (s.commitBytes pa bs).mem = memWrite s.mem pa bs := by
  unfold State.commitBytes
  simp only [(State.noWorse_markDirty s h).linePoisoned h, State.markDirty_mem]
  rfl

theorem State.core_l1Drop_l1 (s : State) (core line : Nat) : ∀ e ∈ ((s.l1Drop core line).core core).l1, e.line ≠ line := by
  unfold State.l1Drop
  rw [State.core_modCore, if_pos rfl]
  intro e he
  simpa using (List.mem_filter.mp he).2

/-- The bytes written where a slice has its line, reserved space for it and ended the wait for it. -/
theorem State.commit_reserved_mem {s u : State} {part q pa : Nat} (who : Option (Nat × Eng)) (id : Nat) (bs : List Byte)
    (h : s.linePoisoned (pa / 128) = false) (hr : s.reserveLine part q = some u) :
    ((u.dropWait part q who id).commitBytes pa bs).mem = memWrite s.mem pa bs := by
  have hn := (State.noWorse_reserveLine (pa / 128) hr).trans (State.noWorse_dropWait (pa / 128) u part q who id)
  rw [State.commitBytes_mem bs (hn.linePoisoned h), State.dropWait_mem, State.reserveLine_mem hr]

/-- An atomic that has performed on a good line: the value that it found, and the memory and the L1 that it leaves. -/
theorem State.opAtomic_done {s t : State} {k id off va pa n : Nat} {op : AOp} {b c v : Quad}
    (h : (s.l2Fill (pa / 128)).linePoisoned (pa / 128) = false) (ht : s.opAtomic k id off va pa op n b c = .done t v) :
    let x := leNat (memRead s.mem pa n)
    let y := atomicNew op (8 * n) x (b.toNat % 2 ^ (8 * n)) (c.toNat % 2 ^ (8 * n))
    v = quadN x ∧ (t.mem = memWrite s.mem pa (leBytes n y) ∨ (y = x ∧ t.mem = s.mem)) ∧
      ∀ e ∈ (t.core (k / 4)).l1, e.line ≠ pa / 128 := by
  have hm : (s.l2Fill (pa / 128)).mem = s.mem := State.l2Fill_mem ..
  unfold State.opAtomic at ht
  simp only [State.deliver_of_good k .x off va h, State.committed_of_good n h, hm, Bool.not_true, Bool.false_eq_true,
    if_false] at ht
  split at ht
  · next hcas =>
    cases ht
    exact ⟨rfl, .inr ⟨hcas.2, hm⟩, State.core_l1Drop_l1 _ _ _⟩
  · split at ht
    · cases ht
    · split at ht
      · cases ht
      · next u hu =>
        cases ht
        refine ⟨rfl, .inl ?_, State.core_l1Drop_l1 _ _ _⟩
        rw [State.l1Drop_mem, State.commit_reserved_mem _ _ _ h hu, hm]

/-- Settles O35: each value by the operation's own rule; at the slice the line is good, so that what is written is written over
the committed bytes. -/
theorem atomics : Obligations.Atomics := by
  unfold Obligations.Atomics
  refine ⟨fun w x b c _ _ _ _ => ?_, fun s t k id off va pa n op b c v hgood _ ht => ?_⟩
  · obtain ⟨h1, h2, h3, h4, h5, h6, h7, h8, h9, h10, h11, h12, h13⟩ := atomicNew_values w x b c
    exact ⟨h1, h2, h3, h4, h5, h6, h7, h8, h9, h10, h11, h12, h13, fun _ => rfl, fun hw => hw ▸ atomicNew_faddA x b c⟩
  · obtain ⟨hv, hmem, hl1⟩ := State.opAtomic_done hgood ht
    refine ⟨hv, ?_, ?_, hl1⟩
    · rcases hmem with e | ⟨hy, e⟩
      · rw [e]
        exact memRead_memWrite_leBytes ..
      · rw [e, hy]
        have hb := leBytes_leNat (memRead s.mem pa n)
        rw [memRead_length] at hb
        exact hb.symm
    · intro z hz
      rcases hmem with e | ⟨_, e⟩
      · rw [e]
        exact memGet_memWrite_outside _ _ _ _ (by rwa [leBytes_length])
      · rw [e]

end Sys2Proof.Machine
end

section
/-! PROOFS. Single-line regions: what the closing message writes, and the four instructions of X (R181-R183). -/

namespace Sys2Proof.Machine

theorem memRead_getD (m : Mem) (a n i : Nat) (h : i < n) : (memRead m a n).getD i 0 = memGet m (a + i) := by
  induction n generalizing a i with
  | zero => omega
  | succ n ih =>
    cases i with
    | zero => rfl
    | succ i =>
      have hs := ih (a + 1) i (by omega)
      simp only [memRead, List.getD_cons_succ, hs]
      congr 1
      omega

theorem overlaid_length (l : List (Nat × Byte)) (a : Nat) (bs : List Byte) : (overlaid l a bs).length = bs.length := by
  simp [overlaid]

theorem overlaid_getElem (l : List (Nat × Byte)) (a : Nat) (bs : List Byte) (i : Nat) (h : i < (overlaid l a bs).length) :
    (overlaid l a bs)[i] = (tfind l (a + i)).getD (bs.getD i 0) := by
  simp only [overlaid, List.getElem_map, List.getElem_range]
  cases tfind l (a + i) <;> rfl

/-! ## The closing message -/

/-- Marked bytes written into a good line: those of the line that are marked, and no other byte. -/
theorem State.memGet_commitMasked {s : State} {line : Nat} (whole : Bool) (marks : List (Nat × Byte))
    (h : s.linePoisoned line = false) :
    (∀ i, i < 128 → memGet (s.commitMasked line whole marks).mem (128 * line + i) =
      (tfind marks i).getD (memGet s.mem (128 * line + i))) ∧
    ∀ x, x < 128 * line ∨ 128 * line + 128 ≤ x → memGet (s.commitMasked line whole marks).mem x = memGet s.mem x := by
  by_cases hm : marks = []
  · subst hm
    exact ⟨fun i _ => rfl, fun x _ => rfl⟩
  · have hl : 128 * line / 128 = line := by omega
    have hmem : (s.commitMasked line whole marks).mem =
        memWrite s.mem (128 * line) (overlaid marks 0 (memRead s.mem (128 * line) 128)) := by
      unfold State.commitMasked
      rw [if_neg hm, State.committed_of_good 128 (by rw [hl]; exact h)]
      exact congrArg (fun m => memWrite m _ _) (State.markDirty_mem ..)
    have hlen : (overlaid marks 0 (memRead s.mem (128 * line) 128)).length = 128 := by
      rw [overlaid_length, memRead_length]
    refine ⟨fun i hi => ?_, fun x hx => ?_⟩
    · rw [hmem, memGet_memWrite_inside _ _ _ _ (by omega), overlaid_getElem, memRead_getD _ _ _ _ hi, Nat.zero_add]
    · rw [hmem, memGet_memWrite_outside _ _ _ _ (by omega)]

theorem State.holds_iff (s : State) (line k : Nat) :
    (s.held.any fun h => h.line == line && h.ctx == k) = true ↔ ∃ h ∈ s.held, h.line = line ∧ h.ctx = k := by
  simp

/-- The line released: the context holds it no more. -/
theorem State.dropHeld_held (s : State) (k line : Nat) : ∀ h ∈ (s.dropHeld k line).held, ¬(h.line = line ∧ h.ctx = k) := by
  intro h hh
  have hf := (List.mem_filter.mp hh).2
  intro ⟨hl, hk⟩
  simp [hl, hk] at hf

theorem State.opAlrc_lapsed {s : State} {k id off va pa : Nat} {marks : List (Nat × Byte)}
    (h : ¬∃ x ∈ s.held, x.line = pa / 128 ∧ x.ctx = k) :
    s.opAlrc k id off va pa marks = .done (s.l1Drop (k / 4) (pa / 128)) 0 := by
  unfold State.opAlrc
  exact if_neg fun e => h ((s.holds_iff _ _).mp e)

theorem State.opAlrc_unmarked {s : State} {k id off va pa : Nat} (h : ∃ x ∈ s.held, x.line = pa / 128 ∧ x.ctx = k) :
    s.opAlrc k id off va pa [] = .done ((s.dropHeld k (pa / 128)).l1Drop (k / 4) (pa / 128)) 1 := by
  unfold State.opAlrc
  exact (if_pos ((s.holds_iff _ _).mpr h)).trans (if_pos rfl)

/-- Where the hold lasts, the line takes writes and has headroom, the marked bytes are committed and the line is released. -/
theorem State.opAlrc_commits {s u : State} {k id off va pa : Nat} {marks : List (Nat × Byte)}
    (h : ∃ x ∈ s.held, x.line = pa / 128 ∧ x.ctx = k) (hm : marks ≠ []) (hscb : s.hitsScb (128 * (pa / 128)) 128 = false)
    (hu : s.reserveLine (s.ctx k).part pa = some u) : ∃ whole, s.opAlrc k id off va pa marks =
      .done (((((u.dropWait (s.ctx k).part pa (some (k, .x)) id).commitMasked (pa / 128) whole marks)).dropHeld k (pa / 128)).l1Drop
        (k / 4) (pa / 128)) 1 := by
  refine ⟨(List.range 128).all fun i => (tfind marks i).isSome, ?_⟩
  unfold State.opAlrc
  refine (if_pos ((s.holds_iff _ _).mpr h)).trans ?_
  refine (if_neg hm).trans ?_
  dsimp only
  rw [hscb, hu]
  rfl

theorem State.opAlrc_closes (s : State) (k id off va pa : Nat) (marks : List (Nat × Byte))
    (h : ∃ x ∈ s.held, x.line = pa / 128 ∧ x.ctx = k)
    (hfree : marks = [] ∨ (s.hitsScb (128 * (pa / 128)) 128 = false ∧ s.linePoisoned (pa / 128) = false ∧
      (s.reserveLine (s.ctx k).part pa).isSome = true)) :
    ∃ t, s.opAlrc k id off va pa marks = .done t 1 ∧ (∀ h ∈ t.held, ¬(h.line = pa / 128 ∧ h.ctx = k)) ∧
      (∀ i, i < 128 → memGet t.mem (128 * (pa / 128) + i) = (tfind marks i).getD (memGet s.mem (128 * (pa / 128) + i))) ∧
      ∀ x, x < 128 * (pa / 128) ∨ 128 * (pa / 128) + 128 ≤ x → memGet t.mem x = memGet s.mem x := by
  by_cases hm : marks = []
  · subst hm
    exact ⟨_, State.opAlrc_unmarked h, State.dropHeld_held _ _ _, fun i _ => rfl, fun x _ => rfl⟩
  · obtain ⟨hscb, hgood, hres⟩ := hfree.resolve_left hm
    obtain ⟨u, hu⟩ := Option.isSome_iff_exists.mp hres
    obtain ⟨whole, hdone⟩ := State.opAlrc_commits (id := id) (off := off) (va := va) h hm hscb hu
    have hn := (State.noWorse_reserveLine (pa / 128) hu).trans
      (State.noWorse_dropWait (pa / 128) u (s.ctx k).part pa (some (k, .x)) id)
    have hw := State.memGet_commitMasked whole marks (hn.linePoisoned hgood)
    rw [State.dropWait_mem, State.reserveLine_mem hu] at hw
    exact ⟨_, hdone, State.dropHeld_held _ _ _, hw⟩

/-! ## The instructions -/

theorem State.inRegion_waits {s : State} (a : Reg) (o : BitVec 7) (n : Nat) (go : Nat → Res) (h : s.cc.alrPending = true) :
    s.inRegion a o n go = .stall .result s := if_pos h

theorem State.inRegion_bad {s : State} {a : Reg} {o : BitVec 7} {n : Nat} (go : Nat → Res) (h : s.cc.alrPending = false)
    (hx : 128 ≤ alrOffset (s.rx a) o ∨ alrOffset (s.rx a) o % n ≠ 0) :
    s.inRegion a o n go = .trap .align (alrOffset (s.rx a) o) 0 s := by
  unfold State.inRegion
  dsimp only
  rw [h, if_neg (by decide)]
  exact if_pos hx

theorem State.inRegion_ok {s : State} {a : Reg} {o : BitVec 7} {n : Nat} (go : Nat → Res) (h : s.cc.alrPending = false)
    (hx : alrOffset (s.rx a) o < 128) (hn : alrOffset (s.rx a) o % n = 0) : s.inRegion a o n go = go (alrOffset (s.rx a) o) := by
  unfold State.inRegion
  dsimp only
  rw [h, if_neg (by decide)]
  exact if_neg fun e => e.elim (Nat.not_le.mpr hx) fun f => f hn

section
variable {s : State} {m : Mods} {d a b : Reg} {z : BitVec 1} {w : Width} {o : BitVec 7} {k : BitVec 16}

/-- The bytes that an `alrl` finds. -/
def State.alrlRes (d : Reg) (z : BitVec 1) (n : Nat) (t : State) (x : Nat) : Res :=
  match t.cc.alr with
  | some r => .ok (t.wx d (Machine.extend (z == 0#1) n (leNat (r.bytes x n))))
  | none => .ok (t.wx d 0)

theorem Ready.alrl (hr : Ready s (.alrl m d a z w o)) : exec (.alrl m d a z w o) s =
    .next (s.settleRes (formOf (.alrl m d a z w o) s) (s.inRegion a o (widthBytes w) (State.alrlRes d z (widthBytes w) s))) := by
  refine (hr.run (e := execAlrl m d a z w o s) rfl rfl rfl).trans ?_
  unfold State.alrlRes
  rfl

theorem Ready.alrs (hr : Ready s (.alrs m a b w o)) : exec (.alrs m a b w o) s =
    .next (s.settleRes (formOf (.alrs m a b w o) s) (s.inRegion a o (widthBytes w) fun x => .ok (s.modMe fun c =>
      { c with alr := c.alr.map fun r => { r with marks := overlay r.marks x (leBytes (widthBytes w) (s.rx b).toNat) } }))) :=
  hr.run (e := execAlrs m a b w o s) rfl rfl rfl

theorem State.alrlRes_eq (s : State) (d : Reg) (z : BitVec 1) (n x : Nat) : s.alrlRes d z n x = .ok (s.wx d
    (match s.cc.alr with
     | some r => if z = 0 then quad (signed (8 * n) (leNat (r.bytes x n))) else quadN (leNat (r.bytes x n))
     | none => 0)) := by
  unfold State.alrlRes
  cases s.cc.alr with
  | none => rfl
  | some r =>
    simp only [Machine.extend, beq_iff_eq]
    rfl

/-- What an `alrb` comes to, the snapshot of no other being on its way. -/
def State.alrbRes (s : State) (m : Mods) (va : Nat) : Res :=
  match s.startOp m (.alrb va false) (s.checked .g true 1 va 1) .later with
  | .later u => .later (u.releaseLine u.me)
  | r => r

theorem Ready.alrb_waits (hr : Ready s (.alrb m a k)) (h : s.cc.alrPending = true) :
    exec (.alrb m a k) s = .next (s.stallHere .result) := by
  refine (hr.run (e := execAlrb m a k s) rfl rfl rfl).trans ?_
  dsimp only
  rw [h]
  rfl

theorem Ready.alrb (hr : Ready s (.alrb m a k)) (h : s.cc.alrPending = false) : exec (.alrb m a k) s =
    .next (s.settleRes (formOf (.alrb m a k) s) (s.alrbRes m (effAddr (s.rx a) 0 (immS 16 k.toNat m)))) := by
  refine (hr.run (e := execAlrb m a k s) rfl rfl rfl).trans ?_
  dsimp only
  rw [h]
  unfold State.alrbRes
  rfl

theorem State.startOp_ok {op : SliceOp} {ps : List Part} {go : State → Res} (h : s.mayEnter true true) (hops : op.isSeq = false) :
    s.startOp m op (.ok ps) go = go (s.enter (s.access m true true (.op op) ps [])) := by
  unfold State.startOp
  rw [hops]
  exact State.begin_ok h ps

theorem State.startOp_fault {op : SliceOp} {c : Code} {x : Nat} {go : State → Res} (h : s.mayEnter true true)
    (hops : op.isSeq = false) : s.startOp m op (.fault c x) go = .trap c x 0 s := by
  unfold State.startOp
  rw [hops]
  exact State.begin_fault h c x

/-- The region buffer of the context in execution after an access has entered: as it was. -/
theorem State.entered_alr (i : Instr) (inL inS : Bool) (kind : AccKind) (ps : List Part) (data : List Byte) :
    ((s.entered i inL inS kind ps data none).ctx s.me).alr = s.cc.alr := by
  unfold State.entered State.modMe
  rw [State.ctx_modCtx_same]
  rfl

theorem State.releaseLine_none {n : Nat} (h : (s.ctx n).alr = none) : s.releaseLine n = s := by
  unfold State.releaseLine
  rw [h]

theorem State.releaseLine_some {n : Nat} {r : Alr} (h : (s.ctx n).alr = some r) :
    s.releaseLine n = (s.dropHeld n r.line).modCtx n fun c => { c with alr := none } := by
  unfold State.releaseLine
  rw [h]

theorem State.alrbRes_ok {va : Nat} {ps : List Part} (h : s.mayEnter true true) (hps : s.checked .g true 1 va 1 = .ok ps) :
    s.alrbRes m va =
      .later ((s.entered (.alrb m a k) true true (.op (.alrb va false)) ps [] none).releaseLine s.me) := by
  unfold State.alrbRes
  rw [hps, State.startOp_ok h rfl]
  rfl

theorem State.alrbRes_fault {va : Nat} {c : Code} {x : Nat} (h : s.mayEnter true true)
    (hf : s.checked .g true 1 va 1 = .fault c x) : s.alrbRes m va = .trap c x 0 s := by
  unfold State.alrbRes
  rw [hf, State.startOp_fault h rfl]

theorem Ready.alrc_waits (hr : Ready s (.alrc m d)) (h : s.cc.alrPending = true) :
    exec (.alrc m d) s = .next (s.stallHere .result) := by
  refine (hr.run (e := execAlrc m d s) rfl rfl rfl).trans ?_
  dsimp only
  rw [h]
  rfl

theorem Ready.alrc_none (hr : Ready s (.alrc m d)) (h : s.cc.alrPending = false) (hn : s.cc.alr = none) :
    exec (.alrc m d) s = .next (past (.alrc m d) s (s.wx d 0)) := by
  refine (hr.run (e := execAlrc m d s) rfl rfl rfl).trans ?_
  dsimp only
  rw [h, hn]
  rfl

/-- The closing message of an open region, on the way to the slice of its line. -/
def State.closing (s : State) (m : Mods) (d : Reg) (r : Alr) : State :=
  s.entered (.alrc m d) true true (.op (.alrc d r.marks))
    [{ place := .mem, addr := 128 * r.line, len := 128, off := 0, va := r.va }] [] none

theorem Ready.alrc_open {r : Alr} (hr : Ready s (.alrc m d)) (h : s.cc.alrPending = false) (hs : s.cc.alr = some r)
    (hm : s.mayEnter true true) : exec (.alrc m d) s = .next (pastEntered (.alrc m d) s
      (if r.inForce s.clock then (s.closing m d r).modMe fun c => { c with alr := none }
       else ((s.closing m d r).modMe fun c => { c with alr := none }).dropHeld s.me r.line)) := by
  refine (hr.run (e := execAlrc m d s) rfl rfl rfl).trans ?_
  dsimp only
  rw [h, hs]
  dsimp only
  rw [State.startOp_ok hm rfl]
  rfl

end

/-- Settles O36: the closing message case by case, then each of the four instructions. -/
theorem singleLineRegions : Obligations.SingleLineRegions := by
  unfold Obligations.SingleLineRegions
  refine ⟨fun s k id off va pa marks => ⟨fun h => ⟨_, State.opAlrc_lapsed h, rfl⟩, State.opAlrc_closes s k id off va pa marks⟩,
    fun s m d a b z w o k => ⟨fun hp i hi hr => ?_, fun hp => ⟨fun hr => ⟨fun hx => ?_, fun hx hn => ?_⟩,
      fun hr => ⟨fun hx => ?_, fun hx hn => ?_⟩, fun hr hm => ⟨fun ps hps => ?_, fun c y hy => ?_⟩,
      fun hr => ⟨fun hn => hr.alrc_none hp hn, fun r hs hm => ?_⟩⟩⟩⟩
  · rcases hi with rfl | rfl | rfl | rfl
    · rw [hr.alrl, State.inRegion_waits _ _ _ _ hp]; rfl
    · rw [hr.alrs, State.inRegion_waits _ _ _ _ hp]; rfl
    · exact hr.alrb_waits hp
    · exact hr.alrc_waits hp
  · rw [hr.alrl, State.inRegion_bad _ hp hx]; rfl
  · rw [hr.alrl, State.inRegion_ok _ hp hx hn, State.alrlRes_eq]; rfl
  · rw [hr.alrs, State.inRegion_bad _ hp hx]; rfl
  · rw [hr.alrs, State.inRegion_ok _ hp hx hn]; rfl
  · rw [hr.alrb hp, State.alrbRes_ok (a := a) (k := k) (va := effAddr (s.rx a) 0 (immS 16 k.toNat m)) hm hps]
    have ha := State.entered_alr (s := s) (.alrb m a k) true true
      (.op (.alrb (effAddr (s.rx a) 0 (immS 16 k.toNat m)) false)) ps []
    cases hs : s.cc.alr with
    | none => rw [State.releaseLine_none (ha.trans hs)]; rfl
    | some r => rw [State.releaseLine_some (ha.trans hs)]; rfl
  · rw [hr.alrb hp, State.alrbRes_fault (va := effAddr (s.rx a) 0 (immS 16 k.toNat m)) hm hy]; rfl
  · rw [hr.alrc_open hp hs hm]
    have hf : r.inForce s.clock = true ↔ (r.hold = true ∧ s.clock < r.since + 64) := by simp [Alr.inForce]
    simp only [hf]
    rfl

end Sys2Proof.Machine
end

section
/-! PROOFS. What leaves the sequences as they are: the bookkeeping of writes, the pools and the bytes of slots (R268-R288). -/

namespace Sys2Proof.Machine

@[simp] theorem foldl_seqs {α : Type} {f : State → α → State} (h : ∀ s a, (f s a).seqs = s.seqs) (l : List α)
    (s : State) : (l.foldl f s).seqs = s.seqs := by
  induction l generalizing s with
  | nil => rfl
  | cons a l ih => exact (ih (f s a)).trans (h s a)

@[simp] theorem State.draw_seqs (s : State) : (s.draw).2.seqs = s.seqs := rfl

@[simp] theorem State.record_seqs (s : State) (die code part unit : Nat) (dev : Bool) (addr data : Nat) :
    (s.record die code part unit dev addr data).seqs = s.seqs := rfl

@[simp] theorem State.setPool_seqs (s : State) (part bed : Nat) (p : Pool) : (s.setPool part bed p).seqs = s.seqs := rfl

@[simp] theorem State.modCol_seqs (s : State) (c : Nat) (f : Column → Column) : (s.modCol c f).seqs = s.seqs := rfl

@[simp] theorem State.setGranule_seqs (s : State) (g : Nat) (e : Granule) : (s.setGranule g e).seqs = s.seqs := rfl

@[simp] theorem State.colEvent_seqs (s : State) (c code data : Nat) (addr : Nat) :
    (s.colEvent c code data addr).seqs = s.seqs := rfl

@[simp] theorem State.eraseLayer_seqs (s : State) (c layer : Nat) : (s.eraseLayer c layer).seqs = s.seqs := by
  unfold State.eraseLayer
  dsimp only
  repeat' split
  all_goals simp

@[simp] theorem State.poisonLine_seqs (s : State) (line : Nat) : (s.poisonLine line).seqs = s.seqs := by
  unfold State.poisonLine
  split <;> simp

@[simp] theorem State.touchBank_seqs (s : State) (line : Nat) : (s.touchBank line).seqs = s.seqs := by
  unfold State.touchBank
  dsimp only
  repeat' split
  all_goals simp

@[simp] theorem State.readStored_seqs (s0 : State) (line : Nat) : (State.readStored s0 line).seqs = s0.seqs := by
  unfold State.readStored
  dsimp only
  split
  · simp
  · split
    · simp
    · split
      · rw [foldl_seqs (by simp)]; simp
      · simp

@[simp] theorem State.rewritten_seqs (s0 : State) (line : Nat) : (State.rewritten s0 line).seqs = s0.seqs := by
  unfold State.rewritten
  dsimp only
  split <;> simp

@[simp] theorem State.keepText_seqs (s : State) (line : Nat) : (s.keepText line).seqs = s.seqs := rfl

@[simp] theorem State.marks_seqs (s : State) (part : Nat) : (s.marks part).seqs = s.seqs := by
  unfold State.marks
  dsimp only
  repeat' split
  all_goals simp

@[simp] theorem State.unlist_seqs (s : State) (pay g : Nat) (e : Granule) : (s.unlist pay g e).seqs = s.seqs := by
  unfold State.unlist
  split <;> simp

@[simp] theorem State.waitSpace_seqs (s : State) (part pa : Nat) (who : Option (Nat × Eng)) (id : Nat) (va : Nat) :
    (s.waitSpace part pa who id va).seqs = s.seqs := by
  unfold State.waitSpace
  dsimp only
  repeat' split
  all_goals simp

@[simp] theorem State.dropWait_seqs (s : State) (part pa : Nat) (who : Option (Nat × Eng)) (id : Nat) :
    (s.dropWait part pa who id).seqs = s.seqs := rfl

@[simp] theorem State.rebook_seqs (s : State) (g : Nat) (e e' : Granule) : (s.rebook g e e').seqs = s.seqs := by
  unfold State.rebook
  simp

@[simp] theorem State.writeBack_seqs (s : State) (g : Nat) : (s.writeBack g).seqs = s.seqs := by
  unfold State.writeBack
  dsimp only
  repeat' split
  all_goals simp

@[simp] theorem State.l2Evict_seqs (s : State) (line : Nat) : (s.l2Evict line).seqs = s.seqs := by
  unfold State.l2Evict
  dsimp only
  split <;> simp

@[simp] theorem State.l2Room_seqs (s : State) (w : Nat × Nat) : (s.l2Room w).seqs = s.seqs := by
  unfold State.l2Room
  repeat' split
  all_goals simp

@[simp] theorem State.l2Fill_seqs (s0 : State) (line : Nat) : (State.l2Fill s0 line).seqs = s0.seqs := by
  unfold State.l2Fill
  dsimp only
  repeat' split
  all_goals simp

@[simp] theorem State.granuleWritten_seqs (s : State) (g : Nat) : (s.granuleWritten g).seqs = s.seqs := by
  unfold State.granuleWritten
  split <;> simp

@[simp] theorem State.markDirty_seqs (s0 : State) (line : Nat) : (State.markDirty s0 line).seqs = s0.seqs := by
  unfold State.markDirty
  dsimp only
  repeat' split
  all_goals simp

@[simp] theorem State.l1Drop_seqs (s : State) (core line : Nat) : (s.l1Drop core line).seqs = s.seqs := rfl

@[simp] theorem State.l1DropAll_seqs (s : State) (core : Nat) : (s.l1DropAll core).seqs = s.seqs := rfl

@[simp] theorem State.commitBytes_seqs (s : State) (pa : Nat) (bs : List Byte) : (s.commitBytes pa bs).seqs = s.seqs := by
  unfold State.commitBytes
  dsimp only
  repeat' split
  all_goals simp

@[simp] theorem State.dropHeld_seqs (s : State) (k line : Nat) : (s.dropHeld k line).seqs = s.seqs := rfl

@[simp] theorem State.endHold_seqs (s : State) (k line : Nat) : (s.endHold k line).seqs = s.seqs := by
  unfold State.endHold
  split <;> simp

@[simp] theorem State.blockRef_seqs (s : State) (part bed page : Nat) (up : Bool) :
    (s.blockRef part bed page up).seqs = s.seqs := by
  unfold State.blockRef
  dsimp only
  repeat' split
  all_goals simp

@[simp] theorem State.reref_seqs (s : State) (part : Nat) (old new : List Extent) :
    (s.reref part old new).seqs = s.seqs := by
  unfold State.reref
  simp

@[simp] theorem State.setShare_seqs (s : State) (part bed page n : Nat) : (s.setShare part bed page n).seqs = s.seqs := rfl

@[simp] theorem State.setVoids_seqs (s : State) (part bed page : Nat) (l : List Nat) :
    (s.setVoids part bed page l).seqs = s.seqs := rfl

@[simp] theorem State.setVoid_seqs (s : State) (q : Seq) (i : Nat) (b : Bool) : (s.setVoid q i b).seqs = s.seqs := by
  unfold State.setVoid
  dsimp only
  split <;> simp

@[simp] theorem State.dropScb_seqs (s : State) (k id part pa : Nat) : (s.dropScb k id part pa).seqs = s.seqs := rfl

@[simp] theorem State.l1DropScb_seqs (s : State) (k pa : Nat) : (s.l1DropScb k pa).seqs = s.seqs := rfl

@[simp] theorem State.freshLines_seqs (s : State) (l : List Nat) : (s.freshLines l).seqs = s.seqs := by
  unfold State.freshLines
  simp

@[simp] theorem State.copyLines_seqs (s : State) (l : List (Nat × Nat)) : (s.copyLines l).seqs = s.seqs := by
  unfold State.copyLines
  simp

@[simp] theorem State.slotWrite_seqs (s : State) (q : Seq) (i : Nat) (bs : List Byte) :
    (s.slotWrite q i bs).seqs = s.seqs := by
  unfold State.slotWrite
  split <;> simp

@[simp] theorem State.quantiseSlot_seqs (s : State) (q : Seq) (i : Nat) (isVoid : Bool) :
    (s.quantiseSlot q i isVoid).seqs = s.seqs := by
  unfold State.quantiseSlot
  simp

@[simp] theorem State.dropShares_seqs (s : State) (q : Seq) : (s.dropShares q).seqs = s.seqs := by
  unfold State.dropShares
  refine foldl_seqs (fun t j => ?_) _ s
  split
  · split
    · rfl
    · exact State.setShare_seqs ..
  · rfl

@[simp] theorem State.writeReg_seqs (s : State) (k : Nat) (e : Eng) (d : Reg) (v : Quad) :
    (s.writeReg k e d v).seqs = s.seqs := rfl

@[simp] theorem State.finishAccess_seqs (s : State) (k id : Nat) (e : Eng) : (s.finishAccess k id e).seqs = s.seqs := rfl

@[simp] theorem State.acquireAt_seqs (s : State) (k : Nat) (sc : Scope) : (s.acquireAt k sc).seqs = s.seqs := by
  unfold State.acquireAt
  split <;> simp

@[simp] theorem State.acquireOf_seqs (s : State) (k : Nat) (a : Access) : (s.acquireOf k a).seqs = s.seqs := by
  unfold State.acquireOf
  split <;> simp

end Sys2Proof.Machine
end

section
/-! PROOFS. Operations on sequences at their home slice: what each answers and what it leaves of the sequence (R268-R288). -/

namespace Sys2Proof.Machine

/-! ## Books and headroom -/

/-- From `s` to `t` only the books of writes have moved: memory, the sequences, the pools and the contexts are as they were. -/
structure State.BooksOnly (s t : State) : Prop where
  mem   : t.mem = s.mem
  seqs  : t.seqs = s.seqs
  pools : t.pools = s.pools
  ctxs  : t.ctxs = s.ctxs

theorem State.BooksOnly.trans {s t u : State} (h : s.BooksOnly t) (h' : t.BooksOnly u) : s.BooksOnly u :=
  ⟨h'.mem.trans h.mem, h'.seqs.trans h.seqs, h'.pools.trans h.pools, h'.ctxs.trans h.ctxs⟩

theorem State.BooksOnly.store {s t : State} (h : s.BooksOnly t) : SameStore s t := ⟨h.mem, h.seqs, h.pools⟩

theorem State.BooksOnly.seq {s t : State} (h : s.BooksOnly t) (pa : Nat) : t.seq pa = s.seq pa := by
  unfold State.seq
  rw [h.seqs]

theorem State.BooksOnly.ctx {s t : State} (h : s.BooksOnly t) (k : Nat) : t.ctx k = s.ctx k := State.ctx_of_ctxs h.ctxs k

theorem State.unlist_pools (s : State) (pay g : Nat) (e : Granule) : (s.unlist pay g e).pools = s.pools := by
  unfold State.unlist
  split <;> rfl

theorem State.marks_pools (s : State) (part : Nat) : (s.marks part).pools = s.pools := by
  unfold State.marks
  dsimp only
  split
  · rfl
  · show (if _ then _ else _ : State).pools = s.pools
    split
    · show (if _ then _ else _ : State).pools = s.pools
      split <;> rfl
    · split <;> rfl

theorem State.reserveLine_booksOnly {s t : State} {part pa : Nat} (h : s.reserveLine part pa = some t) : s.BooksOnly t := by
  refine ⟨State.reserveLine_mem h, ?_, ?_, State.reserveLine_ctxs h⟩
  all_goals
    unfold State.reserveLine at h
    dsimp only at h
    split at h
    · cases h
    · split at h <;> cases h
      · rfl
      · simp [State.setGranule, State.unlist_pools]
    · cases h
      simp [State.setGranule, State.modPart, State.marks_pools, State.unlist_pools]

theorem State.dropWait_booksOnly (s : State) (part pa : Nat) (who : Option (Nat × Eng)) (id : Nat) :
    s.BooksOnly (s.dropWait part pa who id) := ⟨rfl, rfl, rfl, rfl⟩

theorem State.dropScb_booksOnly (s : State) (k id part pa : Nat) : s.BooksOnly (s.dropScb k id part pa) := ⟨rfl, rfl, rfl, rfl⟩

theorem State.l1DropScb_booksOnly (s : State) (k pa : Nat) : s.BooksOnly (s.l1DropScb k pa) := ⟨rfl, rfl, rfl, rfl⟩

theorem State.reserveScb_booksOnly {s t : State} {k id part pa va : Nat} (h : s.reserveScb k id part pa va = .ok t) :
    s.BooksOnly t := by
  unfold State.reserveScb at h
  split at h
  · cases h
  · next s1 h1 =>
    dsimp only at h
    split at h
    · cases h
    · next s3 h3 =>
      cases h
      exact (((State.reserveLine_booksOnly h1).trans (State.dropWait_booksOnly ..)).trans (State.reserveLine_booksOnly h3)).trans
        (State.dropWait_booksOnly ..)

/-- The state that an operation finds once it has left the L1 and dropped its waits for headroom. -/
theorem State.dropped_booksOnly (s : State) (k id part pa : Nat) : s.BooksOnly ((s.l1DropScb k pa).dropScb k id part pa) :=
  (State.l1DropScb_booksOnly s k pa).trans (State.dropScb_booksOnly ..)

/-! ## Answers -/

theorem resultQuad_status {st : Nat} (h : st < 256) (v : Nat) : (resultQuad st v).toNat / 2 ^ 56 = st := by
  unfold resultQuad quadN
  rw [BitVec.toNat_ofNat]
  omega

theorem Refuses.of_booksOnly {s t : State} (h : s.BooksOnly t) (e : Nat) : Refuses s (seqDone t e 0) e := ⟨t, rfl, h.store⟩

section
variable {s : State} {k id pa : Nat} {f : State → Seq → OpRes}

theorem State.onSeq_dead (h : (s.seq pa).live = false) : Refuses s (s.onSeq k id pa f) 7 := by
  unfold State.onSeq
  simp only [h]
  exact ⟨_, rfl, (s.dropped_booksOnly k id (s.ctx k).part pa).store⟩

/-- An operation that its own rule refuses takes no headroom and changes nothing. -/
theorem State.onSeq_refuses {t : State} {e : Nat} (h : (s.seq pa).live = true) (he : 0 < e ∧ e < 256)
    (hf : f (s.l1DropScb k pa) (s.seq pa) = seqDone t e 0) : Refuses s (s.onSeq k id pa f) e := by
  unfold State.onSeq
  simp only [h, hf, seqDone, resultQuad_status he.2]
  rw [if_neg (by decide), if_pos (by omega)]
  exact ⟨_, rfl, (s.dropped_booksOnly k id (s.ctx k).part pa).store⟩

/-- An operation that its own rule accepts is carried out in the machine that holds the headroom of its control block. -/
theorem State.onSeq_does {x t : State} {v : Nat} (h : (s.seq pa).live = true)
    (hf : f (s.l1DropScb k pa) (s.seq pa) = seqDone t 0 v)
    (hx : (s.l1DropScb k pa).reserveScb k id (s.ctx k).part pa (s.seq pa).va = .ok x) :
    s.onSeq k id pa f = f x (s.seq pa) := by
  unfold State.onSeq
  simp only [h, hf, seqDone, resultQuad_status (show 0 < 256 by decide), hx]
  rfl

/-- The machine that holds the headroom, against the one in which the operation arrived. -/
theorem State.headroom_booksOnly {x : State} {va : Nat} (hx : (s.l1DropScb k pa).reserveScb k id (s.ctx k).part pa va = .ok x) :
    s.BooksOnly x := (State.l1DropScb_booksOnly s k pa).trans (State.reserveScb_booksOnly hx)

end

/-! ## A sequence replaced -/

theorem State.seq_putSeq (s : State) (pa x : Nat) (q : Seq) :
    (s.putSeq pa q).seq x = if x = pa then (if q.live then q else {}) else s.seq x := by
  unfold State.putSeq State.seq
  dsimp only
  split
  · exact tget_tput ..
  · exact tget_tdel ..

theorem State.seq_of_seqs {s t : State} (h : t.seqs = s.seqs) (x : Nat) : t.seq x = s.seq x := by
  unfold State.seq
  rw [h]

theorem State.seq_setSeq (s : State) (pa x : Nat) (q : Seq) :
    (s.setSeq pa q).seq x = if x = pa then (if q.live then q else {}) else s.seq x := by
  have ht : (s.setSeq pa q).seqs = (((s.markDirty (pa / 128)).markDirty (pa / 128 + 1)).putSeq pa q).seqs := rfl
  rw [State.seq_of_seqs ht, State.seq_putSeq, State.seq_of_seqs (State.markDirty_seqs ..), State.seq_of_seqs (State.markDirty_seqs ..)]

theorem State.seq_setSeq_same {s : State} {pa : Nat} {q : Seq} (h : q.live = true) : (s.setSeq pa q).seq pa = q := by
  rw [State.seq_setSeq, if_pos rfl, if_pos h]

theorem State.seq_setSeq_other (s : State) {pa x : Nat} (q : Seq) (h : x ≠ pa) : (s.setSeq pa q).seq x = s.seq x := by
  rw [State.seq_setSeq, if_neg h]

theorem Seq.scb_length (q : Seq) : q.scb.length = 256 := leBytes_length ..

theorem State.setSeq_mem (s : State) (pa : Nat) (q : Seq) : (s.setSeq pa q).mem = memWrite s.mem pa q.scb := by
  unfold State.setSeq State.putSeq
  dsimp only
  rw [State.markDirty_mem, State.markDirty_mem]

/-- Only the 256 bytes of the control block change with a sequence. -/
theorem State.memGet_setSeq (s : State) (pa : Nat) (q : Seq) {z : Nat} (h : z < pa ∨ pa + 256 ≤ z) :
    memGet (s.setSeq pa q).mem z = memGet s.mem z := by
  rw [State.setSeq_mem]
  exact memGet_memWrite_outside _ _ _ _ (by rwa [Seq.scb_length])

theorem State.seq_modCtx (s : State) (k pa : Nat) (f : Ctx → Ctx) : (s.modCtx k f).seq pa = s.seq pa := rfl

theorem OthersKept.of_seqs {pa : Nat} {s t u : State} (h : OthersKept pa s t) (hu : u.seqs = t.seqs) : OthersKept pa s u :=
  fun x hx => (State.seq_of_seqs hu x).trans (h x hx)

theorem OthersKept.setSeq {pa : Nat} {s t : State} (h : OthersKept pa s t) (q : Seq) : OthersKept pa s (t.setSeq pa q) :=
  fun x hx => (State.seq_setSeq_other t q hx).trans (h x hx)

theorem OthersKept.of_eq {pa : Nat} {s t : State} (h : t.seqs = s.seqs) : OthersKept pa s t := fun x _ => State.seq_of_seqs h x

theorem OthersKept.trans {pa : Nat} {s t u : State} (h : OthersKept pa s t) (h' : OthersKept pa t u) : OthersKept pa s u :=
  fun x hx => (h' x hx).trans (h x hx)

/-! ## Reservations (R278, R288) -/

theorem State.poolAlloc_seqs {s t : State} {part bed order page : Nat} (h : s.poolAlloc part bed order = some (t, page)) :
    t.seqs = s.seqs := by
  unfold State.poolAlloc at h
  dsimp only at h
  split at h
  · cases h
  · split at h
    · cases h
    · cases h; rfl

/-- What an attempt to give a sequence room comes to: statuses 3 and 6, or the sequence with new extents alone. -/
def GivesRoom (s : State) (q : Seq) (r : Except Nat (State × Seq)) : Prop :=
  r = .error 3 ∨ r = .error 6 ∨ ∃ t ext, r = .ok (t, { q with ext := ext }) ∧ t.seqs = s.seqs

theorem GivesRoom.refl (s : State) (q : Seq) : GivesRoom s q (.ok (s, q)) := .inr (.inr ⟨s, q.ext, rfl, rfl⟩)

theorem GivesRoom.of_ok {s t : State} {q : Seq} {ext : List Extent} {r : Except Nat (State × Seq)} (ht : t.seqs = s.seqs)
    (h : GivesRoom t { q with ext := ext } r) : GivesRoom s q r := by
  rcases h with h | h | ⟨u, e, h, hu⟩
  · exact .inl h
  · exact .inr (.inl h)
  · exact .inr (.inr ⟨u, e, h, hu.trans ht⟩)

theorem State.copyTail_givesRoom (s : State) (q : Seq) (j : Nat) : GivesRoom s q (s.copyTail q j) := by
  unfold State.copyTail
  split
  · exact .refl ..
  · split
    · exact .refl ..
    · split
      · exact .inr (.inl rfl)
      · next s1 new hp =>
        dsimp only
        split
        · exact .inl rfl
        · refine .inr (.inr ⟨_, _, rfl, ?_⟩)
          simp only [State.reref_seqs, State.setShare_seqs, State.setVoids_seqs, State.copyLines_seqs]
          exact State.poolAlloc_seqs hp

theorem State.copyTails_givesRoom (l : List Nat) (s : State) (q : Seq) : GivesRoom s q (s.copyTails q l) := by
  induction l generalizing s q with
  | nil => exact .refl ..
  | cons j r ih =>
    unfold State.copyTails
    rcases s.copyTail_givesRoom q j with h | h | ⟨t, ext, h, ht⟩
    · rw [h]; exact .inl rfl
    · rw [h]; exact .inr (.inl rfl)
    · rw [h]; exact .of_ok ht (ih t _)

theorem State.growExtents_givesRoom (n fuel : Nat) (s : State) (q : Seq) : GivesRoom s q (s.growExtents q n fuel) := by
  induction fuel generalizing s q with
  | zero => exact .refl ..
  | succ f ih =>
    unfold State.growExtents
    split
    · exact .refl ..
    · split
      · exact .inl rfl
      · dsimp only
        split
        · exact .inr (.inl rfl)
        · next s1 page hp => exact .of_ok ((State.reref_seqs ..).trans (State.poolAlloc_seqs hp)) (ih _ _)

section
variable {s : State} {pa n limit owner : Nat} {st : SlotSt}

theorem State.reserveSlots_bad (h : n = 0 ∨ limit < n) : s.reserveSlots pa n limit owner st = .error 8 := if_pos h

theorem State.reserveSlots_full (hn : ¬(n = 0 ∨ limit < n)) (h : (s.seq pa).tact = true ∨
    256 < (s.seq pa).cur + n - (if (s.seq pa).frozen then (s.seq pa).len else 0)) :
    s.reserveSlots pa n limit owner st = .error 2 := by
  unfold State.reserveSlots
  dsimp only
  rw [if_neg hn]
  by_cases ht : (s.seq pa).tact = true
  · rw [if_pos ht]
  · rw [if_neg ht, if_pos (h.resolve_left ht)]

theorem State.reserveSlots_tries (hn : ¬(n = 0 ∨ limit < n)) (h : ¬((s.seq pa).tact = true ∨
    256 < (s.seq pa).cur + n - (if (s.seq pa).frozen then (s.seq pa).len else 0))) :
    s.reserveSlots pa n limit owner st = .error 3 ∨ s.reserveSlots pa n limit owner st = .error 6 ∨
      ∃ t ext, s.reserveSlots pa n limit owner st = .ok (t, { s.seq pa with
        ext := ext, cur := (s.seq pa).cur + n,
        slots := (s.seq pa).slots ++ (List.range n).map fun i => { i := (s.seq pa).cur + i, st := st, owner := owner } }) ∧
      t.seqs = s.seqs := by
  unfold State.reserveSlots
  dsimp only
  rw [if_neg hn, if_neg fun ht => h (.inl ht), if_neg fun hl => h (.inr hl)]
  rcases s.copyTails_givesRoom _ (s.seq pa) with e | e | ⟨t, ext, e, ht⟩
  · exact .inl (by rw [e])
  · exact .inr (.inl (by rw [e]))
  · rw [e]
    dsimp only
    rcases t.growExtents_givesRoom _ 33 { s.seq pa with ext := ext } with e' | e' | ⟨u, ext', e', hu⟩
    · exact .inl (by rw [e'])
    · exact .inr (.inl (by rw [e']))
    · exact .inr (.inr ⟨u, ext', by rw [e'], hu.trans ht⟩)

end

/-! ## Commits (R279, R280) -/

/-- A slot that the length passes. -/
def SlotRec.passed (r : SlotRec) : Prop := r.st = .committed ∨ r.st = .voided

theorem SlotRec.passed_iff (r : SlotRec) : (r.st == .committed || r.st == .voided) = true ↔ r.passed := by
  simp [SlotRec.passed]

section
variable (q : Seq)

theorem Seq.le_committedTo (f n : Nat) : n ≤ q.committedTo f n := by
  induction f generalizing n with
  | zero => exact Nat.le_refl n
  | succ f ih =>
    unfold Seq.committedTo
    split
    · split
      · exact Nat.le_of_succ_le (ih (n + 1))
      · exact Nat.le_refl n
    · exact Nat.le_refl n

theorem Seq.passed_of_lt_committedTo (f n i : Nat) (h : n ≤ i) (hi : i < q.committedTo f n) :
    ∃ r ∈ q.slots, r.i = i ∧ r.passed := by
  induction f generalizing n with
  | zero => exact absurd hi (Nat.not_lt.mpr h)
  | succ f ih =>
    unfold Seq.committedTo at hi
    split at hi
    · next r hr =>
      split at hi
      · next hp =>
        by_cases he : n = i
        · subst he
          exact ⟨r, List.mem_of_find?_eq_some hr, by simpa using List.find?_some hr, r.passed_iff.mp hp⟩
        · exact ih (n + 1) (by omega) hi
      · exact absurd hi (Nat.not_lt.mpr h)
    · exact absurd hi (Nat.not_lt.mpr h)

/-- The advance ends at a slot that is not passed, or with its fuel. -/
theorem Seq.committedTo_stops (f n : Nat) : q.committedTo f n = n + f ∨
    ∀ r, (q.slots.find? fun r => r.i == q.committedTo f n) = some r → ¬r.passed := by
  induction f generalizing n with
  | zero => exact .inl rfl
  | succ f ih =>
    unfold Seq.committedTo
    split
    · next r hr =>
      split
      · rcases ih (n + 1) with h | h
        · exact .inl (by omega)
        · exact .inr h
      · next hp =>
        refine .inr fun r' hr' => ?_
        cases hr.symm.trans hr'
        exact fun h => hp (r.passed_iff.mpr h)
    · next hn => exact .inr fun r' hr' => by cases hn.symm.trans hr'

/-- The advance over as many slots as there are ends at a slot that is not passed: no place is taken by two of them. -/
theorem Seq.not_passed_at_committedTo (n : Nat) (r : SlotRec)
    (hr : (q.slots.find? fun r => r.i == q.committedTo q.slots.length n) = some r) : ¬r.passed := by
  rcases q.committedTo_stops q.slots.length n with h | h
  · exfalso
    have hsub : List.range' n (q.slots.length + 1) ⊆ q.slots.map (·.i) := by
      intro i hi
      rw [List.mem_range'_1] at hi
      by_cases he : i = n + q.slots.length
      · exact List.mem_map.mpr ⟨r, List.mem_of_find?_eq_some hr, by
          have hri := List.find?_some hr
          rw [h] at hri
          rw [he]
          simpa using hri⟩
      · obtain ⟨x, hx, hxi, _⟩ := q.passed_of_lt_committedTo q.slots.length n i hi.1 (by omega)
        exact List.mem_map.mpr ⟨x, hx, hxi⟩
    have hlen := (List.subperm_of_subset (List.nodup_range' (h := by decide)) hsub).length_le
    simp at hlen
  · exact h r hr

end

theorem State.quantiseSlots_seqs (s : State) (q : Seq) (isVoid : Nat → Bool) (l : List Nat) :
    (l.foldl (fun t i => t.quantiseSlot q i (isVoid i)) s).seqs = s.seqs :=
  foldl_seqs (fun _ _ => State.quantiseSlot_seqs ..) l s

/-- The length of a sequence that has advanced over its slots, with what no rule of the length decides. -/
theorem State.seq_advanceLen {s : State} {pa : Nat} (h : (s.seq pa).live = true) :
    (∃ stage ring frozen scales slots, (s.advanceLen pa).seq pa = { s.seq pa with
      len := (s.seq pa).committedTo (s.seq pa).slots.length (s.seq pa).len,
      stage := stage, ring := ring, frozen := frozen, scales := scales, slots := slots }) ∧ OthersKept pa s (s.advanceLen pa) := by
  unfold State.advanceLen
  dsimp only
  split
  · next he => exact ⟨⟨_, _, _, _, _, by rw [he]⟩, fun _ _ => rfl⟩
  · refine ⟨?_, OthersKept.setSeq (OthersKept.of_eq ?_) _⟩
    · rw [State.seq_setSeq_same]
      · split <;> exact ⟨_, _, _, _, _, rfl⟩
      · split <;> exact h
    · rw [State.copyLines_seqs, foldl_seqs fun t i => State.setVoid_seqs ..]
      repeat' split
      all_goals simp only [State.quantiseSlots_seqs, State.freshLines_seqs]

theorem Seq.stageFills_eq (fills : List (Nat × Nat × BitVec 16)) (q : Seq) : ∃ stage, q.stageFills fills = { q with stage := stage } := by
  unfold Seq.stageFills
  induction fills generalizing q with
  | nil => exact ⟨q.stage, rfl⟩
  | cons f r ih =>
    obtain ⟨stage, h⟩ := ih { q with stage := tput q.stage f.1 ((q.staged f.1).set f.2.1 f.2.2) }
    exact ⟨stage, h⟩

/-- A slot as a commit of `n` slots from `first` on leaves it. -/
def SlotRec.taken (first n : Nat) (r : SlotRec) : SlotRec :=
  if decide (first ≤ r.i ∧ r.i < first + n) then { r with st := .committed } else r

theorem SlotRec.taken_i (first n : Nat) (r : SlotRec) : (r.taken first n).i = r.i := by
  unfold SlotRec.taken
  split <;> rfl

theorem SlotRec.taken_passed (first n : Nat) (r : SlotRec) :
    (r.taken first n).passed ↔ ((first ≤ r.i ∧ r.i < first + n) ∨ r.st = .committed ∨ r.st = .voided) := by
  unfold SlotRec.taken SlotRec.passed
  by_cases h : first ≤ r.i ∧ r.i < first + n
  · simp [h]
  · simp [h]

theorem find?_taken (first n i : Nat) (l : List SlotRec) :
    ((l.map (SlotRec.taken first n)).find? fun r => r.i == i) = (l.find? fun r => r.i == i).map (SlotRec.taken first n) := by
  rw [List.find?_map]
  congr 2
  funext r
  simp [SlotRec.taken_i]

/-- The sequence that a commit has written, before its length advances. -/
theorem State.commitSlots_eq (s : State) (k pa first n : Nat) : ∃ (u : State) (stage : Tab (List (BitVec 16))), u.seqs = s.seqs ∧
    ∃ f, s.commitSlots k pa first n .committed = ((u.setSeq pa { s.seq pa with
      stage := stage, slots := (s.seq pa).slots.map (SlotRec.taken first n) }).modCtx k f).tryAdvance pa := by
  obtain ⟨stage, h⟩ := Seq.stageFills_eq ((((s.ctx k).ver.fills.filter fun f =>
    f.1 == pa && decide (first ≤ f.2.1 ∧ f.2.1 < first + n)).map (·.2))) (s.seq pa)
  refine ⟨s.freshLines (((List.range n).map (first + ·)).flatMap (s.stageLines (s.seq pa))), stage, State.freshLines_seqs ..,
    fun c => { c with ver := { c.ver with
      fills := c.ver.fills.filter fun f => !(f.1 == pa && decide (first ≤ f.2.1 ∧ f.2.1 < first + n)) } }, ?_⟩
  unfold State.commitSlots
  dsimp only
  rw [if_neg (by decide), if_neg (by decide), if_neg (by decide), h]
  rfl

/-- A length that a commit has brought forward, past what it passes and no further. -/
theorem LengthComes.of_advance {q q' q2 : Seq} {first n : Nat} {stage : Tab (List (BitVec 16))}
    (h2 : q2 = { q with stage := stage, slots := q.slots.map (SlotRec.taken first n) })
    (h : (q.attn ≠ 0 ∧ q' = q2) ∨ (q.attn = 0 ∧ ∃ stage ring frozen scales slots, q' = { q2 with
      len := q2.committedTo q2.slots.length q2.len, stage := stage, ring := ring, frozen := frozen, scales := scales,
      slots := slots })) : LengthComes q q' first n := by
  rcases h with ⟨ha, h⟩ | ⟨ha, stage', ring, frozen, scales, slots, h⟩
  · subst h h2
    refine ⟨⟨_, _, _, _, _, rfl⟩, Nat.le_refl _, fun _ => rfl, fun i h1 h3 => ?_, fun h0 => absurd h0 ha⟩
    exact absurd h3 (Nat.not_lt.mpr h1)
  · have hlen : q2.len = q.len := by rw [h2]
    have hslots : q2.slots = q.slots.map (SlotRec.taken first n) := by rw [h2]
    have hq' : q'.len = q2.committedTo q2.slots.length q2.len := by rw [h]
    refine ⟨⟨stage', ring, frozen, scales, slots, by rw [h, h2]⟩, ?_, fun h0 => absurd ha h0, fun i h1 h3 => ?_, fun _ r hr => ?_⟩
    · rw [hq', hlen]
      exact q2.le_committedTo ..
    · rw [hq'] at h3
      obtain ⟨x, hx, hxi, hp⟩ := q2.passed_of_lt_committedTo _ _ i (by rw [hlen]; exact h1) h3
      rw [hslots] at hx
      obtain ⟨r, hr, rfl⟩ := List.mem_map.mp hx
      exact ⟨r, hr, (r.taken_i first n).symm.trans hxi, (r.taken_passed first n).mp hp⟩
    · rw [hq'] at hr
      refine fun hd => q2.not_passed_at_committedTo q2.len (r.taken first n) ?_ ((r.taken_passed first n).mpr hd)
      generalize q2.committedTo q2.slots.length q2.len = i at hr ⊢
      rw [hslots, find?_taken, hr]
      rfl

theorem State.tryAdvance_seq {s : State} {pa : Nat} (h : (s.seq pa).live = true) :
    (((s.seq pa).attn ≠ 0 ∧ (s.tryAdvance pa).seq pa = s.seq pa) ∨ ((s.seq pa).attn = 0 ∧
      ∃ stage ring frozen scales slots, (s.tryAdvance pa).seq pa = { s.seq pa with
        len := (s.seq pa).committedTo (s.seq pa).slots.length (s.seq pa).len,
        stage := stage, ring := ring, frozen := frozen, scales := scales, slots := slots })) ∧
    OthersKept pa s (s.tryAdvance pa) := by
  unfold State.tryAdvance
  split
  · next ha => exact ⟨.inr ⟨ha, (State.seq_advanceLen h).1⟩, (State.seq_advanceLen h).2⟩
  · next ha => exact ⟨.inl ⟨ha, rfl⟩, fun _ _ => rfl⟩

theorem State.commitSlots_length {s : State} {k pa first n : Nat} (h : (s.seq pa).live = true) :
    LengthComes (s.seq pa) ((s.commitSlots k pa first n .committed).seq pa) first n ∧
      OthersKept pa s (s.commitSlots k pa first n .committed) := by
  obtain ⟨u, stage, hu, f, he⟩ := s.commitSlots_eq k pa first n
  rw [he]
  generalize hq2 : ({ s.seq pa with stage := stage, slots := (s.seq pa).slots.map (SlotRec.taken first n) } : Seq) = q2
  have hlive : q2.live = true := by rw [← hq2]; exact h
  have hattn : q2.attn = (s.seq pa).attn := by rw [← hq2]
  have hv : ((u.setSeq pa q2).modCtx k f).seq pa = q2 :=
    (State.seq_modCtx ..).trans (State.seq_setSeq_same hlive)
  have ho : OthersKept pa s ((u.setSeq pa q2).modCtx k f) :=
    ((OthersKept.of_eq hu).setSeq q2).of_seqs rfl
  obtain ⟨hlen, hrest⟩ := State.tryAdvance_seq (s := (u.setSeq pa q2).modCtx k f) (pa := pa) (by rw [hv]; exact hlive)
  rw [hv, hattn] at hlen
  exact ⟨LengthComes.of_advance hq2.symm hlen, ho.trans hrest⟩

end Sys2Proof.Machine
end

section
/-! PROOFS. The operations on sequences one by one, and the entry of every operation for a home slice (R187, R188, R268-R288). -/

namespace Sys2Proof.Machine

section
variable {s : State} {k id pa : Nat}

/-- The headroom of a control block is there for the operation. -/
def State.ScbFree (s : State) (k id pa : Nat) : Prop :=
  ∃ t, (s.l1DropScb k pa).reserveScb k id (s.ctx k).part pa (s.seq pa).va = .ok t

/-! ## Reservations -/

/-- What a reservation comes to in a machine, the sequence that it makes being changed by `fin`. -/
def State.reserveRes (t : State) (pa n limit owner : Nat) (st : SlotSt) (fin : Seq → Seq) (cur : Nat) : OpRes :=
  match t.reserveSlots pa n limit owner st with
  | .error e => seqDone t e 0
  | .ok (t1, q1) => seqDone (t1.setSeq pa (fin q1)) 0 cur

theorem State.opSqres_eq (n : Quad) : s.opSqres k id pa n = s.onSeq k id pa fun t q =>
    t.reserveRes pa n.toNat 256 (t.ctx k).taskid .reserved (fun x => x) q.cur := by
  unfold State.opSqres State.reserveRes
  rfl

theorem State.opSqrest_eq (n : Quad) : s.opSqrest k id pa n = s.onSeq k id pa fun t q =>
    t.reserveRes pa n.toNat 64 (t.ctx k).taskid .tentative
      (fun x => { x with tbase := q.cur, tcnt := n.toNat, tact := true, towner := (t.ctx k).taskid }) q.cur := by
  unfold State.opSqrest State.reserveRes
  rfl

theorem State.reserveRes_error {t : State} {n limit owner cur e : Nat} {st : SlotSt} {fin : Seq → Seq}
    (h : t.reserveSlots pa n limit owner st = .error e) : t.reserveRes pa n limit owner st fin cur = seqDone t e 0 := by
  unfold State.reserveRes
  rw [h]

theorem State.reserveRes_ok {t t1 : State} {q1 : Seq} {n limit owner cur : Nat} {st : SlotSt} {fin : Seq → Seq}
    (h : t.reserveSlots pa n limit owner st = .ok (t1, q1)) :
    t.reserveRes pa n limit owner st fin cur = seqDone (t1.setSeq pa (fin q1)) 0 cur := by
  unfold State.reserveRes
  rw [h]

/-- The outcomes of `sqres` and `sqrest`: the sequence that each makes is `fin` of what the shared procedure leaves. -/
theorem State.reserves {o : OpRes} {n : Quad} {limit : Nat} {st : SlotSt} {fin : State → Seq → Seq → Seq} {f : Seq → Seq}
    (hlive : (s.seq pa).live = true)
    (ho : o = s.onSeq k id pa fun t q => t.reserveRes pa n.toNat limit (t.ctx k).taskid st (fin t q) q.cur)
    (hfin : ∀ (t : State) ext, (t.ctx k) = s.ctx k → fin t (s.seq pa) { s.seq pa with
        ext := ext, cur := (s.seq pa).cur + n.toNat,
        slots := (s.seq pa).slots ++ (List.range n.toNat).map fun i => { i := (s.seq pa).cur + i, st := st, owner := (s.ctx k).taskid } }
      = f { s.seq pa with ext := ext, cur := (s.seq pa).cur + n.toNat })
    (hf : ∀ q, q.live = true → (f q).live = true) :
    let q := s.seq pa
    let tooMany : Prop := q.tact = true ∨ 256 < q.cur + n.toNat - (if q.frozen then q.len else 0)
    (n = 0 ∨ limit < n.toNat → Refuses s o 8) ∧ (n ≠ 0 → n.toNat ≤ limit → tooMany → Refuses s o 2) ∧
    (n ≠ 0 → n.toNat ≤ limit → ¬tooMany → s.ScbFree k id pa → Refuses s o 3 ∨ Refuses s o 6 ∨
      ∃ t ext, o = .done t (resultQuad 0 q.cur) ∧ OthersKept pa s t ∧ t.seq pa = f { q with ext := ext, cur := q.cur + n.toNat }) := by
  have hu := State.l1DropScb_booksOnly s k pa
  have hn0 : n ≠ 0 → n.toNat ≠ 0 := fun h e => h (BitVec.eq_of_toNat_eq e)
  subst ho
  refine ⟨fun hbad => ?_, fun hn hl hmany => ?_, fun hn hl hmany hfree => ?_⟩
  · refine State.onSeq_refuses (e := 8) hlive (by decide) (State.reserveRes_error (State.reserveSlots_bad ?_))
    rcases hbad with rfl | h
    · exact .inl rfl
    · exact .inr h
  · refine State.onSeq_refuses (e := 2) hlive (by decide) (State.reserveRes_error (State.reserveSlots_full ?_ ?_))
    · have := hn0 hn
      omega
    · rwa [hu.seq]
  · have hok : ¬(n.toNat = 0 ∨ limit < n.toNat) := by
      have := hn0 hn
      omega
    have htry : ∀ t : State, s.BooksOnly t → t.reserveSlots pa n.toNat limit (t.ctx k).taskid st = .error 3 ∨
        t.reserveSlots pa n.toNat limit (t.ctx k).taskid st = .error 6 ∨ ∃ t1 ext,
          t.reserveSlots pa n.toNat limit (t.ctx k).taskid st = .ok (t1, { s.seq pa with
            ext := ext, cur := (s.seq pa).cur + n.toNat, slots := (s.seq pa).slots ++ (List.range n.toNat).map fun i =>
              { i := (s.seq pa).cur + i, st := st, owner := (s.ctx k).taskid } }) ∧ t1.seqs = t.seqs := by
      intro t ht
      have h := State.reserveSlots_tries (s := t) (pa := pa) (st := st) (owner := (t.ctx k).taskid) hok (by rw [ht.seq]; exact hmany)
      rw [ht.seq, ht.ctx] at h
      rw [ht.ctx]
      exact h
    rcases htry _ hu with h | h | ⟨t1, ext, h, _⟩
    · exact .inl (State.onSeq_refuses (e := 3) hlive (by decide) (State.reserveRes_error h))
    · exact .inr (.inl (State.onSeq_refuses (e := 6) hlive (by decide) (State.reserveRes_error h)))
    · obtain ⟨x, hx⟩ := hfree
      have hxs := State.headroom_booksOnly hx
      rw [State.onSeq_does hlive (State.reserveRes_ok h) hx]
      rcases htry x hxs with h | h | ⟨t2, ext2, h, ht2⟩
      · rw [State.reserveRes_error h]
        exact .inl (Refuses.of_booksOnly hxs 3)
      · rw [State.reserveRes_error h]
        exact .inr (.inl (Refuses.of_booksOnly hxs 6))
      · rw [State.reserveRes_ok h, hfin x ext2 (hxs.ctx k)]
        exact .inr (.inr ⟨_, ext2, rfl, (OthersKept.of_eq (ht2.trans hxs.seqs)).setSeq _, State.seq_setSeq_same (hf _ hlive)⟩)

/-! ## Commits and withdrawal -/

/-- The slots that a commit names are the task's own reserved ones. -/
def State.Commits (s : State) (k pa : Nat) (n m : Quad) : Prop :=
  1 ≤ m.toNat ∧ m.toNat ≤ 256 ∧ ∀ i, i < m.toNat → ∃ r ∈ (s.seq pa).slots, r.i = n.toNat + i ∧ r.st = .reserved ∧ r.owner = (s.ctx k).taskid

theorem State.commits_iff {t : State} (ht : s.BooksOnly t) (n m : Quad) :
    (decide (1 ≤ m.toNat ∧ m.toNat ≤ 256) && (List.range m.toNat).all fun i => (s.seq pa).slots.any fun r =>
      r.i == n.toNat + i && r.st == .reserved && r.owner == (t.ctx k).taskid) = true ↔ s.Commits k pa n m := by
  rw [ht.ctx]
  simp [State.Commits, and_assoc]

/-- A commit in the machine that holds its headroom. -/
theorem State.opSqcmt_does {n m : Quad} (hlive : (s.seq pa).live = true) (hc : s.Commits k pa n m) (hfree : s.ScbFree k id pa) :
    ∃ t, s.opSqcmt k id pa n m = .done t (resultQuad 0 (t.seq pa).len) ∧ OthersKept pa s t ∧
      LengthComes (s.seq pa) (t.seq pa) n.toNat m.toNat := by
  obtain ⟨x, hx⟩ := hfree
  have hxs := State.headroom_booksOnly hx
  have hu := (State.commits_iff (State.l1DropScb_booksOnly s k pa) n m).mpr hc
  have hxc := (State.commits_iff hxs n m).mpr hc
  have hlen := State.commitSlots_length (s := x) (k := k) (pa := pa) (first := n.toNat) (n := m.toNat) (by rw [hxs.seq]; exact hlive)
  rw [hxs.seq] at hlen
  refine ⟨_, ?_, (OthersKept.of_eq hxs.seqs).trans hlen.2, hlen.1⟩
  unfold State.opSqcmt
  refine (State.onSeq_does (t := State.commitSlots (s.l1DropScb k pa) k pa n.toNat m.toNat .committed)
    (v := ((State.commitSlots (s.l1DropScb k pa) k pa n.toNat m.toNat .committed).seq pa).len) hlive ?_ hx).trans ?_
  · dsimp only
    rw [hu]
    rfl
  · dsimp only
    rw [hxc]
    rfl

theorem State.opSqcmt_refuses {n m : Quad} (hlive : (s.seq pa).live = true) (hc : ¬s.Commits k pa n m) :
    Refuses s (s.opSqcmt k id pa n m) 8 := by
  have hu := mt (State.commits_iff (State.l1DropScb_booksOnly s k pa) n m).mp hc
  refine State.onSeq_refuses (t := s.l1DropScb k pa) hlive (by decide) ?_
  dsimp only
  rw [Bool.not_eq_true] at hu
  rw [hu]
  rfl

/-- The task's own tentative group is active. -/
def State.Group (s : State) (k pa : Nat) : Prop := (s.seq pa).tact = true ∧ (s.seq pa).towner = (s.ctx k).taskid

theorem State.group_iff {t : State} (ht : s.BooksOnly t) :
    (!(s.seq pa).tact || (s.seq pa).towner != (t.ctx k).taskid) = true ↔ ¬s.Group k pa := by
  rw [ht.ctx]
  unfold State.Group
  cases (s.seq pa).tact <;> simp

theorem State.opSqwd_refuses (hlive : (s.seq pa).live = true) (hg : ¬s.Group k pa) : Refuses s (s.opSqwd k id pa) 8 :=
  State.onSeq_refuses (t := s.l1DropScb k pa) hlive (by decide)
    (if_pos ((State.group_iff (State.l1DropScb_booksOnly s k pa)).mpr hg))

theorem State.withdraw_eq (x : State) (k pa : Nat) : ∃ (u : State) (ext : List Extent) (f : Ctx → Ctx), u.seqs = x.seqs ∧
    x.withdraw k pa = (u.setSeq pa { x.seq pa with
      ext := ext, cur := (x.seq pa).tbase, tact := false, tcnt := 0,
      slots := (x.seq pa).slots.filter (fun r => decide (r.i < (x.seq pa).tbase)),
      stage := (x.seq pa).stage.filter (fun p => decide (p.1 < (x.seq pa).tbase)),
      gone := (x.seq pa).gone ++ [((x.seq pa).tbase, (x.seq pa).tcnt, (x.seq pa).towner)] }).modCtx k f := by
  unfold State.withdraw
  dsimp only
  exact ⟨_, _, _, State.reref_seqs .., rfl⟩

theorem State.opSqwd_does (hlive : (s.seq pa).live = true) (hg : s.Group k pa) (hfree : s.ScbFree k id pa) :
    ∃ t ext stage gone, s.opSqwd k id pa = .done t (resultQuad 0 (s.seq pa).tcnt) ∧ OthersKept pa s t ∧
      t.seq pa = { s.seq pa with ext := ext, cur := (s.seq pa).tbase, tact := false, tcnt := 0, stage := stage, gone := gone,
                                 slots := (s.seq pa).slots.filter fun r => decide (r.i < (s.seq pa).tbase) } := by
  obtain ⟨x, hx⟩ := hfree
  have hxs := State.headroom_booksOnly hx
  obtain ⟨u, ext, f, hu, hw⟩ := x.withdraw_eq k pa
  rw [hxs.seq] at hw
  refine ⟨x.withdraw k pa, ext, (s.seq pa).stage.filter (fun p => decide (p.1 < (s.seq pa).tbase)),
    (s.seq pa).gone ++ [((s.seq pa).tbase, (s.seq pa).tcnt, (s.seq pa).towner)], ?_, ?_, ?_⟩
  rotate_left
  · rw [hw]
    exact ((OthersKept.of_eq (hu.trans hxs.seqs)).setSeq _).of_seqs (State.modCtx_seqs ..)
  · rw [hw, State.seq_modCtx]
    exact State.seq_setSeq_same hlive
  refine (State.onSeq_does hlive (if_neg ?_) hx).trans (if_neg ?_)
  · exact fun h => (State.group_iff (State.l1DropScb_booksOnly s k pa)).mp h hg
  · exact fun h => (State.group_iff hxs).mp h hg

theorem State.accepts_iff {t : State} (ht : s.BooksOnly t) (n : Quad) :
    (!(s.seq pa).tact || (s.seq pa).towner != (t.ctx k).taskid || decide ((s.seq pa).tcnt < n.toNat)) = true ↔
      ¬(s.Group k pa ∧ n.toNat ≤ (s.seq pa).tcnt) := by
  rw [Bool.or_eq_true, State.group_iff ht, decide_eq_true_eq, ← Nat.not_le, not_and_or]

theorem State.opSqacc_refuses {n : Quad} (hlive : (s.seq pa).live = true) (hg : ¬(s.Group k pa ∧ n.toNat ≤ (s.seq pa).tcnt)) :
    Refuses s (s.opSqacc k id pa n) 8 :=
  State.onSeq_refuses (t := s.l1DropScb k pa) hlive (by decide)
    (if_pos ((State.accepts_iff (State.l1DropScb_booksOnly s k pa) n).mpr hg))

theorem State.opSqacc_does {n : Quad} (hlive : (s.seq pa).live = true) (hg : s.Group k pa) (hn : n.toNat ≤ (s.seq pa).tcnt)
    (hfree : s.ScbFree k id pa) : ∃ t, s.opSqacc k id pa n = .done t (resultQuad 0 (t.seq pa).len) ∧ OthersKept pa s t ∧
      LengthComes { s.seq pa with tbase := (s.seq pa).tbase + n.toNat, tcnt := (s.seq pa).tcnt - n.toNat,
                                  tact := (s.seq pa).tcnt != n.toNat } (t.seq pa) (s.seq pa).tbase n.toNat := by
  obtain ⟨x, hx⟩ := hfree
  have hxs := State.headroom_booksOnly hx
  generalize hq1 : ({ s.seq pa with tbase := (s.seq pa).tbase + n.toNat, tcnt := (s.seq pa).tcnt - n.toNat,
                                    tact := (s.seq pa).tcnt != n.toNat } : Seq) = q1
  have hl1 : q1.live = true := by rw [← hq1]; exact hlive
  have hseq : (x.setSeq pa q1).seq pa = q1 := State.seq_setSeq_same hl1
  have hlen := State.commitSlots_length (s := x.setSeq pa q1) (k := k) (pa := pa) (first := (s.seq pa).tbase) (n := n.toNat)
    (by rw [hseq]; exact hl1)
  rw [hseq] at hlen
  have hno : ∀ {t : State}, s.BooksOnly t → ¬(!(s.seq pa).tact || (s.seq pa).towner != (t.ctx k).taskid ||
      decide ((s.seq pa).tcnt < n.toNat)) = true := fun ht h => (State.accepts_iff ht n).mp h ⟨hg, hn⟩
  refine ⟨_, ?_, ((OthersKept.of_eq hxs.seqs).setSeq q1).trans hlen.2, hlen.1⟩
  subst hq1
  exact (State.onSeq_does hlive (if_neg (hno (State.l1DropScb_booksOnly s k pa))) hx).trans (if_neg (hno hxs))

/-! ## The end of a sequence, and its pins -/

theorem State.opSqfree_refuses (hlive : (s.seq pa).live = true)
    (h : 0 < (s.seq pa).pin ∨ (s.seq pa).len < (s.seq pa).cur ∨ (s.seq pa).tact = true ∨ 0 < (s.seq pa).attn) :
    Refuses s (s.opSqfree k id pa) 2 :=
  State.onSeq_refuses (t := s.l1DropScb k pa) hlive (by decide) (if_pos h)

theorem State.opSqfree_does (hlive : (s.seq pa).live = true)
    (h : ¬(0 < (s.seq pa).pin ∨ (s.seq pa).len < (s.seq pa).cur ∨ (s.seq pa).tact = true ∨ 0 < (s.seq pa).attn))
    (hfree : s.ScbFree k id pa) : ∃ t, s.opSqfree k id pa = .done t (resultQuad 0 (s.seq pa).len) ∧ OthersKept pa s t ∧
      (t.seq pa).live = false := by
  obtain ⟨x, hx⟩ := hfree
  have hxs := State.headroom_booksOnly hx
  refine ⟨_, (State.onSeq_does hlive (if_neg h) hx).trans (if_neg h), (OthersKept.of_eq ?_).setSeq _, ?_⟩
  · rw [State.blockRef_seqs, State.reref_seqs, State.dropShares_seqs, hxs.seqs]
  · rw [State.seq_setSeq, if_pos rfl]
    rfl

/-- A pin that may not be counted is refused. -/
theorem State.opSqpin_refuses {up : Bool} (hlive : (s.seq pa).live = true)
    (h : if up then (s.seq pa).pin = 65535 else (s.seq pa).pin = 0) : Refuses s (s.opSqpin k id pa up) (if up then 2 else 8) := by
  cases up with
  | true => exact State.onSeq_refuses (e := 2) (t := s.l1DropScb k pa) hlive (by decide) (if_pos h)
  | false => exact State.onSeq_refuses (e := 8) (t := s.l1DropScb k pa) hlive (by decide) (if_pos h)

theorem State.pinSeq_seqs (x : State) (pa : Nat) :
    (x.pinSeq pa).seqs = (x.setSeq pa { x.seq pa with pin := (x.seq pa).pin + 1 }).seqs := by
  unfold State.pinSeq
  exact State.modPart_seqs ..

theorem State.pinSeq_eq_mem (x : State) (pa : Nat) :
    (x.pinSeq pa).mem = (x.setSeq pa { x.seq pa with pin := (x.seq pa).pin + 1 }).mem := by
  unfold State.pinSeq
  exact State.modPart_mem ..

theorem State.opSqpin_does {up : Bool} (hlive : (s.seq pa).live = true)
    (h : ¬(if up then (s.seq pa).pin = 65535 else (s.seq pa).pin = 0)) (hfree : s.ScbFree k id pa) :
    let c := if up then (s.seq pa).pin + 1 else (s.seq pa).pin - 1
    ∃ t, s.opSqpin k id pa up = .done t (resultQuad 0 c) ∧ OthersKept pa s t ∧ t.seq pa = { s.seq pa with pin := c } ∧
      ∀ z, z < pa ∨ pa + 256 ≤ z → memGet t.mem z = memGet s.mem z := by
  obtain ⟨x, hx⟩ := hfree
  have hxs := State.headroom_booksOnly hx
  have ho := OthersKept.of_eq (pa := pa) hxs.seqs
  cases up with
  | true =>
    refine ⟨x.pinSeq pa, (State.onSeq_does hlive (if_neg h) hx).trans (if_neg h), ?_, ?_, fun z hz => ?_⟩
    · exact (ho.setSeq _).of_seqs (State.pinSeq_seqs x pa)
    · rw [State.seq_of_seqs (State.pinSeq_seqs x pa), hxs.seq]
      exact State.seq_setSeq_same hlive
    · rw [State.pinSeq_eq_mem, State.memGet_setSeq _ _ _ hz, hxs.mem]
  | false =>
    refine ⟨x.setSeq pa { s.seq pa with pin := (s.seq pa).pin - 1 }, (State.onSeq_does hlive (if_neg h) hx).trans (if_neg h),
      ho.setSeq _, State.seq_setSeq_same hlive, fun z hz => (State.memGet_setSeq x pa _ hz).trans (by rw [hxs.mem])⟩

/-! ## Reads -/

theorem State.opSqlen_live (hlive : (s.seq pa).live = true) :
    ∃ t, s.opSqlen k pa = .done t (resultQuad 0 (s.seq pa).len) ∧ SameStore s t := by
  refine ⟨s.l1DropScb k pa, ?_, (State.l1DropScb_booksOnly s k pa).store⟩
  unfold State.opSqlen
  rw [hlive]
  rfl

theorem State.opSqlen_dead (hlive : (s.seq pa).live = false) : Refuses s (s.opSqlen k pa) 7 := by
  refine ⟨s.l1DropScb k pa, ?_, (State.l1DropScb_booksOnly s k pa).store⟩
  unfold State.opSqlen
  rw [hlive]
  rfl

theorem State.opSqwait_dead {n : Quad} (hlive : (s.seq pa).live = false) : Refuses s (s.opSqwait k pa n) 7 := by
  refine ⟨s.l1DropScb k pa, ?_, (State.l1DropScb_booksOnly s k pa).store⟩
  unfold State.opSqwait
  rw [hlive]
  rfl

theorem State.opSqwait_waits {n : Quad} (hlive : (s.seq pa).live = true) (h : (s.seq pa).len < n.toNat) :
    s.opSqwait k pa n = .wait s := by
  unfold State.opSqwait
  rw [hlive, if_neg (by decide), if_neg (Nat.not_le.mpr h)]

theorem State.opSqwait_answers {n : Quad} (hlive : (s.seq pa).live = true) (h : n.toNat ≤ (s.seq pa).len) :
    ∃ t, s.opSqwait k pa n = .done t (resultQuad 0 (s.seq pa).len) ∧ SameStore s t := by
  refine ⟨s.l1DropScb k pa, ?_, (State.l1DropScb_booksOnly s k pa).store⟩
  unfold State.opSqwait
  rw [hlive, if_neg (by decide), if_pos h]
  rfl

/-- A read of an extent: it changes nothing stored. -/
theorem State.opSqext_eq {sel : Nat} {n : Quad} {v : Nat} (h : s.opSqext k pa sel n = .done (s.l1DropScb k pa) (quadN v)) :
    ∃ t, s.opSqext k pa sel n = .done t (quadN v) ∧ SameStore s t :=
  ⟨_, h, (State.l1DropScb_booksOnly s k pa).store⟩

end

end Sys2Proof.Machine
end

section
/-! PROOFS. Barrier records, sequences made and grafted, and the entry of every operation for a home slice (R187, R188,
R268-R288). -/

namespace Sys2Proof.Machine

/-! ## Barrier records (R187, R188) -/

theorem leNat_leBytes (n v : Nat) : leNat (leBytes n v) = v % 256 ^ n := by
  induction n generalizing v with
  | zero => simp [leBytes, leNat, Nat.mod_one]
  | succ n ih =>
    simp only [leBytes, leNat, ih, BitVec.toNat_ofNat]
    rw [show 256 ^ (n + 1) = 256 * 256 ^ n by ring, Nat.mod_mul, show 2 ^ 8 = 256 from rfl]

/-- The fields of a record lie within their bits. -/
structure BarRec.Fits (b : BarRec) : Prop where
  arrived : b.arrived < 2 ^ 32
  expect  : b.expect < 2 ^ 32
  rest    : b.rest < 2 ^ 30
  phase   : b.phase < 2 ^ 32

theorem barOf_fits (v : Nat) : (barOf v).Fits := by
  constructor
  all_goals
    simp only [barOf, bits]
    exact Nat.mod_lt _ (by decide)

theorem barOf_bytes {b : BarRec} (h : b.Fits) : barOf (leNat b.bytes) = b := by
  obtain ⟨arrived, expect, err, errcur, rest, phase⟩ := b
  obtain ⟨ha, he, hr, hp⟩ := h
  unfold BarRec.bytes
  rw [leNat_leBytes]
  simp only at ha he hr hp
  simp only [barOf, bits, BarRec.mk.injEq, Nat.testBit_eq_decide_div_mod_eq]
  cases err <;> cases errcur <;> simp only [Bool.toNat_true, Bool.toNat_false] <;>
    refine ⟨by omega, by omega, ?_, ?_, by omega, by omega⟩ <;>
    simp only [decide_eq_true_eq, decide_eq_false_iff_not] <;> omega

theorem BarRec.init_fits {b : BarRec} (h : b.Fits) (v : Quad) : (b.init v).Fits := by
  refine ⟨?_, ?_, h.rest, h.phase⟩
  · exact Nat.two_pow_pos 32
  · show max 1 (v.toNat % 2 ^ 32) < 2 ^ 32
    omega

theorem BarRec.arrive_fits {b : BarRec} (h : b.Fits) (e : Bool) : (b.arrive e).Fits := by
  obtain ⟨ha, he, hr, hp⟩ := h
  unfold BarRec.arrive
  dsimp only
  split
  · exact ⟨Nat.two_pow_pos 32, he, hr, Nat.mod_lt _ (by decide)⟩
  · refine ⟨?_, he, hr, hp⟩
    show b.arrived + 1 < 2 ^ 32
    omega

/-- A barrier operation at its slice, its line being good, out of every control block and with headroom. -/
theorem State.opBarWrite_done {s : State} {k id off va pa : Nat} {f : BarRec → BarRec} {v : BarRec → Quad}
    (hgood : (s.l2Fill (pa / 128)).linePoisoned (pa / 128) = false) (hscb : (s.l2Fill (pa / 128)).hitsScb pa 16 = false)
    (hroom : ((s.l2Fill (pa / 128)).reserveLine (s.ctx k).part pa).isSome = true)
    (hfits : (f (barOf (leNat (memRead s.mem pa 16)))).Fits) :
    ∃ t, s.opBarWrite k id off va pa f v = .done t (v (barOf (leNat (memRead s.mem pa 16)))) ∧
      barOf (leNat (memRead t.mem pa 16)) = f (barOf (leNat (memRead s.mem pa 16))) ∧ t.seqs = s.seqs ∧
      ∀ z, z < pa ∨ pa + 16 ≤ z → memGet t.mem z = memGet s.mem z := by
  obtain ⟨u, hu⟩ := Option.isSome_iff_exists.mp hroom
  have hbar : (s.l2Fill (pa / 128)).bar pa = barOf (leNat (memRead s.mem pa 16)) := by
    unfold State.bar
    rw [State.committed_of_good 16 hgood, State.l2Fill_mem]
  refine ⟨((u.dropWait (s.ctx k).part pa (some (k, .x)) id).commitBytes pa
    (f (barOf (leNat (memRead s.mem pa 16)))).bytes).l1Drop (k / 4) (pa / 128), ?_, ?_, ?_, ?_⟩
  · unfold State.opBarWrite
    rw [State.deliver_of_good k .x off va hgood]
    dsimp only
    rw [hbar, hscb, hu]
    rfl
  all_goals have hmem := (State.l1Drop_mem _ (k / 4) (pa / 128)).trans
              ((State.commit_reserved_mem (some (k, .x)) id (f (barOf (leNat (memRead s.mem pa 16)))).bytes hgood hu).trans
                (congrArg (fun m => memWrite m pa _) (State.l2Fill_mem s (pa / 128))))
  · rw [hmem]
    unfold BarRec.bytes
    rw [memRead_memWrite_leBytes]
    exact barOf_bytes hfits
  · rw [State.l1Drop_seqs, State.commitBytes_seqs, State.dropWait_seqs, (State.reserveLine_booksOnly hu).seqs, State.l2Fill_seqs]
  · intro z hz
    rw [hmem]
    exact memGet_memWrite_outside _ _ _ _ (by unfold BarRec.bytes; rwa [leBytes_length])

/-! ## Sequences made and grafted (R273, R285) -/

theorem State.poison_mem (s : State) (l : List Nat) : ({ s with poison := l } : State).mem = s.mem := rfl

theorem State.poison_seqs (s : State) (l : List Nat) : ({ s with poison := l } : State).seqs = s.seqs := rfl

theorem State.makeSeq_mem (s : State) (pa : Nat) (q : Seq) : (s.makeSeq pa q).mem = (s.setSeq pa q).mem := by
  unfold State.makeSeq
  exact State.poison_mem ..

theorem State.makeSeq_seqs (s : State) (pa : Nat) (q : Seq) : (s.makeSeq pa q).seqs = (s.setSeq pa q).seqs := by
  unfold State.makeSeq
  exact State.poison_seqs ..

theorem State.poolAlloc_mem {s t : State} {part bed order page : Nat} (h : s.poolAlloc part bed order = some (t, page)) :
    t.mem = s.mem := by
  unfold State.poolAlloc at h
  dsimp only at h
  split at h
  · cases h
  · split at h
    · cases h
    · cases h; rfl

/-- A sequence made in a machine that its pool and the headroom of its control block have led to. -/
theorem State.madeSeq {s u x y z : State} {k id part bed order page pa va : Nat} {q : Seq} (hlive : q.live = true)
    (hu : s.BooksOnly u) (ha : u.poolAlloc part bed order = some (x, page)) (hx : x.reserveScb k id part pa va = .ok y)
    (hz : z.mem = y.mem ∧ z.seqs = y.seqs) : OthersKept pa s (z.makeSeq pa q) ∧ (z.makeSeq pa q).seq pa = q ∧
      ∀ b, b < pa ∨ pa + 256 ≤ b → memGet (z.makeSeq pa q).mem b = memGet s.mem b := by
  have hy := State.reserveScb_booksOnly hx
  refine ⟨?_, ?_, fun b hb => ?_⟩
  · exact ((OthersKept.of_eq (hz.2.trans (hy.seqs.trans ((State.poolAlloc_seqs ha).trans hu.seqs)))).setSeq q).of_seqs
      (State.makeSeq_seqs ..)
  · rw [State.seq_of_seqs (State.makeSeq_seqs ..)]
    exact State.seq_setSeq_same hlive
  · rw [State.makeSeq_mem, State.memGet_setSeq z pa q hb, hz.1, hy.mem, State.poolAlloc_mem ha, hu.mem]

section
variable {s : State} {k id pa va : Nat} {w : Quad} {b : Nat}

/-- What `sqnew` refuses of its operands, or of a sequence that is live already. -/
def State.BadNew (s : State) (pa : Nat) (w : Quad) (b : Nat) : Prop :=
  bits w.toNat 26 16 % 16 ≠ 0 ∨ 1024 < bits w.toNat 26 16 ∨ (bits w.toNat 15 10 ≠ 0x30 ∧ bits w.toNat 15 10 ≠ 0x0E) ∨
    8 < bits w.toNat 3 0 ∨ (bits w.toNat 3 0 = 8 ∧ b = 0) ∨ 16 < b ∨ (s.seq pa).live = true

theorem State.opSqnew_bad (h : s.BadNew pa w b) : Refuses s (s.opSqnew k id pa va w b) 8 :=
  ⟨_, if_pos h, (s.dropped_booksOnly k id (s.ctx k).part pa).store⟩

/-- The pages of the side block of a sequence, in its order. -/
def sideOrder (size window : Nat) : Nat := orderFor ((sideBytes size window + 8191) / 8192)

theorem State.opSqnew_full (h : ¬s.BadNew pa w b) (hp : (s.l1DropScb k pa).poolAlloc (s.ctx k).part (s.home pa / 8)
    (sideOrder (64 * 2 ^ bits w.toNat 3 0) (bits w.toNat 26 16)) = none) : Refuses s (s.opSqnew k id pa va w b) 6 := by
  refine ⟨_, ?_, (s.dropped_booksOnly k id (s.ctx k).part pa).store⟩
  refine (if_neg h).trans ?_
  unfold sideOrder at hp
  rw [hp]
  rfl

theorem State.opSqnew_done {u x : State} {page : Nat} (h : ¬s.BadNew pa w b)
    (hp : (s.l1DropScb k pa).poolAlloc (s.ctx k).part (s.home pa / 8)
      (sideOrder (64 * 2 ^ bits w.toNat 3 0) (bits w.toNat 26 16)) = some (u, page))
    (hx : u.reserveScb k id (s.ctx k).part pa va = .ok x) :
    ∃ t, s.opSqnew k id pa va w b = .done t 0 ∧ OthersKept pa s t ∧
      t.seq pa = { live := true, va := va, part := (s.ctx k).part, asid := (s.ctx k).asid, w := bits w.toNat 26 16,
                   fmt := BitVec.ofNat 6 (bits w.toNat 15 10), slg := bits w.toNat 3 0,
                   b := b, side := 8192 * page, sideBlock := page, bed := s.home pa / 8 } ∧
      ∀ z, z < pa ∨ pa + 256 ≤ z → memGet t.mem z = memGet s.mem z := by
  refine ⟨_, ?_, State.madeSeq rfl (State.l1DropScb_booksOnly s k pa) hp hx
    ⟨State.blockRef_mem x (s.ctx k).part (s.home pa / 8) page true, State.blockRef_seqs ..⟩⟩
  refine (if_neg h).trans ?_
  unfold sideOrder at hp
  rw [hp]
  dsimp only
  rw [hx]
  rfl

end

section
variable {s : State} {k id pa g va parentVa : Nat}

theorem State.grafted_booksOnly (s : State) (k id part pa g : Nat) :
    s.BooksOnly (((s.l1DropScb k pa).l1DropScb k g).dropScb k id part g) :=
  (State.l1DropScb_booksOnly s k pa).trans ((State.l1DropScb_booksOnly _ k g).trans (State.dropScb_booksOnly ..))

theorem State.opSqfork_dead (h : (s.seq pa).live = false) : Refuses s (s.opSqfork k id pa g va parentVa) 7 := by
  refine ⟨_, ?_, (s.grafted_booksOnly k id (s.ctx k).part pa g).store⟩
  unfold State.opSqfork
  dsimp only
  rw [h]
  rfl

theorem State.opSqfork_taken (h : (s.seq pa).live = true) (hg : (s.seq g).live = true) :
    Refuses s (s.opSqfork k id pa g va parentVa) 8 := by
  refine ⟨_, ?_, (s.grafted_booksOnly k id (s.ctx k).part pa g).store⟩
  unfold State.opSqfork
  dsimp only
  rw [h, hg]
  rfl

theorem State.opSqfork_full (h : (s.seq pa).live = true) (hg : (s.seq g).live = false)
    (hp : ((s.l1DropScb k pa).l1DropScb k g).poolAlloc (s.ctx k).part (s.home g / 8)
      (sideOrder (s.seq pa).size (s.seq pa).w) = none) : Refuses s (s.opSqfork k id pa g va parentVa) 6 := by
  refine ⟨_, ?_, (s.grafted_booksOnly k id (s.ctx k).part pa g).store⟩
  unfold sideOrder at hp
  unfold State.opSqfork
  dsimp only
  rw [h, hg, hp]
  rfl

/-- The sequence that a graft makes of the parent `q`, its side block on `page`. -/
def State.graft (s : State) (k g va parentVa page : Nat) (q : Seq) : Seq :=
  { live := true, va := va, part := (s.ctx k).part, asid := (s.ctx k).asid, len := q.len, cur := q.len, w := q.w, fmt := q.fmt,
    slg := q.slg, b := q.b, ext := clipExtents q.ext (q.pagesFor q.len), frozen := q.frozen,
    side := 8192 * page, sideBlock := page, parent := parentVa, forkl := q.len, bed := s.home g / 8,
    scales := q.scales, ring := q.ring,
    stage := if q.frozen then [] else q.stage.filter fun p => decide (p.1 < q.len) }

/-- The tail page that a graft shares with its parent, counted. -/
def State.shareTail (t : State) (q : Seq) : State :=
  if q.slg < 8 ∧ q.len % q.perPage ≠ 0 then
    (match t.seqPage q q.ext (q.pageOf (q.len - 1)) with
     | some (b, p) => t.setShare q.part b p (t.share q.part b p + 1)
     | none => t)
  else t

theorem State.shareTail_mem (t : State) (q : Seq) : (t.shareTail q).mem = t.mem := by
  unfold State.shareTail
  split
  · split <;> simp
  · rfl

theorem State.shareTail_seqs (t : State) (q : Seq) : (t.shareTail q).seqs = t.seqs := by
  unfold State.shareTail
  split
  · split <;> simp
  · rfl

theorem State.opSqfork_eq {u x : State} {page : Nat} (h : (s.seq pa).live = true) (hg : (s.seq g).live = false)
    (hp : ((s.l1DropScb k pa).l1DropScb k g).poolAlloc (s.ctx k).part (s.home g / 8)
      (sideOrder (s.seq pa).size (s.seq pa).w) = some (u, page))
    (hx : u.reserveScb k id (s.ctx k).part g va = .ok x) :
    ∃ l, s.opSqfork k id pa g va parentVa = .done ((((((x.blockRef (s.ctx k).part (s.home g / 8) page true).reref (s.seq pa).part []
      (clipExtents (s.seq pa).ext ((s.seq pa).pagesFor (s.seq pa).len))).shareTail (s.seq pa)).copyLines l)).makeSeq g
        (s.graft k g va parentVa page (s.seq pa))) (resultQuad 0 (s.seq pa).len) := by
  unfold sideOrder at hp
  unfold State.opSqfork State.shareTail
  dsimp only
  rw [h, hg, hp]
  dsimp only
  rw [hx]
  exact ⟨_, rfl⟩

theorem State.opSqfork_done {u x : State} {page : Nat} (h : (s.seq pa).live = true) (hg : (s.seq g).live = false)
    (hp : ((s.l1DropScb k pa).l1DropScb k g).poolAlloc (s.ctx k).part (s.home g / 8)
      (sideOrder (s.seq pa).size (s.seq pa).w) = some (u, page))
    (hx : u.reserveScb k id (s.ctx k).part g va = .ok x) :
    ∃ t, s.opSqfork k id pa g va parentVa = .done t (resultQuad 0 (s.seq pa).len) ∧ OthersKept g s t ∧
      t.seq g = s.graft k g va parentVa page (s.seq pa) ∧ ∀ z, z < g ∨ g + 256 ≤ z → memGet t.mem z = memGet s.mem z := by
  obtain ⟨l, hdone⟩ := State.opSqfork_eq (parentVa := parentVa) h hg hp hx
  refine ⟨_, hdone, State.madeSeq rfl ((State.l1DropScb_booksOnly s k pa).trans (State.l1DropScb_booksOnly _ k g)) hp hx ⟨?_, ?_⟩⟩
  · rw [State.copyLines_mem, State.shareTail_mem, State.reref_mem, State.blockRef_mem]
  · rw [State.copyLines_seqs, State.shareTail_seqs, State.reref_seqs, State.blockRef_seqs]

end

/-! ## Performing -/

/-- An operation that has performed: what it has stored stays, its access has left the queues, and its result stands in its
register. -/
theorem State.performOp_done {s t : State} {k : Nat} {a : Access} {p : Part} {o : SliceOp} {v : Quad}
    (h : (if opCloses o then s else s.endHold k (p.addr / 128)).opAt k a p o = .done t v) :
    (s.performOp k a p o).mem = t.mem ∧ (s.performOp k a p o).seqs = t.seqs ∧
      (∀ b ∈ ((s.performOp k a p o).ctx k).mq, b.id ≠ a.id) ∧
      ∀ d, opDest o = some d → d ≠ 0 → (((s.performOp k a p o).ctx k).eng a.eng).rx d = v := by
  have hp : s.performOp k a p o =
      ((match opDest o with | some d => t.writeReg k a.eng d v | none => t).acquireOf k a).finishAccess k a.id a.eng := by
    unfold State.performOp
    dsimp only
    generalize (if opCloses o then s else s.endHold k (p.addr / 128)).opAt k a p o = x at h
    cases h
    rfl
  have hw : (match opDest o with | some d => t.writeReg k a.eng d v | none => t).mem = t.mem ∧
      (match opDest o with | some d => t.writeReg k a.eng d v | none => t).seqs = t.seqs := by
    cases opDest o <;> exact ⟨rfl, rfl⟩
  rw [hp]
  generalize hu : (match opDest o with | some d => t.writeReg k a.eng d v | none => t : State) = u at hw ⊢
  refine ⟨?_, ?_, fun b hb => ?_, fun d hd hd0 => ?_⟩
  · rw [State.finishAccess_mem, State.acquireOf_mem, hw.1]
  · rw [State.finishAccess_seqs, State.acquireOf_seqs, hw.2]
  · have hn := State.finishAccess_access (u.acquireOf k a) k a.id a.eng
    unfold Ctx.access at hn
    simpa using List.find?_eq_none.mp hn b hb
  · rw [State.finishAccess_rx]
    have hctx : (u.acquireOf k a).ctx k = u.ctx k := by
      unfold State.acquireOf State.acquireAt
      split
      · split <;> rfl
      · rfl
    rw [hctx, ← hu, hd]
    exact State.writeReg_rx t k a.eng v hd0

/-! ## Entry (R137, R166, R178, R188, R268, R272) -/

section
variable {s : State} {i : Instr} {m : Mods} {o : SliceOp} {r : Reach} {waits : Bool} {go : State → Res}

/-- How an operation goes on once its access has entered: X waits for the access, or not. -/
def State.afterOp (s : State) (waits : Bool) (u : State) : Res := if waits then .wait (.access s.cc.nextId) u else .later u

theorem Ready.atomic (hr : Ready s i) (op : AOp) (d a b c : Reg) (w : ASize) (k : BitVec 16)
    (he : exec i s = atomic (instrMods i) op d a b c w k s)
    (hf : formOf i s = { mods := instrMods i, cls := onX, regs := [d, a, b, c] }) {n : Nat} (hn : n = aBytes w)
    (h : some (SliceOp.atomic op n d (s.rx b) (s.rx c),
      s.checked .g true n (s.rx a + 0 + quad (immS 16 k.toNat (instrMods i))).toNat n, false) = some (o, r, waits)) :
    exec i s = .next (s.settleRes (formOf i s) (s.startOp (instrMods i) o r (s.afterOp waits))) := by
  subst hn
  cases h
  exact (hr.run he rfl hf).trans rfl

theorem Ready.seqOp (hr : Ready s i) (d a : Reg) (regs : List Reg) (write : Bool) (f : State → Nat → SliceOp)
    (he : exec i s = seqOp (instrMods i) d a regs write s f)
    (hf : formOf i s = { mods := instrMods i, cls := onX, regs := d :: a :: regs }) :
    exec i s = .next (s.settleRes (formOf i s) (s.startOp (instrMods i) (f s (reachAddr (s.handle write (s.rx a).toNat)))
      (s.handle write (s.rx a).toNat) (s.afterOp false))) := (hr.run he rfl hf).trans rfl

/-- The operation of a `sqfork`, whose two handles are checked in order. -/
def State.forkOf (s : State) (d a b : Reg) : Option (SliceOp × Reach × Bool) :=
  match s.handle false (s.rx a).toNat, s.handle true (s.rx b).toNat with
  | .ok l, .ok m => some (.sqfork d (reachAddr (.ok l)) (reachAddr (.ok m)) (s.rx b).toNat, .ok l, false)
  | .ok _, r => some (.sqfork d 0 0 (s.rx b).toNat, r, false)
  | r, _ => some (.sqfork d 0 0 (s.rx b).toNat, r, false)

/-- What a `sqfork` comes to. -/
def State.forkRes (s : State) (m : Mods) (d a b : Reg) : Res :=
  match s.handle false (s.rx a).toNat, s.handle true (s.rx b).toNat with
  | .ok l, .ok _ => s.startOp m (.sqfork d (reachAddr (s.handle false (s.rx a).toNat))
      (reachAddr (s.handle true (s.rx b).toNat)) (s.rx b).toNat) (.ok l) .later
  | .ok _, r => s.startOp m (.sqfork d 0 0 (s.rx b).toNat) r .later
  | r, _ => s.startOp m (.sqfork d 0 0 (s.rx b).toNat) r .later

theorem State.forkRes_eq {d a b : Reg} (h : s.forkOf d a b = some (o, r, waits)) :
    s.forkRes m d a b = s.startOp m o r (s.afterOp waits) := by
  unfold State.forkOf at h
  unfold State.forkRes
  cases ha : s.handle false (s.rx a).toNat <;> cases hb : s.handle true (s.rx b).toNat <;> simp only [ha, hb] at h ⊢ <;>
    cases h <;> rfl

theorem Ready.fork {d a b : Reg} (hr : Ready s (.sqfork m d a b)) :
    exec (.sqfork m d a b) s = .next (s.settleRes (formOf (.sqfork m d a b) s) (s.forkRes m d a b)) :=
  hr.run (e := execSqfork m d a b s) (body := fun t => t.forkRes m d a b) rfl (by unfold State.forkRes; rfl) rfl

theorem State.forkOf_isSeq {d a b : Reg} (h : s.forkOf d a b = some (o, r, waits)) : o.isSeq = true := by
  unfold State.forkOf at h
  cases ha : s.handle false (s.rx a).toNat <;> cases hb : s.handle true (s.rx b).toNat <;> simp only [ha, hb] at h <;>
    cases h <;> rfl

/-- The atomics and the operations on barriers. -/
theorem Ready.sliceOp_word (hr : Ready s i) (h : sliceOpOf i s = some (o, r, waits)) (hs : o.isSeq = false) :
    exec i s = .next (s.settleRes (formOf i s) (s.startOp (instrMods i) o r (s.afterOp waits))) := by
  cases i with
  | aadd m d a b w k => exact hr.atomic .add d a b 0 w k rfl rfl (by cases w <;> rfl) h
  | aand m d a b w k => exact hr.atomic .and d a b 0 w k rfl rfl (by cases w <;> rfl) h
  | aor m d a b w k => exact hr.atomic .or d a b 0 w k rfl rfl (by cases w <;> rfl) h
  | axor m d a b w k => exact hr.atomic .xor d a b 0 w k rfl rfl (by cases w <;> rfl) h
  | amin m d a b u w k => exact hr.atomic (if u = 1 then .minU else .min) d a b 0 w k rfl rfl (by cases w <;> rfl) h
  | amax m d a b u w k => exact hr.atomic (if u = 1 then .maxU else .max) d a b 0 w k rfl rfl (by cases w <;> rfl) h
  | aswp m d a b w k => exact hr.atomic .swp d a b 0 w k rfl rfl (by cases w <;> rfl) h
  | acas m d a b c w k => exact hr.atomic .cas d a b c w k rfl rfl (by cases w <;> rfl) h
  | afadd m d a b w k =>
    cases w with
    | word => exact hr.atomic .faddF d a b 0 .word k rfl rfl (n := 4) rfl h
    | quad => exact hr.atomic .faddA d a b 0 .quad k rfl rfl (n := 8) rfl h
  | abinc m d a b w k => exact hr.atomic .binc d a b 0 w k rfl rfl (by cases w <;> rfl) h
  | barinit m a b => cases h; exact hr.run (e := execBarinit m a b s) rfl rfl rfl
  | bararr m d a b => cases h; exact hr.run (e := execBararr m d a b s) rfl rfl rfl
  | barwait m d a b => cases h; exact hr.run (e := execBarwait m d a b s) rfl rfl rfl
  | sqnew => cases h; cases hs
  | sqres => cases h; cases hs
  | sqrest => cases h; cases hs
  | sqcmt => cases h; cases hs
  | sqacc => cases h; cases hs
  | sqwd => cases h; cases hs
  | sqfree => cases h; cases hs
  | sqlen => cases h; cases hs
  | sqpin => cases h; cases hs
  | squnpin => cases h; cases hs
  | sqext => cases h; cases hs
  | sqwait => cases h; cases hs
  | sqfork m d a b => exact absurd (State.forkOf_isSeq h) (by rw [hs]; decide)
  | _ => exact (Option.some_ne_none _ h.symm).elim

/-- The operations on sequences. -/
theorem Ready.sliceOp_seq (hr : Ready s i) (h : sliceOpOf i s = some (o, r, waits)) (hs : o.isSeq = true) :
    exec i s = .next (s.settleRes (formOf i s) (s.startOp (instrMods i) o r (s.afterOp waits))) := by
  cases i with
  | sqnew m d a b bl => cases h; exact hr.seqOp d a [b] true (fun t h => .sqnew d h (t.rx b) bl.toNat) rfl rfl
  | sqres m d a b => cases h; exact hr.seqOp d a [b] false (fun t h => .sqres d h (t.rx b)) rfl rfl
  | sqrest m d a b => cases h; exact hr.seqOp d a [b] false (fun t h => .sqrest d h (t.rx b)) rfl rfl
  | sqcmt m d a b c => cases h; exact hr.seqOp d a [b, c] false (fun t h => .sqcmt d h (t.rx b) (t.rx c)) rfl rfl
  | sqacc m d a b => cases h; exact hr.seqOp d a [b] false (fun t h => .sqacc d h (t.rx b)) rfl rfl
  | sqwd m d a => cases h; exact hr.seqOp d a [] false (fun _ h => .sqwd d h) rfl rfl
  | sqfree m d a => cases h; exact hr.seqOp d a [] false (fun _ h => .sqfree d h) rfl rfl
  | sqlen m d a => cases h; exact hr.seqOp d a [] false (fun _ h => .sqlen d h) rfl rfl
  | sqpin m d a => cases h; exact hr.seqOp d a [] false (fun _ h => .sqpin d h) rfl rfl
  | squnpin m d a => cases h; exact hr.seqOp d a [] false (fun _ h => .squnpin d h) rfl rfl
  | sqext m d a b k =>
    cases h
    cases k with
    | k0 => exact hr.seqOp d a [b] false (fun t h => .sqext d h 0 (t.rx b)) rfl rfl
    | k1 => exact hr.seqOp d a [b] false (fun t h => .sqext d h 1 (t.rx b)) rfl rfl
    | k2 => exact hr.seqOp d a [b] false (fun t h => .sqext d h 2 (t.rx b)) rfl rfl
  | sqwait m d a b c => cases h; exact hr.run (e := execSqwait m d a b c s) rfl rfl rfl
  | sqfork m d a b =>
    exact hr.fork.trans (congrArg (fun x => Host.Outcome.next (s.settleRes (formOf (.sqfork m d a b) s) x)) (State.forkRes_eq h))
  | _ => cases h <;> cases hs

/-- A ready operation for a home slice comes to the operation of its table. -/
theorem Ready.sliceOp (hr : Ready s i) (h : sliceOpOf i s = some (o, r, waits)) :
    exec i s = .next (s.settleRes (formOf i s) (s.startOp (instrMods i) o r (s.afterOp waits))) := by
  cases hs : o.isSeq with
  | false => exact hr.sliceOp_word h hs
  | true => exact hr.sliceOp_seq h hs

/-- The entry of an operation: nothing but the address keeps it from its queues. -/
theorem State.startOp_of_room (hq : s.cc.roomFor true true = true) (hs : o.isSeq = false → (s.core s.cur.core).splitting = false) :
    (∀ ps, s.startOp m o (.ok ps) go = go (s.enter (s.access m true true (.op o) ps []))) ∧
    (∀ c a, s.startOp m o (.fault c a) go = .trap c a 0 s) ∧ ∀ a, s.startOp m o (.miss a) go = s.missStall a := by
  have hheld : (!o.isSeq && (s.core s.cur.core).splitting) = false := by
    cases ho : o.isSeq with
    | true => rfl
    | false => rw [hs ho]; rfl
  have hb : ∀ r, s.startOp m o r go = match r with
      | .fault c a => .trap c a 0 s
      | .miss va => s.missStall va
      | .ok ps => go (s.enter (s.access m true true (.op o) ps [])) := by
    intro r
    unfold State.startOp State.begin
    rw [hheld, hq]
    cases r <;> rfl
  exact ⟨fun _ => hb _, fun _ _ => hb _, fun _ => hb _⟩

end

/-- The slots that a reservation makes. -/
def newSlots (cur n : Nat) (st : SlotSt) (owner : Nat) : List SlotRec :=
  (List.range n).map fun i => { i := cur + i, st := st, owner := owner }

/-- A sequence with a tentative group that has been reserved. -/
def Seq.groupOf (cur n owner : Nat) (x : Seq) : Seq :=
  { x with slots := x.slots ++ newSlots cur n .tentative owner, tbase := cur, tcnt := n, tact := true, towner := owner }

/-- Settles O34: the entry, what performing keeps, the barrier records, and each operation on sequences by its own lemmas. -/
theorem sliceOperationsEnter : Obligations.SliceOperationsEnter := by
  unfold Obligations.SliceOperationsEnter
  refine ⟨fun i s o r waits h hr hq hs => ?_, fun s k a p o t v h => State.performOp_done h,
    fun s k id off va pa b e hgood hscb hroom => ⟨?_, ?_⟩, fun s k id pa n m => ⟨fun hdead => ?_, fun hlive => ?_, fun sel hsel => ?_⟩,
    fun s k id pa va parentVa g b w => ⟨State.opSqnew_bad, fun hbad => ⟨State.opSqnew_full hbad,
      fun u page x hp hx => State.opSqnew_done hbad hp hx⟩, State.opSqfork_dead, State.opSqfork_taken,
      fun h hg => ⟨State.opSqfork_full h hg, fun u page x hp hx => State.opSqfork_done h hg hp hx⟩⟩⟩
  · have hrun := hr.sliceOp h
    obtain ⟨hok, hfault, hmiss⟩ := State.startOp_of_room (m := instrMods i) (go := s.afterOp waits) hq hs
    refine ⟨fun ps hps => ?_, fun c a hc => ?_, fun a ha => ?_⟩
    · subst hps
      rw [hrun, hok]
      cases waits <;> rfl
    · subst hc
      rw [hrun, hfault]
      rfl
    · subst ha
      rw [hrun, hmiss]
      rfl
  · exact State.opBarWrite_done hgood hscb hroom (BarRec.init_fits (barOf_fits _) b)
  · exact State.opBarWrite_done hgood hscb hroom (BarRec.arrive_fits (barOf_fits _) e)
  · exact ⟨State.onSeq_dead hdead, State.onSeq_dead hdead, State.onSeq_dead hdead, State.onSeq_dead hdead, State.onSeq_dead hdead,
      State.onSeq_dead hdead, State.opSqlen_dead hdead, State.opSqwait_dead hdead, fun _ => State.onSeq_dead hdead⟩
  · refine ⟨?_, ?_, State.opSqcmt_refuses hlive, State.opSqcmt_does hlive, State.opSqacc_refuses hlive, State.opSqacc_does hlive,
      State.opSqwd_refuses hlive, State.opSqwd_does hlive, State.opSqfree_refuses hlive, fun hp hc ht ha => ?_,
      fun up => State.opSqpin_refuses hlive, fun up => State.opSqpin_does hlive, State.opSqlen_live hlive, State.opSqwait_waits hlive,
      State.opSqwait_answers hlive, fun e he => ⟨State.opSqext_eq ?_, State.opSqext_eq ?_⟩, fun b x hx => State.opSqext_eq ?_⟩
    · exact State.reserves (f := fun x => { x with slots := x.slots ++ newSlots (s.seq pa).cur n.toNat .reserved (s.ctx k).taskid })
        hlive (State.opSqres_eq n) (fun _ _ _ => rfl) fun _ h => h
    · exact State.reserves (f := Seq.groupOf (s.seq pa).cur n.toNat (s.ctx k).taskid)
        hlive (State.opSqrest_eq n) (fun t _ h => by rw [h]; rfl) fun _ h => h
    · intro hfree
      have hok : ¬(0 < (s.seq pa).pin ∨ (s.seq pa).len < (s.seq pa).cur ∨ (s.seq pa).tact = true ∨ 0 < (s.seq pa).attn) := by
        simp [hp, ha, ht, hc]
      exact State.opSqfree_does hlive hok hfree
    · unfold State.opSqext
      simp only [hlive, he]
      by_cases h1 : 1 < s.blockRefs (s.seq pa).part e.bed e.block <;> simp [h1]
    · unfold State.opSqext
      simp [hlive, he]
    · unfold State.opSqext
      simp [hlive, hx]
  · refine State.opSqext_eq (v := 0) ?_
    unfold State.opSqext
    rcases hsel with h | ⟨h, hn⟩ | ⟨h, hn⟩
    · simp [h]
    · have he : (s.seq pa).ext[n.toNat]? = none := List.getElem?_eq_none hn
      simp [h, he]
    · simp [h, hn]

end Sys2Proof.Machine
end

section
/-! PROOFS. Loads and fills of sequence slots: how they enter, and what they do as they perform (R127, R279, R283). -/

namespace Sys2Proof.Machine

/-! ## Entry -/

section
variable {s : State} {inL inS : Bool} {go : List Part → Res}

/-- An access that the size of the scratchpad does not concern. -/
theorem State.begin_anywhere (r : Reach) (h : s.cc.roomFor inL inS = true) : s.begin inL inS r go false = match r with
    | .fault c a => .trap c a 0 s
    | .miss va => s.missStall va
    | .ok ps => go ps := by
  unfold State.begin
  rw [h]
  cases r <;> rfl

theorem State.begin_anywhere_full (r : Reach) (h : s.cc.roomFor inL inS = false) :
    s.begin inL inS r go false = .stall .memq s := by
  unfold State.begin
  rw [h]
  rfl

/-- What an instruction comes to that enters one access of a slot by the handle in `ra`: a full queue, the outcomes of the handle,
and the entry. -/
theorem Ready.slotAccess {i : Instr} {load : Bool} {r : Reach} {go : List Part → Res} {u : List Part → State} {res : Res → Res}
    (hr : exec i s = .next (s.settleRes (formOf i s) (res (s.begin load (!load) r go false))))
    (hres : ∀ x, (∀ t, x ≠ .later t) → res x = x) (hgo : ∀ ps, r = .ok ps → res (go ps) = .later (u ps)) :
    (s.cc.roomFor load (!load) = false → exec i s = .next (s.stallHere .memq)) ∧
      (s.cc.roomFor load (!load) = true →
        (∀ ps, r = .ok ps → exec i s = .next (pastEntered i s (u ps))) ∧
        (∀ f x, r = .fault f x → exec i s = .next (s.trapHere f x)) ∧
        (∀ x, r = .miss x → exec i s = .next ((s.enterMiss s.me s.cur.eng x).stallHere .tlb))) := by
  refine ⟨fun h => ?_, fun h => ⟨fun ps hps => ?_, fun f x hf => ?_, fun x hx => ?_⟩⟩
  · rw [hr, State.begin_anywhere_full r h, hres _ (by simp)]
    rfl
  · rw [hr, State.begin_anywhere r h, hps]
    dsimp only
    rw [hgo ps hps]
    rfl
  · rw [hr, State.begin_anywhere r h, hf]
    dsimp only
    rw [hres _ (by simp)]
    rfl
  · rw [hr, State.begin_anywhere r h, hx]
    dsimp only
    rw [hres (s.missStall x) (by simp [State.missStall])]
    rfl

/-- A vector load's place in its `fd` queue is reserved as it enters. -/
def State.reserveLater (q : Nat) : Res → Res
  | .later u => .later (u.modMe fun x => x.reserveFd q x.nextId)
  | r => r

theorem State.reserveLater_other (q : Nat) (x : Res) (h : ∀ t, x ≠ .later t) : State.reserveLater q x = x := by
  cases x with
  | later t => exact absurd rfl (h t)
  | _ => rfl

theorem Ready.vldq {m : Mods} {q : BitVec 2} {a b c : Reg} {ch : BitVec 14} (hr : Ready s (.vldq m q a b c ch)) :
    exec (.vldq m q a b c ch) s = .next (s.settleRes (formOf (.vldq m q a b c ch) s) (State.reserveLater q.toNat
      (s.startSlotLoad m a b ch.toNat 128 fun h => .qload 0 c h (s.rx b).toNat ch.toNat (some q.toNat)))) :=
  hr.run (e := execVldq m q a b c ch s) (body := fun t => State.reserveLater q.toNat
    (t.startSlotLoad m a b ch.toNat 128 fun h => .qload 0 c h (t.rx b).toNat ch.toNat (some q.toNat))) rfl
    (by unfold State.reserveLater; rfl) rfl

end

/-! ## Loads at work -/

/-- A slot has been read for a context: memory, the sequences, the other contexts, and the context's engines and queues are as
they were. -/
structure State.SlotRead (s : State) (k : Nat) (u : State) : Prop where
  mem    : u.mem = s.mem
  seqs   : u.seqs = s.seqs
  others : ∀ m, m ≠ k → u.ctx m = s.ctx m
  eng    : ∀ e, (u.ctx k).eng e = (s.ctx k).eng e
  mq     : (u.ctx k).mq = (s.ctx k).mq

theorem State.SlotRead.trans {s t u : State} {k : Nat} (h : s.SlotRead k t) (h' : t.SlotRead k u) : s.SlotRead k u where
  mem := h'.mem.trans h.mem
  seqs := h'.seqs.trans h.seqs
  others := fun m hm => (h'.others m hm).trans (h.others m hm)
  eng := fun e => (h'.eng e).trans (h.eng e)
  mq := h'.mq.trans h.mq

theorem State.slotRead_of_ctxs {s u : State} (k : Nat) (hm : u.mem = s.mem) (hs : u.seqs = s.seqs) (hc : u.ctxs = s.ctxs) :
    s.SlotRead k u where
  mem := hm
  seqs := hs
  others := fun m _ => State.ctx_of_ctxs hc m
  eng := fun e => by rw [State.ctx_of_ctxs hc]
  mq := by rw [State.ctx_of_ctxs hc]

theorem State.slotRead_modCtx (s : State) (k : Nat) {f : Ctx → Ctx} (he : (f (s.ctx k)).engs = (s.ctx k).engs)
    (hq : (f (s.ctx k)).mq = (s.ctx k).mq) : s.SlotRead k (s.modCtx k f) where
  mem := rfl
  seqs := rfl
  others := fun _ hm => State.ctx_modCtx_other s f hm
  eng := fun e => by rw [State.ctx_modCtx_same]; unfold Ctx.eng; rw [he]
  mq := by rw [State.ctx_modCtx_same, hq]

theorem State.slotRead_endHold (s : State) (k line : Nat) : s.SlotRead k (s.endHold k line) := by
  unfold State.endHold
  split
  · exact (State.slotRead_of_ctxs k rfl rfl rfl : s.SlotRead k (s.dropHeld k line)).trans (State.slotRead_modCtx _ k rfl rfl)
  · exact State.slotRead_of_ctxs k rfl rfl rfl

theorem State.slotRead_acquireAt (s : State) (k : Nat) (sc : Scope) : s.SlotRead k (s.acquireAt k sc) := by
  unfold State.acquireAt
  split
  · exact State.slotRead_of_ctxs k rfl rfl rfl
  · exact State.slotRead_of_ctxs k rfl rfl rfl

theorem Ctx.poisoned_engs (c : Ctx) (n : Nat) : (c.poisoned n).engs = c.engs := by
  unfold Ctx.poisoned
  split <;> rfl

theorem Ctx.poisoned_mq (c : Ctx) (n : Nat) : (c.poisoned n).mq = c.mq := by
  unfold Ctx.poisoned
  split <;> rfl

/-- The lines read for a slot, with the records of the poisoned ones and their count in the context. -/
theorem State.slotRead_lines (s : State) (k part : Nat) (lines bad : List Nat) (n : Nat) :
    s.SlotRead k ((bad.foldl (fun t l => t.poisonEvent part (128 * l) false) (lines.foldl State.l2Fill s)).modCtx k
      fun c => c.poisoned n) := by
  refine State.SlotRead.trans (State.slotRead_of_ctxs k ?_ ?_ ?_)
    (State.slotRead_modCtx _ k (Ctx.poisoned_engs _ n) (Ctx.poisoned_mq _ n))
  · exact (foldl_mem (fun (t : State) l => (rfl : (t.poisonEvent part (128 * l) false).mem = t.mem)) _ _).trans (foldl_mem State.l2Fill_mem _ _)
  · exact (foldl_seqs (fun (t : State) l => (rfl : (t.poisonEvent part (128 * l) false).seqs = t.seqs)) _ _).trans (foldl_seqs State.l2Fill_seqs _ _)
  · exact (foldl_ctxs (fun (t : State) l => (rfl : (t.poisonEvent part (128 * l) false).ctxs = t.ctxs)) _ _).trans (foldl_ctxs State.l2Fill_ctxs _ _)

/-- What a slot's bits are written to: the register or the `fd` entry, and the status register. -/
def State.slotGives (u : State) (k : Nat) (a : Access) (d st : Reg) (vec : Option Nat) (len bits status : Nat) : State :=
  ((match vec with
    | some f => u.modCtx k fun c => c.fillFd f a.id (BitVec.ofNat 1024 bits)
    | none => u.writeReg k a.eng d (quadN bits)).writeReg k a.eng st (resultQuad status len)).finishAccess k a.id a.eng

theorem leNat_channels (vals : List (BitVec 16)) :
    leNat (vals.flatMap fun v => leBytes 2 v.toNat) = vals.foldr (fun v x => v.toNat + 2 ^ 16 * x) 0 := by
  induction vals with
  | nil => rfl
  | cons v r ih =>
    have hv : v.toNat < 65536 := v.isLt
    rw [List.flatMap_cons, List.foldr_cons, ← ih]
    simp only [leBytes, List.cons_append, List.nil_append, leNat, BitVec.toNat_ofNat]
    omega

theorem channels_zero (n : Nat) : (List.replicate n (0 : BitVec 16)).foldr (fun v x => v.toNat + 2 ^ 16 * x) 0 = 0 := by
  induction n with
  | zero => rfl
  | succ n ih => rw [List.replicate_succ, List.foldr_cons, ih]; rfl

section
variable {s : State} {k : Nat} {a : Access} {p : Part} {d st : Reg} {h i ch : Nat} {vec : Option Nat}

/-- The machine in which a slot is looked at: the hold of its line ended, and the acquire made. -/
def State.slotLook (s : State) (k : Nat) (p : Part) : State := (s.endHold k (p.addr / 128)).acquireAt k .device

theorem State.slotRead_look (s : State) (k : Nat) (p : Part) : s.SlotRead k (s.slotLook k p) :=
  (s.slotRead_endHold k _).trans (State.slotRead_acquireAt _ k _)

/-- A slot that is not there is read as zeros, with the status that says why. -/
def State.missingStatus (s : State) (h i : Nat) : Option Nat :=
  if (s.seq h).live = false then some 7
  else if (s.seq h).len ≤ i then some 1
  else if s.slotVoid (s.seq h) i = true then some 9
  else none

theorem State.performQload_missing {status : Nat} (hs : s.missingStatus h i = some status) :
    s.performQload k a p d st h i ch vec = (s.slotLook k p).slotGives k a d st vec (s.seq h).len 0 status := by
  have hz : ∀ n, leNat ((List.replicate n (0 : BitVec 16)).flatMap fun v => leBytes 2 v.toNat) = 0 := fun n => by
    rw [leNat_channels, channels_zero]
  unfold State.missingStatus at hs
  unfold State.performQload State.slotGives
  dsimp only [vecOf]
  simp only [hz]
  by_cases hl : (s.seq h).live = false
  · rw [if_pos hl] at hs
    cases hs
    rw [hl]
    cases vec <;> rfl
  · rw [if_neg hl] at hs
    rw [Bool.not_eq_false] at hl
    rw [hl]
    by_cases hi : (s.seq h).len ≤ i
    · rw [if_pos hi] at hs
      cases hs
      rw [if_neg (by decide), if_pos hi]
      cases vec <;> rfl
    · rw [if_neg hi] at hs
      rw [if_neg (by decide), if_neg hi]
      by_cases hv : s.slotVoid (s.seq h) i = true
      · rw [if_pos hv] at hs
        cases hs
        rw [if_pos hv]
        cases vec <;> rfl
      · rw [if_neg hv] at hs
        cases hs

theorem State.missingStatus_none (hs : s.missingStatus h i = none) :
    (s.seq h).live = true ∧ ¬(s.seq h).len ≤ i ∧ ¬s.slotVoid (s.seq h) i = true := by
  unfold State.missingStatus at hs
  by_cases hl : (s.seq h).live = false
  · rw [if_pos hl] at hs; cases hs
  · by_cases hi : (s.seq h).len ≤ i
    · rw [if_neg hl, if_pos hi] at hs; cases hs
    · by_cases hv : s.slotVoid (s.seq h) i = true
      · rw [if_neg hl, if_neg hi, if_pos hv] at hs; cases hs
      · exact ⟨by simpa using hl, hi, hv⟩

theorem State.performQload_beyond (hs : s.missingStatus h i = none) (hc : (s.seq h).size ≤ ch) :
    s.performQload k a p d st h i ch vec = (s.slotLook k p).raiseAt k a.eng a.pos.off .prot p.va := by
  obtain ⟨hl, hi, hv⟩ := State.missingStatus_none hs
  unfold State.performQload
  dsimp only
  rw [hl, if_neg (by decide), if_neg hi, if_neg hv, if_pos hc]
  rfl

/-- The channels that a load reads of a slot. -/
def Seq.readCount (q : Seq) (vec : Option Nat) (ch : Nat) : Nat := min (if vec.isSome then 64 else 1) (q.size - ch)

/-- The poisoned lines among those that a load reads. -/
def State.badLines (s : State) (h i ch : Nat) (vec : Option Nat) : List Nat :=
  (s.chanLines (s.seq h) i ch ((s.seq h).readCount vec ch)).filter s.linePoisoned

theorem State.performQload_poisoned (hs : s.missingStatus h i = none) (hc : ¬(s.seq h).size ≤ ch)
    (hb : s.badLines h i ch vec ≠ []) (hp : (s.ctx k).pol = true) :
    ∃ u : State, s.performQload k a p d st h i ch vec = u.raiseAt k a.eng a.pos.off .poison p.va := by
  obtain ⟨hl, hi, hv⟩ := State.missingStatus_none hs
  unfold State.badLines Seq.readCount at hb
  unfold State.performQload
  dsimp only
  rw [hl, if_neg (by decide), if_neg hi, if_neg hv, if_neg hc, if_pos ⟨hb, hp⟩]
  exact ⟨_, rfl⟩

/-- The bits of the channels, the first in the lowest place. -/
def channelBits (vals : List (BitVec 16)) : Nat := vals.foldr (fun v x => v.toNat + 2 ^ 16 * x) 0

theorem State.performQload_reads (hs : s.missingStatus h i = none) (hc : ¬(s.seq h).size ≤ ch)
    (hb : ¬(s.badLines h i ch vec ≠ [] ∧ (s.ctx k).pol = true)) : ∃ u, s.SlotRead k u ∧
      s.performQload k a p d st h i ch vec = u.slotGives k a d st vec (s.seq h).len
        (channelBits ((List.range ((s.seq h).readCount vec ch)).map fun j => s.chanBits (s.seq h) i (ch + j))) 0 := by
  obtain ⟨hl, hi, hv⟩ := State.missingStatus_none hs
  unfold State.badLines at hb
  refine ⟨_, (s.slotRead_look k p).trans (State.slotRead_lines _ k (s.ctx k).part
    (s.chanLines (s.seq h) i ch ((s.seq h).readCount vec ch)) (s.badLines h i ch vec) (s.badLines h i ch vec).length), ?_⟩
  unfold channelBits
  rw [← leNat_channels]
  unfold Seq.readCount at hb
  unfold State.performQload State.slotGives
  dsimp only
  rw [hl, if_neg (by decide), if_neg hi, if_neg hv, if_neg hc, if_neg hb]
  cases vec <;> rfl

end

/-! ## Fills at work -/

section
variable {s : State} {k : Nat} {a : Access} {p : Part} {h i ch : Nat}

/-- A slot of a sequence that a task has reserved, as a fill asks for it. -/
def SlotRec.filledBy (r : SlotRec) (i task : Nat) : Prop :=
  r.i = i ∧ (r.st = .reserved ∨ r.st = .tentative) ∧ r.owner = task

theorem Seq.anyFilled_iff (q : Seq) (i task : Nat) : (q.slots.any fun r =>
    r.i == i && (r.st == .reserved || r.st == .tentative) && r.owner == task) = true ↔ ∃ r ∈ q.slots, r.filledBy i task := by
  simp [SlotRec.filledBy, and_assoc]

theorem Seq.anyGone_iff (q : Seq) (i task : Nat) : (q.gone.any fun g => decide (g.1 ≤ i ∧ i < g.1 + g.2.1) && g.2.2 == task) = true ↔
    ∃ g ∈ q.gone, g.1 ≤ i ∧ i < g.1 + g.2.1 ∧ g.2.2 = task := by
  simp [and_assoc]

theorem State.fillOk_prot {task : Nat} (hf : (s.seq h).live = false ∨ (s.seq h).size ≤ ch ∨
    ((∀ r ∈ (s.seq h).slots, ¬r.filledBy i task) ∧ ∀ g ∈ (s.seq h).gone, ¬(g.1 ≤ i ∧ i < g.1 + g.2.1 ∧ g.2.2 = task))) :
    s.fillOk h i ch task = .prot := by
  unfold State.fillOk
  dsimp only
  split
  · rfl
  · next hb =>
    simp only [Bool.or_eq_true, Bool.not_eq_true', decide_eq_true_eq, not_or] at hb
    obtain ⟨hno, hgone⟩ := (hf.resolve_left hb.1).resolve_left hb.2
    rw [if_neg fun x => by
      obtain ⟨r, hr, hm⟩ := (Seq.anyFilled_iff ..).mp x
      exact hno r hr hm, if_neg fun x => by
      obtain ⟨g, hg, hm⟩ := (Seq.anyGone_iff ..).mp x
      exact hgone g hg hm]

theorem State.fillOk_live {task : Nat} (hl : (s.seq h).live = true) (hc : ch < (s.seq h).size) :
    s.fillOk h i ch task = if ((s.seq h).slots.any fun r =>
      r.i == i && (r.st == .reserved || r.st == .tentative) && r.owner == task) then .ok
    else if ((s.seq h).gone.any fun g => decide (g.1 ≤ i ∧ i < g.1 + g.2.1) && g.2.2 == task) then .drop else .prot := by
  unfold State.fillOk
  dsimp only
  rw [hl, if_neg (by simpa using hc)]

theorem State.fillOk_drop {task : Nat} (hl : (s.seq h).live = true) (hc : ch < (s.seq h).size)
    (hno : ∀ r ∈ (s.seq h).slots, ¬r.filledBy i task)
    (hg : ∃ g ∈ (s.seq h).gone, g.1 ≤ i ∧ i < g.1 + g.2.1 ∧ g.2.2 = task) : s.fillOk h i ch task = .drop := by
  rw [State.fillOk_live hl hc, if_neg fun x => by
    obtain ⟨r, hr, hm⟩ := (Seq.anyFilled_iff ..).mp x
    exact hno r hr hm, if_pos ((Seq.anyGone_iff ..).mpr hg)]

theorem State.fillOk_ok {task : Nat} (hl : (s.seq h).live = true) (hc : ch < (s.seq h).size)
    (hm : ∃ r ∈ (s.seq h).slots, r.filledBy i task) : s.fillOk h i ch task = .ok := by
  rw [State.fillOk_live hl hc, if_pos ((Seq.anyFilled_iff ..).mpr hm)]

theorem State.performQfill_prot (hf : s.fillOk h i ch (s.ctx k).taskid = .prot) :
    s.performQfill k a p h i ch = s.raiseAt k a.eng a.pos.off .prot p.va := by
  unfold State.performQfill
  dsimp only
  rw [hf]

theorem State.performQfill_drop (hf : s.fillOk h i ch (s.ctx k).taskid = .drop) :
    s.performQfill k a p h i ch = s.finishAccess k a.id a.eng := by
  unfold State.performQfill
  dsimp only
  rw [hf]

/-- The values of a fill, channel after channel. -/
def fillValues (s : State) (a : Access) (h i ch : Nat) : List (Nat × Nat × Nat × BitVec 16) :=
  (List.range (min (a.data.length / 2) ((s.seq h).size - ch))).map fun j =>
    (h, i, ch + j, BitVec.ofNat 16 (leNat ((a.data.drop (2 * j)).take 2)))

theorem State.performQfill_full (hf : s.fillOk h i ch (s.ctx k).taskid = .ok) (ht : s.takeFills k (fillValues s a h i ch) = none) :
    s.performQfill k a p h i ch = s.raiseAt k a.eng a.pos.off .vcap p.va := by
  unfold fillValues at ht
  unfold State.performQfill
  dsimp only
  rw [hf]
  dsimp only
  rw [ht]

theorem State.performQfill_takes {u : State} (hf : s.fillOk h i ch (s.ctx k).taskid = .ok)
    (ht : s.takeFills k (fillValues s a h i ch) = some u) :
    s.performQfill k a p h i ch = (u.endHold k (p.addr / 128)).finishAccess k a.id a.eng := by
  unfold fillValues at ht
  unfold State.performQfill
  dsimp only
  rw [hf]
  dsimp only
  rw [ht]

theorem State.takeWay_seqs (s : State) (k : Nat) (l : Nat × Nat × Nat) : (s.takeWay k l).seqs = s.seqs := by
  unfold State.takeWay
  split
  · rfl
  · exact State.l2Room_seqs ..

theorem State.takeFills_some {l : List (Nat × Nat × Nat × BitVec 16)} {s u : State} (hu : s.takeFills k l = some u) :
    u.mem = s.mem ∧ u.seqs = s.seqs ∧ (u.ctx k).ver.fills = (s.ctx k).ver.fills ++ l ∧ ∀ m, m ≠ k → u.ctx m = s.ctx m := by
  induction l generalizing s with
  | nil => cases hu; exact ⟨rfl, rfl, (List.append_nil _).symm, fun _ _ => rfl⟩
  | cons f r ih =>
    unfold State.takeFills at hu
    dsimp only at hu
    split at hu
    · obtain ⟨hm, hs, hf, ho⟩ := ih hu
      have hctx := State.ctx_of_ctxs (State.takeWay_ctxs s k (2 + f.1, f.2.1, f.2.2.1 / 64))
      refine ⟨hm.trans (State.takeWay_mem ..), hs.trans (State.takeWay_seqs ..), ?_, fun m hne => ?_⟩
      · rw [hf, State.ctx_modCtx_same, hctx, List.append_assoc]
        rfl
      · rw [ho m hne, State.ctx_modCtx_other _ _ hne, hctx]
    · cases hu

end

/-- Settles O37: the entry of each of the four, then a load by what it finds of the slot, then a fill by its judgement. -/
theorem slotAccessesEnter : Obligations.SlotAccessesEnter := by
  unfold Obligations.SlotAccessesEnter
  refine ⟨fun s m d a b c q ch => ⟨fun hr => ?_, fun hr => ?_, fun hr => ?_, fun hr => ?_⟩,
    fun s k a p d st h i ch vec => ?_, fun s k a p h i ch => ⟨fun hf => State.performQfill_prot (State.fillOk_prot hf),
      fun hl hc hno hg => State.performQfill_drop (State.fillOk_drop hl hc hno hg),
      fun hl hc hm => ⟨fun ht => State.performQfill_full (State.fillOk_ok hl hc hm) ht,
        fun u hu => ⟨State.performQfill_takes (State.fillOk_ok hl hc hm) hu, State.takeFills_some hu⟩⟩⟩⟩
  · exact Ready.slotAccess (res := fun x => x) (hr.run (e := execLdq m d a b c ch s) rfl rfl rfl) (fun _ _ => rfl) fun _ _ => rfl
  · exact Ready.slotAccess (res := State.reserveLater q.toNat) hr.vldq (State.reserveLater_other q.toNat)
      fun ps _ => congrArg Res.later (State.entered_some s (.vldq m q a b c ch) true false _ _ _ q.toNat)
  · exact Ready.slotAccess (res := fun x => x) (hr.run (e := execStq m d a b ch s) rfl rfl rfl) (fun _ _ => rfl)
      fun ps _ => by rw [leBytes_length]; rfl
  · exact Ready.slotAccess (res := fun x => x) (hr.run (e := execVstq m q a b ch s) rfl rfl rfl) (fun _ _ => rfl)
      fun ps _ => by unfold vBytes; rw [leBytes_length]; rfl
  · have hgives : ∀ {u : State} {status : Nat} {vals : List (BitVec 16)}, s.SlotRead k u →
        s.performQload k a p d st h i ch vec = u.slotGives k a d st vec (s.seq h).len (channelBits vals) status →
        ∃ u : State, u.mem = s.mem ∧ u.seqs = s.seqs ∧ (∀ m, m ≠ k → u.ctx m = s.ctx m) ∧
          (∀ e, (u.ctx k).eng e = (s.ctx k).eng e) ∧ (u.ctx k).mq = (s.ctx k).mq ∧
          s.performQload k a p d st h i ch vec = u.slotGives k a d st vec (s.seq h).len (channelBits vals) status :=
      fun hu ht => ⟨_, hu.mem, hu.seqs, hu.others, hu.eng, hu.mq, ht⟩
    have hlook := s.slotRead_look k p
    have hlines : s.badLines h i ch vec = [] ↔
        ∀ l ∈ s.chanLines (s.seq h) i ch ((s.seq h).readCount vec ch), s.linePoisoned l = false := by
      unfold State.badLines
      simp
    refine ⟨fun hl => ?_, fun hl hi => ?_, fun hl hi hv => ?_, fun hl hi hv => ?_⟩
    · exact hgives (vals := []) hlook (State.performQload_missing (if_pos hl))
    · refine hgives (vals := []) hlook (State.performQload_missing ((if_neg ?_).trans (if_pos hi)))
      rw [hl]; decide
    · refine hgives (vals := []) hlook (State.performQload_missing ((if_neg ?_).trans ((if_neg (by omega)).trans (if_pos hv))))
      rw [hl]; decide
    · have hs : s.missingStatus h i = none := by
        unfold State.missingStatus
        rw [hl, hv, if_neg (by decide), if_neg (by omega), if_neg (by decide)]
      refine ⟨fun hc => ⟨_, State.performQload_beyond hs hc⟩, fun hc => ⟨fun hgood => ?_, fun hbad hp => ?_⟩⟩
      · obtain ⟨u, hu, ht⟩ := State.performQload_reads (k := k) (a := a) (p := p) (d := d) (st := st) (vec := vec) hs
          (Nat.not_le.mpr hc) fun hb => by
            rcases hgood with hg | hg
            · exact hb.1 (hlines.mpr hg)
            · rw [hg] at hb; cases hb.2
        exact hgives hu ht
      · refine State.performQload_poisoned hs (Nat.not_le.mpr hc) (fun hb => ?_) hp
        obtain ⟨l, hm, hl⟩ := hbad
        rw [hlines.mp hb l hm] at hl
        cases hl

end Sys2Proof.Machine
end

section
/-! PROOFS. The sources and the destinations of vector instructions (R191, R214, R215). -/

namespace Sys2Proof.Machine

section
variable {s : State} {n : BitVec 4}

/-! ## Registers and queues -/

theorem State.takeSrcs_plain (got : List (Nat × Vec)) (srcs : List VSrc) (l : List Vec)
    (h : srcs.map (plainSrc s) = l.map some) : s.takeSrcs got srcs = .ok (s, l) := by
  induction srcs generalizing l with
  | nil =>
    cases l with
    | nil => rfl
    | cons v r => cases h
  | cons x srcs ih =>
    cases l with
    | nil => cases h
    | cons v r =>
      rw [List.map_cons, List.map_cons, List.cons.injEq] at h
      cases x with
      | v n => cases h.1; simp only [State.takeSrcs, ih r h.2]
      | fd n => cases h.1; simp only [State.takeSrcs, ih r h.2]
      | z n => cases h.1

theorem State.rv_wv (s : State) (n r : BitVec 6) (v : Vec) : (s.wv n v).rv r = if r = n then v else s.rv r := by
  unfold State.rv State.wv State.modMe
  have hcc : (s.modCtx s.me fun c => { c with v := tput c.v n.toNat v }).cc = { s.cc with v := tput s.cc.v n.toNat v } :=
    State.ctx_modCtx_same s s.me _
  rw [hcc]
  refine (tget_tput ..).trans ?_
  by_cases h : r = n
  · rw [if_pos h, if_pos (by rw [h])]
  · rw [if_neg h, if_neg fun e => h (BitVec.eq_of_toNat_eq e)]

/-! ## Streams -/

theorem State.meetStream_of_not_meets (h : ¬s.meets n) : s.meetStream n.toNat = .error (s.streamStall n.toNat) := by
  unfold State.meetStream
  unfold State.meets at h
  split
  · rfl
  · next hb =>
    rw [if_pos ?_]
    simp only [Bool.not_eq_true', Bool.not_eq_false] at hb
    simp only [hb, true_and, not_or, Bool.not_eq_true, Bool.not_eq_false] at h
    rw [h.1, h.2]
    rfl

theorem State.meetStream_of_meets (h : s.meets n) : s.meetStream n.toNat = .ok (s.streamHere n) := by
  obtain ⟨hb, hu⟩ := h
  unfold State.meetStream
  rw [hb, if_neg (by decide), if_neg]
  · rfl
  · rcases hu with hu | hu <;> simp [hu]

theorem State.openRead_of_not_meets (h : ¬s.meets n) : s.openRead n.toNat = .error (s.streamStall n.toNat) := by
  unfold State.openRead
  rw [State.meetStream_of_not_meets h]

/-- What a read finds of a stream that C meets as `z`. -/
def State.readFrom (s : State) (n : BitVec 4) (z : Stream) : Except Res (Stream × Option ZUnit) :=
  if z.write then .error (if s.rebinding n.toNat then s.streamStall n.toNat else .trap .qfault 0 0 s)
  else if z.total ≤ z.done then (if s.rebinding n.toNat then .error (s.streamStall n.toNat) else .ok (z, none))
  else match z.buf with
    | [] => .error (s.streamStall n.toNat)
    | b :: _ => .ok (z, some b)

theorem State.openRead_of_meets (h : s.meets n) : s.openRead n.toNat = s.readFrom n (s.streamHere n) := by
  unfold State.openRead
  rw [State.meetStream_of_meets h]
  rfl

theorem State.takeStream_of_error {r : Res} (h : s.openRead n.toNat = .error r) : s.takeStream n.toNat = .error r := by
  unfold State.takeStream
  rw [h]

/-- One read stream as the only source. -/
theorem State.takeSrcs_stream (s : State) (n : BitVec 4) : s.takeSrcs [] [.z n] = match s.takeStream n.toNat with
    | .error e => .error e
    | .ok (t, v) => .ok (t, [v]) := by
  unfold State.takeSrcs
  show (match s.takeStream n.toNat with | .error e => _ | .ok (t, v) => _) = _
  cases s.takeStream n.toNat with
  | error e => rfl
  | ok x => rfl

theorem State.takeSrcs_of_error {r : Res} (h : s.openRead n.toNat = .error r) : s.takeSrcs [] [.z n] = .error r := by
  rw [State.takeSrcs_stream, State.takeStream_of_error h]

theorem State.takeSrcs_spent {z : Stream} (h : s.openRead n.toNat = .ok (z, none)) :
    s.takeSrcs [] [.z n] = .ok (s.setStream n.toNat { z with ovr := true }, [0]) := by
  rw [State.takeSrcs_stream]
  unfold State.takeStream
  rw [h]

theorem State.takeSrcs_unit {z : Stream} {b : ZUnit} (h : s.openRead n.toNat = .ok (z, some b)) (hm : b.mark = none) :
    s.takeSrcs [] [.z n] = .ok (s.setStream n.toNat { z with buf := z.buf.tail, done := z.done + 1 }, [b.val]) := by
  rw [State.takeSrcs_stream]
  unfold State.takeStream
  rw [h]
  dsimp only
  rw [hm]

theorem State.takeSrcs_marked {z : Stream} {b : ZUnit} {c : Code} {a : Nat} (h : s.openRead n.toNat = .ok (z, some b))
    (hm : b.mark = some (c, a)) : s.takeSrcs [] [.z n] = .error (.stay (s.raise s.me
      { code := c, eng := .c, pc := s.ce.pc, addr := a, info := b.u, clock := s.clock, qent := true })) := by
  rw [State.takeSrcs_stream]
  unfold State.takeStream
  rw [h]
  dsimp only
  rw [hm]

theorem State.openWrite_of_not_meets (h : ¬s.meets n) : s.openWrite n.toNat = .error (s.streamStall n.toNat) := by
  unfold State.openWrite
  rw [State.meetStream_of_not_meets h]

/-- What a write finds of a stream that C meets. -/
theorem State.openWrite_of_meets (h : s.meets n) : s.openWrite n.toNat =
    if !(s.streamHere n).write then .error (if s.rebinding n.toNat then s.streamStall n.toNat else .trap .qfault 0 0 s)
    else if (s.streamHere n).total ≤ (s.streamHere n).done then
      (if s.rebinding n.toNat then .error (s.streamStall n.toNat) else .ok (s.streamHere n))
    else if 8 ≤ (s.streamHere n).buf.length then .error (s.streamStall n.toNat)
    else .ok (s.streamHere n) := by
  unfold State.openWrite
  rw [State.meetStream_of_meets h]

theorem State.putDst_of_error {r : Res} {v : Vec} (h : s.openWrite n.toNat = .error r) : s.putDst (.z n) v = .error r := by
  show s.passStream n.toNat v = _
  unfold State.passStream
  rw [h]

theorem State.putDst_spent {z : Stream} {v : Vec} (h : s.openWrite n.toNat = .ok z) (hd : z.total ≤ z.done) :
    s.putDst (.z n) v = .ok (s.setStream n.toNat { z with ovr := true }) := by
  show s.passStream n.toNat v = _
  unfold State.passStream
  rw [h]
  exact if_pos hd

theorem State.putDst_unit {z : Stream} {v : Vec} (h : s.openWrite n.toNat = .ok z) (hd : z.done < z.total) : s.putDst (.z n) v =
    .ok (s.setStream n.toNat
      { z with buf := z.buf ++ [{ u := z.done, val := v, pos := s.pos }], done := z.done + 1, moved := true }) := by
  show s.passStream n.toNat v = _
  unfold State.passStream
  rw [h]
  exact if_neg (Nat.not_le.mpr hd)

/-! ## All the operands of an instruction -/

theorem State.operandsOpen_nil (s : State) (d : Option VDst) :
    (s.operandsOpen d [] = .ok () ↔ ∀ n : BitVec 4, d = some (.z n) → ∃ z, s.openWrite n.toNat = .ok z) ∧
    ∀ r, s.operandsOpen d [] = .error r → ∃ n : BitVec 4, d = some (.z n) ∧ s.openWrite n.toNat = .error r := by
  unfold State.operandsOpen
  rcases d with _ | d
  · simp
  · cases d with
    | z n =>
      dsimp only
      cases h : s.openWrite n.toNat with
      | error e => simp [h]
      | ok z => simp [h]
    | _ => simp

theorem State.operandsOpen_stream (s : State) (d : Option VDst) (n : BitVec 4) (r : List VSrc) :
    s.operandsOpen d (.z n :: r) = match s.openRead n.toNat with
      | .error e => .error e
      | .ok _ => s.operandsOpen d r := by
  rw [State.operandsOpen] <;> cases s.openRead n.toNat <;> rfl

theorem State.operandsOpen_iff (s : State) (d : Option VDst) (srcs : List VSrc) :
    (s.operandsOpen d srcs = .ok () ↔
      (∀ n : BitVec 4, VSrc.z n ∈ srcs → ∃ z b, s.openRead n.toNat = .ok (z, b)) ∧
      ∀ n : BitVec 4, d = some (.z n) → ∃ z, s.openWrite n.toNat = .ok z) ∧
    (∀ r, s.operandsOpen d srcs = .error r →
      (∃ n : BitVec 4, VSrc.z n ∈ srcs ∧ s.openRead n.toNat = .error r) ∨
      ∃ n : BitVec 4, d = some (.z n) ∧ s.openWrite n.toNat = .error r) := by
  induction srcs with
  | nil =>
    obtain ⟨h1, h2⟩ := s.operandsOpen_nil d
    exact ⟨by simpa using h1, fun r hr => .inr (h2 r hr)⟩
  | cons x srcs ih =>
    cases x with
    | z n =>
      rw [State.operandsOpen_stream]
      cases h : s.openRead n.toNat with
      | error e =>
        refine ⟨⟨fun hc => (by cases hc), fun hc => ?_⟩, fun r hr => ?_⟩
        · obtain ⟨z, b, hz⟩ := hc.1 n (List.mem_cons_self ..)
          rw [h] at hz
          cases hz
        · cases hr
          exact .inl ⟨n, List.mem_cons_self .., h⟩
      | ok x =>
        refine ⟨ih.1.trans (and_congr_left' ⟨fun hc m hm => ?_, fun hc m hm => hc m (List.mem_cons_of_mem _ hm)⟩), fun r hr => ?_⟩
        · rcases List.mem_cons.mp hm with e | hm
          · cases e
            exact ⟨x.1, x.2, h⟩
          · exact hc m hm
        · exact (ih.2 r hr).imp (fun ⟨m, hm, hr⟩ => ⟨m, List.mem_cons_of_mem _ hm, hr⟩) id
    | v n => simpa [State.operandsOpen] using ih
    | fd n => simpa [State.operandsOpen] using ih

end

/-- Settles O39: a plain source, a plain destination, a read stream, a write stream, and the operands together. -/
theorem vectorOperands : Obligations.VectorOperands := by
  unfold Obligations.VectorOperands
  refine ⟨fun s srcs l h => State.takeSrcs_plain [] srcs l h,
    fun s v => ⟨fun n => ⟨_, rfl, ?_, fun r hr => ?_⟩, fun _ => rfl, fun _ => rfl⟩,
    fun s n => ⟨fun h => State.takeSrcs_of_error (State.openRead_of_not_meets h), fun h hw hr => ?_, fun h hw hd hr => ?_,
      fun h hwd hr => ?_, fun h hw hd hb => ?_, fun b r h hw hd hb hm => ?_, fun b r c a h hw hd hb hm => ?_⟩,
    fun s n v => ⟨fun h => State.putDst_of_error (State.openWrite_of_not_meets h), fun h hw hr => ?_, fun h hw hd hr => ?_,
      fun h hwd hr => ?_, fun h hw hd hb => ?_, fun h hw hd hb => ?_⟩, State.operandsOpen_iff⟩
  · rw [State.rv_wv, if_pos rfl]
  · rw [State.rv_wv, if_neg hr]
  · refine State.takeSrcs_of_error ((State.openRead_of_meets h).trans ?_)
    unfold State.readFrom
    rw [hw, hr]
    rfl
  · refine State.takeSrcs_spent ((State.openRead_of_meets h).trans ?_)
    unfold State.readFrom
    rw [hw, hr, if_neg (by decide), if_pos hd]
    rfl
  · refine State.takeSrcs_of_error ((State.openRead_of_meets h).trans ?_)
    unfold State.readFrom
    rw [hr]
    by_cases hw : (s.streamHere n).write = true
    · rw [if_pos hw]
      rfl
    · rw [if_neg hw, if_pos (hwd.resolve_left hw)]
      rfl
  · refine State.takeSrcs_of_error ((State.openRead_of_meets h).trans ?_)
    unfold State.readFrom
    rw [hw, if_neg (by decide), if_neg (Nat.not_le.mpr hd), hb]
  · have ho : s.openRead n.toNat = .ok (s.streamHere n, some b) := by
      rw [State.openRead_of_meets h]
      unfold State.readFrom
      rw [hw, if_neg (by decide), if_neg (Nat.not_le.mpr hd), hb]
    have ht := State.takeSrcs_unit ho hm
    rwa [hb] at ht
  · refine State.takeSrcs_marked (z := s.streamHere n) ?_ hm
    rw [State.openRead_of_meets h]
    unfold State.readFrom
    rw [hw, if_neg (by decide), if_neg (Nat.not_le.mpr hd), hb]
  · refine State.putDst_of_error ((State.openWrite_of_meets h).trans ?_)
    rw [hw, hr]
    rfl
  · refine State.putDst_spent ((State.openWrite_of_meets h).trans ?_) hd
    rw [hw, hr, if_neg (by decide), if_pos hd]
    rfl
  · refine State.putDst_of_error ((State.openWrite_of_meets h).trans ?_)
    rw [hr]
    by_cases hw : (s.streamHere n).write = false
    · rw [hw]
      rfl
    · rw [Bool.not_eq_false] at hw
      rw [hw, if_neg (by decide), if_pos (hwd.resolve_left (by rw [hw]; decide))]
      rfl
  · refine State.putDst_of_error ((State.openWrite_of_meets h).trans ?_)
    rw [hw, if_neg (by decide), if_neg (Nat.not_le.mpr hd), if_pos hb]
  · refine State.putDst_unit ((State.openWrite_of_meets h).trans ?_) hd
    rw [hw, if_neg (by decide), if_neg (Nat.not_le.mpr hd), if_neg (Nat.not_le.mpr hb)]

end Sys2Proof.Machine
end

section
/-! PROOFS. The stream instructions of L and S (R209-R219). -/

namespace Sys2Proof.Machine

section
variable {s : State} {m : Mods} {z : BitVec 4} {a d : Reg} {k : BitVec 16} {now : BitVec 1}

/-- The stream is one that the engine in execution has bound. -/
def State.owns (s : State) (z : BitVec 4) : Prop :=
  (s.stream z.toNat).bound = true ∧ (s.stream z.toNat).write = (s.cur.eng == .s)

theorem State.ownStream_iff : s.ownStream z.toNat = true ↔ s.owns z := by
  unfold State.ownStream State.owns
  rw [Bool.and_eq_true, beq_iff_eq]

theorem State.ownStream_false (h : ¬s.owns z) : s.ownStream z.toNat = false := by
  rw [← Bool.not_eq_true, State.ownStream_iff]
  exact h

/-! ## sbind and sbop -/

theorem Ready.sbind_bad (hr : Ready s (.sbind m z a k))
    (h : (s.stream z.toNat).bound = true ∨ effAddr (s.rx a) 0 (immS 16 k.toNat m) % 64 ≠ 0) :
    exec (.sbind m z a k) s = .next (s.trapHere .qfault) := by
  refine (hr.run (e := execSbind m z a k s) rfl rfl rfl).trans ?_
  dsimp only
  rw [if_pos h]
  rfl

/-- What `sbind` makes of the descriptor that it has read. -/
def State.bindTo (u : State) (n : Nat) (o : Option Stream) : Res :=
  match o with
  | none => .trap .qfault 0 0 u
  | some y => .ok (u.setStream n { y with write := u.cur.eng == .s, pos := u.pos, gate := u.ce.issues + 1 })

theorem Ready.sbind_reads (hr : Ready s (.sbind m z a k)) {u : State} {bs : List Byte}
    (h : ¬((s.stream z.toNat).bound = true ∨ effAddr (s.rx a) 0 (immS 16 k.toNat m) % 64 ≠ 0))
    (hu : s.readLocal (effAddr (s.rx a) 0 (immS 16 k.toNat m)) 64 = .ok (u, bs)) : exec (.sbind m z a k) s =
      .next (s.settleRes (formOf (.sbind m z a k) s) (u.bindTo z.toNat (streamOf (leNat bs) (rmOfRound u.cc.round)))) := by
  refine (hr.run (e := execSbind m z a k s) rfl rfl rfl).trans ?_
  dsimp only
  rw [if_neg h, hu]
  dsimp only
  unfold State.bindTo
  cases streamOf (leNat bs) (rmOfRound u.cc.round) <;> rfl

/-- What `sbop` makes of its chain. -/
def State.chainTo (s : State) (n : Nat) (o : Option (List (BitVec 16))) : Res :=
  match o with
  | none => .trap .qfault 0 0 s
  | some c => .ok (s.setStream n { s.stream n with
      chain := c, gate := if (s.stream n).gate = s.ce.issues then s.ce.issues + 1 else (s.stream n).gate })

theorem Ready.sbop (hr : Ready s (.sbop m z a)) : exec (.sbop m z a) s = .next (s.settleRes (formOf (.sbop m z a) s)
    (s.chainTo z.toNat (if s.ownStream z.toNat && !(s.stream z.toNat).moved then chainOf (s.rx a) else none))) := by
  refine (hr.run (e := execSbop m z a s) rfl rfl rfl).trans ?_
  dsimp only
  unfold State.chainTo
  generalize (if s.ownStream z.toNat && !(s.stream z.toNat).moved then chainOf (s.rx a) else none) = o
  cases o <;> rfl

theorem Ready.sbop_bad (hr : Ready s (.sbop m z a)) (h : ¬s.owns z ∨ (s.stream z.toNat).moved = true ∨ chainOf (s.rx a) = none) :
    exec (.sbop m z a) s = .next (s.trapHere .qfault) := by
  have hn : (if s.ownStream z.toNat && !(s.stream z.toNat).moved then chainOf (s.rx a) else none) = none := by
    rcases h with h | h | h
    · rw [State.ownStream_false h]; rfl
    · rw [h, Bool.not_true, Bool.and_false]; rfl
    · rw [h, ite_self]
  rw [hr.sbop, hn]
  rfl

theorem Ready.sbop_ok (hr : Ready s (.sbop m z a)) {c : List (BitVec 16)} (ho : s.owns z) (hm : (s.stream z.toNat).moved = false)
    (hc : chainOf (s.rx a) = some c) : exec (.sbop m z a) s = .next (past (.sbop m z a) s (s.setStream z.toNat
      { s.stream z.toNat with
        chain := c, gate := if (s.stream z.toNat).gate = s.ce.issues then s.ce.issues + 1 else (s.stream z.toNat).gate })) := by
  rw [hr.sbop, State.ownStream_iff.mpr ho, hm, hc]
  rfl

/-! ## sadv and sunbind -/

theorem Ready.sadv_bad (hr : Ready s (.sadv m z a)) (h : ¬s.owns z) : exec (.sadv m z a) s = .next (s.trapHere .qfault) := by
  refine (hr.run (e := execSadv m z a s) rfl rfl rfl).trans ?_
  dsimp only
  rw [State.ownStream_false h]
  rfl

theorem Ready.sadv_ok (hr : Ready s (.sadv m z a)) (h : s.owns z) : exec (.sadv m z a) s = .next (past (.sadv m z a) s
    ((s.setStream z.toNat { s.stream z.toNat with
      skips := (s.stream z.toNat).skips ++ [{ pos := s.pos, n := (s.rx a).toNat }] }).settleSkips s.me z.toNat)) := by
  refine (hr.run (e := execSadv m z a s) rfl rfl rfl).trans ?_
  dsimp only
  rw [State.ownStream_iff.mpr h]
  rfl

theorem Ready.sunbind_bad (hr : Ready s (.sunbind m z now)) (h : ¬s.owns z) :
    exec (.sunbind m z now) s = .next (s.trapHere .qfault) := by
  refine (hr.run (e := execSunbind m z now s) rfl rfl rfl).trans ?_
  dsimp only
  rw [State.ownStream_false h]
  rfl

theorem Ready.sunbind (hr : Ready s (.sunbind m z now)) (h : s.owns z) (hn : now ≠ 1) : exec (.sunbind m z now) s =
    .next (s.settleRes (formOf (.sunbind m z now) s) (if s.canUnbind s.me z.toNat s.cur.eng s.pos
      then .ok (s.modMe fun c => c.unbind z.toNat) else .wait (.sunbind z.toNat s.pos) s)) := by
  refine (hr.run (e := execSunbind m z now s) rfl rfl rfl).trans ?_
  dsimp only
  rw [State.ownStream_iff.mpr h, if_neg (by decide), if_neg hn]

theorem Ready.sunbind_now (hr : Ready s (.sunbind m z now)) (h : s.owns z) (hn : now = 1) : exec (.sunbind m z now) s =
    .next (s.settleRes (formOf (.sunbind m z now) s) (if (s.stream z.toNat).write && ((s.stream z.toNat).buf != [] ||
        (s.unissued s.me s.cur.eng .c s.pos).any (decNames z.toNat))
      then s.streamStall z.toNat else .ok (s.modMe fun c => c.unbind z.toNat))) := by
  refine (hr.run (e := execSunbind m z now s) rfl rfl rfl).trans ?_
  dsimp only
  rw [State.ownStream_iff.mpr h, if_neg (by decide), if_pos hn]

/-! ## sstat -/

theorem Stream.word_eq (y : Stream) : y.word =
    quadN ((if y.bound = false then 0 else if y.write then 2 else 1) * 2 ^ 62 + (if y.ovr then 2 ^ 61 else 0) +
      (if y.pois then 2 ^ 60 else 0) + (if y.bound then (y.total - y.done) % 2 ^ 48 else 0)) := by
  unfold Stream.word
  cases y.bound <;> cases y.ovr <;> cases y.pois <;> simp

end

/-- Settles O42: each stream instruction by the stream and the descriptor that it finds. -/
theorem streamInstructions : Obligations.StreamInstructions := by
  unfold Obligations.StreamInstructions
  refine fun s m z a d k now => ⟨fun hr => ⟨hr.sbind_bad, fun u bs hb hv hu => ⟨fun hy => ?_, fun y hy => ?_⟩⟩,
    fun hr => ⟨hr.sbop_bad, fun c => hr.sbop_ok⟩, fun hr => ⟨hr.sadv_bad, hr.sadv_ok⟩,
    fun hr => ⟨hr.sunbind_bad, fun ho hn hc => ?_, fun ho hn hc => ?_, fun ho hn hq => ?_, fun ho hn hw hq => ?_⟩, fun hr => ?_⟩
  · rw [hr.sbind_reads (by rw [hb]; exact fun h => h.elim (by decide) fun h => h hv) hu, hy]
    rfl
  · rw [hr.sbind_reads (by rw [hb]; exact fun h => h.elim (by decide) fun h => h hv) hu, hy]
    rfl
  · rw [hr.sunbind ho (by rw [hn]; decide), if_pos hc]
    rfl
  · rw [hr.sunbind ho (by rw [hn]; decide), if_neg (by rw [hc]; decide)]
    rfl
  · rw [hr.sunbind_now ho hn, if_neg]
    · rfl
    · intro h
      rw [Bool.and_eq_true] at h
      obtain ⟨hb, hu⟩ := hq h.1
      rw [hb, hu] at h
      exact absurd h.2 (by decide)
  · rw [hr.sunbind_now ho hn, if_pos]
    · rfl
    · rw [Bool.and_eq_true, Bool.or_eq_true, bne_iff_ne]
      exact ⟨hw, hq⟩
  · refine (hr.run (e := execSstat m d z s) rfl rfl rfl).trans ?_
    dsimp only
    rw [Stream.word_eq]
    rfl

end Sys2Proof.Machine
end

section
/-! PROOFS. The instructions on translations (R344). -/

namespace Sys2Proof.Machine

/-- What a privileged instruction comes to, where its own effect is `f`. -/
def State.privRes (f : State → State) (t : State) : Res :=
  if !t.cc.priv then .trap .prot 0 0 t else if !t.earlierDone then .stall .order t else .ok (f t)

/-- A privileged instruction traps, waits for the earlier accesses, or goes on past its effect. -/
theorem Ready.privileged {i : Instr} {s : State} (hr : Ready s i) {e} {regs : List Reg} {f : State → State}
    (he : exec i s = e) (h : e = privOp regs s f) (hf : formOf i s = { cls := onX, regs := regs }) :
    (s.cc.priv = false → exec i s = .next (s.trapHere .prot)) ∧
    (s.cc.priv = true → s.earlierDone = false → exec i s = .next (s.stallHere .order)) ∧
    (s.cc.priv = true → s.earlierDone = true → exec i s = .next (past i s (f s))) := by
  have hrun : exec i s = .next (s.settleRes (formOf i s) (s.privRes f)) :=
    hr.run he (h.trans (by unfold privOp State.privRes; rfl)) hf
  refine ⟨fun hp => ?_, fun hp hd => ?_, fun hp hd => ?_⟩ <;> rw [hrun] <;> unfold State.privRes
  · rw [hp]; rfl
  · rw [hp, hd]; rfl
  · rw [hp, hd]; rfl

/-- Settles O48: each instruction on translations is a privileged one with its own effect. -/
theorem translationInstructions : Obligations.TranslationInstructions := by
  intro s a b
  refine ⟨fun hr => ?_, fun hr => ?_, fun hr => ?_, fun hr => ?_⟩
  · exact hr.privileged (e := execTlbinvPg a b s) rfl rfl rfl
  · exact hr.privileged (e := execTlbinvAs a s) rfl rfl rfl
  · exact hr.privileged (e := execTlbinvAll s) rfl rfl rfl
  · exact hr.privileged (e := execAsset a s) rfl rfl rfl

end Sys2Proof.Machine
end

section
/-! PROOFS. The scheduling instructions (R316-R322, R327, R328). -/

namespace Sys2Proof.Machine

/-- A ready scheduling instruction settles what its effect comes to. -/
theorem Ready.sched {i : Instr} {s : State} (hr : Ready s i) {e} {m : Mods} {d : Reg} {regs : List Reg} {f : State → Res}
    (he : exec i s = e) (h : e = schedOp m d regs s f) (hf : formOf i s = { mods := m, cls := onX, regs := d :: regs }) :
    exec i s = .next (s.settleRes (formOf i s) (f s)) :=
  hr.run he h hf

/-- An instruction that reads the scratchpad at issue goes on with the bytes, where what follows does not stall. -/
theorem readThen_ok {s u : State} {a n : Nat} {bs : List Byte} {f : State → List Byte → Res} {r : Res}
    (hu : s.readLocal a n = .ok (u, bs)) (hf : f u bs = r) (hr : ∀ w t, r ≠ .stall w t) : readThen s a n f = r := by
  unfold readThen
  rw [hu]
  dsimp only
  rw [hf]
  cases r with
  | stall w t => exact absurd rfl (hr w t)
  | _ => rfl

section
variable {s : State} {m : Mods} {d a b : Reg} {k : BitVec 5}

/-! ## Children -/

theorem Ready.launch_answers (hr : Ready s (.launch m d a b)) (ha : (s.rx a).toNat % 128 = 0)
    (hb : 65535 < (s.rx b).toNat ∨ s.cr.rcb.lslots = 0) :
    exec (.launch m d a b) s = .next (past (.launch m d a b) s (s.wx d (resultQuad 8 0))) := by
  refine (hr.sched (e := execLaunch m d a b s) rfl rfl rfl).trans ?_
  dsimp only
  rw [if_neg (not_not.mpr ha), if_pos hb]
  rfl

/-- What a launch comes to where its operands are in range and the region keeps a slot for it. -/
theorem Ready.launch_inRange (hr : Ready s (.launch m d a b))
    (ok : (s.rx a).toNat % 128 = 0 ∧ (s.rx b).toNat ≤ 65535 ∧ s.cr.rcb.lslots ≠ 0) :
    (64 ≤ s.cr.ends.length → exec (.launch m d a b) s =
      .next (s.settleRes (formOf (.launch m d a b) s) (s.launchBusy d))) ∧
    (s.cr.ends.length < 64 → s.cr.launchq.length < 16 → exec (.launch m d a b) s =
      .next (past (.launch m d a b) s (({ s.modRegion s.cc.regid (fun g => { g with
        launchq := g.launchq ++ [s.childLaunch (s.rx a).toNat (s.rx b).toNat] }) with nextReg := s.nextReg + 1 } : State).wx d
          (resultQuad 0 s.nextReg)))) ∧
    (s.cr.ends.length < 64 → 16 ≤ s.cr.launchq.length → s.storeOpen s.cr = false → exec (.launch m d a b) s =
      .next (s.settleRes (formOf (.launch m d a b) s) (s.launchBusy d))) ∧
    (∀ u, s.cr.ends.length < 64 → 16 ≤ s.cr.launchq.length → s.storeOpen s.cr = true →
      s.heldWrite s.cr (storeEntry (s.childLaunch (s.rx a).toNat (s.rx b).toNat))
        (lineParts (s.cr.rcb.plstore + 16 * s.storeSlot s.cr) 16) = .ok u →
      let w := u.modRegion (u.ownerOf bitPlstore s.cc.regid) fun g => { g with plHead := (s.storeSlot s.cr + 1) % s.cr.rcb.plse }
      exec (.launch m d a b) s = .next (past (.launch m d a b) s
        (({ w.modRegion s.cc.regid (fun g => { g with
          pending := g.pending ++ [{ s.childLaunch (s.rx a).toNat (s.rx b).toNat with entry := s.storeSlot s.cr }] }) with
            nextReg := w.nextReg + 1 } : State).wx d (resultQuad 0 (2 ^ 32 + s.nextReg))))) := by
  obtain ⟨ha, hb, hl⟩ := ok
  have hbad : ¬(65535 < (s.rx b).toNat ∨ s.cr.rcb.lslots = 0) := by rintro (h | h); exacts [absurd hb (by omega), hl h]
  refine ⟨fun he => ?_, fun he hq => ?_, fun he hq ho => ?_, fun u he hq ho hu => ?_⟩ <;>
    refine (hr.sched (e := execLaunch m d a b s) rfl rfl rfl).trans ?_ <;> dsimp only <;>
    rw [if_neg (not_not.mpr ha), if_neg hbad]
  · rw [if_pos he]
  · rw [if_neg (by omega), if_pos hq]; rfl
  · rw [if_neg (by omega), if_neg (by omega), if_neg (by rw [ho]; exact Bool.false_ne_true)]
  · rw [if_neg (by omega), if_neg (by omega), if_pos ho, hu]; rfl

/-- What `lwait` and `lpoll` come to, by what their handle names. -/
def State.childAnswer (s : State) (d : Reg) (going : Res) : Child → Res
  | .ended e => s.reapInto d e
  | .going => going
  | .unknown => s.answer d 8 0

theorem Ready.lwait (hr : Ready s (.lwait m d a)) (hy : s.cr.yieldAt s.ce.pc ≠ none) :
    exec (.lwait m d a) s = .next (s.settleRes (formOf (.lwait m d a) s) (s.childAnswer d
      (.wait (.lwait d (s.rx a).toNat) (s.modMe fun c => { c with saveBad := 0 })) (s.cr.childOf (s.rx a).toNat))) := by
  refine (hr.sched (e := execLwait m d a s) rfl rfl rfl).trans ?_
  rw [if_neg (by rwa [Option.isNone_iff_eq_none])]
  rfl

theorem Ready.lpoll (hr : Ready s (.lpoll m d a)) : exec (.lpoll m d a) s =
    .next (s.settleRes (formOf (.lpoll m d a) s) (s.childAnswer d (s.answer d 1 0) (s.cr.childOf (s.rx a).toNat))) := by
  refine (hr.sched (e := execLpoll m d a s) rfl rfl rfl).trans ?_
  rfl

/-- What `rcbq` answers of a child that has not been admitted. -/
theorem State.childQuery (s : State) (d : Reg) (k : BitVec 5) (h : Nat) :
    (if k.toNat = 0 then s.answer d 0 h else if k.toNat = 12 then s.answer d 0 s.cc.regid else s.answer d 1 0) =
      s.answer d (if k = 0 ∨ k = 12 then 0 else 1) (if k = 0 then h else if k = 12 then s.cc.regid else 0) := by
  have h0 : k.toNat = 0 ↔ k = 0 := ⟨fun h => BitVec.eq_of_toNat_eq h, fun h => by rw [h]; rfl⟩
  have h12 : k.toNat = 12 ↔ k = 12 := ⟨fun h => BitVec.eq_of_toNat_eq h, fun h => by rw [h]; rfl⟩
  by_cases hk : k = 0
  · subst hk; rfl
  · by_cases hk' : k = 12
    · subst hk'; rfl
    · rw [if_neg (mt h0.mp hk), if_neg (mt h12.mp hk'), if_neg (not_or.mpr ⟨hk, hk'⟩), if_neg hk, if_neg hk']

section
variable (hr : Ready s (.rcbq m d a k))
include hr

theorem Ready.rcbq_own (hk : k.toNat < 14) (ha : a = 0) :
    exec (.rcbq m d a k) s = .next (past (.rcbq m d a k) s (s.wx d (resultQuad 0 (s.regionQuery s.cr k.toNat)))) := by
  refine (hr.sched (e := execRcbq m d a k s) rfl rfl rfl).trans ?_
  dsimp only
  rw [if_neg (by omega), if_pos ha]
  rfl

theorem Ready.rcbq_unknown (hk : k.toNat < 14) (ha : a ≠ 0) (hc : s.cr.childOf (s.rx a).toNat = .unknown) :
    exec (.rcbq m d a k) s = .next (past (.rcbq m d a k) s (s.wx d (resultQuad 8 0))) := by
  refine (hr.sched (e := execRcbq m d a k s) rfl rfl rfl).trans ?_
  dsimp only
  rw [if_neg (by omega), if_neg ha, if_pos hc]
  rfl

section
variable (hk : k.toNat < 14) (ha : a ≠ 0) (hc : s.cr.childOf (s.rx a).toNat ≠ .unknown)
include hk ha hc

theorem Ready.rcbq_admitted (h : (s.region (s.rx a).toNat).regid = (s.rx a).toNat) : exec (.rcbq m d a k) s =
    .next (past (.rcbq m d a k) s (s.wx d (resultQuad 0 (s.regionQuery (s.region (s.rx a).toNat) k.toNat)))) := by
  refine (hr.sched (e := execRcbq m d a k s) rfl rfl rfl).trans ?_
  dsimp only
  rw [if_neg (by omega), if_neg ha, if_neg hc, if_pos h]
  rfl

theorem Ready.rcbq_waiting (h : (s.region (s.rx a).toNat).regid ≠ (s.rx a).toNat) : exec (.rcbq m d a k) s =
    .next (past (.rcbq m d a k) s (s.wx d (resultQuad (if k = 0 ∨ k = 12 then 0 else 1)
      (if k = 0 then (s.rx a).toNat else if k = 12 then s.cc.regid else 0)))) := by
  refine (hr.sched (e := execRcbq m d a k s) rfl rfl rfl).trans ?_
  dsimp only
  rw [if_neg (by omega), if_neg ha, if_neg hc, if_neg h, State.childQuery]
  rfl

end
end

/-! ## Items and work lists -/

/-- What `spop` makes of the oldest item of its stage. -/
def State.popItem (s : State) (d : Reg) : Option QItem → Res
  | none => s.answer d 4 0
  | some q =>
    let u := s.modRegion s.cc.regid fun g =>
      g.setQueue s.cc.stage (setItem (g.queue s.cc.stage) q.slot fun x => { x with st := .running s.me })
    let v := u.modMe fun c => { c with pops := c.pops ++ [{ slot := q.slot, attempt := q.attempt }] }
    (v.l1DropAll s.cur.core).answer d 0 (s.cr.slotVa s.cc.stage q.slot)

theorem Ready.spop_full (hr : Ready s (.spop m d)) (h : 15 ≤ s.cc.pops.length) :
    exec (.spop m d) s = .next (past (.spop m d) s (s.wx d (resultQuad 2 0))) := by
  refine (hr.sched (e := execSpop m d s) rfl rfl rfl).trans ?_
  dsimp only
  rw [if_pos h]
  rfl

theorem Ready.spop (hr : Ready s (.spop m d)) (h : s.cc.pops.length < 15) : exec (.spop m d) s =
    .next (s.settleRes (formOf (.spop m d) s) (s.popItem d (oldestItem (s.cr.queue s.cc.stage)))) := by
  refine (hr.sched (e := execSpop m d s) rfl rfl rfl).trans ?_
  dsimp only
  rw [if_neg (by omega)]
  rfl

/-- A push of the item `bs` into the slot of stage `n` that is open for it. -/
def State.pushItem (s u : State) (d : Reg) (n : Nat) (bs : List Byte) : Res :=
  match u.pushSlot n u.cur.pick with
  | none => u.answer d 2 0
  | some slot =>
    if (s.cr.stage n).depth ≤ s.cr.occupancy n ∨ 64 ≤ u.cc.pushes.length then u.answer d 2 0
    else
      let p : Push := { stage := n, slot := slot, data := bs }
      match u.reservePush s.cr.part (s.cr.pushLines p) with
      | .error w => .stall .space w
      | .ok w => ((w.modRegion w.cc.regid fun g => { g with reserved := tmod 0 g.reserved n (· + 1) }).modMe
          fun c => { c with pushes := c.pushes ++ [p] }).answer d 0 0

section
variable (hr : Ready s (.spush m d a b))
include hr

theorem Ready.spush_misaligned (h : (s.rx a).toNat % 16 ≠ 0) :
    exec (.spush m d a b) s = .next (s.trapHere .align (s.rx a).toNat) := by
  refine (hr.sched (e := execSpush m d a b s) rfl rfl rfl).trans ?_
  dsimp only
  rw [if_pos h]
  rfl

theorem Ready.spush_forbidden (h : (s.rx a).toNat % 16 = 0)
    (hn : 7 < (s.rx b).toNat ∨ (s.cr.stage s.cc.stage).outmask.testBit (s.rx b).toNat = false) :
    exec (.spush m d a b) s = .next (s.trapHere .prot (s.rx a).toNat) := by
  refine (hr.sched (e := execSpush m d a b s) rfl rfl rfl).trans ?_
  dsimp only
  rw [if_neg (not_not.mpr h), if_pos (by simpa using hn)]
  rfl

theorem Ready.spush {r : Res} {u : State} {bs : List Byte} (h : (s.rx a).toNat % 16 = 0) (hn : (s.rx b).toNat ≤ 7)
    (hm : (s.cr.stage s.cc.stage).outmask.testBit (s.rx b).toNat = true)
    (hu : s.readLocal (s.rx a).toNat (s.cr.stage (s.rx b).toNat).itemBytes = .ok (u, bs))
    (hp : s.pushItem u d (s.rx b).toNat bs = r) (hs : ∀ w t, r ≠ .stall w t) :
    exec (.spush m d a b) s = .next (s.settleRes (formOf (.spush m d a b) s) r) := by
  refine (hr.sched (e := execSpush m d a b s) rfl rfl rfl).trans ?_
  dsimp only
  rw [if_neg (not_not.mpr h), if_neg (by rw [hm]; simpa using hn)]
  exact congrArg (fun x => Host.Outcome.next (s.settleRes _ x)) (readThen_ok hu hp hs)

end

section
variable (hr : Ready s (.wlapp m d a b))
include hr

theorem Ready.wlapp_noList (h : 63 < (s.rx a).toNat) :
    exec (.wlapp m d a b) s = .next (past (.wlapp m d a b) s (s.wx d (resultQuad 8 0))) := by
  refine (hr.sched (e := execWlapp m d a b s) rfl rfl rfl).trans ?_
  dsimp only
  rw [if_pos h]
  rfl

theorem Ready.wlapp_full (h : (s.rx a).toNat ≤ 63)
    (hl : 4096 ≤ (tget [] s.cr.lists (s.rx a).toNat).length + tget 0 s.cr.listRes (s.rx a).toNat) :
    exec (.wlapp m d a b) s = .next (past (.wlapp m d a b) s (s.wx d (resultQuad 2 0))) := by
  refine (hr.sched (e := execWlapp m d a b s) rfl rfl rfl).trans ?_
  dsimp only
  rw [if_neg (by omega), if_pos hl]
  rfl

theorem Ready.wlapp (h : (s.rx a).toNat ≤ 63)
    (hl : (tget [] s.cr.lists (s.rx a).toNat).length + tget 0 s.cr.listRes (s.rx a).toNat < 4096) :
    exec (.wlapp m d a b) s = .next (past (.wlapp m d a b) s (((s.modRegion s.cc.regid fun g =>
      { g with listRes := tmod 0 g.listRes (s.rx a).toNat (· + 1) }).modMe
        fun c => { c with apps := c.apps ++ [((s.rx a).toNat, (s.rx b).setWidth 56)] }).wx d (resultQuad 0 0))) := by
  refine (hr.sched (e := execWlapp m d a b s) rfl rfl rfl).trans ?_
  dsimp only
  rw [if_neg (by omega), if_neg (by omega)]
  rfl

end

/-- What `wltake` makes of its list. -/
def State.takeItem (s : State) (d : Reg) (n : Nat) : List (BitVec 56) → Res
  | [] => s.answer d 4 0
  | w :: l =>
    let u := s.modRegion s.cc.regid fun g => { g with lists := tput g.lists n l, listRes := tmod 0 g.listRes n (· + 1) }
    (u.modMe fun c => { c with takes := c.takes ++ [(n, w)] }).answer d 0 w.toNat

theorem Ready.wltake_noList (hr : Ready s (.wltake m d a)) (h : 63 < (s.rx a).toNat) :
    exec (.wltake m d a) s = .next (past (.wltake m d a) s (s.wx d (resultQuad 8 0))) := by
  refine (hr.sched (e := execWltake m d a s) rfl rfl rfl).trans ?_
  dsimp only
  rw [if_pos h]
  rfl

theorem Ready.wltake (hr : Ready s (.wltake m d a)) (h : (s.rx a).toNat ≤ 63) : exec (.wltake m d a) s =
    .next (s.settleRes (formOf (.wltake m d a) s)
      (s.takeItem d (s.rx a).toNat (tget [] s.cr.lists (s.rx a).toNat))) := by
  refine (hr.sched (e := execWltake m d a s) rfl rfl rfl).trans ?_
  dsimp only
  rw [if_neg (by omega)]
  rfl

end

/-- Settles O47: the clauses of each instruction are the cases of what it comes to. -/
theorem schedulingInstructions : Obligations.SchedulingInstructions := by
  intro s m d a b k
  refine ⟨fun hr => ?_, fun hr => ?_, fun hr => ?_, fun hr => ?_, fun hr => ?_, fun hr => ?_, fun hr => ?_, fun hr => ?_,
    fun hr => hr.sched (e := execQuies m d a s) rfl rfl rfl⟩
  · refine ⟨fun h => ?_, hr.launch_answers, fun ok => (hr.launch_inRange ok).1, fun ok => (hr.launch_inRange ok).2.1,
      fun u ok he hq ho hu => (hr.launch_inRange ok).2.2.2 u he hq ho hu, fun ok => (hr.launch_inRange ok).2.2.1⟩
    refine (hr.sched (e := execLaunch m d a b s) rfl rfl rfl).trans ?_
    dsimp only
    rw [if_pos h]
    rfl
  · refine ⟨fun h => ?_, fun e hy hc => ?_, fun hy hc => ?_, fun hy hc => ?_⟩
    · refine (hr.sched (e := execLwait m d a s) rfl rfl rfl).trans ?_
      rw [if_pos (by rw [h]; rfl)]
      rfl
    all_goals
      refine (hr.lwait hy).trans ?_
      rw [hc]
      rfl
  · refine ⟨fun e hc => ?_, fun hc => ?_, fun hc => ?_⟩ <;> refine hr.lpoll.trans ?_ <;> rw [hc] <;> rfl
  · refine ⟨fun h => ?_, hr.rcbq_own, hr.rcbq_unknown, hr.rcbq_admitted, hr.rcbq_waiting⟩
    refine (hr.sched (e := execRcbq m d a k s) rfl rfl rfl).trans ?_
    dsimp only
    rw [if_pos h]
    rfl
  · refine ⟨hr.spop_full, fun h hq => ?_, fun q h hq => ?_⟩ <;> refine (hr.spop h).trans ?_ <;> rw [hq] <;> rfl
  · refine ⟨hr.spush_misaligned, hr.spush_forbidden, fun u bs h hn hm hu => ⟨fun hfull => ?_, fun i w hi ho hp hw => ?_⟩⟩
    · refine hr.spush (r := u.answer d 2 0) h hn hm hu ?_ (fun w t hw => by cases hw)
      unfold State.pushItem
      cases hi : u.pushSlot (s.rx b).toNat u.cur.pick with
      | none => rfl
      | some i =>
        dsimp only
        rw [if_pos (hfull.resolve_left (by rw [hi]; exact Option.some_ne_none i))]
    · refine hr.spush (r := ((w.modRegion w.cc.regid fun g => { g with
        reserved := tmod 0 g.reserved (s.rx b).toNat (· + 1) }).modMe fun c => { c with
          pushes := c.pushes ++ [{ stage := (s.rx b).toNat, slot := i, data := bs }] }).answer d 0 0) h hn hm hu ?_ (fun w t hw => by cases hw)
      unfold State.pushItem
      rw [hi]
      dsimp only
      rw [if_neg (by omega), hw]
  · exact ⟨hr.wlapp_noList, hr.wlapp_full, hr.wlapp⟩
  · refine ⟨hr.wltake_noList, fun h hl => ?_, fun w l h hl => ?_⟩ <;> refine (hr.wltake h).trans ?_ <;> rw [hl] <;> rfl

end Sys2Proof.Machine
end

section
/-! PROOFS. The ends of a task: `tret`, `tend` and `yield` (R23, R183, R217, R342, R344, R347). -/

namespace Sys2Proof.Machine

section
variable {s : State} {m : Mods} {d a b : Reg}

/-! ## tret -/

theorem Ready.tret (hr : Ready s (.tret m d a b)) {u : State} {status : Nat}
    (h : s.claimTrap ((s.rx a).toNat % 2 ^ 32) (s.rx b).toNat = (u, status)) :
    exec (.tret m d a b) s = .next (past (.tret m d a b) s (u.wx d (resultQuad status 0))) := by
  refine (hr.run (e := execTret m d a b s) rfl rfl rfl).trans ?_
  rw [h]
  rfl

section
variable {id action : Nat}

theorem State.claimTrap_bad (h : s.cr.traps.find? (fun t => t.trapid % 2 ^ 32 == id) = none ∨ 2 < action) :
    s.claimTrap id action = (s, 8) := by
  unfold State.claimTrap
  cases hf : s.cr.traps.find? (fun t => t.trapid % 2 ^ 32 == id) with
  | none => rfl
  | some t =>
    dsimp only
    rw [if_pos (h.resolve_left (by rw [hf]; exact Option.some_ne_none t))]

section
variable {t : Unanswered} (hf : s.cr.traps.find? (fun t => t.trapid % 2 ^ 32 == id) = some t) (ha : action ≤ 2)
include hf ha

theorem State.claimTrap_taken (h : t.claim ≠ none) (h' : t.claim ≠ some s.cc.taskid) : s.claimTrap id action = (s, 2) := by
  unfold State.claimTrap
  rw [hf]
  dsimp only
  rw [if_neg (by omega), if_pos ⟨Option.isSome_iff_ne_none.mpr h, h'⟩]

theorem State.claimTrap_free (h : t.claim = none ∨ t.claim = some s.cc.taskid) : s.claimTrap id action =
    ((s.modRegion s.cc.regid fun r =>
        { r with traps := r.traps.map fun x => if x.trapid = t.trapid then { x with claim := some s.cc.taskid } else x }).modMe
      fun c => { c with claims := (c.claims.filter fun x => x.trapid != t.trapid) ++
                                    [{ trapid := t.trapid, action := action }] }, 0) := by
  unfold State.claimTrap
  rw [hf]
  dsimp only
  rw [if_neg (by omega), if_neg]
  rintro ⟨hs, hn⟩
  exact h.elim (Option.isSome_iff_ne_none.mp hs) hn

end
end

/-! ## tend and yield -/

theorem State.releaseLine_cur (k : Nat) : (s.releaseLine k).cur = s.cur := by
  unfold State.releaseLine
  cases (s.ctx k).alr <;> rfl

/-- All engines are at `tend` as the last one comes to it. -/
theorem Ctx.atTend_iff (c : Ctx) (g : Eng) : ((c.modEng g fun x => { x with wait := .tend }).atTend = true) ↔
    ∀ e, e ≠ g → (c.eng e).wait = .tend := by
  unfold Ctx.atTend
  rw [List.all_eq_true]
  refine ⟨fun h e he => ?_, fun h e _ => ?_⟩
  · have := h e (by cases e <;> decide)
    rwa [Ctx.eng_modEng_other _ _ he, beq_iff_eq] at this
  · rw [beq_iff_eq]
    by_cases he : e = g
    · rw [he, Ctx.eng_modEng_same]
    · rw [Ctx.eng_modEng_other _ _ he, h e he]

/-- The task as an engine has come to its `tend`. -/
def State.comesToEnd (s : State) : State :=
  if s.cur.eng = .x then (s.abandonRegion s.me).modMe fun c => if c.st = .run then c.endYields else c else s

theorem State.comesToEnd_cur : s.comesToEnd.cur = s.cur := by
  unfold State.comesToEnd
  split
  · exact State.releaseLine_cur s.me
  · rfl

theorem Ready.tend (hr : Ready s .tend) : exec .tend s = .next (s.settleRes (formOf .tend s)
    (if (s.comesToEnd.cc.modEng s.cur.eng fun x => { x with wait := .tend }).atTend &&
        (!s.comesToEnd.cc.queuesEmpty || s.comesToEnd.cc.z.any fun p => p.2.bound)
      then .trap .qfault 0 0 s.comesToEnd else .wait .tend s.comesToEnd)) := by
  rw [← State.comesToEnd_cur]
  exact hr.run (e := execTend s) rfl rfl rfl

/-- The other engines are all at `tend`. -/
def State.endsLast (s : State) (g : Eng) : Prop := ∀ e, e ≠ g → (s.cc.eng e).wait = .tend

/-- A queue, a token FIFO or a stream is left. -/
def State.leaves (s : State) : Prop := s.cc.queuesEmpty = false ∨ ∃ p ∈ s.cc.z, p.2.bound = true

theorem State.leaves_iff : (!s.cc.queuesEmpty || s.cc.z.any fun p => p.2.bound) = true ↔ s.leaves := by
  rw [Bool.or_eq_true, Bool.not_eq_true', List.any_eq_true]
  rfl

theorem Ready.tend_traps (hr : Ready s .tend) (hl : s.comesToEnd.endsLast s.cur.eng) (hb : s.comesToEnd.leaves) :
    exec .tend s = .next (s.comesToEnd.trapHere .qfault) := by
  refine hr.tend.trans ?_
  rw [if_pos (Bool.and_eq_true_iff.mpr ⟨(Ctx.atTend_iff _ _).mpr hl, State.leaves_iff.mpr hb⟩)]
  rfl

theorem Ready.tend_waits (hr : Ready s .tend) (h : ¬(s.comesToEnd.endsLast s.cur.eng ∧ s.comesToEnd.leaves)) :
    exec .tend s = .next (s.comesToEnd.retireWait (formOf .tend s) .tend) := by
  refine hr.tend.trans ?_
  rw [if_neg (fun hc => h ((Bool.and_eq_true_iff.mp hc).imp (Ctx.atTend_iff _ _).mp State.leaves_iff.mp))]
  rfl

/-- Settles O49. -/
theorem endsOfATask : Obligations.EndsOfATask := by
  intro s m d a b
  refine ⟨fun hr => ⟨fun h => ?_, fun t hf ha h h' => ?_, fun t hf ha h => ?_⟩, fun hr => ⟨fun hl hb => ?_, fun h => ?_⟩,
    fun hr => ⟨fun h => ?_, fun h => ?_⟩⟩
  · exact hr.tret (State.claimTrap_bad h)
  · exact hr.tret (State.claimTrap_taken hf ha h h')
  · exact hr.tret (State.claimTrap_free hf ha h)
  · exact hr.tend_traps hl hb
  · exact hr.tend_waits h
  · refine (hr.run (e := execYield s) rfl rfl rfl).trans ?_
    dsimp only
    rw [if_neg (by rw [h]; exact Bool.false_ne_true)]
    rfl
  · refine (hr.run (e := execYield s) rfl rfl rfl).trans ?_
    dsimp only
    rw [if_pos h]
    rfl

end

end Sys2Proof.Machine
end

section
/-! PROOFS. The operations on the table of prefixes (R292-R294, R297). -/

namespace Sys2Proof.Machine

/-- A fold of steps that keep a part of the machine keeps it. -/
theorem foldl_keeps {σ α β : Type} (g : σ → β) {f : σ → α → σ} (h : ∀ s a, g (f s a) = g s) (l : List α) (s : σ) :
    g (l.foldl f s) = g s := by
  induction l generalizing s with
  | nil => rfl
  | cons a l ih => exact (ih (f s a)).trans (h s a)

/-- Records of uncorrectable words are all that a fold of their events adds. -/
theorem State.wordEvents_eq (part core : Nat) (trapped : Bool) (l : List Nat) (s : State) :
    ∃ b d, l.foldl (fun t _ => t.wordEvent part core trapped) s = { s with box := b, draws := d } := by
  induction l generalizing s with
  | nil => exact ⟨s.box, s.draws, rfl⟩
  | cons a l ih =>
    obtain ⟨b, d, h⟩ := ih (s.wordEvent part core trapped)
    exact ⟨b, d, h⟩

/-- A read of the scratchpad at issue counts the uncorrectable words that it delivers, and changes nothing else. -/
theorem State.readLocal_eq {s u : State} {a n : Nat} {bs : List Byte} (h : s.readLocal a n = .ok (u, bs)) :
    u = s ∨ ∃ b d j, u = ({ s with box := b, draws := d } : State).modMe (·.poisoned j) := by
  have hd : ∀ p : State × Bool, p = s.deliverWords s.me s.cur.core s.cur.eng s.ce.pc a a n → p.2 = true →
      p.1 = s ∨ ∃ b d j, p.1 = ({ s with box := b, draws := d } : State).modMe (·.poisoned j) := by
    rintro p rfl h2
    unfold State.deliverWords at h2 ⊢
    dsimp only at h2 ⊢
    by_cases hb : s.badWords s.cur.core a n = []
    · rw [if_pos hb]
      exact .inl rfl
    · rw [if_neg hb] at h2 ⊢
      by_cases hp : (s.ctx s.me).pol = true
      · rw [if_pos hp] at h2
        cases h2
      · rw [if_neg hp]
        obtain ⟨b, d, hw⟩ := State.wordEvents_eq (s.ctx s.me).part s.cur.core false (s.badWords s.cur.core a n) s
        refine .inr ⟨b, d, (s.badWords s.cur.core a n).length, ?_⟩
        rw [hw]
        rfl
  unfold State.readLocal at h
  dsimp only at h
  split at h
  · cases h
  · split at h
    · cases h
    · split at h
      · cases h
      · generalize s.deliverWords s.me s.cur.core s.cur.eng s.ce.pc a a n = p at h hd
        obtain ⟨t, go⟩ := p
        cases go with
        | false => cases h
        | true =>
          cases h
          exact hd _ rfl rfl

theorem State.readLocal_cur {s u : State} {a n : Nat} {bs : List Byte} (h : s.readLocal a n = .ok (u, bs)) : u.cur = s.cur := by
  obtain rfl | ⟨b, d, j, rfl⟩ := State.readLocal_eq h <;> rfl

theorem State.readLocal_cc {s u : State} {a n : Nat} {bs : List Byte} (h : s.readLocal a n = .ok (u, bs)) :
    ∃ j, u.cc = s.cc.poisoned j := by
  obtain rfl | ⟨b, d, j, rfl⟩ := State.readLocal_eq h
  · exact ⟨0, rfl⟩
  · exact ⟨j, State.modMe_cc _ _⟩

theorem Ctx.poisoned_part (c : Ctx) (j : Nat) : (c.poisoned j).part = c.part := by
  unfold Ctx.poisoned
  split <;> rfl

theorem State.readLocal_part {s u : State} {a n : Nat} {bs : List Byte} (h : s.readLocal a n = .ok (u, bs)) :
    u.cc.part = s.cc.part := by
  obtain ⟨j, hj⟩ := State.readLocal_cc h
  rw [hj, Ctx.poisoned_part]

/-- A ready operation on the table of prefixes settles what its effect comes to. -/
theorem Ready.prefixOp {i : Instr} {s : State} (hr : Ready s i) {e} {m : Mods} {d : Reg} {regs : List Reg} {f : State → Res}
    (he : exec i s = e) (h : e = pfxOp m d regs s f) (hf : formOf i s = { mods := m, cls := onX, regs := d :: regs }) :
    exec i s = .next (s.settleRes (formOf i s) (f s)) :=
  hr.run he h hf

/-! ## The deepest match -/

section
variable {t : Tab PfxEnt} {hs : List Quad}

theorem pfxFind_none_iff {h : Quad} {depth : Nat} : pfxFind t h depth = none ↔ ∀ p ∈ t, ¬(p.2.hash = h ∧ p.2.depth = depth) := by
  unfold pfxFind
  simp only [List.find?_eq_none, Bool.and_eq_true, beq_iff_eq]

theorem pfxMatch_none {n : Nat} (h : ∀ j, j < n → pfxFind t (hs.getD j 0) (j + 1) = none) : pfxMatch t hs n = none := by
  induction n with
  | zero => rfl
  | succ n ih =>
    unfold pfxMatch
    rw [h n (Nat.lt_succ_self n)]
    exact ih fun j hj => h j (Nat.lt_succ_of_lt hj)

theorem pfxMatch_some {n j : Nat} {p : Nat × PfxEnt} (hj : j < n) (hp : pfxFind t (hs.getD j 0) (j + 1) = some p)
    (h : ∀ k, j < k → k < n → pfxFind t (hs.getD k 0) (k + 1) = none) : pfxMatch t hs n = some p := by
  induction n with
  | zero => exact absurd hj (Nat.not_lt_zero j)
  | succ n ih =>
    unfold pfxMatch
    rcases Nat.lt_succ_iff_lt_or_eq.mp hj with hlt | rfl
    · rw [h n hlt (Nat.lt_succ_self n)]
      exact ih hlt fun k hk hkn => h k hk (Nat.lt_succ_of_lt hkn)
    · rw [hp]

end

/-! ## Pins -/

/-- Where there is headroom for the control blocks, an operation that changes pins goes on with it. -/
theorem State.pinning_ok {s u t : State} {part : Nat} {l : List Nat} {f : State → Res} (h : s.pinRoom part l = some u)
    (hf : f u = .ok t) : s.pinning part l f = .ok t := by
  induction l generalizing s with
  | nil => cases h; exact hf
  | cons pa r ih =>
    unfold State.pinRoom at h
    unfold State.pinning
    cases hl : (s.seq pa).live with
    | false =>
      rw [hl, if_neg Bool.false_ne_true] at h
      exact ih h
    | true =>
      rw [hl, if_pos rfl] at h
      dsimp only
      rw [if_neg (by decide)]
      cases hb : s.reserveScb s.me (2 ^ 42 + r.length) part pa (s.seq pa).va with
      | error w => rw [hb] at h; cases h
      | ok w =>
        rw [hb] at h
        dsimp only
        rw [ih h]

section
variable {s : State} {m : Mods} {d a b c : Reg}

/-! ## The instructions -/

theorem Ready.pfxh (hr : Ready s (.pfxh m d a b)) {u : State} {toks : List Byte} (h : (s.rx b).toNat % 4 = 0)
    (hu : s.readLocal (s.rx b).toNat 64 = .ok (u, toks)) : exec (.pfxh m d a b) s =
      .next (past (.pfxh m d a b) s (u.wx d (quadN (leNat ((sha256
        (leBytes 32 u.cr.salt.toNat ++ leBytes 8 (u.rx a).toNat ++ toks)).take 8))))) := by
  refine (hr.prefixOp (e := execPfxh m d a b s) rfl rfl rfl).trans ?_
  dsimp only
  rw [if_neg (not_not.mpr h), readThen_ok hu rfl (fun w t hw => by cases hw)]
  rfl

/-- What `pfxl` makes of its match. -/
def State.matched (u : State) (d : Reg) (part : Nat) : Option (Nat × PfxEnt) → Res
  | none => u.pfxDone d 0 0
  | some (i, e) =>
    if e.pins = 65535 then u.pfxDone d 2 0
    else
      (u.modPart part fun p =>
        { p with prefixes := tput p.prefixes i { e with pins := e.pins + 1 }, recency := recent p.recency i }).pfxDone d 0
        (i * 256 + e.depth)

theorem State.matched_ne_stall (u : State) (d : Reg) (part : Nat) (o : Option (Nat × PfxEnt)) (w : Stall) (t : State) :
    u.matched d part o ≠ .stall w t := by
  intro h
  cases o with
  | none => cases h
  | some p =>
    unfold State.matched at h
    dsimp only at h
    split at h <;> cases h

/-- The chain hashes that `pfxl` reads. -/
def chainHashes (bs : List Byte) (n : Nat) : List Quad := (List.range n).map fun i => quadN (leNat ((bs.drop (8 * i)).take 8))

theorem chainHashes_getD (bs : List Byte) {n j : Nat} (h : j < n) :
    (chainHashes bs n).getD j 0 = quadN (leNat ((bs.drop (8 * j)).take 8)) := by
  simp [chainHashes, List.getD_eq_getElem?_getD, h]

theorem Ready.pfxl (hr : Ready s (.pfxl m d a b)) {u : State} {bs : List Byte} (h : (s.rx a).toNat % 8 = 0)
    (h0 : (s.rx b).toNat ≠ 0) (h64 : (s.rx b).toNat ≤ 64) (hu : s.readLocal (s.rx a).toNat (8 * (s.rx b).toNat) = .ok (u, bs)) :
    exec (.pfxl m d a b) s = .next (s.settleRes (formOf (.pfxl m d a b) s) (u.matched d s.cc.part
      (pfxMatch (u.partn s.cc.part).prefixes (chainHashes bs (s.rx b).toNat) (s.rx b).toNat))) := by
  refine (hr.prefixOp (e := execPfxl m d a b s) rfl rfl rfl).trans ?_
  dsimp only
  rw [if_neg (not_not.mpr h), if_neg (by omega), ← State.readLocal_part hu]
  exact congrArg (fun x => Host.Outcome.next (s.settleRes _ x)) (readThen_ok hu
    (by unfold State.matched chainHashes; rfl) (State.matched_ne_stall u d u.cc.part _))

/-- An operation that comes to an answer goes on past it. -/
theorem State.answered {i : Instr} {r : Res} {u : State} {status value : Nat}
    (h : exec i s = .next (s.settleRes (formOf i s) r)) (hr : r = u.pfxDone d status value) :
    exec i s = .next (past i s (u.wx d (resultQuad status value))) := by
  rw [h, hr]
  rfl

/-- What an instruction that names an entry of the table comes to. -/
def State.onEntry (s : State) (d : Reg) (f : PfxEnt → Res) : Option PfxEnt → Res
  | none => s.pfxDone d 8 0
  | some e => f e

section
variable {i : Instr} {x : Quad} {f : PfxEnt → Res}
  (h : exec i s = .next (s.settleRes (formOf i s) (s.onEntry d f (s.pfxEntry x))))
include h

theorem State.entry_none (he : s.pfxEntry x = none) : exec i s = .next (past i s (s.wx d (resultQuad 8 0))) := by
  rw [h, he]
  rfl

theorem State.entry_some {e : PfxEnt} {u : State} {status value : Nat} (he : s.pfxEntry x = some e)
    (hf : f e = u.pfxDone d status value) : exec i s = .next (past i s (u.wx d (resultQuad status value))) := by
  refine State.answered h ?_
  rw [he]
  exact hf

end

theorem Ready.pfxlH (hr : Ready s (.pfxlH m d a)) : exec (.pfxlH m d a) s =
    .next (s.settleRes (formOf (.pfxlH m d a) s) (s.onEntry d (fun e => s.pfxDone d 0 e.handle) (s.pfxEntry (s.rx a)))) := by
  refine (hr.prefixOp (e := execPfxlH m d a s) rfl rfl rfl).trans ?_
  cases s.pfxEntry (s.rx a) <;> rfl

theorem Ready.pfxlS (hr : Ready s (.pfxlS m d a)) : exec (.pfxlS m d a) s =
    .next (s.settleRes (formOf (.pfxlS m d a) s)
      (s.onEntry d (fun e => s.pfxDone d 0 (e.depth * 2 ^ 40 + e.base)) (s.pfxEntry (s.rx a)))) := by
  refine (hr.prefixOp (e := execPfxlS m d a s) rfl rfl rfl).trans ?_
  cases s.pfxEntry (s.rx a) <;> rfl

/-- What `pfxd` makes of its entry. -/
def State.deletes (s : State) (d : Reg) (n : Nat) (e : PfxEnt) : Res :=
  if 0 < e.pins then s.pfxDone d 2 0
  else
    s.pinning s.cc.part [e.scb] fun u =>
      ((u.unpinSeq e.scb).modPart s.cc.part fun p =>
        { p with prefixes := tdel p.prefixes n, recency := p.recency.filter (· != n) }).pfxDone d 0 n

theorem Ready.pfxd (hr : Ready s (.pfxd m d a)) : exec (.pfxd m d a) s =
    .next (s.settleRes (formOf (.pfxd m d a) s) (s.onEntry d (s.deletes d (s.rx a).toNat) (s.pfxEntry (s.rx a)))) := by
  refine (hr.prefixOp (e := execPfxd m d a s) rfl rfl rfl).trans ?_
  cases s.pfxEntry (s.rx a) <;> rfl

/-- What `pfxd.u` makes of its entry. -/
def State.unpins (s : State) (d : Reg) (n : Nat) (e : PfxEnt) : Res :=
  if e.pins = 0 then s.pfxDone d 8 0
  else (s.modPart s.cc.part fun p => { p with prefixes := tput p.prefixes n { e with pins := e.pins - 1 } }).pfxDone d 0 (e.pins - 1)

theorem Ready.pfxdU (hr : Ready s (.pfxdU m d a)) : exec (.pfxdU m d a) s =
    .next (s.settleRes (formOf (.pfxdU m d a) s) (s.onEntry d (s.unpins d (s.rx a).toNat) (s.pfxEntry (s.rx a)))) := by
  refine (hr.prefixOp (e := execPfxdU m d a s) rfl rfl rfl).trans ?_
  cases s.pfxEntry (s.rx a) <;> rfl

/-- An entry that enters the table of the partition, or is used there, as its most recent one. -/
def State.usesEntry (s : State) (part i : Nat) (e : PfxEnt) : State :=
  s.modPart part fun p => { p with prefixes := tput p.prefixes i e, recency := p.recency.filter (· != i) ++ [i] }

/-- The pins that an insertion in place of entry `old` moves to the sequence at `scb`. -/
def State.movesPin (s : State) (old : Option PfxEnt) (scb : Nat) : State :=
  State.pinSeq (match old with | some e => s.unpinSeq e.scb | none => s) scb

section
variable {ps : List Part} (hr : Ready s (.pfxi m d a b c)) (hps : s.handle false (s.rx b).toNat = .ok ps)

/-- What `pfxi` makes of a depth and a control block. -/
def State.inserts (s : State) (d : Reg) (hash : Quad) (va scb depth base : Nat) : Res :=
  if depth = 0 ∨ 64 < depth then s.pfxDone d 8 0
  else if !(s.seq scb).live then s.pfxDone d 7 0
  else
    match pfxFind (s.partn s.cc.part).prefixes hash depth with
    | some p => s.pfxDone d 10 p.1
    | none =>
      if (s.seq scb).pin = 65535 then s.pfxDone d 2 0
      else
        match pfxPlace (s.partn s.cc.part) with
        | none => s.pfxDone d 2 0
        | some i =>
          s.pinning s.cc.part (((tfind (s.partn s.cc.part).prefixes i).map (·.scb)).toList ++ [scb]) fun u =>
            ((u.movesPin (tfind (s.partn s.cc.part).prefixes i) scb).usesEntry s.cc.part i
              { hash := hash, depth := depth, handle := va, scb := scb, base := base, pins := 0 }).pfxDone d 0 i

include hr hps in
theorem Ready.pfxi : exec (.pfxi m d a b c) s = .next (s.settleRes (formOf (.pfxi m d a b c) s)
    (s.inserts d (s.rx a) (s.rx b).toNat (reachAddr (.ok ps)) (bits (s.rx c).toNat 47 40) (bits (s.rx c).toNat 39 0))) := by
  refine (hr.prefixOp (e := execPfxi m d a b c s) rfl rfl rfl).trans ?_
  dsimp only
  rw [hps]
  unfold State.inserts State.movesPin State.usesEntry
  rfl

section
variable {hash : Quad} {va scb depth base : Nat}

theorem State.inserts_outside (h : depth = 0 ∨ 64 < depth) : s.inserts d hash va scb depth base = s.pfxDone d 8 0 := by
  unfold State.inserts
  rw [if_pos h]

section
variable (h0 : 0 < depth) (h64 : depth ≤ 64)
include h0 h64

theorem State.inserts_dead (h : (s.seq scb).live = false) : s.inserts d hash va scb depth base = s.pfxDone d 7 0 := by
  unfold State.inserts
  rw [if_neg (by omega), if_pos (by rw [h]; rfl)]

section
variable (hl : (s.seq scb).live = true)
include hl

theorem State.inserts_same {p : Nat × PfxEnt} (h : pfxFind (s.partn s.cc.part).prefixes hash depth = some p) :
    s.inserts d hash va scb depth base = s.pfxDone d 10 p.1 := by
  unfold State.inserts
  rw [if_neg (by omega), if_neg (by rw [hl]; decide), h]

section
variable (hn : pfxFind (s.partn s.cc.part).prefixes hash depth = none)
include hn

theorem State.inserts_full (h : (s.seq scb).pin = 65535 ∨ pfxPlace (s.partn s.cc.part) = none) :
    s.inserts d hash va scb depth base = s.pfxDone d 2 0 := by
  unfold State.inserts
  rw [if_neg (by omega), if_neg (by rw [hl]; decide), hn]
  by_cases hp : (s.seq scb).pin = 65535
  · dsimp only
    rw [if_pos hp]
  · dsimp only
    rw [if_neg hp, h.resolve_left hp]

theorem State.inserts_done {i : Nat} {u : State} (hp : (s.seq scb).pin ≠ 65535) (hi : pfxPlace (s.partn s.cc.part) = some i)
    (hu : s.pinRoom s.cc.part (((tfind (s.partn s.cc.part).prefixes i).map (·.scb)).toList ++ [scb]) = some u) :
    s.inserts d hash va scb depth base = ((u.movesPin (tfind (s.partn s.cc.part).prefixes i) scb).usesEntry s.cc.part i
      { hash := hash, depth := depth, handle := va, scb := scb, base := base, pins := 0 }).pfxDone d 0 i := by
  unfold State.inserts
  rw [if_neg (by omega), if_neg (by rw [hl]; decide), hn]
  dsimp only
  rw [if_neg hp, hi]
  exact State.pinning_ok hu rfl

end
end
end
end
end

/-- Settles O46: each clause is a case of what its operation comes to. -/
theorem prefixTableOperations : Obligations.PrefixTableOperations := by
  intro s m d a b c
  refine ⟨fun hr => ⟨fun h => ?_, fun u toks => hr.pfxh⟩, fun hr => ⟨fun h => ?_, fun h hn => ?_, fun u bs h h0 h64 hu => ⟨fun hm => ?_,
    fun j i e hj he hm => ⟨fun hp => ?_, fun hp => ?_⟩⟩⟩, fun hr => ⟨fun h => ?_, fun e h => ?_⟩, fun hr => ⟨fun h => ?_, fun e h => ?_⟩,
    fun hr ps hps => ⟨fun h => ?_, fun h0 h64 hl => ?_, fun p h0 h64 hl hp => ?_, fun h0 h64 hl hn h => ?_, fun i u h0 h64 hl hn hp hi hu => ?_⟩,
    fun hr => ⟨fun h => ?_, fun e h hp => ?_, fun e u h hp hu => ?_⟩, fun hr => ⟨fun h => ?_, fun e h hp => ?_, fun e h hp => ?_⟩⟩
  · refine (hr.prefixOp (e := execPfxh m d a b s) rfl rfl rfl).trans ?_
    dsimp only
    rw [if_pos h]
    rfl
  · refine (hr.prefixOp (e := execPfxl m d a b s) rfl rfl rfl).trans ?_
    dsimp only
    rw [if_pos h]
    rfl
  · refine (hr.prefixOp (e := execPfxl m d a b s) rfl rfl rfl).trans ?_
    dsimp only
    rw [if_neg (not_not.mpr h), if_pos hn]
    rfl
  · refine (hr.pfxl h h0 h64 hu).trans ?_
    rw [pfxMatch_none fun j hj => pfxFind_none_iff.mpr (by rw [chainHashes_getD bs hj]; exact hm j hj)]
    rfl
  · refine (hr.pfxl h h0 h64 hu).trans ?_
    rw [pfxMatch_some hj (by rw [chainHashes_getD bs hj]; exact he)
      fun k hk hkn => pfxFind_none_iff.mpr (by rw [chainHashes_getD bs hkn]; exact hm k hk hkn)]
    unfold State.matched
    dsimp only
    rw [if_pos hp]
    rfl
  · refine (hr.pfxl h h0 h64 hu).trans ?_
    rw [pfxMatch_some hj (by rw [chainHashes_getD bs hj]; exact he)
      fun k hk hkn => pfxFind_none_iff.mpr (by rw [chainHashes_getD bs hkn]; exact hm k hk hkn)]
    unfold State.matched
    dsimp only
    rw [if_neg hp]
    rfl
  · exact State.entry_none hr.pfxlH h
  · exact State.entry_some hr.pfxlH h rfl
  · exact State.entry_none hr.pfxlS h
  · exact State.entry_some hr.pfxlS h rfl
  · exact State.answered (hr.pfxi hps) (State.inserts_outside h)
  · exact State.answered (hr.pfxi hps) (State.inserts_dead h0 h64 hl)
  · exact State.answered (hr.pfxi hps) (State.inserts_same h0 h64 hl hp)
  · exact State.answered (hr.pfxi hps) (State.inserts_full h0 h64 hl hn h)
  · refine State.answered (hr.pfxi hps) ((State.inserts_done h0 h64 hl hn hp hi hu).trans ?_)
    unfold State.usesEntry State.movesPin
    rfl
  · exact State.entry_none hr.pfxd h
  · exact State.entry_some hr.pfxd h (if_pos hp)
  · exact State.entry_some hr.pfxd h ((if_neg (by omega)).trans (State.pinning_ok hu rfl))
  · exact State.entry_none hr.pfxdU h
  · exact State.entry_some hr.pfxdU h (if_pos hp)
  · exact State.entry_some hr.pfxdU h (if_neg (by omega))

end

end Sys2Proof.Machine
end

section
/-! PROOFS. Lane macros enter the queues of their lanes (R220-R232, R353, R354). -/

namespace Sys2Proof.Machine

/-! ## What a lane command may change before it enters -/

theorem Ctx.poisoned_taskid (c : Ctx) (j : Nat) : (c.poisoned j).taskid = c.taskid := by
  unfold Ctx.poisoned
  split <;> rfl

theorem Ctx.poisoned_nextId (c : Ctx) (j : Nat) : (c.poisoned j).nextId = c.nextId := by
  unfold Ctx.poisoned
  split <;> rfl

/-- The machine on its way to the queues of lanes: the place of the command and the lanes are as they were. -/
def State.OnItsWay (s u : State) : Prop :=
  u.cur = s.cur ∧ u.lanes = s.lanes ∧ u.cc.engs = s.cc.engs ∧ u.cc.taskid = s.cc.taskid ∧ u.cc.nextId = s.cc.nextId

section
variable {s u w : State}

theorem State.OnItsWay.refl (s : State) : s.OnItsWay s := ⟨rfl, rfl, rfl, rfl, rfl⟩

theorem State.OnItsWay.trans (h : s.OnItsWay u) (h' : u.OnItsWay w) : s.OnItsWay w := by
  obtain ⟨h1, h2, h3, h4, h5⟩ := h
  obtain ⟨k1, k2, k3, k4, k5⟩ := h'
  exact ⟨k1.trans h1, k2.trans h2, k3.trans h3, k4.trans h4, k5.trans h5⟩

theorem State.OnItsWay.of_readLocal {a n : Nat} {bs : List Byte} (h : s.readLocal a n = .ok (u, bs)) : s.OnItsWay u := by
  have hl : u.lanes = s.lanes := by obtain rfl | ⟨b, d, j, rfl⟩ := State.readLocal_eq h <;> rfl
  obtain ⟨j, hj⟩ := State.readLocal_cc h
  exact ⟨State.readLocal_cur h, hl, by rw [hj, Ctx.poisoned_engs], by rw [hj, Ctx.poisoned_taskid],
    by rw [hj, Ctx.poisoned_nextId]⟩

theorem State.OnItsWay.of_readTile {stride n t a : Nat} {bs : List Byte} (h : s.readTile a stride n t = .ok (u, bs)) :
    s.OnItsWay u := by
  induction t generalizing s a bs with
  | zero => cases h; exact .refl _
  | succ t ih =>
    unfold State.readTile at h
    cases h1 : s.readLocal a n with
    | error r => rw [h1] at h; cases h
    | ok p =>
      obtain ⟨s1, b⟩ := p
      rw [h1] at h
      dsimp only at h
      cases h2 : s1.readTile (a + stride) stride n t with
      | error r => rw [h2] at h; cases h
      | ok q =>
        obtain ⟨s2, b2⟩ := q
        rw [h2] at h
        cases h
        exact (State.OnItsWay.of_readLocal h1).trans (ih h2)

variable (h : s.OnItsWay u)
include h

theorem State.OnItsWay.me : u.me = s.me := by
  unfold State.me
  rw [h.1]

theorem State.OnItsWay.pos : u.pos = s.pos := by
  obtain ⟨hcur, -, hengs, -⟩ := h
  have hce : u.ce = s.ce := by unfold State.ce Ctx.eng; rw [hengs, hcur]
  unfold State.pos
  rw [hce]

theorem State.OnItsWay.lane (n : Nat) : u.lane n = s.lane n := by
  unfold State.lane
  rw [h.2.1]

end

/-! ## The push -/

/-- The entry of a lane command for the lane of a role. -/
def State.macroEnt (s : State) (mk : Nat → Macro) (role : Nat) : LaneEnt :=
  { ctx := s.me, taskid := s.cc.taskid, pos := s.pos, cmd := mk role, id := s.cc.nextId }

/-- A lane that a command has been pushed to. -/
def State.pushedLane (s : State) (l : Lane) (e : LaneEnt) : Lane :=
  if s.cur.hold || l.flight.any (·.ctx == s.me) then { l with flight := l.flight ++ [e] } else l.enter e

theorem State.OnItsWay.macroEnt {s u : State} (h : s.OnItsWay u) (mk : Nat → Macro) (role : Nat) :
    u.macroEnt mk role = s.macroEnt mk role := by
  have hme := h.me
  have hpos := h.pos
  obtain ⟨-, -, -, htask, hid⟩ := h
  unfold State.macroEnt
  rw [hme, hpos, htask, hid]

theorem State.OnItsWay.pushedLane {s u : State} (h : s.OnItsWay u) (l : Lane) (e : LaneEnt) :
    u.pushedLane l e = s.pushedLane l e := by
  unfold State.pushedLane
  rw [h.me, h.1]

section
variable {s : State} {mk : Nat → Macro}

theorem State.lane_setLane_same (t : State) (n : Nat) (l : Lane) : (t.setLane n l).lane n = l := tget_tput_same ..

theorem State.lane_setLane_other (t : State) {n k : Nat} (l : Lane) (h : k ≠ n) : (t.setLane n l).lane k = t.lane k :=
  tget_tput_other _ _ _ h

/-- The pushes to a list of lanes, one after another. -/
def State.pushOnto (s : State) (mk : Nat → Macro) (t : State) (ls : List (Nat × Nat)) : State :=
  ls.foldl (fun t p => t.setLane p.2 (s.pushedLane (t.lane p.2) (s.macroEnt mk p.1))) t

theorem State.pushMacro_eq (ls : List (Nat × Nat)) : s.pushMacro ls mk = s.pushOnto mk s ls := by
  unfold State.pushMacro State.pushOnto State.pushedLane State.macroEnt
  rfl

theorem State.pushOnto_keeps {β : Type} (g : State → β) (hg : ∀ (t : State) n l, g (t.setLane n l) = g t) (t : State)
    (ls : List (Nat × Nat)) : g (s.pushOnto mk t ls) = g t := by
  unfold State.pushOnto
  exact foldl_keeps g (fun (t : State) (p : Nat × Nat) => hg t p.2 _) ls t

theorem State.pushOnto_lane_other (t : State) {ls : List (Nat × Nat)} {n : Nat} (h : n ∉ ls.map (·.2)) :
    (s.pushOnto mk t ls).lane n = t.lane n := by
  induction ls generalizing t with
  | nil => rfl
  | cons p ls ih =>
    obtain ⟨hp, hls⟩ := not_or.mp (mt List.mem_cons.mpr h)
    exact (ih _ hls).trans (State.lane_setLane_other t _ hp)

theorem State.pushOnto_lane (t : State) {ls : List (Nat × Nat)} (hn : (ls.map (·.2)).Nodup) {p : Nat × Nat} (hp : p ∈ ls) :
    (s.pushOnto mk t ls).lane p.2 = s.pushedLane (t.lane p.2) (s.macroEnt mk p.1) := by
  induction ls generalizing t with
  | nil => cases hp
  | cons q ls ih =>
    obtain ⟨hq, hls⟩ := List.nodup_cons.mp hn
    rcases List.mem_cons.mp hp with rfl | hp
    · exact (State.pushOnto_lane_other _ hq).trans (State.lane_setLane_same t _ _)
    · have hne : p.2 ≠ q.2 := fun he => hq (List.mem_map.mpr ⟨p, hp, he⟩)
      exact (ih _ hls hp).trans (by rw [State.lane_setLane_other t _ hne])

theorem State.pushMacro_me (ls : List (Nat × Nat)) : (s.pushMacro ls mk).me = s.me := by
  rw [State.pushMacro_eq]
  exact State.pushOnto_keeps State.me (fun _ _ _ => rfl) s ls

theorem State.pushMacro_cc (ls : List (Nat × Nat)) : (s.pushMacro ls mk).cc = s.cc := by
  rw [State.pushMacro_eq]
  exact State.pushOnto_keeps State.cc (fun _ _ _ => rfl) s ls

end

/-! ## The macros -/

/-- The faults of a rule as an instruction answers them. -/
def ruleRes {α : Type} (s : State) : Except (Code × Nat) α → Except Res α
  | .error p => .error (.trap p.1 p.2 0 s)
  | .ok r => .ok r

theorem laneUnits_eq (ls : List (Nat × Nat)) :
    (fun u : DUnit => match u with | .lane n => ls.any (·.2 == n) | _ => false) = laneUnits ls := by
  funext u
  cases u <;> rfl

/-- What the obligation says of a lane command, where `go` is how the engine goes on with it pushed. -/
def LaneEnters (i : Instr) (s : State) (a : Reg) (go : State → List (Nat × Nat) → State) : Prop :=
  (s.targets (s.rx a) = none → exec i s = .next (s.trapHere .prot)) ∧
  ∀ g ls, s.targets (s.rx a) = some (g, ls) →
    (∀ d, s.deferred s.me (laneUnits ls) = some d → exec i s = .next (s.raiseDeferred s.me d)) ∧
    (s.deferred s.me (laneUnits ls) = none →
      (∀ c x, laneRule i s g ls = some (.error (c, x)) → exec i s = .next (s.trapHere c x)) ∧
      ∀ u mk, laneRule i s g ls = some (.ok (u, mk)) →
        ((∃ p ∈ ls, 64 ≤ (s.lane p.2).q.length + (s.lane p.2).flight.length) → exec i s = .next (s.stallHere .unit)) ∧
        ((∀ p ∈ ls, (s.lane p.2).q.length + (s.lane p.2).flight.length < 64) →
          exec i s = .next (go (u.pushMacro ls mk) ls)) ∧
        ((ls.map (·.2)).Nodup → ∀ p ∈ ls, (u.pushMacro ls mk).lane p.2 =
          if s.cur.hold = true ∨ (∃ f ∈ (s.lane p.2).flight, f.ctx = s.me)
            then { s.lane p.2 with flight := (s.lane p.2).flight ++ [s.macroEnt mk p.1] }
            else (s.lane p.2).enter (s.macroEnt mk p.1)))

section
variable {i : Instr} {s : State} {a : Reg} {f : State → Nat → List (Nat × Nat) → Except Res (State × (Nat → Macro))}
  {fin : State → List Nat → Res}

/-- What a lane command comes to with its targets known. -/
def State.onLanes (s : State) (f : State → Nat → List (Nat × Nat) → Except Res (State × (Nat → Macro)))
    (fin : State → List Nat → Res) (g : Nat) (ls : List (Nat × Nat)) : Res :=
  match s.deferred s.me (laneUnits ls) with
  | some d => .stay (s.raiseDeferred s.me d)
  | none =>
    match f s g ls with
    | .error r => r
    | .ok (u, mc) =>
      if ls.all fun p => decide ((s.lane p.2).q.length + (s.lane p.2).flight.length < 64) then
        fin (u.pushMacro ls mc) (ls.map (·.2))
      else .stall .unit s

/-- What a lane command comes to. -/
def State.laneRes (s : State) (a : Reg) (f : State → Nat → List (Nat × Nat) → Except Res (State × (Nat → Macro)))
    (fin : State → List Nat → Res) : Res :=
  match s.targets (s.rx a) with
  | none => .trap .prot 0 0 s
  | some (g, ls) => s.onLanes f fin g ls

theorem laneMacro_eq (m : Mods) (regs : List Reg) :
    laneMacro m a regs s f fin = issue { mods := m, cls := onC, regs := a :: regs } s fun t => t.laneRes a f fin := by
  have h : ∀ t : State, t.laneRes a f fin = match t.targets (t.rx a) with
      | none => .trap .prot 0 0 t
      | some (g, ls) =>
        match t.deferred t.me (fun u => match u with | .lane n => ls.any (·.2 == n) | _ => false) with
        | some d => .stay (t.raiseDeferred t.me d)
        | none =>
          match f t g ls with
          | .error r => r
          | .ok (u, mc) =>
            if ls.all fun p => decide ((t.lane p.2).q.length + (t.lane p.2).flight.length < 64) then
              fin (u.pushMacro ls mc) (ls.map (·.2))
            else .stall .unit t := by
    intro t
    unfold State.laneRes State.onLanes
    simp only [laneUnits_eq]
  simp only [h]
  rfl

variable (hr : Ready s i) {e} {m : Mods} {regs : List Reg} (he : exec i s = e) (h : e = laneMacro m a regs s f fin)
  (hf : formOf i s = { mods := m, cls := onC, regs := a :: regs })
include hr he h hf

theorem Ready.runsMacro : exec i s = .next (s.settleRes (formOf i s) (s.laneRes a f fin)) :=
  hr.run he (h.trans (laneMacro_eq m regs)) hf

variable (hrule : ∀ g ls r, laneRule i s g ls = some r → f s g ls = ruleRes s r)
  (hway : ∀ g ls u mk, laneRule i s g ls = some (.ok (u, mk)) → s.OnItsWay u)
  {go : State → List (Nat × Nat) → State}
  (hgo : ∀ v ls, v.me = s.me → v.cc.nextId = s.cc.nextId → s.settleRes (formOf i s) (fin v (ls.map (·.2))) = go v ls)
include hrule hway hgo

/-- A lane command does what its rule says. -/
theorem Ready.laneEnters : LaneEnters i s a go := by
  have hrun := hr.runsMacro he h hf
  refine ⟨fun ht => ?_, fun g ls ht => ?_⟩
  · rw [hrun]
    unfold State.laneRes
    rw [ht]
    rfl
  have hon : exec i s = .next (s.settleRes (formOf i s) (s.onLanes f fin g ls)) := by
    rw [hrun]
    unfold State.laneRes
    rw [ht]
  refine ⟨fun d hd => ?_, fun hd => ⟨fun c x hl => ?_, fun u mk hl => ⟨?_, fun hroom => ?_, fun hn p hp => ?_⟩⟩⟩
  · rw [hon]
    unfold State.onLanes
    rw [hd]
    rfl
  · rw [hon]
    unfold State.onLanes
    rw [hd, hrule g ls _ hl]
    rfl
  · rintro ⟨p, hp, hfull⟩
    rw [hon]
    unfold State.onLanes
    rw [hd, hrule g ls _ hl]
    unfold ruleRes
    dsimp only
    rw [if_neg]
    · rfl
    · rw [List.all_eq_true]
      exact fun hall => absurd (of_decide_eq_true (hall p hp)) (by omega)
  · rw [hon]
    unfold State.onLanes
    rw [hd, hrule g ls _ hl]
    unfold ruleRes
    dsimp only
    rw [if_pos (List.all_eq_true.mpr fun p hp => decide_eq_true (hroom p hp)), hgo]
    · rw [State.pushMacro_me, (hway g ls u mk hl).me]
    · obtain ⟨-, -, -, -, hid⟩ := hway g ls u mk hl
      rw [State.pushMacro_cc, hid]
  · have hw := hway g ls u mk hl
    rw [State.pushMacro_eq, State.pushOnto_lane u hn hp, hw.lane, hw.macroEnt, hw.pushedLane]
    unfold State.pushedLane
    simp only [Bool.or_eq_true, List.any_eq_true, beq_iff_eq]

end

/-! ## Each of the macros -/

/-- The engine goes on past a lane command, or waits for the queues that it is on its way to. -/
def State.afterMacro (i : Instr) (s v : State) : State :=
  if v.macroFlying s.me s.cc.nextId then pastEntered i s v else past i s v

theorem State.settles_pushed {i : Instr} {s v : State} (hm : v.me = s.me) (hid : v.cc.nextId = s.cc.nextId) :
    s.settleRes (formOf i s) v.pushed = s.afterMacro i v := by
  unfold State.pushed State.afterMacro
  rw [hm, hid]
  split <;> rfl

section
variable {s : State} {m : Mods} {a b c : Reg}

theorem Ready.lcfg (hr : Ready s (.lcfg m a b)) : LaneEnters (.lcfg m a b) s a fun v _ => s.afterMacro (.lcfg m a b) v :=
  hr.laneEnters (e := execLcfg m a b s) rfl rfl rfl (fun g ls r h => by cases h; rfl)
    (fun g ls u mc h => by cases h; exact .refl s) fun v ls => State.settles_pushed

theorem Ready.lfence (hr : Ready s (.lfence m a)) : LaneEnters (.lfence m a) s a fun v ls =>
    v.retireWait (formOf (.lfence m a) s) (.lfence (ls.map (·.2)) s.cc.nextId) :=
  hr.laneEnters (e := execLfence m a s) rfl rfl rfl (fun g ls r h => by cases h; rfl)
    (fun g ls u mc h => by cases h; exact .refl s) fun v ls hm hid => by rw [hid]; rfl

theorem Ready.lsync (hr : Ready s (.lsync m a)) : LaneEnters (.lsync m a) s a fun v _ => s.afterMacro (.lsync m a) v :=
  hr.laneEnters (e := execLsync m a s) rfl rfl rfl (fun g ls r h => by cases h; rfl)
    (fun g ls u mc h => by cases h; exact .refl s) fun v ls => State.settles_pushed

theorem Ready.laccz (hr : Ready s (.laccz m a)) : LaneEnters (.laccz m a) s a fun v _ => s.afterMacro (.laccz m a) v :=
  hr.laneEnters (e := execLaccz m a s) rfl rfl rfl (fun g ls r h => by cases h; rfl)
    (fun g ls u mc h => by cases h; exact .refl s) fun v ls => State.settles_pushed

theorem Ready.lmac {z : BitVec 1} (hr : Ready s (.lmac m a b z)) :
    LaneEnters (.lmac m a b z) s a fun v _ => s.afterMacro (.lmac m a b z) v := by
  refine hr.laneEnters (e := execLmac m a b z s) rfl rfl rfl (fun g ls r h => ?_) (fun g ls u mc h => ?_)
    fun v ls => State.settles_pushed
  · unfold laneRule at h
    dsimp only at h ⊢
    split_ifs at h ⊢ <;> cases h <;> rfl
  · unfold laneRule at h
    dsimp only at h
    split_ifs at h <;> cases h
    exact .refl _

theorem Ready.lwst {f : BitVec 6} (hr : Ready s (.lwst m a b c f)) :
    LaneEnters (.lwst m a b c f) s a fun v _ => s.afterMacro (.lwst m a b c f) v := by
  refine hr.laneEnters (e := execLwst m a b c f s) rfl rfl rfl (fun g ls r h => ?_) (fun g ls u mc h => ?_)
    fun v ls => State.settles_pushed
  · unfold laneRule fmtOf at h
    dsimp only at h ⊢
    split_ifs at h ⊢ <;> cases h <;> rfl
  · unfold laneRule at h
    dsimp only at h
    split_ifs at h <;> cases h
    exact .refl _

/-- The bytes of a value that a read-out writes. -/
theorem outBytes_fltEtFmt (f : FltEt) :
    outBytes (fltEtFmt f) = (match f with | .a56 => 8 | .fp32 => 4 | .bf16 => 2 | .fp16 => 2) := by
  cases f <;> rfl

theorem Ready.laccr {f : FltEt} (hr : Ready s (.laccr m a b c f)) :
    LaneEnters (.laccr m a b c f) s a fun v _ => s.afterMacro (.laccr m a b c f) v := by
  refine hr.laneEnters (e := execLaccr m a b c f s) rfl rfl rfl (fun g ls r h => ?_) (fun g ls u mc h => ?_)
    fun v ls => State.settles_pushed
  · unfold laneRule at h
    dsimp only at h ⊢
    unfold ReadWord.ok State.spadHas State.spadSize readWordOf
    rw [outBytes_fltEtFmt]
    cases f <;> dsimp only at h ⊢ <;> split_ifs at h ⊢ <;> cases h <;> rfl
  · unfold laneRule at h
    dsimp only at h
    split_ifs at h <;> cases h
    exact .refl _

theorem Ready.lact {f : BitVec 6} (hr : Ready s (.lact m a b c f)) :
    LaneEnters (.lact m a b c f) s a fun v _ => s.afterMacro (.lact m a b c f) v := by
  refine hr.laneEnters (e := execLact m a b c f s) rfl rfl rfl (fun g ls r h => ?_) (fun g ls u mc h => ?_)
    fun v ls => State.settles_pushed
  · unfold laneRule fmtOf at h
    unfold State.spadHas State.spadSize
    dsimp only at h ⊢
    rw [Nat.mul_assoc]
    split_ifs at h ⊢
    · cases h; rfl
    · cases h; rfl
    · generalize s.readTile (s.rx b).toNat _ _ _ = x at h ⊢
      cases x with
      | error e => cases h
      | ok p => cases h; rfl
  · unfold laneRule at h
    dsimp only at h
    split_ifs at h
    · cases h
    · cases h
    · cases hx : s.readTile (s.rx b).toNat _ _ _ with
      | error e => rw [hx] at h; cases h
      | ok p =>
        rw [hx] at h
        cases h
        exact .of_readTile hx

theorem Ready.lred {clr ring : BitVec 1} {f : FltEt} (hr : Ready s (.lred m a b c clr ring f)) :
    LaneEnters (.lred m a b c clr ring f) s a fun v _ => s.afterMacro (.lred m a b c clr ring f) v := by
  refine hr.laneEnters (e := execLred m a b c clr ring f s) rfl rfl rfl (fun g ls r h => ?_) (fun g ls u mc h => ?_)
    fun v ls => State.settles_pushed
  · have hring : ring = 0 ∨ ring = 1 := by clear hr h; revert ring; decide
    unfold laneRule at h
    dsimp only at h ⊢
    unfold ReadWord.ok State.spadHas State.spadSize readWordOf
    rw [outBytes_fltEtFmt]
    rcases hring with rfl | rfl
    · rw [if_pos rfl] at h
      rw [if_neg (show ¬(0 : BitVec 1) = 1 by decide)]
      cases f <;> dsimp only at h ⊢ <;> split_ifs at h ⊢ <;> cases h <;> rfl
    · rw [if_neg (show ¬(1 : BitVec 1) = 0 by decide)] at h
      rw [if_pos rfl]
      generalize bedRoles (s.cr.trellis.getD g {}) (ls.map (·.2)) = x at h ⊢
      cases x <;> dsimp only at h ⊢ <;> split_ifs at h ⊢ <;> cases h <;> rfl
  · unfold laneRule at h
    dsimp only at h
    generalize bedRoles (s.cr.trellis.getD g {}) (ls.map (·.2)) = x at h
    cases x <;> dsimp only at h <;> split_ifs at h <;> cases h
    · exact .refl _
    · exact .refl _
    · exact ⟨rfl, rfl, by rw [State.modMe_cc], by rw [State.modMe_cc], by rw [State.modMe_cc]⟩

/-! ## Targets and lstat -/

theorem State.targets_eq (s : State) (w : Quad) :
    let g := bits w.toNat 29 26
    let n := bits w.toNat 25 16
    let first := bits w.toNat 9 0
    let b := s.cr.trellis.getD g {}
    s.targets w = if s.cur.core ∈ b.core ∧ n ≠ 0 ∧ first + n ≤ b.lane.length
      then some (g, (List.range n).map fun k => (first + k, b.lane.getD (first + k) 0)) else none := by
  intro g n first b
  have hc : (!b.core.contains s.cur.core || n == 0 || decide (b.lane.length < first + n)) = true ↔
      ¬(s.cur.core ∈ b.core ∧ n ≠ 0 ∧ first + n ≤ b.lane.length) := by
    simp only [Bool.or_eq_true, Bool.not_eq_true', beq_iff_eq, decide_eq_true_eq, ← Bool.not_eq_true, List.contains_iff_mem]
    grind
  unfold State.targets
  exact (if_congr hc rfl rfl).trans (ite_not _ _ _)

/-- What `lstat` makes of its targets. -/
def State.laneStatus (s : State) (d : Reg) : Option (Nat × List (Nat × Nat)) → Res
  | some (_, [p]) =>
    (match s.deferred s.me (fun u => u == .lane p.2) with
     | some e => .stay (s.raiseDeferred s.me e)
     | none => .ok (s.wx d (s.laneWord p.2)))
  | _ => .trap .prot 0 0 s

theorem Ready.lstat {d : Reg} (hr : Ready s (.lstat m d a)) :
    exec (.lstat m d a) s = .next (s.settleRes (formOf (.lstat m d a) s) (s.laneStatus d (s.targets (s.rx a)))) :=
  hr.run (e := execLstat m d a s) (body := fun t => t.laneStatus d (t.targets (t.rx a))) rfl (by unfold execLstat State.laneStatus; rfl) rfl

theorem State.laneStatus_bad {d : Reg} {o : Option (Nat × List (Nat × Nat))} (h : ∀ g p, o ≠ some (g, [p])) :
    s.laneStatus d o = .trap .prot 0 0 s := by
  match o, h with
  | none, _ => rfl
  | some (g, []), _ => rfl
  | some (g, [p]), h => exact absurd rfl (h g p)
  | some (g, p :: q :: l), _ => rfl

theorem State.laneStatus_deferred {d : Reg} {g : Nat} {p : Nat × Nat} {e : Deferred}
    (h : s.deferred s.me (· == .lane p.2) = some e) : s.laneStatus d (some (g, [p])) = .stay (s.raiseDeferred s.me e) := by
  unfold State.laneStatus
  dsimp only
  rw [h]

theorem State.laneStatus_read {d : Reg} {g : Nat} {p : Nat × Nat} (h : s.deferred s.me (· == .lane p.2) = none) :
    s.laneStatus d (some (g, [p])) = .ok (s.wx d (s.laneWord p.2)) := by
  unfold State.laneStatus
  dsimp only
  rw [h]

end

/-- Settles O43: each of the macros does what its rule says. -/
theorem laneMacrosEnter : Obligations.LaneMacrosEnter := by
  refine ⟨fun i s a hi hr => ?_, State.targets_eq, fun s m d a hr => ⟨fun h => ?_, fun g p ht => ⟨fun e he => ?_, fun he => ?_⟩⟩⟩
  · cases i with
    | lcfg m a b => cases hi; exact hr.lcfg
    | lfence m a => cases hi; exact hr.lfence
    | lsync m a => cases hi; exact hr.lsync
    | lwst m a b c f => cases hi; exact hr.lwst
    | lact m a b c f => cases hi; exact hr.lact
    | lmac m a b z => cases hi; exact hr.lmac
    | laccz m a => cases hi; exact hr.laccz
    | laccr m a b c f => cases hi; exact hr.laccr
    | lred m a b c clr ring f => cases hi; exact hr.lred
    | _ => exact (Option.some_ne_none _ hi.symm).elim
  · rw [hr.lstat, State.laneStatus_bad h]
    rfl
  · rw [hr.lstat, ht, State.laneStatus_deferred he]
    rfl
  · rw [hr.lstat, ht, State.laneStatus_read he]
    rfl

end Sys2Proof.Machine
end

section
/-! PROOFS. Matrix commands enter the queue of their engine, and `msem` (R222-R224, R241-R247). -/

namespace Sys2Proof.Machine

/-! ## The common checks -/

/-- A group of the core binds its matrix engine. -/
def State.bindsMatrix (s : State) : Prop :=
  ∃ g ∈ coreGroups s.cr s.cur.core, s.cur.core - 64 ∈ (s.cr.trellis.getD g.1 {}).matrix

theorem State.matBound_iff (s : State) : s.matBound = true ↔ s.bindsMatrix := by
  simp only [State.matBound, State.bindsMatrix, State.myMat, List.any_eq_true, List.contains_iff_mem]

/-- What a matrix instruction comes to, where `f` is what it does past the common checks. -/
def State.matRes (f : State → Res) (s : State) : Res :=
  if !s.matBound then .trap .prot 0 0 s
  else
    match s.deferred s.me (· == .mat (s.cur.core - 64)) with
    | some d => .stay (s.raiseDeferred s.me d)
    | none => f s

/-- What the common checks of a matrix instruction come to. -/
def MatChecked (i : Instr) (s : State) (r : Res) : Prop :=
  (¬s.bindsMatrix → exec i s = .next (s.trapHere .prot)) ∧
  (∀ d, s.bindsMatrix → s.deferred s.me (· == .mat (s.cur.core - 64)) = some d → exec i s = .next (s.raiseDeferred s.me d)) ∧
  (s.bindsMatrix → s.deferred s.me (· == .mat (s.cur.core - 64)) = none → exec i s = .next (s.settleRes (formOf i s) r))

theorem Ready.matChecked {i : Instr} {s : State} (hr : Ready s i) {e} {m : Mods} {regs : List Reg} {f : State → Res}
    (he : exec i s = e) (h : e = matInstr m regs s f) (hf : formOf i s = { mods := m, cls := matClass s, regs := regs }) :
    MatChecked i s (f s) := by
  have hrun : exec i s = .next (s.settleRes (formOf i s) (s.matRes f)) :=
    hr.run he (h.trans (by unfold matInstr State.matRes; rfl)) hf
  refine ⟨fun hb => ?_, fun d hb hd => ?_, fun hb hd => ?_⟩ <;> rw [hrun] <;> unfold State.matRes
  · rw [if_pos (by rw [← State.matBound_iff, Bool.not_eq_true] at hb; rw [hb]; rfl)]
    rfl
  · rw [if_neg (by rw [State.matBound_iff s |>.mpr hb]; decide), hd]
    rfl
  · rw [if_neg (by rw [State.matBound_iff s |>.mpr hb]; decide), hd]

/-! ## Queued commands -/

/-- The entry of a command in the queue of its engine. -/
def State.matEnt (s : State) (sems : Option Nat × Option Nat) (cmd : MCmd) : MatEnt :=
  { ctx := s.me, taskid := s.cc.taskid, pos := s.pos, pol := s.cc.pol, part := s.cc.part, asid := s.cc.asid, wsem := sems.1,
    ssem := sems.2, cmd := cmd }

/-- A command enters the queue of its engine with its semaphores, or waits for a place. -/
def State.queuesMat (s : State) (sems : Option Nat × Option Nat) : Except Res MCmd → Res
  | .error r => r
  | .ok cmd =>
    let e := s.mat (s.cur.core - 64)
    if 16 ≤ e.q.length then .stall .unit s
    else
      .ok (s.setMat (s.cur.core - 64) { e with q := e.q ++ [s.matEnt sems cmd] })

theorem matCommand_eq (m : Mods) (regs : List Reg) (ws : BitVec 4) (we : BitVec 1) (ss : BitVec 4) (se : BitVec 1) (s : State)
    (f : State → Except Res MCmd) : matCommand m regs ws we ss se s f =
      matInstr m regs s fun t => t.queuesMat (if we = 1 then some ws.toNat else none, if se = 1 then some ss.toNat else none) (f t) := by
  unfold matCommand State.queuesMat
  rfl

/-- What the obligation says of a matrix instruction as it enters. -/
def MatEnters (i : Instr) (s : State) : Prop :=
  let n := s.cur.core - 64
  let e := s.mat n
  let clear := s.bindsMatrix ∧ s.deferred s.me (· == .mat n) = none
  (¬s.bindsMatrix → exec i s = .next (s.trapHere .prot)) ∧
  (∀ d, s.bindsMatrix → s.deferred s.me (· == .mat n) = some d → exec i s = .next (s.raiseDeferred s.me d)) ∧
  (∀ c x, clear → matRule i s = some (.error (c, x)) → exec i s = .next (s.trapHere c x)) ∧
  (∀ cmd, clear → matRule i s = some (.ok cmd) → 16 ≤ e.q.length → exec i s = .next (s.stallHere .unit)) ∧
  (∀ cmd, clear → matRule i s = some (.ok cmd) → e.q.length < 16 → exec i s = .next (past i s (s.setMat n
    { e with q := e.q ++ [s.matEnt (matSems i) cmd] })))

section
variable {i : Instr} {s : State} {r : Res}

/-- A matrix instruction past its checks does what its rule says. -/
theorem MatChecked.enters (h : MatChecked i s r)
    (hrule : ∀ x, matRule i s = some x → r = s.queuesMat (matSems i) (ruleRes s x)) : MatEnters i s := by
  obtain ⟨hprot, hdefer, hclear⟩ := h
  refine ⟨hprot, hdefer, fun c x ⟨hb, hd⟩ hm => ?_, fun cmd ⟨hb, hd⟩ hm hq => ?_, fun cmd ⟨hb, hd⟩ hm hq => ?_⟩ <;>
    rw [hclear hb hd, hrule _ hm] <;> unfold ruleRes State.queuesMat <;> dsimp only
  · rfl
  · rw [if_pos hq]; rfl
  · rw [if_neg (by omega)]; rfl

end

section
variable {s : State} {m : Mods} {a b c d : Reg} {ws ss : BitVec 4} {we se : BitVec 1}

theorem Ready.mlay {k : BitVec 3} (hr : Ready s (.mlay m a b k ws we ss se)) : MatEnters (.mlay m a b k ws we ss se) s := by
  refine MatChecked.enters (hr.matChecked (e := execMlay m a b k ws we ss se s) rfl (matCommand_eq ..) rfl) fun x h => ?_
  refine congrArg (s.queuesMat _) ?_
  unfold matRule at h
  unfold State.spadHas State.spadSize layoutOf Layout.bytes
  dsimp only at h ⊢
  split_ifs at h ⊢ <;> cases h <;> rfl

theorem Unfold.ok_iff (u : Unfold) : u.ok = true ↔ ¬(u.w = 0 ∨ u.h = 0 ∨ u.ow = 0 ∨ u.crec = 0 ∨ 4095 < u.crec ∨ u.dw = 0 ∨
    u.dh = 0 ∨ u.sw = 0 ∨ u.sh = 0 ∨ u.kw = 0 ∨ u.kh = 0) := by
  simp [Unfold.ok, and_assoc]

theorem Ready.munf {id : BitVec 1} (hr : Ready s (.munf m a b id ws we ss se)) : MatEnters (.munf m a b id ws we ss se) s := by
  refine MatChecked.enters (hr.matChecked (e := execMunf m a b id ws we ss se s) rfl (matCommand_eq ..) rfl) fun x h => ?_
  refine congrArg (s.queuesMat _) ?_
  unfold matRule at h
  unfold unfoldOf
  dsimp only at h ⊢
  simp only [Unfold.ok_iff]
  split_ifs at h ⊢ <;> cases h <;> rfl

theorem Ready.mld {k : BitVec 3} (hr : Ready s (.mld m a b c k ws we ss se)) : MatEnters (.mld m a b c k ws we ss se) s := by
  refine MatChecked.enters (hr.matChecked (e := execMld m a b c k ws we ss se s) rfl (matCommand_eq ..) rfl) fun x h => ?_
  refine congrArg (s.queuesMat _) ?_
  unfold matRule at h
  dsimp only at h ⊢
  split_ifs at h ⊢ <;> cases h <;> rfl

theorem Ready.mmul {u : BitVec 1} {t : BitVec 2} (hr : Ready s (.mmul m a b u t ws we ss se)) :
    MatEnters (.mmul m a b u t ws we ss se) s := by
  refine MatChecked.enters (hr.matChecked (e := execMmul m a b u t ws we ss se s) rfl (matCommand_eq ..) rfl) fun x h => ?_
  refine congrArg (s.queuesMat _) ?_
  unfold matRule at h
  dsimp only at h ⊢
  generalize laneFmt (bits (s.rx a).toNat 15 10) = fa at h ⊢
  generalize laneFmt (bits (s.rx b).toNat 15 10) = fb at h ⊢
  cases fa with
  | none => cases h; rfl
  | some fa =>
    cases fb with
    | none => cases h; rfl
    | some fb =>
      dsimp only at h ⊢
      split_ifs at h ⊢ <;> cases h <;> rfl

theorem Ready.mdrn {g : BitVec 1} {t : BitVec 2} (hr : Ready s (.mdrn m a b g t ws we ss se)) :
    MatEnters (.mdrn m a b g t ws we ss se) s := by
  refine MatChecked.enters (hr.matChecked (e := execMdrn m a b g t ws we ss se s) rfl (matCommand_eq ..) rfl) fun x h => ?_
  refine congrArg (s.queuesMat _) ?_
  unfold matRule at h
  unfold State.spadHas State.spadSize outBytes
  dsimp only at h ⊢
  rw [List.not_all_eq_any_not]
  generalize fmtOfCode (BitVec.ofNat 6 (bits (s.rx b).toNat 37 32)) = fd at h ⊢
  cases fd <;> dsimp only at h ⊢ <;> split_ifs at h ⊢ <;> cases h <;> rfl

theorem Ready.mzero {mode : TMode} {t : BitVec 2} (hr : Ready s (.mzero m mode t ws we ss se)) :
    MatEnters (.mzero m mode t ws we ss se) s := by
  refine MatChecked.enters (hr.matChecked (e := execMzero m mode t ws we ss se s) rfl (matCommand_eq ..) rfl) fun x h => ?_
  cases h
  rfl

/-! ## Semaphores and status -/

theorem Ready.msemSig {k : BitVec 4} {n : BitVec 12} (hr : Ready s (.msemSig m k n)) :
    MatChecked (.msemSig m k n) s (.ok (s.setMat (s.cur.core - 64) { s.mat (s.cur.core - 64) with
      sems := tput (s.mat (s.cur.core - 64)).sems k.toNat
        (min 65535 (tget 0 (s.mat (s.cur.core - 64)).sems k.toNat + n.toNat)) })) :=
  hr.matChecked (e := execMsemSig m k n s) rfl rfl rfl

/-- What a wait on a semaphore comes to, where `left` is what it may take. -/
def State.msemWaits (s : State) (k n left : Nat) : Res :=
  if n ≤ left then
    .ok ((s.setMat (s.cur.core - 64) { s.mat (s.cur.core - 64) with
      sems := tput (s.mat (s.cur.core - 64)).sems k
        (min 65535 (tget 0 (s.mat (s.cur.core - 64)).sems k - n)) }).acquireAt s.me .device)
  else .wait (.msem k n) s

/-- The command at the head of the queue takes its count first. -/
theorem State.semLeft_eq (n k : Nat) : s.semLeft n k =
    (match s.matHead n with
     | some h => if h.begun = false ∧ h.wsem = some k then tget 0 (s.mat n).sems k - 1 else tget 0 (s.mat n).sems k
     | none => tget 0 (s.mat n).sems k) := by
  unfold State.semLeft
  cases s.matHead n with
  | none => rfl
  | some h =>
    dsimp only
    by_cases hb : h.begun = false ∧ h.wsem = some k
    · obtain ⟨hb, hw⟩ := hb
      simp [hb, hw, Matrix.sem]
    · rw [if_neg hb]
      have : (!h.begun && h.wsem == some k) = false := by
        rw [← Bool.not_eq_true]
        simpa using hb
      rw [this]
      rfl

theorem Ready.msemWait {k : BitVec 4} {n : BitVec 12} (hr : Ready s (.msemWait m k n)) :
    MatChecked (.msemWait m k n) s (s.msemWaits k.toNat n.toNat (s.semLeft (s.cur.core - 64) k.toNat)) :=
  hr.matChecked (e := execMsemWait m k n s) rfl rfl rfl

theorem Ready.msemRd {k : BitVec 4} (hr : Ready s (.msemRd m d k)) :
    MatChecked (.msemRd m d k) s (.ok (s.wx d (quadN (tget 0 (s.mat (s.cur.core - 64)).sems k.toNat)))) :=
  hr.matChecked (e := execMsemRd m d k s) rfl rfl rfl

theorem Ready.msemSt (hr : Ready s (.msemSt m d)) :
    MatChecked (.msemSt m d) s (.ok ((s.setMat (s.cur.core - 64) { s.mat (s.cur.core - 64) with
      layc := 0, fmtc := 0, poisc := 0 }).wx d (s.mat (s.cur.core - 64)).word)) :=
  hr.matChecked (e := execMsemSt m d s) rfl rfl rfl

theorem Matrix.word_eq (e : Matrix) : e.word = quadN
    (e.q.length % 32 * 2 ^ 59 + (match e.q with | h :: _ => if h.begun then 2 ^ 58 else 0 | [] => 0) +
      min 255 e.layc * 2 ^ 40 + min 255 e.fmtc * 2 ^ 32 + e.poisc % 2 ^ 16 * 2 ^ 16 + e.done % 2 ^ 16) := by
  unfold Matrix.word
  cases e.q with
  | nil => rfl
  | cons h q =>
    dsimp only
    cases h.begun <;> rfl

end

/-- Every matrix instruction enters as its rule says, or faults. -/
theorem Ready.matEnters {i : Instr} {s : State} (hub : instrOnHub i = true) (hr : Ready s i) : MatEnters i s := by
  cases i with
  | mlay => exact hr.mlay
  | munf => exact hr.munf
  | mld => exact hr.mld
  | mmul => exact hr.mmul
  | mdrn => exact hr.mdrn
  | mzero => exact hr.mzero
  | msemSig => exact hr.msemSig.enters fun x h => (Option.some_ne_none _ h.symm).elim
  | msemWait => exact hr.msemWait.enters fun x h => (Option.some_ne_none _ h.symm).elim
  | msemRd => exact hr.msemRd.enters fun x h => (Option.some_ne_none _ h.symm).elim
  | msemSt => exact hr.msemSt.enters fun x h => (Option.some_ne_none _ h.symm).elim
  | _ => exact (Bool.false_ne_true hub).elim

/-- Settles O44: past the common checks each instruction does what its rule says. -/
theorem matrixInstructions : Obligations.MatrixInstructions := by
  intro s
  refine ⟨fun i hub hr => hr.matEnters hub, fun m k c d ⟨hb, hd⟩ => ⟨fun hr => ?_, fun hr hle => ?_, fun hr hlt => ?_,
    fun hr => ?_, fun hr => ?_⟩⟩
  · exact hr.msemSig.2.2 hb hd
  · refine (hr.msemWait.2.2 hb hd).trans ?_
    unfold State.msemWaits
    rw [if_pos ((State.semLeft_eq ..).symm ▸ hle)]
    rfl
  · refine (hr.msemWait.2.2 hb hd).trans ?_
    unfold State.msemWaits
    rw [if_neg (Nat.not_le.mpr ((State.semLeft_eq ..).symm ▸ hlt))]
    rfl
  · exact hr.msemRd.2.2 hb hd
  · refine (hr.msemSt.2.2 hb hd).trans ?_
    rw [Matrix.word_eq]
    rfl

end Sys2Proof.Machine
end

section
/-! PROOFS. Transfer and column-reduce commands enter their queue (R249-R261). -/

namespace Sys2Proof.Machine

/-! ## A command whose descriptor has been read -/

section
variable {i : Instr} {u : State} {b : Reg} {va : Nat} {ren ten : BitVec 1} {tag : BitVec 6} {y y1 : Xfer}

theorem State.enterXfer_ok {bar : Option Nat} (hc : u.xferCheck y (ren == 1#1) = .ok y1) (hb : u.barrierOf b = .ok bar) :
    u.enterXfer (instrMods i) b va (ren == 1#1) (ten == 1#1) tag.toNat (some y) =
      .ok (u.enteredXfer i y1 ren ten tag bar (u.rx b).toNat) := by
  unfold State.enterXfer
  dsimp only
  rw [hc]
  dsimp only
  rw [hb]
  dsimp only
  unfold State.enter State.enteredXfer
  rw [State.modMe_modMe]
  rfl

theorem State.enterXfer_unchecked {c : Code} (hc : u.xferCheck y (ren == 1#1) = .error c) :
    u.enterXfer (instrMods i) b va (ren == 1#1) (ten == 1#1) tag.toNat (some y) = .trap c va 0 u := by
  unfold State.enterXfer
  dsimp only
  rw [hc]

theorem State.enterXfer_noBarrier {r : Res} (hc : u.xferCheck y (ren == 1#1) = .ok y1) (hb : u.barrierOf b = .error r) :
    u.enterXfer (instrMods i) b va (ren == 1#1) (ten == 1#1) tag.toNat (some y) = r := by
  unfold State.enterXfer
  dsimp only
  rw [hc]
  dsimp only
  rw [hb]

theorem State.barrierOf_fault {c : Code} {x : Nat} (hb : b ≠ 0) (h : u.checked .g true 16 (u.rx b).toNat 16 = .fault c x) :
    u.barrierOf b = .error (.trap c x 0 u) := by
  unfold State.barrierOf
  rw [if_neg hb, h]

theorem State.barrierOf_miss {x : Nat} (hb : b ≠ 0) (h : u.checked .g true 16 (u.rx b).toNat 16 = .miss x) :
    u.barrierOf b = .error (u.missStall x) := by
  unfold State.barrierOf
  rw [if_neg hb, h]

end

/-- An answer as the instruction gives it where a read at issue comes before: a stall keeps only the request for the walk. -/
def State.afterRead (s : State) : Res → Res
  | .stall w u => .stall w { s with miss := u.miss }
  | r => r

theorem readOr_ok {s u : State} {bs : List Byte} {f : State → List Byte → Res} {r : Except Res (State × List Byte)}
    (h : r = .ok (u, bs)) : readOr s r f = s.afterRead (f u bs) := by
  subst h
  unfold readOr
  dsimp only
  generalize f u bs = x
  cases x <;> rfl

theorem State.afterRead_afterRead (s u : State) (r : Res) : s.afterRead (u.afterRead r) = s.afterRead r := by
  cases r <;> rfl

/-- What the obligation says of a command whose descriptor `x` has been read, in the machine `u` after the read. -/
def XferEnters (i : Instr) (s : State) (b : Reg) (va : Nat) (ren ten : BitVec 1) (tag : BitVec 6) (u : State) (x : Option Xfer) : Prop :=
  (x = none → exec i s = .next (u.trapHere .qfault va)) ∧
  ∀ y, x = some y →
    (∀ c, u.xferCheck y (ren == 1#1) = .error c → exec i s = .next (u.trapHere c va)) ∧
    (∀ y1 bar, u.xferCheck y (ren == 1#1) = .ok y1 → u.barrierOf b = .ok bar →
      exec i s = .next (past i s (u.enteredXfer i y1 ren ten tag bar (u.rx b).toNat))) ∧
    (∀ y1, u.xferCheck y (ren == 1#1) = .ok y1 →
      (b = 0 → u.barrierOf b = .ok none) ∧
      (∀ c x, b ≠ 0 → u.checked .g true 16 (u.rx b).toNat 16 = .fault c x → exec i s = .next (u.trapHere c x)) ∧
      ∀ x, b ≠ 0 → u.checked .g true 16 (u.rx b).toNat 16 = .miss x →
        exec i s = .next (({ s with miss := (u.enterMiss u.me u.cur.eng x).miss } : State).stallHere .tlb))

theorem xferEnters_of {i : Instr} {s u : State} {b : Reg} {va : Nat} {ren ten : BitVec 1} {tag : BitVec 6} {x : Option Xfer}
    (h : exec i s = .next (s.settleRes (formOf i s) (s.afterRead
      (u.enterXfer (instrMods i) b va (ren == 1#1) (ten == 1#1) tag.toNat x)))) : XferEnters i s b va ren ten tag u x := by
  refine ⟨?_, ?_⟩
  · rintro rfl
    exact h
  · rintro y rfl
    refine ⟨fun c hc => ?_, fun y1 bar hc hb => ?_, fun y1 hc => ⟨fun hb => if_pos hb, fun c x hb hx => ?_, fun x hb hx => ?_⟩⟩
    · rw [h, State.enterXfer_unchecked hc]; rfl
    · rw [h, State.enterXfer_ok hc hb]; rfl
    · rw [h, State.enterXfer_noBarrier hc (State.barrierOf_fault hb hx)]; rfl
    · rw [h, State.enterXfer_noBarrier hc (State.barrierOf_miss hb hx)]; rfl

/-! ## The commands -/

/-- What a transfer command comes to once its queue has room. -/
def State.xferDescribed (s : State) (k : XKind) (m : Mods) (a b : Reg) (ren ten : BitVec 1) (tag : BitVec 6) : Res :=
  let va := (s.rx a).toNat
  if va % 64 ≠ 0 then .trap .qfault va 0 s
  else if k = .creq then
    readOr s (s.readLocal va 64) fun u h =>
      readOr u (u.readLocal (va + 64) (4 * (bits (leNat h) 293 289 + 1))) fun w l =>
        w.enterXfer m b va (ren == 1#1) (ten == 1#1) tag.toNat (creqOf (ren == 1#1) (leNat h) l)
  else
    readOr s (s.readLocal va 256) fun u h =>
      u.enterXfer m b va (ren == 1#1) (ten == 1#1) tag.toNat (xferOf k (ren == 1#1) (rmOfRound u.cc.round) (leNat h))

/-- What a transfer command comes to. -/
def State.xferRes (s : State) (k : XKind) (m : Mods) (a b : Reg) (ren ten : BitVec 1) (tag : BitVec 6) : Res :=
  match s.deferred s.me (· == queueUnit s.cur.eng) with
  | some d => .stay (s.raiseDeferred s.me d)
  | none =>
    if !s.cc.roomFor (s.cur.eng == .l) (s.cur.eng != .l) then .stall .memq s else s.xferDescribed k m a b ren ten tag

/-- Each transfer command is the one command with its kind and its operands. -/
theorem Ready.xferForm_run {i : Instr} {s : State} {k : XKind} {m : Mods} {a b : Reg} {ren ten : BitVec 1} {tag : BitVec 6}
    (hi : xferForm i = some (k, m, a, b, ren, ten, tag)) (hr : Ready s i) :
    instrMods i = m ∧ exec i s = .next (s.settleRes (formOf i s) (s.xferRes k m a b ren ten tag)) := by
  have hx (k : XKind) : xferCmd k m a b ren ten tag s =
      issue { mods := m, cls := onLS, regs := [a, b] } s fun t => t.xferRes k m a b ren ten tag := by
    unfold xferCmd State.xferRes State.xferDescribed
    rfl
  cases i with
  | xcopy => cases hi; exact ⟨rfl, hr.run (e := execXcopy m a b ren ten tag s) rfl (hx _) rfl⟩
  | xgath => cases hi; exact ⟨rfl, hr.run (e := execXgath m a b ren ten tag s) rfl (hx _) rfl⟩
  | xscat => cases hi; exact ⟨rfl, hr.run (e := execXscat m a b ren ten tag s) rfl (hx _) rfl⟩
  | xscadd => cases hi; exact ⟨rfl, hr.run (e := execXscadd m a b ren ten tag s) rfl (hx _) rfl⟩
  | xfill => cases hi; exact ⟨rfl, hr.run (e := execXfill m a b ren ten tag s) rfl (hx _) rfl⟩
  | xring => cases hi; exact ⟨rfl, hr.run (e := execXring m a b ren ten tag s) rfl (hx _) rfl⟩
  | creq => cases hi; exact ⟨rfl, hr.run (e := execCreq m a b ren ten tag s) rfl (hx _) rfl⟩
  | _ => exact (Option.some_ne_none _ hi.symm).elim

/-- Settles O45: a command past its reads enters as `xferEnters_of` says. -/
theorem transferCommandsEnter : Obligations.TransferCommandsEnter := by
  intro i s k m a b ren ten tag hi hr va r unit entered
  obtain ⟨hm, hrun⟩ := hr.xferForm_run hi
  subst hm
  have hroom (hd : s.deferred s.me (· == unit) = none) (hq : s.cc.roomFor (s.cur.eng == .l) (s.cur.eng != .l) = true) :
      s.xferRes k (instrMods i) a b ren ten tag = s.xferDescribed k (instrMods i) a b ren ten tag := by
    unfold State.xferRes
    rw [show s.deferred s.me (· == queueUnit s.cur.eng) = none from hd, hq]
    rfl
  refine ⟨fun d hd => ?_, fun hd => ⟨fun hq => ?_, fun hq => ⟨fun h => ?_, fun h hk u hb hu => ?_, fun h hk u w hb l hu hw => ?_⟩⟩⟩
  · rw [hrun]
    unfold State.xferRes
    rw [show s.deferred s.me (· == queueUnit s.cur.eng) = some d from hd]
    rfl
  · rw [hrun]
    unfold State.xferRes
    rw [show s.deferred s.me (· == queueUnit s.cur.eng) = none from hd, hq]
    rfl
  · rw [hrun, hroom hd hq]
    unfold State.xferDescribed
    dsimp only
    rw [if_pos h]
    rfl
  · refine xferEnters_of ?_
    rw [hrun, hroom hd hq]
    unfold State.xferDescribed
    dsimp only
    rw [if_neg (not_not.mpr h), if_neg hk, readOr_ok hu]
  · refine xferEnters_of ?_
    rw [hrun, hroom hd hq]
    unfold State.xferDescribed
    dsimp only
    rw [if_neg (not_not.mpr h), if_pos hk, readOr_ok hu, readOr_ok hw, State.afterRead_afterRead]

end Sys2Proof.Machine
end

section
/-! PROOFS. What the vector operations compute, element by element (R190, R194-R207). -/

namespace Sys2Proof.Machine

/-! ## Vectors and their elements -/

/-- The number that a list of elements makes at width `w`. -/
def elemsNat (w : Nat) (l : List Nat) : Nat := l.foldr (fun e a => e % 2 ^ w + 2 ^ w * a) 0

theorem vOf_eq (w : Nat) (l : List Nat) : vOf w l = BitVec.ofNat 1024 (elemsNat w l) := rfl

theorem elemsNat_congr {w : Nat} {l k : List Nat} (h : ∀ j, l.getD j 0 % 2 ^ w = k.getD j 0 % 2 ^ w) :
    elemsNat w l = elemsNat w k := by
  have hzero : ∀ k : List Nat, (∀ j, 0 = k.getD j 0 % 2 ^ w) → elemsNat w k = 0 := by
    intro k hk
    induction k with
    | nil => rfl
    | cons e k ih =>
      have h0 : 0 = e % 2 ^ w := hk 0
      have := ih fun j => hk (j + 1)
      simp only [elemsNat, List.foldr_cons] at this ⊢
      rw [this, ← h0, Nat.mul_zero]
  induction l generalizing k with
  | nil => exact (hzero k fun j => by simpa using h j).symm
  | cons e l ih =>
    cases k with
    | nil => exact hzero (e :: l) fun j => by simpa using (h j).symm
    | cons e' k =>
      have h0 : e % 2 ^ w = e' % 2 ^ w := h 0
      have := ih (k := k) fun j => h (j + 1)
      simp only [elemsNat, List.foldr_cons] at this ⊢
      rw [this, h0]

theorem vOf_congr {w : Nat} {l k : List Nat} (h : ∀ j, l.getD j 0 % 2 ^ w = k.getD j 0 % 2 ^ w) : vOf w l = vOf w k := by
  rw [vOf_eq, vOf_eq, elemsNat_congr h]

/-- A list of no more elements than a vector has makes the vector whose elements it lists, the others zero. -/
theorem vOf_eq_vFrom {w : Nat} {l : List Nat} {f : Nat → Nat} (hl : l.length ≤ 1024 / w)
    (h : ∀ j, j < 1024 / w → l.getD j 0 % 2 ^ w = f j % 2 ^ w) : vOf w l = vFrom w f := by
  refine vOf_congr fun j => ?_
  by_cases hj : j < 1024 / w
  · rw [h j hj]
    simp [List.getD_eq_getElem?_getD, hj]
  · have hj' : ¬j < l.length := by omega
    simp [List.getD_eq_getElem?_getD, hj, hj']

theorem vFrom_congr {w : Nat} {f g : Nat → Nat} (h : ∀ j, j < 1024 / w → f j % 2 ^ w = g j % 2 ^ w) : vFrom w f = vFrom w g :=
  vOf_eq_vFrom (by simp) fun j hj => by simpa [List.getD_eq_getElem?_getD, hj] using h j hj

theorem vElems_eq (w : Nat) (a : Vec) : vElems w a = (List.range (1024 / w)).map (vEl w a) := rfl

theorem vElems_getD (w : Nat) (a : Vec) (j : Nat) : (vElems w a).getD j 0 = if j < 1024 / w then vEl w a j else 0 := by
  by_cases hj : j < 1024 / w <;> simp [vElems_eq, List.getD_eq_getElem?_getD, hj]

theorem vElems_length (w : Nat) (a : Vec) : (vElems w a).length = 1024 / w := by
  simp [vElems_eq]

theorem vEl_lt (w : Nat) (a : Vec) (j : Nat) : vEl w a j < 2 ^ w := Nat.mod_lt _ (by positivity)

theorem vMap1_eq (w : Nat) (f : Nat → Nat) (a : Vec) : vMap1 w f a = vFrom w fun j => f (vEl w a j) := by
  unfold vMap1 vFrom
  rw [vElems_eq, List.map_map]
  rfl

theorem vMap2_eq (w : Nat) (f : Nat → Nat → Nat) (a b : Vec) : vMap2 w f a b = vFrom w fun j => f (vEl w a j) (vEl w b j) := by
  unfold vMap2 vFrom
  rw [vElems_eq, vElems_eq, List.zip_map', List.map_map]
  rfl

theorem vMap3_eq (w : Nat) (f : Nat → Nat → Nat → Nat) (a b c : Vec) :
    vMap3 w f a b c = vFrom w fun j => f (vEl w a j) (vEl w b j) (vEl w c j) := by
  unfold vMap3 vFrom
  rw [vElems_eq, vElems_eq, vElems_eq, List.zip_map', List.zip_map', List.map_map]
  rfl

/-- The vector whose only element that may differ from zero is the first. -/
theorem vFrom_first {w : Nat} (hw : 0 < w) (hw' : w ≤ 1024) (x : Nat) :
    vFrom w (fun j => if j = 0 then x else 0) = BitVec.ofNat 1024 (x % 2 ^ w) := by
  have hn : 1 ≤ 1024 / w := (Nat.one_le_div_iff hw).mpr hw'
  have h : vOf w [x] = vFrom w fun j => if j = 0 then x else 0 := vOf_eq_vFrom (by simpa using hn) fun j _ => by
    cases j with
    | zero => rfl
    | succ j => simp
  rw [← h, vOf_eq]
  simp [elemsNat]

/-! ## Integers -/

section
variable {w : Nat} (u : BitVec 1)

theorem bit_cases : u = 0 ∨ u = 1 := by revert u; decide

theorem elemInt_eq {e : Nat} (he : e < 2 ^ w) : elemInt w (u == 1#1) e = readEl w u e := by
  have hm : e % 2 ^ w = e := Nat.mod_eq_of_lt he
  rcases bit_cases u with rfl | rfl
  · rw [show ((0 : BitVec 1) == 1#1) = false by decide]
    unfold elemInt readEl signed
    rw [hm, if_neg Bool.false_ne_true, if_neg (show ¬(0 : BitVec 1) = 1 by decide)]
    push_cast
    rfl
  · unfold elemInt readEl
    rw [if_pos (by decide), if_pos rfl, hm]

theorem intResult_eq (sat : Bool) (r : Int) : intResult w (u == 1#1) sat r = writeEl w u sat r := by
  have h2 : (1 : Int) ≤ 2 ^ w := one_le_pow₀ (by norm_num)
  have h2' : (1 : Int) ≤ 2 ^ (w - 1) := one_le_pow₀ (by norm_num)
  have hc : ((2 ^ w : Nat) : Int) = 2 ^ w := by push_cast; rfl
  have hc' : ((2 ^ (w - 1) : Nat) : Int) = 2 ^ (w - 1) := by push_cast; rfl
  have hn : 1 ≤ 2 ^ w := Nat.one_le_two_pow
  have hn' : 1 ≤ 2 ^ (w - 1) := Nat.one_le_two_pow
  have hclamp (lo hi : Int) (h : lo ≤ hi) : max lo (min hi r) = if r < lo then lo else if hi < r then hi else r := by
    split_ifs <;> omega
  unfold intResult writeEl
  rcases bit_cases u with rfl | rfl
  · rw [show ((0 : BitVec 1) == 1#1) = false by decide]
    simp only [if_neg Bool.false_ne_true, if_neg (show ¬(0 : BitVec 1) = 1 by decide), Nat.cast_sub hn', hc, hc', Nat.cast_one]
    rw [hclamp _ _ (by omega)]
  · rw [show ((1 : BitVec 1) == 1#1) = true by decide]
    simp only [if_true, Nat.cast_sub hn, hc, Nat.cast_one]
    rw [hclamp _ _ (by omega)]

end

theorem writeEl_lt (w : Nat) (u : BitVec 1) (sat : Bool) (r : Int) : writeEl w u sat r < 2 ^ w := by
  unfold writeEl
  have : (0 : Int) < 2 ^ w := by positivity
  dsimp only
  have h := Int.emod_lt_of_pos (if sat = true then
    if r < (if u = 1 then 0 else -2 ^ (w - 1)) then (if u = 1 then 0 else -2 ^ (w - 1))
    else if (if u = 1 then 2 ^ w - 1 else 2 ^ (w - 1) - 1) < r then (if u = 1 then 2 ^ w - 1 else 2 ^ (w - 1) - 1) else r
    else r) this
  rw [Int.toNat_lt' (by positivity)]
  push_cast
  exact h

end Sys2Proof.Machine
end

section
/-! PROOFS. The vector operations that shift, convert, pack, reduce and permute (R195, R200-R207). -/

namespace Sys2Proof.Machine

/-! ## Shifts -/

theorem elemSra_eq {w : Nat} {e : Nat} (he : e < 2 ^ w) (n : Nat) : elemSra w e n = sraEl w e n := by
  have hs : signed w e = readEl w 0#1 e := elemInt_eq (u := 0) he
  unfold elemSra sraEl
  rw [show false = ((0 : BitVec 1) == 1#1) by decide, intResult_eq, hs]
  by_cases hn : w ≤ n
  · have hlt : readEl w 0#1 e < 2 ^ w ∧ -2 ^ w ≤ readEl w 0#1 e := by
      have : (e : Int) < 2 ^ w := by exact_mod_cast he
      unfold readEl
      rw [if_neg (by decide)]
      split_ifs <;> omega
    rw [if_pos hn, Nat.min_eq_right hn]
    push_cast
    by_cases hv : readEl w 0#1 e < 0
    · have hd : readEl w 0#1 e / 2 ^ w = -1 := by
        rw [Int.ediv_eq_iff_of_pos (by positivity)]
        omega
      rw [if_pos hv, hd]
      unfold writeEl
      have h1 : (-1 : Int) % 2 ^ w = ((2 ^ w - 1 : Nat) : Int) := by
        have hone : (1 : Int) ≤ 2 ^ w := one_le_pow₀ (by norm_num)
        rw [Nat.cast_sub Nat.one_le_two_pow, show (-1 : Int) = (2 ^ w - 1) - 2 ^ w by omega, Int.sub_emod_right,
          Int.emod_eq_of_lt (by omega) (by omega)]
        push_cast
        rfl
      simp only [if_neg Bool.false_ne_true, h1, Int.toNat_natCast]
    · rw [if_neg hv, Int.ediv_eq_zero_of_lt (by omega) hlt.1]
      unfold writeEl
      simp
  · rw [if_neg hn, Nat.min_eq_left (by omega)]
    push_cast
    rfl

/-! ## Permutations and moves -/

section
variable {w : Nat} (a b c : Vec)

theorem vecPerm_eq : vecPerm w a b c = vFrom w fun j =>
    let k := vEl w c j
    if k < 1024 / w then vEl w a k else if k < 2 * (1024 / w) then vEl w b (k - 1024 / w) else 0 := by
  refine vOf_eq_vFrom (by simp [vElems_length]) fun j hj => ?_
  simp only [vElems_eq, List.map_map, List.getD_eq_getElem?_getD, List.getElem?_map, List.getElem?_range hj, Option.map_some,
    Option.getD_some, Function.comp_apply]
  generalize vEl w c j = k
  congr 1
  by_cases h1 : k < 1024 / w
  · rw [if_pos (by omega), if_pos h1, List.getElem?_append_left (by simpa using h1)]
    simp [h1]
  · rw [if_neg h1]
    by_cases h2 : k < 2 * (1024 / w)
    · rw [if_pos h2, if_pos h2, List.getElem?_append_right (by simpa using h1)]
      have : k - 1024 / w < 1024 / w := by omega
      simp [this]
    · rw [if_neg h2, if_neg h2]

theorem vecRot_eq (k : Nat) : vecRot w k a = vFrom w fun j => vEl w a ((j + k) % (1024 / w)) := by
  refine vOf_eq_vFrom (by simp) fun j hj => ?_
  have hlt : (j + k) % (1024 / w) < 1024 / w := Nat.mod_lt _ (by omega)
  simp only [List.getD_eq_getElem?_getD, List.getElem?_map, List.getElem?_range hj, Option.map_some, Option.getD_some]
  rw [← List.getD_eq_getElem?_getD, vElems_getD, if_pos hlt]

theorem vecBcast_eq (k : Nat) : vecBcast w k a = vFrom w fun _ => if k < 1024 / w then vEl w a k else 0 := by
  refine vOf_eq_vFrom (by simp) fun j hj => ?_
  rw [vElems_getD]
  simp [List.getD_eq_getElem?_getD, hj]

theorem vecIns_eq (k : Nat) (x : Quad) :
    vecIns w k a x = vFrom w fun j => if j = k then x.toNat % 2 ^ w else vEl w a j := by
  refine vOf_eq_vFrom (by simp [vElems_length]) fun j hj => ?_
  simp only [vElems_eq, List.getD_eq_getElem?_getD, List.getElem?_set, List.length_map, List.length_range,
    List.getElem?_map, List.getElem?_range hj]
  by_cases h : j = k
  · subst h
    simp [hj]
  · simp [h, Ne.symm h]

theorem vecComp_eq : vecComp w a b = vFrom w fun j => (chosen w a b).getD j 0 := by
  have h : (((vElems w a).zip (vElems w b)).filter fun p => p.2 != 0).map (·.1) = chosen w a b := by
    unfold chosen
    rw [vElems_eq, vElems_eq, List.zip_map', List.filter_map, List.map_map]
    rfl
  unfold vecComp
  rw [h]
  refine vOf_eq_vFrom ?_ fun j _ => rfl
  unfold chosen
  simpa using List.length_filter_le (fun j => vEl w b j != 0) (List.range (1024 / w))

/-- The source of each selected element of an expansion is the one that as many selected elements precede. -/
theorem vecExpd_go_getD (src sel : List Nat) (j : Nat) (hj : j < sel.length) :
    (vecExpd.go src sel).getD j 0 = if sel.getD j 0 = 0 then 0
      else src.getD (((List.range j).filter fun k => sel.getD k 0 != 0).length) 0 := by
  induction sel generalizing src j with
  | nil => cases hj
  | cons e sel ih =>
    have hcount (j : Nat) : ((List.range (j + 1)).filter fun k => (e :: sel).getD k 0 != 0).length =
        (if e = 0 then 0 else 1) + ((List.range j).filter fun k => sel.getD k 0 != 0).length := by
      rw [List.range_succ_eq_map, List.filter_cons, List.filter_map, List.getD_cons_zero]
      by_cases he : e = 0
      · simp [he, Function.comp_def]
      · simp [he, Function.comp_def, Nat.add_comm]
    cases j with
    | zero =>
      by_cases he : e = 0
      · simp [vecExpd.go, he]
      · cases src <;> simp [vecExpd.go, he]
    | succ j =>
      have hj' : j < sel.length := by simpa using hj
      rw [hcount, List.getD_cons_succ]
      by_cases he : e = 0
      · rw [vecExpd.go, if_pos he, List.getD_cons_succ, ih src j hj', if_pos he, Nat.zero_add]
      · rw [vecExpd.go, if_neg he, List.getD_cons_succ, ih src.tail j hj', if_neg he, Nat.add_comm]
        cases src <;> simp

theorem vecExpd_go_length (src sel : List Nat) : (vecExpd.go src sel).length = sel.length := by
  induction sel generalizing src with
  | nil => cases src <;> rfl
  | cons e sel ih =>
    rw [vecExpd.go]
    split <;> simp [ih]

theorem vecExpd_eq : vecExpd w a b = vFrom w fun j => if vEl w b j = 0 then 0
    else vEl w a (((List.range j).filter fun k => vEl w b k != 0).length) := by
  refine vOf_eq_vFrom (by rw [vecExpd_go_length, vElems_length]) fun j hj => ?_
  rw [vecExpd_go_getD _ _ j (by rwa [vElems_length]), vElems_getD, vElems_getD, if_pos hj]
  have hf : ((List.range j).filter fun k => (vElems w b).getD k 0 != 0) = (List.range j).filter fun k => vEl w b k != 0 := by
    refine List.filter_congr fun k hk => ?_
    rw [vElems_getD, if_pos (by rw [List.mem_range] at hk; omega)]
  have hle := List.length_filter_le (fun k => vEl w b k != 0) (List.range j)
  rw [List.length_range] at hle
  rw [hf, if_pos (show _ < 1024 / w by omega)]

theorem vecLi_eq (r : BitVec 1) (k : Int) : vecLi w (r == 1#1) k = vFrom w fun j =>
    ((k + (if r = 1 then (j : Int) else 0)) % 2 ^ w).toNat := by
  have hr : (r == 1#1) = true ↔ r = 1 := beq_iff_eq
  unfold vecLi vFrom
  simp only [hr]
  push_cast
  rfl

theorem vecSplat_eq (x : Quad) : vecSplat w x = vFrom w fun _ => x.toNat % 2 ^ w := by
  refine vOf_eq_vFrom (by simp) fun j hj => ?_
  simp [List.getD_eq_getElem?_getD, hj]

end

end Sys2Proof.Machine
end

section
/-! PROOFS. The vector operations on records, the conversions, the reductions and the merge (R200-R206). -/

namespace Sys2Proof.Machine

/-! ## Bytes of a vector -/

theorem leBytes_getD {n j : Nat} (h : j < n) (v : Nat) : ((leBytes n v).getD j 0).toNat = v / 256 ^ j % 256 := by
  induction n generalizing j v with
  | zero => cases h
  | succ n ih =>
    cases j with
    | zero => simp [leBytes]
    | succ j =>
      rw [leBytes, List.getD_cons_succ, ih (by omega), Nat.div_div_eq_div_mul, Nat.pow_succ, Nat.mul_comm 256]

theorem vBytes_headD (a : Vec) : ((vBytes a).headD 0).toNat = vEl 8 a 0 := by
  simp [vBytes, leBytes, vEl]

theorem leNat_vBytes_drop (a : Vec) : leNat ((vBytes a).drop 1) = a.toNat / 256 := by
  rw [show (vBytes a).drop 1 = leBytes 127 (a.toNat / 256) from rfl, leNat_leBytes, Nat.mod_eq_of_lt]
  exact Nat.div_lt_of_lt_mul (lt_of_lt_of_eq a.isLt (by rw [show 256 = 2 ^ 8 by rfl, ← Nat.pow_mul, ← Nat.pow_add]))

/-- The codes of a record in a vector. -/
theorem recordCodes_vBytes (f : Fmt) (a : Vec) : recordCodes f ((vBytes a).drop 1) =
    (List.range 32).map fun i => a.toNat / 2 ^ (8 + fmtWidth f * i) % 2 ^ fmtWidth f := by
  unfold recordCodes
  rw [leNat_vBytes_drop]
  refine List.map_congr_left fun i _ => ?_
  rw [Nat.div_div_eq_div_mul, Nat.pow_add]

theorem elemsNat_bytes (bs : List Byte) : elemsNat 8 (bs.map (·.toNat)) = leNat bs := by
  induction bs with
  | nil => rfl
  | cons b bs ih =>
    have hb : b.toNat % 256 = b.toNat := Nat.mod_eq_of_lt b.isLt
    simp only [elemsNat, List.map_cons, List.foldr_cons, leNat] at ih ⊢
    rw [ih, show 2 ^ 8 = 256 by rfl, hb]

/-- The vector whose low bytes are a list. -/
theorem ofNat_leNat {bs : List Byte} (h : bs.length ≤ 128) :
    BitVec.ofNat 1024 (leNat bs) = vFrom 8 fun j => (bs.getD j 0).toNat := by
  rw [← elemsNat_bytes, ← vOf_eq]
  refine vOf_eq_vFrom (by simpa using h) fun j _ => ?_
  simp only [List.getD_eq_getElem?_getD, List.getElem?_map]
  cases bs[j]? <;> rfl

/-! ## Records -/

theorem fmtWidth_record {f : Fmt} (h : fmtIsRecord f = true) : 0 < fmtWidth f ∧ fmtWidth f ≤ 8 := by
  cases f <;> simp_all [fmtIsRecord, fmtWidth]

theorem recordBytes_length (f : Fmt) (sc : Byte) (codes : List Nat) : (recordBytes f sc codes).length = 1 + 4 * fmtWidth f := by
  unfold recordBytes
  rw [List.length_cons, leBytes_length, Nat.add_comm]

theorem vecUnpk_eq {f : Fmt} (a : Vec) : vecUnpk f a = vFrom 8 fun j =>
    if j = 0 then vEl 8 a 0 else if j < 33 then a.toNat / 2 ^ (8 + fmtWidth f * (j - 1)) % 2 ^ fmtWidth f else 0 := by
  unfold vecUnpk
  dsimp only
  rw [recordCodes_vBytes]
  refine vOf_eq_vFrom (by simp) fun j _ => ?_
  cases j with
  | zero => rw [List.getD_cons_zero, vBytes_headD]; rfl
  | succ j =>
    rw [List.getD_cons_succ, if_neg (Nat.succ_ne_zero j), Nat.add_sub_cancel]
    by_cases hj : j < 32
    · rw [if_pos (by omega)]
      simp [List.getD_eq_getElem?_getD, hj]
    · rw [if_neg (by omega)]
      simp [List.getD_eq_getElem?_getD, hj]

/-- Digits at width `w` one above another. -/
theorem digits_lt (w n : Nat) (x : Nat → Nat) : ((List.range n).map fun i => x i % 2 ^ w * 2 ^ (w * i)).sum < 2 ^ (w * n) := by
  induction n with
  | zero => simp
  | succ n ih =>
    have hd : x n % 2 ^ w + 1 ≤ 2 ^ w := Nat.mod_lt _ (by positivity)
    have := Nat.mul_le_mul_right (2 ^ (w * n)) hd
    rw [List.range_succ, List.map_append, List.sum_append, Nat.mul_succ, Nat.pow_add, Nat.mul_comm (2 ^ (w * n))]
    simp only [List.map_cons, List.map_nil, List.sum_cons, List.sum_nil]
    rw [Nat.add_mul, Nat.one_mul] at this
    omega

theorem leNat_recordBytes (f : Fmt) (sc : Byte) (codes : List Nat) : leNat (recordBytes f sc codes) =
    sc.toNat + ((List.range 32).map fun i => codes.getD i 0 % 2 ^ fmtWidth f * 2 ^ (8 + fmtWidth f * i)).sum := by
  have hfold (l : List Nat) (g : Nat → Nat) (x : Nat) : l.foldl (fun a i => a + g i) x = x + (l.map g).sum := by
    induction l generalizing x with
    | nil => rfl
    | cons i l ih => rw [List.foldl_cons, ih, List.map_cons, List.sum_cons, Nat.add_assoc]
  have hlt := digits_lt (fmtWidth f) 32 fun i => codes.getD i 0
  unfold recordBytes
  dsimp only
  rw [hfold, Nat.zero_add, leNat, leNat_leBytes, Nat.mod_eq_of_lt, ← List.sum_map_mul_left]
  · congr 2
    refine List.map_congr_left fun i _ => ?_
    rw [Nat.pow_add]
    ring
  · rwa [show 256 ^ (4 * fmtWidth f) = 2 ^ (fmtWidth f * 32) by rw [show 256 = 2 ^ 8 by rfl, ← Nat.pow_mul]; congr 1; ring]

theorem vecPack_eq (f : Fmt) (a : Vec) : vecPack f a = BitVec.ofNat 1024 (vEl 8 a 0 +
    ((List.range 32).map fun j => vEl 8 a (1 + j) % 2 ^ fmtWidth f * 2 ^ (8 + fmtWidth f * j)).sum) := by
  unfold vecPack
  dsimp only
  rw [leNat_recordBytes, vBytes_headD]
  congr 3
  refine List.map_congr_left fun j hj => ?_
  have hj : j < 32 := List.mem_range.mp hj
  congr 2
  rw [show (vBytes a).drop 1 = leBytes 127 (a.toNat / 256) from rfl]
  have h := leBytes_getD (show j < 127 by omega) (a.toNat / 256)
  rw [List.getD_eq_getElem?_getD] at h ⊢
  rw [List.getElem?_map, List.getElem?_take_of_lt hj]
  rw [List.getElem?_eq_getElem (by rw [leBytes_length]; omega)] at h ⊢
  rw [Option.map_some, Option.getD_some]
  rw [Option.getD_some, Nat.div_div_eq_div_mul] at h
  have hp : 2 ^ (8 * (1 + j)) = 256 * 256 ^ j :=
    calc 2 ^ (8 * (1 + j)) = (2 ^ 8) ^ (j + 1) := (Nat.pow_mul 2 8 (1 + j)).trans (congrArg _ (Nat.add_comm 1 j))
      _ = 256 * 256 ^ j := Nat.pow_succ'
  exact h.trans (congrArg (fun n => a.toNat / n % 256) hp.symm)

/-! ## Conversions and quantisations -/

section
variable (rm : Rm) (sat ftz : Bool) (a : Vec)

theorem vecDqnt_eq {f g : Fmt} {k : Nat} (h : 32 * k + 32 ≤ 1024 / fmtWidth g) :
    vecDqnt f g k rm sat ftz a = vFrom (fmtWidth g) fun j =>
      if 32 * k ≤ j ∧ j < 32 * k + 32 then
        fmtRound g rm sat ftz ((fmtValue (.b8 5 true true) ftz (vEl 8 a 0)).mul
          (fmtValue f ftz (a.toNat / 2 ^ (8 + fmtWidth f * (j - 32 * k)) % 2 ^ fmtWidth f)))
      else 0 := by
  unfold vecDqnt
  dsimp only
  rw [recordCodes_vBytes, vBytes_headD]
  refine vOf_eq_vFrom (by simpa using h) fun j _ => ?_
  congr 1
  rw [List.getD_eq_getElem?_getD, List.getElem?_append, List.length_replicate]
  by_cases hj : j < 32 * k
  · rw [if_pos hj, if_neg (by omega)]
    simp [hj]
  · rw [if_neg hj]
    by_cases hj' : j < 32 * k + 32
    · have : j - 32 * k < 32 := by omega
      rw [if_pos ⟨by omega, hj'⟩]
      simp [this]
    · have : ¬j - 32 * k < 32 := by omega
      rw [if_neg (by omega)]
      simp [this]

theorem part32_eq {f : Fmt} {k : Nat} (h : 32 * k + 32 ≤ 1024 / fmtWidth f) :
    part32 f k a = (List.range 32).map fun j => vEl (fmtWidth f) a (32 * k + j) := by
  refine List.ext_getElem ?_ fun j h1 h2 => ?_
  · simp only [part32, List.length_take, List.length_drop, vElems_length, List.length_map, List.length_range]
    omega
  · simp [part32, vElems_eq]

theorem vecQnt_eq {f g : Fmt} {k : Nat} (h : 32 * k + 32 ≤ 1024 / fmtWidth f) (hg : fmtIsRecord g = true) (sc : Option Byte) :
    vecQnt f g k sc rm sat ftz a = vFrom 8 fun j =>
      let xs := (List.range 32).map fun j => fmtValue f ftz (vEl (fmtWidth f) a (32 * k + j))
      let s := sc.getD (quantScale g xs)
      (((recordBytes g s (xs.map fun v => fmtRound g rm sat ftz (quantQuot v (scaleValue s)))).getD j 0) : Byte).toNat := by
  unfold vecQnt vecQnt.vecOfBytes
  dsimp only
  rw [part32_eq a h, List.map_map, ofNat_leNat]
  · rfl
  · have := fmtWidth_record hg
    rw [recordBytes_length]
    omega

/-- The powers of two that the widths of vector elements are. -/
theorem fmtWidth_pow {f : Fmt} (h : fmtIsVector f = true) : ∃ p, 2 ≤ p ∧ p ≤ 6 ∧ fmtWidth f = 2 ^ p := by
  cases f with
  | h6s => cases h
  | i4s | i4n | h4s | h4n => exact ⟨2, by decide⟩
  | i8s | i8n | h8s | h8n | b8 => exact ⟨3, by decide, by decide, rfl⟩
  | i16s | fp16 | bf16 => exact ⟨4, by decide⟩
  | i32s | fp32 => exact ⟨5, by decide⟩
  | i64s | a56 => exact ⟨6, by decide⟩

theorem vecCvt_eq {f g : Fmt} {k : Nat} (hf : fmtIsVector f = true) (hg : fmtIsVector g = true)
    (hk : k < max (fmtWidth f) (fmtWidth g) / min (fmtWidth f) (fmtWidth g)) :
    vecCvt f g k rm sat ftz a = cvtRule f g k rm sat ftz a := by
  obtain ⟨p, hp2, hp6, hp⟩ := fmtWidth_pow hf
  obtain ⟨q, hq2, hq6, hq⟩ := fmtWidth_pow hg
  unfold vecCvt cvtRule
  dsimp only
  rcases Nat.lt_trichotomy (fmtWidth f) (fmtWidth g) with hlt | heq | hgt
  · rw [Nat.max_eq_right hlt.le]
    simp only [if_pos hlt]
    refine vOf_eq_vFrom (by simp) fun j hj => ?_
    congr 1
    rw [List.getD_eq_getElem?_getD, List.getElem?_map, List.getElem?_take_of_lt hj, List.getElem?_drop, vElems_eq]
    by_cases h : 1024 / fmtWidth g * k + j < 1024 / fmtWidth f <;> simp [h]
  · simp only [heq, lt_irrefl, if_false, or_true, if_true]
    refine vOf_eq_vFrom (by simp [vElems_length]) fun j hj => ?_
    simp [vElems_eq, List.getD_eq_getElem?_getD, hj]
  · have hn : ¬fmtWidth f < fmtWidth g := by omega
    have hne : fmtWidth f ≠ fmtWidth g := by omega
    rw [Nat.max_eq_left hgt.le]
    simp only [if_neg hn, if_pos hgt, hne, or_false, if_false]
    have hroom : 1024 / fmtWidth f * k + 1024 / fmtWidth f ≤ 1024 / fmtWidth g := by
      rw [Nat.max_eq_left hgt.le, Nat.min_eq_right hgt.le] at hk
      rw [hp, hq] at hk hgt ⊢
      interval_cases p <;> interval_cases q <;> omega
    refine vOf_eq_vFrom (by simpa [vElems_length] using hroom) fun j hj => ?_
    congr 1
    rw [List.getD_eq_getElem?_getD, List.getElem?_append, List.length_replicate, vElems_eq]
    by_cases hj1 : j < 1024 / fmtWidth f * k
    · rw [if_pos hj1, if_neg (by omega)]
      simp [hj1]
    · rw [if_neg hj1]
      by_cases hj2 : j < 1024 / fmtWidth f * k + 1024 / fmtWidth f
      · have : j - 1024 / fmtWidth f * k < 1024 / fmtWidth f := by omega
        rw [if_pos ⟨by omega, hj2⟩]
        simp [this]
      · have : ¬j - 1024 / fmtWidth f * k < 1024 / fmtWidth f := by omega
        rw [if_neg (by omega)]
        simp [this]

end

/-! ## Reductions and the merge -/

section
variable {w : Nat} (a b c : Vec)

theorem vElems_map_elemInt (u : BitVec 1) :
    (vElems w a).map (elemInt w (u == 1#1)) = (List.range (1024 / w)).map fun k => readEl w u (vEl w a k) := by
  rw [vElems_eq, List.map_map]
  exact List.map_congr_left fun k _ => elemInt_eq u (vEl_lt w a k)

theorem vecRadd_eq (u : BitVec 1) (sat : Bool) : vecRadd w (u == 1#1) sat a = vFrom 64 fun j =>
    if j = 0 then writeEl 64 u false (reduceTree (fun p q => readEl 64 u (writeEl 64 u sat (p + q))) 0
      ((List.range (1024 / w)).map fun k => readEl w u (vEl w a k)))
    else 0 := by
  unfold vecRadd
  dsimp only
  rw [vElems_map_elemInt, vFrom_first (by decide) (by decide), Nat.mod_eq_of_lt (writeEl_lt ..), intResult_eq]
  simp only [intResult_eq, elemInt_eq u (writeEl_lt ..)]

theorem vecRmax_eq (hw : 0 < w) (hw' : w ≤ 1024) (u : BitVec 1) : vecRmax w (u == 1#1) a = vFrom w fun j =>
    if j = 0 then writeEl w u false (reduceTree (fun p q => if p < q then q else p) 0
      ((List.range (1024 / w)).map fun k => readEl w u (vEl w a k)))
    else 0 := by
  have hmax : (max : Int → Int → Int) = fun p q => if p < q then q else p := by
    funext p q
    split_ifs <;> omega
  unfold vecRmax
  rw [vElems_map_elemInt, vFrom_first hw hw', Nat.mod_eq_of_lt (writeEl_lt ..), intResult_eq, hmax]

/-- The vector whose first element is a reduction of floating codes. -/
theorem reduced_eq (hw : 0 < w) (hw' : w ≤ 1024) (f : Nat → Nat → Nat) :
    BitVec.ofNat 1024 (reduceTree f 0 (vElems w a) % 2 ^ w) = vFrom w fun j =>
      if j = 0 then reduceTree f 0 ((List.range (1024 / w)).map (vEl w a)) else 0 := by
  rw [vFrom_first hw hw', vElems_eq]

theorem mergeTriples_length (x y : Triple) (hx : x.o.length = 32) (hy : y.o.length = 32) : (mergeTriples x y).o.length = 32 := by
  unfold mergeTriples
  split <;> simp [hx, hy]

theorem vecMrg3_eq (sel : BitVec 1) : vecMrg3 (sel == 1#1) a b c =
    let k (n : Nat) : Nat := vEl 32 c n
    let os (v : Vec) : List Nat := (List.range 32).map (vEl 32 v)
    let t := mergeTriples { m := k 0, s := k 1, o := os a } { m := k 2, s := k 3, o := os b }
    vFrom 32 fun j => if sel = 0 then t.o.getD j 0 else if j = 0 then t.m else if j = 1 then t.s else 0 := by
  have hk (n : Nat) (hn : n < 32) : (vElems 32 c).getD n 0 = vEl 32 c n := by
    rw [vElems_getD, if_pos (show n < 1024 / 32 from hn)]
  unfold vecMrg3
  dsimp only
  rw [hk 0 (by decide), hk 1 (by decide), hk 2 (by decide), hk 3 (by decide)]
  rw [show vElems 32 a = (List.range 32).map (vEl 32 a) from rfl, show vElems 32 b = (List.range 32).map (vEl 32 b) from rfl]
  set x : Triple := { m := vEl 32 c 0, s := vEl 32 c 1, o := (List.range 32).map (vEl 32 a) } with hx
  set y : Triple := { m := vEl 32 c 2, s := vEl 32 c 3, o := (List.range 32).map (vEl 32 b) } with hy
  rcases bit_cases sel with rfl | rfl
  · rw [if_neg (by decide)]
    simp only [if_true]
    refine vOf_eq_vFrom ?_ fun j _ => rfl
    rw [mergeTriples_length x y (by simp [hx]) (by simp [hy])]
  · have hnan : (if (f32Value (vEl 32 c 0)).isNan || (f32Value (vEl 32 c 2)).isNan then [f32Nan, f32Nan]
        else [(mergeTriples x y).m, (mergeTriples x y).s]) = [(mergeTriples x y).m, (mergeTriples x y).s] := by
      split
      · next h =>
        unfold mergeTriples
        rw [if_pos h]
      · rfl
    rw [if_pos (by decide), hnan]
    refine vOf_eq_vFrom (show 2 ≤ 1024 / 32 by decide) fun j _ => ?_
    rw [if_neg (by decide)]
    match j with
    | 0 => rfl
    | 1 => rfl
    | j + 2 => rfl

end

end Sys2Proof.Machine
end

section
/-! PROOFS. The instructions with a vector destination (R190-R208). -/

namespace Sys2Proof.Machine

/-! ## Operands -/

/-- A stall or a trap leaves the machine as it is. -/
def Res.leaves (s : State) : Res → Prop
  | .stall _ t => t = s
  | .trap _ _ _ t => t = s
  | _ => True

section
variable {s : State} {r : Res}

theorem State.meetStream_leaves {n : Nat} (h : s.meetStream n = .error r) : r.leaves s := by
  unfold State.meetStream at h
  split_ifs at h <;> cases h <;> rfl

theorem State.openRead_leaves {n : Nat} (h : s.openRead n = .error r) : r.leaves s := by
  unfold State.openRead at h
  cases hm : s.meetStream n with
  | error e => rw [hm] at h; cases h; exact State.meetStream_leaves hm
  | ok z =>
    rw [hm] at h
    dsimp only at h
    cases hb : z.buf with
    | nil => rw [hb] at h; dsimp only at h; split_ifs at h <;> cases h <;> rfl
    | cons b l => rw [hb] at h; dsimp only at h; split_ifs at h <;> cases h <;> rfl

theorem State.openWrite_leaves {n : Nat} (h : s.openWrite n = .error r) : r.leaves s := by
  unfold State.openWrite at h
  cases hm : s.meetStream n with
  | error e => rw [hm] at h; cases h; exact State.meetStream_leaves hm
  | ok z =>
    rw [hm] at h
    dsimp only at h
    split_ifs at h <;> cases h <;> rfl

theorem State.operandsOpen_leaves {d : Option VDst} {srcs : List VSrc} (h : s.operandsOpen d srcs = .error r) : r.leaves s := by
  rcases (s.operandsOpen_iff d srcs).2 r h with ⟨n, -, hr⟩ | ⟨n, -, hr⟩
  · exact State.openRead_leaves hr
  · exact State.openWrite_leaves hr

/-- The machine with streams of the context in execution replaced. -/
def State.StreamsTaken (s t : State) : Prop := t.cur = s.cur ∧ ∃ z, t.cc = { s.cc with z := z }

theorem State.StreamsTaken.refl (s : State) : s.StreamsTaken s := ⟨rfl, s.cc.z, rfl⟩

theorem State.StreamsTaken.trans {t u : State} (h : s.StreamsTaken t) (h' : t.StreamsTaken u) : s.StreamsTaken u := by
  obtain ⟨hcur, z, hcc⟩ := h
  obtain ⟨hcur', z', hcc'⟩ := h'
  exact ⟨hcur'.trans hcur, z', by rw [hcc', hcc]⟩

theorem State.StreamsTaken.rm {t : State} (h : s.StreamsTaken t) (m : Mods) : t.rm m = s.rm m := by
  obtain ⟨-, z, hcc⟩ := h
  unfold State.rm
  rw [hcc]

theorem State.StreamsTaken.rx {t : State} (h : s.StreamsTaken t) (x : Reg) : t.rx x = s.rx x := by
  obtain ⟨hcur, z, hcc⟩ := h
  unfold State.rx State.ce
  rw [hcc, hcur]
  rfl

theorem State.takeStream_taken {t : State} {n : Nat} {v : Vec} (h : s.takeStream n = .ok (t, v)) : s.StreamsTaken t := by
  have hset (z : Stream) : s.StreamsTaken (s.setStream n z) := ⟨rfl, tput s.cc.z n z, State.modMe_cc s _⟩
  unfold State.takeStream at h
  cases hr : s.openRead n with
  | error e => rw [hr] at h; cases h
  | ok p =>
    obtain ⟨z, o⟩ := p
    rw [hr] at h
    cases o with
    | none => cases h; exact hset _
    | some b =>
      dsimp only at h
      cases hm : b.mark with
      | none => rw [hm] at h; cases h; exact hset _
      | some f => rw [hm] at h; cases h

theorem State.takeSrcs_taken {t : State} {got : List (Nat × Vec)} {srcs : List VSrc} {l : List Vec}
    (h : s.takeSrcs got srcs = .ok (t, l)) : s.StreamsTaken t := by
  induction srcs generalizing s got l with
  | nil => cases h; exact .refl _
  | cons x srcs ih =>
    have hrest {u : State} {got : List (Nat × Vec)} {f : List Vec → List Vec}
        (h : (match u.takeSrcs got srcs with | .ok (t, l) => .ok (t, f l) | .error e => .error e) =
          (.ok (t, l) : Except Res (State × List Vec))) : u.StreamsTaken t := by
      cases hu : u.takeSrcs got srcs with
      | error e => rw [hu] at h; cases h
      | ok p =>
        rw [hu] at h
        obtain ⟨t', l'⟩ := p
        cases h
        exact ih hu
    unfold State.takeSrcs at h
    cases x with
    | v n => exact hrest h
    | fd n => exact hrest h
    | z n =>
      dsimp only at h
      cases hg : got.find? fun p => p.1 == n.toNat with
      | some p => rw [hg] at h; exact hrest h
      | none =>
        rw [hg] at h
        dsimp only at h
        cases hs : s.takeStream n.toNat with
        | error e => rw [hs] at h; cases h
        | ok p =>
          obtain ⟨u, v⟩ := p
          rw [hs] at h
          exact (State.takeStream_taken hs).trans (hrest h)

end

/-! ## A vector instruction -/

/-- What the obligation says of an instruction with a vector destination. -/
def VectorDoes (i : Instr) (s : State) (d : VDst) (srcs : List VSrc) (f : List Vec → Vec) : Prop :=
  (∀ w t, s.operandsOpen (some d) srcs = .error (.stall w t) → exec i s = .next (s.stallHere w)) ∧
  (∀ c a x t, s.operandsOpen (some d) srcs = .error (.trap c a x t) → exec i s = .next (s.trapHere c a x)) ∧
  (s.operandsOpen (some d) srcs = .ok () →
    (∀ t l u, s.takeSrcs [] srcs = .ok (t, l) → t.putDst d (f l) = .ok u → exec i s = .next (past i s u)) ∧
    ∀ t, s.takeSrcs [] srcs = .error (.stay t) → exec i s = .next t)

section
variable {i : Instr} {s : State} {d : Option VDst} {srcs : List VSrc} {f : State → List Vec → Res}

theorem State.withSrcs_error {r : Res} (h : s.operandsOpen d srcs = .error r) : s.withSrcs d srcs f = r := by
  unfold State.withSrcs
  rw [h]

theorem State.withSrcs_ok {t : State} {l : List Vec} (h : s.operandsOpen d srcs = .ok ()) (ht : s.takeSrcs [] srcs = .ok (t, l)) :
    s.withSrcs d srcs f = f t l := by
  unfold State.withSrcs
  rw [h]
  dsimp only
  rw [ht]

theorem State.withSrcs_marked {r : Res} (h : s.operandsOpen d srcs = .ok ()) (ht : s.takeSrcs [] srcs = .error r) :
    s.withSrcs d srcs f = r := by
  unfold State.withSrcs
  rw [h]
  dsimp only
  rw [ht]

/-- An instruction whose operands cannot be served stalls or traps with nothing done. -/
theorem operands_closed (hrun : exec i s = .next (s.settleRes (formOf i s) (s.withSrcs d srcs f))) :
    (∀ w t, s.operandsOpen d srcs = .error (.stall w t) → exec i s = .next (s.stallHere w)) ∧
    ∀ c a x t, s.operandsOpen d srcs = .error (.trap c a x t) → exec i s = .next (s.trapHere c a x) := by
  refine ⟨fun w t h => ?_, fun c a x t h => ?_⟩
  · obtain rfl : t = s := State.operandsOpen_leaves h
    rw [hrun, State.withSrcs_error h]
    rfl
  · obtain rfl : t = s := State.operandsOpen_leaves h
    rw [hrun, State.withSrcs_error h]
    rfl

end

/-- A result passed on, where its destination can take it. -/
def State.passesOn (s t : State) (d : VDst) (v : Vec) : Res :=
  match t.putDst d v with
  | .error (.stall w _) => .stall w s
  | .error r => r
  | .ok u => .ok u

/-- A vector instruction does what its rule says, where its own function gives what the rule's does. -/
theorem Ready.vector {i : Instr} {s : State} (hr : Ready s i) {e} {m : Mods} {d : VDst} {srcs : List VSrc} {regs : List Reg}
    {f : List Vec → Vec} {g : State → List Vec → Vec} (he : exec i s = e) (h : e = vecOp m d srcs regs s g)
    (hf : formOf i s = vecForm m (some d) srcs regs) (hg : ∀ t l, s.StreamsTaken t → g t l = f l) : VectorDoes i s d srcs f := by
  have hrun : exec i s = .next (s.settleRes (formOf i s) (s.withSrcs (some d) srcs fun t l => s.passesOn t d (g t l))) :=
    hr.run (body := fun t => t.withSrcs (some d) srcs fun u l => t.passesOn u d (g u l)) he
      (h.trans (by unfold vecOp State.passesOn; rfl)) hf
  obtain ⟨hstall, htrap⟩ := operands_closed hrun
  refine ⟨hstall, htrap, fun ho => ⟨fun t l u ht hu => ?_, fun t ht => ?_⟩⟩
  · rw [hrun, State.withSrcs_ok ho ht]
    unfold State.passesOn
    rw [hg t l (State.takeSrcs_taken ht), hu]
    rfl
  · rw [hrun, State.withSrcs_marked ho ht]
    rfl

/-! ## Integer instructions -/

theorem etBits_pos (e : IntEt) : 0 < etBits e ∧ etBits e ≤ 1024 := by cases e <;> decide

section
variable {w : Nat} (u : BitVec 1) (sat : Bool) (l : List Vec)

/-- An integer operation of the model is that of the rule. -/
theorem vMap2_intRule {f g : Int → Int → Int} (h : ∀ x y, f x y = g x y) :
    vMap2 w (fun x y => intResult w (u == 1#1) sat (f (elemInt w (u == 1#1) x) (elemInt w (u == 1#1) y))) (l.getD 0 0) (l.getD 1 0) =
      intRule2 w u sat g l := by
  rw [vMap2_eq]
  refine vFrom_congr fun j _ => ?_
  rw [intResult_eq, elemInt_eq u (vEl_lt ..), elemInt_eq u (vEl_lt ..), h]

theorem vMap1_intRule {f g : Int → Int} (h : ∀ x, f x = g x) :
    vMap1 w (fun x => intResult w (u == 1#1) sat (f (elemInt w (u == 1#1) x))) (l.getD 0 0) = intRule1 w u sat g l := by
  rw [vMap1_eq]
  refine vFrom_congr fun j _ => ?_
  rw [intResult_eq, elemInt_eq u (vEl_lt ..), h]

end

section
variable {s : State} {m : Mods} {d : VDst} {a b c : VSrc} {u : BitVec 1} {e : IntEt} {f : List Vec → Vec} {srcs : List VSrc}

theorem Ready.vadd (hr : Ready s (.vadd m d a b u e)) :
    VectorDoes (.vadd m d a b u e) s d [a, b] (intRule2 (etBits e) u (satOf m) (· + ·)) :=
  hr.vector (e := execVadd m d a b u e s) rfl rfl rfl fun _ l _ => vMap2_intRule u _ l fun _ _ => rfl

theorem Ready.vsub (hr : Ready s (.vsub m d a b u e)) :
    VectorDoes (.vsub m d a b u e) s d [a, b] (intRule2 (etBits e) u (satOf m) (· - ·)) :=
  hr.vector (e := execVsub m d a b u e s) rfl rfl rfl fun _ l _ => vMap2_intRule u _ l fun _ _ => rfl

theorem Ready.vmul (hr : Ready s (.vmul m d a b u e)) :
    VectorDoes (.vmul m d a b u e) s d [a, b] (intRule2 (etBits e) u (satOf m) (· * ·)) :=
  hr.vector (e := execVmul m d a b u e s) rfl rfl rfl fun _ l _ => vMap2_intRule u _ l fun _ _ => rfl

theorem Ready.vmulh (hr : Ready s (.vmulh m d a b u e)) :
    VectorDoes (.vmulh m d a b u e) s d [a, b] (intRule2 (etBits e) u false fun p q => p * q / 2 ^ etBits e) :=
  hr.vector (e := execVmulh m d a b u e s) rfl rfl rfl fun _ l _ =>
    vMap2_intRule (f := fun x y => x * y / (2 ^ etBits e : Nat)) u _ l fun x y => by rw [Nat.cast_pow, Nat.cast_ofNat]

theorem Ready.vmin (hr : Ready s (.vmin m d a b u e)) :
    VectorDoes (.vmin m d a b u e) s d [a, b] (intRule2 (etBits e) u false fun p q => if q < p then q else p) :=
  hr.vector (e := execVmin m d a b u e s) rfl rfl rfl fun _ l _ =>
    vMap2_intRule (f := fun x y => min x y) u _ l fun x y => by split_ifs <;> omega

theorem Ready.vmax (hr : Ready s (.vmax m d a b u e)) :
    VectorDoes (.vmax m d a b u e) s d [a, b] (intRule2 (etBits e) u false fun p q => if p < q then q else p) :=
  hr.vector (e := execVmax m d a b u e s) rfl rfl rfl fun _ l _ =>
    vMap2_intRule (f := fun x y => max x y) u _ l fun x y => by split_ifs <;> omega

theorem Ready.vabs (hr : Ready s (.vabs m d a u e)) :
    VectorDoes (.vabs m d a u e) s d [a] (intRule1 (etBits e) u (satOf m) fun p => if p < 0 then -p else p) :=
  hr.vector (e := execVabs m d a u e s) rfl rfl rfl fun _ l _ =>
    vMap1_intRule (f := fun x => (x.natAbs : Int)) u _ l fun x => by split_ifs <;> omega

theorem Ready.vneg (hr : Ready s (.vneg m d a u e)) :
    VectorDoes (.vneg m d a u e) s d [a] (intRule1 (etBits e) u (satOf m) fun p => -p) :=
  hr.vector (e := execVneg m d a u e s) rfl rfl rfl fun _ l _ => vMap1_intRule u _ l fun _ => rfl

end

end Sys2Proof.Machine
end

section
/-! PROOFS. The rest of the instructions with a vector destination, and the compact forms (R195-R208). -/

namespace Sys2Proof.Machine

section
variable {s : State} {m : Mods} {d : VDst} {a b c : VSrc} {u : BitVec 1} {e : IntEt} {f : FltEt} {f3 : FltEt3} {w : Width}

/-! ## Integers and bits -/

theorem Ready.vmadd (hr : Ready s (.vmadd m d a b c u e)) : VectorDoes (.vmadd m d a b c u e) s d [a, b, c] fun l =>
    vFrom (etBits e) fun j => writeEl (etBits e) u (satOf m) (readEl (etBits e) u (vEl (etBits e) (l.getD 0 0) j) *
      readEl (etBits e) u (vEl (etBits e) (l.getD 1 0) j) + readEl (etBits e) u (vEl (etBits e) (l.getD 2 0) j)) :=
  hr.vector (e := execVmadd m d a b c u e s) rfl rfl rfl fun _ l _ => by
    dsimp only
    rw [vMap3_eq]
    refine vFrom_congr fun j _ => ?_
    rw [intResult_eq, elemInt_eq u (vEl_lt ..), elemInt_eq u (vEl_lt ..), elemInt_eq u (vEl_lt ..)]

theorem Ready.vand (hr : Ready s (.vand m d a b u e)) :
    VectorDoes (.vand m d a b u e) s d [a, b] fun l => l.getD 0 0 &&& l.getD 1 0 :=
  hr.vector (e := execVand m d a b u e s) rfl rfl rfl fun _ _ _ => rfl

theorem Ready.vor (hr : Ready s (.vor m d a b u e)) :
    VectorDoes (.vor m d a b u e) s d [a, b] fun l => l.getD 0 0 ||| l.getD 1 0 :=
  hr.vector (e := execVor m d a b u e s) rfl rfl rfl fun _ _ _ => rfl

theorem Ready.vxor (hr : Ready s (.vxor m d a b u e)) :
    VectorDoes (.vxor m d a b u e) s d [a, b] fun l => l.getD 0 0 ^^^ l.getD 1 0 :=
  hr.vector (e := execVxor m d a b u e s) rfl rfl rfl fun _ _ _ => rfl

theorem Ready.vshl (hr : Ready s (.vshl m d a b u e)) : VectorDoes (.vshl m d a b u e) s d [a, b] fun l =>
    vFrom (etBits e) fun j => shlEl (etBits e) (vEl (etBits e) (l.getD 0 0) j) (vEl (etBits e) (l.getD 1 0) j) :=
  hr.vector (e := execVshl m d a b u e s) rfl rfl rfl fun _ _ _ => vMap2_eq ..

theorem Ready.vshr (hr : Ready s (.vshr m d a b u e)) : VectorDoes (.vshr m d a b u e) s d [a, b] fun l =>
    vFrom (etBits e) fun j => shrEl (etBits e) (vEl (etBits e) (l.getD 0 0) j) (vEl (etBits e) (l.getD 1 0) j) :=
  hr.vector (e := execVshr m d a b u e s) rfl rfl rfl fun _ _ _ => vMap2_eq ..

theorem Ready.vsra (hr : Ready s (.vsra m d a b u e)) : VectorDoes (.vsra m d a b u e) s d [a, b] fun l =>
    vFrom (etBits e) fun j => sraEl (etBits e) (vEl (etBits e) (l.getD 0 0) j) (vEl (etBits e) (l.getD 1 0) j) :=
  hr.vector (e := execVsra m d a b u e s) rfl rfl rfl fun _ l _ => by
    rw [vMap2_eq]
    exact vFrom_congr fun j _ => by rw [elemSra_eq (vEl_lt ..)]

theorem Ready.vsel (hr : Ready s (.vsel m d a b c u e)) : VectorDoes (.vsel m d a b c u e) s d [a, b, c] fun l =>
    vFrom (etBits e) fun j => if vEl (etBits e) (l.getD 2 0) j ≠ 0 then vEl (etBits e) (l.getD 0 0) j
      else vEl (etBits e) (l.getD 1 0) j :=
  hr.vector (e := execVsel m d a b c u e s) rfl rfl rfl fun _ l _ => by
    rw [vMap3_eq]
    exact vFrom_congr fun j _ => by rw [ite_not]

theorem Ready.vpopc (hr : Ready s (.vpopc m d a u e)) : VectorDoes (.vpopc m d a u e) s d [a] fun l =>
    vFrom (etBits e) fun j => ((List.range (etBits e)).filter fun k => (vEl (etBits e) (l.getD 0 0) j).testBit k).length :=
  hr.vector (e := execVpopc m d a u e s) rfl rfl rfl fun _ _ _ => vMap1_eq ..

/-! ## Floating point -/

theorem fMap2_eq (f : Fmt) (rm : Rm) (sat ftz : Bool) (g : XR → XR → XR) (l : List Vec) :
    fMap2 f rm sat ftz g (l.getD 0 0) (l.getD 1 0) = fltRule2 f rm sat ftz g l := vMap2_eq ..

theorem fMap1_eq (f : Fmt) (rm : Rm) (sat ftz : Bool) (g : XR → XR) (l : List Vec) :
    fMap1 f rm sat ftz g (l.getD 0 0) = fltRule1 f rm sat ftz g l := vMap1_eq ..

theorem Ready.vfadd (hr : Ready s (.vfadd m d a b f)) : VectorDoes (.vfadd m d a b f) s d [a, b]
    (fltRule2 (fltEtFmt f) (s.rm m) (satOf m) (ftzOf m) fun p q => p.add (s.rm m) q) :=
  hr.vector (e := execVfadd m d a b f s) rfl rfl rfl fun t l ht => by rw [ht.rm, fMap2_eq]

theorem Ready.vfsub (hr : Ready s (.vfsub m d a b f)) : VectorDoes (.vfsub m d a b f) s d [a, b]
    (fltRule2 (fltEtFmt f) (s.rm m) (satOf m) (ftzOf m) fun p q => p.add (s.rm m) q.negate) :=
  hr.vector (e := execVfsub m d a b f s) rfl rfl rfl fun t l ht => by rw [ht.rm, fMap2_eq]

theorem Ready.vfmul (hr : Ready s (.vfmul m d a b f)) : VectorDoes (.vfmul m d a b f) s d [a, b]
    (fltRule2 (fltEtFmt f) (s.rm m) (satOf m) (ftzOf m) fun p q => p.mul q) :=
  hr.vector (e := execVfmul m d a b f s) rfl rfl rfl fun t l ht => by rw [ht.rm, fMap2_eq]

theorem Ready.vfma (hr : Ready s (.vfma m d a b c f)) : VectorDoes (.vfma m d a b c f) s d [a, b, c] fun l =>
    vFrom (fmtWidth (fltEtFmt f)) fun j => fmtRound (fltEtFmt f) (s.rm m) (satOf m) (ftzOf m)
      (((fmtValue (fltEtFmt f) (ftzOf m) (vEl (fmtWidth (fltEtFmt f)) (l.getD 0 0) j)).mul
        (fmtValue (fltEtFmt f) (ftzOf m) (vEl (fmtWidth (fltEtFmt f)) (l.getD 1 0) j))).add (s.rm m)
          (fmtValue (fltEtFmt f) (ftzOf m) (vEl (fmtWidth (fltEtFmt f)) (l.getD 2 0) j))) :=
  hr.vector (e := execVfma m d a b c f s) rfl rfl rfl fun t l ht => by rw [ht.rm]; exact vMap3_eq ..

theorem Ready.vfmin (hr : Ready s (.vfmin m d a b f)) :
    VectorDoes (.vfmin m d a b f) s d [a, b] (fltRule2 (fltEtFmt f) .rne false (ftzOf m) XR.smaller) :=
  hr.vector (e := execVfmin m d a b f s) rfl rfl rfl fun _ _ _ => fMap2_eq ..

theorem Ready.vfmax (hr : Ready s (.vfmax m d a b f)) :
    VectorDoes (.vfmax m d a b f) s d [a, b] (fltRule2 (fltEtFmt f) .rne false (ftzOf m) XR.larger) :=
  hr.vector (e := execVfmax m d a b f s) rfl rfl rfl fun _ _ _ => fMap2_eq ..

theorem Ready.vfrcp (hr : Ready s (.vfrcp m d a f3)) :
    VectorDoes (.vfrcp m d a f3) s d [a] (fltRule1 (fltEt3Fmt f3) (s.rm m) (satOf m) (ftzOf m) xRecip) :=
  hr.vector (e := execVfrcp m d a f3 s) rfl rfl rfl fun t l ht => by rw [ht.rm, fMap1_eq]

theorem Ready.vfrsq (hr : Ready s (.vfrsq m d a f3)) :
    VectorDoes (.vfrsq m d a f3) s d [a] (fltRule1 (fltEt3Fmt f3) (s.rm m) (satOf m) (ftzOf m) xRsqrt) :=
  hr.vector (e := execVfrsq m d a f3 s) rfl rfl rfl fun t l ht => by rw [ht.rm, fMap1_eq]

theorem Ready.vfexp2 (hr : Ready s (.vfexp2 m d a f3)) :
    VectorDoes (.vfexp2 m d a f3) s d [a] (fltRule1 (fltEt3Fmt f3) (s.rm m) (satOf m) (ftzOf m) xExp2) :=
  hr.vector (e := execVfexp2 m d a f3 s) rfl rfl rfl fun t l ht => by rw [ht.rm, fMap1_eq]

theorem Ready.vflog2 (hr : Ready s (.vflog2 m d a f3)) :
    VectorDoes (.vflog2 m d a f3) s d [a] (fltRule1 (fltEt3Fmt f3) (s.rm m) (satOf m) (ftzOf m) xLog2) :=
  hr.vector (e := execVflog2 m d a f3 s) rfl rfl rfl fun t l ht => by rw [ht.rm, fMap1_eq]

theorem Ready.vftanh (hr : Ready s (.vftanh m d a f3)) :
    VectorDoes (.vftanh m d a f3) s d [a] (fltRule1 (fltEt3Fmt f3) (s.rm m) (satOf m) (ftzOf m) xTanh) :=
  hr.vector (e := execVftanh m d a f3 s) rfl rfl rfl fun t l ht => by rw [ht.rm, fMap1_eq]

/-! ## Conversions and records -/

theorem fmtIs_fmtOf {k : BitVec 6} {ok : Fmt → Bool} (h : fmtIs k ok = true) : ok (fmtOf k) = true := by
  unfold fmtIs at h
  unfold fmtOf
  cases hf : fmtOfCode k with
  | none => rw [hf] at h; cases h
  | some f => rw [hf] at h; exact h

theorem valueOk_of_wellFormed {i : Instr} (h : wellFormed i = true) : valueOk i = true := by
  obtain ⟨-, -, -, hv⟩ := (wellFormed_iff i).mp h
  exact hv

/-- The formats of a conversion, and the part that it places. -/
theorem vcvt_ok {k : BitVec 4} {sf tf : BitVec 6} (h : valueOk (.vcvt m d a k sf tf) = true) :
    fmtIsVector (fmtOf sf) = true ∧ fmtIsVector (fmtOf tf) = true ∧
    k.toNat < max (fmtWidth (fmtOf sf)) (fmtWidth (fmtOf tf)) / min (fmtWidth (fmtOf sf)) (fmtWidth (fmtOf tf)) := by
  unfold valueOk at h
  dsimp only at h
  unfold fmtOf
  cases hf : fmtOfCode sf with
  | none => rw [hf] at h; cases h
  | some f =>
    cases hg : fmtOfCode tf with
    | none => rw [hf, hg] at h; cases h
    | some g =>
      rw [hf, hg] at h
      simpa [and_assoc] using h

theorem Ready.vcvt {k : BitVec 4} {sf tf : BitVec 6} (hw : wellFormed (.vcvt m d a k sf tf) = true)
    (hr : Ready s (.vcvt m d a k sf tf)) : VectorDoes (.vcvt m d a k sf tf) s d [a] fun l =>
      cvtRule (fmtOf sf) (fmtOf tf) k.toNat (s.rm m) (satOf m) (ftzOf m) (l.getD 0 0) :=
  hr.vector (e := execVcvt m d a k sf tf s) rfl rfl rfl fun t l ht => by
    obtain ⟨hf, hg, hk⟩ := vcvt_ok (valueOk_of_wellFormed hw)
    rw [ht.rm, vecCvt_eq _ _ _ _ hf hg hk]

/-- The 32 elements of a part lie in a vector of the elements of the format. -/
theorem part_inside {k : BitVec 1} {f : FltEt3} (h : (k == 0#1 || f != .fp32) = true) :
    32 * k.toNat + 32 ≤ 1024 / fmtWidth (fltEt3Fmt f) := by
  rcases bit_cases k with rfl | rfl
  · cases f <;> decide
  · cases f <;> first | decide | cases h

theorem Ready.vqnt {k scm : BitVec 1} {tf : BitVec 6} (hw : wellFormed (.vqnt m d a b k scm f3 tf) = true)
    (hr : Ready s (.vqnt m d a b k scm f3 tf)) :
    VectorDoes (.vqnt m d a b k scm f3 tf) s d (if scm = 1 then [a, b] else [a]) fun l =>
      let xs := (List.range 32).map fun j =>
        fmtValue (fltEt3Fmt f3) (ftzOf m) (vEl (fmtWidth (fltEt3Fmt f3)) (l.getD 0 0) (32 * k.toNat + j))
      let sc : Byte := if scm = 1 then BitVec.ofNat 8 (vEl 8 (l.getD 1 0) 0) else quantScale (fmtOf tf) xs
      vFrom 8 fun j => (((recordBytes (fmtOf tf) sc (xs.map fun v =>
        fmtRound (fmtOf tf) (s.rm m) (satOf m) (ftzOf m) (quantQuot v (scaleValue sc)))).getD j 0) : Byte).toNat :=
  hr.vector (e := execVqnt m d a b k scm f3 tf s) rfl rfl rfl fun t l ht => by
    have hv : (fmtIs tf fmtIsRecord && (scm == 1#1 || b == .v 0#6) && (k == 0#1 || f3 != .fp32)) = true :=
      valueOk_of_wellFormed hw
    rw [Bool.and_eq_true, Bool.and_eq_true] at hv
    obtain ⟨⟨hg, -⟩, hk⟩ := hv
    dsimp only
    rw [ht.rm, vecQnt_eq _ _ _ _ (part_inside hk) (fmtIs_fmtOf hg)]
    have hscale : (l.getD 1 0).setWidth 8 = BitVec.ofNat 8 (vEl 8 (l.getD 1 0) 0) := by
      apply BitVec.eq_of_toNat_eq
      simp [vEl]
    by_cases hs : scm = 1
    · simp only [if_pos hs, Option.getD_some, hscale]
    · simp only [if_neg hs, Option.getD_none]

theorem Ready.vdqnt {k : BitVec 1} {sf : BitVec 6} (hw : wellFormed (.vdqnt m d a k sf f3) = true)
    (hr : Ready s (.vdqnt m d a k sf f3)) : VectorDoes (.vdqnt m d a k sf f3) s d [a] fun l =>
      vFrom (fmtWidth (fltEt3Fmt f3)) fun j =>
        if 32 * k.toNat ≤ j ∧ j < 32 * k.toNat + 32 then
          fmtRound (fltEt3Fmt f3) (s.rm m) (satOf m) (ftzOf m)
            ((fmtValue (.b8 5 true true) (ftzOf m) (vEl 8 (l.getD 0 0) 0)).mul (fmtValue (fmtOf sf) (ftzOf m)
              ((l.getD 0 0).toNat / 2 ^ (8 + fmtWidth (fmtOf sf) * (j - 32 * k.toNat)) % 2 ^ fmtWidth (fmtOf sf))))
        else 0 :=
  hr.vector (e := execVdqnt m d a k sf f3 s) rfl rfl rfl fun t l ht => by
    have hv : (fmtIs sf fmtIsRecord && (k == 0#1 || f3 != .fp32)) = true := valueOk_of_wellFormed hw
    rw [Bool.and_eq_true] at hv
    rw [ht.rm, vecDqnt_eq _ _ _ _ (part_inside hv.2)]

theorem Ready.vpack {k : BitVec 6} (hr : Ready s (.vpack m d a k)) : VectorDoes (.vpack m d a k) s d [a] fun l =>
    BitVec.ofNat 1024 (vEl 8 (l.getD 0 0) 0 + ((List.range 32).map fun j =>
      vEl 8 (l.getD 0 0) (1 + j) % 2 ^ fmtWidth (fmtOf k) * 2 ^ (8 + fmtWidth (fmtOf k) * j)).sum) :=
  hr.vector (e := execVpack m d a k s) rfl rfl rfl fun _ _ _ => vecPack_eq ..

theorem Ready.vunpk {k : BitVec 6} (hr : Ready s (.vunpk m d a k)) : VectorDoes (.vunpk m d a k) s d [a] fun l =>
    vFrom 8 fun j => if j = 0 then vEl 8 (l.getD 0 0) 0
      else if j < 33 then (l.getD 0 0).toNat / 2 ^ (8 + fmtWidth (fmtOf k) * (j - 1)) % 2 ^ fmtWidth (fmtOf k) else 0 :=
  hr.vector (e := execVunpk m d a k s) rfl rfl rfl fun _ _ _ => vecUnpk_eq ..

/-! ## Reductions -/

theorem fmtWidth_fits (f : FltEt) : 0 < fmtWidth (fltEtFmt f) ∧ fmtWidth (fltEtFmt f) ≤ 1024 := by cases f <;> decide

theorem Ready.vradd (hr : Ready s (.vradd m d a u e)) : VectorDoes (.vradd m d a u e) s d [a] fun l =>
    vFrom 64 fun j => if j = 0 then writeEl 64 u false
      (reduceTree (fun p q => readEl 64 u (writeEl 64 u (satOf m) (p + q))) 0
        ((List.range (1024 / etBits e)).map fun k => readEl (etBits e) u (vEl (etBits e) (l.getD 0 0) k))) else 0 :=
  hr.vector (e := execVradd m d a u e s) rfl rfl rfl fun _ _ _ => vecRadd_eq ..

theorem Ready.vrmax (hr : Ready s (.vrmax m d a u e)) : VectorDoes (.vrmax m d a u e) s d [a] fun l =>
    vFrom (etBits e) fun j => if j = 0 then writeEl (etBits e) u false (reduceTree (fun p q => if p < q then q else p) 0
      ((List.range (1024 / etBits e)).map fun k => readEl (etBits e) u (vEl (etBits e) (l.getD 0 0) k))) else 0 :=
  hr.vector (e := execVrmax m d a u e s) rfl rfl rfl fun _ _ _ => vecRmax_eq _ (etBits_pos e).1 (etBits_pos e).2 u

theorem Ready.vfradd (hr : Ready s (.vfradd m d a f)) : VectorDoes (.vfradd m d a f) s d [a] fun l =>
    vFrom (fmtWidth (fltEtFmt f)) fun j => if j = 0 then reduceTree
      (fun p q => fmtRound (fltEtFmt f) (s.rm m) (satOf m) (ftzOf m)
        ((fmtValue (fltEtFmt f) (ftzOf m) p).add (s.rm m) (fmtValue (fltEtFmt f) (ftzOf m) q))) 0
      ((List.range (1024 / fmtWidth (fltEtFmt f))).map (vEl (fmtWidth (fltEtFmt f)) (l.getD 0 0))) else 0 :=
  hr.vector (e := execVfradd m d a f s) rfl rfl rfl fun t l ht => by
    rw [ht.rm]
    exact reduced_eq _ (fmtWidth_fits f).1 (fmtWidth_fits f).2 _

theorem Ready.vfrmax (hr : Ready s (.vfrmax m d a f)) : VectorDoes (.vfrmax m d a f) s d [a] fun l =>
    vFrom (fmtWidth (fltEtFmt f)) fun j => if j = 0 then reduceTree
      (fun p q => fmtRound (fltEtFmt f) .rne false false
        ((fmtValue (fltEtFmt f) (ftzOf m) p).larger (fmtValue (fltEtFmt f) (ftzOf m) q))) 0
      ((List.range (1024 / fmtWidth (fltEtFmt f))).map (vEl (fmtWidth (fltEtFmt f)) (l.getD 0 0))) else 0 :=
  hr.vector (e := execVfrmax m d a f s) rfl rfl rfl fun _ _ _ => reduced_eq _ (fmtWidth_fits f).1 (fmtWidth_fits f).2 _

/-! ## Permutations, the merge and moves -/

theorem Ready.vperm (hr : Ready s (.vperm m d a b c w)) : VectorDoes (.vperm m d a b c w) s d [a, b, c] fun l =>
    vFrom (widthBits w) fun j =>
      let k := vEl (widthBits w) (l.getD 2 0) j
      if k < 1024 / widthBits w then vEl (widthBits w) (l.getD 0 0) k
      else if k < 2 * (1024 / widthBits w) then vEl (widthBits w) (l.getD 1 0) (k - 1024 / widthBits w) else 0 :=
  hr.vector (e := execVperm m d a b c w s) rfl rfl rfl fun _ _ _ => vecPerm_eq ..

theorem Ready.vrot {k : BitVec 8} (hr : Ready s (.vrot m d a k w)) : VectorDoes (.vrot m d a k w) s d [a] fun l =>
    vFrom (widthBits w) fun j => vEl (widthBits w) (l.getD 0 0) ((j + k.toNat) % (1024 / widthBits w)) :=
  hr.vector (e := execVrot m d a k w s) rfl rfl rfl fun _ _ _ => vecRot_eq ..

theorem Ready.vbcast {k : BitVec 8} (hr : Ready s (.vbcast m d a k w)) : VectorDoes (.vbcast m d a k w) s d [a] fun l =>
    vFrom (widthBits w) fun _ => if k.toNat < 1024 / widthBits w then vEl (widthBits w) (l.getD 0 0) k.toNat else 0 :=
  hr.vector (e := execVbcast m d a k w s) rfl rfl rfl fun _ _ _ => vecBcast_eq ..

theorem Ready.vins {r : Reg} {k : BitVec 8} (hr : Ready s (.vins m d a r k w)) :
    VectorDoes (.vins m d a r k w) s d [a] fun l => vFrom (widthBits w) fun j =>
      if j = k.toNat then (s.rx r).toNat % 2 ^ widthBits w else vEl (widthBits w) (l.getD 0 0) j :=
  hr.vector (e := execVins m d a r k w s) rfl rfl rfl fun t l ht => by rw [ht.rx, vecIns_eq]

theorem Ready.vcomp (hr : Ready s (.vcomp m d a b w)) : VectorDoes (.vcomp m d a b w) s d [a, b] fun l =>
    vFrom (widthBits w) fun j => (chosen (widthBits w) (l.getD 0 0) (l.getD 1 0)).getD j 0 :=
  hr.vector (e := execVcomp m d a b w s) rfl rfl rfl fun _ _ _ => vecComp_eq ..

theorem Ready.vexpd (hr : Ready s (.vexpd m d a b w)) : VectorDoes (.vexpd m d a b w) s d [a, b] fun l =>
    vFrom (widthBits w) fun j => if vEl (widthBits w) (l.getD 1 0) j = 0 then 0
      else vEl (widthBits w) (l.getD 0 0) (((List.range j).filter fun k => vEl (widthBits w) (l.getD 1 0) k != 0).length) :=
  hr.vector (e := execVexpd m d a b w s) rfl rfl rfl fun _ _ _ => vecExpd_eq ..

theorem Ready.vmrg3 {sel : BitVec 1} (hr : Ready s (.vmrg3 m d a b c sel)) :
    VectorDoes (.vmrg3 m d a b c sel) s d [a, b, c] fun l =>
      let k (n : Nat) : Nat := vEl 32 (l.getD 2 0) n
      let os (v : Vec) : List Nat := (List.range 32).map (vEl 32 v)
      let t := mergeTriples { m := k 0, s := k 1, o := os (l.getD 0 0) } { m := k 2, s := k 3, o := os (l.getD 1 0) }
      vFrom 32 fun j => if sel = 0 then t.o.getD j 0 else if j = 0 then t.m else if j = 1 then t.s else 0 :=
  hr.vector (e := execVmrg3 m d a b c sel s) rfl rfl rfl fun _ _ _ => vecMrg3_eq ..

theorem Ready.vmov (hr : Ready s (.vmov m d a)) : VectorDoes (.vmov m d a) s d [a] fun l => l.getD 0 0 :=
  hr.vector (e := execVmov m d a s) rfl rfl rfl fun _ _ _ => rfl

theorem Ready.vli {r : BitVec 1} {k : BitVec 16} (hr : Ready s (.vli m d r w k)) :
    VectorDoes (.vli m d r w k) s d [] fun _ => vFrom (widthBits w) fun j =>
      ((immS 16 k.toNat m + (if r = 1 then (j : Int) else 0)) % 2 ^ widthBits w).toNat :=
  hr.vector (e := execVli m d r w k s) rfl rfl rfl fun _ _ _ => vecLi_eq ..

theorem Ready.vsplat {r : Reg} (hr : Ready s (.vsplat m d r w)) :
    VectorDoes (.vsplat m d r w) s d [] fun _ => vFrom (widthBits w) fun _ => (s.rx r).toNat % 2 ^ widthBits w :=
  hr.vector (e := execVsplat m d r w s) rfl rfl rfl fun t l ht => by rw [ht.rx, vecSplat_eq]

end

end Sys2Proof.Machine
end

section
/-! PROOFS. The results of all vector instructions, and the compact forms (R190-R208). -/

namespace Sys2Proof.Machine

/-- Every instruction with a vector destination does what its rule says. -/
theorem Ready.vectorDoes {i : Instr} {s : State} {d : VDst} {srcs : List VSrc} {f : List Vec → Vec}
    (h : vectorRule i s = some (d, srcs, f)) (hw : wellFormed i = true) (hr : Ready s i) : VectorDoes i s d srcs f := by
  cases i with
  | vadd => cases h; exact hr.vadd
  | vsub => cases h; exact hr.vsub
  | vmul => cases h; exact hr.vmul
  | vmulh => cases h; exact hr.vmulh
  | vmadd => cases h; exact hr.vmadd
  | vmin => cases h; exact hr.vmin
  | vmax => cases h; exact hr.vmax
  | vand => cases h; exact hr.vand
  | vor => cases h; exact hr.vor
  | vxor => cases h; exact hr.vxor
  | vshl => cases h; exact hr.vshl
  | vshr => cases h; exact hr.vshr
  | vsra => cases h; exact hr.vsra
  | vabs => cases h; exact hr.vabs
  | vneg => cases h; exact hr.vneg
  | vsel => cases h; exact hr.vsel
  | vpopc => cases h; exact hr.vpopc
  | vfadd => cases h; exact hr.vfadd
  | vfsub => cases h; exact hr.vfsub
  | vfmul => cases h; exact hr.vfmul
  | vfma => cases h; exact hr.vfma
  | vfmin => cases h; exact hr.vfmin
  | vfmax => cases h; exact hr.vfmax
  | vfrcp => cases h; exact hr.vfrcp
  | vfrsq => cases h; exact hr.vfrsq
  | vfexp2 => cases h; exact hr.vfexp2
  | vflog2 => cases h; exact hr.vflog2
  | vftanh => cases h; exact hr.vftanh
  | vcvt => cases h; exact hr.vcvt hw
  | vqnt => cases h; exact hr.vqnt hw
  | vdqnt => cases h; exact hr.vdqnt hw
  | vpack => cases h; exact hr.vpack
  | vunpk => cases h; exact hr.vunpk
  | vradd => cases h; exact hr.vradd
  | vrmax => cases h; exact hr.vrmax
  | vfradd => cases h; exact hr.vfradd
  | vfrmax => cases h; exact hr.vfrmax
  | vperm => cases h; exact hr.vperm
  | vrot => cases h; exact hr.vrot
  | vbcast => cases h; exact hr.vbcast
  | vins => cases h; exact hr.vins
  | vcomp => cases h; exact hr.vcomp
  | vexpd => cases h; exact hr.vexpd
  | vmrg3 => cases h; exact hr.vmrg3
  | vmov => cases h; exact hr.vmov
  | vli => cases h; exact hr.vli
  | vsplat => cases h; exact hr.vsplat
  | _ => exact (Option.some_ne_none _ h.symm).elim

/-! ## Compact forms -/

/-- The instruction that three compact operands give. -/
def compactForm (m : Mods) (d a b : Reg) (f : VDst → VSrc → VSrc → Instr) : Option Instr :=
  match compactDst m d, compactA m a, compactB m b with
  | some d', some a', some b' => some (f d' a' b')
  | _, _, _ => none

/-- A compact form with its operands acts as the form that they give. -/
theorem compact_eq {m : Mods} {d a b : Reg} {s : State} {j : Instr} {f : VDst → VSrc → VSrc → Instr}
    {g : VDst → VSrc → VSrc → Host.Outcome State Fault Refusal} (h : compactForm m d a b f = some j)
    (hg : ∀ d a b, g d a b = exec (f d a b) s) : compact m d a b s g = exec j s := by
  unfold compactForm at h
  unfold compact
  cases hd : compactDst m d with
  | none => rw [hd] at h; cases h
  | some d' =>
    cases ha : compactA m a with
    | none => rw [hd, ha] at h; cases h
    | some a' =>
      cases hb : compactB m b with
      | none => rw [hd, ha, hb] at h; cases h
      | some b' =>
        rw [hd, ha, hb] at h
        cases h
        exact hg d' a' b'

/-- The integer type that the FN field of a compact form names. -/
def compactEt (e : BitVec 2) : IntEt := if e = 0 then .i8s else if e = 1 then .i16s else if e = 2 then .i32s else .i64s

theorem compactBits_eq (e : BitVec 2) : compactBits e = etBits (compactEt e) := by
  revert e
  decide

/-- The format that the FN field of a compact form names. -/
def compactFt (e : CFlt) : FltEt := match e with | .fp32 => .fp32 | .bf16 => .bf16 | .fp16 => .fp16

theorem cFltFmt_eq (e : CFlt) : cFltFmt e = fltEtFmt (compactFt e) := by cases e <;> rfl

theorem exec_compact {i j : Instr} {s : State} (h : fullForm i = some j) : exec i s = exec j s := by
  cases i with
  | vaddC m d a b e =>
    exact compact_eq (f := fun d a b => .vadd m d a b 0 (compactEt e)) h fun _ _ _ => by rw [compactBits_eq]; rfl
  | vsubC m d a b e =>
    exact compact_eq (f := fun d a b => .vsub m d a b 0 (compactEt e)) h fun _ _ _ => by rw [compactBits_eq]; rfl
  | vmulC m d a b e =>
    exact compact_eq (f := fun d a b => .vmul m d a b 0 (compactEt e)) h fun _ _ _ => by rw [compactBits_eq]; rfl
  | vminC m d a b e =>
    exact compact_eq (f := fun d a b => .vmin m d a b 0 (compactEt e)) h fun _ _ _ => by rw [compactBits_eq]; rfl
  | vmaxC m d a b e =>
    exact compact_eq (f := fun d a b => .vmax m d a b 0 (compactEt e)) h fun _ _ _ => by rw [compactBits_eq]; rfl
  | vandC m d a b e => exact compact_eq (f := fun d a b => .vand m d a b 0 (compactEt e)) h fun _ _ _ => rfl
  | vorC m d a b e => exact compact_eq (f := fun d a b => .vor m d a b 0 (compactEt e)) h fun _ _ _ => rfl
  | vxorC m d a b e => exact compact_eq (f := fun d a b => .vxor m d a b 0 (compactEt e)) h fun _ _ _ => rfl
  | vfaddC m d a b e =>
    exact compact_eq (f := fun d a b => .vfadd m d a b (compactFt e)) h fun _ _ _ => by rw [cFltFmt_eq]; rfl
  | vfsubC m d a b e =>
    exact compact_eq (f := fun d a b => .vfsub m d a b (compactFt e)) h fun _ _ _ => by rw [cFltFmt_eq]; rfl
  | vfmulC m d a b e =>
    exact compact_eq (f := fun d a b => .vfmul m d a b (compactFt e)) h fun _ _ _ => by rw [cFltFmt_eq]; rfl
  | vfminC m d a b e =>
    exact compact_eq (f := fun d a b => .vfmin m d a b (compactFt e)) h fun _ _ _ => by rw [cFltFmt_eq]; rfl
  | vfmaxC m d a b e =>
    exact compact_eq (f := fun d a b => .vfmax m d a b (compactFt e)) h fun _ _ _ => by rw [cFltFmt_eq]; rfl
  | _ => exact (Option.some_ne_none _ h.symm).elim

/-- Settles O40. -/
theorem vectorResults : Obligations.VectorResults :=
  ⟨fun _ _ _ _ _ h hw hr => hr.vectorDoes h hw, fun _ _ _ h => exec_compact h⟩

end Sys2Proof.Machine
end

section
/-! PROOFS. Vector compares and `vext` (R194, R195, R197, R205). -/

namespace Sys2Proof.Machine

/-! ## Conditions on values -/

theorem XR.lt_ordered {a b : XR} (h : a.lt b = true) : (!a.isNan && !b.isNan) = true := by
  cases a <;> cases b <;> first | rfl | cases h

theorem XR.lt_asymm {a b : XR} (h : a.lt b = true) : b.lt a = false := by
  cases a with
  | nan => cases h
  | inf x =>
    cases b with
    | nan => cases h
    | inf y => cases x <;> cases y <;> first | rfl | cases h
    | fin y m e => cases x <;> first | rfl | cases h
  | fin x n d =>
    cases b with
    | nan => cases h
    | inf y => cases y <;> first | rfl | cases h
    | fin y m e =>
      simp only [XR.lt, decide_eq_true_eq, decide_eq_false_iff_not] at h ⊢
      omega

/-- What an order says of two values, where one below the other rules out NaN and the other way round. -/
theorem order_cases : ∀ o x y : Bool, (x = true → o = true ∧ y = false) → (y = true → o = true ∧ x = false) →
    x = (o && x) ∧ (x || (o && !x && !y)) = (o && !y) ∧ (y || (o && !x && !y)) = (o && !x) := by decide

/-- The condition of a floating compare, by the order of the values alone. -/
theorem fcondHolds_eq (c : FCond) (p q : XR) : fcondHolds c p q =
    (match c with
     | .eq => (!p.isNan && !q.isNan) && !p.lt q && !q.lt p | .ne => !((!p.isNan && !q.isNan) && !p.lt q && !q.lt p)
     | .lt => (!p.isNan && !q.isNan) && p.lt q | .le => (!p.isNan && !q.isNan) && !q.lt p
     | .gt => (!p.isNan && !q.isNan) && q.lt p | .ge => (!p.isNan && !q.isNan) && !p.lt q
     | .un => p.isNan || q.isNan) := by
  have hpq : p.lt q = true → (!p.isNan && !q.isNan) = true ∧ q.lt p = false := fun h => ⟨XR.lt_ordered h, XR.lt_asymm h⟩
  have hqp : q.lt p = true → (!p.isNan && !q.isNan) = true ∧ p.lt q = false :=
    fun h => ⟨by rw [Bool.and_comm]; exact XR.lt_ordered h, XR.lt_asymm h⟩
  unfold fcondHolds XR.eqv
  obtain ⟨hlt, hle, hge⟩ := order_cases _ _ _ hpq hqp
  obtain ⟨hgt, -, -⟩ := order_cases _ _ _ hqp hpq
  cases c with
  | eq | ne | un => rfl
  | lt => exact hlt
  | le => exact hle
  | gt => exact hgt
  | ge => exact hge

/-! ## The vector of a compare -/

theorem elemsNat_lt (w : Nat) (l : List Nat) : elemsNat w l < 2 ^ (w * l.length) := by
  induction l with
  | nil => simp [elemsNat]
  | cons e l ih =>
    have he : e % 2 ^ w + 1 ≤ 2 ^ w := Nat.mod_lt _ (by positivity)
    have := Nat.mul_le_mul_left (2 ^ w) (Nat.succ_le_of_lt ih)
    simp only [elemsNat, List.foldr_cons, List.length_cons] at ih this ⊢
    rw [Nat.mul_succ, Nat.pow_add, Nat.mul_comm (2 ^ (w * l.length))]
    rw [Nat.mul_succ] at this
    omega

theorem elemsNat_eq_zero_iff (w : Nat) (l : List Nat) : elemsNat w l = 0 ↔ ∀ e ∈ l, e % 2 ^ w = 0 := by
  induction l with
  | nil => simp [elemsNat]
  | cons e l ih =>
    simp only [elemsNat, List.foldr_cons, List.forall_mem_cons] at ih ⊢
    rw [Nat.add_eq_zero_iff, ← ih, Nat.mul_eq_zero]
    simp

theorem vFrom_eq_zero_iff (w : Nat) (f : Nat → Nat) : vFrom w f = 0 ↔ ∀ j, j < 1024 / w → f j % 2 ^ w = 0 := by
  have hlt : elemsNat w ((List.range (1024 / w)).map f) < 2 ^ 1024 := by
    refine lt_of_lt_of_le (elemsNat_lt w _) (Nat.pow_le_pow_right (by decide) ?_)
    simpa using Nat.mul_div_le 1024 w
  have h : vFrom w f = 0 ↔ elemsNat w ((List.range (1024 / w)).map f) = 0 := by
    unfold vFrom
    rw [vOf_eq]
    refine ⟨fun h => ?_, fun h => by rw [h]; rfl⟩
    have := congrArg BitVec.toNat h
    rw [BitVec.toNat_ofNat, Nat.mod_eq_of_lt hlt] at this
    exact this.trans BitVec.toNat_zero
  rw [h, elemsNat_eq_zero_iff]
  simp

/-- A compare's vector is not zero where some element's condition holds. -/
theorem compared_ne_zero {w : Nat} (hw : 0 < w) (hit : Nat → Bool) :
    (vFrom w (fun j => if hit j then 2 ^ w - 1 else 0) != 0) = (List.range (1024 / w)).any hit := by
  have h2 : 2 ≤ 2 ^ w := le_self_pow₀ (by decide) (by omega)
  have hone : (2 ^ w - 1) % 2 ^ w = 2 ^ w - 1 := Nat.mod_eq_of_lt (by omega)
  rw [Bool.eq_iff_iff, bne_iff_ne, Ne, vFrom_eq_zero_iff, List.any_eq_true]
  push Not
  refine exists_congr fun j => ?_
  rw [List.mem_range]
  refine and_congr_right fun _ => ?_
  cases hit j
  · simp
  · simp only [if_true, hone, iff_true]
    omega

section
variable {i : Instr} {s : State} {m : Mods} {d : VDst} {a b : VSrc} {w : Nat} {pe : BitVec 1} {pd : BitVec 3} {f g : Nat → Nat → Bool}

/-- What a compare makes of its sources. -/
def State.compared (s t : State) (d : VDst) (w : Nat) (pe : BitVec 1) (pd : BitVec 3) (f : Nat → Nat → Bool) (l : List Vec) : Res :=
  let v := vMap2 w (fun x y => ones w (f x y)) (l.getD 0 0) (l.getD 1 0)
  match t.putDst d v with
  | .error (.stall x _) => .stall x s
  | .error r => r
  | .ok u => .ok (if pe = 1 then u.wp pd (v != 0) else u)

/-- What the obligation says of a compare. -/
def CompareDoes (i : Instr) (s : State) (d : VDst) (a b : VSrc) (w : Nat) (pe : BitVec 1) (pd : BitVec 3) (f : Nat → Nat → Bool) :
    Prop :=
  (∀ t u l, s.operandsOpen (some d) [a, b] = .ok () → s.takeSrcs [] [a, b] = .ok (t, l) →
    t.putDst d (vFrom w fun j => if f (vEl w (l.getD 0 0) j) (vEl w (l.getD 1 0) j) then 2 ^ w - 1 else 0) = .ok u →
    exec i s = .next (past i s (if pe = 1 then
      u.wp pd ((List.range (1024 / w)).any fun j => f (vEl w (l.getD 0 0) j) (vEl w (l.getD 1 0) j)) else u))) ∧
  (∀ x t, s.operandsOpen (some d) [a, b] = .error (.stall x t) → exec i s = .next (s.stallHere x)) ∧
  ∀ c x y t, s.operandsOpen (some d) [a, b] = .error (.trap c x y t) → exec i s = .next (s.trapHere c x y)

theorem Ready.compare (hr : Ready s i) {e} (he : exec i s = e) (h : e = cmpOp m d a b w pe pd f s)
    (hf : formOf i s = vecForm m (some d) [a, b] []) (hw : 0 < w) (hg : ∀ x y, x < 2 ^ w → y < 2 ^ w → f x y = g x y) :
    CompareDoes i s d a b w pe pd g := by
  have hrun : exec i s =
      .next (s.settleRes (formOf i s) (s.withSrcs (some d) [a, b] fun t l => s.compared t d w pe pd f l)) :=
    hr.run (body := fun t => t.withSrcs (some d) [a, b] fun u l => t.compared u d w pe pd f l) he
      (h.trans (by unfold cmpOp State.compared; rfl)) hf
  refine ⟨fun t u l ho ht hu => ?_, operands_closed hrun⟩
  have hv : vMap2 w (fun x y => ones w (f x y)) (l.getD 0 0) (l.getD 1 0) =
      vFrom w fun j => if g (vEl w (l.getD 0 0) j) (vEl w (l.getD 1 0) j) then 2 ^ w - 1 else 0 := by
    rw [vMap2_eq]
    exact vFrom_congr fun j _ => by rw [hg _ _ (vEl_lt ..) (vEl_lt ..)]; rfl
  rw [hrun, State.withSrcs_ok ho ht]
  unfold State.compared
  dsimp only
  rw [hv, hu, compared_ne_zero hw]
  rfl

end

section
variable {s : State} {m : Mods} {d : VDst} {a b : VSrc} {pe : BitVec 1} {pd : BitVec 3}

theorem Ready.vcmp {c : VCond} {u : BitVec 1} {e : IntEt} (hr : Ready s (.vcmp m d a b pe pd c u e)) :
    CompareDoes (.vcmp m d a b pe pd c u e) s d a b (etBits e) pe pd fun x y =>
      match c with
      | .eq => decide (readEl (etBits e) u x = readEl (etBits e) u y) | .ne => decide (readEl (etBits e) u x ≠ readEl (etBits e) u y)
      | .lt => decide (readEl (etBits e) u x < readEl (etBits e) u y) | .le => decide (readEl (etBits e) u x ≤ readEl (etBits e) u y)
      | .gt => decide (readEl (etBits e) u y < readEl (etBits e) u x)
      | .ge => decide (readEl (etBits e) u y ≤ readEl (etBits e) u x) :=
  hr.compare (e := execVcmp m d a b pe pd c u e s) rfl rfl rfl (etBits_pos e).1 fun x y hx hy => by
    rw [elemInt_eq u hx, elemInt_eq u hy]
    cases c <;> rfl

theorem Ready.vfcmp {c : FCond} {f : FltEt} (hr : Ready s (.vfcmp m d a b pe pd c f)) :
    CompareDoes (.vfcmp m d a b pe pd c f) s d a b (fmtWidth (fltEtFmt f)) pe pd fun x y =>
      let p := fmtValue (fltEtFmt f) (ftzOf m) x
      let q := fmtValue (fltEtFmt f) (ftzOf m) y
      match c with
      | .eq => (!p.isNan && !q.isNan) && !p.lt q && !q.lt p | .ne => !((!p.isNan && !q.isNan) && !p.lt q && !q.lt p)
      | .lt => (!p.isNan && !q.isNan) && p.lt q | .le => (!p.isNan && !q.isNan) && !q.lt p
      | .gt => (!p.isNan && !q.isNan) && q.lt p | .ge => (!p.isNan && !q.isNan) && !p.lt q
      | .un => p.isNan || q.isNan :=
  hr.compare (e := execVfcmp m d a b pe pd c f s) rfl rfl rfl (fmtWidth_fits f).1 fun x y _ _ => by
    rw [fcondHolds_eq]
    cases c <;> rfl

end

theorem Ready.compareDoes {i : Instr} {s : State} {d : VDst} {a b : VSrc} {w : Nat} {pe : BitVec 1} {pd : BitVec 3}
    {f : Nat → Nat → Bool} (h : compareRule i = some (d, a, b, w, pe, pd, f)) (hr : Ready s i) :
    CompareDoes i s d a b w pe pd f := by
  cases i with
  | vcmp m d a b pe pd c u e => cases h; cases c <;> exact hr.vcmp
  | vfcmp m d a b pe pd c f => cases h; cases c <;> exact hr.vfcmp
  | _ => exact (Option.some_ne_none _ h.symm).elim

/-! ## vext -/

theorem Ready.vext_run {s : State} {m : Mods} {d : Reg} {a : VSrc} {k : BitVec 8} {sx : BitVec 1} {w : Width}
    (hr : Ready s (.vext m d a k sx w)) : exec (.vext m d a k sx w) s =
      .next (s.settleRes (formOf (.vext m d a k sx w) s) (s.withSrcs none [a] fun t l =>
        .ok (t.wx d (Machine.extend (sx == 1#1) (widthBytes w) ((vElems (widthBits w) (l.getD 0 0)).getD k.toNat 0))))) :=
  hr.run (e := execVext m d a k sx w s) rfl rfl rfl

theorem extend_eq (sx : BitVec 1) (n v : Nat) : Machine.extend (sx == 1#1) n v = if sx = 1 then quad (signed (8 * n) v) else quadN v := by
  unfold Machine.extend
  exact if_congr beq_iff_eq rfl rfl

/-- Settles O41. -/
theorem vectorComparesAndExtracts : Obligations.VectorComparesAndExtracts := by
  refine ⟨fun i s t u d a b w pe pd f l h hr ho ht hu => (hr.compareDoes h).1 t u l ho ht hu, fun s t m d a k sx w l => ?_,
    fun i s d srcs hr h => ?_⟩
  · intro n e hr ho ht
    rw [hr.vext_run, State.withSrcs_ok ho ht, extend_eq, vElems_getD]
    rfl
  · rcases h with ⟨m, e, a, k, sx, w, rfl, rfl, rfl⟩ | ⟨e, a, b, w, pe, pd, f, h, rfl, rfl⟩
    · exact operands_closed hr.vext_run
    · exact (hr.compareDoes h).2

end Sys2Proof.Machine
end

section
/-! PROOFS. When each wait of an engine ends (R106, R141, R182, R184, R188, R213, R235, R242, R271, R280, R284, R328). -/

namespace Sys2Proof.Machine

/-! ## The end of a wait -/

theorem Ctx.endWait_wait (c : Ctx) (e : Eng) : ((c.endWait e).eng e).wait = .no := by
  unfold Ctx.endWait
  rw [Ctx.wake_eng]
  have h := Ctx.advance_same ((c.setEng e { c.eng e with wait := .no, wlen := 0, wid := 0 }).tokFill (c.eng e).wid) e (c.eng e).wlen
  refine (congrArg Engine.wait h).trans ?_
  show (Ctx.eng (c.setEng e _) e).wait = _
  rw [Ctx.eng_setEng_same]

theorem Ctx.alr_endAccessWait (c : Ctx) (e : Eng) (id : Nat) : (c.endAccessWait e id).alr = c.alr := by
  unfold Ctx.endAccessWait
  split
  · split
    · unfold Ctx.endWait
      have h := (Ctx.still_advance ((c.setEng e { c.eng e with wait := .no, wlen := 0, wid := 0 }).tokFill (c.eng e).wid) e
        (c.eng e).wlen)
      exact congrArg Ctx.alr ((Ctx.still_wake _).trans h) |>.trans rfl
    · rfl
  · rfl

theorem Ctx.access_id {c : Ctx} {id : Nat} {a : Access} (h : c.access id = some a) : a.id = id := by
  simpa using List.find?_some h

theorem mem_allEngs (e : Eng) : e ∈ allEngs := by cases e <;> decide

/-! ## Performing what an engine waits for -/

section
variable {s : State} {k id : Nat} {e : Eng} {a : Access} {q : AccKind → Bool}

theorem State.returnOf_of (hw : ((s.ctx k).eng e).wait = .access id) (ha : (s.ctx k).access id = some a) (hq : q a.kind = true) :
    s.returnOf k e q = s.performAll k id := by
  unfold State.returnOf
  simp only [hw, ha, hq, if_true]

/-- An access of at most one part performs in one event. -/
theorem State.performAll_short (ha : (s.ctx k).access id = some a) (hstale : a.stale = false) (hlen : a.parts.length ≤ 1) :
    s.performAll k id = s.tryPerform k id 0 := by
  have h1 : max 1 a.parts.length = 1 := Nat.max_eq_left hlen
  unfold State.performAll
  simp only [ha, h1, hstale, Bool.false_eq_true, if_false]
  rfl

/-- A waiting `qfence` whose condition is looked at (R141). -/
def State.fenceMet (s : State) (k id m : Nat) (a : Access) : State :=
  match s.deferred k (fenceUnits m) with
  | some d => s.raiseDeferred k d
  | none => if s.mayPerform k a none ∧ s.engineQueuesDone k a m ∧ s.unitsStored k a m then s.finishAccess k id a.eng else s

theorem State.tryPerform_qfence {m : Nat} (ha : (s.ctx k).access id = some a) (hst : (s.ctx k).st ≠ .idle)
    (hack : (s.ctx k).systemAcked a = true) (hstale : a.stale = false) (hk : a.kind = .qfence m) :
    s.tryPerform k id 0 = s.fenceMet k id m a := by
  have hidle : ¬((s.ctx k).st = .idle ∨ (!(s.ctx k).systemAcked a) = true) := by simp [hst, hack]
  unfold State.tryPerform State.fenceMet
  cases hd : s.deferred k (fenceUnits m) <;>
    simp only [ha, if_neg hidle, hstale, if_neg Bool.false_ne_true, hk, hd, Bool.and_eq_true, and_assoc]

theorem State.tryPerform_op {p : Part} {o : SliceOp} (ha : (s.ctx k).access id = some a) (hst : (s.ctx k).st ≠ .idle)
    (hack : (s.ctx k).systemAcked a = true) (hstale : a.stale = false) (hk : a.kind = .op o) (hparts : a.parts = [p])
    (hdone : p.done = false) (hmay : s.mayPerform k a (some p) = true) : s.tryPerform k id 0 = s.performOp k a p o := by
  have hbefore : s.elementsBefore a 0 p = true := by simp [State.elementsBefore]
  have hidle : ¬((s.ctx k).st = .idle ∨ (!(s.ctx k).systemAcked a) = true) := by simp [hst, hack]
  have h0 : a.parts[0]? = some p := by rw [hparts]; rfl
  simp only [State.tryPerform, ha, if_neg hidle, hstale, if_neg Bool.false_ne_true, hk, h0, hdone, hbefore, hmay,
    Bool.not_true, Bool.or_self]

/-- An operation of one part that nothing holds back performs. -/
theorem State.performAll_op {p : Part} {o : SliceOp} (ha : (s.ctx k).access id = some a) (hst : (s.ctx k).st ≠ .idle)
    (hack : (s.ctx k).systemAcked a = true) (hstale : a.stale = false) (hk : a.kind = .op o) (hparts : a.parts = [p])
    (hdone : p.done = false) (hmay : s.mayPerform k a (some p) = true) : s.performAll k id = s.performOp k a p o := by
  rw [State.performAll_short ha hstale (by rw [hparts]; exact Nat.le_refl 1),
    State.tryPerform_op ha hst hack hstale hk hparts hdone hmay]

/-- What an operation that does not close a region leaves where it has performed. -/
theorem State.performOp_eq_done {p : Part} {o : SliceOp} {t : State} {v : Quad} (ho : opCloses o = false)
    (h : (s.endHold k (p.addr / 128)).opAt k a p o = .done t v) : s.performOp k a p o =
      ((match opDest o with | some d => t.writeReg k a.eng d v | none => t).acquireOf k a).finishAccess k a.id a.eng := by
  unfold State.performOp
  simp only [ho, Bool.false_eq_true, if_false]
  generalize (s.endHold k (p.addr / 128)).opAt k a p o = x at h
  cases h
  rfl

theorem State.performOp_eq_wait {p : Part} {o : SliceOp} {t : State} (ho : opCloses o = false)
    (h : (s.endHold k (p.addr / 128)).opAt k a p o = .wait t) : s.performOp k a p o = t := by
  unfold State.performOp
  simp only [ho, Bool.false_eq_true, if_false]
  generalize (s.endHold k (p.addr / 128)).opAt k a p o = x at h
  cases h
  rfl

end

/-! ## A poisoned line as it is filled -/

/-- A part of the machine that the bookkeeping of lines and columns leaves as it is. -/
def KeptByBooks {β : Type} (g : State → β) : Prop :=
  ∀ (s : State) cols box errs dirty grans parts out l2, g { s with cols := cols, box := box, errs := errs, dirty := dirty,
                                                                    grans := grans, parts := parts, out := out, l2 := l2 } = g s

section
variable {β : Type} {g : State → β} (hg : KeptByBooks g)
include hg

theorem KeptByBooks.touchBank (s : State) (l : Nat) : g (s.touchBank l) = g s := by
  unfold State.touchBank
  dsimp only
  split
  · rfl
  · split
    · exact hg s ..
    · rfl

theorem KeptByBooks.rewritten (s : State) (l : Nat) : g (s.rewritten l) = g s := by
  unfold State.rewritten
  dsimp only
  split
  · exact hg.touchBank s l
  · exact (hg (s.touchBank l) ..).trans (hg.touchBank s l)

theorem KeptByBooks.marks (s : State) (part : Nat) : g (s.marks part) = g s := by
  have hsend : ∀ (s : State) (b : Bool) (m : Msg), g (if b then s.send m else s) = g s := fun s b _ => by
    cases b
    · rfl
    · exact hg s ..
  unfold State.marks
  dsimp only
  split
  · rfl
  · exact (hg _ ..).trans ((hsend _ _ _).trans (hsend s _ _))

theorem KeptByBooks.writeBack (s : State) (n : Nat) : g (s.writeBack n) = g s := by
  have hr : g ((s.dirtyIn n).foldl State.rewritten s) = g s := foldl_keeps g hg.rewritten _ s
  unfold State.writeBack
  dsimp only
  split
  · exact (hg ((s.dirtyIn n).foldl State.rewritten s) ..).trans hr
  · split
    · exact (hg ((s.dirtyIn n).foldl State.rewritten s) ..).trans hr
    · exact (hg.marks ..).trans ((hg ((s.dirtyIn n).foldl State.rewritten s) ..).trans hr)

theorem KeptByBooks.l2Room (s : State) (w : Nat × Nat) : g (s.l2Room w) = g s := by
  unfold State.l2Room
  split
  · rfl
  · split
    · rfl
    · split
      · next l _ =>
        refine (hg (if s.dirty.contains l then s.writeBack (l / 64) else s) ..).trans ?_
        split
        · exact hg.writeBack ..
        · rfl
      · rfl

/-- So is a part that holds no poison either, as a line is filled. -/
theorem KeptByBooks.l2Fill (hp : ∀ (s : State) p, g { s with poison := p } = g s) (s : State) (line : Nat) :
    g (s.l2Fill line) = g s := by
  have hfold (c a : Nat) (l : List Nat) (s : State) : g (l.foldl (fun t l => t.colEvent c 2 l a) s) = g s :=
    foldl_keeps g (fun t _ => hg t ..) l s
  have hr : g (s.readStored line) = g s := by
    unfold State.readStored State.poisonLine
    dsimp only
    split
    · exact hg.touchBank s line
    · split
      · exact hg.touchBank s line
      · split
        · exact ((hfold ..).trans (hg (s.touchBank line) ..)).trans (hg.touchBank s line)
        · split
          · exact hg.touchBank s line
          · exact (hp (s.touchBank line) _).trans (hg.touchBank s line)
  unfold State.l2Fill
  dsimp only
  split
  · rfl
  · split
    · exact hr
    · exact (hg ((s.readStored line).l2Room _) ..).trans ((hg.l2Room ..).trans hr)

end

theorem keptByBooks_poison : KeptByBooks (·.poison) := fun _ _ _ _ _ _ _ _ _ => rfl

/-- A line is poisoned whether or not the L2 holds it: it is marked, or its column is lost. -/
def State.Spoilt (s : State) (line : Nat) : Prop := s.poison.contains line = true ∨ (s.col (s.columnOf line)).lost = true

theorem State.Spoilt.linePoisoned {s : State} {line : Nat} (h : s.Spoilt line) : s.linePoisoned line = true := by
  unfold State.linePoisoned
  rcases h with h | h
  · rw [h]; rfl
  · rw [h, Bool.or_true]; rfl

theorem State.NoWorse.spoilt {s t : State} {line : Nat} (h : s.NoWorse line t) (hp : t.poison = s.poison) (hs : s.Spoilt line) :
    t.Spoilt line := by
  refine hs.imp (fun hc => by rwa [hp]) fun hl => ?_
  rwa [h.places.columnOf, (h.health _).1]

/-- A poisoned line that the L2 does not hold is found so as its column is read. -/
theorem State.readStored_spoilt {s : State} {line : Nat} (hc : s.l2.contains line = false) (h : s.linePoisoned line = true) :
    (s.readStored line).Spoilt line := by
  have ht := State.noWorse_touchBank line line s
  have hs : s.Spoilt line ∨ s.decodes line = false := by
    unfold State.linePoisoned at h
    rw [hc] at h
    unfold State.Spoilt
    revert h
    cases s.poison.contains line <;> cases (s.col (s.columnOf line)).lost <;> cases s.decodes line <;> decide
  have hspoilt (hd : s.decodes line = true) : (s.touchBank line).Spoilt line :=
    ht.spoilt (keptByBooks_poison.touchBank s line) (hs.resolve_right (by rw [hd]; decide))
  have hdec : (s.touchBank line).decodes line = s.decodes line := by
    rw [State.decodes_eq, State.decodes_eq, ht.places.columnOf, (ht.health _).2]
    congr 1
    unfold State.touchBank State.errsOf
    dsimp only
    split
    · rfl
    · split <;> rfl
  unfold State.readStored
  dsimp only
  split
  · next he => exact hspoilt (by rw [← hdec, State.decodes_eq, he, decodesWith_nil])
  · split
    · next hl => exact .inr hl
    · split
      · next hd =>
        refine State.NoWorse.spoilt (s := s.touchBank line) ((State.noWorse_modCol line _ _ ⟨rfl, rfl⟩).trans
          (State.noWorse_foldl line (fun t _ => State.noWorse_colEvent line t ..) _ _)) ?_ (hspoilt (hdec ▸ hd))
        exact foldl_keeps (·.poison) (fun (t : State) l => (rfl : (t.colEvent _ 2 l _).poison = t.poison)) _ _
      · refine .inl ?_
        unfold State.poisonLine
        split
        · next hp => exact hp
        · simp

/-- A line that is good once it is in its home slice was good before. -/
theorem State.good_of_l2Fill {s : State} {line : Nat} (h : (s.l2Fill line).linePoisoned line = false) :
    s.linePoisoned line = false := by
  by_contra hbad
  rw [Bool.not_eq_false] at hbad
  refine Bool.false_ne_true (h.symm.trans ?_)
  unfold State.l2Fill
  dsimp only
  split
  · exact hbad
  · next hc =>
    have hc : s.l2.contains line = false := by simpa using hc
    have hr := State.readStored_spoilt hc hbad
    split
    · exact hr.linePoisoned
    · have hl : (s.readStored line).l2.contains line = false := by rw [State.readStored_l2]; exact hc
      exact (((State.noWorse_l2Room _ _ hl).trans (State.noWorse_cache line _)).spoilt (keptByBooks_poison.l2Room ..) hr).linePoisoned

/-! ## Barriers and lengths -/

/-- A barrier record reads alike from a good line before and after its fill. -/
theorem State.bar_l2Fill {s : State} {pa : Nat} (h : (s.l2Fill (pa / 128)).linePoisoned (pa / 128) = false) :
    (s.l2Fill (pa / 128)).bar pa = s.bar pa := by
  unfold State.bar
  rw [State.committed_of_good 16 h, State.committed_of_good 16 (State.good_of_l2Fill h), State.l2Fill_mem]

theorem State.bar_endHold (s : State) (k l pa : Nat) : (s.endHold k l).bar pa = s.bar pa := by
  unfold State.endHold
  split <;> rfl

theorem State.opBarwait_eq {s : State} {k off va pa phase : Nat} (h : (s.l2Fill (pa / 128)).linePoisoned (pa / 128) = false) :
    s.opBarwait k off va pa phase = if (s.bar pa).phase = phase % 2 ^ 32 then .wait s
      else .done ((s.l2Fill (pa / 128)).l1Drop (k / 4) (pa / 128)) ((s.bar pa).answer phase) := by
  unfold State.opBarwait
  simp only [State.deliver_of_good k .x off va h, State.bar_l2Fill h, Bool.not_true,
    Bool.false_eq_true, if_false]

theorem State.performOp_barwait {s : State} {k : Nat} {a : Access} {p : Part} {d : Reg} {ph : Nat}
    (h : ((s.endHold k (p.addr / 128)).l2Fill (p.addr / 128)).linePoisoned (p.addr / 128) = false) :
    s.performOp k a p (.barwait d ph) = if (s.bar p.addr).phase = ph % 2 ^ 32 then s.endHold k (p.addr / 128)
      else (((((s.endHold k (p.addr / 128)).l2Fill (p.addr / 128)).l1Drop (k / 4) (p.addr / 128)).writeReg k a.eng d
        ((s.bar p.addr).answer ph)).acquireOf k a).finishAccess k a.id a.eng := by
  have hop := State.opBarwait_eq (k := k) (off := a.pos.off) (va := p.va) (phase := ph) h
  rw [State.bar_endHold] at hop
  by_cases hp : (s.bar p.addr).phase = ph % 2 ^ 32
  · rw [if_pos hp] at hop ⊢
    exact State.performOp_eq_wait rfl hop
  · rw [if_neg hp] at hop ⊢
    exact State.performOp_eq_done rfl hop

/-- What an answered `sqwait` leaves. -/
def State.sqwaitEnds (s : State) (k : Nat) (a : Access) (p : Part) (d : Reg) (h status value : Nat) : State :=
  (((((s.endHold k (p.addr / 128)).l1Drop (k / 4) (h / 128)).l1Drop (k / 4) (h / 128 + 1)).writeReg k a.eng d
    (resultQuad status value)).acquireOf k a).finishAccess k a.id a.eng

theorem State.performOp_sqwait (s : State) (k : Nat) (a : Access) (p : Part) (d : Reg) (h : Nat) (n b : Quad) (c : Nat) :
    s.performOp k a p (.sqwait d h n b c) = if (s.seq h).live = false then s.sqwaitEnds k a p d h 7 0
      else if n.toNat ≤ (s.seq h).len then s.sqwaitEnds k a p d h 0 (s.seq h).len else s.endHold k (p.addr / 128) := by
  have hseq : (s.endHold k (p.addr / 128)).seq h = s.seq h := State.seq_of_seqs (State.endHold_seqs ..) h
  have hop : (s.endHold k (p.addr / 128)).opAt k a p (.sqwait d h n b c) = (s.endHold k (p.addr / 128)).opSqwait k h n := rfl
  unfold State.opSqwait at hop
  rw [hseq] at hop
  cases hl : (s.seq h).live with
  | false =>
    rw [hl] at hop
    exact State.performOp_eq_done rfl hop
  | true =>
    rw [hl] at hop
    rw [if_neg (by decide)]
    by_cases hn : n.toNat ≤ (s.seq h).len
    · rw [if_pos hn]
      exact State.performOp_eq_done rfl (hop.trans (if_pos hn))
    · rw [if_neg hn]
      exact State.performOp_eq_wait rfl (hop.trans (if_neg hn))

end Sys2Proof.Machine
end

section
/-! PROOFS. The events by which a wait ends, one after the other. -/

namespace Sys2Proof.Machine

/-- The context that an event names. -/
def State.evk (s : State) : Nat := ctxKey s.cur.ev.core s.cur.ev.ctx

section
variable {s : State}

/-! ## Accesses (R141, R188, R284) -/

theorem exec_qfenceReturn {id m : Nat} {a : Access} (hw : ((s.ctx s.evk).eng s.cur.ev.eng).wait = .access id)
    (ha : (s.ctx s.evk).access id = some a) (hk : a.kind = .qfence m) (hp : a.parts = []) (hst : (s.ctx s.evk).st ≠ .idle)
    (hack : (s.ctx s.evk).systemAcked a = true) (hstale : a.stale = false) :
    exec .qfenceReturn s = .next (match s.deferred s.evk (fenceUnits m) with
        | some d => s.raiseDeferred s.evk d
        | none => if s.mayPerform s.evk a none ∧ s.engineQueuesDone s.evk a m ∧ s.unitsStored s.evk a m
            then s.finishAccess s.evk id a.eng else s) :=
  congrArg Host.Outcome.next (((State.returnOf_of hw ha (by rw [hk])).trans
    (State.performAll_short ha hstale (by rw [hp]; exact Nat.zero_le 1))).trans (State.tryPerform_qfence ha hst hack hstale hk))

section
variable {id : Nat} {a : Access} {p : Part}

theorem exec_barwaitReturn {d : Reg} {ph : Nat} (hw : ((s.ctx s.evk).eng .x).wait = .access id)
    (ha : (s.ctx s.evk).access id = some a) (hk : a.kind = .op (.barwait d ph)) (hp : a.parts = [p]) (hd : p.done = false)
    (hst : (s.ctx s.evk).st ≠ .idle) (hack : (s.ctx s.evk).systemAcked a = true) (hstale : a.stale = false)
    (hmay : s.mayPerform s.evk a (some p) = true) :
    exec .barwaitReturn s = .next (s.performOp s.evk a p (.barwait d ph)) :=
  congrArg Host.Outcome.next ((State.returnOf_of hw ha (by rw [hk])).trans
    (State.performAll_op ha hst hack hstale hk hp hd hmay))

theorem exec_sqwaitReturn {d : Reg} {h : Nat} {n limit : Quad} {since : Nat} (hw : ((s.ctx s.evk).eng .x).wait = .access id)
    (ha : (s.ctx s.evk).access id = some a) (hk : a.kind = .op (.sqwait d h n limit since)) (hp : a.parts = [p])
    (hd : p.done = false) (hst : (s.ctx s.evk).st ≠ .idle) (hack : (s.ctx s.evk).systemAcked a = true) (hstale : a.stale = false)
    (hmay : s.mayPerform s.evk a (some p) = true) :
    exec .sqwaitReturn s = .next (s.performOp s.evk a p (.sqwait d h n limit since)) ∧
      s.performAll s.evk id = s.performOp s.evk a p (.sqwait d h n limit since) := by
  have hall := State.performAll_op ha hst hack hstale hk hp hd hmay
  exact ⟨congrArg Host.Outcome.next ((State.returnOf_of hw ha (by rw [hk])).trans hall), hall⟩

theorem exec_sqwaitTimeout {d : Reg} {h : Nat} {n limit : Quad} {since : Nat} (hw : ((s.ctx s.evk).eng .x).wait = .access id)
    (ha : (s.ctx s.evk).access id = some a) (hk : a.kind = .op (.sqwait d h n limit since)) :
    exec .sqwaitTimeout s = .next (if limit ≠ 0 ∧ since + limit.toNat ≤ s.clock then
        (if !(s.seq h).live || decide (n.toNat ≤ (s.seq h).len) then s.performAll s.evk id
         else ((s.l1DropAll (s.evk / 4)).writeReg s.evk .x d (resultQuad 5 (s.seq h).len)).finishAccess s.evk id .x)
      else s) := by
  unfold State.evk at hw ha ⊢
  show execSqwaitTimeout s = _
  unfold execSqwaitTimeout
  simp only [hw, ha, hk]
  rw [← ite_not]
  simp only [not_or, Nat.not_lt]
  rfl

end

/-! ## Tags (R184) -/

/-- The wait of X on tags over: with the value that it returns, or with the trap of a deferred fault. -/
def State.tagsEnd (s : State) (k : Nat) (d : Reg) (mask : Quad) : State :=
  let t := (s.core (k / 4)).tagmap &&& mask
  match s.tagDeferred k t with
  | some e => s.raiseDeferred k e
  | none => ((if t = 0 then s else s.l1DropAll (k / 4)).writeReg k .x d t).modCtx k fun x => x.endWait .x

theorem State.endTags_eq (s : State) (k : Nat) (d : Reg) (mask : Quad) : s.endTags k d mask = s.tagsEnd k d mask := rfl

section
variable {all : Bool} {d : Reg} {mask limit : Quad} {since : Nat}

theorem exec_tagWaitReturn (hw : ((s.ctx s.evk).eng .x).wait = .tags all d mask limit since) :
    exec .tagWaitReturn s = .next (if (if all then (s.core (s.evk / 4)).tagmap &&& mask = mask
      else (s.core (s.evk / 4)).tagmap &&& mask ≠ 0) then s.tagsEnd s.evk d mask else s) := by
  unfold State.evk at hw ⊢
  show execTagWaitReturn s = _
  unfold execTagWaitReturn
  simp only [hw, tagsMet_iff, State.endTags_eq]

theorem exec_tagWaitTimeout (hw : ((s.ctx s.evk).eng .x).wait = .tags all d mask limit since) :
    exec .tagWaitTimeout s = .next (if limit ≠ 0 ∧ since + limit.toNat ≤ s.clock then s.tagsEnd s.evk d mask else s) := by
  unfold State.evk at hw ⊢
  show execTagWaitTimeout s = _
  unfold execTagWaitTimeout
  simp only [hw, State.endTags_eq]
  rw [← ite_not]
  simp only [not_or, Nat.not_lt]

end

/-! ## Quiescence, semaphores, lanes, streams (R213, R242, R328) -/

section
variable {d : Reg} {limit : Quad} {since : Nat}

theorem exec_quiesReturn (hw : ((s.ctx s.evk).eng .x).wait = .quies d limit since) (hst : (s.ctx s.evk).st = .run) :
    exec .quiesReturn s = .next (if s.quietBut (s.ctx s.evk).regid s.inQuies
      then (s.writeReg s.evk .x d (resultQuad 0 1)).modCtx s.evk fun x => x.endWait .x else s) := by
  have hin : s.inQuies s.evk = true := by
    unfold State.inQuies
    rw [hst, hw]
  unfold State.evk at hw hin ⊢
  show execQuiesReturn s = _
  unfold execQuiesReturn
  simp only [hw, hin, Bool.true_and]

theorem exec_quiesTimeout (hw : ((s.ctx s.evk).eng .x).wait = .quies d limit since) :
    exec .quiesTimeout s = .next (if limit ≠ 0 ∧ since + limit.toNat ≤ s.clock
      then (s.writeReg s.evk .x d (resultQuad 5 0)).modCtx s.evk fun x => x.endWait .x else s) := by
  unfold State.evk at hw ⊢
  show execQuiesTimeout s = _
  unfold execQuiesTimeout
  simp only [hw]
  rw [← ite_not]
  simp only [not_or, Nat.not_lt]

end

theorem exec_msemWaitReturn {i n : Nat} (hw : ((s.ctx s.evk).eng .c).wait = .msem i n) :
    exec .msemWaitReturn s = .next (if n ≤ s.semLeft (s.cur.ev.core - 64) i
      then ((s.setMat (s.cur.ev.core - 64) { s.mat (s.cur.ev.core - 64) with
        sems := tput (s.mat (s.cur.ev.core - 64)).sems i (min 65535 (tget 0 (s.mat (s.cur.ev.core - 64)).sems i - n)) }).l1DropAll
          (s.evk / 4)).modCtx s.evk fun x => x.endWait .c
      else s) := by
  unfold State.evk at hw ⊢
  show execMsemWaitReturn s = _
  unfold execMsemWaitReturn
  simp only [hw]
  rfl

/-- A lane of `ls` has an `lfence` of the task, of number `id`, before it. -/
def State.fenceThere (s : State) (k : Nat) (ls : List Nat) (id : Nat) : Prop :=
  ∃ n ∈ ls, ∃ e ∈ (s.lane n).q ++ (s.lane n).flight, e.ctx = k ∧ e.taskid = (s.ctx k).taskid ∧ e.cmd = .fence id

/-- A reduction of the task that one of the lanes takes part in, and that precedes number `id`, is open. -/
def State.reductionOpen (s : State) (k : Nat) (ls : List Nat) (id : Nat) : Prop :=
  ∃ r ∈ s.reds, r.ctx = k ∧ r.taskid = (s.ctx k).taskid ∧ r.id < id ∧ ∃ m ∈ r.lanes, m ∈ ls

theorem LaneEnt.fenceOf_iff (e : LaneEnt) (k task id : Nat) :
    (e.ctx == k && e.taskid == task && (match e.cmd with | .fence i => i == id | _ => false)) = true ↔
      e.ctx = k ∧ e.taskid = task ∧ e.cmd = .fence id := by
  rw [Bool.and_eq_true, Bool.and_eq_true, beq_iff_eq, beq_iff_eq, and_assoc]
  refine and_congr_right fun _ => and_congr_right fun _ => ?_
  cases e.cmd <;> simp

/-- A lane has no `lfence` of the task, of number `id`, before it. -/
def State.fencePassed (s : State) (k task id n : Nat) : Bool :=
  ((s.lane n).q ++ (s.lane n).flight).all fun e =>
    !(e.ctx == k && e.taskid == task && (match e.cmd with | .fence i => i == id | _ => false))

/-- The reductions of a task before number `id` that lanes of `ls` take part in are done. -/
def State.reductionsDone (s : State) (k task id : Nat) (ls : List Nat) : Bool :=
  s.reds.all fun r => !(r.ctx == k && r.taskid == task && decide (r.id < id) && r.lanes.any ls.contains)

theorem State.fencePassed_iff (s : State) (k id : Nat) (ls : List Nat) :
    ls.all (s.fencePassed k (s.ctx k).taskid id) = true ↔ ¬s.fenceThere k ls id := by
  unfold State.fenceThere State.fencePassed
  simp only [List.all_eq_true, Bool.not_eq_true', ← Bool.not_eq_true, LaneEnt.fenceOf_iff, not_exists, not_and]

theorem State.reductionsDone_iff (s : State) (k id : Nat) (ls : List Nat) :
    s.reductionsDone k (s.ctx k).taskid id ls = true ↔ ¬s.reductionOpen k ls id := by
  unfold State.reductionOpen State.reductionsDone
  simp only [List.all_eq_true, Bool.not_eq_true', ← Bool.not_eq_true, Bool.and_eq_true, beq_iff_eq, decide_eq_true_eq,
    List.any_eq_true, List.contains_iff_mem, not_exists, not_and, and_imp]

theorem exec_lfenceReturn {ls : List Nat} {id : Nat} (hw : ((s.ctx s.evk).eng .c).wait = .lfence ls id) :
    (¬s.fenceThere s.evk ls id → ¬s.reductionOpen s.evk ls id →
      exec .lfenceReturn s = .next (s.modCtx s.evk fun x => x.endWait .c)) ∧
    (s.fenceThere s.evk ls id ∨ s.reductionOpen s.evk ls id → exec .lfenceReturn s = .next s) := by
  have he : exec .lfenceReturn s = .next (if (ls.all (s.fencePassed s.evk (s.ctx s.evk).taskid id) &&
      s.reductionsDone s.evk (s.ctx s.evk).taskid id ls) = true then s.modCtx s.evk fun x => x.endWait .c else s) := by
    unfold State.evk at hw ⊢
    show execLfenceReturn s = _
    unfold execLfenceReturn
    simp only [hw]
    rfl
  have hiff := Bool.and_eq_true_iff.trans
    (and_congr (State.fencePassed_iff s s.evk id ls) (State.reductionsDone_iff s s.evk id ls))
  refine ⟨fun h1 h2 => he.trans (congrArg _ (if_pos (hiff.mpr ⟨h1, h2⟩))), fun h => he.trans (congrArg _ (if_neg fun hn => ?_))⟩
  exact h.elim (hiff.mp hn).1 (hiff.mp hn).2

theorem exec_sunbindComplete {n : Nat} {p : Pos} (hw : ((s.ctx s.evk).eng s.cur.ev.eng).wait = .sunbind n p) :
    exec .sunbindComplete s = .next (if s.canUnbind s.evk n s.cur.ev.eng p
      then s.modCtx s.evk fun x => (x.unbind n).endWait s.cur.ev.eng else s) := by
  unfold State.evk at hw ⊢
  show execSunbindComplete s = _
  unfold execSunbindComplete
  simp only [hw]

end

end Sys2Proof.Machine
end

section
/-! PROOFS. Waits for `slot.plan`, for `ctl.split`, for a line and for a length; O50. -/

namespace Sys2Proof.Machine

section
variable {s : State}

/-! ## `slot.plan` (R162, R235) -/

/-- No other engine of a context has a write of `slot.plan` that goes before one of engine `e`, issued at `since`. -/
def Ctx.PlanFirst (c : Ctx) (e : Eng) (since : Nat) : Prop :=
  ∀ f, f ≠ e → ∀ x u, (c.eng f).wait = .plan x u → since < u ∨ (since = u ∧ engIdx e < engIdx f)

theorem Ctx.planFirst_iff (c : Ctx) (e : Eng) (since : Nat) : c.planFirst e since = true ↔ c.PlanFirst e since := by
  unfold Ctx.planFirst Ctx.PlanFirst
  rw [List.all_eq_true]
  refine forall_congr' fun f => (imp_iff_right (mem_allEngs f)).trans ?_
  cases hw : (c.eng f).wait with
  | plan x u =>
    simp only [Bool.or_eq_true, beq_iff_eq, decide_eq_true_eq]
    constructor
    · rintro (h | h) hne x' u' he
      · exact absurd h hne
      · cases he; exact h
    · intro h
      by_cases hf : f = e
      · exact .inl hf
      · exact .inr (h hf x u rfl)
  | _ => simp

theorem exec_slotPlanWrite {w : Quad} {t : Nat} (hw : ((s.ctx s.evk).eng s.cur.ev.eng).wait = .plan w t) :
    ((s.ctx s.evk).PlanFirst s.cur.ev.eng t → exec .slotPlanWrite s = .next
      (({ s with cur := { s.cur with core := s.cur.ev.core, ctx := s.cur.ev.ctx, eng := s.cur.ev.eng } } : State).planWrite w)) ∧
    (¬(s.ctx s.evk).PlanFirst s.cur.ev.eng t → exec .slotPlanWrite s = .next s) := by
  have he : exec .slotPlanWrite s = .next (if (s.ctx s.evk).planFirst s.cur.ev.eng t = true then
      ({ s with cur := { s.cur with core := s.cur.ev.core, ctx := s.cur.ev.ctx, eng := s.cur.ev.eng } } : State).planWrite w
      else s) := by
    have hce : State.ce { s with cur := { s.cur with core := s.cur.ev.core, ctx := s.cur.ev.ctx, eng := s.cur.ev.eng } } =
        (s.ctx s.evk).eng s.cur.ev.eng := rfl
    show execSlotPlanWrite s = _
    unfold execSlotPlanWrite
    simp only [hce, hw]
    rfl
  rw [← Ctx.planFirst_iff]
  exact ⟨fun h => he.trans (congrArg _ (if_pos h)), fun h => he.trans (congrArg _ (if_neg h))⟩

/-! ## `ctl.split` (R106) -/

theorem State.havoc_fields (s : State) (core a n : Nat) : (s.havoc core a n).mem = s.mem ∧ (s.havoc core a n).reds = s.reds ∧
    (∀ k, (s.havoc core a n).ctx k = s.ctx k) ∧ (∀ o, o ≠ core → (s.havoc core a n).core o = s.core o) ∧
    ∃ r p, (s.havoc core a n).core core = { s.core core with sram := r, poison := p } := by
  unfold State.havoc
  dsimp only
  split
  · exact ⟨rfl, rfl, fun _ => rfl, fun _ _ => rfl, _, _, rfl⟩
  · refine ⟨rfl, rfl, fun _ => rfl, fun o ho => ?_, _, _, (State.core_modCore ..).trans (if_pos rfl)⟩
    exact (State.core_modCore ..).trans (if_neg ho)

/-- The engine that wrote `ctl.split` goes on. -/
def Ctx.splitDone (c : Ctx) (e : Eng) : Ctx :=
  match (c.eng e).wait with
  | .split _ => c.endWait e
  | _ => c

theorem Ctx.splitDone_wait {c : Ctx} {e : Eng} {y : Nat} (h : (c.eng e).wait = .split y) : ((c.splitDone e).eng e).wait = .no := by
  unfold Ctx.splitDone
  rw [h]
  exact Ctx.endWait_wait c e

theorem State.splitApply_fields {core x : Nat} {e : Eng} {n : Nat} {r : List (Nat × Eng × Nat)}
    (h : (s.core core).split = (x, e, n) :: r) :
    (s.splitApply core).mem = s.mem ∧ (s.splitApply core).reds = s.reds ∧
      ((s.splitApply core).core core).spad = n ∧ ((s.splitApply core).core core).l1 = [] ∧
      ((s.splitApply core).core core).split = r ∧ ((s.splitApply core).core core).splitting = false ∧
      (∀ o, o ≠ core → (s.splitApply core).core o = s.core o) ∧
      (∀ o, o ≠ ctxKey core x → (s.splitApply core).ctx o = s.ctx o) ∧
      (s.splitApply core).ctx (ctxKey core x) = (s.ctx (ctxKey core x)).splitDone e := by
  have he : ∃ f a m, s.splitApply core = ((s.modCore core f).havoc core a m).modCtx (ctxKey core x) (Ctx.splitDone · e) ∧
      (f (s.core core)).spad = n ∧ (f (s.core core)).l1 = [] ∧ (f (s.core core)).split = r ∧
      (f (s.core core)).splitting = false := by
    refine ⟨fun d => { d with l1 := [], spad := n, split := r, splitting := false,
                              ltags := d.ltags.filter fun t => decide (t.1 < 16 * min (s.core core).spad n ∨
                                16 * max (s.core core).spad n ≤ t.1) }, 65536 * min (s.core core).spad n,
      65536 * (max (s.core core).spad n - min (s.core core).spad n), ?_, rfl, rfl, rfl, rfl⟩
    unfold State.splitApply
    simp only [h]
    rfl
  obtain ⟨f, a, m, he, h1, h2, h3, h4⟩ := he
  obtain ⟨hmem, hreds, hctx, hother, g, p, hcore⟩ := State.havoc_fields (s.modCore core f) core a m
  have hc : (s.splitApply core).core core = { f (s.core core) with sram := g, poison := p } := by
    rw [he]
    refine hcore.trans ?_
    rw [State.core_modCore, if_pos rfl]
  rw [hc, he]
  refine ⟨hmem, hreds, h1, h2, h3, h4, fun o ho => ?_, fun o ho => ?_, ?_⟩
  · exact (hother o ho).trans ((State.core_modCore ..).trans (if_neg ho))
  · exact (State.ctx_modCtx_other _ _ ho).trans (hctx o)
  · exact (State.ctx_modCtx_same ..).trans (congrArg (Ctx.splitDone · e) (hctx _))

theorem State.deliverReady_nil (h : s.reds = []) : s.deliverReady = s := by
  unfold State.deliverReady
  rw [h]
  rfl

/-! ## The hold of a line (R182) -/

theorem State.opAlrb_grants {k off va pa : Nat} (hgood : (s.l2Fill (pa / 128)).linePoisoned (pa / 128) = false)
    (hheld : ∀ h ∈ s.held, h.line = pa / 128 → h.ctx = k) (hq : ∀ h ∈ s.alrq, h.line ≠ pa / 128) :
    ∃ t, s.opAlrb k off va pa false = .done t 0 ∧ t.mem = s.mem ∧ (∃ h ∈ t.held, h.line = pa / 128 ∧ h.ctx = k) ∧
      (t.ctx k).alr = some { line := pa / 128, va := va / 128 * 128, marks := [], since := s.clock, hold := true,
                             snap := memRead s.mem (128 * (pa / 128)) 128 } := by
  have hl : 128 * (pa / 128) / 128 = pa / 128 := Nat.mul_div_cancel_left _ (by decide)
  have hany : (s.held.any fun h => h.line == pa / 128 && h.ctx != k) = false := by
    rw [List.any_eq_false]
    intro h hh
    simp only [Bool.and_eq_true, beq_iff_eq, bne_iff_ne, not_and, not_not]
    exact hheld h hh
  have hfind : (s.alrq.find? fun h => h.line == pa / 128) = none :=
    List.find?_eq_none.mpr fun h hh => by simpa using hq h hh
  have hd := State.deliver_of_good (s := s) (pa := 128 * (pa / 128)) k .x off va (by rw [hl]; exact hgood)
  have hclock : (s.l2Fill (pa / 128)).clock = s.clock :=
    KeptByBooks.l2Fill (g := State.clock) (fun _ _ _ _ _ _ _ _ _ => rfl) (fun _ _ => rfl) s _
  have hsnap : (s.l2Fill (pa / 128)).committed (128 * (pa / 128)) 128 = memRead s.mem (128 * (pa / 128)) 128 := by
    rw [State.committed_of_good 128 (by rw [hl]; exact hgood), State.l2Fill_mem]
  have hmem := State.l2Fill_mem s (pa / 128)
  unfold State.opAlrb
  rw [hl] at hd
  simp only [hany, hfind, hd, Bool.not_true, Bool.or_false, Bool.false_eq_true, if_false]
  rw [hsnap, ← hclock, ← hmem]
  exact ⟨_, rfl, hmem.symm ▸ rfl, ⟨_, List.mem_append_right _ (List.mem_singleton.mpr rfl), rfl, rfl⟩,
    congrArg Ctx.alr (State.ctx_modCtx_same ..)⟩

theorem exec_alrGrant {a : Access} {p : Part} {va : Nat}
    (hf : (s.ctx s.evk).mq.find? (fun a => match a.kind with | .op (.alrb ..) => true | _ => false) = some a)
    (hk : a.kind = .op (.alrb va false)) (hp : a.parts = [p]) (hd : p.done = false) (hst : (s.ctx s.evk).st ≠ .idle)
    (hack : (s.ctx s.evk).systemAcked a = true) (hstale : a.stale = false) (hmay : s.mayPerform s.evk a (some p) = true)
    (ha : (s.ctx s.evk).access a.id = some a) :
    exec .alrGrant s = .next (s.performOp s.evk a p (.alrb va false)) := by
  have he : exec .alrGrant s = .next (s.performAll s.evk a.id) := by
    unfold State.evk at hf ⊢
    show execAlrGrant s = _
    unfold execAlrGrant
    dsimp only
    generalize hx : (s.ctx (ctxKey s.cur.ev.core s.cur.ev.ctx)).mq.find? _ = x
    cases hx.symm.trans hf
    rfl
  exact he.trans (congrArg _ (State.performAll_op ha hst hack hstale hk hp hd hmay))

/-- A granted line: its region is open with the committed bytes as its snapshot. -/
theorem State.performOp_alrb {k : Nat} {a : Access} {p : Part} {va : Nat}
    (hgood : ((s.endHold k (p.addr / 128)).l2Fill (p.addr / 128)).linePoisoned (p.addr / 128) = false)
    (hheld : ∀ h ∈ s.held, h.line = p.addr / 128 → h.ctx = k) (hq : ∀ h ∈ s.alrq, h.line ≠ p.addr / 128) :
    (s.performOp k a p (.alrb va false)).mem = s.mem ∧ ((s.performOp k a p (.alrb va false)).ctx k).access a.id = none ∧
      (∃ h ∈ (s.performOp k a p (.alrb va false)).held, h.line = p.addr / 128 ∧ h.ctx = k) ∧
      ((s.performOp k a p (.alrb va false)).ctx k).alr = some
        { line := p.addr / 128, va := va / 128 * 128, marks := [], since := s.clock, hold := true,
          snap := memRead s.mem (128 * (p.addr / 128)) 128 } := by
  obtain ⟨hs, hheld', hq', hclock⟩ : (s.endHold k (p.addr / 128)).mem = s.mem ∧
      (∀ h ∈ (s.endHold k (p.addr / 128)).held, h.line = p.addr / 128 → h.ctx = k) ∧
      (s.endHold k (p.addr / 128)).alrq = s.alrq ∧ (s.endHold k (p.addr / 128)).clock = s.clock := by
    refine ⟨State.endHold_mem .., ?_⟩
    unfold State.endHold
    split
    · exact ⟨fun h hh => hheld h (List.mem_filter.mp hh).1, rfl, rfl⟩
    · exact ⟨hheld, rfl, rfl⟩
  obtain ⟨t, ht, hmem, hgrant, halr⟩ := State.opAlrb_grants (k := k) (off := a.pos.off) (va := va) hgood hheld' (by rw [hq']; exact hq)
  have hacq : (t.acquireOf k a).ctx k = t.ctx k ∧ (t.acquireOf k a).held = t.held := by
    unfold State.acquireOf State.acquireAt
    split
    · split <;> exact ⟨rfl, rfl⟩
    · exact ⟨rfl, rfl⟩
  have he : s.performOp k a p (.alrb va false) = (t.acquireOf k a).finishAccess k a.id a.eng := State.performOp_eq_done rfl ht
  rw [he]
  refine ⟨?_, State.finishAccess_access .., ?_, ?_⟩
  · rw [State.finishAccess_mem, State.acquireOf_mem, hmem, hs]
  · exact hacq.2 ▸ hgrant
  · rw [State.finishAccess_ctx, Ctx.alr_endAccessWait, ← hs, ← hclock, ← halr, ← hacq.1]
    rfl

theorem exec_alrHoldExpiry {r : Alr} (h : (s.ctx s.evk).alr = some r) :
    exec .alrHoldExpiry s = .next (if r.hold ∧ r.since + 64 ≤ s.clock
      then (s.dropHeld s.evk r.line).modCtx s.evk fun x => { x with alr := some { r with hold := false } } else s) := by
  unfold State.evk at h ⊢
  show execAlrHoldExpiry s = _
  unfold execAlrHoldExpiry
  simp only [h, Bool.and_eq_true, decide_eq_true_eq]

/-! ## The length of a sequence (R279, R280) -/

theorem tget_foldl_tput_other {α : Type} (d : α) (w k : Nat) (f : Nat → α) (l : List Nat) (r : Tab α) (h : ∀ j ∈ l, j % w ≠ k) :
    tget d (l.foldl (fun t j => tput t (j % w) (f j)) r) k = tget d r k := by
  induction l generalizing r with
  | nil => rfl
  | cons a l ih =>
    rw [List.foldl_cons, ih _ fun j hj => h j (List.mem_cons_of_mem a hj), tget_tput,
      if_neg (Ne.symm (h a List.mem_cons_self))]

/-- A ring filled at the places of a list of slots, of which no two share a place. -/
theorem tget_foldl_tput {α : Type} (d : α) (w i : Nat) (f : Nat → α) (l : List Nat) (r : Tab α) (hi : i ∈ l)
    (h : ∀ j ∈ l, j % w = i % w → j = i) : tget d (l.foldl (fun t j => tput t (j % w) (f j)) r) (i % w) = f i := by
  induction l generalizing r with
  | nil => cases hi
  | cons a l ih =>
    rw [List.foldl_cons]
    by_cases hl : i ∈ l
    · exact ih _ hl fun j hj => h j (List.mem_cons_of_mem a hj)
    · rw [tget_foldl_tput_other _ _ _ _ _ _ fun j hj he => hl (h j (List.mem_cons_of_mem a hj) he ▸ hj)]
      rw [h a List.mem_cons_self (by
        rcases List.mem_cons.mp hi with rfl | hi
        · rfl
        · exact absurd hi hl), tget_tput, if_pos rfl]

/-- The records that a length passes are those found for their slots. -/
theorem Seq.found_of_lt_committedTo {q : Seq} (f n : Nat) {i : Nat} (h : n ≤ i) (hi : i < q.committedTo f n) :
    ∃ r, (q.slots.find? fun r => r.i == i) = some r ∧ r.passed := by
  induction f generalizing n with
  | zero => exact absurd hi (Nat.not_lt.mpr h)
  | succ f ih =>
    unfold Seq.committedTo at hi
    split at hi
    · next r hr =>
      split at hi
      · next hp =>
        by_cases he : n = i
        · subst he
          exact ⟨r, hr, r.passed_iff.mp hp⟩
        · exact ih (n + 1) (by omega) hi
      · exact absurd hi (Nat.not_lt.mpr h)
    · exact absurd hi (Nat.not_lt.mpr h)

/-- The slots that a length which has come to `b` leaves in the ring. -/
def Seq.rung (q : Seq) (b : Nat) : List Nat :=
  if q.w = 0 then [] else (List.range b).filter fun i => decide (max q.len (b - q.w) ≤ i)

theorem Seq.ring_filled (q : Seq) (b : Nat) {i : Nat} (h : max q.len (b - q.w) ≤ i) (hi : i < b) :
    tget [] ((q.rung b).foldl (fun t i => tput t (i % q.w) (q.staged i)) q.ring) (i % q.w) = q.staged i := by
  have hw : q.w ≠ 0 := by omega
  unfold Seq.rung
  rw [if_neg hw]
  refine tget_foldl_tput [] q.w i q.staged _ q.ring ?_ fun j hj hmod => ?_
  · simp only [List.mem_filter, List.mem_range, decide_eq_true_eq]
    exact ⟨hi, h⟩
  · simp only [List.mem_filter, List.mem_range, decide_eq_true_eq] at hj
    by_contra hne
    rcases Nat.lt_or_gt_of_ne hne with hlt | hlt
    · exact absurd (Nat.le_of_dvd (by omega) ((Nat.modEq_iff_dvd' (Nat.le_of_lt hlt)).mp hmod)) (by omega)
    · exact absurd (Nat.le_of_dvd (by omega) ((Nat.modEq_iff_dvd' (Nat.le_of_lt hlt)).mp hmod.symm)) (by omega)

/-- What the advance of a length writes of its sequence. -/
theorem State.seq_advanceLen_fields {pa b : Nat} (hlive : (s.seq pa).live = true)
    (hb : b = (s.seq pa).committedTo (s.seq pa).slots.length (s.seq pa).len) (hne : b ≠ (s.seq pa).len) :
    ((s.advanceLen pa).seq pa).len = b ∧ ((s.advanceLen pa).seq pa).frozen = ((s.seq pa).frozen || decide (16 ≤ b)) ∧
      ((s.advanceLen pa).seq pa).ring =
        ((s.seq pa).rung b).foldl (fun t i => tput t (i % (s.seq pa).w) ((s.seq pa).staged i)) (s.seq pa).ring := by
  subst hb
  unfold State.advanceLen
  dsimp only
  rw [if_neg hne, State.seq_setSeq_same (by split <;> exact hlive)]
  refine ⟨rfl, ?_, rfl⟩
  generalize (s.seq pa).committedTo (s.seq pa).slots.length (s.seq pa).len = b
  show (if _ then _ else _ : Seq).frozen = _
  cases hz : (s.seq pa).frozen <;> by_cases h16 : 16 ≤ b <;> simp [h16, hz, State.freeze]

theorem exec_lenAdvance {pa : Nat} (hpa : s.cur.ev.a = pa) :
    ((s.seq pa).live = false ∨ (s.seq pa).attn ≠ 0 → exec .lenAdvance s = .next s) ∧
    ((s.seq pa).live = true → (s.seq pa).attn = 0 → exec .lenAdvance s = .next (s.advanceLen pa)) := by
  subst hpa
  have he : exec .lenAdvance s = .next (if (s.seq s.cur.ev.a).live then s.tryAdvance s.cur.ev.a else s) := rfl
  rw [he]
  unfold State.tryAdvance
  refine ⟨fun h => congrArg _ ?_, fun h h0 => congrArg _ ((if_pos h).trans (if_pos h0))⟩
  rcases h with h | h
  · exact if_neg (by rw [h]; decide)
  · rw [if_neg h, ite_self]

theorem exec_ctlSplit {core x : Nat} {e : Eng} {n : Nat} {r : List (Nat × Eng × Nat)} (hcore : s.cur.ev.core = core)
    (h : (s.core core).split = (x, e, n) :: r) :
    ((s.core core).splitting = false → exec .ctlSplitWrite s = .next (if (s.core core).allot < n
      then (s.setCore core { s.core core with split := r }).raiseAt (ctxKey core x) e ((s.ctx (ctxKey core x)).eng e).pc .budget
      else s.setCore core { s.core core with splitting := true })) ∧
    ((s.core core).splitting = true → exec .ctlSplitWrite s = .next s) ∧
    ((s.core core).splitting = false ∨ s.splitDrained core = false → exec .ctlSplitApply s = .next s) ∧
    ((s.core core).splitting = true → s.splitDrained core = true →
      exec .ctlSplitApply s = .next (s.splitApply core).deliverReady) := by
  subst hcore
  have hw : exec .ctlSplitWrite s = .next (if (s.core s.cur.ev.core).splitting then s else s.splitBegin s.cur.ev.core) := rfl
  have ha : exec .ctlSplitApply s = .next (if ((s.core s.cur.ev.core).splitting && s.splitDrained s.cur.ev.core) = true
    then (s.splitApply s.cur.ev.core).deliverReady else s) := rfl
  rw [hw, ha]
  refine ⟨fun h0 => congrArg _ ((if_neg (by rw [h0]; decide)).trans ?_), fun h1 => congrArg _ (if_pos h1),
    fun h0 => congrArg _ (if_neg ?_), fun h1 h2 => congrArg _ (if_pos (by rw [h1, h2]; rfl))⟩
  · unfold State.splitBegin
    simp only [h]
  · rcases h0 with h0 | h0 <;> simp [h0]

end

/-- Settles O50, wait by wait. -/
theorem waitsEnd : Obligations.WaitsEnd := by
  intro s
  refine ⟨fun id a m hw ha hk hp hst hack hstale => exec_qfenceReturn hw ha hk hp hst hack hstale,
    fun all d mask limit since hw => ⟨exec_tagWaitReturn hw, exec_tagWaitTimeout hw⟩, ?_, ?_,
    fun d limit since hw hst => ⟨exec_quiesReturn hw hst, exec_quiesTimeout hw⟩, ?_,
    fun ls id hw => exec_lfenceReturn hw, fun n p hw => exec_sunbindComplete hw, fun w t hw => exec_slotPlanWrite hw, ?_, ?_,
    fun r h => exec_alrHoldExpiry h, ?_⟩
  · intro id a p d ph hw ha hk hp hd hst hack hstale hmay _ _ hgood _
    refine (exec_barwaitReturn hw ha hk hp hd hst hack hstale hmay).trans (congrArg _ ?_)
    rw [← Ctx.access_id ha]
    exact State.performOp_barwait hgood
  · intro id a p d h n limit since hw ha hk hp hd hst hack hstale hmay
    obtain ⟨hret, hall⟩ := exec_sqwaitReturn hw ha hk hp hd hst hack hstale hmay
    have hto := exec_sqwaitTimeout hw ha hk
    have hid := Ctx.access_id ha
    subst hid
    rw [hall] at hto
    have hres := hret
    rw [State.performOp_sqwait] at hres
    refine ⟨fun hl => hres.trans (congrArg _ (if_pos hl)),
      fun hl hn => hres.trans (congrArg _ ((if_neg (by rw [hl]; decide)).trans (if_pos hn))),
      fun hl hn => hres.trans (congrArg _ ((if_neg (by rw [hl]; decide)).trans (if_neg (Nat.not_le.mpr hn)))),
      fun hlate => hto.trans (congrArg _ (if_neg hlate)), fun hlate hq => ?_, fun hlate hl hn => ?_⟩
    · refine (hto.trans (congrArg _ ((if_pos hlate).trans (if_pos ?_)))).trans hret.symm
      simpa using hq
    · refine hto.trans (congrArg _ ((if_pos hlate).trans (if_neg ?_)))
      rw [hl]
      simpa using hn
  · intro i n hw
    refine (exec_msemWaitReturn hw).trans ?_
    rw [State.semLeft_eq]
    rfl
  · intro _ x e n r h
    obtain ⟨h1, h2, h3, h4⟩ := exec_ctlSplit rfl h
    obtain ⟨hmem, hreds, hspad, hl1, hsplit, hsplitting, hother, hctx, hcx⟩ := State.splitApply_fields h
    refine ⟨h1, h2, h3, fun hs hd => ⟨_, h4 hs hd, fun hn => State.deliverReady_nil (hreds.trans hn), hmem, hreds, hspad, hl1,
      hsplit, hsplitting, hother, hctx, fun y hy => ?_⟩⟩
    rw [hcx]
    exact Ctx.splitDone_wait hy
  · intro a p va hf hk hp hd hst hack hstale hmay hgood hheld hq ha
    exact ⟨_, exec_alrGrant hf hk hp hd hst hack hstale hmay ha, State.performOp_alrb hgood hheld hq⟩
  · obtain ⟨h0, h1⟩ := exec_lenAdvance (s := s) rfl
    refine ⟨h0, fun hl ha => ⟨h1 hl ha, _, (s.seq s.cur.ev.a).committedTo (s.seq s.cur.ev.a).slots.length (s.seq s.cur.ev.a).len,
      h1 hl ha, Seq.le_committedTo .., fun i hi hb => ?_, fun r hr => ?_, fun hb => ?_, fun hb => ?_⟩⟩
    · exact Seq.found_of_lt_committedTo _ _ hi hb
    · simpa [SlotRec.passed] using Seq.not_passed_at_committedTo _ _ r hr
    · unfold State.advanceLen
      exact if_pos hb
    · obtain ⟨hlen, hfr, hring⟩ := State.seq_advanceLen_fields hl rfl hb
      refine ⟨hlen, hfr, fun i hi hib => ?_, fun o ho => (State.seq_advanceLen hl).2 o ho⟩
      rw [hring]
      exact Seq.ring_filled _ _ hi hib

end Sys2Proof.Machine
end

section
/-! PROOFS. L fetches and S stores the units of streams; O51 (R127, R214, R215). -/

namespace Sys2Proof.Machine

/-- The machine with a stream of a context as a part that was fetched leaves it, `bad` poisoned lines or words counted. -/
def State.putStream (s : State) (k n bad : Nat) (w : Stream) : State :=
  s.modCtx k fun c => { (c.poisoned bad).wake with z := tput c.z n { w with moved := true, pois := w.pois || decide (0 < bad) } }

theorem State.putStream_stream (s : State) (k n bad : Nat) (w : Stream) :
    tget {} ((s.putStream k n bad w).ctx k).z n = { w with moved := true, pois := w.pois || decide (0 < bad) } := by
  unfold State.putStream
  rw [State.ctx_modCtx_same]
  exact (tget_tput ..).trans (if_pos rfl)

/-- A read stream whose next unit has come. -/
def Stream.arrived (z : Stream) (b : ZUnit) : Stream := { z with buf := z.buf ++ [b], cursor := z.cursor + 1, got := [] }

section
variable {s : State} {k n pick : Nat} {z : Stream} {ps : List Part} {p : Part}

theorem State.fetchUnit_fault {f : Code} {va : Nat} (hz : tget {} (s.ctx k).z n = z)
    (h : s.unitParts k z false 0 (z.pieces z.cursor) = .fault f va) :
    s.fetchUnit k n pick = s.putStream k n 0 (z.arrived { u := z.cursor, mark := some (f, va) }) := by
  subst hz
  unfold State.fetchUnit
  simp only [h]
  rfl

theorem State.fetchUnit_miss {va : Nat} (hz : tget {} (s.ctx k).z n = z)
    (h : s.unitParts k z false 0 (z.pieces z.cursor) = .miss va) :
    s.fetchUnit k n pick = s.enterUnitMiss k (s.ctx k).part (s.ctx k).asid va := by
  subst hz
  unfold State.fetchUnit
  simp only [h]

/-- The part that the choice names is fetched. -/
theorem State.fetchUnit_part {x : State} {r : Except (Code × Nat) (List Byte × Nat)} (hz : tget {} (s.ctx k).z n = z)
    (h : s.unitParts k z false 0 (z.pieces z.cursor) = .ok ps)
    (hp : choose ((z.left ps).filter fun p => s.queueClear k true [p]) pick = some p) (hf : s.fetchPart k p = (x, r)) :
    (∀ e, r = .error e → s.fetchUnit k n pick = x.putStream k n 0 (z.arrived { u := z.cursor, mark := some e })) ∧
    ∀ bs bad, r = .ok (bs, bad) → s.fetchUnit k n pick =
      if (z.left ps).length ≤ 1
      then x.putStream k n bad (z.arrived { u := z.cursor, val := z.through (vecOf (gotBytes (z.got ++ [(p.off, bs)]) ps)) })
      else x.putStream k n bad { z with got := z.got ++ [(p.off, bs)] } := by
  subst hz
  unfold State.fetchUnit
  refine ⟨fun e he => ?_, fun bs bad he => ?_⟩
  · subst he
    simp only [h, hp, hf]
    rfl
  · subst he
    simp only [h, hp, hf]
    rfl

variable {b : ZUnit} {r : List ZUnit}

theorem State.storeUnit_fault {f : Code} {va : Nat} (hz : tget {} (s.ctx k).z n = z) (hb : z.buf = b :: r)
    (h : s.unitParts k z true 0 (z.pieces b.u) = .fault f va) : s.storeUnit k n pick = s.raiseAt k .s z.pos.off f va := by
  subst hz
  unfold State.storeUnit
  simp only [hb, h]

theorem State.storeUnit_miss {va : Nat} (hz : tget {} (s.ctx k).z n = z) (hb : z.buf = b :: r)
    (h : s.unitParts k z true 0 (z.pieces b.u) = .miss va) :
    s.storeUnit k n pick = s.enterUnitMiss k (s.ctx k).part (s.ctx k).asid va := by
  subst hz
  unfold State.storeUnit
  simp only [hb, h]

/-- The access by which S stores a part of a unit of a stream. -/
def Stream.storing (z : Stream) (n : Nat) : Access :=
  { id := streamWaitId n, eng := .s, inL := false, inS := true, pos := z.pos, kind := .store }

/-- A write stream of whose oldest unit a part has left, and the unit with the last of them. -/
def Stream.partLeft (z : Stream) (r : List ZUnit) (ps : List Part) (p : Part) : Stream :=
  if (z.left ps).length ≤ 1 then { z with buf := r, got := [] } else { z with got := z.got ++ [(p.off, [])] }

/-- The part that the choice names is stored, or waits for headroom. -/
theorem State.storeUnit_part {x : State} {stored : Bool} (hz : tget {} (s.ctx k).z n = z) (hb : z.buf = b :: r)
    (h : s.unitParts k z true 0 (z.pieces b.u) = .ok ps)
    (hp : choose ((z.left ps).filter (s.partStores k n)) pick = some p)
    (hw : s.writePart k (z.storing n) p (((vBytes (z.through b.val)).drop p.off).take p.len) = (x, stored)) :
    s.storeUnit k n pick = if stored then
        x.modCtx k fun c => { c.wake with z := tput c.z n (z.partLeft r ps p) }
      else x := by
  subst hz
  unfold State.storeUnit
  unfold Stream.storing at hw
  cases stored
  · simp only [hb, h, hp, hw, Bool.false_eq_true, if_false]
  · simp only [hb, h, hp, hw, Stream.partLeft, if_true]

end

/-- Settles O51, part by part. -/
theorem streamUnitsMove : Obligations.StreamUnitsMove := by
  intro s v k t z w fetched marked
  have hfe : exec .streamFetch s = .next (if t.canFetch k v.a then t.fetchUnit k v.a s.cur.pick else s) := rfl
  have hst : exec .streamStore s = .next (if s.canStore k v.a then s.storeUnit k v.a s.cur.pick else s) := rfl
  have hmarked (e : Code × Nat) : ({ z.arrived { u := z.cursor, mark := some e } with
      moved := true, pois := (z.arrived { u := z.cursor, mark := some e }).pois || decide (0 < 0) } : Stream) = marked e := by
    show ({ marked e with pois := z.pois || decide (0 < 0) } : Stream) = marked e
    rw [decide_eq_false (Nat.lt_irrefl 0), Bool.or_false]
  refine ⟨fun h => hfe.trans (congrArg _ (if_neg (by rw [h]; decide))), fun h => ?_,
    fun h => hst.trans (congrArg _ (if_neg (by rw [h]; decide))), fun b r h hb => ?_⟩
  · have hgo := hfe.trans (congrArg Host.Outcome.next (if_pos h))
    refine ⟨fun f va hu => ⟨_, hgo.trans (congrArg _ (State.fetchUnit_fault rfl hu)), rfl,
        (State.putStream_stream ..).trans (hmarked (f, va))⟩,
      fun va hu => hgo.trans (congrArg _ (State.fetchUnit_miss rfl hu)), fun ps p x hu hp => ⟨fun e hf => ?_, fun bs bad hf => ?_⟩⟩
    · exact ⟨_, hgo.trans (congrArg _ ((State.fetchUnit_part rfl hu hp hf).1 e rfl)), rfl,
        (State.putStream_stream ..).trans (hmarked e)⟩
    · have hpart := hgo.trans (congrArg Host.Outcome.next ((State.fetchUnit_part rfl hu hp hf).2 bs bad rfl))
      exact ⟨fun hl => ⟨_, hpart.trans (congrArg _ (if_pos hl)), rfl, State.putStream_stream ..⟩,
        fun hl => ⟨_, hpart.trans (congrArg _ (if_neg (Nat.not_le.mpr hl))), rfl, State.putStream_stream ..⟩⟩
  · have hgo := hst.trans (congrArg Host.Outcome.next (if_pos h))
    refine ⟨fun f va hu => hgo.trans (congrArg _ (State.storeUnit_fault rfl hb hu)),
      fun va hu => hgo.trans (congrArg _ (State.storeUnit_miss rfl hb hu)), fun ps p x hu hp => ⟨fun hw => ?_, fun hw => ?_⟩⟩
    · exact hgo.trans (congrArg _ (State.storeUnit_part rfl hb hu hp hw))
    · refine ⟨_, hgo.trans (congrArg _ (State.storeUnit_part rfl hb hu hp hw)), rfl, ?_⟩
      rw [if_pos rfl, State.ctx_modCtx_same]
      exact (tget_tput ..).trans (if_pos rfl)

end Sys2Proof.Machine
end

section
/-! PROOFS. What a lane does with the command at the head of its queue, deliveries apart (R221, R226-R230, R232). -/

namespace Sys2Proof.Machine

section
variable {s : State} {n : Nat} {e : LaneEnt} {r : List LaneEnt}

/-- The head of a lane's queue may execute: its task is there, the lane has not stopped, and no `qfence` precedes it. -/
theorem State.laneHead_of (hq : (s.lane n).q = e :: r) (hst : (s.ctx e.ctx).st ≠ .idle) (ht : (s.ctx e.ctx).taskid = e.taskid)
    (hs : s.unitStopped (s.ctx e.ctx).part (.lane n) = false) (hf : s.fencedOff e.ctx e.pos = false) : s.laneHead n = some e := by
  unfold State.laneHead
  simp [hq, hst, ht, hs, hf]

variable (hn : s.cur.ev.a = n) (hh : s.laneHead n = some e)
include hn hh

theorem exec_lcfgApply {y p : Bool} (hc : e.cmd = .cfg y p) :
    exec .lcfgApply s = .next (s.setLane n ({ s.lane n with rsync := y, pol := p } : Lane).pop) := by
  obtain ⟨ctx, taskid, pos, cmd, id⟩ := e
  subst hn hc
  show execLcfgApply s = _
  unfold execLcfgApply
  simp only [hh]

theorem exec_lactLoad {t : Tile} (hc : e.cmd = .act t) :
    exec .lactLoad s = .next (s.setLane n ({ s.lane n with tile := some t } : Lane).pop) := by
  obtain ⟨ctx, taskid, pos, cmd, id⟩ := e
  subst hn hc
  show execLactLoad s = _
  unfold execLactLoad
  simp only [hh]

theorem exec_lacczClear (hc : e.cmd = .accz) :
    exec .lacczClear s = .next (s.setLane n ({ s.lane n with acc := [], pois := [] } : Lane).pop) := by
  obtain ⟨ctx, taskid, pos, cmd, id⟩ := e
  subst hn hc
  show execLacczClear s = _
  unfold execLacczClear
  simp only [hh]

/-- The pages of the window that an `lwst` binds. -/
def LaneBind.sought (b : LaneBind) (s : State) (k : Nat) : WinPages :=
  s.windowPages k b (8192 * ((b.va + b.off) / 8192))
    ((b.va + b.off + (b.nrow - 1) * b.rstr + b.nrec * recordSize b.fmt - 1) / 8192 + 1 - (b.va + b.off) / 8192)
    ((b.va + b.off + (b.nrow - 1) * b.rstr + b.nrec * recordSize b.fmt - 1) / 8192 + 1 - (b.va + b.off) / 8192)

theorem exec_lwstBind {b : LaneBind} {role : Nat} (hc : e.cmd = .wst b role) :
    (∀ c a, b.sought s e.ctx = .fault c a → exec .lwstBind s = .next (s.deferLane n e c a)) ∧
    (∀ a, b.sought s e.ctx = .miss a → exec .lwstBind s = .next (s.enterUnitMiss e.ctx b.part b.asid a)) ∧
    (∀ ps, b.sought s e.ctx = .ok ps → ∃ f, exec .lwstBind s = .next ((s.modCol n f).setLane n
      ({ s.lane n with bind := some { b with pages := ps } } : Lane).pop)) := by
  subst hn
  unfold LaneBind.sought
  refine ⟨fun c a h => ?_, fun a h => ?_, fun ps h => ?_⟩
  all_goals rw [show exec .lwstBind s = execLwstBind s from rfl]; unfold execLwstBind; simp only [hh, hc, h]
  exact ⟨_, rfl⟩

/-- The column has moved `need` rows for the lane, which are used. -/
def State.useRows (s : State) (n need : Nat) : State := s.modCol n fun v => { v with rows := v.rows - need }

/-- A piece of an `lmac` that has executed: on to the next command with the last of its rows, or a deferred fault. -/
def State.pieceDone (n : Nat) (e : LaneEnt) (cnt : Nat) (x : State × Lane × Option Nat) : State :=
  match x with
  | (s1, l1, some a) => (s1.setLane n l1).deferLane n e .poison a
  | (s1, l1, none) => s1.setLane n (if cnt ≤ l1.row then l1.pop else l1)

theorem exec_lmacPiece_unbound {c0 cnt frow : Nat} {z : Bool} (hc : e.cmd = .mac c0 cnt frow z)
    (h : (s.lane n).bind = none ∨ (s.lane n).tile = none) : exec .lmacPiece s = .next (s.deferLane n e .qfault 0) := by
  subst hn
  rw [show exec .lmacPiece s = execLmacPiece s from rfl]
  unfold execLmacPiece
  rcases h with h | h
  · simp only [hh, hc, h]
  · cases hb : (s.lane s.cur.ev.a).bind <;> simp only [hh, hc, h, hb]

theorem exec_lmacPiece {c0 cnt frow m need : Nat} {z : Bool} {b : LaneBind} {t : Tile} (hc : e.cmd = .mac c0 cnt frow z)
    (hb : (s.lane n).bind = some b) (ht : (s.lane n).tile = some t) (hm : m = min 64 (cnt - (s.lane n).row))
    (hneed : need = (b.newRows frow (s.lane n).row m).length) :
    exec .lmacPiece s = .next (
      if t.krec ≠ b.nrec then s.deferLane n e .qfault 0
      else if b.nrow < frow + cnt then s.deferLane n e .prot 0
      else if (s.col n).rows < need then s
      else State.pieceDone n e cnt
        ((s.useRows n need).lmacRows b.part (s.lane n) b t (c0 + (s.lane n).row) (frow + (s.lane n).row) z [] m)) := by
  subst hn hm hneed
  rw [show exec .lmacPiece s = execLmacPiece s from rfl]
  unfold execLmacPiece
  simp only [hh, hc, hb, ht]
  rfl

end

/-! ## Rows (R95, R230) -/

theorem cellIdx_mod (t : Nat) {j : Nat} (h : j < 256) : cellIdx t j % 256 = j := by
  unfold cellIdx
  omega

theorem cellIdx_inj {t i j : Nat} (h : cellIdx t j = cellIdx i j) : t = i := by
  unfold cellIdx at h
  omega

/-- A fold that never writes a cell leaves it. -/
theorem tget_foldl_kept {α β : Type} (d : α) (f : Tab α → β → Tab α) {c : Nat} (hf : ∀ a t, tget d (f a t) c = tget d a c) (l : List β)
    (a : Tab α) : tget d (l.foldl f a) c = tget d a c := by
  induction l generalizing a with
  | nil => rfl
  | cons t l ih => exact (ih (f a t)).trans (hf a t)

/-- The cells of column `j` each updated once, token by token. -/
theorem tget_foldl_tokens {α : Type} (d : α) (j : Nat) (g : α → Nat → α) (n : Nat) (a : Tab α) {i : Nat} (hi : i < n) :
    tget d ((List.range n).foldl (fun a t => tput a (cellIdx t j) (g (tget d a (cellIdx t j)) t)) a) (cellIdx i j) =
      g (tget d a (cellIdx i j)) i := by
  have hkept : ∀ m, m ≤ i → tget d ((List.range m).foldl (fun a t => tput a (cellIdx t j) (g (tget d a (cellIdx t j)) t)) a)
      (cellIdx i j) = tget d a (cellIdx i j) := by
    intro m
    induction m with
    | zero => exact fun _ => rfl
    | succ m ih =>
      intro hm
      rw [List.range_succ, List.foldl_append, List.foldl_cons, List.foldl_nil, tget_tput_other, ih (by omega)]
      exact fun h => absurd (cellIdx_inj h) (by omega)
  induction n with
  | zero => exact absurd hi (Nat.not_lt_zero i)
  | succ n ih =>
    rw [List.range_succ, List.foldl_append, List.foldl_cons, List.foldl_nil]
    rcases Nat.lt_succ_iff_lt_or_eq.mp hi with h | h
    · rw [tget_tput_other, ih h]
      exact fun h' => absurd (cellIdx_inj h') (by omega)
    · subst h
      rw [tget_tput_same, hkept i (Nat.le_refl i)]

/-- A lane with one cell updated, and marked where what it takes is poisoned. -/
def Lane.update (l : Lane) (c : Nat) (bad : Bool) (g : BitVec 56 → BitVec 56) : Lane :=
  { l with acc := tput l.acc c (g (tget 0 l.acc c)), pois := if bad && !l.pois.contains c then c :: l.pois else l.pois }

/-- The cells of column `j` cleared. -/
def clearedColumn (a : Tab (BitVec 56)) (j : Nat) : Tab (BitVec 56) := (List.range 16).foldl (fun a t => tput a (cellIdx t j) 0) a

/-- A lane with the cells of column `j` cleared. -/
def Lane.clearColumn (l : Lane) (j : Nat) : Lane :=
  { l with acc := clearedColumn l.acc j, pois := l.pois.filter fun c => c % 256 != j }

theorem Lane.clearColumn_acc (l : Lane) (j : Nat) : (l.clearColumn j).acc = clearedColumn l.acc j := by
  simp only [Lane.clearColumn]

theorem clearedColumn_cell (a : Tab (BitVec 56)) (j : Nat) {i : Nat} (h : i < 16) : tget 0 (clearedColumn a j) (cellIdx i j) = 0 := by
  unfold clearedColumn
  exact tget_foldl_tokens 0 j (fun _ _ => 0) 16 a h

theorem clearedColumn_other (a : Tab (BitVec 56)) {j c : Nat} (h : ∀ i, c ≠ cellIdx i j) :
    tget 0 (clearedColumn a j) c = tget 0 a c := by
  unfold clearedColumn
  exact tget_foldl_kept 0 _ (fun a i => tget_tput_other 0 a _ (h i)) _ _

/-- A lane after rows of `nr` records for `nt` tokens, `g m i` being what record `m` adds for token `i`. -/
def Lane.addRows (l : Lane) (j nr nt : Nat) (bad : Nat → Bool) (g : Nat → Nat → BitVec 56 → BitVec 56) : Lane :=
  (List.range nr).foldl (fun l m => (List.range nt).foldl (fun l i => l.update (cellIdx i j) (bad m) (g m i)) l) l

section
variable (l : Lane) (j nr nt : Nat) (bad : Nat → Bool) (g : Nat → Nat → BitVec 56 → BitVec 56)

theorem Lane.addRows_acc : (l.addRows j nr nt bad g).acc = (List.range nr).foldl (fun a m => (List.range nt).foldl (fun a i =>
    tput a (cellIdx i j) (g m i (tget 0 a (cellIdx i j)))) a) l.acc :=
  (List.foldl_hom Lane.acc (g₁ := fun l m => (List.range nt).foldl (fun l i => l.update (cellIdx i j) (bad m) (g m i)) l)
    (g₂ := fun a m => (List.range nt).foldl (fun a i => tput a (cellIdx i j) (g m i (tget 0 a (cellIdx i j)))) a)
    fun _ m => List.foldl_hom Lane.acc (g₁ := fun l i => l.update (cellIdx i j) (bad m) (g m i))
      (g₂ := fun a i => tput a (cellIdx i j) (g m i (tget 0 a (cellIdx i j)))) fun _ _ => rfl).symm

theorem Lane.addRows_cell {i : Nat} (hi : i < nt) : tget 0 (l.addRows j nr nt bad g).acc (cellIdx i j) =
    (List.range nr).foldl (fun a m => g m i a) (tget 0 l.acc (cellIdx i j)) := by
  rw [Lane.addRows_acc]
  exact (List.foldl_hom (fun a => tget 0 a (cellIdx i j)) fun a m => (tget_foldl_tokens 0 j (fun x i => g m i x) nt a hi).symm).symm

theorem Lane.addRows_other {c : Nat} (h : ∀ i, c ≠ cellIdx i j) : tget 0 (l.addRows j nr nt bad g).acc c = tget 0 l.acc c := by
  rw [Lane.addRows_acc]
  exact tget_foldl_kept 0 _ (fun a m => tget_foldl_kept 0 _ (fun a i => tget_tput_other 0 a _ (h i)) _ a) _ _

end

section
variable (s : State) (y : Lane) (b : LaneBind) (t : Tile) (j r : Nat) (z : Bool)

/-- The elements and the scale of a record of a row of the bound window. -/
def rowWord (m : Nat) : List XR × XR :=
  recordValues b.fmt (s.weight b (b.off + r * b.rstr + m * recordSize b.fmt) (recordSize b.fmt))

/-- The elements and the scale of a record of a token of the tile. -/
def tileWord (i m : Nat) : List XR × XR :=
  recordValues t.fmt ((t.data.drop ((i * t.krec + m) * recordSize t.fmt)).take (recordSize t.fmt))

/-- The sum of a cell with the product of one record. -/
def addBlock (m i : Nat) (a : BitVec 56) : BitVec 56 :=
  a56Add a (blockValue (rowWord s b r m).1 (tileWord t i m).1 (rowWord s b r m).2 (tileWord t i m).2)

theorem State.lmacRow_eq : s.lmacRow y b t j r z = (if z then y.clearColumn j else y).addRows j b.nrec t.t
    (fun m => s.weightBad b (b.off + r * b.rstr + m * recordSize b.fmt) (recordSize b.fmt) != []) (addBlock s b t r) := rfl

theorem State.lmacRow_cell {i : Nat} (hi : i < t.t) (ht : t.t ≤ 16) :
    tget 0 (s.lmacRow y b t j r z).acc (256 * i + j) =
      (List.range b.nrec).foldl (fun a m => addBlock s b t r m i a) (if z then 0 else tget 0 y.acc (256 * i + j)) := by
  rw [State.lmacRow_eq]
  refine (Lane.addRows_cell _ j b.nrec t.t _ _ hi).trans (congrArg (List.foldl _ · _) ?_)
  cases z
  · rfl
  · rw [if_pos rfl, Lane.clearColumn_acc]
    exact clearedColumn_cell y.acc j (Nat.lt_of_lt_of_le hi ht)

theorem State.lmacRow_other {c : Nat} (hj : j < 256) (hc : c % 256 ≠ j) :
    tget 0 (s.lmacRow y b t j r z).acc c = tget 0 y.acc c := by
  have hne : ∀ i, c ≠ cellIdx i j := fun i h => hc (by rw [h, cellIdx_mod i hj])
  rw [State.lmacRow_eq, Lane.addRows_other _ _ _ _ _ _ hne]
  cases z
  · rfl
  · rw [if_pos rfl, Lane.clearColumn_acc]
    exact clearedColumn_other y.acc hne

end

end Sys2Proof.Machine
end

section
/-! PROOFS. Deliveries of lanes: read-outs, reductions, and the fold of a ring (R98, R140, R231, R355). -/

namespace Sys2Proof.Machine

theorem State.addDone_reds (l : List (Nat × List (BitVec 56 × Bool) × Bool)) (s : State) :
    (l.foldl (fun u g => u.setLane g.1 { u.lane g.1 with done := ((u.lane g.1).done + 1) % 2 ^ 25 }) s).reds = s.reds :=
  foldl_keeps (·.reds) (fun (t : State) g => (rfl : (t.setLane g.1 _).reds = t.reds)) l s

section
variable {s : State} {x : Reduce}

theorem State.redDone_reds (s : State) (x : Reduce) : (s.redDone x).reds =
    s.reds.filter fun q => !(q.ctx == x.ctx && q.taskid == x.taskid && q.id == x.id) := State.addDone_reds ..

theorem State.redDone_reds_of_only (h : s.reds = [x]) : (s.redDone x).reds = [] := by
  rw [State.redDone_reds, h]
  simp

/-- A reduction that stands alone, of one lane, completes. -/
theorem State.redDone_one {n : Nat} {cells : List (BitVec 56 × Bool)} (h : s.reds = [x]) (hg : x.got = [(n, cells, false)]) :
    s.redDone x = ({ s with reds := [] } : State).setLane n { s.lane n with done := ((s.lane n).done + 1) % 2 ^ 25 } := by
  have hr : (s.reds.filter fun q => !(q.ctx == x.ctx && q.taskid == x.taskid && q.id == x.id)) = [] := by rw [h]; simp
  unfold State.redDone
  rw [hr, hg]
  rfl

/-- A reduction that stands alone waits for no other. -/
theorem State.redBehind_of_only (h : s.reds = [x]) : s.redBehind x = false := by
  unfold State.redBehind
  rw [h]
  show ((x.ahead x && !s.redLeads 1 x x) || false) = false
  have hl : s.redLeads 1 x x = x.ahead x := by
    unfold State.redLeads
    rw [h]
    simp [State.redLeads]
  rw [hl]
  cases x.ahead x <;> rfl

/-- A reduction may be delivered now. -/
def State.deliverable (s : State) (r : Reduce) : Bool :=
  !r.ring && r.full && !s.redBehind r && !(s.core (r.ctx / 4)).splitting

theorem State.settleReds_none {n : Nat} (h : s.reds.find? s.deliverable = none) : s.settleReds n = s := by
  cases n with
  | zero => rfl
  | succ n =>
    unfold State.settleReds
    unfold State.deliverable at h
    rw [h]

theorem State.settleReds_some {n : Nat} (h : s.reds.find? s.deliverable = some x) :
    s.settleReds (n + 1) = (s.deliverRed x).settleReds n := by
  rw [State.settleReds]
  unfold State.deliverable at h
  rw [h]

theorem State.deliverReady_of_none (h : s.reds.find? s.deliverable = none) : s.deliverReady = s := State.settleReds_none h

theorem State.deliverReady_only (h : s.reds = [x]) : s.deliverReady = if s.deliverable x then s.deliverRed x else s := by
  by_cases hd : s.deliverable x = true
  · rw [if_pos hd]
    unfold State.deliverReady
    rw [h]
    exact State.settleReds_some (n := 0) (by rw [h, List.find?_cons_of_pos hd])
  · rw [if_neg hd]
    exact State.deliverReady_of_none (by rw [h, List.find?_cons_of_neg hd, List.find?_nil])

theorem State.deliverable_of_only (h : s.reds = [x]) :
    s.deliverable x = true ↔ x.ring = false ∧ x.full = true ∧ (s.core (x.ctx / 4)).splitting = false := by
  unfold State.deliverable
  rw [State.redBehind_of_only h]
  simp [and_assoc]

theorem State.deliverRed_none (ht : x.tree x.lanes = none) : s.deliverRed x = s.redDone x := by
  unfold State.deliverRed
  rw [ht]

theorem State.deliverRed_some {cells : List (BitVec 56 × Bool)} (ht : x.tree x.lanes = some cells)
    (h : s.spadHas (x.ctx / 4) x.dest (cellBytes x.fmt cells).length = true) :
    s.deliverRed x = (s.redDone x).deliverCells x.ctx x.dest (cellBytes x.fmt cells) (cells.any (·.2)) := by
  unfold State.deliverRed
  simp only [ht, h, if_true]

end

/-! ## Read-outs (R231) -/

theorem Lane.cells_length (l : Lane) (w : ReadWord) : (l.cells w).length = w.nt * w.nc := by
  unfold Lane.cells
  simp [List.length_flatMap]

/-- The tree over one lane leaves its cells. -/
theorem Reduce.tree_one {r : Reduce} {n : Nat} {cells : List (BitVec 56 × Bool)} (hg : r.got = [(n, cells, false)])
    (hl : cells.length = r.w.nt * r.w.nc) : r.tree [n] = some cells := by
  unfold Reduce.tree
  simp only [hg, List.map_cons, List.map_nil, List.find?_cons, beq_self_eq_true, Option.getD_some, List.any_cons, List.any_nil,
    Bool.or_false, Bool.false_eq_true, if_false]
  refine congrArg some (List.ext_getElem (by simp [hl]) fun i h1 h2 => ?_)
  rw [List.getElem_map, List.getElem_range, List.getD_eq_getElem _ _ h2]
  rfl

/-- The delivery of a read-out of a lane. -/
def State.readout (s : State) (n : Nat) (e : LaneEnt) (w : ReadWord) (f : Fmt) (dest : Nat) : Reduce :=
  { ctx := e.ctx, taskid := e.taskid, pos := e.pos, id := e.id, lanes := [n], got := [(n, (s.lane n).cells w, false)],
    ords := [(n, s.nextOrd n)], w := w, fmt := f, dest := dest, ring := false, seq := 0, beds := [] }

section
variable {s : State} {n : Nat} {e : LaneEnt} {w : ReadWord} {f : Fmt} {dest : Nat}

theorem State.readout_full : (s.readout n e w f dest).full = true := by
  simp [State.readout, Reduce.full]

theorem State.readout_tree : (s.readout n e w f dest).tree [n] = some ((s.lane n).cells w) :=
  Reduce.tree_one rfl (Lane.cells_length ..)

theorem Lane.hand_done (l : Lane) : { l.hand with done := (l.hand.done + 1) % 2 ^ 25 } = l.pop := by
  unfold Lane.hand Lane.pop Lane.settle
  simp only [Lane.mk.injEq, true_and, and_true]
  omega

theorem State.setLane_setLane (s : State) (n : Nat) (a b : Lane) : (s.setLane n a).setLane n b = s.setLane n b := by
  unfold State.setLane
  rw [tput_tput]

variable (hn : s.cur.ev.a = n) (hh : s.laneHead n = some e) (hc : e.cmd = .accr w f dest)
include hn hh hc

theorem exec_laccrReadout : exec .laccrReadout s = .next (
    if (s.core (e.ctx / 4)).splitting then s
    else if !s.spadHas (e.ctx / 4) dest (cellBytes f ((s.lane n).cells w)).length then s.deferLane n e .prot dest
    else (({ s with reds := s.reds ++ [s.readout n e w f dest] } : State).setLane n (s.lane n).hand).deliverReady) := by
  subst hn
  rw [show exec .laccrReadout s = execLaccrReadout s from rfl]
  unfold execLaccrReadout
  simp only [hh, hc]
  rfl

theorem exec_laccrReadout_alone (hb : (s.core (e.ctx / 4)).splitting = false)
    (hs : s.spadHas (e.ctx / 4) dest (cellBytes f ((s.lane n).cells w)).length = true) (hr : s.reds = []) :
    exec .laccrReadout s = .next ((s.setLane n (s.lane n).pop).deliverCells e.ctx dest (cellBytes f ((s.lane n).cells w))
      (((s.lane n).cells w).any (·.2))) := by
  refine (exec_laccrReadout hn hh hc).trans (congrArg _ ?_)
  rw [hb, hs, hr, List.nil_append]
  generalize hu : ({ s with reds := [s.readout n e w f dest] } : State).setLane n (s.lane n).hand = u
  have hreds : u.reds = [s.readout n e w f dest] := by rw [← hu]; rfl
  have hcore : ∀ k, u.core k = s.core k := fun k => by rw [← hu]; rfl
  have hs0 : ({ s with reds := [] } : State) = s := by rw [← hr]
  have hdone : u.redDone (s.readout n e w f dest) = s.setLane n (s.lane n).pop := by
    refine (State.redDone_one hreds rfl).trans ?_
    have hl : u.lane n = (s.lane n).hand := by rw [← hu]; exact State.lane_setLane_same ..
    rw [hl, Lane.hand_done, ← hu]
    show State.setLane (({ s with reds := [] } : State).setLane n (s.lane n).hand) n _ = _
    rw [State.setLane_setLane, hs0]
  show u.deliverReady = _
  rw [State.deliverReady_only hreds, if_pos ((State.deliverable_of_only hreds).mpr ⟨rfl, State.readout_full, (hcore _).symm ▸ hb⟩),
    State.deliverRed_some State.readout_tree (by unfold State.spadHas State.spadSize at hs ⊢; rw [hcore]; exact hs), hdone]
  rfl

end

/-! ## Reductions (R140, R231) -/

/-- The places of a lane's deliveries counted: each is below what is counted. -/
def Reduce.ordAbove (n : Nat) (a : Nat) (r : Reduce) : Nat := r.ords.foldl (fun b p => if p.1 = n then max b (p.2 + 1) else b) a

theorem ordFold_mono (n : Nat) (l : List (Nat × Nat)) (a : Nat) :
    a ≤ l.foldl (fun b p => if p.1 = n then max b (p.2 + 1) else b) a ∧
      ∀ o, (n, o) ∈ l → o < l.foldl (fun b p => if p.1 = n then max b (p.2 + 1) else b) a := by
  induction l generalizing a with
  | nil => exact ⟨Nat.le_refl a, fun _ h => absurd h List.not_mem_nil⟩
  | cons p l ih =>
    rw [List.foldl_cons]
    have hstep : a ≤ if p.1 = n then max a (p.2 + 1) else a := by split <;> omega
    refine ⟨Nat.le_trans hstep (ih _).1, fun o ho => ?_⟩
    rcases List.mem_cons.mp ho with rfl | ho
    · refine Nat.lt_of_lt_of_le ?_ (ih _).1
      rw [if_pos rfl]
      omega
    · exact (ih _).2 o ho

/-- The place that a lane gives its next delivery comes after those of all that it has handed over. -/
theorem State.lt_nextOrd {s : State} {n o : Nat} {q : Reduce} (hq : q ∈ s.reds) (ho : (n, o) ∈ q.ords) : o < s.nextOrd n := by
  have hmono : ∀ (l : List Reduce) (a : Nat), a ≤ l.foldl (Reduce.ordAbove n) a := by
    intro l
    induction l with
    | nil => exact fun a => Nat.le_refl a
    | cons r l ih => exact fun a => Nat.le_trans (ordFold_mono n r.ords a).1 (ih _)
  have hall : ∀ (l : List Reduce) (a : Nat), q ∈ l → o < l.foldl (Reduce.ordAbove n) a := by
    intro l
    induction l with
    | nil => exact fun _ h => absurd h List.not_mem_nil
    | cons r l ih =>
      intro a h
      rcases List.mem_cons.mp h with rfl | h
      · exact Nat.lt_of_lt_of_le ((ordFold_mono n q.ords a).2 o ho) (hmono l _)
      · exact ih _ h
  exact hall s.reds 0 hq

/-- A read-out behind a delivery of its lane that is still to come waits for it. -/
theorem State.readout_waits {s u : State} {n : Nat} {e : LaneEnt} {w : ReadWord} {f : Fmt} {dest : Nat} {q : Reduce}
    (hr : s.reds = [q]) (hu : u.reds = [q, s.readout n e w f dest]) (ho : ∃ o, (n, o) ∈ q.ords) (hq : q.full = false) :
    u.deliverReady = u := by
  obtain ⟨o, ho⟩ := ho
  have hmem : q ∈ s.reds := by rw [hr]; exact List.mem_cons_self
  have hqr : q.ahead (s.readout n e w f dest) = true := by
    refine List.any_eq_true.mpr ⟨(n, o), ho, ?_⟩
    have hlt := State.lt_nextOrd hmem ho
    simp [State.readout, hlt]
  have hrx : ∀ x ∈ [q, s.readout n e w f dest], (s.readout n e w f dest).ahead x = false := by
    intro x hx
    refine List.any_eq_false.mpr fun a ha => ?_
    have ha : a = (n, s.nextOrd n) := List.mem_singleton.mp ha
    subst ha
    rw [Bool.not_eq_true]
    refine List.any_eq_false.mpr fun b hb => ?_
    simp only [Bool.and_eq_true, beq_iff_eq, decide_eq_true_eq, not_and, Nat.not_lt]
    rintro hbn
    rcases List.mem_cons.mp hx with rfl | hx
    · obtain ⟨b1, b2⟩ := b
      cases hbn
      exact Nat.le_of_lt (State.lt_nextOrd hmem hb)
    · rw [List.mem_singleton.mp hx] at hb
      rw [show b = (n, s.nextOrd n) from List.mem_singleton.mp hb]
  have hleads : u.redLeads u.reds.length (s.readout n e w f dest) q = false := by
    rw [hu]
    show u.redLeads 2 _ _ = false
    unfold State.redLeads
    rw [hrx q List.mem_cons_self, Bool.false_or, hu]
    refine List.any_eq_false.mpr fun x hx => ?_
    rw [hrx x hx, Bool.false_and]
    decide
  have hbehind : u.redBehind (s.readout n e w f dest) = true := by
    refine List.any_eq_true.mpr ⟨q, by rw [hu]; exact List.mem_cons_self, ?_⟩
    rw [hqr, hleads]
    rfl
  refine State.deliverReady_of_none ?_
  rw [hu, List.find?_eq_none]
  intro x hx
  rcases List.mem_cons.mp hx with rfl | hx
  · simp [State.deliverable, hq]
  · rw [List.mem_singleton.mp hx]
    simp [State.deliverable, hbehind]

section
variable {s : State} {n : Nat} {e : LaneEnt} (hn : s.cur.ev.a = n) (hh : s.laneHead n = some e)

theorem State.handRed_fields (s : State) (n : Nat) (e : LaneEnt) (cells : List (BitVec 56 × Bool)) (gone : Bool) :
    (s.handRed n e cells gone).cores = s.cores ∧ (s.handRed n e cells gone).lanes = s.lanes := by
  unfold State.handRed
  split
  · dsimp only
    split <;> exact ⟨rfl, rfl⟩
  · exact ⟨rfl, rfl⟩

include hn hh

theorem exec_lredReduce {id : Nat} {ls : List Nat} {w : ReadWord} {f : Fmt} {dest : Nat} {ring clr : Bool} {seq : Nat} {beds : List Nat}
    (hc : e.cmd = .red id ls w f dest ring clr seq beds) : exec .lredReduce s = .next
      ((s.handRed n e ((s.lane n).cells w) false).setLane n (if clr then (s.lane n).clearCells w else s.lane n).hand).deliverReady := by
  subst hn
  rw [show exec .lredReduce s = execLredReduce s from rfl]
  unfold execLredReduce
  simp only [hh, hc]
  cases clr <;> rfl

/-! ## Barriers of lanes (R232) -/

/-- A lane that an `lsync` lets go: past the barrier where it stands at it. -/
def State.syncPop (c t id : Nat) (u : State) (n : Nat) : State :=
  match (u.lane n).q with
  | e :: _ => if isSync c t id e then u.setLane n (u.lane n).pop else u
  | [] => u

theorem exec_lsyncRelease {id : Nat} {ls : List Nat} (hc : e.cmd = .sync id ls) : exec .lsyncRelease s = .next
    (if ls.all (s.syncReady e.ctx e.taskid id) then ls.foldl (State.syncPop e.ctx e.taskid id) s else s) := by
  obtain ⟨ctx, taskid, pos, cmd, eid⟩ := e
  subst hn hc
  rw [show exec .lsyncRelease s = execLsyncRelease s from rfl]
  unfold execLsyncRelease State.syncHead
  simp only [hh]
  rfl

end

section
variable (c t id : Nat)

theorem State.syncPop_mem (u : State) (n : Nat) : (State.syncPop c t id u n).mem = u.mem := by
  unfold State.syncPop
  split
  · split <;> rfl
  · rfl

theorem State.syncPop_other (u : State) {n m : Nat} (h : m ≠ n) : (State.syncPop c t id u n).lane m = u.lane m := by
  unfold State.syncPop
  split
  · split
    · exact State.lane_setLane_other _ _ h
    · rfl
  · rfl

/-- What becomes of a lane that an `lsync` lets go. -/
def Lane.syncPop (l : Lane) : Lane :=
  match l.q with
  | e :: _ => if isSync c t id e then l.pop else l
  | [] => l

theorem State.syncPop_same (u : State) (n : Nat) : (State.syncPop c t id u n).lane n = (u.lane n).syncPop c t id := by
  unfold State.syncPop Lane.syncPop
  cases (u.lane n).q with
  | nil => rfl
  | cons e r =>
    dsimp only
    split
    · exact State.lane_setLane_same ..
    · rfl

theorem State.syncPops_other (l : List Nat) (u : State) {m : Nat} (h : m ∉ l) :
    (l.foldl (State.syncPop c t id) u).lane m = u.lane m := by
  induction l generalizing u with
  | nil => rfl
  | cons n l ih =>
    rw [List.foldl_cons, ih _ fun hm => h (List.mem_cons_of_mem n hm)]
    exact State.syncPop_other c t id u fun he => h (he ▸ List.mem_cons_self)

/-- Lanes let go one after another: each of them once. -/
theorem State.syncPops_same (l : List Nat) (u : State) {m : Nat} (hm : m ∈ l) (hl : l.Nodup) :
    (l.foldl (State.syncPop c t id) u).lane m = (u.lane m).syncPop c t id := by
  induction l generalizing u with
  | nil => cases hm
  | cons n l ih =>
    obtain ⟨hn, hl⟩ := List.nodup_cons.mp hl
    rw [List.foldl_cons]
    rcases List.mem_cons.mp hm with rfl | hm
    · exact (State.syncPops_other c t id l _ hn).trans (State.syncPop_same c t id u m)
    · rw [ih _ hm hl, State.syncPop_other c t id u (n := n) fun h => hn (h ▸ hm)]

end

/-! ## Rings (R355) -/

section
variable {s : State} {x : Reduce}

/-- The result of a ring reduction and its footer. -/
def Reduce.ringBytes (x : Reduce) : List Byte :=
  cellBytes .a56 (foldPartials (x.beds.map fun b => x.bedPart (b % 8))) ++
    x.footer (foldPartials (x.beds.map fun b => x.bedPart (b % 8)))

theorem exec_ringFold (h : s.reds = [x]) (hr : x.ring = true) (ht : x.taskid = s.cur.ev.a) (hs : x.seq = s.cur.ev.b) :
    exec .ringFold s = .next (if !x.full || (s.core (x.ctx / 4)).splitting then s else (s.foldRing x).deliverReady) := by
  have hf : (s.reds.find? fun r => r.ring && r.taskid == s.cur.ev.a && r.seq == s.cur.ev.b) = some x := by
    rw [h]
    simp [hr, ht, hs]
  rw [show exec .ringFold s = execRingFold s from rfl]
  unfold execRingFold
  simp only [hf, State.redBehind_of_only h, Bool.or_false]

theorem State.deliverCells_reds (s : State) (k a : Nat) (bs : List Byte) (bad : Bool) : (s.deliverCells k a bs bad).reds = s.reds := by
  unfold State.deliverCells State.spadWrite State.coverFwd
  split <;> rfl

theorem State.foldRing_delivers (h : s.reds = [x]) (hs : s.spadHas (x.ctx / 4) x.dest x.ringBytes.length = true) :
    (s.foldRing x).deliverReady = (s.redDone x).deliverCells x.ctx x.dest x.ringBytes
      ((foldPartials (x.beds.map fun b => x.bedPart (b % 8))).any (·.2)) := by
  unfold Reduce.ringBytes at hs ⊢
  unfold State.foldRing
  rw [if_pos hs]
  exact State.deliverReady_nil ((State.deliverCells_reds ..).trans (State.redDone_reds_of_only h))

theorem State.foldRing_faults (h : s.reds = [x]) (hs : s.spadHas (x.ctx / 4) x.dest x.ringBytes.length = false) :
    s.foldRing x = ({ s with reds := [] } : State).redFault x := by
  unfold Reduce.ringBytes at hs
  unfold State.foldRing
  rw [if_neg (by rw [hs]; decide)]
  rw [State.redDone_reds_of_only h]

end

end Sys2Proof.Machine
end

section
/-! PROOFS. Lanes at work: O52, from what each of the macros does. -/

namespace Sys2Proof.Machine

/-- Settles O52, command by command. -/
theorem lanesAtWork : Obligations.LanesAtWork := by
  intro s n l fails
  refine ⟨fun e r hq hst ht hs hf => ?_, fun x hr hring htask hseq => ?_, fun y b t j r z i hj hi ht => ?_⟩
  · have hh : s.laneHead n = some e := State.laneHead_of hq hst ht hs hf
    refine ⟨fun y p hc => exec_lcfgApply rfl hh hc, fun b role hc => ?_, fun t hc => exec_lactLoad rfl hh hc,
      fun hc => exec_lacczClear rfl hh hc, fun c0 cnt frow z hc => ⟨fun h => exec_lmacPiece_unbound rfl hh hc h, ?_⟩,
      fun w f dest hc => ?_, fun id ls w f dest ring clr seq beds hc => ⟨?_, ?_⟩, fun id ls hc hnd => ?_⟩
    · obtain ⟨hfault, hmiss, hok⟩ := exec_lwstBind rfl hh hc
      refine ⟨hfault, hmiss, fun ps hp => ?_⟩
      obtain ⟨f, he⟩ := hok ps hp
      exact ⟨_, he, rfl, State.lane_setLane_same ..⟩
    · intro b t hb ht
      have he := exec_lmacPiece rfl hh hc hb ht rfl rfl
      refine ⟨fun h1 => he.trans (congrArg _ (if_pos h1)),
        fun h1 h2 => he.trans (congrArg _ ((if_neg (not_not.mpr h1)).trans (if_pos h2))),
        fun h1 h2 h3 => he.trans (congrArg _ ((if_neg (not_not.mpr h1)).trans ((if_neg (Nat.not_lt.mpr h2)).trans (if_pos h3)))),
        fun h1 h2 h3 => he.trans (congrArg _ ((if_neg (not_not.mpr h1)).trans ((if_neg (Nat.not_lt.mpr h2)).trans
          (if_neg (Nat.not_lt.mpr h3)))))⟩
    · have he := exec_laccrReadout rfl hh hc
      refine ⟨fun hb => he.trans (congrArg _ (if_pos hb)),
        fun hb h1 => he.trans (congrArg _ ((if_neg (by rw [hb]; decide)).trans (if_pos (by rw [h1]; rfl)))),
        fun hb h1 hr => exec_laccrReadout_alone rfl hh hc hb h1 hr, fun q hb h1 hr ho hfull => ?_⟩
      have hgo := he.trans (congrArg Host.Outcome.next ((if_neg (by rw [hb]; decide)).trans (if_neg (by rw [h1]; decide))))
      have hreds : s.reds ++ [s.readout n e w f dest] = [q, s.readout n e w f dest] := by rw [hr]; rfl
      refine ⟨_, hgo.trans (congrArg _ (State.readout_waits hr hreds ho hfull)), rfl, rfl, ?_, State.lane_setLane_same ..⟩
      exact congrArg List.length hreds
    · exact exec_lredReduce rfl hh hc
    · intro x hx
      have hcore : ∀ y k, ((s.handRed n e (l.cells w) false).setLane n y).core k = s.core k := fun y k =>
        State.core_of_cores (s := s) (State.handRed_fields s n e (l.cells w) false).1 k
      have hiff := State.deliverable_of_only hx
      rw [hcore] at hiff
      have hready := State.deliverReady_only hx
      refine ⟨fun h => hready.trans (if_neg fun hd => ?_), fun h1 h2 h3 => ?_⟩
      · obtain ⟨h1, h2, h3⟩ := hiff.mp hd
        simp [h1, h2, h3] at h
      · have hgo := hready.trans (if_pos (hiff.mpr ⟨h1, h2, h3⟩))
        exact ⟨fun ht => hgo.trans (State.deliverRed_none ht), fun cells ht hsp => hgo.trans (State.deliverRed_some ht hsp)⟩
    · have he := exec_lsyncRelease rfl hh hc
      refine ⟨fun ⟨m, hm, hnot⟩ => he.trans (congrArg _ (if_neg fun hall => ?_)), fun hall =>
        ⟨_, he.trans (congrArg _ (if_pos (List.all_eq_true.mpr hall))), foldl_keeps (·.mem) (State.syncPop_mem _ _ _) ls s, fun m => ?_⟩⟩
      · rw [List.all_eq_true.mp hall m hm] at hnot
        cases hnot
      · by_cases hm : m ∈ ls
        · refine (State.syncPops_same _ _ _ ls s hm hnd).trans ?_
          unfold Lane.syncPop
          cases (s.lane m).q with
          | nil => rfl
          | cons x r => simp only [hm, true_and]
        · refine (State.syncPops_other _ _ _ ls s hm).trans ?_
          cases (s.lane m).q with
          | nil => rfl
          | cons x r => simp only [hm, false_and, if_false]
  · have he := exec_ringFold hr hring htask hseq
    refine ⟨fun h => he.trans (congrArg _ (if_pos ?_)), fun h1 h2 h3 => ?_, fun h1 h2 h3 => ?_⟩
    · rcases h with h | h <;> simp [h]
    · refine he.trans (congrArg _ ((if_neg (by rw [h1, h2]; decide)).trans ?_))
      exact State.foldRing_delivers hr h3
    · refine he.trans (congrArg _ ((if_neg (by rw [h1, h2]; decide)).trans ?_))
      rw [State.foldRing_faults hr h3]
  · exact ⟨State.lmacRow_cell s y b t j r z hi ht, fun c hc => State.lmacRow_other s y b t j r z hj hc⟩

end Sys2Proof.Machine
end

section
/-! PROOFS. What a matrix engine does with the command at the head of its queue; O53 (R242-R246). -/

namespace Sys2Proof.Machine

theorem State.mat_setMat_same (s : State) (n : Nat) (m : Matrix) : (s.setMat n m).mat n = m := tget_tput_same ..

/-! ## The beginning and the end of a command (R242) -/

section
variable {s : State} {n : Nat} {e : MatEnt} {r : List MatEnt}

/-- A command that has begun is still at the head of its queue; all but the semaphores is as it was. -/
theorem State.mat_matBegin (hq : (s.mat n).q = e :: r) :
    ∃ h sems, (s.matBegin n).mat n = { s.mat n with sems := sems, q := h :: r } := by
  unfold State.matBegin
  simp only [hq]
  split
  · exact ⟨e, (s.mat n).sems, by rw [← hq]⟩
  · rw [State.mat_setMat_same]
    cases e.wsem <;> exact ⟨_, _, rfl⟩

theorem State.matBegin_core (s : State) (n k : Nat) : (s.matBegin n).core k = s.core k := by
  unfold State.matBegin
  dsimp only
  split
  · rfl
  · split <;> rfl

theorem State.matEnd_core (s : State) (n k : Nat) : (s.matEnd n).core k = s.core k := by
  unfold State.matEnd
  dsimp only
  split <;> rfl

theorem State.matWork_head {f : State → Nat → MatEnt → Option State} {u : State} (hn : s.cur.ev.a = n) (hh : s.matHead n = some e)
    (hf : f (s.matBegin n) n e = some u) : s.matWork f = u := by
  subst hn
  unfold State.matWork
  simp only [hh, hf, Option.getD_some]

end

/-! ## The commands -/

section
variable {s : State} {n : Nat} {e : MatEnt} {r : List MatEnt} (hn : s.cur.ev.a = n) (hh : s.matHead n = some e)

/-- The end of a command that has left its engine as `m`: the queue goes on, and the registers and tiles are as it left them. -/
theorem State.matEnd_of {t : State} (m : Matrix) {h : MatEnt} (hm : m.q = h :: r) (ht : t.mat n = m) :
    ((t.matEnd n).mat n).q = r ∧ ((t.matEnd n).mat n).tiles = m.tiles ∧ ((t.matEnd n).mat n).layout = m.layout ∧
      ((t.matEnd n).mat n).unfold = m.unfold := by
  subst ht
  unfold State.matEnd
  simp only [hm]
  rw [State.mat_setMat_same]
  cases h.ssem <;> exact ⟨rfl, rfl, rfl, rfl⟩

/-- The machine with a layout register of a matrix engine written. -/
def State.setLayout (t : State) (n k : Nat) (y : Layout) : State :=
  t.setMat n { t.mat n with layout := tput (t.mat n).layout k y }

theorem State.mat_tagRegions (t : State) (n m span : Nat) (rs : List Nat) : (t.tagRegions n span rs).mat m = t.mat m := rfl

theorem foldl_tput_const {α : Type} (d v : α) (rs : List Nat) (t : Tab α) {k : Nat} (hk : k ∈ rs) :
    tget d (rs.foldl (fun t r => tput t r v) t) k = v := by
  induction rs generalizing t with
  | nil => cases hk
  | cons a rs ih =>
    rw [List.foldl_cons]
    by_cases h : k ∈ rs
    · exact ih _ h
    · have hka : k = a := (List.mem_cons.mp hk).resolve_right h
      subst hka
      clear ih hk
      have hkept : ∀ (rs : List Nat) (t : Tab α), k ∉ rs → tget d (rs.foldl (fun t r => tput t r v) t) k = tget d t k := by
        intro rs
        induction rs with
        | nil => exact fun _ _ => rfl
        | cons b rs ih =>
          intro t hb
          rw [List.foldl_cons, ih _ fun h => hb (List.mem_cons_of_mem b h)]
          exact tget_tput_other d t v fun h => hb (h ▸ List.mem_cons_self)
      rw [hkept rs _ h, tget_tput_same]

theorem State.tagRegions_ltags (t : State) (n span : Nat) (rs : List Nat) {k : Nat} (hk : k ∈ rs) :
    tget 0 ((t.tagRegions n span rs).core (64 + n)).ltags k = span := by
  unfold State.tagRegions
  rw [State.core_modCore, if_pos rfl]
  exact foldl_tput_const 0 span rs _ hk

include hn hh

theorem exec_mlayExecute_plain {k : Nat} {y : Layout} (hc : e.cmd = .lay k y none) :
    exec .mlayExecute s = .next (((s.matBegin n).setLayout n k y).matEnd n) :=
  congrArg Host.Outcome.next (State.matWork_head hn hh (by rw [hc]; rfl))

theorem exec_mlayExecute_tags {k a len : Nat} {y : Layout} (hc : e.cmd = .lay k y (some (a, len))) :
    exec .mlayExecute s = .next ((((s.matBegin n).setLayout n k y).tagRegions n y.span
      ((List.range (len / 4096)).map (a / 4096 + ·))).matEnd n) :=
  congrArg Host.Outcome.next (State.matWork_head hn hh (by rw [hc]; rfl))

theorem exec_munfExecute {y : Option Unfold} (hc : e.cmd = .unf y) :
    exec .munfExecute s = .next (((s.matBegin n).setMat n { (s.matBegin n).mat n with unfold := y }).matEnd n) :=
  congrArg Host.Outcome.next (State.matWork_head hn hh (by rw [hc]))

theorem exec_mzeroExecute {tl : Nat} {m : TMode} (hc : e.cmd = .zero tl m) :
    exec .mzeroExecute s = .next (((s.matBegin n).setMat n { (s.matBegin n).mat n with
      tiles := tput ((s.matBegin n).mat n).tiles tl { mode := m } }).matEnd n) :=
  congrArg Host.Outcome.next (State.matWork_head hn hh (by rw [hc]))

theorem exec_mldExecute {k va st nr rowd nb : Nat} (hc : e.cmd = .ld k va st nr rowd nb) :
    exec .mldExecute s = .next (if ((s.matBegin n).layout n k).rstr < nb then (s.matBegin n).deferMat n e .qfault 0
      else (s.matBegin n).matRows n e (fun u i => u.mldRow n e k va st rowd nb i) nr e.row (rowBudget nr e.row s.cur.ev.b)) :=
  congrArg Host.Outcome.next (State.matWork_head hn hh (by rw [hc]))

/-- A command that does nothing for its format: it is counted, and ends (R245, R246). -/
def State.matFormat (t : State) (n : Nat) : State :=
  (t.setMat n { t.mat n with fmtc := min 255 ((t.mat n).fmtc + 1) }).matEnd n

theorem exec_mdrnExecute {tl dest ds m0 mm : Nat} {gs : Bool} {fd : Option Fmt} {clr : Bool} {rm : Rm} {sat ftz : Bool}
    (hc : e.cmd = .drn tl gs dest ds m0 mm fd clr rm sat ftz) :
    ((∀ f, fd = some f → drainOk (tget {} ((s.matBegin n).mat n).tiles tl).mode f = false) →
      exec .mdrnExecute s = .next ((s.matBegin n).matFormat n)) ∧
    ∀ f, fd = some f → drainOk (tget {} ((s.matBegin n).mat n).tiles tl).mode f = true → exec .mdrnExecute s =
      .next ((s.matBegin n).matRows n e (fun u i => u.drnRow n e tl gs dest ds m0 f clr rm sat ftz i) mm e.row
        (rowBudget mm e.row s.cur.ev.b)) := by
  refine ⟨fun h => congrArg Host.Outcome.next (State.matWork_head hn hh ?_),
    fun f hf h => congrArg Host.Outcome.next (State.matWork_head hn hh ?_)⟩
  · rw [hc]
    cases fd with
    | none => rfl
    | some f =>
      refine congrArg some (if_pos ?_)
      rw [h f rfl]
      rfl
  · rw [hc, hf]
    refine congrArg some (if_neg ?_)
    rw [h]
    decide

end

/-! ## Products (R245) -/

/-- The operands of an `mmul`. -/
structure MulCmd where
  tl : Nat
  unf : Bool
  mm : Nat
  row0 : Nat
  fa : Fmt
  ra : Bool
  la : Nat
  krec : Nat
  k0 : Nat
  fb : Fmt
  rb : Bool
  lb : Nat

section
variable (c : MulCmd) (t : State) (n : Nat)

def MulCmd.cmd : MCmd := .mul c.tl c.unf c.mm c.row0 c.fa c.ra c.la c.krec c.k0 c.fb c.rb c.lb

/-- Where the units of the first and of the second operand lie. -/
def MulCmd.offA (m i : Nat) : List Nat :=
  unitOffsets (t.layout n c.la) (unitBytes c.fa c.ra) (rowOf (t.mat n).unfold c.unf (c.row0 + m) (c.k0 + i))
def MulCmd.offB (j i : Nat) : List Nat := unitOffsets (t.layout n c.lb) (unitBytes c.fb c.rb) (some (j, c.k0 + i))
def MulCmd.allA : List Nat := (List.range c.mm).flatMap fun m => (List.range c.krec).flatMap (c.offA t n m)
def MulCmd.allB : List Nat := (List.range 128).flatMap fun j => (List.range c.krec).flatMap (c.offB t n j)

/-- The elements and the scales of the units. -/
def MulCmd.valA (m i : Nat) : List XR × XR := unitValues c.fa c.ra (t.unitAt (64 + n) (c.offA t n m i) (unitBytes c.fa c.ra))
def MulCmd.valB (j i : Nat) : List XR × XR := unitValues c.fb c.rb (t.unitAt (64 + n) (c.offB t n j i) (unitBytes c.fb c.rb))

def MulCmd.tile : MTile := tget {} (t.mat n).tiles c.tl

/-- Every byte of the operands lies in the scratchpad. -/
def MulCmd.Inside : Prop := ∀ o, o ∈ c.allA t n ++ c.allB t n → t.spadHas (64 + n) o 1 = true

/-- The regions of the operands carry the spans of their layouts. -/
def MulCmd.Tagged : Prop :=
  (∀ o ∈ c.allA t n, tget 0 (t.core (64 + n)).ltags (o / 4096) = (t.layout n c.la).span) ∧
    ∀ o ∈ c.allB t n, tget 0 (t.core (64 + n)).ltags (o / 4096) = (t.layout n c.lb).span

/-- The operands do not fit a tile in an integer mode. -/
def MulCmd.Misfit : Prop :=
  c.ra = false ∨ c.rb = false ∨ fmtIsB8 c.fa = true ∨ fmtIsB8 c.fb = true ∨ ((c.tile t n).q.getD (unitQ c.fa c.fb)) ≠ unitQ c.fa c.fb

/-- No operand lies in an uncorrectable word. -/
def MulCmd.Clean : Prop := ∀ o ∈ c.allA t n ++ c.allB t n, o / 8 ∉ (t.core (64 + n)).poison

/-- The tile with the products added. -/
def MulCmd.result : MTile :=
  mulTile (c.tile t n).mode (unitQ c.fa c.fb)
    (if (c.tile t n).mode = .float then c.tile t n else { c.tile t n with q := some (unitQ c.fa c.fb) }) c.mm c.krec (c.valA t n) (c.valB t n)

theorem regionsOf_any (tags : Tab Nat) (l : List Nat) (span : Nat) :
    ((regionsOf l).any fun r => tget 0 tags r != span) = false ↔ ∀ o ∈ l, tget 0 tags (o / 4096) = span := by
  unfold regionsOf
  simp [List.any_eq_false]

/-- The regions carry other spans than the layouts. -/
def MulCmd.mistagged : Bool :=
  ((regionsOf (c.allA t n)).any fun r => tget 0 (t.core (64 + n)).ltags r != (t.layout n c.la).span) ||
    (regionsOf (c.allB t n)).any fun r => tget 0 (t.core (64 + n)).ltags r != (t.layout n c.lb).span

theorem MulCmd.mistagged_iff : c.mistagged t n = false ↔ c.Tagged t n := by
  unfold MulCmd.mistagged MulCmd.Tagged
  rw [Bool.or_eq_false_iff, regionsOf_any, regionsOf_any]

end

section
variable {s t : State} {n : Nat} {e : MatEnt} {r : List MatEnt} {c : MulCmd} (hn : s.cur.ev.a = n) (hh : s.matHead n = some e)
  (hc : e.cmd = c.cmd) (ht : s.matBegin n = t)
include hn hh hc ht

theorem exec_mmulExecute_waits (h : (t.core (64 + n)).splitting = true) : exec .mmulExecute s = .next s := by
  subst ht
  refine congrArg Host.Outcome.next (State.matWork_head hn hh ?_)
  rw [hc]
  exact congrArg some (if_pos h)

variable (hs : (t.core (64 + n)).splitting = false)
include hs

theorem exec_mmulExecute_prot (h : ¬c.Inside t n) : exec .mmulExecute s = .next (t.deferMat n e .prot (t.layout n c.la).base) := by
  subst ht
  refine congrArg Host.Outcome.next (State.matWork_head hn hh ?_)
  rw [hc]
  refine congrArg some ((if_neg (by rw [hs]; decide)).trans (if_pos ?_))
  refine (Bool.not_eq_true' _).mpr ((Bool.not_eq_true _).mp fun hall => h ?_)
  exact List.all_eq_true.mp hall

variable (hi : c.Inside t n)
include hi

theorem exec_mmulExecute_untagged (h : ¬c.Tagged t n) : exec .mmulExecute s =
    .next ((t.setMat n { t.mat n with layc := min 255 ((t.mat n).layc + 1) }).matEnd n) := by
  subst ht
  refine congrArg Host.Outcome.next (State.matWork_head hn hh ?_)
  rw [hc]
  refine congrArg some ((if_neg (by rw [hs]; decide)).trans ((if_neg ?_).trans (if_pos ?_)))
  · exact fun hx => absurd (List.all_eq_true.mpr hi) ((Bool.not_eq_true _).mpr ((Bool.not_eq_true' _).mp hx))
  · exact (Bool.not_eq_false _).mp fun hx => h ((MulCmd.mistagged_iff c _ n).mp hx)

variable (hg : c.Tagged t n)
include hg

theorem exec_mmulExecute_format (hm : (c.tile t n).mode ≠ .float) (h : c.Misfit t n) :
    exec .mmulExecute s = .next (t.matFormat n) := by
  subst ht
  refine congrArg Host.Outcome.next (State.matWork_head hn hh ?_)
  rw [hc]
  refine congrArg some ((if_neg (by rw [hs]; decide)).trans ((if_neg ?_).trans ((if_neg ?_).trans (if_pos ⟨hm, ?_⟩))))
  · exact fun hx => absurd (List.all_eq_true.mpr hi) ((Bool.not_eq_true _).mpr ((Bool.not_eq_true' _).mp hx))
  · exact (Bool.not_eq_true _).mpr ((MulCmd.mistagged_iff c _ n).mpr hg)
  · simpa [MulCmd.Misfit, MulCmd.tile] using h

/-- Operands that are in place, tagged, of fitting formats and good: their products are added to the tile. -/
theorem exec_mmulExecute_adds (hm : (c.tile t n).mode = .float ∨ ¬c.Misfit t n) (h : c.Clean t n) :
    exec .mmulExecute s = .next ((((t.modCtx e.ctx fun x => x).setMat n { t.mat n with
      tiles := tput (t.mat n).tiles c.tl (c.result t n) })).matEnd n) := by
  subst ht
  have hbad : ((c.allA (s.matBegin n) n ++ c.allB (s.matBegin n) n).filter fun o =>
      ((s.matBegin n).core (64 + n)).poison.contains (o / 8)) = [] := by
    rw [List.filter_eq_nil_iff]
    exact fun o ho hx => h o ho (List.contains_iff_mem.mp hx)
  refine congrArg Host.Outcome.next (State.matWork_head hn hh ?_)
  rw [hc]
  refine congrArg some ((if_neg (by rw [hs]; decide)).trans ((if_neg ?_).trans ((if_neg ?_).trans ((if_neg ?_).trans
    ((if_neg fun hx => hx.1 hbad).trans ?_)))))
  · exact fun hx => absurd (List.all_eq_true.mpr hi) ((Bool.not_eq_true _).mpr ((Bool.not_eq_true' _).mp hx))
  · exact (Bool.not_eq_true _).mpr ((MulCmd.mistagged_iff c _ n).mpr hg)
  · rintro ⟨h1, h2⟩
    exact hm.elim h1 fun h3 => h3 (by simpa [MulCmd.Misfit, MulCmd.tile] using h2)
  · have hclean : ∀ bad : List Nat, bad = [] → ((((bad.map (· / 8)).eraseDups.foldl (fun u _ => u.wordEvent e.part (64 + n) false)
        (s.matBegin n)).modCtx e.ctx fun x => x.poisoned (bad.map (· / 8)).eraseDups.length).setMat n { (s.matBegin n).mat n with
          tiles := tput ((s.matBegin n).mat n).tiles c.tl (c.result (s.matBegin n) n) }).matEnd n =
        (((s.matBegin n).modCtx e.ctx fun x => x).setMat n { (s.matBegin n).mat n with
          tiles := tput ((s.matBegin n).mat n).tiles c.tl (c.result (s.matBegin n) n) }).matEnd n := by
      rintro _ rfl
      rfl
    exact hclean _ hbad

end

/-! ## The cells of a product -/

/-- A cell with the product of one pair of units added. -/
def mulStep (mode : TMode) (q : Int) (x : BitVec 56) (v : XR) : BitVec 56 :=
  match mode with
  | .float => a56Add x v
  | _ => intAccum mode x (countOf v q)

section
variable (f : Nat → Nat → BitVec 56)

theorem tget_foldl_cols (k m : Nat) (t : Tab (BitVec 56)) (a b : Nat) (hb : b < 128) (hk : k ≤ 128) :
    tget 0 ((List.range k).foldl (fun c j => tput c (128 * m + j) (f m j)) t) (128 * a + b) =
      if a = m ∧ b < k then f a b else tget 0 t (128 * a + b) := by
  induction k with
  | zero => rw [if_neg (by omega)]; rfl
  | succ k ih =>
    rw [List.range_succ, List.foldl_append, List.foldl_cons, List.foldl_nil, tget_tput, ih (by omega)]
    by_cases h : 128 * a + b = 128 * m + k
    · obtain ⟨rfl, rfl⟩ : a = m ∧ b = k := by omega
      rw [if_pos rfl, if_pos ⟨rfl, by omega⟩]
    · rw [if_neg h]
      by_cases h1 : a = m ∧ b < k
      · rw [if_pos h1, if_pos (by omega)]
      · rw [if_neg h1, if_neg (by omega)]

/-- The cells of a block of rows written: each has its own value, and the rows beyond keep theirs. -/
theorem tget_foldl_rows (mm : Nat) (t : Tab (BitVec 56)) (a b : Nat) (hb : b < 128) :
    tget 0 ((List.range mm).foldl (fun c m => (List.range 128).foldl (fun c j => tput c (128 * m + j) (f m j)) c) t) (128 * a + b) =
      if a < mm then f a b else tget 0 t (128 * a + b) := by
  induction mm with
  | zero => rw [if_neg (Nat.not_lt_zero a)]; rfl
  | succ mm ih =>
    rw [List.range_succ (n := mm), List.foldl_append, List.foldl_cons, List.foldl_nil, tget_foldl_cols f 128 mm _ a b hb (Nat.le_refl _), ih]
    by_cases h : a = mm
    · rw [if_pos ⟨h, hb⟩, if_pos (by omega)]
    · rw [if_neg (by omega)]
      by_cases h1 : a < mm
      · rw [if_pos h1, if_pos (by omega)]
      · rw [if_neg h1, if_neg (by omega)]

end

theorem mulTile_cell (mode : TMode) (q : Int) (t : MTile) (mm krec : Nat) (a b : Nat → Nat → List XR × XR) (m j : Nat) (hj : j < 128) :
    (mulTile mode q t mm krec a b).cell m j = if m < mm then
      (List.range krec).foldl (fun x i => mulStep mode q x (blockValue (a m i).1 (b j i).1 (a m i).2 (b j i).2)) (t.cell m j)
      else t.cell m j :=
  tget_foldl_rows (fun m j => (List.range krec).foldl (fun x i => mulStep mode q x
    (blockValue (a m i).1 (b j i).1 (a m i).2 (b j i).2)) (t.cell m j)) mm t.cells m j hj

theorem mulTile_q (mode : TMode) (q : Int) (t : MTile) (mm krec : Nat) (a b : Nat → Nat → List XR × XR) :
    (mulTile mode q t mm krec a b).q = t.q := rfl

theorem mulStep_float (q : Int) : mulStep .float q = a56Add := rfl

theorem mulStep_int {mode : TMode} (h : mode ≠ .float) (q : Int) : mulStep mode q = fun x v => intAccum mode x (countOf v q) := by
  cases mode with
  | float => exact absurd rfl h
  | _ => rfl

section
variable (c : MulCmd) (t : State) (n : Nat) {m j : Nat} (hj : j < 128)
include hj

theorem MulCmd.result_cell : (c.result t n).cell m j = if m < c.mm then
    (List.range c.krec).foldl (fun x i => mulStep (c.tile t n).mode (unitQ c.fa c.fb) x
      (blockValue (c.valA t n m i).1 (c.valB t n j i).1 (c.valA t n m i).2 (c.valB t n j i).2)) ((c.tile t n).cell m j)
    else (c.tile t n).cell m j := by
  unfold MulCmd.result
  rw [mulTile_cell _ _ _ _ _ _ _ _ _ hj]
  have hcell : (if (c.tile t n).mode = .float then c.tile t n else { c.tile t n with q := some (unitQ c.fa c.fb) } : MTile).cell m j =
      (c.tile t n).cell m j := by split <;> rfl
  rw [hcell]

theorem MulCmd.result_cell_float (h : (c.tile t n).mode = .float) (hm : m < c.mm) : (c.result t n).cell m j =
    (List.range c.krec).foldl (fun x i => a56Add x
      (blockValue (c.valA t n m i).1 (c.valB t n j i).1 (c.valA t n m i).2 (c.valB t n j i).2)) ((c.tile t n).cell m j) := by
  rw [MulCmd.result_cell c t n hj, if_pos hm, h, mulStep_float]

theorem MulCmd.result_cell_int (h : (c.tile t n).mode ≠ .float) (hm : m < c.mm) : (c.result t n).cell m j =
    (List.range c.krec).foldl (fun x i => intAccum (c.tile t n).mode x (countOf
      (blockValue (c.valA t n m i).1 (c.valB t n j i).1 (c.valA t n m i).2 (c.valB t n j i).2) (unitQ c.fa c.fb)))
      ((c.tile t n).cell m j) := by
  rw [MulCmd.result_cell c t n hj, if_pos hm, mulStep_int h]

theorem MulCmd.result_cell_beyond (hm : c.mm ≤ m) : (c.result t n).cell m j = (c.tile t n).cell m j := by
  rw [MulCmd.result_cell c t n hj, if_neg (Nat.not_lt.mpr hm)]

end

theorem MulCmd.result_q (c : MulCmd) (t : State) (n : Nat) (h : (c.tile t n).mode ≠ .float) :
    (c.result t n).q = some (unitQ c.fa c.fb) := by
  unfold MulCmd.result
  rw [mulTile_q, if_neg h]

/-- Settles O53, command by command. -/
theorem matrixEnginesAtWork : Obligations.MatrixEnginesAtWork := by
  intro s e r n t g core hq hh
  obtain ⟨h, sems, hbeg⟩ := State.mat_matBegin hq
  have hmem : t.mem = s.mem := State.matBegin_mem s n
  have hgq : g.q = h :: r := congrArg Matrix.q hbeg
  have hgt : g.tiles = (s.mat n).tiles := by rw [show g = _ from hbeg]
  refine ⟨fun k y st hc => ?_, fun y hc => ?_, fun tl m hc => ?_, fun k va st nr rowd nb hc => ?_,
    fun tl gs dest ds m0 mm fd clr rm sat ftz hc => exec_mdrnExecute rfl hh hc, ?_⟩
  · obtain ⟨hq', _, hl, _⟩ := State.matEnd_of (t := t.setLayout n k y) { g with layout := tput g.layout k y } hgq
      (State.mat_setMat_same t n _)
    have hlay : tget {} (((t.setLayout n k y).matEnd n).mat n).layout k = y := by rw [hl]; exact tget_tput_same ..
    cases st with
    | none =>
      refine ⟨_, exec_mlayExecute_plain rfl hh hc, (State.matEnd_mem ..).trans hmem, hq', hlay, fun _ => ?_, fun a len ha => by cases ha⟩
      exact congrArg Core.ltags ((State.matEnd_core _ n core).trans (State.matBegin_core s n core))
    | some p =>
      obtain ⟨a, len⟩ := p
      obtain ⟨hq', _, hl, _⟩ := State.matEnd_of
        (t := (t.setLayout n k y).tagRegions n y.span ((List.range (len / 4096)).map (a / 4096 + ·)))
        { g with layout := tput g.layout k y } hgq (State.mat_setMat_same t n _)
      refine ⟨_, exec_mlayExecute_tags rfl hh hc, (State.matEnd_mem ..).trans hmem, hq', ?_, fun hn => (by cases hn), ?_⟩
      · rw [hl]
        exact tget_tput_same ..
      · intro a' len' ha i hi
        cases ha
        rw [State.matEnd_core]
        exact State.tagRegions_ltags _ n y.span _ (List.mem_map.mpr ⟨i, List.mem_range.mpr hi, rfl⟩)
  · obtain ⟨hq', htiles, _, hunf⟩ := State.matEnd_of { g with unfold := y } hgq (State.mat_setMat_same t n _)
    exact ⟨_, exec_munfExecute rfl hh hc, (State.matEnd_mem ..).trans hmem, hq', hunf,
      htiles.trans hgt⟩
  · obtain ⟨hq', htiles, _, _⟩ := State.matEnd_of { g with tiles := tput g.tiles tl { mode := m } } hgq (State.mat_setMat_same t n _)
    refine ⟨_, exec_mzeroExecute rfl hh hc, (State.matEnd_mem ..).trans hmem, hq', ?_, fun o ho => ?_⟩
    · rw [htiles]
      exact tget_tput_same ..
    · rw [htiles]
      exact (tget_tput_other _ _ _ ho).trans (by rw [hgt])
  · have he := exec_mldExecute rfl hh hc
    exact ⟨fun h1 => he.trans (congrArg _ (if_pos h1)), fun h1 => he.trans (congrArg _ (if_neg (Nat.not_lt.mpr h1)))⟩
  · intro tl unf mm row0 fa ra la krec k0 fb rb lb hc
    have hcmd : e.cmd = (MulCmd.mk tl unf mm row0 fa ra la krec k0 fb rb lb).cmd := hc
    generalize hcc : MulCmd.mk tl unf mm row0 fa ra la krec k0 fb rb lb = c at hcmd
    have hadds (hs : (t.core core).splitting = false) (hi : c.Inside t n) (hg : c.Tagged t n)
        (hm : (c.tile t n).mode = .float ∨ ¬c.Misfit t n) (h : c.Clean t n) : ∃ u, exec .mmulExecute s = .next u ∧ u.mem = s.mem ∧
          (u.mat n).q = r ∧ (u.mat n).tiles = tput g.tiles c.tl (c.result t n) := by
      obtain ⟨hq', htiles, _, _⟩ := State.matEnd_of { g with tiles := tput g.tiles c.tl (c.result t n) } hgq
        (State.mat_setMat_same (t.modCtx e.ctx fun x => x) n _)
      exact ⟨_, exec_mmulExecute_adds rfl hh hcmd rfl hs hi hg hm h, (State.matEnd_mem ..).trans hmem, hq', htiles⟩
    refine ⟨exec_mmulExecute_waits rfl hh hcmd rfl, fun hs => ⟨?_, ?_, ?_, ?_, ?_⟩⟩
    all_goals subst hcc
    · exact exec_mmulExecute_prot rfl hh hcmd rfl hs
    · exact fun hi hg => exec_mmulExecute_format rfl hh hcmd rfl hs hi hg
    · intro hi hg hm hfit hclean
      obtain ⟨u, he, hmem', hq', htiles⟩ := hadds hs hi hg (.inr hfit) hclean
      refine ⟨u, he, hmem', hq', fun m j hm' hj => ?_, ?_⟩
      · rw [htiles, tget_tput_same]
        exact MulCmd.result_cell_int _ t n hj hm hm'
      · rw [htiles, tget_tput_same]
        exact MulCmd.result_q _ t n hm
    · exact fun hi hg => exec_mmulExecute_untagged rfl hh hcmd rfl hs hi hg
    · intro hi hg hm hclean
      obtain ⟨u, he, hmem', hq', htiles⟩ := hadds hs hi hg (.inl hm) hclean
      refine ⟨u, he, hmem', hq', fun m j hm' hj => ?_, fun m j hm' hj => ?_, fun o ho => ?_⟩
      · rw [htiles, tget_tput_same]
        exact MulCmd.result_cell_float _ t n hj hm hm'
      · rw [htiles, tget_tput_same]
        exact MulCmd.result_cell_beyond _ t n hj hm'
      · rw [htiles]
        exact tget_tput_other _ _ _ ho

end Sys2Proof.Machine
end

section
/-! PROOFS. Transfer engines, column controllers and sequence units at work; O54 (R250, R255-R265, R290, R364). -/

namespace Sys2Proof.Machine

section
variable {s : State} {a : Access} {x : Xfer} (hx : s.xferHead s.evk s.cur.ev.eng = some (a, x))

/-! ## Chunks (R250, R255-R258) -/

/-- A command on which its engine does not work now: it has finished, or something orders it behind another access. -/
def State.xferRests (s : State) (k : Nat) (a : Access) (x : Xfer) : Prop := x.finished = true ∨ s.mayPerform k a none = false

theorem State.xferRests_iff (s : State) (k : Nat) (a : Access) (x : Xfer) :
    (x.finished = true ∨ (!s.mayPerform k a none) = true) ↔ s.xferRests k a x := by
  unfold State.xferRests
  rw [Bool.not_eq_true']

/-- Putting the target's answer of a fill element (R258). -/
theorem State.xferElem_fill {k dst : Nat} {id : Nat} {e : Eng} (old : Bool) (hk : x.kind = .fill) (hd : x.dspc = .l)
    (he : x.elem x.next 0 = (.fill dst, false)) (hs : (s.core (k / 4)).splitting = false) {bs : List Byte}
    (hbs : bs = leBytes (elemBytes x.tf) (x.sbase % 2 ^ (if x.tf = .a56 then 56 else fmtWidth x.tf))) :
    (s.spadHas (k / 4) dst bs.length = true → ∃ y, s.xferElem k id e x old = .next (s.spadWrite (k / 4) dst bs) y ∧
      y.bytes = x.bytes + bs.length) ∧
    (s.spadHas (k / 4) dst bs.length = false → s.xferElem k id e x old = .fault s x .prot dst) := by
  subst hbs
  have hi : s.elemIndex k x x.next = .inr (s, 0, x) := by
    unfold State.elemIndex
    rw [hk]
    rfl
  generalize hbs : leBytes (elemBytes x.tf) (x.sbase % 2 ^ (if x.tf = .a56 then 56 else fmtWidth x.tf)) = bs
  refine ⟨fun h => ⟨{ x.keepOld dst [] with bytes := x.bytes + bs.length, acked := x.acked && x.dspc != .sys }, ?_, rfl⟩, fun h => ?_⟩
  all_goals
    unfold State.xferElem
    simp only [hi, he, State.putElem, State.xferWrite, hbs, hd, hs, h, Bool.not_true, Bool.not_false, Bool.false_eq_true, if_true, if_false]

include hx

theorem exec_transferChunk : exec .transferChunk s = .next (
    if x.kind = .creq ∨ x.finished = true ∨ (!s.mayPerform s.evk a none) = true then s
    else if s.mustAsk s.evk x = true then s.askChunk s.evk a x
    else if s.inTurn (engineOf s.evk) = some (s.evk, s.cur.ev.eng) then s.moveChunk s.evk a x
    else s) := by
  unfold State.evk at hx ⊢
  show execTransferChunk s = _
  unfold execTransferChunk
  simp only [hx]

/-! ## Answers (R360, R364) -/

theorem exec_systemReadResponse : exec .systemReadResponse s = .next ((s.heard (s.ctx s.evk).part x).setXfer s.evk a.id
    { x with wire := x.wire ++ s.cur.ev.bytes.take (x.asked - x.wire.length) }) := by
  unfold State.evk at hx ⊢
  show execSystemReadResponse s = _
  unfold execSystemReadResponse
  simp only [hx]

theorem exec_systemWriteAck : exec .systemWriteAck s = .next (if x.acked = true then s
    else ((s.heard (s.ctx s.evk).part x).setXfer s.evk a.id { x with acked := true }).modCtx s.evk Ctx.wake) := by
  unfold State.evk at hx ⊢
  show execSystemWriteAck s = _
  unfold execSystemWriteAck
  simp only [hx]

/-- A refused command: it ends with the fault of its target. -/
def State.refused (t : State) (k : Nat) (a : Access) (x : Xfer) : State :=
  t.stopXfer k a { x with fault := some .prot, faddr := if x.acked then x.sbase else x.dbase, acked := true, asked := 0, wire := [] }

/-- The number of the queue pair that a window of the partition of a context names. -/
def State.pairOf (s : State) (k : Nat) (w : Window) : Nat := qpKey (s.ctx k).part w.qp

theorem exec_remoteNak :
    (x.acked = true → x.asked ≤ x.wire.length → exec .remoteNak s = .next s) ∧
    (x.acked = false ∨ x.wire.length < x.asked →
      (tfind (s.partn (s.ctx s.evk).part).outbound x.key = none → exec .remoteNak s = .next (s.refused s.evk a x)) ∧
      ∀ w, tfind (s.partn (s.ctx s.evk).part).outbound x.key = some w →
        (s.cur.ev.flag = true → (tget {} s.qps (s.pairOf s.evk w)).retries < 7 →
          exec .remoteNak s = .next (s.modQp (s.pairOf s.evk w) fun p => { p with retries := p.retries + 1 })) ∧
        (s.cur.ev.flag = false ∨ 7 ≤ (tget {} s.qps (s.pairOf s.evk w)).retries → exec .remoteNak s =
          .next (((s.modQp (s.pairOf s.evk w) fun p => { p with error := true }).send (.qpError (s.ctx s.evk).part w.qp)).refused
            s.evk a x))) := by
  unfold State.evk at hx ⊢
  rw [show exec .remoteNak s = execRemoteNak s from rfl]
  unfold execRemoteNak
  simp only [hx]
  refine ⟨fun h1 h2 => congrArg _ (if_pos (by simp [h1, h2])), fun h => ?_⟩
  have hgo : ¬((x.acked && decide (x.asked ≤ x.wire.length)) = true) := by
    rcases h with h | h <;> simp [h]
  rw [if_neg hgo]
  refine ⟨fun hw => ?_, fun w hw => ⟨fun h1 h2 => ?_, fun h1 => ?_⟩⟩
  · rw [hw]
    rfl
  · rw [hw]
    exact congrArg _ (if_pos (by rw [h1, Bool.true_and]; exact decide_eq_true h2))
  · rw [hw]
    refine congrArg _ (if_neg fun hn => ?_)
    rw [Bool.and_eq_true, decide_eq_true_eq] at hn
    rcases h1 with h1 | h1
    · rw [h1] at hn
      exact Bool.false_ne_true hn.1
    · exact absurd hn.2 (Nat.not_lt.mpr h1)

/-! ## Column reduces (R260) -/

theorem exec_creqExecute :
    (x.kind ≠ .creq ∨ s.xferRests s.evk a x ∨ (x.moved = false ∧ ((s.col x.col).retr = true ∨
      s.inTurn (engineOf s.evk) ≠ some (s.evk, s.cur.ev.eng))) → exec .creqExecute s = .next s) ∧
    (x.kind = .creq → ¬s.xferRests s.evk a x → x.moved = false → (s.col x.col).retr = false →
      s.inTurn (engineOf s.evk) = some (s.evk, s.cur.ev.eng) →
      ∀ t y sum, s.creqRows s.evk x (List.replicate x.dim 0) ((List.range x.rows.length).zip x.rows) = .inr (t, y, sum) →
        exec .creqExecute s = .next ((((t.creqWrites s.evk a.id a.eng { y with moved := true, wire := creqBytes x.tf sum }
          (lineParts x.dbase (x.dim * elemBytes x.tf))).1.stopXfer s.evk a (t.creqWrites s.evk a.id a.eng
            { y with moved := true, wire := creqBytes x.tf sum } (lineParts x.dbase (x.dim * elemBytes x.tf))).2).served s.evk a.eng))) := by
  have hrest := s.xferRests_iff s.evk a x
  unfold State.evk at hx hrest ⊢
  rw [show exec .creqExecute s = execCreqExecute s from rfl]
  unfold execCreqExecute
  simp only [hx]
  refine ⟨fun h => congrArg _ (if_pos ?_), fun hk hs hm hr ht t y sum hrows => congrArg _ ((if_neg ?_).trans ?_)⟩
  · rcases h with h | h | h
    · exact .inl h
    · exact .inr ((or_assoc.mp (.inl (hrest.mpr h))))
    · exact .inr (.inr (.inr (by simpa using h)))
  · rintro (h | h | h | h)
    · exact h hk
    · exact hs (hrest.mp (.inl h))
    · exact hs (hrest.mp (.inr h))
    · simp [hm, hr, ht] at h
  · rw [hm, if_neg Bool.false_ne_true, hrows]

end

end Sys2Proof.Machine
end

section
/-! PROOFS. The end of a transfer command: its record, its tag and its arrival; attentions; O54 (R261-R265, R290, R291). -/

namespace Sys2Proof.Machine

section
variable {s : State} {a : Access} {x : Xfer} (hx : s.xferHead s.evk s.cur.ev.eng = some (a, x))

/-! ## Records (R263, R265) -/

/-- The four words of the ring control block of a command. -/
def State.ringWords (s : State) (x : Xfer) : Nat := leNat (s.spadClean s.cur.ev.core x.ringcb 16)

/-- The ring of a command holds as many records as it has places. -/
def State.RingFull (s : State) (x : Xfer) : Prop :=
  2 ^ bits (s.ringWords x) 35 32 ≤ (bits (s.ringWords x) 127 96 + 2 ^ 32 - bits (s.ringWords x) 95 64) % 2 ^ 32

theorem State.ringFull_iff (s : State) (x : Xfer) : s.ringFull s.cur.ev.core x = true ↔ s.RingFull x := by
  unfold State.ringFull State.RingFull
  exact decide_eq_true_iff

/-- Where the next record of a command goes. -/
def State.recordPlace (s : State) (x : Xfer) : Nat :=
  bits (s.ringWords x) 31 0 + bits (s.ringWords x) 127 96 % 2 ^ bits (s.ringWords x) 35 32 * 32

/-- The command at the head of a queue is to have its record written now. -/
def State.Records (s : State) (x : Xfer) : Prop :=
  x.closes = true ∧ x.ren = true ∧ x.drop = false ∧ x.wrote = false ∧ (s.core s.cur.ev.core).splitting = false

theorem State.not_records_iff (s : State) (x : Xfer) :
    ((!x.closes) = true ∨ (!x.ren) = true ∨ x.drop = true ∨ x.wrote = true ∨ (s.core s.cur.ev.core).splitting = true) ↔
      ¬s.Records x := by
  unfold State.Records
  cases x.closes <;> cases x.ren <;> cases x.drop <;> cases x.wrote <;> cases (s.core s.cur.ev.core).splitting <;> decide

/-- The command at the head of a queue comes to its end. -/
def Xfer.Ends (x : Xfer) : Prop := x.closes = true ∧ (x.ren = true → x.drop = true ∨ x.wrote = true)

theorem Xfer.not_ends_iff (x : Xfer) :
    ((!x.closes) = true ∨ (x.ren = true ∧ (!x.drop) = true ∧ (!x.wrote) = true)) ↔ ¬x.Ends := by
  unfold Xfer.Ends
  cases x.closes <;> cases x.ren <;> cases x.drop <;> cases x.wrote <;> decide

include hx

theorem exec_recordWrite_rests (h : ¬s.Records x) : exec .completionRecordWrite s = .next s := by
  rw [← State.not_records_iff] at h
  unfold State.evk at hx
  rw [show exec .completionRecordWrite s = execCompletionRecordWrite s from rfl]
  unfold execCompletionRecordWrite
  simp only [hx]
  exact congrArg _ (if_pos h)

variable (h : s.Records x)
include h

theorem exec_recordWrite_outside (hs : s.spadHas s.cur.ev.core x.ringcb 16 = false) :
    exec .completionRecordWrite s = .next (s.recordLost s.evk a x .prot) := by
  have hn := (not_congr (State.not_records_iff s x)).mpr (not_not.mpr h)
  unfold State.evk at hx ⊢
  rw [show exec .completionRecordWrite s = execCompletionRecordWrite s from rfl]
  unfold execCompletionRecordWrite
  simp only [hx]
  exact congrArg _ ((if_neg hn).trans (if_pos (by rw [hs]; rfl)))

variable (hs : s.spadHas s.cur.ev.core x.ringcb 16 = true)
include hs

theorem exec_recordWrite_full (hb : x.pol = false ∨ s.badWords s.cur.ev.core x.ringcb 16 = []) (hf : s.RingFull x) (hw : x.wait = none) :
    exec .completionRecordWrite s = .next (s.setXfer s.evk a.id { x with wait := some s.clock }) := by
  have hn := (not_congr (State.not_records_iff s x)).mpr (not_not.mpr h)
  unfold State.evk at hx ⊢
  rw [show exec .completionRecordWrite s = execCompletionRecordWrite s from rfl]
  unfold execCompletionRecordWrite
  simp only [hx, hw]
  refine congrArg _ ((if_neg hn).trans ((if_neg (by rw [hs]; decide)).trans ((if_neg ?_).trans (if_pos ((s.ringFull_iff x).mpr hf)))))
  rintro ⟨h1, h2⟩
  rcases hb with hb | hb
  · rw [hb] at h2
    cases h2
  · rw [hb] at h1
    exact h1 rfl

theorem exec_recordWrite_writes (hb : s.badWords s.cur.ev.core x.ringcb 16 = []) (hf : ¬s.RingFull x)
    (hp : s.spadHas s.cur.ev.core (s.recordPlace x) 32 = true) : exec .completionRecordWrite s =
      .next (((s.spadWrite s.cur.ev.core (s.recordPlace x) (x.record a.eng)).spadWrite s.cur.ev.core (x.ringcb + 12)
        (leBytes 4 ((bits (s.ringWords x) 127 96 + 1) % 2 ^ 32))).setXfer s.evk a.id { x with wrote := true, wait := none }) := by
  have hn := (not_congr (State.not_records_iff s x)).mpr (not_not.mpr h)
  unfold State.evk at hx ⊢
  rw [show exec .completionRecordWrite s = execCompletionRecordWrite s from rfl]
  unfold execCompletionRecordWrite
  simp only [hx, hb, List.map_nil]
  refine congrArg _ ((if_neg hn).trans ((if_neg (by rw [hs]; decide)).trans ((if_neg fun h1 => h1.1 rfl).trans
    ((if_neg (mt (s.ringFull_iff x).mp hf)).trans ((if_neg ?_).trans rfl)))))
  exact fun h1 => Bool.false_ne_true (((Bool.not_eq_true' _).mp h1).symm.trans hp)

end

/-! ## Arrivals (R183, R261, R264) -/

section
variable {s : State} {a : Access} {x : Xfer}

/-- The machine with the tag of a command set, where it names one. -/
def State.tagged (s : State) (x : Xfer) : State := if x.ten then s.setTag s.cur.ev.core x.tag else s

theorem State.tagged_held (s : State) (x : Xfer) : (s.tagged x).held = s.held := by
  unfold State.tagged
  split <;> rfl

theorem State.tagged_ctx (s : State) (x : Xfer) (k : Nat) : (s.tagged x).ctx k = s.ctx k := by
  unfold State.tagged
  split <;> rfl

theorem State.tagged_lineHeld (s : State) (x : Xfer) (k pa : Nat) : (s.tagged x).lineHeld k pa = s.lineHeld k pa := by
  unfold State.lineHeld
  rw [State.tagged_held]

section
variable {k id pa va : Nat} {e : Eng} {err : Bool}

theorem State.xferArrive_held (h : s.lineHeld k pa = true) : s.xferArrive k id e (some pa) va err = (none, s) := by
  unfold State.xferArrive
  dsimp only
  rw [if_pos h]

theorem State.xferArrive_arrives {u : State} (h : s.lineHeld k pa = false) (hu : s.reserveLine (s.ctx k).part pa = some u) :
    s.xferArrive k id e (some pa) va err =
      (some (((u.dropWait (s.ctx k).part pa (some (k, e)) id).endHold k (pa / 128)).barArrive pa err), s) := by
  unfold State.xferArrive
  dsimp only
  rw [if_neg (by rw [h]; decide), hu]

end

variable (hx : s.xferHead s.evk s.cur.ev.eng = some (a, x))
include hx

theorem exec_transferCompletion_rests (h : ¬x.Ends) : exec .transferCompletion s = .next s := by
  rw [← Xfer.not_ends_iff] at h
  unfold State.evk at hx
  rw [show exec .transferCompletion s = execTransferCompletion s from rfl]
  unfold execTransferCompletion
  simp only [hx]
  exact congrArg _ (if_pos h)

/-- A command that ends: with its arrival made, or behind the line or the headroom of its barrier. -/
theorem exec_transferCompletion (h : x.Ends) :
    (∀ t u, (s.tagged x).xferArrive s.evk a.id a.eng x.bar x.barVa x.errArrival = (some t, u) →
      exec .transferCompletion s = .next (t.finishAccess s.evk a.id a.eng)) ∧
    ∀ u, (s.tagged x).xferArrive s.evk a.id a.eng x.bar x.barVa x.errArrival = (none, u) →
      exec .transferCompletion s = .next (u.setXfer s.evk a.id { x with ten := false }) := by
  have hn := (not_congr (Xfer.not_ends_iff x)).mpr (not_not.mpr h)
  unfold State.evk State.tagged at *
  rw [show exec .transferCompletion s = execTransferCompletion s from rfl]
  unfold execTransferCompletion
  simp only [hx]
  refine ⟨fun t u hu => congrArg _ ((if_neg hn).trans ?_), fun u hu => congrArg _ ((if_neg hn).trans ?_)⟩
  · rw [hu]
  · rw [hu]

theorem exec_ringWaitTimeout {t : Nat} (hw : x.wait = some t) (hwrote : x.wrote = false) :
    (s.clock < t + 400000 ∨ ¬s.RingFull x → exec .ringWaitTimeout s = .next s) ∧
    (t + 400000 ≤ s.clock → s.RingFull x → ∀ u, (s.tagged x).errorArrive s.evk a.id a.eng x = u →
      exec .ringWaitTimeout s = .next ((u.setXfer s.evk a.id
        { x with wrote := true, around := true, ten := false, bar := none, wait := none }).raiseAt s.evk a.eng
          ((u.ctx s.evk).eng a.eng).pc .qfault 0 x.seq)) := by
  have hfull := s.ringFull_iff x
  unfold State.evk State.tagged at *
  rw [show exec .ringWaitTimeout s = execRingWaitTimeout s from rfl]
  unfold execRingWaitTimeout
  simp only [hx, hw]
  refine ⟨fun h => congrArg _ (if_pos ?_), fun h1 h2 u hu => congrArg _ ((if_neg ?_).trans ?_)⟩
  · rcases h with h | h
    · exact .inl h
    · exact .inr (.inr (by rw [Bool.not_eq_true', ← Bool.not_eq_true]; exact mt hfull.mp h))
  · rintro (h | h | h)
    · exact absurd h (Nat.not_lt.mpr h1)
    · rw [hwrote] at h
      cases h
    · rw [Bool.not_eq_true', hfull.mpr h2] at h
      cases h
  · rw [hu]
    have hpc : (((u.setXfer (ctxKey s.cur.ev.core s.cur.ev.ctx) a.id
        { x with wrote := true, around := true, ten := false, bar := none, wait := none }).ctx
          (ctxKey s.cur.ev.core s.cur.ev.ctx)).eng a.eng).pc = ((u.ctx (ctxKey s.cur.ev.core s.cur.ev.ctx)).eng a.eng).pc := by
      unfold State.setXfer
      rw [State.ctx_modCtx_same]
      rfl
    rw [hpc]

end

theorem State.errorArrive_none {s : State} {k id : Nat} {e : Eng} {x : Xfer} (h : x.bar = none) : s.errorArrive k id e x = s := by
  unfold State.errorArrive State.xferArrive
  simp only [h]

theorem State.errorArrive_arrives {s u : State} {k id pa : Nat} {e : Eng} {x : Xfer} (hb : x.bar = some pa)
    (h : s.lineHeld k pa = false) (hu : s.reserveLine (s.ctx k).part pa = some u) : s.errorArrive k id e x =
      ((u.dropWait (s.ctx k).part pa (some (k, e)) id).endHold k (pa / 128)).barArrive pa true := by
  unfold State.errorArrive
  simp only [hb, State.xferArrive_arrives h hu]

/-! ## Attentions (R290, R291) -/

/-- The machine with the tag of an attention set, where it names one. -/
def State.attnTagged (t : State) (e : Attn) : State := if e.ten then t.setTag e.core e.tag else t

theorem exec_sqattnExecute {s : State} {e : Attn} {n : Nat} (hn : s.cur.ev.a = n) (he : s.attns[n]? = some e)
    (hs : (s.core e.core).splitting = false) {q : Seq} (hq : q = { s.seq e.scb with len := e.len }) {d : AttnDesc}
    (hd : d = attnDesc e.desc) {bs : List Byte}
    (hbs : bs = s.attnResult q d ((List.range d.d).map fun i => leNat ((e.query.drop (4 * i)).take 4)) e.status false)
    (hp : e.live = true → s.attnPoison q d = []) (hh : s.spadHas e.core d.dest bs.length = true) :
    exec .sqattnExecute s = .next (((s.spadWrite e.core d.dest bs).attnTagged e).endAttn n e) := by
  have hbad : (if e.live then s.attnPoison q d else []) = [] := by
    split
    · next h => exact hp h
    · rfl
  subst hn hq hd hbs
  rw [show exec .sqattnExecute s = execSqattnExecute s from rfl]
  unfold execSqattnExecute State.attnTagged
  simp only [he, hs, hbad, State.attnReport, bne_self_eq_false, Bool.and_false, Bool.false_eq_true, if_false, if_true, hh]
  cases e.ten <;> rfl

theorem State.spadWrite_clock (s : State) (core a : Nat) (bs : List Byte) : (s.spadWrite core a bs).clock = s.clock := by
  unfold State.spadWrite State.coverFwd
  split <;> rfl

/-- A tag set at a given clock. -/
theorem State.setTag_of_clock {t : State} {n : Nat} (h : t.clock = n) (core tag : Nat) : t.setTag core tag = t.modCore core fun c =>
    { c with tagmap := c.tagmap ||| (1#64 <<< tag), tagSet := (n, (if c.tagSet.1 = n then c.tagSet.2 else 0) ||| (1#64 <<< tag)) } := by
  subst h
  rfl

/-- A command that keeps where its chunk is to stop, while it has not come there. -/
def Xfer.withCend (y : Xfer) (stop : Nat) : Xfer := { y with cend := if y.next < stop then some stop else none }

/-- A chunk moves up to where it was to stop, and the command keeps where that is while it has not come there. -/
theorem State.moveChunk_of_xferElems {s t : State} {k stop : Nat} {a : Access} {x y : Xfer}
    (hstop : stop = x.cend.getD (min x.total (x.next + x.chunk)))
    (h : s.xferElems k a.id a.eng x s.cur.pick (stop - x.next) = (t, y)) :
    s.moveChunk k a x = (t.stopXfer k a { y with cend := if y.next < stop then some stop else none }).served k a.eng := by
  subst hstop
  exact congrArg (fun r : State × Xfer => (r.1.stopXfer k a (r.2.withCend
    (x.cend.getD (min x.total (x.next + x.chunk))))).served k a.eng) h

/-- Settles O54, event by event. -/
theorem transfersAtWork : Obligations.TransfersAtWork := by
  intro s v k setTag
  refine ⟨fun a x hx => ?_, ?_⟩
  swap
  · intro e he hs d q query bs tagged hp hh
    refine (exec_sqattnExecute rfl he hs rfl rfl rfl hp hh).trans (congrArg (fun u : State => Host.Outcome.next (u.endAttn v.a e)) ?_)
    exact congrArg (fun u => if e.ten then u else s.spadWrite e.core d.dest bs)
      (State.setTag_of_clock (State.spadWrite_clock s e.core d.dest bs) e.core e.tag)
  intro put stops turn tagged part modQp heard refused
  have hch := exec_transferChunk hx
  have hrest : _ ↔ stops := s.xferRests_iff k a x
  have hgo (hk : x.kind ≠ .creq) (hst : ¬stops) : ¬(x.kind = .creq ∨ x.finished = true ∨ (!s.mayPerform k a none) = true) := by
    rintro (h | h)
    · exact hk h
    · exact hst (hrest.mp h)
  refine ⟨fun h => hch.trans (congrArg _ (if_pos (h.imp_right hrest.mpr))),
    fun hk hst hm => hch.trans (congrArg _ ((if_neg (hgo hk hst)).trans (if_pos hm))),
    fun hk hst hm ht => hch.trans (congrArg _ ((if_neg (hgo hk hst)).trans ((if_neg fun h => Bool.false_ne_true (hm.symm.trans h)).trans (if_neg ht)))),
    fun t y hk hst hm ht hel => hch.trans (congrArg _ ((if_neg (hgo hk hst)).trans ((if_neg fun h => Bool.false_ne_true (hm.symm.trans h)).trans
      ((if_pos ht).trans ?_)))), fun dst old hk hd he hs => State.xferElem_fill old hk hd he hs rfl,
    exec_systemReadResponse hx, fun h => (exec_systemWriteAck hx).trans (congrArg _ (if_pos h)),
    fun h => (exec_systemWriteAck hx).trans (congrArg _ (if_neg (by rw [h]; decide))), (exec_remoteNak hx).1, (exec_remoteNak hx).2,
    (exec_creqExecute hx).2, (exec_creqExecute hx).1, ?_, ?_, ?_⟩
  · exact State.moveChunk_of_xferElems rfl hel
  · exact ⟨exec_recordWrite_rests hx, fun h hs hb hf hw => exec_recordWrite_full hx h hs hb hf hw,
      fun h hs hb hf hp => exec_recordWrite_writes hx h hs hb (Nat.not_le.mpr hf) hp, fun h hs => exec_recordWrite_outside hx h hs⟩
  · refine ⟨exec_transferCompletion_rests hx, fun h hb => ?_, fun pa h hb hl => ?_, fun pa u h hb hl hu => ?_⟩
    · exact (exec_transferCompletion hx h).1 tagged tagged (by rw [hb]; rfl)
    · refine (exec_transferCompletion hx h).2 tagged ?_
      rw [hb]
      exact State.xferArrive_held ((State.tagged_lineHeld s x k pa).trans hl)
    · refine (exec_transferCompletion hx h).1 _ tagged ?_
      rw [hb]
      have hctx : tagged.ctx k = s.ctx k := State.tagged_ctx s x k
      have harr := State.xferArrive_arrives (s := tagged) (id := a.id) (e := a.eng) (va := x.barVa) (err := x.errArrival)
        ((State.tagged_lineHeld s x k pa).trans hl) (by rw [hctx]; exact hu)
      rwa [hctx] at harr
  · intro t hw hwrote
    obtain ⟨h1, h2⟩ := exec_ringWaitTimeout hx hw hwrote
    refine ⟨h1, fun hc hf hb => h2 hc hf _ (State.errorArrive_none hb), fun pa u hc hf hb hl hu => ?_⟩
    refine h2 hc hf _ ?_
    have hctx : tagged.ctx k = s.ctx k := State.tagged_ctx s x k
    have harr := State.errorArrive_arrives (s := tagged) (id := a.id) (e := a.eng) hb
      ((State.tagged_lineHeld s x k pa).trans hl) (by rw [hctx]; exact hu)
    rwa [hctx] at harr

end Sys2Proof.Machine
end

section
/-! PROOFS. The start, the commit and the traps of tasks, and walkers; O55 (R21-R23, R122, R129, R334, R339). -/

namespace Sys2Proof.Machine

/-! ## The start of a task -/

/-- The engine of a task as it begins. -/
theorem Region.eng_startCtx (r : Region) (n taskid : Nat) (q : QItem) (e : Eng) : (r.startCtx n taskid q).eng e =
    startEngine (r.stage n).entry (r.slotVa n q.slot) (r.stage n).itemBytes n r.dataVa := by
  cases e <;> rfl

theorem startEngine_rx_high {entry va bytes n dva : Nat} {x : Reg} (h : 4 < x.toNat) : (startEngine entry va bytes n dva).rx x = 0 := by
  have hne (i : Nat) (hi : i ≤ 4) : i ≠ x.toNat := by omega
  unfold startEngine Engine.rx
  simp [tget, hne 1, hne 2, hne 3, hne 4]

section
variable (s : State) (k id n : Nat) (q : QItem)

theorem State.ctx_startTask_same : (s.startTask k id n q).ctx k = (s.region id).startCtx n s.nextTask q := tget_tput_same ..

theorem State.ctx_startTask_other {m : Nat} (h : m ≠ k) : (s.startTask k id n q).ctx m = s.ctx m := tget_tput_other _ _ _ h

theorem State.queue_startTask : ((s.startTask k id n q).region id).queue n =
    ((s.region id).queue n).map fun i => if i.slot = q.slot then { i with st := .running k } else i := by
  show tget [] (State.region _ id).queues n = _
  rw [show (s.startTask k id n q).region id = (s.region id).setQueue n _ from tget_tput_same ..]
  exact tget_tput_same ..

end

section
variable {s : State} {k : Nat} (hk : ctxKey s.cur.ev.core s.cur.ev.ctx = k)
include hk

theorem exec_taskStart {id n : Nat} {q : QItem} (hf : s.startFor k s.cur.pick = some (id, n))
    (hq : oldestItem ((s.region id).queue n) = some q) (hi : (s.ctx k).st = .idle) (hl : (s.region id).live = true)
    (ha : (s.region id).aborting = false) (hp : s.preempted (s.region id).part = false) (hr : (s.region id).resumes n = false) :
    exec .taskStart s = .next (s.startTask k id n q) := by
  subst hk
  rw [show exec .taskStart s = execTaskStart s from rfl]
  unfold execTaskStart
  simp only [hf, hq, hi, hl, ha, hp, hr]
  rfl

theorem exec_taskStart_busy (h : (s.ctx k).st ≠ .idle) : exec .taskStart s = .next s := by
  subst hk
  rw [show exec .taskStart s = execTaskStart s from rfl]
  unfold execTaskStart
  refine congrArg _ ?_
  dsimp only
  split
  · rfl
  · split
    · rfl
    · exact if_pos (Or.inl h)

end

/-! ## The end of a task -/

theorem State.forget_ctxs (s : State) (k : Nat) : (s.forget k).ctxs = s.ctxs := rfl

theorem State.ctx_vacate (s : State) (k m : Nat) : (s.vacate k).ctx m = if m = k then {} else s.ctx m := by
  unfold State.vacate
  rw [State.ctx_of_ctxs (State.settleReserved_ctxs _), State.ctx_setCtx]
  rfl

theorem State.ctx_vacate_same (s : State) (k : Nat) : (s.vacate k).ctx k = {} := (s.ctx_vacate k k).trans (if_pos rfl)

theorem State.ctx_vacate_other (s : State) {k m : Nat} (h : m ≠ k) : (s.vacate k).ctx m = s.ctx m := (s.ctx_vacate k m).trans (if_neg h)

/-- The queues of a region and its count of tasks. -/
def Region.work (r : Region) : Tab (List QItem) × Nat := (r.queues, r.tasks)

theorem Region.release_work (r : Region) (c : Ctx) : (r.release c).work = r.work := by
  unfold Region.release
  have hback (l : List Nat) (g : Region) :=
    foldl_keeps Region.work (fun (r : Region) (n : Nat) => (rfl : Region.work { r with listRes := tmod 0 r.listRes n (· - 1) } = r.work)) l g
  exact (hback _ _).trans ((hback _ _).trans
    (foldl_keeps Region.work (fun (r : Region) (p : Push) => (rfl : Region.work { r with reserved := tmod 0 r.reserved p.stage (· - 1) } = r.work)) _ _))

/-- The list items that a task appended, at the ends of their lists. -/
def Region.listItems (r : Region) (l : List (Nat × Word56)) : Region :=
  l.foldl (fun (r : Region) p => { r with lists := tmod [] r.lists p.1 (· ++ [p.2]) }) r

theorem Region.listItems_work (r : Region) (l : List (Nat × Word56)) : (r.listItems l).work = r.work :=
  foldl_keeps Region.work (fun (r : Region) (p : Nat × Word56) =>
    (rfl : Region.work { r with lists := tmod [] r.lists p.1 (· ++ [p.2]) } = r.work)) l r

theorem Region.commitTask_work (r : Region) (c : Ctx) : (((r.release c).listItems c.apps)).work = r.work :=
  (Region.listItems_work _ _).trans (r.release_work c)

theorem Region.commitTask_tasks (r : Region) (c : Ctx) : (r.commitTask c).tasks = r.tasks + 1 :=
  congrArg (fun w : Tab (List QItem) × Nat => w.2 + 1) (r.commitTask_work c)

theorem Region.commitTask_queue (r : Region) (c : Ctx) :
    (r.commitTask c).queue c.stage = (r.queue c.stage).filter fun q => q.slot ∉ c.item.slot :: c.pops.map (·.slot) := by
  have hq : ((r.release c).listItems c.apps).queue c.stage = r.queue c.stage :=
    congrArg (fun w : Tab (List QItem) × Nat => tget [] w.1 c.stage) (r.commitTask_work c)
  rw [show (r.commitTask c).queue c.stage = (((r.release c).listItems c.apps).queue c.stage).filter fun q => !c.slotsHeld.contains q.slot
    from tget_tput_same .., hq]
  exact List.filter_congr fun q _ => by rw [Bool.eq_iff_iff]; simp [Ctx.slotsHeld]

section
variable {s : State} {k : Nat} (hk : ctxKey s.cur.ev.core s.cur.ev.ctx = k)
include hk

/-- An event of a context at its `tend`. -/
theorem exec_taskCommit_run (hr : (s.ctx k).st = .run) (ht : (s.ctx k).atTend = true) (ha : (s.region (s.ctx k).regid).aborting = false) :
    (∀ d, s.deferred k (fun _ => true) = some d → exec .taskCommit s = .next (s.raiseDeferred k d)) ∧
    (s.deferred k (fun _ => true) = none → s.commandsDone k = false → exec .taskCommit s = .next s) ∧
    ∀ l, s.deferred k (fun _ => true) = none → s.commandsDone k = true → (s.settle k (s.ctx k).taskid).commitSlices k = l →
      exec .taskCommit s = .next ((s.commitBegin k).commitStep k s.cur.ev.a l) := by
  subst hk
  rw [show exec .taskCommit s = execTaskCommit s from rfl]
  unfold execTaskCommit
  refine ⟨fun d hd => ?_, fun hd hc => ?_, fun l hd hc hl => ?_⟩
  · simp only [hr, ht, ha, hd]
    rfl
  · simp only [hr, ht, ha, hd, hc]
    rfl
  · have hst : ((s.commitBegin (ctxKey s.cur.ev.core s.cur.ev.ctx)).ctx (ctxKey s.cur.ev.core s.cur.ev.ctx)).st = .commit l := by
      unfold State.commitBegin
      rw [State.ctx_modCtx_same, hl]
    simp only [hr, ht, ha, hd, hc, hst]
    rfl

theorem exec_taskCommit_early (hr : (s.ctx k).st = .run) (ht : (s.ctx k).atTend = false) : exec .taskCommit s = .next s := by
  subst hk
  rw [show exec .taskCommit s = execTaskCommit s from rfl]
  unfold execTaskCommit
  simp only [hr, ht]
  rfl

theorem exec_taskCommit_commit {l : List Nat} (hr : (s.ctx k).st = .commit l) : exec .taskCommit s = .next (s.commitStep k s.cur.ev.a l) := by
  subst hk
  rw [show exec .taskCommit s = execTaskCommit s from rfl]
  unfold execTaskCommit
  simp only [hr]

end

/-- A commit in progress goes on at a slice that it has left and that is not busy, and waits otherwise. -/
theorem State.commitStep_slice (s : State) (k slice : Nat) {l : List Nat} (hl : l ≠ []) :
    (slice ∉ l ∨ s.sliceBusy k slice = true → s.commitStep k slice l = s) ∧
    (slice ∈ l → s.sliceBusy k slice = false → s.commitStep k slice l =
      (s.commitSlice k slice).modCtx k fun x => { x with st := .commit (l.filter (· ≠ slice)) }) := by
  unfold State.commitStep
  rw [if_neg hl]
  refine ⟨fun h => if_pos (by simpa using h), fun hm hb => (if_neg (by simp [hm, hb])).trans ?_⟩
  exact congrArg (fun m => (s.commitSlice k slice).modCtx k fun x => { x with st := .commit m })
    (List.filter_congr fun q _ => by rw [Bool.eq_iff_iff]; simp)

theorem State.commitStep_end {s t : State} {k slice : Nat} (h : s.publishItems (s.ctx k).regid (s.ctx k).pushes = .ok t) :
    s.commitStep k slice [] = (((s.ctx k).claims.foldl (fun u x => u.actClaim (s.ctx k).regid x)
      (t.modRegion (s.ctx k).regid fun g => g.commitTask (s.ctx k))).vacate k) := by
  unfold State.commitStep State.commitEnd
  simp only [h, if_true]

/-! ## Traps -/

section
variable {s : State} {k : Nat} (hk : ctxKey s.cur.ev.core s.cur.ev.ctx = k)
include hk

theorem exec_trapDelivery_waits (h : (s.region (s.ctx k).regid).aborting = true ∨ s.discardWaits k = true) :
    exec .trapDelivery s = .next s := by
  subst hk
  rw [show exec .trapDelivery s = execTrapDelivery s from rfl]
  unfold execTrapDelivery
  refine congrArg _ ?_
  split
  · exact if_pos (by simpa using h)
  · rfl

theorem exec_trapDelivery_none (h : (s.ctx k).st ≠ .trapped) : exec .trapDelivery s = .next s := by
  subst hk
  rw [show exec .trapDelivery s = execTrapDelivery s from rfl]
  unfold execTrapDelivery
  refine congrArg _ ?_
  split
  · next hst _ => exact (h hst).elim
  · rfl

theorem exec_trapDelivery {t : Trap} (hs : (s.ctx k).st = .trapped) (ht : (s.ctx k).trap = some t)
    (ha : (s.region (s.ctx k).regid).aborting = false) (hw : s.discardWaits k = false) :
    exec .trapDelivery s = .next (s.deliverTrap k s.cur.pick t) := by
  subst hk
  rw [show exec .trapDelivery s = execTrapDelivery s from rfl]
  unfold execTrapDelivery
  simp only [hs, ht, ha, hw]
  rfl

theorem exec_deadlockDetect (h : (s.ctx k).st = .run ∨ ∃ b, (s.ctx k).st = .saving b ∨ (s.ctx k).st = .restoring b) :
    exec .deadlockDetect s = .next (if s.allDeadly k ∧ 64 ≤ (s.ctx k).dead ∧ s.goesOn k = false
      then s.raiseAt k .x ((s.ctx k).eng .x).pc .qfault else s) := by
  subst hk
  rw [show exec .deadlockDetect s = execDeadlockDetect s from rfl]
  unfold execDeadlockDetect
  rcases h with h | ⟨b, h | h⟩ <;> simp [h, and_assoc]

end

section
variable {s : State} {id pick : Nat}

theorem State.publishTrap_none (h : ∀ t ∈ (s.region id).traps, t.queued = true) : s.publishTrap id pick = s := by
  have hf : (s.region id).traps.find? (fun t => !t.queued) = none := List.find?_eq_none.mpr fun t ht => by rw [h t ht]; decide
  unfold State.publishTrap
  simp only [hf]

variable {t : Unanswered} (ht : (s.region id).traps.find? (fun x => !x.queued) = some t)
include ht

theorem State.publishTrap_full (h : ((s.region id).stage ((s.region id).domain.toNat / 4096)).depth ≤
    (s.region id).occupancy ((s.region id).domain.toNat / 4096)) : s.publishTrap id pick = s := by
  unfold State.publishTrap
  simp only [ht]
  exact if_pos h

theorem State.publishTrap_noSlot (h : choose (s.openSlots id ((s.region id).domain.toNat / 4096)) pick = none) :
    s.publishTrap id pick = s := by
  unfold State.publishTrap
  simp only [ht, h]
  exact ite_self _

theorem State.publishTrap_publishes {n hd : Nat} {u : State} (hh : (s.region id).domain.toNat / 4096 = hd)
    (hr : (s.region id).occupancy hd < ((s.region id).stage hd).depth) (hn : choose (s.openSlots id hd) pick = some n)
    (hu : s.publishItems id [{ stage := hd, slot := n, data := t.record ++ List.replicate (((s.region id).stage hd).itemBytes - 64) 0 }]
      = .ok u) :
    s.publishTrap id pick = u.modRegion id fun y =>
      { y with traps := y.traps.map fun x => if x.trapid = t.trapid then { x with queued := true } else x } := by
  subst hh
  unfold State.publishTrap
  simp only [ht, hn, hu]
  exact if_neg (Nat.not_le.mpr hr)

end

/-! ## Walkers -/

theorem exec_pageWalk {s : State} {n i : Nat} {m : Miss} (hn : s.cur.ev.a = n)
    (hm : choose (((tget [] s.miss n).take 64).zipIdx) s.cur.pick = some (m, i)) {u : State}
    (hu : u = (s.walkReads m.part m.asid (8192 * m.page) s.cur.pick).foldl State.l2Fill
      { s with miss := tput s.miss n ((tget [] s.miss n).eraseIdx i) }) :
    (s.walk m.part m.asid (8192 * m.page) s.cur.pick = none → exec .pageWalk s = .next (m.reqs.foldl State.failReq u)) ∧
    ∀ e, s.walk m.part m.asid (8192 * m.page) s.cur.pick = some e → exec .pageWalk s =
      .next (m.reqs.foldl (fun x q => x.modCtx q.ctx Ctx.wake) ((m.reqs.map (·.ctx / 4)).eraseDups.foldl (fun x n => x.fillTlb n e) u)) := by
  subst hn hu
  rw [show exec .pageWalk s = execPageWalk s from rfl]
  unfold execPageWalk
  refine ⟨fun h => ?_, fun e h => ?_⟩
  · simp only [hm, h]
  · simp only [hm, h]

/-- Settles O55, event by event. -/
theorem tasksRunAndEnd : Obligations.TasksRunAndEnd := by
  intro s v k c r
  refine ⟨fun id n q hf hq hi hl ha hp hr => ?_, exec_taskStart_busy rfl, fun hr ht ha => ?_, exec_taskCommit_early rfl,
    fun l hl hne => ?_, fun t hc hp => (exec_taskCommit_commit rfl hc).trans (congrArg _ (State.commitStep_end hp)),
    ⟨r.commitTask_tasks c, r.commitTask_queue c⟩, ⟨s.ctx_vacate_same k, s.vacate_mem k, fun m => s.ctx_vacate_other⟩,
    exec_trapDelivery_waits rfl, fun t hs ht ha hw => ?_, exec_trapDelivery_none rfl, ?_, exec_deadlockDetect rfl,
    fun m i hm => exec_pageWalk rfl hm rfl⟩
  · intro g d
    have hc := s.ctx_startTask_same k id n q
    refine ⟨_, exec_taskStart rfl hf hq hi hl ha hp hr, rfl, rfl, ?_, ?_, ?_, ?_, ?_, ?_, fun m => s.ctx_startTask_other k id n q,
      fun e => ?_, s.queue_startTask k id n q⟩
    iterate 6 rw [hc]; rfl
    rw [hc, Region.eng_startCtx]
    exact ⟨rfl, rfl, rfl, rfl, rfl, rfl, rfl, fun x hx => startEngine_rx_high hx⟩
  · obtain ⟨hd, hn, hb⟩ := exec_taskCommit_run rfl hr ht ha
    refine ⟨hd, hn, ?_⟩
    intro h1 h2 w l u
    refine ⟨fun hl hs => ?_, fun hl hm hs => ?_⟩
    · exact (hb l h1 h2 rfl).trans (congrArg _ ((State.commitStep_slice u k v.a hl).1 hs))
    · exact (hb l h1 h2 rfl).trans (congrArg _ ((State.commitStep_slice u k v.a hl).2 hm hs))
  · have hstep := exec_taskCommit_commit rfl hl
    exact ⟨fun h => hstep.trans (congrArg _ ((s.commitStep_slice k v.a hne).1 h)),
      fun hm hb => hstep.trans (congrArg _ ((s.commitStep_slice k v.a hne).2 hm hb))⟩
  · intro e u handled retried
    have hdel := exec_trapDelivery rfl hs ht ha hw
    exact ⟨fun h hlt => hdel.trans (congrArg _ ((if_pos h).trans (if_neg (Nat.not_le.mpr hlt)))),
      fun h hle => hdel.trans (congrArg _ ((if_pos h).trans (if_pos hle))),
      fun h hr => hdel.trans (congrArg _ ((if_neg h).trans (if_pos hr))),
      fun h hr => hdel.trans (congrArg _ ((if_neg h).trans (if_neg hr)))⟩
  · exact ⟨fun h => congrArg _ (State.publishTrap_none h), fun t ht => ⟨fun h => congrArg _ (State.publishTrap_full ht h),
      fun h => congrArg _ (State.publishTrap_noSlot ht h), fun n u ho hn hu => congrArg _ (State.publishTrap_publishes ht rfl ho hn hu)⟩⟩

end Sys2Proof.Machine
end

section
/-! PROOFS. Pre-emption, save and restore, and the tasks that give up their contexts in an `lwait`; O56 (R319, R345-R351). -/

namespace Sys2Proof.Machine

/-- The engines that a context lists in order. -/
theorem tget_allEngs (f : Eng → Engine) (e : Eng) : tget {} (allEngs.map fun e => (engIdx e, f e)) (engIdx e) = f e := by
  cases e <;> rfl

theorem State.preempted_iff {s : State} {p : Nat} : s.preempted p = true ↔ (s.partn p).preempt ≠ none ∨ (s.partn p).swapped = true := by
  unfold State.preempted
  rw [Bool.or_eq_true, Option.isSome_iff_ne_none]

/-! ## Stopping -/

/-- The contexts of a partition's tasks asked to stop. -/
def State.askContexts (s : State) (part : Nat) : Tab Ctx := s.ctxs.map fun p =>
  if p.2.st != .idle && (s.region p.2.regid).part == part then (p.1, { p.2 with preq := true }) else p

theorem State.askContexts_preq {s : State} {part n : Nat} {d : Ctx} (hm : (n, d) ∈ s.askContexts part) (hd : d.st ≠ .idle)
    (hp : (s.region d.regid).part = part) : d.preq = true := by
  obtain ⟨p, _, he⟩ := List.mem_map.mp hm
  split at he
  · exact (congrArg (fun x : Nat × Ctx => x.2.preq) he).symm
  · next hn =>
    subst he
    exact (hn (by simp [hd, hp])).elim

theorem exec_preemptionRequest {s : State} {part : Nat} (hn : s.cur.ev.a = part) :
    (s.preempted part = true → exec .preemptionRequest s = .next s) ∧
    (s.preempted part = false → exec .preemptionRequest s = .next
      { s.modPart part fun p => { p with preempt := some { since := s.clock, acks := [], stopped := false } } with
        ctxs := s.askContexts part }) := by
  subst hn
  exact ⟨fun h => congrArg _ (if_pos h), fun h => congrArg _ (if_neg (by rw [h]; decide))⟩

section
variable (s : State) (k : Nat)

theorem State.ctx_abandonRegion_other {m : Nat} (h : m ≠ k) : (s.abandonRegion k).ctx m = s.ctx m := by
  unfold State.abandonRegion State.releaseLine
  rw [State.ctx_modCtx_other _ _ h]
  split
  · exact State.ctx_modCtx_other _ _ h
  · rfl

/-- A context past the end of its single-line region: it has none, and its engines are as they were. -/
theorem State.ctx_abandonRegion : ((s.abandonRegion k).ctx k).alr = none ∧ ((s.abandonRegion k).ctx k).engs = (s.ctx k).engs := by
  unfold State.abandonRegion
  rw [State.ctx_modCtx_same]
  unfold State.releaseLine
  split
  · rw [State.ctx_modCtx_same]
    exact ⟨rfl, rfl⟩
  · next h => exact ⟨h, rfl⟩

end

/-- A context whose save sequence begins in a pre-emption: its engines at the save label, with their registers (R348). -/
def Ctx.halted (v : Ctx) (y : YieldEnt) (base : Nat) : Ctx :=
  { v with st := .saving false, engs := allEngs.map fun e => (engIdx e, { x := (v.eng e).x, p := (v.eng e).p, pc := y.save }),
           fd := [], dn := [], bk := [], xq := [], bq := [], tokLC := [], tokCS := [], z := [], saveAt := base, saveNv := y.nv,
           saveRes := y.restore, saveVs := 0, slots := [] }

/-- A save begins in a pre-emption where its area holds it. -/
theorem State.beginSave_halt {s : State} {k : Nat} {y : YieldEnt} (h : (s.ctx k).saveHead + 128 * y.nv ≤ 40960) {u : State}
    (hu : u = s.draw.2.abandonRegion k) : s.beginSave k y false 0 =
      { u.setCtx k ((u.ctx k).halted y ((((s.ctx k).eng .x).rx 28).toNat + (s.ctx k).saveHead)) with
        saves := tput u.saves k { ctx := (u.ctx k).endYields, child := 0, core := k / 4 } } := by
  subst hu
  exact if_neg (Nat.not_lt.mpr h)

theorem Ctx.eng_halted (v : Ctx) (y : YieldEnt) (base : Nat) (e : Eng) :
    (v.halted y base).eng e = { x := (v.eng e).x, p := (v.eng e).p, pc := y.save } := tget_allEngs _ e

section
variable {s : State} {k : Nat} (hk : ctxKey s.cur.ev.core s.cur.ev.ctx = k)
include hk

theorem exec_contextHalt_idle (h : (s.ctx k).st ≠ .run ∨ (s.partn (s.region (s.ctx k).regid).part).preempt = none) :
    exec .contextHalt s = .next s := by
  subst hk
  rw [show exec .contextHalt s = execContextHalt s from rfl]
  unfold execContextHalt
  refine congrArg _ ?_
  split
  · rfl
  · refine if_neg fun hc => ?_
    obtain ⟨hr, hp, _⟩ := hc
    exact h.elim (fun hn => hn hr) fun hn => by rw [hn] at hp; cases hp

theorem exec_contextHalt {y : YieldEnt} (hy : (s.region (s.ctx k).regid).yieldAt ((s.ctx k).eng .x).pc = some y)
    (hr : (s.ctx k).st = .run) (hp : (s.partn (s.region (s.ctx k).regid).part).preempt ≠ none) (hx : (s.ctx k).xStopped = true)
    (ho : (s.ctx k).othersStopped = true) (hs : s.settledForSave k = true) :
    exec .contextHalt s = .next (s.beginSave k y false 0) := by
  subst hk
  rw [show exec .contextHalt s = execContextHalt s from rfl]
  unfold execContextHalt
  simp only [hy]
  exact congrArg _ (if_pos ⟨hr, Option.isSome_iff_ne_none.mpr hp, hx, ho, hs⟩)

/-- What an `lwait` of X comes to: it returns where its child has ended, gives up its context where the task's other work allows it, and
waits otherwise. -/
theorem exec_lwaitYield_lwait {d : Reg} {child : Nat} {y : YieldEnt} (hw : ((s.ctx k).eng .x).wait = .lwait d child)
    (hy : (s.region (s.ctx k).regid).yieldAt ((s.ctx k).eng .x).pc = some y) {r : Region} (hr : s.region (s.ctx k).regid = r) :
    exec .lwaitYield s = .next (
      if (s.ctx k).st ≠ .run then s
      else if r.childOver child then (s.modRegion (s.ctx k).regid fun _ => (r.lwaitResult child).2).endLwait k d (r.lwaitResult child).1
      else if ¬s.preempted r.part ∧ (s.ctx k).saveBad = 0 ∧ (s.ctx k).othersStopped ∧ s.settledForSave k ∧ s.commandsDone k then
        s.beginSave k y true child
      else s) := by
  subst hk hr
  rw [show exec .lwaitYield s = execLwaitYield s from rfl]
  unfold execLwaitYield
  simp only [hw, hy]

theorem exec_lwaitYield_yield (hw : ((s.ctx k).eng .x).wait = .yield) :
    exec .lwaitYield s = .next (if (s.ctx k).st = .saving true ∧ (s.ctx k).allYielded = true then s.endSave k true else s) := by
  subst hk
  rw [show exec .lwaitYield s = execLwaitYield s from rfl]
  unfold execLwaitYield State.retrySave Ctx.allYielded
  simp only [hw]
  refine congrArg _ ?_
  split
  · next h => simp only [h, true_and]
  · next h => exact (if_neg fun hc => h hc.1).symm

end

/-! ## Units, collector and swap -/

/-- A partition stands in a pre-emption that a unit at its boundary has not acknowledged. -/
def State.owesAck (s : State) (u : StopUnit) (p : Nat × Partition) : Bool :=
  match p.2.preempt with
  | some q => !q.acks.contains u && s.atBoundary p.1 u
  | none => false

theorem State.owesAck_eq_false {s : State} {u : StopUnit} {p : Nat × Partition}
    (h : ∀ q, p.2.preempt = some q → u ∈ q.acks ∨ s.atBoundary p.1 u = false) : s.owesAck u p = false := by
  unfold State.owesAck
  cases hq : p.2.preempt with
  | none => rfl
  | some q => rcases h q hq with h | h <;> simp [h]

/-- The first of some partitions told that a unit has stopped. -/
def State.ackFirst (s : State) (u : StopUnit) (l : List (Nat × Partition)) : State :=
  match l.map (·.1) with
  | [] => s
  | part :: _ => s.modPart part fun p => { p with preempt := p.preempt.map fun q => { q with acks := q.acks ++ [u] } }

section
variable {s : State} {u : StopUnit} (hu : s.cur.ev.stop = u)
include hu

theorem exec_unitStopAck_eq : exec .unitStopAck s = .next (s.ackFirst u (s.parts.filter (s.owesAck u))) := by
  subst hu
  rfl

theorem exec_unitStopAck_none (h : ∀ p ∈ s.parts, s.owesAck u p = false) : exec .unitStopAck s = .next s := by
  have hf : s.parts.filter (s.owesAck u) = [] := List.filter_eq_nil_iff.mpr fun p hp => by rw [h p hp]; decide
  rw [exec_unitStopAck_eq hu, hf]
  rfl

theorem exec_unitStopAck {p : Nat × Partition} (h : s.parts.find? (s.owesAck u) = some p) : exec .unitStopAck s =
    .next (s.modPart p.1 fun v => { v with preempt := v.preempt.map fun q => { q with acks := q.acks ++ [u] } }) := by
  obtain ⟨l, hf⟩ := List.head?_eq_some_iff.mp ((List.head?_filter ..).trans h)
  rw [exec_unitStopAck_eq hu, hf]
  rfl

end

theorem exec_collectorReport {s : State} {n : Nat} (hn : s.cur.ev.a = n) {q : Preempt} (hq : (s.partn n).preempt = some q) :
    exec .collectorReport s = .next (if q.stopped = false ∧ s.partStopped n q.acks = true
      then s.modPart n fun p => { p with preempt := some { q with stopped := true } } else s) := by
  subst hn
  rw [show exec .collectorReport s = execCollectorReport s from rfl]
  unfold execCollectorReport
  simp [hq]

section
variable {s : State} {a b : Nat} (ha : s.cur.ev.a = a) (hb : s.cur.ev.b = b)
include ha hb

theorem exec_partitionSwap_out {q : Preempt} (hq : (s.partn a).preempt = some q) (hs : q.stopped = true) :
    (a = b → exec .partitionSwap s = .next (s.swapOut a)) ∧
    (a ≠ b → exec .partitionSwap s =
      .next (if (s.swapOut a).canSwapIn b then (s.swapOut a).swapIn b else s.swapOut a)) := by
  subst ha hb
  rw [show exec .partitionSwap s = execPartitionSwap s from rfl]
  unfold execPartitionSwap
  simp only [hq, hs, if_true, Bool.true_and]
  refine ⟨fun h => congrArg _ (if_pos (by simp [h])), fun h => congrArg _ ?_⟩
  cases hc : (s.swapOut s.cur.ev.a).canSwapIn s.cur.ev.b <;> simp [h]

theorem exec_partitionSwap_in (h : ¬∃ q, (s.partn a).preempt = some q ∧ q.stopped = true) :
    exec .partitionSwap s = .next (if s.canSwapIn b then s.swapIn b else s) := by
  subst ha hb
  rw [show exec .partitionSwap s = execPartitionSwap s from rfl]
  unfold execPartitionSwap
  refine congrArg _ ?_
  split
  · next q hq =>
    have hs : q.stopped = false := Bool.eq_false_iff.mpr fun hs => h ⟨q, hq, hs⟩
    cases hc : s.canSwapIn s.cur.ev.b <;> simp [hs, hc]
  · cases hc : s.canSwapIn s.cur.ev.b <;> simp [hc]

end

/-! ## Restores -/

/-- A context as its restore sequence begins: its snapshot, at the restore label, with no queue and no stream left. -/
theorem State.beginRestore_ctx (s : State) (k : Nat) (lwait : Bool) :
    ((s.beginRestore k lwait).ctx k).st = .restoring lwait ∧ ((s.beginRestore k lwait).ctx k).preq = false ∧
    ((s.beginRestore k lwait).ctx k).queuesEmpty = true ∧ ((s.beginRestore k lwait).ctx k).taskid = (s.ctx k).taskid ∧
    ((s.beginRestore k lwait).ctx k).trap = (s.ctx k).trap ∧
    ∀ e, (((s.beginRestore k lwait).ctx k).eng e).pc = (s.ctx k).saveRes ∧ (((s.beginRestore k lwait).ctx k).eng e).blk = none := by
  have h : (s.beginRestore k lwait).ctx k = _ := tget_tput_same ..
  rw [h]
  refine ⟨rfl, rfl, rfl, rfl, rfl, fun e => ?_⟩
  cases e <;> exact ⟨rfl, rfl⟩

theorem State.beginRestore_other (s : State) (k : Nat) (lwait : Bool) {m : Nat} (h : m ≠ k) : (s.beginRestore k lwait).ctx m = s.ctx m :=
  tget_tput_other _ _ _ h

theorem exec_contextRestore {s : State} {k : Nat} (hk : ctxKey s.cur.ev.core s.cur.ev.ctx = k) :
    exec .contextRestore s = .next (if (s.ctx k).st = .saved ∧ ¬s.preempted (s.region (s.ctx k).regid).part ∧
      (s.region (s.ctx k).regid).aborting = false then s.beginRestore k false else s) := by
  subst hk
  rfl

/-- The reads of a save area change no memory and no context. -/
theorem State.areaRead_keeps {s t : State} {k part asid : Nat} {l : List (Nat × Nat × Nat)} {bs : List Byte}
    (h : s.areaRead k part asid l = .ok (t, bs)) : t.mem = s.mem ∧ t.ctxs = s.ctxs := by
  induction l generalizing s bs with
  | nil =>
    cases h
    exact ⟨rfl, rfl⟩
  | cons p l ih =>
    unfold State.areaRead at h
    split at h
    · cases h
    · next pa _ _ _ =>
      split at h
      · next hr =>
        cases h
        obtain ⟨hm, hc⟩ := ih hr
        exact ⟨hm.trans (State.l2Fill_mem ..), hc.trans (State.l2Fill_ctxs ..)⟩
      · next hne => exact (hne _ _ h).elim
    · cases h

/-- The items of a resumed task's stage run on its new context. -/
def Region.rerun (r : Region) (n k tid : Nat) (c : Ctx) : Region :=
  { r with saved := r.saved.filter fun w => w.ctx.taskid != tid,
           queues := r.queues.map fun p => (p.1, p.2.map fun i =>
             if p.1 = n ∧ c.slotsHeld.contains i.slot then { i with st := .running k } else i) }

/-- A task whose `lwait` returns, on its new context before its restore begins. -/
def State.takeSaved (s : State) (k core id n tid : Nat) (r : Region) (v : SavedTask) : State :=
  let t := (s.modRegion id fun _ => (r.lwaitResult v.child).2.rerun n k tid v.ctx)
  { t.setCtx k v.ctx with saves := tput t.saves k { v with ctx := v.ctx.returnLwait (r.lwaitResult v.child).1, core := core } }

/-- A task whose `lwait` returns begins its restore. -/
def State.resumeSaved (s : State) (k core id n tid : Nat) (r : Region) (v : SavedTask) : State :=
  (s.takeSaved k core id n tid r v).beginRestore k true

section
variable {s : State} {core k id n tid : Nat} {v : SavedTask} {r : Region} (hcore : s.cur.ev.core = core) (hk : ctxKey core s.cur.ev.ctx = k)
  (ht : s.cur.ev.a = tid) (hr : s.region id = r) (hs : (s.core core).serve = some (id, n))
  (hv : r.saved.find? (fun x => x.ctx.taskid == tid && x.done && x.ctx.stage == n) = some v)
include hcore hk ht hr hs hv

theorem exec_lwaitResume : exec .lwaitResume s = .next (
    if (s.ctx k).st ≠ .idle ∨ (s.reservedFor k).isSome ∨ (s.core core).join.isSome ∨ r.aborting ∨ s.preempted r.part then s
    else s.readSaveHead k v fun t => t.resumeSaved k core id n tid r v) := by
  subst hcore hk ht hr
  rw [show exec .lwaitResume s = execLwaitResume s from rfl]
  unfold execLwaitResume
  simp only [hs, hv]
  rfl

end

section
variable (s t : State) (k core id n tid : Nat) (r : Region) (v : SavedTask)

theorem State.takeSaved_ctx : (t.takeSaved k core id n tid r v).ctx k = v.ctx := tget_tput_same ..

theorem State.takeSaved_other {m : Nat} (h : m ≠ k) : (t.takeSaved k core id n tid r v).ctx m = t.ctx m := tget_tput_other _ _ _ h

end

theorem State.resumeSaved_mem (s : State) (k core id n tid : Nat) (r : Region) (v : SavedTask) :
    (s.resumeSaved k core id n tid r v).mem = s.mem := (State.beginRestore_mem ..).trans rfl

/-- A task is back on a context, at its restore label, and no saved task of its region any more; the other contexts are as they were. -/
def State.BackFrom (s t : State) (k id tid : Nat) (v : SavedTask) : Prop :=
  (t.ctx k).taskid = tid ∧ (∀ e, ((t.ctx k).eng e).pc = v.ctx.saveRes) ∧ (∀ m, m ≠ k → t.ctx m = s.ctx m) ∧
    ∀ y ∈ (t.region id).saved, y.ctx.taskid ≠ tid

theorem State.resumeSaved_back {s t : State} {k core id n tid : Nat} {r : Region} {v : SavedTask} (ht : t.ctxs = s.ctxs)
    (hv : v.ctx.taskid = tid) : s.BackFrom (t.resumeSaved k core id n tid r v) k id tid v ∧
      ((t.resumeSaved k core id n tid r v).ctx k).st = .restoring true ∧ ((t.resumeSaved k core id n tid r v).ctx k).trap = v.ctx.trap := by
  obtain ⟨hst, _, _, hid, htrap, he⟩ := (t.takeSaved k core id n tid r v).beginRestore_ctx k true
  rw [State.takeSaved_ctx] at hid htrap he
  refine ⟨⟨hid.trans hv, fun e => (he e).1, fun m hm => (State.beginRestore_other _ k true hm).trans
    ((State.takeSaved_other _ _ _ _ _ _ _ _ hm).trans (State.ctx_of_ctxs ht m)), fun y hy => ?_⟩, hst, htrap⟩
  rw [show (t.resumeSaved k core id n tid r v).region id = _ from tget_tput_same ..] at hy
  simpa using (List.mem_filter.mp hy).2

/-- A fault of a context in its restore sequence traps it. -/
theorem State.raise_restoring {s : State} {k : Nat} {b : Bool} (t : Trap) (hst : (s.ctx k).st = .restoring b)
    (ht : (s.ctx k).trap = none) : s.raise k t = s.setCtx k { s.ctx k with st := .trapped, trap := some t } := by
  simp only [State.raise, hst, ht]

section
variable {s : State} {k : Nat} {v : SavedTask} {f : State → State}

theorem State.readSaveHead_ok {u : State} {bs : List Byte} (h : s.areaRead k v.ctx.part v.ctx.asid
    (lineParts ((v.ctx.eng .x).rx 28).toNat v.ctx.saveHead) = .ok (u, bs)) : s.readSaveHead k v f = f u := by
  unfold State.readSaveHead
  simp only [h]

theorem State.readSaveHead_miss {u : State} (h : s.areaRead k v.ctx.part v.ctx.asid
    (lineParts ((v.ctx.eng .x).rx 28).toNat v.ctx.saveHead) = .error (some u)) : s.readSaveHead k v f = u := by
  unfold State.readSaveHead
  simp only [h]

theorem State.readSaveHead_fault (h : s.areaRead k v.ctx.part v.ctx.asid
    (lineParts ((v.ctx.eng .x).rx 28).toNat v.ctx.saveHead) = .error none) : s.readSaveHead k v f = (f s).raise k
      { code := .savefault, eng := .x, pc := (v.ctx.eng .x).pc, addr := ((v.ctx.eng .x).rx 28).toNat, info := 0, clock := s.clock,
        save := true } := by
  unfold State.readSaveHead
  simp only [h]

end

/-- A resume whose save area faults: the task is back, and traps. -/
theorem State.BackFrom.raise {s t : State} {k id tid : Nat} {v : SavedTask} {b : Bool} (h : s.BackFrom t k id tid v)
    (hst : (t.ctx k).st = .restoring b) (ht : (t.ctx k).trap = none) (x : Trap) :
    (t.raise k x).mem = t.mem ∧ s.BackFrom (t.raise k x) k id tid v ∧ ((t.raise k x).ctx k).st = .trapped ∧
      ((t.raise k x).ctx k).trap = some x := by
  obtain ⟨hid, hpc, hother, hsaved⟩ := h
  have hctx : (t.raise k x).ctx k = { t.ctx k with st := .trapped, trap := some x } := by
    rw [State.raise_restoring x hst ht, State.ctx_setCtx_same]
  refine ⟨State.raise_mem .., ⟨?_, ?_, fun m hm => (State.ctx_raise_other t x hm).trans (hother m hm), ?_⟩, ?_, ?_⟩
  · rw [hctx]
    exact hid
  · rw [hctx]
    exact hpc
  · rw [State.raise_restoring x hst ht]
    exact hsaved
  · rw [hctx]
  · rw [hctx]

/-- Settles O56, event by event. -/
theorem preemptionAndLwait : Obligations.PreemptionAndLwait := by
  intro s v k c r b
  refine ⟨(exec_preemptionRequest rfl).1, fun h => ?_, fun y hy hr hp hx ho hs hb => ?_, exec_contextHalt_idle rfl,
    fun d child y hw hy => ?_, exec_lwaitYield_yield rfl, fun id n x hs hv => ?_, fun h => ?_, fun p q hf hq => ?_,
    fun q hq => exec_collectorReport rfl hq, ?_, ?_⟩
  · exact ⟨_, (exec_preemptionRequest rfl).2 h, rfl, congrArg Partition.preempt (tget_tput_same ..),
      fun p hp => tget_tput_other _ _ _ hp, fun n d hm hd hp => State.askContexts_preq hm hd hp⟩
  · obtain ⟨halr, heng⟩ := s.draw.2.ctx_abandonRegion k
    have heq := State.beginSave_halt (k := k) hb rfl
    have hctx := (congrArg (State.ctx · k) heq).trans (tget_tput_same ..)
    refine ⟨_, exec_contextHalt rfl hy hr hp hx ho hs, (congrArg State.mem heq).trans (State.abandonRegion_mem s.draw.2 k), ?_, ?_, ?_,
      fun m hm => ?_, fun e => ?_⟩
    · rw [hctx]
      rfl
    · rw [hctx]
      rfl
    · rw [hctx]
      exact halr
    · exact (congrArg (State.ctx · m) heq).trans ((tget_tput_other _ _ _ hm).trans (State.ctx_abandonRegion_other s.draw.2 k hm))
    · have he : ((s.draw.2.abandonRegion k).ctx k).eng e = c.eng e := congrArg (fun t : Tab Engine => tget ({} : Engine) t (engIdx e)) heng
      rw [hctx, Ctx.eng_halted, he]
      exact ⟨rfl, rfl, rfl⟩
  · intro gives
    have h := exec_lwaitYield_lwait rfl hw hy rfl
    have hgives : gives ↔ (¬s.preempted r.part ∧ c.saveBad = 0 ∧ c.othersStopped ∧ s.settledForSave k ∧ s.commandsDone k) :=
      and_congr_left' (Bool.not_eq_true _ ▸ Iff.rfl)
    exact ⟨fun hr => h.trans (congrArg _ (if_pos hr)),
      fun hr hc => h.trans (congrArg _ ((if_neg (not_not_intro hr)).trans (if_pos hc))),
      fun hr hc hg => h.trans (congrArg _ ((if_neg (not_not_intro hr)).trans ((if_neg (Bool.eq_false_iff.mp hc)).trans (if_pos (hgives.mp hg))))),
      fun hr hc hg => h.trans (congrArg _ ((if_neg (not_not_intro hr)).trans ((if_neg (Bool.eq_false_iff.mp hc)).trans (if_neg (hg ∘ hgives.mpr)))))⟩
  · intro free
    have h := exec_lwaitResume rfl rfl rfl rfl hs hv
    have hfree : ¬free ↔ ((s.ctx k).st ≠ .idle ∨ (s.reservedFor k).isSome ∨ (s.core v.core).join.isSome ∨ (s.region id).aborting ∨
        s.preempted (s.region id).part) := by
      simp only [free, not_and_or, Bool.not_eq_false, ← Option.isSome_iff_ne_none, c]
    refine ⟨fun hn => h.trans (congrArg _ (if_pos (hfree.mp hn))), ?_⟩
    intro head back
    have htid : x.ctx.taskid = v.a := by
      have hx := List.find?_some hv
      simp only [Bool.and_eq_true, beq_iff_eq] at hx
      exact hx.1.1
    have hgo (hf : free) : exec .lwaitResume s = .next (s.readSaveHead k x fun t => t.resumeSaved k v.core id n v.a (s.region id) x) :=
      h.trans (congrArg Host.Outcome.next (if_neg fun hc => hfree.mpr hc hf))
    refine ⟨fun u hf hd => ?_, fun u bs hf hd => ?_, fun hf hd htr => ?_⟩
    · rw [hgo hf, State.readSaveHead_miss hd]
    · obtain ⟨hm, hc⟩ := State.areaRead_keeps hd
      obtain ⟨hback, hst, _⟩ := State.resumeSaved_back (core := v.core) (n := n) (r := s.region id) hc htid
      have hx : exec .lwaitResume s = .next (u.resumeSaved k v.core id n v.a (s.region id) x) := by
        rw [hgo hf, State.readSaveHead_ok hd]
      exact ⟨_, hx, (State.resumeSaved_mem ..).trans hm, hback, hst⟩
    · obtain ⟨hback, hst, htrap⟩ := State.resumeSaved_back (s := s) (core := v.core) (n := n) (r := s.region id) rfl htid
      obtain ⟨hm, hb, hs, ht⟩ := hback.raise hst (htrap.trans htr) _
      exact ⟨_, (hgo hf).trans (congrArg Host.Outcome.next (State.readSaveHead_fault hd)), hm.trans (State.resumeSaved_mem ..), hb, hs, ht⟩
  · exact exec_unitStopAck_none rfl fun p hp => State.owesAck_eq_false (h p hp)
  · have hf' : s.parts.find? (s.owesAck v.stop) = some p := by
      rw [← hf]
      congr 1
      funext x
      unfold State.owesAck
      cases x.2.preempt <;> simp
    refine ⟨_, exec_unitStopAck rfl hf', (tget_tput_same ..).trans ?_, fun n hn => tget_tput_other _ _ _ hn⟩
    exact congrArg (fun o : Option Preempt =>
      ({ s.partn p.1 with preempt := o.map fun (q : Preempt) => { q with acks := q.acks ++ [v.stop] } } : Partition)) hq
  · refine ⟨fun h hab => ?_, fun h hab => ?_, exec_partitionSwap_in rfl rfl⟩ <;> obtain ⟨q, hq, hs⟩ := h
    · exact (exec_partitionSwap_out rfl rfl hq hs).1 hab
    · exact (exec_partitionSwap_out rfl rfl hq hs).2 hab
  · intro back
    have h := exec_contextRestore (s := s) rfl
    have hback : back ↔ c.st = .saved ∧ ¬s.preempted r.part ∧ r.aborting = false :=
      and_congr_right' (and_congr_left' (Bool.not_eq_true _ ▸ Iff.rfl))
    refine ⟨fun hn => h.trans (congrArg _ (if_neg (hn ∘ hback.mpr))), fun hb => ⟨_, h.trans (congrArg _ (if_pos (hback.mp hb))), ?_⟩⟩
    obtain ⟨hst, hpre, hq, _, _, he⟩ := s.beginRestore_ctx k false
    exact ⟨State.beginRestore_mem .., hst, hpre, hq, he, fun m hm => s.beginRestore_other k false hm⟩

end Sys2Proof.Machine
end

section
/-! PROOFS. Launches, admission, the balancer and the ends of regions; O57 (R311-R315, R318, R323, R324, R328-R330, R343). -/

namespace Sys2Proof.Machine

/-! ## Messages of the host -/

/-- The launch that a LAUNCH of the host asks for (R311). -/
def State.hostLaunch (s : State) (v : EvArgs) : Launch :=
  { regid := s.nextReg, rcb := v.b, seed := v.c, part := v.a, asid := v.opt.getD 0 % 4096, parent := none, tag := v.d, priv := false,
    since := s.clock }

theorem exec_hostMessage_notBooted {s : State} (h : s.booted = false) :
    exec .launchMessage s = .next s ∧ exec .abortMessage s = .next s :=
  ⟨congrArg _ (if_pos (by rw [h]; rfl)), congrArg _ (if_pos (by rw [h]; rfl))⟩

section
variable {s : State} (h : s.booted = true) {v : EvArgs} (hv : s.cur.ev = v)
include h hv

theorem exec_launchMessage : exec .launchMessage s = .next (
    if (s.partn v.a).record.isNone then s.send (.reply v.a 8 0)
    else if 256 ≤ (s.partn v.a).launches.length then s.send (.reply v.a 2 0)
    else ({ (s.modPart v.a fun p => { p with launches := p.launches ++ [s.hostLaunch v] }) with nextReg := s.nextReg + 1 } : State).send
      (.reply v.a 0 s.nextReg)) := by
  subst hv
  exact congrArg _ (if_neg (by rw [h]; decide))

theorem exec_abortMessage_live (hl : (s.region v.b).live = true) (hp : (s.region v.b).part = v.a) :
    exec .abortMessage s = .next ((s.startAbort v.b).send (.reply v.a 0 0)) := by
  subst hv
  exact congrArg _ ((if_neg (by rw [h]; decide)).trans (if_pos (by simp [hl, hp])))

theorem exec_abortMessage_none (hl : (s.region v.b).live = false ∨ (s.region v.b).part ≠ v.a)
    (hw : ∀ o ∈ (s.partn v.a).launches, o.regid ≠ v.b) : exec .abortMessage s = .next (s.send (.reply v.a 8 0)) := by
  have hf : (s.partn v.a).launches.find? (fun l => l.regid == v.b) = none :=
    List.find?_eq_none.mpr fun o ho => by simpa using hw o ho
  subst hv
  rw [show exec .abortMessage s = execAbortMessage s from rfl]
  unfold execAbortMessage
  simp only [hf]
  exact congrArg _ ((if_neg (by rw [h]; decide)).trans (if_neg (by rcases hl with hl | hl <;> simp [hl])))

end

/-! ## Admission -/

section
variable {s : State} {n : Nat} (hn : s.cur.ev.a = n)
include hn

theorem exec_admission_none (h : s.findLaunch n = none) : exec .regionAdmission s = .next s ∧ exec .launchPriorityRise s = .next s := by
  subst hn
  rw [show exec .regionAdmission s = execRegionAdmission s from rfl, show exec .launchPriorityRise s = execLaunchPriorityRise s from rfl]
  unfold execRegionAdmission execLaunchPriorityRise
  simp only [h, and_self]

variable {l : Launch} (hl : s.findLaunch n = some l)
include hl

theorem exec_launchPriorityRise : exec .launchPriorityRise s = .next (
    if s.clock < max l.since l.riseAt + clocks50us ∨ (7 ≤ l.effPrio ∧ l.top.isSome) then s
    else s.putLaunch (if 7 ≤ l.effPrio then { l with top := some (max l.since l.riseAt) } else l.riseAt50 s.clock l.effPrio)) := by
  subst hn
  rw [show exec .launchPriorityRise s = execLaunchPriorityRise s from rfl]
  unfold execLaunchPriorityRise
  simp only [hl]

theorem exec_admission_preempted (h : s.preempted l.part = true) : exec .regionAdmission s = .next s := by
  subst hn
  rw [show exec .regionAdmission s = execRegionAdmission s from rfl]
  unfold execRegionAdmission
  simp only [hl]
  exact congrArg _ (if_pos h)

variable (h : s.preempted l.part = false)
include h

theorem exec_admission_unread (hp : l.plan = none) (hr : s.readPlan l = none) :
    exec .regionAdmission s = .next (s.refuse l stDecl s.cur.pick) := by
  subst hn
  rw [show exec .regionAdmission s = execRegionAdmission s from rfl]
  unfold execRegionAdmission
  simp only [hl, hp, hr]
  exact congrArg _ (if_neg (Bool.eq_false_iff.mp h))

theorem exec_admission_read (hp : l.plan = none) {p : Plan} (hr : s.readPlan l = some p) {t : State} (ht : t = s.remember l p) :
    (∀ st, t.planStatus l p = some st → exec .regionAdmission s = .next (t.refuse l st s.cur.pick)) ∧
    (t.planStatus l p = none → exec .regionAdmission s = .next (t.putLaunch { l with plan := some p })) := by
  subst hn ht
  rw [show exec .regionAdmission s = execRegionAdmission s from rfl]
  unfold execRegionAdmission
  refine ⟨fun st hst => ?_, fun hst => ?_⟩
  · simp only [hl, hp, hr, hst]
    exact congrArg _ (if_neg (Bool.eq_false_iff.mp h))
  · simp only [hl, hp, hr, hst]
    exact congrArg _ (if_neg (Bool.eq_false_iff.mp h))

theorem exec_admission_planned {p : Plan} (hp : l.plan = some p) :
    exec .regionAdmission s = .next ((s.remember l p).admitNow l p s.cur.ev.bind s.cur.pick) := by
  subst hn
  rw [show exec .regionAdmission s = execRegionAdmission s from rfl]
  unfold execRegionAdmission
  simp only [hl, hp]
  exact congrArg _ (if_neg (Bool.eq_false_iff.mp h))

end

/-- A partition without a record remembers no object, and admits no launch. -/
theorem State.planStatus_noRecord {s : State} {l : Launch} {p : Plan} (h : (s.partn l.part).record = none) :
    (s.remember l p).planStatus l p = some stDecl := by
  have hr : s.remember l p = s := by
    unfold State.remember State.signedCode
    rw [h]
    rfl
  rw [hr]
  unfold State.planStatus State.declared
  rw [h]
  rfl

theorem State.planStatus_budget {s : State} {l : Launch} {p : Plan} (hd : s.declared l p = true) (hb : s.overBudget l p.rcb = true) :
    s.planStatus l p = some stBudget := by
  unfold State.planStatus
  rw [hd, hb]
  rfl

section
variable {s : State} {l : Launch} {p : Plan} {b : Binding} {pick : Nat}

theorem State.admitNow_error {st : Nat} (h : s.planNow l p = .error st) : s.admitNow l p b pick = s.refuse l st pick := by
  unfold State.admitNow
  rw [h]

theorem State.admitNow_changed {q : Plan} (h : s.planNow l p = .ok q) (hq : q ≠ p) :
    s.admitNow l p b pick = s.putLaunch { l with plan := some q } := by
  unfold State.admitNow
  rw [h]
  exact if_neg hq

theorem State.admitNow_same (h : s.planNow l p = .ok p) : s.admitNow l p b pick = s.tryAdmit l p b pick := by
  unfold State.admitNow
  rw [h]
  exact if_pos rfl

/-- A launch whose text is there is admitted where its binding, its windows and its turn allow it. -/
def State.admitText (s : State) (l : Launch) (p : Plan) (b : Binding)
    (x : Nat × Nat × Option (List Byte) × List Nat × List YieldEnt) (pick : Nat) : State :=
  if s.bindOk l p b ∧ s.windowsReady l p b ∧ s.turnOf l then s.admitLaunch l p b x pick else s

theorem State.tryAdmit_native {t : Sect} {bs : List Byte} (h : p.text = .native t bs)
    {x : Nat × Nat × Option (List Byte) × List Nat × List YieldEnt} (hx : p.textOf none = some x) :
    s.tryAdmit l p b pick = s.admitText l p b x pick := by
  unfold State.tryAdmit State.admitText
  simp [h, hx, and_assoc]

variable {bs : List Byte} (h : p.text = .malig bs)
include h

theorem State.tryAdmit_unknown (he : s.idustEntry l.part bs = none) : s.tryAdmit l p b pick = s.askIdust l.part bs := by
  unfold State.tryAdmit
  simp only [h, he]

variable {e : IdustEnt} (he : s.idustEntry l.part bs = some e)
include he

theorem State.tryAdmit_waits (hr : e.ready = false) : s.tryAdmit l p b pick = s := by
  unfold State.tryAdmit
  simp only [h, he, hr]
  rfl

theorem State.tryAdmit_translated (hr : e.ready = true) :
    (p.textOf e.result = none → s.tryAdmit l p b pick = (s.touchIdust e).refuse l stDecl pick) ∧
    ∀ x, p.textOf e.result = some x → s.tryAdmit l p b pick = (s.touchIdust e).admitText l p b x pick := by
  unfold State.tryAdmit State.admitText
  refine ⟨fun hx => ?_, fun x hx => ?_⟩
  · simp [h, he, hr, hx]
  · simp [h, he, hr, hx, and_assoc]

end

/-! ## Cores -/

section
variable {s : State} {n : Nat} (hn : s.cur.ev.a = n)
include hn

theorem exec_balancerRun : exec .balancerRun s = .next (
    if (s.region n).live ∧ ¬(s.region n).aborting ∧ ¬(s.partn (s.region n).part).swapped ∧ (s.region n).lastBal + clocks2us ≤ s.clock
    then s.balance n s.cur.pick else s) := by
  subst hn
  rw [show exec .balancerRun s = execBalancerRun s from rfl]
  unfold execBalancerRun
  simp [and_assoc]

theorem exec_coreWaitPriorityRise {t m : Nat} (hw : (s.region n).coreWait = some (t, m)) (hl : (s.region n).live = true) :
    exec .coreWaitPriorityRise s = .next (if t + 200000 * (m + 1) ≤ s.clock ∧ (s.region n).waitPrio < 7
      then s.modRegion n fun x => { x with coreWait := some (t, m + 1) } else s) := by
  subst hn
  rw [show exec .coreWaitPriorityRise s = execCoreWaitPriorityRise s from rfl]
  unfold execCoreWaitPriorityRise
  simp [hw, hl, clocks50us]

theorem exec_quiescenceReport (hl : (s.region n).live = true) (ha : (s.region n).aborting = false) (hq : (s.region n).quiet = false) :
    exec .quiescenceReport s = .next (if s.quietBut n (fun _ => false) then s.modRegion n fun x => { x with quiet := true, tend := s.clock }
      else s) := by
  subst hn
  rw [show exec .quiescenceReport s = execQuiescenceReport s from rfl]
  unfold execQuiescenceReport
  simp [hl, ha, hq]

theorem exec_completion_ended (hl : (s.region n).live = false) : exec .regionCompletion s = .next s ∧ exec .regionAbort s = .next s := by
  subst hn
  exact ⟨congrArg _ (if_pos (by rw [hl]; rfl)), congrArg _ (if_neg (by rw [hl]; exact Bool.false_ne_true))⟩

theorem exec_completion_quiet (hl : (s.region n).live = true) (ha : (s.region n).aborting = false) (hq : (s.region n).quiet = true) :
    exec .regionCompletion s = .next (s.complete n 0 s.cur.pick) := by
  subst hn
  exact congrArg _ ((if_neg (by rw [hl]; decide)).trans (if_pos (by rw [ha, hq]; rfl)))

theorem exec_completion_aborting (hl : (s.region n).live = true) (ha : (s.region n).aborting = true) :
    exec .regionAbort s = .next (s.abortDiscards n) ∧
    exec .regionCompletion s = .next (if s.quietBut n (fun _ => false)
      then (s.modRegion n fun x => { x with tend := s.clock }).complete n stAborted s.cur.pick else s) := by
  subst hn
  refine ⟨congrArg _ (if_pos (by rw [hl, ha]; rfl)), congrArg _ ((if_neg (by rw [hl]; decide)).trans ((if_neg (by rw [ha]; simp)).trans ?_))⟩
  rw [ha, Bool.true_and]

end

section
variable {s : State} {c : Nat} (hc : s.cur.ev.core = c)
include hc

theorem exec_coreJoinStage {g n : Nat} (hj : (s.core c).join = some (g, n)) :
    exec .coreJoinStage s = .next (if s.coreTasks c g = 0 then s.assignCore c g n else s) := by
  subst hc
  rw [show exec .coreJoinStage s = execCoreJoinStage s from rfl]
  unfold execCoreJoinStage
  simp only [hj]

theorem exec_coreGrant_none (h : ∀ p ∈ s.regions, s.mayTake p.2 c = false) : exec .coreGrant s = .next s := by
  have hf : (s.regions.map (·.2)).filter (fun r => s.mayTake r c) = [] :=
    List.filter_eq_nil_iff.mpr fun r hr => by
      obtain ⟨p, hp, rfl⟩ := List.mem_map.mp hr
      rw [h p hp]
      decide
  subst hc
  rw [show exec .coreGrant s = execCoreGrant s from rfl]
  unfold execCoreGrant
  simp only [hf, leastBy]

theorem exec_coreGrant {g : Region} (h : leastBy (fun (x : Region) => (7 - x.waitPrio) * 2 ^ 64 + (x.coreWait.getD (0, 0)).1)
    ((s.regions.map (·.2)).filter fun x => s.mayTake x c) = some g) : exec .coreGrant s =
      .next ((s.takeCores g.part [c]).modRegion g.regid fun x => { x with cores := x.cores ++ [c], coreWait := none }) := by
  subst hc
  rw [show exec .coreGrant s = execCoreGrant s from rfl]
  unfold execCoreGrant
  simp only [h]

end

/-- What bytes of any value leave of a core: its stage and its sizes. -/
theorem State.core_havoc (s : State) (c a n : Nat) : ((s.havoc c a n).core c).serve = (s.core c).serve ∧
    ((s.havoc c a n).core c).join = (s.core c).join ∧ ((s.havoc c a n).core c).spad = (s.core c).spad ∧
    ((s.havoc c a n).core c).allot = (s.core c).allot ∧ ∀ o, o ≠ c → (s.havoc c a n).core o = s.core o := by
  unfold State.havoc
  dsimp only
  split
  · exact ⟨rfl, rfl, rfl, rfl, fun _ _ => rfl⟩
  · have h (f : Core → Core) : (s.draw.2.modCore c f).core c = f (s.core c) := tget_tput_same ..
    refine ⟨?_, ?_, ?_, ?_, fun o ho => tget_tput_other _ _ _ ho⟩
    all_goals rw [h]

/-- A core assigned to a stage: it serves it with the region's share of the scratchpad, and no other core changes (R105). -/
theorem State.core_assignCore (s : State) (c g n : Nat) : ((s.assignCore c g n).core c).serve = some (g, n) ∧
    ((s.assignCore c g n).core c).join = none ∧
    ((s.assignCore c g n).core c).spad = min (sramUnits c) ((s.region g).rcb.sram / (s.region g).rcb.cores) ∧
    ((s.assignCore c g n).core c).allot = min (sramUnits c) ((s.region g).rcb.sram / (s.region g).rcb.cores) ∧
    ∀ o, o ≠ c → (s.assignCore c g n).core o = s.core o := by
  have hmod (t : State) (f : Core → Core) : (t.modCore c f).core c = f (t.core c) := tget_tput_same ..
  have hoth (t : State) (f : Core → Core) (o : Nat) (ho : o ≠ c) : (t.modCore c f).core o = t.core o := tget_tput_other _ _ _ ho
  unfold State.assignCore
  dsimp only
  split
  · refine ⟨?_, ?_, ?_, ?_, fun o ho => hoth _ _ o ho⟩
    all_goals rw [hmod]
  · obtain ⟨h1, h2, h3, h4, h5⟩ := State.core_havoc (((s.modCore c fun d =>
      { d with serve := some (g, n), join := none, allot := min (sramUnits c) ((s.region g).rcb.sram / (s.region g).rcb.cores),
               spad := min (sramUnits c) ((s.region g).rcb.sram / (s.region g).rcb.cores), ltags := [] }).modCore c
        fun d => { d with l1 := [] })) c
      (65536 * min (s.core c).spad (min (sramUnits c) ((s.region g).rcb.sram / (s.region g).rcb.cores)))
      (65536 * (max (s.core c).spad (min (sramUnits c) ((s.region g).rcb.sram / (s.region g).rcb.cores)) -
        min (s.core c).spad (min (sramUnits c) ((s.region g).rcb.sram / (s.region g).rcb.cores))))
    rw [hmod, hmod] at h1 h2 h3 h4
    exact ⟨h1, h2, h3, h4, fun o ho => (h5 o ho).trans ((hoth _ _ o ho).trans (hoth _ _ o ho))⟩

/-! ## Completion -/

section
variable {s t : State} {id st pick : Nat} (hw : s.writeCompletion (s.region id) st = .ok t) (hp : (s.region id).parent = none)
include hw hp

/-- The completion of a region that no other launched. -/
theorem State.complete_root : s.complete id st pick =
    ((t.modRegion id fun g => { g with live := false, cores := [], held := [] }).returnCores (s.region id)).send
      (.complete (s.region id).part id ((s.region id).hostTag.getD 0) st) := by
  unfold State.complete State.addCounts State.returnPools State.tellEnd
  simp only [hw, hp]

end

/-- A core that serves no stage and is to join none. -/
def Core.unassigned (c : Core) : Core := { c with serve := none, join := none }

theorem State.core_foldl_unassigned {c : Nat} (l : List Nat) (s : State)
    (h : c ∈ l ∨ (s.core c).serve = none ∧ (s.core c).join = none) :
    ((l.foldl (fun t c => t.modCore c Core.unassigned) s).core c).serve = none ∧
    ((l.foldl (fun t c => t.modCore c Core.unassigned) s).core c).join = none := by
  induction l generalizing s with
  | nil => exact h.resolve_left List.not_mem_nil
  | cons a l ih =>
    refine ih _ ?_
    rw [State.core_modCore]
    rcases eq_or_ne c a with rfl | hne
    · rw [if_pos rfl]
      exact Or.inr ⟨rfl, rfl⟩
    · rw [if_neg hne]
      exact h.imp_left fun hm => (List.mem_cons.mp hm).resolve_left hne

section
variable (s : State) {r : Region} (hp : r.parent = none)
include hp

/-- Cores given back leave memory, messages and regions; each is then free, but for those of a partition in shadow storage. -/
theorem State.returnCores_root : (s.returnCores r).mem = s.mem ∧ (s.returnCores r).out = s.out ∧ (s.returnCores r).regions = s.regions ∧
    ((s.partn r.part).swapped = false → ∀ c ∈ r.cores, ((s.returnCores r).core c).serve = none ∧ ((s.returnCores r).core c).join = none) ∧
    ((s.partn r.part).swapped = true → (s.returnCores r).cores = s.cores) := by
  unfold State.returnCores
  simp only [hp]
  split
  · next h => exact ⟨rfl, rfl, rfl, fun hn => absurd (hn.symm.trans h) Bool.false_ne_true, fun _ => rfl⟩
  · next h =>
    exact ⟨foldl_keeps State.mem (fun (t : State) c => (rfl : (t.modCore c Core.unassigned).mem = t.mem)) _ _,
      foldl_keeps State.out (fun (t : State) c => (rfl : (t.modCore c Core.unassigned).out = t.out)) _ _,
      foldl_keeps State.regions (fun (t : State) c => (rfl : (t.modCore c Core.unassigned).regions = t.regions)) _ _,
      fun _ c hc => State.core_foldl_unassigned _ s (Or.inl hc), fun hs => absurd hs h⟩

end

/-- A live region told to abort is aborting; no other region changes. -/
theorem State.startAbort_live {s : State} {id : Nat} (h : (s.region id).live = true) : (s.startAbort id).mem = s.mem ∧
    (s.startAbort id).out = s.out ∧ ((s.startAbort id).region id).aborting = true ∧
    ∀ n, n ≠ id → (s.startAbort id).region n = s.region n := by
  unfold State.startAbort
  rw [if_pos h]
  exact ⟨rfl, rfl, congrArg Region.aborting (tget_tput_same ..), fun n hn => tget_tput_other _ _ _ hn⟩

/-- Settles O57, event by event. -/
theorem regionsRunAndEnd : Obligations.RegionsRunAndEnd := by
  intro s v r pick
  refine ⟨exec_hostMessage_notBooted, fun hb => ?_, exec_admission_none rfl, fun l hl => ?_, fun hl ha hs => ?_, fun hs => ?_,
    fun g n hj => ?_, exec_coreGrant_none rfl, fun g hg => exec_coreGrant rfl hg, fun t n hw hl => exec_coreWaitPriorityRise rfl hw hl,
    exec_quiescenceReport rfl, exec_completion_ended rfl, exec_completion_quiet rfl, exec_completion_aborting rfl, fun st t hw hp => ?_⟩
  · intro p l g
    have hm := exec_launchMessage hb (v := v) rfl
    have hrec (hr : p.record ≠ none) : ¬(s.partn v.a).record.isNone := mt Option.isNone_iff_eq_none.mp hr
    refine ⟨fun hr => hm.trans (congrArg _ (if_pos (Option.isNone_iff_eq_none.mpr hr))),
      fun hr hn => hm.trans (congrArg _ ((if_neg (hrec hr)).trans (if_pos hn))),
      fun hr hn => ⟨_, hm.trans (congrArg _ ((if_neg (hrec hr)).trans (if_neg (Nat.not_le.mpr hn)))), rfl, rfl, rfl, ?_, rfl⟩,
      fun hl hp => ?_, exec_abortMessage_none hb rfl⟩
    · exact congrArg Partition.launches (tget_tput_same ..)
    · obtain ⟨hmem, hout, hab, hoth⟩ := State.startAbort_live hl
      exact ⟨_, exec_abortMessage_live hb rfl hl hp, hmem, congrArg (· ++ [Msg.reply v.a 0 0]) hout, hab, hoth⟩
  · intro low
    refine ⟨exec_admission_preempted rfl hl, ?_⟩
    intro put
    refine ⟨exec_admission_unread rfl hl, fun p hp hn hr => ?_, fun p hp hs => ?_, ?_⟩
    · intro t
      obtain ⟨href, hput⟩ := exec_admission_read rfl hl hp hn hr rfl
      exact ⟨State.planStatus_noRecord, State.planStatus_budget, href, hput⟩
    · intro t
      have hnow := exec_admission_planned rfl hl hp hs
      have hgo (u : State) (h : t.admitNow l p v.bind pick = u) : exec .regionAdmission s = .next u := by rw [← h]; exact hnow
      refine ⟨fun st h => hgo _ (State.admitNow_error h), fun q h hq => hgo _ (State.admitNow_changed h hq), fun h => ?_⟩
      have hsame := State.admitNow_same (b := v.bind) (pick := pick) h
      refine ⟨fun a b ht x hx => hgo _ (hsame.trans (State.tryAdmit_native ht hx)), fun bs ht =>
        ⟨fun he => hgo _ (hsame.trans (State.tryAdmit_unknown ht he)), fun e he hr => hgo _ (hsame.trans (State.tryAdmit_waits ht he hr)),
          fun e he hr => ?_⟩⟩
      intro u
      obtain ⟨h1, h2⟩ := State.tryAdmit_translated (b := v.bind) (pick := pick) (s := t) ht he hr
      exact ⟨fun hx => hgo _ (hsame.trans (h1 hx)), fun x hx => hgo _ (hsame.trans (h2 x hx))⟩
    · intro level
      have hrise := exec_launchPriorityRise rfl hl
      have hle : level ≤ 7 := Nat.min_le_left ..
      have hwait : (low ∨ level = 7 ∧ l.top ≠ none) ↔ (s.clock < max l.since l.riseAt + clocks50us ∨ 7 ≤ l.effPrio ∧ l.top.isSome) :=
        or_congr_right (and_congr ⟨fun h => Nat.le_of_eq h.symm, fun h => Nat.le_antisymm hle h⟩ Option.isSome_iff_ne_none.symm)
      refine ⟨fun h => hrise.trans (congrArg _ (if_pos (hwait.mp h))), fun hlow hlev => ?_, fun hlow hlev htop => ?_⟩
      · have hno := mt hwait.mpr (not_or_intro hlow fun hc => Nat.ne_of_lt hlev hc.1)
        have h6 : 7 ≤ l.effPrio + 1 ↔ level = 6 := ⟨fun h => Nat.le_antisymm (Nat.lt_succ_iff.mp hlev) (Nat.le_of_succ_le_succ h), fun h => Nat.succ_le_succ (Nat.le_of_eq h.symm)⟩
        refine hrise.trans (congrArg _ ((if_neg hno).trans ((congrArg _ (if_neg (Nat.not_le.mpr hlev))).trans ?_)))
        exact congrArg (fun o : Option Nat => s.putLaunch { l with rise := l.rise + 1, riseAt := s.clock, top := o }) (if_congr h6 rfl rfl)
      · have hno := mt hwait.mpr (not_or_intro hlow fun hc => hc.2 htop)
        exact hrise.trans (congrArg _ ((if_neg hno).trans (congrArg _ (if_pos (Nat.le_of_eq hlev.symm)))))
  · refine (exec_balancerRun rfl).trans (congrArg _ ?_)
    by_cases h : r.lastBal + 8000 ≤ s.clock
    · exact (if_pos ⟨hl, Bool.eq_false_iff.mp ha, Bool.eq_false_iff.mp hs, h⟩).trans (if_pos h).symm
    · exact (if_neg fun hc => h hc.2.2.2).trans (if_neg h).symm
  · exact (exec_balancerRun rfl).trans (congrArg _ (if_neg fun hc => hc.2.2.1 hs))
  · have h := exec_coreJoinStage rfl hj
    obtain ⟨h1, h2, h3, h4, h5⟩ := s.core_assignCore v.core g n
    exact ⟨fun ht => h.trans (congrArg _ (if_neg ht)), fun ht => ⟨_, h.trans (congrArg _ (if_pos ht)), State.assignCore_mem .., h1, h2, h3,
      h4.trans h3.symm, h5⟩⟩
  · intro u
    have hu : u = _ := State.complete_root hw hp
    obtain ⟨hmem, hout, hreg, hfree, hsw⟩ :=
      (t.modRegion v.a fun g => { g with live := false, cores := [], held := [] }).returnCores_root hp
    have hregs : u.regions = (t.modRegion v.a fun g => { g with live := false, cores := [], held := [] }).regions :=
      (congrArg State.regions hu).trans hreg
    have hr : u.region v.a = { t.region v.a with live := false, cores := [], held := [] } :=
      (congrArg (fun x : Tab Region => tget ({} : Region) x v.a) hregs).trans (tget_tput_same ..)
    refine ⟨congrArg Region.live hr, congrArg Region.cores hr, (congrArg State.out hu).trans (congrArg (· ++ _) hout),
      (congrArg State.mem hu).trans hmem, fun hs c hc => ?_, fun hs => (congrArg State.cores hu).trans (hsw hs)⟩
    rw [hu]
    exact hfree hs c hc

end Sys2Proof.Machine
end

section
/-! PROOFS. Frames, slots, retraining, sleep and power of columns; O58 (R234-R238, R306, R307, R384). -/

namespace Sys2Proof.Machine

theorem isColumn_iff {bed col : Nat} : isColumn bed col = true ↔ bed < 8 ∧ col < 68 := decide_eq_true_iff

/-- A condition and its opposite swap the branches. -/
theorem ite_swap {α : Type} {p q : Prop} [Decidable p] [Decidable q] (h : ¬p ↔ q) (a b : α) :
    (if p then a else b) = if q then b else a := by
  rw [← ite_not]
  exact if_congr h rfl rfl

theorem State.slotNow_iff {s : State} {a b c : Nat} : s.slotNow a b c = true ↔
    (a < 8 ∧ b < 68) ∧ frameOffset b s.clock / 16 = c ∧ (s.col (colKey a b)).slot ≤ c ∧ (s.col (colKey a b)).retr = false := by
  unfold State.slotNow
  simp [isColumn_iff, and_assoc]

section
variable {s : State} {v : EvArgs} (hv : s.cur.ev = v) {k : Nat} (hk : colKey v.a v.b = k)
include hv hk

/-! ## Frames and slots -/

theorem exec_frameBoundary : exec .frameBoundary s = .next (
    if (v.a < 8 ∧ v.b < 68) ∧ frameOffset v.b s.clock = 0 ∧ (s.col k).frame ≠ s.clock + 1
    then s.modCol k fun x => x.newFrame s.clock (s.retrains k) else s) := by
  subst hv hk
  exact congrArg _ (ite_swap (by simp [isColumn_iff, and_assoc]) ..)

theorem exec_streamingSlot : exec .streamingSlot s = .next (
    if ¬(v.c < 30 ∧ s.slotNow v.a v.b v.c = true) then s
    else if v.c < (s.col k).lslots then
      if (s.col k).laneUsed < laneSlots (s.col k) then
        s.modCol k fun y => { y with slot := v.c + 1, laneUsed := y.laneUsed + 1,
                                     rows := if 0 < s.rowsWanted k then y.rows + 1 else y.rows }
      else s
    else if (s.col k).genUsed < generalSlots (s.col k) then s.modCol k fun y => { y with slot := v.c + 1, genUsed := y.genUsed + 1 }
    else s) := by
  subst hv hk
  rw [show exec .streamingSlot s = execStreamingSlot s from rfl]
  unfold execStreamingSlot
  simp only [not_and_or, Nat.not_lt, Bool.not_eq_true']
  simp

theorem exec_refreshSlot : exec .refreshSlot s = .next (
    if (v.a < 8 ∧ v.b < 68) ∧ frameOffset v.b s.clock / 16 = 30 ∧ (s.col k).slot ≤ 30
    then s.modCol k fun x => { x with slot := 31, refresh := (x.refresh + 1) % 72 } else s) := by
  subst hv hk
  exact congrArg _ (ite_swap (by simp [isColumn_iff, and_assoc]) ..)

theorem exec_maintenanceSlot : exec .maintenanceSlot s = .next (
    if s.slotNow v.a v.b 31 = true then (s.modCol k fun x => { x with slot := 32 }).scrub k v.scrub else s) := by
  subst hv hk
  exact congrArg _ (ite_swap (by simp) ..)

/-! ## Retraining and sleep -/

theorem exec_retrainingDue : exec .retrainingDue s = .next (
    if (v.a < 8 ∧ v.b < 68) ∧ (s.col k).due ≤ s.clock ∧ (s.col k).owed = none ∧ (s.col k).retr = false
    then s.modCol k fun y => { y with owed := some y.due, due := y.due + 32000000 } else s) := by
  subst hv hk
  exact congrArg _ (ite_swap (by simp [isColumn_iff, and_assoc]) ..)

theorem exec_retrainingForce_none (h : (s.col k).owed = none) : exec .retrainingForce s = .next s := by
  subst hv hk
  rw [show exec .retrainingForce s = execRetrainingForce s from rfl]
  unfold execRetrainingForce
  simp only [h]

theorem exec_retrainingForce {d : Nat} (h : (s.col k).owed = some d) : exec .retrainingForce s = .next (
    if (v.a < 8 ∧ v.b < 68) ∧ d + 160000 ≤ s.clock ∧ (s.lane k).defers = true ∧ (s.col k).force = false
    then (s.modCol k fun y => { y with force := true }).colEvent k 11 (s.clock - d) else s) := by
  subst hv hk
  rw [show exec .retrainingForce s = execRetrainingForce s from rfl]
  unfold execRetrainingForce
  simp only [h]
  exact congrArg _ (ite_swap (by simp [isColumn_iff, and_assoc]) ..)

/-- The layer that the end of a retraining erases. -/
def State.endRetraining (s : State) (k : Nat) (o : Option Nat) : State :=
  match o with
  | some l => if l < 18 then s.eraseLayer k l else s
  | none => s

theorem exec_retrainingEnd : exec .retrainingEnd s = .next (
    if (v.a < 8 ∧ v.b < 68) ∧ (s.col k).retr = true ∧ (s.col k).retrEnd ≤ s.clock
    then (s.modCol k fun y => { y with retr := false }).endRetraining k v.opt else s) := by
  subst hv hk
  exact congrArg _ (ite_swap (by simp [isColumn_iff, and_assoc]) ..)

theorem exec_bankSleep : exec .bankSleep s = .next (
    if (v.a < 8 ∧ v.b < 68) ∧ v.c < 72 ∧ v.c ∉ (s.col k).sleep ∧ v.c ∉ s.boundBanks k
    then s.modCol k fun x => { x with sleep := v.c :: x.sleep } else s) := by
  subst hv hk
  exact congrArg _ (ite_swap (by simp [isColumn_iff, and_assoc]) ..)

theorem exec_bankWake : exec .bankWake s = .next (
    if (v.a < 8 ∧ v.b < 68) ∧ v.c ∈ (s.col k).waking
    then s.modCol k fun x => { x with sleep := x.sleep.filter (· != v.c), waking := x.waking.filter (· != v.c) } else s) := by
  subst hv hk
  exact congrArg _ (ite_swap (by simp [isColumn_iff, and_assoc]) ..)

end

/-! ## What a slot writes back -/

theorem State.scrub_writeBack_none {s : State} {k n : Nat} (h : (s.col k).fixes.find? (fun f => f.1 == n) = none) :
    s.scrub k (.writeBack n) = s := by
  unfold State.scrub State.settleFix
  simp only [h]

theorem State.scrub_writeBack {s : State} {k n : Nat} {ls : List Nat} (h : (s.col k).fixes.find? (fun f => f.1 == n) = some (n, ls))
    {w : State} (hw : w = ls.foldl (fun y l => y.countFix k n l) (s.modCol k fun y => { y with fixes := y.fixes.filter (·.1 != n) })) :
    s.scrub k (.writeBack n) = if w.decodes n = true ∧ (w.col k).lost = false then w.rewritten n else w := by
  subst hw
  unfold State.scrub State.settleFix
  simp only [h]
  simp

/-- The column changed is read back as it was left. -/
theorem State.col_modCol_same (s : State) (k : Nat) (f : Column → Column) : (s.modCol k f).col k = f (s.col k) := tget_tput_same ..

/-- What holds of the default and of every value listed holds of the value at a key. -/
theorem tget_forall {α : Type} {P : α → Prop} {d : α} (hd : P d) {t : Tab α} (h : ∀ p ∈ t, P p.2) (k : Nat) : P (tget d t k) := by
  induction t with
  | nil => exact hd
  | cons p t ih =>
    obtain ⟨j, w⟩ := p
    unfold tget
    split
    · exact h (j, w) List.mem_cons_self
    · exact ih fun q hq => h q (List.mem_cons_of_mem _ hq)

/-- A first access to a sleeping bank begins to wake it. -/
theorem State.touchBank_wakes {s : State} {line k b : Nat} (hb : Config.rowBank (line / 8) % 72 = b) (hk : s.columnOf line = k)
    (h : b ∈ (s.col k).sleep) : b ∈ ((s.touchBank line).col k).waking := by
  have hall : ¬(s.cols.all fun c => c.2.sleep.isEmpty) = true := fun hc => by
    have hnil : (s.col k).sleep = [] := tget_forall (P := fun c : Column => c.sleep = []) rfl
      (fun p hp => List.isEmpty_iff.mp (List.all_eq_true.mp hc p hp)) k
    rw [hnil] at h
    cases h
  subst hb hk
  unfold State.touchBank
  rw [if_neg hall]
  dsimp only
  split
  · rw [State.col_modCol_same]
    exact List.mem_cons_self
  · next hn => simpa [h] using hn

/-! ## Power -/

section
variable {s : State} {v : EvArgs} (hv : s.cur.ev = v)
include hv

theorem exec_powerSample_early (h : 8 ≤ v.a ∨ s.clock < (s.bed v.a).sample) : exec .powerSample s = .next s := by
  subst hv
  exact congrArg _ (if_pos h)

/-- A bed whose power was sampled: when the next sample is due, and since when it has been below its cap. -/
def State.sampled (s : State) (bed : Nat) (low : Prop) [Decidable low] : State :=
  { s with beds := tput s.beds bed { s.bed bed with
      sample := s.clock + 40000, below := if low then some ((s.bed bed).below.getD s.clock) else none } }

variable (h8 : v.a < 8) (hc : (s.bed v.a).sample ≤ s.clock)
include h8 hc

theorem exec_powerSample_above (h : (s.bed v.a).cap < v.b) :
    exec .powerSample s = .next ((s.sampled v.a (100 * v.b < 95 * (s.bed v.a).cap)).lowerPower v.a v.c) := by
  subst hv
  rw [show exec .powerSample s = execPowerSample s from rfl]
  unfold execPowerSample State.sampled
  have hn : ¬(8 ≤ s.cur.ev.a ∨ s.clock < (s.bed s.cur.ev.a).sample) := by omega
  simp only [if_neg hn, if_pos h, decide_eq_true_eq]

theorem exec_powerSample_below (h : v.b ≤ (s.bed v.a).cap) : exec .powerSample s = .next (
    if 100 * v.b < 95 * (s.bed v.a).cap ∧ (s.bed v.a).below.getD s.clock + 4000000 ≤ s.clock
    then (s.sampled v.a (100 * v.b < 95 * (s.bed v.a).cap)).raisePower v.a
    else s.sampled v.a (100 * v.b < 95 * (s.bed v.a).cap)) := by
  subst hv
  rw [show exec .powerSample s = execPowerSample s from rfl]
  unfold execPowerSample State.sampled
  have hn : ¬(8 ≤ s.cur.ev.a ∨ s.clock < (s.bed s.cur.ev.a).sample) := by omega
  by_cases hl : 100 * s.cur.ev.b < 95 * (s.bed s.cur.ev.a).cap
  · simp only [if_neg hn, if_neg (Nat.not_lt.mpr h), decide_eq_true_eq, hl, if_true, true_and]
  · simp only [if_neg hn, if_neg (Nat.not_lt.mpr h), decide_eq_true_eq, hl, if_false, false_and]

end

theorem State.lowerPower_capNext {u : State} {b h : Nat} (ho : h ∈ u.openCols b) (hc : 10 < (u.col (colKey b h)).capLast) :
    ((u.lowerPower b h).col (colKey b h)).capNext = some ((u.col (colKey b h)).capLast - 1) := by
  have hall : ¬((u.openCols b).all fun c => (u.col (colKey b c)).capLast == 10) = true := fun ha => by
    have := beq_iff_eq.mp (List.all_eq_true.mp ha h ho)
    omega
  have hpick : ((u.openCols b).contains h && decide (10 < (u.col (colKey b h)).capLast)) = true := by simp [ho, hc]
  unfold State.lowerPower
  rw [if_neg hall]
  dsimp only
  rw [if_pos hpick]
  exact congrArg Column.capNext (State.col_modCol_same u (colKey b h)
    fun x => { x with capNext := some ((u.col (colKey b h)).capLast - 1) })

/-- Settles O58, event by event. -/
theorem columnsAtWork : Obligations.ColumnsAtWork := by
  intro s v k x is off put
  have hframe := exec_frameBoundary (s := s) (v := v) rfl (k := k) rfl
  have hstream := exec_streamingSlot (s := s) (v := v) rfl (k := k) rfl
  have hrefresh := exec_refreshSlot (s := s) (v := v) rfl (k := k) rfl
  have hmaint := exec_maintenanceSlot (s := s) (v := v) rfl (k := k) rfl
  have hdue := exec_retrainingDue (s := s) (v := v) rfl (k := k) rfl
  have hend := exec_retrainingEnd (s := s) (v := v) rfl (k := k) rfl
  have hsleep := exec_bankSleep (s := s) (v := v) rfl (k := k) rfl
  have hwake := exec_bankWake (s := s) (v := v) rfl (k := k) rfl
  refine ⟨fun h1 h2 h3 => hframe.trans (congrArg _ (if_pos ⟨h1, h2, h3⟩)), fun h => hframe.trans (congrArg _ (if_neg ?_)), ?_,
    fun h1 h2 h3 => hrefresh.trans (congrArg _ (if_pos ⟨h1, h2, h3⟩)), fun h => hrefresh.trans (congrArg _ (if_neg ?_)), ?_, rfl, ?_,
    exec_retrainingForce_none rfl rfl, fun d hd => ?_, ?_, ?_, fun h1 h2 => hwake.trans (congrArg _ (if_pos ⟨h1, h2⟩)),
    fun h => hwake.trans (congrArg _ (if_neg ?_)), fun line => ?_, ?_, fun u b h => State.lowerPower_capNext⟩
  · rintro ⟨h1, h2, h3⟩
    exact h.elim (fun hn => hn h1) fun h => h.elim (fun hn => hn h2) h3
  · intro now le
    have hnow : now ↔ (v.c < 30 ∧ s.slotNow v.a v.b v.c = true) := by
      rw [State.slotNow_iff]
      exact ⟨fun ⟨h1, h2, h3, h4, h5⟩ => ⟨h5, h1, h2, h3, h4⟩, fun ⟨h5, h1, h2, h3, h4⟩ => ⟨h1, h2, h3, h4, h5⟩⟩
    have hgo (h : now) := hstream.trans (congrArg Host.Outcome.next (if_neg (not_not_intro (hnow.mp h))))
    exact ⟨fun h => hstream.trans (congrArg _ (if_pos (mt hnow.mpr h))),
      fun h hl hu => (hgo h).trans (congrArg _ ((if_pos hl).trans (if_pos hu))),
      fun h hl hu => (hgo h).trans (congrArg _ ((if_pos hl).trans (if_neg (Nat.not_lt.mpr hu)))),
      fun h hl => (hgo h).trans (congrArg _ (if_neg (Nat.not_lt.mpr hl)))⟩
  · rintro ⟨h1, h2, h3⟩
    exact h.elim (fun hn => hn h1) fun h => h.elim (fun hn => hn h2) (Nat.not_lt.mpr h3)
  · intro now
    have hnow : now ↔ s.slotNow v.a v.b 31 = true := State.slotNow_iff.symm
    refine ⟨fun h => hmaint.trans (congrArg _ (if_neg (mt hnow.mpr h))), fun h => ?_⟩
    intro u
    have hgo (c : Scrub) (hc : v.scrub = c) : exec .maintenanceSlot s = .next (u.scrub k c) := by
      rw [← hc]
      exact hmaint.trans (congrArg _ (if_pos (hnow.mp h)))
    have hcol : u.col k = { x with slot := 32 } := State.col_modCol_same s k fun y => { y with slot := 32 }
    have hfix : (u.col k).fixes = x.fixes := by rw [hcol]
    refine ⟨hgo .sample, fun n hc hf => (hgo _ hc).trans (congrArg _ (State.scrub_writeBack_none (hfix ▸ hf))),
      fun n ls hc hf => (hgo _ hc).trans (congrArg _ (State.scrub_writeBack (hfix ▸ hf) rfl)), fun hc => (hgo _ hc).trans (congrArg _ ?_)⟩
    exact congrArg (fun p => ((u.linesAt k p).foldl (fun y l => (y.readStored l).settleFix k l) u).modCol k Column.patrolled)
      (show (u.col k).patrol = x.patrol by rw [hcol])
  · intro due
    exact ⟨fun h => hdue.trans (congrArg _ (if_pos h)), fun h => hdue.trans (congrArg _ (if_neg h))⟩
  · have hforce := exec_retrainingForce (s := s) (v := v) rfl (k := k) rfl hd
    intro must
    exact ⟨fun h => hforce.trans (congrArg _ (if_pos h)), fun h => hforce.trans (congrArg _ (if_neg h))⟩
  · intro ends
    refine ⟨fun h => hend.trans (congrArg _ (if_neg h)), fun h ho => ?_, fun l h ho hl => ?_⟩
    · rw [hend, if_pos h, ho]
      rfl
    · rw [hend, if_pos h, ho]
      exact congrArg _ (if_pos hl)
  · intro sleeps
    exact ⟨fun h => hsleep.trans (congrArg _ (if_pos h)), fun h => hsleep.trans (congrArg _ (if_neg h))⟩
  · rintro ⟨h1, h2⟩
    exact h.elim (fun hn => hn h1) fun hn => hn h2
  · intro b hk hb
    exact State.touchBank_wakes rfl hk hb
  · intro b
    refine ⟨exec_powerSample_early rfl, fun h8 hs => ?_⟩
    intro low since u
    have hbelow := exec_powerSample_below (s := s) (v := v) rfl h8 hs
    exact ⟨exec_powerSample_above rfl h8 hs, fun hc hl hb => (hbelow hc).trans (congrArg _ (if_pos ⟨hl, hb⟩)),
      fun hc hn => (hbelow hc).trans (congrArg _ (if_neg fun ⟨hl, hb⟩ => hn.elim (fun h => h hl) fun h => Nat.not_lt.mpr hb h))⟩

end Sys2Proof.Machine
end

section
/-! PROOFS. The books of granules: what a write-back, a reclaim and a move leave unchanged (R298-R310). -/

namespace Sys2Proof.Machine

/-! ## The marks of a partition -/

/-- The marks of a partition change its counters and tell the host, and nothing else (R300). -/
theorem State.marks_shape (s : State) (part : Nat) : ∃ ps o, s.marks part = { s with parts := ps, out := o } := by
  have hsend (t : State) (b : Bool) (m : Msg) : ∃ o, (if b = true then t.send m else t) = { t with out := o } := by
    cases b
    · exact ⟨t.out, rfl⟩
    · exact ⟨_, rfl⟩
  unfold State.marks
  dsimp only
  split
  · exact ⟨_, _, rfl⟩
  · next r _ =>
    obtain ⟨o1, h1⟩ := hsend s ((s.partn part).lowArm && decide ((s.partn part).free - (s.partn part).rsv < r.low)) (.lowmark part)
    rw [h1]
    obtain ⟨o2, h2⟩ := hsend { s with out := o1 }
      ((s.partn part).critArm && decide ((s.partn part).free - (s.partn part).rsv < r.crit)) (.critmark part)
    rw [h2]
    exact ⟨_, _, rfl⟩

/-- The marks leave the chunks of every partition. -/
theorem State.free_marks (s : State) (part p : Nat) : ((s.marks part).partn p).free = (s.partn p).free := by
  have hsend (t : State) (b : Bool) (m : Msg) : (if b = true then t.send m else t).partn p = t.partn p := by cases b <;> rfl
  unfold State.marks
  dsimp only
  split
  · rfl
  · show (tget ({} : Partition) (tput _ part _) p).free = _
    rw [tget_tput]
    split
    · next h =>
      subst h
      exact (congrArg Partition.free (hsend _ _ _)).trans (congrArg Partition.free (hsend s _ _))
    · exact (congrArg Partition.free (hsend _ _ _)).trans (congrArg Partition.free (hsend s _ _))

theorem State.rebook_shape (s : State) (g : Nat) (e e' : Granule) :
    ∃ ps o, s.rebook g e e' = { s with grans := tput s.grans g e', parts := ps, out := o } := by
  obtain ⟨ps, o, h⟩ := ((s.setGranule g e').modPart e.part fun p =>
    { p with free := p.free + e.nch - e'.nch, held := p.held + e'.nch - e.nch,
             rsv := p.rsv + (s.setGranule g e').reserve e' g e'.reserved - s.reserve e g e.reserved }).marks_shape e.part
  exact ⟨ps, o, h⟩

/-! ## Where a granule is read -/

/-- What a granule of which the machine keeps no entry is read from: the columns of the beds, the sequence pools and the page
tables. -/
def State.placing (s : State) : Tab Bed × Tab Pool × Tab Nat := (s.beds, s.pools, s.roots)

theorem keptByBooks_placing : KeptByBooks State.placing := fun _ _ _ _ _ _ _ _ _ => rfl

theorem State.granule_congr {s t : State} {g : Nat} (hl : t.placing = s.placing) (hg : tfind t.grans g = tfind s.grans g) :
    t.granule g = s.granule g := by
  simp only [State.placing, Prod.mk.injEq] at hl
  obtain ⟨hb, hp, hr⟩ := hl
  unfold State.granule State.bed State.mustBeRaw
  rw [hg, hb, hp, hr]

theorem State.granule_setGranule_same (s : State) (g : Nat) (e : Granule) : (s.setGranule g e).granule g = e :=
  State.granule_of_tfind (tfind_tput_same s.grans g e)

theorem State.granule_setGranule_other (s : State) {g a : Nat} (e : Granule) (h : a ≠ g) : (s.setGranule g e).granule a = s.granule a :=
  State.granule_congr rfl (tfind_tput_other s.grans e h)

/-! ## Write-back -/

/-- The machine with the lines of a granule written back as they stand: none of them is dirty any more. -/
def State.cleaned (s : State) (g : Nat) : State :=
  { (s.dirtyIn g).foldl State.rewritten s with dirty := ((s.dirtyIn g).foldl State.rewritten s).dirty.filter fun l => l / 64 != g }

section
variable (s : State) (g : Nat)

theorem State.rewritten_dirty (l : Nat) : (s.rewritten l).dirty = s.dirty := by
  unfold State.rewritten State.touchBank
  dsimp only
  repeat' split
  all_goals rfl

theorem State.mem_cleaned_dirty {l : Nat} : l ∈ (s.cleaned g).dirty ↔ l ∈ s.dirty ∧ l / 64 ≠ g := by
  unfold State.cleaned
  rw [foldl_keeps State.dirty State.rewritten_dirty]
  simp

theorem State.cleaned_grans : (s.cleaned g).grans = s.grans := foldl_grans State.rewritten_grans _ s

/-- The entry of a granule as a write-back leaves it (R298, R299, R302). -/
def State.recompacted (s : State) (g : Nat) (e : Granule) : Granule :=
  { e with codes := s.codesOf e g, nch := chunksOf ((s.codesOf e g).map codeSectors).sum,
           chunks := s.chunkNumbers e.bed e.col g (chunksOf ((s.codesOf e g).map codeSectors).sum),
           reserved := e.reserved.filter fun l => s.versionHolds (64 * g + l) }

theorem State.writeBack_unlisted (h : tfind s.grans g = none) : s.writeBack g = s.cleaned g := by
  unfold State.writeBack
  simp only [h]
  rfl

variable {e : Granule} (he : tfind s.grans g = some e)
include he

theorem State.writeBack_raw (h : e.raw = true) : s.writeBack g = s.cleaned g := by
  unfold State.writeBack
  simp only [he, h]
  rfl

theorem State.writeBack_packed (h : e.raw = false) : s.writeBack g = (s.cleaned g).rebook g e (s.recompacted g e) := by
  unfold State.writeBack
  simp only [he]
  exact if_neg (by rw [h]; decide)

end

/-- A write-back leaves every other granule as it was, and its own in its column. -/
theorem State.granule_writeBack_other (s : State) {g a : Nat} (h : a ≠ g) : (s.writeBack g).granule a = s.granule a := by
  have hclean : tfind (s.cleaned g).grans a = tfind s.grans a := by rw [State.cleaned_grans]
  refine State.granule_congr (keptByBooks_placing.writeBack s g) ?_
  cases he : tfind s.grans g with
  | none => rw [State.writeBack_unlisted s g he]; exact hclean
  | some e =>
    cases hr : e.raw with
    | true => rw [State.writeBack_raw s g he hr]; exact hclean
    | false =>
      obtain ⟨ps, o, hsh⟩ := (s.cleaned g).rebook_shape g e (s.recompacted g e)
      rw [State.writeBack_packed s g he hr, hsh]
      exact (tfind_tput_other _ _ h).trans hclean

/-! ## Reclaim -/

/-- A table with the entries of some keys alone. -/
theorem tget_filter_key {α : Type} (d : α) (f : Nat → Bool) (t : Tab α) (k : Nat) :
    tget d (t.filter fun p => f p.1) k = if f k = true then tget d t k else d := by
  induction t with
  | nil => exact (ite_self d).symm
  | cons p t ih =>
    obtain ⟨j, w⟩ := p
    by_cases hj : j = k
    · subst hj
      cases hf : f j with
      | true => simp [tget, hf]
      | false => simp [hf, ih]
    · cases hf : f j with
      | true => simp [tget, hf, ih, hj]
      | false => simp [tget, hf, ih, hj]

theorem memGet_filter (m : Mem) (f : Nat → Bool) (a : Nat) : memGet (m.filter fun p => f p.1) a = if f a = true then memGet m a else 0 :=
  tget_filter_key 0 f m a

section
variable {s : State} {g : Nat} {e : Granule} (he : tfind s.grans g = some e)
include he

theorem State.reclaimBalloon_kept (h : e.balloon = false) : s.reclaimBalloon g = s := by
  unfold State.reclaimBalloon
  simp only [he, h]
  rfl

/-- The entry of a granule that the balloon list gave up: zeros, without chunks (R305). -/
def State.reclaimed (s : State) (g : Nat) (e : Granule) : Granule :=
  { e with codes := List.replicate 64 0, nch := 0, chunks := [], balloon := false,
           reserved := e.reserved.filter fun l => s.versionHolds (64 * g + l) }

/-- A reclaim of the balloon list: the granule reads as zeros, has no line in error, no chunk, and is off the list. -/
theorem State.reclaimBalloon_reclaims (h : e.balloon = true) :
    (s.reclaimBalloon g).mem = (s.mem.filter fun p => p.1 / 8192 != g) ∧
    (s.reclaimBalloon g).errs = (s.errs.filter fun p => p.1 / 64 != g) ∧
    (∃ e', (s.reclaimBalloon g).granule g = e' ∧ e'.nch = 0 ∧ e'.balloon = false) ∧
    g ∉ ((s.reclaimBalloon g).partn e.part).balloon := by
  let t : State := { s with
    mem := s.mem.filter fun p => p.1 / 8192 != g, poison := s.poison.filter fun l => l / 64 != g
    errs := s.errs.filter fun p => p.1 / 64 != g, l2 := s.l2.filter fun l => l / 64 != g
    dirty := s.dirty.filter fun l => l / 64 != g }
  have heq : s.reclaimBalloon g = (t.rebook g e (t.reclaimed g e)).modPart e.part fun p =>
      { p with balloon := p.balloon.filter (· != g) } := by
    unfold State.reclaimBalloon
    simp only [he]
    exact if_neg (by rw [h]; decide)
  obtain ⟨ps, o, hsh⟩ := t.rebook_shape g e (t.reclaimed g e)
  rw [heq]
  refine ⟨?_, ?_, ⟨t.reclaimed g e, ?_, rfl, rfl⟩, ?_⟩
  · rw [hsh]
    rfl
  · rw [hsh]
    rfl
  · rw [hsh]
    exact State.granule_of_tfind (tfind_tput_same ..)
  · rw [show ((t.rebook g e (t.reclaimed g e)).modPart e.part fun p => { p with balloon := p.balloon.filter (· != g) }).partn e.part =
      { (t.rebook g e (t.reclaimed g e)).partn e.part with
        balloon := ((t.rebook g e (t.reclaimed g e)).partn e.part).balloon.filter (· != g) } from tget_tput_same ..]
    simp

end

/-! ## Migration -/

/-- The lines that a granule carries to its new column change the marks of poison and of errors alone. -/
theorem State.carryLines_keeps {β : Type} {f : State → β} (hp : ∀ (s : State) p, f { s with poison := p } = f s)
    (he : ∀ (s : State) es, f { s with errs := es } = f s) (s : State) (g : Nat) : f (s.carryLines g) = f s := by
  unfold State.carryLines
  refine (he _ _).trans (foldl_keeps f (fun t i => ?_) _ s)
  unfold State.poisonLine
  split
  · split
    · rfl
    · exact hp t _
  · rfl

/-- A granule that has left its slice: the others are as they were. -/
theorem State.granule_leaveSlice_other (s : State) (col : Nat) {g a : Nat} (h : a ≠ g) : (s.leaveSlice g col).granule a = s.granule a := by
  have hw : (if s.dirtyIn g = [] then s else s.writeBack g).granule a = s.granule a := by
    split
    · rfl
    · exact State.granule_writeBack_other s h
  unfold State.leaveSlice
  dsimp only
  split
  · exact hw
  · exact hw

theorem State.granule_placeIn_other (s : State) (col : Nat) {g a : Nat} (h : a ≠ g) : (s.placeIn g col).granule a = s.granule a := by
  have hcarry : ((s.leaveSlice g col).carryLines g).granule a = (s.leaveSlice g col).granule a :=
    State.carryLines_keeps (f := (State.granule · a)) (fun _ _ => rfl) (fun _ _ => rfl) _ g
  unfold State.placeIn
  exact (State.granule_setGranule_other _ _ h).trans (hcarry.trans (State.granule_leaveSlice_other s col h))

/-- A granule that is placed in a column lies there, its copy ended. -/
theorem State.granule_placeIn (s : State) (g col : Nat) : ((s.placeIn g col).granule g).col = col ∧
    ((s.placeIn g col).granule g).copying = none := by
  unfold State.placeIn
  dsimp only
  rw [State.granule_setGranule_same]
  exact ⟨rfl, rfl⟩

/-! ## Chunks that leave the count -/

/-- The first bed gives what it has; where it has all that is asked for, no other bed gives any. -/
theorem takeChunks_first {b n : Nat} {r : List Nat} {t : Tab Nat} (h : n ≤ tget 0 t b) :
    tget 0 (takeChunks (b :: r) n t) b = tget 0 t b - n ∧ chunksShort (b :: r) n t = 0 := by
  have hmin : min n (tget 0 t b) = n := Nat.min_eq_left h
  have hzero (l : List Nat) (u : Tab Nat) : tget 0 (takeChunks l 0 u) b = tget 0 u b ∧ chunksShort l 0 u = 0 := by
    induction l generalizing u with
    | nil => exact ⟨rfl, rfl⟩
    | cons c l ih =>
      unfold takeChunks chunksShort
      simp only [Nat.zero_min, Nat.sub_zero]
      obtain ⟨h1, h2⟩ := ih (tput u c (tget 0 u c))
      refine ⟨h1.trans ?_, h2⟩
      rw [tget_tput]
      split
      · next h => rw [h]
      · rfl
  unfold takeChunks chunksShort
  simp only [hmin, Nat.sub_self]
  obtain ⟨h1, h2⟩ := hzero r (tput t b (tget 0 t b - n))
  exact ⟨h1.trans (tget_tput_same ..), h2⟩

/-- A partition with fewer free chunks. -/
def State.lessFree (s : State) (part k : Nat) : State := s.modPart part fun q => { q with free := q.free - k }

/-- What one partition gives of the chunks that are still to leave the count (R309). -/
def State.loseFrom (pick : Nat) (u : State × Nat) (i : Nat) : State × Nat :=
  let part := (i + pick) % 16
  let p := u.1.partn part
  let k := min u.2 (p.free - p.rsv)
  if k = 0 then u else ((u.1.lessFree part k).marks part, u.2 - k)

theorem State.loseChunks_eq (s : State) (bed n pick : Nat) : s.loseChunks bed n pick =
    ((List.range 16).foldl (State.loseFrom pick)
      ({ s with devPool := takeChunks ((List.range 8).map fun i => (i + bed) % 8) n s.devPool },
        chunksShort ((List.range 8).map fun i => (i + bed) % 8) n s.devPool)).1 := rfl

/-- Where none is left to lose, no partition gives any. -/
theorem State.loseFrom_none (pick : Nat) (l : List Nat) (s : State) : l.foldl (State.loseFrom pick) (s, 0) = (s, 0) := by
  induction l with
  | nil => rfl
  | cons i l ih =>
    have h : State.loseFrom pick (s, 0) i = (s, 0) := by
      unfold State.loseFrom
      simp
    rw [List.foldl_cons, h]
    exact ih

/-- What partitions lose is told by their books and the host's queue alone. -/
theorem State.loseFrom_shape (pick : Nat) (l : List Nat) (u : State × Nat) :
    ∃ ps o n, l.foldl (State.loseFrom pick) u = ({ u.1 with parts := ps, out := o }, n) := by
  induction l generalizing u with
  | nil => exact ⟨u.1.parts, u.1.out, u.2, rfl⟩
  | cons i l ih =>
    have hstep : ∃ ps o n, State.loseFrom pick u i = ({ u.1 with parts := ps, out := o }, n) := by
      unfold State.loseFrom
      dsimp only
      split
      · exact ⟨u.1.parts, u.1.out, u.2, rfl⟩
      · obtain ⟨ps, o, h⟩ := (u.1.lessFree ((i + pick) % 16)
          (min u.2 ((u.1.partn ((i + pick) % 16)).free - (u.1.partn ((i + pick) % 16)).rsv))).marks_shape ((i + pick) % 16)
        exact ⟨ps, o, _, by rw [h]; rfl⟩
    obtain ⟨ps, o, n, h⟩ := hstep
    obtain ⟨ps', o', n', h'⟩ := ih ({ u.1 with parts := ps, out := o }, n)
    exact ⟨ps', o', n', by rw [List.foldl_cons, h, h']⟩

/-- The machine with other columns. -/
def State.withCols (s : State) (cs : Tab Column) : State := { s with cols := cs }

theorem State.marks_withCols (s : State) (cs : Tab Column) (part : Nat) : (s.withCols cs).marks part = (s.marks part).withCols cs := by
  have hp : (s.withCols cs).partn part = s.partn part := rfl
  unfold State.marks
  dsimp only
  rw [hp]
  cases (s.partn part).record with
  | none => rfl
  | some r =>
    dsimp only
    generalize ((s.partn part).lowArm && decide ((s.partn part).free - (s.partn part).rsv < r.low)) = low
    generalize ((s.partn part).critArm && decide ((s.partn part).free - (s.partn part).rsv < r.crit)) = crit
    cases low <;> cases crit <;> rfl

/-- What the columns are has no part in the loss of chunks. -/
theorem State.loseFrom_withCols (cs : Tab Column) (pick : Nat) (l : List Nat) (s : State) (n : Nat) :
    l.foldl (State.loseFrom pick) (s.withCols cs, n) =
      ((l.foldl (State.loseFrom pick) (s, n)).1.withCols cs, (l.foldl (State.loseFrom pick) (s, n)).2) := by
  induction l generalizing s n with
  | nil => rfl
  | cons i l ih =>
    have hstep : State.loseFrom pick (s.withCols cs, n) i =
        ((State.loseFrom pick (s, n) i).1.withCols cs, (State.loseFrom pick (s, n) i).2) := by
      by_cases hk : min n ((s.partn ((i + pick) % 16)).free - (s.partn ((i + pick) % 16)).rsv) = 0
      · exact (if_pos hk).trans (by rw [show State.loseFrom pick (s, n) i = (s, n) from if_pos hk])
      · have h0 : State.loseFrom pick (s, n) i = _ := if_neg hk
        rw [h0]
        exact (if_neg hk).trans (congrArg (·, _) (State.marks_withCols (s.lessFree ((i + pick) % 16)
          (min n ((s.partn ((i + pick) % 16)).free - (s.partn ((i + pick) % 16)).rsv))) cs _))
    rw [List.foldl_cons, List.foldl_cons, hstep]
    exact ih ..

theorem State.loseChunks_withCols (s : State) (cs : Tab Column) (bed n pick : Nat) :
    (s.withCols cs).loseChunks bed n pick = (s.loseChunks bed n pick).withCols cs := by
  have h := congrArg Prod.fst (State.loseFrom_withCols cs pick (List.range 16)
    { s with devPool := takeChunks ((List.range 8).map fun i => (i + bed) % 8) n s.devPool }
    (chunksShort ((List.range 8).map fun i => (i + bed) % 8) n s.devPool))
  exact ((s.withCols cs).loseChunks_eq bed n pick).trans (h.trans (congrArg (State.withCols · cs) (s.loseChunks_eq bed n pick).symm))

end Sys2Proof.Machine
end

section
/-! PROOFS. The rake's events; O59 (R36, R111, R298, R302-R305, R308-R310). -/

namespace Sys2Proof.Machine

/-! ## Write-back and headroom -/

theorem exec_l2Writeback {s : State} {g : Nat} (hg : s.cur.ev.a = g) : exec .l2Writeback s = .next (s.writeBack g) := by
  subst hg
  rfl

theorem exec_balloonReclaim {s : State} {g : Nat} (hg : s.cur.ev.a = g) : exec .balloonReclaim s = .next (
    if s.lacks (s.granule g).part ≠ 0 ∧ s.poolDraw (s.granule g).part = 0 ∧ s.recompactable (s.granule g).part = []
    then s.reclaimBalloon g else s) := by
  subst hg
  exact congrArg _ (ite_swap (by simp [and_assoc]) ..)

section
variable {s : State} {part : Nat} {pick : Nat}

theorem State.rake_enough (h : s.lacks part = 0) : s.rake part pick = s := if_pos h

theorem State.rake_draws (h : 0 < s.poolDraw part) : (s.rake part pick).mem = s.mem ∧
    ((s.rake part pick).partn part).free = (s.partn part).free + s.poolDraw part := by
  have hl : s.lacks part ≠ 0 := fun h0 => by
    unfold State.poolDraw at h
    rw [h0, Nat.zero_min] at h
    split at h <;> exact Nat.lt_irrefl 0 h
  have heq : s.rake part pick = _ := (if_neg hl).trans (if_pos h)
  rw [heq]
  exact ⟨State.marks_mem .., (State.free_marks ..).trans (congrArg Partition.free (tget_tput_same ..))⟩

theorem State.rake_recompacts {g : Nat} (hl : s.lacks part ≠ 0) (hp : s.poolDraw part = 0)
    (hc : choose (s.recompactable part) pick = some g) : s.rake part pick = s.writeBack g := by
  unfold State.rake
  simp only [hc, hp, Nat.lt_irrefl, if_false]
  exact if_neg hl

theorem State.rake_reclaims {g : Nat} {r : List Nat} (hl : s.lacks part ≠ 0) (hp : s.poolDraw part = 0)
    (hc : choose (s.recompactable part) pick = none) (hb : (s.partn part).balloon = g :: r) :
    s.rake part pick = s.reclaimBalloon g := by
  unfold State.rake
  simp only [hc, hp, hb, Nat.lt_irrefl, if_false]
  exact if_neg hl

end

theorem exec_spaceTimeout {s : State} {n part : Nat} {w : SpaceWait} (hn : s.cur.ev.a = n) (hw : s.allWaits[n]? = some (part, w)) :
    exec .spaceTimeout s = .next (
      if w.since + 200000 ≤ s.clock ∧ w.migrates = false ∧ w.forText = false ∧ s.canMeet part w = false then
        (((s.modPart part fun p => { p with spc := (p.spc + 1) % 2 ^ 32, waits := p.waits.filter (· != w) }).record
          (s.granule w.granule).bed 6 part (match w.ctx with | some (k, _) => k / 4 | none => 0) false
          (128 * (64 * w.granule + w.line)) (s.needOf part w)).spaceFault w)
      else s) := by
  subst hn
  rw [show exec .spaceTimeout s = execSpaceTimeout s from rfl]
  unfold execSpaceTimeout
  simp only [hw]
  exact congrArg _ (ite_swap (by simp [clocks50us]) ..)

/-! ## Migration -/

/-- A migration given up for lack of chunks (R310). -/
def State.giveUpMove (s : State) (g : Nat) (w : SpaceWait) : State :=
  (s.modPart (s.granule g).part fun p => { p with spc := (p.spc + 1) % 2 ^ 32, waits := p.waits.filter (· != w) }).setGranule g
    { s.granule g with tried := some (s.partn (s.granule g).part).rises }

theorem State.giveUpMove_gives (s : State) (g : Nat) (w : SpaceWait) : (s.giveUpMove g w).mem = s.mem ∧
    ((s.giveUpMove g w).partn (s.granule g).part).spc = ((s.partn (s.granule g).part).spc + 1) % 2 ^ 32 ∧
    w ∉ ((s.giveUpMove g w).partn (s.granule g).part).waits ∧
    ((s.giveUpMove g w).granule g).tried = some (s.partn (s.granule g).part).rises ∧
    ((s.giveUpMove g w).granule g).col = (s.granule g).col := by
  have hp : (s.giveUpMove g w).partn (s.granule g).part = { s.partn (s.granule g).part with
    spc := ((s.partn (s.granule g).part).spc + 1) % 2 ^ 32, waits := (s.partn (s.granule g).part).waits.filter (· != w) } := tget_tput_same ..
  have hg : (s.giveUpMove g w).granule g = { s.granule g with tried := some (s.partn (s.granule g).part).rises } :=
    State.granule_setGranule_same ..
  rw [hp, hg]
  exact ⟨rfl, rfl, by simp, rfl, rfl⟩

section
variable {s : State} {g : Nat} (hg : s.cur.ev.a = g)
include hg

theorem exec_granuleMigrate_none (h : (s.granule g).copying = none) : exec .granuleMigrate s = .next (
    if s.movable g (s.granule g) ∧ (s.granule g).tried = none then s.startCopy s.cur.pick g else s) := by
  subst hg
  rw [show exec .granuleMigrate s = execGranuleMigrate s from rfl]
  unfold execGranuleMigrate
  simp [h]

theorem exec_granuleMigrate_again {c : Nat} (h : (s.granule g).copying = some (c, true)) :
    exec .granuleMigrate s = .next (s.setGranule g { s.granule g with copying := some (c, false) }) := by
  subst hg
  rw [show exec .granuleMigrate s = execGranuleMigrate s from rfl]
  unfold execGranuleMigrate
  simp only [h]

theorem exec_granuleMigrate_copied {c : Nat} (h : (s.granule g).copying = some (c, false)) :
    exec .granuleMigrate s = .next (if s.sliceClear g then s.placeIn g c else s) := by
  subst hg
  rw [show exec .granuleMigrate s = execGranuleMigrate s from rfl]
  unfold execGranuleMigrate
  simp only [h]

theorem exec_migrationTimeout {w : SpaceWait}
    (hw : (s.partn (s.granule g).part).waits.find? (fun w => w.migrates && w.granule == g) = some w) :
    exec .migrationTimeout s = .next (
      if !s.movable g (s.granule g) then s.modPart (s.granule g).part fun p => p.endMigrations (· == g)
      else if s.clock < w.since + clocks50us ∨ (s.payMove g (s.granule g)).isSome then s
      else s.giveUpMove g w) := by
  subst hg
  rw [show exec .migrationTimeout s = execMigrationTimeout s from rfl]
  unfold execMigrationTimeout State.giveUpMove
  simp only [hw]

theorem exec_migrationRetry_none (h : (s.granule g).tried = none) : exec .migrationRetry s = .next s := by
  subst hg
  rw [show exec .migrationRetry s = execMigrationRetry s from rfl]
  unfold execMigrationRetry
  simp only [h]

theorem exec_migrationRetry {n : Nat} (h : (s.granule g).tried = some n) : exec .migrationRetry s = .next (
    if n < (s.partn (s.granule g).part).rises ∧ s.movable g (s.granule g) then s.startCopy s.cur.pick g else s) := by
  subst hg
  rw [show exec .migrationRetry s = execMigrationRetry s from rfl]
  unfold execMigrationRetry
  simp only [h]

end

/-! ## Drain, retirement and the switch of a trellis -/

/-- A bound column of a bed is to be drained (R308). -/
def State.drainable (s : State) (bed col : Nat) : Prop :=
  bed < 8 ∧ col < 68 ∧ (s.col (colKey bed col)).drain = true ∧ (s.col (colKey bed col)).retired = false ∧ col ∈ (s.bed bed).bound

/-- The copies of the granules of a column begun, a spare being promised or in its place (R308). -/
def State.beginDrain (s : State) (bed col t pick : Nat) : State :=
  let u := if s.columnBound (colKey bed col) then s.modCol (colKey bed col) (fun y => { y with target := some t })
    else s.takeOver bed col t
  (u.grans.filter fun p => p.2.bed == bed && p.2.col == col && p.2.copying.isNone && u.movable p.1 p.2).foldl
    (fun w p => w.startCopy (pick + p.1) p.1) u

theorem State.not_drainable_iff {s : State} {bed col : Nat} : ¬s.drainable bed col ↔
    (!isColumn bed col || !(s.col (colKey bed col)).drain || (s.col (colKey bed col)).retired || !(s.bed bed).bound.contains col) = true := by
  unfold State.drainable
  rw [← not_iff_not, not_not]
  simp [isColumn_iff, and_assoc]

theorem State.drainable_iff {s : State} {bed col : Nat} : s.drainable bed col ↔
    ¬(!isColumn bed col || !(s.col (colKey bed col)).drain || (s.col (colKey bed col)).retired || !(s.bed bed).bound.contains col) = true := by
  rw [← State.not_drainable_iff, not_not]

/-- The machine with the copies that are on their way to a column given up (R309). -/
def State.recalled (s : State) (bed col : Nat) : State :=
  { s with grans := s.grans.map fun p =>
      if p.2.bed = bed ∧ p.2.copying.any (fun q => q.1 == col) then (p.1, { p.2 with copying := none }) else p }

/-- A column retired: its free chunks leave the count, and the host is told (R309). -/
def State.retireColumn (s : State) (bed col pick : Nat) : State :=
  let u := (s.recalled bed col).modCol (colKey bed col) fun y => { y with retired := true }
  ((u.loseChunks bed ((s.recalled bed col).columnRoom bed col) pick).record bed 5 0 col true 0 ((u.openCols bed).length)).send (.retired bed)

section
variable {s : State} {v : EvArgs} (hv : s.cur.ev = v)
include hv

theorem exec_columnDrain_not (h : ¬s.drainable v.a v.b) : exec .columnDrain s = .next s ∧ exec .columnRetire s = .next s := by
  subst hv
  have hc := State.not_drainable_iff.mp h
  refine ⟨congrArg _ (if_pos hc), congrArg _ (if_pos ?_)⟩
  simp only [Bool.or_eq_true] at hc ⊢
  tauto

variable (h : s.drainable v.a v.b)
include h

theorem exec_columnDrain_spare {t : Nat} (ht : (s.col (colKey v.a v.b)).target = some t ∨
    (s.col (colKey v.a v.b)).target = none ∧ choose (s.spares v.a) s.cur.pick = some t) :
    exec .columnDrain s = .next (s.beginDrain v.a v.b t s.cur.pick) := by
  subst hv
  refine congrArg _ ((if_neg (State.drainable_iff.mp h)).trans ?_)
  rcases ht with ht | ⟨ht, hc⟩
  · simp only [ht]
    rfl
  · simp only [ht, hc]
    rfl

theorem exec_columnDrain_none (ht : (s.col (colKey v.a v.b)).target = none) (hn : choose (s.spares v.a) s.cur.pick = none) :
    exec .columnDrain s = .next s := by
  subst hv
  refine congrArg _ ((if_neg (State.drainable_iff.mp h)).trans ?_)
  simp only [ht, hn]

theorem exec_columnRetire_kept (ht : (s.col (colKey v.a v.b)).target ≠ none ∨ s.spares v.a ≠ []) : exec .columnRetire s = .next s := by
  subst hv
  refine congrArg _ (if_pos ?_)
  rcases ht with ht | ht
  · simp [Option.isSome_iff_ne_none.mpr ht]
  · simp [ht]

theorem exec_columnRetire (ht : (s.col (colKey v.a v.b)).target = none) (hs : s.spares v.a = []) :
    exec .columnRetire s = .next (s.retireColumn v.a v.b s.cur.pick) := by
  subst hv
  have hd := State.drainable_iff.mp h
  rw [show exec .columnRetire s = execColumnRetire s from rfl]
  unfold execColumnRetire State.retireColumn State.recalled
  refine congrArg _ (if_neg ?_)
  simp only [ht, hs, Bool.or_eq_true] at hd ⊢
  simpa using hd

end

theorem State.loseChunks_mem (s : State) (bed n pick : Nat) : (s.loseChunks bed n pick).mem = s.mem := by
  obtain ⟨ps, o, m, h⟩ := State.loseFrom_shape pick (List.range 16)
    ({ s with devPool := takeChunks ((List.range 8).map fun i => (i + bed) % 8) n s.devPool },
      chunksShort ((List.range 8).map fun i => (i + bed) % 8) n s.devPool)
  rw [s.loseChunks_eq bed n pick, h]

/-- What a retirement leaves of the chunks, whether or not the column is marked. -/
theorem State.retireColumn_chunks (s : State) (bed col pick : Nat) :
    (s.retireColumn bed col pick).mem = s.mem ∧ ((s.retireColumn bed col pick).col (colKey bed col)).retired = true ∧
    (s.retireColumn bed col pick).out.getLast? = some (.retired bed) ∧
    (s.retireColumn bed col pick).devPool =
      ((s.recalled bed col).loseChunks bed ((s.recalled bed col).columnRoom bed col) pick).devPool ∧
    (s.retireColumn bed col pick).parts =
      ((s.recalled bed col).loseChunks bed ((s.recalled bed col).columnRoom bed col) pick).parts := by
  let cs := ((s.recalled bed col).modCol (colKey bed col) fun y => { y with retired := true }).cols
  have hl := (s.recalled bed col).loseChunks_withCols cs bed ((s.recalled bed col).columnRoom bed col) pick
  have hcol : (tget ({} : Column) cs (colKey bed col)).retired = true := congrArg Column.retired (tget_tput_same ..)
  have heq : s.retireColumn bed col pick = ((((s.recalled bed col).loseChunks bed ((s.recalled bed col).columnRoom bed col) pick).withCols cs).record
      bed 5 0 col true 0 ((((s.recalled bed col).withCols cs).openCols bed).length)).send (.retired bed) := by
    rw [← hl]
    rfl
  have hm : ((s.recalled bed col).loseChunks bed ((s.recalled bed col).columnRoom bed col) pick).mem = s.mem := State.loseChunks_mem ..
  rw [heq]
  generalize (s.recalled bed col).loseChunks bed ((s.recalled bed col).columnRoom bed col) pick = x at hm ⊢
  exact ⟨hm, hcol, List.getLast?_concat .., rfl, rfl⟩

/-- Chunks that the device pool of a bed holds leave it alone. -/
theorem State.loseChunks_fromPool (s : State) {bed n : Nat} (pick : Nat) (hb : bed < 8) (h : n ≤ tget 0 s.devPool bed) :
    tget 0 (s.loseChunks bed n pick).devPool bed = tget 0 s.devPool bed - n ∧ (s.loseChunks bed n pick).parts = s.parts := by
  have hbeds : (List.range 8).map (fun i => (i + bed) % 8) = bed :: (List.range' 1 7).map (fun i => (i + bed) % 8) := by
    rw [show List.range 8 = 0 :: List.range' 1 7 from rfl, List.map_cons, Nat.zero_add, Nat.mod_eq_of_lt hb]
  obtain ⟨h1, h2⟩ := takeChunks_first (r := (List.range' 1 7).map fun i => (i + bed) % 8) h
  have heq := s.loseChunks_eq bed n pick
  rw [hbeds, h2, State.loseFrom_none] at heq
  rw [heq]
  exact ⟨h1, rfl⟩

/-- A lane of a group stands at an `lsync` of a task of its region. -/
theorem State.groupSyncs_iff {s : State} {id : Nat} {b : GroupBind} : s.groupSyncs id b = true ↔
    ∃ n ∈ b.lane, ∃ k r, s.syncHead n = some (k, r) ∧ (s.ctx k).regid = id := by
  unfold State.groupSyncs
  rw [List.any_eq_true]
  refine exists_congr fun n => and_congr_right fun _ => ?_
  cases s.syncHead n with
  | none => simp
  | some p => simp [Prod.ext_iff]

theorem exec_trellisSwitch {s : State} {v : EvArgs} (hv : s.cur.ev = v) {c t : Nat} (hl : (s.region v.a).live = true)
    (hc : (((s.region v.a).trellis.getD v.b {}).column)[v.c]? = some c) (ht : (s.col c).target = some t) :
    exec .trellisSwitch s = .next (if !s.groupSyncs v.a ((s.region v.a).trellis.getD v.b {}) then s
      else ((s.moveWindows (c / 68) (c % 68) t).takeOver (c / 68) (c % 68) t).renameLane c (colKey (c / 68) t)) := by
  subst hv
  rw [show exec .trellisSwitch s = execTrellisSwitch s from rfl]
  unfold execTrellisSwitch
  simp only [hl, hc, ht]

/-- Settles O59, event by event. -/
theorem rakeAtWork : Obligations.RakeAtWork := by
  intro s v pick e clean
  have hwb := exec_l2Writeback (s := s) (g := v.a) rfl
  have hbal := exec_balloonReclaim (s := s) (g := v.a) rfl
  have hwrite (u : State) (h : s.writeBack v.a = u) : exec .l2Writeback s = .next u := hwb.trans (congrArg _ h)
  refine ⟨fun h => ⟨hwrite _ (State.writeBack_unlisted s v.a h), ?_⟩, fun g hg hr => hwrite _ (State.writeBack_raw s v.a hg hr),
    fun g hg hr => ?_, ?_, ?_, fun part w hw => ?_, exec_granuleMigrate_none rfl, fun c => exec_granuleMigrate_again rfl,
    fun c hc => ?_, fun w hw => ?_, fun n => exec_migrationRetry rfl, exec_migrationRetry_none rfl, ?_, fun c t hl hc ht => ?_⟩
  · refine hbal.trans (congrArg _ ?_)
    have hkeep : s.reclaimBalloon v.a = s := by
      unfold State.reclaimBalloon
      simp only [h]
    rw [hkeep]
    exact ite_self _
  · obtain ⟨ps, o, hsh⟩ := (s.cleaned v.a).rebook_shape v.a g (s.recompacted v.a g)
    have heq := State.writeBack_packed s v.a hg hr
    have hgr : (s.writeBack v.a).granule v.a = s.recompacted v.a g := by
      rw [heq, hsh]
      exact State.granule_of_tfind (tfind_tput_same ..)
    have hd : (s.writeBack v.a).dirty = (s.cleaned v.a).dirty := by rw [heq, hsh]
    exact ⟨_, hwb, State.writeBack_mem .., congrArg Granule.codes hgr, congrArg Granule.nch hgr,
      fun l => by rw [hd]; exact State.mem_cleaned_dirty s v.a, fun a => State.granule_writeBack_other s⟩
  · intro turn
    refine ⟨fun h => hbal.trans (congrArg _ (if_neg h)), fun g hg hb => ?_, fun g hg hb ht => ?_⟩
    · rw [hbal, State.reclaimBalloon_kept hg hb, ite_self]
    · obtain ⟨hm, hes, ⟨e', hge, hn, hbf⟩, hlist⟩ := State.reclaimBalloon_reclaims hg hb
      have hget (a : Nat) : memGet (s.reclaimBalloon v.a).mem a = if (a / 8192 != v.a) = true then memGet s.mem a else 0 := by
        rw [hm]
        exact memGet_filter s.mem (fun a => a / 8192 != v.a) a
      refine ⟨_, hbal.trans (congrArg _ (if_pos ht)), fun a ha => (hget a).trans (if_neg (by simp [ha])),
        fun a ha => (hget a).trans (if_pos (by simp [ha])), fun p hp => ?_, by rw [hge, hn], by rw [hge, hbf], hlist⟩
      rw [hes] at hp
      simpa using (List.mem_filter.mp hp).2
  · intro p short pool
    have hrake : exec .rakeReclaim s = .next (s.rake v.a pick) := rfl
    have hgo (u : State) (h : s.rake v.a pick = u) : exec .rakeReclaim s = .next u := hrake.trans (congrArg _ h)
    refine ⟨fun h => hgo _ (State.rake_enough h), fun h => ?_, fun g hs hp hc => hgo _ (State.rake_recompacts hs hp hc),
      fun g r hs hp hc hb => hgo _ (State.rake_reclaims hs hp hc hb)⟩
    obtain ⟨hm, hf⟩ := State.rake_draws (s := s) (part := v.a) (pick := pick) h
    exact ⟨_, hrake, hm, hf⟩
  · intro lapses
    have h := exec_spaceTimeout (s := s) rfl hw
    refine ⟨fun hn => h.trans (congrArg _ (if_neg hn)), fun hl => ?_⟩
    intro die u core
    exact h.trans (congrArg _ (if_pos hl))
  · have h := exec_granuleMigrate_copied (s := s) rfl hc
    obtain ⟨hcol, hcopy⟩ := s.granule_placeIn v.a c
    exact ⟨fun hs => h.trans (congrArg _ (if_neg (Bool.eq_false_iff.mp hs))), fun hs =>
      ⟨_, h.trans (congrArg _ (if_pos hs)), State.placeIn_mem .., hcol, hcopy, fun g => State.granule_placeIn_other s c⟩⟩
  · intro lapses
    have h := exec_migrationTimeout (s := s) rfl hw
    have hmov (hm : s.movable v.a e = true) := h.trans (congrArg Host.Outcome.next (if_neg (by rw [show s.movable v.a (s.granule v.a) = true from hm]; decide)))
    refine ⟨fun hm => h.trans (congrArg _ (if_pos (by rw [show s.movable v.a (s.granule v.a) = false from hm]; rfl))), fun hm hn => ?_, fun hl => ?_⟩
    · refine (hmov hm).trans (congrArg _ (if_pos ?_))
      by_contra hc
      rw [not_or, Nat.not_lt, Option.not_isSome_iff_eq_none] at hc
      exact hn ⟨hm, hc⟩
    · obtain ⟨hm, ht, hp⟩ := hl
      obtain ⟨hmem, hspc, hwait, htried, hcol⟩ := s.giveUpMove_gives v.a w
      refine ⟨_, (hmov hm).trans (congrArg _ (if_neg ?_)), hmem, hspc, hwait, htried, hcol⟩
      rw [not_or, Nat.not_lt, Option.not_isSome_iff_eq_none]
      exact ⟨ht, hp⟩
  · intro x drains
    refine ⟨exec_columnDrain_not rfl, exec_columnDrain_none rfl, fun t hd ht => exec_columnDrain_spare rfl hd ht,
      exec_columnRetire_kept rfl, ?_⟩
    intro back room hd ht hs
    obtain ⟨hm, hcol, hout, hpool, hparts⟩ := s.retireColumn_chunks v.a v.b pick
    refine ⟨_, exec_columnRetire rfl hd ht hs, hm, hcol, hout, fun hroom => ?_, hpool, hparts⟩
    obtain ⟨h1, h2⟩ := (s.recalled v.a v.b).loseChunks_fromPool pick hd.1 hroom
    rw [hpool, hparts]
    exact ⟨h1, h2⟩
  · intro syncs
    have h := exec_trellisSwitch (s := s) (v := v) rfl hl hc ht
    have hsync : syncs ↔ s.groupSyncs v.a ((s.region v.a).trellis.getD v.b {}) = true := State.groupSyncs_iff.symm
    refine ⟨fun hn => h.trans (congrArg _ (if_pos ?_)), fun hs => h.trans (congrArg _ (if_neg ?_))⟩
    · rw [Bool.eq_false_iff.mpr (mt hsync.mpr hn)]
      rfl
    · rw [hsync.mp hs]
      decide

end Sys2Proof.Machine
end

section
/-! PROOFS. The host's messages and inbound RDMA (R300, R305, R311, R352, R359, R362). -/

namespace Sys2Proof.Machine

/-! ## Bytes written under marks -/

/-- The value at a key that a table lists with one value alone. -/
theorem tfind_of_unique {α : Type} {t : Tab α} {k : Nat} {v : α} (h : (k, v) ∈ t) (hu : ∀ w, (k, w) ∈ t → w = v) :
    tfind t k = some v := by
  induction t with
  | nil => cases h
  | cons p t ih =>
    obtain ⟨j, w⟩ := p
    unfold tfind
    split
    · next hj =>
      subst hj
      rw [hu w List.mem_cons_self]
    · next hj =>
      refine ih ((List.mem_cons.mp h).resolve_left fun he => hj (Prod.ext_iff.mp he).1.symm) fun w hw => hu w (List.mem_cons_of_mem _ hw)

/-- Bytes with the places at which they are to be written, from an offset on. -/
def bytesAt (o : Nat) (bs : List Byte) : Tab Byte := ((List.range bs.length).zip bs).map fun p => (o + p.1, p.2)

theorem mem_bytesAt {o x : Nat} {b : Byte} {bs : List Byte} : (x, b) ∈ bytesAt o bs ↔ ∃ i, ∃ h : i < bs.length, x = o + i ∧ b = bs[i] := by
  unfold bytesAt
  constructor
  · intro h
    obtain ⟨p, hp, he⟩ := List.mem_map.mp h
    obtain ⟨i, hi, hpi⟩ := List.mem_iff_getElem.mp hp
    have hlen : i < bs.length := by simpa using hi
    refine ⟨i, hlen, ?_⟩
    rw [← hpi] at he
    simp only [List.getElem_zip, List.getElem_range, Prod.mk.injEq] at he
    exact ⟨he.1.symm, he.2.symm⟩
  · rintro ⟨i, h, rfl, rfl⟩
    refine List.mem_map.mpr ⟨(i, bs[i]), List.mem_iff_getElem.mpr ⟨i, by simpa using h, ?_⟩, rfl⟩
    simp

theorem tfind_bytesAt {o i : Nat} {bs : List Byte} (h : i < bs.length) : tfind (bytesAt o bs) (o + i) = some (bs.getD i 0) := by
  refine tfind_of_unique (mem_bytesAt.mpr ⟨i, h, rfl, ?_⟩) fun w hw => ?_
  · simp [List.getD, h]
  · obtain ⟨j, hj, hi, rfl⟩ := mem_bytesAt.mp hw
    have : j = i := by omega
    subst this
    simp [List.getD, h]

theorem State.committed_length (s : State) (pa n : Nat) : (s.committed pa n).length = n := by
  unfold State.committed
  split
  · exact List.length_replicate
  · exact memRead_length ..

/-- A write under marks puts the marked bytes in their places, whether or not the line is good, and leaves every other line. -/
theorem State.memGet_commitMasked_marked (s : State) (line : Nat) (whole : Bool) (marks : List (Nat × Byte)) :
    (∀ i b, i < 128 → tfind marks i = some b → memGet (s.commitMasked line whole marks).mem (128 * line + i) = b) ∧
    ∀ x, x / 128 ≠ line → memGet (s.commitMasked line whole marks).mem x = memGet s.mem x := by
  by_cases hm : marks = []
  · subst hm
    exact ⟨fun i b _ h => absurd h (by simp [tfind]), fun x _ => rfl⟩
  · have hmem : (s.commitMasked line whole marks).mem =
        memWrite s.mem (128 * line) (overlaid marks 0 (s.committed (128 * line) 128)) := by
      unfold State.commitMasked
      rw [if_neg hm]
      exact congrArg (fun m => memWrite m _ _) (State.markDirty_mem ..)
    have hlen : (overlaid marks 0 (s.committed (128 * line) 128)).length = 128 := by
      rw [overlaid_length, State.committed_length]
    refine ⟨fun i b hi hb => ?_, fun x hx => ?_⟩
    · rw [hmem, memGet_memWrite_inside _ _ _ _ (by omega), overlaid_getElem, Nat.zero_add, hb]
      rfl
    · rw [hmem, memGet_memWrite_outside _ _ _ _ (by omega)]

/-! ## Messages -/

theorem exec_host_notBooted {s : State} (h : s.booted = false) : exec .spaceMessage s = .next s ∧ exec .balloonMessage s = .next s ∧
    exec .rdmaWriteInbound s = .next s ∧ exec .rdmaReadInbound s = .next s ∧ exec .attestationRequest s = .next s ∧
    exec .firmwareImageLoad s = .next s ∧ exec .firmwareSlotSwitch s = .next s := by
  have himage : exec .firmwareImageLoad s = .next s := by
    rw [show exec .firmwareImageLoad s = execFirmwareImageLoad s from rfl]
    unfold execFirmwareImageLoad
    simp only [h]
  exact ⟨congrArg _ (if_neg (by rw [h]; decide)), congrArg _ (if_pos (by rw [h]; rfl)), congrArg _ (if_pos (by rw [h]; rfl)),
    congrArg _ (if_pos (by rw [h]; rfl)), congrArg _ (if_neg (by rw [h]; decide)), himage, congrArg _ (if_pos (by rw [h]; rfl))⟩

theorem State.surrender_out (s : State) (part g : Nat) : (s.surrender part g).out = s.out := by
  unfold State.surrender
  dsimp only
  split <;> rfl

section
variable {s : State} (hb : s.booted = true) {v : EvArgs} (hv : s.cur.ev = v)
include hb hv

theorem exec_balloonMessage_unread (h : s.listRead v.a (v.opt.getD 0 % 4096) (lineParts v.b (8 * v.c)) = none) :
    exec .balloonMessage s = .next (s.send (.reply v.a 8 0)) := by
  subst hv
  rw [show exec .balloonMessage s = execBalloonMessage s from rfl]
  unfold execBalloonMessage
  simp only [hb, h]
  rfl

theorem exec_balloonMessage {bs : List Byte} (h : s.listRead v.a (v.opt.getD 0 % 4096) (lineParts v.b (8 * v.c)) = some bs) :
    ∃ t, exec .balloonMessage s = .next t ∧ t.mem = s.mem ∧ t.out = s.out ++ [.reply v.a 0 0] := by
  subst hv
  rw [show exec .balloonMessage s = execBalloonMessage s from rfl]
  unfold execBalloonMessage
  simp only [hb, h, Bool.not_true, Bool.false_eq_true, if_false]
  refine ⟨_, rfl, foldl_keeps State.mem (fun t i => ?_) _ s, congrArg (· ++ [Msg.reply s.cur.ev.a 0 0]) (foldl_keeps State.out (fun t i => ?_) _ s)⟩
  · split
    · exact State.surrender_mem ..
    · rfl
  · split
    · exact State.surrender_out ..
    · rfl

end

/-! ## Inbound RDMA -/

section
variable {s : State} {q pa : Nat} {bs : List Byte} {r : List (Nat × List Byte)} (hh : ∀ h ∈ s.held, h.line ≠ pa / 128)
include hh

theorem State.rdmaWrite_waits (hr : s.reserveLine (q / 256) pa = none) :
    s.rdmaWrite q ((pa, bs) :: r) = (s.waitSpace (q / 256) pa none (2 ^ 50 + q)).modQp q fun x => { x with pend := (pa, bs) :: r } := by
  unfold State.rdmaWrite
  simp only [hr]
  exact if_neg (by simpa using hh)

theorem State.rdmaWrite_part {u : State} (hr : s.reserveLine (q / 256) pa = some u) (hs : ∀ i, u.hitsScb (pa + i) 1 = false) :
    ∃ whole, s.rdmaWrite q ((pa, bs) :: r) =
      let w := ((u.dropWait (q / 256) pa none (2 ^ 50 + q)).commitMasked (pa / 128) whole (bytesAt (pa % 128) bs)).modQp q
        fun x => { x with pend := r }
      if r = [] then w.send (.ack q []) else w := by
  have hall : ((List.range bs.length).zip bs).filter (fun p => !u.hitsScb (pa + p.1) 1) = (List.range bs.length).zip bs :=
    List.filter_eq_self.mpr fun p _ => by rw [hs]; rfl
  refine ⟨decide (((List.range bs.length).zip bs).length = 128), ?_⟩
  unfold State.rdmaWrite
  simp only [hr, hall]
  exact if_neg (by simpa using hh)

end

theorem State.waitSpace_out (s : State) (part pa : Nat) (who : Option (Nat × Eng)) (id va : Nat) :
    (s.waitSpace part pa who id va).out = s.out := by
  have hunlist (pay g : Nat) (e : Granule) : (s.unlist pay g e).out = s.out := by
    unfold State.unlist
    split <;> rfl
  unfold State.waitSpace
  dsimp only
  split
  · rfl
  · show (if _ then _ else _ : State).out = _
    split
    · exact hunlist ..
    · rfl

/-- An inbound write whose line has no headroom writes nothing, and keeps its parts. -/
theorem State.rdmaWrite_noHeadroom {s : State} {q pa : Nat} {bs : List Byte} {r : List (Nat × List Byte)}
    (hh : ∀ h ∈ s.held, h.line ≠ pa / 128) (hr : s.reserveLine (q / 256) pa = none) : ∃ t, s.rdmaWrite q ((pa, bs) :: r) = t ∧
      t.mem = s.mem ∧ t.out = s.out ∧ (tget {} t.qps q).pend = (pa, bs) :: r :=
  ⟨_, State.rdmaWrite_waits hh hr, State.waitSpace_mem .., State.waitSpace_out .., congrArg Qp.pend (tget_tput_same ..)⟩

/-- A part of an inbound write lands in its line and nowhere else; the write is acknowledged with its last part. -/
theorem State.rdmaWrite_lands {s u : State} {q pa : Nat} {bs : List Byte} {r : List (Nat × List Byte)}
    (hh : ∀ h ∈ s.held, h.line ≠ pa / 128) (hr : s.reserveLine (q / 256) pa = some u) (hlen : pa % 128 + bs.length ≤ 128)
    (hs : ∀ i, u.hitsScb (pa + i) 1 = false) : ∃ t, s.rdmaWrite q ((pa, bs) :: r) = t ∧ (tget {} t.qps q).pend = r ∧
      (r = [] → t.out.getLast? = some (.ack q [])) ∧ (∀ i, i < bs.length → memGet t.mem (pa + i) = bs.getD i 0) ∧
      ∀ a, a / 128 ≠ pa / 128 → memGet t.mem a = memGet u.mem a := by
  obtain ⟨whole, heq⟩ := State.rdmaWrite_part (bs := bs) (r := r) hh hr hs
  obtain ⟨hin, hout⟩ := (u.dropWait (q / 256) pa none (2 ^ 50 + q)).memGet_commitMasked_marked (pa / 128) whole (bytesAt (pa % 128) bs)
  have hbyte (i : Nat) (hi : i < bs.length) : memGet ((u.dropWait (q / 256) pa none (2 ^ 50 + q)).commitMasked (pa / 128) whole
      (bytesAt (pa % 128) bs)).mem (pa + i) = bs.getD i 0 := by
    have h := hin (pa % 128 + i) (bs.getD i 0) (by omega) (tfind_bytesAt hi)
    rwa [show 128 * (pa / 128) + (pa % 128 + i) = pa + i by omega] at h
  by_cases hnil : r = []
  · exact ⟨_, heq.trans (if_pos hnil), congrArg Qp.pend (tget_tput_same ..), fun _ => List.getLast?_concat .., hbyte, hout⟩
  · exact ⟨_, heq.trans (if_neg hnil), congrArg Qp.pend (tget_tput_same ..), fun h => (hnil h).elim, hbyte, hout⟩

section
variable {s : State} (hb : s.booted = true) {v : EvArgs} (hv : s.cur.ev = v) {q : Nat} (hq : v.a % 4096 = q)
include hb hv hq

theorem exec_rdma_begun {p : Nat × List Byte} {r : List (Nat × List Byte)} (hp : (tget {} s.qps q).pend = p :: r) :
    exec .rdmaWriteInbound s = .next (s.rdmaWrite q (p :: r)) ∧ exec .rdmaReadInbound s = .next s := by
  subst hv hq
  refine ⟨?_, congrArg _ (if_pos (by rw [hp, hb]; rfl))⟩
  rw [show exec .rdmaWriteInbound s = execRdmaWriteInbound s from rfl]
  unfold execRdmaWriteInbound
  simp only [hb, hp]
  rfl

variable (hp : (tget {} s.qps q).pend = [])
include hp

theorem exec_rdmaWriteInbound_noWindow (hw : s.inWindowFor (q / 256) v.b v.c v.bytes.length true = none) :
    exec .rdmaWriteInbound s = .next (s.send (.nak q false)) := by
  subst hv hq
  rw [show exec .rdmaWriteInbound s = execRdmaWriteInbound s from rfl]
  unfold execRdmaWriteInbound
  simp only [hb, hp, hw]
  rfl

theorem exec_rdmaWriteInbound {w : Window} (hw : s.inWindowFor (q / 256) v.b v.c v.bytes.length true = some w) :
    (s.rdmaParts (q / 256) w.asid true (lineParts v.c v.bytes.length) = none →
      exec .rdmaWriteInbound s = .next (s.send (.nak q false))) ∧
    ∀ ps, s.rdmaParts (q / 256) w.asid true (lineParts v.c v.bytes.length) = some ps →
      exec .rdmaWriteInbound s = .next (s.rdmaWrite q (ps.map fun p => (p.1, (v.bytes.drop p.2.1).take p.2.2))) := by
  subst hv hq
  rw [show exec .rdmaWriteInbound s = execRdmaWriteInbound s from rfl]
  unfold execRdmaWriteInbound
  refine ⟨fun h => ?_, fun ps h => ?_⟩
  · simp only [hb, hp, hw, h]
    rfl
  · simp only [hb, hp, hw, h]
    rfl

theorem exec_rdmaReadInbound_noWindow (hw : s.inWindowFor (q / 256) v.b v.c v.d false = none) :
    exec .rdmaReadInbound s = .next (s.send (.nak q false)) := by
  subst hv hq
  rw [show exec .rdmaReadInbound s = execRdmaReadInbound s from rfl]
  unfold execRdmaReadInbound
  simp only [hb, hp, hw]
  rfl

variable {w : Window} (hw : s.inWindowFor (q / 256) v.b v.c v.d false = some w)
include hw

theorem exec_rdmaReadInbound_untranslated (h : s.rdmaParts (q / 256) w.asid false (lineParts v.c v.d) = none) :
    exec .rdmaReadInbound s = .next (s.send (.nak q false)) := by
  subst hv hq
  rw [show exec .rdmaReadInbound s = execRdmaReadInbound s from rfl]
  unfold execRdmaReadInbound
  simp only [hb, hp, hw, h]
  rfl

variable {ps : List (Nat × Nat × Nat)} (hps : s.rdmaParts (q / 256) w.asid false (lineParts v.c v.d) = some ps)
include hps

theorem exec_rdmaReadInbound_held (h : ∃ p ∈ ps, ∃ h ∈ s.held, h.line = p.1 / 128) : exec .rdmaReadInbound s = .next s := by
  have hyes : (ps.any fun p => s.held.any fun h => h.line == p.1 / 128) = true := by simpa using h
  subst hv hq
  rw [show exec .rdmaReadInbound s = execRdmaReadInbound s from rfl]
  unfold execRdmaReadInbound
  simp only [hb, hp, hw, hps, if_pos hyes]
  rfl

/-- An inbound read of lines that no region holds: the committed bytes, or a refusal at the first poisoned line. -/
theorem exec_rdmaReadInbound (h : ∀ p ∈ ps, ∀ h ∈ s.held, h.line ≠ p.1 / 128) {t : State}
    (ht : t = (ps.map fun p => p.1 / 128).foldl State.l2Fill s) :
    (∀ p, ps.find? (fun p => t.linePoisoned (p.1 / 128)) = some p → exec .rdmaReadInbound s = .next
      ((if wholePackets (mtuOf s.cur.pick) p.2.1 = 0 then t.poisonEvent (q / 256) p.1 true
        else (t.poisonEvent (q / 256) p.1 true).send
          (.ack q ((ps.flatMap fun p => t.committed p.1 p.2.2).take (wholePackets (mtuOf s.cur.pick) p.2.1)))).send (.nak q true))) ∧
    ((∀ p ∈ ps, t.linePoisoned (p.1 / 128) = false) →
      exec .rdmaReadInbound s = .next (t.send (.ack q (ps.flatMap fun p => t.committed p.1 p.2.2)))) := by
  have hno : ¬(ps.any fun p => s.held.any fun h => h.line == p.1 / 128) = true := by simpa using h
  subst hv hq ht
  rw [show exec .rdmaReadInbound s = execRdmaReadInbound s from rfl]
  unfold execRdmaReadInbound
  refine ⟨fun p hf => ?_, fun hg => ?_⟩
  · simp only [hb, hp, hw, hps, hf, if_neg hno]
    rfl
  · have hf : ps.find? (fun p => ((ps.map fun p => p.1 / 128).foldl State.l2Fill s).linePoisoned (p.1 / 128)) = none :=
      List.find?_eq_none.mpr fun p hm => by rw [hg p hm]; decide
    simp only [hb, hp, hw, hps, hf, if_neg hno]
    rfl

end

end Sys2Proof.Machine
end

section
/-! PROOFS. Ports and links, boot, records, images, fatal errors and translations; O60 (R359, R374-R383). -/

namespace Sys2Proof.Machine

/-! ## Ports -/

theorem exec_portRetrain {s : State} {n : Nat} (hn : s.portNo s.cur.ev.a = n) :
    ((∃ o ∈ s.ports, s.clock < o.2.retrain) → exec .portRetrain s = .next s) ∧
    ((∀ o ∈ s.ports, o.2.retrain ≤ s.clock) → exec .portRetrain s =
      .next { s with ports := tput s.ports n { s.port n with retrain := s.clock + 1 + s.cur.pick % 20000000 } }) := by
  subst hn
  refine ⟨fun h => congrArg _ (if_pos (by simpa using h)), fun h => congrArg _ (if_neg ?_)⟩
  simpa using h

/-! ## Boot -/

/-- The boot chain changes the measurements and the images alone. -/
theorem State.bootUnits_keeps {β : Type} {f : State → β} (hm : ∀ (s : State) m l, f { s with measure := m, mlog := l } = f s)
    (hi : ∀ (s : State) im, f { s with images := im } = f s) (l : List Nat) (s : State) : f (s.bootUnits l).1 = f s := by
  have hext (s : State) (k : Nat) (i : Image) : f (s.extend k i) = f s := hm s _ _
  induction l generalizing s with
  | nil => rfl
  | cons k r ih =>
    unfold State.bootUnits
    dsimp only
    split
    · exact (ih _).trans (hext ..)
    · split
      · exact (ih _).trans ((hext ..).trans (hi ..))
      · rfl

/-- The machine at the end of a boot, whose chain came to `y`. -/
def State.bootEnd (s : State) (warm : Bool) (y : State × Bool) : State :=
  { (if s.securitySwitches warm && (y.1.fw 0).runB != (s.fw 0).runB then y.1.switchEvent .security (y.1.fw 0).runB false else y.1) with
    booted := y.2, recovery := !y.2 }

theorem exec_boot {s : State} {warm : Bool} (hw : s.cur.ev.flag = warm) :
    exec .boot s = .next (s.bootEnd warm ((s.afterReset warm).bootUnits (List.range 42))) := by
  subst hw
  rfl

/-- An event is the last one that its die has recorded. -/
theorem State.record_last (s : State) (die code part unit : Nat) (dev : Bool) (addr data : Nat) :
    ∃ x, (tget [] (s.record die code part unit dev addr data).box die).getLast? = some x ∧ x.code = BitVec.ofNat 8 code ∧
      x.unit = BitVec.ofNat 16 unit := by
  unfold State.record
  dsimp only
  rw [tget_tput_same, List.getLast?_concat]
  exact ⟨_, rfl, rfl, rfl⟩

/-- The end of a boot records a switch of the security engine, and nothing else (R380, R382). -/
theorem State.bootEnd_box (s : State) (warm : Bool) (y : State × Bool) :
    (¬(s.securitySwitches warm = true ∧ (y.1.fw 0).runB ≠ (s.fw 0).runB) → (s.bootEnd warm y).box = y.1.box) ∧
    (s.securitySwitches warm = true → (y.1.fw 0).runB ≠ (s.fw 0).runB → ∃ x, (tget [] (s.bootEnd warm y).box 8).getLast? = some x ∧
      x.code = 10 ∧ x.unit = BitVec.ofNat 16 (fwUnitCode .security)) := by
  unfold State.bootEnd
  refine ⟨fun h => ?_, fun h1 h2 => ?_⟩
  · rw [if_neg (by simpa using h)]
  · rw [if_pos (by simp [h1, h2])]
    exact State.record_last y.1 8 10 0 (fwUnitCode .security) true 0 _

/-- What the end of a boot leaves of the machine that the boot chain came to. -/
theorem State.bootEnd_keeps {β : Type} {f : State → β} (hf : ∀ (s : State) box, f { s with box := box } = f s)
    (hb : ∀ (s : State) b c, f { s with booted := b, recovery := c } = f s) (s : State) (warm : Bool) (y : State × Bool) :
    f (s.bootEnd warm y) = f y.1 := by
  unfold State.bootEnd
  refine (hb _ _ _).trans ?_
  split
  · exact hf _ _
  · rfl

/-! ## Records -/

/-- A partition's record and books, but for the marks that arm its notifications. -/
theorem State.marks_partn {β : Type} {f : Partition → β} (hf : ∀ (p : Partition) la ca ab ri, f { p with lowArm := la, critArm := ca, above := ab, rises := ri } = f p)
    (s : State) (part p : Nat) : f ((s.marks part).partn p) = f (s.partn p) := by
  have hsend (t : State) (b : Bool) (m : Msg) : (if b = true then t.send m else t).partn p = t.partn p := by cases b <;> rfl
  unfold State.marks
  dsimp only
  split
  · rfl
  · show f (tget ({} : Partition) (tput _ part _) p) = _
    rw [tget_tput]
    split
    · next h =>
      subst h
      exact (hf ..).trans ((congrArg f (hsend _ _ _)).trans (congrArg f (hsend s _ _)))
    · exact (congrArg f (hsend _ _ _)).trans (congrArg f (hsend s _ _))

/-- A device record as it is stored (R378). -/
def devRecOf (r : ConfigRecord) (g : Bool) (p : List Bool) (key : List Byte) : DevRec :=
  { version := r.version.toNat, ring4 := g, ports := p, key := key, digest := num256 (sha256 (signedBytes r)) }

/-- A device record accepted (R378, R382). -/
def State.acceptDevice (s : State) (part : Nat) (d : DevRec) : State :=
  (({ s with devRec := some d, firstRec := if s.devRec.isNone then some d.digest else s.firstRec } : State).recordEvent 0 0
    d.version).send (.reply part 0 0)

/-- A partition record accepted, its new salt in force (R378, R379). -/
def State.acceptPartition (s : State) (part : Nat) (p : PartRec) : State :=
  (((s.modPart part fun q => { q with record := some p, limit := p.limit }).marks part).recordEvent 1 part p.version).send
    (.reply part 0 0)

section
variable {s : State} {v : EvArgs} (hv : s.cur.ev = v) {r : ConfigRecord} (hr : v.record = some r)
include hv hr

theorem exec_record_early (hb : s.booted = false) (hc : s.recovery = false) : exec .configRecordSubmit s = .next s := by
  subst hv
  rw [show exec .configRecordSubmit s = execConfigRecordSubmit s from rfl]
  unfold execConfigRecordSubmit
  simp only [hr]
  exact congrArg _ (if_pos (by simp [hb, hc]))

theorem exec_record_device (hopen : s.booted = true ∨ s.recovery = true ∧ s.devRec = none) {g : Bool} {p : List Bool} {key : List Byte}
    (hbody : r.body = .device g p key) : exec .configRecordSubmit s = .next (
      if s.deviceOk v.a r key = true then s.acceptDevice v.a (devRecOf r g p key) else s.refuseRecord v.a) := by
  have hno : ¬((!s.booted) = true ∧ (!s.recovery) = true) := by
    rcases hopen with h | ⟨h, _⟩ <;> simp [h]
  have hyes : (s.booted || s.devRec.isNone) = true := by
    rcases hopen with h | ⟨_, h⟩ <;> simp [h]
  subst hv
  rw [show exec .configRecordSubmit s = execConfigRecordSubmit s from rfl]
  unfold execConfigRecordSubmit
  simp only [hr, hbody, hyes, Bool.and_true]
  exact congrArg _ (if_neg hno)

variable {l a b tn : Nat} {fd : List (BitVec 16)} {sg : Bool} {sl : BitVec 256} {cs : BitVec 96} {df : LaunchDefaults}
  (hbody : r.body = .partition l a b fd sg tn sl cs df) (hb : s.booted = true)
include hbody hb

theorem exec_record_partition_refused (hok : s.partitionOk v.a r cs = false) :
    exec .configRecordSubmit s = .next (s.send (.reply v.a 8 0)) := by
  subst hv
  rw [show exec .configRecordSubmit s = execConfigRecordSubmit s from rfl]
  unfold execConfigRecordSubmit State.refuseRecord
  simp only [hr, hbody, hb, hok]
  rfl

variable (hok : s.partitionOk v.a r cs = true)
include hok

theorem exec_record_partition_waits (hu : s.newSalt v.a sl = none) : exec .configRecordSubmit s = .next s := by
  subst hv
  rw [show exec .configRecordSubmit s = execConfigRecordSubmit s from rfl]
  unfold execConfigRecordSubmit
  simp only [hr, hbody, hb, hok, hu]
  rfl

theorem exec_record_partition {u : State} (hu : s.newSalt v.a sl = some u) : exec .configRecordSubmit s =
    .next (u.acceptPartition v.a { version := r.version.toNat, limit := l, low := a, crit := b, fdom := fd, signed := sg, tenant := tn,
                                   salt := sl, cores := cs, defaults := df, digest := num256 (sha256 (signedBytes r)) }) := by
  subst hv
  rw [show exec .configRecordSubmit s = execConfigRecordSubmit s from rfl]
  unfold execConfigRecordSubmit
  simp only [hr, hbody, hb, hok, hu]
  rfl

end

/-- What an accepted record leaves of a partition and of memory. -/
theorem State.acceptPartition_accepts (s : State) (part : Nat) (p : PartRec) : (s.acceptPartition part p).mem = s.mem ∧
    ((s.acceptPartition part p).partn part).limit = p.limit ∧ ((s.acceptPartition part p).partn part).salt = (s.partn part).salt ∧
    ((s.acceptPartition part p).partn part).record = some p := by
  have hp {β : Type} (f : Partition → β) (hf : ∀ (p : Partition) la ca ab ri, f { p with lowArm := la, critArm := ca, above := ab, rises := ri } = f p) :
      f ((s.acceptPartition part p).partn part) = f { s.partn part with record := some p, limit := p.limit } :=
    (State.marks_partn hf _ part part).trans (congrArg f (tget_tput_same ..))
  exact ⟨State.marks_mem .., hp Partition.limit fun _ _ _ _ _ => rfl, hp Partition.salt fun _ _ _ _ _ => rfl,
    hp Partition.record fun _ _ _ _ _ => rfl⟩

/-- A new salt is in force; where no entry has to let go, memory stays as it is. -/
theorem State.newSalt_some {s u : State} {part : Nat} {salt : BitVec 256} (h : s.newSalt part salt = some u) :
    (u.partn part).salt = salt ∧ ((s.partn part).prefixes = [] ∨ (s.partn part).salt = salt → u.mem = s.mem) := by
  unfold State.newSalt at h
  dsimp only at h
  split at h
  · next hs =>
    cases h
    exact ⟨hs, fun _ => rfl⟩
  · next hs =>
    obtain ⟨w, hw, rfl⟩ := Option.map_eq_some_iff.mp h
    refine ⟨congrArg Partition.salt (tget_tput_same ..), fun hc => ?_⟩
    rw [hc.resolve_right hs] at hw
    cases hw
    rfl

/-! ## Images -/

theorem FwSlot.testing_iff {f : FwSlot} {clock : Nat} : f.testing clock = true ↔ ∃ t, f.trial = some t ∧ clock ≤ t + 4000000000 := by
  unfold FwSlot.testing clocks1s
  cases f.trial <;> simp

section
variable {s : State} {v : EvArgs} (hv : s.cur.ev = v) {f : FwSlot} (hf : s.fw (fwKey v.unit) = f)
include hv hf

/-- The images of a unit with another one in the slot that does not run. -/
def FwSlot.loadedWith (f : FwSlot) (i : Image) (ok : Bool) : FwSlot :=
  { (if f.runB then { f with a := some i } else { f with b := some i } : FwSlot) with loaded := ok, trial := none }

/-- The machine with the images of a unit. -/
def State.putImages (s : State) (k : Nat) (f : FwSlot) : State := { s with images := tput s.images k f }

theorem exec_imageLoad_busy (h : f.testing s.clock = true ∨ f.behind ≠ []) : exec .firmwareImageLoad s = .next s := by
  have hc : (f.testing s.clock || f.behind != []) = true := by simpa using h
  subst hv hf
  rw [show exec .firmwareImageLoad s = execFirmwareImageLoad s from rfl]
  unfold execFirmwareImageLoad
  refine congrArg _ ?_
  dsimp only
  split
  · exact if_pos hc
  · rfl

theorem exec_imageLoad (hb : s.booted = true) {i : Image} (hi : v.image = some i) (ht : f.testing s.clock = false) (hn : f.behind = []) :
    exec .firmwareImageLoad s = .next (s.putImages (fwKey v.unit) (f.loadedWith i (imageOk (s.fwCheckKey (fwKey v.unit)) i))) := by
  have hc : ¬(f.testing s.clock || f.behind != []) = true := by simp [ht, hn]
  subst hv hf
  rw [show exec .firmwareImageLoad s = execFirmwareImageLoad s from rfl]
  unfold execFirmwareImageLoad
  refine congrArg _ ?_
  dsimp only
  split
  · next _ j _ hj =>
    cases hj.symm.trans hi
    exact if_neg hc
  · next hno => exact (hno _ hb hi).elim

theorem exec_slotSwitch (hb : s.booted = true) : exec .firmwareSlotSwitch s = .next (
    if s.quietPoint v.unit = false then s
    else if f.loaded then s.switchSlot v.unit false (some s.clock) else s.follow v.unit) := by
  subst hv hf
  rw [show exec .firmwareSlotSwitch s = execFirmwareSlotSwitch s from rfl]
  unfold execFirmwareSlotSwitch
  simp only [hb]
  cases s.quietPoint s.cur.ev.unit <;> rfl

theorem exec_switchBack : exec .firmwareSwitchBack s = .next (if f.testing s.clock then s.switchSlot v.unit true none else s) := by
  subst hv hf
  rfl

end

/-- A slot that does not run takes the new image, and the one that runs keeps its own. -/
theorem State.fwImage_loadedWith (s : State) (k : Nat) (i : Image) (ok : Bool) {t : State}
    (ht : t = s.putImages k ((s.fw k).loadedWith i ok)) : (t.fw k).runB = (s.fw k).runB ∧ (t.fw k).loaded = ok ∧
      t.fwImage k (!(s.fw k).runB) = i ∧ t.fwImage k (s.fw k).runB = s.fwImage k (s.fw k).runB := by
  have hfw : t.fw k = (s.fw k).loadedWith i ok := by
    subst ht
    exact tget_tput_same ..
  unfold State.fwImage
  rw [hfw]
  unfold FwSlot.loadedWith
  cases (s.fw k).runB <;> exact ⟨rfl, rfl, rfl, rfl⟩

/-- The measurement goes on with the image measured (R377). -/
theorem State.extend_measure (s : State) (k : Nat) (i : Image) : (s.extend k i).measure =
    num256 (sha256 (leBytes 32 s.measure.toNat ++ sha256 (imageBytes i))) := by
  unfold State.extend
  rfl

/-- A switch of a unit: it runs its other slot, measured, and is recorded. -/
theorem State.switchSlot_switches (s : State) (u : FwUnit) (back : Bool) (trial : Option Nat) :
    (s.switchSlot u back trial).mem = s.mem ∧ ((s.switchSlot u back trial).fw (fwKey u)).runB = !(s.fw (fwKey u)).runB ∧
    ((s.switchSlot u back trial).fw (fwKey u)).trial = trial ∧
    ((s.switchSlot u back trial).fw (fwKey u)).behind = (if back then [] else otherColumns u) ∧
    (s.switchSlot u back trial).measure =
      num256 (sha256 (leBytes 32 s.measure.toNat ++ sha256 (imageBytes (s.fwImage (fwKey u) (!(s.fw (fwKey u)).runB))))) := by
  have hfw : (s.switchSlot u back trial).fw (fwKey u) =
      { (s.extend (fwKey u) (s.fwImage (fwKey u) (!(s.fw (fwKey u)).runB))).fw (fwKey u) with
        runB := !(s.fw (fwKey u)).runB, loaded := false, trial := trial, behind := if back then [] else otherColumns u } :=
    tget_tput_same ..
  rw [hfw]
  have hm (t : State) (b : Bool) : (t.switchEvent u b back).measure = t.measure := rfl
  refine ⟨State.switchSlot_mem .., rfl, rfl, rfl, ?_⟩
  unfold State.switchSlot
  rw [hm]
  show (s.extend (fwKey u) (s.fwImage (fwKey u) (!(s.fw (fwKey u)).runB))).measure = _
  rw [State.extend_measure]

/-- A column's controller that follows a switch is no more behind; nothing else changes. -/
theorem State.follow_follows (s : State) (u : FwUnit) : (s.follow u).mem = s.mem ∧ (s.follow u).box = s.box ∧
    (s.follow u).measure = s.measure ∧ (∀ c, u = .columns c → c ∉ ((s.follow u).fw 5).behind) ∧
    ((s.follow u).fw (fwKey u)).runB = (s.fw (fwKey u)).runB := by
  cases u with
  | columns c =>
    have hfw : (s.follow (.columns c)).fw 5 = { s.fw 5 with behind := (s.fw 5).behind.filter (· != c) } := tget_tput_same ..
    refine ⟨rfl, rfl, rfl, fun d hd => ?_, by rw [show fwKey (.columns c) = 5 from rfl, hfw]⟩
    cases hd
    rw [hfw]
    simp
  | _ => exact ⟨rfl, rfl, rfl, (fun _ h => nomatch h), rfl⟩

/-! ## Fatal errors -/

theorem exec_fatalError {s : State} {v : EvArgs} (hv : s.cur.ev = v) :
    (s.fatal ≠ none ∨ fatalUnit v.a v.b = false → exec .fatalError s = .next s) ∧
    (s.fatal = none → fatalUnit v.a v.b = true → ∃ t, exec .fatalError s = .next t ∧ t.mem = s.mem ∧ t.fatal = some (v.a, v.b) ∧
      t.dumps.length = min 4 (s.dumps.length + 1)) := by
  subst hv
  refine ⟨fun h => congrArg Host.Outcome.next (if_pos ?_), fun hf hu => ⟨_, congrArg Host.Outcome.next (if_neg (by simp [hf, hu])), rfl, rfl, ?_⟩⟩
  · rcases h with h | h
    · simp [Option.isSome_iff_ne_none.mpr h]
    · simp [h]
  · rw [List.length_drop, List.length_append]
    show s.dumps.length + 1 - (s.dumps.length + 1 - 4) = _
    omega

/-! ## Translations -/

/-- A cache within its budget evicts nothing. -/
theorem State.evictIdust_fits {s : State} {part n : Nat} (h : ((s.partn part).idust.map (·.chunks)).sum + n ≤ Config.idustBudget part)
    (fuel : Nat) : s.evictIdust part n fuel = s := by
  cases fuel with
  | zero => rfl
  | succ f => exact if_pos h

section
variable {s : State} {part : Nat} {e : IdustEnt} {res : Option (List Byte × List Byte)}
  (h : ((s.partn part).idust.map (·.chunks)).sum + textChunks res ≤ Config.idustBudget part)
include h

/-- A translation that finds no chunks waits for them: nothing is charged. -/
theorem State.storeIdust_waits (ht : (s.partn part).textFits e (textChunks res) = false) : ∃ u, s.storeIdust part e res = u ∧
    u.mem = s.mem ∧ (u.partn part).idust = (s.partn part).idust ∧ (u.partn part).free = (s.partn part).free ∧
    ∃ w ∈ (u.partn part).waits, w.id = textWaitId e.digest := by
  have heq : s.storeIdust part e res = s.modPart part fun q =>
      if q.waits.any fun w => w.id == textWaitId e.digest then q else { q with waits := q.waits ++ [e.wait (textChunks res) s.clock] } := by
    unfold State.storeIdust
    simp only [State.evictIdust_fits h]
    exact if_neg (by rw [ht]; decide)
  have hp : (s.storeIdust part e res).partn part = if (s.partn part).waits.any fun w => w.id == textWaitId e.digest then s.partn part
      else { s.partn part with waits := (s.partn part).waits ++ [e.wait (textChunks res) s.clock] } :=
    (congrArg (State.partn · part) heq).trans (tget_tput_same ..)
  refine ⟨_, rfl, State.storeIdust_mem .., ?_⟩
  rw [hp]
  split
  · next hw =>
    obtain ⟨w, hm, hid⟩ := List.any_eq_true.mp hw
    exact ⟨rfl, rfl, w, hm, by simpa using hid⟩
  · exact ⟨rfl, rfl, e.wait (textChunks res) s.clock, List.mem_append_right _ List.mem_cons_self, rfl⟩

/-- A translation that finds its chunks enters the cache, and its wait ends. -/
theorem State.storeIdust_enters (ht : (s.partn part).textFits e (textChunks res) = true) :
    ((s.storeIdust part e res).partn part).free = (s.partn part).free - textChunks res ∧
    ((s.storeIdust part e res).partn part).held = (s.partn part).held + textChunks res ∧
    (∀ w ∈ ((s.storeIdust part e res).partn part).waits, w.id ≠ textWaitId e.digest) ∧
    ((s.storeIdust part e res).partn part).idust = (s.partn part).idust.map fun x =>
      if x = e then { x with ready := true, result := res, used := s.clock, chunks := textChunks res } else x := by
  let p : Partition := { s.partn part with
    free := (s.partn part).free - textChunks res, held := (s.partn part).held + textChunks res
    waits := (s.partn part).waits.filter fun w => w.id != textWaitId e.digest
    idust := (s.partn part).idust.map fun x =>
      if x = e then { x with ready := true, result := res, used := s.clock, chunks := textChunks res } else x }
  have hp {β : Type} (f : Partition → β) (hf : ∀ (p : Partition) la ca ab ri, f { p with lowArm := la, critArm := ca, above := ab, rises := ri } = f p) :
      f ((s.storeIdust part e res).partn part) = f p := by
    unfold State.storeIdust
    simp only [State.evictIdust_fits h, ht, if_true]
    exact (State.marks_partn hf _ part part).trans (congrArg f (tget_tput_same ..))
  refine ⟨hp Partition.free fun _ _ _ _ _ => rfl, hp Partition.held fun _ _ _ _ _ => rfl, fun w hw => ?_,
    hp Partition.idust fun _ _ _ _ _ => rfl⟩
  rw [hp Partition.waits fun _ _ _ _ _ => rfl] at hw
  simpa using (List.mem_filter.mp hw).2

end

end Sys2Proof.Machine
end

section
/-! PROOFS. The host interface and the device's service; O60 (R359, R374-R383). -/

namespace Sys2Proof.Machine

theorem State.afterReset_box (s : State) (warm : Bool) : (s.afterReset warm).box = if warm then s.box else [] := by
  unfold State.afterReset
  rfl

/-- What a reset leaves before the boot chain runs (R376). -/
theorem State.afterReset_leaves (s : State) (warm : Bool) : (s.afterReset warm).mem = [] ∧ (s.afterReset warm).ctxs = [] ∧
    (s.afterReset warm).cores = [] ∧ (s.afterReset warm).regions = [] ∧ (s.afterReset warm).devRec = s.devRec ∧
    (s.afterReset warm).dumps = s.dumps := by
  unfold State.afterReset
  exact ⟨rfl, rfl, rfl, rfl, rfl, rfl⟩

section
variable {s : State} {warm : Bool} {y : State × Bool} (hy : (s.afterReset warm).bootUnits (List.range 42) = y)
include hy

/-- A field that the boot chain and the end of a boot leave is the one that the reset left. -/
theorem State.bootEnd_field {β : Type} {f : State → β} (hm : ∀ (s : State) m l, f { s with measure := m, mlog := l } = f s)
    (hi : ∀ (s : State) im, f { s with images := im } = f s) (hx : ∀ (s : State) box, f { s with box := box } = f s)
    (hb : ∀ (s : State) b c, f { s with booted := b, recovery := c } = f s) : f (s.bootEnd warm y) = f (s.afterReset warm) := by
  rw [State.bootEnd_keeps hx hb, ← hy]
  exact State.bootUnits_keeps hm hi ..

/-- The event log after a boot (R376, R380, R382). -/
theorem State.bootEnd_log : (warm = false → (s.bootEnd warm y).box = []) ∧
    (warm = true → ((s.fw 0).loaded = false ∨ (y.1.fw 0).runB = (s.fw 0).runB) → (s.bootEnd warm y).box = s.box) ∧
    (warm = true → (s.fw 0).loaded = true → (y.1.fw 0).runB ≠ (s.fw 0).runB →
      ∃ x, (tget [] (s.bootEnd warm y).box 8).getLast? = some x ∧ x.code = 10 ∧ x.unit = BitVec.ofNat 16 (fwUnitCode .security)) := by
  have hbox : y.1.box = if warm then s.box else [] := by
    rw [← s.afterReset_box warm, ← hy]
    exact State.bootUnits_keeps (f := State.box) (fun _ _ _ => rfl) (fun _ _ => rfl) _ _
  have hsec : s.securitySwitches warm = true ↔ warm = true ∧ (s.fw 0).loaded = true := Bool.and_eq_true_iff
  obtain ⟨hsame, hlog⟩ := s.bootEnd_box warm y
  refine ⟨fun hc => ?_, fun hc hk => ?_, fun hc hl hr => hlog (hsec.mpr ⟨hc, hl⟩) hr⟩
  · rw [hsame fun ⟨h, _⟩ => absurd (hsec.mp h).1 (by rw [hc]; decide), hbox, hc]
    rfl
  · rw [hsame, hbox, hc]
    · rfl
    · rintro ⟨h, hne⟩
      rcases hk with hk | hk
      · exact absurd ((hsec.mp h).2.symm.trans hk) (by decide)
      · exact hne hk

/-- What a boot leaves (R376). -/
theorem exec_boot_leaves (hw : s.cur.ev.flag = warm) : ∃ u, exec .boot s = .next u ∧ u.booted = y.2 ∧ u.recovery = !y.2 ∧
      u.measure = y.1.measure ∧ u.mem = [] ∧ u.ctxs = [] ∧ u.cores = [] ∧ u.regions = [] ∧ u.devRec = s.devRec ∧ u.dumps = s.dumps ∧
      (warm = false → u.box = []) ∧
      (warm = true → ((s.fw 0).loaded = false ∨ (y.1.fw 0).runB = (s.fw 0).runB) → u.box = s.box) ∧
      (warm = true → (s.fw 0).loaded = true → (y.1.fw 0).runB ≠ (s.fw 0).runB →
        ∃ x, (tget [] u.box 8).getLast? = some x ∧ x.code = 10 ∧ x.unit = BitVec.ofNat 16 (fwUnitCode .security)) := by
  have hu : exec .boot s = .next (s.bootEnd warm y) := by rw [exec_boot hw, hy]
  obtain ⟨hmem, hctxs, hcores, hregs, hdev, hdumps⟩ := s.afterReset_leaves warm
  refine ⟨_, hu, rfl, rfl, ?_, ?_, ?_, ?_, ?_, ?_, ?_, State.bootEnd_log hy⟩
  · exact State.bootEnd_keeps (f := State.measure) (fun _ _ => rfl) (fun _ _ _ => rfl) ..
  · rw [← hmem]
    exact State.bootEnd_field (f := State.mem) hy (fun _ _ _ => rfl) (fun _ _ => rfl) (fun _ _ => rfl) fun _ _ _ => rfl
  · rw [← hctxs]
    exact State.bootEnd_field (f := State.ctxs) hy (fun _ _ _ => rfl) (fun _ _ => rfl) (fun _ _ => rfl) fun _ _ _ => rfl
  · rw [← hcores]
    exact State.bootEnd_field (f := State.cores) hy (fun _ _ _ => rfl) (fun _ _ => rfl) (fun _ _ => rfl) fun _ _ _ => rfl
  · rw [← hregs]
    exact State.bootEnd_field (f := State.regions) hy (fun _ _ _ => rfl) (fun _ _ => rfl) (fun _ _ => rfl) fun _ _ _ => rfl
  · rw [← hdev]
    exact State.bootEnd_field (f := State.devRec) hy (fun _ _ _ => rfl) (fun _ _ => rfl) (fun _ _ => rfl) fun _ _ _ => rfl
  · rw [← hdumps]
    exact State.bootEnd_field (f := State.dumps) hy (fun _ _ _ => rfl) (fun _ _ => rfl) (fun _ _ => rfl) fun _ _ _ => rfl

end

/-- A refused record is answered, but for one of a partition in recovery (R378). -/
theorem State.refuseRecord_of (s : State) (part : Nat) : (s.booted = true ∨ part = 0 → s.refuseRecord part = s.send (.reply part 8 0)) ∧
    (s.booted = false → part ≠ 0 → s.refuseRecord part = s) := by
  unfold State.refuseRecord
  exact ⟨fun h => if_pos (by simpa using h), fun hb hp => if_neg (by simp [hb, hp])⟩

/-- Settles O60, event by event: an event of the host or of the device's service is an equation by the state's operations, and what
each operation keeps is a lemma about it; the boot chain changes measurements and images alone. -/
theorem hostAndService : Obligations.HostAndService := by
  unfold Obligations.HostAndService
  intro s v q qp f
  refine ⟨exec_host_notBooted, ?_, rfl, ?_, ⟨rfl, rfl⟩, exec_boot_leaves rfl rfl, ?_, ?_, ?_, (exec_fatalError rfl).1, (exec_fatalError rfl).2, ?_⟩
  · intro hb
    have hmtu : mtuOf s.cur.pick = 1024 * 2 ^ (s.cur.pick % 3) := rfl
    refine ⟨congrArg _ (if_pos hb), ?_, fun p r => exec_rdma_begun hb rfl rfl, fun pa bs r => State.rdmaWrite_noHeadroom,
      fun pa bs r u => State.rdmaWrite_lands, exec_rdmaWriteInbound_noWindow hb rfl rfl,
      fun w ps hp hw => (exec_rdmaWriteInbound hb rfl rfl hp hw).2 ps, exec_rdmaReadInbound_noWindow hb rfl rfl,
      fun w hp hw => (exec_rdmaWriteInbound hb rfl rfl hp hw).1, fun w hp => exec_rdmaReadInbound_untranslated hb rfl rfl hp,
      ?_, congrArg _ (if_pos hb), exec_imageLoad_busy rfl rfl, ?_, ?_⟩
    · intro asid
      exact ⟨exec_balloonMessage_unread hb rfl, fun bs => exec_balloonMessage hb rfl⟩
    · intro w ps hp hw hps t data
      exact ⟨exec_rdmaReadInbound_held hb rfl rfl hp hw hps, fun h => exec_rdmaReadInbound hb rfl rfl hp hw hps h rfl⟩
    · intro i hi ht hn
      obtain ⟨h1, h2, h3, h4⟩ := s.fwImage_loadedWith (fwKey v.unit) i (imageOk (s.fwCheckKey (fwKey v.unit)) i) rfl
      exact ⟨_, exec_imageLoad rfl rfl hb hi ht hn, rfl, h1, h2, h3, h4⟩
    · intro goes
      have h := exec_slotSwitch (s := s) (v := v) rfl rfl hb
      refine ⟨fun hq => h.trans (congrArg _ (if_pos hq)), fun hq hl => ?_, fun ⟨hl, hq⟩ => ?_⟩
      · rw [if_neg (by rw [hq]; decide), if_neg (by rw [show (s.fw (fwKey v.unit)).loaded = false from hl]; decide)] at h
        exact ⟨_, h, s.follow_follows v.unit⟩
      · rw [if_neg (by rw [hq]; decide), if_pos hl] at h
        exact ⟨_, h, s.switchSlot_switches v.unit false (some s.clock)⟩
  · intro m split n p put rest
    refine ⟨rfl, ?_, (exec_portRetrain rfl).1, fun h => ⟨_, (exec_portRetrain rfl).2 h, by omega, by omega⟩⟩
    have hrest : (s.port n).paused.filter (· != v.b % 8) = rest := List.filter_congr fun x _ => by by_cases h : x = v.b % 8 <;> simp [h]
    rw [← hrest]
    rfl
  · intro r hr
    refine ⟨exec_record_early rfl hr, fun g p key hbody hopen => ?_, fun l a b fd sg tn sl cs df hbody hb => ?_⟩
    · have h := exec_record_device rfl hr hopen hbody
      obtain ⟨hrep, hno⟩ := s.refuseRecord_of v.a
      have hbad (hk : s.deviceOk v.a r key = false) := h.trans (congrArg Host.Outcome.next (if_neg (by rw [hk]; decide)))
      exact ⟨fun hk hc => (hbad hk).trans (by rw [hrep hc]), fun hk hb ha => (hbad hk).trans (by rw [hno hb ha]),
        fun hk => ⟨_, h.trans (congrArg _ (if_pos hk)), rfl, rfl, rfl, rfl, _, rfl, rfl, rfl, rfl, rfl⟩⟩
    · refine ⟨exec_record_partition_refused rfl hr hbody hb, exec_record_partition_waits rfl hr hbody hb, fun hok u hu => ?_⟩
      obtain ⟨hsalt, hsame⟩ := State.newSalt_some hu
      have h := exec_record_partition rfl hr hbody hb hok hu
      obtain ⟨hm, hl, hs, hrec⟩ := State.acceptPartition_accepts u v.a _
      exact ⟨_, h, fun hc => hm.trans (hsame hc), hl, hs.trans hsalt, _, hrec, rfl, rfl, rfl⟩
  · intro h
    exact (exec_switchBack rfl rfl).trans (congrArg _ (if_neg fun ht => by
      obtain ⟨t, ht, _⟩ := FwSlot.testing_iff.mp ht
      exact absurd (h.symm.trans ht) (by simp)))
  · intro t ht
    have h := exec_switchBack (s := s) (v := v) rfl rfl
    refine ⟨fun hc => h.trans (congrArg _ (if_neg fun hn => ?_)), fun hc => ?_⟩
    · obtain ⟨t', ht', hle⟩ := FwSlot.testing_iff.mp hn
      cases ht.symm.trans ht'
      omega
    · obtain ⟨hm, hrun, htr, _, _⟩ := s.switchSlot_switches v.unit true none
      exact ⟨_, h.trans (congrArg _ (if_pos (FwSlot.testing_iff.mpr ⟨t, ht, hc⟩))), hm, hrun, htr⟩
  · intro e he
    have h : exec .idustTranslationDone s = .next (if e.ready then s else s.storeIdust v.a e (idustText e.version e.malig e.feat)) := by
      rw [show exec .idustTranslationDone s = execIdustTranslationDone s from rfl]
      unfold execIdustTranslationDone
      simp only [show (s.partn s.cur.ev.a).idust[s.cur.ev.b]? = some e from he]
      rfl
    refine ⟨fun hr => h.trans (congrArg _ (if_pos hr)), fun hr => ?_⟩
    intro p res n
    exact ⟨h.trans (congrArg _ (if_neg (by rw [hr]; decide))), fun hfit => ⟨State.storeIdust_waits hfit, State.storeIdust_enters hfit⟩⟩

end Sys2Proof.Machine
end

section
/-! PROOFS. Every operation on device memory keeps it in its canonical form (R103, R107): the writes of lines, and the operations
at a home slice. -/

namespace Sys2Proof.Machine

/-- Steps that each keep memory canonical keep it so together. -/
theorem foldl_wf {α : Type} {f : State → α → State} (h : ∀ s a, Memory.wf s.mem = true → Memory.wf (f s a).mem = true)
    (l : List α) {s : State} (hs : Memory.wf s.mem = true) : Memory.wf (l.foldl f s).mem = true := by
  induction l generalizing s with
  | nil => exact hs
  | cons a l ih => exact ih (h s a hs)

theorem wf_of_mem {s t : State} (ht : t.mem = s.mem) (hs : Memory.wf s.mem = true) : Memory.wf t.mem = true := by
  rw [ht]
  exact hs

theorem ite_wf {c : Prop} [Decidable c] {s t : State} (hs : Memory.wf s.mem = true) (ht : Memory.wf t.mem = true) :
    Memory.wf (if c then s else t).mem = true := by
  split
  · exact hs
  · exact ht

/-! ## Writes of lines -/

@[simp] theorem State.commitBytes_wf {s : State} (pa : Nat) (bs : List Byte) (hs : Memory.wf s.mem = true) :
    Memory.wf (s.commitBytes pa bs).mem = true := by
  have hd : Memory.wf (s.markDirty (pa / 128)).mem = true := wf_of_mem (State.markDirty_mem ..) hs
  unfold State.commitBytes
  dsimp only
  split
  · split
    · exact wf_memWrite _ _ hd
    · exact wf_memWrite _ _ (wf_memWrite _ _ hd)
  · exact wf_memWrite _ _ hd

@[simp] theorem State.commitMasked_wf {s : State} (line : Nat) (whole : Bool) (marks : List (Nat × Byte))
    (hs : Memory.wf s.mem = true) : Memory.wf (s.commitMasked line whole marks).mem = true := by
  unfold State.commitMasked
  split
  · exact hs
  · exact wf_memWrite _ _ (wf_of_mem (State.markDirty_mem ..) hs)

@[simp] theorem State.setSeq_wf {s : State} (pa : Nat) (q : Seq) (hs : Memory.wf s.mem = true) :
    Memory.wf (s.setSeq pa q).mem = true := by
  rw [State.setSeq_mem]
  exact wf_memWrite _ _ hs

@[simp] theorem State.makeSeq_wf {s : State} (pa : Nat) (q : Seq) (hs : Memory.wf s.mem = true) :
    Memory.wf (s.makeSeq pa q).mem = true := by
  rw [State.makeSeq_mem]
  exact State.setSeq_wf pa q hs

/-! ## Sequences -/

@[simp] theorem State.slotWrite_wf {s : State} (q : Seq) (i : Nat) (bs : List Byte) (hs : Memory.wf s.mem = true) :
    Memory.wf (s.slotWrite q i bs).mem = true := by
  unfold State.slotWrite
  refine foldl_wf (fun _ _ h => State.commitBytes_wf _ _ h) _ (ite_wf hs ?_)
  exact foldl_wf (fun _ _ h => State.commitBytes_wf _ _ h) _ hs

@[simp] theorem State.quantiseSlot_wf {s : State} (q : Seq) (i : Nat) (isVoid : Bool) (hs : Memory.wf s.mem = true) :
    Memory.wf (s.quantiseSlot q i isVoid).mem = true := State.slotWrite_wf _ _ _ hs

@[simp] theorem State.advanceLen_wf {s : State} (pa : Nat) (hs : Memory.wf s.mem = true) : Memory.wf (s.advanceLen pa).mem = true := by
  unfold State.advanceLen
  dsimp only
  split
  · exact hs
  · refine State.setSeq_wf _ _ (wf_of_mem (State.copyLines_mem ..) (wf_of_mem (foldl_mem (fun _ _ => State.setVoid_mem ..) _ _) ?_))
    exact ite_wf (foldl_wf (fun _ _ h => State.quantiseSlot_wf _ _ _ h) _ (ite_wf (wf_of_mem (State.freshLines_mem ..) hs) hs)) hs

@[simp] theorem State.tryAdvance_wf {s : State} (pa : Nat) (hs : Memory.wf s.mem = true) : Memory.wf (s.tryAdvance pa).mem = true := by
  unfold State.tryAdvance
  split
  · exact State.advanceLen_wf pa hs
  · exact hs

theorem State.copyTail_wf {s t : State} {q r : Seq} {j : Nat} (h : s.copyTail q j = .ok (t, r)) (hs : Memory.wf s.mem = true) :
    Memory.wf t.mem = true := by
  unfold State.copyTail at h
  split at h
  · cases h
    exact hs
  · split at h
    · cases h
      exact hs
    · split at h
      · cases h
      · next ha =>
        dsimp only at h
        split at h
        · cases h
        · cases h
          simp only [State.reref_mem, State.setShare_mem, State.setVoids_mem, State.copyLines_mem, State.poolAlloc_mem ha]
          exact wf_memWrite _ _ hs

theorem State.copyTails_wf {s t : State} {q r : Seq} {l : List Nat} (h : s.copyTails q l = .ok (t, r)) (hs : Memory.wf s.mem = true) :
    Memory.wf t.mem = true := by
  induction l generalizing s q with
  | nil =>
    cases h
    exact hs
  | cons j l ih =>
    unfold State.copyTails at h
    split at h
    · next hj => exact ih h (State.copyTail_wf hj hs)
    · cases h

theorem State.growExtents_mem {s t : State} {q r : Seq} {n f : Nat} (h : s.growExtents q n f = .ok (t, r)) : t.mem = s.mem := by
  induction f generalizing s q with
  | zero =>
    cases h
    rfl
  | succ f ih =>
    unfold State.growExtents at h
    split at h
    · cases h
      rfl
    · split at h
      · cases h
      · dsimp only at h
        split at h
        · cases h
        · next ha => exact (ih h).trans ((State.reref_mem ..).trans (State.poolAlloc_mem ha))

theorem State.reserveSlots_wf {s t : State} {r : Seq} {pa n limit owner : Nat} {st : SlotSt}
    (h : s.reserveSlots pa n limit owner st = .ok (t, r)) (hs : Memory.wf s.mem = true) : Memory.wf t.mem = true := by
  unfold State.reserveSlots at h
  dsimp only at h
  generalize (if (s.seq pa).frozen = true then (s.seq pa).len else 0) = q0 at h
  split at h
  · cases h
  · split at h
    · cases h
    · split at h
      · cases h
      · split at h
        · cases h
        · next hc =>
          split at h
          · cases h
          · next hg =>
            cases h
            exact wf_of_mem (State.growExtents_mem hg) (State.copyTails_wf hc hs)

@[simp] theorem State.commitSlots_wf {s : State} (k pa first n : Nat) (st : SlotSt) (hs : Memory.wf s.mem = true) :
    Memory.wf (s.commitSlots k pa first n st).mem = true := by
  unfold State.commitSlots
  exact State.tryAdvance_wf _ (wf_of_mem (State.modCtx_mem ..) (State.setSeq_wf _ _ (ite_wf hs (wf_of_mem (State.freshLines_mem ..) hs))))

@[simp] theorem State.withdraw_wf {s : State} (k pa : Nat) (hs : Memory.wf s.mem = true) : Memory.wf (s.withdraw k pa).mem = true := by
  unfold State.withdraw
  exact wf_of_mem (State.modCtx_mem ..) (State.setSeq_wf _ _ (wf_of_mem (State.reref_mem ..) hs))

@[simp] theorem State.settle_wf {s : State} (k taskid : Nat) (hs : Memory.wf s.mem = true) : Memory.wf (s.settle k taskid).mem = true := by
  unfold State.settle
  refine foldl_wf (fun t p ht => ?_) _ hs
  dsimp only
  split
  · exact ht
  · refine State.tryAdvance_wf _ (State.setSeq_wf _ _ ?_)
    split
    · exact State.withdraw_wf _ _ ht
    · exact ht

@[simp] theorem State.pinSeq_wf {s : State} (pa : Nat) (hs : Memory.wf s.mem = true) : Memory.wf (s.pinSeq pa).mem = true := by
  unfold State.pinSeq
  exact wf_of_mem (State.modPart_mem ..) (State.setSeq_wf _ _ hs)

@[simp] theorem State.unpinSeq_wf {s : State} (pa : Nat) (hs : Memory.wf s.mem = true) : Memory.wf (s.unpinSeq pa).mem = true := by
  unfold State.unpinSeq
  exact ite_wf (State.setSeq_wf _ _ hs) hs

/-! ## Operations at a home slice -/

/-- The machine that an operation at a slice gives. -/
def OpRes.machine : OpRes → State
  | .done s _ => s
  | .wait s => s
  | .trap s => s

theorem OpRes.ite_wf {c : Prop} [Decidable c] {r x : OpRes} (hr : Memory.wf r.machine.mem = true)
    (hx : Memory.wf x.machine.mem = true) : Memory.wf (if c then r else x).machine.mem = true := by
  split
  · exact hr
  · exact hx

section
variable {s : State} (hs : Memory.wf s.mem = true)
include hs

theorem State.opAtomic_wf (k id off va pa : Nat) (op : AOp) (bytes : Nat) (b c : Quad) :
    Memory.wf (s.opAtomic k id off va pa op bytes b c).machine.mem = true := by
  have hd : Memory.wf (s.deliver k .x off va pa).1.mem = true := wf_of_mem (State.deliver_mem ..) hs
  unfold State.opAtomic
  dsimp only
  split
  · exact hd
  · split
    · exact wf_of_mem (State.l1Drop_mem ..) hd
    · split
      · exact wf_of_mem (State.raiseAt_mem ..) hd
      · split
        · exact wf_of_mem (State.waitSpace_mem ..) hs
        · next hr =>
          exact wf_of_mem (State.l1Drop_mem ..) (State.commitBytes_wf _ _
            (wf_of_mem ((State.dropWait_mem ..).trans (State.reserveLine_mem hr)) hd))

theorem State.opAlrb_wf (k off va pa : Nat) (gone : Bool) : Memory.wf (s.opAlrb k off va pa gone).machine.mem = true := by
  have hd : Memory.wf (s.deliver k .x off va (128 * (pa / 128))).1.mem = true := wf_of_mem (State.deliver_mem ..) hs
  unfold State.opAlrb
  dsimp only
  refine OpRes.ite_wf (ite_wf hs hs) (OpRes.ite_wf hd (OpRes.ite_wf ?_ ?_))
  · exact wf_of_mem (State.l1Drop_mem ..) hd
  · simpa [OpRes.machine] using hs

theorem State.opAlrc_wf (k id off va pa : Nat) (marks : List (Nat × Byte)) :
    Memory.wf (s.opAlrc k id off va pa marks).machine.mem = true := by
  have hrel {t : State} (ht : Memory.wf t.mem = true) : Memory.wf ((t.dropHeld k (pa / 128)).l1Drop (k / 4) (pa / 128)).mem = true :=
    wf_of_mem ((State.l1Drop_mem ..).trans (State.dropHeld_mem ..)) ht
  unfold State.opAlrc
  dsimp only
  split
  · split
    · exact hrel hs
    · split
      · exact wf_of_mem (State.raiseAt_mem ..) hs
      · split
        · exact wf_of_mem (State.waitSpace_mem ..) hs
        · next hr =>
          exact hrel (State.commitMasked_wf _ _ _ (wf_of_mem ((State.dropWait_mem ..).trans (State.reserveLine_mem hr)) hs))
  · exact wf_of_mem (State.l1Drop_mem ..) hs

@[simp] theorem State.barArrive_wf (pa : Nat) (e : Bool) : Memory.wf (s.barArrive pa e).mem = true := by
  unfold State.barArrive
  split
  · exact hs
  · exact State.commitBytes_wf _ _ hs

theorem State.opBarWrite_wf (k id off va pa : Nat) (f : BarRec → BarRec) (v : BarRec → Quad) :
    Memory.wf (s.opBarWrite k id off va pa f v).machine.mem = true := by
  have hd : Memory.wf (s.deliver k .x off va pa).1.mem = true := wf_of_mem (State.deliver_mem ..) hs
  unfold State.opBarWrite
  dsimp only
  split
  · exact hd
  · split
    · exact wf_of_mem (State.raiseAt_mem ..) hd
    · split
      · exact wf_of_mem (State.waitSpace_mem ..) hs
      · next hr =>
        exact wf_of_mem (State.l1Drop_mem ..) (State.commitBytes_wf _ _
          (wf_of_mem ((State.dropWait_mem ..).trans (State.reserveLine_mem hr)) hd))

theorem State.opBarwait_wf (k off va pa phase : Nat) : Memory.wf (s.opBarwait k off va pa phase).machine.mem = true := by
  have hd : Memory.wf (s.deliver k .x off va pa).1.mem = true := wf_of_mem (State.deliver_mem ..) hs
  unfold State.opBarwait
  dsimp only
  split
  · exact hd
  · split
    · exact hs
    · exact wf_of_mem (State.l1Drop_mem ..) hd

theorem State.reserveScb_ok_wf {t : State} {k id part pa va : Nat} (h : s.reserveScb k id part pa va = .ok t) : Memory.wf t.mem = true :=
  wf_of_mem (State.reserveScb_booksOnly h).mem hs

theorem State.reserveScb_error_wf {t : State} {k id part pa va : Nat} (h : s.reserveScb k id part pa va = .error t) :
    Memory.wf t.mem = true := by
  unfold State.reserveScb at h
  split at h
  · cases h
    exact wf_of_mem (State.waitSpace_mem ..) hs
  · next h1 =>
    dsimp only at h
    split at h
    · cases h
      exact wf_of_mem ((State.waitSpace_mem ..).trans ((State.dropWait_mem ..).trans (State.reserveLine_mem h1))) hs
    · cases h

end

end Sys2Proof.Machine
end

section
/-! PROOFS. What an instruction of a text leaves of device memory: every access that performs, and every end of an instruction,
keeps it canonical (R103, R107). -/

namespace Sys2Proof.Machine

/-! ## Operations on sequences -/

section
variable {s : State} (hs : Memory.wf s.mem = true)
include hs

theorem State.onSeq_wf (k id pa : Nat) {f : State → Seq → OpRes}
    (hf : ∀ t q, Memory.wf t.mem = true → Memory.wf (f t q).machine.mem = true) : Memory.wf (s.onSeq k id pa f).machine.mem = true := by
  have hu : Memory.wf (s.l1DropScb k pa).mem = true := wf_of_mem (State.l1DropScb_mem ..) hs
  have hdrop : Memory.wf ((s.l1DropScb k pa).dropScb k id (s.ctx k).part pa).mem = true := wf_of_mem (State.dropScb_mem ..) hu
  unfold State.onSeq
  refine OpRes.ite_wf hdrop ?_
  split
  · refine OpRes.ite_wf hdrop ?_
    split
    · next hw => exact wf_of_mem (State.waited_mem ..) hs
    · next ht => exact hf _ _ (State.reserveScb_ok_wf hu ht)
  · exact hf _ _ hu

theorem State.opSqnew_wf (k id pa va : Nat) (w : Quad) (b : Nat) : Memory.wf (s.opSqnew k id pa va w b).machine.mem = true := by
  have hu : Memory.wf (s.l1DropScb k pa).mem = true := wf_of_mem (State.l1DropScb_mem ..) hs
  have hdrop : Memory.wf ((s.l1DropScb k pa).dropScb k id (s.ctx k).part pa).mem = true := wf_of_mem (State.dropScb_mem ..) hu
  unfold State.opSqnew
  refine OpRes.ite_wf hdrop ?_
  split
  · exact hdrop
  · next ha =>
    split
    · exact wf_of_mem (State.waited_mem ..) hs
    · next ht =>
      exact State.makeSeq_wf _ _ (wf_of_mem (State.blockRef_mem ..)
        (State.reserveScb_ok_wf (wf_of_mem (State.poolAlloc_mem ha) hu) ht))

theorem State.opSqres_wf (k id pa : Nat) (n : Quad) : Memory.wf (s.opSqres k id pa n).machine.mem = true := by
  refine State.onSeq_wf hs k id pa fun t q ht => ?_
  split
  · exact ht
  · next hr => exact State.setSeq_wf _ _ (State.reserveSlots_wf hr ht)

theorem State.opSqrest_wf (k id pa : Nat) (n : Quad) : Memory.wf (s.opSqrest k id pa n).machine.mem = true := by
  refine State.onSeq_wf hs k id pa fun t q ht => ?_
  split
  · exact ht
  · next hr => exact State.setSeq_wf _ _ (State.reserveSlots_wf hr ht)

theorem State.opSqcmt_wf (k id pa : Nat) (first count : Quad) : Memory.wf (s.opSqcmt k id pa first count).machine.mem = true :=
  State.onSeq_wf hs k id pa fun _ _ ht => OpRes.ite_wf ht (State.commitSlots_wf _ _ _ _ _ ht)

theorem State.opSqacc_wf (k id pa : Nat) (n : Quad) : Memory.wf (s.opSqacc k id pa n).machine.mem = true := by
  unfold State.opSqacc
  refine State.onSeq_wf hs k id pa fun t q ht => ?_
  split
  · exact ht
  · dsimp only [seqDone, OpRes.machine]
    exact State.commitSlots_wf k pa q.tbase n.toNat .committed (State.setSeq_wf pa _ ht)

theorem State.opSqwd_wf (k id pa : Nat) : Memory.wf (s.opSqwd k id pa).machine.mem = true :=
  State.onSeq_wf hs k id pa fun _ _ ht => OpRes.ite_wf ht (State.withdraw_wf _ _ ht)

theorem State.opSqfree_wf (k id pa : Nat) : Memory.wf (s.opSqfree k id pa).machine.mem = true :=
  State.onSeq_wf hs k id pa fun _ _ ht => OpRes.ite_wf ht (State.setSeq_wf _ _ (by simpa using ht))

theorem State.opSqpin_wf (k id pa : Nat) (up : Bool) : Memory.wf (s.opSqpin k id pa up).machine.mem = true :=
  State.onSeq_wf hs k id pa fun _ _ ht =>
    OpRes.ite_wf (OpRes.ite_wf ht (State.pinSeq_wf _ ht)) (OpRes.ite_wf ht (State.setSeq_wf _ _ ht))

theorem State.opSqfork_wf (k id pa g va parentVa : Nat) : Memory.wf (s.opSqfork k id pa g va parentVa).machine.mem = true := by
  have hu : Memory.wf ((s.l1DropScb k pa).l1DropScb k g).mem = true :=
    wf_of_mem ((State.l1DropScb_mem ..).trans (State.l1DropScb_mem ..)) hs
  have hdrop : Memory.wf (((s.l1DropScb k pa).l1DropScb k g).dropScb k id (s.ctx k).part g).mem = true :=
    wf_of_mem (State.dropScb_mem ..) hu
  unfold State.opSqfork
  refine OpRes.ite_wf hdrop (OpRes.ite_wf hdrop ?_)
  split
  · exact hdrop
  · next ha =>
    split
    · exact wf_of_mem (State.waited_mem ..) hs
    · next ht =>
      refine State.makeSeq_wf _ _ (wf_of_mem (State.copyLines_mem ..) ?_)
      have hgraft := State.reserveScb_ok_wf (wf_of_mem (State.poolAlloc_mem ha) hu) ht
      refine ite_wf ?_ (wf_of_mem ((State.reref_mem ..).trans (State.blockRef_mem ..)) hgraft)
      split
      · exact wf_of_mem ((State.setShare_mem ..).trans ((State.reref_mem ..).trans (State.blockRef_mem ..))) hgraft
      · exact wf_of_mem ((State.reref_mem ..).trans (State.blockRef_mem ..)) hgraft

theorem State.opSqlen_wf (k pa : Nat) : Memory.wf (s.opSqlen k pa).machine.mem = true := wf_of_mem (State.l1DropScb_mem ..) hs

theorem State.opSqwait_wf (k pa : Nat) (n : Quad) : Memory.wf (s.opSqwait k pa n).machine.mem = true :=
  OpRes.ite_wf (wf_of_mem (State.l1DropScb_mem ..) hs) (OpRes.ite_wf (wf_of_mem (State.l1DropScb_mem ..) hs) hs)

theorem State.opSqext_wf (k pa sel : Nat) (b : Quad) : Memory.wf (s.opSqext k pa sel b).machine.mem = true :=
  wf_of_mem (State.l1DropScb_mem ..) hs

theorem State.opSqattn_wf (k h : Nat) (off : Pos) (desc query : List Byte) (ten : Bool) (tag : Nat) :
    Memory.wf (s.opSqattn k h off desc query ten tag).machine.mem = true := by
  have hu : Memory.wf (s.l1DropScb k h).mem = true := wf_of_mem (State.l1DropScb_mem ..) hs
  unfold State.opSqattn
  exact ite_wf hu hu

theorem State.opAt_wf (k : Nat) (a : Access) (p : Part) (o : SliceOp) : Memory.wf (s.opAt k a p o).machine.mem = true := by
  unfold State.opAt
  cases o with
  | atomic => exact State.opAtomic_wf hs ..
  | alrb => exact State.opAlrb_wf hs ..
  | alrc => exact State.opAlrc_wf hs ..
  | barinit => exact State.opBarWrite_wf hs ..
  | bararr => exact State.opBarWrite_wf hs ..
  | barwait => exact State.opBarwait_wf hs ..
  | sqnew => exact State.opSqnew_wf hs ..
  | sqres => exact State.opSqres_wf hs ..
  | sqrest => exact State.opSqrest_wf hs ..
  | sqcmt => exact State.opSqcmt_wf hs ..
  | sqacc => exact State.opSqacc_wf hs ..
  | sqwd => exact State.opSqwd_wf hs ..
  | sqfree => exact State.opSqfree_wf hs ..
  | sqfork => exact State.opSqfork_wf hs ..
  | sqlen => exact State.opSqlen_wf hs ..
  | sqwait => exact State.opSqwait_wf hs ..
  | sqpin => exact State.opSqpin_wf hs ..
  | squnpin => exact State.opSqpin_wf hs ..
  | sqext => exact State.opSqext_wf hs ..
  | sqattn => exact State.opSqattn_wf hs ..

/-! ## Accesses that perform -/

theorem State.performOp_wf (k : Nat) (a : Access) (p : Part) (o : SliceOp) : Memory.wf (s.performOp k a p o).mem = true := by
  have h0 : Memory.wf (if opCloses o then s else s.endHold k (p.addr / 128)).mem = true :=
    ite_wf hs (wf_of_mem (State.endHold_mem ..) hs)
  have h := State.opAt_wf h0 k a p o
  unfold State.performOp
  dsimp only
  split
  · next he => rwa [he] at h
  · next he => rwa [he] at h
  · next he =>
    rw [he] at h
    rw [State.finishAccess_mem, State.acquireOf_mem]
    split
    · exact wf_of_mem (State.writeReg_mem ..) h
    · exact h

end

@[simp] theorem State.loadPart_mem (s : State) (k : Nat) (a : Access) (i : Nat) (p : Part) : (s.loadPart k a i p).mem = s.mem := by
  unfold State.loadPart
  dsimp only
  repeat' split
  all_goals simp

@[simp] theorem State.writePart_mem (s : State) (k : Nat) (a : Access) (p : Part) (bs : List Byte) : (s.writePart k a p bs).1.mem = s.mem := by
  unfold State.writePart
  dsimp only
  split
  · split <;> simp
  · repeat' split
    all_goals simp
  · split
    · simp
    · split
      · simp
      · split
        · simp
        · next hr => simp [State.reserveLine_mem hr]

@[simp] theorem State.storeL1_mem (s : State) (k : Nat) (p : Part) (bs : List Byte) : (s.storeL1 k p bs).mem = s.mem := by
  unfold State.storeL1
  split <;> simp

@[simp] theorem State.storePart_mem (s : State) (k : Nat) (a : Access) (i : Nat) (p : Part) : (s.storePart k a i p).mem = s.mem := by
  unfold State.storePart
  dsimp only
  repeat' split
  all_goals simp

@[simp] theorem State.performQload_mem (s : State) (k : Nat) (a : Access) (p : Part) (d st : Reg) (h i ch : Nat) (vec : Option Nat) :
    (s.performQload k a p d st h i ch vec).mem = s.mem := by
  have hbad (part : Nat) (l : List Nat) (t : State) : (l.foldl (fun t l => t.poisonEvent part (128 * l) false) t).mem = t.mem :=
    foldl_mem (fun _ _ => State.poisonEvent_mem ..) l t
  have hfill (l : List Nat) (t : State) : (l.foldl State.l2Fill t).mem = t.mem := foldl_mem (fun _ _ => State.l2Fill_mem ..) l t
  unfold State.performQload
  cases vec <;> dsimp only <;> repeat' split
  all_goals simp [hbad, hfill]

theorem State.takeFills_mem {s t : State} {k : Nat} {l : List (Nat × Nat × Nat × BitVec 16)} (h : s.takeFills k l = some t) :
    t.mem = s.mem := by
  induction l generalizing s with
  | nil =>
    cases h
    rfl
  | cons f r ih =>
    unfold State.takeFills at h
    dsimp only at h
    split at h
    · exact (ih h).trans ((State.modCtx_mem ..).trans (State.takeWay_mem ..))
    · cases h

@[simp] theorem State.performQfill_mem (s : State) (k : Nat) (a : Access) (p : Part) (h i ch : Nat) :
    (s.performQfill k a p h i ch).mem = s.mem := by
  unfold State.performQfill
  dsimp only
  split
  · simp
  · simp
  · split
    · simp
    · next ht => simp [State.takeFills_mem ht]

@[simp] theorem State.retranslate_mem (s : State) (k : Nat) (a : Access) : (s.retranslate k a).mem = s.mem := by
  unfold State.retranslate
  dsimp only
  repeat' split
  all_goals simp

section
variable {s : State} (hs : Memory.wf s.mem = true)
include hs

/-- A part of an access performs, or does not; memory stays canonical. -/
theorem State.tryPerform_wf (k id i : Nat) : Memory.wf (s.tryPerform k id i).mem = true := by
  unfold State.tryPerform
  dsimp only
  split
  · exact hs
  · refine ite_wf hs (ite_wf (ite_wf (wf_of_mem (State.retranslate_mem ..) hs) hs) ?_)
    split
    · exact ite_wf (wf_of_mem (State.finishAccess_mem ..) hs) hs
    · exact ite_wf (wf_of_mem ((State.finishAccess_mem ..).trans (State.acquireAt_mem ..)) hs) hs
    · split
      · exact wf_of_mem (State.raiseDeferred_mem ..) hs
      · exact ite_wf (wf_of_mem (State.finishAccess_mem ..) hs) hs
    · exact hs
    · split
      · exact ite_wf (wf_of_mem (State.deliverLoad_mem ..) hs) hs
      · refine ite_wf hs ?_
        split
        · exact wf_of_mem (State.loadPart_mem ..) hs
        · exact wf_of_mem (State.loadPart_mem ..) hs
        · exact wf_of_mem (State.storePart_mem ..) hs
        · exact State.performOp_wf hs ..
        · exact wf_of_mem (State.performQload_mem ..) hs
        · exact wf_of_mem (State.performQfill_mem ..) hs
        · exact hs

@[simp] theorem State.performAll_wf (k id : Nat) : Memory.wf (s.performAll k id).mem = true := by
  unfold State.performAll
  split
  · exact hs
  · exact foldl_wf (fun _ i ht => State.tryPerform_wf ht k id i) _ (ite_wf (State.tryPerform_wf hs k id 0) hs)

/-! ## The ends of an instruction -/

@[simp] theorem State.retireLater_wf (f : Form) : Memory.wf (s.retireLater f).mem = true := by
  have h1 (g : Ctx → Ctx) : Memory.wf (s.modMe g).mem = true := wf_of_mem (State.modMe_mem ..) hs
  exact ite_wf (h1 _) (State.performAll_wf (h1 _) ..)

@[simp] theorem State.retireWait_wf (f : Form) (w : Wait) : Memory.wf (s.retireWait f w).mem = true := by
  have h1 (g : Ctx → Ctx) : Memory.wf (s.modMe g).mem = true := wf_of_mem (State.modMe_mem ..) hs
  unfold State.retireWait
  dsimp only
  split
  · exact ite_wf (h1 _) (State.performAll_wf (h1 _) ..)
  · exact ite_wf (h1 _) (wf_of_mem (State.modMe_mem ..) (h1 _))
  · exact h1 _

end

/-- The machine that an instruction's own effect gives. -/
def Res.machine : Res → State
  | .ok s => s
  | .later s => s
  | .jump _ s => s
  | .stall _ s => s
  | .trap _ _ _ s => s
  | .wait _ s => s
  | .stay s => s

theorem Res.ite_wf {c : Prop} [Decidable c] {r x : Res} (hr : Memory.wf r.machine.mem = true) (hx : Memory.wf x.machine.mem = true) :
    Memory.wf (if c then r else x).machine.mem = true := by
  split
  · exact hr
  · exact hx

theorem State.settleRes_wf (s : State) (f : Form) {r : Res} (hr : Memory.wf r.machine.mem = true) :
    Memory.wf (s.settleRes f r).mem = true := by
  cases r with
  | ok t => exact wf_of_mem (State.retire_mem ..) hr
  | later t => exact State.retireLater_wf hr f
  | jump d t => exact wf_of_mem (State.modMe_mem ..) hr
  | stall w t => exact wf_of_mem (State.stallHere_mem ..) hr
  | trap c a n t => exact wf_of_mem (State.trapHere_mem ..) hr
  | wait w t => exact State.retireWait_wf hr f w
  | stay t => exact hr

/-- An outcome that leaves memory canonical. -/
def Canonical (o : Host.Outcome State Fault Refusal) : Prop := ∀ t, o = .next t → Memory.wf t.mem = true

theorem canonical_next {t : State} (h : Memory.wf t.mem = true) : Canonical (.next t) := fun _ he => by
  cases he
  exact h

section
variable {s : State} (hs : Memory.wf s.mem = true)
include hs

/-- An instruction leaves memory canonical where its own effect does. -/
theorem issue_canonical (f : Form) {body : State → Res} (hb : Memory.wf (body s).machine.mem = true) : Canonical (issue f s body) := by
  refine canonical_next (ite_wf (wf_of_mem (State.trapHere_mem ..) hs) ?_)
  split
  · exact wf_of_mem (State.stallHere_mem ..) hs
  · exact ite_wf (wf_of_mem (State.skipGuarded_mem ..) hs) (State.settleRes_wf _ _ hb)

/-- An instruction whose own effect writes no byte of memory leaves it canonical. -/
theorem issue_canonical_of_mem (f : Form) {body : State → Res} (hb : (body s).machine.mem = s.mem) : Canonical (issue f s body) :=
  issue_canonical hs f (wf_of_mem hb hs)

end

end Sys2Proof.Machine
end

section
/-! PROOFS. What the shared parts of the instructions leave of device memory (R107): reads of a scratchpad, operands, entries of
queues, and the instructions that are made of them. -/

namespace Sys2Proof.Machine

/-! ## Reads and operands -/

/-- A step that leaves memory as it is, whether it succeeds or ends the instruction. -/
def Leaves {α : Type} (m : Mem) (p : α → State) : Except Res α → Prop
  | .ok a => (p a).mem = m
  | .error r => r.machine.mem = m

theorem Leaves.ite {α : Type} {m : Mem} {p : α → State} {c : Prop} [Decidable c] {x y : Except Res α} (hx : Leaves m p x)
    (hy : Leaves m p y) : Leaves m p (if c then x else y) := by
  split
  · exact hx
  · exact hy

theorem State.readLocal_leaves (s : State) (a n : Nat) : Leaves s.mem Prod.fst (s.readLocal a n) := by
  unfold State.readLocal
  refine Leaves.ite rfl (Leaves.ite rfl (Leaves.ite rfl (Leaves.ite ?_ ?_)))
  · exact State.deliverWords_mem ..
  · exact State.deliverWords_mem ..

theorem State.readTile_leaves (s : State) (a stride n t : Nat) : Leaves s.mem Prod.fst (s.readTile a stride n t) := by
  induction t generalizing s a with
  | zero => rfl
  | succ t ih =>
    have h1 := s.readLocal_leaves a n
    unfold State.readTile
    cases he : s.readLocal a n with
    | error r => rwa [he] at h1
    | ok p =>
      rw [he] at h1
      have h2 := ih p.1 (a + stride)
      dsimp only
      cases ht : p.1.readTile (a + stride) stride n t with
      | error r =>
        rw [ht] at h2
        exact Eq.trans h2 h1
      | ok q =>
        rw [ht] at h2
        exact Eq.trans h2 h1

theorem State.indexList_leaves (s : State) (b : Reg) (m : Nat) : Leaves s.mem Prod.fst (s.indexList b m) := by
  have h1 := s.readLocal_leaves (s.rx b).toNat (4 * m)
  unfold State.indexList
  refine Leaves.ite rfl ?_
  split
  · next he => rwa [he] at h1
  · next he => rwa [he] at h1

theorem State.meetStream_error_mem {s : State} {n : Nat} {r : Res} (h : s.meetStream n = .error r) : r.machine.mem = s.mem := by
  unfold State.meetStream at h
  split_ifs at h <;> cases h <;> rfl

theorem State.openRead_error_mem {s : State} {n : Nat} {r : Res} (h : s.openRead n = .error r) : r.machine.mem = s.mem := by
  unfold State.openRead at h
  split at h
  · next hm =>
    cases h
    exact State.meetStream_error_mem hm
  · split at h
    · cases h
      split <;> rfl
    · split at h
      · split at h <;> cases h
        rfl
      · split at h <;> cases h
        rfl

theorem State.openWrite_error_mem {s : State} {n : Nat} {r : Res} (h : s.openWrite n = .error r) : r.machine.mem = s.mem := by
  unfold State.openWrite at h
  split at h
  · next hm =>
    cases h
    exact State.meetStream_error_mem hm
  · split at h
    · cases h
      split <;> rfl
    · split at h
      · split at h <;> cases h
        rfl
      · split at h <;> cases h
        rfl

theorem State.operandsOpen_error_mem {s : State} {d : Option VDst} {srcs : List VSrc} {r : Res} (h : s.operandsOpen d srcs = .error r) :
    r.machine.mem = s.mem := by
  rcases (s.operandsOpen_iff d srcs).2 r h with ⟨n, -, hr⟩ | ⟨n, -, hr⟩
  · exact State.openRead_error_mem hr
  · exact State.openWrite_error_mem hr

theorem State.takeStream_leaves (s : State) (n : Nat) : Leaves s.mem Prod.fst (s.takeStream n) := by
  unfold State.takeStream
  split
  · next he => exact State.openRead_error_mem he
  · exact State.setStream_mem ..
  · split
    · exact State.raise_mem ..
    · exact State.setStream_mem ..

theorem State.passStream_leaves (s : State) (n : Nat) (v : Vec) : Leaves s.mem id (s.passStream n v) := by
  unfold State.passStream
  split
  · next he => exact State.openWrite_error_mem he
  · exact Leaves.ite (State.setStream_mem ..) (State.setStream_mem ..)

theorem State.takeSrcs_leaves (l : List VSrc) (s : State) (got : List (Nat × Vec)) : Leaves s.mem Prod.fst (s.takeSrcs got l) := by
  induction l generalizing s got with
  | nil => rfl
  | cons x r ih =>
    cases x with
    | v n =>
      have h := ih s got
      unfold State.takeSrcs
      split <;> (next he => rwa [he] at h)
    | fd n =>
      have h := ih s got
      unfold State.takeSrcs
      split <;> (next he => rwa [he] at h)
    | z n =>
      unfold State.takeSrcs
      split
      · have h := ih s got
        split <;> (next he => rwa [he] at h)
      · have h1 := s.takeStream_leaves n.toNat
        split
        · next he => rwa [he] at h1
        · next t v he =>
          rw [he] at h1
          have h2 := ih t ((n.toNat, v) :: got)
          split <;> (next he => rw [he] at h2; exact Eq.trans h2 h1)

theorem State.putDst_leaves (s : State) (d : VDst) (v : Vec) : Leaves s.mem id (s.putDst d v) := by
  cases d with
  | v n => exact State.wv_mem ..
  | z n => exact s.passStream_leaves ..
  | dn n => exact State.modMe_mem ..
  | bk n => exact State.modMe_mem ..

/-! ## Entries of queues -/

section
variable {s : State} (hs : Memory.wf s.mem = true)
include hs

theorem State.missStall_wf (va : Nat) : Memory.wf (s.missStall va).machine.mem = true := wf_of_mem (State.enterMiss_mem ..) hs

theorem State.begin_wf (inL inS : Bool) (r : Reach) {go : List Part → Res} (held : Bool)
    (hgo : ∀ ps, Memory.wf (go ps).machine.mem = true) : Memory.wf (s.begin inL inS r go held).machine.mem = true := by
  refine Res.ite_wf hs (Res.ite_wf hs ?_)
  cases r with
  | fault c a => exact hs
  | miss va => exact State.missStall_wf hs va
  | ok ps => exact hgo ps

theorem State.enter_wf (a : Access) : Memory.wf (s.enter a).mem = true := wf_of_mem (State.enter_mem ..) hs

theorem State.startLoad_wf (m : Mods) (sp : Space) (r : Reach) (kind : AccKind) (n : Nat) :
    Memory.wf (s.startLoad m sp r kind n).machine.mem = true :=
  Res.ite_wf hs (State.begin_wf hs _ _ _ _ fun _ => State.enter_wf hs _)

theorem State.startStore_wf (m : Mods) (sp : Space) (r : Reach) (data : List Byte) :
    Memory.wf (s.startStore m sp r data).machine.mem = true := by
  refine Res.ite_wf hs (State.begin_wf hs _ _ _ _ fun ps => ite_wf ?_ (State.enter_wf hs _))
  exact wf_of_mem ((State.enter_mem ..).trans ((State.forward_mem ..).trans (State.modMe_mem ..))) hs

theorem State.startOp_wf (m : Mods) (o : SliceOp) (r : Reach) {go : State → Res}
    (hgo : ∀ t, Memory.wf t.mem = true → Memory.wf (go t).machine.mem = true) : Memory.wf (s.startOp m o r go).machine.mem = true :=
  State.begin_wf hs _ _ _ _ fun _ => hgo _ (State.enter_wf hs _)

theorem State.startSlotLoad_wf (m : Mods) (a b : Reg) (ch n : Nat) (f : Nat → AccKind) :
    Memory.wf (s.startSlotLoad m a b ch n f).machine.mem = true := State.begin_wf hs _ _ _ _ fun _ => State.enter_wf hs _

theorem State.startFill_wf (m : Mods) (a b : Reg) (ch : Nat) (data : List Byte) :
    Memory.wf (s.startFill m a b ch data).machine.mem = true := State.begin_wf hs _ _ _ _ fun _ => State.enter_wf hs _

theorem State.inRegion_wf (a : Reg) (o : BitVec 7) (n : Nat) {go : Nat → Res} (hgo : ∀ x, Memory.wf (go x).machine.mem = true) :
    Memory.wf (s.inRegion a o n go).machine.mem = true := Res.ite_wf hs (Res.ite_wf hs (hgo _))

theorem State.invalidate_wf (p : Nat → Bool) : Memory.wf (s.invalidate p).machine.mem = true :=
  Res.ite_wf hs (wf_of_mem (State.l1Inv_mem ..) hs)

theorem State.pushed_wf : Memory.wf s.pushed.machine.mem = true := Res.ite_wf hs hs

theorem State.writeSpr_wf (r : Spr) (v : Quad) : Memory.wf (s.writeSpr r v).machine.mem = true := by
  cases r with
  | tagmap => exact wf_of_mem (State.clearTags_mem ..) hs
  | _ => exact hs

/-! ## Operands in the scratchpad -/

theorem readThen_wf (a n : Nat) {f : State → List Byte → Res}
    (hf : ∀ t bs, Memory.wf t.mem = true → Memory.wf (f t bs).machine.mem = true) : Memory.wf (readThen s a n f).machine.mem = true := by
  have h := s.readLocal_leaves a n
  unfold readThen
  split
  · exact hs
  · next he =>
    rw [he] at h
    exact wf_of_mem h hs
  · next t bs he =>
    rw [he] at h
    have hft := hf t bs (wf_of_mem h hs)
    split
    · next hw =>
      rw [hw] at hft
      exact wf_of_mem (State.waited_mem ..) hs
    · exact hft

theorem readOr_wf {x : Except Res (State × List Byte)} (hx : Leaves s.mem Prod.fst x) {f : State → List Byte → Res}
    (hf : ∀ t bs, Memory.wf t.mem = true → Memory.wf (f t bs).machine.mem = true) : Memory.wf (readOr s x f).machine.mem = true := by
  unfold readOr
  split
  · exact hs
  · exact wf_of_mem hx hs
  · next t bs =>
    have hft := hf t bs (wf_of_mem hx hs)
    split
    · exact hs
    · exact hft

theorem State.withSrcs_wf (d : Option VDst) (srcs : List VSrc) {f : State → List Vec → Res}
    (hf : ∀ t l, Memory.wf t.mem = true → Memory.wf (f t l).machine.mem = true) : Memory.wf (s.withSrcs d srcs f).machine.mem = true := by
  have h := State.takeSrcs_leaves srcs s []
  unfold State.withSrcs
  split
  · next he => exact wf_of_mem (State.operandsOpen_error_mem he) hs
  · split
    · next he =>
      rw [he] at h
      exact wf_of_mem h hs
    · next he =>
      rw [he] at h
      exact hf _ _ (wf_of_mem h hs)

end

end Sys2Proof.Machine
end

section
/-! PROOFS. The instructions that share a frame leave device memory canonical (R107). -/

namespace Sys2Proof.Machine

theorem Canonical.ite {c : Prop} [Decidable c] {x y : Host.Outcome State Fault Refusal} (hx : Canonical x) (hy : Canonical y) :
    Canonical (if c then x else y) := by
  split
  · exact hx
  · exact hy

theorem State.barrierOf_leaves (s : State) (b : Reg) : Leaves s.mem (fun _ => s) (s.barrierOf b) := by
  unfold State.barrierOf
  refine Leaves.ite rfl ?_
  split
  · rfl
  · rfl
  · rfl
  · exact State.enterMiss_mem ..

section
variable {s : State} (hs : Memory.wf s.mem = true)
include hs

/-- A result passed on to its destination, or what stops it. -/
theorem State.putDst_wf (d : VDst) (v : Vec) (t : State) (ht : Memory.wf t.mem = true) {f : State → Res}
    (hf : ∀ u, Memory.wf u.mem = true → Memory.wf (f u).machine.mem = true) :
    Memory.wf (match s.putDst d v with
      | .error (.stall w _) => Res.stall w t
      | .error r => r
      | .ok u => f u).machine.mem = true := by
  have h := s.putDst_leaves d v
  split
  · exact ht
  · next he =>
    rw [he] at h
    exact wf_of_mem h hs
  · next u he =>
    rw [he] at h
    exact hf u (wf_of_mem h hs)

theorem aluOp_canonical (m : Mods) (d : Reg) (srcs : List Reg) (f : State → Quad) : Canonical (aluOp m d srcs s f) :=
  issue_canonical hs _ (wf_of_mem (State.wx_mem ..) hs)

theorem predOp_canonical (m : Mods) (p : BitVec 3) (srcs : List Reg) (f : State → Bool) : Canonical (predOp m p srcs s f) :=
  issue_canonical hs _ (wf_of_mem (State.wp_mem ..) hs)

theorem vecOp_canonical (m : Mods) (d : VDst) (srcs : List VSrc) (regs : List Reg) (f : State → List Vec → Vec) :
    Canonical (vecOp m d srcs regs s f) := by
  refine issue_canonical hs _ (State.withSrcs_wf hs _ _ fun t l ht => ?_)
  exact State.putDst_wf ht d (f t l) s hs (f := .ok) fun u hu => hu

theorem cmpOp_canonical (m : Mods) (d : VDst) (a b : VSrc) (w : Nat) (pe : BitVec 1) (pd : BitVec 3) (f : Nat → Nat → Bool) :
    Canonical (cmpOp m d a b w pe pd f s) := by
  refine issue_canonical hs _ (State.withSrcs_wf hs _ _ fun t l ht => ?_)
  exact State.putDst_wf ht d _ s hs fun u hu => ite_wf (wf_of_mem (State.wp_mem ..) hu) hu

theorem compact_canonical (m : Mods) (d a b : Reg) {f : VDst → VSrc → VSrc → Host.Outcome State Fault Refusal}
    (hf : ∀ d a b, Canonical (f d a b)) : Canonical (compact m d a b s f) := by
  unfold compact
  split
  · exact hf _ _ _
  · exact canonical_next (wf_of_mem (State.trapHere_mem ..) hs)

theorem scalarLoad_canonical (m : Mods) (sp : Space) (d a : Reg) (f : LdFmt) (o : BitVec 5) : Canonical (scalarLoad m sp d a f o s) :=
  issue_canonical hs _ (State.startLoad_wf hs ..)

theorem vectorLoad_canonical (m : Mods) (sp : Space) (q : BitVec 2) (a : Reg) (b : XOrBk) (nb : BitVec 3) (k : BitVec 16) :
    Canonical (vectorLoad m sp q a b nb k s) := by
  refine issue_canonical hs _ ?_
  dsimp only
  have h := State.startLoad_wf hs m sp (s.checked sp false 1 (effAddr (s.rx a) (s.indexValue b) (immS 16 k.toNat m)) (16 * (nb.toNat + 1)))
    (.vload q.toNat) (16 * (nb.toNat + 1))
  split
  · next he =>
    rw [he] at h
    exact wf_of_mem (State.modMe_mem ..) h
  · exact h

theorem scalarStore_canonical (m : Mods) (sp : Space) (d a : Reg) (w : Width) (o : BitVec 5) :
    Canonical (scalarStore m sp d a w o s) := issue_canonical hs _ (State.startStore_wf hs ..)

theorem vectorStore_canonical (m : Mods) (sp : Space) (q : BitVec 2) (a b : Reg) (nb : BitVec 3) (k : BitVec 16) :
    Canonical (vectorStore m sp q a b nb k s) := issue_canonical hs _ (State.startStore_wf hs ..)

theorem gather_canonical (m : Mods) (sp : Space) (q : BitVec 2) (a b : Reg) (e : Width) (n : BitVec 7) :
    Canonical (gather m sp q a b e n s) := by
  have h := s.indexList_leaves b (n.toNat + 1)
  refine issue_canonical hs _ (Res.ite_wf hs ?_)
  split
  · next he =>
    rw [he] at h
    exact wf_of_mem h hs
  · next u l he =>
    rw [he] at h
    have hu := State.startLoad_wf (wf_of_mem h hs) m sp (u.reachList sp false (u.rx a) (widthBytes e) l) (.vload q.toNat)
      ((n.toNat + 1) * widthBytes e)
    split
    · next hv =>
      rw [hv] at hu
      exact wf_of_mem (State.modMe_mem ..) hu
    · exact hs
    · exact hu

theorem scatter_canonical (m : Mods) (sp : Space) (q : BitVec 2) (a b : Reg) (e : Width) (n : BitVec 7) :
    Canonical (scatter m sp q a b e n s) := by
  have h := s.indexList_leaves b (n.toNat + 1)
  refine issue_canonical hs _ (Res.ite_wf hs ?_)
  split
  · next he =>
    rw [he] at h
    exact wf_of_mem h hs
  · next u l he =>
    rw [he] at h
    have hu := State.startStore_wf (wf_of_mem h hs) m sp (u.reachList sp true (u.rx a) (widthBytes e) l)
      ((vBytes (u.cc.peekDn q.toNat)).take ((n.toNat + 1) * widthBytes e))
    split
    · exact hs
    · exact hu

theorem lineOp_canonical (m : Mods) (a : Reg) (k : BitVec 10) {f : State → Nat → Res}
    (hf : ∀ l, Memory.wf (f s l).machine.mem = true) : Canonical (lineOp m a k s f) := by
  refine issue_canonical hs _ (Res.ite_wf hs (Res.ite_wf hs ?_))
  dsimp only
  split
  · exact hf _
  · exact wf_of_mem (State.enterUnitMiss_mem ..) hs
  · exact hs

theorem tagWait_canonical (m : Mods) (all : Bool) (d a b : Reg) : Canonical (tagWait m all d a b s) := by
  refine issue_canonical hs _ (Res.ite_wf ?_ hs)
  split
  · exact wf_of_mem (State.raiseDeferred_mem ..) hs
  · exact wf_of_mem ((State.wx_mem ..).trans (State.tagAcquire_mem ..)) hs

theorem atomic_canonical (m : Mods) (op : AOp) (d a b c : Reg) (w : ASize) (k : BitVec 16) : Canonical (atomic m op d a b c w k s) :=
  issue_canonical hs _ (State.startOp_wf hs _ _ _ fun _ ht => ht)

theorem seqOp_canonical (m : Mods) (d a : Reg) (regs : List Reg) (write : Bool) (f : State → Nat → SliceOp) :
    Canonical (seqOp m d a regs write s f) := issue_canonical hs _ (State.startOp_wf hs _ _ _ fun _ ht => ht)

theorem laneMacro_canonical (m : Mods) (a : Reg) (regs : List Reg)
    {f : State → Nat → List (Nat × Nat) → Except Res (State × (Nat → Macro))} (hf : ∀ g l, Leaves s.mem Prod.fst (f s g l))
    {fin : State → List Nat → Res} (hfin : ∀ t l, Memory.wf t.mem = true → Memory.wf (fin t l).machine.mem = true) :
    Canonical (laneMacro m a regs s f fin) := by
  refine issue_canonical hs _ ?_
  split
  · exact hs
  · next g ls _ =>
    split
    · exact wf_of_mem (State.raiseDeferred_mem ..) hs
    · have h := hf g ls
      split
      · next he =>
        rw [he] at h
        exact wf_of_mem h hs
      · next he =>
        rw [he] at h
        exact Res.ite_wf (hfin _ _ (wf_of_mem (State.pushMacro_mem ..) (wf_of_mem h hs))) hs

theorem laneMacro_pushed_canonical (m : Mods) (a : Reg) (regs : List Reg)
    {f : State → Nat → List (Nat × Nat) → Except Res (State × (Nat → Macro))} (hf : ∀ g l, Leaves s.mem Prod.fst (f s g l)) :
    Canonical (laneMacro m a regs s f) := laneMacro_canonical hs m a regs hf fun _ _ ht => State.pushed_wf ht

theorem matInstr_canonical (m : Mods) (regs : List Reg) {f : State → Res} (hf : Memory.wf (f s).machine.mem = true) :
    Canonical (matInstr m regs s f) := by
  refine issue_canonical hs _ (Res.ite_wf hs ?_)
  split
  · exact wf_of_mem (State.raiseDeferred_mem ..) hs
  · exact hf

theorem matCommand_canonical (m : Mods) (regs : List Reg) (ws : BitVec 4) (we : BitVec 1) (ss : BitVec 4) (se : BitVec 1)
    {f : State → Except Res MCmd} (hf : Leaves s.mem (fun _ => s) (f s)) : Canonical (matCommand m regs ws we ss se s f) := by
  refine matInstr_canonical hs m regs ?_
  split
  · next he =>
    rw [he] at hf
    exact wf_of_mem hf hs
  · exact Res.ite_wf hs (wf_of_mem (State.setMat_mem ..) hs)

theorem privOp_canonical (regs : List Reg) {f : State → State} (hf : Memory.wf (f s).mem = true) : Canonical (privOp regs s f) :=
  issue_canonical hs _ (Res.ite_wf hs (Res.ite_wf hs hf))

theorem State.enterXfer_wf (m : Mods) (b : Reg) (a : Nat) (ren ten : Bool) (tag : Nat) (x : Option Xfer) :
    Memory.wf (s.enterXfer m b a ren ten tag x).machine.mem = true := by
  unfold State.enterXfer
  split
  · exact hs
  · split
    · exact hs
    · have h := s.barrierOf_leaves b
      split
      · next he =>
        rw [he] at h
        exact wf_of_mem h hs
      · exact wf_of_mem (State.modMe_mem ..) (State.enter_wf hs _)

theorem xferCmd_canonical (k : XKind) (m : Mods) (a b : Reg) (ren ten : BitVec 1) (tag : BitVec 6) :
    Canonical (xferCmd k m a b ren ten tag s) := by
  refine issue_canonical hs _ ?_
  dsimp only
  split
  · exact wf_of_mem (State.raiseDeferred_mem ..) hs
  · refine Res.ite_wf hs (Res.ite_wf hs (Res.ite_wf ?_ ?_))
    · exact readOr_wf hs (State.readLocal_leaves ..) fun u _ hu =>
        readOr_wf hu (State.readLocal_leaves ..) fun w _ hw => State.enterXfer_wf hw ..
    · exact readOr_wf hs (State.readLocal_leaves ..) fun u _ hu => State.enterXfer_wf hu ..

end

end Sys2Proof.Machine
end

section
/-! PROOFS. The writes of the units leave device memory canonical (R107): lanes, transfers and their barriers, commits, discards,
completions, saves and admissions. -/

namespace Sys2Proof.Machine

/-! ## Lanes -/

@[simp] theorem State.discardLane_mem (s : State) (n ctx task : Nat) : (s.discardLane n ctx task).mem = s.mem := by
  have hhand (l : List LaneEnt) (t : State) : (l.foldl (fun t e => t.handRed n e [] true) t).mem = t.mem :=
    foldl_mem (fun _ _ => State.handRed_mem ..) l t
  have htok (l : List LaneEnt) (t : State) :
      (l.foldl (fun t e => if t.macroFlying ctx e.id then t else t.modCtx ctx fun c => (c.tokFill e.id).wake) t).mem = t.mem :=
    foldl_mem (fun t e => by split <;> rfl) l t
  unfold State.discardLane
  dsimp only
  rw [htok, State.setLane_mem, hhand]
  split
  · split <;> rfl
  · rfl

@[simp] theorem State.redFault_mem (s : State) (r : Reduce) : (s.redFault r).mem = s.mem := by
  unfold State.redFault
  exact foldl_mem (fun _ _ => (State.addDefer_mem ..).trans (State.discardLane_mem ..)) _ s

theorem State.mem_reds (s : State) (l : List Reduce) : ({ s with reds := l } : State).mem = s.mem := rfl

@[simp] theorem State.deliverRed_mem (s : State) (r : Reduce) : (s.deliverRed r).mem = s.mem := by
  unfold State.deliverRed
  dsimp only
  split
  · simp
  · split
    · simp
    · exact (State.redFault_mem ..).trans (State.mem_reds ..)

@[simp] theorem State.settleReds_mem (s : State) (n : Nat) : (s.settleReds n).mem = s.mem := by
  induction n generalizing s with
  | zero => rfl
  | succ n ih =>
    unfold State.settleReds
    split
    · exact (ih _).trans (State.deliverRed_mem ..)
    · rfl

@[simp] theorem State.deliverReady_mem (s : State) : s.deliverReady.mem = s.mem := State.settleReds_mem ..

@[simp] theorem State.deferLane_mem (s : State) (n : Nat) (e : LaneEnt) (code : Code) (addr : Nat) :
    (s.deferLane n e code addr).mem = s.mem := by
  unfold State.deferLane
  simp

@[simp] theorem State.foldRing_mem (s : State) (r : Reduce) : (s.foldRing r).mem = s.mem := by
  unfold State.foldRing
  dsimp only
  split
  · simp
  · exact (State.redFault_mem ..).trans (State.mem_reds ..)

/-! ## Writes through a region's tables and areas -/

theorem State.areaWrite_wf {s : State} {k : Nat} {bs : List Byte} {l : List (Nat × Nat × Nat)} (hs : Memory.wf s.mem = true) :
    (∀ t, s.areaWrite k bs l = .ok t → Memory.wf t.mem = true) ∧ ∀ t b, s.areaWrite k bs l = .error (t, b) → Memory.wf t.mem = true := by
  induction l generalizing s with
  | nil =>
    exact ⟨fun t h => by cases h; exact hs, fun t b h => by cases h⟩
  | cons p l ih =>
    obtain ⟨a, o, n⟩ := p
    unfold State.areaWrite
    dsimp only
    cases s.unitXlat k (s.ctx k).part (s.ctx k).asid (a % 2 ^ 64) true with
    | miss => exact ⟨fun t h => (by cases h), fun t b h => by cases h; exact wf_of_mem (State.enterUnitMiss_mem ..) hs⟩
    | fault c => exact ⟨fun t h => (by cases h), fun t b h => by cases h; exact hs⟩
    | ok pa w x =>
      dsimp only
      cases hr : s.reserveLine (s.ctx k).part pa with
      | none => exact ⟨fun t h => (by cases h), fun t b h => by cases h; exact wf_of_mem (State.waitSpace_mem ..) hs⟩
      | some u => exact ih (State.commitBytes_wf _ _ (wf_of_mem ((State.dropWait_mem ..).trans (State.reserveLine_mem hr)) hs))

theorem State.heldWrite_wf {s : State} {r : Region} {bs : List Byte} {l : List (Nat × Nat × Nat)} (hs : Memory.wf s.mem = true) :
    (∀ t, s.heldWrite r bs l = .ok t → Memory.wf t.mem = true) ∧ ∀ t, s.heldWrite r bs l = .error t → Memory.wf t.mem = true := by
  induction l generalizing s with
  | nil =>
    exact ⟨fun t h => by cases h; exact hs, fun t h => by cases h⟩
  | cons p l ih =>
    obtain ⟨va, o, n⟩ := p
    unfold State.heldWrite
    cases r.heldPa va with
    | none => exact ih hs
    | some pa =>
      dsimp only
      cases hr : s.reserveLine r.part pa with
      | none => exact ⟨fun t h => (by cases h), fun t h => by cases h; exact wf_of_mem (State.waitSpace_mem ..) hs⟩
      | some u => exact ih (State.commitBytes_wf _ _ (wf_of_mem ((State.dropWait_mem ..).trans (State.reserveLine_mem hr)) hs))

theorem State.publishItems_wf {s : State} {regid : Nat} {l : List Push} (hs : Memory.wf s.mem = true) :
    (∀ t, s.publishItems regid l = .ok t → Memory.wf t.mem = true) ∧
    ∀ t, s.publishItems regid l = .error t → Memory.wf t.mem = true := by
  induction l generalizing s with
  | nil =>
    exact ⟨fun t h => by cases h; exact hs, fun t h => by cases h⟩
  | cons p l ih =>
    obtain ⟨hok, herr⟩ := State.heldWrite_wf (r := s.region regid) (bs := p.data)
      (l := lineParts ((s.region regid).slotVa p.stage p.slot) p.data.length) hs
    unfold State.publishItems
    dsimp only
    split
    · next he => exact ⟨fun t h => (by cases h), fun t h => by cases h; exact herr _ he⟩
    · next ho => exact ih (wf_of_mem (State.modRegion_mem ..) (hok _ ho))

theorem State.reservePush_mem {part : Nat} {l : List Nat} {s : State} :
    (∀ t, s.reservePush part l = .ok t → t.mem = s.mem) ∧ ∀ t, s.reservePush part l = .error t → t.mem = s.mem := by
  induction l generalizing s with
  | nil =>
    exact ⟨fun t h => by cases h; rfl, fun t h => by cases h⟩
  | cons a l ih =>
    unfold State.reservePush
    cases hr : s.reserveLine part (128 * a) with
    | none => exact ⟨fun t h => (by cases h), fun t h => by cases h; exact State.waitSpace_mem ..⟩
    | some u =>
      have hu := (State.dropWait_mem u part (128 * a) (some (s.me, .x)) (2 ^ 43)).trans (State.reserveLine_mem hr)
      exact ⟨fun t h => (ih.1 t h).trans hu, fun t h => (ih.2 t h).trans hu⟩

section
variable {s : State} (hs : Memory.wf s.mem = true)
include hs

/-! ## Transfers -/

theorem State.xferArrive_wf (k id : Nat) (e : Eng) (bar : Option Nat) (va : Nat) (err : Bool) :
    (∀ t, (s.xferArrive k id e bar va err).1 = some t → Memory.wf t.mem = true) ∧
    Memory.wf (s.xferArrive k id e bar va err).2.mem = true := by
  unfold State.xferArrive
  split
  · exact ⟨fun t h => by cases h; exact hs, hs⟩
  · dsimp only
    split
    · exact ⟨fun t h => (by cases h), hs⟩
    · split
      · exact ⟨fun t h => (by cases h), wf_of_mem (State.waitSpace_mem ..) hs⟩
      · next hr =>
        refine ⟨fun t h => ?_, hs⟩
        cases h
        exact State.barArrive_wf
          (wf_of_mem ((State.endHold_mem ..).trans ((State.dropWait_mem ..).trans (State.reserveLine_mem hr))) hs) _ _

theorem State.errorArrive_wf (k id : Nat) (e : Eng) (x : Xfer) : Memory.wf (s.errorArrive k id e x).mem = true := by
  obtain ⟨h, -⟩ := State.xferArrive_wf hs k id e x.bar x.barVa true
  unfold State.errorArrive
  split
  · next he => exact h _ (congrArg Prod.fst he)
  · exact hs
  · exact hs

theorem State.arriveLate_wf (id : Nat) : Memory.wf (s.arriveLate id).mem = true := by
  unfold State.arriveLate
  split
  · exact hs
  · refine ite_wf hs ?_
    split
    · exact wf_of_mem (State.waitSpace_mem ..) hs
    · next hr => exact State.barArrive_wf (wf_of_mem ((State.dropWait_mem ..).trans (State.reserveLine_mem hr)) hs) _ _

theorem State.cancelXfers_wf (k : Nat) (l : List Access) : Memory.wf (s.cancelXfers k l).mem = true := by
  induction l generalizing s with
  | nil => exact hs
  | cons a l ih =>
    unfold State.cancelXfers
    split
    · split
      · exact ih hs
      · exact ih (State.errorArrive_wf (ite_wf (wf_of_mem (State.setTag_mem ..) hs) hs) ..)
    · exact ih hs

/-! ## Commits and discards -/

theorem State.commitSlice_wf (k slice : Nat) : Memory.wf (s.commitSlice k slice).mem = true := by
  unfold State.commitSlice
  refine wf_of_mem (foldl_mem (fun _ _ => State.commitPeer_mem ..) _ _) ?_
  exact foldl_wf (fun _ _ h => State.commitMasked_wf _ _ _ h) _ hs

theorem State.commitEnd_wf (k : Nat) : Memory.wf (s.commitEnd k).mem = true := by
  obtain ⟨hok, herr⟩ := State.publishItems_wf (regid := (s.ctx k).regid) (l := (s.ctx k).pushes) hs
  unfold State.commitEnd
  dsimp only
  split
  · exact wf_of_mem (State.waited_mem ..) hs
  · next ho =>
    refine wf_of_mem (State.vacate_mem ..) (wf_of_mem (foldl_mem (fun _ _ => State.actClaim_mem ..) _ _) ?_)
    exact wf_of_mem (State.modRegion_mem ..) (hok _ ho)

theorem State.commitBegin_wf (k : Nat) : Memory.wf (s.commitBegin k).mem = true :=
  wf_of_mem (State.modCtx_mem ..) (State.settle_wf k _ hs)

theorem State.commitStep_wf (k slice : Nat) (l : List Nat) : Memory.wf (s.commitStep k slice l).mem = true :=
  ite_wf (State.commitEnd_wf hs k) (ite_wf hs (wf_of_mem (State.modCtx_mem ..) (State.commitSlice_wf hs k slice)))

theorem State.discardTask_wf (k trapid : Nat) : Memory.wf (s.discardTask k trapid).mem = true := by
  have hlanes (task : Nat) (l : List (Nat × Lane)) (t : State) : (l.foldl (fun t p => t.discardLane p.1 k task) t).mem = t.mem :=
    foldl_mem (fun _ _ => State.discardLane_mem ..) l t
  have hmats (task : Nat) (l : List (Nat × Matrix)) (t : State) : (l.foldl (fun t p => t.discardMat p.1 k task) t).mem = t.mem :=
    foldl_mem (fun _ _ => State.discardMat_mem ..) l t
  have hrings (l : List Reduce) (t : State) : (l.foldl State.foldRing t).mem = t.mem := foldl_mem (fun _ _ => State.foldRing_mem ..) l t
  have hattn (l : List Attn) (t : State) : (l.foldl State.cancelAttn t).mem = t.mem := foldl_mem (fun _ _ => State.cancelAttn_mem ..) l t
  unfold State.discardTask
  dsimp only
  rw [State.vacate_mem, State.modRegion_mem]
  refine State.settle_wf _ _ ?_
  rw [hattn]
  dsimp only
  rw [hrings, hmats, hlanes]
  exact State.cancelXfers_wf (wf_of_mem (State.abandonRegion_mem ..) hs) _ _

theorem State.publishTrap_wf (regid pick : Nat) : Memory.wf (s.publishTrap regid pick).mem = true := by
  unfold State.publishTrap
  dsimp only
  split
  · exact hs
  · refine ite_wf hs ?_
    split
    · exact hs
    · split
      · exact wf_of_mem (State.waited_mem ..) hs
      · next ho => exact wf_of_mem (State.modRegion_mem ..) ((State.publishItems_wf hs).1 _ ho)

theorem State.deliverTrap_wf (k pick : Nat) (t : Trap) : Memory.wf (s.deliverTrap k pick t).mem = true := by
  have h1 (id : Nat) (g : Region → Region) : Memory.wf ((s.modRegion (s.ctx k).regid g).discardTask k id).mem = true :=
    State.discardTask_wf (wf_of_mem (State.modRegion_mem ..) hs) k id
  unfold State.deliverTrap
  refine ite_wf (ite_wf ?_ ?_) (ite_wf ?_ ?_)
  · exact wf_of_mem (State.startAbort_mem ..) (h1 _ _)
  · exact State.publishTrap_wf (wf_of_mem (State.modRegion_mem ..) (h1 _ _)) _ _
  · exact wf_of_mem (State.modRegion_mem ..) (h1 _ _)
  · exact wf_of_mem (State.startAbort_mem ..) (h1 _ _)

/-! ## Ends and admissions of regions -/

theorem State.writeCompletion_wf (r : Region) (status : Nat) : (∀ t, s.writeCompletion r status = .ok t → Memory.wf t.mem = true) ∧
    ∀ t, s.writeCompletion r status = .error t → Memory.wf t.mem = true := by
  obtain ⟨hok, herr⟩ := State.heldWrite_wf (r := r) (bs := completionRecord r status) (l := lineParts r.recordVa 64) hs
  have hrec : (∀ t, (if r.recordVa = 0 then .ok s else s.heldWrite r (completionRecord r status) (lineParts r.recordVa 64) : Except State State) =
      .ok t → Memory.wf t.mem = true) ∧
      ∀ t, (if r.recordVa = 0 then .ok s else s.heldWrite r (completionRecord r status) (lineParts r.recordVa 64) : Except State State) =
      .error t → Memory.wf t.mem = true := by
    split
    · exact ⟨fun t h => by cases h; exact hs, fun t h => by cases h⟩
    · exact ⟨hok, herr⟩
  unfold State.writeCompletion
  split
  · next he => exact ⟨fun t h => (by cases h), fun t h => by cases h; exact hrec.2 _ he⟩
  · next ho =>
    split
    · exact ⟨fun t h => by cases h; exact hrec.1 _ ho, fun t h => by cases h⟩
    · split
      · exact ⟨fun t h => by cases h; exact hrec.1 _ ho, fun t h => by cases h⟩
      · exact State.heldWrite_wf (hrec.1 _ ho)

theorem State.tellEnd_wf (part : Nat) (parent : Option Nat) (tag : Nat) (e : ChildEnd) (pick : Nat) :
    Memory.wf (s.tellEnd part parent tag e pick).mem = true := by
  unfold State.tellEnd
  split
  · exact hs
  · exact wf_of_mem (State.endChild_mem ..) hs

theorem State.complete_wf (regid status pick : Nat) : Memory.wf (s.complete regid status pick).mem = true := by
  obtain ⟨hok, herr⟩ := State.writeCompletion_wf hs (s.region regid) status
  unfold State.complete
  dsimp only
  split
  · next he => exact herr _ he
  · next ho =>
    refine State.tellEnd_wf (wf_of_mem ?_ (hok _ ho)) ..
    simp

theorem State.discardSaved_wf (v : SavedTask) : Memory.wf (s.discardSaved v).mem = true :=
  State.discardTask_wf (s := s.setCtx (2 ^ 20 + v.ctx.taskid * 4) v.ctx) hs _ 0

theorem State.abortDiscards_wf (regid : Nat) : Memory.wf (s.abortDiscards regid).mem = true := by
  unfold State.abortDiscards
  refine wf_of_mem (State.modRegion_mem ..) (wf_of_mem (foldl_mem (fun _ _ => State.startAbort_mem ..) _ _) ?_)
  exact foldl_wf (fun _ v h => State.discardSaved_wf h v) _ (foldl_wf (fun _ k h => State.discardTask_wf h k 0) _ hs)

theorem State.refuse_wf (l : Launch) (status pick : Nat) : Memory.wf (s.refuse l status pick).mem = true := by
  obtain ⟨hok, herr⟩ := State.writeCompletion_wf hs (s.refusedRegion l) status
  unfold State.refuse
  split
  · next he => exact herr _ he
  · next ho => exact State.tellEnd_wf (wf_of_mem (State.unqueue_mem ..) (hok _ ho)) ..

theorem State.writeRcb_wf (l : Launch) : (∀ t, s.writeRcb l = .ok t → Memory.wf t.mem = true) ∧
    ∀ t, s.writeRcb l = .error t → Memory.wf t.mem = true := by
  unfold State.writeRcb
  dsimp only
  split
  · next he => exact ⟨fun t h => (by cases h), fun t h => by cases h; exact (State.heldWrite_wf hs).2 _ he⟩
  · next ho => exact State.heldWrite_wf ((State.heldWrite_wf hs).1 _ ho)

end

end Sys2Proof.Machine
end

section
/-! PROOFS. The transfer engines leave device memory canonical (R107, R255-R265). -/

namespace Sys2Proof.Machine

/-- What a read of a command gives leaves memory canonical. -/
def UnitRead.Canonical : UnitRead → Prop
  | .ok s _ _ => Memory.wf s.mem = true
  | .fault _ _ => True
  | .wait s => Memory.wf s.mem = true

/-- What a write of a unit gives leaves memory canonical. -/
def UnitWrite.Canonical : UnitWrite → Prop
  | .ok s => Memory.wf s.mem = true
  | .fault _ _ => True
  | .wait s => Memory.wf s.mem = true

/-- What a read of a space gives leaves memory canonical. -/
def XRead.Canonical : XRead → Prop
  | .ok s _ _ => Memory.wf s.mem = true
  | .fault _ => True
  | .wait s => Memory.wf s.mem = true

/-- What a write to a space gives leaves memory canonical. -/
def XWrite.Canonical : XWrite → Prop
  | .ok s => Memory.wf s.mem = true
  | .fault _ => True
  | .wait s => Memory.wf s.mem = true

/-- The machine that a command gives with an element. -/
def XStep.machine : XStep → State
  | .next s _ => s
  | .fault s _ _ _ => s
  | .wait s _ => s

/-- What a step that may stop its command gives leaves memory canonical. -/
def XStep.OrCanonical {α : Type} (p : α → State) : XStep ⊕ α → Prop
  | .inl r => Memory.wf r.machine.mem = true
  | .inr a => Memory.wf (p a).mem = true

theorem XWrite.Canonical.ite {c : Prop} [Decidable c] {x y : XWrite} (hx : x.Canonical) (hy : y.Canonical) :
    (if c then x else y).Canonical := by
  split
  · exact hx
  · exact hy

theorem XRead.Canonical.ite {c : Prop} [Decidable c] {x y : XRead} (hx : x.Canonical) (hy : y.Canonical) :
    (if c then x else y).Canonical := by
  split
  · exact hx
  · exact hy

theorem XStep.ite_wf {c : Prop} [Decidable c] {x y : XStep} (hx : Memory.wf x.machine.mem = true) (hy : Memory.wf y.machine.mem = true) :
    Memory.wf (if c then x else y).machine.mem = true := by
  split
  · exact hx
  · exact hy

section
variable {s : State} (hs : Memory.wf s.mem = true)
include hs

/-! ## Reads and writes of spaces -/

theorem State.unitRead_canonical (k part asid : Nat) (l : List (Nat × Nat × Nat)) : (s.unitRead k part asid l).Canonical := by
  induction l generalizing s with
  | nil => exact hs
  | cons p l ih =>
    obtain ⟨a, o, n⟩ := p
    unfold State.unitRead
    dsimp only
    split
    · trivial
    · exact wf_of_mem (State.enterUnitMiss_mem ..) hs
    · split
      · exact hs
      · next pa _ _ _ _ =>
        have h := ih (wf_of_mem ((State.l2Fill_mem (s.endHold k (pa / 128)) (pa / 128)).trans (State.endHold_mem ..)) hs)
        split
        · next he =>
          rw [he] at h
          exact h
        · exact h

theorem State.unitWrite_canonical (k part asid : Nat) (e : Eng) (id : Nat) (bs : List Byte) (l : List (Nat × Nat × Nat)) :
    (s.unitWrite k part asid e id bs l).Canonical := by
  induction l generalizing s with
  | nil => exact hs
  | cons p l ih =>
    obtain ⟨a, o, n⟩ := p
    unfold State.unitWrite
    dsimp only
    split
    · trivial
    · exact wf_of_mem (State.enterUnitMiss_mem ..) hs
    · split
      · trivial
      · split
        · exact hs
        · split
          · trivial
          · split
            · exact wf_of_mem (State.waitSpace_mem ..) hs
            · next hr =>
              exact ih (wf_of_mem ((State.verWrite_mem ..).trans ((State.endHold_mem ..).trans
                ((State.dropWait_mem ..).trans (State.reserveLine_mem hr)))) hs)

theorem State.xferRead_canonical (k : Nat) (sp : XSpace) (wire : List Byte) (a n : Nat) : (s.xferRead k sp wire a n).Canonical := by
  unfold State.xferRead
  dsimp only
  split
  · exact XRead.Canonical.ite hs (XRead.Canonical.ite trivial hs)
  · split
    · trivial
    · exact XRead.Canonical.ite hs (XRead.Canonical.ite trivial hs)
  · have h := State.unitRead_canonical hs k (s.ctx k).part (s.ctx k).asid (lineParts a n)
    split
    · next he =>
      rw [he] at h
      exact h
    · trivial
    · next he =>
      rw [he] at h
      exact h
  · exact XRead.Canonical.ite hs hs

theorem State.linesInBed_canonical (k bed : Nat) (l : List (Nat × Nat × Nat)) : (s.linesInBed k bed l).Canonical := by
  induction l with
  | nil => exact hs
  | cons p l ih =>
    unfold State.linesInBed
    dsimp only
    split
    · exact XWrite.Canonical.ite ih trivial
    · exact wf_of_mem (State.enterUnitMiss_mem ..) hs
    · trivial

theorem State.xferWrite_canonical (k id : Nat) (e : Eng) (x : Xfer) (a : Nat) (bs : List Byte) :
    (s.xferWrite k id e x a bs).Canonical := by
  unfold State.xferWrite
  dsimp only
  split
  · exact XWrite.Canonical.ite hs (XWrite.Canonical.ite trivial (wf_of_mem (State.spadWrite_mem ..) hs))
  · split
    · trivial
    · exact XWrite.Canonical.ite hs (XWrite.Canonical.ite trivial
        (XWrite.Canonical.ite trivial (wf_of_mem (State.peerWrite_mem ..) hs)))
  · have hbed : (if x.kind = .ring then s.linesInBed k x.col (lineParts a bs.length) else .ok s : XWrite).Canonical :=
      XWrite.Canonical.ite (State.linesInBed_canonical hs ..) hs
    split
    · have h := State.unitWrite_canonical hs k (s.ctx k).part (s.ctx k).asid e id bs (lineParts a bs.length)
      split
      · next he =>
        rw [he] at h
        exact h
      · trivial
      · exact wf_of_mem (State.waited_mem ..) hs
    · exact hbed
  · split
    · trivial
    · exact XWrite.Canonical.ite trivial hs

theorem State.creqWrite_canonical (k id : Nat) (e : Eng) (x : Xfer) (a : Nat) (bs : List Byte) :
    (s.creqWrite k id e x a bs).Canonical := by
  unfold State.creqWrite
  dsimp only
  split
  · exact XWrite.Canonical.ite hs (XWrite.Canonical.ite trivial (wf_of_mem (State.spadWrite_mem ..) hs))
  · split
    · trivial
    · exact XWrite.Canonical.ite hs (XWrite.Canonical.ite trivial (wf_of_mem (State.spadWrite_mem ..) hs))
  · split
    · trivial
    · exact wf_of_mem (State.enterUnitMiss_mem ..) hs
    · refine XWrite.Canonical.ite trivial (XWrite.Canonical.ite hs ?_)
      split
      · exact wf_of_mem (State.waitSpace_mem ..) hs
      · next hr =>
        exact State.commitBytes_wf _ _
          (wf_of_mem ((State.endHold_mem ..).trans ((State.dropWait_mem ..).trans (State.reserveLine_mem hr))) hs)

/-! ## Elements -/

theorem State.xferZeros_wf (k : Nat) (x : Xfer) (z : List Nat) : Memory.wf (s.xferZeros k x z).1.mem = true := by
  unfold State.xferZeros
  dsimp only
  split
  · exact hs
  · exact wf_of_mem (foldl_mem (fun _ _ => State.xferPoison_mem ..) _ _) hs

theorem State.putElem_wf (k id : Nat) (e : Eng) (x : Xfer) (dst code : Nat) (old : List Byte) :
    Memory.wf (s.putElem k id e x dst code old).machine.mem = true := by
  have h := State.xferWrite_canonical hs k id e x dst (leBytes (elemBytes x.tf) code)
  unfold State.putElem
  dsimp only
  split
  · exact hs
  · next he =>
    rw [he] at h
    exact h
  · next he =>
    rw [he] at h
    exact h

theorem State.moveElem_wf (k id : Nat) (e : Eng) (x : Xfer) (u dst : Nat) (code : Option Nat) :
    Memory.wf (s.moveElem k id e x u dst code).machine.mem = true := by
  have h := State.xferRead_canonical hs k x.dspc [] dst (elemBytes x.tf)
  unfold State.moveElem
  refine XStep.ite_wf hs (XStep.ite_wf ?_ (State.putElem_wf hs ..))
  split
  · next he =>
    rw [he] at h
    exact h
  · exact hs
  · next he =>
    rw [he] at h
    refine XStep.ite_wf (State.putElem_wf h ..) (XStep.ite_wf (wf_of_mem (State.xferPoison_mem ..) h) ?_)
    exact State.putElem_wf (State.xferZeros_wf h ..) ..

theorem State.elemIndex_canonical (k : Nat) (x : Xfer) (u : Nat) : XStep.OrCanonical Prod.fst (s.elemIndex k x u) := by
  unfold State.elemIndex
  split
  · exact hs
  · dsimp only
    split
    · exact hs
    · have h := State.xferRead_canonical hs k .l [] (x.idx + 4 * (elemPos x.dims u).getD 1 0) 4
      split
      · next he =>
        rw [he] at h
        split
        · exact wf_of_mem (State.xferPoison_mem ..) h
        · exact State.xferZeros_wf h ..
      · exact hs
      · next he =>
        rw [he] at h
        exact h

/-- The progress of a command through one element, its index being read (R255-R258). -/
theorem State.xferElem_wf (k id : Nat) (e : Eng) (x : Xfer) (old : Bool) : Memory.wf (s.xferElem k id e x old).machine.mem = true := by
  have hi := State.elemIndex_canonical hs k x x.next
  unfold State.xferElem
  dsimp only
  split
  · next he =>
    rw [he] at hi
    exact hi
  · next s0 v x1 he =>
    rw [he] at hi
    have h0 : Memory.wf s0.mem = true := hi
    generalize (if (x1.elem x.next v).2 = true then x1.outOfRange ((elemPos x.dims x.next).getD 1 0) v else x1) = x2
    split
    · exact wf_of_mem (State.waited_mem ..) h0
    · next hne =>
      clear hne
      split
      · exact h0
      · exact State.putElem_wf h0 ..
      · exact State.moveElem_wf h0 ..
      · exact State.putElem_wf h0 ..
      · next dst src _ =>
        have h := State.xferRead_canonical h0 k x.sspc x.wire src (elemBytes x.sf)
        split
        · next he =>
          rw [he] at h
          exact h
        · exact h0
        · next he =>
          rw [he] at h
          exact XStep.ite_wf (wf_of_mem (State.xferPoison_mem ..) h) (State.moveElem_wf (State.xferZeros_wf h ..) ..)

theorem State.xferElems_wf (k id : Nat) (e : Eng) (x : Xfer) (pick n : Nat) : Memory.wf (s.xferElems k id e x pick n).1.mem = true := by
  induction n generalizing s x pick with
  | zero => exact hs
  | succ n ih =>
    have h := State.xferElem_wf hs k id e x (pick.testBit 0)
    unfold State.xferElems
    split
    · exact hs
    · split
      · next he =>
        rw [he] at h
        exact ih h ..
      · next he =>
        rw [he] at h
        exact h
      · next he =>
        rw [he] at h
        exact h

/-! ## Chunks -/

theorem State.sysReads_canonical (k : Nat) (x : Xfer) (u n : Nat) : XStep.OrCanonical Prod.fst (s.sysReads k x u n) := by
  induction n generalizing s x u with
  | zero => exact hs
  | succ n ih =>
    have h := State.elemIndex_canonical hs k x u
    unfold State.sysReads
    split
    · exact hs
    · split
      · next he => rwa [he] at h
      · next s1 v x1 he =>
        rw [he] at h
        have h1 := ih h x1 (u + 1)
        split
        · next hr => rwa [hr] at h1
        · next hr =>
          rw [hr] at h1
          split <;> exact h1

theorem State.askChunk_wf (k : Nat) (a : Access) (x : Xfer) : Memory.wf (s.askChunk k a x).mem = true := by
  have h := State.sysReads_canonical hs k x x.next x.chunk
  unfold State.askChunk
  dsimp only
  split
  · next he =>
    rw [he] at h
    exact wf_of_mem (State.stopXfer_mem ..) h
  · next he =>
    rw [he] at h
    exact wf_of_mem (State.setXfer_mem ..) h
  · next he =>
    rw [he] at h
    exact wf_of_mem (State.setXfer_mem ..) h
  · exact wf_of_mem (State.stopXfer_mem ..) hs
  · next he _ =>
    rw [he] at h
    refine ite_wf (wf_of_mem (State.stopXfer_mem ..) h) (wf_of_mem (State.setXfer_mem ..) ?_)
    exact wf_of_mem (foldl_mem (fun _ _ => State.send_mem ..) _ _) h

theorem State.moveChunk_wf (k : Nat) (a : Access) (x : Xfer) : Memory.wf (s.moveChunk k a x).mem = true :=
  wf_of_mem ((State.served_mem ..).trans (State.stopXfer_mem ..)) (State.xferElems_wf hs ..)

theorem State.creqRows_canonical (k : Nat) (x : Xfer) (sum : List Nat) (l : List (Nat × Nat)) :
    XStep.OrCanonical Prod.fst (s.creqRows k x sum l) := by
  induction l generalizing s x sum with
  | nil => exact hs
  | cons p l ih =>
    obtain ⟨j, i⟩ := p
    have h := State.xferRead_canonical hs k .g [] (x.sbase + i * x.rstr) (2 * x.dim)
    unfold State.creqRows
    split
    · exact ih hs ..
    · split
      · exact ih hs ..
      · dsimp only
        split
        · next he =>
          rw [he] at h
          exact h
        · exact hs
        · next he =>
          rw [he] at h
          split
          · exact wf_of_mem (State.xferPoison_mem ..) h
          · exact ih (wf_of_mem (foldl_mem (fun _ _ => State.xferPoison_mem ..) _ _) h) ..

theorem State.creqWrites_wf (k id : Nat) (e : Eng) (x : Xfer) (l : List (Nat × Nat × Nat)) :
    Memory.wf (s.creqWrites k id e x l).1.mem = true := by
  induction l generalizing s x with
  | nil => exact hs
  | cons p l ih =>
    obtain ⟨a, o, n⟩ := p
    have h := State.creqWrite_canonical hs k id e x (a % 2 ^ 64) ((x.wire.drop o).take n)
    unfold State.creqWrites
    split
    · exact hs
    · next he =>
      rw [he] at h
      exact h
    · next he =>
      rw [he] at h
      exact ih h ..

/-! ## Events -/

theorem execTransferChunk_canonical : Canonical (execTransferChunk s) := by
  refine canonical_next ?_
  split
  · exact ite_wf hs (ite_wf (State.askChunk_wf hs ..) (ite_wf (State.moveChunk_wf hs ..) hs))
  · exact hs

theorem execCreqExecute_canonical : Canonical (execCreqExecute s) := by
  refine canonical_next ?_
  dsimp only
  split
  · next a x _ =>
    refine ite_wf hs (ite_wf ?_ ?_)
    · exact wf_of_mem (State.stopXfer_mem ..) (State.creqWrites_wf hs ..)
    · have h := State.creqRows_canonical hs (ctxKey s.cur.ev.core s.cur.ev.ctx) x (List.replicate x.dim 0)
        ((List.range x.rows.length).zip x.rows)
      split
      · exact wf_of_mem (State.waited_mem ..) hs
      · next he =>
        rw [he] at h
        exact wf_of_mem ((State.served_mem ..).trans (State.stopXfer_mem ..)) h
      · next he =>
        rw [he] at h
        exact h
      · next he =>
        rw [he] at h
        exact wf_of_mem ((State.served_mem ..).trans (State.stopXfer_mem ..)) (State.creqWrites_wf h ..)
  · exact hs

theorem execCompletionRecordWrite_canonical : Canonical (execCompletionRecordWrite s) := by
  refine canonical_next ?_
  dsimp only
  split
  · refine ite_wf hs (ite_wf (wf_of_mem (State.recordLost_mem ..) hs) (ite_wf ?_ (ite_wf ?_ (ite_wf ?_ ?_))))
    · exact wf_of_mem ((State.recordLost_mem ..).trans (State.xferPoison_mem ..)) hs
    · split
      · exact hs
      · exact wf_of_mem (State.setXfer_mem ..) hs
    · exact wf_of_mem (State.recordLost_mem ..) hs
    · exact wf_of_mem ((State.setXfer_mem ..).trans ((State.spadWrite_mem ..).trans (State.spadWrite_mem ..))) (State.xferZeros_wf hs ..)
  · exact hs

theorem execSystemReadResponse_canonical : Canonical (execSystemReadResponse s) := by
  refine canonical_next ?_
  split
  · exact wf_of_mem ((State.setXfer_mem ..).trans (State.heard_mem ..)) hs
  · exact hs

theorem execSystemWriteAck_canonical : Canonical (execSystemWriteAck s) := by
  refine canonical_next ?_
  split
  · exact ite_wf hs (wf_of_mem ((State.modCtx_mem ..).trans ((State.setXfer_mem ..).trans (State.heard_mem ..))) hs)
  · exact hs

theorem execRemoteNak_canonical : Canonical (execRemoteNak s) := by
  refine canonical_next ?_
  dsimp only
  split
  · refine ite_wf hs ?_
    split
    · exact ite_wf hs (wf_of_mem (State.stopXfer_mem ..) hs)
    · exact wf_of_mem (State.stopXfer_mem ..) hs
  · exact hs

theorem execTransferCompletion_canonical : Canonical (execTransferCompletion s) := by
  refine canonical_next ?_
  dsimp only
  split
  · next a x _ =>
    obtain ⟨hdone, hwait⟩ := State.xferArrive_wf (s := if x.ten = true then s.setTag s.cur.ev.core x.tag else s)
      (ite_wf (wf_of_mem (State.setTag_mem ..) hs) hs) (ctxKey s.cur.ev.core s.cur.ev.ctx) a.id a.eng x.bar x.barVa x.errArrival
    refine ite_wf hs ?_
    split
    · next he => exact wf_of_mem (State.finishAccess_mem ..) (hdone _ (congrArg Prod.fst he))
    · next he =>
      rw [he] at hwait
      exact wf_of_mem (State.setXfer_mem ..) hwait
  · exact hs

theorem execRingWaitTimeout_canonical : Canonical (execRingWaitTimeout s) := by
  refine canonical_next ?_
  dsimp only
  split
  · split
    · refine ite_wf hs (wf_of_mem ((State.raiseAt_mem ..).trans (State.setXfer_mem ..)) ?_)
      exact State.errorArrive_wf (ite_wf (wf_of_mem (State.setTag_mem ..) hs) hs) ..
    · exact hs
  · exact hs

end

end Sys2Proof.Machine
end

section
/-! PROOFS. Streams, lanes and matrix engines at work leave device memory canonical (R107, R214-R247). -/

namespace Sys2Proof.Machine

/-! ## Streams -/

@[simp] theorem State.fetchPart_mem (s : State) (k : Nat) (p : Part) : (s.fetchPart k p).1.mem = s.mem := by
  have hbad (l : List Nat) (t : State) : (l.foldl (fun t _ => t.wordEvent (s.ctx k).part (k / 4) false) t).mem = t.mem :=
    foldl_mem (fun _ _ => State.wordEvent_mem ..) l t
  unfold State.fetchPart
  dsimp only
  repeat' split
  all_goals simp [hbad]

@[simp] theorem State.fetchUnit_mem (s : State) (k n pick : Nat) : (s.fetchUnit k n pick).mem = s.mem := by
  unfold State.fetchUnit
  dsimp only
  split
  · simp
  · simp
  · split
    · rfl
    · next p _ =>
      have h := s.fetchPart_mem k p
      split
      · next he =>
        rw [he] at h
        exact h
      · next he =>
        rw [he] at h
        split <;> exact h

@[simp] theorem State.storeUnit_mem (s : State) (k n pick : Nat) : (s.storeUnit k n pick).mem = s.mem := by
  unfold State.storeUnit
  dsimp only
  split
  · rfl
  · next b r _ =>
    split
    · simp
    · simp
    · split
      · rfl
      · next p _ =>
        have h := s.writePart_mem k { id := streamWaitId n, eng := .s, inL := false, inS := true, pos := (tget {} (s.ctx k).z n).pos, kind := .store }
          p (((vBytes ((tget {} (s.ctx k).z n).through b.val)).drop p.off).take p.len)
        split
        · next he =>
          rw [he] at h
          exact h
        · next he =>
          rw [he] at h
          exact h

/-! ## Rows of lanes -/

theorem State.lmacRows_mem (s : State) (part : Nat) (l : Lane) (b : LaneBind) (tile : Tile) (j r : Nat) (z : Bool) (seen : List Nat)
    (n : Nat) : (s.lmacRows part l b tile j r z seen n).1.mem = s.mem := by
  induction n generalizing s l j r seen with
  | zero => rfl
  | succ n ih =>
    have hread (l : List Nat) (t : State) : (l.foldl State.readStored t).mem = t.mem := foldl_mem (fun _ _ => State.readStored_mem ..) l t
    have hbad (l : List Nat) (t : State) : (l.foldl (fun t a => t.poisonEvent part a false) t).mem = t.mem :=
      foldl_mem (fun _ _ => State.poisonEvent_mem ..) l t
    unfold State.lmacRows
    dsimp only
    split
    · rw [State.poisonEvent_mem, hread]
    · rw [ih, hbad, hread]

/-! ## Rows of matrix engines -/

/-- The machine that a row of a command gives. -/
def RowRes.machine : RowRes → State
  | .done s => s
  | .fault _ _ s => s
  | .wait s => s

theorem RowRes.ite_wf {c : Prop} [Decidable c] {x y : RowRes} (hx : Memory.wf x.machine.mem = true) (hy : Memory.wf y.machine.mem = true) :
    Memory.wf (if c then x else y).machine.mem = true := by
  split
  · exact hx
  · exact hy

section
variable {s : State} (hs : Memory.wf s.mem = true)
include hs

theorem State.matWork_wf {f : State → Nat → MatEnt → Option State}
    (hf : ∀ t n e u, Memory.wf t.mem = true → f t n e = some u → Memory.wf u.mem = true) : Memory.wf (s.matWork f).mem = true := by
  unfold State.matWork
  dsimp only
  split
  · exact hs
  · next e _ =>
    cases hu : f (s.matBegin s.cur.ev.a) s.cur.ev.a e with
    | none => exact hs
    | some u => exact hf _ _ _ u (wf_of_mem (State.matBegin_mem ..) hs) hu

theorem State.matRows_wf (n : Nat) (e : MatEnt) {row : State → Nat → RowRes}
    (hrow : ∀ t i, Memory.wf t.mem = true → Memory.wf (row t i).machine.mem = true) (total i f : Nat) :
    Memory.wf (s.matRows n e row total i f).mem = true := by
  have hend : Memory.wf (s.matEnd n).mem = true := wf_of_mem (State.matEnd_mem ..) hs
  induction f generalizing s i with
  | zero => exact ite_wf hend hs
  | succ f ih =>
    have h := hrow s i hs
    unfold State.matRows
    refine ite_wf hend ?_
    split
    · next t he =>
      rw [he] at h
      have ht : Memory.wf (t.matRow n).mem = true := wf_of_mem (State.matRow_mem ..) h
      exact ih ht _ (wf_of_mem (State.matEnd_mem ..) ht)
    · next he =>
      rw [he] at h
      exact wf_of_mem (State.deferMat_mem ..) h
    · next he =>
      rw [he] at h
      exact h

theorem State.mldRow_wf (n : Nat) (e : MatEnt) (k va stride rowd nb i : Nat) :
    Memory.wf (s.mldRow n e k va stride rowd nb i).machine.mem = true := by
  have h := State.unitRead_canonical hs e.ctx e.part e.asid (lineParts ((va + i * stride) % 2 ^ 64) nb)
  unfold State.mldRow
  dsimp only
  split
  · next he =>
    rw [he] at h
    exact h
  · exact hs
  · next he =>
    rw [he] at h
    refine RowRes.ite_wf (wf_of_mem (State.poisonEvents_mem ..) h) (RowRes.ite_wf h (RowRes.ite_wf h ?_))
    exact wf_of_mem ((State.tagRegions_mem ..).trans ((State.spadScatter_mem ..).trans
      ((State.setMat_mem ..).trans (State.poisonEvents_mem ..)))) h

theorem State.drnRow_wf (n : Nat) (e : MatEnt) (tl : Nat) (g : Bool) (dest dstr m0 : Nat) (f : Fmt) (clr : Bool) (rm : Rm)
    (sat ftz : Bool) (i : Nat) : Memory.wf (s.drnRow n e tl g dest dstr m0 f clr rm sat ftz i).machine.mem = true := by
  unfold State.drnRow
  dsimp only
  refine RowRes.ite_wf ?_ (RowRes.ite_wf hs (RowRes.ite_wf hs ?_))
  · have h {r : UnitWrite} {bs : List Byte} {l : List (Nat × Nat × Nat)}
        (he : s.unitWrite e.ctx e.part e.asid .c (matWaitId n) bs l = r) : r.Canonical := he ▸ State.unitWrite_canonical hs ..
    split
    · next he =>
      have ht := h he
      exact ite_wf (wf_of_mem (State.setMat_mem ..) ht) ht
    · exact hs
    · exact wf_of_mem (State.waited_mem ..) hs
  · have ht (a : Nat) (bs : List Byte) : Memory.wf (s.spadWrite (64 + n) a bs).mem = true := wf_of_mem (State.spadWrite_mem ..) hs
    exact ite_wf (wf_of_mem (State.setMat_mem ..) (ht _ _)) (ht _ _)

/-! ## Events of streams -/

theorem execSunbindComplete_canonical : Canonical (execSunbindComplete s) := by
  unfold execSunbindComplete
  refine canonical_next ?_
  repeat' split
  all_goals simp [hs]

theorem execStreamFetch_canonical : Canonical (execStreamFetch s) := by
  unfold execStreamFetch
  refine canonical_next ?_
  repeat' split
  all_goals simp [hs]

theorem execStreamStore_canonical : Canonical (execStreamStore s) := by
  unfold execStreamStore
  refine canonical_next ?_
  repeat' split
  all_goals simp [hs]

/-! ## Events of lanes -/

theorem execLcfgApply_canonical : Canonical (execLcfgApply s) := by
  unfold execLcfgApply
  refine canonical_next ?_
  dsimp only
  split
  all_goals simp [hs]

theorem execLfenceReturn_canonical : Canonical (execLfenceReturn s) := by
  unfold execLfenceReturn
  refine canonical_next ?_
  dsimp only
  repeat' split
  all_goals simp [hs]

theorem execLsyncRelease_canonical : Canonical (execLsyncRelease s) := by
  unfold execLsyncRelease
  refine canonical_next ?_
  split
  · refine ite_wf (foldl_wf (fun u n h => ?_) _ hs) hs
    split
    · exact ite_wf (wf_of_mem (State.setLane_mem ..) h) h
    · exact h
  · exact hs

theorem execLwstBind_canonical : Canonical (execLwstBind s) := by
  unfold execLwstBind
  refine canonical_next ?_
  dsimp only
  repeat' split
  all_goals simp [hs]

theorem execLactLoad_canonical : Canonical (execLactLoad s) := by
  unfold execLactLoad
  refine canonical_next ?_
  dsimp only
  split
  all_goals simp [hs]

theorem execLmacPiece_canonical : Canonical (execLmacPiece s) := by
  unfold execLmacPiece
  refine canonical_next ?_
  dsimp only
  split
  · split
    · split
      · next b t _ _ =>
        refine ite_wf (wf_of_mem (State.deferLane_mem ..) hs) (ite_wf (wf_of_mem (State.deferLane_mem ..) hs) (ite_wf hs ?_))
        split
        · next he =>
          refine wf_of_mem ((State.deferLane_mem ..).trans (State.setLane_mem ..)) (wf_of_mem ?_ hs)
          exact (congrArg (fun x => x.1.mem) he).symm.trans ((State.lmacRows_mem ..).trans (State.modCol_mem ..))
        · next he =>
          refine wf_of_mem (State.setLane_mem ..) (wf_of_mem ?_ hs)
          exact (congrArg (fun x => x.1.mem) he).symm.trans ((State.lmacRows_mem ..).trans (State.modCol_mem ..))
      · exact wf_of_mem (State.deferLane_mem ..) hs
    · exact hs
  · exact hs

theorem execLacczClear_canonical : Canonical (execLacczClear s) := by
  unfold execLacczClear
  refine canonical_next ?_
  dsimp only
  split
  all_goals simp [hs]

theorem execLaccrReadout_canonical : Canonical (execLaccrReadout s) := by
  unfold execLaccrReadout
  refine canonical_next ?_
  dsimp only
  repeat' split
  all_goals simp [hs]

theorem execLredReduce_canonical : Canonical (execLredReduce s) := by
  unfold execLredReduce
  refine canonical_next ?_
  dsimp only
  repeat' split
  all_goals simp [hs]

theorem execRingFold_canonical : Canonical (execRingFold s) := by
  unfold execRingFold
  refine canonical_next ?_
  repeat' split
  all_goals simp [hs]

/-! ## Events of matrix engines -/

theorem execMlayExecute_canonical : Canonical (execMlayExecute s) := by
  refine canonical_next (State.matWork_wf hs fun t n e u ht h => ?_)
  split at h
  · next st _ =>
    cases h
    cases st <;> simp [ht]
  · cases h

theorem execMunfExecute_canonical : Canonical (execMunfExecute s) := by
  refine canonical_next (State.matWork_wf hs fun t n e u ht h => ?_)
  split at h
  · cases h
    simp [ht]
  · cases h

theorem execMldExecute_canonical : Canonical (execMldExecute s) := by
  refine canonical_next (State.matWork_wf hs fun t n e u ht h => ?_)
  split at h
  · cases h
    exact ite_wf (wf_of_mem (State.deferMat_mem ..) ht) (State.matRows_wf ht _ _ (fun _ _ hu => State.mldRow_wf hu ..) ..)
  · cases h

theorem execMmulExecute_canonical : Canonical (execMmulExecute s) := by
  refine canonical_next (State.matWork_wf hs fun t n e u ht h => ?_)
  split at h
  · cases h
    refine ite_wf hs (ite_wf ?_ (ite_wf ?_ (ite_wf ?_ (ite_wf ?_ ?_))))
    · exact wf_of_mem (State.deferMat_mem ..) ht
    · exact wf_of_mem ((State.matEnd_mem ..).trans (State.setMat_mem ..)) ht
    · exact wf_of_mem ((State.matEnd_mem ..).trans (State.setMat_mem ..)) ht
    · exact wf_of_mem ((State.deferMat_mem ..).trans (State.wordEvent_mem ..)) ht
    · exact wf_of_mem ((State.matEnd_mem ..).trans ((State.setMat_mem ..).trans ((State.modCtx_mem ..).trans
        (foldl_mem (fun _ _ => State.wordEvent_mem ..) _ _)))) ht
  · cases h

theorem execMdrnExecute_canonical : Canonical (execMdrnExecute s) := by
  refine canonical_next (State.matWork_wf hs fun t n e u ht h => ?_)
  split at h
  · next fd _ _ _ _ _ =>
    cases h
    split
    · exact wf_of_mem ((State.matEnd_mem ..).trans (State.setMat_mem ..)) ht
    · exact ite_wf (wf_of_mem ((State.matEnd_mem ..).trans (State.setMat_mem ..)) ht)
        (State.matRows_wf ht _ _ (fun _ _ hu => State.drnRow_wf hu ..) ..)
  · cases h

theorem execMzeroExecute_canonical : Canonical (execMzeroExecute s) := by
  refine canonical_next (State.matWork_wf hs fun t n e u ht h => ?_)
  split at h
  · cases h
    simp [ht]
  · cases h

theorem execMsemWaitReturn_canonical : Canonical (execMsemWaitReturn s) := by
  unfold execMsemWaitReturn
  refine canonical_next ?_
  repeat' split
  all_goals simp [hs]

end

end Sys2Proof.Machine
end

section
/-! PROOFS. Regions, tasks, saves and the waits of engines leave device memory canonical (R107, R311-R351). -/

namespace Sys2Proof.Machine

/-! ## Saves -/

theorem State.areaRead_leaves {k part asid : Nat} {l : List (Nat × Nat × Nat)} {s : State} :
    (∀ t bs, s.areaRead k part asid l = .ok (t, bs) → t.mem = s.mem) ∧
    ∀ t, s.areaRead k part asid l = .error (some t) → t.mem = s.mem := by
  induction l generalizing s with
  | nil => exact ⟨fun t bs h => by cases h; rfl, fun t h => by cases h⟩
  | cons p l ih =>
    obtain ⟨a, o, n⟩ := p
    unfold State.areaRead
    cases s.unitXlat k part asid (a % 2 ^ 64) false with
    | miss => exact ⟨fun t bs h => (by cases h), fun t h => by cases h; exact State.enterUnitMiss_mem ..⟩
    | fault c => exact ⟨fun t bs h => (by cases h), fun t h => by cases h⟩
    | ok pa w x =>
      dsimp only
      obtain ⟨hok, herr⟩ := ih (s := s.l2Fill (pa / 128))
      cases hr : (s.l2Fill (pa / 128)).areaRead k part asid l with
      | ok q =>
        refine ⟨fun t bs h => ?_, fun t h => by cases h⟩
        cases h
        exact (hok _ _ hr).trans (State.l2Fill_mem ..)
      | error q =>
        refine ⟨fun t bs h => (by cases h), fun t h => ?_⟩
        cases h
        exact (herr _ hr).trans (State.l2Fill_mem ..)

section
variable {s : State} (hs : Memory.wf s.mem = true)
include hs

theorem State.saveSlot_wf (v : Vec) (lwait : Bool) : Memory.wf (s.saveSlot v lwait).machine.mem = true := by
  obtain ⟨hok, herr⟩ := State.areaWrite_wf (k := s.me) (bs := vBytes v)
    (l := lineParts (s.cc.saveAt + 128 * s.cc.slots.length) 128) hs
  unfold State.saveSlot
  refine Res.ite_wf (wf_of_mem (State.failSave_mem ..) hs) (Res.ite_wf (wf_of_mem (State.modMe_mem ..) hs) ?_)
  split
  · next he => exact wf_of_mem (State.modMe_mem ..) (hok _ he)
  · next he => exact herr _ _ he
  · next he => exact wf_of_mem (State.failSave_mem ..) (herr _ _ he)

theorem State.restoreSlot_wf (q : Nat) (lwait : Bool) : Memory.wf (s.restoreSlot q lwait).machine.mem = true := by
  obtain ⟨hok, herr⟩ := State.areaRead_leaves (k := s.me) (part := s.cc.part) (asid := s.cc.asid)
    (l := lineParts (s.cc.saveAt + 128 * s.cc.saveVs) 128) (s := s)
  unfold State.restoreSlot
  refine Res.ite_wf (wf_of_mem (State.modMe_mem ..) hs) (Res.ite_wf (wf_of_mem (State.modMe_mem ..) hs) ?_)
  split
  · next he => exact wf_of_mem ((State.modMe_mem ..).trans (hok _ _ he)) hs
  · next he => exact wf_of_mem (herr _ he) hs
  · exact wf_of_mem (State.raise_mem ..) hs

theorem State.beginSave_wf (k : Nat) (y : YieldEnt) (lwait : Bool) (child : Nat) :
    Memory.wf (s.beginSave k y lwait child).mem = true := by
  have hwrote {base : Nat} {x : Except (State × Bool) State}
      (hx : (if lwait = true then s.draw.2.areaWrite k ((List.range (s.ctx k).saveHead).map (Config.freeByte s.draw.1))
        (lineParts base (s.ctx k).saveHead) else .ok s.draw.2) = x) :
      (∀ t, x = .ok t → Memory.wf t.mem = true) ∧ ∀ t b, x = .error (t, b) → Memory.wf t.mem = true := by
    subst hx
    split
    · exact State.areaWrite_wf (s := s.draw.2) hs
    · exact ⟨fun t h => by cases h; exact hs, fun t b h => by cases h⟩
  unfold State.beginSave
  refine ite_wf (wf_of_mem (State.failSave_mem ..) hs) ?_
  dsimp only
  split
  · next he => exact wf_of_mem (State.failSave_mem ..) ((hwrote he).2 _ _ rfl)
  · next he => exact (hwrote he).2 _ _ rfl
  · next he => exact wf_of_mem (State.abandonRegion_mem ..) ((hwrote he).1 _ rfl)

theorem State.endSave_wf (k : Nat) (lwait : Bool) : Memory.wf (s.endSave k lwait).mem = true := by
  unfold State.endSave
  refine ite_wf hs ?_
  split
  · exact hs
  · next v _ =>
    have h {x : Except (State × Bool) State} (hx : s.markHeader k v = x) :
        (∀ t, x = .ok t → Memory.wf t.mem = true) ∧ ∀ t b, x = .error (t, b) → Memory.wf t.mem = true :=
      hx ▸ State.areaWrite_wf (s := s.draw.2) hs
    split
    · next he => exact wf_of_mem (State.failSave_mem ..) ((h he).2 _ _ rfl)
    · next he => exact (h he).2 _ _ rfl
    · next he => exact wf_of_mem ((State.setCtx_mem ..).trans ((State.forget_mem ..).trans (State.modRegion_mem ..))) ((h he).1 _ rfl)

theorem State.retrySave_wf (k : Nat) : Memory.wf (s.retrySave k).mem = true := by
  unfold State.retrySave
  split
  · exact ite_wf (State.endSave_wf hs ..) hs
  · exact hs

theorem State.afterYield_wf : Memory.wf s.afterYield.mem = true := by
  unfold State.afterYield
  refine ite_wf hs ?_
  split
  · exact State.endSave_wf hs ..
  · exact wf_of_mem (State.endRestore_mem ..) hs
  · exact hs

theorem State.readSaveHead_wf (k : Nat) (v : SavedTask) {f : State → State}
    (hf : ∀ t, Memory.wf t.mem = true → Memory.wf (f t).mem = true) : Memory.wf (s.readSaveHead k v f).mem = true := by
  obtain ⟨hok, herr⟩ := State.areaRead_leaves (k := k) (part := v.ctx.part) (asid := v.ctx.asid)
    (l := lineParts ((v.ctx.eng .x).rx 28).toNat v.ctx.saveHead) (s := s)
  unfold State.readSaveHead
  dsimp only
  split
  · next he => exact hf _ (wf_of_mem (hok _ _ he) hs)
  · next he => exact wf_of_mem (herr _ he) hs
  · exact wf_of_mem (State.raise_mem ..) (hf s hs)

theorem State.returnOf_wf (k : Nat) (e : Eng) (p : AccKind → Bool) : Memory.wf (s.returnOf k e p).mem = true := by
  unfold State.returnOf
  split
  · split
    · exact ite_wf (State.performAll_wf hs ..) hs
    · exact hs
  · exact hs

/-! ## Admissions -/

theorem State.balance_wf (regid pick : Nat) : Memory.wf (s.balance regid pick).mem = true := by
  unfold State.balance
  dsimp only
  split
  · simp [hs]
  · split <;> simp [hs]

theorem State.admitLaunch_wf (l : Launch) (p : Plan) (b : Binding)
    (t : Nat × Nat × Option (List Byte) × List Nat × List YieldEnt) (pick : Nat) : Memory.wf (s.admitLaunch l p b t pick).mem = true := by
  have hcols (c : List Nat) (t : State) :
      (c.foldl (fun t c => t.modCol c fun v => { v with lslots := 24, plan := none }) t).mem = t.mem :=
    foldl_mem (fun _ _ => State.modCol_mem ..) c t
  have hlanes (c : List Nat) (t : State) :
      (c.foldl (fun t n => t.setLane n { t.lane n with rsync := false, pol := false }) t).mem = t.mem :=
    foldl_mem (fun _ _ => State.setLane_mem ..) c t
  have hmats (c : List Nat) (t : State) : (c.foldl (fun t n => t.setMat n { t.mat n with sems := [] }) t).mem = t.mem :=
    foldl_mem (fun _ _ => State.setMat_mem ..) c t
  obtain ⟨hok, herr⟩ := State.writeRcb_wf hs l
  unfold State.admitLaunch
  dsimp only
  split
  · next he => exact herr _ he
  · next u he =>
    refine State.balance_wf (wf_of_mem ?_ (hok _ he)) ..
    rw [State.giveMin_mem, hmats, hlanes, hcols]
    split
    · rw [State.modRegion_mem]
      simp
    · simp

theorem State.tryAdmit_wf (l : Launch) (p : Plan) (b : Binding) (pick : Nat) : Memory.wf (s.tryAdmit l p b pick).mem = true := by
  have hgo (t : State) (ht : Memory.wf t.mem = true) (x : Option (Nat × Nat × Option (List Byte) × List Nat × List YieldEnt)) :
      Memory.wf (match x with
        | none => t.refuse l stDecl pick
        | some y => if t.bindOk l p b && t.windowsReady l p b && t.turnOf l then t.admitLaunch l p b y pick else t).mem = true := by
    split
    · exact State.refuse_wf ht ..
    · exact ite_wf (State.admitLaunch_wf ht ..) ht
  unfold State.tryAdmit
  dsimp only
  split
  · exact hgo s hs _
  · split
    · exact wf_of_mem (State.askIdust_mem ..) hs
    · exact ite_wf (hgo _ (wf_of_mem (State.touchIdust_mem ..) hs) _) hs

theorem State.admitNow_wf (l : Launch) (p : Plan) (b : Binding) (pick : Nat) : Memory.wf (s.admitNow l p b pick).mem = true := by
  unfold State.admitNow
  split
  · exact State.refuse_wf hs ..
  · exact ite_wf (State.tryAdmit_wf hs ..) (wf_of_mem (State.putLaunch_mem ..) hs)

/-! ## Events of regions -/

theorem execBalancerRun_canonical : Canonical (execBalancerRun s) := canonical_next (ite_wf (State.balance_wf hs ..) hs)

theorem execRegionCompletion_canonical : Canonical (execRegionCompletion s) :=
  canonical_next (ite_wf hs (ite_wf (State.complete_wf hs ..)
    (ite_wf (State.complete_wf (wf_of_mem (State.modRegion_mem ..) hs) ..) hs)))

theorem execRegionAbort_canonical : Canonical (execRegionAbort s) := canonical_next (ite_wf (State.abortDiscards_wf hs ..) hs)

theorem execRegionAdmission_canonical : Canonical (execRegionAdmission s) := by
  have hrem (l : Launch) (p : Plan) : Memory.wf (s.remember l p).mem = true := wf_of_mem (State.remember_mem ..) hs
  unfold execRegionAdmission
  refine canonical_next ?_
  split
  · exact hs
  · refine ite_wf hs ?_
    split
    · exact State.admitNow_wf (hrem _ _) ..
    · split
      · exact State.refuse_wf hs ..
      · dsimp only
        split
        · exact State.refuse_wf (hrem _ _) ..
        · exact wf_of_mem (State.putLaunch_mem ..) (hrem _ _)

theorem execAbortMessage_canonical : Canonical (execAbortMessage s) := by
  unfold execAbortMessage
  refine canonical_next (ite_wf hs (ite_wf (wf_of_mem ((State.reply_mem ..).trans (State.startAbort_mem ..)) hs) ?_))
  dsimp only
  split
  · have h (l : Launch) := State.refuse_wf hs l stAborted s.cur.pick
    exact ite_wf (h _) (wf_of_mem (State.reply_mem ..) (h _))
  · exact wf_of_mem (State.reply_mem ..) hs

/-! ## Events of tasks -/

theorem execTaskCommit_canonical : Canonical (execTaskCommit s) := by
  unfold execTaskCommit
  refine canonical_next ?_
  dsimp only
  split
  · exact State.commitStep_wf hs ..
  · refine ite_wf hs ?_
    split
    · exact wf_of_mem (State.raiseDeferred_mem ..) hs
    · refine ite_wf hs ?_
      have h := State.commitBegin_wf hs (ctxKey s.cur.ev.core s.cur.ev.ctx)
      split
      · exact State.commitStep_wf h ..
      · exact h
  · exact hs

theorem execTrapDelivery_canonical : Canonical (execTrapDelivery s) := by
  unfold execTrapDelivery
  refine canonical_next ?_
  split
  · exact ite_wf hs (State.deliverTrap_wf hs ..)
  · exact hs

theorem execTrapRecordPublish_canonical : Canonical (execTrapRecordPublish s) := canonical_next (State.publishTrap_wf hs ..)

theorem execPageWalk_canonical : Canonical (execPageWalk s) := by
  have hfill (l : List Nat) (t : State) : (l.foldl State.l2Fill t).mem = t.mem := foldl_mem (fun _ _ => State.l2Fill_mem ..) l t
  have hfail (l : List MissReq) (t : State) : (l.foldl State.failReq t).mem = t.mem := foldl_mem (fun _ _ => State.failReq_mem ..) l t
  have htlb (e : TlbEnt) (l : List Nat) (t : State) : (l.foldl (fun u c => u.fillTlb c e) t).mem = t.mem :=
    foldl_mem (fun _ _ => State.fillTlb_mem ..) l t
  have hwake (l : List MissReq) (t : State) : (l.foldl (fun u q => u.modCtx q.ctx Ctx.wake) t).mem = t.mem :=
    foldl_mem (fun _ _ => State.modCtx_mem ..) l t
  unfold execPageWalk
  refine canonical_next ?_
  dsimp only
  split
  · exact hs
  · split
    · rw [hfail, hfill]
      exact hs
    · rw [hwake, htlb, hfill]
      exact hs

theorem execContextHalt_canonical : Canonical (execContextHalt s) := by
  unfold execContextHalt
  refine canonical_next ?_
  split
  · exact hs
  · exact ite_wf (State.beginSave_wf hs ..) hs

theorem execLwaitYield_canonical : Canonical (execLwaitYield s) := by
  unfold execLwaitYield
  refine canonical_next ?_
  dsimp only
  split
  · exact State.retrySave_wf hs _
  · exact ite_wf hs (ite_wf (wf_of_mem ((State.endLwait_mem ..).trans (State.modRegion_mem ..)) hs)
      (ite_wf (State.beginSave_wf hs ..) hs))
  · exact hs

theorem execLwaitResume_canonical : Canonical (execLwaitResume s) := by
  unfold execLwaitResume
  refine canonical_next ?_
  dsimp only
  split
  · exact hs
  · split
    · exact hs
    · refine ite_wf hs (State.readSaveHead_wf hs _ _ fun t ht => ?_)
      exact wf_of_mem (State.beginRestore_mem ..) ht

/-! ## Events that end waits -/

theorem execQfenceReturn_canonical : Canonical (execQfenceReturn s) := canonical_next (State.returnOf_wf hs ..)

theorem execBarwaitReturn_canonical : Canonical (execBarwaitReturn s) := canonical_next (State.returnOf_wf hs ..)

theorem execSqwaitReturn_canonical : Canonical (execSqwaitReturn s) := canonical_next (State.returnOf_wf hs ..)

theorem execSqwaitTimeout_canonical : Canonical (execSqwaitTimeout s) := by
  unfold execSqwaitTimeout
  refine canonical_next ?_
  split
  · split
    · split
      · exact ite_wf hs (ite_wf (State.performAll_wf hs ..)
          (wf_of_mem ((State.finishAccess_mem ..).trans ((State.writeReg_mem ..).trans (State.acquireAt_mem ..))) hs))
      · exact hs
    · exact hs
  · exact hs

theorem execAlrGrant_canonical : Canonical (execAlrGrant s) := by
  unfold execAlrGrant
  refine canonical_next ?_
  split
  · exact State.performAll_wf hs ..
  · exact hs

theorem execLenAdvance_canonical : Canonical (execLenAdvance s) := canonical_next (ite_wf (State.tryAdvance_wf _ hs) hs)

end

end Sys2Proof.Machine
end

section
/-! PROOFS. The rake, migration, boot, records and the host's and the firmware's writes leave device memory canonical (R107). -/

namespace Sys2Proof.Machine

/-! ## The rake and migration -/

section
variable {s : State} (hs : Memory.wf s.mem = true)
include hs

theorem State.reclaimBalloon_wf (g : Nat) : Memory.wf (s.reclaimBalloon g).mem = true := by
  unfold State.reclaimBalloon
  split
  · exact hs
  · refine ite_wf hs (wf_of_mem ((State.modPart_mem ..).trans (State.rebook_mem ..)) ?_)
    exact wf_filter _ hs

theorem State.rake_wf (part pick : Nat) : Memory.wf (s.rake part pick).mem = true := by
  unfold State.rake
  refine ite_wf hs (ite_wf (wf_of_mem ((State.marks_mem ..).trans (State.modPart_mem ..)) hs) ?_)
  split
  · exact wf_of_mem (State.writeBack_mem ..) hs
  · split
    · exact State.reclaimBalloon_wf hs _
    · exact hs

end

@[simp] theorem State.takeOver_mem (s : State) (bed old new : Nat) : (s.takeOver bed old new).mem = s.mem := by
  unfold State.takeOver
  exact (State.modCol_mem ..).trans (State.modCol_mem ..)

theorem State.payMove_mem {s t : State} {g : Nat} {e : Granule} (h : s.payMove g e = some t) : t.mem = s.mem := by
  unfold State.payMove at h
  dsimp only at h
  split at h
  · cases h
  · split at h
    · cases h
      rfl
    · split at h
      · cases h
      · cases h
        simp

@[simp] theorem State.startCopy_mem (s : State) (pick g : Nat) : (s.startCopy pick g).mem = s.mem := by
  have hbegun (c : Option Nat) (t : State) : (match c with
      | some c => t.setGranule g { s.granule g with copying := some (c, false), tried := none }
      | none => t).mem = t.mem := by
    split <;> rfl
  unfold State.startCopy
  dsimp only
  split
  · exact hbegun _ s
  · split
    · next he => exact (hbegun _ _).trans (State.payMove_mem he)
    · split <;> rfl

/-! ## Records -/

section
variable {s : State} (hs : Memory.wf s.mem = true)
include hs

theorem State.letGo_wf {part scb : Nat} {t : State} (h : s.letGo part scb = some t) : Memory.wf t.mem = true := by
  unfold State.letGo at h
  split at h
  · obtain ⟨v, hv, rfl⟩ := Option.map_eq_some_iff.mp h
    obtain ⟨u, hu, hv⟩ := Option.bind_eq_some_iff.mp hv
    exact State.unpinSeq_wf _ (wf_of_mem ((State.reserveLine_mem hv).trans (State.reserveLine_mem hu)) hs)
  · cases h
    exact hs

theorem State.newSalt_wf {part : Nat} {salt : BitVec 256} {t : State} (h : s.newSalt part salt = some t) : Memory.wf t.mem = true := by
  have hfold (l : List (Nat × PfxEnt)) (o : Option State) (ho : ∀ t, o = some t → Memory.wf t.mem = true) {t : State}
      (h : l.foldl (fun o e => o.bind fun t => t.letGo part e.2.scb) o = some t) : Memory.wf t.mem = true := by
    induction l generalizing o with
    | nil => exact ho t h
    | cons e l ih =>
      refine ih (o.bind fun t => t.letGo part e.2.scb) (fun u hu => ?_) h
      obtain ⟨v, hv, hu⟩ := Option.bind_eq_some_iff.mp hu
      exact State.letGo_wf (ho v hv) hu
  unfold State.newSalt at h
  dsimp only at h
  split at h
  · cases h
    exact hs
  · obtain ⟨u, hu, rfl⟩ := Option.map_eq_some_iff.mp h
    exact wf_of_mem (State.modPart_mem ..) (hfold _ _ (fun t ht => by cases ht; exact hs) hu)

theorem execConfigRecordSubmit_canonical : Canonical (execConfigRecordSubmit s) := by
  have hrefuse (part : Nat) : Memory.wf (s.refuseRecord part).mem = true := wf_of_mem (State.refuseRecord_mem ..) hs
  unfold execConfigRecordSubmit
  refine canonical_next ?_
  dsimp only
  split
  · exact hs
  · refine ite_wf hs ?_
    split
    · exact ite_wf (wf_of_mem ((State.reply_mem ..).trans (State.recordEvent_mem ..)) hs) (hrefuse _)
    · refine ite_wf ?_ (hrefuse _)
      split
      · exact hs
      · next ht =>
        exact wf_of_mem ((State.reply_mem ..).trans ((State.recordEvent_mem ..).trans
          ((State.marks_mem ..).trans (State.modPart_mem ..)))) (State.newSalt_wf hs ht)

/-! ## The host -/

theorem State.rdmaWrite_wf (q : Nat) (l : List (Nat × List Byte)) : Memory.wf (s.rdmaWrite q l).mem = true := by
  cases l with
  | nil => exact hs
  | cons p r =>
    unfold State.rdmaWrite
    refine ite_wf (wf_of_mem (State.modQp_mem ..) hs) ?_
    dsimp only
    split
    · exact wf_of_mem ((State.modQp_mem ..).trans (State.waitSpace_mem ..)) hs
    · next hr =>
      have hw (w : Bool) (l : List (Nat × Byte)) := State.commitMasked_wf (p.1 / 128) w l
        (wf_of_mem ((State.dropWait_mem _ (q / 256) p.1 none (2 ^ 50 + q)).trans (State.reserveLine_mem hr)) hs)
      exact ite_wf (wf_of_mem ((State.send_mem ..).trans (State.modQp_mem ..)) (hw _ _)) (wf_of_mem (State.modQp_mem ..) (hw _ _))

theorem execRdmaWriteInbound_canonical : Canonical (execRdmaWriteInbound s) := by
  unfold execRdmaWriteInbound
  refine canonical_next (ite_wf hs ?_)
  split
  · exact State.rdmaWrite_wf hs ..
  · split
    · exact hs
    · split
      · exact hs
      · exact State.rdmaWrite_wf hs ..

theorem execRdmaReadInbound_canonical : Canonical (execRdmaReadInbound s) := by
  have hfill (l : List Nat) : (l.foldl State.l2Fill s).mem = s.mem := foldl_mem (fun _ _ => State.l2Fill_mem ..) l s
  unfold execRdmaReadInbound
  refine canonical_next (ite_wf hs ?_)
  split
  · exact hs
  · split
    · exact hs
    · refine ite_wf hs ?_
      dsimp only
      split
      · exact wf_of_mem (State.send_mem ..) (ite_wf (wf_of_mem ((State.poisonEvent_mem ..).trans (hfill _)) hs)
          (wf_of_mem ((State.send_mem ..).trans ((State.poisonEvent_mem ..).trans (hfill _))) hs))
      · exact wf_of_mem ((State.send_mem ..).trans (hfill _)) hs

theorem execBalloonMessage_canonical : Canonical (execBalloonMessage s) := by
  unfold execBalloonMessage
  refine canonical_next (ite_wf hs ?_)
  split
  · exact wf_of_mem (State.reply_mem ..) hs
  · refine wf_of_mem (State.reply_mem ..) (foldl_wf (fun t i ht => ?_) _ hs)
    split
    · exact wf_of_mem (State.surrender_mem ..) ht
    · exact ht

/-! ## The firmware -/

theorem State.firmwareWrite_wf (pa : Nat) (bs : List Byte) : Memory.wf (s.firmwareWrite pa bs).mem = true := by
  have hpart (b : List Byte) (a : Nat) {t u : State} (ht : Memory.wf t.mem = true) (hu : (match tfind t.grans (granOf a) with
      | some e => (t.reserveLine e.part a).map fun w => w.commitBytes a b
      | none => some (t.commitBytes a b)) = some u) : Memory.wf u.mem = true := by
    split at hu
    · obtain ⟨w, hw, rfl⟩ := Option.map_eq_some_iff.mp hu
      exact State.commitBytes_wf _ _ (wf_of_mem (State.reserveLine_mem hw) ht)
    · cases hu
      exact State.commitBytes_wf _ _ ht
  have hfold (l : List (Nat × Nat × Nat)) (o : Option State) (ho : ∀ t, o = some t → Memory.wf t.mem = true) {t : State}
      (h : l.foldl (fun (t : Option State) p => t.bind fun u =>
        match tfind u.grans (granOf p.1) with
        | some e => (u.reserveLine e.part p.1).map fun w => w.commitBytes p.1 ((bs.drop p.2.1).take p.2.2)
        | none => some (u.commitBytes p.1 ((bs.drop p.2.1).take p.2.2))) o = some t) : Memory.wf t.mem = true := by
    induction l generalizing o with
    | nil => exact ho t h
    | cons p l ih =>
      refine ih _ (fun u hu => ?_) h
      obtain ⟨v, hv, hu⟩ := Option.bind_eq_some_iff.mp hu
      exact hpart _ _ (ho v hv) hu
  unfold State.firmwareWrite
  generalize hr : (lineParts pa bs.length).foldl _ _ = r
  cases r with
  | none => exact hs
  | some t => exact hfold _ _ (fun t ht => by cases ht; exact hs) hr

theorem State.fwAct_wf (f : FwAct) : Memory.wf (s.fwAct f).mem = true := by
  cases f with
  | write pa bs => exact State.firmwareWrite_wf hs ..
  | root => exact ite_wf hs hs
  | map => exact wf_of_mem (State.mapGranule_mem ..) hs
  | unmap => exact wf_of_mem (State.unmapGranule_mem ..) hs
  | pin => exact wf_of_mem (State.pinGranule_mem ..) hs
  | pool => exact ite_wf (wf_of_mem (State.setPool_mem ..) hs) hs
  | inbound => exact ite_wf (wf_of_mem (State.modPart_mem ..) hs) hs
  | outbound => exact ite_wf (wf_of_mem (State.modPart_mem ..) hs) hs
  | own => exact wf_of_mem (State.ownChunks_mem ..) hs
  | launch => exact ite_wf hs hs
  | watch => exact ite_wf (wf_of_mem (State.raiseAt_mem ..) hs) hs
  | _ => exact hs

theorem State.firmware_wf (f : FwAct) : Memory.wf (s.firmware f).mem = true := ite_wf (State.fwAct_wf hs f) hs

end

/-! ## Boot -/

theorem execBoot_canonical (s : State) : Canonical (execBoot s) := by
  obtain ⟨u, hu, -, -, -, hm, -⟩ := exec_boot_leaves (s := s) rfl rfl
  intro t ht
  cases hu.symm.trans ht
  rw [hm]
  rfl

end Sys2Proof.Machine
end

section
/-! PROOFS. The events that write no byte of device memory leave it canonical (R107). -/

namespace Sys2Proof.Machine

section
variable {s : State} (hs : Memory.wf s.mem = true)
include hs

theorem execTagWaitReturn_canonical : Canonical (execTagWaitReturn s) := by
  unfold execTagWaitReturn
  refine canonical_next ?_
  repeat' split
  all_goals simp [hs]

theorem execTagWaitTimeout_canonical : Canonical (execTagWaitTimeout s) := by
  unfold execTagWaitTimeout
  refine canonical_next ?_
  repeat' split
  all_goals simp [hs]

theorem execAlrHoldExpiry_canonical : Canonical (execAlrHoldExpiry s) := by
  unfold execAlrHoldExpiry
  refine canonical_next ?_
  repeat' split
  all_goals simp [hs]

theorem execBlockHeader_canonical (rep : BitVec 7) (body : BitVec 12) (mask : BitVec 4) :
    Canonical (execBlockHeader rep body mask s) := by
  unfold execBlockHeader
  refine canonical_next ?_
  simp [hs]

theorem execBlockHeaderReg_canonical (r : Reg) (body : BitVec 12) (mask : BitVec 4) :
    Canonical (execBlockHeaderReg r body mask s) := by
  unfold execBlockHeaderReg
  refine canonical_next ?_
  split <;> simp [hs]

theorem execCtlSplitWrite_canonical : Canonical (execCtlSplitWrite s) := by
  unfold execCtlSplitWrite
  refine canonical_next ?_
  split <;> simp [hs]

theorem execCtlSplitApply_canonical : Canonical (execCtlSplitApply s) := by
  unfold execCtlSplitApply
  refine canonical_next ?_
  split <;> simp [hs]

theorem execSlotPlanWrite_canonical : Canonical (execSlotPlanWrite s) := by
  unfold execSlotPlanWrite
  refine canonical_next ?_
  repeat' split
  all_goals simp [hs]

theorem execSqattnExecute_canonical : Canonical (execSqattnExecute s) := by
  unfold execSqattnExecute
  refine canonical_next ?_
  dsimp only
  repeat' split
  all_goals simp [hs]

theorem execTaskStart_canonical : Canonical (execTaskStart s) := by
  unfold execTaskStart
  refine canonical_next ?_
  dsimp only
  repeat' split
  all_goals simp [hs]

theorem execDeadlockDetect_canonical : Canonical (execDeadlockDetect s) := by
  unfold execDeadlockDetect
  refine canonical_next ?_
  repeat' split
  all_goals simp [hs]

theorem execCoreJoinStage_canonical : Canonical (execCoreJoinStage s) := by
  unfold execCoreJoinStage
  refine canonical_next ?_
  repeat' split
  all_goals simp [hs]

theorem execCoreGrant_canonical : Canonical (execCoreGrant s) := by
  unfold execCoreGrant
  refine canonical_next ?_
  split <;> simp [hs]

theorem execCoreWaitPriorityRise_canonical : Canonical (execCoreWaitPriorityRise s) := by
  unfold execCoreWaitPriorityRise
  refine canonical_next ?_
  repeat' split
  all_goals simp [hs]

theorem execQuiescenceReport_canonical : Canonical (execQuiescenceReport s) := by
  unfold execQuiescenceReport
  refine canonical_next ?_
  split <;> simp [hs]

theorem execQuiesReturn_canonical : Canonical (execQuiesReturn s) := by
  unfold execQuiesReturn
  refine canonical_next ?_
  repeat' split
  all_goals simp [hs]

theorem execQuiesTimeout_canonical : Canonical (execQuiesTimeout s) := by
  unfold execQuiesTimeout
  refine canonical_next ?_
  repeat' split
  all_goals simp [hs]

theorem execLaunchPriorityRise_canonical : Canonical (execLaunchPriorityRise s) := by
  unfold execLaunchPriorityRise
  refine canonical_next ?_
  dsimp only
  repeat' split
  all_goals simp [hs]

theorem execLaunchMessage_canonical : Canonical (execLaunchMessage s) := by
  unfold execLaunchMessage
  refine canonical_next ?_
  repeat' split
  all_goals simp [hs]

theorem execPreemptionRequest_canonical : Canonical (execPreemptionRequest s) := by
  unfold execPreemptionRequest
  refine canonical_next ?_
  split <;> simp [hs]

theorem execUnitStopAck_canonical : Canonical (execUnitStopAck s) := by
  unfold execUnitStopAck
  refine canonical_next ?_
  split <;> simp [hs]

theorem execCollectorReport_canonical : Canonical (execCollectorReport s) := by
  unfold execCollectorReport
  refine canonical_next ?_
  repeat' split
  all_goals simp [hs]

theorem execPartitionSwap_canonical : Canonical (execPartitionSwap s) := by
  unfold execPartitionSwap
  refine canonical_next ?_
  repeat' split
  all_goals simp [hs]

theorem execContextRestore_canonical : Canonical (execContextRestore s) := by
  unfold execContextRestore
  refine canonical_next ?_
  split <;> simp [hs]

theorem execFrameBoundary_canonical : Canonical (execFrameBoundary s) := by
  unfold execFrameBoundary
  refine canonical_next ?_
  split <;> simp [hs]

theorem execStreamingSlot_canonical : Canonical (execStreamingSlot s) := by
  unfold execStreamingSlot
  refine canonical_next ?_
  repeat' split
  all_goals simp [hs]

theorem execRefreshSlot_canonical : Canonical (execRefreshSlot s) := by
  unfold execRefreshSlot
  refine canonical_next ?_
  split <;> simp [hs]

theorem execMaintenanceSlot_canonical : Canonical (execMaintenanceSlot s) := by
  unfold execMaintenanceSlot
  refine canonical_next ?_
  split <;> simp [hs]

theorem execRetrainingDue_canonical : Canonical (execRetrainingDue s) := by
  unfold execRetrainingDue
  refine canonical_next ?_
  split <;> simp [hs]

theorem execRetrainingForce_canonical : Canonical (execRetrainingForce s) := by
  unfold execRetrainingForce
  refine canonical_next ?_
  repeat' split
  all_goals simp [hs]

theorem execRetrainingEnd_canonical : Canonical (execRetrainingEnd s) := by
  unfold execRetrainingEnd
  refine canonical_next ?_
  repeat' split
  all_goals simp [hs]

theorem execBankSleep_canonical : Canonical (execBankSleep s) := by
  unfold execBankSleep
  refine canonical_next ?_
  split <;> simp [hs]

theorem execBankWake_canonical : Canonical (execBankWake s) := by
  unfold execBankWake
  refine canonical_next ?_
  split <;> simp [hs]

theorem execPowerSample_canonical : Canonical (execPowerSample s) := by
  unfold execPowerSample
  refine canonical_next ?_
  dsimp only
  repeat' split
  all_goals simp [hs]

theorem execL2Writeback_canonical : Canonical (execL2Writeback s) := by
  unfold execL2Writeback
  refine canonical_next ?_
  simp [hs]

theorem execBalloonReclaim_canonical : Canonical (execBalloonReclaim s) :=
  canonical_next (ite_wf hs (State.reclaimBalloon_wf hs _))

theorem execRakeReclaim_canonical : Canonical (execRakeReclaim s) := canonical_next (State.rake_wf hs ..)

theorem execSpaceTimeout_canonical : Canonical (execSpaceTimeout s) := by
  unfold execSpaceTimeout
  refine canonical_next ?_
  repeat' split
  all_goals simp [hs]

theorem execGranuleMigrate_canonical : Canonical (execGranuleMigrate s) := by
  unfold execGranuleMigrate
  refine canonical_next ?_
  repeat' split
  all_goals simp [hs]

theorem execMigrationTimeout_canonical : Canonical (execMigrationTimeout s) := by
  unfold execMigrationTimeout
  refine canonical_next ?_
  repeat' split
  all_goals simp [hs]

theorem execMigrationRetry_canonical : Canonical (execMigrationRetry s) := by
  unfold execMigrationRetry
  refine canonical_next ?_
  repeat' split
  all_goals simp [hs]

theorem execColumnDrain_canonical : Canonical (execColumnDrain s) := by
  unfold execColumnDrain
  refine canonical_next ?_
  repeat' split
  all_goals simp [hs]

theorem execColumnRetire_canonical : Canonical (execColumnRetire s) :=
  canonical_next (ite_wf hs (wf_of_mem (((State.send_mem ..).trans (State.record_mem ..)).trans
    ((State.loseChunks_mem ..).trans (State.modCol_mem ..))) hs))

theorem execTrellisSwitch_canonical : Canonical (execTrellisSwitch s) := by
  unfold execTrellisSwitch
  refine canonical_next ?_
  repeat' split
  all_goals simp [hs]

theorem execAttestationRequest_canonical : Canonical (execAttestationRequest s) := by
  unfold execAttestationRequest
  refine canonical_next ?_
  split <;> simp [hs]

theorem execFirmwareImageLoad_canonical : Canonical (execFirmwareImageLoad s) := by
  unfold execFirmwareImageLoad
  refine canonical_next ?_
  dsimp only
  repeat' split
  all_goals simp [hs]

theorem execFirmwareSlotSwitch_canonical : Canonical (execFirmwareSlotSwitch s) := by
  unfold execFirmwareSlotSwitch
  refine canonical_next ?_
  repeat' split
  all_goals simp [hs]

theorem execFirmwareSwitchBack_canonical : Canonical (execFirmwareSwitchBack s) := by
  unfold execFirmwareSwitchBack
  refine canonical_next ?_
  split <;> simp [hs]

theorem execFatalError_canonical : Canonical (execFatalError s) := by
  unfold execFatalError
  refine canonical_next ?_
  split <;> simp [hs]

theorem execIdustTranslationDone_canonical : Canonical (execIdustTranslationDone s) := by
  unfold execIdustTranslationDone
  refine canonical_next ?_
  repeat' split
  all_goals simp [hs]

theorem execSpaceMessage_canonical : Canonical (execSpaceMessage s) := by
  unfold execSpaceMessage
  refine canonical_next ?_
  split <;> simp [hs]

theorem execCongestionNotification_canonical : Canonical (execCongestionNotification s) := canonical_next hs

theorem execFrameDrop_canonical : Canonical (execFrameDrop s) := canonical_next hs

theorem execPriorityFlowControlFrame_canonical : Canonical (execPriorityFlowControlFrame s) := canonical_next hs

theorem execPortRetrain_canonical : Canonical (execPortRetrain s) := by
  unfold execPortRetrain
  refine canonical_next ?_
  split <;> simp [hs]

theorem execFlitReplay_canonical : Canonical (execFlitReplay s) := canonical_next hs

theorem execUcieLaneRepair_canonical : Canonical (execUcieLaneRepair s) := canonical_next hs

end

end Sys2Proof.Machine
end

section
/-! PROOFS. The word instructions whose effect is their own leave device memory canonical (R107). -/

namespace Sys2Proof.Machine

section
variable {s : State} (hs : Memory.wf s.mem = true)
include hs

/-! The branches and what passes between engines. -/

theorem State.branchTo_wf (t : Int) : Memory.wf (s.branchTo t).machine.mem = true := by
  have h : Leaves s.mem (fun _ => s) (s.checkTarget t) := by
    unfold State.checkTarget
    refine Leaves.ite rfl ?_
    split
    · exact Leaves.ite rfl rfl
    · exact State.enterMiss_mem ..
    · rfl
    · rfl
  unfold State.branchTo
  split
  · exact hs
  · next he =>
    rw [he] at h
    exact wf_of_mem h hs

theorem State.branchBy_wf (w o : Nat) : Memory.wf (s.branchBy w o).machine.mem = true := State.branchTo_wf hs _

theorem execBra_canonical (o : BitVec 20) : Canonical (execBra o s) := issue_canonical hs _ (State.branchBy_wf hs ..)

theorem execBc_canonical (p : BitVec 3) (n : BitVec 1) (o : BitVec 16) : Canonical (execBc p n o s) :=
  issue_canonical hs _ (Res.ite_wf (State.branchBy_wf hs ..) hs)

theorem execCall_canonical (o : BitVec 20) : Canonical (execCall o s) := by
  refine issue_canonical hs _ ?_
  have h := State.branchBy_wf hs 20 o.toNat
  dsimp only
  generalize s.branchBy 20 o.toNat = r at h ⊢
  split
  · exact wf_of_mem (State.wx_mem ..) h
  · exact h

theorem execBq_canonical (n : BitVec 1) (o : BitVec 16) : Canonical (execBq n o s) :=
  issue_canonical hs _ (Res.ite_wf (State.branchBy_wf hs ..) hs)

theorem execBx_canonical (a : Reg) : Canonical (execBx a s) := issue_canonical hs _ (State.branchTo_wf hs _)

theorem execRet_canonical : Canonical (execRet s) := issue_canonical hs _ (State.branchTo_wf hs _)

theorem execBcast_canonical (p e : BitVec 3) (i : BitVec 1) : Canonical (execBcast p e i s) :=
  issue_canonical hs _ (Res.ite_wf hs hs)

theorem execXsend_canonical (m : Mods) (e : BitVec 3) (a : Reg) : Canonical (execXsend m e a s) :=
  issue_canonical hs _ (Res.ite_wf hs hs)

theorem execXrecv_canonical (m : Mods) (d : Reg) : Canonical (execXrecv m d s) :=
  issue_canonical hs _ (wf_of_mem (State.wx_mem ..) hs)

theorem execNop16_canonical : Canonical (execNop16 s) := issue_canonical hs _ hs

theorem execNop_canonical : Canonical (execNop s) := issue_canonical hs _ hs

theorem execTkpush_canonical (n : BitVec 1) : Canonical (execTkpush n s) :=
  issue_canonical hs _ (Res.ite_wf hs (Res.ite_wf hs (Res.ite_wf hs hs)))

theorem execTkpop_canonical (n : BitVec 1) : Canonical (execTkpop n s) := issue_canonical hs _ (Res.ite_wf hs (Res.ite_wf hs hs))

theorem execSel_canonical (m : Mods) (d a b : Reg) (n : BitVec 1) (p : BitVec 3) : Canonical (execSel m d a b n p s) :=
  issue_canonical hs _ (wf_of_mem (State.wx_mem ..) hs)

/-! The special registers, the software traps and the ends of a task. -/

theorem execMfs_canonical (m : Mods) (d : Reg) (n : BitVec 9) : Canonical (execMfs m d n s) := by
  refine issue_canonical hs _ ?_
  split
  · exact wf_of_mem (State.wx_mem ..) hs
  · exact hs

theorem execMts_canonical (m : Mods) (a : Reg) (n : BitVec 9) : Canonical (execMts m a n s) := by
  refine issue_canonical hs _ ?_
  split
  · exact State.writeSpr_wf hs ..
  · exact hs

theorem execHalt_canonical : Canonical (execHalt s) := issue_canonical hs _ (wf_of_mem (State.raise_mem ..) hs)

theorem execTrap_canonical (m : Mods) (k : BitVec 15) : Canonical (execTrap m k s) :=
  issue_canonical hs _ (wf_of_mem (State.raise_mem ..) hs)

theorem execChk_canonical (m : Mods) (a b : Reg) : Canonical (execChk m a b s) :=
  issue_canonical hs _ (Res.ite_wf (wf_of_mem (State.raise_mem ..) hs) hs)

theorem execTabort_canonical (m : Mods) : Canonical (execTabort m s) :=
  issue_canonical hs _ (wf_of_mem (State.startAbort_mem ..) hs)

theorem execTstat_canonical (m : Mods) (d : Reg) (k : BitVec 2) : Canonical (execTstat m d k s) :=
  issue_canonical hs _ (wf_of_mem (State.wx_mem ..) hs)

theorem execTret_canonical (m : Mods) (d a b : Reg) : Canonical (execTret m d a b s) :=
  issue_canonical hs _ (wf_of_mem ((State.wx_mem ..).trans (State.claimTrap_mem ..)) hs)

theorem execYield_canonical : Canonical (execYield s) := by
  have h : Memory.wf (if s.cur.eng = .x then s.abandonRegion s.me else s).mem = true :=
    ite_wf (wf_of_mem (State.abandonRegion_mem ..) hs) hs
  exact issue_canonical hs _ (Res.ite_wf (State.afterYield_wf (State.retireWait_wf h ..)) h)

theorem execTend_canonical : Canonical (execTend s) := by
  refine issue_canonical hs _ ?_
  have h : Memory.wf (if s.cur.eng = .x then (s.abandonRegion s.me).modMe fun c => if c.st = .run then c.endYields else c
      else s).mem = true :=
    ite_wf (wf_of_mem ((State.modMe_mem ..).trans (State.abandonRegion_mem ..)) hs) hs
  exact Res.ite_wf h h

/-! The accesses that are no plain load or store. -/

theorem execVldg_canonical (m : Mods) (q : BitVec 2) (a : Reg) (b : XOrBk) (nb : BitVec 3) (k : BitVec 16) :
    Canonical (execVldg m q a b nb k s) := by
  unfold execVldg
  split
  · exact issue_canonical hs _ (State.restoreSlot_wf hs ..)
  · exact vectorLoad_canonical hs m .g q a b nb k

theorem execVstg_canonical (m : Mods) (q : BitVec 2) (a b : Reg) (nb : BitVec 3) (k : BitVec 16) :
    Canonical (execVstg m q a b nb k s) := by
  unfold execVstg
  split
  · exact issue_canonical hs _ (State.saveSlot_wf hs ..)
  · exact vectorStore_canonical hs m .g q a b nb k

theorem execPfg_canonical (m : Mods) (a : Reg) (k : BitVec 10) : Canonical (execPfg m a k s) :=
  lineOp_canonical hs m a k fun _ => Res.ite_wf hs (wf_of_mem (State.prefetch_mem ..) hs)

theorem execL1inv_canonical (m : Mods) (a : Reg) (k : BitVec 10) : Canonical (execL1inv m a k s) :=
  lineOp_canonical hs m a k fun _ => State.invalidate_wf hs _

theorem execL1invAll_canonical (m : Mods) : Canonical (execL1invAll m s) := issue_canonical hs _ (State.invalidate_wf hs _)

theorem execMark_canonical (m : Mods) : Canonical (execMark m s) := issue_canonical hs _ (Res.ite_wf hs (State.enter_wf hs _))

theorem execFence_canonical (m : Mods) : Canonical (execFence m s) := issue_canonical hs _ (Res.ite_wf hs (State.enter_wf hs _))

theorem execQfence_canonical (m : Mods) (a : Reg) (k : BitVec 6) : Canonical (execQfence m a k s) := by
  refine issue_canonical hs _ ?_
  split
  · exact wf_of_mem (State.raiseDeferred_mem ..) hs
  · exact Res.ite_wf hs (State.enter_wf hs _)

theorem execTwany_canonical (m : Mods) (d a b : Reg) : Canonical (execTwany m d a b s) := tagWait_canonical hs m false d a b

theorem execTwall_canonical (m : Mods) (d a b : Reg) : Canonical (execTwall m d a b s) := tagWait_canonical hs m true d a b

theorem execTffr_canonical (m : Mods) (d a : Reg) : Canonical (execTffr m d a s) := by
  refine issue_canonical hs _ (Res.ite_wf (wf_of_mem (State.wx_mem ..) hs) ?_)
  split
  · exact wf_of_mem (State.raiseDeferred_mem ..) hs
  · exact wf_of_mem ((State.wx_mem ..).trans ((State.clearTags_mem ..).trans (State.tagAcquire_mem ..))) hs

theorem execTclr_canonical (m : Mods) (a : Reg) : Canonical (execTclr m a s) :=
  issue_canonical hs _ (wf_of_mem (State.clearTags_mem ..) hs)

theorem execBarinit_canonical (m : Mods) (a b : Reg) : Canonical (execBarinit m a b s) :=
  issue_canonical hs _ (State.startOp_wf hs _ _ _ fun _ ht => ht)

theorem execBararr_canonical (m : Mods) (d a b : Reg) : Canonical (execBararr m d a b s) :=
  issue_canonical hs _ (State.startOp_wf hs _ _ _ fun _ ht => ht)

theorem execBarwait_canonical (m : Mods) (d a b : Reg) : Canonical (execBarwait m d a b s) :=
  issue_canonical hs _ (State.startOp_wf hs _ _ _ fun _ ht => ht)

theorem execAlrb_canonical (m : Mods) (a : Reg) (k : BitVec 16) : Canonical (execAlrb m a k s) := by
  refine issue_canonical hs _ (Res.ite_wf hs ?_)
  have h := State.startOp_wf hs m (.alrb (effAddr (s.rx a) 0 (immS 16 k.toNat m)) false)
    (s.checked .g true 1 (effAddr (s.rx a) 0 (immS 16 k.toNat m)) 1) (go := .later) fun _ ht => ht
  dsimp only
  split
  · next he =>
    rw [he] at h
    exact wf_of_mem (State.releaseLine_mem ..) h
  · exact h

theorem execAlrl_canonical (m : Mods) (d a : Reg) (z : BitVec 1) (w : Width) (o : BitVec 7) : Canonical (execAlrl m d a z w o s) := by
  refine issue_canonical hs _ (State.inRegion_wf hs a o _ fun x => ?_)
  split
  · exact wf_of_mem (State.wx_mem ..) hs
  · exact wf_of_mem (State.wx_mem ..) hs

theorem execAlrs_canonical (m : Mods) (a b : Reg) (w : Width) (o : BitVec 7) : Canonical (execAlrs m a b w o s) :=
  issue_canonical hs _ (State.inRegion_wf hs a o _ fun _ => hs)

theorem execAlrc_canonical (m : Mods) (d : Reg) : Canonical (execAlrc m d s) := by
  refine issue_canonical hs _ (Res.ite_wf hs ?_)
  split
  · exact wf_of_mem (State.wx_mem ..) hs
  · next r _ =>
    have h := State.startOp_wf hs m (.alrc d r.marks) (.ok [{ place := .mem, addr := 128 * r.line, len := 128, off := 0, va := r.va }])
      (go := .later) fun _ ht => ht
    dsimp only
    split
    · next he =>
      rw [he] at h
      exact ite_wf h h
    · exact h

theorem execSqfork_canonical (m : Mods) (d a b : Reg) : Canonical (execSqfork m d a b s) := by
  refine issue_canonical hs _ ?_
  dsimp only
  split
  · exact State.startOp_wf hs _ _ _ fun _ ht => ht
  · exact State.startOp_wf hs _ _ _ fun _ ht => ht
  · exact State.startOp_wf hs _ _ _ fun _ ht => ht

theorem execSqwait_canonical (m : Mods) (d a b c : Reg) : Canonical (execSqwait m d a b c s) :=
  issue_canonical hs _ (State.startOp_wf hs _ _ _ fun _ ht => ht)

theorem execLdq_canonical (m : Mods) (d a b c : Reg) (ch : BitVec 14) : Canonical (execLdq m d a b c ch s) :=
  issue_canonical hs _ (State.startSlotLoad_wf hs ..)

theorem execVldq_canonical (m : Mods) (q : BitVec 2) (a b c : Reg) (ch : BitVec 14) : Canonical (execVldq m q a b c ch s) := by
  refine issue_canonical hs _ ?_
  have h := State.startSlotLoad_wf hs m a b ch.toNat 128 fun h => .qload 0 c h (s.rx b).toNat ch.toNat (some q.toNat)
  split
  · next he =>
    rw [he] at h
    exact wf_of_mem (State.modMe_mem ..) h
  · exact h

theorem execStq_canonical (m : Mods) (d a b : Reg) (ch : BitVec 14) : Canonical (execStq m d a b ch s) :=
  issue_canonical hs _ (State.startFill_wf hs ..)

theorem execVstq_canonical (m : Mods) (q : BitVec 2) (a b : Reg) (ch : BitVec 14) : Canonical (execVstq m q a b ch s) :=
  issue_canonical hs _ (State.startFill_wf hs ..)

theorem execSqattn_canonical (m : Mods) (a b : Reg) (ten : BitVec 1) (tag : BitVec 6) : Canonical (execSqattn m a b ten tag s) := by
  refine issue_canonical hs _ (Res.ite_wf hs (Res.ite_wf hs (Res.ite_wf hs ?_)))
  refine readThen_wf hs _ _ fun u _ hu => Res.ite_wf hu (Res.ite_wf hu ?_)
  exact readThen_wf hu _ _ fun w _ hw => State.startOp_wf hw _ _ _ fun _ ht => ht

/-! The streams and the lanes' status. -/

theorem execSbind_canonical (m : Mods) (z : BitVec 4) (a : Reg) (k : BitVec 16) : Canonical (execSbind m z a k s) := by
  have h := s.readLocal_leaves (effAddr (s.rx a) 0 (immS 16 k.toNat m)) 64
  refine issue_canonical hs _ (Res.ite_wf hs ?_)
  split
  · next he =>
    rw [he] at h
    exact wf_of_mem h hs
  · next he =>
    rw [he] at h
    split
    · exact wf_of_mem h hs
    · exact wf_of_mem ((State.setStream_mem ..).trans h) hs

theorem execSbop_canonical (m : Mods) (z : BitVec 4) (a : Reg) : Canonical (execSbop m z a s) := by
  refine issue_canonical hs _ ?_
  dsimp only
  generalize (if s.ownStream z.toNat && !(s.stream z.toNat).moved then chainOf (s.rx a) else none) = x
  cases x with
  | none => exact hs
  | some c => exact wf_of_mem (State.setStream_mem ..) hs

theorem execSunbind_canonical (m : Mods) (z : BitVec 4) (now : BitVec 1) : Canonical (execSunbind m z now s) :=
  issue_canonical hs _ (Res.ite_wf hs (Res.ite_wf (Res.ite_wf hs hs) (Res.ite_wf hs hs)))

theorem execSadv_canonical (m : Mods) (z : BitVec 4) (a : Reg) : Canonical (execSadv m z a s) :=
  issue_canonical hs _ (Res.ite_wf hs (wf_of_mem ((State.settleSkips_mem ..).trans (State.setStream_mem ..)) hs))

theorem execSstat_canonical (m : Mods) (d : Reg) (z : BitVec 4) : Canonical (execSstat m d z s) :=
  issue_canonical hs _ (wf_of_mem ((State.wx_mem ..).trans (State.settleSkips_mem ..)) hs)

theorem execVext_canonical (m : Mods) (d : Reg) (a : VSrc) (k : BitVec 8) (sx : BitVec 1) (w : Width) :
    Canonical (execVext m d a k sx w s) :=
  issue_canonical hs _ (State.withSrcs_wf hs _ _ fun _ _ ht => wf_of_mem (State.wx_mem ..) ht)

theorem execLstat_canonical (m : Mods) (d a : Reg) : Canonical (execLstat m d a s) := by
  refine issue_canonical hs _ ?_
  split
  · split
    · exact wf_of_mem (State.raiseDeferred_mem ..) hs
    · exact wf_of_mem (State.wx_mem ..) hs
  · exact hs

end

end Sys2Proof.Machine
end

section
/-! PROOFS. The instructions for lanes, matrix engines, the table of prefixes and scheduling leave device memory canonical (R107). -/

namespace Sys2Proof.Machine

section
variable {s : State} (hs : Memory.wf s.mem = true)
include hs

/-! The lane macros. -/

theorem execLcfg_canonical (m : Mods) (a b : Reg) : Canonical (execLcfg m a b s) :=
  laneMacro_pushed_canonical hs m a _ fun _ _ => rfl

theorem execLfence_canonical (m : Mods) (a : Reg) : Canonical (execLfence m a s) :=
  laneMacro_canonical hs m a _ (fun _ _ => by rfl) fun _ _ ht => ht

theorem execLsync_canonical (m : Mods) (a : Reg) : Canonical (execLsync m a s) :=
  laneMacro_pushed_canonical hs m a _ fun _ _ => rfl

theorem execLwst_canonical (m : Mods) (a b c : Reg) (f : BitVec 6) : Canonical (execLwst m a b c f s) :=
  laneMacro_pushed_canonical hs m a _ fun _ _ => Leaves.ite rfl (Leaves.ite rfl rfl)

theorem execLact_canonical (m : Mods) (a b c : Reg) (f : BitVec 6) : Canonical (execLact m a b c f s) := by
  refine laneMacro_pushed_canonical hs m a _ fun _ _ => Leaves.ite rfl (Leaves.ite rfl ?_)
  have h := s.readTile_leaves (s.rx b).toNat (bits (s.rx c).toNat 63 32)
    (bits (s.rx c).toNat 27 16 * recordSize ((fmtOfCode f).getD .i8s)) (bits (s.rx c).toNat 4 0)
  split
  · rfl
  · next he =>
    rw [he] at h
    exact h
  · next he =>
    rw [he] at h
    exact h

theorem execLmac_canonical (m : Mods) (a b : Reg) (z : BitVec 1) : Canonical (execLmac m a b z s) :=
  laneMacro_pushed_canonical hs m a _ fun _ _ => Leaves.ite rfl rfl

theorem execLaccz_canonical (m : Mods) (a : Reg) : Canonical (execLaccz m a s) :=
  laneMacro_pushed_canonical hs m a _ fun _ _ => rfl

theorem execLaccr_canonical (m : Mods) (a b c : Reg) (f : FltEt) : Canonical (execLaccr m a b c f s) :=
  laneMacro_pushed_canonical hs m a _ fun _ _ => Leaves.ite rfl (Leaves.ite rfl (Leaves.ite rfl rfl))

theorem execLred_canonical (m : Mods) (a b c : Reg) (clr ring : BitVec 1) (f : FltEt) : Canonical (execLred m a b c clr ring f s) := by
  refine laneMacro_pushed_canonical hs m a _ fun _ _ => Leaves.ite rfl (Leaves.ite (Leaves.ite rfl ?_) ?_)
  · split
    · rfl
    · exact Leaves.ite rfl (Leaves.ite rfl rfl)
  · exact Leaves.ite rfl (Leaves.ite rfl rfl)

/-! The matrix commands. -/

section
variable (m : Mods) (ws : BitVec 4) (we : BitVec 1) (ss : BitVec 4) (se : BitVec 1)

theorem execMlay_canonical (a b : Reg) (l : BitVec 3) : Canonical (execMlay m a b l ws we ss se s) :=
  matCommand_canonical hs m _ ws we ss se (Leaves.ite rfl (Leaves.ite rfl (Leaves.ite rfl (Leaves.ite rfl rfl))))

theorem execMunf_canonical (a b : Reg) (id : BitVec 1) : Canonical (execMunf m a b id ws we ss se s) :=
  matCommand_canonical hs m _ ws we ss se (Leaves.ite rfl (Leaves.ite rfl rfl))

theorem execMld_canonical (a b c : Reg) (l : BitVec 3) : Canonical (execMld m a b c l ws we ss se s) :=
  matCommand_canonical hs m _ ws we ss se (Leaves.ite rfl rfl)

theorem execMmul_canonical (a b : Reg) (u : BitVec 1) (tl : BitVec 2) : Canonical (execMmul m a b u tl ws we ss se s) := by
  refine matCommand_canonical hs m _ ws we ss se ?_
  dsimp only
  split
  · exact Leaves.ite rfl rfl
  · rfl

theorem execMdrn_canonical (a b : Reg) (g : BitVec 1) (tl : BitVec 2) : Canonical (execMdrn m a b g tl ws we ss se s) :=
  matCommand_canonical hs m _ ws we ss se (Leaves.ite rfl (Leaves.ite rfl rfl))

theorem execMzero_canonical (mode : TMode) (tl : BitVec 2) : Canonical (execMzero m mode tl ws we ss se s) :=
  matCommand_canonical hs m _ ws we ss se rfl

end

theorem execMsemSig_canonical (m : Mods) (k : BitVec 4) (n : BitVec 12) : Canonical (execMsemSig m k n s) :=
  matInstr_canonical hs m _ (wf_of_mem (State.setMat_mem ..) hs)

theorem execMsemRd_canonical (m : Mods) (d : Reg) (k : BitVec 4) : Canonical (execMsemRd m d k s) :=
  matInstr_canonical hs m _ (wf_of_mem (State.wx_mem ..) hs)

theorem execMsemSt_canonical (m : Mods) (d : Reg) : Canonical (execMsemSt m d s) :=
  matInstr_canonical hs m _ (wf_of_mem ((State.wx_mem ..).trans (State.setMat_mem ..)) hs)

theorem execMsemWait_canonical (m : Mods) (k : BitVec 4) (n : BitVec 12) : Canonical (execMsemWait m k n s) :=
  matInstr_canonical hs m _ (Res.ite_wf (wf_of_mem ((State.acquireAt_mem ..).trans (State.setMat_mem ..)) hs) hs)

/-! The translations. -/

theorem State.tlbRemove_wf (p : TlbEnt → Bool) (q : Miss → Bool) : Memory.wf (s.tlbRemove p q).mem = true :=
  wf_of_mem (State.tlbRemove_mem ..) hs

theorem execTlbinvPg_canonical (a b : Reg) : Canonical (execTlbinvPg a b s) := privOp_canonical hs _ (State.tlbRemove_wf hs _ _)

theorem execTlbinvAs_canonical (a : Reg) : Canonical (execTlbinvAs a s) := privOp_canonical hs _ (State.tlbRemove_wf hs _ _)

theorem execTlbinvAll_canonical : Canonical (execTlbinvAll s) := privOp_canonical hs _ (State.tlbRemove_wf hs _ _)

theorem execAsset_canonical (a : Reg) : Canonical (execAsset a s) :=
  privOp_canonical hs _ (wf_of_mem ((State.modMe_mem ..).trans (State.retarget_mem ..)) hs)

/-! The table of prefixes. -/

theorem State.pfxDone_wf (d : Reg) (status value : Nat) : Memory.wf (s.pfxDone d status value).machine.mem = true :=
  wf_of_mem (State.wx_mem ..) hs

theorem pfxOp_canonical (m : Mods) (d : Reg) (regs : List Reg) {f : State → Res} (hf : Memory.wf (f s).machine.mem = true) :
    Canonical (pfxOp m d regs s f) := issue_canonical hs _ hf

omit hs in
theorem State.pinning_wf (part : Nat) (l : List Nat) (s : State) (hs : Memory.wf s.mem = true) {f : State → Res}
    (hf : ∀ t, Memory.wf t.mem = true → Memory.wf (f t).machine.mem = true) : Memory.wf (s.pinning part l f).machine.mem = true := by
  induction l generalizing s with
  | nil => exact hf s hs
  | cons pa r ih =>
    unfold State.pinning
    refine Res.ite_wf (ih s hs) ?_
    split
    · next he => exact State.reserveScb_error_wf hs he
    · next t he =>
      have h := ih t (State.reserveScb_ok_wf hs he)
      split
      · exact hs
      · exact h

theorem execPfxh_canonical (m : Mods) (d a b : Reg) : Canonical (execPfxh m d a b s) := by
  refine pfxOp_canonical hs m d _ (Res.ite_wf hs ?_)
  exact readThen_wf hs _ _ fun _ _ ht => wf_of_mem (State.wx_mem ..) ht

theorem execPfxl_canonical (m : Mods) (d a b : Reg) : Canonical (execPfxl m d a b s) := by
  refine pfxOp_canonical hs m d _ (Res.ite_wf hs (Res.ite_wf (State.pfxDone_wf hs ..) ?_))
  refine readThen_wf hs _ _ fun u _ hu => ?_
  dsimp only
  split
  · exact State.pfxDone_wf hu ..
  · exact Res.ite_wf (State.pfxDone_wf hu ..) (State.pfxDone_wf (wf_of_mem (State.modPart_mem ..) hu) ..)

theorem execPfxlH_canonical (m : Mods) (d a : Reg) : Canonical (execPfxlH m d a s) := by
  refine pfxOp_canonical hs m d _ ?_
  split
  · exact State.pfxDone_wf hs ..
  · exact State.pfxDone_wf hs ..

theorem execPfxlS_canonical (m : Mods) (d a : Reg) : Canonical (execPfxlS m d a s) := by
  refine pfxOp_canonical hs m d _ ?_
  split
  · exact State.pfxDone_wf hs ..
  · exact State.pfxDone_wf hs ..

/-- What an insertion does once the control blocks that it changes have their headroom. -/
theorem State.insertPfx_wf (part pa i : Nat) (old : Option PfxEnt) (e : PfxEnt) (d : Reg) :
    Memory.wf ((((match old with | some e => s.unpinSeq e.scb | none => s).pinSeq pa).modPart part fun p =>
      { p with prefixes := tput p.prefixes i e, recency := recent p.recency i }).pfxDone d 0 i).machine.mem = true := by
  refine State.pfxDone_wf (wf_of_mem (State.modPart_mem ..) (State.pinSeq_wf pa ?_)) ..
  cases old with
  | none => exact hs
  | some e => exact State.unpinSeq_wf _ hs

theorem execPfxi_canonical (m : Mods) (d a b c : Reg) : Canonical (execPfxi m d a b c s) := by
  refine pfxOp_canonical hs m d _ ?_
  dsimp only
  split
  · exact hs
  · exact State.missStall_wf hs _
  · refine Res.ite_wf (State.pfxDone_wf hs ..) (Res.ite_wf (State.pfxDone_wf hs ..) ?_)
    split
    · exact State.pfxDone_wf hs ..
    · refine Res.ite_wf (State.pfxDone_wf hs ..) ?_
      split
      · exact State.pfxDone_wf hs ..
      · exact State.pinning_wf _ _ s hs fun _ ht => State.insertPfx_wf ht ..

theorem execPfxd_canonical (m : Mods) (d a : Reg) : Canonical (execPfxd m d a s) := by
  refine pfxOp_canonical hs m d _ ?_
  dsimp only
  split
  · exact State.pfxDone_wf hs ..
  · refine Res.ite_wf (State.pfxDone_wf hs ..) (State.pinning_wf _ _ s hs fun t ht => ?_)
    exact State.pfxDone_wf (wf_of_mem (State.modPart_mem ..) (State.unpinSeq_wf _ ht)) ..

theorem execPfxdU_canonical (m : Mods) (d a : Reg) : Canonical (execPfxdU m d a s) := by
  refine pfxOp_canonical hs m d _ ?_
  dsimp only
  split
  · exact State.pfxDone_wf hs ..
  · exact Res.ite_wf (State.pfxDone_wf hs ..) (State.pfxDone_wf (wf_of_mem (State.modPart_mem ..) hs) ..)

/-! Scheduling. -/

theorem State.answer_wf (d : Reg) (status value : Nat) : Memory.wf (s.answer d status value).machine.mem = true :=
  wf_of_mem (State.wx_mem ..) hs

theorem schedOp_canonical (m : Mods) (d : Reg) (regs : List Reg) {f : State → Res} (hf : Memory.wf (f s).machine.mem = true) :
    Canonical (schedOp m d regs s f) := issue_canonical hs _ hf

theorem State.launchBusy_wf (d : Reg) : Memory.wf (s.launchBusy d).machine.mem = true :=
  State.answer_wf (wf_of_mem (State.modRegion_mem ..) hs) ..

theorem State.reapInto_wf (d : Reg) (e : ChildEnd) : Memory.wf (s.reapInto d e).machine.mem = true :=
  State.answer_wf (wf_of_mem ((State.l1DropAll_mem ..).trans (State.modRegion_mem ..)) hs) ..

theorem execLaunch_canonical (m : Mods) (d a b : Reg) : Canonical (execLaunch m d a b s) := by
  refine schedOp_canonical hs m d _ (Res.ite_wf hs (Res.ite_wf (State.answer_wf hs ..) (Res.ite_wf (State.launchBusy_wf hs d)
    (Res.ite_wf (State.answer_wf ?_ ..) (Res.ite_wf ?_ (State.launchBusy_wf hs d))))))
  · exact hs
  · dsimp only
    split
    · exact hs
    · next u he =>
      refine State.answer_wf ?_ ..
      exact (State.heldWrite_wf hs).1 u he

theorem execLwait_canonical (m : Mods) (d a : Reg) : Canonical (execLwait m d a s) := by
  refine schedOp_canonical hs m d _ (Res.ite_wf hs ?_)
  split
  · exact State.reapInto_wf hs ..
  · exact hs
  · exact State.answer_wf hs ..

theorem execLpoll_canonical (m : Mods) (d a : Reg) : Canonical (execLpoll m d a s) := by
  refine schedOp_canonical hs m d _ ?_
  split
  · exact State.reapInto_wf hs ..
  · exact State.answer_wf hs ..
  · exact State.answer_wf hs ..

theorem execRcbq_canonical (m : Mods) (d a : Reg) (k : BitVec 5) : Canonical (execRcbq m d a k s) :=
  schedOp_canonical hs m d _ (Res.ite_wf hs (Res.ite_wf (State.answer_wf hs ..) (Res.ite_wf (State.answer_wf hs ..)
    (Res.ite_wf (State.answer_wf hs ..) (Res.ite_wf (State.answer_wf hs ..) (Res.ite_wf (State.answer_wf hs ..)
      (State.answer_wf hs ..)))))))

theorem execSpop_canonical (m : Mods) (d : Reg) : Canonical (execSpop m d s) := by
  refine schedOp_canonical hs m d _ (Res.ite_wf (State.answer_wf hs ..) ?_)
  split
  · exact State.answer_wf hs ..
  · exact State.answer_wf (wf_of_mem ((State.l1DropAll_mem ..).trans ((State.modMe_mem ..).trans (State.modRegion_mem ..))) hs) ..

theorem execSpush_canonical (m : Mods) (d a b : Reg) : Canonical (execSpush m d a b s) := by
  refine schedOp_canonical hs m d _ (Res.ite_wf hs (Res.ite_wf hs (readThen_wf hs _ _ fun u _ hu => ?_)))
  dsimp only
  split
  · exact State.answer_wf hu ..
  · refine Res.ite_wf (State.answer_wf hu ..) ?_
    split
    · next he => exact wf_of_mem (State.reservePush_mem.2 _ he) hu
    · next he =>
      exact State.answer_wf (wf_of_mem
        ((State.modMe_mem ..).trans ((State.modRegion_mem ..).trans (State.reservePush_mem.1 _ he))) hu) ..

theorem execWlapp_canonical (m : Mods) (d a b : Reg) : Canonical (execWlapp m d a b s) :=
  schedOp_canonical hs m d _ (Res.ite_wf (State.answer_wf hs ..) (Res.ite_wf (State.answer_wf hs ..)
    (State.answer_wf (wf_of_mem ((State.modMe_mem ..).trans (State.modRegion_mem ..)) hs) ..)))

theorem execWltake_canonical (m : Mods) (d a : Reg) : Canonical (execWltake m d a s) := by
  refine schedOp_canonical hs m d _ (Res.ite_wf (State.answer_wf hs ..) ?_)
  split
  · exact State.answer_wf hs ..
  · exact State.answer_wf (wf_of_mem ((State.modMe_mem ..).trans (State.modRegion_mem ..)) hs) ..

theorem execQuies_canonical (m : Mods) (d a : Reg) : Canonical (execQuies m d a s) := schedOp_canonical hs m d _ hs

end

end Sys2Proof.Machine
end

section
/-! PROOFS. Every instruction, every event and every step leaves device memory in its canonical form (R103, R107). -/

namespace Sys2Proof.Machine

theorem exec_canonical {s : State} (hs : Memory.wf s.mem = true) (i : Instr) : Canonical (exec i s) := by
  unfold exec
  cases i with
  | mov16 | addi16 | li16 | add16 | sub16 | and16 | or16 | xor16 | shli16 | shri16 | srai16 | add | sub | mul | mulh
  | mulhU | div | divU | rem | remU | and | or | xor | andn | shl | shr | sra | rot | min | minU | max | maxU | clz | ctz
  | popc | sextB | sextH | sextW | zextB | zextH | zextW | mov | addi | andi | ori | xori | shli | shri | srai | li | lih
  | li64 | madd | bext | bextS | bins | lea | feat | clock | roleid => exact aluOp_canonical hs _ _ _ _
  | cmp | cmpi | pand | por | pxor | pnot => exact predOp_canonical hs _ _ _ _
  | ldl | ldp | ldg => exact scalarLoad_canonical hs _ _ _ _ _ _
  | stl | stp | stg => exact scalarStore_canonical hs _ _ _ _ _ _
  | vldl | vldp => exact vectorLoad_canonical hs _ _ _ _ _ _ _
  | vstl | vstp => exact vectorStore_canonical hs _ _ _ _ _ _ _
  | vgl | vgg => exact gather_canonical hs _ _ _ _ _ _ _
  | vsl | vsg => exact scatter_canonical hs _ _ _ _ _ _ _
  | aadd | aand | aor | axor | amin | amax | aswp | acas | afadd | abinc => exact atomic_canonical hs _ _ _ _ _ _ _ _
  | vaddC | vsubC | vmulC | vandC | vorC | vxorC | vminC | vmaxC | vfaddC | vfsubC | vfmulC | vfminC | vfmaxC
    => exact compact_canonical hs _ _ _ _ fun _ _ _ => vecOp_canonical hs _ _ _ _ _
  | vadd | vsub | vmul | vmulh | vmadd | vmin | vmax | vand | vor | vxor | vshl | vshr | vsra | vabs | vneg | vsel
  | vpopc | vfadd | vfsub | vfmul | vfma | vfmin | vfmax | vfrcp | vfrsq | vfexp2 | vflog2 | vftanh | vcvt | vqnt | vdqnt
  | vpack | vunpk | vradd | vrmax | vfradd | vfrmax | vperm | vrot | vbcast | vins | vcomp | vexpd | vmrg3 | vmov | vli
  | vsplat => exact vecOp_canonical hs _ _ _ _ _
  | vcmp | vfcmp => exact cmpOp_canonical hs _ _ _ _ _ _ _ _
  | xcopy | xgath | xscat | xscadd | xfill | xring | creq => exact xferCmd_canonical hs _ _ _ _ _ _ _
  | sqnew | sqres | sqrest | sqcmt | sqacc | sqwd | sqfree | sqlen | sqpin | squnpin | sqext
    => exact seqOp_canonical hs _ _ _ _ _ _
  | blockHeader => exact execBlockHeader_canonical hs _ _ _
  | blockHeaderReg => exact execBlockHeaderReg_canonical hs _ _ _
  | sel => exact execSel_canonical hs _ _ _ _ _ _
  | bra => exact execBra_canonical hs _
  | bc => exact execBc_canonical hs _ _ _
  | call => exact execCall_canonical hs _
  | bq => exact execBq_canonical hs _ _
  | bx => exact execBx_canonical hs _
  | bcast => exact execBcast_canonical hs _ _ _
  | xsend => exact execXsend_canonical hs _ _ _
  | xrecv => exact execXrecv_canonical hs _ _
  | mfs => exact execMfs_canonical hs _ _ _
  | mts => exact execMts_canonical hs _ _ _
  | pfg => exact execPfg_canonical hs _ _ _
  | l1inv => exact execL1inv_canonical hs _ _ _
  | l1invAll => exact execL1invAll_canonical hs _
  | mark => exact execMark_canonical hs _
  | fence => exact execFence_canonical hs _
  | qfence => exact execQfence_canonical hs _ _ _
  | tkpush => exact execTkpush_canonical hs _
  | tkpop => exact execTkpop_canonical hs _
  | barinit => exact execBarinit_canonical hs _ _ _
  | bararr => exact execBararr_canonical hs _ _ _ _
  | barwait => exact execBarwait_canonical hs _ _ _ _
  | vldg => exact execVldg_canonical hs _ _ _ _ _ _
  | vstg => exact execVstg_canonical hs _ _ _ _ _ _
  | alrb => exact execAlrb_canonical hs _ _ _
  | alrl => exact execAlrl_canonical hs _ _ _ _ _ _
  | alrs => exact execAlrs_canonical hs _ _ _ _ _
  | alrc => exact execAlrc_canonical hs _ _
  | vext => exact execVext_canonical hs _ _ _ _ _ _
  | sbind => exact execSbind_canonical hs _ _ _ _
  | sbop => exact execSbop_canonical hs _ _ _
  | sunbind => exact execSunbind_canonical hs _ _ _
  | sadv => exact execSadv_canonical hs _ _ _
  | sstat => exact execSstat_canonical hs _ _ _
  | lcfg => exact execLcfg_canonical hs _ _ _
  | lstat => exact execLstat_canonical hs _ _ _
  | lfence => exact execLfence_canonical hs _ _
  | lsync => exact execLsync_canonical hs _ _
  | lwst => exact execLwst_canonical hs _ _ _ _ _
  | lact => exact execLact_canonical hs _ _ _ _ _
  | lmac => exact execLmac_canonical hs _ _ _ _
  | laccz => exact execLaccz_canonical hs _ _
  | laccr => exact execLaccr_canonical hs _ _ _ _ _
  | lred => exact execLred_canonical hs _ _ _ _ _ _ _
  | mlay => exact execMlay_canonical hs _ _ _ _ _ _ _ _
  | munf => exact execMunf_canonical hs _ _ _ _ _ _ _ _
  | mld => exact execMld_canonical hs _ _ _ _ _ _ _ _ _
  | mmul => exact execMmul_canonical hs _ _ _ _ _ _ _ _ _
  | mdrn => exact execMdrn_canonical hs _ _ _ _ _ _ _ _ _
  | mzero => exact execMzero_canonical hs _ _ _ _ _ _ _
  | msemSig => exact execMsemSig_canonical hs _ _ _
  | msemWait => exact execMsemWait_canonical hs _ _ _
  | msemRd => exact execMsemRd_canonical hs _ _ _
  | msemSt => exact execMsemSt_canonical hs _ _
  | sqfork => exact execSqfork_canonical hs _ _ _ _
  | sqwait => exact execSqwait_canonical hs _ _ _ _ _
  | ldq => exact execLdq_canonical hs _ _ _ _ _ _
  | vldq => exact execVldq_canonical hs _ _ _ _ _ _
  | stq => exact execStq_canonical hs _ _ _ _ _
  | vstq => exact execVstq_canonical hs _ _ _ _ _
  | sqattn => exact execSqattn_canonical hs _ _ _ _ _
  | pfxh => exact execPfxh_canonical hs _ _ _ _
  | pfxl => exact execPfxl_canonical hs _ _ _ _
  | pfxlH => exact execPfxlH_canonical hs _ _ _
  | pfxlS => exact execPfxlS_canonical hs _ _ _
  | pfxi => exact execPfxi_canonical hs _ _ _ _ _
  | pfxd => exact execPfxd_canonical hs _ _ _
  | pfxdU => exact execPfxdU_canonical hs _ _ _
  | trap => exact execTrap_canonical hs _ _
  | chk => exact execChk_canonical hs _ _ _
  | twany => exact execTwany_canonical hs _ _ _ _
  | twall => exact execTwall_canonical hs _ _ _ _
  | tffr => exact execTffr_canonical hs _ _ _
  | tclr => exact execTclr_canonical hs _ _
  | tabort => exact execTabort_canonical hs _
  | tstat => exact execTstat_canonical hs _ _ _
  | tret => exact execTret_canonical hs _ _ _ _
  | tlbinvPg => exact execTlbinvPg_canonical hs _ _
  | tlbinvAs => exact execTlbinvAs_canonical hs _
  | asset => exact execAsset_canonical hs _
  | launch => exact execLaunch_canonical hs _ _ _ _
  | lwait => exact execLwait_canonical hs _ _ _
  | lpoll => exact execLpoll_canonical hs _ _ _
  | rcbq => exact execRcbq_canonical hs _ _ _ _
  | spop => exact execSpop_canonical hs _ _
  | spush => exact execSpush_canonical hs _ _ _ _
  | wlapp => exact execWlapp_canonical hs _ _ _ _
  | wltake => exact execWltake_canonical hs _ _ _
  | quies => exact execQuies_canonical hs _ _ _
  | nop16 => exact execNop16_canonical hs
  | ret => exact execRet_canonical hs
  | nop => exact execNop_canonical hs
  | halt => exact execHalt_canonical hs
  | tend => exact execTend_canonical hs
  | yield => exact execYield_canonical hs
  | tlbinvAll => exact execTlbinvAll_canonical hs
  | ctlSplitWrite => exact execCtlSplitWrite_canonical hs
  | ctlSplitApply => exact execCtlSplitApply_canonical hs
  | slotPlanWrite => exact execSlotPlanWrite_canonical hs
  | qfenceReturn => exact execQfenceReturn_canonical hs
  | tagWaitReturn => exact execTagWaitReturn_canonical hs
  | tagWaitTimeout => exact execTagWaitTimeout_canonical hs
  | barwaitReturn => exact execBarwaitReturn_canonical hs
  | quiesReturn => exact execQuiesReturn_canonical hs
  | quiesTimeout => exact execQuiesTimeout_canonical hs
  | sunbindComplete => exact execSunbindComplete_canonical hs
  | streamFetch => exact execStreamFetch_canonical hs
  | streamStore => exact execStreamStore_canonical hs
  | alrGrant => exact execAlrGrant_canonical hs
  | alrHoldExpiry => exact execAlrHoldExpiry_canonical hs
  | lcfgApply => exact execLcfgApply_canonical hs
  | lfenceReturn => exact execLfenceReturn_canonical hs
  | lsyncRelease => exact execLsyncRelease_canonical hs
  | trellisSwitch => exact execTrellisSwitch_canonical hs
  | lwstBind => exact execLwstBind_canonical hs
  | lactLoad => exact execLactLoad_canonical hs
  | lmacPiece => exact execLmacPiece_canonical hs
  | lacczClear => exact execLacczClear_canonical hs
  | laccrReadout => exact execLaccrReadout_canonical hs
  | lredReduce => exact execLredReduce_canonical hs
  | ringFold => exact execRingFold_canonical hs
  | mlayExecute => exact execMlayExecute_canonical hs
  | munfExecute => exact execMunfExecute_canonical hs
  | mldExecute => exact execMldExecute_canonical hs
  | mmulExecute => exact execMmulExecute_canonical hs
  | mdrnExecute => exact execMdrnExecute_canonical hs
  | mzeroExecute => exact execMzeroExecute_canonical hs
  | msemWaitReturn => exact execMsemWaitReturn_canonical hs
  | transferChunk => exact execTransferChunk_canonical hs
  | creqExecute => exact execCreqExecute_canonical hs
  | transferCompletion => exact execTransferCompletion_canonical hs
  | completionRecordWrite => exact execCompletionRecordWrite_canonical hs
  | ringWaitTimeout => exact execRingWaitTimeout_canonical hs
  | systemWriteAck => exact execSystemWriteAck_canonical hs
  | remoteNak => exact execRemoteNak_canonical hs
  | systemReadResponse => exact execSystemReadResponse_canonical hs
  | sqwaitReturn => exact execSqwaitReturn_canonical hs
  | sqwaitTimeout => exact execSqwaitTimeout_canonical hs
  | lenAdvance => exact execLenAdvance_canonical hs
  | sqattnExecute => exact execSqattnExecute_canonical hs
  | taskStart => exact execTaskStart_canonical hs
  | taskCommit => exact execTaskCommit_canonical hs
  | deadlockDetect => exact execDeadlockDetect_canonical hs
  | trapDelivery => exact execTrapDelivery_canonical hs
  | trapRecordPublish => exact execTrapRecordPublish_canonical hs
  | regionAdmission => exact execRegionAdmission_canonical hs
  | launchPriorityRise => exact execLaunchPriorityRise_canonical hs
  | balancerRun => exact execBalancerRun_canonical hs
  | coreJoinStage => exact execCoreJoinStage_canonical hs
  | coreGrant => exact execCoreGrant_canonical hs
  | coreWaitPriorityRise => exact execCoreWaitPriorityRise_canonical hs
  | quiescenceReport => exact execQuiescenceReport_canonical hs
  | regionCompletion => exact execRegionCompletion_canonical hs
  | regionAbort => exact execRegionAbort_canonical hs
  | lwaitYield => exact execLwaitYield_canonical hs
  | lwaitResume => exact execLwaitResume_canonical hs
  | launchMessage => exact execLaunchMessage_canonical hs
  | abortMessage => exact execAbortMessage_canonical hs
  | spaceMessage => exact execSpaceMessage_canonical hs
  | balloonMessage => exact execBalloonMessage_canonical hs
  | pageWalk => exact execPageWalk_canonical hs
  | l2Writeback => exact execL2Writeback_canonical hs
  | rakeReclaim => exact execRakeReclaim_canonical hs
  | spaceTimeout => exact execSpaceTimeout_canonical hs
  | balloonReclaim => exact execBalloonReclaim_canonical hs
  | granuleMigrate => exact execGranuleMigrate_canonical hs
  | columnDrain => exact execColumnDrain_canonical hs
  | columnRetire => exact execColumnRetire_canonical hs
  | migrationTimeout => exact execMigrationTimeout_canonical hs
  | migrationRetry => exact execMigrationRetry_canonical hs
  | frameBoundary => exact execFrameBoundary_canonical hs
  | streamingSlot => exact execStreamingSlot_canonical hs
  | refreshSlot => exact execRefreshSlot_canonical hs
  | maintenanceSlot => exact execMaintenanceSlot_canonical hs
  | retrainingDue => exact execRetrainingDue_canonical hs
  | retrainingForce => exact execRetrainingForce_canonical hs
  | retrainingEnd => exact execRetrainingEnd_canonical hs
  | bankSleep => exact execBankSleep_canonical hs
  | bankWake => exact execBankWake_canonical hs
  | powerSample => exact execPowerSample_canonical hs
  | preemptionRequest => exact execPreemptionRequest_canonical hs
  | contextHalt => exact execContextHalt_canonical hs
  | unitStopAck => exact execUnitStopAck_canonical hs
  | collectorReport => exact execCollectorReport_canonical hs
  | partitionSwap => exact execPartitionSwap_canonical hs
  | contextRestore => exact execContextRestore_canonical hs
  | rdmaWriteInbound => exact execRdmaWriteInbound_canonical hs
  | rdmaReadInbound => exact execRdmaReadInbound_canonical hs
  | congestionNotification => exact execCongestionNotification_canonical hs
  | frameDrop => exact execFrameDrop_canonical hs
  | flitReplay => exact execFlitReplay_canonical hs
  | portRetrain => exact execPortRetrain_canonical hs
  | boot => exact execBoot_canonical s
  | attestationRequest => exact execAttestationRequest_canonical hs
  | configRecordSubmit => exact execConfigRecordSubmit_canonical hs
  | firmwareImageLoad => exact execFirmwareImageLoad_canonical hs
  | firmwareSlotSwitch => exact execFirmwareSlotSwitch_canonical hs
  | firmwareSwitchBack => exact execFirmwareSwitchBack_canonical hs
  | fatalError => exact execFatalError_canonical hs
  | priorityFlowControlFrame => exact execPriorityFlowControlFrame_canonical hs
  | ucieLaneRepair => exact execUcieLaneRepair_canonical hs
  | idustTranslationDone => exact execIdustTranslationDone_canonical hs

section
variable {s : State} (hs : Memory.wf s.mem = true)
include hs

/-- Naming another engine as the one that acts changes no byte. -/
theorem State.withCur_wf (c : Issue) : Memory.wf ({ s with cur := c } : State).mem = true := hs

theorem State.runParcels_canonical (ps : List Parcel) : Canonical (s.runParcels ps) := by
  unfold State.runParcels
  split
  · rw [execDec_eq]
    exact exec_canonical (State.withCur_wf hs _) _
  · exact canonical_next (wf_of_mem (State.trapHere_mem ..) hs)

theorem State.runBody_canonical (n : Nat) : Canonical (s.runBody n) := by
  unfold State.runBody
  split
  · exact State.runParcels_canonical hs _
  · exact canonical_next (wf_of_mem (State.trapHere_mem ..) hs)
  · exact canonical_next (wf_of_mem (State.fetchMiss_mem ..) hs)
  · exact canonical_next (wf_of_mem (State.trapHere_mem ..) hs)

theorem State.runHeader_canonical : Canonical s.runHeader := by
  unfold State.runHeader
  split
  · exact exec_canonical (State.withCur_wf hs _) _
  · exact canonical_next (wf_of_mem (State.trapHere_mem ..) hs)
  · exact canonical_next (wf_of_mem (State.trapHere_mem ..) hs)
  · exact canonical_next (wf_of_mem (State.fetchMiss_mem ..) hs)
  · exact canonical_next (wf_of_mem (State.trapHere_mem ..) hs)

theorem State.runEngine_canonical : Canonical s.runEngine := by
  unfold State.runEngine
  split
  · exact State.runHeader_canonical hs
  · exact Canonical.ite (State.runBody_canonical hs _) (canonical_next (wf_of_mem (State.tryInstance_mem ..) hs))

/-- What happens in a slot of the schedule, whichever it is. -/
theorem State.act_canonical (t : Slot) : Canonical (s.act t) := by
  unfold State.act
  refine Canonical.ite (canonical_next hs) ?_
  cases t.act with
  | engine core ctx e hold =>
    exact Canonical.ite (State.runEngine_canonical (wf_of_mem (State.modCore_mem ..) hs)) (canonical_next hs)
  | perform core ctx id part => exact canonical_next (State.tryPerform_wf (State.withCur_wf hs _) ..)
  | arb core ctx e => exact canonical_next (wf_of_mem (State.loseClock_mem ..) hs)
  | event i a => exact Canonical.ite (exec_canonical (State.withCur_wf hs _) i) (canonical_next hs)
  | badWord core w => exact canonical_next (wf_of_mem (State.badWord_mem ..) hs)
  | badLine l n b => exact canonical_next (wf_of_mem (State.symbolError_mem ..) hs)
  | linkFail b c n => exact canonical_next (ite_wf (wf_of_mem (State.eraseLayer_mem ..) hs) hs)
  | evictL1 core l => exact canonical_next (wf_of_mem (State.l1Replace_mem ..) hs)
  | badRequest q => exact canonical_next (ite_wf (wf_of_mem (State.send_mem ..) hs) hs)
  | arrive id => exact canonical_next (State.arriveLate_wf (State.withCur_wf hs _) id)
  | laneEnter n core ctx => exact canonical_next (wf_of_mem (State.laneEnter_mem ..) hs)
  | readBox p d n => exact canonical_next (wf_of_mem (State.readBox_mem ..) hs)
  | firmware f => exact canonical_next (ite_wf (State.firmware_wf (State.withCur_wf hs _) f) hs)

end

theorem State.nextSlot_mem (s : State) : s.nextSlot.2.mem = s.mem := by
  unfold State.nextSlot
  split
  · rfl
  · rfl

theorem step_canonical {s : State} (hs : Memory.wf s.mem = true) : Canonical (step s) :=
  State.act_canonical (wf_of_mem ((State.tick_mem ..).trans s.nextSlot_mem) hs) _

/-- Settles O7: whatever the slot of the schedule, bytes reach device memory only through `memWrite`, which keeps it in its
canonical form. -/
theorem everyStepKeepsMemoryCanonical : Obligations.EveryStepKeepsMemoryCanonical :=
  ⟨fun _ t hs h => step_canonical hs t h, fun _ _ hm hn h => Memory.ext hm hn h⟩


end Sys2Proof.Machine
end
